-- ==== Sys2Proof/Word.lean ====
section
/-!
DEFINITION. The word types of the PX3840 and their plainest arithmetic (spec/00 R5, R6).
-/
namespace Sys2Proof

/-- A 64-bit scalar register (spec/07 R143). -/
abbrev Word := BitVec 64
/-- A 32-bit control word (spec/02 R28). -/
abbrev CWord := BitVec 32
/-- A 64-bit block word (spec/02 R42). -/
abbrev BWord := BitVec 64
abbrev Byte := BitVec 8
/-- A register number of the x, v or p file (spec/01 R11). -/
abbrev Reg := BitVec 5
/-- A scale register number (spec/04 R85). -/
abbrev KReg := BitVec 3

/-- The low n bits of v as a signed number (spec/01 R25). -/
def sextN (v n : Nat) : Int :=
  let x := v % 2 ^ n
  if 2 * x < 2 ^ n then (x : Int) else (x : Int) - (2 ^ n : Nat)

/-- An exact integer reduced modulo 2^w (spec/01 R24, wrap64 with w = 64). -/
def wrapN (w : Nat) (z : Int) : Nat := (z % ((2 ^ w : Nat) : Int)).toNat

/-- wrap64 of spec/01 R25. -/
def wrap64 (z : Int) : Nat := wrapN 64 z

/-- Bits hi down to lo of a number (spec/01 R25). -/
def bitsOf (v hi lo : Nat) : Nat := v / 2 ^ lo % 2 ^ (hi + 1 - lo)

/-- Bit i of a number. -/
def bitOf (v i : Nat) : Bool := v / 2 ^ i % 2 == 1

end Sys2Proof
end

