-- ==== Sys2Proof/Syntax.lean ====
section
/-!
DEFINITION. The instructions and events of the PX3840 as data: one constructor for every row of
spec/opcode_table.json. Operand types carry only what the encodings of spec/02 can say.
-/
namespace Sys2Proof

/-- Width and extension of a scalar integer word (spec/02 R35). -/
inductive ISize where | s64 | z64 | s32 | z32
  deriving DecidableEq, Repr
/-- Rounding modes (spec/02 R36, R42; spec/04 R89). -/
inductive Rm where | rne | rtz | rdn | rup
  deriving DecidableEq, Repr
/-- Formats of the scalar float group (spec/02 R36, codes 000 to 010). -/
inductive FFmt where | f32 | f16 | bf16
  deriving DecidableEq, Repr
/-- Codes of fcvt (spec/02 R36, codes 000 to 110). -/
inductive CvtTy where | f32 | f16 | bf16 | s64 | z64 | s32 | z32
  deriving DecidableEq, Repr
/-- Cache hints (spec/02 R31). -/
inductive Hint where | none | na | byp
  deriving DecidableEq, Repr
/-- Orientation of an access (spec/02 R31). -/
inductive Orient where | row | col
  deriving DecidableEq, Repr
/-- Scopes, narrowest first (spec/02 R33). -/
inductive Scope where | hart | core | clus | die | pkg | sys
  deriving DecidableEq, Repr
/-- Access sizes of ld.acq and st.rel (spec/02 R32). -/
inductive AccSize where | b8 | b16 | b32 | b64
  deriving DecidableEq, Repr
/-- Element types by code 0 to 14 (spec/01 R12). -/
inductive ETy where
  | s8 | z8 | s16 | z16 | s32 | z32 | s64 | z64 | f32 | bf16 | f16 | e4m3 | e5m2 | q | pr
  deriving DecidableEq, Repr
/-- Types of an atomic (spec/02 R38). -/
inductive AmoTy where | s32 | z32 | s64 | z64 | f32 | bf16 | f16
  deriving DecidableEq, Repr
/-- Operations of an atomic (spec/02 R38). -/
inductive AmoOp where | add | fadd | min | max | and | or | xor | swap | cas
  deriving DecidableEq, Repr
/-- Commutative modes (spec/02 R37). -/
inductive CMode where | dissolve | addF32 | addBf16 | addS32 | minF32 | maxF32 | minS32 | maxS32
  deriving DecidableEq, Repr
/-- Width codes of setvl (spec/02 R39). -/
inductive WCode where | w8 | w16 | w32 | w64 | sliced
  deriving DecidableEq, Repr
/-- The accumulators (spec/10 R198). -/
inductive Acc where | za | zb
  deriving DecidableEq, Repr
/-- What mzero clears (spec/02 R41). -/
inductive ZSel where | za | zb | both
  deriving DecidableEq, Repr
/-- Conditions of vcmp (spec/02 R45). -/
inductive CmpOp where | eq | ne | lt | le | gt | ge
  deriving DecidableEq, Repr

/-- A predication prefix, (pN) or (!pN) (spec/01 R14). -/
structure Prefix where
  p : Reg
  neg : Bool
  deriving DecidableEq, Repr
/-- What every block word carries: the convoy bit and the prefix (spec/02 R42). -/
structure BHead where
  cv : Bool
  pred : Option Prefix
  deriving DecidableEq, Repr
/-- A vector source with its chain bit (spec/01 R16). -/
structure Src where
  r : Reg
  ch : Bool
  deriving DecidableEq, Repr
/-- The two scale registers of a scaled product (spec/02 R41). -/
structure Scales where
  ka : KReg
  kb : KReg
  deriving DecidableEq, Repr
/-- A vector memory operand: base register, signed offset, orientation, element type (spec/02 R39). -/
structure VMem where
  base : Reg
  off : BitVec 5
  o : Orient
  t : ETy
  deriving DecidableEq, Repr

/-- How a word reaches a control register (spec/07 R150). -/
inductive CregOp where | get | set | swap
  deriving DecidableEq, Repr
/-- The shape of a cached line (spec/12 R244): a row line by its 64-byte block, a column line by panel,
width, column offset and row group. -/
inductive LineKey where
  | row (block : Nat)
  | col (panel w c g : Nat)
  deriving DecidableEq, Repr
/-- Who asks for a translation and what for (spec/14 R294). -/
inductive AccKind where | load | store | both | fetch | cache
  deriving DecidableEq, Repr
/-- The registers of the management window that the spec names (spec/16 R318): their addresses are not given
(log 11), so each is named here. -/
inductive MgmtReg where
  | stopBase (tenant : Nat)                 -- spec/16 R334
  | tenantTable                             -- spec/15 R306
  | compressionMap (stack unit : Nat)       -- spec/16 R322
  | trackerThreshold (die : Nat)            -- spec/16 R328
  | frameRing (die : Nat)                   -- spec/16 R328: pushes a free frame
  | queuePair (port qp : Nat)               -- spec/19 R379, R381: tenant in [11:0]
  | queueSpace (port qp : Nat)              -- spec/19 R381: tbase of the queue pair's address space
  | sendQueue (port qp : Nat)               -- spec/19 R379: the send queue of a queue pair
  | peerEntry (port peer : Nat)             -- spec/19 R379, R383
  | other (addr : Nat)                      -- any other word of the window
  deriving DecidableEq, Repr
/-- A link whose flits carry a CRC (spec/16 R324). -/
inductive Link where
  | dieNet (d : Nat) | cenel (c : Nat) | cxl (p : Nat)
  deriving DecidableEq, Repr
/-- How a faulting operation's retry turned out (spec/16 R324). -/
inductive Retry where | transient | lasting
  deriving DecidableEq, Repr
/-- A fault of a memory or a link: how its second attempt ended, and the tenant of whose one operation it is part, if of one (spec/16
R324, spec/18 R347; log 26). -/
structure FaultCase where
  retry : Retry
  ten : Option Nat
  deriving DecidableEq, Repr

/-- Every row of spec/opcode_table.json. -/
inductive Instr where
  -- scalar integer group, spec/07 R151
  | add (sz : ISize) (d s t : Reg) | sub (sz : ISize) (d s t : Reg) | mul (sz : ISize) (d s t : Reg)
  | mulh (sz : ISize) (d s t : Reg) | div (sz : ISize) (d s t : Reg) | rem (sz : ISize) (d s t : Reg)
  | and (sz : ISize) (d s t : Reg) | or (sz : ISize) (d s t : Reg) | xor (sz : ISize) (d s t : Reg)
  | shl (sz : ISize) (d s t : Reg) | shr (sz : ISize) (d s t : Reg) | sra (sz : ISize) (d s t : Reg)
  | clz (sz : ISize) (d s : Reg) | ctz (sz : ISize) (d s : Reg) | popc (sz : ISize) (d s : Reg)
  | min (sz : ISize) (d s t : Reg) | max (sz : ISize) (d s t : Reg) | slt (sz : ISize) (d s t : Reg)
  | sel (sz : ISize) (d s t : Reg)
  -- immediates, spec/07 R152, R153
  | addi (d s : Reg) (i : BitVec 15) | andi (d s : Reg) (i : BitVec 15) | ori (d s : Reg) (i : BitVec 15)
  | xori (d s : Reg) (i : BitVec 15) | shli (d s : Reg) (n : BitVec 6) | shri (d s : Reg) (n : BitVec 6)
  | srai (d s : Reg) (n : BitVec 6) | slti (d s : Reg) (i : BitVec 15)
  | lhi (d : Reg) (i : BitVec 20) | pcrel (d : Reg) (i : BitVec 20)
  -- branches and jumps, spec/07 R154 to R156
  | jmp (d : Reg) (i : BitVec 20) | jr (d s : Reg) (i : BitVec 15) | jtab (s t : Reg) (i : BitVec 15)
  | beq (s t : Reg) (i : BitVec 15) | bne (s t : Reg) (i : BitVec 15) | blt (s t : Reg) (i : BitVec 15)
  | bge (s t : Reg) (i : BitVec 15)
  -- scalar loads and stores, spec/07 R157, spec/14 R286
  | ldS8 (d s : Reg) (i : BitVec 12) (h : Hint) (o : Orient) | ldZ8 (d s : Reg) (i : BitVec 12) (h : Hint) (o : Orient)
  | ldS16 (d s : Reg) (i : BitVec 12) (h : Hint) (o : Orient) | ldZ16 (d s : Reg) (i : BitVec 12) (h : Hint) (o : Orient)
  | ldS32 (d s : Reg) (i : BitVec 12) (h : Hint) (o : Orient) | ldZ32 (d s : Reg) (i : BitVec 12) (h : Hint) (o : Orient)
  | ld64 (d s : Reg) (i : BitVec 12) (h : Hint)
  | st8 (d s : Reg) (i : BitVec 12) (h : Hint) (o : Orient) | st16 (d s : Reg) (i : BitVec 12) (h : Hint) (o : Orient)
  | st32 (d s : Reg) (i : BitVec 12) (h : Hint) (o : Orient) | st64 (d s : Reg) (i : BitVec 12) (h : Hint)
  | ldAcq (d s : Reg) (z : AccSize) (i : BitVec 10) (c : Scope)
  | stRel (d s : Reg) (z : AccSize) (i : BitVec 10) (c : Scope)
  -- scalar float group, spec/07 R160, R161
  | fadd (f : FFmt) (rm : Rm) (d s t : Reg) | fsub (f : FFmt) (rm : Rm) (d s t : Reg)
  | fmul (f : FFmt) (rm : Rm) (d s t : Reg) | fdiv (f : FFmt) (rm : Rm) (d s t : Reg)
  | fsqrt (f : FFmt) (rm : Rm) (d s : Reg) | fma (f : FFmt) (rm : Rm) (d s t : Reg)
  | fmin (f : FFmt) (d s t : Reg) | fmax (f : FFmt) (d s t : Reg)
  | fcmpEq (f : FFmt) (d s t : Reg) | fcmpLt (f : FFmt) (d s t : Reg) | fcmpLe (f : FFmt) (d s t : Reg)
  | fcmpUn (f : FFmt) (d s t : Reg)
  | fcvt (dst src : CvtTy) (rm : Rm) (d s : Reg) | fclass (f : FFmt) (d s : Reg)
  -- control registers, spec/07 R150
  | cget (d : Reg) (c : BitVec 12) | cset (s : Reg) (c : BitVec 12) | cswap (d s : Reg) (c : BitVec 12)
  -- memory model, spec/14 R287 to R292
  | fenceAcq (c : Scope) | fenceRel (c : Scope) | fenceSc (c : Scope)
  | seal (s t : Reg) | unseal (s t : Reg) | crange (m : CMode) (s t : Reg)
  | cflush (s t : Reg) | cinval (s t : Reg)
  -- atomics, spec/13 R274, R275
  | amoAdd (ty : AmoTy) (c : Scope) (d s t : Reg) | amoFadd (ty : AmoTy) (c : Scope) (d s t : Reg)
  | amoMin (ty : AmoTy) (c : Scope) (d s t : Reg) | amoMax (ty : AmoTy) (c : Scope) (d s t : Reg)
  | amoAnd (ty : AmoTy) (c : Scope) (d s t : Reg) | amoOr (ty : AmoTy) (c : Scope) (d s t : Reg)
  | amoXor (ty : AmoTy) (c : Scope) (d s t : Reg) | amoSwap (ty : AmoTy) (c : Scope) (d s t : Reg)
  | amoCas (ty : AmoTy) (c : Scope) (d s t : Reg)
  -- cluster engines, spec/13 R260, R268
  | cp (od os : Orient) (d s t : Reg)
  | abarInit (s t : Reg) | abarExpect (s t : Reg) | abarArrive (s : Reg) | abarWait (s t : Reg)
  -- gang and work words, spec/15 R309
  | gbar | glaunch (d s : Reg) | gwait (s t : Reg) | wadd (s t : Reg) | wtake (d s : Reg) | tidle | tquiet (d : Reg)
  -- trap and context words, spec/11 R226
  | trap (s : Reg) | tret | halt | wfe | vown (d : Reg) | vsave (s : Reg) | vrest (s : Reg)
  -- Reel words, spec/18 R362
  | tmark (s t : Reg) | tflt (s : Reg) | cexp (s : Reg) | prog (s : Reg) | lcap (d s : Reg)
  -- Slate words, spec/19 R388
  | jput (s : Reg) | jsync (s : Reg) | emit (s t : Reg) | jtrunc (s : Reg) | jreplay (s : Reg)
  -- vector issue, spec/02 R39
  | setvl (keep : Bool) (w : WCode) (d s : Reg) | setvtype (s : Reg) | vf (i : BitVec 20) | vdrain (i : BitVec 20)
  | vld (d c : Reg) (m : VMem) | vst (a c : Reg) (m : VMem) | vstMc (a c : Reg) (m : VMem) | vlff (d : Reg) (m : VMem)
  | vldx (d b : Reg) (m : VMem) | vstx (a b : Reg) (m : VMem)
  | scommit (p : Option Prefix) | sabort | vmvx (t : ETy) (d a c : Reg) | vbcast (t : ETy) (d s : Reg)
  -- cross-lane, spec/02 R40
  | vredAdd (t : ETy) (p : Option Prefix) (d a : Reg) | vredMin (t : ETy) (p : Option Prefix) (d a : Reg)
  | vredMax (t : ETy) (p : Option Prefix) (d a : Reg) | vredAnd (t : ETy) (p : Option Prefix) (d a : Reg)
  | vredOr (t : ETy) (p : Option Prefix) (d a : Reg) | vredXor (t : ETy) (p : Option Prefix) (d a : Reg)
  | vminidx (t : ETy) (p : Option Prefix) (d a : Reg) | vmaxidx (t : ETy) (p : Option Prefix) (d a : Reg)
  | vscanAdd (t : ETy) (p : Option Prefix) (d a : Reg) | vscanMin (t : ETy) (p : Option Prefix) (d a : Reg)
  | vscanMax (t : ETy) (p : Option Prefix) (d a : Reg) | vscanAnd (t : ETy) (p : Option Prefix) (d a : Reg)
  | vscanOr (t : ETy) (p : Option Prefix) (d a : Reg) | vscanXor (t : ETy) (p : Option Prefix) (d a : Reg)
  | vperm (t : ETy) (d a b : Reg) | vcompress (t : ETy) (d a p : Reg) | vexpand (t : ETy) (d a p : Reg)
  | vslideUp (t : ETy) (d a c : Reg) | vslideDown (t : ETy) (d a c : Reg)
  | vfirst (d a : Reg) | vpcount (d a : Reg)
  -- matrix, spec/02 R41
  | menter (s : Reg) | mleave | mzero (z : ZSel)
  | mop (t : ETy) (z : Acc) (rm : Rm) (k : Option Scales) (a b : Reg)
  | mtile (t : ETy) (z : Acc) (rm : Rm) (k : Option Scales) (a : Reg) (b : BitVec 2)
  | mdrain (o : Orient) (t : ETy) (z : Acc) (rm : Rm) (d c : Reg) | mdrainB (o : Orient) (t : ETy) (z : Acc) (rm : Rm) (c : Reg)
  | mld (o : Orient) (t : ETy) (z : Acc) (s c : Reg) | mst (o : Orient) (t : ETy) (z : Acc) (rm : Rm) (s c : Reg)
  | mbwdX (t : ETy) (rm : Rm) (k : Option Scales) (a b : BitVec 2) | mbwdW (t : ETy) (rm : Rm) (k : Option Scales) (a b : BitVec 2)
  | mbwdBoth (t : ETy) (rm : Rm) (k : Option Scales) (a b : BitVec 2)
  -- block words, spec/02 R45, spec/05 R100
  | vadd (h : BHead) (t : ETy) (rm : Rm) (d : Reg) (a b : Src) (m : Option Reg)
  | vsub (h : BHead) (t : ETy) (rm : Rm) (d : Reg) (a b : Src) (m : Option Reg)
  | vmul (h : BHead) (t : ETy) (rm : Rm) (d : Reg) (a b : Src) (m : Option Reg)
  | vmulh (h : BHead) (t : ETy) (d : Reg) (a b : Src)
  | vmac (h : BHead) (t : ETy) (rm : Rm) (d : Reg) (a b : Src) (m : Option Reg)
  | vfma (h : BHead) (t : ETy) (rm : Rm) (d : Reg) (a b c : Src) (m : Option Reg)
  | vdiv (h : BHead) (t : ETy) (rm : Rm) (d : Reg) (a b : Src) (m : Option Reg)
  | vrem (h : BHead) (t : ETy) (d : Reg) (a b : Src) (m : Option Reg)
  | vmin (h : BHead) (t : ETy) (d : Reg) (a b : Src) | vmax (h : BHead) (t : ETy) (d : Reg) (a b : Src)
  | vabs (h : BHead) (t : ETy) (d : Reg) (a : Src) (m : Option Reg) | vneg (h : BHead) (t : ETy) (d : Reg) (a : Src) (m : Option Reg)
  | vsqrt (h : BHead) (t : ETy) (rm : Rm) (d : Reg) (a : Src)
  | vand (h : BHead) (t : ETy) (d : Reg) (a b : Src) | vor (h : BHead) (t : ETy) (d : Reg) (a b : Src)
  | vxor (h : BHead) (t : ETy) (d : Reg) (a b : Src) | vnot (h : BHead) (t : ETy) (d : Reg) (a : Src)
  | vshl (h : BHead) (t : ETy) (d : Reg) (a b : Src) | vshr (h : BHead) (t : ETy) (d : Reg) (a b : Src)
  | vsra (h : BHead) (t : ETy) (d : Reg) (a b : Src)
  | vpopc (h : BHead) (t : ETy) (d : Reg) (a : Src) | vclz (h : BHead) (t : ETy) (d : Reg) (a : Src)
  | vsel (h : BHead) (t : ETy) (d : Reg) (a b : Src) (n : Reg) | vli (h : BHead) (t : ETy) (d : Reg) (i : BitVec 12)
  | vmov (h : BHead) (t : ETy) (d : Reg) (a : Src)
  | vcvt (h : BHead) (t u : ETy) (rm : Rm) (d : Reg) (a : Src) (m : Option Reg)
  | vclass (h : BHead) (t : ETy) (d : Reg) (a : Src)
  | vrcp (h : BHead) (rm : Rm) (d : Reg) (a : Src) (m : Option Reg) | vrsqrt (h : BHead) (rm : Rm) (d : Reg) (a : Src) (m : Option Reg)
  | vexp2 (h : BHead) (rm : Rm) (d : Reg) (a : Src) (m : Option Reg) | vlog2 (h : BHead) (rm : Rm) (d : Reg) (a : Src) (m : Option Reg)
  | vqadd (h : BHead) (d : Reg) (a b : Src) (m : Option Reg) | vqmul (h : BHead) (d : Reg) (a b : Src) (m : Option Reg)
  | vqpack (h : BHead) (u : ETy) (d : Reg) (a : Src) (m : Option Reg) | vqunpack (h : BHead) (t : ETy) (d : Reg) (a : Src)
  | vscale (h : BHead) (t : ETy) (rm : Rm) (d : Reg) (a : Src) (k : KReg) (m : Option Reg)
  -- predicate words, spec/06 R128
  | vcmp (h : BHead) (cc : CmpOp) (t : ETy) (d : Reg) (a b : Src)
  | pand (h : BHead) (d a b : Reg) | por (h : BHead) (d a b : Reg) | pxor (h : BHead) (d a b : Reg)
  | pnot (h : BHead) (d a : Reg) | pmov (h : BHead) (d a : Reg)
  | psgt (h : BHead) (t : ETy) (d : Reg) (a b : Src) | psge (h : BHead) (t : ETy) (d : Reg) (a b : Src)
  | pslt (h : BHead) (t : ETy) (d : Reg) (a b : Src) | psle (h : BHead) (t : ETy) (d : Reg) (a b : Src)
  | pset (h : BHead) (d : Reg) (a : Src) | pind (cv : Bool) (d : Reg) (v : Bool) | pcollapse (cv : Bool) (d a : Reg)
  | vblend (cv : Bool) (t : ETy) (rm : Rm) (d : Reg) (a b : Src) (c : Reg)
  | vbgrad (h : BHead) (t : ETy) (rm : Rm) (d : Reg) (g a b : Src) | psgrad (h : BHead) (t : ETy) (rm : Rm) (d : Reg) (g a b : Src)
  -- row memory and Geyser words, spec/03
  | vlde (h : BHead) (o : Orient) (t : ETy) (d : Reg) (a : Src) (i : BitVec 12)
  | vste (h : BHead) (o : Orient) (t : ETy) (a b : Src) (i : BitVec 12)
  | vamo (h : BHead) (op : AmoOp) (c : Scope) (ty : AmoTy) (d : Reg) (a b n : Src)
  | vdefer (h : BHead) (d : Option Reg) (a b c : Option Src) (i : BitVec 12)
  | vfetch (h : BHead) (i : BitVec 12) | vstop
  -- events of the hart and core
  | vectorQueueEntryStart (h : Nat) | laneGrant (h : Nat) | laneChange (h : Nat) | arrayGrant (h : Nat)
  | preemptionRequest (h : Nat) | preemptionTaken (h : Nat) | preemptionTimeout (h : Nat)
  | stopMessage (set : List Nat) (g : Nat) | wfeWake (h : Nat) | wfeTimeout (h : Nat)
  | waitingCregAccess (h : Nat) (op : CregOp) (d s : Reg) (c : BitVec 12)
  | kwinAccess (h : Nat) (op : CregOp) (d s : Reg) | ptempWrite (h : Nat) (v : Word) | tinvWrite (v : Word)
  | cnvalWrite (h : Nat) (v : Word) | lcfgWrite (core j : Nat) (v : Word) | residencyWrite (cluster : Nat) (c : BitVec 12) (v : Word)
  | tallowWrite (h : Nat) (v : Word) | ctbaseWrite (v : Word) | streamEnable (n : Nat) (v : Word) | streamDisable (n : Nat) (v : Word)
  | jcfgOff (v : Word) | jcfgEnable (v : Word) | jcfgMove (v : Word) | mgmtWindowWrite (r : MgmtReg) (v : Word)
  | energyTick (core : Nat)
  -- events of the launch machinery
  | launchListRead (d : Nat) | gangDispatch (d : Nat) (slots : List Nat) | waveHartStart (d slot : Nat) | gangCompletion (g : Nat)
  | gbarPass (g : Nat) | abarWaitEnd (h : Nat) | gwaitEnd (h : Nat)
  -- events of the cluster engines
  | copyRequestStart (k : Nat) | copyUnitLand (k : Nat) (error : Bool) | interlockWaitEnd (h : Nat)
  | atomicRequestArrival (h : Nat) | atomicService (k : Nat)
  -- events of the caches and of coherence
  | lineFill (core : Nat) (key : LineKey) (victim : Option LineKey) | dirtyDrain (k : Nat) (key : LineKey) (drop : Bool)
  | dirtyAgeDrain (k : Nat) (key : LineKey) | remoteCopyExpiry (k : Nat) (key : LineKey) | homeDrainAccept (n : Nat)
  | invalidation (k pa : Nat) | drainRequest (core : Nat) | translationWalk (h va : Nat) (kind : AccKind) (badRead : Bool)
  -- events of the memory below
  | columnLineFetch (k : Nat) (key : LineKey) | mscMissFill (stack line mask : Nat) (victim : Option Nat)
  | dramUncorrectableError (pa : Nat) (f : FaultCase) | remapSegmentError (stack seg : Nat) | cxlPoisonRead (port pa : Nat) (f : FaultCase)
  | flitCrcError (l : Link) (f : FaultCase) | hotPageEpoch (d : Nat) | pageMigration (d h va : Nat) | migrationAbandon (d page : Nat)
  -- events of the host and of peers
  | hostRead (port pa n : Nat) | hostWrite (port pa : Nat) (bytes : List Byte) | hostWriteRelease (port pa : Nat) (bytes : List Byte)
  | hostReadAcquire (port pa n : Nat) | rdmaWrite (e qp va : Nat) (bytes : List Byte)
  | rdmaWriteWithImmediate (e qp va : Nat) (bytes : List Byte) (imm : BitVec 32)
  -- events of containment and bring-up
  | haltRegisterRaise (ten : Nat) | engineHaltStop (engine ten : Nat) | haltRegisterLower (ten : Nat) | thermalTrip (d : Nat)
  | powerLimit (d : Nat) (on : Bool) | moduleReset (imagesOk : List Bool) | supervisorStart (entry : Word) (lists : List Nat) (image : Nat)
  | attestationQuote (nonce : Nat)
  -- events of Reel and time
  | recordAccept (d : Nat) | reelStallEnd (h : Nat) | counterSweep (d : Nat) | timebaseLock (base : Nat)
  | grandmasterLoss (e : Nat) | timePortSelect (e : Nat)
  -- events of Slate
  | journalAck (c : Nat) (byNew : Bool) | jsyncEnd (h : Nat) | emissionRecordWrite (c : Nat) | partnerLost (c : Nat) | newPartnerUnreachable (c : Nat)
  | ieee1588EventMessage (e : Nat) (ingress : Bool) (offset : Int) | ethernetFrameError (e : Nat) (f : FaultCase)
  deriving DecidableEq, Repr

end Sys2Proof
end

