-- ==== Sys2Proof/Machine/CregMap.lean ====
section
/-!
DEFINITION. The control-register map: numbers, access and the moment an access takes effect
(spec/07 R146; spec/12 R251; spec/14 R296; spec/18 R350; spec/19 R382).
-/
namespace Sys2Proof

/-- The control registers of the map, by name. -/
inductive Creg where
  | vlen | mvlen | vtype | dqlen | kidx | kwin | fpctl | fpflags | ptemp | gctr
  | hid | gid | gsz | garg | tenant | clk | tstamp | hstat
  | tvec | tpc | tcause | tval | tinfo | tscratch | ectr | ew (i : Nat)
  | resb (i : Nat) | resc (i : Nat) | tbase | tinv | dropcnt
  | sbase (i : Nat) | sctl (i : Nat) | tmask | tallow | cnsel | cnval | ctbase | cnloss
  | csel (i : Nat) | lcfg (i : Nat) | wlo (i : Nat) | whi (i : Nat) | wctl (i : Nat) | cxst
  | jsel | jnext | jack | jstat | jcidx | jcfg | jsid | jpeer | jring | jlog | jnpeer | jnring
  | jcnext | jcack | jctrunc | jcrep | jcend
  deriving DecidableEq, Repr

/-- The Access column of spec/07 R146. -/
inductive Access where
  | rw | ro | ros | s
  deriving DecidableEq, Repr

/-- The Effect column of spec/07 R146, R148. -/
inductive Effect where
  | atOnce | laterEntries | waits | vector
  deriving DecidableEq, Repr

namespace Machine

/-- The single registers of the map by number. -/
def cregSingle (n : Nat) : Option Creg :=
  match n with
  | 0x000 => some .vlen
  | 0x001 => some .mvlen
  | 0x002 => some .vtype
  | 0x003 => some .dqlen
  | 0x004 => some .kidx
  | 0x005 => some .kwin
  | 0x008 => some .fpctl
  | 0x009 => some .fpflags
  | 0x00A => some .ptemp
  | 0x00B => some .gctr
  | 0x010 => some .hid
  | 0x011 => some .gid
  | 0x012 => some .gsz
  | 0x013 => some .garg
  | 0x014 => some .tenant
  | 0x020 => some .clk
  | 0x021 => some .tstamp
  | 0x030 => some .hstat
  | 0x031 => some .tvec
  | 0x032 => some .tpc
  | 0x033 => some .tcause
  | 0x034 => some .tval
  | 0x035 => some .tinfo
  | 0x036 => some .tscratch
  | 0x040 => some .ectr
  | 0x090 => some .tbase
  | 0x091 => some .tinv
  | 0x092 => some .dropcnt
  | 0x120 => some .tmask
  | 0x121 => some .tallow
  | 0x128 => some .cnsel
  | 0x129 => some .cnval
  | 0x12A => some .ctbase
  | 0x12B => some .cnloss
  | 0x160 => some .cxst
  | 0x200 => some .jsel
  | 0x201 => some .jnext
  | 0x202 => some .jack
  | 0x203 => some .jstat
  | 0x210 => some .jcidx
  | 0x211 => some .jcfg
  | 0x212 => some .jsid
  | 0x213 => some .jpeer
  | 0x214 => some .jring
  | 0x215 => some .jlog
  | 0x216 => some .jnpeer
  | 0x217 => some .jnring
  | 0x218 => some .jcnext
  | 0x219 => some .jcack
  | 0x21A => some .jctrunc
  | 0x21B => some .jcrep
  | 0x21C => some .jcend
  | _ => none

/-- The numbered groups of the map: first number, count, register. -/
def cregGroup (n : Nat) : Option Creg :=
  if 0x041 ≤ n ∧ n ≤ 0x048 then some (.ew (n - 0x041))
  else if 0x080 ≤ n ∧ n ≤ 0x087 then some (.resb (n - 0x080))
  else if 0x088 ≤ n ∧ n ≤ 0x08F then some (.resc (n - 0x088))
  else if 0x100 ≤ n ∧ n ≤ 0x11F then
    (if n % 2 = 0 then some (.sbase ((n - 0x100) / 2)) else some (.sctl ((n - 0x100) / 2)))
  else if 0x130 ≤ n ∧ n ≤ 0x133 then some (.csel (n - 0x130))
  else if 0x134 ≤ n ∧ n ≤ 0x137 then some (.lcfg (n - 0x134))
  else if 0x140 ≤ n ∧ n ≤ 0x147 then some (.wlo (n - 0x140))
  else if 0x148 ≤ n ∧ n ≤ 0x14F then some (.whi (n - 0x148))
  else if 0x150 ≤ n ∧ n ≤ 0x157 then some (.wctl (n - 0x150))
  else none

/-- The register a number names; none for a number that is not in the map (spec/07 R146). -/
def cregOf (c : BitVec 12) : Option Creg :=
  match cregSingle c.toNat with
  | some r => some r
  | none => cregGroup c.toNat

/-- The Access column. -/
def cregAccess : Creg → Access
  | .vlen | .mvlen | .vtype | .dqlen | .hid | .gid | .gsz | .garg | .clk | .tstamp | .hstat
  | .dropcnt | .tmask | .cnloss | .cxst | .jnext | .jack | .jstat => .ro
  | .tenant | .ectr | .cnval => .ros
  | .kidx | .kwin | .fpctl | .fpflags | .ptemp | .gctr | .cnsel | .jsel => .rw
  | .tvec | .tpc | .tcause | .tval | .tinfo | .tscratch | .ew _ | .resb _ | .resc _ | .tbase | .tinv
  | .sbase _ | .sctl _ | .tallow | .ctbase | .csel _ | .lcfg _ | .wlo _ | .whi _ | .wctl _
  | .jcidx | .jcfg | .jsid | .jpeer | .jring | .jlog | .jnpeer | .jnring
  | .jcnext | .jcack | .jctrunc | .jcrep | .jcend => .s

/-- The Effect column. -/
def cregEffect : Creg → Effect
  | .dqlen | .fpflags | .gctr => .waits
  | .fpctl | .ptemp => .laterEntries
  | .kwin => .vector
  | _ => .atOnce

/-- Whether a register may be named by an access of a kind: a write never names an RO register (spec/07 R147). -/
def cregNameable (op : CregOp) (c : BitVec 12) : Bool :=
  match cregOf c, op with
  | none, _ => false
  | some _, .get => true
  | some r, _ => cregAccess r != .ro

end Machine
end Sys2Proof
end

