-- ==== Sys2Proof/WellFormed.lean ====
section
/-!
DEFINITION. Which terms of Instr are instructions: the classes and codes of spec/02 R35 to R45 that the type of
Instr does not already enforce (spec/02 R47, R49), and the units that an event names (spec/00 R1, R4).
-/
namespace Sys2Proof

/-- Class I of spec/02: integer element types. -/
def ETy.isI : ETy → Bool
  | .s8 | .z8 | .s16 | .z16 | .s32 | .z32 | .s64 | .z64 => true
  | _ => false
/-- Class F of spec/02: FP32, BF16, FP16. -/
def ETy.isF : ETy → Bool
  | .f32 | .bf16 | .f16 => true
  | _ => false
/-- Class N of spec/02: E4M3, E5M2. -/
def ETy.isN : ETy → Bool
  | .e4m3 | .e5m2 => true
  | _ => false
def ETy.isIF (t : ETy) : Bool := t.isI || t.isF
def ETy.isIFN (t : ETy) : Bool := t.isI || t.isF || t.isN
def ETy.isFN (t : ETy) : Bool := t.isF || t.isN
def ETy.isIFNQ (t : ETy) : Bool := t.isIFN || t == .q
def ETy.isFNQ (t : ETy) : Bool := t.isFN || t == .q
/-- 64-bit elements and sliced elements have no column form (spec/02 R39). -/
def ETy.colOk : ETy → Bool
  | .s64 | .z64 | .q => false
  | _ => true
def AmoTy.isInt : AmoTy → Bool
  | .s32 | .z32 | .s64 | .z64 => true
  | _ => false
/-- The class rule of spec/02 R38. -/
def amoOk (op : AmoOp) (ty : AmoTy) : Bool :=
  if op = .fadd then !ty.isInt else ty.isInt
/-- Rounding on a word marked 'F only' (spec/02 R45): class I carries 000. -/
def rmOk (t : ETy) (rm : Rm) : Bool := t.isF || rm == .rne

def VMem.ok (m : VMem) (cls : ETy → Bool) : Bool := cls m.t && (m.o == .row || m.t.colOk)
def scaleOk (t : ETy) (k : Option Scales) : Bool := k.isNone || t != .q

namespace Instr
open Machine

/-- Well-formedness of the 159 control words. -/
def wfCtl : Instr → Bool
  | .cget _ c => cregNameable .get c
  | .cset _ c => cregNameable .set c
  | .cswap _ _ c => cregNameable .swap c
  | .amoAdd ty _ _ _ _ => amoOk .add ty
  | .amoFadd ty _ _ _ _ => amoOk .fadd ty
  | .amoMin ty _ _ _ _ => amoOk .min ty
  | .amoMax ty _ _ _ _ => amoOk .max ty
  | .amoAnd ty _ _ _ _ => amoOk .and ty
  | .amoOr ty _ _ _ _ => amoOk .or ty
  | .amoXor ty _ _ _ _ => amoOk .xor ty
  | .amoSwap ty _ _ _ _ => amoOk .swap ty
  | .amoCas ty _ _ _ _ => amoOk .cas ty
  | .vld _ _ m | .vst _ _ m | .vstMc _ _ m | .vlff _ m => m.ok ETy.isIFNQ
  | .vldx _ _ m | .vstx _ _ m => m.ok ETy.isIFN
  | .vmvx t _ _ _ | .vbcast t _ _ => t.isIFN
  | .vredAdd t _ _ _ | .vredMin t _ _ _ | .vredMax t _ _ _ | .vminidx t _ _ _ | .vmaxidx t _ _ _
  | .vscanAdd t _ _ _ | .vscanMin t _ _ _ | .vscanMax t _ _ _ => t.isIF
  | .vredAnd t _ _ _ | .vredOr t _ _ _ | .vredXor t _ _ _
  | .vscanAnd t _ _ _ | .vscanOr t _ _ _ | .vscanXor t _ _ _ => t.isI
  | .vperm t _ _ _ | .vcompress t _ _ _ | .vexpand t _ _ _ | .vslideUp t _ _ _ | .vslideDown t _ _ _ => t.isIFN
  | .mop t _ _ k _ _ | .mtile t _ _ k _ _ => t.isFNQ && scaleOk t k
  | .mdrain _ t _ _ _ _ | .mdrainB _ t _ _ _ => t.isFN
  | .mld _ t _ _ _ | .mst _ t _ _ _ _ => t.isF
  | .mbwdX t _ _ _ _ | .mbwdW t _ _ _ _ => t.isFN
  | .mbwdBoth t _ _ a b => t.isFN && a != b && a != b + 2
  | _ => true

/-- Well-formedness of the 58 block words (spec/02 R43 to R45). -/
def wfBlk : Instr → Bool
  | .vadd _ t rm _ _ _ _ | .vsub _ t rm _ _ _ _ | .vmul _ t rm _ _ _ _ | .vmac _ t rm _ _ _ _
  | .vdiv _ t rm _ _ _ _ => t.isIF && rmOk t rm
  | .vmulh _ t _ _ _ | .vrem _ t _ _ _ _ => t.isI
  | .vfma _ t _ _ _ _ _ _ | .vsqrt _ t _ _ _ => t.isF
  | .vmin _ t _ _ _ | .vmax _ t _ _ _ | .vabs _ t _ _ _ | .vneg _ t _ _ _ => t.isIF
  | .vand _ t _ _ _ | .vor _ t _ _ _ | .vxor _ t _ _ _ | .vnot _ t _ _ | .vshl _ t _ _ _ | .vshr _ t _ _ _
  | .vsra _ t _ _ _ | .vpopc _ t _ _ | .vclz _ t _ _ => t.isI
  | .vsel _ t _ _ _ _ => t.isIFN
  | .vli _ t _ _ => t.isIF
  | .vmov _ t _ _ => t.isIFNQ
  | .vcvt _ t u _ _ _ _ => t.isIFN && u.isIFN
  | .vclass _ t _ _ => t.isFN
  | .vqpack _ u _ _ _ => u.isI
  | .vqunpack _ t _ _ => t.isI
  | .vscale _ t rm _ _ _ _ => t.isFNQ && (t != .q || rm == .rne)
  | .vcmp _ _ t _ _ _ => t.isIFN
  | .psgt _ t _ _ _ | .psge _ t _ _ _ | .pslt _ t _ _ _ | .psle _ t _ _ _ => t.isF
  | .vblend _ t _ _ _ _ _ => t.isF
  | .vbgrad _ t _ _ _ _ _ | .psgrad _ t _ _ _ _ _ => t.isF
  | .vlde _ o t _ _ _ | .vste _ o t _ _ _ => t.isIFN && (o == .row || t.colOk)
  | .vamo _ op _ ty _ _ _ n => amoOk op ty && (op == .cas || n == ⟨0, false⟩)
  | _ => true

/-- A line of spec/12 R244: a column line of width 1, 2 or 4 at a multiple of its width, in one of its row groups. -/
def keyOk : LineKey → Bool
  | .row b => decide (b < 2 ^ 46)
  | .col panel w c g => decide (panel < 2 ^ 40) && (w == 1 || w == 2 || w == 4) && decide (c < 64) && c % w == 0 && decide (g < w)
def isHart (h : Nat) : Bool := decide (h < 1536)
def isCluster (k : Nat) : Bool := decide (k < 48)
def isDie (d : Nat) : Bool := decide (d < 4)
/-- A tenant, where an event names one (spec/16 R331). -/
def isTenant (t : Option Nat) : Bool := t.all fun t => decide (t < 4096)
def isPa (pa : Nat) : Bool := decide (pa < 2 ^ 52)
def linkOk : Link → Bool
  | .dieNet d => isDie d
  | .cenel c => decide (c < 2)
  | .cxl p => decide (p < 8)
def mgmtOk : MgmtReg → Bool
  | .stopBase t => decide (t < 4096)
  | .tenantTable => true
  | .compressionMap k _ => decide (k < 8)
  | .trackerThreshold d | .frameRing d => isDie d
  | .queuePair e _ | .queueSpace e _ | .sendQueue e _ | .peerEntry e _ => isDie e
  | .other a => decide (0xFE00000000000 ≤ a) && decide (a < 0xFF00000000000)
/-- The registers of a residency range. -/
def isResidency (c : BitVec 12) : Bool :=
  match cregOf c with
  | some (.resb _) | some (.resc _) => true
  | _ => false
/-- The units that an event names exist. -/
def wfEvt : Instr → Bool
  | .vectorQueueEntryStart h | .laneGrant h | .laneChange h | .arrayGrant h | .preemptionRequest h
  | .preemptionTaken h | .preemptionTimeout h | .wfeWake h | .wfeTimeout h | .kwinAccess h _ _ _ | .ptempWrite h _
  | .cnvalWrite h _ | .tallowWrite h _ | .abarWaitEnd h | .gwaitEnd h | .interlockWaitEnd h
  | .atomicRequestArrival h | .reelStallEnd h | .jsyncEnd h | .translationWalk h _ _ _ => isHart h
  | .waitingCregAccess h op _ _ c => isHart h && cregNameable op c
  | .lcfgWrite core j _ => decide (core < 384) && decide (j < 4)
  | .residencyWrite k c _ => isCluster k && isResidency c
  | .streamEnable n _ | .streamDisable n _ => decide (n < 16)
  | .mgmtWindowWrite r _ => mgmtOk r
  | .energyTick core | .drainRequest core => decide (core < 384)
  | .launchListRead d | .hotPageEpoch d | .migrationAbandon d _ | .thermalTrip d | .powerLimit d _ | .recordAccept d
  | .counterSweep d => isDie d
  | .gangDispatch d slots => isDie d && slots.all isHart
  | .waveHartStart d slot => isDie d && isHart slot
  | .copyRequestStart k | .copyUnitLand k _ | .atomicService k => isCluster k
  | .lineFill core key v => decide (core < 384) && keyOk key && v.all keyOk
  | .dirtyDrain k key _ | .dirtyAgeDrain k key | .remoteCopyExpiry k key | .columnLineFetch k key => isCluster k && keyOk key
  | .invalidation k pa => isCluster k && isPa pa
  | .mscMissFill k _ mask _ => decide (k < 8) && decide (mask < 2 ^ 32)
  | .dramUncorrectableError pa f => isPa pa && isTenant f.ten
  | .remapSegmentError k seg => decide (k < 8) && decide (seg < 384)
  | .cxlPoisonRead port pa f => decide (port < 8) && isPa pa && isTenant f.ten
  | .flitCrcError l f => linkOk l && isTenant f.ten
  | .pageMigration d h _ => isDie d && isHart h
  | .hostRead port pa _ | .hostReadAcquire port pa _ => decide (port < 2) && isPa pa
  | .hostWrite port pa _ | .hostWriteRelease port pa _ => decide (port < 2) && isPa pa
  | .rdmaWrite e _ _ _ | .rdmaWriteWithImmediate e _ _ _ _ => isDie e
  | .haltRegisterRaise t | .haltRegisterLower t => decide (t < 4096)
  | .engineHaltStop e t => decide (e < 1702) && decide (t < 4096)
  | .moduleReset ok => ok.length == 4
  | .supervisorStart _ l _ => l.length == 4
  | .grandmasterLoss e | .timePortSelect e | .ieee1588EventMessage e _ _ => isDie e
  | .ethernetFrameError e f => isDie e && isTenant f.ten
  | .journalAck c _ | .emissionRecordWrite c | .partnerLost c | .newPartnerUnreachable c => decide (c < 256)
  | _ => true

/-- The events: the rows of the table that have no word. -/
def isEvent : Instr → Bool
  | .vectorQueueEntryStart .. | .laneGrant .. | .laneChange .. | .arrayGrant ..
  | .preemptionRequest .. | .preemptionTaken .. | .preemptionTimeout .. | .stopMessage ..
  | .wfeWake .. | .wfeTimeout .. | .waitingCregAccess .. | .kwinAccess ..
  | .ptempWrite .. | .tinvWrite .. | .cnvalWrite .. | .lcfgWrite ..
  | .residencyWrite .. | .tallowWrite .. | .ctbaseWrite .. | .streamEnable ..
  | .streamDisable .. | .jcfgOff .. | .jcfgEnable .. | .jcfgMove ..
  | .mgmtWindowWrite .. | .energyTick .. | .launchListRead .. | .gangDispatch ..
  | .waveHartStart .. | .gangCompletion .. | .gbarPass .. | .abarWaitEnd ..
  | .gwaitEnd .. | .copyRequestStart .. | .copyUnitLand .. | .interlockWaitEnd ..
  | .atomicRequestArrival .. | .atomicService .. | .lineFill .. | .dirtyDrain ..
  | .dirtyAgeDrain .. | .remoteCopyExpiry .. | .homeDrainAccept .. | .invalidation ..
  | .drainRequest .. | .translationWalk .. | .columnLineFetch .. | .mscMissFill ..
  | .dramUncorrectableError .. | .remapSegmentError .. | .cxlPoisonRead .. | .flitCrcError ..
  | .hotPageEpoch .. | .pageMigration .. | .migrationAbandon .. | .hostRead ..
  | .hostWrite .. | .hostWriteRelease .. | .hostReadAcquire .. | .rdmaWrite ..
  | .rdmaWriteWithImmediate .. | .haltRegisterRaise .. | .engineHaltStop .. | .haltRegisterLower ..
  | .thermalTrip .. | .powerLimit .. | .moduleReset .. | .supervisorStart ..
  | .attestationQuote .. | .recordAccept .. | .reelStallEnd .. | .counterSweep ..
  | .timebaseLock .. | .grandmasterLoss .. | .timePortSelect .. | .journalAck ..
  | .jsyncEnd .. | .emissionRecordWrite .. | .partnerLost .. | .newPartnerUnreachable ..
  | .ieee1588EventMessage .. | .ethernetFrameError .. => true
  | _ => false

/-- A term that is an instruction (spec/02 R47, R49). -/
def wf (i : Instr) : Bool := i.wfCtl && i.wfBlk && i.wfEvt

end Instr
end Sys2Proof
end

