-- ==== Sys2Proof/Decode.lean ====
section
/-!
DEFINITION. Decoding and encoding (spec/02). A word is split into the fields of its format; the fields name a
candidate instruction; the candidate is the answer when it is well formed and encodes back to the very fields, so
that every reserved, zero and unused bit of spec/02 R47, R43 is checked in one place. The encoder is written from
the encoding tables of spec/02 R29 to R45.
-/
namespace Sys2Proof

-- Codes of the operand fields ---------------------------------------------------------------------------------

/-- sz of the scalar integer group (spec/02 R35); 1xx is reserved. -/
def ISize.code : ISize → BitVec 3
  | .s64 => 0
  | .z64 => 1
  | .s32 => 2
  | .z32 => 3
def ISize.ofCode (c : BitVec 3) : Option ISize :=
  match c.toNat with
  | 0 => some .s64
  | 1 => some .z64
  | 2 => some .s32
  | 3 => some .z32
  | _ => none

/-- Rounding modes (spec/02 R36, R41). -/
def Rm.code : Rm → BitVec 2
  | .rne => 0
  | .rtz => 1
  | .rdn => 2
  | .rup => 3
def Rm.ofCode (c : BitVec 2) : Option Rm :=
  match c.toNat with
  | 0 => some .rne
  | 1 => some .rtz
  | 2 => some .rdn
  | 3 => some .rup
  | _ => none

/-- sz of the scalar float group (spec/02 R36). -/
def FFmt.code : FFmt → BitVec 3
  | .f32 => 0
  | .f16 => 1
  | .bf16 => 2
def FFmt.ofCode (c : BitVec 3) : Option FFmt :=
  match c.toNat with
  | 0 => some .f32
  | 1 => some .f16
  | 2 => some .bf16
  | _ => none

/-- Codes of fcvt (spec/02 R36); 111 is reserved. -/
def CvtTy.code : CvtTy → BitVec 3
  | .f32 => 0
  | .f16 => 1
  | .bf16 => 2
  | .s64 => 3
  | .z64 => 4
  | .s32 => 5
  | .z32 => 6
def CvtTy.ofCode (c : BitVec 3) : Option CvtTy :=
  match c.toNat with
  | 0 => some .f32
  | 1 => some .f16
  | 2 => some .bf16
  | 3 => some .s64
  | 4 => some .z64
  | 5 => some .s32
  | 6 => some .z32
  | _ => none

/-- Hints (spec/02 R31); 11 is reserved. -/
def Hint.code : Hint → BitVec 2
  | .none => 0
  | .na => 1
  | .byp => 2
def Hint.ofCode (c : BitVec 2) : Option Hint :=
  match c.toNat with
  | 0 => some .none
  | 1 => some .na
  | 2 => some .byp
  | _ => none

/-- Orientation (spec/02 R31). -/
def Orient.code : Orient → BitVec 1
  | .row => 0
  | .col => 1
def Orient.ofCode (c : BitVec 1) : Option Orient :=
  match c.toNat with
  | 0 => some .row
  | 1 => some .col
  | _ => none

/-- Scopes (spec/02 R33); 110 and 111 are reserved. -/
def Scope.code : Scope → BitVec 3
  | .hart => 0
  | .core => 1
  | .clus => 2
  | .die => 3
  | .pkg => 4
  | .sys => 5
def Scope.ofCode (c : BitVec 3) : Option Scope :=
  match c.toNat with
  | 0 => some .hart
  | 1 => some .core
  | 2 => some .clus
  | 3 => some .die
  | 4 => some .pkg
  | 5 => some .sys
  | _ => none

/-- Size of C-MA (spec/02 R32). -/
def AccSize.code : AccSize → BitVec 2
  | .b8 => 0
  | .b16 => 1
  | .b32 => 2
  | .b64 => 3
def AccSize.ofCode (c : BitVec 2) : Option AccSize :=
  match c.toNat with
  | 0 => some .b8
  | 1 => some .b16
  | 2 => some .b32
  | 3 => some .b64
  | _ => none

/-- Element types (spec/01 R12); 15 is no type. -/
def ETy.code : ETy → BitVec 4
  | .s8 => 0
  | .z8 => 1
  | .s16 => 2
  | .z16 => 3
  | .s32 => 4
  | .z32 => 5
  | .s64 => 6
  | .z64 => 7
  | .f32 => 8
  | .bf16 => 9
  | .f16 => 10
  | .e4m3 => 11
  | .e5m2 => 12
  | .q => 13
  | .pr => 14
def ETy.ofCode (c : BitVec 4) : Option ETy :=
  match c.toNat with
  | 0 => some .s8
  | 1 => some .z8
  | 2 => some .s16
  | 3 => some .z16
  | 4 => some .s32
  | 5 => some .z32
  | 6 => some .s64
  | 7 => some .z64
  | 8 => some .f32
  | 9 => some .bf16
  | 10 => some .f16
  | 11 => some .e4m3
  | 12 => some .e5m2
  | 13 => some .q
  | 14 => some .pr
  | _ => none

/-- Types of an atomic (spec/02 R38); 111 is reserved. -/
def AmoTy.code : AmoTy → BitVec 3
  | .s32 => 0
  | .z32 => 1
  | .s64 => 2
  | .z64 => 3
  | .f32 => 4
  | .bf16 => 5
  | .f16 => 6
def AmoTy.ofCode (c : BitVec 3) : Option AmoTy :=
  match c.toNat with
  | 0 => some .s32
  | 1 => some .z32
  | 2 => some .s64
  | 3 => some .z64
  | 4 => some .f32
  | 5 => some .bf16
  | 6 => some .f16
  | _ => none

/-- Operations of an atomic (spec/02 R38); 9 to 15 are unassigned. -/
def AmoOp.code : AmoOp → BitVec 4
  | .add => 0
  | .fadd => 1
  | .min => 2
  | .max => 3
  | .and => 4
  | .or => 5
  | .xor => 6
  | .swap => 7
  | .cas => 8
def AmoOp.ofCode (c : BitVec 4) : Option AmoOp :=
  match c.toNat with
  | 0 => some .add
  | 1 => some .fadd
  | 2 => some .min
  | 3 => some .max
  | 4 => some .and
  | 5 => some .or
  | 6 => some .xor
  | 7 => some .swap
  | 8 => some .cas
  | _ => none

/-- Modes of crange (spec/02 R37); 8 to 31 are reserved. -/
def CMode.code : CMode → BitVec 5
  | .dissolve => 0
  | .addF32 => 1
  | .addBf16 => 2
  | .addS32 => 3
  | .minF32 => 4
  | .maxF32 => 5
  | .minS32 => 6
  | .maxS32 => 7
def CMode.ofCode (c : BitVec 5) : Option CMode :=
  match c.toNat with
  | 0 => some .dissolve
  | 1 => some .addF32
  | 2 => some .addBf16
  | 3 => some .addS32
  | 4 => some .minF32
  | 5 => some .maxF32
  | 6 => some .minS32
  | 7 => some .maxS32
  | _ => none

/-- Widths of setvl (spec/02 R39); 5 to 7 are reserved. -/
def WCode.code : WCode → BitVec 3
  | .w8 => 0
  | .w16 => 1
  | .w32 => 2
  | .w64 => 3
  | .sliced => 4
def WCode.ofCode (c : BitVec 3) : Option WCode :=
  match c.toNat with
  | 0 => some .w8
  | 1 => some .w16
  | 2 => some .w32
  | 3 => some .w64
  | 4 => some .sliced
  | _ => none

/-- Accumulators (spec/02 R41). -/
def Acc.code : Acc → BitVec 1
  | .za => 0
  | .zb => 1
def Acc.ofCode (c : BitVec 1) : Option Acc :=
  match c.toNat with
  | 0 => some .za
  | 1 => some .zb
  | _ => none

/-- Selection of mzero (spec/02 R41); 00 is reserved. -/
def ZSel.code : ZSel → BitVec 2
  | .za => 1
  | .zb => 2
  | .both => 3
def ZSel.ofCode (c : BitVec 2) : Option ZSel :=
  match c.toNat with
  | 1 => some .za
  | 2 => some .zb
  | 3 => some .both
  | _ => none

/-- Conditions of vcmp (spec/02 R45); 6 and 7 are reserved. -/
def CmpOp.code : CmpOp → BitVec 3
  | .eq => 0
  | .ne => 1
  | .lt => 2
  | .le => 3
  | .gt => 4
  | .ge => 5
def CmpOp.ofCode (c : BitVec 3) : Option CmpOp :=
  match c.toNat with
  | 0 => some .eq
  | 1 => some .ne
  | 2 => some .lt
  | 3 => some .le
  | 4 => some .gt
  | 5 => some .ge
  | _ => none

def bit (b : Bool) : BitVec 1 := if b then 1 else 0
def bitTrue (b : BitVec 1) : Bool := b == 1

-- Control words --------------------------------------------------------------------------------------------------

/-- The fields every control-word format is cut from: op [31:25], then [24:20], [19:15], [14:10], [9:0]
(spec/02 R29). -/
structure CFields where
  op : BitVec 7
  a : BitVec 5
  b : BitVec 5
  c : BitVec 5
  lo : BitVec 10
  deriving DecidableEq, Repr

def CFields.unpack (w : CWord) : CFields :=
  { op := w.extractLsb' 25 7, a := w.extractLsb' 20 5, b := w.extractLsb' 15 5, c := w.extractLsb' 10 5,
    lo := w.extractLsb' 0 10 }

def CFields.pack (f : CFields) : CWord := f.op ++ f.a ++ f.b ++ f.c ++ f.lo

/-- fn of C-R (spec/02 R29). -/
def CFields.fn (f : CFields) : BitVec 7 := f.lo.extractLsb' 3 7
/-- sz of C-R. -/
def CFields.sz (f : CFields) : BitVec 3 := f.lo.extractLsb' 0 3
/-- imm15 of C-I, off15 of C-B. -/
def CFields.imm15 (f : CFields) : BitVec 15 := f.c ++ f.lo
/-- imm20 of C-J. -/
def CFields.imm20 (f : CFields) : BitVec 20 := f.b ++ f.c ++ f.lo
/-- off12 of C-M. -/
def CFields.off12 (f : CFields) : BitVec 12 := f.c ++ f.lo.extractLsb' 3 7
/-- off10 of C-MA. -/
def CFields.off10 (f : CFields) : BitVec 10 := f.c.extractLsb' 0 3 ++ f.lo.extractLsb' 3 7
/-- type of C-V. -/
def CFields.ty (f : CFields) : BitVec 4 := f.lo.extractLsb' 6 4
/-- F of C-V. -/
def CFields.F (f : CFields) : BitVec 6 := f.lo.extractLsb' 0 6

-- Encoders of the formats ------------------------------------------------------------------------------------------

def encR (op : BitVec 7) (rd rs rt : Reg) (fn : BitVec 7) (sz : BitVec 3) : CFields := ⟨op, rd, rs, rt, fn ++ sz⟩
def encI (op : BitVec 7) (rd rs : Reg) (i : BitVec 15) : CFields := ⟨op, rd, rs, i.extractLsb' 10 5, i.extractLsb' 0 10⟩
def encJ (op : BitVec 7) (rd : Reg) (i : BitVec 20) : CFields :=
  ⟨op, rd, i.extractLsb' 15 5, i.extractLsb' 10 5, i.extractLsb' 0 10⟩
def encM (op : BitVec 7) (rd rs : Reg) (i : BitVec 12) (h : Hint) (o : Orient) : CFields :=
  ⟨op, rd, rs, i.extractLsb' 7 5, i.extractLsb' 0 7 ++ h.code ++ o.code⟩
def encMA (op : BitVec 7) (rd rs : Reg) (z : AccSize) (i : BitVec 10) (c : Scope) : CFields :=
  ⟨op, rd, rs, z.code ++ i.extractLsb' 7 3, i.extractLsb' 0 7 ++ c.code⟩
def encV (op : BitVec 7) (A B C : Reg) (ty : BitVec 4) (F : BitVec 6) : CFields := ⟨op, A, B, C, ty ++ F⟩

/-- fn of the scalar float group: rounding mode above the operation (spec/02 R36). -/
def fltFn (rm : Rm) (op : BitVec 5) : BitVec 7 := rm.code ++ op
/-- fn of an atomic: operation above the type (spec/02 R38). -/
def amoFn (op : AmoOp) (ty : AmoTy) : BitVec 7 := op.code ++ ty.code
/-- F of a vector memory word (spec/02 R39). -/
def VMem.F (m : VMem) : BitVec 6 := m.o.code ++ m.off
/-- F of a cross-lane word with a prefix: pe, sense, op (spec/02 R40). -/
def xlF (p : Option Prefix) (op : BitVec 4) : BitVec 6 :=
  match p with
  | none => (0 : BitVec 2) ++ op
  | some q => (1 : BitVec 1) ++ bit q.neg ++ op
def xlC (p : Option Prefix) : Reg := match p with | none => 0 | some q => q.p
/-- A of a product word: se, kb, acc (spec/02 R41). -/
def prodA (k : Option Scales) (z : BitVec 1) : Reg :=
  match k with
  | none => (0 : BitVec 4) ++ z
  | some q => (1 : BitVec 1) ++ q.kb ++ z
/-- F of a product word: ka, rm. -/
def prodF (k : Option Scales) (rm : Rm) : BitVec 6 :=
  match k with
  | none => (0 : BitVec 4) ++ rm.code
  | some q => (0 : BitVec 1) ++ q.ka ++ rm.code
/-- F of mdrain and mst: o in [5], rm in [1:0]. -/
def orF (o : Orient) (rm : Rm) : BitVec 6 := o.code ++ (0 : BitVec 3) ++ rm.code
/-- A group of eight registers named by its number over 8. -/
def grp (g : BitVec 2) : Reg := g ++ (0 : BitVec 3)

/-- The fields of a control word (spec/02 R34 to R41); none for an instruction that is no control word. -/
def encodeC : Instr → Option CFields
  | .add sz d s t => some (encR 0x01 d s t 0 sz.code)
  | .sub sz d s t => some (encR 0x01 d s t 1 sz.code)
  | .mul sz d s t => some (encR 0x01 d s t 2 sz.code)
  | .mulh sz d s t => some (encR 0x01 d s t 3 sz.code)
  | .div sz d s t => some (encR 0x01 d s t 4 sz.code)
  | .rem sz d s t => some (encR 0x01 d s t 5 sz.code)
  | .and sz d s t => some (encR 0x01 d s t 6 sz.code)
  | .or sz d s t => some (encR 0x01 d s t 7 sz.code)
  | .xor sz d s t => some (encR 0x01 d s t 8 sz.code)
  | .shl sz d s t => some (encR 0x01 d s t 9 sz.code)
  | .shr sz d s t => some (encR 0x01 d s t 10 sz.code)
  | .sra sz d s t => some (encR 0x01 d s t 11 sz.code)
  | .clz sz d s => some (encR 0x01 d s 0 12 sz.code)
  | .ctz sz d s => some (encR 0x01 d s 0 13 sz.code)
  | .popc sz d s => some (encR 0x01 d s 0 14 sz.code)
  | .min sz d s t => some (encR 0x01 d s t 15 sz.code)
  | .max sz d s t => some (encR 0x01 d s t 16 sz.code)
  | .slt sz d s t => some (encR 0x01 d s t 17 sz.code)
  | .sel sz d s t => some (encR 0x01 d s t 18 sz.code)
  | .addi d s i => some (encI 0x02 d s i)
  | .andi d s i => some (encI 0x03 d s i)
  | .ori d s i => some (encI 0x04 d s i)
  | .xori d s i => some (encI 0x05 d s i)
  | .slti d s i => some (encI 0x09 d s i)
  | .jr d s i => some (encI 0x0D d s i)
  | .shli d s n => some (encI 0x06 d s ((0 : BitVec 9) ++ n))
  | .shri d s n => some (encI 0x07 d s ((0 : BitVec 9) ++ n))
  | .srai d s n => some (encI 0x08 d s ((0 : BitVec 9) ++ n))
  | .lhi d i => some (encJ 0x0A d i)
  | .pcrel d i => some (encJ 0x0B d i)
  | .jmp d i => some (encJ 0x0C d i)
  | .jtab s t i => some (encI 0x0E s t i)
  | .beq s t i => some (encI 0x10 s t i)
  | .bne s t i => some (encI 0x11 s t i)
  | .blt s t i => some (encI 0x12 s t i)
  | .bge s t i => some (encI 0x13 s t i)
  | .ldS8 d s i h o => some (encM 0x18 d s i h o)
  | .ldZ8 d s i h o => some (encM 0x19 d s i h o)
  | .ldS16 d s i h o => some (encM 0x1A d s i h o)
  | .ldZ16 d s i h o => some (encM 0x1B d s i h o)
  | .ldS32 d s i h o => some (encM 0x1C d s i h o)
  | .ldZ32 d s i h o => some (encM 0x1D d s i h o)
  | .ld64 d s i h => some (encM 0x1E d s i h .row)
  | .st8 d s i h o => some (encM 0x20 d s i h o)
  | .st16 d s i h o => some (encM 0x21 d s i h o)
  | .st32 d s i h o => some (encM 0x22 d s i h o)
  | .st64 d s i h => some (encM 0x23 d s i h .row)
  | .ldAcq d s z i c => some (encMA 0x24 d s z i c)
  | .stRel d s z i c => some (encMA 0x25 d s z i c)
  | .fadd f rm d s t => some (encR 0x26 d s t (fltFn rm 0) f.code)
  | .fsub f rm d s t => some (encR 0x26 d s t (fltFn rm 1) f.code)
  | .fmul f rm d s t => some (encR 0x26 d s t (fltFn rm 2) f.code)
  | .fdiv f rm d s t => some (encR 0x26 d s t (fltFn rm 3) f.code)
  | .fsqrt f rm d s => some (encR 0x26 d s 0 (fltFn rm 4) f.code)
  | .fma f rm d s t => some (encR 0x26 d s t (fltFn rm 5) f.code)
  | .fmin f d s t => some (encR 0x26 d s t (fltFn .rne 6) f.code)
  | .fmax f d s t => some (encR 0x26 d s t (fltFn .rne 7) f.code)
  | .fcmpEq f d s t => some (encR 0x26 d s t (fltFn .rne 8) f.code)
  | .fcmpLt f d s t => some (encR 0x26 d s t (fltFn .rne 9) f.code)
  | .fcmpLe f d s t => some (encR 0x26 d s t (fltFn .rne 10) f.code)
  | .fcmpUn f d s t => some (encR 0x26 d s t (fltFn .rne 11) f.code)
  | .fcvt dst src rm d s => some (encR 0x26 d s ((0 : BitVec 2) ++ src.code) (fltFn rm 12) dst.code)
  | .fclass f d s => some (encR 0x26 d s 0 (fltFn .rne 13) f.code)
  | .cget d c => some (encI 0x27 d 0 ((0 : BitVec 3) ++ c))
  | .cset s c => some (encI 0x28 0 s ((0 : BitVec 3) ++ c))
  | .cswap d s c => some (encI 0x29 d s ((0 : BitVec 3) ++ c))
  | .fenceAcq c => some (encR 0x2A 0 0 0 0 c.code)
  | .fenceRel c => some (encR 0x2A 0 0 0 1 c.code)
  | .fenceSc c => some (encR 0x2A 0 0 0 2 c.code)
  | .seal s t => some (encR 0x2A 0 s t 3 0)
  | .unseal s t => some (encR 0x2A 0 s t 4 0)
  | .cflush s t => some (encR 0x2A 0 s t 6 0)
  | .cinval s t => some (encR 0x2A 0 s t 7 0)
  | .crange m s t => some (encR 0x2A m.code s t 5 0)
  | .amoAdd ty c d s t => some (encR 0x2B d s t (amoFn .add ty) c.code)
  | .amoFadd ty c d s t => some (encR 0x2B d s t (amoFn .fadd ty) c.code)
  | .amoMin ty c d s t => some (encR 0x2B d s t (amoFn .min ty) c.code)
  | .amoMax ty c d s t => some (encR 0x2B d s t (amoFn .max ty) c.code)
  | .amoAnd ty c d s t => some (encR 0x2B d s t (amoFn .and ty) c.code)
  | .amoOr ty c d s t => some (encR 0x2B d s t (amoFn .or ty) c.code)
  | .amoXor ty c d s t => some (encR 0x2B d s t (amoFn .xor ty) c.code)
  | .amoSwap ty c d s t => some (encR 0x2B d s t (amoFn .swap ty) c.code)
  | .amoCas ty c d s t => some (encR 0x2B d s t (amoFn .cas ty) c.code)
  | .cp od os d s t => some (encR 0x2C d s t 0 ((0 : BitVec 1) ++ od.code ++ os.code))
  | .abarInit s t => some (encR 0x2C 0 s t 1 0)
  | .abarExpect s t => some (encR 0x2C 0 s t 2 0)
  | .abarArrive s => some (encR 0x2C 0 s 0 3 0)
  | .abarWait s t => some (encR 0x2C 0 s t 4 0)
  | .gbar => some (encR 0x2D 0 0 0 0 0)
  | .glaunch d s => some (encR 0x2D d s 0 1 0)
  | .gwait s t => some (encR 0x2D 0 s t 2 0)
  | .wadd s t => some (encR 0x2D 0 s t 3 0)
  | .wtake d s => some (encR 0x2D d s 0 4 0)
  | .tidle => some (encR 0x2D 0 0 0 5 0)
  | .tquiet d => some (encR 0x2D d 0 0 6 0)
  | .trap s => some (encR 0x2E 0 s 0 0 0)
  | .tret => some (encR 0x2E 0 0 0 1 0)
  | .halt => some (encR 0x2E 0 0 0 2 0)
  | .wfe => some (encR 0x2E 0 0 0 3 0)
  | .vown d => some (encR 0x2E d 0 0 4 0)
  | .vsave s => some (encR 0x2E 0 s 0 5 0)
  | .vrest s => some (encR 0x2E 0 s 0 6 0)
  | .tmark s t => some (encR 0x2F 0 s t 0 0)
  | .tflt s => some (encR 0x2F 0 s 0 1 0)
  | .cexp s => some (encR 0x2F 0 s 0 2 0)
  | .prog s => some (encR 0x2F 0 s 0 3 0)
  | .lcap d s => some (encR 0x2F d s 0 4 0)
  | .jput s => some (encR 0x30 0 s 0 0 0)
  | .jsync s => some (encR 0x30 0 s 0 1 0)
  | .emit s t => some (encR 0x30 0 s t 2 0)
  | .jtrunc s => some (encR 0x30 0 s 0 3 0)
  | .jreplay s => some (encR 0x30 0 s 0 4 0)
  | .setvl keep w d s => some (encV 0x40 d s 0 0 (bit keep ++ (0 : BitVec 2) ++ w.code))
  | .setvtype s => some (encV 0x41 0 s 0 0 0)
  | .vf i => some (encJ 0x42 0 i)
  | .vdrain i => some (encJ 0x43 0 i)
  | .vld d c m => some (encV 0x44 d m.base c m.t.code m.F)
  | .vst d c m => some (encV 0x45 d m.base c m.t.code m.F)
  | .vstMc d c m => some (encV 0x46 d m.base c m.t.code m.F)
  | .vldx d c m => some (encV 0x48 d m.base c m.t.code m.F)
  | .vstx d c m => some (encV 0x49 d m.base c m.t.code m.F)
  | .vlff d m => some (encV 0x47 d m.base 0 m.t.code m.F)
  | .scommit p => some (encV 0x4A (xlC p) 0 0 0 (match p with | none => 0 | some q => (0 : BitVec 4) ++ (1 : BitVec 1) ++ bit q.neg))
  | .sabort => some (encV 0x4B 0 0 0 0 0)
  | .vmvx t d a c => some (encV 0x4C d a c t.code 0)
  | .vbcast t d s => some (encV 0x4D d s 0 t.code 0)
  | .vredAdd t p d a => some (encV 0x50 d a (xlC p) t.code (xlF p 0))
  | .vredMin t p d a => some (encV 0x50 d a (xlC p) t.code (xlF p 1))
  | .vredMax t p d a => some (encV 0x50 d a (xlC p) t.code (xlF p 2))
  | .vredAnd t p d a => some (encV 0x50 d a (xlC p) t.code (xlF p 3))
  | .vredOr t p d a => some (encV 0x50 d a (xlC p) t.code (xlF p 4))
  | .vredXor t p d a => some (encV 0x50 d a (xlC p) t.code (xlF p 5))
  | .vscanAdd t p d a => some (encV 0x53 d a (xlC p) t.code (xlF p 0))
  | .vscanMin t p d a => some (encV 0x53 d a (xlC p) t.code (xlF p 1))
  | .vscanMax t p d a => some (encV 0x53 d a (xlC p) t.code (xlF p 2))
  | .vscanAnd t p d a => some (encV 0x53 d a (xlC p) t.code (xlF p 3))
  | .vscanOr t p d a => some (encV 0x53 d a (xlC p) t.code (xlF p 4))
  | .vscanXor t p d a => some (encV 0x53 d a (xlC p) t.code (xlF p 5))
  | .vminidx t p d a => some (encV 0x51 d a (xlC p) t.code (xlF p 0))
  | .vmaxidx t p d a => some (encV 0x52 d a (xlC p) t.code (xlF p 0))
  | .vperm t d a b => some (encV 0x54 d a b t.code 0)
  | .vcompress t d a b => some (encV 0x55 d a b t.code 0)
  | .vexpand t d a b => some (encV 0x56 d a b t.code 0)
  | .vslideUp t d a c => some (encV 0x57 d a c t.code 0)
  | .vslideDown t d a c => some (encV 0x57 d a c t.code 1)
  | .vfirst d a => some (encV 0x58 d a 0 0 0)
  | .vpcount d a => some (encV 0x59 d a 0 0 0)
  | .menter s => some (encV 0x60 0 s 0 0 0)
  | .mleave => some (encV 0x61 0 0 0 0 0)
  | .mzero z => some (encV 0x62 ((0 : BitVec 3) ++ z.code) 0 0 0 0)
  | .mop t z rm k a b => some (encV 0x63 (prodA k z.code) a b t.code (prodF k rm))
  | .mtile t z rm k a b => some (encV 0x64 (prodA k z.code) a (grp b) t.code (prodF k rm))
  | .mdrain o t z rm d c => some (encV 0x65 d ((0 : BitVec 4) ++ z.code) c t.code (orF o rm))
  | .mdrainB o t z rm c => some (encV 0x66 0 ((0 : BitVec 4) ++ z.code) c t.code (orF o rm))
  | .mld o t z s c => some (encV 0x67 ((0 : BitVec 4) ++ z.code) s c t.code (orF o .rne))
  | .mst o t z rm s c => some (encV 0x68 ((0 : BitVec 4) ++ z.code) s c t.code (orF o rm))
  | .mbwdX t rm k a b => some (encV 0x69 (prodA k 0) (grp a) (grp b) t.code (prodF k rm))
  | .mbwdW t rm k a b => some (encV 0x6A (prodA k 0) (grp a) (grp b) t.code (prodF k rm))
  | .mbwdBoth t rm k a b => some (encV 0x6B (prodA k 0) (grp a) (grp b) t.code (prodF k rm))
  | _ => none

-- The candidate the fields name -------------------------------------------------------------------------------------

/-- The scalar integer group (spec/02 R35). -/
def candInt (f : CFields) (sz : ISize) : Option Instr :=
  match f.fn.toNat with
  | 0 => some (.add sz f.a f.b f.c)
  | 1 => some (.sub sz f.a f.b f.c)
  | 2 => some (.mul sz f.a f.b f.c)
  | 3 => some (.mulh sz f.a f.b f.c)
  | 4 => some (.div sz f.a f.b f.c)
  | 5 => some (.rem sz f.a f.b f.c)
  | 6 => some (.and sz f.a f.b f.c)
  | 7 => some (.or sz f.a f.b f.c)
  | 8 => some (.xor sz f.a f.b f.c)
  | 9 => some (.shl sz f.a f.b f.c)
  | 10 => some (.shr sz f.a f.b f.c)
  | 11 => some (.sra sz f.a f.b f.c)
  | 12 => some (.clz sz f.a f.b)
  | 13 => some (.ctz sz f.a f.b)
  | 14 => some (.popc sz f.a f.b)
  | 15 => some (.min sz f.a f.b f.c)
  | 16 => some (.max sz f.a f.b f.c)
  | 17 => some (.slt sz f.a f.b f.c)
  | 18 => some (.sel sz f.a f.b f.c)
  | _ => none

/-- The scalar float group (spec/02 R36). -/
def candFlt (f : CFields) (rm : Rm) : Option Instr :=
  match (f.fn.extractLsb' 0 5).toNat with
  | 0 => (FFmt.ofCode f.sz).map fun z => .fadd z rm f.a f.b f.c
  | 1 => (FFmt.ofCode f.sz).map fun z => .fsub z rm f.a f.b f.c
  | 2 => (FFmt.ofCode f.sz).map fun z => .fmul z rm f.a f.b f.c
  | 3 => (FFmt.ofCode f.sz).map fun z => .fdiv z rm f.a f.b f.c
  | 4 => (FFmt.ofCode f.sz).map fun z => .fsqrt z rm f.a f.b
  | 5 => (FFmt.ofCode f.sz).map fun z => .fma z rm f.a f.b f.c
  | 6 => (FFmt.ofCode f.sz).map fun z => .fmin z f.a f.b f.c
  | 7 => (FFmt.ofCode f.sz).map fun z => .fmax z f.a f.b f.c
  | 8 => (FFmt.ofCode f.sz).map fun z => .fcmpEq z f.a f.b f.c
  | 9 => (FFmt.ofCode f.sz).map fun z => .fcmpLt z f.a f.b f.c
  | 10 => (FFmt.ofCode f.sz).map fun z => .fcmpLe z f.a f.b f.c
  | 11 => (FFmt.ofCode f.sz).map fun z => .fcmpUn z f.a f.b f.c
  | 12 => (CvtTy.ofCode f.sz).bind fun z => (CvtTy.ofCode (f.c.extractLsb' 0 3)).map fun u => .fcvt z u rm f.a f.b
  | 13 => (FFmt.ofCode f.sz).map fun z => .fclass z f.a f.b
  | _ => none

/-- The memory-model group (spec/02 R37, opcode 0x2A). -/
def candMm (f : CFields) : Option Instr :=
  match f.fn.toNat with
  | 0 => (Scope.ofCode f.sz).map .fenceAcq
  | 1 => (Scope.ofCode f.sz).map .fenceRel
  | 2 => (Scope.ofCode f.sz).map .fenceSc
  | 3 => some (.seal f.b f.c)
  | 4 => some (.unseal f.b f.c)
  | 5 => (CMode.ofCode f.a).map fun m => .crange m f.b f.c
  | 6 => some (.cflush f.b f.c)
  | 7 => some (.cinval f.b f.c)
  | _ => none

/-- The atomics (spec/02 R38). -/
def candAmo (f : CFields) (c : Scope) (ty : AmoTy) : AmoOp → Instr
  | .add => .amoAdd ty c f.a f.b f.c
  | .fadd => .amoFadd ty c f.a f.b f.c
  | .min => .amoMin ty c f.a f.b f.c
  | .max => .amoMax ty c f.a f.b f.c
  | .and => .amoAnd ty c f.a f.b f.c
  | .or => .amoOr ty c f.a f.b f.c
  | .xor => .amoXor ty c f.a f.b f.c
  | .swap => .amoSwap ty c f.a f.b f.c
  | .cas => .amoCas ty c f.a f.b f.c

/-- The cluster-engine group (0x2C). -/
def candEng (f : CFields) : Option Instr :=
  match f.fn.toNat with
  | 0 => (Orient.ofCode (f.sz.extractLsb' 1 1)).bind fun od => (Orient.ofCode (f.sz.extractLsb' 0 1)).map fun os =>
      .cp od os f.a f.b f.c
  | 1 => some (.abarInit f.b f.c)
  | 2 => some (.abarExpect f.b f.c)
  | 3 => some (.abarArrive f.b)
  | 4 => some (.abarWait f.b f.c)
  | _ => none

/-- The gang and work group (0x2D). -/
def candGang (f : CFields) : Option Instr :=
  match f.fn.toNat with
  | 0 => some .gbar
  | 1 => some (.glaunch f.a f.b)
  | 2 => some (.gwait f.b f.c)
  | 3 => some (.wadd f.b f.c)
  | 4 => some (.wtake f.a f.b)
  | 5 => some .tidle
  | 6 => some (.tquiet f.a)
  | _ => none

/-- The trap and context group (0x2E). -/
def candTrap (f : CFields) : Option Instr :=
  match f.fn.toNat with
  | 0 => some (.trap f.b)
  | 1 => some .tret
  | 2 => some .halt
  | 3 => some .wfe
  | 4 => some (.vown f.a)
  | 5 => some (.vsave f.b)
  | 6 => some (.vrest f.b)
  | _ => none

/-- The Reel group (0x2F). -/
def candReel (f : CFields) : Option Instr :=
  match f.fn.toNat with
  | 0 => some (.tmark f.b f.c)
  | 1 => some (.tflt f.b)
  | 2 => some (.cexp f.b)
  | 3 => some (.prog f.b)
  | 4 => some (.lcap f.a f.b)
  | _ => none

/-- The Slate group (0x30). -/
def candSlate (f : CFields) : Option Instr :=
  match f.fn.toNat with
  | 0 => some (.jput f.b)
  | 1 => some (.jsync f.b)
  | 2 => some (.emit f.b f.c)
  | 3 => some (.jtrunc f.b)
  | 4 => some (.jreplay f.b)
  | _ => none

/-- The prefix of a cross-lane word (spec/02 R40). -/
def CFields.xlPrefix (f : CFields) : Option Prefix :=
  if f.F.extractLsb' 5 1 = 1 then some ⟨f.c, bitTrue (f.F.extractLsb' 4 1)⟩ else none
/-- The scale registers of a product word (spec/02 R41). -/
def CFields.scales (f : CFields) : Option Scales :=
  if f.a.extractLsb' 4 1 = 1 then some ⟨f.F.extractLsb' 2 3, f.a.extractLsb' 1 3⟩ else none
def CFields.rm (f : CFields) : Option Rm := Rm.ofCode (f.F.extractLsb' 0 2)
def CFields.ori (f : CFields) : Option Orient := Orient.ofCode (f.F.extractLsb' 5 1)
def CFields.vmem (f : CFields) (t : ETy) : Option VMem := f.ori.map fun o => ⟨f.b, f.F.extractLsb' 0 5, o, t⟩

/-- vred and vscan by their sub-operation (spec/02 R40). -/
def candRed (scan : Bool) (f : CFields) (t : ETy) : Option Instr :=
  match (f.F.extractLsb' 0 4).toNat, scan with
  | 0, false => some (.vredAdd t f.xlPrefix f.a f.b)
  | 0, true => some (.vscanAdd t f.xlPrefix f.a f.b)
  | 1, false => some (.vredMin t f.xlPrefix f.a f.b)
  | 1, true => some (.vscanMin t f.xlPrefix f.a f.b)
  | 2, false => some (.vredMax t f.xlPrefix f.a f.b)
  | 2, true => some (.vscanMax t f.xlPrefix f.a f.b)
  | 3, false => some (.vredAnd t f.xlPrefix f.a f.b)
  | 3, true => some (.vscanAnd t f.xlPrefix f.a f.b)
  | 4, false => some (.vredOr t f.xlPrefix f.a f.b)
  | 4, true => some (.vscanOr t f.xlPrefix f.a f.b)
  | 5, false => some (.vredXor t f.xlPrefix f.a f.b)
  | 5, true => some (.vscanXor t f.xlPrefix f.a f.b)
  | _, _ => none

/-- The C-V words with an element type (spec/02 R39 to R41). -/
def candVec (f : CFields) (t : ETy) : Option Instr :=
  match f.op.toNat with
  | 0x44 => (f.vmem t).map fun m => .vld f.a f.c m
  | 0x45 => (f.vmem t).map fun m => .vst f.a f.c m
  | 0x46 => (f.vmem t).map fun m => .vstMc f.a f.c m
  | 0x47 => (f.vmem t).map fun m => .vlff f.a m
  | 0x48 => (f.vmem t).map fun m => .vldx f.a f.c m
  | 0x49 => (f.vmem t).map fun m => .vstx f.a f.c m
  | 0x4C => some (.vmvx t f.a f.b f.c)
  | 0x4D => some (.vbcast t f.a f.b)
  | 0x50 => candRed false f t
  | 0x51 => some (.vminidx t f.xlPrefix f.a f.b)
  | 0x52 => some (.vmaxidx t f.xlPrefix f.a f.b)
  | 0x53 => candRed true f t
  | 0x54 => some (.vperm t f.a f.b f.c)
  | 0x55 => some (.vcompress t f.a f.b f.c)
  | 0x56 => some (.vexpand t f.a f.b f.c)
  | 0x57 => some (if f.F.extractLsb' 0 1 = 1 then .vslideDown t f.a f.b f.c else .vslideUp t f.a f.b f.c)
  | 0x63 => (Acc.ofCode (f.a.extractLsb' 0 1)).bind fun z => f.rm.map fun rm => .mop t z rm f.scales f.b f.c
  | 0x64 => (Acc.ofCode (f.a.extractLsb' 0 1)).bind fun z => f.rm.map fun rm =>
      .mtile t z rm f.scales f.b (f.c.extractLsb' 3 2)
  | 0x65 => (Acc.ofCode (f.b.extractLsb' 0 1)).bind fun z => f.rm.bind fun rm => f.ori.map fun o =>
      .mdrain o t z rm f.a f.c
  | 0x66 => (Acc.ofCode (f.b.extractLsb' 0 1)).bind fun z => f.rm.bind fun rm => f.ori.map fun o =>
      .mdrainB o t z rm f.c
  | 0x67 => (Acc.ofCode (f.a.extractLsb' 0 1)).bind fun z => f.ori.map fun o => .mld o t z f.b f.c
  | 0x68 => (Acc.ofCode (f.a.extractLsb' 0 1)).bind fun z => f.rm.bind fun rm => f.ori.map fun o =>
      .mst o t z rm f.b f.c
  | 0x69 => f.rm.map fun rm => .mbwdX t rm f.scales (f.b.extractLsb' 3 2) (f.c.extractLsb' 3 2)
  | 0x6A => f.rm.map fun rm => .mbwdW t rm f.scales (f.b.extractLsb' 3 2) (f.c.extractLsb' 3 2)
  | 0x6B => f.rm.map fun rm => .mbwdBoth t rm f.scales (f.b.extractLsb' 3 2) (f.c.extractLsb' 3 2)
  | _ => none

/-- The C-M words (spec/02 R31, R34). -/
def candMem (f : CFields) (h : Hint) (o : Orient) : Option Instr :=
  match f.op.toNat with
  | 0x18 => some (.ldS8 f.a f.b f.off12 h o)
  | 0x19 => some (.ldZ8 f.a f.b f.off12 h o)
  | 0x1A => some (.ldS16 f.a f.b f.off12 h o)
  | 0x1B => some (.ldZ16 f.a f.b f.off12 h o)
  | 0x1C => some (.ldS32 f.a f.b f.off12 h o)
  | 0x1D => some (.ldZ32 f.a f.b f.off12 h o)
  | 0x1E => some (.ld64 f.a f.b f.off12 h)
  | 0x20 => some (.st8 f.a f.b f.off12 h o)
  | 0x21 => some (.st16 f.a f.b f.off12 h o)
  | 0x22 => some (.st32 f.a f.b f.off12 h o)
  | 0x23 => some (.st64 f.a f.b f.off12 h)
  | _ => none

/-- The candidate of a control word, by major opcode (spec/02 R34). -/
def candC (f : CFields) : Option Instr :=
  match f.op.toNat with
  | 0x01 => (ISize.ofCode f.sz).bind (candInt f)
  | 0x02 => some (.addi f.a f.b f.imm15)
  | 0x03 => some (.andi f.a f.b f.imm15)
  | 0x04 => some (.ori f.a f.b f.imm15)
  | 0x05 => some (.xori f.a f.b f.imm15)
  | 0x06 => some (.shli f.a f.b (f.imm15.extractLsb' 0 6))
  | 0x07 => some (.shri f.a f.b (f.imm15.extractLsb' 0 6))
  | 0x08 => some (.srai f.a f.b (f.imm15.extractLsb' 0 6))
  | 0x09 => some (.slti f.a f.b f.imm15)
  | 0x0A => some (.lhi f.a f.imm20)
  | 0x0B => some (.pcrel f.a f.imm20)
  | 0x0C => some (.jmp f.a f.imm20)
  | 0x0D => some (.jr f.a f.b f.imm15)
  | 0x0E => some (.jtab f.a f.b f.imm15)
  | 0x10 => some (.beq f.a f.b f.imm15)
  | 0x11 => some (.bne f.a f.b f.imm15)
  | 0x12 => some (.blt f.a f.b f.imm15)
  | 0x13 => some (.bge f.a f.b f.imm15)
  | 0x24 => (AccSize.ofCode (f.c.extractLsb' 3 2)).bind fun z => (Scope.ofCode f.sz).map fun c => .ldAcq f.a f.b z f.off10 c
  | 0x25 => (AccSize.ofCode (f.c.extractLsb' 3 2)).bind fun z => (Scope.ofCode f.sz).map fun c => .stRel f.a f.b z f.off10 c
  | 0x26 => (Rm.ofCode (f.fn.extractLsb' 5 2)).bind (candFlt f)
  | 0x27 => some (.cget f.a (f.imm15.extractLsb' 0 12))
  | 0x28 => some (.cset f.b (f.imm15.extractLsb' 0 12))
  | 0x29 => some (.cswap f.a f.b (f.imm15.extractLsb' 0 12))
  | 0x2A => candMm f
  | 0x2B => (Scope.ofCode f.sz).bind fun c => (AmoTy.ofCode (f.fn.extractLsb' 0 3)).bind fun ty =>
      (AmoOp.ofCode (f.fn.extractLsb' 3 4)).map (candAmo f c ty)
  | 0x2C => candEng f
  | 0x2D => candGang f
  | 0x2E => candTrap f
  | 0x2F => candReel f
  | 0x30 => candSlate f
  | 0x40 => (WCode.ofCode (f.F.extractLsb' 0 3)).map fun w => .setvl (bitTrue (f.F.extractLsb' 5 1)) w f.a f.b
  | 0x41 => some (.setvtype f.b)
  | 0x42 => some (.vf f.imm20)
  | 0x43 => some (.vdrain f.imm20)
  | 0x4A => some (.scommit (if f.F.extractLsb' 1 1 = 1 then some ⟨f.a, bitTrue (f.F.extractLsb' 0 1)⟩ else none))
  | 0x4B => some .sabort
  | 0x58 => some (.vfirst f.a f.b)
  | 0x59 => some (.vpcount f.a f.b)
  | 0x60 => some (.menter f.b)
  | 0x61 => some .mleave
  | 0x62 => (ZSel.ofCode (f.a.extractLsb' 0 2)).map .mzero
  | _ =>
    if f.op.toNat < 0x24 then
      (Hint.ofCode (f.lo.extractLsb' 1 2)).bind fun h => (Orient.ofCode (f.lo.extractLsb' 0 1)).bind (candMem f h)
    else (ETy.ofCode f.ty).bind (candVec f)

/-- The instruction of the fields of a control word: none where the word is not an instruction (spec/02 R47). -/
def decodeFieldsC (f : CFields) : Option Instr :=
  match candC f with
  | some i => if i.wf && encodeC i == some f then some i else none
  | none => none

/-- Decoding of a 32-bit control word (spec/02 R28). The rules of R47 that need the machine (the second array, the
target of vf and vdrain) are made where those words execute. -/
def decodeControl (w : CWord) : Option Instr := decodeFieldsC (CFields.unpack w)

-- Block words -------------------------------------------------------------------------------------------------------------

/-- The fields of a block word (spec/02 R42). -/
structure BFields where
  op : BitVec 8
  cv : Bool := false
  vd : BitVec 5 := 0
  va : BitVec 5 := 0
  ca : Bool := false
  vb : BitVec 5 := 0
  cb : Bool := false
  vc : BitVec 5 := 0
  cc : Bool := false
  pp : BitVec 5 := 0
  ps : Bool := false
  pm : BitVec 5 := 0
  ty : BitVec 4 := 0
  rm : BitVec 3 := 0
  pe : Bool := false
  me : Bool := false
  imm : BitVec 12 := 0
  deriving DecidableEq, Repr

def BFields.unpack (w : BWord) : BFields :=
  { op := w.extractLsb' 56 8, cv := bitTrue (w.extractLsb' 55 1), vd := w.extractLsb' 50 5, va := w.extractLsb' 45 5,
    ca := bitTrue (w.extractLsb' 44 1), vb := w.extractLsb' 39 5, cb := bitTrue (w.extractLsb' 38 1),
    vc := w.extractLsb' 33 5, cc := bitTrue (w.extractLsb' 32 1), pp := w.extractLsb' 27 5,
    ps := bitTrue (w.extractLsb' 26 1), pm := w.extractLsb' 21 5, ty := w.extractLsb' 17 4,
    rm := w.extractLsb' 14 3, pe := bitTrue (w.extractLsb' 13 1), me := bitTrue (w.extractLsb' 12 1),
    imm := w.extractLsb' 0 12 }

/-- The high half of a block word. -/
def BFields.hi (f : BFields) : BitVec 32 :=
  f.op ++ bit f.cv ++ f.vd ++ f.va ++ bit f.ca ++ f.vb ++ bit f.cb ++ f.vc ++ bit f.cc
/-- The low half of a block word. -/
def BFields.low (f : BFields) : BitVec 32 :=
  f.pp ++ bit f.ps ++ f.pm ++ f.ty ++ f.rm ++ bit f.pe ++ bit f.me ++ f.imm
def BFields.pack (f : BFields) : BWord := f.hi ++ f.low

/-- The fields a block word of opcode op shares with every other: convoy bit and prefix. -/
def bhead (op : BitVec 8) (h : BHead) : BFields :=
  match h.pred with
  | none => { op := op, cv := h.cv }
  | some p => { op := op, cv := h.cv, pp := p.p, ps := p.neg, pe := true }
def BFields.withMask (f : BFields) (m : Option Reg) : BFields :=
  match m with
  | none => f
  | some p => { f with pm := p, me := true }
def rm3 (rm : Rm) : BitVec 3 := (0 : BitVec 1) ++ rm.code
def BFields.d (f : BFields) (d : Reg) : BFields := { f with vd := d }
def BFields.a (f : BFields) (s : Src) : BFields := { f with va := s.r, ca := s.ch }
def BFields.b (f : BFields) (s : Src) : BFields := { f with vb := s.r, cb := s.ch }
def BFields.c (f : BFields) (s : Src) : BFields := { f with vc := s.r, cc := s.ch }
def BFields.t (f : BFields) (t : ETy) : BFields := { f with ty := t.code }
def BFields.r (f : BFields) (rm : Rm) : BFields := { f with rm := rm3 rm }
def BFields.i (f : BFields) (i : BitVec 12) : BFields := { f with imm := i }
/-- rm of a row memory word: [0] is o (spec/02 R45). -/
def BFields.o (f : BFields) (o : Orient) : BFields := { f with rm := (0 : BitVec 2) ++ o.code }

/-- The carried registers of vdefer: type bit k says that field k carries (spec/03 R69). -/
def carry (f : BFields) (d : Option Reg) (a b c : Option Src) : BFields :=
  { f with
    vd := d.getD 0
    va := (a.getD ⟨0, false⟩).r, ca := (a.getD ⟨0, false⟩).ch
    vb := (b.getD ⟨0, false⟩).r, cb := (b.getD ⟨0, false⟩).ch
    vc := (c.getD ⟨0, false⟩).r, cc := (c.getD ⟨0, false⟩).ch
    ty := bit c.isSome ++ bit b.isSome ++ bit a.isSome ++ bit d.isSome }

/-- The fields of a block word (spec/02 R42 to R45); none for an instruction that is no block word. -/
def encodeB : Instr → Option BFields
  | .vadd h t rm d a b m => some (((((((bhead 0x01 h).d d).a a).b b).t t).r rm).withMask m)
  | .vsub h t rm d a b m => some (((((((bhead 0x02 h).d d).a a).b b).t t).r rm).withMask m)
  | .vmul h t rm d a b m => some (((((((bhead 0x03 h).d d).a a).b b).t t).r rm).withMask m)
  | .vmac h t rm d a b m => some (((((((bhead 0x05 h).d d).a a).b b).t t).r rm).withMask m)
  | .vdiv h t rm d a b m => some (((((((bhead 0x07 h).d d).a a).b b).t t).r rm).withMask m)
  | .vmulh h t d a b => some (((((bhead 0x04 h).d d).a a).b b).t t)
  | .vfma h t rm d a b c m => some ((((((((bhead 0x06 h).d d).a a).b b).c c).t t).r rm).withMask m)
  | .vrem h t d a b m => some ((((((bhead 0x08 h).d d).a a).b b).t t).withMask m)
  | .vmin h t d a b => some (((((bhead 0x09 h).d d).a a).b b).t t)
  | .vmax h t d a b => some (((((bhead 0x0A h).d d).a a).b b).t t)
  | .vabs h t d a m => some (((((bhead 0x0B h).d d).a a).t t).withMask m)
  | .vneg h t d a m => some (((((bhead 0x0C h).d d).a a).t t).withMask m)
  | .vsqrt h t rm d a => some (((((bhead 0x0D h).d d).a a).t t).r rm)
  | .vand h t d a b => some (((((bhead 0x10 h).d d).a a).b b).t t)
  | .vor h t d a b => some (((((bhead 0x11 h).d d).a a).b b).t t)
  | .vxor h t d a b => some (((((bhead 0x12 h).d d).a a).b b).t t)
  | .vshl h t d a b => some (((((bhead 0x14 h).d d).a a).b b).t t)
  | .vshr h t d a b => some (((((bhead 0x15 h).d d).a a).b b).t t)
  | .vsra h t d a b => some (((((bhead 0x16 h).d d).a a).b b).t t)
  | .vnot h t d a => some ((((bhead 0x13 h).d d).a a).t t)
  | .vpopc h t d a => some ((((bhead 0x17 h).d d).a a).t t)
  | .vclz h t d a => some ((((bhead 0x18 h).d d).a a).t t)
  | .vsel h t d a b n => some ({ (((bhead 0x1C h).d d).a a).b b with vc := n, ty := t.code })
  | .vli h t d i => some ((((bhead 0x1D h).d d).t t).i i)
  | .vmov h t d a => some ((((bhead 0x1E h).d d).a a).t t)
  | .vcvt h t u rm d a m => some (((((((bhead 0x20 h).d d).a a).t t).r rm).i ((0 : BitVec 8) ++ u.code)).withMask m)
  | .vclass h t d a => some ((((bhead 0x21 h).d d).a a).t t)
  | .vrcp h rm d a m => some ((((((bhead 0x22 h).d d).a a).t .f32).r rm).withMask m)
  | .vrsqrt h rm d a m => some ((((((bhead 0x23 h).d d).a a).t .f32).r rm).withMask m)
  | .vexp2 h rm d a m => some ((((((bhead 0x24 h).d d).a a).t .f32).r rm).withMask m)
  | .vlog2 h rm d a m => some ((((((bhead 0x25 h).d d).a a).t .f32).r rm).withMask m)
  | .vqadd h d a b m => some ((((((bhead 0x28 h).d d).a a).b b).t .q).withMask m)
  | .vqmul h d a b m => some ((((((bhead 0x29 h).d d).a a).b b).t .q).withMask m)
  | .vqpack h u d a m => some ((((((bhead 0x2A h).d d).a a).t .q).i ((0 : BitVec 8) ++ u.code)).withMask m)
  | .vqunpack h t d a => some ((((bhead 0x2B h).d d).a a).t t)
  | .vscale h t rm d a k m => some (((((((bhead 0x2C h).d d).a a).t t).r rm).i ((0 : BitVec 9) ++ k)).withMask m)
  | .vcmp h cc t d a b => some ((((((bhead 0x30 h).d d).a a).b b).t t).i ((0 : BitVec 9) ++ cc.code))
  | .pand h d a b => some ({ bhead 0x38 h with vd := d, va := a, vb := b })
  | .por h d a b => some ({ bhead 0x39 h with vd := d, va := a, vb := b })
  | .pxor h d a b => some ({ bhead 0x3A h with vd := d, va := a, vb := b })
  | .pnot h d a => some ({ bhead 0x3B h with vd := d, va := a })
  | .pmov h d a => some ({ bhead 0x3C h with vd := d, va := a })
  | .psgt h t d a b => some (((((bhead 0x40 h).d d).a a).b b).t t)
  | .psge h t d a b => some (((((bhead 0x41 h).d d).a a).b b).t t)
  | .pslt h t d a b => some (((((bhead 0x42 h).d d).a a).b b).t t)
  | .psle h t d a b => some (((((bhead 0x43 h).d d).a a).b b).t t)
  | .pset h d a => some ((((bhead 0x44 h).d d).a a).t .z16)
  | .pind cv d v => some ({ op := 0x45, cv := cv, vd := d, imm := (0 : BitVec 11) ++ bit v })
  | .pcollapse cv d a => some ({ op := 0x46, cv := cv, vd := d, va := a })
  | .vblend cv t rm d a b c => some ({ (((({ op := 0x47, cv := cv, vc := c } : BFields).d d).a a).b b).t t with rm := rm3 rm })
  | .vbgrad h t rm d g a b => some (((((((bhead 0x48 h).d d).a g).b a).c b).t t).r rm)
  | .psgrad h t rm d g a b => some (((((((bhead 0x49 h).d d).a g).b a).c b).t t).r rm)
  | .vlde h o t d a i => some ((((((bhead 0x50 h).d d).a a).t t).o o).i i)
  | .vste h o t a b i => some ((((((bhead 0x51 h).a a).b b).t t).o o).i i)
  | .vamo h op c ty d a b n => some ({ ((((bhead 0x52 h).d d).a a).b b).c n with ty := (4 : BitVec 4) + ((0 : BitVec 1) ++ ty.code), imm := (0 : BitVec 5) ++ c.code ++ op.code })
  | .vdefer h d a b c i => some ((carry (bhead 0x53 h) d a b c).i i)
  | .vfetch h i => some ((bhead 0x54 h).i i)
  | .vstop => some ({ op := 0x55 })
  | _ => none

def BFields.head (f : BFields) : BHead := ⟨f.cv, if f.pe then some ⟨f.pp, f.ps⟩ else none⟩
def BFields.mask (f : BFields) : Option Reg := if f.me then some f.pm else none
def BFields.sa (f : BFields) : Src := ⟨f.va, f.ca⟩
def BFields.sb (f : BFields) : Src := ⟨f.vb, f.cb⟩
def BFields.sc (f : BFields) : Src := ⟨f.vc, f.cc⟩
/-- rm of a block word; 100 to 111 are reserved (spec/02 R42). -/
def BFields.rmode (f : BFields) : Option Rm := if f.rm.extractLsb' 2 1 = 1 then none else Rm.ofCode (f.rm.extractLsb' 0 2)

/-- The candidate of a block word, by opcode (spec/02 R45). -/
def candB (f : BFields) : Option Instr :=
  match f.op.toNat with
  | 0x01 => (ETy.ofCode f.ty).bind fun t => f.rmode.map fun rm => .vadd f.head t rm f.vd f.sa f.sb f.mask
  | 0x02 => (ETy.ofCode f.ty).bind fun t => f.rmode.map fun rm => .vsub f.head t rm f.vd f.sa f.sb f.mask
  | 0x03 => (ETy.ofCode f.ty).bind fun t => f.rmode.map fun rm => .vmul f.head t rm f.vd f.sa f.sb f.mask
  | 0x05 => (ETy.ofCode f.ty).bind fun t => f.rmode.map fun rm => .vmac f.head t rm f.vd f.sa f.sb f.mask
  | 0x07 => (ETy.ofCode f.ty).bind fun t => f.rmode.map fun rm => .vdiv f.head t rm f.vd f.sa f.sb f.mask
  | 0x04 => (ETy.ofCode f.ty).map fun t => .vmulh f.head t f.vd f.sa f.sb
  | 0x06 => (ETy.ofCode f.ty).bind fun t => f.rmode.map fun rm => .vfma f.head t rm f.vd f.sa f.sb f.sc f.mask
  | 0x08 => (ETy.ofCode f.ty).map fun t => .vrem f.head t f.vd f.sa f.sb f.mask
  | 0x09 => (ETy.ofCode f.ty).map fun t => .vmin f.head t f.vd f.sa f.sb
  | 0x0A => (ETy.ofCode f.ty).map fun t => .vmax f.head t f.vd f.sa f.sb
  | 0x0B => (ETy.ofCode f.ty).map fun t => .vabs f.head t f.vd f.sa f.mask
  | 0x0C => (ETy.ofCode f.ty).map fun t => .vneg f.head t f.vd f.sa f.mask
  | 0x0D => (ETy.ofCode f.ty).bind fun t => f.rmode.map fun rm => .vsqrt f.head t rm f.vd f.sa
  | 0x10 => (ETy.ofCode f.ty).map fun t => .vand f.head t f.vd f.sa f.sb
  | 0x11 => (ETy.ofCode f.ty).map fun t => .vor f.head t f.vd f.sa f.sb
  | 0x12 => (ETy.ofCode f.ty).map fun t => .vxor f.head t f.vd f.sa f.sb
  | 0x14 => (ETy.ofCode f.ty).map fun t => .vshl f.head t f.vd f.sa f.sb
  | 0x15 => (ETy.ofCode f.ty).map fun t => .vshr f.head t f.vd f.sa f.sb
  | 0x16 => (ETy.ofCode f.ty).map fun t => .vsra f.head t f.vd f.sa f.sb
  | 0x13 => (ETy.ofCode f.ty).map fun t => .vnot f.head t f.vd f.sa
  | 0x17 => (ETy.ofCode f.ty).map fun t => .vpopc f.head t f.vd f.sa
  | 0x18 => (ETy.ofCode f.ty).map fun t => .vclz f.head t f.vd f.sa
  | 0x1C => (ETy.ofCode f.ty).map fun t => .vsel f.head t f.vd f.sa f.sb f.vc
  | 0x1D => (ETy.ofCode f.ty).map fun t => .vli f.head t f.vd f.imm
  | 0x1E => (ETy.ofCode f.ty).map fun t => .vmov f.head t f.vd f.sa
  | 0x20 => (ETy.ofCode f.ty).bind fun t => (ETy.ofCode (f.imm.extractLsb' 0 4)).bind fun u => f.rmode.map fun rm => .vcvt f.head t u rm f.vd f.sa f.mask
  | 0x21 => (ETy.ofCode f.ty).map fun t => .vclass f.head t f.vd f.sa
  | 0x22 => f.rmode.map fun rm => .vrcp f.head rm f.vd f.sa f.mask
  | 0x23 => f.rmode.map fun rm => .vrsqrt f.head rm f.vd f.sa f.mask
  | 0x24 => f.rmode.map fun rm => .vexp2 f.head rm f.vd f.sa f.mask
  | 0x25 => f.rmode.map fun rm => .vlog2 f.head rm f.vd f.sa f.mask
  | 0x28 => some (.vqadd f.head f.vd f.sa f.sb f.mask)
  | 0x29 => some (.vqmul f.head f.vd f.sa f.sb f.mask)
  | 0x2A => (ETy.ofCode (f.imm.extractLsb' 0 4)).map fun u => .vqpack f.head u f.vd f.sa f.mask
  | 0x2B => (ETy.ofCode f.ty).map fun t => .vqunpack f.head t f.vd f.sa
  | 0x2C => (ETy.ofCode f.ty).bind fun t => f.rmode.map fun rm => .vscale f.head t rm f.vd f.sa (f.imm.extractLsb' 0 3) f.mask
  | 0x30 => (ETy.ofCode f.ty).bind fun t => (CmpOp.ofCode (f.imm.extractLsb' 0 3)).map fun cc => .vcmp f.head cc t f.vd f.sa f.sb
  | 0x38 => some (.pand f.head f.vd f.va f.vb)
  | 0x39 => some (.por f.head f.vd f.va f.vb)
  | 0x3A => some (.pxor f.head f.vd f.va f.vb)
  | 0x3B => some (.pnot f.head f.vd f.va)
  | 0x3C => some (.pmov f.head f.vd f.va)
  | 0x40 => (ETy.ofCode f.ty).map fun t => .psgt f.head t f.vd f.sa f.sb
  | 0x41 => (ETy.ofCode f.ty).map fun t => .psge f.head t f.vd f.sa f.sb
  | 0x42 => (ETy.ofCode f.ty).map fun t => .pslt f.head t f.vd f.sa f.sb
  | 0x43 => (ETy.ofCode f.ty).map fun t => .psle f.head t f.vd f.sa f.sb
  | 0x44 => some (.pset f.head f.vd f.sa)
  | 0x45 => some (.pind f.cv f.vd (bitTrue (f.imm.extractLsb' 0 1)))
  | 0x46 => some (.pcollapse f.cv f.vd f.va)
  | 0x47 => (ETy.ofCode f.ty).bind fun t => f.rmode.map fun rm => .vblend f.cv t rm f.vd f.sa f.sb f.vc
  | 0x48 => (ETy.ofCode f.ty).bind fun t => f.rmode.map fun rm => .vbgrad f.head t rm f.vd f.sa f.sb f.sc
  | 0x49 => (ETy.ofCode f.ty).bind fun t => f.rmode.map fun rm => .psgrad f.head t rm f.vd f.sa f.sb f.sc
  | 0x50 => (ETy.ofCode f.ty).bind fun t => (Orient.ofCode (f.rm.extractLsb' 0 1)).map fun o => .vlde f.head o t f.vd f.sa f.imm
  | 0x51 => (ETy.ofCode f.ty).bind fun t => (Orient.ofCode (f.rm.extractLsb' 0 1)).map fun o => .vste f.head o t f.sa f.sb f.imm
  | 0x52 => if f.ty < 4 ∨ 10 < f.ty then none else (AmoTy.ofCode ((f.ty - 4).extractLsb' 0 3)).bind fun ty => (Scope.ofCode (f.imm.extractLsb' 4 3)).bind fun c => (AmoOp.ofCode (f.imm.extractLsb' 0 4)).map fun op => .vamo f.head op c ty f.vd f.sa f.sb f.sc
  | 0x53 => some (.vdefer f.head (if bitTrue (f.ty.extractLsb' 0 1) then some f.vd else none) (if bitTrue (f.ty.extractLsb' 1 1) then some f.sa else none) (if bitTrue (f.ty.extractLsb' 2 1) then some f.sb else none) (if bitTrue (f.ty.extractLsb' 3 1) then some f.sc else none) f.imm)
  | 0x54 => some (.vfetch f.head f.imm)
  | 0x55 => some .vstop
  | _ => none

/-- The instruction of the fields of a block word: none where the word is not an instruction (spec/02 R49). -/
def decodeFieldsB (f : BFields) : Option Instr :=
  match candB f with
  | some i => if i.wf && encodeB i == some f then some i else none
  | none => none

/-- Decoding of a 64-bit block word (spec/02 R42). -/
def decodeBlock (w : BWord) : Option Instr := decodeFieldsB (BFields.unpack w)

-- Both kinds of word ----------------------------------------------------------------------------------------------

/-- The word of an instruction with its width in bits: 32 for a control word, 64 for a block word; none for an event,
which has no encoding. -/
def encode (i : Instr) : Option (Nat × Nat) :=
  match encodeC i with
  | some f => some (32, f.pack.toNat)
  | none =>
    match encodeB i with
    | some f => some (64, f.pack.toNat)
    | none => none

/-- The instruction a word of nbits bits stands for. A control word is 4 bytes and a block word 8, little-endian
(spec/02 R28), so the table's bit numbers are the word's own. -/
def decodeTableWord (nbits w : Nat) : Option Instr :=
  if nbits ≤ 32 then decodeControl (BitVec.ofNat 32 w) else decodeBlock (BitVec.ofNat 64 w)

/-- A little-endian number from bytes, the first at the lowest address (spec/00 R5). -/
def leNat : List Byte → Nat
  | [] => 0
  | b :: bs => b.toNat + 256 * leNat bs

/-- The n bytes of a number, little-endian. -/
def leBytes : Nat → Nat → List Byte
  | 0, _ => []
  | n + 1, v => BitVec.ofNat 8 v :: leBytes n (v / 256)

/-- The control word that a byte list begins with, and the rest; none when fewer than four bytes are left or the
word is not an instruction. -/
def decodeBytes : List Byte → Option (Instr × List Byte)
  | b0 :: b1 :: b2 :: b3 :: rest => (decodeControl (BitVec.ofNat 32 (leNat [b0, b1, b2, b3]))).map fun i => (i, rest)
  | _ => none

end Sys2Proof
end

