-- ==== Sys2Proof/Machine/Flags.lean ====
section
/-!
DEFINITION. The sticky flags of fpflags (spec/04 R95) and the flush bits of fpctl (spec/04 R94).
-/
namespace Sys2Proof.Machine

/-- A set of the nine sticky flags, bit numbers as in fpflags (spec/04 R95). -/
abbrev Flags := BitVec 9

def flagNx : Flags := 0x001
def flagUf : Flags := 0x002
def flagOf : Flags := 0x004
def flagDz : Flags := 0x008
def flagNv : Flags := 0x010
def flagFo : Flags := 0x020
def flagSat : Flags := 0x040
def flagNf : Flags := 0x080
def flagTn : Flags := 0x100

/-- A flag raised under a condition. -/
def flagIf (c : Bool) (f : Flags) : Flags := if c then f else 0

/-- The float formats (spec/04 R76). -/
inductive Fmt where
  | f32 | bf16 | f16 | e4m3 | e5m2
  deriving DecidableEq, Repr

/-- Fraction bits (spec/04 R76). -/
def Fmt.frac : Fmt → Nat
  | .f32 => 23 | .bf16 => 7 | .f16 => 10 | .e4m3 => 3 | .e5m2 => 2
/-- Exponent bits. -/
def Fmt.expo : Fmt → Nat
  | .f32 => 8 | .bf16 => 8 | .f16 => 5 | .e4m3 => 4 | .e5m2 => 5
/-- Exponent bias. -/
def Fmt.bias : Fmt → Nat
  | .f32 => 127 | .bf16 => 127 | .f16 => 15 | .e4m3 => 7 | .e5m2 => 15
/-- Width in bits. -/
def Fmt.width (f : Fmt) : Nat := 1 + f.expo + f.frac
/-- The number of the operand-flush bit in fpctl; the result-flush bit is the next one (spec/04 R94). -/
def Fmt.flushBit : Fmt → Nat
  | .f32 => 0 | .bf16 => 2 | .f16 => 4 | .e4m3 => 6 | .e5m2 => 8

/-- of_t of fpctl. -/
def operandFlush (ctl : BitVec 10) (f : Fmt) : Bool := ctl.getLsbD f.flushBit
/-- rf_t of fpctl. -/
def resultFlush (ctl : BitVec 10) (f : Fmt) : Bool := ctl.getLsbD (f.flushBit + 1)

end Sys2Proof.Machine
end

