-- ==== Sys2Proof/Machine/State.lean ====
section
/-!
DEFINITION. The state of the machine as plain data, its faults and refusals, and the state after reset.
INVENTORY.md lists every field with the rule that names it.
-/
namespace Sys2Proof.Machine

/-- A sparse table: entries in rising order of their key, and no entry equal to what an unlisted key reads as. -/
abbrev Tab (α : Type) := List (Nat × α)

-- Vector state --------------------------------------------------------------------------------------------------------

/-- A predicate register (spec/06 R122): 16-bit cells as one bit image, class tag, independence bit. -/
structure Pred where
  cells : Nat := 0
  prob : Bool := false
  ind : Bool := false
  deriving DecidableEq, Repr

/-- A Geyser entry (spec/03 R68). The hart is the hart within the core. -/
structure GEntry where
  mask : Nat
  nd : Nat
  na : Nat
  nb : Nat
  nc : Nat
  width : Nat
  qw : Nat
  hart : Nat
  row : Nat
  target : Nat
  vals : List Nat
  deriving DecidableEq, Repr

/-- One buffered element (spec/08 R177, spec/11 R237): its address, the physical address found at the append, the
row it belongs to, its bytes. A sliced plane byte holds the bits of rows row to row + 7. known is false for an
element that vrest restored: the save area keeps no virtual address (spec/11 R237). own is the element's own value, which it
contributes where its page has a commutative mode at the commit (spec/14 R290); val differs from it where newer stores of its row
were laid over it (spec/03 R60). at_ is the time of its append. -/
structure BufElem where
  va : Nat
  pa : Nat
  size : Nat
  row : Nat
  val : Nat
  own : Nat := val
  sliced : Bool := false
  known : Bool := true
  at_ : Nat := 0
  deriving DecidableEq, Repr

/-- One entry of the strip store buffer (spec/08 R181). inst names the vste word and its instance (spec/03 R61); resume
says that a vstx was stopped in it (spec/08 R179). -/
structure BufEntry where
  inst : Option (Nat × Nat) := none
  mc : Bool := false
  resume : Bool := false
  o : Orient := .row
  bytes : Nat := 0
  elems : List BufElem := []
  deriving DecidableEq, Repr

/-- Where a row's vamo stands (spec/13 R272): nowhere, held back by the limit of its core, at its engine with its physical address,
or served, with the old value and the time of its service. -/
inductive RowAmo where
  | idle | limited | waiting (pa : Nat) | served (pa old at_ : Nat)
  deriving DecidableEq, Repr

/-- A row of a block run (spec/03 R52): block program counter, ended flag, the block it entered last (R73), how
often it has executed each vste and pcollapse word (R61, spec/06 R139), when its latest vamo on a byte was served
(R60), by physical address, and where the vamo that it executes stands. -/
structure RowState where
  pc : Nat
  block : Nat
  ended : Bool := false
  inst : Tab Nat := []
  amos : Tab Nat := []
  amo : RowAmo := .idle
  deriving DecidableEq, Repr

/-- The values a queue entry captures at issue (spec/08 R164). -/
structure Capture where
  vlen : Nat := 0
  mvlen : Nat := 0
  vtype : Word := 0x28
  sw : Nat := 3
  swq : Nat := 0
  fpctl : BitVec 10 := 0
  ptemp : BitVec 32 := 0
  lanes : Nat := 0
  deriving DecidableEq, Repr

/-- A block run in progress (spec/03 R56 to R60). -/
structure Run where
  issuePc : Nat
  target : Nat
  n : Nat
  words : Tab Nat
  rows : List RowState
  cur : Nat := 0
  cap : Capture := {}
  g0 : Word := 0
  isDrain : Bool := false
  rest : List GEntry := []
  geyserMark : Nat := 0
  deriving DecidableEq, Repr

/-- An entry of the vector queue (spec/08 R164): a vf or a vdrain with its validated words, or, when word is given, a word
that issued behind entries that are not complete; holds says that this word holds an interlock entry (spec/13 R264). begun
is the time at which that word began at the head of the queue, once it has (spec/18 R370). mark is given for a tmark and a
jput, which take no place of the queue: tstamp at their issue (spec/18 R348, R349, spec/19 R389, spec/11 R219). -/
structure QEntry where
  issuePc : Nat
  target : Nat := 0
  words : Tab Nat := []
  isDrain : Bool := false
  cap : Capture
  word : Option Instr := none
  holds : Bool := false
  begun : Option Nat := none
  mark : Option Nat := none
  deriving DecidableEq, Repr

-- The hart ----------------------------------------------------------------------------------------------------------------

/-- A record of an event that took place while marks of its hart stood in the queue (spec/18 R349): it follows the records of the
first after of them. engine is the class mask of a record that is offered as an engine's, none for one that its hart emits. -/
structure Behind where
  after : Nat
  time : Nat
  code : Nat
  tenant : Option Nat
  engine : Option (BitVec 16) := none
  p0 : Word
  p1 : Word
  deriving DecidableEq, Repr

/-- Why a hart is not ready (spec/07 R162). interlock and table are stalls on the interlock table (spec/13 R264, R265),
copies the wait of a trap, a halt or a seal for copies and stores in flight (spec/13 R263, spec/14 R289). reel is a word
held before its record (spec/18 R356), held a hart held by its records in the reserve. -/
inductive Wait where
  | none | lanes | array | wfe | gbar | abar | gwait | jsync | interlock | table | copies | copyQueue | atomic | reel | held | emitRoom
  | emitted
  deriving DecidableEq, Repr

/-- The delay and progress counts of a trial (spec/18 R377, R378). -/
structure TrialCounts where
  acc : Nat := 0
  words : Nat := 0
  delay : Nat := 0
  prog : Tab Nat := []
  deriving DecidableEq, Repr

/-- A hart (spec/07 R143, R146; spec/11 R222, R231). The defaults are the values at reset; those the spec gives none for,
the scale bytes k among them, are log 6 (DESIGN CHOICE). rest holds what a vrest that waits for lanes or the array has read
and checked (spec/11 R235), emitSeq the number an emit that waits has fixed (spec/19 R391), stall the cycle and the tstamp
at which a stall by Reel began (spec/18 R356), holds that the word at the pc holds an interlock entry while it waits
(spec/13 R264), marks the number of marks in the queue, and behind the records that wait for their records (spec/18 R349).
amo is the destination of an atomic whose request is at its engine (spec/13 R272); tableStall says that issue behind the
queue waits for a free interlock entry (spec/13 R264), heldAhead that Reel holds it (spec/18 R356). owes lists the dies in
whose reserve a record of the hart or of its request came to wait (spec/18 R356). -/
structure Hart where
  pc : Word := 0
  x : Tab Word := []
  vlen : Nat := 0
  mvlen : Nat := 0
  vtype : Word := 0x28
  sw : Nat := 3
  swq : Nat := 0
  stripBase : Word := 0
  buffer : List BufEntry := []
  kidx : Word := 0
  fpctl : BitVec 10 := 0
  fpflags : BitVec 9 := 0
  ptemp : BitVec 32 := 0
  gctr : Word := 0
  gid : Nat := 0
  gsz : Nat := 0
  garg : Word := 0
  tenant : BitVec 12 := 0
  sup : Bool := false
  matrix : Bool := false
  tvec : Word := 0
  tpc : Word := 0
  tcause : Word := 0
  tval : Word := 0
  tinfo : Word := 0
  tscratch : Word := 0
  ectr : Word := 0
  pend : Word := 0
  own : BitVec 16 := 0
  tbase : Word := 0
  tmask : BitVec 16 := 0x0020
  tallow : BitVec 16 := 0x0020
  cnsel : BitVec 18 := 0
  jsel : BitVec 8 := 0
  v : Tab Nat := []
  p : Tab Pred := []
  k : Tab Nat := []
  lanes : Nat := 0
  za : Nat := 0
  zb : Nat := 0
  bypass : Option (ETy × Nat) := none
  queue : List QEntry := []
  run : Option Run := none
  armed : Option Nat := none
  latch : Bool := false
  lastAcq : Option Nat := none
  started : Bool := false
  halted : Bool := false
  wait : Wait := .none
  waitSince : Nat := 0
  stall : Option (Nat × Nat) := none
  holds : Bool := false
  marks : Nat := 0
  behind : List Behind := []
  owes : List Nat := []
  issued : Bool := false
  issuedAt : Nat := 0
  preempt : Option Nat := none
  stopMsg : Option Nat := none
  stopTaken : Bool := false
  gang : Option Nat := none
  arr : Bool := false
  pass : Bool := false
  idle : Bool := false
  arrivedAt : Nat := 0
  rest : Option (List Byte × List (List Byte)) := none
  trial : TrialCounts := {}
  holdUntil : Nat := 0
  reply : Option Nat := none
  amo : Option (Reg × AmoTy) := none
  tableStall : Bool := false
  heldAhead : Bool := false
  emitSeq : Option Nat := none
  deriving DecidableEq, Repr

-- The core ------------------------------------------------------------------------------------------------------------------

/-- A range of an interlock entry (spec/13 R264): bytes lo to hi, none, or all memory. -/
inductive Range where
  | empty | span (lo hi : Nat) | all
  deriving DecidableEq, Repr

/-- An interlock entry. copy names the copy it belongs to; 0 is a word of the vector queue, whose entries leave in the
order of the queue. -/
structure Interlock where
  hart : Nat
  copy : Nat
  rd : Range
  wr : Range
  deriving DecidableEq, Repr

/-- A leaf held by a translation cache (spec/14 R295): the root it was found under, its page and the entry. -/
structure TlbEntry where
  root : Nat
  page : Nat
  level : Nat
  leaf : Nat
  deriving DecidableEq, Repr

/-- A latency capture unit's items (spec/18 R371). -/
structure Latency where
  count : Nat := 0
  min : Nat := 0xFFFFFFFF
  max : Nat := 0
  sum : Nat := 0
  lost : Nat := 0
  buckets : Tab Nat := []
  said : List Nat := []
  deriving DecidableEq, Repr

/-- A line of an instruction cache (spec/14 R297): its block of 64 bytes, its bytes, and the sectors whose poison mark the
fill carried along (spec/16 R325). -/
structure ILine where
  block : Nat
  bytes : List Byte
  poison : List Nat := []
  deriving DecidableEq, Repr

/-- A core (spec/00 R1). dupNext says what the duplicate-product check finds at the next product word (spec/10 R217);
clash lists the capture units with a capture in the cycle of their next clear (spec/18 R372). -/
structure Core where
  geyser : List GEntry := []
  arrayHolder : Option Nat := none
  arrayWait : List Nat := []
  laneWait : List Nat := []
  ew : Tab Word := []
  csel : Tab Word := []
  lcfg : Tab Word := []
  latency : Tab Latency := []
  wlo : Tab Word := []
  whi : Tab Word := []
  wctl : Tab Word := []
  interlocks : List Interlock := []
  tlb : List TlbEntry := []
  icache : List ILine := []
  dcache : List LineKey := []
  fenced : Bool := false
  dupNext : Option Retry := none
  clash : List Nat := []
  deriving DecidableEq, Repr

-- The cluster --------------------------------------------------------------------------------------------------------------

/-- A cached line (spec/12 R244, R247, R253): bit b of dirty is byte b in line order; o says that its page had
attribute O (R249). cls is the range that retains it, way its place in its set (R252). -/
structure Line where
  key : LineKey
  o : Bool := false
  dirty : Nat := 0
  cls : Option Nat := none
  way : Nat := 0
  fillAt : Nat := 0
  dirtyAt : Nat := 0
  usedAt : Nat := 0
  deriving DecidableEq, Repr

/-- A core's contribution to a commutative element, with the mode it was made under (spec/14 R290) and its tenant (spec/16 R333). -/
structure Contribution where
  core : Nat
  mode : Nat
  pa : Nat
  val : Nat
  ten : Nat := 0
  deriving DecidableEq, Repr

/-- A piece of one side of a copy: physical address, bytes, the commutative mode of its page. -/
structure Seg where
  pa : Nat
  len : Nat
  mode : Nat := 0
  deriving DecidableEq, Repr

/-- A copy request (spec/13 R261, R262). Segments are the physical pieces of each side, found at issue; link is the
physical address of the barrier word. data and poison are the source's at the start of the transfer. -/
structure Copy where
  id : Nat
  hart : Nat
  tenant : Nat
  dst : Nat
  src : Nat
  n : Nat
  od : Orient
  os : Orient
  link : Option Nat
  dstSegs : List Seg
  srcSegs : List Seg
  data : List Byte := []
  poison : List Nat := []
  landed : Nat := 0
  running : Bool := false
  issuedAt : Nat := 0
  die : Nat := 0
  deriving DecidableEq, Repr

/-- A request waiting at an atomic engine (spec/13 R272). row is the row of a vamo, in the run of its hart; o says that its
page has attribute O (spec/12 R249). -/
structure AtomicReq where
  hart : Nat
  row : Option Nat
  va : Nat
  pa : Nat
  o : Bool := false
  op : AmoOp
  ty : AmoTy
  scope : Scope
  a : Nat
  b : Nat
  fpctl : BitVec 10
  tenant : Nat
  order : Nat
  issuedAt : Nat
  deriving DecidableEq, Repr

/-- A cluster (spec/00 R1): its cache, engines and lists. writers names the tenant that wrote a dirty byte last (spec/16
R333); partials are the contributions of its cores, in the order of their service (spec/14 R290); lastTie is the core that won the
latest tie at the atomic engine (spec/13 R272). -/
structure Cluster where
  lines : List Line := []
  atomLines : List Line := []
  bytes : List Host.Cell := []
  poison : List Nat := []
  touched : Tab Nat := []
  writers : Tab Nat := []
  partials : List Contribution := []
  resb : Tab Word := []
  resc : Tab Word := []
  acc : Tab Nat := []
  copies : List Copy := []
  lists : Tab (List (Nat × Word)) := []
  atomics : List AtomicReq := []
  lastTie : Nat := 383
  nextOrder : Nat := 0
  tlb : List TlbEntry := []
  deriving DecidableEq, Repr

-- The die ------------------------------------------------------------------------------------------------------------------

/-- A launch parameter block (spec/15 R301): eight words. -/
structure Block where
  w0 : Word
  w1 : Word
  w2 : Word
  w3 : Word
  w4 : Word
  w5 : Word
  w6 : Word
  w7 : Word
  deriving DecidableEq, Repr

/-- What a release leaves at the home of its bytes (spec/14 R279): the core, and the lines of remote-homed bytes. -/
structure Release where
  pa : Nat
  size : Nat
  core : Nat
  lines : List LineKey
  deriving DecidableEq, Repr

/-- A Reel record (spec/18 R345). -/
structure Rec where
  time : Nat
  seq : Nat
  code : Nat
  nt : Bool
  tenant : Nat
  source : Nat
  p0 : Word
  p1 : Word
  deriving DecidableEq, Repr

/-- A record waiting in a die aggregator's reserve (spec/18 R358): the hart whose request it belongs to, and the streams
it was offered to that are still to take it (R351, R354). -/
structure Reserved where
  rcd : Rec
  hart : Nat
  streams : List Nat
  deriving DecidableEq, Repr

/-- A CXL page that a tracker moved to a stack frame (spec/16 R328): the address of its leaf entry, its virtual page,
its frame on the CXL tier, its frame in the stack, and the tenant it was promoted for. -/
structure Promoted where
  entry : Nat
  va : Nat
  cxl : Nat
  frame : Nat
  ten : Nat := 0
  deriving DecidableEq, Repr

/-- A die (spec/00 R1). devList holds its device launch list, each block with its take order of the die and of the package
(spec/15 R299, R304). held says that its firmware image failed (spec/16 R337). The counter tstamp is off + 16 now / 3 (log 2). -/
structure Die where
  off : Int := 0
  locked : Bool := false
  dropcnt : Nat := 0
  releases : List Release := []
  devList : List (Nat × Nat × Block) := []
  takeNo : Nat := 0
  listFault : Bool := false
  reserve : List Reserved := []
  hot : Tab Nat := []
  frames : List Nat := []
  promoted : List Promoted := []
  pinskip : Nat := 0
  threshold : Nat := 0
  waiting : Tab Nat := []
  abandoned : List Nat := []
  held : Bool := false
  throttled : Bool := false
  deriving DecidableEq, Repr

/-- A line of a memory-side cache (spec/16 R321): masks of its 32 sectors. -/
structure MscLine where
  line : Nat
  valid : Nat
  dirty : Nat
  used : Nat
  deriving DecidableEq, Repr

/-- A stack's base die (spec/16 R319 to R324). The predictor lists lines with the sectors they used, the latest evicted first.
remap lists (channel, row, spare). -/
structure Stack where
  msc : List MscLine := []
  predictor : List (Nat × Nat) := []
  compMap : Tab Bool := []
  fallback : List Nat := []
  fallbacks : Nat := 0
  remap : List (Nat × Nat × Nat) := []
  fuse : List (Nat × Nat) := []
  segErr : List Nat := []
  remapFault : Bool := false
  fencedCh : List Nat := []
  deriving DecidableEq, Repr

/-- A link's health (spec/16 R324). Lanes counts the lanes fenced. -/
structure LinkState where
  lanes : Nat := 0
  fenced : Bool := false
  errors : Nat := 0
  deriving DecidableEq, Repr

/-- An Ethernet port (spec/19 R379, R380). -/
structure EthPort where
  link : LinkState := {}
  grandmaster : Bool := true
  lastStamp : Nat := 0
  offset : Int := 0
  deriving DecidableEq, Repr

/-- A reliable connection queue pair (spec/19 R379, R381). send is its send queue's register, sent the number of RDMA
WRITEs it has sent. -/
structure QueuePair where
  setUp : Bool := false
  tenant : Nat := 0
  tbase : Word := 0
  peer : Nat := 0
  messages : Nat := 0
  send : Word := 0
  sent : Nat := 0
  deriving DecidableEq, Repr

-- The package ----------------------------------------------------------------------------------------------------------------

/-- An RDMA WRITE sent over an Ethernet port to a peer (spec/19 R379): its queue pair, the peer's entry in the port's peer
table, the address there, its bytes, and the immediate of a write that has one. -/
structure Sent where
  port : Nat
  qp : Nat
  peer : Word
  va : Nat
  bytes : List Byte
  imm : Option (BitVec 32) := none
  deriving DecidableEq, Repr

/-- Bytes on their way from a cluster to their home (spec/14 R278). -/
structure Drain where
  cluster : Nat
  cells : List Host.Cell
  poison : List Nat := []
  writers : Tab Nat := []
  deriving DecidableEq, Repr

/-- A Reel stream (spec/18 R350, R351, R355, R357). -/
structure Stream where
  sbase : Word := 0
  sctl : Word := 0x200004
  written : Nat := 0
  drops : Nat := 0
  firstDrop : Nat := 0
  house : List Rec := []
  deriving DecidableEq, Repr

/-- A trial (spec/18 R376): descriptor address, virtual and physical, range and delay. -/
structure Trial where
  desc : Word
  pa : Nat
  lo : Nat
  hi : Nat
  k : Nat
  deriving DecidableEq, Repr

/-- A tenant's entry as read when a block is taken (spec/15 R306). -/
structure TenantEntry where
  v : Bool := false
  sv : Bool := false
  tbase : Word := 0
  tvec : Word := 0
  tinfo : Word := 0
  tscratch : Word := 0
  tallow : Word := 0
  deriving DecidableEq, Repr

/-- A gang taken by a dispatcher (spec/15 R301 to R317). order counts the takes of its die, taken those of the package
(R304). harts lists the harts it placed; past sums the trial counts
of those that have halted; chosen says that its dispatcher starts its harts
(R303); ended counts the harts that have halted, of which haltedHarts lists those whose slot the gang has not reused; stopping
says that a stop message was delivered to it (spec/16 R336). -/
structure Gang where
  id : Nat
  die : Nat
  order : Nat
  taken : Nat := 0
  blk : Block
  ent : TenantEntry
  harts : List Nat := []
  haltedHarts : List Nat := []
  count : Nat := 0
  outstanding : Nat := 0
  quiet : Bool := false
  trial : Option Trial := none
  past : TrialCounts := {}
  affected : Bool := false
  chosen : Bool := false
  ended : Nat := 0
  stopping : Bool := false
  deriving DecidableEq, Repr

/-- A halt line that is up (spec/16 R332 to R334). -/
structure HaltLine where
  origin : Nat
  cause : Word
  value : Word
  stopped : List Nat
  deriving DecidableEq, Repr

/-- A held emission record (spec/19 R391). -/
structure Emission where
  hart : Nat
  seq : Nat
  token : Nat
  va : Nat
  pa : Nat
  deriving DecidableEq, Repr

/-- What a journal's port sends its partner, in order (spec/19 R387, R392): an entry, by its number, the entries lo to hi − 1
that the port copies from the log, or the log's trunc field. -/
inductive JItem where
  | entry (k : Nat) | copies (lo hi : Nat) | trunc (v : Nat)
  deriving DecidableEq, Repr

/-- A journal context (spec/19 R382 to R387). queue lists what is queued for the partner and not yet acknowledged by it, newQueue
the same for the new partner of a move; newAck is what a new partner has acknowledged, before the state a move came from. -/
structure Journal where
  en : Bool := false
  ten : BitVec 12 := 0
  port : Nat := 0
  state : Nat := 0
  before : Nat := 0
  sid : Word := 0
  peer : Word := 0
  ring : Word := 0
  log : Word := 4
  npeer : Word := 0
  nring : Word := 0
  toPeer : Word := 0
  toRing : Word := 0
  next : Word := 0
  ack : Word := 0
  trunc : Word := 0
  rep : Word := 0
  stop : Word := 0
  newAck : Word := 0
  queue : List JItem := []
  newQueue : List JItem := []
  held : List Emission := []
  deriving DecidableEq, Repr

/-- Who moves next: the model's own schedule (log 1). An event is one of the event rows of the opcode table; a mismatch is a
fault of a core's matrix cells (spec/10 R217); ahead is a hart whose scalar issue runs ahead of its vector queue (spec/08
R164); arrivals are atomic requests that reach their engines in one cycle, each of a hart's amo or of the row it names
(spec/13 R272); corrected is an ECC error
corrected at an address (spec/16 R324); send is an RDMA WRITE of n bytes from a send queue, from an address of the queue
pair's space to one of the peer's, with or without an immediate (spec/19 R379); captureClash is a capture in the cycle of
the next clear of a core's unit (spec/18 R372). -/
inductive Turn where
  | hart (h : Nat)
  | ahead (h : Nat)
  | arrivals (rs : List (Nat × Option Nat))
  | corrected (pa : Nat)
  | send (e qp src dst n : Nat) (imm : Option (BitVec 32))
  | captureClash (core j : Nat)
  | mismatch (core : Nat) (r : Retry)
  | row (h i : Nat)
  | pass (cycles : Nat)
  | event (i : Instr)
  deriving DecidableEq, Repr

/-- The machine. slew is the correction of the time base that its counters slew towards since slewAt (spec/18 R348), cnWrite
the counter that cnval has written in this cycle and selWrite a core whose csel has been written in it, with its registers
before (spec/18 R368), bootReports the dies whose failed image was reported over Cenel (spec/16 R337), sent the RDMA WRITEs
sent (spec/19 R379), cxlPages the error log of each CXL port by page (spec/16 R324), takes the number of gangs taken
(spec/15 R304). hostData and hostPoison are the answer to the host's latest read. An entry a table does not list is as reset
leaves it. -/
structure State where
  agenda : List Turn := []
  cur : Nat := 0
  now : Nat := 0
  draws : Nat := 0
  harts : Tab Hart := []
  cores : Tab Core := []
  clusters : Tab Cluster := []
  dies : Tab Die := []
  baseDies : Tab Stack := []
  cxl : Tab LinkState := []
  cenel : Tab LinkState := []
  dieNet : Tab LinkState := []
  eth : Tab EthPort := []
  qps : Tab QueuePair := []
  peers : Tab Word := []
  mem : List Host.Cell := []
  poison : List Nat := []
  drains : List Drain := []
  tinv : Word := 0
  streams : Tab Stream := []
  counters : Tab Nat := []
  lastRead : Tab Nat := []
  ctbase : Word := 0
  cnloss : Nat := 0
  cnWrite : Option Nat := none
  selWrite : Option (Nat × Tab Word) := none
  seqs : Tab Nat := []
  halts : Tab HaltLine := []
  stopBase : Tab Word := []
  tenantTable : Word := 0
  mgmt : Tab Word := []
  timePort : Nat := 0
  slew : Int := 0
  slewAt : Nat := 0
  bootReports : List Nat := []
  sent : List Sent := []
  cxlPages : Tab (Tab Nat) := []
  takes : Nat := 0
  lists : List Nat := []
  supervisor : Bool := false
  image : Nat := 0
  gangs : List Gang := []
  nextGang : Nat := 0
  nextCopy : Nat := 1
  jcidx : BitVec 8 := 0
  journals : Tab Journal := []
  quotes : List Nat := []
  hostData : List Byte := []
  hostPoison : Bool := false
  poweredDown : Bool := false
  deriving DecidableEq, Repr

/-- Why the machine stops. -/
inductive Fault where
  /-- Raised by step after a die passed its trip point (spec/16 R338: the module is powered down). Safe: nothing is
  claimed of a module without power. -/
  | poweredDown
  deriving DecidableEq, Repr

/-- Why an instruction has no meaning here. -/
inductive Refusal where
  /-- An instruction whose meaning is not written yet. Raised by exec alone. Safe. -/
  | notModelled (mnemonic : String)
  /-- A block word executed where no run is in progress: the spec reaches block words only through vf and vdrain
  (spec/02 R28). Raised by the meanings of block words. Safe. -/
  | blockWordOutsideRun
  deriving DecidableEq, Repr

/-- The machine right after reset (spec/07 R146, spec/16 R337): no hart started, every table at its reset values,
memory with nothing listed. Values the spec does not give are named in log 5 and log 6. -/
def State.reset : State := {}

end Sys2Proof.Machine
end

