-- ==== Sys2Proof/Machine/Table.lean ====
section
/-!
DEFINITION. Sparse tables, byte memory and bit images: the named reads and writes every other file uses.
-/
namespace Sys2Proof.Machine

-- Tables -----------------------------------------------------------------------------------------------------------------

def Tab.find {α : Type} : Tab α → Nat → Option α
  | [], _ => none
  | (k', v) :: t, k => if k = k' then some v else Tab.find t k

/-- What key k reads as: its entry, or the default. -/
def Tab.get {α : Type} (d : α) (t : Tab α) (k : Nat) : α := (Tab.find t k).getD d

/-- Lists key k with value v, in rising order of the keys. -/
def Tab.put {α : Type} : Tab α → Nat → α → Tab α
  | [], k, v => [(k, v)]
  | (k', v') :: t, k, v =>
    if k < k' then (k, v) :: (k', v') :: t
    else if k = k' then (k, v) :: t
    else (k', v') :: Tab.put t k v

def Tab.drop {α : Type} (t : Tab α) (k : Nat) : Tab α := t.filter fun e => e.1 != k

/-- Writes key k; the default value removes the entry, so that equal tables are equal data. -/
def Tab.set {α : Type} [DecidableEq α] (d : α) (t : Tab α) (k : Nat) (v : α) : Tab α :=
  if v = d then Tab.drop t k else Tab.put t k v

/-- Keys strictly rising. -/
def Tab.sortedFrom {α : Type} : Nat → Tab α → Bool
  | _, [] => true
  | n, (k, _) :: t => decide (n ≤ k) && Tab.sortedFrom (k + 1) t

/-- The canonical form of a table: keys strictly rising, no entry equal to the default. -/
def Tab.wf {α : Type} [DecidableEq α] (d : α) (t : Tab α) : Bool :=
  Tab.sortedFrom 0 t && t.all fun e => e.2 != d

-- Memory -----------------------------------------------------------------------------------------------------------------

/-- What a byte that nothing has written reads as: the spec gives no contents for memory after reset (log 5). -/
def blank : Byte := 0

/-- The form of a byte memory: addresses strictly rising, no entry equal to blank. -/
def Memory.wf (m : List Host.Cell) : Bool := Tab.wf blank m
def Memory.read (m : List Host.Cell) (a : Nat) : Byte := Tab.get blank m a
def Memory.write (m : List Host.Cell) (a : Nat) (b : Byte) : List Host.Cell := Tab.set blank m a b

/-- n bytes from address a upwards. -/
def Memory.readN (m : List Host.Cell) : Nat → Nat → List Byte
  | _, 0 => []
  | a, n + 1 => Memory.read m a :: Memory.readN m (a + 1) n

/-- The bytes of a list at a and upwards. -/
def Memory.writeN (m : List Host.Cell) : Nat → List Byte → List Host.Cell
  | _, [] => m
  | a, b :: bs => Memory.writeN (Memory.write m a b) (a + 1) bs

/-- Cells written one after another. -/
def Memory.writeCells (m : List Host.Cell) : List Host.Cell → List Host.Cell
  | [] => m
  | c :: cs => Memory.writeCells (Memory.write m c.1 c.2) cs

-- Sets of numbers, kept in rising order without repeats ---------------------------------------------------------------------

def NSet.add : List Nat → Nat → List Nat
  | [], k => [k]
  | k' :: t, k => if k < k' then k :: k' :: t else if k = k' then k' :: t else k' :: NSet.add t k
def NSet.del (t : List Nat) (k : Nat) : List Nat := t.filter fun e => e != k

/-- 0, 1, …, n − 1. -/
def upTo (n : Nat) : List Nat := List.range n

-- Bit images ---------------------------------------------------------------------------------------------------------------

/-- w bits at bit position k of an image. -/
def bitsAt (img k w : Nat) : Nat := img >>> k % 2 ^ w

/-- Replaces w bits at bit position k. -/
def withBits (img k w v : Nat) : Nat :=
  (img >>> (k + w)) <<< (k + w) ||| (v % 2 ^ w) <<< k ||| img % 2 ^ k

/-- Element i of width w bits (spec/03 R53). -/
def elemAt (img w i : Nat) : Nat := bitsAt img (w * i) w
def withElem (img w i v : Nat) : Nat := withBits img (w * i) w v

/-- The image whose elements of w bits are the numbers of a list. -/
def imageOf (w : Nat) : List Nat → Nat
  | [] => 0
  | v :: vs => v % 2 ^ w + imageOf w vs <<< w

end Sys2Proof.Machine
end

