-- ==== Sys2Proof/Machine/Float.lean ====
section
/-!
DEFINITION. Numbers to the bit (spec/04): the meaning of float encodings, rounding, saturation, and the arithmetic
of the row and scalar float words (spec/05 R109 to R116). Values are exact: a sign, a natural significand, a power
of two; what an inexact operation drops is kept as one sticky bit.
-/
namespace Sys2Proof.Machine

/-- A float value (spec/04 R77): (−1)^neg · m · 2^e; m = 0 is a signed zero. -/
inductive FVal where
  | nan (signalling : Bool)
  | inf (neg : Bool)
  | num (neg : Bool) (m : Nat) (e : Int)
  deriving DecidableEq, Repr

/-- The canonical quiet NaN (spec/04 R78). -/
def qnan : Fmt → Nat
  | .f32 => 0x7FC00000 | .bf16 => 0x7FC0 | .f16 => 0x7E00 | .e4m3 => 0x7F | .e5m2 => 0x7E
/-- The encoding of the largest finite magnitude (spec/04 R78). -/
def maxBits : Fmt → Nat
  | .f32 => 0x7F7FFFFF | .bf16 => 0x7F7F | .f16 => 0x7BFF | .e4m3 => 0x7E | .e5m2 => 0x7B
/-- The encoding of +∞; E4M3 has none, and its largest finite value stands in (spec/04 R89). -/
def infBits : Fmt → Nat
  | .f32 => 0x7F800000 | .bf16 => 0x7F80 | .f16 => 0x7C00 | .e4m3 => 0x7E | .e5m2 => 0x7C
def signBit (f : Fmt) : Nat := 2 ^ (f.width - 1)
def withSign (f : Fmt) (neg : Bool) (mag : Nat) : Nat := if neg then mag + signBit f else mag

/-- The value an encoding holds (spec/04 R77). -/
def valueOf (f : Fmt) (b : Nat) : FVal :=
  let neg := bitOf b (f.width - 1)
  let E := bitsAt b f.frac f.expo
  let fr := bitsAt b 0 f.frac
  let n := f.frac
  if E = 0 then .num neg fr (1 - (f.bias : Int) - n)
  else if f = .e4m3 then
    if E = 15 ∧ fr = 7 then .nan false else .num neg (2 ^ n + fr) ((E : Int) - f.bias - n)
  else if E = 2 ^ f.expo - 1 then
    if fr = 0 then .inf neg else .nan (!bitOf fr (n - 1))
  else .num neg (2 ^ n + fr) ((E : Int) - f.bias - n)

/-- Whether an encoding is an infinity or a NaN: what nf reports (spec/04 R95). -/
def nonFinite (f : Fmt) (b : Nat) : Bool :=
  match valueOf f b with
  | .num _ _ _ => false
  | _ => true

/-- floor(log2 |m · 2^e|) for m > 0. -/
def expOf (m : Nat) (e : Int) : Int := (m.log2 : Int) + e

/-- A subnormal of the format: non-zero and below the smallest normal. -/
def isSubnormal (f : Fmt) (b : Nat) : Bool := bitsAt b f.frac f.expo == 0 && bitsAt b 0 f.frac != 0

/-- A numeric operand (spec/04 R88, R79): flushed under of_t, with nv for a signalling NaN. -/
def operand (f : Fmt) (ctl : BitVec 10) (b : Nat) : FVal × Flags :=
  if isSubnormal f b && operandFlush ctl f then (.num (bitOf b (f.width - 1)) 0 0, flagFo)
  else
    match valueOf f b with
    | .nan s => (.nan s, flagIf s flagNv)
    | v => (v, 0)

/-- Whether the part below the grid rounds the magnitude up (spec/04 R89): r of 2^s with a sticky bit below. -/
def roundsUp (rm : Rm) (neg odd : Bool) (r s : Nat) (sticky : Bool) : Bool :=
  let inexact := r != 0 || sticky
  match rm with
  | .rne => if s = 0 then false else decide (2 ^ (s - 1) < r) || (r == 2 ^ (s - 1) && (sticky || odd))
  | .rtz => false
  | .rdn => inexact && neg
  | .rup => inexact && !neg

/-- m · 2^e with a sticky bit, as a multiple of 2^g: the rounded multiple and whether it is inexact. -/
def toGrid (rm : Rm) (neg : Bool) (m : Nat) (e g : Int) (sticky : Bool) : Nat × Bool :=
  if g ≤ e then (m * 2 ^ (e - g).toNat, sticky)
  else
    let s := (g - e).toNat
    let q := m / 2 ^ s
    let r := m % 2 ^ s
    (if roundsUp rm neg (q % 2 == 1) r s sticky then q + 1 else q, r != 0 || sticky)

/-- overflow_value of spec/04 R89. -/
def overflowBits (f : Fmt) (rm : Rm) (neg : Bool) : Nat :=
  match rm, neg with
  | .rne, _ => withSign f neg (infBits f)
  | .rtz, _ => withSign f neg (maxBits f)
  | .rdn, false => maxBits f
  | .rdn, true => withSign f true (infBits f)
  | .rup, false => infBits f
  | .rup, true => withSign f true (maxBits f)

/-- The encoding of the magnitude q · 2^g on the grid; q below 2^(frac+1). -/
def magBits (f : Fmt) (q : Nat) (g : Int) : Nat :=
  if q < 2 ^ f.frac then q
  else (g + f.frac + f.bias).toNat * 2 ^ f.frac + (q - 2 ^ f.frac)

/-- round_t of a number (spec/04 R89), of a value m · 2^e with a sticky bit below. -/
def roundNum (f : Fmt) (rf : Bool) (rm : Rm) (neg : Bool) (m : Nat) (e : Int) (sticky : Bool) : Nat × Flags :=
  if m = 0 && !sticky then (withSign f neg 0, 0)
  else
    let emin : Int := 1 - (f.bias : Int)
    let E := expOf m e
    let g := max E emin - f.frac
    let (q0, inexact) := toGrid rm neg m e g sticky
    let (q, g') := if q0 = 2 ^ (f.frac + 1) then (2 ^ f.frac, g + 1) else (q0, g)
    let tiny := decide (E < emin)
    let fl := flagIf inexact flagNx ||| flagIf (inexact && tiny) flagUf
    if maxBits f < magBits f q g' then (overflowBits f rm neg, fl ||| flagOf ||| flagNx)
    else if rf && q != 0 && decide (q < 2 ^ f.frac) then (withSign f neg 0, fl ||| flagUf ||| flagNx)
    else (withSign f neg (magBits f q g'), fl)

/-- round_t of an exact value (spec/04 R89). -/
def roundVal (f : Fmt) (rf : Bool) (rm : Rm) (x : FVal) : Nat × Flags :=
  match x with
  | .nan _ => (qnan f, 0)
  | .inf neg => if f = .e4m3 then (withSign f neg (maxBits f), flagOf) else (withSign f neg (infBits f), 0)
  | .num neg m e => roundNum f rf rm neg m e false

/-- What a computing word stores: bits, flags, and whether the row's mask bit is set (spec/04 R92). -/
structure Res where
  bits : Nat
  fl : Flags := 0
  mark : Bool := false
  deriving DecidableEq, Repr

/-- nf for an infinity or a NaN written (spec/04 R95). -/
def Res.nf (f : Fmt) (r : Res) : Res := { r with fl := r.fl ||| flagIf (nonFinite f r.bits) flagNf }

/-- A rounded float arithmetic result: overflow marks (spec/04 R92). -/
def arithRes (f : Fmt) (ctl : BitVec 10) (rm : Rm) (neg : Bool) (m : Nat) (e : Int) (sticky : Bool) : Res :=
  let (b, fl) := roundNum f (resultFlush ctl f) rm neg m e sticky
  Res.nf f { bits := b, fl := fl, mark := fl &&& flagOf != 0 }

/-- sat_t (spec/04 R91): conversions, narrowings, scaling and drains. -/
def satVal (f : Fmt) (ctl : BitVec 10) (rm : Rm) (x : FVal) : Res :=
  let (b, fl) := roundVal f (resultFlush ctl f) rm x
  match x with
  | .num neg _ _ =>
    let y := match valueOf f b with
      | .inf _ => withSign f neg (maxBits f)
      | _ => b
    Res.nf f { bits := y, fl := fl, mark := fl &&& flagOf != 0 }
  | .inf _ => Res.nf f { bits := b, fl := fl, mark := f == .e4m3 }
  | .nan _ => Res.nf f { bits := b, fl := fl }

/-- An operand that is a NaN gives the canonical NaN, unmarked (spec/04 R92). -/
def nanRes (f : Fmt) : Res := { bits := qnan f, fl := flagNf }
/-- An invalid operation on non-NaN operands (spec/04 R92). -/
def invalidRes (f : Fmt) : Res := { bits := qnan f, fl := flagNv ||| flagNf, mark := true }
/-- An infinite operand's infinite result, exact. -/
def infRes (f : Fmt) (neg : Bool) : Res := Res.nf f { bits := withSign f neg (infBits f) }
/-- An exact infinity from finite operands (spec/04 R92). -/
def divZeroRes (f : Fmt) (neg : Bool) : Res :=
  { bits := withSign f neg (infBits f), fl := flagDz ||| flagNf, mark := true }

/-- The exact sum of two numbers as sign, significand and exponent; a zero sum has the sign of spec/04 R90. -/
def sumExact (rm : Rm) (n1 : Bool) (m1 : Nat) (e1 : Int) (n2 : Bool) (m2 : Nat) (e2 : Int) : Bool × Nat × Int :=
  let e := min e1 e2
  let a := m1 * 2 ^ (e1 - e).toNat
  let b := m2 * 2 ^ (e2 - e).toNat
  if n1 = n2 then (n1, a + b, e)
  else if a = b then (rm == .rdn, 0, e)
  else if b < a then (n1, a - b, e)
  else (n2, b - a, e)

/-- fop of + (spec/05 R109). -/
def fAdd (f : Fmt) (ctl : BitVec 10) (rm : Rm) (x y : FVal) : Res :=
  match x, y with
  | .nan _, _ | _, .nan _ => nanRes f
  | .inf a, .inf b => if a = b then infRes f a else invalidRes f
  | .inf a, _ => infRes f a
  | _, .inf b => infRes f b
  | .num n1 m1 e1, .num n2 m2 e2 =>
    let (n, m, e) := sumExact rm n1 m1 e1 n2 m2 e2
    arithRes f ctl rm n m e false

def fNeg : FVal → FVal
  | .nan s => .nan s
  | .inf n => .inf (!n)
  | .num n m e => .num (!n) m e

def fSub (f : Fmt) (ctl : BitVec 10) (rm : Rm) (x y : FVal) : Res := fAdd f ctl rm x (fNeg y)

/-- The exact product, NaN where the operation is invalid. -/
def mulExact (x y : FVal) : Option FVal :=
  match x, y with
  | .nan _, _ | _, .nan _ => some (.nan false)
  | .inf a, .inf b => some (.inf (a != b))
  | .inf a, .num b m _ | .num b m _, .inf a => if m = 0 then none else some (.inf (a != b))
  | .num n1 m1 e1, .num n2 m2 e2 => some (.num (n1 != n2) (m1 * m2) (e1 + e2))

/-- fop of × (spec/05 R109). -/
def fMul (f : Fmt) (ctl : BitVec 10) (rm : Rm) (x y : FVal) : Res :=
  match mulExact x y with
  | none => invalidRes f
  | some (.nan _) => nanRes f
  | some (.inf n) => infRes f n
  | some (.num n m e) => arithRes f ctl rm n m e false

/-- fop_fma: a · b + c with one rounding (spec/05 R110). -/
def fFma (f : Fmt) (ctl : BitVec 10) (rm : Rm) (a b c : FVal) : Res :=
  match mulExact a b with
  | none => invalidRes f
  | some p => fAdd f ctl rm p c

/-- A quotient of naturals with at least 40 significant bits and a sticky bit. -/
def quotient (m1 m2 : Nat) : Nat × Int × Bool :=
  let k := 40 + m2.log2
  let n := m1 * 2 ^ k
  (n / m2, -(k : Int), n % m2 != 0)

/-- fop of / (spec/05 R109, spec/04 R92). -/
def fDiv (f : Fmt) (ctl : BitVec 10) (rm : Rm) (x y : FVal) : Res :=
  match x, y with
  | .nan _, _ | _, .nan _ => nanRes f
  | .inf _, .inf _ => invalidRes f
  | .inf a, .num b _ _ => infRes f (a != b)
  | .num a _ _, .inf b => arithRes f ctl rm (a != b) 0 0 false
  | .num n1 m1 e1, .num n2 m2 e2 =>
    if m2 = 0 then (if m1 = 0 then invalidRes f else divZeroRes f (n1 != n2))
    else
      let (q, k, st) := quotient m1 m2
      arithRes f ctl rm (n1 != n2) q (k + e1 - e2) st

/-- floor of the square root, one bit at a time from bit b down. -/
def isqrtBits (n : Nat) : Nat → Nat → Nat
  | 0, r => r
  | b + 1, r => if (r + 2 ^ b) * (r + 2 ^ b) ≤ n then isqrtBits n b (r + 2 ^ b) else isqrtBits n b r
def isqrt (n : Nat) : Nat := isqrtBits n (n.log2 / 2 + 1) 0

/-- A square root of m · 2^e as significand, exponent and sticky bit, with at least 40 bits. -/
def rootOf (m : Nat) (e : Int) : Nat × Int × Bool :=
  let k : Nat := 80 + (if (e % 2 = 0) then 0 else 1)
  let n := m * 2 ^ k
  let r := isqrt n
  (r, (e - k) / 2, r * r != n)

/-- Square root (spec/05 R109). The root of +∞ raises nf, as every infinity that a computing word writes (spec/04 R95, spec/05 R103):
R109's 'without flags' speaks of the flags of the operation itself (log 62, DEDUCED). -/
def fSqrt (f : Fmt) (ctl : BitVec 10) (rm : Rm) (x : FVal) : Res :=
  match x with
  | .nan _ => nanRes f
  | .inf false => Res.nf f { bits := infBits f }
  | .inf true => invalidRes f
  | .num neg m e =>
    if m = 0 then { bits := withSign f neg 0 }
    else if neg then invalidRes f
    else
      let (r, e', st) := rootOf m e
      arithRes f ctl rm false r e' st

/-- Exact comparison of two numbers: −0 equals +0. -/
def numCmp (n1 : Bool) (m1 : Nat) (e1 : Int) (n2 : Bool) (m2 : Nat) (e2 : Int) : Ordering :=
  let e := min e1 e2
  let a : Int := (m1 * 2 ^ (e1 - e).toNat : Nat)
  let b : Int := (m2 * 2 ^ (e2 - e).toNat : Nat)
  compare (if n1 then -a else a) (if n2 then -b else b)

/-- Comparison of values (spec/06 R129): none when either is a NaN. -/
def fCmp (x y : FVal) : Option Ordering :=
  match x, y with
  | .nan _, _ | _, .nan _ => none
  | .inf a, .inf b => some (if a = b then .eq else if a then .lt else .gt)
  | .inf a, .num _ _ _ => some (if a then .lt else .gt)
  | .num _ _ _, .inf b => some (if b then .gt else .lt)
  | .num n1 m1 e1, .num n2 m2 e2 => some (numCmp n1 m1 e1 n2 m2 e2)

/-- A condition on a comparison; a NaN satisfies none but .ne (spec/06 R129). -/
def condHolds (cc : CmpOp) (c : Option Ordering) : Bool :=
  match cc, c with
  | .ne, none => true
  | _, none => false
  | .eq, some o => o == .eq
  | .ne, some o => o != .eq
  | .lt, some o => o == .lt
  | .le, some o => o != .gt
  | .gt, some o => o == .gt
  | .ge, some o => o != .lt

def isNan : FVal → Bool
  | .nan _ => true
  | _ => false
def negOf : FVal → Bool
  | .nan _ => false
  | .inf n => n
  | .num n _ _ => n

/-- The order of minimum and maximum: −0 below +0 (spec/05 R111). -/
def belowFor (x y : FVal) : Bool :=
  match fCmp x y with
  | some .lt => true
  | some .eq => negOf x && !negOf y
  | _ => false

/-- The bits of an operand as read: a flushed subnormal is a zero of its own sign (spec/04 R88). -/
def asRead (f : Fmt) (ctl : BitVec 10) (b : Nat) : Nat :=
  if isSubnormal f b && operandFlush ctl f then withSign f (bitOf b (f.width - 1)) 0 else b

/-- Minimum and maximum (spec/05 R111) of two encodings. -/
def fMinMax (f : Fmt) (ctl : BitVec 10) (isMax : Bool) (a b : Nat) : Res :=
  let (x, fx) := operand f ctl a
  let (y, fy) := operand f ctl b
  let r :=
    if isNan x && isNan y then qnan f
    else if isNan x then asRead f ctl b
    else if isNan y then asRead f ctl a
    else if (if isMax then belowFor x y else belowFor y x) then asRead f ctl b
    else asRead f ctl a
  Res.nf f { bits := r, fl := fx ||| fy }

/-- vclass and fclass (spec/05 R113). -/
def classOf (f : Fmt) (ctl : BitVec 10) (b : Nat) : Nat × Flags :=
  let fl := flagIf (isSubnormal f b && operandFlush ctl f) flagFo
  let c := asRead f ctl b
  let neg := bitOf c (f.width - 1)
  let code := match valueOf f c with
    | .nan true => 8
    | .nan false => 9
    | .inf n => if n then 0 else 7
    | .num _ m _ =>
      if m = 0 then (if neg then 3 else 4)
      else if isSubnormal f c then (if neg then 2 else 5)
      else if neg then 1 else 6
  (code, fl)

/-- x rounded to an integer by rm (spec/04 R89), with whether it is inexact. -/
def roundInt (rm : Rm) (neg : Bool) (m : Nat) (e : Int) : Int × Bool :=
  let (q, ix) := toGrid rm neg m e 0 false
  (if neg then -(q : Int) else q, ix)

/-- An exact integer as a float value. -/
def ofInt (z : Int) : FVal := .num (decide (z < 0)) z.natAbs 0

/-- 1/x (spec/05 R116). -/
def fRcp (ctl : BitVec 10) (rm : Rm) (x : FVal) : Res :=
  match x with
  | .nan _ => nanRes .f32
  | .inf n => { bits := withSign .f32 n 0 }
  | .num n m e =>
    if m = 0 then divZeroRes .f32 n
    else
      let (q, k, st) := quotient 1 m
      arithRes .f32 ctl rm n q (k - e) st

/-- 1/√x (spec/05 R116): floor(2^k / √m) from the root of 2^2k / m, exact when m is a square that divides. -/
def fRsqrt (ctl : BitVec 10) (rm : Rm) (x : FVal) : Res :=
  match x with
  | .nan _ => nanRes .f32
  | .inf false => { bits := 0 }
  | .inf true => invalidRes .f32
  | .num n m e =>
    if m = 0 then divZeroRes .f32 n
    else if n then invalidRes .f32
    else
      let odd : Bool := e % 2 != 0
      let m' := if odd then 2 * m else m
      let e' := if odd then e - 1 else e
      let k := 60 + m'.log2
      let d := 2 ^ (2 * k) / m'
      let r := isqrt d
      arithRes .f32 ctl rm false r (-(k : Int) - e' / 2) (r * r * m' != 2 ^ (2 * k))

-- 2^x and log2 x -----------------------------------------------------------------------------------------------------------

/-- Fraction bits of the fixed-point arithmetic below (log 14). -/
def fixBits : Nat := 320

/-- ln 2 with fixBits fraction bits, rounded down: the sum of 1 / (k · 2^k) for k = 1 to 330 with guard bits. -/
def ln2Sum : Nat → Nat
  | 0 => 0
  | k + 1 => 2 ^ (fixBits + 32) / ((k + 1) * 2 ^ (k + 1)) + ln2Sum k
def ln2Fix : Nat := ln2Sum 360 / 2 ^ 32

/-- The terms t^k / k! of the exponential series, from k upwards, n of them. -/
def expTerms (t : Nat) : Nat → Nat → Nat → Nat
  | 0, _, _ => 0
  | n + 1, k, term => term + expTerms t n (k + 1) (term * t / ((k + 1) * 2 ^ fixBits))

/-- 2^r for 0 < r < 1, r = fr / 2^fixBits, as a fixed-point number from 1 to 2; its error is below 2^-300. -/
def exp2Frac (fr : Nat) : Nat := expTerms (fr * ln2Fix / 2 ^ fixBits) 80 0 (2 ^ fixBits)

/-- 2^x (spec/05 R116). Exact for integers. Otherwise the result is irrational, so that rounding the fixed-point
value with a sticky bit rounds the exact value (log 14). -/
def fExp2 (ctl : BitVec 10) (rm : Rm) (x : FVal) : Res :=
  match x with
  | .nan _ => nanRes .f32
  | .inf false => infRes .f32 false
  | .inf true => { bits := 0 }
  | .num n m e =>
    if m = 0 then arithRes .f32 ctl rm false 1 0 false
    else if 10 ≤ expOf m e then arithRes .f32 ctl rm false 1 (if n then -2000 else 2000) (n || false)
    else
      -- x as a fixed-point number, floored; a value too small to show leaves only the sticky bit
      let mag := if 0 ≤ e + fixBits then m * 2 ^ (e + fixBits).toNat else m / 2 ^ (-(e + fixBits)).toNat
      let ip : Int := (mag / 2 ^ fixBits : Nat)
      let fr := mag % 2 ^ fixBits
      if fr = 0 && decide (0 ≤ e + fixBits) then arithRes .f32 ctl rm false 1 (if n then -ip else ip) false
      else if fr = 0 then
        -- |x| below 2^-fixBits: 2^x lies just above 1, or just below it
        if n then arithRes .f32 ctl rm false (2 ^ 100 - 1) (-100) true
        else arithRes .f32 ctl rm false (2 ^ 100) (-100) true
      else if n then
        let y := exp2Frac (2 ^ fixBits - fr)
        arithRes .f32 ctl rm false y (-(ip + 1) - fixBits) true
      else arithRes .f32 ctl rm false (exp2Frac fr) (ip - fixBits) true

/-- Fraction bits of log2 by repeated squaring, one bit a step: y holds a number from 1 to 2 with fixBits fraction
bits. -/
def log2Bits : Nat → Nat → Nat → Nat
  | 0, _, acc => acc
  | n + 1, y, acc =>
    let z := y * y / 2 ^ fixBits
    if z < 2 ^ (fixBits + 1) then log2Bits n z (2 * acc) else log2Bits n (z / 2) (2 * acc + 1)

/-- log2 x (spec/05 R116). Exact for powers of two, irrational otherwise (log 14). -/
def fLog2 (ctl : BitVec 10) (rm : Rm) (x : FVal) : Res :=
  match x with
  | .nan _ => nanRes .f32
  | .inf false => infRes .f32 false
  | .inf true => invalidRes .f32
  | .num n m e =>
    if m = 0 then divZeroRes .f32 true
    else if n then invalidRes .f32
    else
      let E := expOf m e
      if m = 2 ^ m.log2 then
        arithRes .f32 ctl rm (decide (E < 0)) E.natAbs 0 false
      else
        let y := m * 2 ^ (fixBits - m.log2)
        let fr : Int := (log2Bits 120 y 0 : Nat)
        let v : Int := E * 2 ^ 120 + fr
        if 0 ≤ v then arithRes .f32 ctl rm false v.toNat (-120) true
        else arithRes .f32 ctl rm true ((-v).toNat - 1) (-120) true

end Sys2Proof.Machine
end

