-- ==== Sys2Proof/Config.lean ====
section
/-!
DEFINITION. What an implementation fixes and what the spec leaves open: constants and free values without a body,
of which nothing can be proved but what holds for every value.
-/
namespace Sys2Proof.Config

/-- Bytes of the expander on CXL port p: 'up to the size of the device' (spec/16 R318, log 12). A claim holds for
every size. -/
opaque cxlBytes : Nat → Nat
/-- What a hart's load from the management window returns: the spec names the window's registers and gives no address
for any of them (spec/16 R318, log 11). Applied to the physical address and the draw counter. -/
opaque mgmtByte : Nat → Nat → Byte
/-- The digest of the module's firmware image (spec/16 R337): the image is the machine's own (log 13). -/
opaque firmware : Nat
/-- The signature of a quote (spec/16 R337, log 13): nonce, digest of the firmware, supervisor image as loaded. -/
opaque quote : Nat → Nat → Nat → Nat
/-- Spare rows of a pseudo-channel, and spare fuses of a stack (spec/16 R323, R324): no count is given (log 12). -/
opaque spareRows : Nat → Nat
opaque spareFuses : Nat → Nat
/-- Lanes of a die-network port (false) or a Cenel port (true): no count is given (spec/16 R324, log 12). -/
opaque linkLanes : Bool → Nat → Nat
/-- Values of records and stop records that the spec leaves open (log 22). -/
opaque freeWord : Nat → Word

end Sys2Proof.Config
end

