-- ==== Sys2Proof/Machine/Access.lean ====
section
/-!
DEFINITION. Reading and writing the parts of the state: harts, cores, clusters, dies, scalar registers, counters
(spec/18 R365, R366), energy (spec/11 R239 to R242), time (spec/18 R348), and the form of a meaning that can end early.
-/
namespace Sys2Proof.Machine

-- Where things stand (spec/00 R4) ------------------------------------------------------------------------------------

def coreOf (h : Nat) : Nat := h / 4
def clusterOf (h : Nat) : Nat := h / 32
def dieOf (h : Nat) : Nat := h / 384
def clusterDie (k : Nat) : Nat := k / 12
def hartsOfCore (c : Nat) : List Nat := [4 * c, 4 * c + 1, 4 * c + 2, 4 * c + 3]
def coresOfCluster (k : Nat) : List Nat := (upTo 8).map fun j => 8 * k + j
def clustersOfDie (d : Nat) : List Nat := (upTo 12).map fun j => 12 * d + j
/-- The dispatcher harts (spec/15 R298). -/
def isSupervisorHart (h : Nat) : Bool := h % 384 == 0

-- Parts of the state -------------------------------------------------------------------------------------------------

def State.hart (s : State) (h : Nat) : Hart := Tab.get {} s.harts h
def State.core (s : State) (c : Nat) : Core := Tab.get {} s.cores c
def State.cluster (s : State) (k : Nat) : Cluster := Tab.get {} s.clusters k
def State.die (s : State) (d : Nat) : Die := Tab.get {} s.dies d
def State.stack (s : State) (n : Nat) : Stack := Tab.get {} s.baseDies n
def State.stream (s : State) (n : Nat) : Stream := Tab.get {} s.streams n
def State.journal (s : State) (n : Nat) : Journal := Tab.get {} s.journals n
def State.setHart (s : State) (h : Nat) (v : Hart) : State := { s with harts := Tab.put s.harts h v }
def State.setCore (s : State) (c : Nat) (v : Core) : State := { s with cores := Tab.put s.cores c v }
def State.setCluster (s : State) (k : Nat) (v : Cluster) : State := { s with clusters := Tab.put s.clusters k v }
def State.setDie (s : State) (d : Nat) (v : Die) : State := { s with dies := Tab.put s.dies d v }
def State.setStack (s : State) (n : Nat) (v : Stack) : State := { s with baseDies := Tab.put s.baseDies n v }
def State.setStream (s : State) (n : Nat) (v : Stream) : State := { s with streams := Tab.put s.streams n v }
def State.setJournal (s : State) (n : Nat) (v : Journal) : State := { s with journals := Tab.put s.journals n v }
def State.updHart (s : State) (h : Nat) (f : Hart → Hart) : State := s.setHart h (f (s.hart h))
def State.updCore (s : State) (c : Nat) (f : Core → Core) : State := s.setCore c (f (s.core c))
def State.updCluster (s : State) (k : Nat) (f : Cluster → Cluster) : State := s.setCluster k (f (s.cluster k))
def State.updDie (s : State) (d : Nat) (f : Die → Die) : State := s.setDie d (f (s.die d))
def State.updStack (s : State) (n : Nat) (f : Stack → Stack) : State := s.setStack n (f (s.stack n))
/-- The executing hart. -/
def State.me (s : State) : Hart := s.hart s.cur
def State.updMe (s : State) (f : Hart → Hart) : State := s.updHart s.cur f
/-- The executing hart's core. -/
def State.myCore (s : State) : Core := s.core (coreOf s.cur)
/-- The gang with an identifier. -/
def State.gangOf (s : State) (g : Nat) : Option Gang := s.gangs.find? fun x => x.id == g
def State.updGang (s : State) (g : Nat) (f : Gang → Gang) : State :=
  { s with gangs := s.gangs.map fun x => if x.id = g then f x else x }

-- Scalar registers (spec/07 R143, R144) ------------------------------------------------------------------------------

/-- Reads x-register r; x0 reads as 0. -/
def Hart.readX (h : Hart) (r : Reg) : Word := if r = 0 then 0 else Tab.get 0 h.x r.toNat
/-- Writes x-register r; a write of x0 is discarded. -/
def Hart.writeX (h : Hart) (r : Reg) (v : Word) : Hart := if r = 0 then h else { h with x := Tab.put h.x r.toNat v }
def State.readX (s : State) (r : Reg) : Word := s.me.readX r
def State.writeX (s : State) (r : Reg) (v : Word) : State := s.updMe fun h => h.writeX r v
/-- Goes on at a word: no wait is left, and the word there has not been issued. -/
def Hart.goTo (h : Hart) (a : Word) : Hart := { h with pc := a, wait := .none, issued := false, rest := none, emitSeq := none, tableStall := false }
/-- The next word in program order. -/
def Hart.next (h : Hart) : Hart := h.goTo (h.pc + 4)
def State.advance (s : State) : State := s.updMe Hart.next
/-- Sticky flags raised by the executing hart (spec/04 R95). -/
def Hart.raise (h : Hart) (f : Flags) : Hart := { h with fpflags := h.fpflags ||| f }
def State.raise (s : State) (f : Flags) : State := s.updMe fun h => h.raise f
def State.goTo (s : State) (a : Word) : State := s.updMe fun h => h.goTo a

-- Time (spec/18 R348, log 2) -----------------------------------------------------------------------------------------

/-- clk: cycles since reset (spec/07 R146). -/
def State.clk (s : State) : Word := BitVec.ofNat 64 s.now
/-- The part of a correction that a counter has slewed n cycles after it began: at most 100 parts per million of 16/3 units a
cycle, either way (spec/18 R348). -/
def slewed (correction : Int) (n : Nat) : Int :=
  let m : Int := n / 1875
  max (-m) (min m correction)
/-- What the counters have slewed by now. -/
def State.slewedNow (s : State) : Int := slewed s.slew (s.now - s.slewAt)
/-- The counter tstamp of a die, in 1/16 ns: 16/3 units a cycle of 3.0 GHz, and once locked the correction under way. -/
def State.tstamp (s : State) (d : Nat) : Nat :=
  wrap64 ((s.die d).off + (16 * s.now / 3 : Nat) + if (s.die d).locked then s.slewedNow else 0)

-- Counters (spec/18 R365, R366) --------------------------------------------------------------------------------------

/-- Adds n to counter c, modulo 2^32. -/
def State.count (s : State) (c n : Nat) : State :=
  { s with counters := Tab.put s.counters c ((Tab.get 0 s.counters c + n) % 2 ^ 32) }
/-- Adds n to slot k of a source. -/
def State.bump (s : State) (src slot n : Nat) : State := s.count (64 * src + slot) n
/-- Whether a selector register of the form of csel selects hart h (spec/18 R366, R370, R373). -/
def selects (v : Word) (s : State) (h : Nat) : Bool :=
  v.getLsbD 63 && v.getLsbD (32 + h % 4) && (!v.getLsbD 52 || (s.hart h).tenant == v.extractLsb' 40 12)
/-- Adds n to the selectable counters of the hart's core that select this slot (spec/18 R366). -/
def State.bumpSel (s : State) (h slot n : Nat) : List Nat → State
  | [] => s
  | j :: js =>
    let v := Tab.get 0 (s.core (coreOf h)).csel j
    let s := if selects v s h && v.toNat % 64 == slot then s.count (131072 + 4 * coreOf h + j) n else s
    State.bumpSel s h slot n js
/-- Adds n to slot k of a hart. -/
def State.bumpHart (s : State) (h slot n : Nat) : State :=
  State.bumpSel (s.bump h slot n) h slot n [0, 1, 2, 3]
def State.bumpMe (s : State) (slot n : Nat) : State := s.bumpHart s.cur slot n

-- Energy (spec/11 R239 to R242) --------------------------------------------------------------------------------------

/-- A charge into a counter of the layout of ectr. -/
def chargeTo (v : Word) (c : Nat) : Word :=
  let sum := v.toNat % 2 ^ 48 + c
  let es : Nat := if v.getLsbD 63 || decide (2 ^ 48 - 1 < sum) then 2 ^ 63 else 0
  BitVec.ofNat 64 (es + min sum (2 ^ 48 - 1))
/-- The weight of a class on a core. -/
def State.weight (s : State) (c cls : Nat) : Nat := (Tab.get 0 (s.core c).ew cls).toNat % 2 ^ 16
/-- Charges n units of a class to a hart's running context. -/
def State.charge (s : State) (h cls n : Nat) : State :=
  s.updHart h fun x => { x with ectr := chargeTo x.ectr (n * s.weight (coreOf h) cls) }
def State.chargeMe (s : State) (cls n : Nat) : State := s.charge s.cur cls n

-- Meanings that can end early ----------------------------------------------------------------------------------------

/-- A meaning in steps. An error carries the state in which the instruction ended early: a trap taken, a halt, or a
wait, after which the word executes afresh. -/
abbrev Op (α : Type) := StateT State (Except State) α

/-- Ends the instruction in state t. -/
def stop {α : Type} (t : State) : Op α := fun _ => .error t
/-- Changes the state. -/
def upd (f : State → State) : Op Unit := fun s => .ok ((), f s)
/-- Reads from the state. -/
def ask {α : Type} (f : State → α) : Op α := fun s => .ok (f s, s)
/-- The next state of a meaning, whether it ran to its end or ended early. -/
def finish (m : Op Unit) (s : State) : Host.Outcome State Fault Refusal :=
  match m s with
  | .ok (_, t) => .next t
  | .error t => .next t

end Sys2Proof.Machine
end

