-- ==== Sys2Proof/Machine/Home.lean ====
section
/-!
DEFINITION. Physical memory: what serves an address (spec/16 R318), homes (spec/14 R276), poison (spec/16 R325), the
memory-side cache (spec/16 R321), the cluster caches and their one value per byte (spec/12 R244 to R256), and how
bytes travel to their home (spec/14 R278).
-/
namespace Sys2Proof
namespace Machine

-- The physical map (spec/16 R318) ------------------------------------------------------------------------------------

/-- What serves a physical address. -/
inductive Served where
  | stack (n : Nat) | cxl (p : Nat) | host (c : Nat) | mgmt | scratch (k : Nat) | nothing
  deriving DecidableEq, Repr

def scratchBase : Nat := 0xFF00000000000
def servedBy (pa : Nat) : Served :=
  if pa < 0x8000000000 then
    if pa % 0x1000000000 < 64000000000 then .stack (pa / 0x1000000000) else .nothing
  else if 0x1000000000000 ≤ pa ∧ pa < 0x2000000000000 then
    let p := (pa - 0x1000000000000) / 0x20000000000
    if p < 8 ∧ (pa - 0x1000000000000) % 0x20000000000 < min (Config.cxlBytes p) 2048000000000 then .cxl p else .nothing
  else if 0x4000000000000 ≤ pa ∧ pa < 0x4000000000000 + 2 ^ 49 then .host 0
  else if 0x6000000000000 ≤ pa ∧ pa < 0x6000000000000 + 2 ^ 49 then .host 1
  else if 0xFE00000000000 ≤ pa ∧ pa < 0xFF00000000000 then .mgmt
  else if scratchBase ≤ pa ∧ (pa - scratchBase) / 0x800000 < 48 then .scratch ((pa - scratchBase) / 0x800000)
  else .nothing

/-- The home die of a byte (spec/14 R276). The management window is taken at die 0: the spec names the die addressed
and gives no address (log 11). -/
def homeDie (pa : Nat) : Nat :=
  match servedBy pa with
  | .stack n => n / 2
  | .cxl p => p / 2
  | .host c => 2 * c
  | .scratch k => k / 12
  | .mgmt | .nothing => 0
/-- The home cluster of a byte, whose atomic engine serves scopes of .die and wider (spec/14 R276, spec/13 R258). Host memory's
home within the die is its port, for which R276 names no cluster: the model takes the cluster that the address would have in
device memory (log 78, DESIGN CHOICE). -/
def homeCluster (pa : Nat) : Nat :=
  match servedBy pa with
  | .scratch k => k
  | _ => 12 * homeDie pa + pa / 4096 % 12
/-- Bytes a cluster may cache: device memory; scratchpad bytes have one copy (spec/13 R258), and host and management
accesses go to their port (log 10). -/
def cacheable (pa : Nat) : Bool :=
  match servedBy pa with
  | .stack _ | .cxl _ => true
  | _ => false
/-- The pseudo-channel of a stack address (spec/16 R319). -/
def channelOf (pa : Nat) : Nat := pa % 0x1000000000 / 2048 % 384
/-- Units that serve nothing any more: an access returns poison and a write is discarded (spec/16 R318, R323, R324). -/
def State.dead (s : State) (pa : Nat) : Bool :=
  match servedBy pa with
  | .stack n =>
    let k := s.stack n
    k.fencedCh.contains (channelOf pa) || k.segErr.contains (channelOf pa)
  | .cxl p => (Tab.get {} s.cxl p).fenced
  | .host c => (Tab.get {} s.cenel c).fenced
  | .mgmt | .scratch _ => false
  | .nothing => true
/-- An access between dies through a fenced die-network port (spec/16 R324). -/
def State.cut (s : State) (die pa : Nat) : Bool :=
  homeDie pa != die && ((Tab.get {} s.dieNet die).fenced || (Tab.get {} s.dieNet (homeDie pa)).fenced)

-- The attributes of a leaf entry (spec/14 R293, spec/16 R326) ----------------------------------------------------------

/-- The low bits of an address that a leaf at a level does not translate. -/
def levelShift (level : Nat) : Nat :=
  match level with
  | 2 => 30
  | 3 => 21
  | _ => 16
def leafR (e : Nat) : Bool := bitOf e 2
def leafW (e : Nat) : Bool := bitOf e 3
def leafX (e : Nat) : Bool := bitOf e 4
def leafU (e : Nat) : Bool := bitOf e 5
def leafO (e : Nat) : Bool := bitOf e 6
def leafS (e : Nat) : Bool := bitOf e 7
def leafC (e : Nat) : Nat := bitsOf e 10 8
def leafH (e : Nat) : Bool := bitOf e 11
def leafP (e : Nat) : Bool := bitOf e 12
def leafM (e : Nat) : Bool := bitOf e 13
/-- Page address of a leaf. -/
def leafPage (e : Nat) : Nat := bitsOf e 51 16 * 2 ^ 16

def sectorOf (pa : Nat) : Nat := pa / 32
/-- The sectors of some bytes, each once. -/
def sectorsAt (pas : List Nat) : List Nat := pas.foldl (fun l pa => NSet.add l (sectorOf pa)) []
/-- Whether a read of the byte at its home by an agent of a die returns poison. -/
def State.homePoison (s : State) (die pa : Nat) : Bool :=
  s.dead pa || s.cut die pa || s.poison.contains (sectorOf pa)

-- Numbers in bytes ------------------------------------------------------------------------------------------------------

/-- A number from bytes, lowest address least significant (spec/00 R5). -/
def leOf : List Byte → Nat
  | [] => 0
  | b :: bs => b.toNat + 256 * leOf bs
/-- The n bytes of a number. -/
def bytesLE : Nat → Nat → List Byte
  | 0, _ => []
  | n + 1, v => BitVec.ofNat 8 v :: bytesLE n (v / 256)
/-- A read of a number at its homes by an agent that takes no copy: the device's own reads (spec/14 R293, spec/15
R299, spec/18 R352). -/
def State.readHome (s : State) (pa n : Nat) : Nat := leOf (Memory.readN s.mem pa n)
/-- Whether such a read meets poison. -/
def State.readHomePoison (s : State) (die pa n : Nat) : Bool := (upTo n).any fun i => s.homePoison die (pa + i)

-- The memory-side cache (spec/16 R321, R322): timing state only --------------------------------------------------------

/-- The base die that holds an address and the 2 KiB line number there. -/
def mscPlace (pa : Nat) : Option (Nat × Nat) :=
  match servedBy pa with
  | .stack n => some (n, pa / 2048)
  | .cxl p => some (p, pa / 2048)
  | _ => none
def mscFind (l : List MscLine) (line : Nat) : Option MscLine := l.find? fun e => e.line == line
/-- A line is used: it stands first, so that the last of a set is its least recently used (log 10). -/
def mscPut (l : List MscLine) (e : MscLine) : List MscLine := e :: l.filter fun x => x.line != e.line
/-- Brings sectors of a line in, with the sectors the footprint predictor adds. -/
def Stack.mscFill (k : Stack) (line mask : Nat) : Stack :=
  match mscFind k.msc line with
  | some e => { k with msc := mscPut k.msc { e with valid := e.valid ||| mask, used := e.used ||| mask } }
  | none => { k with msc := mscPut k.msc ⟨line, mask ||| Tab.get 0 k.predictor line, 0, mask⟩ }
/-- The valid sectors of a line. -/
def Stack.mscValid (k : Stack) (line : Nat) : Nat :=
  match mscFind k.msc line with
  | some e => e.valid
  | none => 0
/-- The set of a line (2,048 sets of 16 ways). -/
def setOf (line : Nat) : Nat := line % 2048
/-- The line that leaves before a line comes in: the least recently used of a full set. -/
def Stack.mscVictim (k : Stack) (line : Nat) : Option Nat :=
  let same := k.msc.filter fun e => setOf e.line == setOf line
  if (mscFind k.msc line).isSome || decide (same.length < 16) then none else same.getLast?.map (·.line)

/-- The BF16 value j of a sector. -/
def State.sectorValue (s : State) (pa j : Nat) : Nat := s.readHome (pa + 2 * j) 2
/-- Whether a block of 32 BF16 values fits the shared-exponent form (spec/16 R322). -/
def State.blockFits (s : State) (pa : Nat) : Bool :=
  let vs := (upTo 32).map (s.sectorValue pa)
  let nonzero := vs.filter fun v => v % 2 ^ 15 != 0
  let top := nonzero.foldl (fun m v => max m (v / 2 ^ 7 % 2 ^ 8)) 0
  nonzero.all fun v => decide (top - v / 2 ^ 7 % 2 ^ 8 ≤ 6)
/-- A dirty sector is written back: recoded, or raw with its fallback flag. -/
def State.writeBack (s : State) (n line i : Nat) : State :=
  let pa := 2048 * line + 64 * i
  let s := s.bump (1680 + n) 1 1
  if servedBy pa != .stack n || !Tab.get false (s.stack n).compMap (pa % 0x1000000000 / 65536) then s
  else if s.blockFits pa then
    (s.bump (1680 + n) 7 1).updStack n fun k => { k with fallback := NSet.del k.fallback (pa / 64) }
  else
    (s.bump (1680 + n) 8 1).updStack n fun k =>
      { k with fallback := NSet.add k.fallback (pa / 64), fallbacks := min (k.fallbacks + 1) (2 ^ 32 - 1) }
/-- Writes back the sectors of a line that a mask names. -/
def State.writeBackAll (s : State) (n line mask : Nat) : State :=
  ((upTo 32).filter fun i => bitOf mask i).foldl (fun s i => s.writeBack n line i) s
/-- A line leaves: its dirty sectors are written back, the predictor records the sectors it used, in 4,096 entries, of which the
oldest goes. -/
def State.mscEvict (s : State) (n line : Nat) : State :=
  match mscFind (s.stack n).msc line with
  | none => s
  | some e =>
    (s.writeBackAll n line e.dirty).updStack n fun k =>
      { k with msc := k.msc.filter fun x => x.line != line,
               predictor := ((line, e.used) :: k.predictor.filter fun x => x.1 != line).take 4096 }
/-- Makes room for a line. -/
def State.mscRoom (s : State) (n line : Nat) : State :=
  match (s.stack n).mscVictim line with
  | none => s
  | some v => s.mscEvict n v
/-- The home die's hot-page tracker counts an access to a 64 KiB page, in a table of 8,192 entries (spec/16 R328). An access to a
page without an entry is not counted while the table is full (log 10, DESIGN CHOICE). -/
def State.trackHot (s : State) (pa : Nat) : State :=
  let d := s.die (homeDie pa)
  let page := pa / 65536
  if (Tab.find d.hot page).isNone && decide (8192 ≤ d.hot.length) then s
  else s.setDie (homeDie pa) { d with hot := Tab.put d.hot page (Tab.get 0 d.hot page + 1) }
/-- Whether the bytes of an address lie in DRAM: only their sectors are 'read from DRAM' (spec/18 R365 slot 0), those of a
CXL device are not. -/
def inDram (pa : Nat) : Bool :=
  match servedBy pa with
  | .stack _ => true
  | _ => false
/-- Sectors come in; those read from DRAM are counted (spec/18 R365 slot 0). whole says that a store covers the demanded
sector, which is then not read. -/
def State.mscBring (s : State) (n line mask : Nat) (whole : Bool) : State :=
  let s := s.mscRoom n line
  let k := (s.stack n).mscFill line mask
  let old := (s.stack n).mscValid line
  let fetched := (upTo 32).filter fun i => bitOf (k.mscValid line) i && !bitOf old i && !(whole && bitOf mask i)
  (s.setStack n k).bump (1680 + n) 0 (if inDram (2048 * line) then fetched.length else 0)
/-- A sector of a line that is present is dirty. -/
def Stack.mscDirty (k : Stack) (line mask : Nat) : Stack :=
  match mscFind k.msc line with
  | some e => { k with msc := mscPut k.msc { e with dirty := e.dirty ||| mask } }
  | none => k
/-- An access to one sector on the path to memory: hits and misses are counted (spec/18 R365), a miss fills unless
the access allocates nowhere, a write leaves the sector dirty. A write of part of a sector that misses reads the rest of the sector
first, also where it allocates nowhere. Such a write goes to DRAM as it is: the model recodes only what a memory-side cache writes
back (log 76, DESIGN CHOICE). -/
def State.mscTouch (s : State) (pa : Nat) (write bypass : Bool) (whole : Bool := false) : State :=
  match mscPlace pa with
  | none => s
  | some (n, line) =>
    let s := s.trackHot pa
    let bit := 2 ^ (pa % 2048 / 64)
    let hit := (s.stack n).mscValid line &&& bit != 0
    let s := s.bump (1680 + n) (if hit then 2 else 3) 1
    if bypass && !hit then
      let s := s.bump (1680 + n) 0 (if inDram pa && !(write && whole) then 1 else 0)
      s.bump (1680 + n) 1 (if write then 1 else 0)
    else
      let s := s.mscBring n line bit (write && whole)
      if write then s.updStack n fun k => k.mscDirty line bit else s
/-- The blocks of 64 bytes that some bytes lie in. -/
def blocksOf (pas : List Nat) : List Nat := pas.foldl (fun l pa => NSet.add l (pa / 64)) []
/-- Reads of some bytes on the path to memory. -/
def State.mscReads (s : State) (pas : List Nat) (bypass : Bool := false) : State :=
  (blocksOf pas).foldl (fun s b => s.mscTouch (64 * b) false bypass) s
/-- A read of a number by the device itself, which takes no copy: the number, and the path to memory after it (spec/16
R321). -/
def State.readDevice (s : State) (pa n : Nat) : Nat × State := (s.readHome pa n, s.mscReads ((upTo n).map (pa + ·)))
/-- The 32 sectors of a line read, or written whole, one after another. -/
def State.mscLine (s : State) (pa : Nat) (write : Bool) : State :=
  match mscPlace pa with
  | none => s
  | some (n, line) =>
    let hits := ((upTo 32).filter fun i => bitOf ((s.stack n).mscValid line) i).length
    let s := ((s.bump (1680 + n) 2 hits).bump (1680 + n) 3 (32 - hits)).mscBring n line (2 ^ 32 - 1) write
    if write then s.updStack n fun k => k.mscDirty line (2 ^ 32 - 1) else s
/-- The lines of a 64 KiB frame read, or written whole. -/
def State.mscFrame (s : State) (f : Nat) (write : Bool) : State :=
  (upTo 32).foldl (fun s i => s.mscLine (f + 2048 * i) write) s

-- Writing a home, poison marks (spec/16 R325) ------------------------------------------------------------------------

/-- Whether a list of cells covers a whole sector. -/
def coversSector (cells : List Host.Cell) (sec : Nat) : Bool :=
  (upTo 32).all fun i => cells.any fun c => c.1 == 32 * sec + i
def sectorsOf (cells : List Host.Cell) : List Nat := sectorsAt (cells.map (·.1))
/-- Bytes settled at their homes, through the memory-side cache: whole sectors written clear their mark, marks carried
are set. -/
def State.settle (s : State) (die : Nat) (cells : List Host.Cell) (marks : List Nat) (bypass : Bool := false) : State :=
  let cells := cells.filter fun c => !s.dead c.1 && !s.cut die c.1
  let cleared := (sectorsOf cells).filter (coversSector cells)
  let marked := (sectorsOf cells).filter marks.contains
  let s := { s with mem := Memory.writeCells s.mem cells,
                    poison := marked.foldl NSet.add (cleared.foldl NSet.del s.poison) }
  (blocksOf (cells.map (·.1))).foldl (fun s b =>
    s.mscTouch (64 * b) true bypass (coversSector cells (2 * b) && coversSector cells (2 * b + 1))) s

end Machine

-- Lines (spec/12 R244) --------------------------------------------------------------------------------------------------

/-- The place of a byte in line order, if the line holds it. -/
def LineKey.index (k : LineKey) (pa : Nat) : Option Nat :=
  match k with
  | .row b => if pa / 64 = b then some (pa % 64) else none
  | .col panel w c g =>
    let r := pa % 4096 / 64
    let n := 64 / w
    if pa / 4096 = panel ∧ c ≤ pa % 64 ∧ pa % 64 < c + w ∧ g * n ≤ r ∧ r < (g + 1) * n then
      some ((r - g * n) * w + (pa % 64 - c))
    else none
/-- The byte at a place in line order. -/
def LineKey.byteAt (k : LineKey) (i : Nat) : Nat :=
  match k with
  | .row b => 64 * b + i
  | .col panel w c g => 4096 * panel + 64 * (g * (64 / w) + i / w) + c + i % w
def LineKey.bytes (k : LineKey) : List Nat := (List.range 64).map k.byteAt
def LineKey.panel (k : LineKey) : Nat :=
  match k with
  | .row b => b / 64
  | .col p _ _ _ => p
/-- The set of the cluster cache that a line belongs to: 8 MiB in 16 ways of 64-byte lines make 8,192 sets (spec/00 R1).
The index is not given: row lines by their block, the column lines of a panel spread over its 64 sets (log 10). -/
def LineKey.set (k : LineKey) : Nat :=
  match k with
  | .row b => b % 8192
  | .col p w c g => (64 * p + g * (64 / w) + c / w) % 8192
def LineKey.isCol : LineKey → Bool
  | .row _ => false
  | .col _ _ _ _ => true
/-- The line an access uses (spec/12 R245). -/
def lineFor (o : Orient) (size pa : Nat) : LineKey :=
  match o with
  | .row => .row (pa / 64)
  | .col => .col (pa / 4096) size (pa % 64 / size * size) (pa % 4096 / 64 / (64 / size))
def LineKey.holds (k : LineKey) (pa : Nat) : Bool := (k.index pa).isSome

namespace Machine

-- One value per byte within a cluster (spec/12 R247) ----------------------------------------------------------------------

def State.dcacheKeys (s : State) (k : Nat) : List LineKey :=
  (coresOfCluster k).flatMap fun c => (s.core c).dcache
/-- Whether some copy in cluster k holds the byte. -/
def State.resident (s : State) (k pa : Nat) : Bool :=
  let c := s.cluster k
  c.lines.any (fun l => l.key.holds pa) || c.atomLines.any (fun l => l.key.holds pa)
    || (s.dcacheKeys k).any fun l => l.holds pa
/-- The newest drained value of a byte still on its way from cluster k (spec/14 R278). -/
def inFlight (ds : List Drain) (k pa : Nat) : Option Byte :=
  ds.foldl (fun acc d =>
    if d.cluster = k then match d.cells.find? (fun c => c.1 == pa) with
      | some c => some c.2
      | none => acc
    else acc) none
/-- What a byte reads as from below cluster k. -/
def State.belowByte (s : State) (k pa : Nat) : Byte :=
  (inFlight s.drains k pa).getD (Memory.read s.mem pa)
/-- What a byte reads as in cluster k: a resident copy, or the home. -/
def State.clusterByte (s : State) (k pa : Nat) : Byte :=
  if s.resident k pa then Memory.read (s.cluster k).bytes pa else s.belowByte k pa
/-- Whether a byte read in cluster k carries poison. -/
def State.clusterPoison (s : State) (k pa : Nat) : Bool :=
  if s.resident k pa then (s.cluster k).poison.contains (sectorOf pa)
  else s.homePoison (clusterDie k) pa
/-- Whether a byte is dirty in cluster k. -/
def State.dirtyByte (s : State) (k pa : Nat) : Bool :=
  let c := s.cluster k
  let d := fun (l : Line) => match l.key.index pa with
    | some i => bitOf l.dirty i
    | none => false
  c.lines.any d || c.atomLines.any d

/-- Forgets the values of bytes that no copy holds any more. -/
def State.forget (s : State) (k : Nat) (pas : List Nat) : State :=
  let gone := pas.filter fun pa => !s.resident k pa
  s.updCluster k fun c =>
    { c with bytes := gone.foldl (fun m pa => Memory.write m pa blank) c.bytes,
             poison := c.poison.filter fun x => pas.all (fun pa => sectorOf pa != x)
                || (upTo 32).any (fun i => s.resident k (32 * x + i)) }
/-- Clears the dirty bits of the bytes that satisfy p. -/
def Line.clean (l : Line) (p : Nat → Bool) : Line :=
  { l with dirty := (upTo 64).foldl (fun m i => if bitOf l.dirty i && !p (l.key.byteAt i) then m + 2 ^ i else m) 0 }
/-- The bytes that the dirty masks of some lines name and p accepts, with their values in cluster k, each once (spec/12
R247). -/
def State.maskedCells (s : State) (k : Nat) (ls : List Line) (p : Nat → Bool) : List Host.Cell :=
  let of := fun (l : Line) => (upTo 64).filterMap fun i =>
    if bitOf l.dirty i && p (l.key.byteAt i) then some (l.key.byteAt i) else none
  let pas := ls.foldl (fun acc l => if l.dirty = 0 then acc else (of l).foldl NSet.add acc) []
  pas.map fun pa => (pa, Memory.read (s.cluster k).bytes pa)
/-- The dirty bytes of a cluster that satisfy p, with their values, each once. -/
def State.dirtyCells (s : State) (k : Nat) (p : Nat → Bool) : List Host.Cell :=
  s.maskedCells k ((s.cluster k).lines ++ (s.cluster k).atomLines) p
/-- The lines of a cluster, the atomic engine's included, that p names. -/
def Cluster.linesWhere (c : Cluster) (p : LineKey → Bool) : List Line := (c.lines ++ c.atomLines).filter fun l => p l.key
/-- Who touched sectors and who wrote bytes is forgotten where nothing is dirty any more. -/
def State.retouch (s : State) (k : Nat) (cells : List Host.Cell) : State :=
  let still := (sectorsOf cells).filter fun x => !(upTo 32).any fun i => s.dirtyByte k (32 * x + i)
  let clean := cells.filter fun c => !s.dirtyByte k c.1
  s.updCluster k fun c => { c with touched := still.foldl Tab.drop c.touched,
                                   writers := clean.foldl (fun t x => Tab.drop t x.1) c.writers }
/-- Marks bytes of a cluster clean; the record of who touched them goes with them. -/
def State.cleanCells (s : State) (k : Nat) (cells : List Host.Cell) : State :=
  let p := fun pa => cells.any fun c => c.1 == pa
  (s.updCluster k fun c => { c with lines := c.lines.map (·.clean p), atomLines := c.atomLines.map (·.clean p) }).retouch k cells
/-- The poison marks of a cluster on the sectors of some cells. -/
def State.marksOf (s : State) (k : Nat) (cells : List Host.Cell) : List Nat :=
  (sectorsOf cells).filter (s.cluster k).poison.contains

-- O pages (spec/12 R243, R249) ---------------------------------------------------------------------------------------------

/-- Whether a held translation says that the page of a byte has attribute O, in any replica (spec/16 R326). -/
def TlbEntry.saysO (e : TlbEntry) (pa : Nat) : Bool :=
  let shift := levelShift e.level
  leafO e.leaf && (upTo 4).any fun d =>
    decide (pa / 2 ^ shift = (leafPage e.leaf + if leafM e.leaf then d * 0x2000000000 else 0) / 2 ^ shift)
def Line.saysO (l : Line) (pa : Nat) : Bool := (l.o || l.key.isCol) && decide (l.key.panel / 16 = pa / 65536)
/-- Whether a byte lies in an O page: as a line of the package filled under the page's leaf says, or a held
translation of the page (log 10). -/
def State.oPage (s : State) (pa : Nat) : Bool :=
  s.clusters.any (fun e => e.2.lines.any (·.saysO pa) || e.2.atomLines.any (·.saysO pa) || e.2.tlb.any (·.saysO pa))
    || s.cores.any fun e => e.2.tlb.any (·.saysO pa)
/-- Whether a key lies in the granule of a byte: the panel on an O page, else the row line (spec/12 R249). -/
def State.inGranule (s : State) (pa : Nat) (key : LineKey) : Bool :=
  if s.oPage pa then key.panel == pa / 4096 else key.holds (pa / 64 * 64)

-- Removing lines, homes (spec/12 R247, R249, spec/14 R278) ------------------------------------------------------------------

/-- Removes from cluster k, cores' caches and line store included, every line that p names. -/
def State.removeLines (s : State) (k : Nat) (p : LineKey → Bool) : State :=
  let c := s.cluster k
  let cells := s.maskedCells k (c.linesWhere p) fun _ => true
  let keys := (c.lines.map (·.key) ++ c.atomLines.map (·.key) ++ s.dcacheKeys k).filter p
  let s := s.setCluster k { c with lines := c.lines.filter fun l => !p l.key,
                                   atomLines := c.atomLines.filter fun l => !p l.key }
  let s := (coresOfCluster k).foldl (fun s j =>
    if (s.core j).dcache.any p then s.updCore j fun x => { x with dcache := x.dcache.filter fun l => !p l } else s) s
  (s.retouch k cells).forget k (keys.flatMap LineKey.bytes)
/-- Whether cluster k holds a line that p names. -/
def State.holdsLine (s : State) (k : Nat) (p : LineKey → Bool) : Bool :=
  (s.cluster k).lines.any (fun l => p l.key) || (s.cluster k).atomLines.any (fun l => p l.key) || (s.dcacheKeys k).any p
/-- The cells of a drain in some sectors. -/
def Drain.inSectors (d : Drain) (secs : List Nat) : List Host.Cell := d.cells.filter fun c => secs.contains (sectorOf c.1)
/-- A drain without its cells in some sectors. -/
def Drain.outside (d : Drain) (secs : List Nat) : Drain :=
  { d with cells := d.cells.filter fun c => !secs.contains (sectorOf c.1) }
/-- What is on its way from cluster k in some sectors reaches its homes, oldest first, with the cells that it wrote: newer bytes of
these sectors follow it, and no agent sees part of an access (spec/14 R277, R278; log 48). -/
def State.landSectors (s : State) (k : Nat) (secs : List Nat) : State × List Host.Cell :=
  let mine := s.drains.filter fun d => d.cluster == k
  let t : State := { s with drains :=
    (s.drains.map fun d => if d.cluster = k then d.outside secs else d).filter fun d => !d.cells.isEmpty }
  (mine.foldl (fun t d => t.settle (clusterDie k) (d.inSectors secs) d.poison) t, mine.flatMap (·.inSectors secs))
/-- The sectors of some cells as one byte address each. -/
def sectorBytes (cells : List Host.Cell) : List Nat := (sectorsOf cells).map fun x => 32 * x
/-- Removes every copy of a byte held in a cluster, at the granularity of spec/12 R249, and says which bytes went to their homes:
the dirty ones that the masks of the removed lines name, behind what was on its way in their sectors. -/
def State.purgeAt (s : State) (k pa : Nat) : State × List Host.Cell :=
  let p := s.inGranule pa
  if s.holdsLine k p then
    let cells := s.maskedCells k ((s.cluster k).linesWhere p) fun _ => true
    let (t, landed) := s.landSectors k (sectorsOf cells)
    ((t.settle (clusterDie k) cells (s.marksOf k cells)).removeLines k p, landed ++ cells)
  else (s, [])
/-- Removes the copies of a byte from every cluster of its home's die but one. -/
def State.purgeDie (s : State) (k : Option Nat) (pa : Nat) : State × List Host.Cell :=
  (clustersOfDie (homeDie pa)).foldl (fun x j =>
    if some j = k || ((x.1.cluster j).lines.isEmpty && (x.1.cluster j).atomLines.isEmpty && (x.1.dcacheKeys j).isEmpty)
    then x
    else
      let y := x.1.purgeAt j pa
      (y.1, x.2 ++ y.2)) (s, [])
/-- The clean bytes that copies of cluster k hold in some sectors. -/
def State.cleanIn (s : State) (k : Nat) (secs : List Nat) : List Nat :=
  secs.flatMap fun x => ((upTo 32).map (32 * x + ·)).filter fun pa => s.resident k pa && !s.dirtyByte k pa
/-- The clean copies that cluster k holds in some sectors are read again from below, with the poison marks of their homes, as if
they had been dropped. A sector is read whole, so that no element joins bytes of an older and of a newer write (spec/12 R248). -/
def State.reread (s : State) (k : Nat) (secs : List Nat) : State :=
  let old := s.cleanIn k secs
  if old.isEmpty then s
  else
    let secs := sectorsAt old
    let clean := secs.filter fun x => !(upTo 32).any fun i => s.dirtyByte k (32 * x + i)
    let marked := secs.filter fun x => s.homePoison (clusterDie k) (32 * x)
    s.updCluster k fun c =>
      { c with bytes := old.foldl (fun m pa => Memory.write m pa (s.belowByte k pa)) c.bytes,
               poison := marked.foldl NSet.add (clean.foldl NSet.del c.poison) }
/-- A write by an agent sets the event latch of every other hart whose latest ld.acq read one of the sectors written
(spec/11 R230). -/
def State.wakeOthers (s : State) (h : Option Nat) (pas : List Nat) : State :=
  let woken := fun (e : Nat × Hart) => some e.1 != h && match e.2.lastAcq with
    | some x => pas.any fun pa => sectorOf pa == x
    | none => false
  if s.harts.any woken then
    { s with harts := s.harts.map fun e => if woken e then (e.1, { e.2 with latch := true }) else e }
  else s
/-- The home accepts bytes from cluster k, or from outside: copies in the other clusters of its die go first, then
the bytes are written (spec/14 R278). What the copies that went had changed in a sector is newer than a clean copy that cluster k
holds there untracked, which is read again (log 48, DEDUCED). -/
def State.accept (s : State) (k : Option Nat) (die : Nat) (cells : List Host.Cell) (marks : List Nat)
    (bypass : Bool := false) : State :=
  let x := (sectorBytes cells).foldl (fun x pa =>
    let y := x.1.purgeDie k pa
    (y.1, x.2 ++ y.2)) (s, [])
  let t := x.1.settle die cells marks bypass
  match k with
  | none => t
  | some k => t.reread k (sectorsOf x.2)
/-- The first n drains on their way are accepted, oldest first. -/
def State.flushFirst (s : State) : Nat → State
  | 0 => s
  | n + 1 => match s.drains with
    | [] => s
    | d :: ds => State.flushFirst ({ s with drains := ds }.accept (some d.cluster) (clusterDie d.cluster) d.cells d.poison) n
/-- Every drain on its way is accepted, oldest first. -/
def State.flushDrains (s : State) : State := s.flushFirst s.drains.length
/-- Whether a sector holds a byte that p names. -/
def sectorHas (p : Nat → Bool) (x : Nat) : Bool := (upTo 32).any fun i => p (32 * x + i)
/-- Drains the dirty bytes of cluster k in the sectors p names a byte of to their homes at once; the lines stay. A sector's
dirty bytes go together (spec/14 R277). -/
def State.drainBytes (s : State) (k : Nat) (p : Nat → Bool) : State :=
  let s := s.flushDrains
  let cells := s.dirtyCells k fun pa => sectorHas p (sectorOf pa)
  if cells.isEmpty then s
  else (s.cleanCells k cells).accept (some k) (clusterDie k) cells (s.marksOf k cells)
/-- The dirty bytes that leave with some lines: those in the sectors that their masks name a byte of. A sector's dirty bytes
leave a cache together, whichever lines hold them (spec/14 R277; log 48). -/
def State.leavingCells (s : State) (k : Nat) (ls : List Line) : List Host.Cell :=
  let secs := sectorsOf (s.maskedCells k ls fun _ => true)
  s.dirtyCells k fun pa => secs.contains (sectorOf pa)
/-- Writes what leaves with the lines p names to their homes at once, and marks it clean in every line of the cluster, so that no
line writes an older value later (spec/12 R247); the lines stay. -/
def State.drainLines (s : State) (k : Nat) (p : LineKey → Bool) : State :=
  if ((s.cluster k).linesWhere p).any fun l => l.dirty != 0 then
    let s := s.flushDrains
    let cells := s.leavingCells k ((s.cluster k).linesWhere p)
    (s.cleanCells k cells).accept (some k) (clusterDie k) cells (s.marksOf k cells)
  else s
/-- Writes the dirty bytes of the lines p names to their homes and removes the lines (spec/12 R247). -/
def State.evict (s : State) (k : Nat) (p : LineKey → Bool) : State := (s.drainLines k p).removeLines k p
/-- The same, where the cluster holds such a line at all. -/
def State.dropLines (s : State) (k : Nat) (p : LineKey → Bool) : State := if s.holdsLine k p then s.evict k p else s

-- Fills (spec/12 R247, R251 to R254) -----------------------------------------------------------------------------------------

/-- The range an access belongs to (spec/12 R252). -/
def Cluster.rangeOf (c : Cluster) (pa : Nat) : Option Nat :=
  (upTo 8).find? fun n =>
    let b := Tab.get 0 c.resb n
    let e := Tab.get 0 c.resc n
    b.getLsbD 63 && decide (bitsOf b.toNat 51 16 ≤ pa / 2 ^ 16) && decide (pa / 2 ^ 16 ≤ bitsOf e.toNat 51 16)
/-- The ways each range takes, in register order (spec/12 R252). -/
def Cluster.waysFrom (c : Cluster) : Nat → Nat → Nat → Nat
  | 0, _, _ => 0
  | n + 1, target, taken =>
    let i := 7 - n
    let want := if (Tab.get 0 c.resb i).getLsbD 63 then bitsOf (Tab.get 0 c.resc i).toNat 63 60 else 0
    let got := min want (12 - taken)
    if i = target then got else c.waysFrom n target (taken + got)
def Cluster.effectiveWays (c : Cluster) (n : Nat) : Nat := c.waysFrom 8 n 0
/-- The first way of a range, and the ways no range takes, which are general. -/
def Cluster.wayStart (c : Cluster) (n : Nat) : Nat := ((upTo n).map c.effectiveWays).sum
def Cluster.waysOf (c : Cluster) (cls : Option Nat) : List Nat :=
  match cls with
  | some n => (upTo (c.effectiveWays n)).map (c.wayStart n + ·)
  | none => (upTo (16 - c.wayStart 8)).map (c.wayStart 8 + ·)
/-- The least recently used of some lines; of lines used at one moment, the one filled first. -/
def oldestLine (ls : List Line) : Option Line :=
  ls.foldl (fun best l => match best with
    | none => some l
    | some b => if l.usedAt ≤ b.usedAt then some l else some b) none
/-- Where a fill of a class goes (spec/12 R254): an empty way of its owner's, or the way of the least recently used line
there, which leaves. -/
def Cluster.placeFor (c : Cluster) (key : LineKey) (cls : Option Nat) : Nat × Option LineKey :=
  let ws := c.waysOf cls
  let here := c.lines.filter fun l => l.key.set == key.set && ws.contains l.way
  match ws.find? fun w => here.all fun l => l.way != w with
  | some w => (w, none)
  | none => match oldestLine here with
    | some l => (l.way, some l.key)
    | none => (0, none)
/-- The class of a fill by an access without hint, and the accumulator after it (spec/12 R253). -/
def Cluster.classify (c : Cluster) (pa : Nat) : Option Nat × Cluster :=
  match c.rangeOf pa with
  | none => (none, c)
  | some n =>
    let a := Tab.get 0 c.acc n + bitsOf (Tab.get 0 c.resc n).toNat 8 0
    if 256 ≤ a then (if c.effectiveWays n = 0 then none else some n, { c with acc := Tab.put c.acc n (a - 256) })
    else (none, { c with acc := Tab.put c.acc n a })
/-- Before bytes are read from below, the clean copies of their sectors that cluster k holds untracked, their home on another die,
are read again (spec/14 R278; log 48, DEDUCED). -/
def State.freshen (s : State) (k : Nat) (pas : List Nat) : State :=
  s.reread k (sectorsAt (pas.filter fun pa => homeDie pa != clusterDie k))
/-- Brings the bytes of a line into cluster k: bytes that a copy holds keep their value, but for untracked ones that are read again,
the others come from below with their poison marks (spec/12 R247, spec/16 R325). Only sectors with such bytes are read, also by a
column line (log 72, DESIGN CHOICE). -/
def State.fillBytes (s : State) (k : Nat) (key : LineKey) : State :=
  let missing := key.bytes.filter fun pa => !s.resident k pa
  let s := s.freshen k missing
  let c := s.cluster k
  let c := { c with bytes := missing.foldl (fun m pa => Memory.write m pa (s.belowByte k pa)) c.bytes,
                    poison := missing.foldl (fun l pa =>
                      if s.homePoison (clusterDie k) pa then NSet.add l (sectorOf pa) else l) c.poison }
  (s.mscReads missing).setCluster k c
/-- The class of a fill of a line (spec/12 R253). One that completes a line of which a copy in the cluster already holds bytes
is general, and no sample of its range (spec/12 R247; log 10). -/
def State.fillClass (s : State) (k : Nat) (key : LineKey) (pa : Nat) : Option Nat × Cluster :=
  if key.bytes.any (s.resident k) then (none, s.cluster k) else (s.cluster k).classify pa
/-- A line fill of the cluster cache for an access to byte pa (LINE_FILL, spec/12 R247); the line it replaces is written
back first (spec/12 R254). -/
def State.lineFill (s : State) (k : Nat) (key : LineKey) (o : Bool) (pa : Nat) : State :=
  if (s.cluster k).lines.any fun l => l.key == key then
    s.updCluster k fun c => { c with lines := c.lines.map fun l => if l.key = key then { l with usedAt := s.now } else l }
  else
    let (cls, c) := s.fillClass k key pa
    let (way, out) := c.placeFor key cls
    let s := s.setCluster k c
    let s := match out with
      | none => s
      | some v => s.evict k fun l => l == v
    (s.fillBytes k key).updCluster k fun c =>
      { c with lines := { key := key, o := o, cls := cls, way := way, fillAt := s.now, usedAt := s.now } :: c.lines }
/-- The line that leaves the atomic engine's store past its 256 lines: the least recently used without a waiting request
(spec/13 R271); where every other line has one, the least recently used of them (log 10, DESIGN CHOICE). -/
def Cluster.atomVictim (c : Cluster) : Option Line :=
  if c.atomLines.length ≤ 256 then none
  else
    let others := c.atomLines.drop 1
    let free := others.filter fun l => !c.atomics.any fun r => l.key.holds r.pa
    (if free.isEmpty then others else free).getLast?
/-- A line of the atomic engine's store is written back by its dirty mask and leaves; a sector's dirty bytes go together. -/
def State.atomEvict (s : State) (k : Nat) (old : Line) : State :=
  let s := s.flushDrains
  let cells := s.leavingCells k ((s.cluster k).atomLines.filter fun l => l.key == old.key)
  let s := if cells.isEmpty then s else (s.cleanCells k cells).accept (some k) (clusterDie k) cells (s.marksOf k cells)
  (s.updCluster k fun c => { c with atomLines := c.atomLines.filter fun l => l.key != old.key }).forget k old.key.bytes
/-- The atomic engine's line store takes a row line in (spec/13 R271); the line used last stands first. -/
def State.atomFill (s : State) (k : Nat) (pa : Nat) (o : Bool) : State :=
  let key : LineKey := .row (pa / 64)
  if (s.cluster k).atomLines.any fun l => l.key == key then
    s.updCluster k fun c => { c with atomLines :=
      (c.atomLines.filter fun l => l.key == key) ++ c.atomLines.filter fun l => l.key != key }
  else
    let s := (s.fillBytes k key).bump (1537 + 3 * k) 2 1
    let s := s.updCluster k fun c => { c with atomLines := { key := key, o := o, fillAt := s.now, usedAt := s.now } :: c.atomLines }
    match (s.cluster k).atomVictim with
    | none => s
    | some old => s.atomEvict k old

/-- Which core of a cluster touched the sectors of some bytes (spec/14 R279). -/
def State.touch (s : State) (k core : Nat) (pas : List Nat) : State :=
  s.updCluster k fun c =>
    { c with touched := (sectorsAt pas).foldl (fun t x => Tab.put t x (Tab.get 0 t x ||| 2 ^ (core % 8))) c.touched }
/-- Whether core c of its cluster touched a byte. -/
def Cluster.touchedBy (c : Cluster) (core pa : Nat) : Bool := bitOf (Tab.get 0 c.touched (sectorOf pa)) (core % 8)

/-- A narrow acquire takes over what other cores of the cluster wrote before it (spec/14 R282): the acquiring core answers
for every dirty byte. -/
def State.touchDirty (s : State) (k core : Nat) : State := s.touch k core ((s.dirtyCells k fun _ => true).map (·.1))
/-- The tenant that wrote the dirty bytes among some (spec/16 R333). -/
def State.ownBytes (s : State) (k ten : Nat) (pas : List Nat) : State :=
  let mine := pas.filter (s.dirtyByte k)
  s.updCluster k fun c => { c with writers := mine.foldl (fun t pa => Tab.put t pa ten) c.writers }
/-- Dirty bytes of cluster k start for their home, and are clean in every line of the cluster, so that none writes an older value
later (spec/12 R247). -/
def State.sendCells (s : State) (k : Nat) (cells : List Host.Cell) : State :=
  if cells.isEmpty then s
  else
    let d : Drain :=
      { cluster := k, cells := cells, poison := s.marksOf k cells,
        writers := (s.cluster k).writers.filter fun e => cells.any fun c => c.1 == e.1 }
    { s with drains := s.drains ++ [d] }.cleanCells k cells
/-- Before a tenant writes some bytes, what another tenant left dirty in their sectors starts for its home. Every sector that a
cluster holds dirty, or has on its way, is then of one tenant, and what a context halt discards takes no byte of another tenant's
write along (spec/14 R277, spec/16 R333; log 88, DESIGN CHOICE). -/
def State.partTenants (s : State) (k ten : Nat) (pas : List Nat) : State :=
  let secs := (sectorsAt pas).filter fun x => (s.cluster k).writers.any fun e => e.2 != ten && sectorOf e.1 == x
  if secs.isEmpty then s else s.sendCells k (s.dirtyCells k fun pa => secs.contains (sectorOf pa))
/-- Whether a byte on its way home was written by a tenant. -/
def Drain.wroteBy (d : Drain) (ten : Nat) (c : Host.Cell) : Bool := Tab.find d.writers c.1 == some ten
/-- The sectors of a tenant's bytes on their way from cluster k. -/
def sentBy (ds : List Drain) (ten k : Nat) : List Nat :=
  sectorsOf (ds.flatMap fun d => if d.cluster = k then d.cells.filter (d.wroteBy ten) else [])
/-- A context halt performs no later write for its tenant (spec/16 R333): in a cluster, the dirty bytes the tenant wrote last and its
contributions are discarded. They read as from below again, as do the bytes of some sectors that were on their way. -/
def State.discardIn (s : State) (ten k : Nat) (sent : List Nat) : State :=
  let cells := s.dirtyCells k fun pa => Tab.find (s.cluster k).writers pa == some ten
  let s := s.updCluster k fun c => { c with partials := c.partials.filter fun p => p.ten != ten }
  (if cells.isEmpty then s else s.cleanCells k cells).reread k (sent.foldl NSet.add (sectorsOf cells))
def Drain.without (d : Drain) (ten : Nat) : Drain := { d with cells := d.cells.filter fun c => !d.wroteBy ten c }
/-- The same of all clusters; what the tenant has on its way goes first. What has reached a home stays (spec/17 R344). -/
def State.discardWrites (s : State) (ten : Nat) : State :=
  let t : State := { s with drains := (s.drains.map (Drain.without · ten)).filter fun d => !d.cells.isEmpty }
  (t.clusters.map (·.1)).foldl (fun t k => t.discardIn ten k (sentBy s.drains ten k)) t

/-- Writes bytes that copies of cluster k hold into every copy; the line the store went through takes the dirty bits
(spec/12 R247, R255). atom says that it is the atomic engine's line. -/
def State.writeCopies (s : State) (k : Nat) (through : LineKey) (atom : Bool) (cells : List Host.Cell) : State :=
  let mark := fun (l : Line) => if l.key = through then
      { l with dirty := cells.foldl (fun m c => match l.key.index c.1 with
                  | some i => m ||| 2 ^ i
                  | none => m) l.dirty,
               dirtyAt := if l.dirty = 0 then s.now else l.dirtyAt, usedAt := s.now }
    else l
  let cleared := (sectorsOf cells).filter (coversSector cells)
  s.updCluster k fun c =>
    { c with bytes := Memory.writeCells c.bytes cells,
             poison := cleared.foldl NSet.del c.poison,
             lines := if atom then c.lines else c.lines.map mark,
             atomLines := if atom then c.atomLines.map mark else c.atomLines }

/-- The line whose mask takes a byte of a hinted store (spec/12 R255): the line of the access's own shape where it is
resident, else the resident line of lowest address; with it, whether that is a line of the atomic engine. The address of a
column line is taken as that of its first byte, and of lines of one address the first listed counts (log 65, DESIGN
CHOICE). -/
def Cluster.markLine (c : Cluster) (own : LineKey) (pa : Nat) : Option (Bool × LineKey) :=
  if own.holds pa && c.lines.any fun l => l.key == own then some (false, own)
  else
    ((c.lines.map fun l => (false, l.key)) ++ c.atomLines.map fun l => (true, l.key)).foldl (fun best x =>
      if !x.2.holds pa then best
      else match best with
        | none => some x
        | some b => if x.2.byteAt 0 < b.2.byteAt 0 then some x else best) none
/-- Bytes that resident lines hold merge into every copy. -/
def State.mergeCells (s : State) (k : Nat) (own : LineKey) (cells : List Host.Cell) : State :=
  cells.foldl (fun s c => match (s.cluster k).markLine own c.1 with
    | some (atom, key) => s.writeCopies k key atom [c]
    | none => s) s
/-- Bytes written into every copy of cluster k, which are clean after it: they go home at once. -/
def State.overwrite (s : State) (k : Nat) (cells : List Host.Cell) (marks : List Nat) : State :=
  let inside := cells.filter fun c => s.resident k c.1
  if inside.isEmpty then s
  else
    let cleared := (sectorsOf inside).filter (coversSector inside)
    let marked := (sectorsOf inside).filter marks.contains
    (s.cleanCells k inside).updCluster k fun c =>
      { c with bytes := Memory.writeCells c.bytes inside,
               poison := marked.foldl NSet.add (cleared.foldl NSet.del c.poison) }

/-- Bytes of cluster k that go through to their homes at once, into every copy on the way; the dirty bytes of their sectors go with
them, so that no agent sees part of an earlier access (spec/14 R277). -/
def State.writeThrough (s : State) (k : Nat) (cells : List Host.Cell) (marks : List Nat) (bypass : Bool := false) : State :=
  let s := s.flushDrains.overwrite k cells marks
  let secs := sectorsOf cells
  let more := s.dirtyCells k fun pa => secs.contains (sectorOf pa)
  (s.cleanCells k more).accept (some k) (clusterDie k) (more ++ cells) (marks ++ s.marksOf k more) bypass

-- Loads and stores of physical bytes by a hart ---------------------------------------------------------------------------------

/-- A line enters a core's data cache of 64 KiB (spec/00 R1), whose least recently used line leaves past 1,024 lines. -/
def State.dcacheFill (s : State) (core : Nat) (key : LineKey) : State :=
  let l := key :: (s.core core).dcache.filter fun x => x != key
  let s := s.updCore core fun c => { c with dcache := l.take 1024 }
  let gone := l.drop 1024
  if gone.isEmpty then s else s.forget (core / 8) (gone.flatMap LineKey.bytes)
/-- Brings in what a load of n bytes needs (spec/07 R159, spec/12 R245, R255); scalar loads also allocate in the
core's data cache (log 25). A hinted load and a copy engine's read do not count as a use of the lines they find, while a
hinted store does (log 10, DESIGN CHOICE). -/
def State.loadFill (s : State) (core pa n : Nat) (key : LineKey) (o : Bool) (h : Hint) (scalar : Bool) : State :=
  let k := core / 8
  if !cacheable pa then s
  else match h with
    | .none =>
      let s := s.lineFill k key o pa
      if scalar then s.dcacheFill core key else s
    | _ =>
      let missing := ((upTo n).map (pa + ·)).filter fun a => !s.resident k a
      (s.freshen k missing).mscReads missing (h == .byp)
/-- A store of some bytes by a core through a line (spec/12 R247, R255). -/
def State.storeBytes (s : State) (core : Nat) (key : LineKey) (o : Bool) (h : Hint) (pa : Nat) (bs : List Byte) : State :=
  let k := core / 8
  let cells : List Host.Cell := ((upTo bs.length).map (pa + ·)).zip bs
  if !cacheable pa then s.accept none (clusterDie k) cells []
  else match h with
    | .none => ((s.lineFill k key o pa).writeCopies k key false cells).touch k core (cells.map (·.1))
    | _ =>
      let held := fun (c : Host.Cell) => ((s.cluster k).markLine key c.1).isSome
      let inside := cells.filter held
      let outside := cells.filter fun c => !held c
      let s := if inside.isEmpty then s else (s.mergeCells k key inside).touch k core (inside.map (·.1))
      if outside.isEmpty then s else s.writeThrough k outside [] (h == .byp)
/-- The bytes a core reads at a physical address, with whether any carries poison. -/
def State.bytesAt (s : State) (core pa n : Nat) : List Byte × Bool :=
  let k := core / 8
  let pas := (upTo n).map (pa + ·)
  if cacheable pa then (pas.map (s.clusterByte k), pas.any (s.clusterPoison k))
  else (pas.map fun a => Memory.read s.mem a, pas.any (s.homePoison (clusterDie k)))

/-- A write of a number at its homes by an agent outside the clusters. -/
def State.writeHome (s : State) (die pa n v : Nat) : State :=
  let cells : List Host.Cell := ((upTo n).map (pa + ·)).zip (bytesLE n v)
  (s.flushDrains.accept none die cells []).wakeOthers none (cells.map (·.1))
def State.writeHomeBytes (s : State) (die pa : Nat) (bs : List Byte) : State :=
  let cells : List Host.Cell := ((upTo bs.length).map (pa + ·)).zip bs
  (s.flushDrains.accept none die cells []).wakeOthers none (cells.map (·.1))
/-- Adds to a 64-bit word at its home, as a .sys store. -/
def State.addWord (s : State) (d pa n : Nat) : State :=
  let (v, s) := (s.flushDrains.purgeDie none pa).1.readDevice pa 8
  s.writeHome d pa 8 ((v + n) % 2 ^ 64)

end Machine
end Sys2Proof
end

