-- ==== Sys2Proof/Machine/Reel.lean ====
section
/-!
DEFINITION. Reel records (spec/18 R345 to R360), latency capture (spec/18 R370, R371) and the halt lines (spec/16 R332).
-/
namespace Sys2Proof.Machine

-- Streams (spec/18 R351) ---------------------------------------------------------------------------------------------

def Stream.en (t : Stream) : Bool := t.sctl.getLsbD 63
def Stream.ll (t : Stream) : Bool := t.sctl.getLsbD 62
def Stream.takesAll (t : Stream) : Bool := t.sctl.getLsbD 61
def Stream.consumer (t : Stream) : Option Nat :=
  if t.sctl.getLsbD 60 then some (bitsOf t.sctl.toNat 58 48) else none
def Stream.ten (t : Stream) : Nat := bitsOf t.sctl.toNat 43 32
def Stream.size (t : Stream) : Nat := t.sctl.toNat % 32
def Stream.header (t : Stream) : Nat := bitsOf t.sbase.toNat 51 6 * 64

/-- The class of an event code (spec/18 R347). -/
def codeClass (code : Nat) : Nat := if 0x8000 ≤ code ∧ code < 0x9000 then 0 else code / 256 % 16
/-- The filters of spec/18 R353, the hart's tmask apart. -/
def Stream.accepts (t : Stream) (r : Rec) : Bool :=
  t.en && bitOf t.sctl.toNat (16 + codeClass r.code) && (t.takesAll || (!r.nt && r.tenant == t.ten))
/-- Slots used: a consumed value ahead of written is taken as equal to it (spec/18 R352). -/
def State.ringUsed (s : State) (n : Nat) : Nat :=
  let t := s.stream n
  t.written - s.readHome (t.header + 8) 8
def State.ringFree (s : State) (n : Nat) : Nat := 2 ^ (s.stream n).size - s.ringUsed n

/-- The 32 bytes of a record (spec/18 R345). -/
def Rec.bytes (r : Rec) : List Byte :=
  bytesLE 8 r.time
    ++ bytesLE 8 (r.seq % 2 ^ 16 * 2 ^ 48 + r.code % 2 ^ 16 * 2 ^ 32 + (if r.nt then 2 ^ 31 else 0)
        + (if r.nt then 0 else r.tenant % 2 ^ 12 * 2 ^ 16) + r.source % 2 ^ 16)
    ++ bytesLE 8 r.p0.toNat ++ bytesLE 8 r.p1.toNat

/-- The die of a source (spec/16 R331, spec/18 R346). -/
def sourceDie (src : Nat) : Nat :=
  if src < 1536 then src / 384
  else if src < 1680 then (src - 1536) / 36
  else if src < 1688 then (src - 1680) / 2
  else if src < 1692 then src - 1688
  else if src < 1694 then 2 * (src - 1692)
  else if src < 1702 then (src - 1694) / 2
  else if src < 1706 then src - 1702
  else 0

/-- The next record of a source, of an event at a time; its sequence number counts before the filters (spec/18 R345). -/
def State.mkRecAt (s : State) (time src code : Nat) (tenant : Option Nat) (p0 p1 : Word) : Rec × State :=
  let q := Tab.get 0 s.seqs src
  (⟨time, q, code, tenant.isNone, tenant.getD 0, src, p0, p1⟩, { s with seqs := Tab.put s.seqs src ((q + 1) % 2 ^ 16) })
/-- A record of an event of this moment. -/
def State.mkRec (s : State) (src code : Nat) (tenant : Option Nat) (p0 p1 : Word) : Rec × State :=
  s.mkRecAt (s.tstamp (sourceDie src)) src code tenant p0 p1

/-- Writes a record into a ring and then advances written (spec/18 R352). -/
def State.putSlot (s : State) (n : Nat) (r : Rec) : State :=
  let t := s.stream n
  let slot := t.header + 0x40 + 32 * (t.written % 2 ^ t.size)
  let s := s.writeHomeBytes (homeDie slot) slot r.bytes
  let s := s.writeHome (homeDie t.header) t.header 8 (t.written + 1)
  s.setStream n { t with written := t.written + 1 }
/-- Counts a dropped record (spec/18 R355). -/
def State.dropIn (s : State) (n : Nat) (r : Rec) : State :=
  let t := s.stream n
  s.setStream n { t with drops := min (t.drops + 1) (2 ^ 64 - 1), firstDrop := if t.drops = 0 then r.time else t.firstDrop }

/-- Merging of housekeeping records that find no room (spec/18 R357). -/
def mergeHouse (old new : Rec) : Rec :=
  if new.code = 0x0501 then { new with p0 := if old.p0.toNat ≤ new.p0.toNat then old.p0 else new.p0, p1 := old.p1 + new.p1 }
  else if new.code = 0x0500 then { new with p0 := old.p0 + new.p0, p1 := old.p1 }
  else new
/-- A merged record stands where the newest of its events came: records of one source keep their order (spec/18 R349). R357 names
one pending record per source and stream, and rules of merging per code: the model keeps one for each code of a source too (log 84,
DESIGN CHOICE). -/
def State.keepHouse (s : State) (n : Nat) (r : Rec) : State :=
  let t := s.stream n
  let same := fun (x : Rec) => x.source == r.source && x.code == r.code
  let merged := match t.house.find? same with
    | some o => mergeHouse o r
    | none => r
  s.setStream n { t with house := (t.house.filter fun x => !same x) ++ [merged] }

/-- The merged records of a source that a stream still accepts (spec/18 R353). -/
def Stream.houseOf (t : Stream) (src : Nat) : List Rec := t.house.filter fun x => x.source == src && t.accepts x
/-- Slots that a record needs in a stream: itself, a pending drop record, merged records of its source. -/
def State.slotsFor (s : State) (n : Nat) (r : Rec) : Nat :=
  let t := s.stream n
  1 + (if t.drops = 0 then 0 else 1) + (t.houseOf r.source).length
def State.roomIn (s : State) (n : Nat) (r : Rec) : Bool := decide (s.slotsFor n r ≤ s.ringFree n)
/-- A record that a stream does not get: counted, or merged when it is a housekeeping record (spec/18 R355, R357). -/
def State.lose (s : State) (r : Rec) (n : Nat) : State := if codeClass r.code = 5 then s.keepHouse n r else s.dropIn n r
/-- The pending drop record of a stream comes before the next record it writes (spec/18 R355), whatever the filters of R353 say of
it: also into a stream whose all is 0 or whose cls leaves class 5 out (log 84, DESIGN CHOICE). -/
def State.putDrops (s : State) (n : Nat) : State :=
  let t := s.stream n
  if t.drops = 0 then s
  else
    let (d, s) := s.mkRec 1706 0x0500 none (BitVec.ofNat 64 t.drops) (BitVec.ofNat 64 t.firstDrop)
    let s := s.putSlot n d
    s.setStream n { s.stream n with drops := 0, firstDrop := 0 }
/-- The merged records of a source come before its next record (spec/18 R357). -/
def State.putHouse (s : State) (n src : Nat) : State :=
  let t := s.stream n
  let s := s.setStream n { t with house := t.house.filter fun x => x.source != src }
  (t.houseOf src).foldl (fun s x => s.putSlot n x) s
/-- A record reaches a stream, whose consumed is read: the pending records first; without room it is lost (spec/18 R352,
R354, R355, R357). -/
def State.deliverTo (s : State) (r : Rec) (n : Nat) : State :=
  let s := s.mscReads [(s.stream n).header + 8]
  if s.roomIn n r then ((s.putDrops n).putHouse n r.source).putSlot n r else s.lose r n
def State.streamsFor (s : State) (r : Rec) : List Nat := (upTo 16).filter fun n => (s.stream n).accepts r
def State.deliverAll (s : State) (r : Rec) (l : List Nat) : State := l.foldl (fun s n => s.deliverTo r n) s
def State.deliver (s : State) (r : Rec) : State := s.deliverAll r (s.streamsFor r)

/-- Whether a tenant's halt line is up. -/
def State.haltUp (s : State) (ten : Nat) : Bool := (Tab.find s.halts ten).isSome
/-- Harts that no stream stalls: named consumers (spec/18 R359), and tenants whose halt line is up (R360). -/
def State.isConsumer (s : State) (h : Nat) : Bool := (upTo 16).any fun n => (s.stream n).consumer == some h
def State.neverStalls (s : State) (h : Nat) : Bool := s.isConsumer h || s.haltUp (s.hart h).tenant.toNat
/-- Whether every lossless stream of some that a record is offered to has room (spec/18 R354). -/
def State.roomInAll (s : State) (r : Rec) (l : List Nat) : Bool :=
  codeClass r.code == 5 || l.all fun n => !(s.stream n).ll || s.roomIn n r
def State.losslessRoom (s : State) (r : Rec) : Bool := s.roomInAll r (s.streamsFor r)
/-- noHart stands for a record of no hart's request. -/
def noHart : Nat := 0xFFFF
/-- The records of engines that a reserve holds, of at most 4,096 (spec/18 R358). Those of harts, which R356 lets no stream
lose, wait beside them. -/
def Die.engineRecords (x : Die) : Nat := (x.reserve.filter fun e => decide (1536 ≤ e.rcd.source)).length
/-- A record into the reserve of its die's aggregator, which may hold the hart it belongs to; an engine's record that finds
the reserve full is lost in every stream it was offered to (spec/18 R358). -/
def State.reserve (s : State) (d : Nat) (r : Rec) (h : Nat) : State :=
  if 1536 ≤ r.source && decide (4096 ≤ (s.die d).engineRecords) then (s.streamsFor r).foldl (State.lose · r ·) s
  else
    let s := s.updDie d fun x => { x with reserve := x.reserve ++ [⟨r, h, s.streamsFor r⟩] }
    if h = noHart then s else s.updHart h fun x => { x with owes := NSet.add x.owes d }

/-- Whether a hart's record of a code would find room now: asked before a word that emits one (spec/18 R356). -/
def State.reelRoom (s : State) (h code : Nat) : Bool :=
  let x := s.hart h
  !x.tmask.getLsbD (codeClass code) || s.neverStalls h
    || s.losslessRoom (s.mkRec h code (some x.tenant.toNat) 0 0).1
/-- Whether an older record of a source waits in its die's reserve: records of one source keep their order (spec/18
R349). -/
def State.olderWaits (s : State) (src : Nat) : Bool := (s.die (sourceDie src)).reserve.any fun e => e.rcd.source == src
/-- The streams that a waiting record is for: those it was offered to that accept it still (spec/18 R353). -/
def State.wants (s : State) (e : Reserved) : List Nat := e.streams.filter fun n => (s.stream n).accepts e.rcd
/-- The streams that some waiting records of a source are still to reach. -/
def State.wantedBy (s : State) (src : Nat) (l : List Reserved) : List Nat :=
  (l.filter fun e => e.rcd.source == src).flatMap s.wants
/-- Whether a record is a consumer's own (spec/18 R359). -/
def State.ofConsumer (s : State) (r : Rec) : Bool := decide (r.source < 1536) && s.isConsumer r.source
/-- A record that may be lost reaches the streams of some that have room for it. It is lost in those for which an older record of its
source waits, since it may not pass that one (spec/18 R349; log 18). A consumer's that a lossless stream loses is counted (R359). -/
def State.deliverLossy (s : State) (r : Rec) (ns older : List Nat) : State :=
  let lost := codeClass r.code != 5 && s.ofConsumer r && ns.any fun n => (s.stream n).ll && (older.contains n || !s.roomIn n r)
  let s := s.deliverAll r (ns.filter (!older.contains ·))
  let s := (ns.filter older.contains).foldl (State.lose · r ·) s
  if lost then s.bumpHart r.source 17 1 else s
/-- A hart's record is offered to the streams (spec/18 R353, R356): one without room waits in the reserve, and holds
its hart; that of a hart which no stream stalls is lost where it finds none (R359, R360). -/
def State.offerHart (s : State) (h : Nat) (r : Rec) : State :=
  let s := s.bumpHart h 16 1
  if !(s.hart h).tmask.getLsbD (codeClass r.code) then s
  else if s.neverStalls h && !s.losslessRoom r then
    s.deliverLossy r (s.streamsFor r) (s.wantedBy r.source (s.die (dieOf h)).reserve)
  else if !s.olderWaits h && s.losslessRoom r then s.deliver r
  else s.reserve (dieOf h) r h
/-- Whether a record is treated as lossy: the halt line of its tenant is up (spec/18 R360), or it is a consumer's own (R359). -/
def State.lossy (s : State) (r : Rec) : Bool := (!r.nt && s.haltUp r.tenant) || s.ofConsumer r
/-- A record of an engine's event at a time (spec/18 R346, R358), for a hart's request or on its own. -/
def State.sendEngine (s : State) (time src code : Nat) (tenant : Option Nat) (mask : BitVec 16) (h : Nat) (p0 p1 : Word) : State :=
  let (r, s) := s.mkRecAt time src code tenant p0 p1
  if !mask.getLsbD (codeClass code) then s
  else if !s.olderWaits src && (s.losslessRoom r || s.lossy r) then s.deliverLossy r (s.streamsFor r) []
  else s.reserve (sourceDie src) r h
/-- A record of a hart's event at a time. -/
def State.sendHart (s : State) (h time code : Nat) (tenant : Option Nat) (p0 p1 : Word) : State :=
  let (r, s) := s.mkRecAt time h code tenant p0 p1
  s.offerHart h r
/-- A record that stood behind marks leaves its hart. -/
def State.sendBehind (h : Nat) (s : State) (b : Behind) : State :=
  match b.engine with
  | none => s.sendHart h b.time b.code b.tenant b.p0 b.p1
  | some m => s.sendEngine b.time h b.code b.tenant m noHart b.p0 b.p1
/-- A record of an event of this moment joins those behind the marks in its hart's queue: the times of a source never decrease,
and a mark's time is that of its issue (spec/18 R348, R349; log 3). -/
def State.putBehind (s : State) (h code : Nat) (tenant : Option Nat) (engine : Option (BitVec 16)) (p0 p1 : Word) : State :=
  s.updHart h fun x => { x with behind := x.behind ++
    [{ after := x.marks, time := s.tstamp (sourceDie h), code := code, tenant := tenant, engine := engine, p0 := p0, p1 := p1 }] }
/-- The first mark of a hart's queue has been executed: the records that stood behind it alone follow it. -/
def State.markDone (s : State) (h : Nat) : State :=
  let l := (s.hart h).behind.map fun b => { b with after := b.after - 1 }
  (l.filter fun b => b.after == 0).foldl (State.sendBehind h)
    (s.updHart h fun x => { x with marks := x.marks - 1, behind := l.filter fun b => b.after != 0 })
/-- The marks of a hart's queue are given up with their entries: what stood behind them follows. -/
def State.dropMarks (s : State) (h : Nat) : State :=
  if (s.hart h).marks = 0 then s
  else (s.hart h).behind.foldl (State.sendBehind h) (s.updHart h fun x => { x with marks := 0, behind := [] })
/-- A hart emits a record of an event of this moment. -/
def State.emitOf (s : State) (h code : Nat) (tenant : Option Nat) (p0 p1 : Word) : State :=
  if (s.hart h).marks = 0 then s.sendHart h (s.tstamp (sourceDie h)) code tenant p0 p1
  else s.putBehind h code tenant none p0 p1
/-- A hart emits a record of its tenant. -/
def State.emitHart (s : State) (h code : Nat) (p0 p1 : Word) : State := s.emitOf h code (some (s.hart h).tenant.toNat) p0 p1
/-- A hart emits a record of no tenant (spec/18 R347). -/
def State.emitHartNt (s : State) (h code : Nat) (p0 p1 : Word) : State := s.emitOf h code none p0 p1
/-- A hart emits the record of a mark, of the moment of its issue (spec/18 R348). -/
def State.emitHartAt (s : State) (h time code : Nat) (p0 p1 : Word) : State :=
  s.sendHart h time code (some (s.hart h).tenant.toNat) p0 p1
def State.emitMe (s : State) (code : Nat) (p0 p1 : Word) : State := s.emitHart s.cur code p0 p1
/-- An engine, or a hart slot for it, emits a record of this moment. -/
def State.emitEngine (s : State) (src code : Nat) (tenant : Option Nat) (mask : BitVec 16) (h : Nat) (p0 p1 : Word) : State :=
  if src < 1536 ∧ (s.hart src).marks ≠ 0 then s.putBehind src code tenant (some mask) p0 p1
  else s.sendEngine (s.tstamp (sourceDie src)) src code tenant mask h p0 p1

/-- Whether a die's reserve holds a record of a tenant for a stream without room. -/
def State.stuck (s : State) (ten d : Nat) : Bool :=
  (s.die d).reserve.any fun e => !e.rcd.nt && e.rcd.tenant == ten && !s.roomInAll e.rcd (s.wants e)
/-- A hart one of whose records entered a reserve is held at its boundary until that reserve holds no record of its tenant
that finds no room (spec/18 R356). -/
def State.reelHeld (s : State) (h : Nat) : Bool :=
  let x := s.hart h
  !s.neverStalls h && x.owes.any (s.stuck x.tenant.toNat)
/-- A hart owes nothing any more where no record of its tenant is stuck. -/
def State.settleOwes (s : State) (h : Nat) : State :=
  if (s.hart h).owes.isEmpty then s
  else s.updHart h fun x => { x with owes := x.owes.filter (s.stuck x.tenant.toNat) }

-- Latency capture (spec/18 R371) -----------------------------------------------------------------------------------------

def latencyBucket (u : Latency) (b : Nat) : Nat := Tab.get 0 u.buckets b
/-- One completed operation of n cycles with histogram shift sh. -/
def addLatency (u : Latency) (sh n : Nat) : Latency :=
  let n := min n (2 ^ 32 - 1)
  let b := if n < 2 ^ sh then 0 else min 15 (n.log2 - sh + 1)
  { u with count := min (u.count + 1) (2 ^ 32 - 1), sum := min (u.sum + n) (2 ^ 48 - 1),
           min := min u.min n, max := max u.max n,
           buckets := Tab.put u.buckets b (min (latencyBucket u b + 1) (2 ^ 32 - 1)) }
/-- The items at their limit, by their selector (spec/18 R372). -/
def fullItems (u : Latency) : List Nat :=
  (if u.count = 2 ^ 32 - 1 then [0] else []) ++ (if u.max = 2 ^ 32 - 1 then [2] else [])
    ++ (if u.sum = 2 ^ 48 - 1 then [3] else [])
    ++ ((upTo 16).filter fun b => latencyBucket u b == 2 ^ 32 - 1).map (16 + ·)
/-- Unit j of the hart's core captures an operation of a kind. R371 has the core emit record 0x0800, and R346 gives a core no
identifier: its source is the hart whose operation was captured (log 84, DESIGN CHOICE). -/
def State.captureIn (s : State) (h kind n j : Nat) : State :=
  let c := coreOf h
  let v := Tab.get 0 (s.core c).lcfg j
  if selects v s h && v.toNat % 16 == kind then
    let u := Tab.get {} (s.core c).latency j
    let u' := addLatency u (bitsOf v.toNat 27 24) n
    let new := (fullItems u').filter fun i => !u.said.contains i
    let s := s.updCore c fun x => { x with latency := Tab.put x.latency j { u' with said := u.said ++ new } }
    new.foldl (fun s i => s.emitHart h 0x0800 (BitVec.ofNat 64 j) (BitVec.ofNat 64 i)) s
  else s
def State.capture (s : State) (h kind n : Nat) : State :=
  [0, 1, 2, 3].foldl (fun s j => s.captureIn h kind n j) s
/-- The waits that are stalls by Reel. -/
def stallsByReel (w : Wait) : Bool :=
  match w with
  | .reel | .held => true
  | _ => false
/-- A stall by Reel ends, if the hart is in one: its length is captured and its record emitted (spec/18 R356). -/
def State.endStall (s : State) (h : Nat) : State :=
  match (s.hart h).stall with
  | none => s
  | some (since, stamp) =>
    let n := s.now - since
    let s := (s.updHart h fun x => { x with stall := none, heldAhead := false, wait := if stallsByReel x.wait then .none else x.wait }).capture h 7 n
    s.emitHartNt h 0x0501 (BitVec.ofNat 64 stamp) (BitVec.ofNat 64 n)
/-- A stall by Reel that a word ends: not one of the issue behind it, which lasts until the hart is no longer held (spec/18
R356). -/
def State.endWordStall (s : State) (h : Nat) : State := if (s.hart h).heldAhead then s else s.endStall h
/-- Issue behind the queue is held by Reel: the stall begins, if the hart is in none (spec/18 R356). -/
def State.holdAhead (s : State) (h : Nat) : State :=
  s.updHart h fun x => { x with heldAhead := true, stall := x.stall <|> some (s.now, s.tstamp (dieOf h)) }
/-- A hart that Reel no longer holds may issue behind its queue again: the stall ends, unless a word waits for Reel itself. -/
def State.endHold (s : State) (h : Nat) : State :=
  if !(s.hart h).heldAhead || s.reelHeld h then s
  else if stallsByReel (s.hart h).wait then s.updHart h fun x => { x with heldAhead := false }
  else s.endStall h
/-- Waits: the hart is not ready and executes the word again (spec/07 R162). The start of the wait is kept, and a stall by Reel
lasts while the hart waits for Reel (spec/18 R356). -/
def State.waitFor (s : State) (h : Nat) (w : Wait) : State :=
  let s := if stallsByReel w then s else s.endWordStall h
  s.updHart h fun x =>
    { x with wait := w, waitSince := if x.wait = w then x.waitSince else s.now,
             stall := if stallsByReel w then x.stall <|> some (s.now, s.tstamp (dieOf h)) else x.stall }
/-- Ends the word in a wait of the executing hart. -/
def waitHere {α : Type} (w : Wait) : Op α := fun s => .error (s.waitFor s.cur w)

-- Halt lines (spec/16 R331, R332) -------------------------------------------------------------------------------------------

/-- Raises a tenant's halt line; a second fault of the tenant raises nothing new, and no later write is performed for it
(spec/16 R333). Gangs taken and not completed are affected (R335); held emission records of the tenant are discarded
(spec/19 R391, R398). The record of a hart origin passes the hart's filter (spec/18 R353). -/
def State.raiseHalt (s : State) (ten origin : Nat) (cause value : Word) : State :=
  if s.haltUp ten then s
  else
    let s := s.discardWrites ten
    let s := { s with halts := Tab.put s.halts ten ⟨origin, cause, value, []⟩,
                      gangs := s.gangs.map fun (g : Gang) =>
                        if bitsOf g.blk.w2.toNat 51 40 == ten then { g with affected := true } else g,
                      journals := s.journals.map fun (e : Nat × Journal) =>
                        if e.2.ten.toNat == ten then (e.1, { e.2 with held := [] }) else e }
    if origin < 1536 then
      (s.bumpHart origin 16 1).emitEngine origin 0x0402 (some ten) (s.hart origin).tmask noHart (BitVec.ofNat 64 ten)
        (BitVec.ofNat 64 origin)
    else s.emitEngine origin 0x0402 (some ten) 0xFFFF noHart (BitVec.ofNat 64 ten) (BitVec.ofNat 64 origin)

end Sys2Proof.Machine
end

