-- ==== Sys2Proof/Machine/Translate.lean ====
section
/-!
DEFINITION. Address translation (spec/14 R293 to R297): the walk, its faults, the translation caches, and the range
of attributes a leaf carries.
-/
namespace Sys2Proof.Machine

/-- The walk's index of a virtual address at a level (spec/14 R293). -/
def levelIndex (level va : Nat) : Nat :=
  match level with
  | 0 => bitsOf va 56 48
  | 1 => bitsOf va 47 39
  | 2 => bitsOf va 38 30
  | 3 => bitsOf va 29 21
  | _ => bitsOf va 20 16
/-- The leaf that tbase.en = 0 stands for: R, W and X, no attribute (spec/14 R296). -/
def identityLeaf : Nat := 0x1F

/-- Whether an entry breaks a rule of its form (spec/14 R293, R294 sub-code 8; spec/16 R326). -/
def malformed (level e : Nat) : Bool :=
  bitsOf e 63 52 != 0 ||
  (if bitOf e 1 then
    decide (level < 2) || bitsOf e 15 14 != 0 || leafPage e % 2 ^ levelShift level != 0
      || (leafM e && servedBy (leafPage e) != .stack 0 && servedBy (leafPage e) != .stack 1)
  else
    level == 4 || bitsOf e 7 2 != 0 || (decide (level < 3) && bitsOf e 15 8 != 0))
/-- The table that a pointer names. -/
def nextTable (e : Nat) : Nat := bitsOf e 51 8 * 2 ^ 8

/-- The walk from a table, over the levels left (spec/14 R293, R294): the leaf with its level, or a sub-code. -/
def State.walkFrom (s : State) (die va : Nat) : List Nat → Nat → Except Nat (Nat × Nat)
  | [], _ => .error 8
  | level :: rest, table =>
    let at_ := table + 8 * levelIndex level va
    if s.readHomePoison die at_ 8 then .error 9
    else
      let e := s.readHome at_ 8
      if !bitOf e 0 then .error 1
      else if malformed level e then .error 8
      else if bitOf e 1 then .ok (e, level)
      else s.walkFrom die va rest (nextTable e)
/-- The addresses of the entries that a walk reads. -/
def State.walkReads (s : State) (die va : Nat) : List Nat → Nat → List Nat
  | [], _ => []
  | level :: rest, table =>
    let at_ := table + 8 * levelIndex level va
    let e := s.readHome at_ 8
    if s.readHomePoison die at_ 8 || !bitOf e 0 || malformed level e || bitOf e 1 then [at_]
    else at_ :: s.walkReads die va rest (nextTable e)
/-- TRANSLATION_WALK: a walk from the root that a tbase names. -/
def State.walk (s : State) (die root va : Nat) : Except Nat (Nat × Nat) := s.walkFrom die va [0, 1, 2, 3, 4] root
def tbaseRoot (t : Word) : Nat := bitsOf t.toNat 51 12 * 2 ^ 12
def tbaseEn (t : Word) : Bool := t.getLsbD 0

def tlbFind (l : List TlbEntry) (root va : Nat) : Option TlbEntry :=
  l.find? fun e => e.root == root && e.page == va / 2 ^ levelShift e.level
/-- A leaf enters the core's and the cluster's translation caches, oldest out first (spec/14 R295, log 9). -/
def State.tlbFill (s : State) (core root va level leaf : Nat) : State :=
  let e : TlbEntry := ⟨root, va / 2 ^ levelShift level, level, leaf⟩
  let s := s.updCore core fun c => { c with tlb := (e :: c.tlb.filter (· != e)).take 64 }
  s.updCluster (core / 8) fun c => { c with tlb := (e :: c.tlb.filter (· != e)).take 4096 }

/-- The permission checks on the leaf (spec/14 R294): the first sub-code that applies, of 3, 6 and 7 in this order
(log 73, DESIGN CHOICE). width is the bytes of a store
that may contribute to a commutative page, 0 for one that may not (spec/14 R290). -/
def leafFault (leaf : Nat) (user : Bool) (kind : AccKind) (width : Nat) : Option Nat :=
  if user && !leafU leaf then some 5
  else
    let mode := leafC leaf
    let storeBad := if leafS leaf then some 6
      else if mode != 0 && width != (if mode = 2 then 2 else 4) then some 7 else none
    match kind with
    | .load => if leafR leaf then none else some 2
    | .store => if leafW leaf then storeBad else some 3
    | .both => if !leafW leaf then some 3 else if !leafR leaf then some 2 else storeBad
    | .fetch => if leafX leaf then none else some 4
    | .cache => none

/-- A translation found. -/
structure Trans where
  pa : Nat
  leaf : Nat
  level : Nat
  deriving DecidableEq, Repr

/-- The physical address a leaf gives on a die: the die's own replica on a replicated page (spec/16 R326). -/
def leafAddr (leaf level va die : Nat) : Nat :=
  leafPage leaf + va % 2 ^ levelShift level + (if leafM leaf then die * 0x2000000000 else 0)
/-- The sub-code of an access that its leaf refuses: by its permissions, or a user access to the management window as sub-code 5
(spec/16 R318, log 28). -/
def leafRefuses (leaf level va die : Nat) (user : Bool) (kind : AccKind) (width : Nat) : Option Nat :=
  match leafFault leaf user kind width with
  | some sub => some sub
  | none => if user && servedBy (leafAddr leaf level va die) == .mgmt then some 5 else none

/-- Finds the leaf for an address: the core's cache, its cluster's, or a walk. -/
def State.findLeaf (s : State) (h va : Nat) : Except Nat (Nat × Nat × Bool) :=
  let c := coreOf h
  let root := tbaseRoot (s.hart h).tbase
  match tlbFind (s.core c).tlb root va with
  | some e => .ok (e.leaf, e.level, true)
  | none => match tlbFind (s.cluster (clusterOf h)).tlb root va with
    | some e => .ok (e.leaf, e.level, false)
    | none => match s.walk (dieOf h) root va with
      | .ok (leaf, level) => .ok (leaf, level, false)
      | .error sub => .error sub
/-- The reads of a walk, where no translation cache holds the leaf, on their path to memory (spec/14 R293, spec/16 R321). -/
def State.walkTouch (s : State) (h va : Nat) : State :=
  let root := tbaseRoot (s.hart h).tbase
  if (tlbFind (s.core (coreOf h)).tlb root va).isSome || (tlbFind (s.cluster (clusterOf h)).tlb root va).isSome then s
  else (s.walkReads (dieOf h) va [0, 1, 2, 3, 4] root).foldl (fun s a => s.mscReads [a]) s
/-- Translates an address for a hart (spec/14 R293 to R296): the translation, or its sub-code; and the state with the
translation cached, which one that faults never is (spec/14 R295). -/
def State.translate (s : State) (h va : Nat) (kind : AccKind) (width : Nat) (sup : Bool) : Except Nat Trans × State :=
  let x := s.hart h
  if !tbaseEn x.tbase then
    if 2 ^ 52 ≤ va then (.error 1, s)
    else if !sup then (.error 5, s)
    else (.ok ⟨va, identityLeaf, 4⟩, s)
  else
    let a := va % 2 ^ 57
    match s.findLeaf h a with
    | .error sub => (.error sub, (s.walkTouch h a).bumpHart h 6 1)
    | .ok (leaf, level, hit) =>
      let s := if hit then s else (s.walkTouch h a).bumpHart h 6 1
      match leafRefuses leaf level a (dieOf h) (!sup) kind width with
      | some sub => (.error sub, s)
      | none => (.ok ⟨leafAddr leaf level a (dieOf h), leaf, level⟩, s.tlbFill (coreOf h) (tbaseRoot x.tbase) a level leaf)

/-- The cause and sub-code of a check (spec/11 R218). -/
structure Bad where
  cause : Nat
  sub : Nat := 0
  deriving DecidableEq, Repr

/-- Bits [63:57] of an address copy bit 56 (spec/03 R62, spec/14 R293). -/
def canonical (ea : Word) : Bool :=
  let top := bitsOf ea.toNat 63 56
  top == 0 || top == 255
/-- row_check and scalar_check of spec/03 R62 and spec/07 R157, for a hart: the translation, or the first fault. -/
def State.check (s : State) (h : Nat) (ea : Word) (n : Nat) (o : Orient) (kind : AccKind) (width : Nat) (sup : Bool) :
    Except Bad Trans × State :=
  if !canonical ea then (.error ⟨0x08, 0⟩, s)
  else if ea.toNat % n != 0 then (.error ⟨0x09, 0⟩, s)
  else match s.translate h ea.toNat kind width sup with
    | (.error sub, s) => (.error ⟨0x0A, sub⟩, s)
    | (.ok t, s) => if o = .col && !leafO t.leaf then (.error ⟨0x0B, 0⟩, s) else (.ok t, s)

/-- Drops the entries of every translation cache and unit that cover a page (spec/14 R296). size 3 drops all. -/
def tlbCovers (va size : Nat) (e : TlbEntry) : Bool :=
  if size = 3 then true
  else
    let shift := max (levelShift e.level) (if size = 2 then 30 else if size = 1 then 21 else 16)
    e.page * 2 ^ levelShift e.level / 2 ^ shift == va / 2 ^ shift
def State.tlbDrop (s : State) (va size : Nat) : State :=
  { s with cores := s.cores.map fun (e : Nat × Core) => (e.1, { e.2 with tlb := e.2.tlb.filter fun t => !tlbCovers va size t }),
           clusters := s.clusters.map fun (e : Nat × Cluster) => (e.1, { e.2 with tlb := e.2.tlb.filter fun t => !tlbCovers va size t }) }
/-- A write of tinv (TINV_WRITE, spec/14 R296). -/
def State.writeTinv (s : State) (v : Word) : State :=
  let v' := BitVec.ofNat 64 (bitsOf v.toNat 56 16 * 2 ^ 16 + v.toNat % 4)
  { s.tlbDrop (bitsOf v.toNat 56 16 * 2 ^ 16) (v.toNat % 4) with tinv := v' }

end Sys2Proof.Machine
end

