-- ==== Sys2Proof/Machine/Ops.lean ====
section
/-!
DEFINITION. The operations the meanings share: taking an exception and returning from one (spec/11 R218 to R228),
waiting, checked loads and stores of a hart, commutative pages (spec/14 R290), acquires and releases (spec/14 R279),
atomics (spec/13 R272 to R275), and instruction fetch.
-/
namespace Sys2Proof.Machine

-- Entries of the interlock table that words hold (spec/13 R264) ------------------------------------------------------------

/-- The first entry of the interlock table that a hart's queue holds: that of the word or the run which goes first. -/
def dropHead (h : Nat) : List Interlock → List Interlock
  | [] => []
  | e :: l => if e.hart == h && e.copy == 0 then l else e :: dropHead h l
def State.freeHead (s : State) (h : Nat) : State := s.updCore (coreOf h) fun c => { c with interlocks := dropHead h c.interlocks }
/-- The entry that the word at the pc holds while it waits leaves the table. -/
def State.letGo (s : State) (h : Nat) : State :=
  if (s.hart h).holds then (s.freeHead h).updHart h fun x => { x with holds := false } else s

-- Taking an exception --------------------------------------------------------------------------------------------------

/-- What a trap says (spec/11 R218, R221, R224). tpc is the return address. -/
structure Trap where
  cause : Nat
  sub : Nat := 0
  value : Word := 0
  async : Bool := false
  tpc : Word
  aux : Word := 0
  word : Option Nat := none
  pos : Option Nat := none
  mask : Option Nat := none
  deriving DecidableEq, Repr

/-- Bytes an entry of the strip store buffer holds. -/
def bufferBytes (b : List BufEntry) : Nat := b.foldl (fun n e => n + e.bytes) 0
/-- hstat (spec/07 R149). -/
def Hart.hstat (h : Hart) : Word := BitVec.ofNat 64 ((if h.sup then 2 else 0) + (if h.matrix then 1 else 0))
/-- The context tag, tscratch [63:48] (spec/11 R222). -/
def Hart.ctx (h : Hart) : BitVec 16 := h.tscratch.extractLsb' 48 16
/-- The value of tcause that a trap writes (spec/11 R221, R223). -/
def trapCause (h : Hart) (t : Trap) : Word :=
  BitVec.ofNat 64 ((if t.async then 2 ^ 63 else 0) + (if h.sup then 2 ^ 62 else 0)
    + (if (t.mask <|> h.armed).isSome then 2 ^ 61 else 0) + t.sub % 256 * 2 ^ 16 + t.cause % 256)
/-- The 256 bytes of a trap record (spec/11 R224). -/
def trapRecord (h : Hart) (t : Trap) (clk : Word) : List Byte :=
  let mask := t.mask <|> h.armed
  bytesLE 8 t.tpc.toNat ++ bytesLE 8 (trapCause h t).toNat ++ bytesLE 8 t.value.toNat ++ bytesLE 8 t.aux.toNat
    ++ bytesLE 8 ((if mask.isSome then 2 ^ 34 else 0) + (if t.word.isSome then 2 ^ 33 else 0)
        + (if t.pos.isSome then 2 ^ 32 else 0) + t.word.getD 0 % 2 ^ 16 * 2 ^ 16 + t.pos.getD 0 % 2 ^ 16)
    ++ bytesLE 8 h.stripBase.toNat ++ bytesLE 8 (bufferBytes h.buffer % 2 ^ 32 * 2 ^ 32 + h.buffer.length)
    ++ bytesLE 8 clk.toNat ++ bytesLE 64 0 ++ bytesLE 128 (mask.getD 0)

/-- A hart's store of some bytes through a line, whose tenant is then the last that wrote them (spec/16 R333). -/
def State.storeFor (s : State) (h : Nat) (key : LineKey) (o : Bool) (hint : Hint) (pa : Nat) (bs : List Byte) : State :=
  let (k, ten, pas) := (clusterOf h, (s.hart h).tenant.toNat, (upTo bs.length).map (pa + ·))
  ((s.partTenants k ten pas).storeBytes (coreOf h) key o hint pa bs).ownBytes k ten pas
/-- Stores bytes of one page at a physical address in pieces of one line; o says that the page has attribute O. -/
def State.storeLines (s : State) (h : Nat) (o : Bool) (pa : Nat) (bs : List Byte) : Nat → State
  | 0 => s
  | n + 1 =>
    let room := 64 - pa % 64
    let now := bs.take room
    let pas := (upTo now.length).map (pa + ·)
    let s := if now.isEmpty then s
      else (s.storeFor h (.row (pa / 64)) o .none pa now).wakeOthers none pas
    State.storeLines s h o (pa + now.length) (bs.drop room) n
/-- Writes the trap record at tinfo as a supervisor store; none when the store faults (spec/11 R221, R224). -/
def State.writeTrapRecord (s : State) (h : Nat) (bs : List Byte) : Option State :=
  match s.check h (s.hart h).tinfo 8 .row .store 0 true with
  | (.ok t, s) => some (s.storeLines h (leafO t.leaf) t.pa bs 8)
  | (.error _, _) => none
/-- context_halt: raises the halt line of the hart's tenant (spec/16 R332). -/
def State.contextHalt (s : State) (h : Nat) (cause value : Word) : State :=
  s.raiseHalt (s.hart h).tenant.toNat h cause value
/-- take_trap of spec/11 R221: the record is written, tpc, tcause and tval are saved, the level becomes supervisor
and the pc goes to tvec. Without a handler or a record area, or when the record cannot be written, the context
halts. A stall by Reel ends with it (spec/18 R356), the marks that stand behind it in the queue have no effect (spec/11 R219), and a
word that waited gives up its interlock entry. -/
def State.takeTrap (s : State) (h : Nat) (t : Trap) : State :=
  let s := ((s.letGo h).endStall h).dropMarks h
  let x := s.hart h
  let cause := trapCause x t
  if x.tvec = 0 || x.tinfo = 0 then s.contextHalt h cause t.value
  else match s.writeTrapRecord h (trapRecord x t s.clk) with
    | none => s.contextHalt h cause t.value
    | some s =>
      let s := s.updHart h fun x =>
        { x.goTo x.tvec with tpc := t.tpc, tcause := cause, tval := t.value, sup := true, armed := none }
      (s.bumpHart h 9 1).emitHart h 0x0100 cause t.value
/-- Whether a copy the hart issued is still in flight: it holds back traps and halts (spec/13 R263). -/
def State.copying (s : State) (h : Nat) : Bool := (s.cluster (clusterOf h)).copies.any fun c => c.hart == h
/-- Ends the word in a synchronous trap, which waits for the hart's copies (spec/13 R263). -/
def takeHere {α : Type} (t : Trap) : Op α := fun s =>
  if s.copying s.cur then .error (s.waitFor s.cur .copies) else .error (s.takeTrap s.cur t)
/-- A trap of the executing word. -/
def trap {α : Type} (cause sub : Nat) (value : Word) : Op α := fun s =>
  takeHere { cause := cause, sub := sub, value := value, tpc := s.me.pc } s
/-- The word of an instruction as a trap value. -/
def wordOf (i : Instr) : Word := BitVec.ofNat 64 ((encode i).map (·.2)).get!
/-- Words of supervisor level (spec/11 R226): the privilege trap at user level, with the word as value. -/
def needSupervisor (i : Instr) : Op Unit := do
  if (← ask fun s => s.me.sup) then pure () else trap 0x03 0 (wordOf i)
/-- Consumption of poison: fatal, raises the halt line (spec/16 R325). -/
def consumePoison {α : Type} (va : Word) : Op α := fun s =>
  .error (s.contextHalt s.cur (BitVec.ofNat 64 ((if s.me.sup then 2 ^ 62 else 0) + 0x1A)) va)

-- Interlock table (spec/13 R264, R265) -----------------------------------------------------------------------------------

def rangeMeets : Range → Range → Bool
  | .empty, _ | _, .empty => false
  | .all, _ | _, .all => true
  | .span a b, .span c d => decide (a ≤ d) && decide (c ≤ b)
/-- The entries of a hart that an access conflicts with. The words of the vector queue that precede an access are complete
when it is made, so that only entries of copies are left to consult. -/
def State.conflicts (s : State) (h : Nat) (rd wr : Range) : List Interlock :=
  (s.core (coreOf h)).interlocks.filter fun e =>
    e.hart == h && e.copy != 0 && (rangeMeets wr e.rd || rangeMeets wr e.wr || rangeMeets rd e.wr)
/-- Waits while an access conflicts (INTERLOCK_WAIT_END); State.passTime counts the cycles. -/
def awaitInterlock (rd wr : Range) : Op Unit := do
  if (← ask fun s => (s.conflicts s.cur rd wr).isEmpty) then pure () else waitHere .interlock
def spanOf (ea : Word) (n : Nat) : Range := if n = 0 then .empty else .span ea.toNat (ea.toNat + n - 1)
/-- A later access by a hart to the bytes of an emission record it holds waits until it is written (spec/19 R391); the
bytes are compared at their physical addresses. -/
def State.emissionMeets (s : State) (h pa n : Nat) : Bool :=
  s.journals.any fun e => e.2.held.any fun r => r.hart == h && decide (pa < r.pa + 16) && decide (r.pa < pa + n)
def awaitEmission (pa n : Nat) : Op Unit := do
  if (← ask fun s => s.emissionMeets s.cur pa n) then waitHere .emitted
/-- Waits for a free place in the interlock table (spec/13 R264). -/
def awaitTable : Op Unit := do
  if (← ask fun s => decide (32 ≤ s.myCore.interlocks.length)) then waitHere .table
/-- What a release waits for: the hart's interlock entries and its held emission records (spec/13 R266, spec/19
R391). -/
def State.releaseBusy (s : State) (h : Nat) : Option Wait :=
  if (s.core (coreOf h)).interlocks.any (fun e => e.hart == h) then some .interlock
  else if s.journals.any (fun e => e.2.held.any fun r => r.hart == h) then some .emitted
  else none
def awaitRelease : Op Unit := do
  match ← ask fun s => s.releaseBusy s.cur with
  | some w => waitHere w
  | none => pure ()

-- Checks and watchpoints ------------------------------------------------------------------------------------------------

/-- scalar_check (spec/07 R157): raises the first fault, with ea as value. -/
def scalarCheck (ea : Word) (n : Nat) (o : Orient) (kind : AccKind) (width : Nat) : Op Trans := fun s =>
  match s.check s.cur ea n o kind width s.me.sup with
  | (.ok t, s) => .ok (t, s)
  | (.error b, s) => trap b.cause b.sub ea s
/-- The comparators of the hart's core that match an access (spec/18 R373). -/
def State.watchHits (s : State) (h : Nat) (ea : Word) (n : Nat) (ld st : Bool) : Nat :=
  let c := s.core (coreOf h)
  (upTo 8).foldl (fun m j =>
    let v := Tab.get 0 c.wctl j
    let lo := (Tab.get 0 c.wlo j).toNat % 2 ^ 57
    let hi := (Tab.get 0 c.whi j).toNat % 2 ^ 57
    let a := ea.toNat % 2 ^ 57
    if selects v s h && ((ld && v.getLsbD 0) || (st && v.getLsbD 1)) && decide (lo ≤ hi) && decide (a ≤ hi) && decide (lo ≤ a + n - 1)
    then m + 2 ^ j else m) 0
/-- The watchpoint trap of a scalar access (spec/18 R374): lane mask 0. -/
def watch (ea : Word) (n : Nat) (ld st : Bool) : Op Unit := do
  let hits ← ask fun s => s.watchHits s.cur ea n ld st
  if hits ≠ 0 then
    fun s => takeHere { cause := 0x21, value := BitVec.ofNat 64 hits, tpc := s.me.pc, pos := some 0 } s

-- Commutative pages (spec/14 R290) ----------------------------------------------------------------------------------------

def commWidth (mode : Nat) : Nat := if mode = 2 then 2 else 4
def commIdentity (mode : Nat) : Nat :=
  match mode with
  | 1 => 0x80000000
  | 2 => 0x8000
  | 4 => 0x7F800000
  | 5 => 0xFF800000
  | 6 => 0x7FFFFFFF
  | 7 => 0x80000000
  | _ => 0
/-- op(u, v): no flush, no flag; a NaN sum is the canonical NaN. -/
def commOp (mode u v : Nat) : Nat :=
  match mode with
  | 1 => (fAdd .f32 0 .rne (valueOf .f32 u) (valueOf .f32 v)).bits
  | 2 => (fAdd .bf16 0 .rne (valueOf .bf16 u) (valueOf .bf16 v)).bits
  | 3 => (u + v) % 2 ^ 32
  | 4 => (fMinMax .f32 0 false u v).bits
  | 5 => (fMinMax .f32 0 true u v).bits
  | 6 => if sextN u 32 ≤ sextN v 32 then u else v
  | 7 => if sextN u 32 ≤ sextN v 32 then v else u
  | _ => v
/-- A core's partial among the contributions to an element: its own, in the order of their service, each folded under the mode it
was made under, from the identity. -/
def corePartial (core : Nat) (l : List Contribution) : Option Nat :=
  (l.filter fun p => p.core == core).foldl (fun u p => some (commOp p.mode (u.getD (commIdentity p.mode)) p.val)) none
/-- The partials of an element held on a die, in ascending package core index. -/
def State.partialsOn (s : State) (d pa : Nat) : List Nat :=
  let l := (clustersOfDie d).flatMap fun k => (s.cluster k).partials.filter fun p => p.pa == pa
  ((upTo 96).map (96 * d + ·)).filterMap fun c => corePartial c l
/-- combine(e) (spec/14 R290); the element is read on its path to memory (spec/16 R321). -/
def State.combine (s : State) (mode pa : Nat) : State :=
  let w := commWidth mode
  let v := [0, 1, 2, 3].foldl (fun v d =>
    commOp mode v ((s.partialsOn d pa).foldl (commOp mode) (commIdentity mode))) (s.readHome pa w)
  let s := { s with clusters := s.clusters.map fun (e : Nat × Cluster) =>
              (e.1, { e.2 with partials := e.2.partials.filter fun p => p.pa != pa }) }
  (s.mscReads ((upTo w).map (pa + ·))).writeHome (homeDie pa) pa w v
/-- Combines every element that some bytes touch. -/
def State.combineRange (s : State) (mode pa n : Nat) : State :=
  let w := commWidth mode
  (upTo ((pa + n - 1) / w + 1 - pa / w)).foldl (fun s i => s.combine mode (w * (pa / w + i))) s
/-- The commutative elements with a partial somewhere that some bytes touch, each with its mode. -/
def State.touchedElements (s : State) (pas : List Nat) : List (Nat × Nat) :=
  ((s.clusters.flatMap fun e => e.2.partials).filter fun p =>
    pas.any fun a => decide (p.pa ≤ a) && decide (a < p.pa + commWidth p.mode)).map fun p => (p.mode, p.pa)
/-- Before an access by the host or a peer, which has no leaf to name a mode: the home combines every element that its
bytes touch (spec/14 R290; log 53). -/
def State.combineTouched (s : State) (pas : List Nat) : State :=
  (s.touchedElements pas).eraseDups.foldl (fun s x => s.combine x.1 x.2) s
/-- A contribution of the core (spec/14 R290), kept with its tenant behind the earlier ones. -/
def State.contribute (s : State) (core ten mode pa v : Nat) : State :=
  s.updCluster (core / 8) fun c => { c with partials := c.partials ++ [⟨core, mode, pa, v, ten⟩] }
/-- Before a load: the elements of a commutative page are combined at the home, and the loader's copies go. -/
def State.beforeLoad (s : State) (core : Nat) (t : Trans) (n : Nat) : State :=
  if leafC t.leaf = 0 then s
  else (s.dropLines (core / 8) (s.inGranule t.pa)).combineRange (leafC t.leaf) t.pa n

-- Loads and stores of a hart --------------------------------------------------------------------------------------------

/-- The bytes a load of the management window returns: free values, a fresh one each time (log 11). -/
def State.mgmtBytes (s : State) (pa n : Nat) : List Byte × State :=
  ((upTo n).map fun i => Config.mgmtByte (pa + i) s.draws, { s with draws := s.draws + 1 })
/-- Reads n bytes at a translated address (spec/12 R245, R247): the number, poison, and the caches after it. -/
def State.readAt (s : State) (h : Nat) (t : Trans) (n : Nat) (o : Orient) (hint : Hint) (scalar : Bool) :
    Nat × Bool × State :=
  let core := coreOf h
  if servedBy t.pa = .mgmt then
    let (bs, s) := s.mgmtBytes t.pa n
    (leOf bs, false, s)
  else
    let s := s.beforeLoad core t n
    let s := s.loadFill core t.pa n (lineFor o n t.pa) (leafO t.leaf) hint scalar
    let (bs, bad) := s.bytesAt core t.pa n
    (leOf bs, bad, s.touch (core / 8) core ((upTo n).map (t.pa + ·)))
/-- Writes n bytes at a translated address: a store, or a contribution on a commutative page; a store to the
management window sets the word there (log 11). A store to a host-shared page goes through to its home, so that the
host sees stores in the order in which they take effect (spec/16 R330). -/
def State.writeAt (s : State) (h : Nat) (t : Trans) (n : Nat) (o : Orient) (hint : Hint) (v : Nat) : State :=
  if servedBy t.pa = .mgmt then { s with mgmt := Tab.put s.mgmt t.pa (BitVec.ofNat 64 (v % 2 ^ (8 * n))) }
  else if leafC t.leaf ≠ 0 then s.contribute (coreOf h) (s.hart h).tenant.toNat (leafC t.leaf) t.pa (v % 2 ^ (8 * n))
  else
    let pas := (upTo n).map (t.pa + ·)
    let s := (s.storeFor h (lineFor o n t.pa) (leafO t.leaf) hint t.pa (bytesLE n v)).wakeOthers (some h) pas
    if leafH t.leaf then s.drainBytes (clusterOf h) fun a => pas.contains a else s

-- Returning from a trap (spec/11 R225, R228) --------------------------------------------------------------------------------

/-- The completion mask that tret finds in the record area (spec/11 R225): none where the area cannot be read, or
poison (spec/16 R325). -/
inductive MaskRead where
  | mask (v : Nat) | fault | poison
  deriving DecidableEq, Repr
/-- The 128 bytes of the mask are two lines, loaded as any supervisor load. -/
def State.readMask (s : State) (h : Nat) : MaskRead × State :=
  match s.check h (s.hart h).tinfo 8 .row .load 0 true with
  | (.error _, s) => (.fault, s)
  | (.ok t, s) =>
    let (lo, bad, s) := s.readAt h { t with pa := t.pa + 0x80 } 64 .row .none false
    let (hi, bad', s) := s.readAt h { t with pa := t.pa + 0xC0 } 64 .row .none false
    (if bad || bad' then .poison else .mask (lo + hi * 2 ^ 512), s)
/-- The pc and the level return (spec/11 R228); a stop message taken may be followed by another (spec/16 R336). -/
def Hart.fromTrap (x : Hart) (armed : Option Nat) (mv : Bool) : Hart :=
  { x.goTo x.tpc with sup := x.tcause.getLsbD 62, armed := armed,
                      tcause := if mv then x.tcause &&& ~~~(1#64 <<< 61) else x.tcause,
                      stopTaken := x.stopTaken && !(x.tcause.getLsbD 63 && x.tcause.toNat % 256 == 0x41) }
/-- TRET (spec/11 R228): the pc and the level return; a saved completion mask is armed (R225). Poison in the mask is
consumed by the load (spec/16 R325). Where the record area cannot be read the word returns with nothing armed and mv
cleared (log 67, DESIGN CHOICE: R225 names no fault of this load). -/
def State.returnFromTrap (s : State) (h : Nat) : State :=
  let x := s.hart h
  let back := fun (s : State) (armed : Option Nat) (mv : Bool) =>
    (s.updHart h fun y => y.fromTrap armed mv).emitHart h 0x0101 x.tpc 0
  if x.tcause.getLsbD 61 then
    match s.readMask h with
    | (.mask v, s) => back s (some v) true
    | (.fault, s) => back s none true
    | (.poison, s) => s.contextHalt h (BitVec.ofNat 64 ((if x.sup then 2 ^ 62 else 0) + 0x1A)) (x.tinfo + 0x80)
  else back s x.armed false

/-- Cycles from the issue of the executing word to this one (log 2). -/
def State.opCycles (s : State) : Nat := s.now - s.me.issuedAt + 1
/-- Whether a scalar load hits the core's data cache. -/
def State.dcacheHit (s : State) (h pa : Nat) : Bool := (s.core (coreOf h)).dcache.any fun l => l.holds pa
/-- A scalar load (spec/07 R157): checks, watchpoints, waits, then the value as loaded. -/
def loadScalar (ea : Word) (n : Nat) (o : Orient) (hint : Hint) : Op Nat := do
  let t ← scalarCheck ea n o .load 0
  watch ea n true false
  awaitInterlock (spanOf ea n) .empty
  awaitEmission t.pa n
  let hit ← ask fun s => s.dcacheHit s.cur t.pa
  let (v, bad) ← (fun s => let (v, bad, s) := s.readAt s.cur t n o hint true; .ok ((v, bad), s) : Op (Nat × Bool))
  upd fun s =>
    let s := (s.chargeMe 1 1).bumpMe 3 1
    let s := s.capture s.cur 0 s.opCycles
    if hit then s else (s.bumpMe 5 1).capture s.cur 1 s.opCycles
  if bad then consumePoison ea else pure v
/-- The number that a scalar load within another word gives: a table read of jtab (spec/07 R156), the entry of a jput (spec/19
R389). Poison is consumed. -/
def peekLoad (ea : Word) (t : Trans) (n : Nat) : Op Nat := do
  let (v, poison) ← ask fun s => let (v, p, _) := s.readAt s.cur t n .row .none true; (v, p)
  if poison then consumePoison ea else pure v
/-- The same load as the caches, the counters and the energy charge see it, once its word completes (spec/11 R240, spec/18 R365). No
latency unit captures it: kinds 0 and 1 are taken of the load words (log 82, DESIGN CHOICE). -/
def State.innerLoad (s : State) (t : Trans) (n : Nat) : State :=
  let hit := s.dcacheHit s.cur t.pa
  let (_, _, s) := s.readAt s.cur t n .row .none true
  let s := (s.chargeMe 1 1).bumpMe 3 1
  if hit then s else s.bumpMe 5 1
/-- A scalar store (spec/07 R157). -/
def storeScalar (ea : Word) (n : Nat) (o : Orient) (hint : Hint) (v : Nat) : Op Unit := do
  let t ← scalarCheck ea n o .store n
  watch ea n false true
  awaitInterlock .empty (spanOf ea n)
  awaitEmission t.pa n
  upd fun s => ((s.writeAt s.cur t n o hint v).chargeMe 1 1).bumpMe 4 1

-- Acquires and releases (spec/14 R279, R281, R287) -------------------------------------------------------------------------

def scopeWide (c : Scope) : Bool :=
  match c with
  | .hart | .core | .clus => false
  | _ => true
def scopePackage (c : Scope) : Bool :=
  match c with
  | .pkg | .sys => true
  | _ => false
def LineKeyHome (k : LineKey) : Nat := homeDie (k.byteAt 0)
/-- Drains what a core wrote and read and its cluster holds dirty; its release records have then been served (spec/14
R279). -/
def State.drainCore (s : State) (core : Nat) : State :=
  let s := s.drainBytes (core / 8) fun pa => (s.cluster (core / 8)).touchedBy core pa
  [0, 1, 2, 3].foldl (fun s d => if (s.die d).releases.any fun r => r.core == core then
    s.updDie d fun x => { x with releases := x.releases.filter fun r => r.core != core } else s) s
/-- A wide acquire on a die throws away the copies of lines homed elsewhere (spec/14 R278, R282; log 19). -/
def State.dropRemote (s : State) (d : Nat) : State :=
  (clustersOfDie d).foldl (fun s k => s.dropLines k fun l => LineKeyHome l != d) s
/-- Copies of recorded lines on a die are dropped (spec/14 R279). -/
def State.dropRecorded (s : State) (d : Nat) (keys : List LineKey) : State :=
  if keys.isEmpty then s
  else (clustersOfDie d).foldl (fun s k => s.dropLines k fun l =>
    LineKeyHome l != d && keys.any fun r => r.bytes.any l.holds) s
/-- Collects release records for an acquirer on a die: every recorded core drains, recorded lines go. -/
def State.collect (s : State) (d : Nat) (rs : List Release) : State :=
  rs.foldl (fun s r => (s.drainCore r.core).dropRecorded d r.lines) s
/-- What an acquire does beyond reading (spec/14 R279, R281, R282). It takes over what its cluster holds dirty, so that a later
wide release covers what a narrow release of its cluster published; a wide one also collects the records. -/
def State.acquireSide (s : State) (h : Nat) (c : Scope) (rs : List Release) : State :=
  let s := s.touchDirty (clusterOf h) (coreOf h)
  if !scopeWide c then s else (s.collect (dieOf h) rs).dropRemote (dieOf h)
/-- A fence or unit acquire: everything an earlier load's value may call for (spec/14 R283, R287). -/
def State.acquireAll (s : State) (h : Nat) (c : Scope) : State :=
  let rs := [0, 1, 2, 3].flatMap fun d => (s.die d).releases
  (if scopeWide c then s.drainCore (coreOf h) else s).acquireSide h c rs
/-- A fence or unit release: the core's dirty bytes go to their homes (spec/14 R287). -/
def State.releaseAll (s : State) (h : Nat) (c : Scope) : State :=
  if scopeWide c then s.drainCore (coreOf h) else s
/-- The rows of the remote-homed dirty bytes a releasing core wrote (spec/14 R279). -/
def State.remoteDirty (s : State) (h : Nat) : List LineKey :=
  let k := clusterOf h
  let cells := s.dirtyCells k fun pa => (s.cluster k).touchedBy (coreOf h) pa && homeDie pa != dieOf h
  (cells.foldl (fun l c => NSet.add l (c.1 / 64)) []).map LineKey.row

/-- release_write (spec/14 R279, R286): through to the home, with a record there; at .clus and narrower a store. -/
def State.releaseWrite (s : State) (h : Nat) (t : Trans) (n : Nat) (c : Scope) (v : Nat) : State :=
  if !scopeWide c || servedBy t.pa = .mgmt || leafC t.leaf ≠ 0 then
    (s.releaseAll h c).writeAt h t n .row .none v
  else
    let k := clusterOf h
    let lines := s.remoteDirty h
    let s := s.drainBytes k fun pa => (s.cluster k).touchedBy (coreOf h) pa && homeDie pa != dieOf h
    let cells : List Host.Cell := ((upTo n).map (t.pa + ·)).zip (bytesLE n v)
    let s := (s.writeThrough k cells []).wakeOthers (some h) (cells.map (·.1))
    let old := fun (r : Release) => r.pa == t.pa && r.size == n && r.core == coreOf h && r.lines.all lines.contains
    s.updDie (homeDie t.pa) fun x => { x with releases := ⟨t.pa, n, coreOf h, lines⟩ :: x.releases.filter (!old ·) }
/-- acquire_read (spec/14 R279, R286): from the home, never from a copy; the records of the value read are collected. -/
def State.acquireRead (s : State) (h : Nat) (t : Trans) (n : Nat) (c : Scope) : Nat × Bool × State :=
  if !scopeWide c || servedBy t.pa = .mgmt then
    let (v, bad, s) := s.readAt h t n .row .none true
    (v, bad, s.acquireSide h c [])
  else
    let k := clusterOf h
    let s := s.beforeLoad (coreOf h) t n
    let pas := (upTo n).map (t.pa + ·)
    let s := (s.drainBytes k fun pa => pas.contains pa).mscReads pas
    let v := s.readHome t.pa n
    let bad := s.readHomePoison (dieOf h) t.pa n
    let s := s.reread k (sectorsAt pas)
    let rs := ([0, 1, 2, 3].flatMap fun d => (s.die d).releases).filter fun r => decide (r.pa < t.pa + n) && decide (t.pa < r.pa + r.size)
    (v, bad, s.acquireSide h c rs)

-- Atomics (spec/13 R271 to R275) --------------------------------------------------------------------------------------------

def amoSize (t : AmoTy) : Nat :=
  match t with
  | .s64 | .z64 => 8
  | .s32 | .z32 | .f32 => 4
  | .bf16 | .f16 => 2
def amoFmt (t : AmoTy) : Fmt :=
  match t with
  | .bf16 => .bf16
  | .f16 => .f16
  | _ => .f32
def amoSigned (t : AmoTy) : Bool :=
  match t with
  | .s32 | .s64 => true
  | _ => false
/-- What an atomic stores, if it stores, and the flags of .fadd (spec/13 R275). -/
def amoResult (op : AmoOp) (t : AmoTy) (ctl : BitVec 10) (m a b : Nat) : Option Nat × Flags :=
  let w := 8 * amoSize t
  let less := if amoSigned t then decide (sextN m w < sextN a w) else decide (m < a)
  match op with
  | .add => (some ((m + a) % 2 ^ w), 0)
  | .min => (some (if less then m else a), 0)
  | .max => (some (if less then a else m), 0)
  | .and => (some (m &&& a), 0)
  | .or => (some (m ||| a), 0)
  | .xor => (some (m ^^^ a), 0)
  | .swap => (some a, 0)
  | .cas => (if m = a then some b else none, 0)
  | .fadd =>
    let f := amoFmt t
    let (x, fx) := operand f ctl m
    let (y, fy) := operand f ctl a
    let r := fAdd f ctl .rne x y
    (some r.bits, fx ||| fy ||| r.fl)

/-- amo_perform at an engine (spec/12 R250): the old value, whether it carries poison, flags, and the state. -/
def State.amoPerform (s : State) (h pa : Nat) (o : Bool) (op : AmoOp) (t : AmoTy) (c : Scope) (ctl : BitVec 10) (a b : Nat) :
    Nat × Bool × Flags × State :=
  let n := amoSize t
  let w := 8 * n
  let (a, b) := (a % 2 ^ w, b % 2 ^ w)
  let k := clusterOf h
  let pas := (upTo n).map (pa + ·)
  if cacheable pa && !scopeWide c then
    let s := (s.atomFill k pa o).bump (1537 + 3 * k) 0 1
    let (bs, bad) := s.bytesAt (coreOf h) pa n
    let m := leOf bs
    let (r, fl) := amoResult op t ctl m a b
    if bad then (m, true, 0, s)
    else match r with
      | none => (m, false, fl, s.touch k (coreOf h) [pa])
      | some v =>
        let ten := (s.hart h).tenant.toNat
        let s := ((s.partTenants k ten pas).writeCopies k (.row (pa / 64)) true (pas.zip (bytesLE n v))).touch k (coreOf h) [pa]
        (m, false, fl, (s.ownBytes k ten pas).wakeOthers (some h) pas)
  else
    let s := s.dropLines k fun l => pas.any l.holds
    let s := ((s.flushDrains.purgeDie none pa).1.bump (1537 + 3 * homeCluster pa) 0 1).mscReads pas
    let m := s.readHome pa n
    let (r, fl) := amoResult op t ctl m a b
    if s.readHomePoison (dieOf h) pa n then (m, true, 0, s)
    else match r with
      | none => (m, false, fl, s)
      | some v => (m, false, fl, (s.accept none (dieOf h) (pas.zip (bytesLE n v)) []).wakeOthers (some h) pas)
/-- The cluster whose engine serves a request (spec/12 R250, spec/13 R258). -/
def engineFor (h pa : Nat) (c : Scope) : Nat :=
  if cacheable pa && !scopeWide c then clusterOf h else homeCluster pa
/-- The same for a row that waits; any other has no request there. -/
def RowAmo.answer (a : RowAmo) (m now : Nat) : RowAmo :=
  match a with
  | .waiting pa => .served pa m now
  | a => a
/-- The old value comes back to a request: to the hart of an amo, or to the row of a vamo that waits for it, with the time of its
service. -/
def Hart.answer (x : Hart) (row : Option Nat) (m now : Nat) : Hart :=
  match row with
  | none => { x with reply := some m }
  | some i => { x with run := x.run.map fun r => { r with rows := r.rows.modify i fun w => { w with amo := w.amo.answer m now } } }
/-- Serves the earliest request an engine holds (ATOMIC_SERVICE, spec/13 R272): its hart, or its row, gets the old value. A
request that meets poison raises the halt line (spec/16 R332): one that waited has the engine as origin, one that its hart performs
as it arrives the hart (log 80, DESIGN CHOICE). Those of a halted tenant are not served: they wait until the engine stops for it,
which discards and counts them (R333, R334). -/
def State.serveOne (s : State) (k : Nat) : State :=
  let mine := fun (r : AtomicReq) => !s.haltUp r.tenant
  match (s.cluster k).atomics.find? mine with
  | none => s
  | some r =>
    let s := s.updCluster k fun c => { c with atomics := c.atomics.eraseP mine }
    let (m, bad, fl, s) := s.amoPerform r.hart r.pa r.o r.op r.ty r.scope r.fpctl r.a r.b
    if bad then s.raiseHalt r.tenant (1537 + 3 * k) 0x1A (BitVec.ofNat 64 r.va)
    else s.updHart r.hart fun x => (x.raise fl).answer r.row m s.now
def State.serveAll (s : State) (k : Nat) : Nat → State
  | 0 => s
  | n + 1 => (s.serveOne k).serveAll k n

-- Instruction fetch (spec/14 R297, log 8) --------------------------------------------------------------------------------------

/-- The 64-byte line of a byte as a core fetches it, with its poison marks: as its instruction cache holds it, else filled
from the home, whose marks the fill carries along (spec/16 R325). A scratchpad byte has one copy, in its bank (spec/13
R258). -/
def State.fetchLine (s : State) (core pa : Nat) : ILine × State :=
  let b := pa / 64
  match (s.core core).icache.find? fun e => e.block == b with
  | some e => (e, s)
  | none =>
    let l : ILine :=
      { block := b, bytes := Memory.readN s.mem (64 * b) 64,
        poison := [2 * b, 2 * b + 1].filter fun x => s.homePoison (core / 96) (32 * x) }
    if !cacheable pa then (l, s)
    else (l, (s.mscTouch (64 * b) false false).updCore core fun c => { c with icache := (l :: c.icache).take 1024 })
/-- Fetches n bytes (4 or 8, aligned to 4) at a virtual address: the number, or the sub-code of the fault, or poison. -/
inductive Fetched where
  | word (v : Nat) | fault (sub : Nat) | poison
  deriving DecidableEq, Repr
def State.fetchWord (s : State) (h : Nat) (va : Word) : Fetched × State :=
  if !canonical va then (.fault 1, s)
  else match s.translate h va.toNat .fetch 0 (s.hart h).sup with
    | (.error sub, s) => (.fault sub, s)
    | (.ok t, s) =>
      let (l, s) := s.fetchLine (coreOf h) t.pa
      (if l.poison.contains (sectorOf t.pa) then .poison else .word (leOf ((l.bytes.drop (t.pa % 64)).take 4)), s)

end Sys2Proof.Machine
end

