-- ==== Sys2Proof/Machine/Operands.lean ====
section
/-!
DEFINITION. Operand forms: the widths of the scalar integer group (spec/02 R35, spec/07 R151), immediates (spec/07
R152, R153), addresses of the scalar memory words (spec/07 R157, spec/14 R286), scalar float sources (spec/07 R160).
-/
namespace Sys2Proof.Machine

abbrev Out := Host.Outcome State Fault Refusal

-- Scalar integers (spec/07 R151) -----------------------------------------------------------------------------------------

def szWidth : ISize → Nat
  | .s64 | .z64 => 64
  | .s32 | .z32 => 32
def szSigned : ISize → Bool
  | .s64 | .s32 => true
  | .z64 | .z32 => false
/-- A source as an exact integer: the low w bits, signed or unsigned. -/
def szVal (sz : ISize) (x : Word) : Int :=
  if szSigned sz then sextN x.toNat (szWidth sz) else ((x.toNat % 2 ^ szWidth sz : Nat) : Int)
/-- A result reduced modulo 2^w and extended as sz says. -/
def szResult (sz : ISize) (z : Int) : Word :=
  let v := wrapN (szWidth sz) z
  if szSigned sz then BitVec.ofInt 64 (sextN v (szWidth sz)) else BitVec.ofNat 64 v
/-- The low w bits of a source. -/
def szBits (sz : ISize) (x : Word) : Nat := x.toNat % 2 ^ szWidth sz

/-- Writes a result and goes on at the next word. -/
def State.retire (s : State) (d : Reg) (v : Word) : State := (s.writeX d v).advance
/-- The same with flags raised, in scalar order. -/
def State.retireFlags (s : State) (d : Reg) (v : Word) (f : Flags) : State := ((s.raise f).writeX d v).advance

/-- Division by truncation, with its two corners (spec/07 R151): quotient, remainder, flags. -/
def divRem (sz : ISize) (x y : Int) : Int × Int × Flags :=
  if y = 0 then (-1, x, flagDz)
  else if szSigned sz && decide (x = -(2 ^ (szWidth sz - 1) : Nat)) && decide (y = -1) then (x, 0, flagSat)
  else (x.tdiv y, x.tmod y, 0)
def shiftLeft (sz : ISize) (x : Word) (n : Nat) : Int :=
  if n < szWidth sz then szVal sz x * ((2 ^ n : Nat) : Int) else 0
def shiftRight (sz : ISize) (x : Word) (n : Nat) : Int :=
  if n < szWidth sz then ((szBits sz x / 2 ^ n : Nat) : Int) else 0
def shiftArith (sz : ISize) (x : Word) (n : Nat) : Int :=
  if !szSigned sz then shiftRight sz x n
  else if n < szWidth sz then szVal sz x / ((2 ^ n : Nat) : Int)
  else if szVal sz x < 0 then -1 else 0
/-- Zeros above the highest 1 of w bits. -/
def leadingZeros (w v : Nat) : Nat := if v = 0 then w else w - 1 - v.log2
/-- Zeros below the lowest 1 of w bits. -/
def trailingZeros : Nat → Nat → Nat
  | 0, _ => 0
  | w + 1, v => if v % 2 = 1 then 0 else 1 + trailingZeros w (v / 2)
def onesIn : Nat → Nat → Nat
  | 0, _ => 0
  | w + 1, v => v % 2 + onesIn w (v / 2)

-- Immediates and addresses ------------------------------------------------------------------------------------------------

/-- wrap64(X[s] + sext(imm)) of spec/07 R152, R155, R157. -/
def addImm {w : Nat} (x : Word) (i : BitVec w) : Word := x + i.signExtend 64
/-- pc + 4 · sext(imm) (spec/07 R154, R155). -/
def branchTarget {w : Nat} (pc : Word) (i : BitVec w) : Word := pc + 4 * i.signExtend 64
def boolWord (b : Bool) : Word := if b then 1 else 0

-- Scalar floats (spec/07 R160) ----------------------------------------------------------------------------------------------

def ffmt : FFmt → Fmt
  | .f32 => .f32
  | .f16 => .f16
  | .bf16 => .bf16
/-- The low bits of a register as a format. -/
def floatBits (f : Fmt) (x : Word) : Nat := x.toNat % 2 ^ f.width

-- Reel ------------------------------------------------------------------------------------------------------------------

/-- Whether records of some codes that a hart emits one after another all find room. -/
def State.reelRooms (s : State) (h : Nat) : List Nat → Bool
  | [] => true
  | c :: cs => s.reelRoom h c && (s.emitHart h c 0 0).reelRooms h cs
/-- A word that emits records waits for room for all of them before it has any effect (spec/18 R356). -/
def awaitReels (codes : List Nat) : Op Unit := do
  if codes.isEmpty then pure ()
  else if ← ask fun s => !(s.endWordStall s.cur).reelRooms s.cur codes then waitHere .reel
  else upd fun s => s.endWordStall s.cur
/-- A word that emits one record. -/
def awaitReel (code : Nat) : Op Unit := awaitReels [code]

end Sys2Proof.Machine
end

