-- ==== Sys2Proof/Machine/Amo.lean ====
section
/-!
DEFINITION. The scalar atomics (spec/13 R271 to R275). A request whose engine holds earlier requests waits for them to
be served first, the earliest first (spec/13 R272).
-/
namespace Sys2Proof.Machine

/-- The checks and waits of an atomic: a load and a store of size(t), on a row line (spec/13 R275, spec/14 R294). -/
def amoChecks (ea : Word) (n : Nat) : Op Trans := do
  let t ← scalarCheck ea n .row .both 0
  watch ea n true true
  awaitInterlock (spanOf ea n) (spanOf ea n)
  awaitEmission t.pa n
  pure t
/-- The old value as it is written to X[d] (spec/13 R275). -/
def amoExt (t : AmoTy) (v : Nat) : Word :=
  if amoSigned t then BitVec.ofInt 64 (sextN v (8 * amoSize t)) else BitVec.ofNat 64 v
/-- An atomic on the management window: its old value is a free value (log 11). -/
def State.amoWindow (s : State) (pa : Nat) (op : AmoOp) (t : AmoTy) (ctl : BitVec 10) (a b : Nat) : Nat × Bool × Flags × State :=
  let (bs, s) := s.mgmtBytes pa (amoSize t)
  let m := leOf bs
  let w := 8 * amoSize t
  let (r, fl) := amoResult op t ctl m (a % 2 ^ w) (b % 2 ^ w)
  (m, false, fl, match r with
    | some v => { s with mgmt := Tab.put s.mgmt pa (BitVec.ofNat 64 v) }
    | none => s)
/-- A service slot that waits for its line's fetch (spec/13 R272, spec/18 R365): the lines of requests that wait are
fetched ahead, so only a request served as it arrives can find its line missing. -/
def State.slotWaits (s : State) (k h pa : Nat) (c : Scope) : State :=
  if cacheable pa && !scopeWide c && k == clusterOf h && (s.cluster k).atomics.isEmpty
    && !(s.cluster k).atomLines.any (fun l => l.key == .row (pa / 64)) then s.bump (1537 + 3 * k) 1 1 else s
/-- An atomic at its engine, after every request the engine already holds. -/
def State.amoNow (s : State) (h : Nat) (t : Trans) (op : AmoOp) (ty : AmoTy) (c : Scope) (ctl : BitVec 10) (a b : Nat) :
    Nat × Bool × Flags × State :=
  if servedBy t.pa = .mgmt then s.amoWindow t.pa op ty ctl a b
  else
    let k := engineFor h t.pa c
    let s := s.slotWaits k h t.pa c
    (s.serveAll k (s.cluster k).atomics.length).amoPerform h t.pa (leafO t.leaf) op ty c ctl a b
def State.amoQueued (s : State) (h : Nat) : Bool :=
  s.clusters.any fun e => e.2.atomics.any fun r => r.hart == h && r.row.isNone

/-- The old value comes back from the engine, and the word is complete. -/
def State.takeReply (s : State) (d : Reg) (ty : AmoTy) (v : Nat) : State :=
  ((s.updMe fun h => { h with reply := none, amo := none }).capture s.cur 2 s.opCycles).retire d (amoExt ty v)
/-- amo.op.scope.t xd, [xs], xt. -/
def amoWord (op : AmoOp) (ty : AmoTy) (c : Scope) (d a b : Reg) : State → Out := finish do
  match ← ask fun s => s.me.reply with
  | some v => upd fun s => s.takeReply d ty v
  | none =>
    if ← ask fun s => s.amoQueued s.cur then waitHere .atomic
    else do
      let ea ← ask fun s => s.readX a
      let t ← amoChecks ea (amoSize ty)
      let x ← ask fun s => (s.readX (if op = .cas then d else b)).toNat
      let y ← ask fun s => (s.readX b).toNat
      let (v, bad, fl) ← (fun s =>
        let (v, bad, fl, s) := s.amoNow s.cur t op ty c s.me.fpctl x y
        .ok ((v, bad, fl), s.chargeMe 1 1) : Op (Nat × Bool × Flags))
      if bad then consumePoison ea
      else upd fun s => ((s.raise fl).capture s.cur 2 s.opCycles).retire d (amoExt ty v)

def execAmoAdd (ty : AmoTy) (c : Scope) (d a b : Reg) : State → Out := amoWord .add ty c d a b
def execAmoFadd (ty : AmoTy) (c : Scope) (d a b : Reg) : State → Out := amoWord .fadd ty c d a b
def execAmoMin (ty : AmoTy) (c : Scope) (d a b : Reg) : State → Out := amoWord .min ty c d a b
def execAmoMax (ty : AmoTy) (c : Scope) (d a b : Reg) : State → Out := amoWord .max ty c d a b
def execAmoAnd (ty : AmoTy) (c : Scope) (d a b : Reg) : State → Out := amoWord .and ty c d a b
def execAmoOr (ty : AmoTy) (c : Scope) (d a b : Reg) : State → Out := amoWord .or ty c d a b
def execAmoXor (ty : AmoTy) (c : Scope) (d a b : Reg) : State → Out := amoWord .xor ty c d a b
def execAmoSwap (ty : AmoTy) (c : Scope) (d a b : Reg) : State → Out := amoWord .swap ty c d a b
def execAmoCas (ty : AmoTy) (c : Scope) (d a b : Reg) : State → Out := amoWord .cas ty c d a b

/-- A request of the executing hart, or of a row of its run, reaches its engine and waits there (spec/13 R272), and whether it does:
a core has at most 8 requests at one engine, and one that this limit stalls is counted once (spec/18 R365), so not again. -/
def State.sendRequest (s : State) (t : Trans) (op : AmoOp) (ty : AmoTy) (c : Scope) (va : Nat) (row : Option Nat) (ctl : BitVec 10)
    (x y : Nat) (again : Bool) : State × Bool :=
  let k := engineFor s.cur t.pa c
  let cl := s.cluster k
  if 8 ≤ (cl.atomics.filter fun r => coreOf r.hart == coreOf s.cur).length then
    (if again then s else s.bump (1537 + 3 * k) 3 1, false)
  else
    let w := 8 * amoSize ty
    let r : AtomicReq :=
      { hart := s.cur, row := row, va := va, pa := t.pa, o := leafO t.leaf, op := op, ty := ty, scope := c,
        a := x % 2 ^ w, b := y % 2 ^ w, fpctl := ctl, tenant := s.me.tenant.toNat, order := cl.nextOrder, issuedAt := s.now }
    (s.setCluster k { cl with atomics := cl.atomics ++ [r], nextOrder := cl.nextOrder + 1 }, true)
/-- The request of an amo reaches its engine (ATOMIC_REQUEST_ARRIVAL, spec/13 R272). -/
def amoArrive (op : AmoOp) (ty : AmoTy) (c : Scope) (d a b : Reg) : Op Unit := do
  if ← ask fun s => s.me.reply.isSome || s.amoQueued s.cur then pure ()
  else do
    let ea ← ask fun s => s.readX a
    let t ← amoChecks ea (amoSize ty)
    upd fun s =>
      let (u, sent) := s.sendRequest t op ty c ea.toNat none s.me.fpctl (s.readX (if op = .cas then d else b)).toNat
        (s.readX b).toNat (s.me.wait == .atomic)
      if servedBy t.pa = .mgmt then s
      else (if sent then (u.chargeMe 1 1).updMe fun h => { h with amo := some (d, ty) } else u).waitFor s.cur .atomic
/-- A hart whose amo has reached its engine goes on in that word, which is not fetched again: with the reply, or in its
wait. -/
def amoResume : State → Out := finish do
  match ← ask fun s => (s.me.amo, s.me.reply) with
  | (some (d, ty), some v) => upd fun s => s.takeReply d ty v
  | _ => waitHere .atomic
/-- Insertion by rising key. -/
def insertBy (f : AtomicReq → Nat) (r : AtomicReq) : List AtomicReq → List AtomicReq
  | [] => [r]
  | x :: l => if f r < f x then r :: x :: l else x :: insertBy f r l
def sortBy (f : AtomicReq → Nat) (l : List AtomicReq) : List AtomicReq := l.foldl (fun acc r => insertBy f r acc) []
/-- The requests that reached an engine in this cycle take their order by a rotating priority on package core index,
from the core after the one that won the previous tie (spec/13 R272); the first wins. Requests of one core keep the
order in which they came, and a tie between requests of one core alone moves the priority too (log 86, DESIGN CHOICE: R272 orders
by core index only). -/
def Cluster.orderTies (c : Cluster) (now : Nat) : Cluster :=
  let old := c.atomics.filter fun r => r.issuedAt != now
  let new := c.atomics.filter fun r => r.issuedAt == now
  let sorted := sortBy (fun r => (coreOf r.hart + 384 - (c.lastTie + 1) % 384) % 384) new
  match sorted with
  | r :: _ :: _ =>
    { c with lastTie := coreOf r.hart,
             atomics := old ++ sorted.zipIdx.map fun e => { e.1 with order := c.nextOrder - sorted.length + e.2 } }
  | _ => c

end Sys2Proof.Machine
end

