-- ==== Sys2Proof/Machine/Branch.lean ====
section
/-!
DEFINITION. Branches and jumps (spec/07 R154 to R156).
-/
namespace Sys2Proof.Machine

/-- A branch: taken to the target, else on to the next word. -/
def branchOp (cond : Word → Word → Bool) (a b : Reg) (i : BitVec 15) (s : State) : Out :=
  .next (if cond (s.readX a) (s.readX b) then s.goTo (branchTarget s.me.pc i) else s.advance)
def execBeq (a b : Reg) (i : BitVec 15) (s : State) : Out := branchOp (fun x y => x == y) a b i s
def execBne (a b : Reg) (i : BitVec 15) (s : State) : Out := branchOp (fun x y => x != y) a b i s
def execBlt (a b : Reg) (i : BitVec 15) (s : State) : Out := branchOp (fun x y => x.slt y) a b i s
def execBge (a b : Reg) (i : BitVec 15) (s : State) : Out := branchOp (fun x y => !x.slt y) a b i s

def execJmp (d : Reg) (i : BitVec 20) (s : State) : Out :=
  .next ((s.writeX d (s.me.pc + 4)).goTo (branchTarget s.me.pc i))
/-- X[s] is read before X[d] is written; a misaligned target traps and changes nothing. -/
def execJr (d a : Reg) (i : BitVec 15) : State → Out := finish do
  let target ← ask fun s => addImm (s.readX a) i
  if target.toNat % 4 ≠ 0 then trap 0x09 0 target
  else upd fun s => (s.writeX d (s.me.pc + 4)).goTo target

/-- A watchpoint match on a table read: the value is as the Reel chapter gives it for cause 0x21 (spec/11 R218, spec/18 R374),
and aux the address read, as of every trap of jtab (spec/07 R156, spec/11 R224; log 56). -/
def watchTable (ea : Word) : Op Unit := do
  let hits ← ask fun s => s.watchHits s.cur ea 4 true false
  if hits ≠ 0 then
    fun s => takeHere { cause := 0x21, value := BitVec.ofNat 64 hits, tpc := s.me.pc, aux := ea, pos := some 0 } s
/-- The checks and waits of a table read of jtab: as ld.z32 with no hint and .row; a fault is a trap of the jtab with the
index as value and the address read in aux (spec/07 R156). -/
def tableCheck (ea idx : Word) : Op Trans := do
  let bad : Bad → Op Trans := fun b s => takeHere { cause := b.cause, sub := b.sub, value := idx, tpc := s.me.pc, aux := ea } s
  let t ← (fun s => match s.check s.cur ea 4 .row .load 0 s.me.sup with
    | (.ok t, s) => .ok (t, s)
    | (.error b, s) => bad b s : Op Trans)
  watchTable ea
  awaitInterlock (spanOf ea 4) .empty
  awaitEmission t.pa 4
  pure t
/-- The table's bound is always read, an entry only below it. Both reads count when the word completes: one that waits has not
issued, and one that traps has no effect (spec/11 R219), so that the charge of its first read is not kept (log 24,
DEDUCED). -/
def execJtab (a b : Reg) (i : BitVec 15) : State → Out := finish do
  let idx ← ask fun s => s.readX a
  let tb ← ask fun s => s.readX b
  let t ← tableCheck tb idx
  let n ← peekLoad tb t 4
  if n ≤ idx.toNat then upd fun s => (s.innerLoad t 4).goTo (branchTarget s.me.pc i)
  else do
    let ea := tb + 4 + 4 * idx
    let u ← tableCheck ea idx
    let e ← peekLoad ea u 4
    let target := tb + BitVec.ofInt 64 (sextN e 32)
    if target.toNat % 4 ≠ 0 then
      fun s => takeHere { cause := 0x09, value := idx, tpc := s.me.pc, aux := ea } s
    else upd fun s => ((s.innerLoad t 4).innerLoad u 4).goTo target

end Sys2Proof.Machine
end

