-- ==== Sys2Proof/Machine/CopyBar.lean ====
section
/-!
DEFINITION. Copies (spec/13 R260 to R266) and arrival barriers (spec/13 R267 to R270): the words and what the copy
engine does for them.
-/
namespace Sys2Proof.Machine

-- Issuing a copy (spec/13 R261) ----------------------------------------------------------------------------------------------

/-- The pieces of one side, page by page, or the lowest faulting address with its fault. -/
def State.copySegs (s : State) (h : Nat) (o : Orient) (kind : AccKind) (va : Word) (n : Nat) :
    Nat → Except (Word × Bad) (List Seg) × State
  | 0 => (.ok [], s)
  | fuel + 1 =>
    if n = 0 then (.ok [], s)
    else match s.check h va 1 o kind 0 (s.hart h).sup with
      | (.error b, s) => (.error (va, b), s)
      | (.ok t, s) =>
        let len := min n (65536 - va.toNat % 65536)
        match s.copySegs h o kind (va + BitVec.ofNat 64 len) (n - len) fuel with
        | (.error e, s) => (.error e, s)
        | (.ok l, s) => (.ok (⟨t.pa, len, leafC t.leaf⟩ :: l), s)
/-- One side of a copy, checked. -/
def copySide (o : Orient) (kind : AccKind) (va : Word) (n : Nat) : Op (List Seg) := fun s =>
  match s.copySegs s.cur o kind va n (n / 65536 + 2) with
  | (.ok l, s) => .ok (l, s)
  | (.error (a, b), s) => trap b.cause b.sub a s
/-- A .col side lies on whole panels (spec/13 R261). -/
def copyAligned (o : Orient) (a : Word) (n : Nat) : Op Unit := do
  if o = .col && (a.toNat % 4096 != 0 || n % 4096 != 0) then trap 0x09 0 a
/-- The barrier word that a copy names, as a physical address. -/
def linkOf (h : Nat) (t : Word) : Option Nat :=
  if t.getLsbD 63 then some (scratchBase + clusterOf h * 0x800000 + 8 * bitsOf t.toNat 51 32) else none
/-- The watchpoint trap of a copy: its source is a load, its destination a store (spec/18 R373, R374). -/
def watchCopy (dst src : Word) (n : Nat) : Op Unit := do
  let hits ← ask fun s => s.watchHits s.cur dst n false true ||| s.watchHits s.cur src n true false
  if hits ≠ 0 then
    fun s => takeHere { cause := 0x21, value := BitVec.ofNat 64 hits, tpc := s.me.pc, pos := some 0 } s
/-- The request enters its cluster's queue, and its interlock entry the core's table. -/
def State.queueCopy (s : State) (od os : Orient) (dst src t : Word) (n : Nat) (ds ss : List Seg) : State :=
  let h := s.cur
  let c : Copy :=
    { id := s.nextCopy, hart := h, tenant := s.me.tenant.toNat, dst := dst.toNat, src := src.toNat, n := n, od := od,
      os := os, link := linkOf h t, dstSegs := ds, srcSegs := ss, issuedAt := s.now, die := dieOf h }
  let s := { s with nextCopy := s.nextCopy + 1 }
  let s := s.updCore (coreOf h) fun x =>
    { x with interlocks := x.interlocks ++ [⟨h, c.id, spanOf src n, spanOf dst n⟩] }
  s.updCluster (clusterOf h) fun x => { x with copies := x.copies ++ [c] }

/-- cp (spec/13 R260, R261). A request that is being transferred still holds one of the engine's 64 places (log 79, DESIGN
CHOICE). -/
def execCp (od os : Orient) (d a t : Reg) : State → Out := finish do
  let dst ← ask fun s => s.readX d
  let src ← ask fun s => s.readX a
  let xt ← ask fun s => s.readX t
  let n := xt.toNat % 2 ^ 32
  if n = 0 then upd State.advance
  else do
    copyAligned od dst n
    copyAligned os src n
    let ds ← copySide od .store dst n
    let ss ← copySide os .load src n
    watchCopy dst src n
    awaitTable
    awaitInterlock (spanOf src n) (spanOf dst n)
    if ← ask fun s => (ds ++ ss).any fun g => s.emissionMeets s.cur g.pa g.len then waitHere .emitted
    if ← ask fun s => decide (64 ≤ (s.cluster (clusterOf s.cur)).copies.length) then waitHere .copyQueue
    else upd fun s => (s.queueCopy od os dst src xt n ds ss).advance

-- Barrier words (spec/13 R267, R269) --------------------------------------------------------------------------------------------

def barPhase (w : Nat) : Bool := bitOf w 63
def barPending (w : Nat) : Nat := bitsOf w 50 40
def barParties (w : Nat) : Nat := bitsOf w 61 51
def barBytes (w : Nat) : Int := sextN w 40
/-- abar.init's word. -/
def barInit (parties : Nat) : Nat := parties % 2 ^ 11 * 2 ^ 51 + parties % 2 ^ 11 * 2 ^ 40
/-- add_bytes: a count out of range is clamped and sets ov. -/
def barAdd (w : Nat) (v : Int) : Nat :=
  let z := barBytes w + v
  let lo : Int := -(2 ^ 39)
  let hi : Int := 2 ^ 39 - 1
  if z < lo then withBits (withBits w 0 40 (wrapN 40 lo)) 62 1 1
  else if hi < z then withBits (withBits w 0 40 (wrapN 40 hi)) 62 1 1
  else withBits w 0 40 (wrapN 40 z)
/-- turn: the phase turns when nothing is pending and the byte count is zero (ABAR_TURN). -/
def barTurn (w : Nat) : Nat :=
  if barPending w = 0 && barBytes w == 0 then
    withBits (withBits w 63 1 (if barPhase w then 0 else 1)) 40 11 (barParties w)
  else w
/-- One party arrives; beyond the parties it sets ov. -/
def barArrive (w : Nat) : Nat :=
  barTurn (if barPending w = 0 then withBits w 62 1 1 else withBits w 40 11 (barPending w - 1))
/-- A barrier word at its bank. -/
def State.barrier (s : State) (pa : Nat) : Nat := s.readHome pa 8
def State.setBarrier (s : State) (pa w : Nat) : State := s.writeHome (homeDie pa) pa 8 w

def isScratch (pa : Nat) : Bool :=
  match servedBy pa with
  | .scratch _ => true
  | _ => false
/-- The checks of a barrier word: read and write on its page, in a scratchpad (spec/13 R269). -/
def barChecks (ea : Word) : Op Nat := do
  let t ← scalarCheck ea 8 .row .both 0
  if !isScratch t.pa then trap 0x08 0 ea
  else do
    watch ea 8 false true
    awaitInterlock (spanOf ea 8) (spanOf ea 8)
    awaitEmission t.pa 8
    if ← ask fun s => s.readHomePoison (dieOf s.cur) t.pa 8 then consumePoison ea else pure t.pa
/-- A barrier word that changes the barrier and goes on. -/
def barWord (ea : Word) (f : Nat → Nat) : Op Unit := do
  let pa ← barChecks ea
  upd fun s => (s.setBarrier pa (f (s.barrier pa))).advance

def execAbarInit (a t : Reg) : State → Out := finish do
  let ea ← ask fun s => s.readX a
  let n ← ask fun s => (s.readX t).toNat
  barWord ea fun _ => barInit n
def execAbarExpect (a t : Reg) : State → Out := finish do
  let ea ← ask fun s => s.readX a
  let v ← ask fun s => (s.readX t).toInt
  barWord ea fun w => barTurn (barAdd w v)

/-- Whether an interlock entry belongs to a copy linked to a barrier word. -/
def State.linkedTo (s : State) (pa : Nat) (e : Interlock) : Bool :=
  (s.cluster (clusterOf e.hart)).copies.any fun c => c.id == e.copy && c.link == some pa
/-- The wait of an arrival (spec/13 R266): as a release, but for copies linked to the word. -/
def State.arriveBusy (s : State) (h pa : Nat) : Option Wait :=
  if (s.core (coreOf h)).interlocks.any (fun e => e.hart == h && !s.linkedTo pa e) then some .interlock
  else if s.journals.any (fun e => e.2.held.any fun r => r.hart == h) then some .emitted
  else none
/-- abar.arrive: a package-scope release (spec/13 R270). -/
def execAbarArrive (a : Reg) : State → Out := finish do
  let ea ← ask fun s => s.readX a
  let pa ← barChecks ea
  match ← ask fun s => s.arriveBusy s.cur pa with
  | some w => waitHere w
  | none => upd fun s =>
      let s := s.releaseAll s.cur .pkg
      (s.setBarrier pa (barArrive (s.barrier pa))).advance
/-- abar.wait: waits for the phase, and its end is a package-scope acquire (spec/13 R270). -/
def execAbarWait (a t : Reg) : State → Out := finish do
  let ea ← ask fun s => s.readX a
  let v ← ask fun s => (s.readX t).getLsbD 0
  let pa ← barChecks ea
  if ← ask fun s => barPhase (s.barrier pa) == v then upd fun s => (s.acquireAll s.cur .pkg).advance
  else waitHere .abar

-- The copy engine (spec/13 R262, R263) --------------------------------------------------------------------------------------------

/-- The physical bytes of some pieces, in order. -/
def segBytes (l : List Seg) : List Nat := l.flatMap fun g => (upTo g.len).map (g.pa + ·)
/-- The bytes i to i + n − 1 of some pieces. -/
def segSlice : List Seg → Nat → Nat → List Nat
  | [], _, _ => []
  | g :: gs, i, n =>
    if g.len ≤ i then segSlice gs (i - g.len) n
    else
      let here := min n (g.len - i)
      (upTo here).map (g.pa + i + ·) ++ segSlice gs 0 (n - here)
/-- A byte as the copy engine reads it: a resident copy, or the home. -/
def State.copyByte (s : State) (k pa : Nat) : Byte :=
  if servedBy pa = .mgmt then Config.mgmtByte pa s.draws
  else if cacheable pa then s.clusterByte k pa else Memory.read s.mem pa
def State.copyPoison (s : State) (k pa : Nat) : Bool :=
  if cacheable pa then s.clusterPoison k pa else s.homePoison (clusterDie k) pa
/-- The fetches of a copy's source bytes that the cluster does not hold. A .col side reads whole panels, whose column lines bring
every sector of a panel in (spec/12 R256, spec/13 R262); their width is not given, and each sector with such bytes is read once (log
72, DESIGN CHOICE). -/
def State.copyReads (s : State) (k : Nat) (src : List Nat) : State :=
  let missing := src.filter fun pa => cacheable pa && !s.resident k pa
  (s.freshen k missing).mscReads missing
/-- A source piece on a commutative page: the cluster's copies of it go, and its elements are combined at the home (spec/14
R290). -/
def State.combineSeg (s : State) (k : Nat) (g : Seg) : State :=
  if g.mode = 0 then s
  else (s.dropLines k fun l => l.bytes.any fun a => decide (g.pa ≤ a) && decide (a < g.pa + g.len)).combineRange g.mode g.pa g.len
/-- COPY_REQUEST_START: the request at the head of the queue begins, with the source's values of this moment. What its
core's copy reads counts as read by the core (spec/14 R279). -/
def State.startCopy (s : State) (k : Nat) : State :=
  match (s.cluster k).copies with
  | [] => s
  | c :: rest =>
    if c.running then s
    else
      let s := c.srcSegs.foldl (State.combineSeg · k ·) s
      let src := segBytes c.srcSegs
      let s := s.copyReads k src
      let bad := (upTo c.n).filter fun i => match src[i]? with
        | some pa => s.copyPoison k pa
        | none => false
      let c := { c with running := true, data := src.map (s.copyByte k), poison := bad }
      let s := s.touch k (coreOf c.hart) (src.filter (s.dirtyByte k))
      { s with draws := s.draws + 1 }.updCluster k fun x => { x with copies := c :: rest }
/-- Bytes of the next unit: up to the end of its block of 64 bytes, or of its panel (spec/13 R262). -/
def Copy.unit (c : Copy) : Nat :=
  let size := if c.od = .row then 64 else 4096
  min (c.n - c.landed) (size - (c.dst + c.landed) % size)
/-- Bytes written by the copy engine: into every resident copy and through to their homes, with their poison marks, so
that units become visible to other agents in the order of their landing (spec/13 R262). -/
def State.copyWrite (s : State) (k : Nat) (cells : List Host.Cell) (bad : List Nat) : State :=
  let marks := bad.foldl (fun l pa => NSet.add l (sectorOf pa)) []
  let cells := cells.filter fun c => servedBy c.1 != .mgmt
  (s.wakeOthers none (cells.map (·.1))).writeThrough k cells marks
/-- The copy's completion (COPY_COMPLETE): its entry leaves the table, the event latch of its hart is set. -/
def State.completeCopy (s : State) (k : Nat) (c : Copy) : State :=
  let s := s.updCluster k fun x => { x with copies := x.copies.filter fun y => y.id != c.id }
  let s := s.updCore (coreOf c.hart) fun x => { x with interlocks := x.interlocks.filter fun e => e.copy != c.id }
  let s := s.updHart c.hart fun x => { x with latch := true }
  let s := (s.bump (1536 + 3 * k) 0 1).capture c.hart 3 (s.now - c.issuedAt)
  s.emitEngine (1536 + 3 * k) 0x0300 (some c.tenant) (s.hart c.hart).tmask c.hart (BitVec.ofNat 64 c.dst) (BitVec.ofNat 64 c.n)
/-- COPY_UNIT_LAND: the next unit of the transfer lands, and its bytes leave the barrier's count at the same moment. -/
def State.landUnit (s : State) (k : Nat) : State :=
  match (s.cluster k).copies with
  | [] => s
  | c :: rest =>
    if !c.running then s
    else
      let u := c.unit
      let pas := segSlice c.dstSegs c.landed u
      let cells := pas.zip ((c.data.drop c.landed).take u)
      let bad := (upTo u).filterMap fun i => if c.poison.contains (c.landed + i) then pas[i]? else none
      let s := s.copyWrite k cells bad
      let s := match c.link with
        | none => s
        | some pa =>
          -- a counted landing is a package-scope release (spec/13 R270, spec/14 R281)
          let s := s.releaseAll c.hart .pkg
          s.setBarrier pa (barTurn (barAdd (s.barrier pa) (-(u : Int))))
      let c' := { c with landed := c.landed + u }
      let s := s.charge c.hart 6 ((c'.landed + 63) / 64 - (c.landed + 63) / 64)
      let s := (s.updCluster k fun x => { x with copies := c' :: rest }).bump (1536 + 3 * k) 1 1
      if c'.landed = c'.n then s.completeCopy k c' else s

end Sys2Proof.Machine
end

