-- ==== Sys2Proof/Machine/Convert.lean ====
section
/-!
DEFINITION. Element types as numbers (spec/04 R76, R80), integer saturation (spec/05 R104), conversions between the
types (spec/05 R114), scales (spec/04 R86).
-/
namespace Sys2Proof.Machine

/-- Width of an element in bits; a sliced element has none of its own and stands for 8-bit planes here. -/
def tyBits : ETy → Nat
  | .s8 | .z8 | .e4m3 | .e5m2 | .q => 8
  | .s16 | .z16 | .bf16 | .f16 | .pr => 16
  | .s32 | .z32 | .f32 => 32
  | .s64 | .z64 => 64
def tyBytes (t : ETy) : Nat := tyBits t / 8
/-- log2 of the bytes of an element: the width code of spec/08 R167. -/
def tyCode (t : ETy) : Nat := (tyBytes t).log2
def tyFmt : ETy → Option Fmt
  | .f32 => some .f32
  | .bf16 => some .bf16
  | .f16 => some .f16
  | .e4m3 => some .e4m3
  | .e5m2 => some .e5m2
  | _ => none
/-- The format of a float type, FP32 where the type is none. -/
def tyFmtD (t : ETy) : Fmt := (tyFmt t).getD .f32
def tySigned : ETy → Bool
  | .s8 | .s16 | .s32 | .s64 => true
  | _ => false
/-- val(x) of spec/05 R104 for a pattern of n bits. -/
def intOf (signed : Bool) (n b : Nat) : Int := if signed then sextN b n else ((b % 2 ^ n : Nat) : Int)
def tyInt (t : ETy) (b : Nat) : Int := intOf (tySigned t) (tyBits t) b
def minOf (signed : Bool) (n : Nat) : Int := if signed then -((2 ^ (n - 1) : Nat) : Int) else 0
def maxOf (signed : Bool) (n : Nat) : Int :=
  if signed then ((2 ^ (n - 1) : Nat) : Int) - 1 else ((2 ^ n : Nat) : Int) - 1

/-- sat_int (spec/05 R104) at a width and signedness: mark and sat beyond the range. -/
def satTo (signed : Bool) (n : Nat) (z : Int) : Res :=
  if z < minOf signed n then { bits := wrapN n (minOf signed n), fl := flagSat, mark := true }
  else if maxOf signed n < z then { bits := wrapN n (maxOf signed n), fl := flagSat, mark := true }
  else { bits := wrapN n z }
def satInt (t : ETy) (z : Int) : Res := satTo (tySigned t) (tyBits t) z

/-- Float to integer (spec/05 R114, spec/04 R92). -/
def toInt (signed : Bool) (n : Nat) (rm : Rm) (x : FVal) : Res :=
  match x with
  | .nan _ => { bits := 0, fl := flagNv, mark := true }
  | .inf neg => { bits := wrapN n (if neg then minOf signed n else maxOf signed n), fl := flagNv, mark := true }
  | .num neg m e =>
    let (z, ix) := roundInt rm neg m e
    if z < minOf signed n then { bits := wrapN n (minOf signed n), fl := flagNv, mark := true }
    else if maxOf signed n < z then { bits := wrapN n (maxOf signed n), fl := flagNv, mark := true }
    else { bits := wrapN n z, fl := flagIf ix flagNx }

/-- The table of spec/05 R114, for one element of type u converted to type t. -/
def convert (ctl : BitVec 10) (rm : Rm) (t u : ETy) (b : Nat) : Res :=
  match tyFmt u, tyFmt t with
  | none, none => satInt t (tyInt u b)
  | none, some f => satVal f ctl rm (ofInt (tyInt u b))
  | some g, some f =>
    let (x, fl) := operand g ctl b
    let r := satVal f ctl rm x
    { r with fl := r.fl ||| fl }
  | some g, none =>
    let (x, fl) := operand g ctl b
    let r := toInt (tySigned t) (tyBits t) rm x
    { r with fl := r.fl ||| fl }

/-- x · 2^k, exactly. -/
def scaleBy (x : FVal) (k : Int) : FVal :=
  match x with
  | .num n m e => .num n m (e + k)
  | v => v
/-- A float element under an E8 scale (spec/04 R86, spec/05 R119). -/
def scaleFloat (f : Fmt) (ctl : BitVec 10) (rm : Rm) (e b : Nat) : Res :=
  let (x, fl) := operand f ctl b
  if e = 255 then { bits := qnan f, fl := flagNv ||| flagNf ||| fl, mark := true }
  else
    let r := satVal f ctl rm (scaleBy x ((e : Int) - 127))
    { r with fl := r.fl ||| fl }
/-- A sliced element of qw bits under an E8 scale (spec/05 R119): round_int, nx when inexact, sat beyond the range. -/
def scaleSliced (signed : Bool) (qw e b : Nat) : Res :=
  if e = 255 then { bits := 0, fl := flagNv, mark := true }
  else
    let z := intOf signed qw b
    let (r, ix) := roundInt .rne (decide (z < 0)) z.natAbs ((e : Int) - 127)
    let o := satTo signed qw r
    { o with fl := o.fl ||| flagIf ix flagNx }

end Sys2Proof.Machine
end

