-- ==== Sys2Proof/Machine/VecState.lean ====
section
/-!
DEFINITION. Vector state: capacities (spec/03 R54, spec/08 R167), images of registers, predicates and scale registers
(spec/03 R53, spec/06 R122, spec/05 R120), the ownership and mode tests of vector words (spec/11 R232, spec/02 R46),
discarding it (spec/11 R233), lanes (spec/08 R169 to R171) and the matrix array (spec/10 R199).
-/
namespace Sys2Proof.Machine

-- Capacities --------------------------------------------------------------------------------------------------------------

def vtQw (v : Word) : Nat := bitsOf v.toNat 4 0
def vtQs (v : Word) : Bool := v.getLsbD 5
def vtQwb (v : Word) : Nat := bitsOf v.toNat 12 8
def vtQsb (v : Word) : Bool := v.getLsbD 13
/-- vlmax by width code (spec/08 R167); qw matters for code 4. -/
def vlmax (wc qw lanes : Nat) : Nat :=
  if wc = 4 then min (256 * lanes) (2048 * lanes / qw) else 256 * lanes / 2 ^ wc
/-- M of spec/04 R82. -/
def slicedRows (qw lanes : Nat) : Nat := min (256 * lanes) (2048 * lanes / qw)
/-- The capacity of an element type (spec/08 R174). -/
def capOf (t : ETy) (vtype : Word) (lanes : Nat) : Nat :=
  if t = .q then slicedRows (vtQw vtype) lanes else vlmax (tyCode t) 0 lanes

-- Images --------------------------------------------------------------------------------------------------------------------

def Hart.vimg (h : Hart) (r : Reg) : Nat := Tab.get 0 h.v r.toNat
def Hart.setVimg (h : Hart) (r : Reg) (v : Nat) : Hart := { h with v := Tab.put h.v r.toNat v }
def Hart.pred (h : Hart) (r : Reg) : Pred := Tab.get {} h.p r.toNat
def Hart.setPred (h : Hart) (r : Reg) (v : Pred) : Hart := { h with p := Tab.put h.p r.toNat v }
/-- Element i of a register at a width of w bits. -/
def Hart.elem (h : Hart) (r : Reg) (w i : Nat) : Nat := elemAt (h.vimg r) w i
def Hart.setElem (h : Hart) (r : Reg) (w i v : Nat) : Hart := h.setVimg r (withElem (h.vimg r) w i v)
/-- A sliced row: bit b of row i lies at position b · M + i (spec/04 R82). -/
def slicedRow (img m i : Nat) : Nat → Nat
  | 0 => 0
  | b + 1 => slicedRow img m i b + (if bitOf img (b * m + i) then 2 ^ b else 0)
def withSlicedRow (img m i v : Nat) : Nat → Nat
  | 0 => img
  | b + 1 => withBits (withSlicedRow img m i v b) (b * m + i) 1 (v / 2 ^ b)
/-- Cell i of a predicate, and its bit (spec/06 R122). -/
def Pred.cell (p : Pred) (i : Nat) : Nat := bitsAt p.cells (16 * i) 16
def Pred.bit (p : Pred) (i : Nat) : Bool := p.cell i == 0x8000
/-- A write of a cell above 0x8000 stores 0x8000. -/
def Pred.setCell (p : Pred) (i v : Nat) : Pred := { p with cells := withBits p.cells (16 * i) 16 (min v 0x8000) }
def Pred.setBit (p : Pred) (i : Nat) (b : Bool) : Pred := p.setCell i (if b then 0x8000 else 0)
/-- A .pr read (spec/04 R87). -/
def prRead (v : Nat) : Nat := min v 0x8000

-- Scale registers (spec/04 R85, spec/05 R120) --------------------------------------------------------------------------------

def Hart.scale (h : Hart) (k i : Nat) : Nat := bitsAt (Tab.get 0 h.k k) (8 * i) 8
def kidxReg (v : Word) : Nat := bitsOf v.toNat 13 11
def kidxGroup (v : Word) : Nat := bitsOf v.toNat 10 3
/-- The window kidx selects. -/
def Hart.window (h : Hart) : Word := BitVec.ofNat 64 (bitsAt (Tab.get 0 h.k (kidxReg h.kidx)) (64 * kidxGroup h.kidx) 64)
def Hart.setWindow (h : Hart) (v : Word) : Hart :=
  { h with k := Tab.put h.k (kidxReg h.kidx) (withBits (Tab.get 0 h.k (kidxReg h.kidx)) (64 * kidxGroup h.kidx) 64 v.toNat) }
/-- group advances by 1 modulo 256. -/
def Hart.stepWindow (h : Hart) : Hart :=
  { h with kidx := BitVec.ofNat 64 (kidxReg h.kidx * 2 ^ 11 + (kidxGroup h.kidx + 1) % 256 * 2 ^ 3) }

-- Tests of vector words -------------------------------------------------------------------------------------------------------

/-- The ownership test (spec/11 R232): a vector instruction while own ≠ ctx traps with own as value. -/
def needOwner : Op Unit := do
  if (← ask fun s => s.me.own == s.me.ctx) then pure () else trap 0x18 0 (← ask fun s => s.me.own.zeroExtend 64)
/-- Words illegal in matrix mode, and words illegal outside it (spec/02 R46). -/
def needVectorMode (i : Instr) : Op Unit := do if (← ask fun s => s.me.matrix) then trap 0x02 0 (wordOf i)
def needMatrixMode (i : Instr) : Op Unit := do if (← ask fun s => !s.me.matrix) then trap 0x02 0 (wordOf i)
/-- A completed queue entry (spec/18 R365 slot 1). -/
def entryDone : Op Unit := upd fun s => s.bumpMe 1 1
/-- The row count of a word outside a block: vlen, or mvlen in matrix mode (spec/02 R46). -/
def Hart.rows (h : Hart) : Nat := if h.matrix then h.mvlen else h.vlen

-- Geyser entries of a hart (spec/03 R67) ------------------------------------------------------------------------------------------

def State.geyserOf (s : State) (h : Nat) : List GEntry := (s.core (coreOf h)).geyser.filter fun e => e.hart == h % 4
def State.dropGeyser (s : State) (h : Nat) : State :=
  s.updCore (coreOf h) fun c => { c with geyser := c.geyser.filter fun e => e.hart != h % 4 }

-- The matrix array (spec/10 R199) ---------------------------------------------------------------------------------------------------

/-- Releases the array; the hart that has waited longest takes it next. -/
def State.releaseArray (s : State) (h : Nat) : State :=
  s.updCore (coreOf h) fun c => { c with arrayHolder := if c.arrayHolder = some h then none else c.arrayHolder }

/-- Takes the array: waits while another hart of the core holds it, longest wait first (spec/10 R199). -/
def acquireArray : Op Unit := do
  let h ← ask State.cur
  let c ← ask State.myCore
  if c.arrayHolder = some h then pure ()
  else if c.arrayHolder = none && (c.arrayWait.isEmpty || c.arrayWait.head? == some h) then
    upd fun s => s.updCore (coreOf h) fun c => { c with arrayHolder := some h, arrayWait := c.arrayWait.filter (· != h) }
  else do
    upd fun s => s.updCore (coreOf h) fun c =>
      { c with arrayWait := if c.arrayWait.contains h then c.arrayWait else c.arrayWait ++ [h] }
    waitHere .array

-- Discarding vector state (spec/11 R233) ---------------------------------------------------------------------------------------------

/-- Every vector and predicate register reads as zero (spec/06 R122, spec/08 R170). -/
def Hart.zeroRegs (h : Hart) : Hart := { h with v := [], p := [] }
/-- discard of vown: fresh vector state; the lane count is unchanged. -/
def State.discardVector (s : State) (h : Nat) : State :=
  let s := s.dropGeyser h
  let s := if (s.hart h).matrix then s.releaseArray h else s
  s.updHart h fun x =>
    { x.zeroRegs with k := [], buffer := [], pend := 0, vlen := 0, mvlen := 0, sw := 3, swq := 0, stripBase := 0,
                      za := if x.matrix then 0 else x.za, zb := if x.matrix then 0 else x.zb,
                      bypass := if x.matrix then none else x.bypass, matrix := false }

-- Lanes (spec/08 R169 to R171) --------------------------------------------------------------------------------------------------------

def State.freeLanes (s : State) (c : Nat) : Nat := 32 - (hartsOfCore c).foldl (fun n h => n + (s.hart h).lanes) 0
/-- Rows per lane. -/
def rowsPerLane (wc qw : Nat) : Nat := if wc = 4 then min 256 (2048 / qw) else 256 / 2 ^ wc
def ceilDiv (a b : Nat) : Nat := (a + b - 1) / b
/-- A 64-bit word of the header of a vector save area (spec/11 R234), and the lanes it names. -/
def headWord (bs : List Byte) (i : Nat) : Nat := leOf ((bs.drop (8 * i)).take 8)
def savedLanes (bs : List Byte) : Nat := bitsOf (headWord bs 0) 23 16
/-- The free lanes that a waiting hart needs to go on: four for a setvl, for a vrest those its area names beyond what it holds. -/
def State.laneNeed (s : State) (h : Nat) : Nat :=
  (match (s.hart h).rest with
    | some r => savedLanes r.1
    | none => 4) - (s.hart h).lanes
/-- Whether a hart takes free lanes before every other hart of its core that waits for them: the longest waiting one first (spec/08
R169). One that needs more than are free is passed over, so that no setvl waits behind a vrest (spec/08 R171; log 81, DEDUCED). -/
def State.firstForLanes (s : State) (h : Nat) : Bool :=
  let c := coreOf h
  match (s.core c).laneWait.find? fun j => decide (s.laneNeed j ≤ s.freeLanes c) with
  | some j => j == h
  | none => true
/-- The lane count a strip boundary gives, or none when fewer than four are to be had (spec/08 R169). -/
def State.boundaryLanes (s : State) (h req wc qw : Nat) : Option Nat :=
  let c := coreOf h
  let waiting := (s.core c).laneWait
  let n := ((hartsOfCore c).filter fun j => j == h || decide (0 < (s.hart j).lanes) || waiting.contains j).length
  let f := 4 * (8 / n)
  let want := 4 * ceilDiv (min 32 (ceilDiv req (rowsPerLane wc qw))) 4
  let cap := if waiting.any (fun j => j != h) then f else 32
  let new := min want cap
  let held := (s.hart h).lanes
  let free := if decide (0 < held) || s.firstForLanes h then s.freeLanes c else 0
  let new := if held < new then held + min (new - held) free else new
  if 4 ≤ new then some new else none
/-- A change of the lane set (LANE_CHANGE): registers read as zero; record 0x0103 and slot 12 count it. -/
def State.setLanes (s : State) (h new : Nat) : State :=
  let old := (s.hart h).lanes
  if old = new then s
  else
    let s := s.updHart h fun x => { x.zeroRegs with lanes := new }
    (s.bumpHart h 12 1).emitHart h 0x0103 (BitVec.ofNat 64 old) (BitVec.ofNat 64 new)
/-- The hart no longer waits for lanes. -/
def State.leaveLaneQueue (s : State) (h : Nat) : State :=
  s.updCore (coreOf h) fun c => { c with laneWait := c.laneWait.filter (· != h) }
def State.joinLaneQueue (s : State) (h : Nat) : State :=
  s.updCore (coreOf h) fun c => { c with laneWait := if c.laneWait.contains h then c.laneWait else c.laneWait ++ [h] }

end Sys2Proof.Machine
end

