-- ==== Sys2Proof/Machine/Creg.lean ====
section
/-!
DEFINITION. Reading and writing the control registers (spec/07 R146 to R150) with the write rule of each register.
-/
namespace Sys2Proof.Machine

-- Fields kept by a write ------------------------------------------------------------------------------------------------------

def keep (mask : Nat) (v : Word) : Word := v &&& BitVec.ofNat 64 mask
/-- A field of a written value limited to a range. -/
def clampField (v : Word) (hi lo least most : Nat) : Nat := max least (min most (bitsOf v.toNat hi lo)) * 2 ^ lo

/-- sctl (spec/18 R351): class bit 5 reads 1, size lies in 4 to 20. -/
def sctlValue (v : Word) : Word := keep 0xF7FF0FFFFFFF0000 v ||| 0x200000 ||| BitVec.ofNat 64 (clampField v 4 0 4 20)
/-- resc (spec/12 R251): ways at most 12, ratio at most 256. -/
def rescValue (v : Word) : Word :=
  keep 0x000FFFFFFFFF0000 v ||| BitVec.ofNat 64 (clampField v 63 60 0 12) ||| BitVec.ofNat 64 (clampField v 8 0 0 256)
def jlogValue (v : Word) : Word := keep 0x000FFFFFFFFFF000 v ||| BitVec.ofNat 64 (clampField v 4 0 4 20)
/-- ew (spec/11 R240): res exists in ew0, ew1 and ew5. -/
def ewValue (i : Nat) (v : Word) : Word := keep (if i = 0 ∨ i = 1 ∨ i = 5 then 0x0000FFFF0000FFFF else 0xFFFF) v
def selMask : Nat := 0x801FFF0F00000000

/-- ptemp (spec/06 R131): the value stored and the flag raised. -/
def ptempValue (v : Word) : BitVec 32 × Flags :=
  let t := v.truncate 32
  let b := t.toNat
  if isNan (valueOf .f32 b) then (0, flagTn)
  else if b = 0x80000000 then (0, 0)
  else if bitOf b 31 then (0, flagTn)
  else (t, 0)

-- Counters (spec/18 R365 to R369) ------------------------------------------------------------------------------------------------

/-- Whether a counter index counts something. -/
def countsAt (c : Nat) : Bool :=
  let src := c / 64
  let k := c % 64
  if 131072 ≤ c then decide (c < 131072 + 4 * 384)
  else if src < 1536 then decide (k ≤ 17)
  else if src < 1680 then decide (k ≤ (if (src - 1536) % 3 = 0 then 2 else 3))
  else if src < 1688 then decide (k ≤ 8)
  else if src < 1702 then decide (k ≤ 3)
  else false
def ctbaseEn (v : Word) : Bool := v.getLsbD 0
def totalAddr (base : Word) (c : Nat) : Nat := bitsOf base.toNat 51 21 * 2 ^ 21 + 8 * c
/-- The die whose sweeper covers a counter. -/
def sweeperOf (c : Nat) : Nat := if 131072 ≤ c then (c - 131072) / 4 / 96 else sourceDie (c / 64)
/-- Credits the total of a counter with its advance since the sweeper's last reading (spec/18 R369). -/
def State.creditTotal (s : State) (c : Nat) : State :=
  if !ctbaseEn s.ctbase then s
  else
    let now := Tab.get 0 s.counters c
    let adv := (now + 2 ^ 32 - Tab.get 0 s.lastRead c) % 2 ^ 32
    let a := totalAddr s.ctbase c
    let s := { s with lastRead := Tab.put s.lastRead c now }
    if adv = 0 then s else s.addWord (sweeperOf c) a adv
/-- A write of cnval for an index (CNVAL_WRITE, spec/18 R367). -/
def State.writeCounter (s : State) (c v : Nat) : State :=
  if !countsAt c then s
  else
    let s := s.creditTotal c
    { s with counters := Tab.put s.counters c (v % 2 ^ 32), lastRead := Tab.put s.lastRead c (v % 2 ^ 32), cnWrite := some c }
/-- A write of ctbase (CTBASE_WRITE): when en rises the sweepers take the current counts (spec/18 R369). -/
def State.writeCtbase (s : State) (v : Word) : State :=
  let v := keep 0x000FFFFFFFE00001 v
  if ctbaseEn v && !ctbaseEn s.ctbase then { s with ctbase := v, lastRead := s.counters } else { s with ctbase := v }

-- Streams (spec/18 R351) -----------------------------------------------------------------------------------------------------------

/-- Records waiting in the reserves are no longer offered to a stream; those offered to no other go (spec/18 R351). -/
def State.forgetReserved (s : State) (n : Nat) : State :=
  let cut := fun (l : List Reserved) => (l.map fun r => { r with streams := r.streams.filter (· != n) }).filter fun r => !r.streams.isEmpty
  { s with dies := s.dies.map fun (e : Nat × Die) => (e.1, { e.2 with reserve := cut e.2.reserve }) }
/-- STREAM_DISABLE: records in flight go without a drop record. -/
def State.disableStream (s : State) (n : Nat) : State :=
  let t := s.stream n
  (s.forgetReserved n).setStream n { t with sctl := keep 0x7FFFFFFFFFFFFFFF t.sctl, drops := 0, firstDrop := 0, house := [] }
/-- STREAM_ENABLE: a write of sctl and sbase as given; when en rises, written is read from the header. -/
def State.setStreamRegs (s : State) (n : Nat) (base ctl : Word) : State :=
  let t := s.stream n
  let s := s.setStream n { t with sbase := base, sctl := ctl }
  if ctl.getLsbD 63 && !t.en then
    let (w, s) := s.readDevice (s.stream n).header 8
    s.setStream n { s.stream n with written := w }
  else s
def State.writeStream (s : State) (n : Nat) (base ctl : Word) : State :=
  let t := s.stream n
  let changes := t.en && (base != t.sbase || (ctl.getLsbD 62 != t.ll) || ctl.toNat % 32 != t.size)
  let s := if changes || (t.en && !ctl.getLsbD 63) then s.disableStream n else s
  s.setStreamRegs n base ctl

-- Journal contexts (spec/19 R382 to R386) ---------------------------------------------------------------------------------------------

/-- A write of jcfg to a context (JCFG_OFF, JCFG_ENABLE, JCFG_MOVE). -/
def jcfgWrite (j : Journal) (v : Word) : Journal :=
  let en := v.getLsbD 63
  let st := v.toNat % 8
  if j.state = 0 then
    let j := { j with en := en, ten := v.extractLsb' 40 12, port := bitsOf v.toNat 33 32 }
    if en && (st = 1 || st = 2) then { j with state := st } else j
  else if !en || st = 0 then { j with en := en, state := 0, queue := [], newQueue := [], held := [] }
  else if st = 3 && (j.state = 1 || j.state = 4) && j.npeer.getLsbD 63 then
    { j with state := 3, before := j.state, newAck := j.trunc, toPeer := j.npeer, toRing := j.nring,
             newQueue := [.copies j.trunc.toNat j.next.toNat] }
  else j
/-- The frames that a write of jcfg sends: a move copies the entries trunc to next − 1 to the new partner (spec/19 R387). -/
def jcfgFrames (j : Journal) (v : Word) : Nat :=
  if j.state ≠ 3 ∧ (jcfgWrite j v).state = 3 then j.next.toNat - j.trunc.toNat else 0
def State.writeJcfg (s : State) (v : Word) : State :=
  let j := s.journal s.jcidx.toNat
  let n := jcfgFrames j v
  (if n = 0 then s else s.bump (1688 + j.port) 0 n).setJournal s.jcidx.toNat (jcfgWrite j v)
def jcfgRead (j : Journal) : Word :=
  BitVec.ofNat 64 ((if j.en then 2 ^ 63 else 0) + j.ten.toNat * 2 ^ 40 + j.port * 2 ^ 32 + j.state)
/-- The journal counters a hart reads: 0 for a context of another tenant or disabled (spec/19 R382). -/
def State.ownJournal (s : State) (h : Nat) : Option Journal :=
  let j := s.journal (s.hart h).jsel.toNat
  if j.en && j.ten == (s.hart h).tenant then some j else none

-- The registers ------------------------------------------------------------------------------------------------------------------------

/-- read_creg for a hart, every reserved bit 0 (spec/07 R150). kwin is the window before its step. -/
def State.readCreg (s : State) (h : Nat) (r : Creg) : Word :=
  let x := s.hart h
  let c := s.core (coreOf h)
  let k := s.cluster (clusterOf h)
  let j := s.journal s.jcidx.toNat
  let w := fun (n : Nat) => BitVec.ofNat 64 n
  match r with
  | .vlen => w x.vlen
  | .mvlen => w x.mvlen
  | .vtype => x.vtype
  | .dqlen => w (s.geyserOf h).length
  | .kidx => x.kidx
  | .kwin => x.window
  | .fpctl => x.fpctl.zeroExtend 64
  | .fpflags => x.fpflags.zeroExtend 64
  | .ptemp => x.ptemp.zeroExtend 64
  | .gctr => x.gctr
  | .hid => w h
  | .gid => w x.gid
  | .gsz => w x.gsz
  | .garg => x.garg
  | .tenant => x.tenant.zeroExtend 64
  | .clk => s.clk
  | .tstamp => w (s.tstamp (dieOf h))
  | .hstat => x.hstat
  | .tvec => x.tvec
  | .tpc => x.tpc
  | .tcause => x.tcause
  | .tval => x.tval
  | .tinfo => x.tinfo
  | .tscratch => x.tscratch
  | .ectr => x.ectr
  | .ew i => Tab.get 0 c.ew i
  | .resb i => Tab.get 0 k.resb i
  | .resc i => Tab.get 0 k.resc i
  | .tbase => x.tbase
  | .tinv => s.tinv
  | .dropcnt => w (s.die (dieOf h)).dropcnt
  | .sbase i => (s.stream i).sbase
  | .sctl i => (s.stream i).sctl
  | .tmask => x.tmask.zeroExtend 64
  | .tallow => x.tallow.zeroExtend 64
  | .cnsel => x.cnsel.zeroExtend 64
  | .cnval => if countsAt x.cnsel.toNat then w (Tab.get 0 s.counters x.cnsel.toNat) else 0
  | .ctbase => s.ctbase
  | .cnloss => w s.cnloss
  | .csel i => Tab.get 0 c.csel i
  | .lcfg i => Tab.get 0 c.lcfg i
  | .wlo i => Tab.get 0 c.wlo i
  | .whi i => Tab.get 0 c.whi i
  | .wctl i => Tab.get 0 c.wctl i
  | .cxst => match (x.gang.bind s.gangOf).bind (·.trial) with
    | some t => w (2 ^ 63) ||| keep 0x01FFFFFFFFFFFF80 t.desc
    | none => 0
  | .jsel => x.jsel.zeroExtend 64
  | .jnext => match s.ownJournal h with
    | some j => j.next
    | none => 0
  | .jack => match s.ownJournal h with
    | some j => j.ack
    | none => 0
  | .jstat => match s.ownJournal h with
    | some j => w (j.held.length * 2 ^ 16 + j.state)
    | none => 0
  | .jcidx => s.jcidx.zeroExtend 64
  | .jcfg => jcfgRead j
  | .jsid => j.sid
  | .jpeer => j.peer
  | .jring => j.ring
  | .jlog => j.log
  | .jnpeer => j.npeer
  | .jnring => j.nring
  | .jcnext => j.next
  | .jcack => j.ack
  | .jctrunc => j.trunc
  | .jcrep => j.rep
  | .jcend => j.stop

/-- A unit is cleared; a capture in the same cycle is lost, which the item lost says (spec/18 R372). -/
def Core.clearUnit (c : Core) (j : Nat) : Core :=
  { c with latency := Tab.put c.latency j { lost := if c.clash.contains j then 1 else 0 }, clash := c.clash.filter (· != j) }
/-- LCFG_WRITE: a write clears the unit (spec/18 R370, R372). -/
def State.writeLcfg (s : State) (core j : Nat) (v : Word) : State :=
  s.updCore core fun c => { c.clearUnit j with lcfg := Tab.put c.lcfg j (keep 0x801FFF0F0F00000F v) }
/-- RESIDENCY_WRITE: a write clears the range's accumulator (spec/12 R251, R253). -/
def State.writeResb (s : State) (k i : Nat) (v : Word) : State :=
  s.updCluster k fun c => { c with resb := Tab.put c.resb i (keep 0x800FFFFFFFFF0000 v), acc := Tab.put c.acc i 0 }
def State.writeResc (s : State) (k i : Nat) (v : Word) : State :=
  s.updCluster k fun c => { c with resc := Tab.put c.resc i (rescValue v), acc := Tab.put c.acc i 0 }
/-- TALLOW_WRITE (spec/18 R364). -/
def tallowWrite (x : Hart) (v : Word) : Hart :=
  let a : BitVec 16 := v.truncate 16 ||| 0x0020
  { x with tallow := a, tmask := x.tmask &&& a ||| 0x0020 }
/-- PTEMP_WRITE (spec/06 R131). -/
def ptempWrite (x : Hart) (v : Word) : Hart := { (x.raise (ptempValue v).2) with ptemp := (ptempValue v).1 }

/-- A write of cselj: an event of the same cycle is credited to the old selection (spec/18 R368). -/
def State.writeCsel (s : State) (core i : Nat) (v : Word) : State :=
  { s with selWrite := s.selWrite <|> some (core, (s.core core).csel) }.updCore core fun c => { c with csel := Tab.put c.csel i v }
/-- write_creg for a hart with the register's own rule; a register that is only read keeps its value. -/
def State.writeCreg (s : State) (h : Nat) (r : Creg) (v : Word) : State :=
  let upd := fun (f : Hart → Hart) => s.updHart h f
  let core := fun (f : Core → Core) => s.updCore (coreOf h) f
  let jc := fun (f : Journal → Journal) =>
    let j := s.journal s.jcidx.toNat
    if j.state = 0 then s.setJournal s.jcidx.toNat (f j) else s
  match r with
  | .kidx => upd fun x => { x with kidx := keep 0x3FF8 v }
  | .kwin => upd fun x => x.setWindow v
  | .fpctl => upd fun x => { x with fpctl := v.truncate 10 }
  | .fpflags => upd fun x => { x with fpflags := v.truncate 9 }
  | .ptemp => upd fun x => ptempWrite x v
  | .gctr => upd fun x => { x with gctr := v }
  | .tenant => upd fun x => { x with tenant := v.truncate 12 }
  | .tvec => upd fun x => { x with tvec := keep 0xFFFFFFFFFFFFFFFC v }
  | .tpc => upd fun x => { x with tpc := keep 0xFFFFFFFFFFFFFFFC v }
  | .tcause => upd fun x => { x with tcause := keep 0xE000000000FF00FF v }
  | .tval => upd fun x => { x with tval := v }
  | .tinfo => upd fun x => { x with tinfo := keep 0xFFFFFFFFFFFFFF00 v }
  | .tscratch => upd fun x => { x with tscratch := v }
  | .ectr => upd fun x => { x with ectr := keep 0x8000FFFFFFFFFFFF v }
  | .ew i => core fun c => { c with ew := Tab.put c.ew i (ewValue i v) }
  | .resb i => s.writeResb (clusterOf h) i v
  | .resc i => s.writeResc (clusterOf h) i v
  | .tbase => upd fun x => { x with tbase := keep 0x000FFFFFFFFFF001 v }
  | .tinv => s.writeTinv v
  | .sbase i => s.writeStream i (keep 0x000FFFFFFFFFFFC0 v) (s.stream i).sctl
  | .sctl i => s.writeStream i (s.stream i).sbase (sctlValue v)
  | .tallow => upd fun x => tallowWrite x v
  | .cnsel => upd fun x => { x with cnsel := v.truncate 18 }
  | .cnval => s.writeCounter (s.hart h).cnsel.toNat (v.toNat % 2 ^ 32)
  | .ctbase => s.writeCtbase v
  | .csel i => s.writeCsel (coreOf h) i (keep (selMask + 0x3F) v)
  | .lcfg i => s.writeLcfg (coreOf h) i v
  | .wlo i => core fun c => { c with wlo := Tab.put c.wlo i (keep 0x01FFFFFFFFFFFFFF v) }
  | .whi i => core fun c => { c with whi := Tab.put c.whi i (keep 0x01FFFFFFFFFFFFFF v) }
  | .wctl i => core fun c => { c with wctl := Tab.put c.wctl i (keep (selMask + 3) v) }
  | .jsel => upd fun x => { x with jsel := v.truncate 8 }
  | .jcidx => { s with jcidx := v.truncate 8 }
  | .jcfg => s.writeJcfg v
  | .jsid => jc fun j => { j with sid := v }
  | .jpeer => jc fun j => { j with peer := keep 0x800000000000FFFF v }
  | .jring => jc fun j => { j with ring := keep 0x01FFFFFFFFFFF000 v }
  | .jlog => jc fun j => { j with log := jlogValue v }
  | .jnpeer => s.setJournal s.jcidx.toNat { s.journal s.jcidx.toNat with npeer := keep 0x800000000000FFFF v }
  | .jnring => s.setJournal s.jcidx.toNat { s.journal s.jcidx.toNat with nring := keep 0x01FFFFFFFFFFF000 v }
  | .jcnext => jc fun j => { j with next := v }
  | .jcack => jc fun j => { j with ack := v }
  | .jctrunc => jc fun j => { j with trunc := v }
  | .jcrep => jc fun j => { j with rep := v }
  | .jcend => jc fun j => { j with stop := v }
  | _ => s

/-- Whether an access needs supervisor level (spec/07 R147). -/
def cregPrivileged (op : CregOp) (r : Creg) : Bool :=
  match cregAccess r, op with
  | .s, _ => true
  | .ros, .get => false
  | .ros, _ => true
  | _, _ => false
/-- Registers whose access is a vector instruction (spec/05 R121, spec/11 R232). -/
def cregVector (r : Creg) : Bool :=
  match r with
  | .kwin | .dqlen => true
  | _ => false
/-- After an access to kwin, group steps (spec/05 R120). -/
def State.afterCreg (s : State) (h : Nat) (r : Creg) : State :=
  match r with
  | .kwin => (s.updHart h Hart.stepWindow).bumpHart h 1 1
  | _ => s
/-- An access of a hart: the value before it, and the state after (spec/07 R150). One step. -/
def State.accessCreg (s : State) (h : Nat) (op : CregOp) (r : Creg) (v : Word) : Word × State :=
  let old := s.readCreg h r
  (old, match op with
    | .get => s.afterCreg h r
    | _ => (s.writeCreg h r v).afterCreg h r)
/-- The tests before an access: ownership, then the level, with the register number as value (spec/07 R147). -/
def cregTests (op : CregOp) (r : Creg) (c : BitVec 12) : Op Unit := do
  if cregVector r then needOwner
  if cregPrivileged op r && (← ask fun s => !s.me.sup) then trap 0x03 0 (c.zeroExtend 64)
def cregWord (op : CregOp) (d : Option Reg) (src : Option Reg) (c : BitVec 12) : State → Out := finish do
  match cregOf c with
  | none => trap 0x01 0 (c.zeroExtend 64)
  | some r =>
    cregTests op r c
    upd fun s =>
      let (old, s) := s.accessCreg s.cur op r (match src with
        | some a => s.readX a
        | none => 0)
      match d with
      | some d => s.retire d old
      | none => s.advance

def execCget (d : Reg) (c : BitVec 12) : State → Out := cregWord .get (some d) none c
def execCset (a : Reg) (c : BitVec 12) : State → Out := cregWord .set none (some a) c
def execCswap (d a : Reg) (c : BitVec 12) : State → Out := cregWord .swap (some d) (some a) c

end Sys2Proof.Machine
end

