-- ==== Sys2Proof/Machine/CrossLane.lean ====
section
/-!
DEFINITION. Across the lanes: reductions, scans, permutations, predicate counts (spec/09 R187 to R197, spec/04 R97, R98).
-/
namespace Sys2Proof.Machine

-- Rows that take part (spec/09 R187) ------------------------------------------------------------------------------------

/-- A selecting predicate holds the bit class (spec/06 R127). -/
def needBits (p : Reg) : Op Unit := do
  if ← ask fun s => (s.me.pred p).prob then trap 0x10 0 (p.zeroExtend 64)
/-- The rows below the length and the capacity of a type. -/
def Hart.rowsAt (h : Hart) (t : ETy) : Nat := min h.rows (capOf t h.vtype h.lanes)
def activeRows (h : Hart) (t : ETy) (p : Option Prefix) : List Nat :=
  match p with
  | none => upTo (h.rowsAt t)
  | some q => (upTo (h.rowsAt t)).filter fun i => (h.pred q.p).bit i != q.neg
def needPrefix (p : Option Prefix) : Op Unit := match p with
  | none => pure ()
  | some q => needBits q.p

inductive RedOp where
  | add | min | max | and | or | xor
  deriving DecidableEq, Repr

-- Identities and reductions (spec/09 R189, R190) ------------------------------------------------------------------------------

def intIdentity (op : RedOp) (t : ETy) : Int :=
  match op with
  | .min => maxOf (tySigned t) (tyBits t)
  | .max => minOf (tySigned t) (tyBits t)
  | .and => ((2 ^ tyBits t - 1 : Nat) : Int)
  | _ => 0
/-- −0, +∞ or −∞ as bits of a format. -/
def floatIdentity (op : RedOp) (f : Fmt) : Nat :=
  match op with
  | .min => infBits f
  | .max => withSign f true (infBits f)
  | _ => withSign f true 0
/-- The pattern operations. -/
def patternOp (op : RedOp) (a b : Nat) : Nat :=
  match op with
  | .and => a &&& b
  | .or => a ||| b
  | _ => a ^^^ b
/-- An integer reduction of patterns: one saturation of the exact sum. -/
def redInt (op : RedOp) (t : ETy) (xs : List Nat) : Res :=
  match op with
  | .add => satInt t (xs.foldl (fun z x => z + tyInt t x) 0)
  | .min => { bits := wrapN (tyBits t) (xs.foldl (fun z x => min z (tyInt t x)) (intIdentity .min t)) }
  | .max => { bits := wrapN (tyBits t) (xs.foldl (fun z x => max z (tyInt t x)) (intIdentity .max t)) }
  | op => { bits := xs.foldl (patternOp op) (wrapN (tyBits t) (intIdentity op t)) }

/-- A partial sum: FP32 bits and the flags raised. -/
abbrev Part := Nat × Flags
def negZero : Part := (withSign .f32 true 0, 0)
def addPart (ctl : BitVec 10) (p : Part) (x : FVal) (fl : Flags) : Part :=
  let r := fAdd .f32 ctl .rne (valueOf .f32 p.1) x
  (r.bits, p.2 ||| r.fl ||| fl)
/-- part[l] of spec/04 R97: the lane's active rows in ascending slots. -/
def lanePart (ctl : BitVec 10) (f : Fmt) (lanes l : Nat) (xs : List (Nat × Nat)) : Part :=
  (xs.filter fun x => x.1 % lanes == l).foldl (fun p x =>
    let (v, fl) := operand f ctl x.2
    addPart ctl p v fl) negZero
/-- One level of the tree: pairs at distance span. -/
def treeLevel (ctl : BitVec 10) (span : Nat) (ps : List Part) : List Part :=
  (upTo ps.length).map fun l =>
    let a := ps.getD l negZero
    if l % (2 * span) = 0 then match ps[l + span]? with
      | some b => addPart ctl a (valueOf .f32 b.1) b.2
      | none => a
    else a
/-- The fixed binary tree over the lanes. -/
def treeSum (ctl : BitVec 10) : Nat → Nat → List Part → Part
  | 0, _, ps => ps.headD negZero
  | n + 1, span, ps => if ps.length ≤ span then ps.headD negZero else treeSum ctl n (2 * span) (treeLevel ctl span ps)
/-- round_t(s, rne) of an FP32 sum. -/
def roundSum (ctl : BitVec 10) (f : Fmt) (p : Part) : Res :=
  let (b, fl) := roundVal f (resultFlush ctl f) .rne (valueOf .f32 p.1)
  Res.nf f { bits := b, fl := fl ||| (p.2 &&& ~~~flagNf) }
/-- The extreme element that is not a NaN, as read; the first wins ties of equal value and sign. -/
def extreme (isMax : Bool) (f : Fmt) (ctl : BitVec 10) (xs : List (Nat × Nat)) : Option (Nat × Nat) :=
  xs.foldl (fun best x =>
    let v := (operand f ctl x.2).1
    if isNan v then best
    else match best with
      | none => some x
      | some y =>
        let w := (operand f ctl y.2).1
        if (if isMax then belowFor w v else belowFor v w) then some x else best) none
def readFlags (f : Fmt) (ctl : BitVec 10) (xs : List (Nat × Nat)) : Flags :=
  xs.foldl (fun fl x => fl ||| (operand f ctl x.2).2) 0
/-- A float reduction of rows with their bits. -/
def redFloat (op : RedOp) (f : Fmt) (ctl : BitVec 10) (lanes : Nat) (xs : List (Nat × Nat)) : Res :=
  match op with
  | .add => roundSum ctl f (treeSum ctl 6 1 ((upTo lanes).map fun l => lanePart ctl f lanes l xs))
  | op =>
    let bits := match extreme (op == .max) f ctl xs with
      | some x => asRead f ctl x.2
      | none => if xs.isEmpty then floatIdentity op f else qnan f
    let r := Res.nf f { bits := bits }
    { r with fl := r.fl ||| readFlags f ctl xs }

/-- The rows of a register that take part, with their bits. -/
def takeRows (h : Hart) (t : ETy) (a : Reg) (rows : List Nat) : List (Nat × Nat) := rows.map fun i => (i, h.elem a (tyBits t) i)
/-- A value of a type as written to X[d] (spec/09 R188). -/
def laneExt (t : ETy) (v : Nat) : Word :=
  if tySigned t then BitVec.ofInt 64 (sextN v (tyBits t)) else BitVec.ofNat 64 v
/-- A cross-lane word with a scalar result: charged for its active rows. -/
def laneScalar (t : ETy) (p : Option Prefix) (d a : Reg) (f : Hart → List (Nat × Nat) → Word × Flags) : State → Out :=
  finish do
    needOwner
    needPrefix p
    upd fun s =>
      let rows := activeRows s.me t p
      let (v, fl) := f s.me (takeRows s.me t a rows)
      ((s.chargeMe 4 rows.length).bumpMe 1 1).retireFlags d v fl
def reduce (op : RedOp) (t : ETy) (p : Option Prefix) (d a : Reg) : State → Out :=
  laneScalar t p d a fun h xs =>
    let r := match tyFmt t with
      | none => redInt op t (xs.map Prod.snd)
      | some f => redFloat op f h.fpctl h.lanes xs
    (laneExt t r.bits, r.fl)
def execVredAdd (t : ETy) (p : Option Prefix) (d a : Reg) : State → Out := reduce .add t p d a
def execVredMin (t : ETy) (p : Option Prefix) (d a : Reg) : State → Out := reduce .min t p d a
def execVredMax (t : ETy) (p : Option Prefix) (d a : Reg) : State → Out := reduce .max t p d a
def execVredAnd (t : ETy) (p : Option Prefix) (d a : Reg) : State → Out := reduce .and t p d a
def execVredOr (t : ETy) (p : Option Prefix) (d a : Reg) : State → Out := reduce .or t p d a
def execVredXor (t : ETy) (p : Option Prefix) (d a : Reg) : State → Out := reduce .xor t p d a

-- Minimum and maximum with index (spec/09 R191) ---------------------------------------------------------------------------------

/-- The first row of the extreme integer value. -/
def extremeInt (isMax : Bool) (t : ETy) (xs : List (Nat × Nat)) : Option (Nat × Nat) :=
  xs.foldl (fun best x => match best with
    | none => some x
    | some y => if (if isMax then tyInt t y.2 < tyInt t x.2 else tyInt t x.2 < tyInt t y.2) then some x else best) none
def indexWord (isMax : Bool) (t : ETy) (p : Option Prefix) (d a : Reg) : State → Out :=
  laneScalar t p d a fun h xs =>
    let (best, fl) := match tyFmt t with
      | none => (extremeInt isMax t xs, (0 : Flags))
      | some f => (extreme isMax f h.fpctl xs, readFlags f h.fpctl xs)
    (match best with
      | some x => BitVec.ofNat 64 x.1
      | none => BitVec.allOnes 64, fl)
def execVminidx (t : ETy) (p : Option Prefix) (d a : Reg) : State → Out := indexWord false t p d a
def execVmaxidx (t : ETy) (p : Option Prefix) (d a : Reg) : State → Out := indexWord true t p d a

-- Scans (spec/09 R192) ---------------------------------------------------------------------------------------------------------------

/-- Sets rows of a register. -/
def putRows (h : Hart) (t : ETy) (d : Reg) (xs : List (Nat × Nat)) : Hart :=
  h.setVimg d (xs.foldl (fun img x => withElem img (tyBits t) x.1 x.2) (h.vimg d))
def scanInt (op : RedOp) (t : ETy) : Int → List (Nat × Nat) → List (Nat × Nat) × Flags
  | _, [] => ([], 0)
  | run, x :: xs =>
    let r : Res := match op with
      | .add => satInt t (run + tyInt t x.2)
      | .min => { bits := wrapN (tyBits t) (min run (tyInt t x.2)) }
      | .max => { bits := wrapN (tyBits t) (max run (tyInt t x.2)) }
      | op => { bits := patternOp op (wrapN (tyBits t) run) x.2 }
    let (l, fl) := scanInt op t (tyInt t r.bits) xs
    ((x.1, r.bits) :: l, r.fl ||| fl)
/-- A float sum scan: each step in FP32, each output rounded to the type (spec/04 R98). -/
def scanAdd (f : Fmt) (ctl : BitVec 10) : Part → List (Nat × Nat) → List (Nat × Nat) × Flags
  | _, [] => ([], 0)
  | run, x :: xs =>
    let (v, fx) := operand f ctl x.2
    let run := addPart ctl (run.1, 0) v fx
    let r := roundSum ctl f run
    let (l, fl) := scanAdd f ctl run xs
    ((x.1, r.bits) :: l, r.fl ||| fl)
/-- A float minimum or maximum scan: a NaN row is skipped, outputs are rounded as spec/09 R192 writes them. -/
def scanMinMax (isMax : Bool) (f : Fmt) (ctl : BitVec 10) : Nat → List (Nat × Nat) → List (Nat × Nat) × Flags
  | _, [] => ([], 0)
  | run, x :: xs =>
    let r := fMinMax f ctl isMax run x.2
    let (b, fb) := roundVal f (resultFlush ctl f) .rne (valueOf f r.bits)
    let (l, fl) := scanMinMax isMax f ctl r.bits xs
    ((x.1, b) :: l, r.fl ||| fb ||| fl)
def scan (op : RedOp) (t : ETy) (ctl : BitVec 10) (xs : List (Nat × Nat)) : List (Nat × Nat) × Flags :=
  match tyFmt t with
  | none => scanInt op t (intIdentity op t) xs
  | some f => if op = .add then scanAdd f ctl negZero xs else scanMinMax (op == .max) f ctl (floatIdentity op f) xs
/-- A cross-lane word with a vector result. -/
def scanWord (op : RedOp) (t : ETy) (p : Option Prefix) (d a : Reg) : State → Out := finish do
  needOwner
  needPrefix p
  upd fun s =>
    let rows := activeRows s.me t p
    let (l, fl) := scan op t s.me.fpctl (takeRows s.me t a rows)
    let s := s.updMe fun h => (putRows h t d l).raise fl
    ((s.chargeMe 4 rows.length).bumpMe 1 1).advance
def execVscanAdd (t : ETy) (p : Option Prefix) (d a : Reg) : State → Out := scanWord .add t p d a
def execVscanMin (t : ETy) (p : Option Prefix) (d a : Reg) : State → Out := scanWord .min t p d a
def execVscanMax (t : ETy) (p : Option Prefix) (d a : Reg) : State → Out := scanWord .max t p d a
def execVscanAnd (t : ETy) (p : Option Prefix) (d a : Reg) : State → Out := scanWord .and t p d a
def execVscanOr (t : ETy) (p : Option Prefix) (d a : Reg) : State → Out := scanWord .or t p d a
def execVscanXor (t : ETy) (p : Option Prefix) (d a : Reg) : State → Out := scanWord .xor t p d a

-- Permutation, compression, expansion, slides (spec/09 R193 to R195) --------------------------------------------------------------------

/-- A word that moves rows bit for bit: f gives the rows written from the rows read, m of them. -/
def moveRows (t : ETy) (d a : Reg) (f : Hart → Nat → (Nat → Nat) → List (Nat × Nat)) : Op Unit :=
  upd fun s =>
    let m := s.me.rowsAt t
    let l := f s.me m fun i => s.me.elem a (tyBits t) i
    let s := s.updMe fun h => putRows h t d l
    ((s.chargeMe 4 m).bumpMe 1 1).advance
def execVperm (t : ETy) (d a b : Reg) : State → Out := finish do
  needOwner
  let n ← ask fun s => s.me.rows
  if ← ask fun s => decide (vlmax 2 0 s.me.lanes < n) then trap 0x11 0 (BitVec.ofNat 64 n)
  moveRows t d a fun h m src => (upTo m).map fun i =>
    let j := h.elem b 32 i
    (i, if j < m then src j else 0)
/-- The rows below m that a predicate selects. -/
def selected (h : Hart) (p : Reg) (m : Nat) : List Nat := (upTo m).filter fun i => (h.pred p).bit i
def execVcompress (t : ETy) (d a p : Reg) : State → Out := finish do
  needOwner
  needBits p
  moveRows t d a fun h m src => (selected h p m).zipIdx.map fun x => (x.2, src x.1)
def execVexpand (t : ETy) (d a p : Reg) : State → Out := finish do
  needOwner
  needBits p
  moveRows t d a fun h m src => (selected h p m).zipIdx.map fun x => (x.1, src x.2)
def execVslideUp (t : ETy) (d a c : Reg) : State → Out := finish do
  needOwner
  moveRows t d a fun h m src =>
    let k := (h.readX c).toNat
    ((upTo m).filter fun i => decide (k ≤ i)).map fun i => (i, src (i - k))
/-- vslide.down (spec/09 R195). A source row at or above the capacity and below the length reads as zero bits
(log 70, DESIGN CHOICE). -/
def execVslideDown (t : ETy) (d a c : Reg) : State → Out := finish do
  needOwner
  moveRows t d a fun h m src =>
    let k := (h.readX c).toNat
    (upTo m).map fun i => (i, if i + k < m then src (i + k) else 0)

-- Predicate counts (spec/09 R196) -----------------------------------------------------------------------------------------------------------

def countWord (d p : Reg) (f : List Nat → Word) : State → Out := finish do
  needOwner
  needBits p
  upd fun s =>
    let m := min s.me.rows (256 * s.me.lanes)
    ((s.chargeMe 4 m).bumpMe 1 1).retire d (f (selected s.me p m))
def execVfirst (d a : Reg) : State → Out := countWord d a fun l => match l with
  | [] => BitVec.allOnes 64
  | i :: _ => BitVec.ofNat 64 i
def execVpcount (d a : Reg) : State → Out := countWord d a fun l => BitVec.ofNat 64 l.length

end Sys2Proof.Machine
end

