-- ==== Sys2Proof/Machine/BlockInfo.lean ====
section
/-!
DEFINITION. What each block word reads and writes: the facts that closures (spec/02 R49), predicate tags (spec/06 R124,
R125) and convoys (spec/08 R166) need.
-/
namespace Sys2Proof.Machine

/-- The units of spec/08 R166; vstop belongs to none. -/
inductive RowUnit where
  | multiply | add | convert | predicate | memory | none
  deriving DecidableEq, Repr

/-- Registers a block word reads and writes. A mask counts as written. -/
structure Info where
  unit : RowUnit := .none
  cv : Bool := false
  writesV : List Reg := []
  writesP : List Reg := []
  readsV : List Src := []
  readsP : List Reg := []
  deriving DecidableEq, Repr

def prefixRegs (h : BHead) : List Reg :=
  match h.pred with
  | some p => [p.p]
  | none => []
/-- A word of a vector destination. -/
def infoV (u : RowUnit) (h : BHead) (d : Reg) (srcs : List Src) (m : Option Reg) : Info :=
  { unit := u, cv := h.cv, writesV := [d], writesP := m.toList, readsV := srcs, readsP := prefixRegs h }
/-- A word of a predicate destination. -/
def infoP (u : RowUnit) (h : BHead) (d : Reg) (srcs : List Src) (ps : List Reg) : Info :=
  { unit := u, cv := h.cv, writesP := [d], readsV := srcs, readsP := prefixRegs h ++ ps }
def infoM (h : BHead) (ds : List Reg) (srcs : List Src) : Info :=
  { unit := .memory, cv := h.cv, writesV := ds, readsV := srcs, readsP := prefixRegs h }
def plainHead (cv : Bool) : BHead := ⟨cv, none⟩

/-- What a block word is; a word of another kind reads and writes nothing. -/
def blockInfo : Instr → Info
  | .vadd h _ _ d a b m | .vsub h _ _ d a b m => infoV .add h d [a, b] m
  | .vmul h _ _ d a b m | .vdiv h _ _ d a b m => infoV .multiply h d [a, b] m
  | .vmulh h _ d a b => infoV .multiply h d [a, b] none
  | .vmac h _ _ d a b m => infoV .multiply h d [a, b, ⟨d, false⟩] m
  | .vfma h _ _ d a b c m => infoV .multiply h d [a, b, c] m
  | .vrem h _ d a b m => infoV .multiply h d [a, b] m
  | .vmin h _ d a b | .vmax h _ d a b => infoV .add h d [a, b] none
  | .vabs h _ d a m | .vneg h _ d a m => infoV .add h d [a] m
  | .vsqrt h _ _ d a => infoV .multiply h d [a] none
  | .vand h _ d a b | .vor h _ d a b | .vxor h _ d a b => infoV .add h d [a, b] none
  | .vnot h _ d a => infoV .add h d [a] none
  | .vshl h _ d a b | .vshr h _ d a b | .vsra h _ d a b => infoV .add h d [a, b] none
  | .vpopc h _ d a | .vclz h _ d a => infoV .add h d [a] none
  | .vsel h _ d a b n =>
    { unit := .add, cv := h.cv, writesV := [d], readsV := [a, b], readsP := prefixRegs h ++ [n] }
  | .vli h _ d _ => infoV .add h d [] none
  | .vmov h _ d a => infoV .add h d [a] none
  | .vcvt h _ _ _ d a m => infoV .convert h d [a] m
  | .vclass h _ d a => infoV .convert h d [a] none
  | .vrcp h _ d a m | .vrsqrt h _ d a m | .vexp2 h _ d a m | .vlog2 h _ d a m => infoV .convert h d [a] m
  | .vqadd h d a b m => infoV .add h d [a, b] m
  | .vqmul h d a b m => infoV .multiply h d [a, b] m
  | .vqpack h _ d a m => infoV .convert h d [a] m
  | .vqunpack h _ d a => infoV .convert h d [a] none
  | .vscale h _ _ d a _ m => infoV .multiply h d [a] m
  | .vcmp h _ _ d a b => infoP .add h d [a, b] []
  | .pand h d a b | .por h d a b | .pxor h d a b => infoP .predicate h d [] [a, b]
  | .pnot h d a | .pmov h d a => infoP .predicate h d [] [a]
  | .psgt h _ d a b | .psge h _ d a b | .pslt h _ d a b | .psle h _ d a b => infoP .predicate h d [a, b] []
  | .pset h d a => infoP .predicate h d [a] []
  | .pind cv _ _ => { unit := .predicate, cv := cv }
  | .pcollapse cv d a => infoP .predicate (plainHead cv) d [] [a]
  | .vblend cv _ _ d a b c =>
    { unit := .multiply, cv := cv, writesV := [d], readsV := [a, b], readsP := [c] }
  | .vbgrad h _ _ d g a b | .psgrad h _ _ d g a b => infoV .multiply h d [g, a, b] none
  | .vlde h _ _ d a _ => infoM h [d] [a]
  | .vste h _ _ a b _ => infoM h [] [a, b]
  | .vamo h op _ _ d a b n => infoM h [d] (if op = .cas then [a, b, n] else [a, b])
  | .vdefer h d a b c _ => infoM h [] ((d.map fun r => (⟨r, false⟩ : Src)).toList ++ a.toList ++ b.toList ++ c.toList)
  | .vfetch h _ => infoM h [] []
  | _ => {}

/-- Words that read a 64-bit address per row (spec/03 R56). -/
def isRowMemory : Instr → Bool
  | .vlde .. | .vste .. | .vamo .. => true
  | _ => false
/-- Words that end their convoy (spec/08 R166). -/
def endsConvoy : Instr → Bool
  | .vdefer .. | .vfetch .. => true
  | _ => false
def isStop : Instr → Bool
  | .vstop => true
  | _ => false
/-- The block offset a vfetch or vdefer names, in block words. -/
def namedBlock : Instr → Option (BitVec 12)
  | .vdefer _ _ _ _ _ i => some i
  | .vfetch _ i => some i
  | _ => none

-- Convoys (spec/08 R166) ---------------------------------------------------------------------------------------------------

/-- Whether a later word of a convoy conflicts with an earlier one. -/
def convoyClash (e l : Info) : Bool :=
  (e.unit == l.unit && e.unit != .none)
    || e.writesV.any l.writesV.contains || e.writesP.any l.writesP.contains
    || l.readsV.any (fun s => !s.ch && e.writesV.contains s.r)
    || l.readsP.any e.writesP.contains
/-- The place of the first word of a convoy that cannot issue with the words before it; a vdefer or vfetch that is not
the last word is such a word itself. -/
def convoyConflict (before : List Info) : List Instr → Nat → Option Nat
  | [], _ => none
  | i :: rest, n =>
    let x := blockInfo i
    if before.any (fun e => convoyClash e x) || (endsConvoy i && !rest.isEmpty) then some n
    else convoyConflict (before ++ [x]) rest (n + 1)

-- Predicate tags (spec/06 R124, R125) -----------------------------------------------------------------------------------------

/-- How a word of a closure bears on a predicate register's tags. -/
inductive TagUse where
  | bits (d : Reg)                    -- vcmp, pcollapse
  | frac (d : Reg)                    -- soft compares, pset
  | logic (d : Reg) (srcs : List Reg)
  | asserts (d : Reg) (v : Bool)
  deriving DecidableEq, Repr
def tagUse : Instr → Option TagUse
  | .vcmp _ _ _ d _ _ => some (.bits d)
  | .pcollapse _ d _ => some (.bits d)
  | .psgt _ _ d _ _ | .psge _ _ d _ _ | .pslt _ _ d _ _ | .psle _ _ d _ _ => some (.frac d)
  | .pset _ d _ => some (.frac d)
  | .pand _ d a b | .por _ d a b | .pxor _ d a b => some (.logic d [a, b])
  | .pnot _ d a | .pmov _ d a => some (.logic d [a])
  | .pind _ d v => some (.asserts d v)
  | _ => none

/-- Registers in ascending order. -/
def allRegs : List Reg := (upTo 32).map (BitVec.ofNat 5)
def writtenBy (us : List TagUse) (r : Reg) : Bool :=
  us.any fun u => match u with
    | .bits d => d == r
    | .frac d => d == r
    | .logic d _ => d == r
    | .asserts _ _ => false
/-- The value pind asserts for a register. -/
def assertedFor (us : List TagUse) (r : Reg) : Option Bool :=
  us.findSome? fun u => match u with
    | .asserts d v => if d = r then some v else none
    | _ => none
def assertedBoth (us : List TagUse) (r : Reg) : Bool :=
  us.contains (.asserts r true) && us.contains (.asserts r false)
def bitWritten (us : List TagUse) (r : Reg) : Bool := us.contains (.bits r)
def directlyWritten (us : List TagUse) (r : Reg) : Bool := us.contains (.bits r) || us.contains (.frac r)

/-- One pass of the least solution for classes: prob lists the registers known to hold the probability class. -/
def classPass (us : List TagUse) (cls : Reg → Bool) (prob : List Reg) : List Reg :=
  us.foldl (fun p u => match u with
    | .frac d => if p.contains d then p else d :: p
    | .logic d srcs =>
      if !p.contains d && srcs.any (fun s => if writtenBy us s then p.contains s else cls s) then d :: p else p
    | _ => p) prob
def classLoop (us : List TagUse) (cls : Reg → Bool) : Nat → List Reg → List Reg
  | 0, p => p
  | n + 1, p => classLoop us cls n (classPass us cls p)
/-- The registers of W that resolve to the probability class. -/
def probOf (us : List TagUse) (cls : Reg → Bool) : List Reg := classLoop us cls 33 []

/-- One pass of the greatest solution for independence: dep lists the registers known to be 0. -/
def indPass (us : List TagUse) (ind : Reg → Bool) (dep : List Reg) : List Reg :=
  let fails := fun (dep : List Reg) (s : Reg) => match assertedFor us s with
    | some v => !v
    | none => if writtenBy us s then dep.contains s || !ind s else !ind s
  us.foldl (fun p u => match u with
    | .bits d => if p.contains d then p else d :: p
    | .frac d => if p.contains d then p else d :: p
    | .logic d srcs => if !p.contains d && srcs.any (fails p) then d :: p else p
    | _ => p) dep
def indLoop (us : List TagUse) (ind : Reg → Bool) : Nat → List Reg → List Reg
  | 0, p => p
  | n + 1, p => indLoop us ind n (indPass us ind p)
/-- The independence bit a register resolves to. -/
def indOf (us : List TagUse) (ind : Reg → Bool) (r : Reg) : Bool :=
  match assertedFor us r with
  | some v => v
  | none => if writtenBy us r then !(indLoop us ind 33 []).contains r else ind r

/-- The lowest register at which resolution fails (spec/06 R125). -/
def tagFailure (us : List TagUse) (cls : Reg → Bool) : Option Reg :=
  let prob := probOf us cls
  allRegs.find? fun r => (prob.contains r && bitWritten us r) || assertedBoth us r

end Sys2Proof.Machine
end

