-- ==== Sys2Proof/Machine/Row.lean ====
section
/-!
DEFINITION. How a row executes one block word (spec/03 R57): prefix, capacity, operands, results, marks and flags (spec/04
R92, R93, spec/05 R101 to R103), row faults (spec/03 R73, R74), and what the strip store buffer shows (spec/03 R60).
-/
namespace Sys2Proof.Machine

-- The run of the executing hart ------------------------------------------------------------------------------------------

def Run.row (r : Run) : RowState := r.rows.getD r.cur { pc := 0, block := 0, ended := true }
def Run.setRow (r : Run) (f : RowState → RowState) : Run := { r with rows := r.rows.modify r.cur f }
def State.updRun (s : State) (f : Run → Run) : State := s.updMe fun h => { h with run := h.run.map f }
/-- The row goes on at the next word of its block. -/
def State.rowNext (s : State) : State := s.updRun fun r => r.setRow fun x => { x with pc := x.pc + 8 }
def RowState.count (x : RowState) (addr : Nat) : Nat := Tab.get 0 x.inst addr
/-- Notes one more execution of a word by the row (spec/03 R61, spec/06 R139). -/
def State.rowCounts (s : State) : State :=
  s.updRun fun r => r.setRow fun x => { x with inst := Tab.put x.inst x.pc (x.count x.pc + 1) }

-- Row faults (spec/03 R73, R74) ----------------------------------------------------------------------------------------------

/-- The strip store buffer without the instances of the run. -/
def withoutInstances (b : List BufEntry) : List BufEntry := b.filter fun e => e.inst.isNone
/-- Keeps the first n entries of a hart in its core's queue, and every entry of the others. -/
def keepFirst (hart : Nat) : Nat → List GEntry → List GEntry
  | _, [] => []
  | n, e :: l =>
    if e.hart != hart then e :: keepFirst hart n l
    else match n with
      | 0 => keepFirst hart 0 l
      | n + 1 => e :: keepFirst hart n l
/-- The entries of a hart's vector queue leave the interlock table. -/
def State.freeQueueEntry (s : State) (h : Nat) : State :=
  s.updCore (coreOf h) fun c => { c with interlocks := c.interlocks.filter fun e => !(e.hart == h && e.copy == 0) }
/-- The requests that rows of a hart have at atomic engines are given up. -/
def State.dropRowRequests (s : State) (h : Nat) : State :=
  let mine := fun (r : AtomicReq) => r.hart == h && r.row.isSome
  if s.clusters.any fun e => e.2.atomics.any mine then
    { s with clusters := s.clusters.map fun (e : Nat × Cluster) => (e.1, { e.2 with atomics := e.2.atomics.filter (!mine ·) }) }
  else s
/-- A run is abandoned: its vste instances and its Geyser entries go, what rows wrote stays, and a vamo that waits at its engine
is not performed (log 4, DESIGN CHOICE); the entries behind it have no effect (spec/11 R219). -/
def State.abandonRun (s : State) (h : Nat) : State :=
  match (s.hart h).run with
  | none => s
  | some r =>
    let s := (s.dropRowRequests h).updCore (coreOf h) fun c => { c with geyser := keepFirst (h % 4) r.geyserMark c.geyser }
    (s.freeQueueEntry h).updHart h fun x => { x with run := none, queue := [], buffer := withoutInstances x.buffer }
/-- A row fault at the word at pc: a trap at the vf or vdrain with the block, the word and the row in the record; it
waits for the hart's copies (spec/13 R263). -/
def rowFaultAt {α : Type} (pc cause sub : Nat) (value : Word) : Op α := fun s =>
  match s.me.run with
  | none => .error s
  | some r =>
    if s.copying s.cur then .error (s.waitFor s.cur .copies)
    else
      let s := (s.abandonRun s.cur).updMe fun h => { h with pc := BitVec.ofNat 64 r.issuePc }
      .error (s.takeTrap s.cur
        { cause := cause, sub := sub, value := value, tpc := BitVec.ofNat 64 r.issuePc,
          aux := BitVec.ofNat 64 r.row.block, word := some (pc - r.row.block), pos := some r.cur })
/-- A row fault at the row's word. -/
def rowFault {α : Type} (cause sub : Nat) (value : Word) : Op α := fun s =>
  rowFaultAt (match s.me.run with
    | some r => r.row.pc
    | none => 0) cause sub value s

-- Reading and writing a row ------------------------------------------------------------------------------------------------------

/-- The capacity of a type in the run. -/
def Run.cap1 (r : Run) (t : ETy) : Nat := capOf t r.cap.vtype r.cap.lanes
/-- The rows a word of some element types acts on (spec/05 R102, spec/06 R123). -/
def Run.capacity (r : Run) (ts : List ETy) : Nat := ts.foldl (fun n t => min n (r.cap1 t)) (256 * r.cap.lanes)
def Run.qw (r : Run) : Nat := vtQw r.cap.vtype
def Run.qs (r : Run) : Bool := vtQs r.cap.vtype
/-- Element i of a register as a type reads it (spec/03 R53, spec/04 R82, R87). -/
def rowGet (r : Run) (h : Hart) (t : ETy) (reg : Reg) (i : Nat) : Nat :=
  match t with
  | .q => slicedRow (h.vimg reg) (r.cap1 .q) i r.qw
  | .pr => prRead (h.elem reg 16 i)
  | t => h.elem reg (tyBits t) i
def rowPut (r : Run) (h : Hart) (t : ETy) (reg : Reg) (i v : Nat) : Hart :=
  match t with
  | .q => h.setVimg reg (withSlicedRow (h.vimg reg) (r.cap1 .q) i v r.qw)
  | .pr => h.setElem reg 16 i (prRead v)
  | t => h.setElem reg (tyBits t) i v
/-- The exact integer of a sliced element. -/
def qval (r : Run) (b : Nat) : Int := intOf r.qs r.qw b

-- One word ----------------------------------------------------------------------------------------------------------------------------

/-- The row's prefix: whether the row acts (lst.b1). -/
def rowActs (h : BHead) (i : Nat) : Op Bool := do
  match h.pred with
  | none => pure true
  | some p =>
    let pr ← ask fun s => s.me.pred p.p
    if pr.prob then rowFault 0x10 0 (p.p.zeroExtend 64) else pure (pr.bit i != p.neg)
/-- The class of a mask predicate (spec/04 R93). R93 raises the trap 'when the word issues'; a row that its prefix leaves
out, or at or above the capacity, is no part of the word's effect (spec/05 R102), and the model tests the class in the
rows that act, so that a word with no such row raises nothing (log 57, DESIGN CHOICE). -/
def needMask (m : Option Reg) : Op Unit := do
  match m with
  | none => pure ()
  | some p => if ← ask fun s => (s.me.pred p).prob then rowFault 0x10 0 (p.zeroExtend 64)
/-- A block word executed by the run's current row: a row at or above the word's capacity, or that the prefix leaves
out, skips it; a row that executes it is charged to a class. cells says that the word reads or writes predicate cells
or vector elements. -/
def rowWord (h : BHead) (ts : List ETy) (cells : Bool) (cls : Nat) (body : Run → Nat → Op Unit) : State → Out := fun s =>
  match s.me.run with
  | none => .refused .blockWordOutsideRun
  | some r => finish (do
      if (cells || h.pred.isSome) && decide (r.capacity ts ≤ r.cur) then upd State.rowNext
      else if ← rowActs h r.cur then do
        body r r.cur
        upd fun s => s.chargeMe cls 1
      else upd State.rowNext) s
/-- The row's result into a vector register, its mark into the mask and its flags (spec/04 R92). -/
def State.rowStore (s : State) (r : Run) (t : ETy) (d : Reg) (m : Option Reg) (i : Nat) (x : Res) : State :=
  s.updMe fun h =>
    let h := (rowPut r h t d i x.bits).raise x.fl
    match m with
    | some p => if x.mark then h.setPred p ((h.pred p).setBit i true) else h
    | none => h
/-- A row word with one result: f reads the hart before anything is written (spec/05 R101). -/
def rowResult (h : BHead) (ts : List ETy) (t : ETy) (d : Reg) (m : Option Reg) (f : Run → Hart → Nat → Res) : State → Out :=
  rowWord h (t :: ts) true 2 fun r i => do
    needMask m
    upd fun s => (s.rowStore r t d m i (f r s.me i)).rowNext
/-- A row word that writes a predicate cell. -/
def rowCell (h : BHead) (ts : List ETy) (d : Reg) (f : Run → Hart → Nat → Nat × Flags) : State → Out :=
  rowWord h ts true 2 fun r i => upd fun s =>
    let (v, fl) := f r s.me i
    (s.updMe fun x => (x.setPred d ((x.pred d).setCell i v)).raise fl).rowNext
/-- A bit as a cell (spec/06 R123). -/
def cellOf (b : Bool) : Nat := if b then 0x8000 else 0

-- Memory (spec/03 R60 to R62) -----------------------------------------------------------------------------------------------------------

/-- row_check and the watchpoint comparison: a fault or a match is a row fault (spec/18 R374). -/
def rowCheck (ea : Word) (n : Nat) (o : Orient) (kind : AccKind) (width : Nat) (ld st : Bool) : Op Trans := do
  let res ← (fun s =>
    let (r, s) := s.check s.cur ea n o kind width s.me.sup
    .ok (r, s) : Op (Except Bad Trans))
  match res with
  | .error b => rowFault b.cause b.sub ea
  | .ok t =>
    let hits ← ask fun s => s.watchHits s.cur ea n ld st
    if hits = 0 then pure t
    else do
      let (i, lanes) ← ask fun s => match s.me.run with
        | some r => (r.cur, r.cap.lanes)
        | none => (0, 1)
      rowFault 0x21 0 (BitVec.ofNat 64 (2 ^ (32 + i % lanes) + hits))

/-- The byte a buffered element gives at a physical address. -/
def BufElem.byteAt (e : BufElem) (pa : Nat) : Option Byte :=
  if e.pa ≤ pa ∧ pa < e.pa + e.size then some (BitVec.ofNat 8 (e.val >>> (8 * (pa - e.pa)))) else none
/-- The last of some elements that holds a byte. -/
def lastByte (es : List BufElem) (pa : Nat) : Option Byte := es.foldl (fun acc e => (e.byteAt pa) <|> acc) none
/-- The newest of some elements by the time of their append. -/
def newestByte (es : List BufElem) (pa : Nat) : Option Byte :=
  (es.foldl (fun (acc : Option (Nat × Byte)) e => match e.byteAt pa, acc with
    | none, a => a
    | some b, none => some (e.at_, b)
    | some b, some (t, b') => if t ≤ e.at_ then some (e.at_, b) else some (t, b')) none).map (·.2)
/-- The byte a load of the hart sees in its strip store buffer: what vector instructions before a run have stored, and
the own row's stores of the run; of these only what is newer than the row's latest vamo on the byte, whose result
memory holds (spec/03 R60, spec/08 R176). A buffered store counts as newer than every scalar store and atomic that its hart makes
while it is buffered, since it stands at its scommit (spec/08 R158), and a vamo counts for its own row until the run ends (log 77,
DEDUCED). -/
def bufferedByte (b : List BufEntry) (own : Option Nat) (amos : Tab Nat) (pa : Nat) : Option Byte :=
  let newer := fun (e : BufElem) => match Tab.find amos pa with
    | none => true
    | some t => decide (t < e.at_)
  let mine := match own with
    | none => none
    | some i => newestByte ((b.filter (·.inst.isSome)).flatMap fun e => e.elems.filter fun x => x.row == i && newer x) pa
  mine <|> lastByte ((b.filter (·.inst.isNone)).flatMap fun e => e.elems.filter newer) pa
/-- n bytes of memory with the buffer laid over them. -/
def overlay (b : List BufEntry) (own : Option Nat) (amos : Tab Nat) (pa n v : Nat) : Nat :=
  leOf ((upTo n).map fun i => (bufferedByte b own amos (pa + i)).getD (BitVec.ofNat 8 (v >>> (8 * i))))
/-- The vamo marks of the current row of the hart's run. -/
def Hart.rowAmos (h : Hart) : Tab Nat :=
  match h.run with
  | some r => r.row.amos
  | none => []
/-- A checked vector load of n bytes: memory under the buffer, and whether it met poison. -/
def State.readUnder (s : State) (t : Trans) (n : Nat) (o : Orient) (own : Option Nat) : Nat × Bool × State :=
  let (v, bad, s) := s.readAt s.cur t n o .none false
  (overlay s.me.buffer own (if own.isSome then s.me.rowAmos else []) t.pa n v, bad, s)

end Sys2Proof.Machine
end

