-- ==== Sys2Proof/Machine/RowMem.lean ====
section
/-!
DEFINITION. Row memory, row atomics and leaving the common path (spec/03 R61 to R71).
-/
namespace Sys2Proof.Machine

/-- The address of row i (spec/03 R61). -/
def rowAddr (h : Hart) (a : Reg) (i : Nat) : Word := BitVec.ofNat 64 (h.elem a 64 i)

/-- vlde (spec/03 R60, R61). -/
def execVlde (h : BHead) (o : Orient) (t : ETy) (d : Reg) (a : Src) (i : BitVec 12) : State → Out :=
  rowWord h [t, .z64] true 3 fun r n => do
    let ea ← ask fun s => addImm (rowAddr s.me a.r n) i
    let tr ← rowCheck ea (tyBytes t) o .load 0 true false
    awaitEmission tr.pa (tyBytes t)
    let (v, bad) ← (fun s =>
      let (v, bad, s) := s.readUnder tr (tyBytes t) o (some n)
      .ok ((v, bad), s) : Op (Nat × Bool))
    if bad then consumePoison ea
    else upd fun s => (s.updMe fun x => rowPut r x t d n v).rowNext

/-- Elements in rising order of their rows, so that the higher row's byte is committed (spec/08 R177). -/
def insertElem (e : BufElem) : List BufElem → List BufElem
  | [] => [e]
  | x :: l => if e.row < x.row then e :: x :: l else x :: insertElem e l
/-- A newer store of the same row laid over an older element, whose own value stays beside it (spec/14 R290). -/
def BufElem.patch (e new : BufElem) : BufElem :=
  { e with val := leOf ((upTo e.size).map fun i => (new.byteAt (e.pa + i)).getD (BitVec.ofNat 8 (e.val >>> (8 * i)))) }
/-- The same for the row's elements in an entry of a run. -/
def BufEntry.patch (x : BufEntry) (new : BufElem) : BufEntry :=
  if x.inst.isNone then x else { x with elems := x.elems.map fun e => if e.row = new.row then e.patch new else e }
/-- Puts an element into the entry of its instance. Entries commit in their order; an entry behind it that took its place
first may hold older stores of the row to the same bytes, which take the newer value (spec/03 R60). -/
def putInstance (key : Nat × Nat) (e : BufElem) : List BufEntry → List BufEntry
  | [] => []
  | x :: l =>
    if x.inst == some key then { x with elems := insertElem e x.elems } :: l.map (BufEntry.patch · e)
    else x :: putInstance key e l
/-- Adds a row's element to the entry of an instance, which takes its place at the first append. -/
def appendInstance (b : List BufEntry) (key : Nat × Nat) (o : Orient) (bytes : Nat) (e : BufElem) : List BufEntry :=
  if b.any fun x => x.inst == some key then putInstance key e b
  else b ++ [{ inst := some key, o := o, bytes := bytes, elems := [e] }]
/-- vste (spec/03 R61): a seventeenth entry is a row fault with value 16 (spec/08 R181). A watchpoint comes before it (log 69,
DESIGN CHOICE). -/
def execVste (h : BHead) (o : Orient) (t : ETy) (a b : Src) (i : BitVec 12) : State → Out :=
  rowWord h [t, .z64] true 3 fun r n => do
    let ea ← ask fun s => addImm (rowAddr s.me a.r n) i
    let tr ← rowCheck ea (tyBytes t) o .store (tyBytes t) false true
    let key := (r.row.pc, r.row.count r.row.pc)
    if ← ask fun s => !(s.me.buffer.any fun x => x.inst == some key) && decide (16 ≤ s.me.buffer.length) then
      rowFault 0x14 0 16
    else upd fun s =>
      let e : BufElem :=
        { va := ea.toNat, pa := tr.pa, size := tyBytes t, row := n, val := rowGet r s.me t b.r n, at_ := s.now }
      (s.rowCounts.updMe fun x => { x with buffer := appendInstance x.buffer key o (tyBytes t * r.n) e }).rowNext

/-- The row's vamo has changed some bytes at a time: to the row they are newer than what is buffered (spec/03 R60). -/
def State.rowAmo (s : State) (pa n now : Nat) : State :=
  s.updRun fun r => r.setRow fun x => { x with amos := (upTo n).foldl (fun t i => Tab.put t (pa + i) now) x.amos }
/-- The element types a vamo uses. -/
def vamoTypes (ty : AmoTy) : List ETy :=
  [match amoSize ty with
    | 2 => .z16
    | 4 => .z32
    | _ => .z64, .z64]
/-- The checks and waits of row i's vamo: its address, and its translation. -/
def vamoChecks (ty : AmoTy) (a : Src) (i : Nat) : Op (Word × Trans) := do
  let ea ← ask fun s => rowAddr s.me a.r i
  let tr ← rowCheck ea (amoSize ty) .row .both 0 true true
  awaitEmission tr.pa (amoSize ty)
  pure (ea, tr)
/-- Row i's vamo is complete, with the old value v, served at a time: the row goes on. -/
def State.vamoDone (s : State) (op : AmoOp) (ty : AmoTy) (ctl : BitVec 10) (d : Reg) (b n : Src) (i pa v now : Nat) : State :=
  let w := 8 * amoSize ty
  let wrote := (amoResult op ty ctl v (s.me.elem b.r w i % 2 ^ w) (s.me.elem n.r w i % 2 ^ w)).1.isSome
  let s := if wrote then s.rowAmo pa (amoSize ty) now else s
  ((s.updMe fun x => x.setElem d w i v).updRun fun r => r.setRow fun x => { x with amo := .idle }).rowNext
/-- vamo (spec/03 R63, R64): a read-modify-write at its engine. A row whose request waits there waits for it, and ends with the old
value once it is served (spec/13 R272); the request of any other arrives and is served in this step (log 24). -/
def execVamo (h : BHead) (op : AmoOp) (c : Scope) (ty : AmoTy) (d : Reg) (a b n : Src) : State → Out :=
  let w := 8 * amoSize ty
  rowWord h (vamoTypes ty) true 3 fun r i =>
    match r.row.amo with
    | .waiting _ => waitHere .atomic
    | .served pa v at_ => upd fun s => s.vamoDone op ty r.cap.fpctl d b n i pa v at_
    | _ => do
      let (ea, tr) ← vamoChecks ty a i
      let (v, bad, fl) ← (fun s =>
        let (v, bad, fl, s) := s.amoNow s.cur tr op ty c r.cap.fpctl (s.me.elem b.r w i) (s.me.elem n.r w i)
        .ok ((v, bad, fl), s) : Op (Nat × Bool × Flags))
      if bad then consumePoison ea
      else upd fun s => (s.raise fl).vamoDone op ty r.cap.fpctl d b n i tr.pa v s.now
/-- Row i's vamo reaches its engine and waits there; the limit of its core counts for it as for an amo (spec/13 R272), and a row held
back by it counts once (spec/18 R365). -/
def sendVamo (h : BHead) (op : AmoOp) (c : Scope) (ty : AmoTy) (a b n : Src) : State → Out :=
  let w := 8 * amoSize ty
  rowWord h (vamoTypes ty) true 3 fun r i => do
    let (ea, tr) ← vamoChecks ty a i
    upd fun s =>
      let (t, sent) := s.sendRequest tr op ty c ea.toNat (some i) r.cap.fpctl (s.me.elem b.r w i) (s.me.elem n.r w i)
        (r.row.amo == .limited)
      if servedBy tr.pa = .mgmt then s
      else t.updRun fun r => r.setRow fun x => { x with amo := if sent then .waiting tr.pa else .limited }
    waitHere .atomic

-- Geyser (spec/03 R67 to R71) -----------------------------------------------------------------------------------------------

/-- The row ends. -/
def State.rowEnd (s : State) : State := s.updRun fun r => r.setRow fun x => { x with ended := true }
/-- The rows the strip width of the run has room for. -/
def Run.stripCap (r : Run) : Nat := vlmax r.cap.sw r.cap.swq r.cap.lanes
/-- Element i of a register at a strip width (spec/03 R55, R69). -/
def stripElem (h : Hart) (sw swq lanes : Nat) (r : Reg) (i : Nat) : Nat :=
  if sw = 4 then slicedRow (h.vimg r) (slicedRows swq lanes) i swq else h.elem r (8 * 2 ^ sw) i
def regOr0 (s : Option Src) : Nat := match s with
  | some x => x.r.toNat
  | none => 0
/-- The entry a vdefer appends (spec/03 R68, R69). -/
def deferEntry (r : Run) (x : Hart) (hart i target : Nat) (d : Option Reg) (a b c : Option Src) : GEntry :=
  let val := fun (o : Option Reg) => match o with
    | some k => stripElem x r.cap.sw r.cap.swq r.cap.lanes k i
    | none => 0
  let bit := fun (o : Bool) (n : Nat) => if o then 2 ^ n else 0
  { mask := bit d.isSome 0 + bit a.isSome 1 + bit b.isSome 2 + bit c.isSome 3,
    nd := (d.map (·.toNat)).getD 0, na := regOr0 a, nb := regOr0 b, nc := regOr0 c,
    width := r.cap.sw, qw := if r.cap.sw = 4 then r.cap.swq else 0, hart := hart % 4, row := i,
    target := target % 2 ^ 57,
    vals := [val d, val (a.map (·.r)), val (b.map (·.r)), val (c.map (·.r))] }
/-- The word a block offset names. -/
def blockTarget (pc : Nat) (i : BitVec 12) : Nat := (BitVec.ofNat 64 pc + 8 * i.signExtend 64).toNat
/-- vdefer (spec/03 R69, R71): a full queue is a row fault with the word's offset as value. A row above the capacity of
the strip width is not active for it (spec/05 R102). -/
def execVdefer (h : BHead) (d : Option Reg) (a b c : Option Src) (i : BitVec 12) : State → Out := fun s =>
  match s.me.run with
  | none => .refused .blockWordOutsideRun
  | some r =>
    if r.stripCap ≤ r.cur then .next s.rowNext
    else rowWord h [] true 2 (fun r n => do
      if ← ask fun s => decide (4096 ≤ s.myCore.geyser.length) then
        rowFault 0x12 0 (BitVec.ofNat 64 (r.row.pc - r.row.block))
      else upd fun s =>
        let e := deferEntry r s.me s.cur n (blockTarget r.row.pc i) d a b c
        ((s.updCore (coreOf s.cur) fun k => { k with geyser := k.geyser ++ [e] }).bumpMe 10 1).rowEnd) s
/-- vfetch (spec/03 R65). -/
def execVfetch (h : BHead) (i : BitVec 12) : State → Out :=
  rowWord h [] false 2 fun r _ => upd fun s =>
    let t := blockTarget r.row.pc i
    s.updRun fun y => y.setRow fun x => { x with pc := t, block := t }
/-- vstop (spec/03 R66). -/
def execVstop : State → Out := rowWord (plainHead false) [] false 2 fun _ _ => upd State.rowEnd

end Sys2Proof.Machine
end

