-- ==== Sys2Proof/Machine/VectorMem.lean ====
section
/-!
DEFINITION. Vector loads and stores, the strip store buffer and its commit (spec/08 R173 to R184), with the completion
mask of a stopped gather or scatter (spec/08 R179, spec/11 R225).
-/
namespace Sys2Proof.Machine

-- Addresses (spec/08 R175) -------------------------------------------------------------------------------------------------

/-- a of spec/08 R175. -/
def Hart.vbase (h : Hart) (m : VMem) : Word := addImm (h.readX m.base) m.off
/-- The address of element i: c is the stride register, x0 for unit stride. -/
def elemAddr (h : Hart) (m : VMem) (c : Reg) (i : Nat) : Word :=
  let a := h.vbase m
  match m.o with
  | .row => a + BitVec.ofNat 64 i * (if c = 0 then BitVec.ofNat 64 (tyBytes m.t) else h.readX c)
  | .col =>
    let step : Word := if c = 0 then 4096 else h.readX c
    let j := a.toNat % 4096 / 64 + i
    a - BitVec.ofNat 64 (a.toNat % 4096) + BitVec.ofNat 64 (j / 64) * step
      + BitVec.ofNat 64 (64 * (j % 64) + a.toNat % 64)
/-- Bytes of a plane of n rows (spec/04 R83). -/
def planeBytes (n : Nat) : Nat := (n + 7) / 8
def planeAddr (h : Hart) (m : VMem) (c : Reg) (n q : Nat) : Word :=
  h.vbase m + BitVec.ofNat 64 q * (if c = 0 then BitVec.ofNat 64 (planeBytes n) else h.readX c)

-- Accesses of a word ------------------------------------------------------------------------------------------------------------

/-- One access of a vector word: its element (the plane for .q), its address, the bytes it covers, and the row of its
first bit. A plane is checked byte by byte (log 33). -/
structure Acc1 where
  idx : Nat
  ea : Word
  size : Nat
  row : Nat
  plane : Nat := 0
  deriving DecidableEq, Repr
/-- The accesses of a word with row count n (spec/08 R175). -/
def accesses (h : Hart) (m : VMem) (c : Reg) (n : Nat) : List Acc1 :=
  if m.t = .q then
    (upTo (vtQw h.vtype)).flatMap fun q => (upTo (planeBytes n)).map fun j =>
      ⟨q, planeAddr h m c n q + BitVec.ofNat 64 j, 1, 8 * j, q⟩
  else (upTo n).map fun i => ⟨i, elemAddr h m c i, tyBytes m.t, i, 0⟩
/-- The fault value of an access: its element's address (spec/08 R176). -/
def Acc1.value (a : Acc1) (sliced : Bool) : Word := if sliced then a.ea - BitVec.ofNat 64 (a.row / 8) else a.ea

/-- Checks accesses one after another. -/
def State.checkAll (s : State) (h : Nat) (o : Orient) (kind : AccKind) (st : Bool) :
    List Acc1 → List (Acc1 × Except Bad Trans) × State
  | [] => ([], s)
  | a :: l =>
    let (r, s) := s.check h a.ea a.size o kind (if st then a.size else 0) (s.hart h).sup
    let (rs, s) := State.checkAll s h o kind st l
    ((a, r) :: rs, s)
def checked (m : VMem) (st : Bool) (l : List Acc1) : Op (List (Acc1 × Except Bad Trans)) := fun s =>
  let (rs, s) := s.checkAll s.cur m.o (if st then .store else .load) st l
  .ok (rs, s)
def goodOnes (l : List (Acc1 × Except Bad Trans)) : List (Acc1 × Trans) :=
  l.filterMap fun x => match x.2 with
    | .ok t => some (x.1, t)
    | .error _ => none
def firstBad (l : List (Acc1 × Except Bad Trans)) : Option (Acc1 × Bad) :=
  l.findSome? fun x => match x.2 with
    | .ok _ => none
    | .error b => some (x.1, b)
/-- A trap at an element, with its index in the record. -/
def elemTrap {α : Type} (sliced : Bool) (a : Acc1) (b : Bad) : Op α := fun s =>
  takeHere { cause := b.cause, sub := b.sub, value := a.value sliced, tpc := s.me.pc, pos := some a.idx } s

/-- The comparators that match some accesses, the lanes of those elements, and the lowest one (spec/18 R374). -/
def State.vectorHits (s : State) (l : List Acc1) (ld st : Bool) : Nat × Nat × Option Nat :=
  l.foldl (fun acc a =>
    let hits := s.watchHits s.cur a.ea a.size ld st
    if hits = 0 then acc
    else (acc.1 ||| hits, acc.2.1 ||| 2 ^ (a.idx % s.me.lanes), acc.2.2 <|> some a.idx)) (0, 0, none)
def hitValue (hits lanes : Nat) : Word := BitVec.ofNat 64 (lanes * 2 ^ 32 + hits)
/-- The watchpoint trap of a vector word. -/
def watchVector (l : List Acc1) (ld st : Bool) : Op Unit := fun s =>
  match s.vectorHits l ld st with
  | (hits, lanes, some i) =>
    takeHere { cause := 0x21, value := hitValue hits lanes, tpc := s.me.pc, pos := some i } s
  | _ => .ok ((), s)

/-- From the lowest to the highest byte of some accesses (spec/13 R264). -/
def rangeOfAcc (l : List Acc1) : Range :=
  match l with
  | [] => .empty
  | a :: l => l.foldl (fun r x => match r with
      | .span lo hi => .span (min lo x.ea.toNat) (max hi (x.ea.toNat + x.size - 1))
      | r => r) (.span a.ea.toNat (a.ea.toNat + a.size - 1))
/-- Whether a conflicting copy has landed every byte of some accesses, in a scratchpad through rows (spec/13 R265). -/
def State.landedFor (s : State) (l : List Acc1) (rd : Range) : Bool :=
  match s.conflicts s.cur rd .empty with
  | [e] => (s.cluster (clusterOf s.cur)).copies.any fun c =>
      c.id == e.copy && c.od == .row && (c.dstSegs.all fun g => isScratch g.pa) && l.all fun a =>
        decide (a.ea.toNat + a.size ≤ c.dst) || decide (c.dst + c.n ≤ a.ea.toNat)
          || decide (a.ea.toNat + a.size ≤ c.dst + c.landed)
  | _ => false
/-- The waits of a vector load: the interlock table (spec/13 R264, R265) and held emission records (spec/19 R391). -/
def loadWaits (l : List (Acc1 × Trans)) (rd : Range) (chain : Bool) : Op Unit := do
  awaitTable
  if !(chain && (← ask fun s => s.landedFor (l.map (·.1)) rd)) then awaitInterlock rd .empty
  if ← ask fun s => l.any fun a => s.emissionMeets s.cur a.2.pa a.1.size then waitHere .emitted

/-- The row-length and stride tests of the strided words (spec/08 R174, R175). -/
def stridedTests (m : VMem) (c : Reg) (n : Nat) (emptyToo : Bool) : Op Unit := do
  let h ← ask State.me
  if capOf m.t h.vtype h.lanes < n then trap 0x11 0 (BitVec.ofNat 64 n)
  if m.o = .col && c != 0 && (h.readX c).toNat % 4096 != 0 && (emptyToo || n != 0) then trap 0x09 0 (h.readX c)

-- Loads (spec/08 R176, R178, R179) -------------------------------------------------------------------------------------------------

/-- Reads accesses one after another: the numbers with their accesses, and the first that met poison. -/
def State.readAll (s : State) (o : Orient) : List (Acc1 × Trans) → List (Acc1 × Nat) × Option Acc1 × State
  | [] => ([], none, s)
  | (a, t) :: l =>
    let (v, bad, s) := s.readUnder t a.size o none
    let (vs, b, s) := State.readAll s o l
    ((a, v) :: vs, if bad then some a else b, s)
/-- The values of some accesses; poison ends the word. -/
def readOp (o : Orient) (l : List (Acc1 × Trans)) : Op (List (Acc1 × Nat)) := fun s =>
  let (vs, b, s) := s.readAll o l
  match b with
  | none => .ok (vs, s)
  | some a => consumePoison a.ea s
/-- Loaded values in a register's image: elements, or the bits of planes in the layout of spec/04 R82. -/
def putLoaded (h : Hart) (t : ETy) (n : Nat) (img : Nat) (l : List (Acc1 × Nat)) : Nat :=
  if t = .q then
    let m := slicedRows (vtQw h.vtype) h.lanes
    l.foldl (fun img x => withBits img (x.1.plane * m + x.1.row) (min 8 (n - x.1.row)) x.2) img
  else l.foldl (fun img x => withElem img (tyBits t) x.1.idx x.2) img
/-- The elements a word is charged for: a plane counts as one access (spec/08 R175). -/
def elemCount (h : Hart) (t : ETy) (n : Nat) : Nat := if t = .q then (if n = 0 then 0 else vtQw h.vtype) else n
/-- Loads the good accesses of a word into a register and goes on. -/
def finishLoad (m : VMem) (d : Reg) (n count : Nat) (l : List (Acc1 × Trans)) : Op Unit := do
  let vs ← readOp m.o l
  upd fun s =>
    let s := s.updMe fun h => h.setVimg d (putLoaded h m.t n (h.vimg d) vs)
    (((s.chargeMe 3 count).bumpMe 1 1).capture s.cur 5 s.opCycles).advance

/-- vld (spec/08 R176). -/
def execVld (d c : Reg) (m : VMem) : State → Out := finish do
  needOwner
  let n ← ask fun s => s.me.rows
  stridedTests m c n true
  let l ← ask fun s => accesses s.me m c n
  let rs ← checked m false l
  match firstBad rs with
  | some (a, b) => elemTrap (m.t == .q) a b
  | none => do
    watchVector l true false
    loadWaits (goodOnes rs) (rangeOfAcc l) true
    finishLoad m d n (← ask fun s => elemCount s.me m.t n) (goodOnes rs)
/-- vlff (spec/08 R178): a fault beyond element 0 shortens vlen. -/
def execVlff (d : Reg) (m : VMem) : State → Out := finish do
  needOwner
  let n ← ask fun s => s.me.rows
  stridedTests m 0 n true
  let l ← ask fun s => accesses s.me m 0 n
  let rs ← checked m false l
  let k ← match firstBad rs with
    | none => pure n
    | some (a, b) => if m.t = .q || a.idx = 0 then elemTrap (m.t == .q) a b else pure a.idx
  let l := if m.t = .q then l else l.take k
  watchVector l true false
  loadWaits (goodOnes (rs.take l.length)) (rangeOfAcc l) true
  finishLoad m d k (← ask fun s => elemCount s.me m.t k) (goodOnes (rs.take l.length))
  if k < n then upd fun s => s.updMe fun h => { h with vlen := k }

-- Gathers and scatters (spec/08 R179) -----------------------------------------------------------------------------------------------

/-- The accesses of the elements whose bits in the armed mask are 0. -/
def indexed (h : Hart) (m : VMem) (b : Reg) (n : Nat) : List Acc1 :=
  ((upTo n).filter fun i => !bitOf (h.armed.getD 0) i).map fun i =>
    ⟨i, h.vbase m + BitVec.ofNat 64 (h.elem b 64 i), tyBytes m.t, i, 0⟩
/-- The elements that complete, those that stop, and the trap of the lowest that stops; a watchpoint match counts as a
fault (spec/18 R374). -/
def State.splitElems (s : State) (rs : List (Acc1 × Except Bad Trans)) (ld st : Bool) :
    List (Acc1 × Trans) × Option (Nat × Nat × Nat × Word) :=
  let hit := fun (a : Acc1) => s.watchHits s.cur a.ea a.size ld st != 0
  let good := (goodOnes rs).filter fun x => !hit x.1
  let (hits, lanes, _) := s.vectorHits ((goodOnes rs).map (·.1)) ld st
  (good, rs.findSome? fun x => match x.2 with
    | .error b => some (b.cause, b.sub, x.1.idx, x.1.ea)
    | .ok _ => if hit x.1 then some (0x21, 0, x.1.idx, hitValue hits lanes) else none)
/-- The mask of completed elements. -/
def maskOf (old : Option Nat) (l : List (Acc1 × Trans)) : Nat := l.foldl (fun k x => k ||| 2 ^ x.1.idx) (old.getD 0)
/-- Ends a gather or scatter: on, or in the trap of its lowest stopped element, with the mask in the record. -/
def endIndexed (old : Option Nat) (good : List (Acc1 × Trans)) (bad : Option (Nat × Nat × Nat × Word)) : Op Unit :=
  match bad with
  | none => upd fun s =>
      (((s.updMe fun h => { h with armed := none }).bumpMe 1 1)).advance
  | some (cause, sub, i, value) => fun s =>
      takeHere { cause := cause, sub := sub, value := value, tpc := s.me.pc, pos := some i,
                 mask := some (maskOf old good) } s
/-- A stopped word waits for the hart's copies before it touches an element (spec/13 R263). -/
def awaitCopies (bad : Bool) : Op Unit := do
  if bad && (← ask fun s => s.copying s.cur) then waitHere .copies
def indexedRows : Op Nat := do
  let n ← ask fun s => s.me.rows
  if ← ask fun s => decide (vlmax 3 0 s.me.lanes < n) then trap 0x11 0 (BitVec.ofNat 64 n)
  pure n

def execVldx (d b : Reg) (m : VMem) : State → Out := finish do
  needOwner
  let n ← indexedRows
  let old ← ask fun s => s.me.armed
  let l ← ask fun s => indexed s.me m b n
  let rs ← checked m false l
  let (good, bad) ← ask fun s => s.splitElems rs true false
  loadWaits good .all false
  awaitCopies bad.isSome
  let vs ← readOp m.o good
  upd fun s =>
    let s := (s.updMe fun h => h.setVimg d (putLoaded h m.t n (h.vimg d) vs)).chargeMe 3 good.length
    if bad.isSome then s else s.capture s.cur 5 s.opCycles
  endIndexed old good bad

-- Stores (spec/08 R177, R180, R181) ---------------------------------------------------------------------------------------------------

/-- Plane accesses in the order of their commit: by rising rows, so that the higher row's byte remains where planes
overlap (spec/08 R177), and for one row by rising planes. That the higher plane's byte remains where bytes of the same
rows coincide (a stride of 0, for example) is the model's choice (log 33, DESIGN CHOICE). -/
def byRows {α : Type} (n qw : Nat) (l : List α) : List α :=
  (upTo (planeBytes n)).flatMap fun j => (upTo qw).filterMap fun q => l[q * planeBytes n + j]?
/-- The elements an entry gets. A plane's byte holds the bits of its rows, 0 beyond the last (spec/08 R177). -/
def storeElems (h : Hart) (t : ETy) (a : Reg) (n now : Nat) (l : List (Acc1 × Trans)) : List BufElem :=
  l.map fun x =>
    let v := if t = .q then
        bitsAt (h.vimg a) (x.1.plane * slicedRows (vtQw h.vtype) h.lanes + x.1.row) (min 8 (n - x.1.row))
      else h.elem a (tyBits t) x.1.idx
    { va := x.1.ea.toNat, pa := x.2.pa, size := x.1.size, row := x.1.row, val := v, sliced := t == .q, at_ := now }
/-- Bytes of data an entry of n rows holds, as the trap record counts them (spec/11 R224). The qw n bits of a .q entry are rounded up
to whole bytes in each entry (log 85, DESIGN CHOICE: R177 gives bits). -/
def entryBytes (h : Hart) (t : ETy) (n : Nat) : Nat := if t = .q then (vtQw h.vtype * n + 7) / 8 else tyBytes t * n
def bufferFull : Op Unit := do
  if ← ask fun s => decide (16 ≤ s.me.buffer.length) then trap 0x14 0 16
/-- vst and vst.mc: the checks of vld, then one entry. A watchpoint comes before a full buffer (log 69, DESIGN CHOICE). -/
def stripStore (mc : Bool) (a c : Reg) (m : VMem) : State → Out := finish do
  needOwner
  let n ← ask fun s => s.me.rows
  stridedTests m c n false
  let l ← ask fun s => accesses s.me m c n
  let rs ← checked m true l
  match firstBad rs with
  | some (x, b) => elemTrap (m.t == .q) x b
  | none => do
    watchVector l false true
    if n ≠ 0 then bufferFull
    upd fun s =>
      let e : BufEntry :=
        { mc := mc, o := m.o, bytes := entryBytes s.me m.t n, 
          elems := storeElems s.me m.t a n s.now (if m.t = .q then byRows n (vtQw s.me.vtype) (goodOnes rs) else goodOnes rs) }
      let s := if n = 0 then s else s.updMe fun h => { h with buffer := h.buffer ++ [e] }
      ((s.chargeMe 3 (elemCount s.me m.t n)).bumpMe 1 1).advance
def execVst (a c : Reg) (m : VMem) : State → Out := stripStore false a c m
def execVstMc (a c : Reg) (m : VMem) : State → Out := stripStore true a c m

/-- The entry a resumed vstx goes on with: the one its stop left open, else the last whose rows are those of the mask,
else the last. -/
def resumedEntry (b : List BufEntry) (mask : Nat) : Nat :=
  let rows := fun (e : BufEntry) => e.elems.foldl (fun k x => k ||| 2 ^ x.row) 0
  let last := fun (p : BufEntry → Bool) => (upTo b.length).reverse.find? fun i => (b[i]?.map p).getD false
  ((last (·.resume)).getD ((last fun e => rows e == mask).getD (b.length - 1)))
/-- Adds the elements of a scatter to its entry; more says that it was stopped. Where a handler has emptied the buffer, so that the
original entry is gone, a resumed vstx takes a new entry, and where it holds other entries only, it joins the last (log 85, DESIGN
CHOICE: R179 names no such case). -/
def scatterInto (b : List BufEntry) (armed : Option Nat) (o : Orient) (bytes : Nat) (more : Bool) (es : List BufElem) :
    List BufEntry :=
  match armed, b with
  | some mask, _ :: _ => b.modify (resumedEntry b mask) fun e => { e with resume := more, elems := es.foldl (fun l x => insertElem x l) e.elems }
  | _, _ => b ++ [{ o := o, bytes := bytes, resume := more, elems := es }]
def execVstx (a b : Reg) (m : VMem) : State → Out := finish do
  needOwner
  let n ← indexedRows
  if n = 0 then endIndexed none [] none
  else do
    let old ← ask fun s => s.me.armed
    if old.isNone then bufferFull
    let l ← ask fun s => indexed s.me m b n
    let rs ← checked m true l
    let (good, bad) ← ask fun s => s.splitElems rs false true
    awaitCopies bad.isSome
    upd fun s =>
      let es := storeElems s.me m.t a n s.now good
      (s.updMe fun h =>
        { h with buffer := scatterInto h.buffer old m.o (entryBytes h m.t n) bad.isSome es }).chargeMe 3 good.length
    endIndexed old good bad

-- Committing (spec/08 R182, R183) ----------------------------------------------------------------------------------------------------

/-- Where a hart's tables map a physical address of a die: the leaf, its level and the virtual address, the lowest if
there are several. -/
def State.mapsTo (s : State) (die pa : Nat) : List Nat → Nat → Nat → Option (Nat × Nat × Nat)
  | [], _, _ => none
  | level :: rest, table, va =>
    (upTo (if level = 4 then 32 else 512)).findSome? fun i =>
      let at_ := table + 8 * i
      let e := s.readHome at_ 8
      let va := va + i * 2 ^ (match level with
        | 0 => 48
        | 1 => 39
        | n => levelShift n)
      if s.readHomePoison die at_ 8 || !bitOf e 0 || malformed level e then none
      else if bitOf e 1 then
        let base := leafPage e + if leafM e then die * 0x2000000000 else 0
        if pa / 2 ^ levelShift level = base / 2 ^ levelShift level then some (e, level, va + pa % 2 ^ levelShift level) else none
      else s.mapsTo die pa rest (nextTable e) va
/-- The leaf that maps an element's bytes now, if one still maps them there, with its level and the virtual address
(spec/14 R289, R290). An element that vrest restored carries no virtual address: the leaf that maps its physical address
in the hart's space stands for it (log 41). -/
def State.leafAtCommit (s : State) (h : Nat) (e : BufElem) : Option (Nat × Nat × Nat) :=
  let x := s.hart h
  if !tbaseEn x.tbase then none
  else if !e.known then s.mapsTo (dieOf h) e.pa [0, 1, 2, 3, 4] (tbaseRoot x.tbase) 0
  else match s.walk (dieOf h) (tbaseRoot x.tbase) (e.va % 2 ^ 57) with
    | .ok (leaf, level) =>
      if leafAddr leaf level (e.va % 2 ^ 57) (dieOf h) = e.pa then some (leaf, level, e.va % 2 ^ 57) else none
    | .error _ => none
/-- The bytes an element writes under a selection of rows: a byte of a plane keeps the bits of the rows left out. The
pad bits of a plane's last byte follow the selection of the rows they would hold, although those rows are at or above
the entry's row count: under a predicate that selects such a row the bit is written 0, else kept, and a byte with only
such a row selected is written (log 33, DESIGN CHOICE: R182 does not name them). -/
def State.commitValue (s : State) (core : Nat) (e : BufElem) (sel : Nat → Bool) : Nat :=
  if !e.sliced then e.val
  else
    let old := leOf (s.bytesAt core e.pa 1).1
    (upTo 8).foldl (fun v j => if sel (e.row + j) then v else withBits v j 1 (old / 2 ^ j)) e.val
/-- The walk that finds this leaf on its path to memory, where no translation cache holds it (spec/16 R321). -/
def State.commitTouch (s : State) (h : Nat) (e : BufElem) (leaf : Option (Nat × Nat × Nat)) : State :=
  match leaf with
  | some (_, _, va) => s.walkTouch h va
  | none => if tbaseEn (s.hart h).tbase && e.known then s.walkTouch h (e.va % 2 ^ 57) else s
/-- Commits one element of an entry (spec/08 R180, R182; spec/16 R326): discarded and counted on a sealed page, or where a
commutative page's width is another. To a commutative page it contributes its own value (spec/14 R290). A vst.mc is one store per
replica, each of which keeps its own bits of the rows left out. The leaf at the
commit decides, also for vst.mc: an element whose page is no longer replicated, or no longer maps the bytes found at the
append, is written to that place alone (log 33, DESIGN CHOICE: R180 does not say which moment decides). -/
def State.commitElem (s : State) (h : Nat) (b : BufEntry) (sel : Nat → Bool) (all : Bool) (e : BufElem) : State :=
  if !(if e.sliced then (upTo 8).any fun j => sel (e.row + j) else sel e.row) then s
  else
    let found := s.leafAtCommit h e
    let s := s.commitTouch h e found
    let store := fun (s : State) (t : Trans) =>
      let v := if leafC t.leaf != 0 then e.own else if all then e.val else s.commitValue (coreOf h) { e with pa := t.pa } sel
      s.writeAt h t e.size b.o .none v
    match found with
    | none => store s ⟨e.pa, identityLeaf, 4⟩
    | some (leaf, level, va) =>
      if leafS leaf || (leafC leaf != 0 && e.size != commWidth (leafC leaf)) then
        s.updDie (dieOf h) fun d => { d with dropcnt := min (d.dropcnt + 1) (2 ^ 32 - 1) }
      else if b.mc && leafM leaf then
        let base := leafAddr leaf level va 0
        [0, 1, 2, 3].foldl (fun s d => store s ⟨base + d * 0x2000000000, leaf, level⟩) s
      else store s ⟨e.pa, leaf, level⟩
/-- The entries in the order of their appends, each in the order of its rows. -/
def State.commitAll (s : State) (h : Nat) (sel : Nat → Bool) (all : Bool) : State :=
  (s.hart h).buffer.foldl (fun s b => b.elems.foldl (fun s e => s.commitElem h b sel all e) s) s
/-- The elements a scommit writes. -/
def committed (b : List BufEntry) (sel : Nat → Bool) : List BufElem :=
  b.flatMap fun e => e.elems.filter fun x => if x.sliced then (upTo 8).any fun j => sel (x.row + j) else sel x.row
/-- From the lowest to the highest byte a scommit writes; an element that vrest brought back has no address. -/
def commitRange (l : List BufElem) : Range :=
  if l.any fun e => !e.known then .all
  else rangeOfAcc (l.map fun e => ⟨0, BitVec.ofNat 64 e.va, e.size, e.row, 0⟩)
/-- scommit (spec/08 R182). -/
def execScommit (p : Option Prefix) : State → Out := finish do
  needOwner
  match p with
  | none => pure ()
  | some q => if ← ask fun s => (s.me.pred q.p).prob then trap 0x10 0 (q.p.zeroExtend 64)
  let h0 ← ask State.me
  let sel := fun (i : Nat) => match p with
    | none => true
    | some q => decide (i < 256 * h0.lanes) && (h0.pred q.p).bit i != q.neg
  let l := committed h0.buffer sel
  awaitTable
  awaitInterlock .empty (commitRange l)
  if ← ask fun s => l.any fun e => s.emissionMeets s.cur e.pa e.size then waitHere .emitted
  upd fun s =>
    let s := (s.commitAll s.cur sel p.isNone).updMe fun h =>
      { h with buffer := [], stripBase := h.stripBase + BitVec.ofNat 64 h.rows }
    ((s.bumpMe 11 1).bumpMe 1 1).advance
/-- sabort (spec/08 R183). -/
def execSabort : State → Out := finish do
  needOwner
  upd fun s => ((s.updMe fun h => { h with buffer := [] }).bumpMe 1 1).advance

end Sys2Proof.Machine
end

