-- ==== Sys2Proof/Machine/Matrix.lean ====
section
/-!
DEFINITION. Matrix mode (spec/10 R198 to R217): entering and leaving, outer products, the backward forms, drains and the
bypass, accumulators to and from memory, checked products.
-/
namespace Sys2Proof.Machine

-- Accumulators and the bypass (spec/10 R198) ----------------------------------------------------------------------------

def Hart.acc (h : Hart) (z : Acc) : Nat := match z with
  | .za => h.za
  | .zb => h.zb
def Hart.setAcc (h : Hart) (z : Acc) (v : Nat) : Hart := match z with
  | .za => { h with za := v }
  | .zb => { h with zb := v }
/-- Cell [i][j] of an accumulator image. -/
def cellAt (img i j : Nat) : Nat := elemAt img 32 (128 * i + j)
def withCell (img i j v : Nat) : Nat := withElem img 32 (128 * i + j) v
/-- The positions of the n × n corner, in rising r · n + c. -/
def corner (n : Nat) : List (Nat × Nat) := (upTo n).flatMap fun i => (upTo n).map fun j => (i, j)
/-- Both accumulators at +0 and the bypass empty. -/
def Hart.clearMatrix (h : Hart) : Hart := { h with za := 0, zb := 0, bypass := none }

-- Entering and leaving (spec/10 R200, R201, R203) -------------------------------------------------------------------------

def execMenter (a : Reg) : State → Out := finish do
  needOwner
  needVectorMode (.menter a)
  acquireArray
  upd fun s =>
    let n := min (s.readX a).toNat 128
    ((s.updMe fun h => { h.clearMatrix with mvlen := n, matrix := true }).bumpMe 1 1).advance
def execMleave : State → Out := finish do
  needOwner
  needMatrixMode .mleave
  upd fun s =>
    (((s.releaseArray s.cur).updMe fun h => { h.clearMatrix with matrix := false }).bumpMe 1 1).advance
def execMzero (z : ZSel) : State → Out := finish do
  needOwner
  needMatrixMode (.mzero z)
  upd fun s =>
    let s := s.updMe fun h => match z with
      | .za => { h with za := 0 }
      | .zb => { h with zb := 0 }
      | .both => { h with za := 0, zb := 0 }
    (s.bumpMe 1 1).advance

-- Products (spec/10 R204 to R206, R214, R215) -----------------------------------------------------------------------------------

inductive PForm where
  | mop | mtile | mbwd
  deriving DecidableEq, Repr
/-- One half of a product word: its accumulator, its operands, its scale registers, and whether a bypass serves it. -/
structure Half where
  form : PForm
  z : Acc
  va : Reg
  vb : Reg
  k : Option Scales
  byp : Bool
  deriving DecidableEq, Repr
def PForm.steps : PForm → Nat
  | .mop => 1
  | _ => 8
/-- Register r + k of a group, modulo 32. -/
def inGroup (r : Reg) (k : Nat) : Reg := r + BitVec.ofNat 5 k
/-- The element of the A operand for cell row i and step k: its register and index. -/
def Half.aPlace (p : Half) (k i : Nat) : Reg × Nat :=
  match p.form with
  | .mop => (p.va, i)
  | .mtile => (p.va, 8 * i + k)
  | .mbwd => (inGroup p.va k, i)
def Half.bPlace (p : Half) (k j : Nat) : Reg × Nat :=
  match p.form with
  | .mop => (p.vb, j)
  | _ => (inGroup p.vb k, j)
/-- The group index of an element (spec/04 R85, spec/10 R206). -/
def Half.aScale (p : Half) (m k i : Nat) : Nat :=
  match p.form with
  | .mop => i
  | .mtile => 8 * i + k
  | .mbwd => k * m + i
def Half.bScale (p : Half) (m k j : Nat) : Nat :=
  match p.form with
  | .mop => j
  | _ => k * m + j
/-- The bits of the A operand, from the bypass where it serves. -/
def Half.aBits (p : Half) (h : Hart) (t : ETy) (k i : Nat) : Nat :=
  match p.byp, h.bypass with
  | true, some (_, img) => elemAt img (tyBits t) (8 * i + k)
  | _, _ => h.elem (p.aPlace k i).1 (tyBits t) (p.aPlace k i).2
/-- z + x · y, one rounding; a scale exponent that is none is a NaN scale (spec/10 R206). The old value of the cell is taken as
it stands, never flushed under of_f32 (log 60, DESIGN CHOICE: R88 lists matrix operands and does not say whether the cell a
product is added to is one). -/
def addProduct (ctl : BitVec 10) (rm : Rm) (z : Nat) (x y : FVal) (scale : Option Int) : Res :=
  match scale with
  | none => { bits := qnan .f32, fl := flagNv ||| flagNf }
  | some e => fFma .f32 ctl rm (scaleBy x e) y (valueOf .f32 z)
/-- The exponent of a product's two scales. -/
def Half.scale (p : Half) (h : Hart) (m k i j : Nat) : Option Int :=
  match p.k with
  | none => some 0
  | some s =>
    let a := h.scale s.ka.toNat (p.aScale m k i / 32)
    let b := h.scale s.kb.toNat (p.bScale m k j / 32)
    if a = 255 ∨ b = 255 then none else some ((a : Int) - 127 + ((b : Int) - 127))
/-- One step of a float cell. -/
def floatStep (p : Half) (h : Hart) (t : ETy) (rm : Rm) (m i j : Nat) (c : Nat × Flags) (k : Nat) : Nat × Flags :=
  let f := tyFmtD t
  let (x, fx) := operand f h.fpctl (p.aBits h t k i)
  let (y, fy) := operand f h.fpctl (h.elem (p.bPlace k j).1 (tyBits t) (p.bPlace k j).2)
  let r := addProduct h.fpctl rm c.1 x y (p.scale h m k i j)
  (r.bits, c.2 ||| fx ||| fy ||| r.fl)
/-- The widths of the two sliced operands and G (spec/10 R204). -/
def qaOf (h : Hart) : Nat := vtQw h.vtype
def qbOf (h : Hart) : Nat := if vtQwb h.vtype = 0 then vtQw h.vtype else vtQwb h.vtype
def qbSigned (h : Hart) : Bool := if vtQwb h.vtype = 0 then vtQs h.vtype else vtQsb h.vtype
def groupOf (h : Hart) : Nat := max 1 (64 / (qaOf h * qbOf h))
/-- The exact sum of the integer products of one step of a sliced cell. -/
def slicedSum (p : Half) (h : Hart) (i j k : Nat) : Int :=
  let g := groupOf h
  (upTo g).foldl (fun (z : Int) u =>
    let a := slicedRow (h.vimg (p.aPlace k i).1) (slicedRows (qaOf h) h.lanes) ((p.aPlace k i).2 * g + u) (qaOf h)
    let b := slicedRow (h.vimg (p.bPlace k j).1) (slicedRows (qbOf h) h.lanes) (j * g + u) (qbOf h)
    z + intOf (vtQs h.vtype) (qaOf h) a * intOf (qbSigned h) (qbOf h) b) 0
/-- An integer added to a cell with one rounding. -/
def addExact (h : Hart) (rm : Rm) (c : Nat × Flags) (z : Int) : Nat × Flags :=
  let r := fAdd .f32 h.fpctl rm (valueOf .f32 c.1) (ofInt z)
  (r.bits, c.2 ||| r.fl)
/-- The exact sum of every integer product one sliced instruction gives a cell, which is added to it with one rounding
(spec/04 R99). The loop of spec/10 R205 notes 'each step rounded, R99' at its k steps, and R99 gives the rounding (log 59,
DEDUCED). -/
def slicedTotal (p : Half) (h : Hart) (i j : Nat) : Int := ((upTo p.form.steps).map (slicedSum p h i j)).sum
/-- An accumulator after a half's products, with the flags raised: every operand is read in h. -/
def Half.run (p : Half) (h : Hart) (t : ETy) (rm : Rm) : Nat × Flags :=
  let m := capOf t h.vtype h.lanes
  (corner h.mvlen).foldl (fun acc ij =>
    let c0 := (cellAt (h.acc p.z) ij.1 ij.2, 0)
    let c := if t = .q then addExact h rm c0 (slicedTotal p h ij.1 ij.2)
      else (upTo p.form.steps).foldl (floatStep p h t rm m ij.1 ij.2) c0
    (withCell acc.1 ij.1 ij.2 c.1, acc.2 ||| c.2)) (h.acc p.z, 0)
/-- The rows a half needs of its two operands, with their capacities (spec/10 R202). -/
def Half.needs (p : Half) (h : Hart) (t : ETy) (usesBypass : Bool) : List (Nat × Nat) :=
  let g := if t = .q then groupOf h else 1
  let n := h.mvlen * g
  let ca := if t = .q then slicedRows (qaOf h) h.lanes else capOf t h.vtype h.lanes
  let cb := if t = .q then slicedRows (qbOf h) h.lanes else ca
  (if p.byp && usesBypass then [] else [(if p.form = .mtile then 8 * n else n, ca)]) ++ [(n, cb)]
/-- Array cycles of a product word (spec/10 R213). -/
def arrayCycles (h : Hart) (t : ETy) (form : PForm) : Nat :=
  let one := match t with
    | .e4m3 | .e5m2 => 1
    | .f32 => 4
    | .q => max 1 (ceilDiv (qaOf h * qbOf h) 64)
    | _ => 2
  one * form.steps

/-- Charges array cycles: per array, retries included (spec/11 R240, spec/18 R365 slot 13). -/
def State.spendCycles (s : State) (n : Nat) : State := (s.chargeMe 5 n).bumpMe 13 n
/-- A transient mismatch: the cycles are spent again, and recorded. -/
def State.retryProduct (s : State) (cycles : Nat) : State :=
  (((s.spendCycles cycles).bumpMe 14 1).updCore (coreOf s.cur) fun c => { c with dupNext := none }).emitMe 0x0400 1 s.me.pc
/-- A product word of one or two halves: the bypass-type test, the capacities, then every operand before any cell
(spec/10 R202, R208, R215). Where several operands lack rows the trap reports the first of them: A before B, and the first
half before the second (log 64, DESIGN CHOICE). The duplicate-product check may retry the word, or fence the core (R217). -/
def productWord (w : Instr) (t : ETy) (rm : Rm) (halves : List Half) : State → Out := finish do
  needOwner
  needMatrixMode w
  let h ← ask State.me
  match h.bypass with
  | none => pure ()
  | some (u, _) => if u ≠ t then trap 0x17 0 (BitVec.ofNat 64 (tyNumber t))
  match (halves.flatMap fun p => p.needs h t h.bypass.isSome).find? fun x => decide (x.2 < x.1) with
  | some x => trap 0x11 0 (BitVec.ofNat 64 x.1)
  | none => pure ()
  let cycles := halves.foldl (fun n p => n + arrayCycles h t p.form) 0
  if ← ask fun s => s.myCore.dupNext.isSome then awaitReel 0x0400
  match ← ask fun s => s.myCore.dupNext with
  | some .lasting =>
    fun s =>
      let s := ((s.spendCycles (2 * cycles)).bumpMe 14 1).updCore (coreOf s.cur) fun c => { c with dupNext := none, fenced := true }
      Except.error ((s.emitMe 0x0401 (1 : Word) h.pc).contextHalt s.cur (BitVec.ofNat 64 ((if h.sup then 2 ^ 62 else 0) + 1)) h.pc)
  | r =>
    if r.isSome then upd fun s => s.retryProduct cycles
    upd fun s =>
      let outs := halves.map fun p => (p.z, p.run h t rm)
      let s := s.updMe fun x => outs.foldl (fun x o => (x.setAcc o.1 o.2.1).raise o.2.2) { x with bypass := none }
      ((s.spendCycles cycles).bumpMe 1 1).advance
where
  /-- The code of a type (spec/01 R12). -/
  tyNumber (t : ETy) : Nat := match t with
    | .s8 => 0 | .z8 => 1 | .s16 => 2 | .z16 => 3 | .s32 => 4 | .z32 => 5 | .s64 => 6 | .z64 => 7
    | .f32 => 8 | .bf16 => 9 | .f16 => 10 | .e4m3 => 11 | .e5m2 => 12 | .q => 13 | .pr => 14

def execMop (t : ETy) (z : Acc) (rm : Rm) (k : Option Scales) (a b : Reg) : State → Out :=
  productWord (.mop t z rm k a b) t rm [⟨.mop, z, a, b, k, true⟩]
def execMtile (t : ETy) (z : Acc) (rm : Rm) (k : Option Scales) (a : Reg) (b : BitVec 2) : State → Out :=
  productWord (.mtile t z rm k a b) t rm [⟨.mtile, z, a, groupReg b, k, true⟩]
where
  groupReg (b : BitVec 2) : Reg := 8 * b.zeroExtend 5
def backReg (b : BitVec 2) : Reg := 8 * b.zeroExtend 5
def execMbwdX (t : ETy) (rm : Rm) (k : Option Scales) (a b : BitVec 2) : State → Out :=
  productWord (.mbwdX t rm k a b) t rm [⟨.mbwd, .za, backReg a, backReg b, k, true⟩]
def execMbwdW (t : ETy) (rm : Rm) (k : Option Scales) (a b : BitVec 2) : State → Out :=
  productWord (.mbwdW t rm k a b) t rm [⟨.mbwd, .zb, backReg a, backReg b, k, true⟩]
/-- mbwd.both (spec/10 R215): an instruction only on a twin-array core, core 0 of its cluster (spec/02 R47). -/
def execMbwdBoth (t : ETy) (rm : Rm) (k : Option Scales) (a b : BitVec 2) : State → Out := fun s =>
  let w : Instr := .mbwdBoth t rm k a b
  if coreOf s.cur % 8 ≠ 0 then finish (trap 0x01 0 (wordOf w)) s
  else productWord w t rm
    [⟨.mbwd, .za, backReg a, backReg b, k, true⟩,
     ⟨.mbwd, .zb, backReg a + 16, backReg b + 16, k.map fun s => ⟨s.ka + 1, s.kb + 1⟩, false⟩] s

-- Draining and the bypass (spec/10 R207, R208) -------------------------------------------------------------------------------------

/-- A cell as it leaves the array: bit for bit at FP32, else sat_t, with nf for an infinity or a NaN. Two points are the
model's choice: the cell is no operand read (no flush, no nv for a signalling NaN: spec/04 R88 lists conversions and
matrix operands, not drains; log 60), and mdrain.b raises nf although the bypass is neither a register nor a cell (R95;
log 61). -/
def cellOut (ctl : BitVec 10) (t : ETy) (rm : Rm) (c : Nat) : Res :=
  match t with
  | .f32 => { bits := c }
  | t => satVal (tyFmtD t) ctl rm (valueOf .f32 c)
def orFlags (l : List (Nat × Res)) : Flags := l.foldl (fun fl x => fl ||| x.2.fl) 0
/-- The index is tested before the capacity of vd (log 64, DESIGN CHOICE: R202 does not order the two). -/
def execMdrain (o : Orient) (t : ETy) (z : Acc) (rm : Rm) (d c : Reg) : State → Out := finish do
  needOwner
  needMatrixMode (.mdrain o t z rm d c)
  let x ← ask fun s => (s.readX c).toNat
  if 127 < x then trap 0x16 0 (BitVec.ofNat 64 x)
  let h ← ask State.me
  if capOf t h.vtype h.lanes < h.mvlen then trap 0x11 0 (BitVec.ofNat 64 h.mvlen)
  upd fun s =>
    let l := (upTo h.mvlen).map fun j =>
      (j, cellOut h.fpctl t rm (if o = .row then cellAt (h.acc z) x j else cellAt (h.acc z) j x))
    let img := l.foldl (fun img y => withElem img (tyBits t) y.1 y.2.bits) (h.vimg d)
    let s := s.updMe fun y => ({ y.setVimg d img with bypass := none }).raise (orFlags l)
    (s.bumpMe 1 1).advance
def execMdrainB (o : Orient) (t : ETy) (z : Acc) (rm : Rm) (c : Reg) : State → Out := finish do
  needOwner
  needMatrixMode (.mdrainB o t z rm c)
  let x ← ask fun s => (s.readX c).toNat
  if 120 < x then trap 0x16 0 (BitVec.ofNat 64 x)
  upd fun s =>
    let h := s.me
    let l := (upTo h.mvlen).flatMap fun i => (upTo 8).map fun k =>
      (8 * i + k, cellOut h.fpctl t rm (if o = .col then cellAt (h.acc z) i (x + k) else cellAt (h.acc z) (x + k) i))
    let img := l.foldl (fun img y => withElem img (tyBits t) y.1 y.2.bits) 0
    let s := s.updMe fun y => ({ y with bypass := some (t, img) }).raise (orFlags l)
    (s.bumpMe 1 1).advance

-- Accumulators to and from memory (spec/10 R209 to R212) ----------------------------------------------------------------------------------

/-- tile_ea (spec/10 R209). -/
def tileAddr (h : Hart) (o : Orient) (t : ETy) (a c : Reg) (i j : Nat) : Word :=
  let base := h.readX a
  match o with
  | .row =>
    let step : Word := if c = 0 then BitVec.ofNat 64 (h.mvlen * tyBytes t) else h.readX c
    base + BitVec.ofNat 64 i * step + BitVec.ofNat 64 (j * tyBytes t)
  | .col =>
    let step : Word := if c = 0 then 4096 else h.readX c
    let b := base.toNat % 64 + j * tyBytes t
    let r := base.toNat % 4096 / 64 + i
    base - BitVec.ofNat 64 (base.toNat % 4096) + BitVec.ofNat 64 (r / 64) * step
      + BitVec.ofNat 64 (64 * (r % 64) + b / 64 * 4096 + b % 64)
/-- The accesses of a tile, in rising positions. -/
def tileAccesses (h : Hart) (o : Orient) (t : ETy) (a c : Reg) : List Acc1 :=
  (corner h.mvlen).map fun x => ⟨x.1 * h.mvlen + x.2, tileAddr h o t a c x.1 x.2, tyBytes t, 0, 0⟩
/-- The cell of a position. -/
def tileCell (h : Hart) (o : Orient) (pos : Nat) : Nat × Nat :=
  let (r, c) := (pos / h.mvlen, pos % h.mvlen)
  match o with
  | .row => (r, c)
  | .col => (c, r)
/-- The checks of mld and mst: the stride, every address, the comparators. -/
def tileChecks (o : Orient) (t : ETy) (a c : Reg) (st : Bool) : Op (List (Acc1 × Trans)) := do
  let h ← ask State.me
  if o = .col && c != 0 && (h.readX c).toNat % 4096 != 0 then trap 0x09 0 (h.readX c)
  let l := tileAccesses h o t a c
  let rs ← checked ⟨a, 0, o, t⟩ st l
  match firstBad rs with
  | some (x, b) => elemTrap false x b
  | none => do
    match ← ask fun s => s.vectorHits l (!st) st with
    | (hits, _, some i) => takeHere { cause := 0x21, value := BitVec.ofNat 64 hits, tpc := h.pc, pos := some i }
    | _ => pure (goodOnes rs)
def execMld (o : Orient) (t : ETy) (z : Acc) (a c : Reg) : State → Out := finish do
  needOwner
  needMatrixMode (.mld o t z a c)
  let l ← tileChecks o t a c false
  loadWaits l (rangeOfAcc (l.map (·.1))) false
  let vs ← readOp o l
  upd fun s =>
    let h := s.me
    let f := tyFmtD t
    let (img, fl) := vs.foldl (fun acc x =>
      let v := valueOf f x.2
      let (i, j) := tileCell h o x.1.idx
      (withCell acc.1 i j (roundVal .f32 false .rne v).1, acc.2 ||| flagIf (v == .nan true) flagNv)) (h.acc z, (0 : Flags))
    let s := s.updMe fun y => ({ y.setAcc z img with bypass := none }).raise fl
    ((s.chargeMe 3 vs.length).bumpMe 1 1).advance
def execMst (o : Orient) (t : ETy) (z : Acc) (rm : Rm) (a c : Reg) : State → Out := finish do
  needOwner
  needMatrixMode (.mst o t z rm a c)
  let l ← tileChecks o t a c true
  awaitTable
  awaitInterlock .empty (rangeOfAcc (l.map (·.1)))
  if ← ask fun s => l.any fun x => s.emissionMeets s.cur x.2.pa x.1.size then waitHere .emitted
  upd fun s =>
    let h := s.me
    let outs := l.map fun x =>
      let (i, j) := tileCell h o x.1.idx
      (x, cellOut h.fpctl t rm (cellAt (h.acc z) i j))
    let s := outs.foldl (fun s x => s.writeAt s.cur x.1.2 x.1.1.size o .none x.2.bits) s
    let s := s.updMe fun y => ({ y with bypass := none }).raise (outs.foldl (fun (fl : Flags) (x : (Acc1 × Trans) × Res) => fl ||| x.2.fl) 0)
    ((s.chargeMe 3 l.length).bumpMe 1 1).advance

end Sys2Proof.Machine
end

