-- ==== Sys2Proof/Machine/Gang.lean ====
section
/-!
DEFINITION. Gangs as their harts see them: launch parameter blocks (spec/15 R301), the gang and work words (spec/15
R309 to R317), and the end of a trial (spec/18 R376).
-/
namespace Sys2Proof.Machine

-- Blocks (spec/15 R301) ---------------------------------------------------------------------------------------------------

/-- The eight words of a block, the first least significant. -/
def blockOf (v : Nat) : Block :=
  let w := fun i => BitVec.ofNat 64 (bitsAt v (64 * i) 64)
  ⟨w 0, w 1, w 2, w 3, w 4, w 5, w 6, w 7⟩
def blockTen (b : Block) : Nat := bitsOf b.w2.toNat 51 40
def blockPri (b : Block) : Nat := bitsOf b.w2.toNat 39 38
def blockSp (b : Block) : Bool := b.w2.getLsbD 37
def blockCo (b : Block) : Bool := b.w2.getLsbD 36
/-- The permitted dies; the field 0 means all four. -/
def blockDies (b : Block) : List Nat :=
  let m := bitsOf b.w2.toNat 35 32
  (upTo 4).filter fun d => m == 0 || bitOf m d
def blockSize (b : Block) : Nat := b.w2.toNat % 2 ^ 32
def blockOne (b : Block) : Bool := b.w6.getLsbD 63
/-- The package cluster that one = 1 names. -/
def blockCluster (b : Block) : Nat := 12 * bitsOf b.w6.toNat 9 8 + bitsOf b.w6.toNat 7 4

-- The executing hart's gang --------------------------------------------------------------------------------------------------

def State.myGang (s : State) : Option Gang := s.me.gang.bind s.gangOf
/-- Whether the hart's gang is co-resident; a supervisor hart stands in no gang and counts as co = 0 (log 15). -/
def State.coResident (s : State) : Bool :=
  match s.myGang with
  | some g => blockCo g.blk
  | none => false
/-- The hidden identity of a work item's gang; 0 for harts of no gang (log 15). -/
def gangKey (h : Hart) : Nat :=
  match h.gang with
  | some g => g + 1
  | none => 0
/-- The gang-wave trap (spec/15 R310). -/
def needCoResident : Op Unit := do
  if ← ask fun s => !s.coResident then trap 0x22 0 0
/-- The wait and the effect of a package-scope release (spec/14 R281). -/
def releaseHere : Op Unit := do
  awaitRelease
  upd fun s => s.releaseAll s.cur .pkg

-- Barriers (spec/15 R313) --------------------------------------------------------------------------------------------------------

/-- turn_check, made at an arrival and whenever a hart of the gang halts. -/
def State.turnCheck (s : State) (g : Nat) : State :=
  match s.gangOf g with
  | none => s
  | some x =>
    if x.count + x.haltedHarts.length = blockSize x.blk then
      let s := x.harts.foldl (fun s h => if (s.hart h).gang == some g && (s.hart h).arr then
        s.updHart h fun y => { y with arr := false, pass := true } else s) s
      s.updGang g fun y => { y with count := 0 }
    else s
/-- The arrival of the executing hart. -/
def State.arrive (s : State) : State :=
  match s.me.gang with
  | none => s
  | some g =>
    let s := if s.me.arr then s else
      (s.updMe fun h => { h with arr := true, arrivedAt := s.now }).updGang g fun x => { x with count := x.count + 1 }
    s.turnCheck g
/-- The completion of a gbar: a package-scope acquire; the latency and the record of a barrier passed. -/
def State.passBarrier (s : State) : State :=
  let pc := s.me.pc
  let s := (s.updMe fun h => { h with pass := false }).acquireAll s.cur .pkg
  let s := s.capture s.cur 4 (s.now - s.me.arrivedAt)
  (s.emitMe 0x0203 (BitVec.ofNat 64 s.me.gsz) pc).advance

def execGbar : State → Out := finish do
  needCoResident
  if ← ask fun s => s.me.pass then do
    awaitReel 0x0203
    upd State.passBarrier
  else do
    if ← ask fun s => !s.me.arr then awaitReel 0x0203
    releaseHere
    upd State.arrive
    if ← ask fun s => s.me.arr then waitHere .gbar else upd State.passBarrier

-- Launching and waiting (spec/15 R311, R312) ----------------------------------------------------------------------------------------

/-- The block as a user or the supervisor launches it. -/
def ownBlock (h : Hart) (b : Block) : Block :=
  if h.sup then b
  else
    let v := withBits b.w2.toNat 40 12 h.tenant.toNat
    { b with w2 := BitVec.ofNat 64 (withBits v 38 2 (min (bitsOf v 39 38) 2)) }
/-- The append to the device launch list of the hart's die. -/
def State.launch (s : State) (d : Reg) (b : Block) : State :=
  let x := s.die (dieOf s.cur)
  if 256 ≤ x.devList.length then s.retire d 1
  else
    ({ s with takes := s.takes + 1 }.updDie (dieOf s.cur) fun x =>
      { x with devList := x.devList ++ [(x.takeNo, s.takes, ownBlock s.me b)], takeNo := x.takeNo + 1 }).retire d 0
def execGlaunch (d a : Reg) : State → Out := finish do
  let b ← ask fun s => s.readX a
  if b.toNat % 64 ≠ 0 then trap 0x09 0 b
  let t ← scalarCheck b 64 .row .load 0
  awaitInterlock (spanOf b 64) .empty
  awaitEmission t.pa 64
  releaseHere
  let (v, bad) ← (fun s =>
    let (v, bad, s) := s.readAt s.cur t 64 .row .none false
    .ok ((v, bad), s) : Op (Nat × Bool))
  if bad then consumePoison b else upd fun s => s.launch d (blockOf v)

def execGwait (a t : Reg) : State → Out := finish do
  let ea ← ask fun s => s.readX a
  let v ← ask fun s => (s.readX t).toNat
  if ea.toNat % 8 ≠ 0 then trap 0x09 0 ea
  let tr ← scalarCheck ea 8 .row .load 0
  awaitInterlock (spanOf ea 8) .empty
  awaitEmission tr.pa 8
  let (m, bad) ← (fun s =>
    let (m, bad, s) := s.acquireRead s.cur tr 8 .sys
    .ok ((m, bad), s) : Op (Nat × Bool))
  if bad then consumePoison ea
  else if v ≤ m then upd State.advance
  else waitHere .gwait

-- Work lists and termination (spec/15 R314 to R317) -------------------------------------------------------------------------------------

/-- The cluster and list that an operand names. -/
def listOf (l : Word) : Option (Nat × Nat) :=
  if bitsOf l.toNat 63 10 = 0 && bitsOf l.toNat 7 4 < 12 then
    some (12 * bitsOf l.toNat 9 8 + bitsOf l.toNat 7 4, bitsOf l.toNat 3 0)
  else none
def State.workList (s : State) (k n : Nat) : List (Nat × Word) := Tab.get [] (s.cluster k).lists n
def State.setWorkList (s : State) (k n : Nat) (l : List (Nat × Word)) : State :=
  s.updCluster k fun c => { c with lists := Tab.set [] c.lists n l }
/-- The compaction unit's source number. -/
def compactionUnit (k : Nat) : Nat := 1538 + 3 * k
def State.quietGang (s : State) : Bool :=
  match s.myGang with
  | some g => g.quiet
  | none => false
def State.outstanding (s : State) (f : Nat → Nat) : State :=
  match s.me.gang with
  | some g => s.updGang g fun x => { x with outstanding := f x.outstanding }
  | none => s

def execWadd (a t : Reg) : State → Out := finish do
  let l ← ask fun s => s.readX a
  match listOf l with
  | none => trap 0x23 0 l
  | some (k, n) =>
    if ← ask State.quietGang then trap 0x25 0 l
    releaseHere
    upd fun s => s.updMe fun h => { h with idle := false }
    if ← ask fun s => decide (4096 ≤ (s.workList k n).length) then do
      if ← ask fun s => s.copying s.cur then waitHere .copies
      upd fun s => s.bump (compactionUnit k) 3 1
      trap 0x24 0 l
    else upd fun s =>
      let item := s.readX t &&& 0x7FFFFFFFFFFFFFFF#64
      let s := (s.outstanding (· + 1)).setWorkList k n (s.workList k n ++ [(gangKey s.me, item)])
      (s.bump (compactionUnit k) 0 1).advance

/-- The oldest item of a gang, and the list without it. -/
def takeItem (g : Nat) : List (Nat × Word) → Option (Word × List (Nat × Word))
  | [] => none
  | (k, v) :: l => if k = g then some (v, l) else (takeItem g l).map fun r => (r.1, (k, v) :: r.2)
def execWtake (d a : Reg) : State → Out := finish do
  let l ← ask fun s => s.readX a
  match listOf l with
  | none => trap 0x23 0 l
  | some (k, n) => upd fun s => match takeItem (gangKey s.me) (s.workList k n) with
    | none => (s.bump (compactionUnit k) 2 1).retire d 0xFFFFFFFFFFFFFFFF
    | some (v, rest) =>
      let s := ((s.setWorkList k n rest).outstanding (· - 1)).updMe fun h => { h with idle := false }
      ((s.bump (compactionUnit k) 1 1).acquireAll s.cur .pkg).retire d v

def execTidle : State → Out := finish do
  needCoResident
  releaseHere
  upd fun s => (s.updMe fun h => { h with idle := true }).advance
/-- Quiescence at this instant (spec/15 R317). -/
def State.quiescent (s : State) (g : Gang) : Bool :=
  g.outstanding == 0 && (g.harts.length == blockSize g.blk)
    && g.harts.all fun h => g.haltedHarts.contains h || (s.hart h).idle
def execTquiet (d : Reg) : State → Out := finish do
  needCoResident
  upd fun s => match s.myGang with
    | none => s.retire d 0
    | some g =>
      if g.quiet || s.quiescent g then
        ((s.updGang g.id fun x => { x with quiet := true }).acquireAll s.cur .pkg).retire d 1
      else s.retire d 0

-- The end of a trial (spec/18 R376) ----------------------------------------------------------------------------------------------------------

def sumProg (a b : Tab Nat) : Tab Nat := b.foldl (fun t e => Tab.put t e.1 (Tab.get 0 t e.1 + e.2)) a
def sumTrial (a b : TrialCounts) : TrialCounts :=
  { acc := 0, words := a.words + b.words, delay := a.delay + b.delay, prog := sumProg a.prog b.prog }
/-- The counts of every hart of a gang that runs, with those of the halted ones. -/
def State.trialSum (s : State) (g : Gang) : TrialCounts :=
  (g.harts.filter fun h => !g.haltedHarts.contains h).foldl (fun t h => sumTrial t (s.hart h).trial) g.past
/-- end_trial for a gang on a die, but for its record 0x0601, which emit emits. -/
def State.finishTrial (s : State) (g d : Nat) (emit : State → Word → Word → State) : State :=
  match s.gangOf g with
  | none => s
  | some x => match x.trial with
    | none => s
    | some t =>
      let sum := s.trialSum x
      let s := s.addWord d (t.pa + 0x28) sum.words
      let s := s.addWord d (t.pa + 0x30) sum.delay
      let s := (upTo 8).foldl (fun s j => s.addWord d (t.pa + 0x40 + 8 * j) (Tab.get 0 sum.prog j)) s
      let s := s.writeHome d (t.pa + 0x20) 8 (s.tstamp d)
      let s := s.updGang g fun y => { y with trial := none, past := {} }
      emit s t.desc (BitVec.ofNat 64 sum.delay)
/-- end_trial by a hart of the gang. -/
def State.endTrial (s : State) (g : Nat) (h : Nat) : State :=
  s.finishTrial g (dieOf h) fun s a b => s.emitHart h 0x0601 a b

end Sys2Proof.Machine
end

