-- ==== Sys2Proof/Machine/ReelWords.lean ====
section
/-!
DEFINITION. The Reel words tmark, tflt, cexp, prog and lcap (spec/18 R362 to R364, R372, R375 to R378).
-/
namespace Sys2Proof.Machine

/-- Every Reel and Slate word that completes is charged to class 7 (spec/11 R240); one that traps changes nothing. -/
def chargeTrace : Op Unit := upd fun s => s.chargeMe 7 1

/-- tmark emits nothing while class 0 is masked (spec/18 R363). time is the moment of its record. -/
def tmarkAt (time : State → Nat) (a t : Reg) : State → Out := finish do
  let c ← ask fun s => 0x8000 + (s.readX a).toNat % 2 ^ 12
  awaitReel c
  chargeTrace
  if ← ask fun s => s.me.tmask.getLsbD 0 then upd fun s => s.emitHartAt s.cur (time s) c (s.readX t) s.me.pc
  upd State.advance
def execTmark (a t : Reg) : State → Out := tmarkAt (fun s => s.tstamp (dieOf s.cur)) a t
/-- tflt (spec/18 R364). -/
def tmaskOf (h : Hart) (v : Word) : BitVec 16 := v.truncate 16 &&& h.tallow ||| 0x0020
def execTflt (a : Reg) : State → Out := finish do
  chargeTrace
  upd fun s =>
    let m := tmaskOf s.me (s.readX a)
    let s := s.updMe fun h => { h with tmask := m }
    (s.emitMe 0x0502 (m.zeroExtend 64) s.me.pc).advance

/-- The reserved words of a trial descriptor (spec/18 R375): bits [63:16] at 0x10, and the word at 0x38. -/
def descriptorBad (v : Nat) : Bool := bitsAt v (8 * 0x10 + 16) 48 != 0 || bitsAt v (8 * 0x38) 64 != 0
/-- A trial starts: every hart's counts go to zero and start is written (spec/18 R376). -/
def State.startTrial (s : State) (g : Gang) (a : Word) (pa v : Nat) : State :=
  let t : Trial := ⟨a, pa, bitsAt v 0 64, bitsAt v 64 64, bitsAt v (8 * 0x10) 16⟩
  let s := g.harts.foldl (fun s h => s.updHart h fun x => { x with trial := {} }) s
  let s := s.updGang g.id fun x => { x with trial := some t, past := {} }
  let s := s.writeHome (dieOf s.cur) (pa + 0x18) 8 (s.tstamp (dieOf s.cur))
  s.emitMe 0x0600 a (BitVec.ofNat 64 t.k)
def execCexp (a : Reg) : State → Out := finish do
  let v ← ask fun s => s.readX a
  match ← ask State.myGang with
  | none => trap 0x28 2 v
  | some g =>
    if !blockCo g.blk then trap 0x28 2 v
    else if v ≠ 0 then
      if g.trial.isSome then trap 0x28 0 v
      else if v.toNat % 128 ≠ 0 then trap 0x09 0 v
      else do
        let t ← scalarCheck v 128 .row .both 0
        awaitInterlock (spanOf v 128) (spanOf v 128)
        awaitEmission t.pa 128
        -- the device reads and writes the descriptor at its home
        upd fun s => s.drainBytes (clusterOf s.cur) fun pa => decide (t.pa ≤ pa) && decide (pa < t.pa + 128)
        let (d, bad) ← (fun s =>
          let (d, bad, s) := s.readAt s.cur t 128 .row .none false
          .ok ((d, bad), s) : Op (Nat × Bool))
        if bad then consumePoison v
        else if descriptorBad d then trap 0x28 3 v
        else do
          awaitReel 0x0600
          upd fun s => ((s.chargeMe 7 1).startTrial g v t.pa d).advance
    else if g.trial.isNone then trap 0x28 1 0
    else do
      awaitReel 0x0601
      upd fun s => (((s.chargeMe 7 1).endTrial g.id s.cur).acquireAll s.cur .sys).advance

/-- prog (spec/18 R378). -/
def State.progress (s : State) (j : Nat) : State :=
  let s := s.bumpMe 15 1
  let s := if (s.myGang.bind (·.trial)).isSome then
      s.updMe fun h => { h with trial := { h.trial with prog := Tab.put h.trial.prog j (Tab.get 0 h.trial.prog j + 1) } }
    else s
  if s.me.tmask.getLsbD 6 then s.emitMe 0x0602 (BitVec.ofNat 64 j) s.me.pc else s
def execProg (a : Reg) : State → Out := finish do
  let j ← ask fun s => s.readX a
  if 7 < j.toNat then trap 0x28 4 j
  else do
    awaitReel 0x0602
    upd fun s => ((s.chargeMe 7 1).progress j.toNat).advance

/-- The item of a latency unit that a selector names (spec/18 R372). -/
def latencyItem (u : Latency) (i : Nat) : Nat :=
  match i with
  | 0 => u.count
  | 1 => u.min
  | 2 => u.max
  | 3 => u.sum
  | 4 => u.lost
  | i => latencyBucket u (i - 16)
def selectorValid (v : Word) : Bool :=
  let i := v.toNat % 256
  bitsOf v.toNat 63 11 == 0 && (decide (i ≤ 4) || (decide (16 ≤ i) && decide (i ≤ 31)))
def lcapReadable (h : Hart) (c : Word) : Bool := h.sup || (c.getLsbD 52 && c.extractLsb' 40 12 == h.tenant)
/-- lcap: the value read includes no capture of its cycle, since a step is one word (log 2). -/
def execLcap (d a : Reg) : State → Out := finish do
  let v ← ask fun s => s.readX a
  let j := bitsOf v.toNat 9 8
  if !selectorValid v then trap 0x29 0 v
  else if ← ask fun s => !lcapReadable s.me (Tab.get 0 s.myCore.lcfg j) then trap 0x29 1 v
  else upd fun s =>
    let u := Tab.get {} s.myCore.latency j
    let s := s.chargeMe 7 1
    let s := if v.getLsbD 10 then s.updCore (coreOf s.cur) fun c => c.clearUnit j else s
    s.retire d (BitVec.ofNat 64 (latencyItem u (v.toNat % 256)))

end Sys2Proof.Machine
end

