-- ==== Sys2Proof/Machine/RowArith.lean ====
section
/-!
DEFINITION. Row arithmetic on integers and floats (spec/05 R104 to R112).
-/
namespace Sys2Proof.Machine

/-- A result with the flags of its operand reads. -/
def Res.reads (x : Res) (f : Flags) : Res := { x with fl := x.fl ||| f }
/-- A float operation on two operands as read (spec/05 R103). -/
def onTwo (f : Fmt) (ctl : BitVec 10) (op : FVal → FVal → Res) (a b : Nat) : Res :=
  let (x, fx) := operand f ctl a
  let (y, fy) := operand f ctl b
  (op x y).reads (fx ||| fy)
def onOne (f : Fmt) (ctl : BitVec 10) (op : FVal → Res) (a : Nat) : Res :=
  let (x, fx) := operand f ctl a
  (op x).reads fx
/-- One element of a word with an integer and a float meaning. -/
def arith (ctl : BitVec 10) (t : ETy) (fi : Int → Int → Int) (ff : Fmt → FVal → FVal → Res) (a b : Nat) : Res :=
  match tyFmt t with
  | none => satInt t (fi (tyInt t a) (tyInt t b))
  | some f => onTwo f ctl (ff f) a b
/-- A row word of two sources of one type. -/
def rowTwo (h : BHead) (t : ETy) (d : Reg) (a b : Src) (m : Option Reg) (f : BitVec 10 → Nat → Nat → Res) : State → Out :=
  rowResult h [] t d m fun r x i => f r.cap.fpctl (rowGet r x t a.r i) (rowGet r x t b.r i)
def rowOne (h : BHead) (t : ETy) (d : Reg) (a : Src) (m : Option Reg) (f : BitVec 10 → Nat → Res) : State → Out :=
  rowResult h [] t d m fun r x i => f r.cap.fpctl (rowGet r x t a.r i)

def execVadd (h : BHead) (t : ETy) (rm : Rm) (d : Reg) (a b : Src) (m : Option Reg) : State → Out :=
  rowTwo h t d a b m fun c => arith c t (· + ·) fun f => fAdd f c rm
def execVsub (h : BHead) (t : ETy) (rm : Rm) (d : Reg) (a b : Src) (m : Option Reg) : State → Out :=
  rowTwo h t d a b m fun c => arith c t (· - ·) fun f => fSub f c rm
def execVmul (h : BHead) (t : ETy) (rm : Rm) (d : Reg) (a b : Src) (m : Option Reg) : State → Out :=
  rowTwo h t d a b m fun c => arith c t (· * ·) fun f => fMul f c rm
/-- The upper half of the product (spec/05 R105). -/
def mulHigh (t : ETy) (a b : Nat) : Res :=
  { bits := wrapN (tyBits t) (tyInt t a * tyInt t b / ((2 ^ tyBits t : Nat) : Int)) }
def execVmulh (h : BHead) (t : ETy) (d : Reg) (a b : Src) : State → Out :=
  rowTwo h t d a b none fun _ => mulHigh t
/-- old + a · b: one exact sum on integers, two roundings on floats (spec/05 R104, R110). -/
def macc (ctl : BitVec 10) (t : ETy) (rm : Rm) (o a b : Nat) : Res :=
  match tyFmt t with
  | none => satInt t (tyInt t o + tyInt t a * tyInt t b)
  | some f =>
    let p := onTwo f ctl (fMul f ctl rm) a b
    let s := onOne f ctl (fun x => fAdd f ctl rm x (valueOf f p.bits)) o
    { s with fl := s.fl ||| p.fl, mark := s.mark || p.mark }
def execVmac (h : BHead) (t : ETy) (rm : Rm) (d : Reg) (a b : Src) (m : Option Reg) : State → Out :=
  rowResult h [] t d m fun r x i =>
    macc r.cap.fpctl t rm (rowGet r x t d i) (rowGet r x t a.r i) (rowGet r x t b.r i)
/-- a · b + c with one rounding (spec/05 R110). -/
def fused (ctl : BitVec 10) (t : ETy) (rm : Rm) (a b c : Nat) : Res :=
  let f := tyFmtD t
  let (x, fx) := operand f ctl a
  let (y, fy) := operand f ctl b
  let (z, fz) := operand f ctl c
  (fFma f ctl rm x y z).reads (fx ||| fy ||| fz)
def execVfma (h : BHead) (t : ETy) (rm : Rm) (d : Reg) (a b c : Src) (m : Option Reg) : State → Out :=
  rowResult h [] t d m fun r x i =>
    fused r.cap.fpctl t rm (rowGet r x t a.r i) (rowGet r x t b.r i) (rowGet r x t c.r i)
/-- Quotient and remainder of a row, with the two corners (spec/05 R106). -/
def rowDivRem (t : ETy) (a b : Nat) : Res × Res :=
  let w := tyBits t
  let x := tyInt t a
  let y := tyInt t b
  if y = 0 then
    ({ bits := 2 ^ w - 1, fl := flagDz, mark := true }, { bits := a % 2 ^ w, fl := flagDz, mark := true })
  else if tySigned t && decide (x = minOf true w) && decide (y = -1) then
    ({ bits := a % 2 ^ w, fl := flagSat, mark := true }, { bits := 0, fl := flagSat, mark := true })
  else ({ bits := wrapN w (x.tdiv y) }, { bits := wrapN w (x.tmod y) })
def execVdiv (h : BHead) (t : ETy) (rm : Rm) (d : Reg) (a b : Src) (m : Option Reg) : State → Out :=
  rowTwo h t d a b m fun c u v => match tyFmt t with
    | none => (rowDivRem t u v).1
    | some f => onTwo f c (fDiv f c rm) u v
def execVrem (h : BHead) (t : ETy) (d : Reg) (a b : Src) (m : Option Reg) : State → Out :=
  rowTwo h t d a b m fun _ u v => (rowDivRem t u v).2
/-- The lesser or the greater (spec/05 R108, R111). -/
def minMax (isMax : Bool) (ctl : BitVec 10) (t : ETy) (a b : Nat) : Res :=
  match tyFmt t with
  | none => { bits := if decide (tyInt t a < tyInt t b) == isMax then b else a }
  | some f => fMinMax f ctl isMax a b
def execVmin (h : BHead) (t : ETy) (d : Reg) (a b : Src) : State → Out :=
  rowTwo h t d a b none fun c => minMax false c t
def execVmax (h : BHead) (t : ETy) (d : Reg) (a b : Src) : State → Out :=
  rowTwo h t d a b none fun c => minMax true c t
/-- A float operand as read with another sign (spec/05 R112). -/
def floatSign (f : Fmt) (ctl : BitVec 10) (sign : Bool → Bool) (b : Nat) : Res :=
  let (x, fl) := operand f ctl b
  if isNan x then (nanRes f).reads fl
  else
    let v := asRead f ctl b
    (Res.nf f { bits := withSign f (sign (bitOf v (f.width - 1))) (v % signBit f) }).reads fl
def execVabs (h : BHead) (t : ETy) (d : Reg) (a : Src) (m : Option Reg) : State → Out :=
  rowOne h t d a m fun c v => match tyFmt t with
    | none => satInt t (tyInt t v).natAbs
    | some f => floatSign f c (fun _ => false) v
def execVneg (h : BHead) (t : ETy) (d : Reg) (a : Src) (m : Option Reg) : State → Out :=
  rowOne h t d a m fun c v => match tyFmt t with
    | none => satInt t (-(tyInt t v))
    | some f => floatSign f c (!·) v
def execVsqrt (h : BHead) (t : ETy) (rm : Rm) (d : Reg) (a : Src) : State → Out :=
  rowOne h t d a none fun c v => onOne (tyFmtD t) c (fSqrt (tyFmtD t) c rm) v

end Sys2Proof.Machine
end

