-- ==== Sys2Proof/Machine/RowPred.lean ====
section
/-!
DEFINITION. Predicate and probability words (spec/06 R128 to R142).
-/
namespace Sys2Proof.Machine

/-- vcmp of two elements (spec/06 R129). -/
def cmpBits (ctl : BitVec 10) (cc : CmpOp) (t : ETy) (a b : Nat) : Bool × Flags :=
  match tyFmt t with
  | none => (condHolds cc (some (compare (tyInt t a) (tyInt t b))), 0)
  | some f =>
    let (x, fx) := operand f ctl a
    let (y, fy) := operand f ctl b
    (condHolds cc (fCmp x y), fx ||| fy)
def execVcmp (h : BHead) (cc : CmpOp) (t : ETy) (d : Reg) (a b : Src) : State → Out :=
  rowCell h [t] d fun r x i =>
    let (v, fl) := cmpBits r.cap.fpctl cc t (rowGet r x t a.r i) (rowGet r x t b.r i)
    (cellOf v, fl)

-- Logic and the product rules (spec/06 R130) ----------------------------------------------------------------------------

def andP (ind : Bool) (p q : Nat) : Nat :=
  if !ind then min p q
  else
    let z := p * q
    let h := z / 2 ^ 15
    let rest := z % 2 ^ 15
    if 0x4000 < rest ∨ (rest = 0x4000 ∧ h % 2 = 1) then h + 1 else h
def logicTwo (h : BHead) (d a b : Reg) (f : Nat → Nat → Nat → Nat) : State → Out :=
  rowCell h [] d fun _ x i =>
    let p := (x.pred a).cell i
    let q := (x.pred b).cell i
    (f p q (andP ((x.pred a).ind && (x.pred b).ind) p q), 0)
def execPand (h : BHead) (d a b : Reg) : State → Out := logicTwo h d a b fun _ _ z => z
def execPor (h : BHead) (d a b : Reg) : State → Out := logicTwo h d a b fun p q z => p + q - z
def execPxor (h : BHead) (d a b : Reg) : State → Out := logicTwo h d a b fun p q z => p + q - 2 * z
def execPnot (h : BHead) (d a : Reg) : State → Out := rowCell h [] d fun _ x i => (0x8000 - (x.pred a).cell i, 0)
def execPmov (h : BHead) (d a : Reg) : State → Out := rowCell h [] d fun _ x i => ((x.pred a).cell i, 0)

-- Soft compares (spec/06 R133) --------------------------------------------------------------------------------------------

/-- q32: FP32 with RNE, no flag, no flush. -/
def q32 (r : Res) : FVal := valueOf .f32 r.bits
/-- 0.5 + 0.25 · s with s = q32(q32(u − v) / T), before the clamp; none when s is a NaN. -/
def softRamp (temp : BitVec 32) (u v : FVal) : Option FVal :=
  let dd := q32 (fSub .f32 0 .rne u v)
  let s := q32 (fDiv .f32 0 .rne dd (valueOf .f32 temp.toNat))
  if isNan s then none else some (q32 (fFma .f32 0 .rne (.num false 1 (-2)) s (.num false 1 (-1))))
/-- The clamped fraction in units of 1/32768. -/
def softCell (q : FVal) : Nat :=
  match q with
  | .nan _ => 0
  | .inf neg => if neg then 0 else 0x8000
  | .num neg m e => if neg then 0 else min (toGrid .rne false m e (-15) false).1 0x8000
/-- One soft compare; swap exchanges the operands of the difference. -/
def softCmp (ctl : BitVec 10) (temp : BitVec 32) (cc : CmpOp) (swap : Bool) (t : ETy) (a b : Nat) : Nat × Flags :=
  let (x, fx) := operand (tyFmtD t) ctl a
  let (y, fy) := operand (tyFmtD t) ctl b
  let fl := fx ||| fy
  if isNan x || isNan y then (0, fl ||| flagNv)
  else if temp = 0 then (cellOf (condHolds cc (fCmp x y)), fl)
  else match softRamp temp (if swap then y else x) (if swap then x else y) with
    | none => (0, fl ||| flagNv)
    | some q => (softCell q, fl)
def softWord (cc : CmpOp) (swap : Bool) (h : BHead) (t : ETy) (d : Reg) (a b : Src) : State → Out :=
  rowCell h [t] d fun r x i =>
    softCmp r.cap.fpctl r.cap.ptemp cc swap t (rowGet r x t a.r i) (rowGet r x t b.r i)
def execPsgt (h : BHead) (t : ETy) (d : Reg) (a b : Src) : State → Out := softWord .gt false h t d a b
def execPsge (h : BHead) (t : ETy) (d : Reg) (a b : Src) : State → Out := softWord .ge false h t d a b
def execPslt (h : BHead) (t : ETy) (d : Reg) (a b : Src) : State → Out := softWord .lt true h t d a b
def execPsle (h : BHead) (t : ETy) (d : Reg) (a b : Src) : State → Out := softWord .le true h t d a b

-- Fractions, independence, collapse (spec/06 R135 to R139) ---------------------------------------------------------------

def execPset (h : BHead) (d : Reg) (a : Src) : State → Out :=
  rowCell h [.z16] d fun r x i => (rowGet r x .z16 a.r i, 0)
/-- pind acts through the tags of the run (spec/06 R124, R136); its row body has no effect. -/
def execPind (cv : Bool) (_d : Reg) (_v : Bool) : State → Out :=
  rowWord (plainHead cv) [] false 2 fun _ _ => upd State.rowNext

/-- The generator of spec/06 R138. -/
def mix (c : Word) (i : Nat) : Word :=
  let k1 : Word := 0xD1B54A32D192ED03
  let k2 : Word := 0xAEF17502108EF2D9
  let z := c ^^^ BitVec.ofNat 64 (i * 2 ^ 50)
  let z := (z ^^^ (z >>> 31)) * k1
  let z := (z ^^^ (z >>> 29)) * k2
  (z ^^^ (z >>> 32)) * k1
/-- The pcollapse words of a closure in ascending address order (spec/06 R139). -/
def collapses (words : Tab Nat) : List Nat := (words.filter fun e => e.2 / 2 ^ 56 == 0x46).map (·.1)
/-- The bit of row i at a counter value. -/
def collapseBit (c : Word) (i p : Nat) : Bool := decide ((mix c i).toNat / 2 ^ 49 < p)
def execPcollapse (cv : Bool) (d a : Reg) : State → Out :=
  rowWord (plainHead cv) [] true 2 fun r i => upd fun s =>
    let x := r.row
    let l := collapses r.words
    let c := r.g0 + BitVec.ofNat 64 (l.length * x.count x.pc + l.idxOf x.pc)
    let b := collapseBit c i ((s.me.pred a).cell i)
    (s.rowCounts.updMe fun y => y.setPred d ((y.pred d).setCell i (cellOf b))).rowNext

-- Blending and gradients (spec/06 R137, R141, R142) -------------------------------------------------------------------------

/-- vblend of two elements by the fraction p: at 0 and 1 a copy, bit for bit and without a flag. -/
def blend (ctl : BitVec 10) (t : ETy) (rm : Rm) (p a b : Nat) : Res :=
  if p = 0 then { bits := b }
  else if p = 0x8000 then { bits := a }
  else
    let f := tyFmtD t
    let (x, fx) := operand f ctl a
    let (y, fy) := operand f ctl b
    let tt := fSub .f32 ctl rm x y
    let z := fFma .f32 ctl rm (.num false p (-15)) (valueOf .f32 tt.bits) y
    let fl := fx ||| fy ||| tt.fl ||| z.fl
    if f = .f32 then { bits := z.bits, fl := fl }
    else
      let (o, fo) := roundVal f (resultFlush ctl f) rm (valueOf .f32 z.bits)
      (Res.nf f { bits := o, fl := fo }).reads fl
def execVblend (cv : Bool) (t : ETy) (rm : Rm) (d : Reg) (a b : Src) (c : Reg) : State → Out :=
  rowResult (plainHead cv) [] t d none fun r x i =>
    blend r.cap.fpctl t rm ((x.pred c).cell i) (rowGet r x t a.r i) (rowGet r x t b.r i)
/-- g · (a − b), the difference in FP32 (spec/06 R141). -/
def blendGrad (ctl : BitVec 10) (t : ETy) (rm : Rm) (g a b : Nat) : Res :=
  let f := tyFmtD t
  let (u, fu) := operand f ctl g
  let (x, fx) := operand f ctl a
  let (y, fy) := operand f ctl b
  let tt := fSub .f32 ctl rm x y
  (fMul f ctl rm u (valueOf .f32 tt.bits)).reads (fu ||| fx ||| fy ||| tt.fl)
def execVbgrad (h : BHead) (t : ETy) (rm : Rm) (d : Reg) (g a b : Src) : State → Out :=
  rowResult h [] t d none fun r x i =>
    blendGrad r.cap.fpctl t rm (rowGet r x t g.r i) (rowGet r x t a.r i) (rowGet r x t b.r i)
/-- Strictly inside (0, 1). -/
def onRamp (q : FVal) : Bool :=
  match q with
  | .num neg m e => !neg && m != 0 && decide (expOf m e < 0)
  | _ => false
/-- psgrad of a row (spec/06 R142). Where T is +0 and the gradient is a NaN, R134 says +0 in every row and the body of R142
writes a NaN before it looks at T: the model follows R142 (log 63, DEDUCED). -/
def softGrad (ctl : BitVec 10) (temp : BitVec 32) (t : ETy) (rm : Rm) (g a b : Nat) : Res :=
  let f := tyFmtD t
  let (u, fu) := operand f ctl g
  let (x, fx) := operand f ctl a
  let (y, fy) := operand f ctl b
  let fl := fu ||| fx ||| fy
  if isNan u then (nanRes f).reads fl
  else if isNan x || isNan y then { bits := 0, fl := fl ||| flagNv }
  else if temp = 0 then { bits := 0, fl := fl }
  else match softRamp temp x y with
    | none => { bits := 0, fl := fl ||| flagNv }
    | some q =>
      if onRamp q then (fDiv f ctl rm (scaleBy u (-2)) (valueOf .f32 temp.toNat)).reads fl
      else { bits := 0, fl := fl }
def execPsgrad (h : BHead) (t : ETy) (rm : Rm) (d : Reg) (g a b : Src) : State → Out :=
  rowResult h [] t d none fun r x i =>
    softGrad r.cap.fpctl r.cap.ptemp t rm (rowGet r x t g.r i) (rowGet r x t a.r i) (rowGet r x t b.r i)

end Sys2Proof.Machine
end

