-- ==== Sys2Proof/Machine/Run.lean ====
section
/-!
DEFINITION. Block runs: validating a closure (spec/02 R49, R50), vf and vdrain (spec/03 R56, R70), the start of a vector
queue entry with its predicate tags (spec/06 R124, R125), one word of one row with its convoy (spec/08 R166), and the end
of a run (spec/06 R139).
-/
namespace Sys2Proof.Machine

-- Validating a closure (spec/02 R49, R50) ---------------------------------------------------------------------------------

/-- Why a closure is not valid; block is the start of the block being walked. -/
inductive BadClosure where
  | notInstr (block off : Nat) | noStop (block : Nat) | tooMany (block : Nat) | fetch (block sub addr : Nat)
  | poison (addr : Nat)
  deriving DecidableEq, Repr

/-- A block word, in its two 32-bit halves. -/
def State.fetchBlockWord (s : State) (h addr : Nat) : Except (Option Nat) Nat × State :=
  match s.fetchWord h (BitVec.ofNat 64 addr) with
  | (.fault sub, s) => (.error (some sub), s)
  | (.poison, s) => (.error none, s)
  | (.word lo, s) => match s.fetchWord h (BitVec.ofNat 64 (addr + 4)) with
    | (.fault sub, s) => (.error (some sub), s)
    | (.poison, s) => (.error none, s)
    | (.word hi, s) => (.ok (lo + hi * 2 ^ 32), s)

/-- Walks one block from addr on, at most fuel words: the words read and the blocks found so far. -/
def State.walkBlock (s : State) (h start : Nat) :
    Nat → Nat → Tab Nat → List Nat → Except BadClosure (Tab Nat × List Nat) × State
  | 0, _, _, _ => (.error (.noStop start), s)
  | fuel + 1, addr, words, found =>
    match s.fetchBlockWord h addr with
    | (.error (some sub), s) => (.error (.fetch start sub addr), s)
    | (.error none, s) => (.error (.poison addr), s)
    | (.ok w, s) => match decodeBlock (BitVec.ofNat 64 w) with
      | none => (.error (.notInstr start (addr - start)), s)
      | some i =>
        if addr = start && (blockInfo i).cv then (.error (.notInstr start 0), s)
        else
          let words := Tab.put words addr w
          match namedBlock i with
          | none => if isStop i then (.ok (words, found), s) else State.walkBlock s h start fuel (addr + 8) words found
          | some off =>
            let t := blockTarget addr off
            if found.contains t then State.walkBlock s h start fuel (addr + 8) words found
            else if 32 ≤ found.length then (.error (.tooMany start), s)
            else State.walkBlock s h start fuel (addr + 8) words (found ++ [t])
/-- Walks the blocks in the order of their discovery; done counts those walked. -/
def State.walkClosure (s : State) (h : Nat) : Nat → Nat → Tab Nat → List Nat → Except BadClosure (Tab Nat) × State
  | 0, _, words, _ => (.ok words, s)
  | fuel + 1, done, words, found =>
    match found[done]? with
    | none => (.ok words, s)
    | some b => match s.walkBlock h b 4096 b words found with
      | (.error e, s) => (.error e, s)
      | (.ok (words, found), s) => State.walkClosure s h fuel (done + 1) words found
/-- The closure of a target, or the trap of spec/02 R50. -/
def validate (target : Nat) : Op (Tab Nat) := fun s =>
  let at_ := fun (cause sub block : Nat) (value : Word) (s : State) =>
    (takeHere { cause := cause, sub := sub, value := value, tpc := s.me.pc, aux := BitVec.ofNat 64 block } s : Except State (Tab Nat × State))
  match s.walkClosure s.cur 33 0 [] [target] with
  | (.ok words, s) => .ok (words, s)
  | (.error (.notInstr b off), s) => at_ 0x01 0 b (BitVec.ofNat 64 off) s
  | (.error (.noStop b), s) => at_ 0x01 0 b 0x8000 s
  | (.error (.tooMany b), s) => at_ 0x01 0 b (BitVec.allOnes 64) s
  | (.error (.fetch b sub addr), s) => at_ 0x04 sub b (BitVec.ofNat 64 addr) s
  | (.error (.poison addr), s) => consumePoison (BitVec.ofNat 64 addr) s

def closureInstrs (words : Tab Nat) : List Instr := words.filterMap fun e => decodeBlock (BitVec.ofNat 64 e.2)
/-- closure_has_row_memory (spec/03 R56). -/
def rowMemoryIn (words : Tab Nat) : Bool := (closureInstrs words).any isRowMemory

-- vf and vdrain (spec/03 R56, R70) -----------------------------------------------------------------------------------------

/-- The values an entry captures (spec/08 R164). -/
def Hart.capture (h : Hart) : Capture :=
  { vlen := h.vlen, mvlen := h.mvlen, vtype := h.vtype, sw := h.sw, swq := h.swq, fpctl := h.fpctl, ptemp := h.ptemp, lanes := h.lanes }
/-- Issues a run: a target off a multiple of 8 is no instruction (spec/02 R47); a closure with row memory has an entry
in the interlock table, before those of words queued behind it (spec/03 R60, spec/13 R264). -/
def issueRun (w : Instr) (isDrain : Bool) (i : BitVec 20) : State → Out := finish do
  let t ← ask fun s => branchTarget s.me.pc i
  if t.toNat % 8 ≠ 0 then trap 0x01 0 (wordOf w)
  needOwner
  needVectorMode w
  let words ← validate t.toNat
  if rowMemoryIn words then do
    awaitTable
    awaitInterlock .all .all
    upd fun s => s.updCore (coreOf s.cur) fun c =>
      { c with interlocks := (⟨s.cur, 0, .all, .all⟩ : Interlock) :: c.interlocks }
  upd fun s =>
    let e : QEntry := { issuePc := s.me.pc.toNat, target := t.toNat, words := words, isDrain := isDrain, cap := s.me.capture }
    (s.updMe fun h => { h with queue := h.queue ++ [e] }).advance
def execVf (i : BitVec 20) : State → Out := issueRun (.vf i) false i
def execVdrain (i : BitVec 20) : State → Out := issueRun (.vdrain i) true i

-- Predicate tags (spec/06 R124) -----------------------------------------------------------------------------------------------

/-- Cells other than 0x8000 become 0. -/
def quantise (cells : Nat) : Nat :=
  imageOf 16 ((upTo (cells.log2 / 16 + 1)).map fun i => if bitsAt cells (16 * i) 16 = 0x8000 then 0x8000 else 0)
def Hart.resolveTags (h : Hart) (us : List TagUse) : Hart :=
  let prob := probOf us fun r => (h.pred r).prob
  let ind := indOf us fun r => (h.pred r).ind
  allRegs.foldl (fun x r =>
    let p := h.pred r
    if writtenBy us r then
      let now := prob.contains r
      x.setPred r { cells := if p.prob && !now then quantise p.cells else p.cells, prob := now, ind := ind r }
    else if (assertedFor us r).isSome then x.setPred r { p with ind := ind r }
    else x) h

-- Runs --------------------------------------------------------------------------------------------------------------------------

/-- A run of n rows begins: the tags take effect. -/
def State.beginRun (s : State) (h : Nat) (e : QEntry) (n : Nat) (rest : List GEntry) : State :=
  let us := (closureInstrs e.words).filterMap tagUse
  let mark := (s.geyserOf h).length
  s.updHart h fun x =>
    let x := if n = 0 then x else x.resolveTags us
    let r : Run :=
      { issuePc := e.issuePc, target := e.target, n := n, words := e.words,
        rows := List.replicate n { pc := e.target, block := e.target },
        cap := e.cap, g0 := x.gctr, isDrain := e.isDrain, rest := rest, geyserMark := mark }
    { x with run := some r }
/-- A register's element at a strip width is set (spec/03 R70). -/
def Hart.setStripElem (h : Hart) (sw qw lanes : Nat) (r : Reg) (i v : Nat) : Hart :=
  if sw = 4 then h.setVimg r (withSlicedRow (h.vimg r) (slicedRows qw lanes) i v qw) else h.setElem r (8 * 2 ^ sw) i v
/-- An entry's carried values come back into row j. -/
def Hart.restoreEntry (h : Hart) (lanes j : Nat) (e : GEntry) : Hart :=
  ([(0, e.nd), (1, e.na), (2, e.nb), (3, e.nc)]).foldl (fun x f =>
    if bitOf e.mask f.1 then x.setStripElem e.width e.qw lanes (BitVec.ofNat 5 f.2) j (e.vals.getD f.1 0) else x) h
def restoreBatch (lanes : Nat) : Nat → List GEntry → Hart → Hart
  | _, [], h => h
  | j, e :: l, h => restoreBatch lanes (j + 1) l (h.restoreEntry lanes j e)
/-- The entries at the head with the first one's width. -/
def leading (l : List GEntry) : Nat :=
  match l with
  | [] => 0
  | e :: _ => (l.takeWhile fun x => x.width == e.width && x.qw == e.qw).length
/-- The rows of the next batch. -/
def batchRows (e : QEntry) (l : List GEntry) : Nat :=
  match l with
  | [] => 0
  | g :: _ =>
    let n := min (min e.cap.vlen (vlmax g.width g.qw e.cap.lanes)) (leading l)
    if rowMemoryIn e.words then min n (vlmax 3 0 e.cap.lanes) else n
/-- One batch of a vdrain begins (spec/03 R70). -/
def State.beginBatch (s : State) (h : Nat) (e : QEntry) (l : List GEntry) : State :=
  let n := batchRows e l
  (s.updHart h (restoreBatch e.cap.lanes 0 (l.take n))).beginRun h e n (l.drop n)
/-- The entry is complete (spec/18 R365 slot 1). -/
def State.endEntry (s : State) (h : Nat) (words : Tab Nat) : State :=
  (((if rowMemoryIn words then s.freeHead h else s).updHart h fun x => { x with run := none, wait := .none }).bumpHart h 1 1)

/-- A trap of the entry at the head of the queue, at its vf or vdrain; the entries behind it have no effect (spec/11
R219). -/
def entryTrap (e : QEntry) (cause : Nat) (value : Word) : Op Unit := fun s =>
  if s.copying s.cur then .error (s.waitFor s.cur .copies)
  else
    let s := (s.freeQueueEntry s.cur).updMe fun h => { h with queue := [], pc := BitVec.ofNat 64 e.issuePc }
    .error (s.takeTrap s.cur { cause := cause, value := value, tpc := BitVec.ofNat 64 e.issuePc })
/-- VECTOR_QUEUE_ENTRY_START: the entry at the head of the hart's queue starts: tags, then the row-length test, then its
rows (spec/03 R56, R70, spec/06 R124, R125). -/
def startEntry : Op Unit := do
  match ← ask fun s => s.me.queue with
  | [] => pure ()
  | e :: _ =>
    let us := (closureInstrs e.words).filterMap tagUse
    let mine ← ask fun s => (s.geyserOf s.cur).filter fun g => g.target == e.target % 2 ^ 57
    let idle := e.isDrain && (e.cap.vlen == 0 || mine.isEmpty)
    let pop : Op Unit := upd fun s => s.updMe fun h => { h with queue := h.queue.drop 1, wait := .none }
    if idle then do
      pop
      upd fun s => s.endEntry s.cur e.words
    else do
      if e.isDrain && e.cap.lanes == 0 then entryTrap e 0x11 (BitVec.ofNat 64 e.cap.vlen)
      match ← ask fun s => tagFailure us fun r => (s.me.pred r).prob with
      | some r => entryTrap e 0x10 (r.zeroExtend 64)
      | none => pure ()
      if !e.isDrain && rowMemoryIn e.words && decide (vlmax 3 0 e.cap.lanes < e.cap.vlen) then
        entryTrap e 0x11 (BitVec.ofNat 64 e.cap.vlen)
      pop
      if e.isDrain then upd fun s => s.beginBatch s.cur e mine
      else if e.cap.vlen = 0 then upd fun s => s.endEntry s.cur e.words
      else upd fun s => s.beginRun s.cur e e.cap.vlen []

-- The end of a run --------------------------------------------------------------------------------------------------------------

/-- K of spec/06 R139. -/
def Run.instances (r : Run) : Nat :=
  let l := collapses r.words
  r.rows.foldl (fun k x => l.foldl (fun k a => max k (x.count a)) k) 0
/-- The run's first n entries for its target leave the queue. -/
def dropFirst (hart target : Nat) : Nat → List GEntry → List GEntry
  | _, [] => []
  | 0, l => l
  | n + 1, e :: l => if e.hart == hart && e.target == target then dropFirst hart target n l else e :: dropFirst hart target (n + 1) l
/-- When every row has ended: gctr advances, the run's stores become entries like any other, a vdrain goes on with its
next batch. -/
def State.settleRun (s : State) (h : Nat) : State :=
  match (s.hart h).run with
  | none => s
  | some r =>
    if r.rows.any fun x => !x.ended then s
    else
      let m := (collapses r.words).length
      let s := s.updHart h fun x =>
        { x with gctr := r.g0 + BitVec.ofNat 64 (m * r.instances),
                 buffer := x.buffer.map fun e => { e with inst := none } }
      let s := if r.isDrain then
          s.updCore (coreOf h) fun c => { c with geyser := dropFirst (h % 4) (r.target % 2 ^ 57) r.n c.geyser }
        else s
      if r.rest.isEmpty then s.endEntry h r.words
      else s.beginBatch h { issuePc := r.issuePc, target := r.target, words := r.words, isDrain := true, cap := r.cap } r.rest

-- One word of one row --------------------------------------------------------------------------------------------------------------

/-- The block word at an address of the run. -/
def Run.wordAt (r : Run) (a : Nat) : Option Instr := (Tab.find r.words a).bind fun w => decodeBlock (BitVec.ofNat 64 w)
/-- The words that follow in the convoy, at most n. -/
def Run.followers (r : Run) : Nat → Nat → List Instr
  | 0, _ => []
  | n + 1, a => match r.wordAt a with
    | some i => if (blockInfo i).cv then i :: Run.followers r n (a + 8) else []
    | none => []
/-- At the first word of a convoy: the structural-conflict fault (spec/08 R166). -/
def convoyCheck (r : Run) (i : Instr) : Op Unit :=
  if (blockInfo i).cv then pure ()
  else match convoyConflict [] (i :: r.followers 7 (r.row.pc + 8)) 0 with
    | some n => rowFaultAt (r.row.pc + 8 * n) 0x13 0 (BitVec.ofNat 64 (r.row.pc - r.row.block))
    | none => pure ()
/-- The first word of a convoy that does not wait makes a lane pass (spec/18 R365 slot 2). -/
def State.lanePass (t : State) (h : Nat) (i : Instr) : State :=
  if (blockInfo i).cv || (t.hart h).wait != .none then t else t.bumpHart h 2 1
/-- The rows of a run that have not ended. -/
def Run.live (r : Run) : List Nat := (upTo r.rows.length).filter fun i => !(r.rows.getD i { pc := 0, block := 0, ended := true }).ended
/-- Those of them that wait for no engine: a lane that stalls never holds back another (spec/03 R58). -/
def Run.ready (r : Run) : List Nat :=
  r.live.filter fun i => match (r.rows.getD i { pc := 0, block := 0 }).amo with
    | .waiting _ => false
    | _ => true
/-- The row that moves: the one asked for, else the one that moved last, else the lowest that has not ended (log 4). A row that waits
for an atomic engine moves only where all others do. -/
def Run.choose (r : Run) (want : Option Nat) : Nat :=
  let i := want.getD r.cur
  if r.ready.contains i then i else r.ready.headD (r.live.headD 0)
/-- One word of the executing hart's run, by the row chosen (spec/03 R57); ex gives the words their meanings. -/
def stepRow (ex : Instr → State → Out) (want : Option Nat) : State → Out := fun s =>
  match s.me.run with
  | none => .next s
  | some r0 =>
    let r := { r0 with cur := r0.choose want }
    let s := s.updMe fun h => { h with run := some r, wait := .none }
    match r.wordAt r.row.pc with
    | none => .next (s.settleRun s.cur)
    | some i => match convoyCheck r i s with
      | .error t => .next t
      | .ok (_, s) => match ex i s with
        | .next t => .next ((t.lanePass s.cur i).settleRun s.cur)
        | o => o

end Sys2Proof.Machine
end

