-- ==== Sys2Proof/Machine/Slate.lean ====
section
/-!
DEFINITION. Journals: the Slate words (spec/19 R388 to R393), their acknowledgements and their held emission records
(spec/19 R386, R387, R391, R397).
-/
namespace Sys2Proof.Machine

-- Logs (spec/19 R384, R385) ------------------------------------------------------------------------------------------------

def Journal.size (j : Journal) : Nat := j.log.toNat % 32
def Journal.base (j : Journal) : Nat := bitsOf j.log.toNat 51 12 * 2 ^ 12
/-- The address of a log's slot. -/
def Journal.slot (j : Journal) (k : Nat) : Nat := j.base + 0x40 + 32 * (k % 2 ^ j.size)
def journalPort (j : Journal) : Nat := 1688 + j.port
/-- A read at the home by the device, which takes the newest bytes of the home's die. -/
def State.deviceRead (s : State) (pa n : Nat) : Nat × State :=
  (s.flushDrains.purgeDie none pa).1.readDevice pa n
/-- Fields of an entry of 32 bytes: seq, gctr, the reserved bits, rp. -/
def entrySeq (e : Nat) : Nat := bitsAt e 0 64
def entryGctr (e : Nat) : Nat := bitsAt e 64 64
def entryReserved (e : Nat) : Bool := bitsAt e (192 + 34) 13 != 0
def withRp (e b : Nat) : Nat := withBits e (192 + 47) 1 b

-- Contexts -------------------------------------------------------------------------------------------------------------------

/-- The context that jsel names, of the executing hart. -/
def State.jctx (s : State) : Nat := s.me.jsel.toNat
def jctx : Op Journal := ask fun s => s.journal s.jctx
def State.updJournal (s : State) (c : Nat) (f : Journal → Journal) : State := s.setJournal c (f (s.journal c))
/-- ctx_check (spec/19 R388). -/
def ctxCheck : Op Unit := do
  let j ← jctx
  let v ← ask fun s => s.me.jsel.zeroExtend 64
  if !j.en || j.state = 0 then trap 0x2C 0 v
  else if ← ask fun s => j.ten != s.me.tenant then trap 0x2C 1 v
/-- A record of the context's port (spec/19 R397). -/
def State.emitPort (s : State) (c code : Nat) (mask : BitVec 16) (h : Nat) (p0 p1 : Word) : State :=
  let j := s.journal c
  s.emitEngine (journalPort j) code (some j.ten.toNat) mask h p0 p1
/-- ack advances to a number, with its record. -/
def State.ackTo (s : State) (c : Nat) (n : Word) : State :=
  if n.toNat ≤ (s.journal c).ack.toNat then s
  else (s.updJournal c fun j => { j with ack := n }).emitPort c 0x0701 0xFFFF noHart n (BitVec.ofNat 64 c)

-- The words --------------------------------------------------------------------------------------------------------------------

/-- The entry a jput reads as one scalar load, with the comparison and the waits of one (spec/18 R373). It is made behind the check
of the context (log 82, DESIGN CHOICE). -/
def readEntry (ea : Word) (t : Trans) : Op Nat := do
  watch ea 32 true false
  awaitInterlock (spanOf ea 32) .empty
  awaitEmission t.pa 32
  peekLoad ea t 32
/-- Whether the context's entries go to its partner, in a move the old one (spec/19 R387). -/
def Journal.sends (j : Journal) : Bool :=
  j.en && j.peer.getLsbD 63 && (j.state == 1 || j.state == 2 || (j.state == 3 && j.before != 4))
/-- Whether they go to the new partner of a move (spec/19 R387, R395). -/
def Journal.sendsNew (j : Journal) : Bool := j.en && j.state == 3
/-- An item is queued for each partner that the context sends to. -/
def Journal.enqueue (j : Journal) (x : JItem) : Journal :=
  { j with queue := if j.sends then j.queue ++ [x] else j.queue,
           newQueue := if j.sendsNew then j.newQueue ++ [x] else j.newQueue }
/-- The frames of an item (spec/18 R365). -/
def Journal.frames (j : Journal) : Nat := (if j.sends then 1 else 0) + if j.sendsNew then 1 else 0
def State.sendFrames (s : State) (j : Journal) : State := if j.frames = 0 then s else s.bump (journalPort j) 0 j.frames
/-- An entry enters the log, whose header takes the sequence identifier and the count of entries (spec/19 R384; log 58). It
is queued for the partner, in a move for both (R395), or acknowledged when the context names none (R387). -/
def State.journalPut (s : State) (time e : Nat) : State :=
  let c := s.jctx
  let j := s.journal c
  let d := dieOf s.cur
  let s := (s.writeHome d (j.slot j.next.toNat) 32 e)
  let (w, s) := s.deviceRead (j.base + 8) 8
  let s := (s.writeHome d (j.base + 8) 8 (max w (j.next.toNat + 1))).writeHome d j.base 8 j.sid.toNat
  let s := s.updJournal c fun j => { j.enqueue (.entry j.next.toNat) with next := j.next + 1 }
  let s := (s.sendFrames j).emitHartAt s.cur time 0x0700 j.next (BitVec.ofNat 64 c)
  if j.peer.getLsbD 63 then s else s.ackTo c (j.next + 1)
def putEntry (time : State → Nat) (t : Trans) (e : Nat) : Op Unit := do
  awaitReel 0x0700
  upd fun s => (((s.innerLoad t 32).chargeMe 7 1).journalPut (time s) e).advance
/-- jput; time is the moment of its record, that of its issue (spec/18 R348). A log slot compared in replay is read as its bytes,
whatever its poison mark: R325 names no such read (log 83, DESIGN CHOICE). -/
def jputAt (time : State → Nat) (a : Reg) : State → Out := finish do
  let ea ← ask fun s => s.readX a
  if ea.toNat % 32 ≠ 0 then trap 0x09 0 ea
  let t ← scalarCheck ea 32 .row .load 0
  ctxCheck
  let e ← readEntry ea t
  let e := withRp e 0
  let seq := BitVec.ofNat 64 (entrySeq e)
  let j ← jctx
  if entryReserved e then trap 0x2D 4 seq
  else if seq ≠ j.next then trap 0x2D 0 seq
  else if j.trunc.toNat + 2 ^ j.size ≤ j.next.toNat then trap 0x2F 0 seq
  else if j.state = 2 && decide (j.next.toNat < j.stop.toNat) then do
    let old ← (fun s => .ok (s.deviceRead (j.slot j.next.toNat) 32) : Op Nat)
    if old ≠ e then trap 0x2E 0 seq else putEntry time t e
  else putEntry time t e
def execJput (a : Reg) : State → Out := jputAt (fun s => s.tstamp (dieOf s.cur)) a

def execJsync (a : Reg) : State → Out := finish do
  let v ← ask fun s => s.readX a
  ctxCheck
  let j ← jctx
  if j.next.toNat ≤ v.toNat then trap 0x2D 1 v
  else if v.toNat < j.ack.toNat then upd fun s => (s.chargeMe 7 1).advance
  else waitHere .jsync

/-- The wait of an emit: as a release, but not for the records of earlier emits (spec/19 R391). -/
def awaitEntries : Op Unit := do
  if ← ask fun s => s.myCore.interlocks.any fun e => e.hart == s.cur then waitHere .interlock
  upd fun s => s.releaseAll s.cur .sys
def State.holdRecord (s : State) (va : Word) (pa seq token : Nat) : State :=
  s.updJournal s.jctx fun j => { j with held := j.held ++ [⟨s.cur, seq, token, va.toNat, pa⟩] }
/-- The number of the latest entry, fixed before the waits of an emit. -/
def fixSeq (j : Journal) : Op Nat := do
  match ← ask fun s => s.me.emitSeq with
  | some q => pure q
  | none => do
    let q := (j.next - 1).toNat
    upd fun s => s.updMe fun h => { h with emitSeq := some q }
    pure q
def execEmit (a t : Reg) : State → Out := finish do
  let ea ← ask fun s => s.readX a
  if ea.toNat % 16 ≠ 0 then trap 0x09 0 ea
  let tr ← scalarCheck ea 16 .row .store 0
  ctxCheck
  let j ← jctx
  if j.next = 0 then trap 0x2D 2 0
  let q ← fixSeq j
  awaitEntries
  if 16 ≤ j.held.length then waitHere .emitRoom
  else upd fun s => ((s.chargeMe 7 1).holdRecord ea tr.pa q ((s.readX t).toNat % 2 ^ 32)).advance

/-- What is still to be copied to a new partner of entries that jtrunc has not discarded. -/
def JItem.from (v : Nat) : JItem → JItem
  | .copies lo hi => .copies (max lo v) hi
  | x => x
/-- The partner's trunc field is sent behind the entries queued before it (spec/19 R392), where the context's entries go to a
partner. -/
def State.journalTrunc (s : State) (v : Word) : State :=
  let c := s.jctx
  let j := s.journal c
  let s := s.updJournal c fun j =>
    let j := j.enqueue (.trunc v.toNat)
    { j with trunc := v, newAck := if j.newAck.toNat < v.toNat then v else j.newAck, newQueue := j.newQueue.map (JItem.from v.toNat) }
  let s := s.sendFrames j
  let s := s.writeHome (dieOf s.cur) ((s.journal c).base + 0x10) 8 v.toNat
  s.emitMe 0x0703 v (BitVec.ofNat 64 c)
def execJtrunc (a : Reg) : State → Out := finish do
  let v ← ask fun s => s.readX a
  ctxCheck
  let j ← jctx
  if v.toNat < j.trunc.toNat || j.ack.toNat < v.toNat then trap 0x2D 3 v
  else do
    awaitReel 0x0703
    upd fun s => ((s.chargeMe 7 1).journalTrunc v).advance

/-- The 32 bytes of an entry are written as ordinary scalar stores, taken as four of 8 bytes (spec/19 R393, spec/11 R240; log 82,
DESIGN CHOICE). -/
def State.writeEntry (s : State) (t : Trans) (e : Nat) : State :=
  (((upTo 4).foldl (fun s i => s.writeAt s.cur { t with pa := t.pa + 8 * i } 8 .row .none (bitsAt e (64 * i) 64)) s).chargeMe 1 4).bumpMe 4 4
/-- The next logged entry goes to the buffer (spec/19 R393). -/
def State.replayEntry (s : State) (t : Trans) (e : Nat) : State :=
  let c := s.jctx
  let s := (s.acquireAll s.cur .sys).writeEntry t (withRp e 1)
  let s := (s.updMe fun h => { h with gctr := BitVec.ofNat 64 (entryGctr e) }).updJournal c fun j => { j with rep := j.rep + 1 }
  s.emitMe 0x0704 (BitVec.ofNat 64 (entrySeq e)) (BitVec.ofNat 64 (entryGctr e))
/-- No entry is left: an empty entry with the next number, and replay ends. -/
def State.replayDone (s : State) (t : Trans) : State :=
  let c := s.jctx
  let j := s.journal c
  let s := s.writeEntry t j.next.toNat
  if j.state = 2 then (s.updJournal c fun j => { j with state := 1 }).emitMe 0x0705 j.next (BitVec.ofNat 64 c) else s
def execJreplay (a : Reg) : State → Out := finish do
  let ea ← ask fun s => s.readX a
  if ea.toNat % 32 ≠ 0 then trap 0x09 0 ea
  let t ← scalarCheck ea 32 .row .store 0
  ctxCheck
  watch ea 32 false true
  awaitInterlock .empty (spanOf ea 32)
  awaitEmission t.pa 32
  let j ← jctx
  if j.state = 2 then awaitReel (if j.rep.toNat < j.stop.toNat then 0x0704 else 0x0705)
  if j.state = 2 && decide (j.rep.toNat < j.stop.toNat) then do
    let e ← (fun s => .ok (s.deviceRead (j.slot j.rep.toNat) 32) : Op Nat)
    if ← ask fun s => s.readHomePoison (dieOf s.cur) (j.slot j.rep.toNat) 32 then consumePoison ea
    else upd fun s => ((s.chargeMe 7 1).replayEntry t e).advance
  else upd fun s => ((s.chargeMe 7 1).replayDone t).advance

-- What the ports do (spec/19 R386, R387, R391) ---------------------------------------------------------------------------------------

/-- MOVE_COMPLETE: the new partner holds every entry from trunc to next − 1; what it has not acknowledged stays queued for it. -/
def State.completeMove (s : State) (c : Nat) : State :=
  let j := s.journal c
  if j.state = 3 && decide (j.next.toNat ≤ j.newAck.toNat) then
    (s.updJournal c fun j => { j with state := 1, peer := j.toPeer, ring := j.toRing, queue := j.newQueue, newQueue := [] }).emitPort c 0x0707 0xFFFF noHart
      (BitVec.ofNat 64 c) (BitVec.ofNat 64 (j.toPeer.toNat % 2 ^ 16))
  else s
/-- The first entry queued for a partner, with what is queued behind it: the trunc fields sent before it have arrived. -/
def firstEntry : List JItem → Option (Nat × List JItem)
  | [] => none
  | .entry k :: l => some (k, l)
  | .copies lo hi :: l => if lo < hi then some (lo, .copies (lo + 1) hi :: l) else firstEntry l
  | .trunc _ :: l => firstEntry l
/-- JOURNAL_ACK: the next entry in order is acknowledged by the partner that it was queued for, the old one or the new one. -/
def State.journalAcked (s : State) (c : Nat) (byNew : Bool) : State :=
  let j := s.journal c
  if s.haltUp j.ten.toNat || (Tab.get {} s.eth j.port).link.fenced then s
  else if byNew then
    if j.sendsNew then match firstEntry j.newQueue with
      | none => s.completeMove c
      | some (n, rest) =>
        let a := if j.newAck.toNat ≤ n then BitVec.ofNat 64 (n + 1) else j.newAck
        ((s.updJournal c fun j => { j with newQueue := rest, newAck := a }).ackTo c a).completeMove c
    else s
  else if j.sends then match firstEntry j.queue with
    | none => s
    | some (n, rest) =>
      let s := s.updJournal c fun j => { j with queue := rest }
      if n ≤ j.ack.toNat then s.ackTo c (BitVec.ofNat 64 (n + 1)) else s
  else s
/-- EMISSION_RECORD_WRITE: the oldest held record, once its entry is acknowledged, as one release of a sector. -/
def State.writeEmission (s : State) (c : Nat) : State :=
  let j := s.journal c
  match j.held with
  | [] => s
  | r :: rest =>
    if j.ack.toNat ≤ r.seq || s.haltUp j.ten.toNat then s
    else
      let s := s.dropLines (clusterOf r.hart) (s.inGranule r.pa)
      let s := s.writeHome (sourceDie (journalPort j)) r.pa 16 (r.seq % 2 ^ 64 + (r.token % 2 ^ 32 + c % 256 * 2 ^ 32) * 2 ^ 64)
      let s := s.updJournal c fun j => { j with held := rest }
      s.emitPort c 0x0702 (s.hart r.hart).tmask r.hart (BitVec.ofNat 64 r.seq) (BitVec.ofNat 64 (r.token + c * 2 ^ 32))
/-- PARTNER_LOST: a live context's partner is unreachable, or its port is fenced; what waits for it stays in the log
(spec/19 R387). -/
def State.losePartner (s : State) (c : Nat) : State :=
  let j := s.journal c
  if j.state = 1 && (j.peer.getLsbD 63 || (Tab.get {} s.eth j.port).link.fenced) then
    (s.updJournal c fun j => { j with state := 4, queue := [] }).emitPort c 0x0706 0xFFFF noHart (BitVec.ofNat 64 c) 0
  else s
/-- NEW_PARTNER_UNREACHABLE: the move is given up. -/
def State.loseNewPartner (s : State) (c : Nat) : State :=
  let j := s.journal c
  if j.state = 3 then
    (s.updJournal c fun j => { j with state := j.before, newQueue := [] }).emitPort c 0x0706 0xFFFF noHart (BitVec.ofNat 64 c) 1
  else s

end Sys2Proof.Machine
end

