-- ==== Sys2Proof/Machine/TrapWords.lean ====
section
/-!
DEFINITION. The trap and context words: trap, tret, halt, wfe, vown, vsave, vrest (spec/11 R226 to R238).
-/
namespace Sys2Proof.Machine

def execTrap (a : Reg) : State → Out := finish do
  let v ← ask fun s => s.readX a
  fun s => takeHere { cause := 0x20, value := v, tpc := s.me.pc + 4 } s
/-- The waits of the load of a completion mask: the hart's copies into the record, its held emission records (spec/13 R265). -/
def awaitMask : Op Unit := do
  if ← ask fun s => s.me.tcause.getLsbD 61 then do
    awaitInterlock (spanOf (← ask fun s => s.me.tinfo + 0x80) 128) .empty
    let place ← (fun s =>
      let (r, s) := s.check s.cur s.me.tinfo 8 .row .load 0 true
      .ok (r, s) : Op (Except Bad Trans))
    match place with
    | .ok t => awaitEmission (t.pa + 0x80) 128
    | .error _ => pure ()
def execTret : State → Out := finish do
  needSupervisor .tret
  awaitReel 0x0101
  awaitMask
  upd fun s => s.returnFromTrap s.cur

-- halt (spec/11 R229, spec/15 R308) ----------------------------------------------------------------------------------------

/-- What a halt ends of the vector state its running context owns: the buffer, the Geyser entries, the lanes, the
array. -/
def State.endVector (s : State) (h : Nat) : State :=
  let s := s.dropGeyser h
  let s := s.releaseArray h
  (s.leaveLaneQueue h).updHart h fun x =>
    { x.zeroRegs with buffer := [], lanes := 0, za := 0, zb := 0, bypass := none, matrix := false }
/-- The gang of a hart that halts: its trial counts are kept, and a halt may complete a turn. -/
def State.leaveGang (s : State) (h : Nat) : State :=
  match (s.hart h).gang with
  | none => s
  | some g =>
    let s := s.updGang g fun x =>
      { x with haltedHarts := NSet.add x.haltedHarts h, ended := x.ended + 1, past := sumTrial x.past (s.hart h).trial }
    s.turnCheck g
def State.haltHart (s : State) : State :=
  let h := s.cur
  let x := s.me
  let s := s.emitMe 0x0201 x.pc x.ectr
  let s := if x.own == x.ctx then s.endVector h else s
  let s := s.updMe fun x => { x with halted := true, wait := .none }
  s.leaveGang h
/-- Every access of the gang's harts is ordered before its completion word (spec/15 R307): a halt is a package-scope
release. A halt waits for the copies of its hart (spec/13 R263). -/
def execHalt : State → Out := finish do
  awaitReel 0x0201
  if ← ask fun s => s.copying s.cur then waitHere .copies
  upd fun s => (s.releaseAll s.cur .pkg).haltHart

def execWfe : State → Out := finish do
  if ← ask fun s => s.me.latch then upd fun s => (s.updMe fun h => { h with latch := false }).advance
  else waitHere .wfe

-- Owners (spec/11 R231, R233) ------------------------------------------------------------------------------------------------

/-- own := ctx, with its record when own changes (spec/18 R347). -/
def State.takeOwner (s : State) : State :=
  let old := s.me.own
  let new := s.me.ctx
  let s := s.updMe fun h => { h with own := new }
  if old = new then s else s.emitMe 0x0102 (old.zeroExtend 64) (new.zeroExtend 64)
def execVown (d : Reg) : State → Out := finish do
  needSupervisor (.vown d)
  if ← ask fun s => s.me.own != s.me.ctx then awaitReel 0x0102
  upd fun s =>
    let old := s.me.own.zeroExtend 64
    ((s.discardVector s.cur).takeOwner).retire d old

-- The save area (spec/11 R236, R237) --------------------------------------------------------------------------------------------

/-- The n bytes of an image, lowest first. -/
def imageBytes (img n : Nat) : List Byte := (upTo n).map fun i => BitVec.ofNat 8 (img >>> (8 * i))
/-- The number whose bytes are a list. -/
def bytesImage (bs : List Byte) : Nat := leOf bs
def tyOfCode (c : Nat) : ETy :=
  match c with
  | 0 => .s8 | 1 => .z8 | 2 => .s16 | 3 => .z16 | 4 => .s32 | 5 => .z32 | 6 => .s64 | 7 => .z64
  | 8 => .f32 | 9 => .bf16 | 10 => .f16 | 11 => .e4m3 | 12 => .e5m2 | 13 => .q | _ => .pr
def codeOfTy (t : ETy) : Nat :=
  match t with
  | .s8 => 0 | .z8 => 1 | .s16 => 2 | .z16 => 3 | .s32 => 4 | .z32 => 5 | .s64 => 6 | .z64 => 7
  | .f32 => 8 | .bf16 => 9 | .f16 => 10 | .e4m3 => 11 | .e5m2 => 12 | .q => 13 | .pr => 14
/-- A value of a float format widened to FP32, exactly; NaNs become the canonical one (spec/04 R78, R79). -/
def widen (t : ETy) (b : Nat) : Nat := if t = .f32 then b else (roundVal .f32 false .rne (valueOf (tyFmtD t) b)).1
/-- The narrow encoding whose widening is given. -/
def narrow (t : ETy) (b : Nat) : Nat := if t = .f32 then b else (roundVal (tyFmtD t) false .rne (valueOf .f32 b)).1
/-- The bypass image at FP32, 1,024 values (i, k) at index 8i + k. -/
def bypassBytes (b : Option (ETy × Nat)) : List Byte :=
  match b with
  | none => bytesLE 4096 0
  | some (t, img) => (upTo 1024).flatMap fun e => bytesLE 4 (widen t (elemAt img (tyBits t) e))
def bypassImage (t : ETy) (bs : List Byte) : Nat :=
  imageOf (tyBits t) ((upTo 1024).map fun e => narrow t (leOf ((bs.drop (4 * e)).take 4)))

/-- The 48 bytes of a Geyser entry (spec/03 R68). -/
def geyserBytes (e : GEntry) : List Byte :=
  bytesLE 8 (e.mask % 16 * 2 ^ 60 + e.nd % 32 * 2 ^ 55 + e.na % 32 * 2 ^ 50 + e.nb % 32 * 2 ^ 45 + e.nc % 32 * 2 ^ 40
      + e.width % 8 * 2 ^ 37 + e.qw % 32 * 2 ^ 32 + e.hart % 4 * 2 ^ 13 + e.row % 2 ^ 13)
    ++ bytesLE 8 (e.target % 2 ^ 57)
    ++ ([0, 1, 2, 3].flatMap fun k => bytesLE 8 (e.vals.getD k 0))
def geyserOfBytes (h : Nat) (bs : List Byte) : GEntry :=
  let v := leOf bs
  { mask := bitsAt v 60 4, nd := bitsAt v 55 5, na := bitsAt v 50 5, nb := bitsAt v 45 5, nc := bitsAt v 40 5,
    width := bitsAt v 37 3, qw := bitsAt v 32 5, hart := h % 4, row := bitsAt v 0 13, target := bitsAt v 64 57,
    vals := [0, 1, 2, 3].map fun k => bitsAt v (128 + 64 * k) 64 }
/-- The 32 bytes of a strip slot (spec/11 R237): element e of buffer entry n. -/
def slotBytes (n : Nat) (e : BufElem) : List Byte :=
  bytesLE 8 ((if e.sliced then 2 ^ 56 else 0) + e.size.log2 % 4 * 2 ^ 52 + e.pa % 2 ^ 52) ++ bytesLE 8 e.val
    ++ bytesLE 8 (e.row % 2 ^ 13) ++ bytesLE 8 (n % 16)
def slotElem (bs : List Byte) : BufElem :=
  let v := leOf bs
  { va := 0, pa := bitsAt v 0 52, size := 2 ^ bitsAt v 52 2, row := bitsAt v 128 13, val := bitsAt v 64 64,
    sliced := bitOf v 56, known := false }
def slotEntry (bs : List Byte) : Nat := bitsAt (leOf bs) 192 4
/-- Reserved bits of a slot (spec/11 R235), or an entry beyond those the header counts (log 71, DESIGN CHOICE). -/
def slotBad (entries : Nat) (bs : List Byte) : Bool :=
  let v := leOf bs
  bitsAt v 54 2 != 0 || bitsAt v 57 7 != 0 || bitsAt v 141 51 != 0 || bitsAt v 196 60 != 0 || decide (entries ≤ slotEntry bs)
def slotsOf (b : List BufEntry) : List (Nat × BufElem) := b.zipIdx.flatMap fun e => e.1.elems.map fun x => (e.2, x)

/-- The 96 bytes of the header. -/
def headerBytes (h : Hart) (queued : Nat) : List Byte :=
  let armed := match h.bypass with
    | none => 0
    | some (t, _) => 1 + codeOfTy t * 16
  bytesLE 8 ((if h.matrix then 2 ^ 24 else 0) + h.lanes % 2 ^ 8 * 2 ^ 16 + h.own.toNat)
    ++ bytesLE 8 h.vlen ++ bytesLE 8 h.mvlen ++ bytesLE 8 (h.swq % 32 * 8 + h.sw % 8) ++ bytesLE 8 h.stripBase.toNat
    ++ bytesLE 8 ((slotsOf h.buffer).length % 2 ^ 32 * 2 ^ 32 + h.buffer.length % 32 * 2 ^ 16 + queued % 2 ^ 13)
    ++ bytesLE 8 armed ++ bytesLE 8 h.pend.toNat
    ++ ((upTo 32).map fun r =>
      let p := Tab.get {} h.p r
      BitVec.ofNat 8 ((if p.ind then 2 else 0) + if p.prob then 1 else 0))
/-- Every part of the area that vsave writes: its offset and its bytes, in rising order. -/
def saveParts (h : Hart) (g : List GEntry) : List (Nat × List Byte) :=
  let big := fun (n : Nat) => if h.matrix then n else 0
  [(0, headerBytes h g.length)]
    ++ ((upTo 32).map fun r => (0x1000 + 0x2000 * r, imageBytes (Tab.get 0 h.v r) (256 * h.lanes)))
    ++ ((upTo 32).map fun r => (0x41000 + 0x4000 * r, imageBytes (Tab.get {} h.p r).cells (512 * h.lanes)))
    ++ ((upTo 8).map fun k => (0xC1000 + 0x800 * k, imageBytes (Tab.get 0 h.k k) 0x800))
    ++ [(0xC5000, g.flatMap geyserBytes), (0xF5000, imageBytes h.za (big 0x10000)),
        (0x105000, imageBytes h.zb (big 0x10000)), (0x115000, (bypassBytes h.bypass).take (big 0x1000)),
        (0x116000, (slotsOf h.buffer).flatMap fun e => slotBytes e.1 e.2)]
/-- The extents of the parts, of a header's counts. -/
def savedExtents (m : Bool) (lanes queued slots : Nat) : List (Nat × Nat) :=
  let big := fun (n : Nat) => if m then n else 0
  ((upTo 32).map fun r => (0x1000 + 0x2000 * r, 256 * lanes))
    ++ ((upTo 32).map fun r => (0x41000 + 0x4000 * r, 512 * lanes))
    ++ ((upTo 8).map fun k => (0xC1000 + 0x800 * k, 0x800))
    ++ [(0xC5000, 48 * queued), (0xF5000, big 0x10000), (0x105000, big 0x10000), (0x115000, big 0x1000),
        (0x116000, 32 * slots)]

/-- Checks a span page by page: the translated pieces, or the trap at the lowest faulting address. -/
def checkSpan (kind : AccKind) (va : Word) (n : Nat) : Nat → Op (List (Trans × Nat))
  | 0 => pure []
  | fuel + 1 =>
    if n = 0 then pure []
    else do
      let t ← scalarCheck va 1 .row kind 0
      let len := min n (65536 - va.toNat % 65536)
      let rest ← checkSpan kind (va + BitVec.ofNat 64 len) (n - len) fuel
      pure ((t, len) :: rest)
/-- Checks and waits for every extent of an area, in rising order. -/
def checkExtents (kind : AccKind) (a : Word) : List (Nat × Nat) → Op (List (List (Trans × Nat)))
  | [] => pure []
  | (off, n) :: rest => do
    let l ← checkSpan kind (a + BitVec.ofNat 64 off) n (n / 65536 + 2)
    let more ← checkExtents kind a rest
    pure (l :: more)
def awaitExtents (store : Bool) (a : Word) (places : List (List (Trans × Nat))) : List (Nat × Nat) → Op Unit
  | [] => do
    if ← ask fun s => places.any fun l => l.any fun p => s.emissionMeets s.cur p.1.pa p.2 then waitHere .emitted
  | (off, n) :: rest => do
    let r := spanOf (a + BitVec.ofNat 64 off) n
    if store then awaitInterlock .empty r else awaitInterlock r .empty
    awaitExtents store a places rest
/-- Stores bytes over translated pieces. -/
def State.storePieces (s : State) (h : Nat) : List (Trans × Nat) → List Byte → State
  | [], _ => s
  | (t, n) :: rest, bs =>
    (s.storeLines h (leafO t.leaf) t.pa (bs.take n) (n / 64 + 2)).storePieces h rest (bs.drop n)
/-- Loads the bytes of translated pieces, line by line, with the offset of the first line that met poison. -/
def State.loadLines (s : State) (h : Nat) (t : Trans) (off n : Nat) : Nat → List Byte × Option Nat × State
  | 0 => ([], none, s)
  | fuel + 1 =>
    if n = 0 then ([], none, s)
    else
      let len := min n (64 - t.pa % 64)
      let (v, bad, s) := s.readAt h t len .row .none false
      let (bs, bad', s) := s.loadLines h { t with pa := t.pa + len } (off + len) (n - len) fuel
      (bytesLE len v ++ bs, if bad then some off else bad', s)
def State.loadPieces (s : State) (h off : Nat) : List (Trans × Nat) → List Byte × Option Nat × State
  | [] => ([], none, s)
  | (t, n) :: rest =>
    let (bs, bad, s) := s.loadLines h t off n (n / 64 + 2)
    let (cs, bad', s) := s.loadPieces h (off + n) rest
    (bs ++ cs, bad <|> bad', s)
/-- Loads the extents of an area, each with its pieces; poison ends the word at the first access that met it (spec/16
R325). -/
def loadExtents (va : Word) : List (Nat × List (Trans × Nat)) → Op (List (List Byte))
  | [] => pure []
  | (off, l) :: rest => do
    let (bs, bad) ← (fun s =>
      let (bs, bad, s) := s.loadPieces s.cur off l
      .ok ((bs, bad), s) : Op (List Byte × Option Nat))
    match bad with
    | some k => consumePoison (va + BitVec.ofNat 64 k)
    | none => do
      let more ← loadExtents va rest
      pure (bs :: more)
def roundUp64 (n : Nat) : Nat := (n + 63) / 64

def needAligned (a : Word) (n : Nat) : Op Unit := if a.toNat % n = 0 then pure () else trap 0x09 0 a

/-- vsave (spec/11 R234). -/
def execVsave (a : Reg) : State → Out := finish do
  needSupervisor (.vsave a)
  let va ← ask fun s => s.readX a
  needAligned va 4096
  let parts ← ask fun s => saveParts s.me (s.geyserOf s.cur)
  let ext := parts.map fun p => (p.1, p.2.length)
  let places ← checkExtents .store va ext
  awaitExtents true va places ext
  let bytes := (ext.map (·.2)).sum
  upd fun s =>
    let s := (places.zip (parts.map (·.2))).foldl (fun s p => s.storePieces s.cur p.1 p.2) s
    ((s.chargeMe 3 (roundUp64 bytes)).updMe fun h => { h with pend := 0 }).advance

-- vrest (spec/11 R235) --------------------------------------------------------------------------------------------------------------

/-- The header as vrest reads it. The pseudocode of R235 tests h.entries against the Geyser queue: the model reads it as the
count of saved Geyser entries (queued), although the field named entries counts buffer entries (log 41, DEDUCED). -/
structure Saved where
  m : Bool
  lanes : Nat
  vlen : Nat
  mvlen : Nat
  sw : Nat
  swq : Nat
  strip : Word
  slots : Nat
  entries : Nat
  queued : Nat
  bypass : Option ETy
  tags : List Nat
  deriving DecidableEq, Repr
def savedOf (bs : List Byte) : Saved :=
  let w := headWord bs
  { m := bitOf (w 0) 24, lanes := savedLanes bs, vlen := w 1, mvlen := w 2, sw := bitsOf (w 3) 2 0,
    swq := bitsOf (w 3) 7 3, strip := BitVec.ofNat 64 (w 4), slots := bitsOf (w 5) 63 32, entries := bitsOf (w 5) 20 16,
    queued := bitsOf (w 5) 12 0, bypass := if bitOf (w 6) 0 then some (tyOfCode (bitsOf (w 6) 7 4)) else none,
    tags := (upTo 32).map fun r => ((bs.drop (0x40 + r)).headD 0).toNat }
/-- The offset of the first invalid field of the header: of several the one at the lowest offset (log 68, DESIGN CHOICE). An
armed bypass may have any type code (log 71, DESIGN CHOICE). -/
def savedBad (bs : List Byte) : Option Nat :=
  let w := headWord bs
  let h := savedOf bs
  if bitsOf (w 0) 63 25 != 0 || h.lanes % 4 != 0 || decide (32 < h.lanes) then some 0
  else if decide (vlmax h.sw (max 1 h.swq) h.lanes < h.vlen) && decide (h.sw ≤ 4) then some 8
  else if 128 < h.mvlen then some 0x10
  else if bitsOf (w 3) 63 8 != 0 || decide (4 < h.sw) || (h.sw == 4 && (h.swq == 0 || decide (16 < h.swq))) then some 0x18
  else if bitsOf (w 5) 31 21 != 0 || bitsOf (w 5) 15 13 != 0 || decide (16 < h.entries) || decide (4096 < h.queued)
      || decide (131072 < h.slots) then some 0x28
  else if bitsOf (w 6) 63 8 != 0 || bitsOf (w 6) 3 1 != 0 then some 0x30
  else if bitsOf (w 7) 62 48 != 0 then some 0x38
  else ((upTo 32).find? fun r => decide (4 ≤ h.tags.getD r 0)).map (0x40 + ·)
/-- Waits until the hart holds exactly n lanes (spec/08 R169, R171). -/
def awaitLanes (n : Nat) : Op Unit := do
  let h ← ask State.cur
  let held ← ask fun s => s.me.lanes
  let first ← ask fun s => s.firstForLanes h
  let free ← ask fun s => s.freeLanes (coreOf h)
  if n ≤ held || (first && decide (n ≤ held + free)) then upd fun s => (s.setLanes h n).leaveLaneQueue h
  else do
    upd fun s => s.joinLaneQueue h
    waitHere .lanes
/-- Entries of the buffer from its slots, in append order; the bytes an entry holds are those of its elements
(log 71, DESIGN CHOICE). -/
def restoreBuffer (entries : Nat) (slots : List (List Byte)) : List BufEntry :=
  (upTo entries).map fun n =>
    let es := (slots.filter fun b => slotEntry b == n).map slotElem
    { bytes := (es.map (·.size)).sum, elems := es }
/-- Cuts a list of bytes into pieces. -/
def chunks (n : Nat) : Nat → List Byte → List (List Byte)
  | 0, _ => []
  | k + 1, bs => bs.take n :: chunks n k (bs.drop n)
/-- The cells of a predicate register as a write leaves them (spec/06 R122): none above 0x8000, and in the bit class 0 or
0x8000 (log 55). -/
def restoredPred (tag img n : Nat) : Pred :=
  let prob := bitOf tag 0
  let cell := fun (i : Nat) => min (bitsAt img (16 * i) 16) 0x8000
  { cells := imageOf 16 ((upTo n).map fun i => if prob || cell i == 0x8000 then cell i else 0), prob := prob, ind := bitOf tag 1 }
/-- The state a vrest loads, of the saved parts in the order of savedExtents. -/
def State.restore (s : State) (h : Saved) (parts : List (List Byte)) : State :=
  let part := fun i => parts.getD i []
  let c := s.cur
  let queued := (chunks 48 h.queued (part 72)).map (geyserOfBytes c)
  let s := s.updCore (coreOf c) fun x => { x with geyser := x.geyser ++ queued }
  s.updMe fun x =>
    { x with
      v := (upTo 32).map fun r => (r, bytesImage (part r))
      p := (upTo 32).map fun r =>
        (r, restoredPred (h.tags.getD r 0) (bytesImage (part (32 + r))) (256 * h.lanes))
      k := (upTo 8).map fun i => (i, bytesImage (part (64 + i)))
      vlen := h.vlen, mvlen := h.mvlen, sw := h.sw, swq := h.swq, stripBase := h.strip
      buffer := restoreBuffer h.entries (chunks 32 h.slots (part 76))
      matrix := h.m
      za := if h.m then bytesImage (part 73) else x.za
      zb := if h.m then bytesImage (part 74) else x.zb
      bypass := if h.m then h.bypass.map fun t => (t, bypassImage t (part 75)) else x.bypass
      pend := 0 }
/-- The parts that a header names, of an invalid one those of its fields at their limits. -/
def Saved.extents (h : Saved) : List (Nat × Nat) :=
  savedExtents h.m (min h.lanes 32) (min h.queued 4096) (min h.slots 131072)
/-- Everything a vrest checks and reads, before anything changes: the header and the parts. Every byte to be read is checked
before a field is tested; which bytes those are beyond the header depends on it, and a count that exceeds its limit stands for
the limit (log 68, DESIGN CHOICE). -/
def vrestLoad (va : Word) : Op (List Byte × List (List Byte)) := do
  needAligned va 4096
  let t ← checkSpan .load va 0x60 2
  awaitExtents false va [t] [(0, 0x60)]
  let head := (← loadExtents va [(0, t)]).headD []
  let h := savedOf head
  let ext := h.extents
  let places ← checkExtents .load va ext
  match savedBad head with
  | some off => trap 0x19 0 (BitVec.ofNat 64 off)
  | none => do
    awaitExtents false va (t :: places) ((0, 0x60) :: ext)
    let parts ← loadExtents va ((ext.map (·.1)).zip places)
    match (chunks 32 h.slots (parts.getD 76 [])).findIdx? (slotBad h.entries) with
    | some i => trap 0x19 0 (BitVec.ofNat 64 (0x116000 + 32 * i))
    | none =>
      if ← ask fun s => decide (4096 < (s.myCore.geyser.filter fun e => e.hart != s.cur % 4).length + h.queued) then
        trap 0x12 0 (BitVec.ofNat 64 h.queued)
      else pure (head, parts)
/-- The records that a vrest emits find room (spec/18 R356): a change of the lane set, a change of the owner. -/
def vrestRoom (h : Saved) : Op Unit := do
  awaitReels (← ask fun s => (if s.me.lanes != h.lanes then [0x0103] else []) ++ if s.me.own != s.me.ctx then [0x0102] else [])
/-- The lanes and the array of a vrest, then the saved state (spec/11 R235). -/
def vrestTake (h : Saved) (parts : List (List Byte)) : Op Unit := do
  awaitLanes h.lanes
  if h.m then acquireArray else upd fun s => s.releaseArray s.cur
  upd fun s =>
    let s := s.discardVector s.cur
    let s := if h.m then s.updCore (coreOf s.cur) fun c => { c with arrayHolder := some s.cur } else s
    let s := s.restore h parts
    let bytes := 0x60 + (h.extents.map (·.2)).sum
    ((s.takeOwner).chargeMe 3 (roundUp64 bytes)).advance
/-- A vrest goes on with what it has read and checked. -/
def vrestResume : State → Out := finish do
  match ← ask fun s => s.me.rest with
  | some r => vrestTake (savedOf r.1) r.2
  | none => pure ()
/-- vrest: what it has read and checked is kept while it waits for lanes or the array, so that it traps only before it changes
anything, and it goes on from there without being fetched again. -/
def execVrest (a : Reg) : State → Out := finish do
  needSupervisor (.vrest a)
  match ← ask fun s => s.me.rest with
  | some r => vrestTake (savedOf r.1) r.2
  | none => do
    let r ← vrestLoad (← ask fun s => s.readX a)
    vrestRoom (savedOf r.1)
    upd fun s => s.updMe fun h => { h with rest := some r }
    vrestTake (savedOf r.1) r.2

end Sys2Proof.Machine
end

