-- ==== Sys2Proof/Machine/VectorIssue.lean ====
section
/-!
DEFINITION. Length, type and single values: setvl, setvtype, vmvx, vbcast (spec/08 R167 to R171, R185, R186).
-/
namespace Sys2Proof.Machine

def wcode : WCode → Nat
  | .w8 => 0
  | .w16 => 1
  | .w32 => 2
  | .w64 => 3
  | .sliced => 4
/-- strip_boundary (spec/08 R169): the lanes, or a wait for four of them. -/
def stripBoundary (req wc : Nat) : Op Unit := do
  if req ≠ 0 ∧ (← ask fun s => s.me.buffer.isEmpty) then
    match ← ask fun s => s.boundaryLanes s.cur req wc (vtQw s.me.vtype) with
    | some n => do
      if ← ask fun s => s.me.lanes != n then awaitReel 0x0103
      upd fun s => (s.leaveLaneQueue s.cur).setLanes s.cur n
    | none => do
      upd fun s => s.joinLaneQueue s.cur
      waitHere .lanes
/-- setvl (spec/08 R167). -/
def execSetvl (keep : Bool) (w : WCode) (d a : Reg) : State → Out := finish do
  needOwner
  needVectorMode (.setvl keep w d a)
  let req ← ask fun s => (s.readX a).toNat
  let wc := wcode w
  if !keep then stripBoundary req wc
  upd fun s =>
    let qw := vtQw s.me.vtype
    let n := min req (vlmax wc qw s.me.lanes)
    (s.updMe fun h => { h with vlen := n, sw := wc, swq := if wc = 4 then qw else 0 }).retire d (BitVec.ofNat 64 n)
/-- Values that setvtype refuses (spec/08 R168). -/
def vtypeBad (v : Nat) : Bool :=
  bitsOf v 63 14 != 0 || bitsOf v 7 6 != 0 || bitsOf v 4 0 == 0 || decide (16 < bitsOf v 4 0) || decide (16 < bitsOf v 12 8)
def execSetvtype (a : Reg) : State → Out := finish do
  needVectorMode (.setvtype a)
  let v ← ask fun s => s.readX a
  if vtypeBad v.toNat then trap 0x15 0 v
  upd fun s => (s.updMe fun h => { h with vtype := v }).advance

/-- vmvx (spec/08 R185): a row at or above the length or the capacity reads 0 (R174). -/
def execVmvx (t : ETy) (d a c : Reg) : State → Out := finish do
  needOwner
  upd fun s =>
    let h := s.me
    let i := (s.readX c).toNat
    let v := if i < h.rows ∧ i < capOf t h.vtype h.lanes then h.elem a (tyBits t) i else 0
    let x := if tySigned t then BitVec.ofInt 64 (sextN v (tyBits t)) else BitVec.ofNat 64 v
    ((s.chargeMe 4 1).bumpMe 1 1).retire d x
/-- An image with rows 0 to n − 1 of w bits set to v. -/
def fillRows (w v : Nat) (img : Nat) : Nat → Nat
  | 0 => img
  | n + 1 => withElem (fillRows w v img n) w n v
/-- vbcast (spec/08 R186): rows below the length and the capacity. -/
def execVbcast (t : ETy) (d a : Reg) : State → Out := finish do
  needOwner
  upd fun s =>
    let h := s.me
    let n := min h.rows (capOf t h.vtype h.lanes)
    let v := (s.readX a).toNat
    let s := s.updMe fun x => x.setVimg d (fillRows (tyBits t) v (x.vimg d) n)
    ((s.chargeMe 4 n).bumpMe 1 1).advance

end Sys2Proof.Machine
end

