-- ==== Sys2Proof/Machine/EvHart.lean ====
section
/-!
DEFINITION. Events of the harts and cores: queue entries, lanes, the array, asynchronous requests (spec/11 R220), the
event latch (spec/11 R230), the writes of control registers with a rule of their own, and energy (spec/11 R241). An
event that is not enabled leaves the state as it is (log 21).
-/
namespace Sys2Proof.Machine

-- Acting for a hart ------------------------------------------------------------------------------------------------------------

/-- Runs an operation of a hart. -/
def State.asHart (s : State) (h : Nat) (m : Op Unit) : State :=
  let t := match m { s with cur := h } with
    | .ok (_, t) => t
    | .error t => t
  { t with cur := s.cur }
/-- A word of a hart by its meaning. -/
def asHartOut (h : Nat) (f : State → Out) : State → Out := fun s =>
  match f { s with cur := h } with
  | .next t => .next { t with cur := s.cur }
  | o => o
/-- A hart that issues words: started, not halted, its core not fenced, its tenant's halt line down. -/
def State.runs (s : State) (h : Nat) : Bool :=
  let x := s.hart h
  x.started && !x.halted && !(s.core (coreOf h)).fenced && !s.haltUp x.tenant.toNat
/-- No queue entry is left: what a waits access and a boundary call for. -/
def Hart.drained (x : Hart) : Bool := x.run.isNone && x.queue.isEmpty
/-- The control word at a hart's pc. -/
def State.wordAt (s : State) (h : Nat) : Option Instr × State :=
  match s.fetchWord h (s.hart h).pc with
  | (.word w, s) => (decodeControl (BitVec.ofNat 32 w), s)
  | (_, s) => (none, s)
-- The issue of a word ------------------------------------------------------------------------------------------------------------

/-- A word issues (spec/18 R365 slot 0, R368, R377): s is the state before it, t after it. A selectable counter is
credited under the selection before the word. A halt counts among its gang's halted harts. -/
def State.countIssue (s t : State) (h : Nat) : State :=
  let core := coreOf h
  let js := [0, 1, 2, 3].filter fun j =>
    let v := Tab.get 0 (s.core core).csel j
    selects v s h && v.toNat % 64 == 0
  let u := js.foldl (fun u j => u.count (131072 + 4 * core + j) 1) (t.bump h 0 1)
  match ((s.hart h).gang.bind s.gangOf).bind (·.trial), ((s.hart h).gang.bind t.gangOf).bind (·.trial) with
  | some r, some _ =>
    let pc := (s.hart h).pc.toNat
    if r.lo ≤ pc ∧ pc < r.hi then u
    else
      let a := (u.hart h).trial.acc + r.k
      if (u.hart h).halted then
        u.updGang ((s.hart h).gang.getD 0) fun g => { g with past := sumTrial g.past { words := 1, delay := a / 256 } }
      else u.updHart h fun x =>
        { x with trial := { x.trial with acc := a % 256, words := x.trial.words + 1, delay := x.trial.delay + a / 256 },
                 holdUntil := u.now + 1 + a / 256 }
  | _, _ => u
/-- A counter that cnval wrote keeps what was written, and an event of the same cycle on it is lost (spec/18 R368). t is the state
before the event, u after it. -/
def State.loseEvent (t u : State) (c : Nat) : State :=
  if Tab.get 0 u.counters c = Tab.get 0 t.counters c then u
  else { u with counters := Tab.put u.counters c (Tab.get 0 t.counters c), cnloss := min (u.cnloss + 1) (2 ^ 32 - 1) }
def writesCnval : Instr → Bool
  | .cset _ c | .cswap _ _ c => cregOf c == some .cnval
  | _ => false
/-- Whether hart h trapped or halted its context between two states. -/
def trappedIn (s t : State) (h : Nat) : Bool :=
  Tab.get 0 t.counters (64 * h + 9) != Tab.get 0 s.counters (64 * h + 9)
    || (t.haltUp (s.hart h).tenant.toNat && !s.haltUp (s.hart h).tenant.toNat)
/-- Whether a record of hart h found no room between two states: it waits in its die's reserve (spec/18 R356). -/
def State.reelShort (s t : State) (h : Nat) : Bool := !s.olderWaits h && t.olderWaits h
/-- One control word of the executing hart. The class 0 charge comes first (spec/11 R239, R240); a word that waits has not
issued, and executes without it; one that traps or halts its context counts nothing (spec/11 R219). A word one of whose records
finds no room is held before it has any effect, and executes afresh (spec/18 R356). -/
def issueWord (cn : Bool) (ex : State → Out) : State → Out := fun s0 =>
  let h := s0.cur
  let s := s0.updMe fun x => { x with issued := true, issuedAt := if x.issued then x.issuedAt else s0.now }
  match ex (s.chargeMe 0 1) with
  | .next t =>
    if (t.hart h).wait ≠ .none then ex s
    else if trappedIn s t h then .next t
    else if s.reelShort t h then .next (s.waitFor h .reel)
    else
      let u := s.countIssue (t.endWordStall h) h
      .next (if cn then t.loseEvent u (t.hart h).cnsel.toNat else u)
  | o => o

/-- The word a hart waits in executes again, if f gives it. -/
def waitedWord (h : Nat) (w : Wait) (f : Instr → Option (State → Out)) : State → Out := fun s =>
  if s.runs h && (s.hart h).drained && (s.hart h).wait == w then
    match s.wordAt h with
    | (some i, s) => match f i with
      | some m => asHartOut h (issueWord false m) s
      | none => .next s
    | (none, s) => .next s
  else .next s

-- The vector queue, lanes and the array (spec/08 R164, R169, R170, spec/10 R199) ---------------------------------------------

/-- Whether a vf or a vdrain stands at the head of the queue; a word that waits there starts in its hart's turn (log 3). -/
def Hart.runNext (x : Hart) : Bool := x.queue.head?.any fun e => e.word.isNone
def execVectorQueueEntryStart (h : Nat) : State → Out := fun s =>
  if s.runs h && (s.hart h).run.isNone && (s.hart h).runNext then .next (s.asHart h startEntry) else .next s
/-- A vrest that waits goes on; any other word as f says. -/
def waitedVrest (h : Nat) (w : Wait) (f : Instr → Option (State → Out)) : State → Out := fun s =>
  if (s.hart h).rest.isSome then
    if s.runs h && (s.hart h).wait == w then asHartOut h (issueWord false vrestResume) s else .next s
  else waitedWord h w f s
def execLaneGrant (h : Nat) : State → Out := waitedVrest h .lanes fun i =>
  match i with
  | .setvl keep w d a => some (execSetvl keep w d a)
  | _ => none
/-- LANE_CHANGE (spec/08 R170): the lane set of a setvl at a strip boundary changes, before its length is set, once its
record finds room (spec/18 R356). -/
def State.laneChange (s : State) (h : Nat) (w : WCode) (a : Reg) : State :=
  let x := s.hart h
  let req := (x.readX a).toNat
  if x.own != x.ctx || x.matrix || req = 0 || !x.buffer.isEmpty then s
  else match s.boundaryLanes h req (wcode w) (vtQw x.vtype) with
    | some n => if x.lanes != n && !s.reelRoom h 0x0103 then s else (s.leaveLaneQueue h).setLanes h n
    | none => s
def execLaneChange (h : Nat) : State → Out := fun s =>
  let x := s.hart h
  if s.runs h && x.drained && (x.wait == .none || x.wait == .lanes) then
    match s.wordAt h with
    | (some (.setvl false w _ a), s) => .next (s.laneChange h w a)
    | (_, s) => .next s
  else .next s
def execArrayGrant (h : Nat) : State → Out := waitedVrest h .array fun i =>
  match i with
  | .menter a => some (execMenter a)
  | _ => none

-- Asynchronous requests (spec/11 R220, spec/16 R336) ---------------------------------------------------------------------------

/-- A hart in the middle of a word: a vrest that has read its area, an atomic whose request is at its engine. It is at no
boundary. -/
def Hart.midWord (x : Hart) : Bool := x.rest.isSome || x.amo.isSome
/-- A word at the head of the queue is held before its record: its hart is held at the boundary before it (spec/18 R356). -/
def Hart.headHeld (x : Hart) : Bool := x.run.isNone && x.wait == .reel && x.queue.head?.any fun e => e.word.isSome
/-- A control-word boundary: the queue is empty, or its first word is held by Reel; no copy of the hart is in flight (spec/13
R263); and the hart is ready, held by Reel (spec/18 R356), or waits in a word whose wait a request ends. -/
def State.atBoundary (s : State) (h : Nat) : Bool :=
  let x := s.hart h
  s.runs h && !x.midWord && !s.copying h && (x.headHeld || (x.drained && match x.wait with
    | .none | .reel | .held | .wfe | .gbar | .abar | .gwait | .jsync => true
    | _ => false))
/-- The pc of the word that a hart executes next: that of its queue's head, where words stand there. A run in progress has left the
queue and has no word of its own here: the stop record of its hart names the word after it, also where a row met poison (log 31,
DESIGN CHOICE). -/
def Hart.nextPc (x : Hart) : Word :=
  match x.queue with
  | [] => x.pc
  | e :: _ => BitVec.ofNat 64 e.issuePc
/-- The words of the queue, which have had no effect, are given back: the hart stands before the first of them. -/
def State.giveBack (s : State) (h : Nat) : State :=
  if (s.hart h).queue.isEmpty then s else (s.freeQueueEntry h).updHart h fun x => { x with pc := x.nextPc, queue := [] }
/-- Takes an asynchronous request: the return address is the word not yet executed. -/
def State.takeRequest (s : State) (h cause sub : Nat) : State :=
  let s := s.giveBack h
  s.takeTrap h { cause := cause, sub := sub, async := true, tpc := (s.hart h).pc }
def State.requestPreemption (s : State) (h : Nat) : State :=
  s.updHart h fun x => { x with latch := true, preempt := x.preempt <|> some s.now }
def execPreemptionRequest (h : Nat) : State → Out := fun s =>
  if s.runs h then .next (s.requestPreemption h) else .next s
/-- The buffer is empty: sub-code 0. -/
def State.takePreemption (s : State) (h : Nat) : State :=
  let x := s.hart h
  if x.preempt.isSome && s.atBoundary h && x.buffer.isEmpty then
    (s.updHart h fun y => { y with preempt := none }).takeRequest h 0x40 0
  else s
def execPreemptionTaken (h : Nat) : State → Out := fun s => .next (s.takePreemption h)
/-- 65,536 cycles have passed: sub-code 1, the buffer is kept. -/
def State.timeoutPreemption (s : State) (h : Nat) : State :=
  let x := s.hart h
  match x.preempt with
  | none => s
  | some t =>
    if s.atBoundary h && !x.buffer.isEmpty && decide (t + 65536 ≤ s.now) then
      (s.updHart h fun y => { y with preempt := none }).takeRequest h 0x40 1
    else s
def execPreemptionTimeout (h : Nat) : State → Out := fun s => .next (s.timeoutPreemption h)
/-- A stop message that reached the hart is taken at a boundary as a pre-emption is (spec/16 R336, spec/11 R220): once
the buffer is empty, with sub-code 0, or 65,536 cycles after it came, with sub-code 1 and the buffer kept. R220 states the wait for
the buffer and the sub-code of a pre-emption only: that a stop message has them too is log 50 (DEDUCED from R336's 'under R220'). -/
def State.takeStop (s : State) (h : Nat) : State :=
  let x := s.hart h
  match x.stopMsg with
  | none => s
  | some t =>
    if s.atBoundary h && (x.buffer.isEmpty || decide (t + 65536 ≤ s.now)) then
      (s.updHart h fun y => { y with stopMsg := none, stopTaken := true }).takeRequest h 0x41 (if x.buffer.isEmpty then 0 else 1)
    else s
/-- Whether a request that came at a time is taken by a hart at its boundary. This holds also of a hart that waits in wfe, gbar,
abar.wait, gwait or jsync, which R220 says takes a request at once: with elements in its buffer it takes the request when the
buffer is empty or after 65,536 cycles (log 66, DESIGN CHOICE). -/
def State.ripe (s : State) (h : Nat) (t : Option Nat) : Bool :=
  match t with
  | none => false
  | some t => (s.hart h).buffer.isEmpty || decide (t + 65536 ≤ s.now)
/-- The requests a hart takes at its boundary: one that is taken leaves the others for the next. -/
def State.takeRequests (s : State) (h : Nat) : Option State :=
  let x := s.hart h
  if !s.atBoundary h then none
  else if s.ripe h x.stopMsg then some (s.takeStop h)
  else if s.ripe h x.preempt then some (if x.buffer.isEmpty then s.takePreemption h else s.timeoutPreemption h)
  else none

/-- A gang has stopped when every hart of its blocks has started, and each took the stop or halted, with no copy in flight. That a
hart which has not started counts, so that its gang has not stopped, is the model's choice (log 87, DESIGN CHOICE). -/
def State.gangStopped (s : State) (g : Gang) : Bool :=
  decide (blockSize g.blk ≤ g.harts.length) && g.harts.all fun h => g.haltedHarts.contains h || ((s.hart h).stopTaken && !s.copying h)
/-- Gang c consumes gang p when its dependence word is p's completion word (spec/16 R336). -/
def consumes (c p : Gang) : Bool := c.blk.w3 != 0 && c.blk.w3 == p.blk.w5
/-- Peels the gangs without a producer left; what remains lies on cycles or behind them. -/
def peel : Nat → List Gang → List Gang
  | 0, l => l
  | n + 1, l => peel n (l.filter fun g => l.any fun p => consumes g p)
/-- The stop reaches every hart of a gang that runs, and those that start later as they start (spec/16 R336): the gang stays marked as
stopping, also after its harts have returned (log 87, DESIGN CHOICE). -/
def State.deliverStop (s : State) (g : Gang) : State :=
  (g.harts.filter fun h => !g.haltedHarts.contains h).foldl (fun s h =>
    s.updHart h fun x => { x with latch := true, stopMsg := if x.stopTaken then x.stopMsg else x.stopMsg <|> some s.now })
    (s.updGang g.id fun x => { x with stopping := true })
def State.stopSet (s : State) (set : List Nat) (g : Nat) : State :=
  let gs := set.filterMap s.gangOf
  match gs.find? fun x => x.id == g with
  | none => s
  | some x =>
    if !(peel gs.length gs).isEmpty then gs.foldl State.deliverStop s
    else if gs.all fun p => !consumes x p || s.gangStopped p then s.deliverStop x
    else s
def execStopMessage (set : List Nat) (g : Nat) : State → Out := fun s => .next (s.stopSet set g)

-- The event latch (spec/11 R230) -------------------------------------------------------------------------------------------------

def State.setLatch (s : State) (h : Nat) : State := s.updHart h fun x => { x with latch := true }
def execWfeWake (h : Nat) : State → Out := fun s =>
  waitedWord h .wfe (fun i => match i with
    | .wfe => some execWfe
    | _ => none) (s.setLatch h)
/-- 65,536 cycles in one wait. -/
def State.wfeExpired (s : State) (h : Nat) : Bool :=
  (s.hart h).wait == .wfe && decide ((s.hart h).waitSince + 65536 ≤ s.now)
def execWfeTimeout (h : Nat) : State → Out := fun s =>
  if s.wfeExpired h then execWfeWake h s else .next s

-- Control registers with a rule of their own --------------------------------------------------------------------------------------

/-- An access of the class 'waits' proceeds once the queue is empty (spec/07 R148). -/
def execWaitingCregAccess (h : Nat) (op : CregOp) (d a : Reg) (c : BitVec 12) : State → Out := fun s =>
  let waits := match cregOf c with
    | some r => cregEffect r == .waits
    | none => false
  if s.runs h && (s.hart h).drained && waits then
    match op with
    | .get => asHartOut h (execCget d c) s
    | .set => asHartOut h (execCset a c) s
    | .swap => asHartOut h (execCswap d a c) s
  else .next s
/-- kwin is register 0x008's window (spec/05 R121): an access moves it and steps the group. -/
def State.kwinWord (s : State) (h : Nat) (op : CregOp) (d a : Reg) : State :=
  s.asHart h do
    needOwner
    upd fun s =>
      let (old, s) := s.accessCreg h op .kwin (s.readX a)
      match op with
      | .set => s
      | _ => s.writeX d old
def execKwinAccess (h : Nat) (op : CregOp) (d a : Reg) : State → Out := fun s =>
  if s.runs h && (s.hart h).drained then .next (s.kwinWord h op d a) else .next s
def execPtempWrite (h : Nat) (v : Word) : State → Out := fun s => .next (s.updHart h fun x => ptempWrite x v)
def execTinvWrite (v : Word) : State → Out := fun s => .next (s.writeTinv v)
def execCnvalWrite (h : Nat) (v : Word) : State → Out := fun s => .next (s.writeCounter (s.hart h).cnsel.toNat (v.toNat % 2 ^ 32))
def execLcfgWrite (core j : Nat) (v : Word) : State → Out := fun s => .next (s.writeLcfg core j v)
def execResidencyWrite (k : Nat) (c : BitVec 12) (v : Word) : State → Out := fun s =>
  match cregOf c with
  | some (.resb i) => .next (s.writeResb k i v)
  | some (.resc i) => .next (s.writeResc k i v)
  | _ => .next s
def execTallowWrite (h : Nat) (v : Word) : State → Out := fun s => .next (s.updHart h fun x => tallowWrite x v)
def execCtbaseWrite (v : Word) : State → Out := fun s => .next (s.writeCtbase v)
/-- STREAM_ENABLE: a write of sctl whose en is 1. -/
def execStreamEnable (n : Nat) (v : Word) : State → Out := fun s =>
  if v.getLsbD 63 then .next (s.writeStream n (s.stream n).sbase (sctlValue v)) else .next s
/-- STREAM_DISABLE: a write of sctl whose en is 0. -/
def execStreamDisable (n : Nat) (v : Word) : State → Out := fun s =>
  if v.getLsbD 63 then .next s else .next (s.writeStream n (s.stream n).sbase (sctlValue v))
def jcfgIsOff (v : Word) : Bool := !v.getLsbD 63 || v.toNat % 8 == 0
def execJcfgOff (v : Word) : State → Out := fun s => if jcfgIsOff v then .next (s.writeJcfg v) else .next s
def execJcfgEnable (v : Word) : State → Out := fun s =>
  if !jcfgIsOff v && v.toNat % 8 != 3 then .next (s.writeJcfg v) else .next s
def execJcfgMove (v : Word) : State → Out := fun s =>
  if !jcfgIsOff v && v.toNat % 8 == 3 then .next (s.writeJcfg v) else .next s

/-- MGMT_WINDOW_WRITE (spec/16 R318, log 11). -/
def State.mgmtWrite (s : State) (r : MgmtReg) (v : Word) : State :=
  match r with
  | .stopBase t => { s with stopBase := Tab.put s.stopBase t v }
  | .tenantTable => { s with tenantTable := v }
  | .compressionMap k u => s.updStack k fun x => { x with compMap := Tab.put x.compMap u (v.getLsbD 0) }
  | .trackerThreshold d => s.updDie d fun x => { x with threshold := v.toNat }
  | .frameRing d => s.updDie d fun x => { x with frames := x.frames ++ [v.toNat / 65536 * 65536 % 2 ^ 52] }
  | .queuePair e q =>
    let k := e + 4 * q
    { s with qps := Tab.put s.qps k { Tab.get {} s.qps k with setUp := v.getLsbD 63, tenant := v.toNat % 4096, peer := bitsOf v.toNat 31 16 } }
  | .queueSpace e q =>
    let k := e + 4 * q
    { s with qps := Tab.put s.qps k { Tab.get {} s.qps k with tbase := keep 0x000FFFFFFFFFF001 v } }
  | .sendQueue e q =>
    let k := e + 4 * q
    { s with qps := Tab.put s.qps k { Tab.get {} s.qps k with send := v } }
  | .peerEntry e p => { s with peers := Tab.put s.peers (e + 4 * p) v }
  | .other a => { s with mgmt := Tab.put s.mgmt a v }
def execMgmtWindowWrite (r : MgmtReg) (v : Word) : State → Out := fun s => .next (s.mgmtWrite r v)

-- Energy (spec/11 R241) -------------------------------------------------------------------------------------------------------------

/-- The residency share of an ew register. -/
def resOf (v : Word) : Nat := bitsOf v.toNat 47 32
/-- The two shares of one hart, for n boundaries. -/
def State.tickHart (n : Nat) (s : State) (h : Nat) : State :=
  let x := s.hart h
  if !x.started || x.halted then s
  else
    let c := s.core (coreOf h)
    let ew := fun i => resOf (Tab.get 0 c.ew i)
    let own := n * (ew 1 * x.lanes / 4 + (if c.arrayHolder = some h then ew 5 else 0))
    if x.own = x.ctx then s.updHart h fun y => { y with ectr := chargeTo y.ectr (n * ew 0 + own) }
    else s.updHart h fun y => { y with ectr := chargeTo y.ectr (n * ew 0), pend := chargeTo y.pend own }
def State.tickCore (s : State) (n c : Nat) : State := (hartsOfCore c).foldl (State.tickHart n) s
/-- clk stands at a multiple of 1,024. -/
def execEnergyTick (core : Nat) : State → Out := fun s =>
  if s.now % 1024 = 0 then .next (s.tickCore 1 core) else .next s

end Sys2Proof.Machine
end

