-- ==== Sys2Proof/Machine/EvCoherence.lean ====
section
/-!
DEFINITION. Events of the caches and of coherence: fills, drains, invalidations (spec/12 R247, R249, R254, spec/14 R278,
R279) and translation walks (spec/14 R293 to R295).
-/
namespace Sys2Proof.Machine

def keyCacheable (key : LineKey) : Bool := cacheable (key.byteAt 0)
/-- LINE_FILL: a line arrives from below and merges with the copies resident. The line that leaves first is the one the
replacement rules give (spec/12 R254); a victim that is not that one leaves the event disabled (log 21). -/
def State.fillEvent (s : State) (k : Nat) (key : LineKey) (victim : Option LineKey) : State :=
  if !keyCacheable key || (s.cluster k).lines.any (fun l => l.key == key) then s
  else
    let pa := key.byteAt 0
    let (cls, c) := s.fillClass k key pa
    if victim.isSome && victim != (c.placeFor key cls).2 then s else s.lineFill k key (key.isCol || s.oPage pa) pa
def execLineFill (core : Nat) (key : LineKey) (victim : Option LineKey) : State → Out := fun s =>
  .next (s.fillEvent (core / 8) key victim)

/-- The dirty bytes of a line, by its mask, start for their home with those of their sectors (spec/14 R277). -/
def State.sendLine (s : State) (k : Nat) (key : LineKey) : State :=
  s.sendCells k (s.leavingCells k ((s.cluster k).linesWhere fun l => l == key))
/-- Whether a line stands in a general way: one in a reserved way leaves only through a fill of its range, an invalidation
or a flush (spec/12 R254). -/
def Cluster.inGeneral (c : Cluster) (key : LineKey) : Bool :=
  c.lines.any fun l => l.key == key && decide (c.wayStart 8 ≤ l.way)
/-- DIRTY_DRAIN: the dirty bytes of a line leave for their home; the line stays, or is dropped. -/
def State.sendDrain (s : State) (k : Nat) (key : LineKey) (drop : Bool) : State :=
  let s := s.sendLine k key
  if drop && (s.cluster k).inGeneral key then s.removeLines k fun l => l == key else s
def execDirtyDrain (k : Nat) (key : LineKey) (drop : Bool) : State → Out := fun s => .next (s.sendDrain k key drop)
/-- The lines of a cluster with a key. -/
def State.lineAt (s : State) (k : Nat) (key : LineKey) : Option Line :=
  ((s.cluster k).lines ++ (s.cluster k).atomLines).find? fun l => l.key == key
/-- DIRTY_AGE_DRAIN: the line has been dirty for 1,048,576 cycles. -/
def execDirtyAgeDrain (k : Nat) (key : LineKey) : State → Out := fun s =>
  match s.lineAt k key with
  | none => .next s
  | some l => if l.dirty ≠ 0 ∧ l.dirtyAt + 1048576 ≤ s.now then .next (s.drainLines k fun l => l == key) else .next s
/-- REMOTE_COPY_EXPIRY: an untracked copy goes 1,048,576 cycles after its fill. -/
def execRemoteCopyExpiry (k : Nat) (key : LineKey) : State → Out := fun s =>
  match s.lineAt k key with
  | none => .next s
  | some l =>
    if LineKeyHome key ≠ clusterDie k ∧ l.fillAt + 1048576 ≤ s.now then .next (s.dropLines k fun x => x == key) else .next s
/-- HOME_DRAIN_ACCEPT: a drain reaches its home, unless an earlier one of the same cluster on its way holds bytes of one of its
sectors. -/
def State.acceptDrain (s : State) (n : Nat) : State :=
  match s.drains[n]? with
  | none => s
  | some d =>
    let earlier := (s.drains.take n).any fun e => e.cluster == d.cluster && !(e.inSectors (sectorsOf d.cells)).isEmpty
    if earlier then s
    else { s with drains := s.drains.eraseIdx n }.accept (some d.cluster) (clusterDie d.cluster) d.cells d.poison
def execHomeDrainAccept (n : Nat) : State → Out := fun s => .next (s.acceptDrain n)
/-- INVALIDATION: every copy of a byte's granule leaves a cluster, its dirty bytes written first (spec/12 R249). -/
def execInvalidation (k pa : Nat) : State → Out := fun s => .next (s.dropLines k (s.inGranule pa))
def execDrainRequest (core : Nat) : State → Out := fun s => .next (s.drainCore core)

/-- TRANSLATION_WALK: a leaf that gives no fault enters the caches; faults are never cached (spec/14 R295). badRead says
that an entry could not be read, which is sub-code 9. -/
def State.walkEvent (s : State) (h va : Nat) (kind : AccKind) (badRead : Bool) : State :=
  let x := s.hart h
  if badRead || !tbaseEn x.tbase then s
  else
    let t := s.walkTouch h (va % 2 ^ 57)
    match s.walk (dieOf h) (tbaseRoot x.tbase) (va % 2 ^ 57) with
    | .error _ => t
    | .ok (leaf, level) =>
      if (leafRefuses leaf level (va % 2 ^ 57) (dieOf h) (!x.sup) kind 0).isSome then t
      else t.tlbFill (coreOf h) (tbaseRoot x.tbase) (va % 2 ^ 57) level leaf
def execTranslationWalk (h va : Nat) (kind : AccKind) (badRead : Bool) : State → Out := fun s =>
  .next (s.walkEvent h va kind badRead)

end Sys2Proof.Machine
end

