-- ==== Sys2Proof/Machine/EvEngine.lean ====
section
/-!
DEFINITION. Events of the cluster engines: copies (spec/13 R262, R263), interlock waits (R265), atomic requests (R272).
-/
namespace Sys2Proof.Machine

def execCopyRequestStart (k : Nat) : State → Out := fun s => .next (s.startCopy k)
/-- A copy ends without completing: its request and its interlock entry go, the units that landed remain. -/
def State.dropCopies (s : State) (k : Nat) (p : Copy → Bool) : State :=
  let gone := ((s.cluster k).copies.filter p).map (·.id)
  let s := s.updCluster k fun x => { x with copies := x.copies.filter fun c => !p c }
  (coresOfCluster k).foldl (fun s c =>
    if (s.core c).interlocks.any (fun e => gone.contains e.copy) then
      s.updCore c fun x => { x with interlocks := x.interlocks.filter fun e => !gone.contains e.copy }
    else s) s
/-- An uncorrectable error in a transfer raises the halt line of its context (spec/13 R263); the cause's code is not
given (log 22). -/
def State.copyError (s : State) (k : Nat) : State :=
  match (s.cluster k).copies with
  | [] => s
  | c :: _ =>
    if !c.running then s
    else
      let cause := Config.freeWord s.draws
      { s with draws := s.draws + 1 }.raiseHalt c.tenant (1536 + 3 * k) cause (BitVec.ofNat 64 (c.src + c.landed))
/-- Whether the engine works for a tenant whose halt line is up (spec/16 R333). -/
def State.copyHalted (s : State) (k : Nat) : Bool :=
  match (s.cluster k).copies with
  | [] => false
  | c :: _ => s.haltUp c.tenant
def execCopyUnitLand (k : Nat) (error : Bool) : State → Out := fun s =>
  if s.copyHalted k then .next s else .next (if error then s.copyError k else s.landUnit k)

/-- INTERLOCK_WAIT_END: the waiting access executes again at its hart's turn, and goes on where no entry is left that it
conflicts with (spec/13 R265). -/
def execInterlockWaitEnd (h : Nat) : State → Out := fun s =>
  if (s.hart h).wait = .interlock then .next (s.updHart h fun x => { x with wait := .none }) else .next s

/-- The atomic a word asks for. -/
def amoOf : Instr → Option (Op Unit)
  | .amoAdd ty c d a b => some (amoArrive .add ty c d a b)
  | .amoFadd ty c d a b => some (amoArrive .fadd ty c d a b)
  | .amoMin ty c d a b => some (amoArrive .min ty c d a b)
  | .amoMax ty c d a b => some (amoArrive .max ty c d a b)
  | .amoAnd ty c d a b => some (amoArrive .and ty c d a b)
  | .amoOr ty c d a b => some (amoArrive .or ty c d a b)
  | .amoXor ty c d a b => some (amoArrive .xor ty c d a b)
  | .amoSwap ty c d a b => some (amoArrive .swap ty c d a b)
  | .amoCas ty c d a b => some (amoArrive .cas ty c d a b)
  | _ => none
/-- A hart's atomic on its way to its engine: a word that traps there is charged as any word that issues is (spec/11 R239,
R240); one that waits is charged when it completes. -/
def arriveWord (m : Op Unit) : State → State := fun s0 =>
  let s := s0.updMe fun x => { x with issued := true, issuedAt := if x.issued then x.issuedAt else s0.now }
  let run := fun (s : State) => s.asHart s0.cur m
  let t := run (s.chargeMe 0 1)
  if trappedIn s0 t s0.cur then t else run s
/-- The meaning of a row's word on its way to an engine: that of a vamo, whose request waits there; any other word stays. -/
def vamoSend : Instr → State → Out
  | .vamo h op c ty _ a b n => sendVamo h op c ty a b n
  | _ => fun s => .next s
/-- Whether the row that would move in a hart's run stands at a vamo that it has not sent. -/
def Run.atVamo (r : Run) (want : Option Nat) : Bool :=
  let r := { r with cur := r.choose want }
  !r.row.ended && (r.row.amo == .idle || r.row.amo == .limited) && match r.wordAt r.row.pc with
    | some (.vamo ..) => true
    | _ => false
/-- The request of a row's vamo reaches its engine and takes an arrival order (spec/13 R272): every row is one request. -/
def rowArrival (h : Nat) (want : Option Nat) : State → Out := fun s =>
  match (s.hart h).run with
  | some r => if s.runs h && !(s.hart h).midWord && r.atVamo want then asHartOut h (stepRow vamoSend want) s else .next s
  | none => .next s
/-- ATOMIC_REQUEST_ARRIVAL: the hart's amo word, or the vamo of its run's row, reaches its engine and takes an arrival order. -/
def execAtomicRequestArrival (h : Nat) : State → Out := fun s =>
  if (s.hart h).run.isSome then rowArrival h none s
  else if s.runs h && (s.hart h).drained && !(s.hart h).midWord && ((s.hart h).wait == .none || (s.hart h).wait == .atomic) then
    match s.wordAt h with
    | (some i, s) => match amoOf i with
      | some m => asHartOut h (fun s => .next (arriveWord m s)) s
      | none => .next s
    | (none, s) => .next s
  else .next s
/-- ATOMIC_SERVICE: one request in one slot; requests of a halted tenant wait to be discarded (spec/16 R333). -/
def execAtomicService (k : Nat) : State → Out := fun s =>
  .next (s.serveOne k)

end Sys2Proof.Machine
end

