-- ==== Sys2Proof/Machine/Fence.lean ====
section
/-!
DEFINITION. Fences (spec/14 R287) and the range words seal, unseal, crange, cflush and cinval (spec/14 R288 to R292).
-/
namespace Sys2Proof.Machine

-- Fences --------------------------------------------------------------------------------------------------------------------

def execFenceAcq (c : Scope) : State → Out := finish do
  upd fun s => s.acquireAll s.cur c
  upd State.advance
def execFenceRel (c : Scope) : State → Out := finish do
  awaitRelease
  upd fun s => s.releaseAll s.cur c
  upd State.advance
def execFenceSc (c : Scope) : State → Out := finish do
  awaitRelease
  upd fun s => (s.releaseAll s.cur c).acquireAll s.cur c
  upd State.advance

-- The pages of a range --------------------------------------------------------------------------------------------------------

/-- A piece of a range within one page: its addresses, length, leaf, level, and the physical address of the leaf
entry, if there is one. -/
structure Piece where
  va : Nat
  pa : Nat
  len : Nat
  leaf : Nat
  level : Nat
  entry : Option Nat
  deriving DecidableEq, Repr

/-- The walk again, for the place of the leaf entry. -/
def State.leafEntryFrom (s : State) (die va : Nat) : List Nat → Nat → Except Nat (Nat × Nat × Nat)
  | [], _ => .error 8
  | level :: rest, table =>
    let at_ := table + 8 * levelIndex level va
    if s.readHomePoison die at_ 8 then .error 9
    else
      let e := s.readHome at_ 8
      if !bitOf e 0 then .error 1
      else if malformed level e then .error 8
      else if bitOf e 1 then .ok (e, level, at_)
      else s.leafEntryFrom die va rest (nextTable e)
/-- One address of a range: the fault, or the leaf. The words that change attributes read the entry itself. -/
def State.rangeLeaf (s : State) (h va : Nat) : Except Bad Piece :=
  let x := s.hart h
  if !canonical (BitVec.ofNat 64 va) then .error ⟨0x08, 0⟩
  else if !tbaseEn x.tbase then
    if 2 ^ 52 ≤ va then .error ⟨0x0A, 1⟩ else .ok ⟨va, va, 2 ^ 52 - va, identityLeaf, 4, none⟩
  else
    let a := va % 2 ^ 57
    match s.leafEntryFrom (dieOf h) a [0, 1, 2, 3, 4] (tbaseRoot x.tbase) with
    | .error sub => .error ⟨0x0A, sub⟩
    | .ok (leaf, level, at_) =>
      .ok ⟨va, leafAddr leaf level a (dieOf h), 2 ^ levelShift level - a % 2 ^ levelShift level, leaf, level, some at_⟩
/-- The permission a range word needs (spec/14 R288 to R290): none but U, or also W; crange also no seal. -/
inductive RangeNeed where
  | valid | write | unsealed
  deriving DecidableEq, Repr
def rangeFault (need : RangeNeed) (user : Bool) (p : Piece) : Option Nat :=
  if user && (p.entry.isNone || !leafU p.leaf) then some 5
  else match need with
    | .valid => none
    | .write => if leafW p.leaf then none else some 3
    | .unsealed => if !leafW p.leaf then some 3 else if leafS p.leaf then some 6 else none
/-- The pieces of [va, va + n), or the lowest faulting address with its fault. -/
def State.pieces (s : State) (h : Nat) (need : RangeNeed) (va n : Nat) : Nat → Except (Word × Bad) (List Piece)
  | 0 => .ok []
  | fuel + 1 =>
    if n = 0 then .ok []
    else match s.rangeLeaf h va with
      | .error b => .error (BitVec.ofNat 64 va, b)
      | .ok p =>
        match rangeFault need (!(s.hart h).sup) p with
        | some sub => .error (BitVec.ofNat 64 va, ⟨0x0A, sub⟩)
        | none =>
          let len := min n p.len
          match s.pieces h need (va + len) (n - len) fuel with
          | .error e => .error e
          | .ok ps => .ok ({ p with len := len } :: ps)

/-- The entries that the walks of a range read, page after page up to the first fault. -/
def State.rangeReads (s : State) (h : Nat) (need : RangeNeed) (va n : Nat) : Nat → List Nat
  | 0 => []
  | fuel + 1 =>
    if n = 0 || !canonical (BitVec.ofNat 64 va) then []
    else
      let rest := match s.rangeLeaf h va with
        | .error _ => []
        | .ok p => match rangeFault need (!(s.hart h).sup) p with
          | some _ => []
          | none => s.rangeReads h need (va + min n p.len) (n - min n p.len) fuel
      (if tbaseEn (s.hart h).tbase then s.walkReads (dieOf h) (va % 2 ^ 57) [0, 1, 2, 3, 4] (tbaseRoot (s.hart h).tbase) else [])
        ++ rest
/-- These reads on their path to memory (spec/16 R321). -/
def State.rangeTouch (s : State) (h : Nat) (need : RangeNeed) (va n : Nat) : State :=
  (s.rangeReads h need va n (n / 65536 + 2)).foldl (fun s a => s.mscReads [a]) s

/-- Steps 1 to 4 of spec/14 R288: the pieces, none when n = 0. The alignment of a and n is tested before every page fault, that of
the covered leaves after them (log 73, DESIGN CHOICE). -/
def rangePieces (need : RangeNeed) (aligned : Bool) (a n : Word) : Op (Option (List Piece)) := do
  if n = 0 then pure none
  else if 2 ^ 64 ≤ a.toNat + n.toNat - 1 then trap 0x08 0 a
  else if aligned && (a.toNat % 65536 != 0 || n.toNat % 65536 != 0) then trap 0x09 0 a
  else do
    awaitRelease
    match ← ask fun s => s.pieces s.cur need a.toNat n.toNat (n.toNat / 65536 + 2) with
    | .error (va, b) => do
      upd fun s => s.rangeTouch s.cur need a.toNat n.toNat
      trap b.cause b.sub va
    | .ok ps =>
      -- no covered leaf extends beyond the range (spec/14 R289)
      if aligned && ps.any (fun p => p.entry.isSome && p.len != 2 ^ levelShift p.level) then trap 0x09 0 a
      else pure (some ps)

-- What the words do to a range -----------------------------------------------------------------------------------------------------

def inPieces (ps : List Piece) (pa : Nat) : Bool := ps.any fun p => decide (p.pa ≤ pa) && decide (pa < p.pa + p.len)
def keyInPieces (ps : List Piece) (k : LineKey) : Bool := k.bytes.any (inPieces ps)
/-- The pieces of a range in the package: on a replicated page the replicas of all four dies (spec/14 R289, spec/16
R326; log 20). -/
def allReplicas (ps : List Piece) : List Piece :=
  ps.flatMap fun p => p :: if leafM p.leaf then
    ([0, 1, 2, 3].map fun d => { p with pa := leafAddr p.leaf p.level (p.va % 2 ^ 57) d }).filter fun q => q.pa != p.pa
    else []
/-- Drains every dirty byte of a range in some clusters to its home. -/
def State.drainPieces (s : State) (ks : List Nat) (ps : List Piece) : State :=
  ks.foldl (fun s k => s.drainBytes k (inPieces ps)) s
/-- Drops every copy of a range in some clusters, their cores' instruction caches included. -/
def State.dropPieces (s : State) (ks : List Nat) (ps : List Piece) : State :=
  let s := ks.foldl (fun s k => s.dropLines k (keyInPieces ps)) s
  { s with cores := s.cores.map fun (e : Nat × Core) =>
      if ks.contains (e.1 / 8) then
        (e.1, { e.2 with icache := e.2.icache.filter fun l => !keyInPieces ps (.row l.block) })
      else e }
/-- The clusters that may hold anything, those of the listed cores among them. -/
def State.allClusters (s : State) : List Nat := s.cores.foldl (fun l e => NSet.add l (e.1 / 8)) (s.clusters.map (·.1))
/-- Combines every element of the pieces under their modes (spec/14 R290). -/
def State.combinePieces (s : State) (ps : List Piece) : State :=
  ps.foldl (fun s p => if leafC p.leaf = 0 then s else s.combineRange (leafC p.leaf) p.pa p.len) s
/-- Whether some bytes meet a range. -/
def meetsPieces (ps : List Piece) (pa n : Nat) : Bool := ps.any fun p => decide (p.pa < pa + n) && decide (pa < p.pa + p.len)
/-- The dirty sectors of a line of a memory-side cache that lie in a range. -/
def MscLine.dirtyIn (l : MscLine) (ps : List Piece) : Nat :=
  (upTo 32).foldl (fun m i => if bitOf l.dirty i && meetsPieces ps (2048 * l.line + 64 * i) 64 then m + 2 ^ i else m) 0
/-- The dirty sectors of a range go through to DRAM or the CXL device (spec/16 R321, R322). -/
def State.mscCleanIn (s : State) (n : Nat) (ps : List Piece) : State :=
  let s := (s.stack n).msc.foldl (fun s l => s.writeBackAll n l.line (l.dirtyIn ps)) s
  s.updStack n fun k => { k with msc := k.msc.map fun l => { l with dirty := l.dirty - l.dirtyIn ps } }
def State.mscClean (s : State) (ps : List Piece) : State :=
  (s.baseDies.map (·.1)).foldl (fun s n => s.mscCleanIn n ps) s
/-- A store of a leaf entry by the executing hart and the cflush over it (spec/14 R297): the entry goes through the hart's cluster,
over older bytes that its copies hold, to its home and through the memory-side cache. -/
def State.storeEntry (s : State) (a v : Nat) : State :=
  let cells : List Host.Cell := ((upTo 8).map (a + ·)).zip (bytesLE 8 v)
  ((s.writeThrough (clusterOf s.cur) cells []).wakeOthers (some s.cur) (cells.map (·.1))).mscClean [⟨a, a, 8, 0, 4, none⟩]
/-- Rewrites the leaf entries of the pieces and invalidates their translations package-wide. -/
def State.rewriteLeaves (s : State) (f : Nat → Nat) (ps : List Piece) : State :=
  ps.foldl (fun s p => match p.entry with
    | none => s
    | some a =>
      let s := s.storeEntry a (f p.leaf)
      s.tlbDrop (p.va % 2 ^ 57) (if p.level = 2 then 2 else if p.level = 3 then 1 else 0)) s
def setBitTo (e i : Nat) (b : Bool) : Nat := withBits e i 1 (if b then 1 else 0)
def setMode (e m : Nat) : Nat := withBits e 8 3 m
def modeCode (m : CMode) : Nat :=
  match m with
  | .dissolve => 0
  | .addF32 => 1
  | .addBf16 => 2
  | .addS32 => 3
  | .minF32 => 4
  | .maxF32 => 5
  | .minS32 => 6
  | .maxS32 => 7

/-- A range word: its pieces, what it waits for beyond its own hart's work, then its effect. -/
def rangeWord (need : RangeNeed) (aligned : Bool) (a b : Reg) (f : State → List Piece → State)
    (waits : State → List Piece → Bool := fun _ _ => false) : State → Out := finish do
  let va ← ask fun s => s.readX a
  let n ← ask fun s => s.readX b
  match ← rangePieces need aligned va n with
  | none => upd State.advance
  | some ps =>
    if ← ask fun s => waits s ps then waitHere .copies
    else upd fun s => (f (s.rangeTouch s.cur need va.toNat n.toNat) ps).advance

/-- Stores to a range that were translated and are not yet performed, of any agent: copies, waiting atomics, held
emission records. They complete before a seal does (spec/14 R289). -/
def State.storesInFlight (s : State) (ps : List Piece) : Bool :=
  s.clusters.any (fun e => e.2.copies.any (fun c => c.dstSegs.any fun g => meetsPieces ps g.pa g.len)
      || e.2.atomics.any fun r => meetsPieces ps r.pa (amoSize r.ty))
    || s.journals.any fun e => e.2.held.any fun r => meetsPieces ps r.pa 16
/-- Combines every element of the pieces and drops every copy of them, which are older than the combined values (spec/14 R290). -/
def State.dissolve (s : State) (ps : List Piece) : State := (s.combinePieces ps).dropPieces s.allClusters ps
/-- seal: dissolve, drain the range package-wide, set S, invalidate (spec/14 R289). -/
def execSeal (a b : Reg) : State → Out := rangeWord .write true a b (waits := fun s ps => s.storesInFlight (allReplicas ps)) fun s ps =>
  let all := allReplicas ps
  ((s.dissolve (all.filter fun p => leafC p.leaf != 0)).drainPieces s.allClusters all).rewriteLeaves
    (fun e => setBitTo (setMode e 0) 7 true) ps
/-- unseal: clear S, invalidate, drop every copy in every cache of the package (spec/14 R289). -/
def execUnseal (a b : Reg) : State → Out := rangeWord .write true a b fun s ps =>
  (s.rewriteLeaves (fun e => setBitTo e 7 false) ps).dropPieces s.allClusters (allReplicas ps)
/-- crange: pages whose mode changes combine under the old mode first (spec/14 R290). -/
def execCrange (m : CMode) (a b : Reg) : State → Out := rangeWord .unsealed true a b fun s ps =>
  let changed := ps.filter fun p => leafC p.leaf != modeCode m
  (s.dissolve (allReplicas changed)).rewriteLeaves (fun e => setMode e (modeCode m)) changed
/-- cflush: dirty bytes go to their homes and through the memory-side caches; copies stay (spec/14 R291). -/
def execCflush (a b : Reg) : State → Out := rangeWord .valid false a b fun s ps =>
  (s.drainPieces s.allClusters (allReplicas ps)).mscClean (allReplicas ps)
/-- cinval: the die's caches write back and drop every copy; a commutative page combines first (spec/14 R292). -/
def execCinval (a b : Reg) : State → Out := rangeWord .valid false a b fun s ps =>
  let ks := clustersOfDie (dieOf s.cur)
  ((s.drainPieces ks ps).combinePieces ps).dropPieces ks ps

end Sys2Proof.Machine
end

