-- ==== Sys2Proof/Machine/EvMemory.lean ====
section
/-!
DEFINITION. Events of the memory below the caches: fetches of the base die (spec/12 R256, spec/16 R321, R322), faults of
memory and links (spec/16 R323, R324), and the hot-page tracker (spec/16 R328).
-/
namespace Sys2Proof.Machine

-- Fetches (spec/12 R256, spec/16 R321, R322) -------------------------------------------------------------------------------------

/-- COLUMN_LINE_FETCH: the base die gathers a column line from one sector of each of its panel rows. -/
def State.fetchColumn (s : State) (key : LineKey) : State :=
  if !key.isCol || !cacheable (key.byteAt 0) then s else s.mscReads key.bytes
def execColumnLineFetch (_k : Nat) (key : LineKey) : State → Out := fun s => .next (s.fetchColumn key)
/-- MSC_MISS_FILL: sectors of a line come in from DRAM or the CXL device, with those the predictor adds; a victim of its
set leaves first. -/
def State.mscMiss (s : State) (n line mask : Nat) (victim : Option Nat) : State :=
  if mscPlace (2048 * line) != some (n, line) then s
  else
    let s := match victim with
      | some v => if setOf v == setOf line && v != line then s.mscEvict n v else s
      | none => s
    s.mscBring n line mask false
def execMscMissFill (n line mask : Nat) (victim : Option Nat) : State → Out := fun s => .next (s.mscMiss n line mask victim)

-- Faults (spec/16 R323, R324) --------------------------------------------------------------------------------------------------------

/-- Records 0x0400 and 0x0401 of a unit: of the tenant of whose operation the fault is part, if it is of one, else of no tenant
(spec/18 R347; log 26). -/
def State.emitFault (s : State) (src : Nat) (r : Retry) (ten : Option Nat) (kind : Nat) (addr : Word) : State :=
  s.emitEngine src (if r = .transient then 0x0400 else 0x0401) ten 0xFFFF noHart (BitVec.ofNat 64 kind) addr
/-- The DRAM row of a stack address within its pseudo-channel. -/
def rowOf (pa : Nat) : Nat := pa % 0x1000000000 / 2048 / 384
def markPoison (s : State) (pa : Nat) : State := { s with poison := NSet.add s.poison (sectorOf pa) }
/-- A failing row goes to a spare row, also in the fuses while spares remain; without a spare the channel is fenced. -/
def Stack.retireRow (k : Stack) (n pa : Nat) : Stack :=
  let ch := channelOf pa
  let used := (k.remap.filter fun e => e.1 == ch).length
  if used < Config.spareRows n then
    { k with remap := k.remap ++ [(ch, rowOf pa, used)],
             fuse := if k.fuse.length < Config.spareFuses n then k.fuse ++ [(ch, rowOf pa)] else k.fuse }
  else { k with fencedCh := NSet.add k.fencedCh ch }
def State.dramError (s : State) (pa : Nat) (r : Retry) (ten : Option Nat) : State :=
  match servedBy pa with
  | .stack n => match r with
    | .transient => (s.bump (1680 + n) 5 1).emitFault (1680 + n) r ten 2 (BitVec.ofNat 64 pa)
    | .lasting => (((markPoison s pa).updStack n fun k => k.retireRow n pa).bump (1680 + n) 6 1).emitFault (1680 + n) r ten 2
        (BitVec.ofNat 64 pa)
  | _ => s
/-- DRAM_UNCORRECTABLE_ERROR: the second attempt decides, and the event says of which tenant's operation the read is (log 26). -/
def execDramUncorrectableError (pa : Nat) (f : FaultCase) : State → Out := fun s => .next (s.dramError pa f.retry f.ten)
/-- A correctable ECC error is corrected silently and counted (spec/16 R324, spec/18 R365). -/
def State.correctError (s : State) (pa : Nat) : State :=
  match servedBy pa with
  | .stack n => s.bump (1680 + n) 4 1
  | _ => s
/-- REMAP_SEGMENT_ERROR (spec/16 R323): the pseudo-channel answers poison; record 0x0403. -/
def execRemapSegmentError (n seg : Nat) : State → Out := fun s =>
  .next ((s.updStack n fun k => { k with segErr := NSet.add k.segErr seg, remapFault := true }).emitEngine (1680 + n) 0x0403 none
    0xFFFF noHart (BitVec.ofNat 64 seg) 0)
def State.cxlPoison (s : State) (port pa : Nat) (r : Retry) (ten : Option Nat) : State :=
  if servedBy pa != .cxl port then s
  else match r with
    | .transient => s.emitFault (1694 + port) r ten 3 (BitVec.ofNat 64 pa)
    | .lasting =>
      let log := Tab.get [] s.cxlPages port
      let page := pa / 65536
      { markPoison s pa with cxlPages := Tab.put s.cxlPages port (Tab.put log page (Tab.get 0 log page + 1)) }.emitFault
        (1694 + port) r ten 3 (BitVec.ofNat 64 pa)
def execCxlPoisonRead (port pa : Nat) (f : FaultCase) : State → Out := fun s => .next (s.cxlPoison port pa f.retry f.ten)

/-- A lasting error fences a lane; the port is fenced with its last one. -/
def LinkState.fenceLane (l : LinkState) (width : Nat) : LinkState :=
  { l with lanes := l.lanes + 1, fenced := l.fenced || decide (width ≤ l.lanes + 1), errors := l.errors + 1 }
/-- The address of a flit is not given: a free value (log 22). -/
def State.freeAddr (s : State) : Word × State := (Config.freeWord s.draws, { s with draws := s.draws + 1 })
def State.portError (s : State) (src kind : Nat) (r : Retry) (ten : Option Nat) : State :=
  let (a, s) := s.freeAddr
  (s.bump src (if r = .transient then 2 else 3) 1).emitFault src r ten kind a
def State.flitError (s : State) (l : Link) (r : Retry) (ten : Option Nat) : State :=
  let last := r == .lasting
  match l with
  | .dieNet d =>
    let x := Tab.get {} s.dieNet d
    let s := if last then { s with dieNet := Tab.put s.dieNet d (x.fenceLane (Config.linkLanes false d)) } else s
    -- the die network has no engine index: its records come from the die's aggregator (log 26)
    let (a, s) := s.freeAddr
    s.emitFault (1702 + d) r ten 4 a
  | .cenel c =>
    let x := Tab.get {} s.cenel c
    let s := if last then { s with cenel := Tab.put s.cenel c (x.fenceLane (Config.linkLanes true c)) } else s
    s.portError (1692 + c) 5 r ten
  | .cxl p =>
    let x := Tab.get {} s.cxl p
    let s := if last then { s with cxl := Tab.put s.cxl p (x.fenceLane 16) } else s
    s.portError (1694 + p) 6 r ten
def execFlitCrcError (l : Link) (f : FaultCase) : State → Out := fun s => .next (s.flitError l f.retry f.ten)

-- The hot-page tracker (spec/16 R328) ---------------------------------------------------------------------------------------------------

/-- HOT_PAGE_EPOCH: the counts start afresh, and abandoned pages may be tried again. -/
def execHotPageEpoch (d : Nat) : State → Out := fun s => .next (s.updDie d fun x => { x with hot := [], abandoned := [] })
/-- The bytes of a 64 KiB frame. -/
def frameOf (pa : Nat) : Nat := pa / 65536 * 65536
def inFrame (f pa : Nat) : Bool := pa / 65536 * 65536 == f
/-- Buffered elements of a frame in any strip store buffer. -/
def State.bufferedIn (s : State) (f : Nat) : Bool :=
  s.harts.any fun e => e.2.buffer.any fun b => b.elems.any fun x => inFrame f x.pa
/-- Accesses in flight on a frame: copies, atomic requests, held emission records, queue entries with row memory. -/
def State.accessedIn (s : State) (f : Nat) : Bool :=
  s.clusters.any (fun e => e.2.copies.any (fun c => (c.dstSegs ++ c.srcSegs).any fun g => inFrame f g.pa)
      || e.2.atomics.any (fun r => inFrame f r.pa))
    || s.journals.any (fun e => e.2.held.any fun r => inFrame f r.pa)
    || s.cores.any fun e => e.2.interlocks.any fun i => i.copy == 0
/-- Every dirty byte of a frame goes home, and every copy of it goes. -/
def State.flushFrame (s : State) (f : Nat) : State :=
  let p : Piece := { va := 0, pa := f, len := 65536, leaf := 0, level := 4, entry := none }
  ((s.drainPieces s.allClusters [p]).dropPieces s.allClusters [p])
/-- The sectors of a frame that read as poison: those with a mark, and those of units that serve nothing any more, which answer
whole lines of 2 KiB alike (spec/16 R318, R323, R324). -/
def State.poisonIn (s : State) (f : Nat) : List Nat :=
  s.poison.filter (fun x => inFrame f (32 * x))
    ++ (upTo 32).flatMap fun i => if s.dead (f + 2048 * i) then (upTo 64).map fun j => (f + 2048 * i) / 32 + j else []
/-- Copies a frame to another, poison included: both pass through their memory-side caches (spec/16 R321). -/
def State.copyFrame (s : State) (a b : Nat) : State :=
  let s := (s.mscFrame a false).mscFrame b true
  let moved := (s.mem.filter fun c => inFrame a c.1).map fun c => (b + (c.1 - a), c.2)
  let marks := (s.poisonIn a).map fun x => (b + (32 * x - a)) / 32
  { s with mem := Memory.writeCells (s.mem.filter fun c => !inFrame b c.1) moved,
           poison := marks.foldl NSet.add (s.poison.filter fun x => !inFrame b (32 * x)) }
/-- Where a byte of a frame stands after the frame has moved. -/
def movedTo (old new pa : Nat) : Nat := if inFrame old pa then new + (pa - old) else pa
/-- What the machine keeps of the places of a frame's bytes goes along with them: release records, the descriptors of trials
under way, and the sectors that event latches watch. Programs see only timing (spec/16 R328). -/
def State.moveNotes (s : State) (old new : Nat) : State :=
  { s with
    dies := s.dies.map fun (e : Nat × Die) =>
      (e.1, { e.2 with releases := e.2.releases.map fun (r : Release) => { r with pa := movedTo old new r.pa } }),
    gangs := s.gangs.map fun (g : Gang) => { g with trial := g.trial.map fun (t : Trial) => { t with pa := movedTo old new t.pa } },
    harts := s.harts.map fun (e : Nat × Hart) =>
      (e.1, { e.2 with lastAcq := e.2.lastAcq.map fun x => sectorOf (movedTo old new (32 * x)) }) }
/-- Moves the page of a leaf entry from a frame to another: drains, copies, rewrites the leaf, invalidates. -/
def State.moveFrame (s : State) (entry va old new : Nat) : State :=
  let s := (((s.flushFrame old).flushFrame new).copyFrame old new).moveNotes old new
  let (leaf, s) := s.readDevice entry 8
  let s := s.writeHome (homeDie entry) entry 8 (withBits leaf 16 36 (new / 65536))
  s.tlbDrop va 0
/-- The stack of a frame. -/
def stackOfFrame (f : Nat) : Nat := f / 0x1000000000
/-- The coldest of some promoted pages of a die. -/
def Die.coldest (d : Die) (l : List Promoted) : Option Promoted :=
  l.foldl (fun best p => match best with
    | none => some p
    | some b => if Tab.get 0 d.hot (p.frame / 65536) < Tab.get 0 d.hot (b.frame / 65536) then some p else best) none
/-- Whether the tracker may move a page with a leaf (spec/16 R328). -/
def leafMoves (leaf : Nat) : Bool := !leafP leaf && !leafH leaf && !leafM leaf && leafC leaf == 0
/-- A pinned page is counted and recorded. -/
def State.skipPinned (s : State) (d : Nat) (ten va frame : Nat) : State :=
  (s.updDie d fun x => { x with pinskip := min (x.pinskip + 1) (2 ^ 32 - 1) }).emitEngine (1680 + 2 * d + frame / 0x20000000000 % 2)
    0x0302 (some ten) 0xFFFF noHart (BitVec.ofNat 64 va) 0
/-- Record 0x0301 of a page that has moved to a frame. -/
def State.emitMoved (s : State) (src ten va frame : Nat) : State :=
  s.emitEngine src 0x0301 (some ten) 0xFFFF noHart (BitVec.ofNat 64 va) (BitVec.ofNat 64 frame)
/-- The coldest of some promoted pages that may move; x is the die as the search begins. Pages abandoned for the epoch are passed
over. The leaves of the others are read anew, and each pinned page that is passed over is counted. -/
def State.findCold (s : State) (d : Nat) (x : Die) : Nat → List Promoted → Option Promoted × State
  | 0, _ => (none, s)
  | n + 1, l => match x.coldest l with
    | none => (none, s)
    | some p =>
      let rest := l.filter fun q => q != p
      if x.abandoned.contains p.frame then s.findCold d x n rest
      else
        let (leaf, s) := s.readDevice p.entry 8
        let here := leafPage leaf == p.frame
        if here && leafMoves leaf then (some p, s)
        else (if here && leafP leaf then s.skipPinned d p.ten p.va p.frame else s).findCold d x n rest
/-- Elements in a strip store buffer hold the migration of a frame back, and their wait is timed. -/
def State.awaitBuffers (s : State) (d f : Nat) : State :=
  s.updDie d fun y => { y with waiting := Tab.put y.waiting f (Tab.get s.now y.waiting f) }
/-- The coldest promoted page that may move goes back to the CXL tier, if no access holds it. -/
def State.demote (s : State) (d : Nat) : Option Nat × State :=
  let x := s.die d
  match s.findCold d x x.promoted.length x.promoted with
  | (none, s) => (none, s)
  | (some p, s) =>
    if s.bufferedIn p.frame then (none, s.awaitBuffers d p.frame)
    else if s.accessedIn p.frame then (none, s)
    else
      let s := (s.moveFrame p.entry p.va p.frame p.cxl).updDie d fun y =>
        { y with promoted := y.promoted.filter fun q => q != p, waiting := Tab.drop y.waiting p.frame }
      (some p.frame, s.emitMoved (1680 + stackOfFrame p.frame) p.ten p.va p.cxl)
/-- A free frame: from the ring, or by demoting a promoted page. -/
def State.takeFrame (s : State) (d : Nat) : Option Nat × State :=
  match (s.die d).frames with
  | f :: rest => (some f, s.updDie d fun x => { x with frames := rest })
  | [] => s.demote d
/-- PAGE_MIGRATION: the page of va in hart h's space moves into a stack frame, in one step (log 21). -/
def State.migrate (s : State) (d h va : Nat) : State :=
  match s.rangeLeaf h va with
  | .error _ => s
  | .ok p => match p.entry with
    | none => s
    | some entry =>
      let f := frameOf p.pa
      let page := va % 2 ^ 57 / 65536 * 65536
      let x := s.die d
      let cxl := match servedBy f with
        | .cxl n => n / 2 == d
        | _ => false
      if p.level ≠ 4 || !cxl || x.abandoned.contains f || decide (Tab.get 0 x.hot (f / 65536) < x.threshold) then s
      else if leafP p.leaf then s.skipPinned d (s.hart h).tenant.toNat page f
      else if !leafMoves p.leaf then s
      else if s.bufferedIn f then s.awaitBuffers d f
      else if s.accessedIn f then s
      else match s.takeFrame d with
        | (none, s) => s
        | (some new, s) =>
          let s := s.moveFrame entry page f new
          let ten := (s.hart h).tenant.toNat
          let q : Promoted := { entry := entry, va := page, cxl := f, frame := new, ten := ten }
          let s := s.updDie d fun y => { y with promoted := y.promoted ++ [q], waiting := Tab.drop y.waiting f }
          s.emitMoved (1680 + stackOfFrame new) ten page new
def execPageMigration (d h va : Nat) : State → Out := fun s => .next ((s.rangeTouch h .valid va 1).migrate d h va)
/-- MIGRATION_ABANDON: buffered elements have held the page, which was to be promoted or demoted, for 65,536 cycles. -/
def execMigrationAbandon (d page : Nat) : State → Out := fun s =>
  let f := frameOf page
  match Tab.find (s.die d).waiting f with
  | none => .next s
  | some t =>
    if t + 65536 ≤ s.now && s.bufferedIn f then
      .next (s.updDie d fun x => { x with waiting := Tab.drop x.waiting f, abandoned := NSet.add x.abandoned f })
    else .next s

end Sys2Proof.Machine
end

