-- ==== Sys2Proof/Machine/EvFabric.lean ====
section
/-!
DEFINITION. Events of Slate and of the Ethernet ports (spec/19 R386, R387, R391, spec/18 R347).
-/
namespace Sys2Proof.Machine

def execJournalAck (c : Nat) (byNew : Bool) : State → Out := fun s => .next (s.journalAcked c byNew)
def execEmissionRecordWrite (c : Nat) : State → Out := fun s => .next (s.writeEmission c)
def execPartnerLost (c : Nat) : State → Out := fun s => .next (s.losePartner c)
def execNewPartnerUnreachable (c : Nat) : State → Out := fun s => .next (s.loseNewPartner c)
/-- ETHERNET_FRAME_ERROR: a fault of kind 7; a lasting one fences the port, and its live contexts lose their partners
(spec/19 R386). -/
def State.frameError (s : State) (e : Nat) (r : Retry) (ten : Option Nat) : State :=
  let s := s.portError (1688 + e) 7 r ten
  match r with
  | .transient => s
  | .lasting =>
    let p := Tab.get {} s.eth e
    let s := { s with eth := Tab.put s.eth e { p with link := { p.link with fenced := true } } }
    ((s.journals.filter fun j => j.2.port == e).map (·.1)).foldl State.losePartner s
def execEthernetFrameError (e : Nat) (f : FaultCase) : State → Out := fun s => .next (s.frameError e f.retry f.ten)

end Sys2Proof.Machine
end

