-- ==== Sys2Proof/Machine/EvLaunch.lean ====
section
/-!
DEFINITION. Dispatchers: launch lists (spec/15 R298 to R300), the tests of a block (R302), dependences and placement
(R303, R304), the start of a hart (R305, R306), completion words (R307), and the turns of waiting words.
-/
namespace Sys2Proof.Machine

/-- The dispatcher hart of a die (spec/15 R298). -/
def dispatcher (d : Nat) : Nat := 384 * d

-- Addresses of a gang (spec/15 R301) --------------------------------------------------------------------------------------------

/-- A translation in a tenant's space from its root, at the level of its harts, for the dispatcher of a die. No
translation cache takes part (log 16). -/
def State.spaceTrans (s : State) (d : Nat) (tbase : Word) (sup : Bool) (va : Word) (n : Nat) (kind : AccKind) : Option Trans :=
  if !canonical va || va.toNat % n != 0 then none
  else if !tbaseEn tbase then
    if 2 ^ 52 ≤ va.toNat || !sup then none else some ⟨va.toNat, identityLeaf, 4⟩
  else
    let a := va.toNat % 2 ^ 57
    match s.walk d (tbaseRoot tbase) a with
    | .error _ => none
    | .ok (leaf, level) =>
      if (leafRefuses leaf level a d (!sup) kind n).isSome then none else some ⟨leafAddr leaf level a d, leaf, level⟩
/-- The reads of such a walk on their path to memory (spec/16 R321). -/
def State.spaceTouch (s : State) (d : Nat) (tbase va : Word) : State :=
  if !tbaseEn tbase || !canonical va then s
  else (s.walkReads d (va.toNat % 2 ^ 57) [0, 1, 2, 3, 4] (tbaseRoot tbase)).foldl (fun s a => s.mscReads [a]) s
def State.gangTrans (s : State) (g : Gang) (va : Word) (kind : AccKind) : Option Trans :=
  s.spaceTrans g.die g.ent.tbase g.ent.sv va 8 kind
def State.gangTouch (s : State) (g : Gang) (va : Word) : State := s.spaceTouch g.die g.ent.tbase va
/-- A .sys acquire read of 8 bytes by a dispatcher; none where it meets poison (log 16). -/
def State.dispatchRead (s : State) (d : Nat) (t : Trans) : Option Nat × State :=
  let (v, bad, s) := s.acquireRead (dispatcher d) t 8 .sys
  (if bad then none else some v, s)

/-- A .sys acquire of n bytes at a physical address by a dispatcher, which takes poisoned bytes as they are
(log 74, DESIGN CHOICE). -/
def State.deviceAcquire (s : State) (d pa n : Nat) : Nat × State :=
  let (_, _, s) := s.acquireRead (dispatcher d) ⟨pa, identityLeaf, 4⟩ n .sys
  let s := (s.flushDrains.purgeDie none pa).1
  (s.readHome pa n, s)

-- Completion (spec/15 R307) --------------------------------------------------------------------------------------------------------

def completionWord (harts status : Nat) : Nat := harts % 2 ^ 12 * 2 ^ 8 + status
/-- Writes the completion word as one .sys release, with record 0x0202; nothing when cpl is 0 or faults. The record carries the
tenant of the dispatcher hart that emits it, whose event it is (spec/18 R345, R347; log 84, DESIGN CHOICE). -/
def State.writeCompletion (s : State) (g : Gang) (harts status : Nat) : State :=
  if g.blk.w5 = 0 then s
  else match s.gangTrans g g.blk.w5 .store with
    | none => s.gangTouch g g.blk.w5
    | some t =>
      let v := completionWord harts status
      let s := (s.gangTouch g g.blk.w5).releaseWrite (dispatcher g.die) t 8 .sys v
      s.emitHart (dispatcher g.die) 0x0202 (BitVec.ofNat 64 v) g.blk.w5
/-- The trial of a gang that completes ends (spec/18 R376): the record comes from a hart slot of the gang, under the
gang's tenant, and under its allowed classes where the slot has another occupant. -/
def State.endTrialOf (s : State) (g : Gang) : State :=
  let h := (g.harts.find? fun j => (s.hart j).gang == some g.id).getD (g.harts.headD 0)
  let mask := if (s.hart h).gang = some g.id then (s.hart h).tmask else g.ent.tallow.truncate 16 ||| 0x0020
  s.finishTrial g.id (dieOf h) fun s a b => (s.bumpHart h 16 1).emitEngine h 0x0601 (some (blockTen g.blk)) mask noHart a b
/-- The gang is complete and leaves the dispatcher. -/
def State.completeGang (s : State) (g : Gang) (status : Nat) : State :=
  let s := if g.harts.isEmpty then s else s.endTrialOf g
  let s := s.writeCompletion g g.harts.length status
  { s with gangs := s.gangs.filter fun x => x.id != g.id }

-- Taking a block (spec/15 R302, R306) ----------------------------------------------------------------------------------------------

/-- The entry of a tenant, read as a .sys acquire, and whether it is valid. -/
def State.tenantEntry (s : State) (d ten : Nat) : TenantEntry × Bool × State :=
  let (v, s) := s.deviceAcquire d (s.tenantTable.toNat % 2 ^ 52 + 64 * ten) 64
  let w := fun i => BitVec.ofNat 64 (bitsAt v (64 * i) 64)
  let e : TenantEntry :=
    { v := bitOf v 63, sv := bitOf v 62, tbase := w 1, tvec := w 2, tinfo := w 3, tscratch := w 4, tallow := w 5 }
  (e, bitOf v 63 && bitsAt v 0 62 == 0 && bitsAt v (8 * 0x30) 128 == 0, s)
/-- The slots of a gang's reach when all are free (spec/15 R302). -/
def blockCapacity (b : Block) : Nat :=
  if blockOne b then
    if blockSp b then 8 else if bitsOf b.w6.toNat 7 4 = 0 then 31 else 32
  else (if blockSp b then 96 else 383) * (blockDies b).length
/-- The first test of a block. -/
def blockBad (b : Block) : Bool :=
  bitsOf b.w2.toNat 63 52 != 0 || bitsOf b.w6.toNat 62 10 != 0 || bitsOf b.w6.toNat 3 0 != 0 || b.w7 != 0
    || b.w0.toNat % 4 != 0 || b.w3.toNat % 8 != 0 || b.w5.toNat % 8 != 0
    || (blockOne b && (decide (11 < bitsOf b.w6.toNat 7 4) || !(blockDies b).contains (bitsOf b.w6.toNat 9 8)))
/-- The status of a block rejected when it is taken. -/
def rejection (b : Block) : Option Nat :=
  if blockBad b then some 5
  else if blockSize b = 0 then none
  else if 2048 < blockSize b then some 3
  else if blockCo b && decide (blockCapacity b < blockSize b) then some 4
  else none
def State.takeBlock (s : State) (d order taken : Nat) (b : Block) : State :=
  let (e, ok, s) := s.tenantEntry d (blockTen b)
  let g : Gang := { id := s.nextGang, die := d, order := order, taken := taken, blk := b, ent := e }
  if !ok then s
  else match rejection b with
    | some st => s.writeCompletion g 0 st
    | none => { s with gangs := s.gangs ++ [g], nextGang := s.nextGang + 1 }

-- Launch lists (spec/15 R299, R300) --------------------------------------------------------------------------------------------------

/-- The dispatcher takes the blocks its device list holds, but for those of a halted tenant (spec/16 R335). -/
def State.takeDevice (s : State) (d : Nat) : State :=
  let (wait, go) := (s.die d).devList.partition fun e => s.haltUp (blockTen e.2.2)
  go.foldl (fun s e => s.takeBlock d e.1 e.2.1 e.2.2) (s.updDie d fun x => { x with devList := wait })
/-- Copies n blocks of a host list from number k on, until one of a halted tenant; the number after the last. -/
def State.takeHost (s : State) (d base lcap k : Nat) : Nat → Nat × State
  | 0 => (k, s)
  | n + 1 =>
    let (v, s) := s.deviceRead (base + 0x40 + 64 * (k % 2 ^ lcap)) 64
    let b := blockOf v
    if s.haltUp (blockTen b) then (k, s)
    else
      let order := (s.die d).takeNo
      let taken := s.takes
      let s := { s with takes := taken + 1 }.updDie d fun x => { x with takeNo := order + 1 }
      (s.takeBlock d order taken b).takeHost d base lcap (k + 1) n
/-- LAUNCH_LIST_READ: the header, its checks, the new blocks, at most 2^lcap of them (log 74, DESIGN CHOICE), then head as a
.sys release. -/
def State.readList (s : State) (d : Nat) : State :=
  let s := s.takeDevice d
  match s.lists[d]? with
  | none => s
  | some base =>
    let (v, s) := s.deviceAcquire d base 64
    let (tail, head, lcap) := (bitsAt v 0 64, bitsAt v 64 64, bitsAt v 128 5)
    if 12 < lcap || bitsAt v 133 59 != 0 || bitsAt v (8 * 0x18) 320 != 0 then
      s.updDie d fun x => { x with listFault := true }
    else
      let s := s.updDie d fun x => { x with listFault := false }
      let n := min ((tail + 2 ^ 64 - head) % 2 ^ 64) (2 ^ lcap)
      let (k, s) := s.takeHost d base lcap head n
      if k = head then s else s.releaseWrite (dispatcher d) ⟨base + 8, identityLeaf, 4⟩ 8 .sys (k % 2 ^ 64)
def execLaunchListRead (d : Nat) : State → Out := fun s =>
  if s.supervisor && !(s.die d).held then .next (s.readList d) else .next s

-- Choosing a gang and its slots (spec/15 R303, R304) ---------------------------------------------------------------------------------

/-- Whether a gang's dependence is met; none when its address faults. -/
def State.dependenceMet (s : State) (g : Gang) : Option Bool × State :=
  if g.blk.w3 = 0 then (some true, s)
  else match s.gangTrans g g.blk.w3 .load with
    | none => (none, s.gangTouch g g.blk.w3)
    | some t => match (s.gangTouch g g.blk.w3).dispatchRead g.die t with
      | (none, s) => (none, s)
      | (some v, s) => (some (decide (g.blk.w4.toNat ≤ v)), s)
def Gang.started (g : Gang) : Bool := decide (blockSize g.blk ≤ g.harts.length)
/-- Higher priority first, then the earlier take: of one die the order of its series (spec/15 R303), in the package the
order of the takes themselves (R304). -/
def beats (a b : Gang) : Bool :=
  decide (blockPri b.blk < blockPri a.blk)
    || (blockPri a.blk == blockPri b.blk && (if a.die = b.die then decide (a.order < b.order) else decide (a.taken < b.taken)))
def bestGang (l : List Gang) : Option Gang :=
  l.foldl (fun best g => match best with
    | none => some g
    | some b => if beats g b then some g else best) none
/-- Reads the dependences of a dispatcher's gangs that it has not chosen: the gangs whose dependence is met. A gang of
no harts completes at once, and so does one whose address faults. A dependence is read again at each dispatch, until its gang is
chosen: one met before does not count where its word has fallen since (log 16, DESIGN CHOICE). -/
def State.pollGangs (s : State) (l : List Gang) : List Gang × State :=
  l.foldl (fun r g =>
    match r.2.dependenceMet g with
    | (none, s) => (r.1, s.completeGang g 5)
    | (some false, s) => (r.1, s)
    | (some true, s) => if blockSize g.blk = 0 then (r.1, s.completeGang g 2) else (r.1 ++ [g], s)) ([], s)
/-- Insertion by rank, the best first. -/
def insertGang (g : Gang) : List Gang → List Gang
  | [] => [g]
  | x :: l => if beats g x then g :: x :: l else x :: insertGang g l
/-- The gangs that a dispatcher may start harts of, best first: those it has chosen whose harts have not all started, and before them
the best of the ready ones, where its priority is above each of theirs (spec/15 R303). A gang of higher priority so starts harts
beside a chosen one that waits, and does not take its place: the chosen one is not held back behind it (log 16, DESIGN CHOICE). -/
def State.candidates (s : State) (d : Nat) : List Gang × State :=
  let mine := s.gangs.filter fun g => g.die == d && !g.affected && !g.started && g.chosen
  let (ready, s) := s.pollGangs (s.gangs.filter fun g => g.die == d && !g.affected && !g.chosen && (!g.started || blockSize g.blk == 0))
  let new := (bestGang ready).filter fun b => mine.all fun a => decide (blockPri a.blk < blockPri b.blk)
  (new.toList ++ mine.foldr insertGang [], s)

/-- A hart slot that runs nothing (spec/15 R298). -/
def State.slotFree (s : State) (h : Nat) : Bool :=
  let x := s.hart h
  decide (h < 1536) && !isSupervisorHart h && (!x.started || x.halted) && !(s.die (dieOf h)).held
    && !(s.core (coreOf h)).fenced && (s.core (coreOf h)).interlocks.all fun e => e.hart != h
/-- Slots on the dies or in the cluster that a gang may use. -/
def reaches (b : Block) (h : Nat) : Bool :=
  (blockDies b).contains (dieOf h) && (!blockOne b || clusterOf h == blockCluster b)
/-- The cores on which a gang runs harts. -/
def coresOfGang (g : Gang) : List Nat :=
  (g.harts.filter fun h => !g.haltedHarts.contains h).map coreOf
/-- The waiting co-resident gang that reserves slots (spec/15 R304). A gang waits in this sense once its dispatcher has chosen it, not
while it is held back behind another (log 16, DESIGN CHOICE). -/
def State.reserving (s : State) : Option Gang :=
  bestGang (s.gangs.filter fun g => blockCo g.blk && g.chosen && !g.started && !g.affected)
/-- Slots held for the reserving gang: every free one it could use, one a core when sp = 1. -/
def State.heldFor (s : State) (r : Gang) (h : Nat) : Bool :=
  s.slotFree h && reaches r.blk h
    && (!blockSp r.blk || (hartsOfCore (coreOf h)).all fun j => decide (h ≤ j) || !s.slotFree j)
def State.slotFor (s : State) (g : Gang) (h : Nat) : Bool :=
  s.slotFree h && reaches g.blk h && (!blockSp g.blk || !(coresOfGang g).contains (coreOf h))
    && match s.reserving with
      | none => true
      | some r => r.id == g.id || !s.heldFor r h
/-- Slots, strictly rising, each free for the gang, on distinct cores when sp = 1. -/
def State.slotsFree (s : State) (g : Gang) : List Nat → Bool
  | [] => true
  | h :: l => s.slotFor g h && s.slotsFree g l && match l with
    | [] => true
    | j :: _ => decide (h < j) && (!blockSp g.blk || coreOf h != coreOf j)

-- The start of a hart (spec/15 R305) --------------------------------------------------------------------------------------------------

/-- The hart of a gang with an identifier, in its state at start. -/
def startState (g : Gang) (gid : Nat) : Hart :=
  let e := g.ent
  let allow : BitVec 16 := e.tallow.truncate 16 ||| 0x0020
  { pc := g.blk.w0, gid := gid, gsz := blockSize g.blk, garg := g.blk.w1, tenant := BitVec.ofNat 12 (blockTen g.blk),
    sup := e.sv, tbase := keep 0x000FFFFFFFFFF001 e.tbase, tvec := keep 0xFFFFFFFFFFFFFFFC e.tvec,
    tinfo := keep 0xFFFFFFFFFFFFFF00 (e.tinfo + BitVec.ofNat 64 (256 * gid)), tscratch := e.tscratch,
    tallow := allow, tmask := allow, own := e.tscratch.extractLsb' 48 16, started := true, gang := some g.id }
/-- A hart of a gang that was told to stop finds the message as it starts (spec/16 R336). -/
def State.withStop (s : State) (g : Nat) (x : Hart) : Hart :=
  if (s.gangOf g).any (·.stopping) then { x with latch := true, stopMsg := some s.now } else x
/-- Whatever a previous occupant left goes, then the hart starts: a .sys acquire, with record 0x0200. -/
def State.startHart (s : State) (g : Gang) (h : Nat) : State :=
  let gid := ((s.gangOf g.id).map fun x => x.harts.length).getD 0
  let s := ((s.dropGeyser h).releaseArray h).leaveLaneQueue h
  let s := (s.setHart h (s.withStop g.id (startState g gid))).acquireAll h .sys
  let s := s.updGang g.id fun x => { x with chosen := true, harts := x.harts ++ [h], haltedHarts := NSet.del x.haltedHarts h }
  s.emitHart h 0x0200 (BitVec.ofNat 64 (gid + blockSize g.blk * 2 ^ 32)) g.blk.w0
def State.choose (s : State) (g : Gang) : State := s.updGang g.id fun x => { x with chosen := true }
/-- A hart of a wave gang starts in a slot. -/
def State.startWave (s : State) (g : Nat) (h : Nat) : State :=
  match s.gangOf g with
  | none => s
  | some x => if !x.started && s.slotFor x h then s.startHart x h else s
/-- Whether slots let a gang start harts: all of its harts when co = 1, some when co = 0. -/
def State.fits (s : State) (slots : List Nat) (g : Gang) : Bool :=
  if blockCo g.blk then slots.length == blockSize g.blk && s.slotsFree g slots else slots.any (s.slotFor g)
/-- Starts harts of a gang in slots: all together when co = 1, one by one in rising identifiers when co = 0. -/
def State.startIn (s : State) (slots : List Nat) (g : Gang) : State :=
  if blockCo g.blk then slots.foldl (fun s h => s.startHart g h) s else slots.foldl (fun s h => s.startWave g.id h) s
/-- The dispatcher chooses its best candidate, and of all of them the first that p names starts harts in the slots. The slots are
the event's choice among those the gang may take (log 16). -/
def State.dispatchTo (s : State) (d : Nat) (slots : List Nat) (p : State → Gang → Bool) : State :=
  match s.candidates d with
  | ([], s) => s
  | (g :: rest, s) =>
    let s := s.choose g
    match (g :: rest).find? (p s) with
    | none => s
    | some x => s.startIn slots x
def State.dispatchGang (s : State) (d : Nat) (slots : List Nat) : State := s.dispatchTo d slots fun s g => s.fits slots g
def execGangDispatch (d : Nat) (slots : List Nat) : State → Out := fun s => .next (s.dispatchGang d slots)
/-- WAVE_HART_START: the next hart of a wave gang starts. -/
def execWaveHartStart (d slot : Nat) : State → Out := fun s =>
  .next (s.dispatchTo d [slot] fun s g => !blockCo g.blk && s.slotFor g slot)

/-- GANG_COMPLETION: every hart has halted and the emission records of its harts are written, which are accesses of
theirs (spec/15 R307, spec/19 R391). A gang of a halted tenant waits for the line to fall (spec/16 R335). -/
def State.gangOver (s : State) (g : Gang) : Bool :=
  decide (0 < blockSize g.blk) && g.started && g.ended == blockSize g.blk && !g.affected && !s.haltUp (blockTen g.blk)
    && !s.journals.any fun e => e.2.held.any fun r => g.harts.contains r.hart
def execGangCompletion (g : Nat) : State → Out := fun s =>
  match s.gangOf g with
  | none => .next s
  | some x => if s.gangOver x then .next (s.completeGang x 1) else .next s

-- The ends of waits --------------------------------------------------------------------------------------------------------------------

/-- The gbar that a hart waits in ends, once its barrier has turned. -/
def State.endGbar (s : State) (h : Nat) : State :=
  if (s.hart h).pass then
    match waitedWord h .gbar (fun i => match i with
      | .gbar => some execGbar
      | _ => none) s with
    | .next t => t
    | _ => s
  else s
/-- GBAR_PASS (spec/15 R313): the barrier turns, if it may, and the waiting harts pass. -/
def execGbarPass (g : Nat) : State → Out := fun s =>
  let s := s.turnCheck g
  match s.gangOf g with
  | none => .next s
  | some x => .next (x.harts.foldl State.endGbar s)
def execAbarWaitEnd (h : Nat) : State → Out := waitedWord h .abar fun i =>
  match i with
  | .abarWait a t => some (execAbarWait a t)
  | _ => none
def execGwaitEnd (h : Nat) : State → Out := waitedWord h .gwait fun i =>
  match i with
  | .gwait a t => some (execGwait a t)
  | _ => none
def execJsyncEnd (h : Nat) : State → Out := waitedWord h .jsync fun i =>
  match i with
  | .jsync a => some (execJsync a)
  | _ => none

end Sys2Proof.Machine
end

