-- ==== Sys2Proof/Machine/EvHalt.lean ====
section
/-!
DEFINITION. Containment (spec/16 R331 to R335) and bring-up, power and identity (spec/16 R337, R338).
-/
namespace Sys2Proof.Machine

-- Raising (spec/16 R332) -------------------------------------------------------------------------------------------------------------------

/-- A halt raised from outside: cause and value are not given, and are free values (log 22). -/
def State.raiseFrom (s : State) (ten origin : Nat) : State :=
  if s.haltUp ten then s
  else { s with draws := s.draws + 2 }.raiseHalt ten origin (Config.freeWord s.draws) (Config.freeWord (s.draws + 1))
/-- HALT_REGISTER_RAISE: a write of 1 to the tenant's halt register. The origin is taken as hart 0 (log 31). -/
def execHaltRegisterRaise (ten : Nat) : State → Out := fun s => .next (s.raiseFrom ten 0)

-- Stop records (spec/16 R334) ------------------------------------------------------------------------------------------------------------

/-- The 256 bytes of a stop record. -/
def stopRecord (time ten engine : Nat) (l : HaltLine) (pc strip : Word) (occupied : Nat) (st aux : Word) : List Byte :=
  bytesLE 8 time ++ bytesLE 8 (ten % 2 ^ 12 * 2 ^ 32 + l.origin % 2 ^ 16 * 2 ^ 16 + engine % 2 ^ 16)
    ++ bytesLE 8 l.cause.toNat ++ bytesLE 8 l.value.toNat ++ bytesLE 8 pc.toNat ++ bytesLE 8 strip.toNat
    ++ bytesLE 8 occupied ++ bytesLE 8 st.toNat ++ bytesLE 8 aux.toNat ++ bytesLE 184 0
/-- The record goes to base + 256 n as a supervisor store, where a base was written (log 31). -/
def State.putStop (s : State) (ten engine : Nat) (bs : List Byte) : State :=
  match Tab.find s.stopBase ten with
  | none => s
  | some b => s.writeHomeBytes (sourceDie engine) (b.toNat % 2 ^ 52 + 256 * engine) bs
/-- A hart stops: its buffer is discarded, vector state and Geyser entries stay (spec/16 R333). -/
def State.stopHart (s : State) (ten h : Nat) (l : HaltLine) : State :=
  -- every stall of its sources ends (spec/18 R360)
  let s := (s.endStall h).dropMarks h
  let x := s.hart h
  let occupied := bufferBytes x.buffer % 2 ^ 32 * 2 ^ 32 + x.buffer.length % 2 ^ 5
  let bs := stopRecord (s.tstamp (dieOf h)) ten h l x.nextPc x.stripBase occupied x.hstat x.ectr
  let s := s.updHart h fun y => { y with buffer := [], queue := [], run := none, wait := .none, armed := none, rest := none,
                                         tableStall := false, heldAhead := false, holds := false }
  (s.updCore (coreOf h) fun c => { c with interlocks := c.interlocks.filter fun e => !(e.hart == h && e.copy == 0),
                                          arrayWait := c.arrayWait.filter (· != h), laneWait := c.laneWait.filter (· != h) }).putStop ten h bs
/-- An engine without a hart, a copy or a request of its own to tell of writes its record; one that held no work for the tenant has
time 0 (spec/16 R335), and its other fields as any (log 31, DESIGN CHOICE). -/
def State.stopPlain (s : State) (ten engine : Nat) (l : HaltLine) (worked : Bool) : State :=
  s.putStop ten engine (stopRecord (if worked then s.tstamp (sourceDie engine) else 0) ten engine l 0 0 0 0 0)
/-- A copy engine stops: units that landed remain, queued requests are discarded. -/
def State.stopCopies (s : State) (ten k : Nat) (l : HaltLine) : State :=
  let e := 1536 + 3 * k
  match (s.cluster k).copies.filter fun c => c.tenant == ten with
  | [] => s.stopPlain ten e l false
  | c :: _ =>
    let (dst, n) := if c.running then (c.dst, c.landed) else (0, 0)
    let bs := stopRecord (s.tstamp (clusterDie k)) ten e l 0 0 0 (BitVec.ofNat 64 dst) (BitVec.ofNat 64 n)
    (s.dropCopies k fun c => c.tenant == ten).putStop ten e bs
/-- An atomic engine stops: waiting requests are discarded, with no reply. -/
def State.stopAtomics (s : State) (ten k : Nat) (l : HaltLine) : State :=
  let n := ((s.cluster k).atomics.filter fun r => r.tenant == ten).length
  let e := 1537 + 3 * k
  if n = 0 then s.stopPlain ten e l false
  else
    let bs := stopRecord (s.tstamp (clusterDie k)) ten e l 0 0 0 0 (BitVec.ofNat 64 n)
    (s.updCluster k fun c => { c with atomics := c.atomics.filter fun r => r.tenant != ten }).putStop ten e bs
/-- Whether a compaction unit holds items of the tenant's gangs. -/
def State.listsFor (s : State) (ten k : Nat) : Bool :=
  s.gangs.any fun g => blockTen g.blk == ten && (s.cluster k).lists.any fun l => l.2.any fun i => i.1 == g.id + 1
/-- Whether an Ethernet port carries a journal of the tenant. -/
def State.journalsFor (s : State) (ten e : Nat) : Bool :=
  s.journals.any fun j => j.2.en && j.2.port == e && j.2.ten.toNat == ten
/-- An engine does what it does at a halt, by its number (spec/16 R331). Base dies and the Cenel and CXL ports serve an access in the
step that makes it, and hold no work for a tenant. -/
def State.haltEngine (s : State) (engine ten : Nat) (l : HaltLine) : State :=
  let k := (engine - 1536) / 3
  if engine < 1536 then
    let x := s.hart engine
    if x.started && !x.halted && x.tenant.toNat == ten then s.stopHart ten engine l else s.stopPlain ten engine l false
  else if engine < 1680 then
    match (engine - 1536) % 3 with
    | 0 => s.stopCopies ten k l
    | 1 => s.stopAtomics ten k l
    | _ => s.stopPlain ten engine l (s.listsFor ten k)
  else s.stopPlain ten engine l (decide (1688 ≤ engine) && decide (engine < 1692) && s.journalsFor ten (engine - 1688))
/-- ENGINE_HALT_STOP: one engine stops for a tenant whose halt line is up, once. -/
def State.stopEngine (s : State) (engine ten : Nat) : State :=
  match Tab.find s.halts ten with
  | none => s
  | some l =>
    if l.stopped.contains engine then s
    else
      { s with halts := Tab.put s.halts ten { l with stopped := NSet.add l.stopped engine } }.haltEngine engine ten l
def execEngineHaltStop (engine ten : Nat) : State → Out := fun s => .next (s.stopEngine engine ten)

-- Recovery (spec/16 R335) ----------------------------------------------------------------------------------------------------------------

/-- The hart is reset and its slot freed, with whatever it held in its core. -/
def State.resetHart (s : State) (h : Nat) : State :=
  let s := (s.dropGeyser h).updCore (coreOf h) fun c =>
    { c with arrayHolder := if c.arrayHolder = some h then none else c.arrayHolder,
             interlocks := c.interlocks.filter fun e => e.hart != h }
  s.setHart h {}
/-- The line falls: engines that have not stopped stop, affected gangs complete with status 0x06, the tenant's harts
are reset. -/
def State.lowerHalt (s : State) (ten : Nat) : State :=
  match Tab.find s.halts ten with
  | none => s
  | some l =>
    let s := ((upTo 1702).filter fun e => !l.stopped.contains e).foldl (fun s e => s.haltEngine e ten l) s
    let mine := (s.harts.filter fun e => e.2.started && !e.2.halted && e.2.tenant.toNat == ten).map (·.1)
    let s := { s with halts := Tab.drop s.halts ten }
    let s := (s.gangs.filter fun g => g.affected && blockTen g.blk == ten).foldl (fun s g => s.completeGang g 6) s
    mine.foldl State.resetHart s
def execHaltRegisterLower (ten : Nat) : State → Out := fun s => .next (s.lowerHalt ten)

-- Power (spec/16 R338) --------------------------------------------------------------------------------------------------------------------

/-- THERMAL_TRIP: every tenant's line rises, and the module is powered down. R338 names no origin: the model takes the dispatcher hart
of the die that tripped (log 31, DESIGN CHOICE). -/
def execThermalTrip (d : Nat) : State → Out := fun s =>
  .next { (upTo 4096).foldl (fun s t => s.raiseFrom t (dispatcher d)) s with poweredDown := true }
/-- POWER_LIMIT: only timing changes. -/
def execPowerLimit (d : Nat) (on : Bool) : State → Out := fun s => .next (s.updDie d fun x => { x with throttled := on })

-- Bring-up and identity (spec/16 R337) ------------------------------------------------------------------------------------------------------

/-- What outlives a reset of a stack: its fuses, from which the remap table is loaded (spec/16 R323). -/
def Stack.afterReset (k : Stack) : Stack :=
  { remap := k.fuse.zipIdx.map fun e => (e.1.1, e.1.2, ((k.fuse.take e.2).filter fun f => f.1 == e.1.1).length), fuse := k.fuse }
/-- MODULE_RESET: every die verifies its image, and one that fails is held in reset and reports over Cenel. The outcome of
the verification is the event's (log 27); memory is as after reset (log 5). -/
def State.moduleReset (s : State) (ok : List Bool) : State :=
  { State.reset with
    agenda := s.agenda, draws := s.draws, cur := s.cur,
    baseDies := s.baseDies.map fun e => (e.1, e.2.afterReset),
    dies := (upTo 4).filterMap fun d => if ok.getD d true then none else some (d, { held := true }),
    bootReports := (upTo 4).filter fun d => !ok.getD d true }
def execModuleReset (ok : List Bool) : State → Out := fun s => .next (s.moduleReset ok)
/-- SUPERVISOR_START: once, the dispatcher harts of the dies start at the entry, at supervisor level. The low two bits of
the entry are dropped, since pc is a multiple of 4 (spec/07 R143); R337 states no check (log 8, DESIGN CHOICE). -/
def State.startSupervisor (s : State) (entry : Word) (lists : List Nat) (image : Nat) : State :=
  if s.supervisor then s
  else [0, 1, 2, 3].foldl (fun s d =>
      if (s.die d).held then s
      else s.setHart (dispatcher d) { pc := keep 0xFFFFFFFFFFFFFFFC entry, sup := true, started := true })
    { s with supervisor := true, lists := lists, image := image }
def execSupervisorStart (entry : Word) (lists : List Nat) (image : Nat) : State → Out := fun s =>
  .next (s.startSupervisor entry lists image)
/-- ATTESTATION_QUOTE: one quote for one nonce, over the firmware and the supervisor image as loaded (log 13). -/
def execAttestationQuote (nonce : Nat) : State → Out := fun s => .next { s with quotes := s.quotes ++ [Config.quote nonce Config.firmware s.image] }

end Sys2Proof.Machine
end

