-- ==== Sys2Proof/Machine/EvHost.lean ====
section
/-!
DEFINITION. Accesses by agents outside the package: the host over a Cenel port (spec/16 R329) and peers over an Ethernet
port (spec/19 R381).
-/
namespace Sys2Proof.Machine

/-- Device memory and scratchpads: what the host may address. -/
def hostMay (pa n : Nat) : Bool :=
  (upTo n).all fun i => match servedBy (pa + i) with
    | .stack _ | .cxl _ | .scratch _ => true
    | _ => false
/-- One request and its answer on a port (spec/18 R365 slots 0 and 1): one flit each way (log 26). -/
def State.countPort (s : State) (src : Nat) : State := (s.bump src 0 1).bump src 1 1
/-- The answer of a read by the host: the bytes, and the poison indication (spec/16 R325). -/
def State.hostAnswer (s : State) (port pa n : Nat) : State :=
  let bad := (Tab.get {} s.cenel port).fenced || s.readHomePoison (2 * port) pa n
  { (s.countPort (1692 + port)).mscReads ((upTo n).map (pa + ·)) with hostData := Memory.readN s.mem pa n, hostPoison := bad }
/-- A read of bytes that the host may not address, or that nothing serves, returns the poison indication (spec/16 R318,
R325). -/
def State.hostRefused (s : State) (port : Nat) : State :=
  { s.countPort (1692 + port) with hostData := [], hostPoison := true }
def execHostRead (port pa n : Nat) : State → Out := fun s =>
  if hostMay pa n then .next ((s.combineTouched ((upTo n).map (pa + ·))).hostAnswer port pa n) else .next (s.hostRefused port)
/-- A write by the host: through to the home, unless the port is fenced; a commutative element it touches combines
first (spec/14 R290). One of which a byte may not be addressed has no effect at all (log 75, DESIGN CHOICE). -/
def State.hostStore (s : State) (port pa : Nat) (bs : List Byte) : State :=
  if !hostMay pa bs.length || (Tab.get {} s.cenel port).fenced then s
  else ((s.combineTouched ((upTo bs.length).map (pa + ·))).countPort (1692 + port)).writeHomeBytes (2 * port) pa bs
def execHostWrite (port pa : Nat) (bs : List Byte) : State → Out := fun s => .next (s.hostStore port pa bs)
/-- A write-release: earlier writes of the port have reached their homes already, a step being one write (log 19). -/
def execHostWriteRelease (port pa : Nat) (bs : List Byte) : State → Out := fun s => .next (s.hostStore port pa bs)
/-- A read-acquire: every core that the records of the value name drains first (spec/14 R279). -/
def State.hostAcquire (s : State) (pa n : Nat) : State :=
  let s := (s.flushDrains.purgeDie none pa).1
  (([0, 1, 2, 3].flatMap fun d => (s.die d).releases).filter fun r =>
    decide (r.pa < pa + n) && decide (pa < r.pa + r.size)).foldl (fun s r => s.drainCore r.core) s
def execHostReadAcquire (port pa n : Nat) : State → Out := fun s =>
  if hostMay pa n then
    .next (((s.combineTouched ((upTo n).map (pa + ·))).hostAcquire pa n).hostAnswer port pa n)
  else .next (s.hostRefused port)

-- Peers (spec/19 R381) ------------------------------------------------------------------------------------------------------------------

/-- The physical address of one byte of an RDMA WRITE: its page must have P = 1 and W = 1. -/
def State.rdmaPlace (s : State) (e : Nat) (q : QueuePair) (va : Nat) : Option Nat :=
  match s.walk e (tbaseRoot q.tbase) (va % 2 ^ 57) with
  | .error _ => none
  | .ok (leaf, level) =>
    if tbaseEn q.tbase && canonical (BitVec.ofNat 64 va) && leafP leaf && leafW leaf then
      some (leafAddr leaf level (va % 2 ^ 57) e) else none
/-- The cells of a message, or none when it is refused. -/
def State.rdmaCells (s : State) (e : Nat) (q : QueuePair) : Nat → List Byte → Option (List Host.Cell)
  | _, [] => some []
  | va, b :: bs => match s.rdmaPlace e q va, s.rdmaCells e q (va + 1) bs with
    | some pa, some l => some ((pa, b) :: l)
    | _, _ => none
/-- The frames of a message at the path MTU of 4,096 bytes (spec/19 R379). -/
def framesOf (n : Nat) : Nat := max 1 (ceilDiv n 4096)
/-- The walks that resolve a message's pages, on their path to memory (spec/16 R321). -/
def State.peerTouch (s : State) (e : Nat) (q : QueuePair) (va n : Nat) : State :=
  (upTo ((va + n - 1) / 65536 + 1 - va / 65536)).foldl (fun s i =>
    s.spaceTouch e q.tbase (BitVec.ofNat 64 (65536 * (va / 65536 + i)))) s
/-- A message of a reliable connection: applied sector by sector in rising addresses, the last one a .sys release; a
refused one is counted. -/
def State.rdma (s : State) (e qp va : Nat) (bs : List Byte) : State :=
  let k := e + 4 * qp
  let q := Tab.get {} s.qps k
  if !q.setUp || (Tab.get {} s.eth e).link.fenced || s.haltUp q.tenant then s
  else
    let s := (s.bump (1688 + e) 1 (framesOf bs.length)).peerTouch e q va bs.length
    match s.rdmaCells e q va bs with
    | none => s.bump (1688 + e) 2 1
    | some cells =>
      let s := ((s.combineTouched (cells.map (·.1))).flushDrains.accept none e cells []).wakeOthers none (cells.map (·.1))
      { s with qps := Tab.put s.qps k { q with messages := q.messages + 1 } }
/-- The bytes of a message to be sent, in the queue pair's space: as a received one, but readable (log 26). -/
def State.rdmaSource (s : State) (e : Nat) (q : QueuePair) : Nat → Nat → Option (List Nat)
  | _, 0 => some []
  | va, n + 1 => match s.walk e (tbaseRoot q.tbase) (va % 2 ^ 57), s.rdmaSource e q (va + 1) n with
    | .ok (leaf, level), some l =>
      if tbaseEn q.tbase && canonical (BitVec.ofNat 64 va) && leafP leaf && leafR leaf then
        some (leafAddr leaf level (va % 2 ^ 57) e :: l) else none
    | _, _ => none
/-- A send queue that the supervisor has set up sends an RDMA WRITE of n bytes, with an immediate or without (spec/19 R379):
they are read at their homes, as a .sys agent reads, and leave the port in frames, with the peer's entry of the port's peer
table. What asks for it is not given, and is the turn's (log 26). Bytes of a poisoned sector are sent as they
stand, without an indication (log 83, DESIGN CHOICE: R325 gives one to a DMA read of the host or a peer, and this is none). -/
def State.rdmaSend (s : State) (e qp src dst n : Nat) (imm : Option (BitVec 32)) : State :=
  let k := e + 4 * qp
  let q := Tab.get {} s.qps k
  if !q.setUp || q.send = 0 || (Tab.get {} s.eth e).link.fenced || s.haltUp q.tenant then s
  else
    let s := s.peerTouch e q src n
    match s.rdmaSource e q src n with
    | none => s
    | some pas =>
      let s := (s.combineTouched pas).flushDrains
      let s := (pas.foldl (fun s pa => (s.purgeDie none pa).1) s).mscReads pas
      let m : Sent :=
        { port := e, qp := qp, peer := Tab.get 0 s.peers (e + 4 * q.peer), va := dst, bytes := pas.map (Memory.read s.mem), imm := imm }
      { s.bump (1688 + e) 0 (framesOf n) with
        sent := s.sent ++ [m], qps := Tab.put s.qps k { q with sent := q.sent + 1 } }
def execRdmaWrite (e qp va : Nat) (bs : List Byte) : State → Out := fun s => .next (s.rdma e qp va bs)
/-- The spec gives the immediate no place in the machine (log 26): the write is as without it. -/
def execRdmaWriteWithImmediate (e qp va : Nat) (bs : List Byte) (_imm : BitVec 32) : State → Out := fun s => .next (s.rdma e qp va bs)

end Sys2Proof.Machine
end

