-- ==== Sys2Proof/Machine/EvReel.lean ====
section
/-!
DEFINITION. Events of Reel and of time: the reserve (spec/18 R354 to R358), sweeps (R369), the time base (R348, spec/19
R379, R380).
-/
namespace Sys2Proof.Machine

/-- The first record of a reserve that can leave it, with the records before and after it: one with no older record of its
source (spec/18 R349) that finds room in each lossless stream it was offered to (R354), or one that is lossy by now
(R359, R360). -/
def State.readyRecord (s : State) : List Reserved → List Reserved → Option (List Reserved × Reserved × List Reserved)
  | _, [] => none
  | before, e :: l =>
    if s.lossy e.rcd || (s.roomInAll e.rcd (s.wants e) && !before.any fun x => x.rcd.source == e.rcd.source) then some (before, e, l)
    else s.readyRecord (before ++ [e]) l
/-- RECORD_ACCEPT: the record reaches the streams it was offered to and that accept it still (spec/18 R353). A lossy record
is lost in a stream for which an older record of its source still waits, since it may not pass that one (log 18). -/
def State.acceptRecord (s : State) (d : Nat) : State :=
  match s.readyRecord [] (s.die d).reserve with
  | none => s
  | some (before, e, rest) =>
    let (now, older) := (s.wants e, s.wantedBy e.rcd.source before)
    let s := (s.updDie d fun x => { x with reserve := before ++ rest }).deliverLossy e.rcd now older
    (s.harts.map (·.1)).foldl State.settleOwes s
def execRecordAccept (d : Nat) : State → Out := fun s => .next (s.acceptRecord d)
/-- REEL_STALL_END: no reserve holds the hart back, and a record of every class finds room. -/
def State.reelStallOver (s : State) (h : Nat) : Bool :=
  !s.reelHeld h && (upTo 16).all fun c => s.reelRoom h (256 * c)
def execReelStallEnd (h : Nat) : State → Out := fun s =>
  let x := s.hart h
  .next (if (stallsByReel x.wait || x.heldAhead) && s.reelStallOver h then s.endStall h else s)

/-- COUNTER_SWEEP (spec/18 R369): every counter of the die's sources and cores, then its generation word. -/
def State.sweep (s : State) (d : Nat) : State :=
  if !ctbaseEn s.ctbase then s
  else
    let cs := (s.counters.map (·.1)).filter fun c => sweeperOf c == d
    (cs.foldl State.creditTotal s).addWord d (totalAddr s.ctbase 0 + 0x103000 + 8 * d) 1
def execCounterSweep (d : Nat) : State → Out := fun s => .next (s.sweep d)

/-- A correction begins: what the counters have slewed of the one before is kept (spec/18 R348). -/
def State.slewTo (s : State) (correction : Int) : State :=
  let done := s.slewedNow
  { [0, 1, 2, 3].foldl (fun s d => if (s.die d).locked then s.updDie d fun x => { x with off := x.off + done } else s) s with
    slew := correction, slewAt := s.now }
/-- TIMEBASE_LOCK: each counter steps once to the package time base, and its aggregator records the step. -/
def State.lockDie (base : Nat) (s : State) (d : Nat) : State :=
  let x := s.die d
  if x.locked then s
  else
    let step : Int := base - (s.tstamp d : Int)
    (s.setDie d { x with off := x.off + step, locked := true }).emitEngine (1702 + d) 0x0503 none 0xFFFF noHart
      (BitVec.ofInt 64 step) 0
def execTimebaseLock (base : Nat) : State → Out := fun s =>
  if [0, 1, 2, 3].all fun d => (s.die d).locked then .next s
  else .next ([0, 1, 2, 3].foldl (State.lockDie base) (s.slewTo (s.slew - s.slewedNow)))
def State.updEth (s : State) (e : Nat) (f : EthPort → EthPort) : State := { s with eth := Tab.put s.eth e (f (Tab.get {} s.eth e)) }
/-- GRANDMASTER_LOSS: the time base runs on with its own oscillator. -/
def execGrandmasterLoss (e : Nat) : State → Out := fun s => .next (s.updEth e fun p => { p with grandmaster := false })
/-- TIME_PORT_SELECT: the counters do not step (spec/19 R380). -/
def execTimePortSelect (e : Nat) : State → Out := fun s => .next { s with timePort := e }
/-- IEEE_1588_EVENT_MESSAGE: the message is stamped; one that arrives at the time port begins a correction of the locked dies,
which slew to it (log 2). -/
def State.timeMessage (s : State) (e : Nat) (ingress : Bool) (offset : Int) : State :=
  let p := Tab.get {} s.eth e
  let now := s.tstamp e
  let s := (s.bump (1688 + e) (if ingress then 1 else 0) 1).updEth e fun p => { p with lastStamp := now, offset := offset }
  if ingress && e == s.timePort && p.grandmaster && [0, 1, 2, 3].any (fun d => (s.die d).locked) then s.slewTo offset else s
def execIeee1588EventMessage (e : Nat) (ingress : Bool) (offset : Int) : State → Out := fun s => .next (s.timeMessage e ingress offset)

end Sys2Proof.Machine
end

