-- ==== Sys2Proof/Machine/LoadStore.lean ====
section
/-!
DEFINITION. Scalar loads and stores (spec/07 R157, R159) and the acquire and release accesses (spec/14 R286).
-/
namespace Sys2Proof.Machine

/-- A scalar load of n bytes, extended as its type says. -/
def loadOp (n : Nat) (ext : Nat → Word) (d a : Reg) (i : BitVec 12) (h : Hint) (o : Orient) : State → Out := finish do
  let ea ← ask fun s => addImm (s.readX a) i
  let v ← loadScalar ea n o h
  upd fun s => s.retire d (ext v)
def zextW (v : Nat) : Word := BitVec.ofNat 64 v
def sextW (bits : Nat) (v : Nat) : Word := BitVec.ofInt 64 (sextN v bits)
def execLdS8 (d a : Reg) (i : BitVec 12) (h : Hint) (o : Orient) : State → Out := loadOp 1 (sextW 8) d a i h o
def execLdZ8 (d a : Reg) (i : BitVec 12) (h : Hint) (o : Orient) : State → Out := loadOp 1 zextW d a i h o
def execLdS16 (d a : Reg) (i : BitVec 12) (h : Hint) (o : Orient) : State → Out := loadOp 2 (sextW 16) d a i h o
def execLdZ16 (d a : Reg) (i : BitVec 12) (h : Hint) (o : Orient) : State → Out := loadOp 2 zextW d a i h o
def execLdS32 (d a : Reg) (i : BitVec 12) (h : Hint) (o : Orient) : State → Out := loadOp 4 (sextW 32) d a i h o
def execLdZ32 (d a : Reg) (i : BitVec 12) (h : Hint) (o : Orient) : State → Out := loadOp 4 zextW d a i h o
def execLd64 (d a : Reg) (i : BitVec 12) (h : Hint) : State → Out := loadOp 8 zextW d a i h .row

/-- A scalar store of the low n bytes of X[d]. -/
def storeOp (n : Nat) (d a : Reg) (i : BitVec 12) (h : Hint) (o : Orient) : State → Out := finish do
  let ea ← ask fun s => addImm (s.readX a) i
  let v ← ask fun s => (s.readX d).toNat % 2 ^ (8 * n)
  storeScalar ea n o h v
  upd State.advance
def execSt8 (d a : Reg) (i : BitVec 12) (h : Hint) (o : Orient) : State → Out := storeOp 1 d a i h o
def execSt16 (d a : Reg) (i : BitVec 12) (h : Hint) (o : Orient) : State → Out := storeOp 2 d a i h o
def execSt32 (d a : Reg) (i : BitVec 12) (h : Hint) (o : Orient) : State → Out := storeOp 4 d a i h o
def execSt64 (d a : Reg) (i : BitVec 12) (h : Hint) : State → Out := storeOp 8 d a i h .row

def accBytes : AccSize → Nat
  | .b8 => 1
  | .b16 => 2
  | .b32 => 4
  | .b64 => 8
/-- The acquire read of a hart: its checks, waits, value, and the sector its event latch watches (spec/11 R230). -/
def acquireLoad (ea : Word) (n : Nat) (c : Scope) : Op Nat := do
  let t ← scalarCheck ea n .row .load 0
  watch ea n true false
  awaitInterlock (spanOf ea n) .empty
  awaitEmission t.pa n
  let (v, bad) ← (fun s => let (v, p, s) := s.acquireRead s.cur t n c; .ok ((v, p), s) : Op (Nat × Bool))
  upd fun s => ((s.chargeMe 1 1).bumpMe 3 1).updMe fun h => { h with lastAcq := some (sectorOf t.pa) }
  if bad then consumePoison ea else pure v
def execLdAcq (d a : Reg) (z : AccSize) (i : BitVec 10) (c : Scope) : State → Out := finish do
  let ea ← ask fun s => addImm (s.readX a) i
  let v ← acquireLoad ea (accBytes z) c
  upd fun s => (s.capture s.cur 6 s.opCycles).retire d (zextW v)
/-- A release waits for the hart's earlier accesses, interlock entries and emission records. -/
def execStRel (d a : Reg) (z : AccSize) (i : BitVec 10) (c : Scope) : State → Out := finish do
  let n := accBytes z
  let ea ← ask fun s => addImm (s.readX a) i
  let v ← ask fun s => (s.readX d).toNat % 2 ^ (8 * n)
  let t ← scalarCheck ea n .row .store n
  watch ea n false true
  awaitInterlock .empty (spanOf ea n)
  awaitRelease
  upd fun s => ((s.releaseWrite s.cur t n c v).chargeMe 1 1).bumpMe 4 1
  upd State.advance

end Sys2Proof.Machine
end

