-- ==== Sys2Proof/Machine/RowConv.lean ====
section
/-!
DEFINITION. Row conversions, special functions and sliced rows (spec/05 R113, R114, R116 to R119).
-/
namespace Sys2Proof.Machine

def execVcvt (h : BHead) (t u : ETy) (rm : Rm) (d : Reg) (a : Src) (m : Option Reg) : State → Out :=
  rowResult h [u] t d m fun r x i => convert r.cap.fpctl rm t u (rowGet r x u a.r i)
def execVclass (h : BHead) (t : ETy) (d : Reg) (a : Src) : State → Out :=
  rowOne h t d a none fun c v =>
    let (k, fl) := classOf (tyFmtD t) c v
    { bits := k, fl := fl }
def execVrcp (h : BHead) (rm : Rm) (d : Reg) (a : Src) (m : Option Reg) : State → Out :=
  rowOne h .f32 d a m fun c v => onOne .f32 c (fRcp c rm) v
def execVrsqrt (h : BHead) (rm : Rm) (d : Reg) (a : Src) (m : Option Reg) : State → Out :=
  rowOne h .f32 d a m fun c v => onOne .f32 c (fRsqrt c rm) v
def execVexp2 (h : BHead) (rm : Rm) (d : Reg) (a : Src) (m : Option Reg) : State → Out :=
  rowOne h .f32 d a m fun c v => onOne .f32 c (fExp2 c rm) v
def execVlog2 (h : BHead) (rm : Rm) (d : Reg) (a : Src) (m : Option Reg) : State → Out :=
  rowOne h .f32 d a m fun c v => onOne .f32 c (fLog2 c rm) v

/-- A sliced word of two sources (spec/05 R117). -/
def slicedTwo (h : BHead) (d : Reg) (a b : Src) (m : Option Reg) (f : Int → Int → Int) : State → Out :=
  rowResult h [] .q d m fun r x i =>
    satTo r.qs r.qw (f (qval r (rowGet r x .q a.r i)) (qval r (rowGet r x .q b.r i)))
def execVqadd (h : BHead) (d : Reg) (a b : Src) (m : Option Reg) : State → Out := slicedTwo h d a b m (· + ·)
def execVqmul (h : BHead) (d : Reg) (a b : Src) (m : Option Reg) : State → Out := slicedTwo h d a b m (· * ·)
def execVqpack (h : BHead) (u : ETy) (d : Reg) (a : Src) (m : Option Reg) : State → Out :=
  rowResult h [u] .q d m fun r x i => satTo r.qs r.qw (tyInt u (rowGet r x u a.r i))
def execVqunpack (h : BHead) (t : ETy) (d : Reg) (a : Src) : State → Out :=
  rowResult h [.q] t d none fun r x i => { satInt t (qval r (rowGet r x .q a.r i)) with mark := false }
def execVscale (h : BHead) (t : ETy) (rm : Rm) (d : Reg) (a : Src) (k : KReg) (m : Option Reg) : State → Out :=
  rowResult h [] t d m fun r x i =>
    let e := x.scale k.toNat (i / 32)
    let v := rowGet r x t a.r i
    match tyFmt t with
    | some f => scaleFloat f r.cap.fpctl rm e v
    | none => scaleSliced r.qs r.qw e v

end Sys2Proof.Machine
end

