-- ==== Sys2Proof/Machine/RowLogic.lean ====
section
/-!
DEFINITION. Row logic, shifts, counts, moving and selecting (spec/05 R107, R115).
-/
namespace Sys2Proof.Machine

/-- A row word that acts on the bit patterns of two elements: no mark, no flag. -/
def bitsTwo (h : BHead) (t : ETy) (d : Reg) (a b : Src) (f : Nat → Nat → Nat) : State → Out :=
  rowResult h [] t d none fun r x i => { bits := f (rowGet r x t a.r i) (rowGet r x t b.r i) }
def bitsOne (h : BHead) (t : ETy) (d : Reg) (a : Src) (f : Nat → Nat) : State → Out :=
  rowResult h [] t d none fun r x i => { bits := f (rowGet r x t a.r i) }

def execVand (h : BHead) (t : ETy) (d : Reg) (a b : Src) : State → Out := bitsTwo h t d a b (· &&& ·)
def execVor (h : BHead) (t : ETy) (d : Reg) (a b : Src) : State → Out := bitsTwo h t d a b (· ||| ·)
def execVxor (h : BHead) (t : ETy) (d : Reg) (a b : Src) : State → Out := bitsTwo h t d a b (· ^^^ ·)
def execVnot (h : BHead) (t : ETy) (d : Reg) (a : Src) : State → Out := bitsOne h t d a fun v => 2 ^ tyBits t - 1 - v
/-- The amount is the pattern of vb, unsigned (spec/05 R107). -/
def rowShl (w v n : Nat) : Nat := if n < w then v * 2 ^ n % 2 ^ w else 0
def rowShr (w v n : Nat) : Nat := if n < w then v / 2 ^ n else 0
def rowSra (t : ETy) (v n : Nat) : Nat :=
  let w := tyBits t
  if !tySigned t then rowShr w v n
  else wrapN w (tyInt t v / ((2 ^ min n w : Nat) : Int))
def execVshl (h : BHead) (t : ETy) (d : Reg) (a b : Src) : State → Out := bitsTwo h t d a b (rowShl (tyBits t))
def execVshr (h : BHead) (t : ETy) (d : Reg) (a b : Src) : State → Out := bitsTwo h t d a b (rowShr (tyBits t))
def execVsra (h : BHead) (t : ETy) (d : Reg) (a b : Src) : State → Out := bitsTwo h t d a b (rowSra t)
def execVpopc (h : BHead) (t : ETy) (d : Reg) (a : Src) : State → Out := bitsOne h t d a (onesIn (tyBits t))
def execVclz (h : BHead) (t : ETy) (d : Reg) (a : Src) : State → Out := bitsOne h t d a (leadingZeros (tyBits t))

/-- vsel (spec/05 R115): a selector of the probability class is a row fault with its number as value. -/
def execVsel (h : BHead) (t : ETy) (d : Reg) (a b : Src) (n : Reg) : State → Out :=
  rowWord h [t] true 2 fun r i => do
    needMask (some n)
    upd fun s =>
      let x := s.me
      (s.rowStore r t d none i { bits := rowGet r x t (if (x.pred n).bit i then a.r else b.r) i }).rowNext
/-- The value vli stores (spec/05 R115). -/
def liRes (ctl : BitVec 10) (t : ETy) (i : BitVec 12) : Res :=
  match tyFmt t with
  | none => { satInt t i.toInt with mark := false }
  | some f =>
    let (b, fl) := roundVal f (resultFlush ctl f) .rne (ofInt i.toInt)
    { bits := b, fl := fl }
def execVli (h : BHead) (t : ETy) (d : Reg) (i : BitVec 12) : State → Out :=
  rowResult h [] t d none fun r _ _ => liRes r.cap.fpctl t i
def execVmov (h : BHead) (t : ETy) (d : Reg) (a : Src) : State → Out := bitsOne h t d a id

end Sys2Proof.Machine
end

