-- ==== Sys2Proof/Machine/Scalar.lean ====
section
/-!
DEFINITION. The scalar integer words (spec/07 R151 to R153).
-/
namespace Sys2Proof.Machine

/-- A two-source word of the scalar integer group without flags. -/
def intOp (f : Int → Int → Int) (sz : ISize) (d a b : Reg) (s : State) : Out :=
  .next (s.retire d (szResult sz (f (szVal sz (s.readX a)) (szVal sz (s.readX b)))))
/-- A logic word: bitwise on the low w bits. -/
def bitOp (f : Nat → Nat → Nat) (sz : ISize) (d a b : Reg) (s : State) : Out :=
  .next (s.retire d (szResult sz (f (szBits sz (s.readX a)) (szBits sz (s.readX b)))))
/-- A shift by X[t], unsigned. -/
def shiftOp (f : ISize → Word → Nat → Int) (sz : ISize) (d a b : Reg) (s : State) : Out :=
  .next (s.retire d (szResult sz (f sz (s.readX a) (s.readX b).toNat)))
/-- A counting word. -/
def countOp (f : Nat → Nat → Nat) (sz : ISize) (d a : Reg) (s : State) : Out :=
  .next (s.retire d (szResult sz (f (szWidth sz) (szBits sz (s.readX a)))))

def execAdd (sz : ISize) (d a b : Reg) (s : State) : Out := intOp (· + ·) sz d a b s
def execSub (sz : ISize) (d a b : Reg) (s : State) : Out := intOp (· - ·) sz d a b s
def execMul (sz : ISize) (d a b : Reg) (s : State) : Out := intOp (· * ·) sz d a b s
def execMulh (sz : ISize) (d a b : Reg) (s : State) : Out :=
  intOp (fun x y => x * y / ((2 ^ szWidth sz : Nat) : Int)) sz d a b s
def execDiv (sz : ISize) (d a b : Reg) (s : State) : Out :=
  let r := divRem sz (szVal sz (s.readX a)) (szVal sz (s.readX b))
  .next (s.retireFlags d (szResult sz r.1) r.2.2)
def execRem (sz : ISize) (d a b : Reg) (s : State) : Out :=
  let r := divRem sz (szVal sz (s.readX a)) (szVal sz (s.readX b))
  .next (s.retireFlags d (szResult sz r.2.1) r.2.2)
def execAnd (sz : ISize) (d a b : Reg) (s : State) : Out := bitOp (· &&& ·) sz d a b s
def execOr (sz : ISize) (d a b : Reg) (s : State) : Out := bitOp (· ||| ·) sz d a b s
def execXor (sz : ISize) (d a b : Reg) (s : State) : Out := bitOp (· ^^^ ·) sz d a b s
def execShl (sz : ISize) (d a b : Reg) (s : State) : Out := shiftOp shiftLeft sz d a b s
def execShr (sz : ISize) (d a b : Reg) (s : State) : Out := shiftOp shiftRight sz d a b s
def execSra (sz : ISize) (d a b : Reg) (s : State) : Out := shiftOp shiftArith sz d a b s
def execClz (sz : ISize) (d a : Reg) (s : State) : Out := countOp leadingZeros sz d a s
def execCtz (sz : ISize) (d a : Reg) (s : State) : Out := countOp trailingZeros sz d a s
def execPopc (sz : ISize) (d a : Reg) (s : State) : Out := countOp onesIn sz d a s
def execMin (sz : ISize) (d a b : Reg) (s : State) : Out := intOp min sz d a b s
def execMax (sz : ISize) (d a b : Reg) (s : State) : Out := intOp max sz d a b s
def execSlt (sz : ISize) (d a b : Reg) (s : State) : Out := intOp (fun x y => if x < y then 1 else 0) sz d a b s
/-- X[d] is read whole, before the write. -/
def execSel (sz : ISize) (d a b : Reg) (s : State) : Out :=
  intOp (fun x y => if s.readX d ≠ 0 then x else y) sz d a b s

-- Immediates (spec/07 R152, R153) -------------------------------------------------------------------------------------------

def execAddi (d a : Reg) (i : BitVec 15) (s : State) : Out := .next (s.retire d (addImm (s.readX a) i))
def execAndi (d a : Reg) (i : BitVec 15) (s : State) : Out := .next (s.retire d (s.readX a &&& i.zeroExtend 64))
def execOri (d a : Reg) (i : BitVec 15) (s : State) : Out := .next (s.retire d (s.readX a ||| i.zeroExtend 64))
def execXori (d a : Reg) (i : BitVec 15) (s : State) : Out := .next (s.retire d (s.readX a ^^^ i.zeroExtend 64))
def execShli (d a : Reg) (n : BitVec 6) (s : State) : Out := .next (s.retire d (s.readX a <<< n.toNat))
def execShri (d a : Reg) (n : BitVec 6) (s : State) : Out := .next (s.retire d (s.readX a >>> n.toNat))
def execSrai (d a : Reg) (n : BitVec 6) (s : State) : Out := .next (s.retire d ((s.readX a).sshiftRight n.toNat))
def execSlti (d a : Reg) (i : BitVec 15) (s : State) : Out :=
  .next (s.retire d (boolWord ((s.readX a).slt (i.signExtend 64))))
def execLhi (d : Reg) (i : BitVec 20) (s : State) : Out := .next (s.retire d (i.signExtend 64 <<< 15))
def execPcrel (d : Reg) (i : BitVec 20) (s : State) : Out := .next (s.retire d (addImm s.me.pc i))

end Sys2Proof.Machine
end

