-- ==== Sys2Proof/Machine/ScalarFloat.lean ====
section
/-!
DEFINITION. The scalar float words (spec/07 R160, R161). Events raise their flags and mark nothing.
-/
namespace Sys2Proof.Machine

/-- A result of a scalar float word, zero-extended, with its flags. -/
def State.retireRes (s : State) (d : Reg) (r : Res) (fl : Flags) : State :=
  s.retireFlags d (BitVec.ofNat 64 r.bits) (fl ||| r.fl)
/-- An operand of the executing hart's scalar float word. -/
def fpOperand (f : FFmt) (s : State) (x : Word) : FVal × Flags := operand (ffmt f) s.me.fpctl (floatBits (ffmt f) x)
/-- A two-source arithmetic word. -/
def fpOp2 (op : Fmt → BitVec 10 → Rm → FVal → FVal → Res) (f : FFmt) (rm : Rm) (d a b : Reg) (s : State) : Out :=
  let x := fpOperand f s (s.readX a)
  let y := fpOperand f s (s.readX b)
  .next (s.retireRes d (op (ffmt f) s.me.fpctl rm x.1 y.1) (x.2 ||| y.2))
def execFadd (f : FFmt) (rm : Rm) (d a b : Reg) (s : State) : Out := fpOp2 fAdd f rm d a b s
def execFsub (f : FFmt) (rm : Rm) (d a b : Reg) (s : State) : Out := fpOp2 fSub f rm d a b s
def execFmul (f : FFmt) (rm : Rm) (d a b : Reg) (s : State) : Out := fpOp2 fMul f rm d a b s
def execFdiv (f : FFmt) (rm : Rm) (d a b : Reg) (s : State) : Out := fpOp2 fDiv f rm d a b s
/-- fsqrt raises nf on an infinite result, that of +∞ included (spec/07 R160). -/
def execFsqrt (f : FFmt) (rm : Rm) (d a : Reg) (s : State) : Out :=
  let x := fpOperand f s (s.readX a)
  .next (s.retireRes d ((fSqrt (ffmt f) s.me.fpctl rm x.1).nf (ffmt f)) x.2)
/-- x · y + old X[d], one rounding. -/
def execFma (f : FFmt) (rm : Rm) (d a b : Reg) (s : State) : Out :=
  let x := fpOperand f s (s.readX a)
  let y := fpOperand f s (s.readX b)
  let z := fpOperand f s (s.readX d)
  .next (s.retireRes d (fFma (ffmt f) s.me.fpctl rm x.1 y.1 z.1) (x.2 ||| y.2 ||| z.2))
def fpMinMax (isMax : Bool) (f : FFmt) (d a b : Reg) (s : State) : Out :=
  .next (s.retireRes d (fMinMax (ffmt f) s.me.fpctl isMax (floatBits (ffmt f) (s.readX a)) (floatBits (ffmt f) (s.readX b))) 0)
def execFmin (f : FFmt) (d a b : Reg) (s : State) : Out := fpMinMax false f d a b s
def execFmax (f : FFmt) (d a b : Reg) (s : State) : Out := fpMinMax true f d a b s
/-- A comparison (spec/06 R129). -/
def fpCmp (holds : FVal → FVal → Bool) (f : FFmt) (d a b : Reg) (s : State) : Out :=
  let x := fpOperand f s (s.readX a)
  let y := fpOperand f s (s.readX b)
  .next (s.retireFlags d (boolWord (holds x.1 y.1)) (x.2 ||| y.2))
def execFcmpEq (f : FFmt) (d a b : Reg) (s : State) : Out := fpCmp (fun x y => condHolds .eq (fCmp x y)) f d a b s
def execFcmpLt (f : FFmt) (d a b : Reg) (s : State) : Out := fpCmp (fun x y => condHolds .lt (fCmp x y)) f d a b s
def execFcmpLe (f : FFmt) (d a b : Reg) (s : State) : Out := fpCmp (fun x y => condHolds .le (fCmp x y)) f d a b s
def execFcmpUn (f : FFmt) (d a b : Reg) (s : State) : Out := fpCmp (fun x y => isNan x || isNan y) f d a b s
def execFclass (f : FFmt) (d a : Reg) (s : State) : Out :=
  let c := classOf (ffmt f) s.me.fpctl (floatBits (ffmt f) (s.readX a))
  .next (s.retireFlags d (BitVec.ofNat 64 c.1) c.2)

/-- The element type of a conversion code. -/
def cvtETy : CvtTy → ETy
  | .f32 => .f32
  | .f16 => .f16
  | .bf16 => .bf16
  | .s64 => .s64
  | .z64 => .z64
  | .s32 => .s32
  | .z32 => .z32
/-- An integer result is sign-extended for .s32; every other result is zero-extended or whole. -/
def cvtWord (t : CvtTy) (b : Nat) : Word :=
  match t with
  | .s32 => BitVec.ofInt 64 (sextN b 32)
  | _ => BitVec.ofNat 64 b
def execFcvt (dst src : CvtTy) (rm : Rm) (d a : Reg) (s : State) : Out :=
  let t := cvtETy src
  let r := convert s.me.fpctl rm (cvtETy dst) t ((s.readX a).toNat % 2 ^ tyBits t)
  .next (s.retireFlags d (cvtWord dst r.bits) r.fl)

end Sys2Proof.Machine
end

