-- ==== Sys2Proof/Machine/Dispatch.lean ====
section
/-!
DEFINITION. The dispatch: one arm per instruction and event.
-/
namespace Sys2Proof.Machine

def exec (i : Instr) (s : State) : Host.Outcome State Fault Refusal :=
  match i with
  | .add sz d x t => Sys2Proof.Machine.execAdd sz d x t s
  | .sub sz d x t => Sys2Proof.Machine.execSub sz d x t s
  | .mul sz d x t => Sys2Proof.Machine.execMul sz d x t s
  | .mulh sz d x t => Sys2Proof.Machine.execMulh sz d x t s
  | .div sz d x t => Sys2Proof.Machine.execDiv sz d x t s
  | .rem sz d x t => Sys2Proof.Machine.execRem sz d x t s
  | .and sz d x t => Sys2Proof.Machine.execAnd sz d x t s
  | .or sz d x t => Sys2Proof.Machine.execOr sz d x t s
  | .xor sz d x t => Sys2Proof.Machine.execXor sz d x t s
  | .shl sz d x t => Sys2Proof.Machine.execShl sz d x t s
  | .shr sz d x t => Sys2Proof.Machine.execShr sz d x t s
  | .sra sz d x t => Sys2Proof.Machine.execSra sz d x t s
  | .clz sz d x => Sys2Proof.Machine.execClz sz d x s
  | .ctz sz d x => Sys2Proof.Machine.execCtz sz d x s
  | .popc sz d x => Sys2Proof.Machine.execPopc sz d x s
  | .min sz d x t => Sys2Proof.Machine.execMin sz d x t s
  | .max sz d x t => Sys2Proof.Machine.execMax sz d x t s
  | .slt sz d x t => Sys2Proof.Machine.execSlt sz d x t s
  | .sel sz d x t => Sys2Proof.Machine.execSel sz d x t s
  | .addi d x im => Sys2Proof.Machine.execAddi d x im s
  | .andi d x im => Sys2Proof.Machine.execAndi d x im s
  | .ori d x im => Sys2Proof.Machine.execOri d x im s
  | .xori d x im => Sys2Proof.Machine.execXori d x im s
  | .shli d x n => Sys2Proof.Machine.execShli d x n s
  | .shri d x n => Sys2Proof.Machine.execShri d x n s
  | .srai d x n => Sys2Proof.Machine.execSrai d x n s
  | .slti d x im => Sys2Proof.Machine.execSlti d x im s
  | .lhi d im => Sys2Proof.Machine.execLhi d im s
  | .pcrel d im => Sys2Proof.Machine.execPcrel d im s
  | .jmp d im => Sys2Proof.Machine.execJmp d im s
  | .jr d x im => Sys2Proof.Machine.execJr d x im s
  | .jtab x t im => Sys2Proof.Machine.execJtab x t im s
  | .beq x t im => Sys2Proof.Machine.execBeq x t im s
  | .bne x t im => Sys2Proof.Machine.execBne x t im s
  | .blt x t im => Sys2Proof.Machine.execBlt x t im s
  | .bge x t im => Sys2Proof.Machine.execBge x t im s
  | .ldS8 d x im h o => Sys2Proof.Machine.execLdS8 d x im h o s
  | .ldZ8 d x im h o => Sys2Proof.Machine.execLdZ8 d x im h o s
  | .ldS16 d x im h o => Sys2Proof.Machine.execLdS16 d x im h o s
  | .ldZ16 d x im h o => Sys2Proof.Machine.execLdZ16 d x im h o s
  | .ldS32 d x im h o => Sys2Proof.Machine.execLdS32 d x im h o s
  | .ldZ32 d x im h o => Sys2Proof.Machine.execLdZ32 d x im h o s
  | .ld64 d x im h => Sys2Proof.Machine.execLd64 d x im h s
  | .st8 d x im h o => Sys2Proof.Machine.execSt8 d x im h o s
  | .st16 d x im h o => Sys2Proof.Machine.execSt16 d x im h o s
  | .st32 d x im h o => Sys2Proof.Machine.execSt32 d x im h o s
  | .st64 d x im h => Sys2Proof.Machine.execSt64 d x im h s
  | .ldAcq d x z im c => Sys2Proof.Machine.execLdAcq d x z im c s
  | .stRel d x z im c => Sys2Proof.Machine.execStRel d x z im c s
  | .fadd f rm d x t => Sys2Proof.Machine.execFadd f rm d x t s
  | .fsub f rm d x t => Sys2Proof.Machine.execFsub f rm d x t s
  | .fmul f rm d x t => Sys2Proof.Machine.execFmul f rm d x t s
  | .fdiv f rm d x t => Sys2Proof.Machine.execFdiv f rm d x t s
  | .fsqrt f rm d x => Sys2Proof.Machine.execFsqrt f rm d x s
  | .fma f rm d x t => Sys2Proof.Machine.execFma f rm d x t s
  | .fmin f d x t => Sys2Proof.Machine.execFmin f d x t s
  | .fmax f d x t => Sys2Proof.Machine.execFmax f d x t s
  | .fcmpEq f d x t => Sys2Proof.Machine.execFcmpEq f d x t s
  | .fcmpLt f d x t => Sys2Proof.Machine.execFcmpLt f d x t s
  | .fcmpLe f d x t => Sys2Proof.Machine.execFcmpLe f d x t s
  | .fcmpUn f d x t => Sys2Proof.Machine.execFcmpUn f d x t s
  | .fcvt dst src rm d x => Sys2Proof.Machine.execFcvt dst src rm d x s
  | .fclass f d x => Sys2Proof.Machine.execFclass f d x s
  | .cget d c => Sys2Proof.Machine.execCget d c s
  | .cset x c => Sys2Proof.Machine.execCset x c s
  | .cswap d x c => Sys2Proof.Machine.execCswap d x c s
  | .fenceAcq c => Sys2Proof.Machine.execFenceAcq c s
  | .fenceRel c => Sys2Proof.Machine.execFenceRel c s
  | .fenceSc c => Sys2Proof.Machine.execFenceSc c s
  | .seal x t => Sys2Proof.Machine.execSeal x t s
  | .unseal x t => Sys2Proof.Machine.execUnseal x t s
  | .crange m x t => Sys2Proof.Machine.execCrange m x t s
  | .cflush x t => Sys2Proof.Machine.execCflush x t s
  | .cinval x t => Sys2Proof.Machine.execCinval x t s
  | .amoAdd ty c d x t => Sys2Proof.Machine.execAmoAdd ty c d x t s
  | .amoFadd ty c d x t => Sys2Proof.Machine.execAmoFadd ty c d x t s
  | .amoMin ty c d x t => Sys2Proof.Machine.execAmoMin ty c d x t s
  | .amoMax ty c d x t => Sys2Proof.Machine.execAmoMax ty c d x t s
  | .amoAnd ty c d x t => Sys2Proof.Machine.execAmoAnd ty c d x t s
  | .amoOr ty c d x t => Sys2Proof.Machine.execAmoOr ty c d x t s
  | .amoXor ty c d x t => Sys2Proof.Machine.execAmoXor ty c d x t s
  | .amoSwap ty c d x t => Sys2Proof.Machine.execAmoSwap ty c d x t s
  | .amoCas ty c d x t => Sys2Proof.Machine.execAmoCas ty c d x t s
  | .cp od os d x t => Sys2Proof.Machine.execCp od os d x t s
  | .abarInit x t => Sys2Proof.Machine.execAbarInit x t s
  | .abarExpect x t => Sys2Proof.Machine.execAbarExpect x t s
  | .abarArrive x => Sys2Proof.Machine.execAbarArrive x s
  | .abarWait x t => Sys2Proof.Machine.execAbarWait x t s
  | .gbar => Sys2Proof.Machine.execGbar s
  | .glaunch d x => Sys2Proof.Machine.execGlaunch d x s
  | .gwait x t => Sys2Proof.Machine.execGwait x t s
  | .wadd x t => Sys2Proof.Machine.execWadd x t s
  | .wtake d x => Sys2Proof.Machine.execWtake d x s
  | .tidle => Sys2Proof.Machine.execTidle s
  | .tquiet d => Sys2Proof.Machine.execTquiet d s
  | .trap x => Sys2Proof.Machine.execTrap x s
  | .tret => Sys2Proof.Machine.execTret s
  | .halt => Sys2Proof.Machine.execHalt s
  | .wfe => Sys2Proof.Machine.execWfe s
  | .vown d => Sys2Proof.Machine.execVown d s
  | .vsave x => Sys2Proof.Machine.execVsave x s
  | .vrest x => Sys2Proof.Machine.execVrest x s
  | .tmark x t => Sys2Proof.Machine.execTmark x t s
  | .tflt x => Sys2Proof.Machine.execTflt x s
  | .cexp x => Sys2Proof.Machine.execCexp x s
  | .prog x => Sys2Proof.Machine.execProg x s
  | .lcap d x => Sys2Proof.Machine.execLcap d x s
  | .jput x => Sys2Proof.Machine.execJput x s
  | .jsync x => Sys2Proof.Machine.execJsync x s
  | .emit x t => Sys2Proof.Machine.execEmit x t s
  | .jtrunc x => Sys2Proof.Machine.execJtrunc x s
  | .jreplay x => Sys2Proof.Machine.execJreplay x s
  | .setvl keep w d x => Sys2Proof.Machine.execSetvl keep w d x s
  | .setvtype x => Sys2Proof.Machine.execSetvtype x s
  | .vf im => Sys2Proof.Machine.execVf im s
  | .vdrain im => Sys2Proof.Machine.execVdrain im s
  | .vld d c m => Sys2Proof.Machine.execVld d c m s
  | .vst a c m => Sys2Proof.Machine.execVst a c m s
  | .vstMc a c m => Sys2Proof.Machine.execVstMc a c m s
  | .vlff d m => Sys2Proof.Machine.execVlff d m s
  | .vldx d b m => Sys2Proof.Machine.execVldx d b m s
  | .vstx a b m => Sys2Proof.Machine.execVstx a b m s
  | .scommit p => Sys2Proof.Machine.execScommit p s
  | .sabort => Sys2Proof.Machine.execSabort s
  | .vmvx t d a c => Sys2Proof.Machine.execVmvx t d a c s
  | .vbcast t d x => Sys2Proof.Machine.execVbcast t d x s
  | .vredAdd t p d a => Sys2Proof.Machine.execVredAdd t p d a s
  | .vredMin t p d a => Sys2Proof.Machine.execVredMin t p d a s
  | .vredMax t p d a => Sys2Proof.Machine.execVredMax t p d a s
  | .vredAnd t p d a => Sys2Proof.Machine.execVredAnd t p d a s
  | .vredOr t p d a => Sys2Proof.Machine.execVredOr t p d a s
  | .vredXor t p d a => Sys2Proof.Machine.execVredXor t p d a s
  | .vminidx t p d a => Sys2Proof.Machine.execVminidx t p d a s
  | .vmaxidx t p d a => Sys2Proof.Machine.execVmaxidx t p d a s
  | .vscanAdd t p d a => Sys2Proof.Machine.execVscanAdd t p d a s
  | .vscanMin t p d a => Sys2Proof.Machine.execVscanMin t p d a s
  | .vscanMax t p d a => Sys2Proof.Machine.execVscanMax t p d a s
  | .vscanAnd t p d a => Sys2Proof.Machine.execVscanAnd t p d a s
  | .vscanOr t p d a => Sys2Proof.Machine.execVscanOr t p d a s
  | .vscanXor t p d a => Sys2Proof.Machine.execVscanXor t p d a s
  | .vperm t d a b => Sys2Proof.Machine.execVperm t d a b s
  | .vcompress t d a p => Sys2Proof.Machine.execVcompress t d a p s
  | .vexpand t d a p => Sys2Proof.Machine.execVexpand t d a p s
  | .vslideUp t d a c => Sys2Proof.Machine.execVslideUp t d a c s
  | .vslideDown t d a c => Sys2Proof.Machine.execVslideDown t d a c s
  | .vfirst d a => Sys2Proof.Machine.execVfirst d a s
  | .vpcount d a => Sys2Proof.Machine.execVpcount d a s
  | .menter x => Sys2Proof.Machine.execMenter x s
  | .mleave => Sys2Proof.Machine.execMleave s
  | .mzero z => Sys2Proof.Machine.execMzero z s
  | .mop t z rm k a b => Sys2Proof.Machine.execMop t z rm k a b s
  | .mtile t z rm k a b => Sys2Proof.Machine.execMtile t z rm k a b s
  | .mdrain o t z rm d c => Sys2Proof.Machine.execMdrain o t z rm d c s
  | .mdrainB o t z rm c => Sys2Proof.Machine.execMdrainB o t z rm c s
  | .mld o t z x c => Sys2Proof.Machine.execMld o t z x c s
  | .mst o t z rm x c => Sys2Proof.Machine.execMst o t z rm x c s
  | .mbwdX t rm k a b => Sys2Proof.Machine.execMbwdX t rm k a b s
  | .mbwdW t rm k a b => Sys2Proof.Machine.execMbwdW t rm k a b s
  | .mbwdBoth t rm k a b => Sys2Proof.Machine.execMbwdBoth t rm k a b s
  | .vadd h t rm d a b m => Sys2Proof.Machine.execVadd h t rm d a b m s
  | .vsub h t rm d a b m => Sys2Proof.Machine.execVsub h t rm d a b m s
  | .vmul h t rm d a b m => Sys2Proof.Machine.execVmul h t rm d a b m s
  | .vmulh h t d a b => Sys2Proof.Machine.execVmulh h t d a b s
  | .vmac h t rm d a b m => Sys2Proof.Machine.execVmac h t rm d a b m s
  | .vfma h t rm d a b c m => Sys2Proof.Machine.execVfma h t rm d a b c m s
  | .vdiv h t rm d a b m => Sys2Proof.Machine.execVdiv h t rm d a b m s
  | .vrem h t d a b m => Sys2Proof.Machine.execVrem h t d a b m s
  | .vmin h t d a b => Sys2Proof.Machine.execVmin h t d a b s
  | .vmax h t d a b => Sys2Proof.Machine.execVmax h t d a b s
  | .vabs h t d a m => Sys2Proof.Machine.execVabs h t d a m s
  | .vneg h t d a m => Sys2Proof.Machine.execVneg h t d a m s
  | .vsqrt h t rm d a => Sys2Proof.Machine.execVsqrt h t rm d a s
  | .vand h t d a b => Sys2Proof.Machine.execVand h t d a b s
  | .vor h t d a b => Sys2Proof.Machine.execVor h t d a b s
  | .vxor h t d a b => Sys2Proof.Machine.execVxor h t d a b s
  | .vnot h t d a => Sys2Proof.Machine.execVnot h t d a s
  | .vshl h t d a b => Sys2Proof.Machine.execVshl h t d a b s
  | .vshr h t d a b => Sys2Proof.Machine.execVshr h t d a b s
  | .vsra h t d a b => Sys2Proof.Machine.execVsra h t d a b s
  | .vpopc h t d a => Sys2Proof.Machine.execVpopc h t d a s
  | .vclz h t d a => Sys2Proof.Machine.execVclz h t d a s
  | .vsel h t d a b n => Sys2Proof.Machine.execVsel h t d a b n s
  | .vli h t d im => Sys2Proof.Machine.execVli h t d im s
  | .vmov h t d a => Sys2Proof.Machine.execVmov h t d a s
  | .vcvt h t u rm d a m => Sys2Proof.Machine.execVcvt h t u rm d a m s
  | .vclass h t d a => Sys2Proof.Machine.execVclass h t d a s
  | .vrcp h rm d a m => Sys2Proof.Machine.execVrcp h rm d a m s
  | .vrsqrt h rm d a m => Sys2Proof.Machine.execVrsqrt h rm d a m s
  | .vexp2 h rm d a m => Sys2Proof.Machine.execVexp2 h rm d a m s
  | .vlog2 h rm d a m => Sys2Proof.Machine.execVlog2 h rm d a m s
  | .vqadd h d a b m => Sys2Proof.Machine.execVqadd h d a b m s
  | .vqmul h d a b m => Sys2Proof.Machine.execVqmul h d a b m s
  | .vqpack h u d a m => Sys2Proof.Machine.execVqpack h u d a m s
  | .vqunpack h t d a => Sys2Proof.Machine.execVqunpack h t d a s
  | .vscale h t rm d a k m => Sys2Proof.Machine.execVscale h t rm d a k m s
  | .vcmp h cc t d a b => Sys2Proof.Machine.execVcmp h cc t d a b s
  | .pand h d a b => Sys2Proof.Machine.execPand h d a b s
  | .por h d a b => Sys2Proof.Machine.execPor h d a b s
  | .pxor h d a b => Sys2Proof.Machine.execPxor h d a b s
  | .pnot h d a => Sys2Proof.Machine.execPnot h d a s
  | .pmov h d a => Sys2Proof.Machine.execPmov h d a s
  | .psgt h t d a b => Sys2Proof.Machine.execPsgt h t d a b s
  | .psge h t d a b => Sys2Proof.Machine.execPsge h t d a b s
  | .pslt h t d a b => Sys2Proof.Machine.execPslt h t d a b s
  | .psle h t d a b => Sys2Proof.Machine.execPsle h t d a b s
  | .pset h d a => Sys2Proof.Machine.execPset h d a s
  | .pind cv d v => Sys2Proof.Machine.execPind cv d v s
  | .pcollapse cv d a => Sys2Proof.Machine.execPcollapse cv d a s
  | .vblend cv t rm d a b c => Sys2Proof.Machine.execVblend cv t rm d a b c s
  | .vbgrad h t rm d g a b => Sys2Proof.Machine.execVbgrad h t rm d g a b s
  | .psgrad h t rm d g a b => Sys2Proof.Machine.execPsgrad h t rm d g a b s
  | .vlde h o t d a im => Sys2Proof.Machine.execVlde h o t d a im s
  | .vste h o t a b im => Sys2Proof.Machine.execVste h o t a b im s
  | .vamo h op c ty d a b n => Sys2Proof.Machine.execVamo h op c ty d a b n s
  | .vdefer h d a b c im => Sys2Proof.Machine.execVdefer h d a b c im s
  | .vfetch h im => Sys2Proof.Machine.execVfetch h im s
  | .vstop => Sys2Proof.Machine.execVstop s
  | .vectorQueueEntryStart h => Sys2Proof.Machine.execVectorQueueEntryStart h s
  | .laneGrant h => Sys2Proof.Machine.execLaneGrant h s
  | .laneChange h => Sys2Proof.Machine.execLaneChange h s
  | .arrayGrant h => Sys2Proof.Machine.execArrayGrant h s
  | .preemptionRequest h => Sys2Proof.Machine.execPreemptionRequest h s
  | .preemptionTaken h => Sys2Proof.Machine.execPreemptionTaken h s
  | .preemptionTimeout h => Sys2Proof.Machine.execPreemptionTimeout h s
  | .stopMessage set g => Sys2Proof.Machine.execStopMessage set g s
  | .wfeWake h => Sys2Proof.Machine.execWfeWake h s
  | .wfeTimeout h => Sys2Proof.Machine.execWfeTimeout h s
  | .waitingCregAccess h op d x c => Sys2Proof.Machine.execWaitingCregAccess h op d x c s
  | .kwinAccess h op d x => Sys2Proof.Machine.execKwinAccess h op d x s
  | .ptempWrite h v => Sys2Proof.Machine.execPtempWrite h v s
  | .tinvWrite v => Sys2Proof.Machine.execTinvWrite v s
  | .cnvalWrite h v => Sys2Proof.Machine.execCnvalWrite h v s
  | .lcfgWrite core j v => Sys2Proof.Machine.execLcfgWrite core j v s
  | .residencyWrite cluster c v => Sys2Proof.Machine.execResidencyWrite cluster c v s
  | .tallowWrite h v => Sys2Proof.Machine.execTallowWrite h v s
  | .ctbaseWrite v => Sys2Proof.Machine.execCtbaseWrite v s
  | .streamEnable n v => Sys2Proof.Machine.execStreamEnable n v s
  | .streamDisable n v => Sys2Proof.Machine.execStreamDisable n v s
  | .jcfgOff v => Sys2Proof.Machine.execJcfgOff v s
  | .jcfgEnable v => Sys2Proof.Machine.execJcfgEnable v s
  | .jcfgMove v => Sys2Proof.Machine.execJcfgMove v s
  | .mgmtWindowWrite r v => Sys2Proof.Machine.execMgmtWindowWrite r v s
  | .energyTick core => Sys2Proof.Machine.execEnergyTick core s
  | .launchListRead d => Sys2Proof.Machine.execLaunchListRead d s
  | .gangDispatch d slots => Sys2Proof.Machine.execGangDispatch d slots s
  | .waveHartStart d slot => Sys2Proof.Machine.execWaveHartStart d slot s
  | .gangCompletion g => Sys2Proof.Machine.execGangCompletion g s
  | .gbarPass g => Sys2Proof.Machine.execGbarPass g s
  | .abarWaitEnd h => Sys2Proof.Machine.execAbarWaitEnd h s
  | .gwaitEnd h => Sys2Proof.Machine.execGwaitEnd h s
  | .copyRequestStart k => Sys2Proof.Machine.execCopyRequestStart k s
  | .copyUnitLand k error => Sys2Proof.Machine.execCopyUnitLand k error s
  | .interlockWaitEnd h => Sys2Proof.Machine.execInterlockWaitEnd h s
  | .atomicRequestArrival h => Sys2Proof.Machine.execAtomicRequestArrival h s
  | .atomicService k => Sys2Proof.Machine.execAtomicService k s
  | .lineFill core key victim => Sys2Proof.Machine.execLineFill core key victim s
  | .dirtyDrain k key drop => Sys2Proof.Machine.execDirtyDrain k key drop s
  | .dirtyAgeDrain k key => Sys2Proof.Machine.execDirtyAgeDrain k key s
  | .remoteCopyExpiry k key => Sys2Proof.Machine.execRemoteCopyExpiry k key s
  | .homeDrainAccept n => Sys2Proof.Machine.execHomeDrainAccept n s
  | .invalidation k pa => Sys2Proof.Machine.execInvalidation k pa s
  | .drainRequest core => Sys2Proof.Machine.execDrainRequest core s
  | .translationWalk h va kind badRead => Sys2Proof.Machine.execTranslationWalk h va kind badRead s
  | .columnLineFetch k key => Sys2Proof.Machine.execColumnLineFetch k key s
  | .mscMissFill stack line mask victim => Sys2Proof.Machine.execMscMissFill stack line mask victim s
  | .dramUncorrectableError pa r => Sys2Proof.Machine.execDramUncorrectableError pa r s
  | .remapSegmentError stack seg => Sys2Proof.Machine.execRemapSegmentError stack seg s
  | .cxlPoisonRead port pa r => Sys2Proof.Machine.execCxlPoisonRead port pa r s
  | .flitCrcError l r => Sys2Proof.Machine.execFlitCrcError l r s
  | .hotPageEpoch d => Sys2Proof.Machine.execHotPageEpoch d s
  | .pageMigration d h va => Sys2Proof.Machine.execPageMigration d h va s
  | .migrationAbandon d page => Sys2Proof.Machine.execMigrationAbandon d page s
  | .hostRead port pa n => Sys2Proof.Machine.execHostRead port pa n s
  | .hostWrite port pa bytes => Sys2Proof.Machine.execHostWrite port pa bytes s
  | .hostWriteRelease port pa bytes => Sys2Proof.Machine.execHostWriteRelease port pa bytes s
  | .hostReadAcquire port pa n => Sys2Proof.Machine.execHostReadAcquire port pa n s
  | .rdmaWrite e qp va bytes => Sys2Proof.Machine.execRdmaWrite e qp va bytes s
  | .rdmaWriteWithImmediate e qp va bytes imm => Sys2Proof.Machine.execRdmaWriteWithImmediate e qp va bytes imm s
  | .haltRegisterRaise ten => Sys2Proof.Machine.execHaltRegisterRaise ten s
  | .engineHaltStop engine ten => Sys2Proof.Machine.execEngineHaltStop engine ten s
  | .haltRegisterLower ten => Sys2Proof.Machine.execHaltRegisterLower ten s
  | .thermalTrip d => Sys2Proof.Machine.execThermalTrip d s
  | .powerLimit d on => Sys2Proof.Machine.execPowerLimit d on s
  | .moduleReset imagesOk => Sys2Proof.Machine.execModuleReset imagesOk s
  | .supervisorStart entry lists image => Sys2Proof.Machine.execSupervisorStart entry lists image s
  | .attestationQuote nonce => Sys2Proof.Machine.execAttestationQuote nonce s
  | .recordAccept d => Sys2Proof.Machine.execRecordAccept d s
  | .reelStallEnd h => Sys2Proof.Machine.execReelStallEnd h s
  | .counterSweep d => Sys2Proof.Machine.execCounterSweep d s
  | .timebaseLock base => Sys2Proof.Machine.execTimebaseLock base s
  | .grandmasterLoss e => Sys2Proof.Machine.execGrandmasterLoss e s
  | .timePortSelect e => Sys2Proof.Machine.execTimePortSelect e s
  | .journalAck c byNew => Sys2Proof.Machine.execJournalAck c byNew s
  | .jsyncEnd h => Sys2Proof.Machine.execJsyncEnd h s
  | .emissionRecordWrite c => Sys2Proof.Machine.execEmissionRecordWrite c s
  | .partnerLost c => Sys2Proof.Machine.execPartnerLost c s
  | .newPartnerUnreachable c => Sys2Proof.Machine.execNewPartnerUnreachable c s
  | .ieee1588EventMessage e ingress offset => Sys2Proof.Machine.execIeee1588EventMessage e ingress offset s
  | .ethernetFrameError e r => Sys2Proof.Machine.execEthernetFrameError e r s

end Sys2Proof.Machine
end

