-- ==== Sys2Proof/Machine/Queue.lean ====
section
/-!
DEFINITION. The vector queue (spec/08 R164): words that issue behind entries that are not complete, their entries, and the
start of an entry (log 3). Atomic requests that reach their engines in one cycle (spec/13 R272), and what each cycle counts.
-/
namespace Sys2Proof.Machine

/-- A completion mask armed by tret is for the next word only, and only for vldx and vstx (spec/11 R225): any other word, one that
is no instruction too, ignores it. -/
def State.disarm (s : State) (i : Option Instr) : State :=
  match i with
  | some (.vldx _ _ _) | some (.vstx _ _ _) => s
  | _ => if s.me.armed.isSome then s.updMe fun h => { h with armed := none } else s

-- Which words take an entry ----------------------------------------------------------------------------------------------------

/-- Words that take an entry of the vector queue (spec/08 R164). -/
def takesEntry : Instr → Bool
  | .vf _ | .vdrain _ | .vld .. | .vst .. | .vstMc .. | .vlff .. | .vldx .. | .vstx .. | .scommit _ | .sabort
  | .vmvx .. | .vbcast .. | .vredAdd .. | .vredMin .. | .vredMax .. | .vredAnd .. | .vredOr .. | .vredXor ..
  | .vminidx .. | .vmaxidx .. | .vscanAdd .. | .vscanMin .. | .vscanMax .. | .vscanAnd .. | .vscanOr .. | .vscanXor ..
  | .vperm .. | .vcompress .. | .vexpand .. | .vslideUp .. | .vslideDown .. | .vfirst .. | .vpcount .. | .menter _
  | .mleave | .mzero _ | .mop .. | .mtile .. | .mdrain .. | .mdrainB .. | .mld .. | .mst .. | .mbwdX .. | .mbwdW ..
  | .mbwdBoth .. => true
  | .cget _ c | .cset _ c | .cswap _ _ c => cregOf c == some .kwin
  | _ => false
/-- Entries whose result the issue of a later word reads: a scalar register, vlen or mvlen, the mode. Until they are
complete the operands of the next word are not available (spec/07 R148, R162). -/
def steersIssue : Instr → Bool
  | .vlff .. | .vmvx .. | .vredAdd .. | .vredMin .. | .vredMax .. | .vredAnd .. | .vredOr .. | .vredXor .. | .vminidx ..
  | .vmaxidx .. | .vfirst .. | .vpcount .. | .menter _ | .mleave | .cget .. | .cswap .. => true
  | _ => false
/-- tmark and jput do not wait for the queue (spec/18 R349, spec/19 R389). -/
def isMark : Instr → Bool
  | .tmark _ _ | .jput _ => true
  | _ => false
/-- The entries a hart's queue holds: the run in progress is one, a mark is none. -/
def Hart.places (x : Hart) : Nat := (x.queue.filter fun e => e.mark.isNone).length + if x.run.isSome then 1 else 0
def Hart.steered (x : Hart) : Bool := x.queue.any fun e => (e.word.map steersIssue).getD false

-- Issue behind entries -------------------------------------------------------------------------------------------------------------

/-- Whether an entry before a scommit may still change the buffer. -/
def fillsBuffer (e : QEntry) : Bool :=
  match e.word with
  | none => true
  | some i => match i with
    | .vst .. | .vstMc .. | .vstx .. | .vf _ | .vdrain _ | .scommit _ | .sabort => true
    | _ => false
/-- The read and write ranges of the interlock entry that a word allocates at its issue, if it allocates one (spec/13 R264). The
bytes of a scommit behind entries that may change the buffer are not known yet: all memory stands for them. -/
def State.entryRanges (s : State) (i : Instr) : Option (Range × Range) × State :=
  let x := s.me
  let closure := fun (off : BitVec 20) => match s.walkClosure s.cur 33 0 [] [(branchTarget x.pc off).toNat] with
    | (.ok words, s) => (if rowMemoryIn words then some (Range.all, Range.all) else none, s)
    | (.error _, s) => (none, s)
  match i with
  | .vld _ c m => (some (rangeOfAcc (accesses x m c x.rows), .empty), s)
  | .vlff _ m => (some (rangeOfAcc (accesses x m 0 x.rows), .empty), s)
  | .vldx _ _ _ => (some (.all, .empty), s)
  | .scommit p =>
    let sel := fun (i : Nat) => match p with
      | none => true
      | some q => decide (i < 256 * x.lanes) && (x.pred q.p).bit i != q.neg
    (some (.empty, if x.run.isSome || x.queue.any fillsBuffer then .all else commitRange (committed x.buffer sel)), s)
  | .mld o t _ a c => (some (rangeOfAcc (tileAccesses x o t a c), .empty), s)
  | .mst o t _ _ a c => (some (.empty, rangeOfAcc (tileAccesses x o t a c)), s)
  | .cp _ _ d a t =>
    let n := (x.readX t).toNat % 2 ^ 32
    (some (spanOf (x.readX a) n, spanOf (x.readX d) n), s)
  | .vf off | .vdrain off => closure off
  | _ => (none, s)
/-- The word at the pc enters the queue: what it uses is captured, and the hart goes on at the next word. One that needs an
interlock entry while all 32 are taken stalls the issue (spec/13 R264). -/
def State.queueWord (s : State) (i : Instr) : State :=
  let (ranges, s) := s.entryRanges i
  if ranges.isSome && decide (32 ≤ s.myCore.interlocks.length) then s.updMe fun h => { h with tableStall := true }
  else
    let x := s.me
    let e : QEntry :=
      { issuePc := x.pc.toNat, cap := x.capture, word := some i, holds := ranges.isSome,
        mark := if isMark i then some (s.tstamp (dieOf s.cur)) else none }
    let s := match ranges with
      | none => s
      | some (rd, wr) => s.updCore (coreOf s.cur) fun c => { c with interlocks := c.interlocks ++ [(⟨s.cur, 0, rd, wr⟩ : Interlock)] }
    s.updMe fun h =>
      { h with pc := h.pc + 4, queue := h.queue ++ [e], tableStall := false, marks := h.marks + if isMark i then 1 else 0 }
/-- A hart whose queue is not empty issues its next word: a word of the queue once an entry is free, a tmark or a jput at once;
a hart held by Reel issues none, and is stalled (spec/18 R356). Every other word keeps its effects pending until the entries
before it can no longer trap (spec/11 R219): here it waits for them (log 3). -/
def issueAhead : State → Out := fun s0 =>
  let s := s0.endHold s0.cur
  let x := s.me
  if !s.runs s.cur || x.drained || x.wait == .held || x.wait == .reel || x.steered || decide (s.now < x.holdUntil) then .next s
  else if s.reelHeld s.cur then .next (s.holdAhead s.cur)
  else match s.fetchWord s.cur x.pc with
    | (.word w, s) => match decodeControl (BitVec.ofNat 32 w) with
      | some i => .next (if isMark i || (takesEntry i && decide (x.places < 16)) then s.queueWord i else s)
      | none => .next s
    | (_, s) => .next s

-- The start of an entry --------------------------------------------------------------------------------------------------------------

-- Holding an entry of the interlock table (spec/13 R264) --------------------------------------------------------------------------------

/-- The waits of a word that has its entry: those that follow the wait for a place in the table. -/
def waitsHolding (w : Wait) : Bool :=
  match w with
  | .interlock | .copyQueue | .emitted => true
  | _ => false
/-- A word at the pc that waits keeps its entry, or allocates it where it has come so far; s is the state before it, t after it. -/
def State.keepHold (s t : State) (i : Instr) : State :=
  let h := s.cur
  let hold := fun (l : List Interlock) =>
    (t.updCore (coreOf h) fun c => { c with interlocks := l }).updHart h fun x => { x with holds := true }
  if (t.hart h).wait = .none then t
  else if s.me.holds then hold s.myCore.interlocks
  else if waitsHolding (t.hart h).wait then match (t.entryRanges i).1 with
    | some (rd, wr) => hold ((t.core (coreOf h)).interlocks ++ [⟨h, 0, rd, wr⟩])
    | none => t
  else t
/-- A word at the pc: one that allocates an interlock entry holds it while it waits, and the entry leaves as the word completes or
traps, or passes to the entry of its copy or its run (spec/13 R261, R264). -/
def holding (i : Instr) (ex : State → Out) : State → Out := fun s =>
  match ex (s.letGo s.cur) with
  | .next t => .next (s.keepHold t i)
  | o => o

/-- The time of the record of a queued tmark or jput: the moment of its issue (spec/18 R348). -/
def markTime (e : QEntry) (s : State) : Nat := e.mark.getD (s.tstamp (dieOf s.cur))
/-- The meaning of an entry's word; ex gives the words their meanings. -/
def entryWord (ex : Instr → State → Out) (e : QEntry) (i : Instr) : State → Out := fun s =>
  match i with
  | .tmark a t => tmarkAt (markTime e) a t s
  | .jput a => jputAt (markTime e) a s
  | i => ex i (s.disarm (some i))
/-- The entry at the head of the queue starts: a run, or a word, which completes, waits, or ends in a trap that leaves the
entries behind it without effect (spec/11 R219). The interlock entry that the word holds stays while it waits. Its latency counts
from the turn at which it began there, its waits at the head included (spec/18 R370; log 82, DESIGN CHOICE). -/
def stepEntry (ex : Instr → State → Out) : State → Out := fun s0 =>
  match s0.me.queue with
  | [] => .next s0
  | e :: rest => match e.word with
    | none => .next (s0.asHart s0.cur startEntry)
    | some i =>
      let back := s0.me.pc
      let s1 := if e.holds then s0.freeHead s0.cur else s0
      let begun := e.begun.getD s0.now
      let s := s1.updMe fun h => { h with pc := BitVec.ofNat 64 e.issuePc, queue := [], issued := true, issuedAt := begun }
      match issueWord false (entryWord ex e i) s with
      | .next t =>
        if (t.hart s.cur).wait ≠ .none then
          let t := if e.holds then t.updCore (coreOf s.cur) fun c => { c with interlocks := s0.myCore.interlocks } else t
          .next (t.updHart s.cur fun h => { h with pc := back, queue := { e with begun := some begun } :: rest })
        else if trappedIn s t s.cur then .next (t.freeQueueEntry s.cur)
        else
          let t := if isMark i then t.markDone s.cur else t
          .next (t.updHart s.cur fun h => { h with pc := back, queue := h.queue ++ rest })
      | o => o

-- Requests of one cycle ----------------------------------------------------------------------------------------------------------------

/-- Ties at the engines that got requests in this cycle. -/
def State.orderArrivals (s : State) : State :=
  { s with clusters := s.clusters.map fun (e : Nat × Cluster) => (e.1, e.2.orderTies s.now) }
/-- The atomic requests of some harts and rows reach their engines in one cycle. -/
def arriveTogether (rs : List (Nat × Option Nat)) : State → Out := fun s =>
  match rs.foldl (fun (o : Out) r => match o with
    | .next t => match r.2 with
      | none => execAtomicRequestArrival r.1 t
      | some i => rowArrival r.1 (some i) t
    | o => o) (.next s) with
  | .next t => .next t.orderArrivals
  | o => o

-- Cycles -----------------------------------------------------------------------------------------------------------------------------------

/-- What a hart, or its issue behind the queue, is stalled by, as its always-on counters name it (spec/18 R365): 7 the interlock
table, 8 Reel. -/
def State.stallSlots (s : State) (h : Nat) : List Nat :=
  let x := s.hart h
  let full := x.tableStall && decide (32 ≤ (s.core (coreOf h)).interlocks.length)
  (if x.wait == .interlock || x.wait == .table || full then [7] else [])
    ++ if stallsByReel x.wait || (x.heldAhead && s.reelHeld h) then [8] else []
/-- The registers cselj of a core that were written in this cycle count under their old selection (spec/18 R368). -/
def State.underOldSel (s : State) (f : State → State) : State :=
  match s.selWrite with
  | none => f s
  | some (c, old) =>
    (f (s.updCore c fun x => { x with csel := old })).updCore c fun x => { x with csel := (s.core c).csel }
/-- The events at the end of a cycle, from s to u, do not change a counter that cnval wrote in it. -/
def State.writeWins (s u : State) : State :=
  match s.cnWrite with
  | none => u
  | some c => s.loseEvent u c
/-- n cycles count for every hart that is stalled in them. -/
def State.countStalls (s : State) (n : Nat) : State :=
  (s.harts.map (·.1)).foldl (fun s h => (s.stallSlots h).foldl (fun s k => s.bumpHart h k n) s) s
/-- A copy engine counts the cycles in which its queue is full (spec/18 R365). -/
def State.countFull (s : State) (n : Nat) : State :=
  (s.clusters.filter fun e => decide (64 ≤ e.2.copies.length)).foldl (fun s e => s.bump (1536 + 3 * e.1) 2 n) s

end Sys2Proof.Machine
end

