-- ==== Sys2Proof/Machine/Step.lean ====
section
/-!
DEFINITION. One step: who moves (log 1), the turn of a hart (spec/07 R162), time (log 2), and placing an instruction for
the next step (log 7).
-/
namespace Sys2Proof.Machine

/-- Fetches, decodes and executes the word at the pc of the executing hart (spec/02 R48). -/
def issue : State → Out := fun s =>
  match s.fetchWord s.cur s.me.pc with
  | (.fault sub, s) => issueWord false (finish (trap 0x04 sub s.me.pc)) s
  | (.poison, s) => issueWord false (finish (consumePoison s.me.pc)) s
  | (.word w, s) => match decodeControl (BitVec.ofNat 32 w) with
    | none => issueWord false (finish (trap 0x01 0 (BitVec.ofNat 64 w))) (s.disarm none)
    | some i => issueWord (writesCnval i) (holding i fun s => exec i (s.disarm (some i))) s
/-- What a ready hart does: it goes on in a vrest or an atomic, runs a row of its run, starts the entry at the head of its
queue, or issues a word. -/
def act : State → Out := fun s =>
  if s.me.rest.isSome then issueWord false vrestResume s
  else if s.me.amo.isSome then issueWord false amoResume s
  else if s.me.run.isSome then stepRow exec none s
  else if !s.me.queue.isEmpty then stepEntry exec s
  else if s.now < s.me.holdUntil then .next s
  else issue s
/-- The turn of the executing hart: requests at its boundary, the end of a Reel hold, the timeout of wfe. -/
def readyTurn : State → Out := fun s =>
  match s.takeRequests s.cur with
  | some t => .next t
  | none =>
    let s := if s.me.wait = .held then s.endStall s.cur else s
    act (if s.wfeExpired s.cur then s.setLatch s.cur else s)
/-- A hart not started, halted or fenced does nothing; one whose tenant is halted stops (spec/16 R333); one held by
Reel waits at its boundary (spec/18 R356). -/
def turn : State → Out := fun s0 =>
  let h := s0.cur
  let s := (s0.settleOwes h).endHold h
  let x := s.me
  if !x.started || x.halted || s.myCore.fenced then .next s
  else if s.haltUp x.tenant.toNat then .next (s.stopEngine h x.tenant.toNat)
  else if x.drained && !x.midWord && s.reelHeld h && (s.takeRequests h).isNone then
    .next (if x.wait == .reel then s else s.waitFor h .held)
  else readyTurn s

/-- The events of the table that come from no word of a hart: the others happen as their words execute. -/
def scheduled : Instr → Bool
  | .vectorQueueEntryStart _ | .laneGrant _ | .laneChange _ | .arrayGrant _ | .preemptionRequest _ | .preemptionTaken _
  | .preemptionTimeout _ | .stopMessage _ _ | .wfeWake _ | .wfeTimeout _ | .mgmtWindowWrite _ _ | .launchListRead _
  | .gangDispatch _ _ | .waveHartStart _ _ | .gangCompletion _ | .gbarPass _ | .abarWaitEnd _ | .gwaitEnd _
  | .copyRequestStart _ | .copyUnitLand _ _ | .interlockWaitEnd _ | .atomicRequestArrival _ | .atomicService _
  | .lineFill _ _ _ | .dirtyDrain _ _ _ | .dirtyAgeDrain _ _ | .remoteCopyExpiry _ _ | .homeDrainAccept _
  | .invalidation _ _ | .drainRequest _ | .translationWalk _ _ _ _ | .columnLineFetch _ _ | .mscMissFill _ _ _ _
  | .dramUncorrectableError _ _ | .remapSegmentError _ _ | .cxlPoisonRead _ _ _ | .flitCrcError _ _ | .hotPageEpoch _
  | .pageMigration _ _ _ | .migrationAbandon _ _ | .hostRead _ _ _ | .hostWrite _ _ _ | .hostWriteRelease _ _ _
  | .hostReadAcquire _ _ _ | .rdmaWrite _ _ _ _ | .rdmaWriteWithImmediate _ _ _ _ _ | .haltRegisterRaise _
  | .engineHaltStop _ _ | .haltRegisterLower _ | .thermalTrip _ | .powerLimit _ _ | .moduleReset _
  | .supervisorStart _ _ _ | .attestationQuote _ | .recordAccept _ | .reelStallEnd _ | .counterSweep _
  | .timebaseLock _ | .grandmasterLoss _ | .timePortSelect _ | .journalAck _ _ | .jsyncEnd _ | .emissionRecordWrite _
  | .partnerLost _ | .newPartnerUnreachable _ | .ieee1588EventMessage _ _ _ | .ethernetFrameError _ _ => true
  | _ => false
/-- One turn of the agenda. -/
def runTurn (t : Turn) : State → Out := fun s =>
  match t with
  | .hart h => turn { s with cur := h }
  | .ahead h => asHartOut h issueAhead s
  | .arrivals rs => arriveTogether rs s
  | .corrected pa => .next (s.correctError pa)
  | .send e qp src dst n imm => .next (if e < 4 then s.rdmaSend e qp src dst n imm else s)
  | .captureClash c j => .next (if c < 384 && j < 4 then s.updCore c fun x => { x with clash := NSet.add x.clash j } else s)
  | .row h i => if s.runs h then asHartOut h (stepRow exec (some i)) s else .next s
  | .mismatch c r => .next (if c < 384 then s.updCore c fun x => { x with dupNext := some r } else s)
  | .pass _ => .next s
  | .event i => if scheduled i && i.wf then exec i s else .next s
/-- The cycles a turn takes: one, or more for a turn in which nothing else happens. -/
def cyclesOf : Turn → Nat
  | .pass n => n
  | _ => 1
/-- n cycles pass; each boundary of 1,024 cycles charges the started harts (spec/11 R241). -/
def State.passTime (s : State) (n : Nat) : State :=
  let s := s.writeWins (s.underOldSel fun s => (s.countStalls n).countFull n)
  let ticks := (s.now + n) / 1024 - s.now / 1024
  let s := if ticks = 0 then s else (s.cores.map (·.1)).foldl (fun s c => s.tickCore ticks c) s
  { s with now := s.now + n, cnWrite := none, selWrite := none }
def after (n : Nat) : Out → Out
  | .next t => .next (t.passTime n)
  | o => o
/-- The machine takes the first turn of its agenda, or with none the turn of the hart that moved last. -/
def step (s : State) : Host.Outcome State Fault Refusal :=
  if s.poweredDown then .fault .poweredDown
  else match s.agenda with
    | t :: rest => after (cyclesOf t) (runTurn t { s with agenda := rest })
    | [] => after 1 (turn s)

-- Placing an instruction (log 7) -------------------------------------------------------------------------------------------------

/-- Hart 0 about to fetch a control word at a physical address, at supervisor level without translation. -/
def readyHart (x : Hart) (pc : Nat) : Hart :=
  { x with pc := BitVec.ofNat 64 pc, sup := true, tbase := 0, started := true, halted := false, wait := .none, issued := false,
           run := none, queue := [], holds := false, marks := 0, behind := [], stall := none, heldAhead := false, preempt := none, stopMsg := none, holdUntil := 0, rest := none, emitSeq := none,
           amo := none, owes := [] }
/-- Where hart 0 fetches: its pc, if a stack serves it. -/
def State.fetchPlace (s : State) : Nat :=
  let pc := (s.hart 0).pc.toNat
  match servedBy pc with
  | .stack _ => pc / 8 * 8
  | _ => 0
/-- The word's bytes at their place, with no older copy of them in the way. -/
def State.placeWord (s : State) (pc n w : Nat) : State :=
  let s := { s with mem := Memory.writeN s.mem pc (bytesLE n w), poison := NSet.del s.poison (sectorOf pc), agenda := [],
                    cur := 0, poweredDown := false }
  let s := s.updCore 0 fun c => { c with icache := c.icache.filter fun e => e.block != pc / 64, fenced := false }
  s.setHart 0 (readyHart (s.hart 0) pc)
/-- A run of one row stands at a block word, followed by vstop. -/
def oneRow (pc w : Nat) : Run :=
  { issuePc := pc, target := pc, n := 1, words := [(pc, w), (pc + 8, 0x55 * 2 ^ 56)], rows := [{ pc := pc, block := pc }],
    cap := { vlen := 1, lanes := 4 } }
/-- The instruction stands where the next step fetches it: a control word at the pc of hart 0, a block word in a run of
one row on four lanes. -/
def State.withFetchWord (s : State) (nbits w : Nat) : State :=
  let pc := s.fetchPlace
  if nbits ≤ 32 then s.placeWord pc 4 w
  else (s.placeWord pc 8 w).updHart 0 fun x => { x with vlen := 1, lanes := 4, run := some (oneRow pc w) }

end Sys2Proof.Machine
end

