-- ==== Sys2Proof/Safety.lean ====
section
/-!
DEFINITION. What counts as a safe state and a safe run: every byte memory of the machine is in its canonical form, and
no step of the run ends in a fault or a refusal.
-/
namespace Sys2Proof.Safety
open Machine

/-- Every byte memory is in canonical form: the homes (spec/16 R318) and the bytes each cluster caches (spec/12 R244). -/
def memOk (s : State) : Bool := Memory.wf s.mem && s.clusters.all fun e => Memory.wf e.2.bytes

/-- The states that steps from s reach. -/
inductive Reaches (s : State) : State → Prop
  | here : Reaches s s
  | step {t u : State} : Reaches s t → Machine.step t = .next u → Reaches s u

/-- A run from s is safe when every state it reaches steps on. -/
def SafeRun (s : State) : Prop := ∀ t, Reaches s t → ∃ u, Machine.step t = .next u

end Sys2Proof.Safety
end

