-- ==== Sys2Proof/Certificates/Slice0/Obligations.lean ====
section
/-!
DEFINITION. The statements for the provers, in the terms of the numbered rules of spec/. First the words they share.
-/
namespace Sys2Proof.Claims
open Machine

/-- What a word that writes X[d], raises flags and goes on at a leaves: the hart ready, and every other register, flag,
special register, hart and byte of memory as before. -/
structure Writes (s t : State) (d : Reg) (v : Word) (f : Flags) (a : Word) : Prop where
  value : t.readX d = if d = 0 then 0 else v
  others : ∀ r, r ≠ d → t.readX r = s.readX r
  pc : t.me.pc = a
  flags : t.me.fpflags = s.me.fpflags ||| f
  ready : t.me.wait = .none ∧ t.me.issued = false ∧ t.me.rest = none ∧ t.me.emitSeq = none ∧ t.me.tableStall = false
  hart : { t.me with x := s.me.x, pc := s.me.pc, fpflags := s.me.fpflags, wait := s.me.wait, issued := s.me.issued, rest := s.me.rest, emitSeq := s.me.emitSeq, tableStall := s.me.tableStall } = s.me
  harts : ∀ h, h ≠ s.cur → t.hart h = s.hart h
  rest : { t with harts := s.harts } = s

/-- The instruction completes, writes v to X[d], raises f, and changes nothing else. -/
def Gives (i : Instr) (s : State) (d : Reg) (v : Word) (f : Flags) : Prop :=
  ∃ t, exec i s = .next t ∧ Writes s t d v f (s.me.pc + 4)

/-- What a word that only changes the pc leaves. -/
structure Goes (s t : State) (a : Word) : Prop where
  pc : t.me.pc = a
  ready : t.me.wait = .none ∧ t.me.issued = false ∧ t.me.rest = none ∧ t.me.emitSeq = none ∧ t.me.tableStall = false
  hart : { t.me with pc := s.me.pc, wait := s.me.wait, issued := s.me.issued, rest := s.me.rest, emitSeq := s.me.emitSeq, tableStall := s.me.tableStall } = s.me
  harts : ∀ h, h ≠ s.cur → t.hart h = s.hart h
  rest : { t with harts := s.harts } = s

-- Scalar integers (spec/07 R151) ---------------------------------------------------------------------------------------------

def signed : ISize → Bool
  | .s64 | .s32 => true
  | .z64 | .z32 => false
def width : ISize → Nat
  | .s64 | .z64 => 64
  | .s32 | .z32 => 32
/-- A source as an exact integer. -/
def exact (sz : ISize) (x : Word) : Int :=
  match sz with
  | .s64 => x.toInt
  | .z64 => (x.toNat : Int)
  | .s32 => (x.setWidth 32).toInt
  | .z32 => ((x.setWidth 32).toNat : Int)
/-- An exact integer modulo 2^w, extended to 64 bits. -/
def narrow (sz : ISize) (z : Int) : Word :=
  match sz with
  | .s64 | .z64 => BitVec.ofInt 64 z
  | .s32 => (BitVec.ofInt 32 z).signExtend 64
  | .z32 => (BitVec.ofInt 32 z).setWidth 64
/-- Bits extended to 64 bits. -/
def extend (sz : ISize) (x : Word) : Word :=
  match sz with
  | .s64 | .z64 => x
  | .s32 => (x.setWidth 32).signExtend 64
  | .z32 => (x.setWidth 32).setWidth 64
/-- The quotient, the remainder and the flag of the rule's division. -/
def divide (sz : ISize) (x y : Int) : Int × Int × Flags :=
  if y = 0 then (-1, x, 0x008)
  else if signed sz = true ∧ x = -2 ^ (width sz - 1) ∧ y = -1 then (x, 0, 0x040)
  else (x.tdiv y, x - x.tdiv y * y, 0)
/-- n is the number of zeros above the highest 1 in the low w bits. -/
def ZerosAbove (w : Nat) (x : Word) (n : Nat) : Prop :=
  n ≤ w ∧ (∀ j, w - n ≤ j → j < w → x.getLsbD j = false) ∧ (n < w → x.getLsbD (w - 1 - n) = true)
/-- n is the number of zeros below the lowest 1 in the low w bits. -/
def ZerosBelow (w : Nat) (x : Word) (n : Nat) : Prop :=
  n ≤ w ∧ (∀ j, j < n → x.getLsbD j = false) ∧ (n < w → x.getLsbD n = true)
/-- The ones in the low w bits. -/
def ones (w : Nat) (x : Word) : Nat := ((List.range w).filter fun j => x.getLsbD j).length

end Sys2Proof.Claims

open Sys2Proof Sys2Proof.Machine Sys2Proof.Claims

/-- R151: every word of the scalar integer group completes in every state with the value and the flag of its row, and
changes nothing else. -/
def Obligations.ScalarIntegerWords : Prop :=
  ∀ (sz : Sys2Proof.ISize) (d a b : Reg) (s : State),
    let x := exact sz (s.readX a)
    let y := exact sz (s.readX b)
    let n := (s.readX b).toNat
    let w := width sz
    Gives (.add sz d a b) s d (narrow sz (x + y)) 0 ∧
    Gives (.sub sz d a b) s d (narrow sz (x - y)) 0 ∧
    Gives (.mul sz d a b) s d (narrow sz (x * y)) 0 ∧
    Gives (.mulh sz d a b) s d (narrow sz (x * y / 2 ^ w)) 0 ∧
    Gives (.div sz d a b) s d (narrow sz (divide sz x y).1) (divide sz x y).2.2 ∧
    Gives (.rem sz d a b) s d (narrow sz (divide sz x y).2.1) (divide sz x y).2.2 ∧
    Gives (.and sz d a b) s d (extend sz (s.readX a &&& s.readX b)) 0 ∧
    Gives (.or sz d a b) s d (extend sz (s.readX a ||| s.readX b)) 0 ∧
    Gives (.xor sz d a b) s d (extend sz (s.readX a ^^^ s.readX b)) 0 ∧
    Gives (.shl sz d a b) s d (narrow sz (if n < w then x * 2 ^ n else 0)) 0 ∧
    Gives (.shr sz d a b) s d (narrow sz (if n < w then (((s.readX a).toNat % 2 ^ w / 2 ^ n : Nat) : Int) else 0)) 0 ∧
    Gives (.sra sz d a b) s d (narrow sz (if n < w then x / 2 ^ n else if x < 0 then -1 else 0)) 0 ∧
    (∃ k, ZerosAbove w (s.readX a) k ∧ Gives (.clz sz d a) s d (BitVec.ofNat 64 k) 0) ∧
    (∃ k, ZerosBelow w (s.readX a) k ∧ Gives (.ctz sz d a) s d (BitVec.ofNat 64 k) 0) ∧
    Gives (.popc sz d a) s d (BitVec.ofNat 64 (ones w (s.readX a))) 0 ∧
    Gives (.min sz d a b) s d (narrow sz (min x y)) 0 ∧
    Gives (.max sz d a b) s d (narrow sz (max x y)) 0 ∧
    Gives (.slt sz d a b) s d (if x < y then 1 else 0) 0 ∧
    Gives (.sel sz d a b) s d (narrow sz (if s.readX d ≠ 0 then x else y)) 0

/-- R152: every immediate word completes in every state with the value of its row, raises no flag and changes nothing else. -/
def Obligations.ImmediateWords : Prop :=
  ∀ (d a : Reg) (i : BitVec 15) (n : BitVec 6) (s : State),
    Gives (.addi d a i) s d (BitVec.ofInt 64 ((s.readX a).toInt + i.toInt)) 0 ∧
    Gives (.andi d a i) s d (s.readX a &&& i.setWidth 64) 0 ∧
    Gives (.ori d a i) s d (s.readX a ||| i.setWidth 64) 0 ∧
    Gives (.xori d a i) s d (s.readX a ^^^ i.setWidth 64) 0 ∧
    Gives (.shli d a n) s d (BitVec.ofNat 64 ((s.readX a).toNat * 2 ^ n.toNat)) 0 ∧
    Gives (.shri d a n) s d (BitVec.ofNat 64 ((s.readX a).toNat / 2 ^ n.toNat)) 0 ∧
    Gives (.srai d a n) s d (BitVec.ofInt 64 ((s.readX a).toInt / 2 ^ n.toNat)) 0 ∧
    Gives (.slti d a i) s d (if (s.readX a).toInt < i.toInt then 1 else 0) 0

/-- R153: lhi gives its immediate times 2^15, pcrel the pc plus its immediate; nothing else changes. -/
def Sys2Proof.Claims.LongConstants : Prop :=
  ∀ (d : Reg) (i : BitVec 20) (s : State),
    Gives (.lhi d i) s d (BitVec.ofInt 64 (i.toInt * 2 ^ 15)) 0 ∧
    Gives (.pcrel d i) s d (s.me.pc + BitVec.ofInt 64 i.toInt) 0

/-- R154: a branch goes to its target when its condition holds, else on, and changes nothing else. -/
def Obligations.Branches : Prop :=
  ∀ (a b : Reg) (i : BitVec 15) (s : State),
    let target := s.me.pc + BitVec.ofInt 64 (4 * i.toInt)
    let x := (s.readX a).toInt
    let y := (s.readX b).toInt
    (∃ t, exec (.beq a b i) s = .next t ∧ Goes s t (if x = y then target else s.me.pc + 4)) ∧
    (∃ t, exec (.bne a b i) s = .next t ∧ Goes s t (if x ≠ y then target else s.me.pc + 4)) ∧
    (∃ t, exec (.blt a b i) s = .next t ∧ Goes s t (if x < y then target else s.me.pc + 4)) ∧
    (∃ t, exec (.bge a b i) s = .next t ∧ Goes s t (if y ≤ x then target else s.me.pc + 4))

/-- R155: jmp and an aligned jr link and jump; jr reads its source before it writes the link. A misaligned target of jr
takes the alignment trap with the target as value and pc of the jr, unless a copy of the hart holds traps back (R263). -/
def Sys2Proof.Claims.Jumps : Prop :=
  ∀ (d a : Reg) (i : BitVec 20) (j : BitVec 15) (s : State),
    let target := BitVec.ofInt 64 ((s.readX a).toInt + j.toInt)
    (∃ t, exec (.jmp d i) s = .next t ∧
      Writes s t d (s.me.pc + 4) 0 (s.me.pc + BitVec.ofInt 64 (4 * i.toInt))) ∧
    (target.toNat % 4 = 0 → ∃ t, exec (.jr d a j) s = .next t ∧
      Writes s t d (s.me.pc + 4) 0 target) ∧
    (target.toNat % 4 ≠ 0 → s.copying s.cur = false →
      exec (.jr d a j) s = .next (s.takeTrap s.cur { cause := 0x09, value := target, tpc := s.me.pc }))

namespace Sys2Proof.Claims
open Machine

/-- A byte carries no poison, at its home or in the executing hart's cluster (spec/16 R325). -/
def Unmarked (s : State) (b : Nat) : Prop :=
  s.homePoison (dieOf s.cur) b = false ∧ (s.cluster (clusterOf s.cur)).poison.contains (sectorOf b) = false
/-- A line is in the executing hart's cluster cache, or an empty way takes it, whatever range it belongs to (spec/12 R252,
R254). -/
def HasWay (s : State) (key : LineKey) : Prop :=
  let c := s.cluster (clusterOf s.cur)
  c.lines.any (fun l => l.key == key) = true ∨ ∀ cls, (c.placeFor key cls).2 = none
/-- The clean copies that the executing hart's cluster holds of bytes whose home is on another die, in the sectors that a read
of some bytes brings in, are as a read from below gives them (spec/14 R278 does not track them; log 48). -/
def Current (s : State) (pas : List Nat) : Prop :=
  let k := clusterOf s.cur
  ∀ a ∈ pas, s.resident k a = false → homeDie a ≠ clusterDie k →
    ∀ j, j < 32 → s.resident k (a / 32 * 32 + j) = true → s.dirtyByte k (a / 32 * 32 + j) = false →
      Memory.read (s.cluster k).bytes (a / 32 * 32 + j) = s.belowByte k (a / 32 * 32 + j)
/-- The data caches of the executing hart's cluster hold only lines that the cluster holds (spec/12 R247). -/
def Inclusive (s : State) : Prop :=
  ∀ key ∈ s.dcacheKeys (clusterOf s.cur), (s.cluster (clusterOf s.cur)).lines.any (fun l => l.key == key) = true
/-- A scalar load of n bytes at ea by the executing hart passes its checks, is held back by nothing, and finds v at
the translation p: the bytes as its cluster holds them, on an ordinary page, without poison (spec/07 R157). Its line
replaces no other and brings in no newer bytes of another die. -/
def LoadFinds (s : State) (ea : Word) (n : Nat) (o : Orient) (p : Trans) (v : Nat) : Prop :=
  (∃ s1, s.check s.cur ea n o .load 0 s.me.sup = (.ok p, s1)) ∧ servedBy p.pa ≠ .mgmt ∧ leafC p.leaf = 0 ∧
    s.watchHits s.cur ea n true false = 0 ∧ s.conflicts s.cur (spanOf ea n) .empty = [] ∧
    s.emissionMeets s.cur p.pa n = false ∧ s.bytesAt (coreOf s.cur) p.pa n = (bytesLE n v, false) ∧ v < 2 ^ (8 * n) ∧
    HasWay s (lineFor o n p.pa) ∧ Inclusive s ∧ Current s ((lineFor o n p.pa).bytes ++ (List.range n).map (p.pa + ·)) ∧
    ∀ b ∈ (lineFor o n p.pa).bytes ++ (List.range n).map (p.pa + ·), Unmarked s b
/-- A scalar store of n bytes at ea passes its checks and is held back by nothing; p is the translation it finds. -/
def StoreFinds (s : State) (ea : Word) (n : Nat) (o : Orient) (p : Trans) : Prop :=
  (∃ s1, s.check s.cur ea n o .store n s.me.sup = (.ok p, s1)) ∧ servedBy p.pa ≠ .mgmt ∧ leafC p.leaf = 0 ∧
    s.watchHits s.cur ea n false true = 0 ∧ s.conflicts s.cur .empty (spanOf ea n) = [] ∧ s.emissionMeets s.cur p.pa n = false
/-- The n bytes at a physical address have one place that takes writes: no bytes are on their way home, the home is
alive and within reach, no cache holds bytes that caches do not serve, and a core's data cache holds only lines that
its cluster holds. -/
def Writable (s : State) (pa n : Nat) : Prop :=
  s.drains = [] ∧
    (∀ i, i < n → s.dead (pa + i) = false ∧ s.cut (dieOf s.cur) (pa + i) = false ∧
      (cacheable (pa + i) = true ∨ s.resident (clusterOf s.cur) (pa + i) = false)) ∧ Inclusive s
/-- No latency capture unit of the hart's core is enabled (spec/18 R370). -/
def NoCapture (s : State) : Prop := ∀ j, (Tab.get 0 s.myCore.lcfg j).getLsbD 63 = false
/-- A load into X[d] leaves v there, every other register and flag as before but the energy count, every other hart as
before, and every byte of memory as before, at its home and as each cluster reads it. -/
structure Loads (s t : State) (d : Reg) (v : Word) : Prop where
  value : t.readX d = if d = 0 then 0 else v
  others : ∀ r, r ≠ d → t.readX r = s.readX r
  pc : t.me.pc = s.me.pc + 4
  ready : t.me.wait = .none ∧ t.me.issued = false ∧ t.me.rest = none ∧ t.me.emitSeq = none ∧ t.me.tableStall = false
  hart : { t.me with x := s.me.x, pc := s.me.pc, wait := s.me.wait, issued := s.me.issued, rest := s.me.rest, emitSeq := s.me.emitSeq, tableStall := s.me.tableStall, ectr := s.me.ectr } = s.me
  harts : ∀ h, h ≠ s.cur → t.hart h = s.hart h
  homes : t.mem = s.mem
  views : ∀ k b, t.clusterByte k b = s.clusterByte k b
/-- The load completes with v. -/
def LoadGives (i : Instr) (s : State) (d : Reg) (v : Word) : Prop := ∃ t, exec i s = .next t ∧ Loads s t d v
/-- A store goes on at the next word with every register and flag as before but the energy count, and the storing
cluster reads the stored bytes. -/
structure Stores (s t : State) (pa n : Nat) (v : Word) : Prop where
  regs : ∀ r, t.readX r = s.readX r
  pc : t.me.pc = s.me.pc + 4
  ready : t.me.wait = .none ∧ t.me.issued = false ∧ t.me.rest = none ∧ t.me.emitSeq = none ∧ t.me.tableStall = false
  hart : { t.me with pc := s.me.pc, wait := s.me.wait, issued := s.me.issued, rest := s.me.rest, emitSeq := s.me.emitSeq, tableStall := s.me.tableStall, ectr := s.me.ectr } = s.me
  bytes : ∀ i, i < n → t.clusterByte (clusterOf s.cur) (pa + i) = v.extractLsb' (8 * i) 8
def StoreGives (i : Instr) (s : State) (pa n : Nat) (v : Word) : Prop := ∃ t, exec i s = .next t ∧ Stores s t pa n v

end Sys2Proof.Claims

/-- R157: each scalar load completes with the bytes it finds at X[s] plus its offset, extended as its type says, and
changes no byte of memory, whatever its hint and orientation. -/
def Obligations.ScalarLoads : Prop :=
  ∀ (d a : Reg) (i : BitVec 12) (h : Hint) (o : Orient) (s : State) (p : Trans) (v : Nat), NoCapture s →
    let ea := s.readX a + i.signExtend 64
    (LoadFinds s ea 1 o p v → LoadGives (.ldS8 d a i h o) s d ((BitVec.ofNat 8 v).signExtend 64)) ∧
    (LoadFinds s ea 1 o p v → LoadGives (.ldZ8 d a i h o) s d (BitVec.ofNat 64 v)) ∧
    (LoadFinds s ea 2 o p v → LoadGives (.ldS16 d a i h o) s d ((BitVec.ofNat 16 v).signExtend 64)) ∧
    (LoadFinds s ea 2 o p v → LoadGives (.ldZ16 d a i h o) s d (BitVec.ofNat 64 v)) ∧
    (LoadFinds s ea 4 o p v → LoadGives (.ldS32 d a i h o) s d ((BitVec.ofNat 32 v).signExtend 64)) ∧
    (LoadFinds s ea 4 o p v → LoadGives (.ldZ32 d a i h o) s d (BitVec.ofNat 64 v)) ∧
    (LoadFinds s ea 8 .row p v → LoadGives (.ld64 d a i h) s d (BitVec.ofNat 64 v))

/-- R157: each scalar store completes, and its cluster then reads the low bytes of X[d] at the address stored to,
whatever its hint and orientation, where the bytes have one place that takes writes. -/
def Sys2Proof.Claims.ScalarStores : Prop :=
  ∀ (d a : Reg) (i : BitVec 12) (h : Hint) (o : Orient) (s : State) (p : Trans),
    let ea := s.readX a + i.signExtend 64
    (StoreFinds s ea 1 o p → Writable s p.pa 1 → StoreGives (.st8 d a i h o) s p.pa 1 (s.readX d)) ∧
    (StoreFinds s ea 2 o p → Writable s p.pa 2 → StoreGives (.st16 d a i h o) s p.pa 2 (s.readX d)) ∧
    (StoreFinds s ea 4 o p → Writable s p.pa 4 → StoreGives (.st32 d a i h o) s p.pa 4 (s.readX d)) ∧
    (StoreFinds s ea 8 .row p → Writable s p.pa 8 → StoreGives (.st64 d a i h) s p.pa 8 (s.readX d))

namespace Sys2Proof.Claims
open Machine

/-- The scalar stores of X[d] with a hint, each with its bytes. -/
def storesOf (d a : Reg) (i : BitVec 12) (h : Hint) (o : Orient) : List (Nat × Instr) :=
  [(1, Instr.st8 d a i h o), (2, Instr.st16 d a i h o), (4, Instr.st32 d a i h o)] ++
    if o = .row then [(8, Instr.st64 d a i h)] else []
/-- No cluster but the executing hart's holds a copy. -/
def Alone (s : State) : Prop :=
  ∀ k, k ≠ clusterOf s.cur → (s.cluster k).lines = [] ∧ (s.cluster k).atomLines = [] ∧ s.dcacheKeys k = []
/-- Nor does the executing hart's hold a line of the panel of a byte. -/
def NoneInPanel (s : State) (pa : Nat) : Prop :=
  ∀ l ∈ (s.cluster (clusterOf s.cur)).lines ++ (s.cluster (clusterOf s.cur)).atomLines, l.key.panel ≠ pa / 4096

end Sys2Proof.Claims

/-- The frame of a scalar store, where its line replaces no other and brings in no newer bytes of another die. To a place
that caches serve, without a hint and to a page without H, no home changes and every cluster reads every byte as before, but
for the bytes stored as the storing cluster reads them. With a hint (R159, R255), to a page with H (R330) or to a place that
caches do not serve (R258), where no other cluster holds a copy, the bytes stored are the only ones that a home or a cluster
may read otherwise; but a store with a hint or to a page with H takes along what its cluster holds dirty of the sector
(R277), which that cluster reads as before. -/
def Sys2Proof.Claims.StoreFrame : Prop :=
  ∀ (d a : Reg) (i : BitVec 12) (h : Hint) (o : Orient) (s : State) (p : Trans),
    let ea := s.readX a + i.signExtend 64
    ∀ x ∈ storesOf d a i h o, StoreFinds s ea x.1 o p → (h = .none → HasWay s (lineFor o x.1 p.pa) ∧ Current s (lineFor o x.1 p.pa).bytes) →
      (cacheable p.pa = true → h = .none → leafH p.leaf = false → ∃ t, exec x.2 s = .next t ∧ t.mem = s.mem ∧
        ∀ k b, (k = clusterOf s.cur → b < p.pa ∨ p.pa + x.1 ≤ b) → t.clusterByte k b = s.clusterByte k b) ∧
      (Writable s p.pa x.1 → Alone s → (cacheable p.pa = true ∨ NoneInPanel s p.pa) → ∃ t, exec x.2 s = .next t ∧ ∀ b, (b < p.pa ∨ p.pa + x.1 ≤ b) →
        (Memory.read t.mem b = Memory.read s.mem b ∧ ∀ k, t.clusterByte k b = s.clusterByte k b) ∨
          ((leafH p.leaf = true ∨ h ≠ .none) ∧ b / 32 = p.pa / 32 ∧ s.dirtyByte (clusterOf s.cur) b = true ∧
            t.clusterByte (clusterOf s.cur) b = s.clusterByte (clusterOf s.cur) b))

/-- The statements ScalarStores and StoreFrame together. -/
def Obligations.StoreWords : Prop := Claims.ScalarStores ∧ Claims.StoreFrame

/-- R156: jtab reads the bound at X[t]; an index not below it takes the default target. An index below it, in an
untranslated space, reads the entry and goes to the table plus the entry; a misaligned target takes the alignment trap with
the index as value and the entry's address in aux. That the two reads take effect when the word completes, so that the first
changes nothing the second finds, is log 24. -/
def Sys2Proof.Claims.TableJump : Prop :=
  ∀ (a b : Reg) (i : BitVec 15) (s : State) (p : Trans) (n : Nat),
    let idx := s.readX a
    let tb := s.readX b
    let ea := tb + 4 + 4 * idx
    LoadFinds s tb 4 .row p n →
    (n ≤ idx.toNat → ∃ t, exec (.jtab a b i) s = .next t ∧ (∀ r, t.readX r = s.readX r) ∧
      t.me.pc = s.me.pc + BitVec.ofInt 64 (4 * i.toInt)) ∧
    (idx.toNat < n → tbaseEn s.me.tbase = false → ∀ q e, LoadFinds s ea 4 .row q e →
      let target := tb + (BitVec.ofNat 32 e).signExtend 64
      (target.toNat % 4 = 0 → ∃ t, exec (.jtab a b i) s = .next t ∧ (∀ r, t.readX r = s.readX r) ∧ t.me.pc = target) ∧
      (target.toNat % 4 ≠ 0 → s.copying s.cur = false →
        ∃ u : State, (∀ r, u.readX r = s.readX r) ∧ u.me.tvec = s.me.tvec ∧
          exec (.jtab a b i) s = .next (u.takeTrap s.cur { cause := 0x09, value := idx, tpc := s.me.pc, aux := ea })))

/-- The statements LongConstants, Jumps and TableJump together. -/
def Obligations.LongConstantsAndJumps : Prop := Claims.LongConstants ∧ Claims.Jumps ∧ Claims.TableJump

namespace Sys2Proof.Claims
open Machine

/-- No cluster holds a copy, and no bytes are on their way home. -/
def Bare (s : State) : Prop :=
  s.drains = [] ∧ ∀ k, (s.cluster k).lines = [] ∧ (s.cluster k).atomLines = [] ∧ (s.cluster k).poison = [] ∧ s.dcacheKeys k = []
/-- Nor a partial. -/
def Uncached (s : State) : Prop := Bare s ∧ ∀ k, (s.cluster k).partials = []
/-- A word goes on at the next one with every register as before and every flag as before. -/
structure GoesOn (s t : State) : Prop where
  regs : ∀ r, t.readX r = s.readX r
  pc : t.me.pc = s.me.pc + 4
  flags : t.me.fpflags = s.me.fpflags
  ready : t.me.wait = .none ∧ t.me.issued = false ∧ t.me.rest = none ∧ t.me.emitSeq = none ∧ t.me.tableStall = false
/-- The word waits: the hart, which no stall by Reel held, is not ready, and nothing but the note of its wait changes. -/
def Waits (i : Instr) (s : State) (w : Wait) : Prop :=
  s.me.stall = none → ∃ t, exec i s = .next t ∧ t.me.wait = w ∧
    { t.me with wait := s.me.wait, waitSince := s.me.waitSince } = s.me ∧ (∀ h, h ≠ s.cur → t.hart h = s.hart h) ∧
    { t with harts := s.harts } = s
def sizeBytes : AccSize → Nat
  | .b8 => 1
  | .b16 => 2
  | .b32 => 4
  | .b64 => 8
/-- Scopes wider than a cluster. -/
def wide : Scope → Bool
  | .hart | .core | .clus => false
  | .die | .pkg | .sys => true
/-- What an integer atomic stores over m (spec/13 R275). -/
def atomicNew (op : AmoOp) (w : Nat) (sgn : Bool) (m a b : Nat) : Nat :=
  let less := if sgn then (BitVec.ofNat w m).slt (BitVec.ofNat w a) else decide (m < a)
  match op with
  | .add => (m + a) % 2 ^ w
  | .min => if less then m else a
  | .max => if less then a else m
  | .and => m &&& a
  | .or => m ||| a
  | .xor => m ^^^ a
  | .swap => a
  | .cas => if m = a then b else m
  | .fadd => m
def amoBytes : AmoTy → Nat
  | .s64 | .z64 => 8
  | .s32 | .z32 | .f32 => 4
  | .bf16 | .f16 => 2
def amoIsSigned (t : AmoTy) : Bool := t = .s32 || t = .s64
/-- The old value as X[d] gets it. -/
def amoOld (t : AmoTy) (m : Nat) : Word :=
  match t with
  | .s32 => (BitVec.ofNat 32 m).signExtend 64
  | _ => BitVec.ofNat 64 m
/-- An atomic of n bytes at ea passes its checks, is held back by nothing, meets an engine with no earlier request, and
finds the value m without poison; no cache holds a copy. -/
def AtomicFinds (s : State) (ea : Word) (n : Nat) (c : Scope) (p : Trans) (m : Nat) : Prop :=
  s.me.reply = none ∧ s.amoQueued s.cur = false ∧ (∃ s1, s.check s.cur ea n .row .both 0 s.me.sup = (.ok p, s1)) ∧
    servedBy p.pa ≠ .mgmt ∧ s.watchHits s.cur ea n true true = 0 ∧ s.conflicts s.cur (spanOf ea n) (spanOf ea n) = [] ∧
    s.emissionMeets s.cur p.pa n = false ∧ (s.cluster (engineFor s.cur p.pa c)).atomics = [] ∧ Uncached s ∧
    Writable s p.pa n ∧ s.bytesAt (coreOf s.cur) p.pa n = (bytesLE n m, false) ∧ m < 2 ^ (8 * n) ∧
    ∀ b, b / 64 = p.pa / 64 → s.homePoison (dieOf s.cur) b = false
/-- The atomic completes: X[d] gets the old value, its flags are raised, memory gets the new value at the address and
keeps every other byte. -/
def AtomicGives (i : Instr) (s : State) (d : Reg) (ty : AmoTy) (p : Trans) (m new : Nat) (fl : Flags) : Prop :=
  ∃ t, exec i s = .next t ∧ t.readX d = (if d = 0 then 0 else amoOld ty m) ∧ (∀ r, r ≠ d → t.readX r = s.readX r) ∧
    t.me.pc = s.me.pc + 4 ∧ t.me.fpflags = s.me.fpflags ||| fl ∧
    (∀ j, j < amoBytes ty → t.clusterByte (clusterOf s.cur) (p.pa + j) = BitVec.ofNat 8 (new / 2 ^ (8 * j))) ∧
    ∀ k b, (b < p.pa ∨ p.pa + amoBytes ty ≤ b) → t.clusterByte k b = s.clusterByte k b

end Sys2Proof.Claims

/-- R286: with no copies about, ld.acq at every scope reads what the home holds, and its hart's event latch then watches
the sector (R230); st.rel at every scope stores the low bytes of X[d], at the home itself beyond the cluster. -/
def Sys2Proof.Claims.AcquireAndRelease : Prop :=
  ∀ (d a : Reg) (z : AccSize) (i : BitVec 10) (c : Scope) (s : State) (p : Trans) (v : Nat),
    let ea := s.readX a + i.signExtend 64
    let n := sizeBytes z
    Uncached s →
    (NoCapture s → LoadFinds s ea n .row p v → ∃ t, exec (.ldAcq d a z i c) s = .next t ∧
      t.readX d = (if d = 0 then 0 else BitVec.ofNat 64 v) ∧ (∀ r, r ≠ d → t.readX r = s.readX r) ∧
      t.me.pc = s.me.pc + 4 ∧ t.me.fpflags = s.me.fpflags ∧ t.me.lastAcq = some (p.pa / 32) ∧ t.mem = s.mem) ∧
    (StoreFinds s ea n .row p → Writable s p.pa n → s.releaseBusy s.cur = none → ∃ t, exec (.stRel d a z i c) s = .next t ∧
      GoesOn s t ∧
      (∀ j, j < n → t.clusterByte (clusterOf s.cur) (p.pa + j) = (s.readX d).extractLsb' (8 * j) 8) ∧
      (wide c = true → (∀ j, j < n → Memory.read t.mem (p.pa + j) = (s.readX d).extractLsb' (8 * j) 8) ∧
        ∀ b, (b < p.pa ∨ p.pa + n ≤ b) → Memory.read t.mem b = Memory.read s.mem b))

/-- R287: a fence completes and changes no register; a release or a full fence first waits for the hart's copies and
emission records, and at a scope beyond the cluster it leaves no byte that the core touched dirty in its cluster: that a fence
drains everything its core touched is log 19, the model's choice (R287 asks that earlier accesses have completed). -/
def Sys2Proof.Claims.FenceWords : Prop :=
  ∀ (c : Scope) (s : State),
    (∃ t, exec (.fenceAcq c) s = .next t ∧ GoesOn s t) ∧
    (∀ i ∈ [Instr.fenceRel c, .fenceSc c],
      (∀ w, s.releaseBusy s.cur = some w → Waits i s w) ∧
      (s.releaseBusy s.cur = none → ∃ t, exec i s = .next t ∧ GoesOn s t ∧
        (wide c = true → ∀ pa, (s.cluster (clusterOf s.cur)).touchedBy (coreOf s.cur) pa = true →
          t.dirtyByte (clusterOf s.cur) pa = false)))

/-- The statements AcquireAndRelease and FenceWords together. -/
def Obligations.AcquireReleaseAndFences : Prop := Claims.AcquireAndRelease ∧ Claims.FenceWords

namespace Sys2Proof.Claims
open Machine

/-- The mode of a commutative page (spec/14 R290). -/
def modeOf : CMode → Nat
  | .dissolve => 0
  | .addF32 => 1
  | .addBf16 => 2
  | .addS32 => 3
  | .minF32 => 4
  | .maxF32 => 5
  | .minS32 => 6
  | .maxS32 => 7
/-- A leaf entry with S and the mode (spec/14 R288). -/
def leafWith (e : Nat) (sealed : Bool) (mode : Nat) : Nat :=
  e - (e &&& 0x780) + (if sealed then 0x80 else 0) + 256 * mode
/-- Every piece is a whole page with a leaf entry of its own, at a home that answers and that is no part of the range. -/
def WholePages (s : State) (ps : List Piece) : Prop :=
  (∀ p ∈ ps, p.len = 2 ^ levelShift p.level ∧ p.leaf < 2 ^ 64 ∧ ∃ e, p.entry = some e ∧ ∀ j, j < 8 →
    s.dead (e + j) = false ∧ s.cut (dieOf s.cur) (e + j) = false ∧ inPieces (allReplicas ps) (e + j) = false) ∧
    ps.Pairwise fun p q => ∀ e f, p.entry = some e → q.entry = some f → e + 8 ≤ f ∨ f + 8 ≤ e
/-- No cluster holds a partial of an element of a commutative page of the range. -/
def Combined (t : State) (ps : List Piece) : Prop :=
  ∀ p ∈ ps, leafC p.leaf ≠ 0 → ∀ k, ∀ q ∈ (t.cluster k).partials, q.pa % commWidth (leafC p.leaf) = 0 →
    ¬ (p.pa ≤ q.pa ∧ q.pa < p.pa + p.len)

end Sys2Proof.Claims

/-- R288 to R292: an empty range only advances the pc. A range whose pages pass the checks: cflush leaves none of its
bytes dirty in any cluster; cinval leaves no copy of one in a cluster of the die. On a range of whole pages, of any number and
of any modes, with no copies about: seal, where no store to the range is in flight, sets S and clears the mode in every leaf
entry; unseal clears S; crange writes its mode, none for crange.dissolve, into the entry of every page of another mode and
leaves the others; seal and crange leave no partial of a page that they take out of its mode. Whatever the caches hold, a seal leaves
no copy of a page it takes out of a commutative mode, so that every later load reads the combined value (R289, R282). -/
def Obligations.RangeWords : Prop :=
  ∀ (m : CMode) (a b : Reg) (s : State) (ps : List Piece),
    let va := s.readX a
    let n := s.readX b
    (n = 0 → ∀ i ∈ [Instr.seal a b, .unseal a b, .crange m a b, .cflush a b, .cinval a b],
      ∃ t, exec i s = .next t ∧ Goes s t (s.me.pc + 4)) ∧
    (n ≠ 0 → va.toNat + n.toNat ≤ 2 ^ 64 → s.releaseBusy s.cur = none →
      (s.pieces s.cur .valid va.toNat n.toNat (n.toNat / 65536 + 2) = .ok ps →
        (∃ t, exec (.cflush a b) s = .next t ∧ GoesOn s t ∧ ∀ k pa, inPieces ps pa = true → t.dirtyByte k pa = false) ∧
        (∃ t, exec (.cinval a b) s = .next t ∧ GoesOn s t ∧
          ∀ k ∈ clustersOfDie (dieOf s.cur), ∀ pa, inPieces ps pa = true → t.resident k pa = false)) ∧
      (va.toNat % 65536 = 0 → n.toNat % 65536 = 0 → s.pieces s.cur .write va.toNat n.toNat (n.toNat / 65536 + 2) = .ok ps →
        (∀ p ∈ ps, p.entry.isSome = true → p.len = 2 ^ levelShift p.level) → s.storesInFlight (allReplicas ps) = false →
        ∃ t, exec (.seal a b) s = .next t ∧ GoesOn s t ∧
          ∀ p ∈ ps, leafC p.leaf ≠ 0 → ∀ k pa, inPieces [p] pa = true → t.resident k pa = false) ∧
      (va.toNat % 65536 = 0 → n.toNat % 65536 = 0 → Bare s → WholePages s ps →
        (s.pieces s.cur .write va.toNat n.toNat (n.toNat / 65536 + 2) = .ok ps →
          (s.storesInFlight (allReplicas ps) = false → ∃ t, exec (.seal a b) s = .next t ∧ GoesOn s t ∧ Combined t ps ∧
            ∀ p ∈ ps, ∀ e, p.entry = some e → t.readHome e 8 = leafWith p.leaf true 0) ∧
          (∃ t, exec (.unseal a b) s = .next t ∧ GoesOn s t ∧
            ∀ p ∈ ps, ∀ e, p.entry = some e → t.readHome e 8 = leafWith p.leaf false (leafC p.leaf))) ∧
        (s.pieces s.cur .unsealed va.toNat n.toNat (n.toNat / 65536 + 2) = .ok ps →
          ∃ t, exec (.crange m a b) s = .next t ∧ GoesOn s t ∧ Combined t (ps.filter fun p => leafC p.leaf != modeOf m) ∧
            ∀ p ∈ ps, ∀ e, p.entry = some e → t.readHome e 8 =
              if leafC p.leaf = modeOf m then s.readHome e 8 else leafWith p.leaf false (modeOf m))))

/-- R274, R275: every atomic at every scope completes with the old value in X[d] and the new value in memory; only
amo.fadd raises flags. -/
def Obligations.AtomicWords : Prop :=
  ∀ (ty : AmoTy) (c : Scope) (d a b : Reg) (s : State) (p : Trans) (m : Nat), NoCapture s →
    AtomicFinds s (s.readX a) (amoBytes ty) c p m →
    let w := 8 * amoBytes ty
    let x := (s.readX b).toNat % 2 ^ w
    let old := (s.readX d).toNat % 2 ^ w
    let new := fun (op : AmoOp) => atomicNew op w (amoIsSigned ty) m x x
    (ty.isInt = true →
      AtomicGives (.amoAdd ty c d a b) s d ty p m (new .add) 0 ∧ AtomicGives (.amoMin ty c d a b) s d ty p m (new .min) 0 ∧
      AtomicGives (.amoMax ty c d a b) s d ty p m (new .max) 0 ∧ AtomicGives (.amoAnd ty c d a b) s d ty p m (new .and) 0 ∧
      AtomicGives (.amoOr ty c d a b) s d ty p m (new .or) 0 ∧ AtomicGives (.amoXor ty c d a b) s d ty p m (new .xor) 0 ∧
      AtomicGives (.amoSwap ty c d a b) s d ty p m (new .swap) 0 ∧
      AtomicGives (.amoCas ty c d a b) s d ty p m (atomicNew .cas w (amoIsSigned ty) m old x) 0) ∧
    (ty.isInt = false →
      let f := amoFmt ty
      let u := operand f s.me.fpctl m
      let y := operand f s.me.fpctl x
      let r := fAdd f s.me.fpctl .rne u.1 y.1
      AtomicGives (.amoFadd ty c d a b) s d ty p m r.bits (u.2 ||| y.2 ||| r.fl))

namespace Sys2Proof.Claims
open Machine

/-- The registers of the map that a hart holds itself (spec/07 R146), as a read finds them. -/
def hartRegs (s : State) : List (BitVec 12 × Word) :=
  let x := s.me
  [(0x000, BitVec.ofNat 64 x.vlen), (0x001, BitVec.ofNat 64 x.mvlen), (0x002, x.vtype), (0x004, x.kidx),
   (0x008, x.fpctl.setWidth 64), (0x009, x.fpflags.setWidth 64), (0x00A, x.ptemp.setWidth 64), (0x00B, x.gctr),
   (0x010, BitVec.ofNat 64 s.cur), (0x011, BitVec.ofNat 64 x.gid), (0x012, BitVec.ofNat 64 x.gsz), (0x013, x.garg),
   (0x014, x.tenant.setWidth 64), (0x020, BitVec.ofNat 64 s.now), (0x030, x.hstat), (0x031, x.tvec), (0x032, x.tpc),
   (0x033, x.tcause), (0x034, x.tval), (0x035, x.tinfo), (0x036, x.tscratch), (0x040, x.ectr), (0x090, x.tbase),
   (0x120, x.tmask.setWidth 64), (0x121, x.tallow.setWidth 64), (0x128, x.cnsel.setWidth 64), (0x200, x.jsel.setWidth 64)]
/-- The writable ones among them with the bits a write keeps; those at 0x014 and above need supervisor level. -/
def hartMasks : List (BitVec 12 × Word) :=
  [(0x004, 0x3FF8), (0x008, 0x3FF), (0x009, 0x1FF), (0x00B, 0xFFFFFFFFFFFFFFFF), (0x014, 0xFFF),
   (0x031, 0xFFFFFFFFFFFFFFFC), (0x032, 0xFFFFFFFFFFFFFFFC), (0x033, 0xE000000000FF00FF), (0x034, 0xFFFFFFFFFFFFFFFF),
   (0x035, 0xFFFFFFFFFFFFFF00), (0x036, 0xFFFFFFFFFFFFFFFF), (0x040, 0x8000FFFFFFFFFFFF), (0x090, 0x000FFFFFFFFFF001),
   (0x128, 0x3FFFF), (0x200, 0xFF)]
/-- The numbers that a user may not read (Access S) and may not write (Access S and RO(S)). -/
def readLevel (c : BitVec 12) : Bool := decide (0x031 ≤ c.toNat ∧ c.toNat ≤ 0x036 ∨ c.toNat = 0x090 ∨ c.toNat = 0x121)
def writeLevel (c : BitVec 12) : Bool := readLevel c || decide (c.toNat = 0x014 ∨ c.toNat = 0x040)

end Sys2Proof.Claims

/-- R146, R150: cget completes with the register's value. A read that needs supervisor level takes the privilege trap at
user level, with the register's number as value (R147). -/
def Sys2Proof.Claims.ControlRegisterReads : Prop :=
  ∀ (d : Reg) (c : BitVec 12) (v : Word) (s : State), (c, v) ∈ hartRegs s →
    (s.me.sup = true ∨ readLevel c = false → Gives (.cget d c) s d v 0) ∧
    (s.me.sup = false → readLevel c = true → s.copying s.cur = false →
      exec (.cget d c) s = .next (s.takeTrap s.cur { cause := 0x03, value := c.setWidth 64, tpc := s.me.pc }))

/-- R146, R150: cset and cswap complete with the kept bits of X[s] in the register, cswap with the old value in X[d];
every other register of the hart's map, every scalar register and every byte of memory is as before. At user level a
write of a supervisor register takes the privilege trap (R147). -/
def Sys2Proof.Claims.ControlRegisterWrites : Prop :=
  ∀ (d a : Reg) (c : BitVec 12) (mask v : Word) (s : State), (c, mask) ∈ hartMasks → (c, v) ∈ hartRegs s →
    (s.me.sup = true ∨ writeLevel c = false →
      ∀ x ∈ [(Instr.cset a c, (0 : Reg), (0 : Word)), (Instr.cswap d a c, d, v)], ∃ t, exec x.1 s = .next t ∧
        (c, s.readX a &&& mask) ∈ hartRegs t ∧
        (∀ e ∈ hartRegs s, e.1 ≠ c → e ∈ hartRegs t) ∧
        t.readX x.2.1 = (if x.2.1 = 0 then 0 else x.2.2) ∧ (∀ r, r ≠ x.2.1 → t.readX r = s.readX r) ∧
        t.me.pc = s.me.pc + 4 ∧ (∀ h, h ≠ s.cur → t.hart h = s.hart h) ∧ { t with harts := s.harts } = s) ∧
    (s.me.sup = false → writeLevel c = true → s.copying s.cur = false → ∀ i ∈ [Instr.cset a c, .cswap d a c],
      exec i s = .next (s.takeTrap s.cur { cause := 0x03, value := c.setWidth 64, tpc := s.me.pc }))

/-- The statements ControlRegisterReads and ControlRegisterWrites together. -/
def Obligations.ControlRegisterWords : Prop := Claims.ControlRegisterReads ∧ Claims.ControlRegisterWrites

namespace Sys2Proof.Claims
open Machine

/-- A barrier word of spec/13 R267 from its fields. -/
def barrierWord (phase ov : Bool) (parties pending : Nat) (bytes : Int) : Nat :=
  (if phase then 2 ^ 63 else 0) + (if ov then 2 ^ 62 else 0) + parties % 2 ^ 11 * 2 ^ 51 + pending % 2 ^ 11 * 2 ^ 40
    + (bytes % 2 ^ 40).toNat
/-- The word after its turn, if it turns (spec/13 R268). -/
def turned (phase ov : Bool) (parties pending : Nat) (bytes : Int) : Nat :=
  if pending = 0 ∧ bytes = 0 then barrierWord (!phase) ov parties parties 0 else barrierWord phase ov parties pending bytes
/-- A barrier word at ea passes its checks: it lies in a scratchpad at p, without poison, and is held back by nothing. -/
def BarrierAt (s : State) (ea : Word) (p : Trans) : Prop :=
  (∃ s1, s.check s.cur ea 8 .row .both 0 s.me.sup = (.ok p, s1)) ∧ isScratch p.pa = true ∧
    s.watchHits s.cur ea 8 false true = 0 ∧ s.emissionMeets s.cur p.pa 8 = false ∧
    s.readHomePoison (dieOf s.cur) p.pa 8 = false ∧ s.conflicts s.cur (spanOf ea 8) (spanOf ea 8) = []
/-- The word completes and the barrier at p holds w. -/
def BarrierGives (i : Instr) (s : State) (p : Trans) (w : Nat) : Prop :=
  ∃ t, exec i s = .next t ∧ GoesOn s t ∧ t.readHome p.pa 8 = w

end Sys2Proof.Claims

/-- R260, R261, R264: cp of no bytes only advances the pc. A cp whose sides pass their checks and that nothing holds back
completes: its request stands last in its cluster's queue, its ranges in the core's interlock table, and no byte of
memory has changed. -/
def Obligations.CopyWord : Prop :=
  ∀ (od os : Orient) (d a b : Reg) (s s1 s2 : State) (ds ss : List Seg),
    let dst := s.readX d
    let src := s.readX a
    let n := (s.readX b).toNat % 2 ^ 32
    (n = 0 → ∃ t, exec (.cp od os d a b) s = .next t ∧ Goes s t (s.me.pc + 4)) ∧
    (n ≠ 0 → (od = .col → dst.toNat % 4096 = 0 ∧ n % 4096 = 0) → (os = .col → src.toNat % 4096 = 0 ∧ n % 4096 = 0) →
      s.copySegs s.cur od .store dst n (n / 65536 + 2) = (.ok ds, s1) →
      s1.copySegs s.cur os .load src n (n / 65536 + 2) = (.ok ss, s2) →
      s.watchHits s.cur dst n false true = 0 → s.watchHits s.cur src n true false = 0 →
      s.myCore.interlocks.length < 32 → s.conflicts s.cur (spanOf src n) (spanOf dst n) = [] →
      (∀ g ∈ ds ++ ss, s.emissionMeets s.cur g.pa g.len = false) →
      (s.cluster (clusterOf s.cur)).copies.length < 64 →
      ∃ t c, exec (.cp od os d a b) s = .next t ∧ GoesOn s t ∧ t.mem = s.mem ∧
        (t.cluster (clusterOf s.cur)).copies = (s.cluster (clusterOf s.cur)).copies ++ [c] ∧
        c.hart = s.cur ∧ c.dst = dst.toNat ∧ c.src = src.toNat ∧ c.n = n ∧ c.landed = 0 ∧ c.running = false ∧
        c.dstSegs = ds ∧ c.srcSegs = ss ∧
        t.myCore.interlocks = s.myCore.interlocks ++ [⟨s.cur, c.id, spanOf src n, spanOf dst n⟩])

/-- R267 to R269: abar.init writes a fresh word; abar.expect adds to the byte count in range; abar.arrive takes one from
the pending arrivals, or sets ov when none is pending; each word then turns when nothing is pending; abar.wait goes on
when the phase is the one asked for, and waits otherwise. -/
def Obligations.BarrierWords : Prop :=
  ∀ (a b : Reg) (s : State) (p : Trans) (ph ov : Bool) (parties pending : Nat) (bytes : Int), Uncached s →
    BarrierAt s (s.readX a) p → parties < 2 ^ 11 → pending < 2 ^ 11 → -(2 ^ 39) ≤ bytes → bytes < 2 ^ 39 →
    (BarrierGives (.abarInit a b) s p
      (barrierWord false false (s.readX b).toNat (s.readX b).toNat 0)) ∧
    (s.readHome p.pa 8 = barrierWord ph ov parties pending bytes →
      (∀ z, z = bytes + (s.readX b).toInt → -(2 ^ 39) ≤ z → z < 2 ^ 39 →
        BarrierGives (.abarExpect a b) s p (turned ph ov parties pending z)) ∧
      (s.arriveBusy s.cur p.pa = none → BarrierGives (.abarArrive a) s p
        (if pending = 0 then turned ph true parties 0 bytes else turned ph ov parties (pending - 1) bytes)) ∧
      (ph = (s.readX b).getLsbD 0 → BarrierGives (.abarWait a b) s p (barrierWord ph ov parties pending bytes)) ∧
      (ph ≠ (s.readX b).getLsbD 0 → s.me.stall = none → ∃ t, exec (.abarWait a b) s = .next t ∧ t.me.wait = .abar ∧ t.me.pc = s.me.pc ∧
        (∀ r, t.readX r = s.readX r) ∧ t.readHome p.pa 8 = s.readHome p.pa 8))

/-- R313: gbar in a gang that is not co-resident takes the gang-wave trap, and so does a hart of no gang, which counts as
co = 0 (log 15, the model's choice). A hart whose barrier has turned passes; an
arrival that does not complete the count leaves its hart waiting with the count one higher; the arrival that completes
it passes at once and releases the harts that wait. -/
def Obligations.GangBarrier : Prop :=
  ∀ (s : State) (g : Gang),
    (s.coResident = false → s.copying s.cur = false →
      exec .gbar s = .next (s.takeTrap s.cur { cause := 0x22, tpc := s.me.pc })) ∧
    (s.coResident = true → s.me.gang = some g.id → s.gangOf g.id = some g → s.reelRoom s.cur 0x0203 = true →
      s.me.stall = none →
      (s.me.pass = true → ∃ t, exec .gbar s = .next t ∧ GoesOn s t ∧ t.me.pass = false) ∧
      (s.me.pass = false → s.me.arr = false → s.releaseBusy s.cur = none →
        (g.count + 1 + g.haltedHarts.length ≠ blockSize g.blk → ∃ t, exec .gbar s = .next t ∧ t.me.wait = .gbar ∧
          t.me.arr = true ∧ t.me.pc = s.me.pc ∧ (∀ r, t.readX r = s.readX r) ∧
          (t.gangOf g.id).map (·.count) = some (g.count + 1)) ∧
        (g.count + 1 + g.haltedHarts.length = blockSize g.blk → s.cur ∈ g.harts → ∃ t, exec .gbar s = .next t ∧
          GoesOn s t ∧ t.me.pass = false ∧ (t.gangOf g.id).map (·.count) = some 0 ∧
          ∀ h ∈ g.harts, h ≠ s.cur → (s.hart h).gang = some g.id → (s.hart h).arr = true →
            (t.hart h).arr = false ∧ (t.hart h).pass = true)))

/-- R311, R312: glaunch of a block it can read puts it last in the device launch list of its die with 0 in X[d], or
writes 1 when the list is full; gwait goes on once the doubleword it reads has reached X[t], and waits before. -/
def Sys2Proof.Claims.LaunchAndWait : Prop :=
  ∀ (d a b : Reg) (s : State) (p : Trans) (m : Nat), Uncached s → s.releaseBusy s.cur = none →
    let ea := s.readX a
    (LoadFinds s ea 64 .row p m →
      ∃ t, exec (.glaunch d a) s = .next t ∧
        (∀ r, r ≠ d → t.readX r = s.readX r) ∧ t.me.pc = s.me.pc + 4 ∧ t.mem = s.mem ∧
        (if 256 ≤ (s.die (dieOf s.cur)).devList.length then
          t.readX d = (if d = 0 then 0 else 1) ∧ (t.die (dieOf s.cur)).devList = (s.die (dieOf s.cur)).devList
        else
          t.readX d = 0 ∧ (t.die (dieOf s.cur)).devList =
            (s.die (dieOf s.cur)).devList ++ [((s.die (dieOf s.cur)).takeNo, s.takes, ownBlock s.me (blockOf m))])) ∧
    (LoadFinds s ea 8 .row p m →
      ((s.readX b).toNat ≤ m → ∃ t, exec (.gwait a b) s = .next t ∧ GoesOn s t ∧ t.mem = s.mem) ∧
      (m < (s.readX b).toNat → s.me.stall = none → ∃ t, exec (.gwait a b) s = .next t ∧ t.me.wait = .gwait ∧ t.me.pc = s.me.pc ∧
        (∀ r, t.readX r = s.readX r) ∧ t.mem = s.mem))

/-- R315 to R317: wadd puts its item, bit 63 cleared, last in the list; a list of 4,096 items takes the work-list-full
trap; wtake takes the oldest item of its gang, or writes all ones; a list operand that names no list takes the work-list trap, and
wadd in a gang found quiescent the quiescence trap, each with its operand as value (R310); tidle makes the hart idle; tquiet
writes whether the gang is quiescent; both take the gang-wave trap in a gang that is not co-resident. A hart of no gang counts
as co = 0, and its items as those of one identity of its own (gangKey): that is log 15, the model's choice. -/
def Sys2Proof.Claims.WorkWords : Prop :=
  ∀ (d a b : Reg) (s : State) (k n : Nat), s.releaseBusy s.cur = none →
    (s.copying s.cur = false →
      ((s.readX a).toNat / 2 ^ 10 ≠ 0 ∨ 12 ≤ (s.readX a).toNat / 2 ^ 4 % 16 → ∀ i ∈ [Instr.wadd a b, .wtake d a],
        exec i s = .next (s.takeTrap s.cur { cause := 0x23, value := s.readX a, tpc := s.me.pc })) ∧
      (listOf (s.readX a) = some (k, n) → s.quietGang = true →
        exec (.wadd a b) s = .next (s.takeTrap s.cur { cause := 0x25, value := s.readX a, tpc := s.me.pc })) ∧
      (s.coResident = false → ∀ i ∈ [Instr.tidle, .tquiet d],
        exec i s = .next (s.takeTrap s.cur { cause := 0x22, tpc := s.me.pc }))) ∧
    (listOf (s.readX a) = some (k, n) →
      (s.quietGang = false → (s.workList k n).length < 4096 → ∃ t, exec (.wadd a b) s = .next t ∧ GoesOn s t ∧
        t.me.idle = false ∧
        t.workList k n = s.workList k n ++ [(gangKey s.me, s.readX b &&& 0x7FFFFFFFFFFFFFFF#64)]) ∧
      (s.quietGang = false → 4096 ≤ (s.workList k n).length → s.copying s.cur = false → ∃ u : State,
        (∀ r, u.readX r = s.readX r) ∧ u.workList k n = s.workList k n ∧
        exec (.wadd a b) s = .next (u.takeTrap s.cur { cause := 0x24, value := s.readX a, tpc := s.me.pc })) ∧
      (∀ pre v post, s.workList k n = pre ++ (gangKey s.me, v) :: post → (∀ x ∈ pre, x.1 ≠ gangKey s.me) →
        ∃ t, exec (.wtake d a) s = .next t ∧ t.readX d = (if d = 0 then 0 else v) ∧
          (∀ r, r ≠ d → t.readX r = s.readX r) ∧ t.me.pc = s.me.pc + 4 ∧ t.workList k n = pre ++ post) ∧
      ((∀ x ∈ s.workList k n, x.1 ≠ gangKey s.me) → ∃ t, exec (.wtake d a) s = .next t ∧
        t.readX d = (if d = 0 then 0 else 0xFFFFFFFFFFFFFFFF) ∧ (∀ r, r ≠ d → t.readX r = s.readX r) ∧
        t.me.pc = s.me.pc + 4 ∧ t.workList k n = s.workList k n)) ∧
    (s.coResident = true →
      (∃ t, exec .tidle s = .next t ∧ GoesOn s t ∧ t.me.idle = true) ∧
      (∀ g, s.myGang = some g → ∃ t, exec (.tquiet d) s = .next t ∧
        t.readX d = (if d ≠ 0 ∧ (g.quiet = true ∨ s.quiescent g = true) then 1 else 0) ∧
        (∀ r, r ≠ d → t.readX r = s.readX r) ∧ t.me.pc = s.me.pc + 4))

/-- The statements LaunchAndWait and WorkWords together. -/
def Obligations.LaunchWaitAndWork : Prop := Claims.LaunchAndWait ∧ Claims.WorkWords

namespace Sys2Proof.Claims
open Machine

/-- The byte offset of vector register r in a save area (spec/11 R237). -/
def savedReg (r : Nat) : Nat := 0x1000 + 0x2000 * r
def savedPred (r : Nat) : Nat := 0x41000 + 0x4000 * r
def savedScale (k : Nat) : Nat := 0xC1000 + 0x800 * k
/-- The numbers of a trap record, each with its offset and its bytes (spec/11 R224): x is the hart that takes the trap, cause
its tcause after it. -/
def recordFields (x : Hart) (t : Trap) (cause clk : Word) : List (Nat × Nat × Nat) :=
  let mask := t.mask <|> x.armed
  [(0x00, 8, t.tpc.toNat), (0x08, 8, cause.toNat), (0x10, 8, t.value.toNat), (0x18, 8, t.aux.toNat),
   (0x20, 2, t.pos.getD 0), (0x22, 2, t.word.getD 0),
   (0x24, 4, (if t.pos.isSome then 1 else 0) + (if t.word.isSome then 2 else 0) + if mask.isSome then 4 else 0),
   (0x28, 8, x.stripBase.toNat), (0x30, 4, x.buffer.length), (0x34, 4, (x.buffer.map (·.bytes)).sum), (0x38, 8, clk.toNat),
   (0x40, 64, 0), (0x80, 128, mask.getD 0)]
/-- The n bytes at a physical address, as the executing hart's cluster reads them. -/
def areaBytes (s : State) (pa n : Nat) : List Byte := (List.range n).map fun j => s.clusterByte (clusterOf s.cur) (pa + j)
/-- The n bytes at a physical address are those of a number, the lowest first. -/
def AreaHolds (s : State) (pa n v : Nat) : Prop :=
  ∀ j, j < n → s.clusterByte (clusterOf s.cur) (pa + j) = BitVec.ofNat 8 (v / 2 ^ (8 * j))
/-- The words that need supervisor level (spec/11 R226). -/
def supervisorWords (d a : Reg) : List Instr := [.tret, .vown d, .vsave a, .vrest a]

end Sys2Proof.Claims

/-- R221, R224: taking a trap with a handler and a record area, where the record can be written: tpc, tcause and tval are
saved, the hart is at supervisor level at tvec, and no scalar register of it has changed; where no stream is enabled, and the record
area is at hand or no cluster holds a copy, the 256 bytes of the record stand there. A hart that waited first gives up its
interlock entry, its stall and the marks of its queue, as log 3 says. -/
def Sys2Proof.Claims.TrapEntry : Prop :=
  ∀ (s s1 : State) (h : Nat) (t : Trap) (p : Trans),
    let x := s.hart h
    s.takeTrap h t = (((s.letGo h).endStall h).dropMarks h).takeTrap h t ∧
    (x.tvec ≠ 0 → x.tinfo ≠ 0 → x.holds = false → x.stall = none → x.marks = 0 →
      s.check h x.tinfo 8 .row .store 0 true = (.ok p, s1) →
    let y := (s.takeTrap h t).hart h
    y.pc = x.tvec ∧ y.tpc = t.tpc ∧ y.tval = t.value ∧ y.sup = true ∧ y.armed = none ∧ y.wait = .none ∧
      (y.tcause.toNat % 256 = t.cause % 256 ∧ y.tcause.toNat / 2 ^ 16 % 256 = t.sub % 256) ∧
      y.tcause.getLsbD 63 = t.async ∧ y.tcause.getLsbD 62 = x.sup ∧
      y.tcause.getLsbD 61 = (t.mask.isSome || x.armed.isSome) ∧
      (∀ r, y.readX r = x.readX r) ∧ y.fpflags = x.fpflags ∧ y.tvec = x.tvec ∧ y.tinfo = x.tinfo ∧
      y.v = x.v ∧ y.p = x.p ∧ y.vlen = x.vlen ∧
      ((∀ n, (s.stream n).en = false) → Writable { s with cur := h } p.pa 256 → x.tinfo.toNat % 256 = 0 →
        x.buffer.length ≤ 16 → (x.buffer.map (·.bytes)).sum < 2 ^ 32 →
        (Bare s ∨ ∀ j, j < 256 → cacheable (p.pa + j) = false ∨
          (s.cluster (clusterOf h)).lines.any (fun l => l.key == .row ((p.pa + j) / 64)) = true) →
        ∀ f ∈ recordFields x t y.tcause s.clk, AreaHolds { s.takeTrap h t with cur := h } (p.pa + f.1) f.2.1 f.2.2))

/-- R221, R332: with no handler or no record area, a trap raises the halt line of the hart's tenant with its cause and
value and the hart as its origin, and the hart is as before, but for an event that its record may be to it (R230). -/
def Sys2Proof.Claims.TrapWithoutHandler : Prop :=
  ∀ (s : State) (h : Nat) (t : Trap), (s.hart h).tvec = 0 ∨ (s.hart h).tinfo = 0 →
    (s.hart h).holds = false → (s.hart h).stall = none → (s.hart h).marks = 0 →
    s.haltUp (s.hart h).tenant.toNat = false →
    let u := s.takeTrap h t
    u.haltUp (s.hart h).tenant.toNat = true ∧ { u.hart h with latch := (s.hart h).latch } = s.hart h ∧
      ∃ l, Tab.find u.halts (s.hart h).tenant.toNat = some l ∧ l.origin = h ∧ l.value = t.value ∧ l.stopped = [] ∧
        l.cause.toNat % 256 = t.cause % 256 ∧ l.cause.toNat / 2 ^ 16 % 256 = t.sub % 256 ∧
        l.cause.getLsbD 63 = t.async ∧ l.cause.getLsbD 62 = (s.hart h).sup ∧
        l.cause.getLsbD 61 = (t.mask.isSome || (s.hart h).armed.isSome)

/-- The statements TrapEntry and TrapWithoutHandler together. -/
def Obligations.TakingTraps : Prop := Claims.TrapEntry ∧ Claims.TrapWithoutHandler

/-- R226 to R228: trap takes its exception with X[s] as value and the next word as return address; tret returns to tpc
at the level that tcause holds; where tcause says that a completion mask is pending, it clears that bit and arms the mask of
the record area (R225); at user level the words of the supervisor take the privilege trap with their word as value. That nothing
is armed where the area cannot be read is log 67 (DESIGN CHOICE), and that poison in the mask raises the tenant's halt line as
any load's does is log 54 (DEDUCED): neither R225 nor R325 says so. The mask's lines replace no other. -/
def Obligations.TrapAndReturn : Prop :=
  ∀ (d a : Reg) (s : State),
    (s.copying s.cur = false →
      exec (.trap a) s = .next (s.takeTrap s.cur { cause := 0x20, value := s.readX a, tpc := s.me.pc + 4 })) ∧
    (s.me.sup = true → s.reelRoom s.cur 0x0101 = true → s.me.stall = none → ∀ (r : Except Bad Trans) (s1 : State) (m : Nat) (bad : Bool),
      s.check s.cur s.me.tinfo 8 .row .load 0 true = (r, s1) →
      let mv := s.me.tcause.getLsbD 61
      (mv = true → s.conflicts s.cur (spanOf (s.me.tinfo + 0x80) 128) .empty = []) →
      (∀ p, mv = true → r = .ok p → s.bytesAt (coreOf s.cur) (p.pa + 0x80) 128 = (bytesLE 128 m, bad) ∧ m < 2 ^ 1024 ∧
        servedBy p.pa ≠ .mgmt ∧ leafC p.leaf = 0 ∧ s.emissionMeets s.cur (p.pa + 0x80) 128 = false ∧ Inclusive s ∧
        HasWay s (lineFor .row 64 (p.pa + 0x80)) ∧ HasWay s (lineFor .row 64 (p.pa + 0xC0)) ∧
        Current s ((lineFor .row 64 (p.pa + 0x80)).bytes ++ (lineFor .row 64 (p.pa + 0xC0)).bytes)) →
      (mv = false ∨ r.isOk = false ∨ bad = false → ∃ t, exec .tret s = .next t ∧
        t.me.pc = s.me.tpc ∧ t.me.sup = s.me.tcause.getLsbD 62 ∧ t.me.tcause = s.me.tcause &&& ~~~(1#64 <<< 61) ∧
        t.me.armed = (if mv then (if r.isOk then some m else none) else s.me.armed) ∧
        (∀ r, t.readX r = s.readX r) ∧ t.me.fpflags = s.me.fpflags ∧ t.me.tpc = s.me.tpc ∧ t.me.tval = s.me.tval) ∧
      (mv = true → r.isOk = true → bad = true →
        ∃ t, exec .tret s = .next t ∧ t.haltUp s.me.tenant.toNat = true ∧ t.me.pc = s.me.pc ∧ t.me.sup = true)) ∧
    (s.me.sup = false → s.copying s.cur = false → ∀ i ∈ supervisorWords d a, ∃ n w, encode i = some (n, w) ∧
      exec i s = .next (s.takeTrap s.cur { cause := 0x03, value := BitVec.ofNat 64 w, tpc := s.me.pc }))

/-- R229, R230: halt ends its hart and its own vector state; wfe goes on and takes the event latch down when it is up,
and waits when it is down. -/
def Sys2Proof.Claims.HaltAndWait : Prop :=
  ∀ (s : State),
    (s.reelRoom s.cur 0x0201 = true → s.me.stall = none → s.copying s.cur = false → ∃ t, exec .halt s = .next t ∧
      t.me.halted = true ∧ (∀ r, t.readX r = s.readX r) ∧
      (s.me.own = s.me.ctx → t.me.lanes = 0 ∧ t.me.buffer = [] ∧ t.me.v = [] ∧ t.me.p = [] ∧ t.me.matrix = false ∧
        t.geyserOf s.cur = [] ∧ t.myCore.arrayHolder ≠ some s.cur) ∧
      (s.me.own ≠ s.me.ctx → t.me.lanes = s.me.lanes ∧ t.me.buffer = s.me.buffer ∧ t.me.v = s.me.v)) ∧
    (s.me.latch = true → ∃ t, exec .wfe s = .next t ∧ GoesOn s t ∧ t.me.latch = false ∧ { t with harts := s.harts } = s) ∧
    (s.me.latch = false → Waits .wfe s .wfe)

/-- R231, R233: vown at supervisor level writes the old owner and makes the running context the owner of fresh vector
state; the lanes stay. -/
def Sys2Proof.Claims.TakeOwnership : Prop :=
  ∀ (d : Reg) (s : State), s.me.sup = true → s.reelRoom s.cur 0x0102 = true → s.me.stall = none →
    ∃ t, exec (.vown d) s = .next t ∧
      t.readX d = (if d = 0 then 0 else s.me.own.setWidth 64) ∧ (∀ r, r ≠ d → t.readX r = s.readX r) ∧
      t.me.pc = s.me.pc + 4 ∧ t.me.own = s.me.ctx ∧ t.me.lanes = s.me.lanes ∧
      t.me.vlen = 0 ∧ t.me.mvlen = 0 ∧ t.me.v = [] ∧ t.me.p = [] ∧ t.me.k = [] ∧ t.me.buffer = [] ∧ t.me.pend = 0 ∧
      t.me.sw = 3 ∧ t.me.stripBase = 0 ∧ t.me.matrix = false ∧ t.geyserOf s.cur = []

/-- The statements HaltAndWait and TakeOwnership together. -/
def Obligations.HaltWaitAndOwnership : Prop := Claims.HaltAndWait ∧ Claims.TakeOwnership

/-- R234, R236, R237: vsave in an untranslated space to an aligned area of stack 0 that answers, where no other cluster
holds copies, completes and clears pend. The area's header holds owner, lanes and mode, the two lengths, the strip's widths
and base, the counts, the type of an armed bypass and the charge; the bytes of every vector, predicate and scale register,
the tags of the predicates, every Geyser entry and every buffered element stand at their places, and in matrix mode the
accumulators and the bypass. -/
def Sys2Proof.Claims.SaveVectorState : Prop :=
  ∀ (a : Reg) (s : State),
    let va := (s.readX a).toNat
    let x := s.me
    x.sup = true → tbaseEn x.tbase = false → va % 4096 = 0 → va + 0x800000 ≤ 64000000000 →
    x.lanes ≤ 32 → (slotsOf x.buffer).length ≤ 131072 → (s.geyserOf s.cur).length ≤ 4096 →
    s.myCore.interlocks = [] → s.journals = [] → s.drains = [] → Alone s →
    (∀ b, va ≤ b → b < va + 0x800000 → s.dead b = false ∧ s.cut (dieOf s.cur) b = false) →
    ∃ t, exec (.vsave a) s = .next t ∧ GoesOn s t ∧ t.me.pend = 0 ∧
      (t.bytesAt (coreOf s.cur) va 8).1 =
        bytesLE 8 (x.own.toNat + x.lanes * 2 ^ 16 + if x.matrix then 2 ^ 24 else 0) ∧
      (t.bytesAt (coreOf s.cur) (va + 8) 8).1 = bytesLE 8 x.vlen ∧ AreaHolds t (va + 0x10) 8 x.mvlen ∧
      (x.sw < 8 → x.swq < 32 → AreaHolds t (va + 0x18) 8 (x.sw + x.swq * 8)) ∧ AreaHolds t (va + 0x20) 8 x.stripBase.toNat ∧
      AreaHolds t (va + 0x30) 8 (match x.bypass with
        | none => 0
        | some (ty, _) => 1 + codeOfTy ty * 16) ∧ AreaHolds t (va + 0x38) 8 x.pend.toNat ∧
      (x.buffer.length ≤ 16 → AreaHolds t (va + 0x28) 8
        ((s.geyserOf s.cur).length + x.buffer.length * 2 ^ 16 + (slotsOf x.buffer).length * 2 ^ 32)) ∧
      (∀ r : Reg, AreaHolds t (va + savedReg r.toNat) (256 * x.lanes) (x.vimg r) ∧
        AreaHolds t (va + savedPred r.toNat) (512 * x.lanes) (x.pred r).cells ∧
        AreaHolds t (va + 0x40 + r.toNat) 1 ((if (x.pred r).prob then 1 else 0) + if (x.pred r).ind then 2 else 0)) ∧
      (∀ k, k < 8 → AreaHolds t (va + savedScale k) 0x800 (Tab.get 0 x.k k)) ∧
      (∀ n e, (s.geyserOf s.cur)[n]? = some e → AreaHolds t (va + 0xC5000 + 48 * n) 48 (leOf (geyserBytes e))) ∧
      (∀ n e, (slotsOf x.buffer)[n]? = some e → AreaHolds t (va + 0x116000 + 32 * n) 32 (leOf (slotBytes e.1 e.2))) ∧
      (x.matrix = true → AreaHolds t (va + 0xF5000) 0x10000 x.za ∧ AreaHolds t (va + 0x105000) 0x10000 x.zb ∧
        AreaHolds t (va + 0x115000) 0x1000 (leOf (bypassBytes x.bypass)))

/-- R235 to R237: vrest in an untranslated space from an area of stack 0 whose header and slots are valid, with no copies
about, with the lanes the hart holds, room in the Geyser queue and, for matrix mode, the array at hand, makes the running
context the owner of the saved length, strip, vector, predicate and scale registers, Geyser entries and buffered elements,
and in matrix mode of the accumulators and the bypass. That cells of predicates are clamped as a write clamps them is log
55, the model's choice, and that the header's count of Geyser entries is the number of the queued entries log 41. A header
with a reserved bit set, more than 32 lanes or another invalid field takes the restore trap with the field's offset as
value: of several invalid fields the one at the lowest offset, which is log 68, the model's choice. -/
def Sys2Proof.Claims.RestoreVectorState : Prop :=
  ∀ (a : Reg) (s : State) (bs : List Byte),
    let va := (s.readX a).toNat
    s.me.sup = true → tbaseEn s.me.tbase = false → va % 4096 = 0 → va + 0x800000 ≤ 64000000000 →
    s.myCore.interlocks = [] → s.journals = [] → s.me.stall = none → s.me.rest = none → s.reelRoom s.cur 0x0102 = true → Bare s →
    (∀ b, va ≤ b → b < va + 0x800000 → Unmarked s b) →
    (s.bytesAt (coreOf s.cur) va 0x60).1 = bs →
    let w := headWord bs
    let f := savedOf bs
    let A := fun off n => areaBytes s (va + off) n
    let slot := fun i => A (0x116000 + 32 * i) 32
    (savedBad bs = none → f.lanes = s.me.lanes → (∀ i, i < f.slots → slotBad f.entries (slot i) = false) →
      (f.m = true → s.myCore.arrayHolder = some s.cur ∨ (s.myCore.arrayHolder = none ∧ s.myCore.arrayWait = [])) →
      (s.myCore.geyser.filter fun e => e.hart != s.cur % 4).length + f.queued ≤ 4096 →
      ∃ t, exec (.vrest a) s = .next t ∧ GoesOn s t ∧ t.me.own = s.me.ctx ∧ t.me.vlen = w 1 ∧ t.me.mvlen = w 2 ∧
        t.me.lanes = s.me.lanes ∧ t.me.sw = f.sw ∧ t.me.swq = f.swq ∧ t.me.stripBase = BitVec.ofNat 64 (w 4) ∧ t.me.pend = 0 ∧ t.me.matrix = f.m ∧
        (∀ r : Reg, t.me.vimg r = leOf (A (savedReg r.toNat) (256 * s.me.lanes)) ∧
          t.me.pred r = restoredPred (leOf (A (0x40 + r.toNat) 1)) (leOf (A (savedPred r.toNat) (512 * s.me.lanes))) (256 * s.me.lanes)) ∧
        (∀ k, k < 8 → Tab.get 0 t.me.k k = leOf (A (savedScale k) 0x800)) ∧
        t.geyserOf s.cur = (List.range f.queued).map (fun n => geyserOfBytes s.cur (A (0xC5000 + 48 * n) 48)) ∧
        t.me.buffer.map (·.elems) = (List.range f.entries).map (fun n =>
          (((List.range f.slots).map slot).filter fun b => slotEntry b == n).map slotElem) ∧
        (f.m = true → t.me.za = leOf (A 0xF5000 0x10000) ∧ t.me.zb = leOf (A 0x105000 0x10000) ∧
          t.me.bypass = f.bypass.map fun ty => (ty, bypassImage ty (A 0x115000 0x1000)))) ∧
    (∀ off, savedBad bs = some off → s.copying s.cur = false → ∃ u : State, (∀ r, u.readX r = s.readX r) ∧
      u.me.v = s.me.v ∧ u.me.vlen = s.me.vlen ∧
      exec (.vrest a) s = .next (u.takeTrap s.cur { cause := 0x19, value := BitVec.ofNat 64 off, tpc := s.me.pc }))

/-- The statements SaveVectorState and RestoreVectorState together. -/
def Obligations.SavedVectorState : Prop := Claims.SaveVectorState ∧ Claims.RestoreVectorState

namespace Sys2Proof.Claims
open Machine

/-- The n bytes from pa stand at a home that answers. -/
def Answers (s : State) (pa n : Nat) : Prop := ∀ i, i < n → s.dead (pa + i) = false ∧ s.cut (homeDie pa) (pa + i) = false
/-- Stream n is the one that takes a record, at once and with nothing before it: its next slot is the address given (spec/18
R352 to R357). -/
def OneStream (s : State) (r : Rec) (n slot : Nat) : Prop :=
  s.streamsFor r = [n] ∧ s.olderWaits r.source = false ∧ (s.stream n).drops = 0 ∧ (s.stream n).house = [] ∧
    s.ringUsed n < 2 ^ (s.stream n).size ∧
    slot = (s.stream n).header + 0x40 + 32 * ((s.stream n).written % 2 ^ (s.stream n).size) ∧ Answers s slot 32
/-- The 32 bytes at an address are a record with these fields (spec/18 R345). -/
def RecordAt (t : State) (pa time seq code tenant source : Nat) (p0 p1 : Word) : Prop :=
  t.readHome pa 8 = time ∧ t.readHome (pa + 8) 8 = seq * 2 ^ 48 + code * 2 ^ 32 + tenant * 2 ^ 16 + source ∧
    t.readHome (pa + 16) 8 = p0.toNat ∧ t.readHome (pa + 24) 8 = p1.toNat

end Sys2Proof.Claims

/-- R363, R364, R372, R378: tmark, tflt, prog and lcap complete: a tmark whose class is masked emits nothing; the record of
another, where one stream takes it, stands in that stream's next slot with the time, the mark, the tenant, the hart, X[t] and
the pc; tflt sets the mask within what is allowed, class 5 always on; prog counts one step of its point while a trial runs;
lcap reads the item its selector names and clears the unit when asked, and then says whether a capture was lost. A selector
that is not valid takes its trap. That the record stands in its slot right after the word is log 18, and its time that of the
cycle of the word log 2: the model's choices. -/
def Sys2Proof.Claims.ReelWords : Prop :=
  ∀ (d a b : Reg) (s : State), s.me.stall = none →
    (s.reelRoom s.cur (0x8000 + (s.readX a).toNat % 2 ^ 12) = true → ∃ t, exec (.tmark a b) s = .next t ∧ GoesOn s t ∧
      (s.me.tmask.getLsbD 0 = false → t.streams = s.streams ∧ t.mem = s.mem ∧ t.seqs = s.seqs) ∧
      (s.me.tmask.getLsbD 0 = true → s.cur < 1536 → ∀ (q n slot : Nat), q = Tab.get 0 s.seqs s.cur → q < 2 ^ 16 →
        let time := s.tstamp (dieOf s.cur)
        let code := 0x8000 + (s.readX a).toNat % 2 ^ 12
        OneStream s ⟨time, q, code, false, s.me.tenant.toNat, s.cur, s.readX b, s.me.pc⟩ n slot →
          RecordAt t slot time q code s.me.tenant.toNat s.cur (s.readX b) s.me.pc ∧
            (t.stream n).written = (s.stream n).written + 1 ∧ Tab.get 0 t.seqs s.cur = (q + 1) % 2 ^ 16)) ∧
    (∃ t, exec (.tflt a) s = .next t ∧ GoesOn s t ∧
      t.me.tmask = (s.readX a).setWidth 16 &&& s.me.tallow ||| 0x0020) ∧
    (s.reelRoom s.cur 0x0602 = true → (s.readX a).toNat ≤ 7 → ∃ t, exec (.prog a) s = .next t ∧ GoesOn s t ∧
      ((s.myGang.bind (·.trial)).isSome = true → Tab.get 0 t.me.trial.prog (s.readX a).toNat =
        Tab.get 0 s.me.trial.prog (s.readX a).toNat + 1) ∧
      ((s.myGang.bind (·.trial)).isSome = false → t.me.trial = s.me.trial)) ∧
    (7 < (s.readX a).toNat → s.copying s.cur = false →
      exec (.prog a) s = .next (s.takeTrap s.cur { cause := 0x28, sub := 4, value := s.readX a, tpc := s.me.pc })) ∧
    (let v := s.readX a
     let u := Tab.get {} s.myCore.latency (v.toNat / 2 ^ 8 % 4)
     (selectorValid v = true → lcapReadable s.me (Tab.get 0 s.myCore.lcfg (v.toNat / 2 ^ 8 % 4)) = true →
        ∃ t, exec (.lcap d a) s = .next t ∧
          t.readX d = (if d = 0 then 0 else BitVec.ofNat 64 (latencyItem u (v.toNat % 256))) ∧
          (∀ r, r ≠ d → t.readX r = s.readX r) ∧ t.me.pc = s.me.pc + 4 ∧ t.mem = s.mem ∧
          Tab.get {} t.myCore.latency (v.toNat / 2 ^ 8 % 4) = 
            (if v.getLsbD 10 then { lost := if s.myCore.clash.contains (v.toNat / 2 ^ 8 % 4) then 1 else 0 } else u)) ∧
     (selectorValid v = false → s.copying s.cur = false →
        exec (.lcap d a) s = .next (s.takeTrap s.cur { cause := 0x29, value := v, tpc := s.me.pc })))

/-- R375, R376: cexp with a valid descriptor starts the trial of a co-resident gang, with every count of its harts at
zero, the executing hart's among them; cexp with 0 ends the trial that runs; a gang with co = 0 takes the trial trap, and so
does a hart of no gang, which counts as co = 0 (log 15, the model's choice). -/
def Sys2Proof.Claims.Trials : Prop :=
  ∀ (a : Reg) (s : State) (g : Gang) (p : Trans) (v : Nat), s.me.stall = none →
    (s.me.gang = none → s.copying s.cur = false →
      exec (.cexp a) s = .next (s.takeTrap s.cur { cause := 0x28, sub := 2, value := s.readX a, tpc := s.me.pc })) ∧
    (s.me.gang = some g.id → s.gangOf g.id = some g → blockCo g.blk = false → s.copying s.cur = false →
      exec (.cexp a) s = .next (s.takeTrap s.cur { cause := 0x28, sub := 2, value := s.readX a, tpc := s.me.pc })) ∧
    (s.me.gang = some g.id → s.gangOf g.id = some g → blockCo g.blk = true →
      (s.readX a ≠ 0 → s.reelRoom s.cur 0x0600 = true → g.trial = none → Uncached s →
        (∃ s1, s.check s.cur (s.readX a) 128 .row .both 0 s.me.sup = (.ok p, s1)) → servedBy p.pa ≠ .mgmt → leafC p.leaf = 0 →
        s.conflicts s.cur (spanOf (s.readX a) 128) (spanOf (s.readX a) 128) = [] → s.emissionMeets s.cur p.pa 128 = false →
        s.bytesAt (coreOf s.cur) p.pa 128 = (bytesLE 128 v, false) →
        (∀ b, p.pa / 64 ≤ b / 64 → b / 64 ≤ (p.pa + 127) / 64 → s.homePoison (dieOf s.cur) b = false) →
        descriptorBad v = false →
        ∃ t, exec (.cexp a) s = .next t ∧ GoesOn s t ∧
          (t.gangOf g.id).bind (·.trial) =
            some ⟨s.readX a, p.pa, v % 2 ^ 64, v / 2 ^ 64 % 2 ^ 64, v / 2 ^ 128 % 2 ^ 16⟩ ∧
          ∀ h ∈ g.harts, (t.hart h).trial = {}) ∧
      (s.readX a = 0 → s.reelRoom s.cur 0x0601 = true → g.trial.isSome = true →
        ∃ t, exec (.cexp a) s = .next t ∧ GoesOn s t ∧ (t.gangOf g.id).bind (·.trial) = none))

/-- The statements ReelWords and Trials together. -/
def Obligations.ReelWordsAndTrials : Prop := Claims.ReelWords ∧ Claims.Trials

namespace Sys2Proof.Claims
open Machine

/-- The journal context of the executing hart is its own, enabled and open (spec/19 R388). -/
def OwnContext (s : State) (j : Journal) : Prop :=
  j = s.journal s.me.jsel.toNat ∧ j.en = true ∧ j.state ≠ 0 ∧ j.ten = s.me.tenant

end Sys2Proof.Claims

/-- R388: each Slate word on a context that is not enabled takes the journal trap, once its address checks have passed. -/
def Sys2Proof.Claims.JournalContextCheck : Prop :=
  ∀ (a b : Reg) (s : State) (p : Trans),
    let j := s.journal s.me.jsel.toNat
    let t := s.takeTrap s.cur { cause := 0x2C, value := s.me.jsel.setWidth 64, tpc := s.me.pc }
    j.en = false ∨ j.state = 0 → s.copying s.cur = false →
    exec (.jsync a) s = .next t ∧ exec (.jtrunc a) s = .next t ∧
    (s.check s.cur (s.readX a) 32 .row .load 0 s.me.sup = (.ok p, s) → exec (.jput a) s = .next t) ∧
    (s.check s.cur (s.readX a) 16 .row .store 0 s.me.sup = (.ok p, s) → exec (.emit a b) s = .next t) ∧
    (s.check s.cur (s.readX a) 32 .row .store 0 s.me.sup = (.ok p, s) → exec (.jreplay a) s = .next t)

/-- R389, R387, R395: jput of the next entry, with room in the log, completes: next is one higher, the entry is queued for
the partner, in a move for the old one and the new, and, where its slot of the log answers and no stream is enabled, it
stands there with rp clear; that without a partner the entry is acknowledged when it is put is R387 as log 43 reads it. An
entry of another number takes the order trap. -/
def Sys2Proof.Claims.JournalPut : Prop :=
  ∀ (a : Reg) (s : State) (j : Journal) (p : Trans) (e : Nat), OwnContext s j → Uncached s → s.me.stall = none →
    s.reelRoom s.cur 0x0700 = true → LoadFinds s (s.readX a) 32 .row p e → e / 2 ^ 226 % 2 ^ 13 = 0 →
    (∀ b, p.pa ≤ b → b < p.pa + 32 → s.homePoison (dieOf s.cur) b = false) →
    (e % 2 ^ 64 = j.next.toNat → j.next.toNat < j.trunc.toNat + 2 ^ j.size → j.state = 1 ∨ j.state = 3 → j.next ≠ BitVec.allOnes 64 →
      ∃ t, exec (.jput a) s = .next t ∧ GoesOn s t ∧ (t.journal s.me.jsel.toNat).next = j.next + 1 ∧
        (t.journal s.me.jsel.toNat).ack =
          (if j.peer.getLsbD 63 = false ∧ j.ack.toNat < (j.next + 1).toNat then j.next + 1 else j.ack) ∧
        (t.journal s.me.jsel.toNat).queue = (if j.peer.getLsbD 63 = true ∧ (j.state = 3 → j.before ≠ 4)
          then j.queue ++ [.entry j.next.toNat] else j.queue) ∧
        (t.journal s.me.jsel.toNat).newQueue = (if j.state = 3 then j.newQueue ++ [.entry j.next.toNat] else j.newQueue) ∧
        ((∀ n, (s.stream n).en = false) →
          (∀ i, i < 32 → s.dead (j.slot j.next.toNat + i) = false ∧ s.cut (dieOf s.cur) (j.slot j.next.toNat + i) = false) →
          t.readHome (j.slot j.next.toNat) 32 = e - e / 2 ^ 239 % 2 * 2 ^ 239)) ∧
    (e % 2 ^ 64 ≠ j.next.toNat → s.copying s.cur = false → ∃ u : State, (∀ r, u.readX r = s.readX r) ∧
      (u.journal s.me.jsel.toNat) = j ∧
      exec (.jput a) s = .next (u.takeTrap s.cur { cause := 0x2D, value := BitVec.ofNat 64 e, tpc := s.me.pc }))

/-- The statements JournalContextCheck and JournalPut together. -/
def Obligations.JournalChecksAndPuts : Prop := Claims.JournalContextCheck ∧ Claims.JournalPut

/-- R390 to R392: jsync goes on once its entry is acknowledged, waits while it is not, and takes the trap for an entry not
put; emit holds a record for the latest entry, as it was before its waits, or waits while 16 are held; jtrunc moves trunc
within what is acknowledged. -/
def Sys2Proof.Claims.JournalWaits : Prop :=
  ∀ (a b : Reg) (s s1 : State) (j : Journal) (p : Trans), OwnContext s j →
    let v := s.readX a
    (v.toNat < j.ack.toNat → v.toNat < j.next.toNat → ∃ t, exec (.jsync a) s = .next t ∧ GoesOn s t ∧ t.mem = s.mem) ∧
    (j.ack.toNat ≤ v.toNat → v.toNat < j.next.toNat → Waits (.jsync a) s .jsync) ∧
    (j.next.toNat ≤ v.toNat → s.copying s.cur = false →
      exec (.jsync a) s = .next (s.takeTrap s.cur { cause := 0x2D, sub := 1, value := v, tpc := s.me.pc })) ∧
    (s.check s.cur v 16 .row .store 0 s.me.sup = (.ok p, s1) → j.next ≠ 0 →
      s.myCore.interlocks.any (fun e => e.hart == s.cur) = false →
      (j.held.length < 16 → ∃ t, exec (.emit a b) s = .next t ∧ GoesOn s t ∧
        (t.journal s.me.jsel.toNat).held = j.held ++
          [⟨s.cur, s.me.emitSeq.getD (j.next - 1).toNat, (s.readX b).toNat % 2 ^ 32, v.toNat, p.pa⟩]) ∧
      (16 ≤ j.held.length → ∃ t, exec (.emit a b) s = .next t ∧ t.me.wait = .emitRoom ∧ t.me.pc = s.me.pc ∧
        (∀ r, t.readX r = s.readX r) ∧ t.journal s.me.jsel.toNat = j)) ∧
    (s.me.stall = none → s.reelRoom s.cur 0x0703 = true → j.trunc.toNat ≤ v.toNat → v.toNat ≤ j.ack.toNat →
      ∃ t, exec (.jtrunc a) s = .next t ∧ GoesOn s t ∧ (t.journal s.me.jsel.toNat).trunc = v)

/-- R393: jreplay with an entry left writes the logged entry, with rp = 1, at X[s], gives gctr the entry's generator counter
and advances; with none left in a replaying context it writes an entry that holds the next number alone, and ends the replay. -/
def Sys2Proof.Claims.JournalReplay : Prop :=
  ∀ (a : Reg) (s : State) (j : Journal) (p : Trans), OwnContext s j → Uncached s → s.me.stall = none →
    s.reelRoom s.cur 0x0704 = true →
    (∃ s1, s.check s.cur (s.readX a) 32 .row .store 0 s.me.sup = (.ok p, s1)) → servedBy p.pa ≠ .mgmt → leafC p.leaf = 0 →
    s.watchHits s.cur (s.readX a) 32 false true = 0 → s.conflicts s.cur .empty (spanOf (s.readX a) 32) = [] →
    s.emissionMeets s.cur p.pa 32 = false → j.state = 2 →
    Writable s p.pa 32 →
    (j.rep.toNat < j.stop.toNat → s.readHomePoison (dieOf s.cur) (j.slot j.rep.toNat) 32 = false →
      ∃ t, exec (.jreplay a) s = .next t ∧ GoesOn s t ∧ (t.journal s.me.jsel.toNat).rep = j.rep + 1 ∧
        t.me.gctr = BitVec.ofNat 64 (s.readHome (j.slot j.rep.toNat + 8) 8) ∧
        ∀ i, i < 32 → t.clusterByte (clusterOf s.cur) (p.pa + i) =
          BitVec.ofNat 8 ((s.readHome (j.slot j.rep.toNat) 32 ||| 2 ^ 239) / 2 ^ (8 * i))) ∧
    (j.stop.toNat ≤ j.rep.toNat → ∃ t, exec (.jreplay a) s = .next t ∧ GoesOn s t ∧
      (t.journal s.me.jsel.toNat).state = 1 ∧
      ∀ i, i < 32 → t.clusterByte (clusterOf s.cur) (p.pa + i) = BitVec.ofNat 8 (j.next.toNat / 2 ^ (8 * i)))

/-- The statements JournalWaits and JournalReplay together. -/
def Obligations.JournalWaitsAndReplay : Prop := Claims.JournalWaits ∧ Claims.JournalReplay

namespace Sys2Proof.Claims
open Machine

-- Rounding on the real line (spec/04 R77, R89) ------------------------------------------------------------------------

/-- The real number a finite value stands for. -/
noncomputable def real : FVal → ℝ
  | .num neg m e => (if neg then -1 else 1) * (m : ℝ) * (2 : ℝ) ^ e
  | _ => 0
/-- The exponent of a format's smallest normal value. -/
def emin (f : Fmt) : Int := 1 - (f.bias : Int)
/-- The grid of a format's normal and subnormal values, the exponent unbounded above; even says that the least significant
fraction bit is 0. -/
def OnGrid (f : Fmt) (y : ℝ) : Prop :=
  ∃ (k : Nat) (g : Int), k < 2 ^ (f.frac + 1) ∧ emin f - f.frac ≤ g ∧ |y| = (k : ℝ) * (2 : ℝ) ^ g
def EvenOnGrid (f : Fmt) (y : ℝ) : Prop :=
  ∃ (k : Nat) (g : Int), 2 * k < 2 ^ (f.frac + 1) ∧ emin f - f.frac ≤ g ∧ |y| = (2 * k : ℝ) * (2 : ℝ) ^ g
/-- The integers and the even integers. -/
def Whole (y : ℝ) : Prop := ∃ n : Int, y = n
def EvenWhole (y : ℝ) : Prop := ∃ n : Int, y = 2 * n
/-- y is what a rounding mode chooses for x among the points of a grid. -/
def Chooses (grid even : ℝ → Prop) (rm : Rm) (x y : ℝ) : Prop :=
  grid y ∧ match rm with
    | .rne => (∀ z, grid z → |x - y| ≤ |x - z|) ∧ ∀ z, grid z → z ≠ y → |x - z| = |x - y| → even y
    | .rtz => |y| ≤ |x| ∧ 0 ≤ x * y ∧ ∀ z, grid z → |z| ≤ |x| → |z| ≤ |y|
    | .rdn => y ≤ x ∧ ∀ z, grid z → z ≤ x → z ≤ y
    | .rup => x ≤ y ∧ ∀ z, grid z → x ≤ z → y ≤ z
/-- The greatest finite value and the smallest normal value. -/
noncomputable def greatest (f : Fmt) : ℝ := real (valueOf f (maxBits f))
noncomputable def smallestNormal (f : Fmt) : ℝ := (2 : ℝ) ^ emin f
/-- The flags of rounding x to y: nx, and uf for a tiny x. -/
def RoundFlags (f : Fmt) (x y : ℝ) (fl : Flags) : Prop :=
  (y = x → fl = 0) ∧ (y ≠ x → smallestNormal f ≤ |x| → fl = 0x001) ∧ (y ≠ x → |x| < smallestNormal f → fl = 0x003)
/-- b is what an overflow gives: by the mode and the sign an infinity or the greatest finite value, and that value in every mode
where a format has no infinity (the table of R89). -/
def Overflows (f : Fmt) (rm : Rm) (neg : Bool) (b : Nat) : Prop :=
  let infinite := match rm, neg with
    | .rne, false => true
    | .rne, true => true
    | .rtz, false => false
    | .rtz, true => false
    | .rdn, false => false
    | .rdn, true => true
    | .rup, false => true
    | .rup, true => false
  b < 2 ^ f.width ∧ bitOf b (f.width - 1) = neg ∧
    if infinite = true ∧ f ≠ .e4m3 then valueOf f b = .inf neg
    else nonFinite f b = false ∧ real (valueOf f b) = if neg then -greatest f else greatest f
/-- b and fl are what rounding a non-zero x gives: the value chosen, the overflow value with of and nx, or a zero under the
result flush with uf and nx. -/
def RoundsTo (f : Fmt) (flush : Bool) (rm : Rm) (x : ℝ) (b : Nat) (fl : Flags) : Prop :=
  ∃ (y : ℝ) (neg : Bool) (fl0 : Flags), Chooses (OnGrid f) (EvenOnGrid f) rm x y ∧ RoundFlags f x y fl0 ∧
    (neg = true ↔ x < 0) ∧
    (greatest f < |y| → Overflows f rm neg b ∧ fl = fl0 ||| 0x005) ∧
    (|y| ≤ greatest f → flush = true → y ≠ 0 → |y| < smallestNormal f → b = withSign f neg 0 ∧ fl = fl0 ||| 0x003) ∧
    (|y| ≤ greatest f → (flush = false ∨ y = 0 ∨ smallestNormal f ≤ |y|) →
      real (valueOf f b) = y ∧ bitOf b (f.width - 1) = neg ∧ b < 2 ^ f.width ∧ nonFinite f b = false ∧ fl = fl0)

-- The operations of spec/05 R109, R110 with the corners of spec/04 R90, R92 ----------------------------------------------

/-- A result that is not rounded: its bits and flags. -/
def infinity (f : Fmt) (neg : Bool) : Nat × Flags := (withSign f neg (infBits f), 0x080)
def zero (f : Fmt) (neg : Bool) : Nat × Flags := (withSign f neg 0, 0)
def nanOut (f : Fmt) : Nat × Flags := (qnan f, 0x080)
def invalid (f : Fmt) : Nat × Flags := (qnan f, 0x090)
/-- A rounded result of a non-zero number, with nf where it is infinite. -/
def Rounded (f : Fmt) (flush : Bool) (rm : Rm) (x : ℝ) (r : Nat × Flags) : Prop :=
  ∃ fl, RoundsTo f flush rm x r.1 fl ∧ r.2 = fl ||| (if nonFinite f r.1 then 0x080 else 0)
def IsSum (f : Fmt) (flush : Bool) (rm : Rm) (x y : FVal) (r : Nat × Flags) : Prop :=
  match x, y with
  | .nan _, _ | _, .nan _ => r = nanOut f
  | .inf p, .inf q => r = if p = q then infinity f p else invalid f
  | .inf p, .num _ _ _ | .num _ _ _, .inf p => r = infinity f p
  | .num p _ _, .num q _ _ =>
    (real x + real y ≠ 0 → Rounded f flush rm (real x + real y) r) ∧
      (real x + real y = 0 → r = zero f (if p = q then p else rm = .rdn))
def IsProduct (f : Fmt) (flush : Bool) (rm : Rm) (x y : FVal) (r : Nat × Flags) : Prop :=
  match x, y with
  | .nan _, _ | _, .nan _ => r = nanOut f
  | .inf p, .inf q => r = infinity f (p != q)
  | .inf p, .num q m _ | .num q m _, .inf p => r = if m = 0 then invalid f else infinity f (p != q)
  | .num p _ _, .num q _ _ =>
    (real x * real y ≠ 0 → Rounded f flush rm (real x * real y) r) ∧ (real x * real y = 0 → r = zero f (p != q))
def IsQuotient (f : Fmt) (flush : Bool) (rm : Rm) (x y : FVal) (r : Nat × Flags) : Prop :=
  match x, y with
  | .nan _, _ | _, .nan _ => r = nanOut f
  | .inf _, .inf _ => r = invalid f
  | .inf p, .num q _ _ => r = infinity f (p != q)
  | .num p _ _, .inf q => r = zero f (p != q)
  | .num p m _, .num q n _ =>
    if n = 0 then r = if m = 0 then invalid f else (withSign f (p != q) (infBits f), 0x088)
    else (m ≠ 0 → Rounded f flush rm (real x / real y) r) ∧ (m = 0 → r = zero f (p != q))
/-- The root of +∞ raises nf as every infinite result does (R95, R103, R160; for vsqrt a reading, log 62). -/
def IsRoot (f : Fmt) (flush : Bool) (rm : Rm) (x : FVal) (r : Nat × Flags) : Prop :=
  match x with
  | .nan _ => r = nanOut f
  | .inf p => r = if p then invalid f else infinity f false
  | .num p m _ =>
    if m = 0 then r = zero f p else if p then r = invalid f else Rounded f flush rm (Real.sqrt (real x)) r
/-- x · y + z with one rounding. -/
def IsFused (f : Fmt) (flush : Bool) (rm : Rm) (x y z : FVal) (r : Nat × Flags) : Prop :=
  match x, y with
  | .nan _, _ | _, .nan _ => r = nanOut f
  | .inf p, .inf q => IsSum f flush rm (.inf (p != q)) z r
  | .inf p, .num q m _ | .num q m _, .inf p => if m = 0 then r = invalid f else IsSum f flush rm (.inf (p != q)) z r
  | .num p m i, .num q n j => IsSum f flush rm (.num (p != q) (m * n) (i + j)) z r
/-- x with its sign turned. -/
def opposite : FVal → FVal
  | .nan q => .nan q
  | .inf p => .inf (!p)
  | .num p m e => .num (!p) m e
/-- A source of a scalar float word as read. -/
def source (f : FFmt) (s : State) (r : Reg) : FVal × Flags :=
  operand (ffmt f) s.me.fpctl ((s.readX r).toNat % 2 ^ (ffmt f).width)
def notNan : FVal → Prop
  | .nan _ => False
  | _ => True
/-- The value on the extended real line. -/
noncomputable def value : FVal → EReal
  | .nan _ => 0
  | .inf true => ⊥
  | .inf false => ⊤
  | .num p m e => ((real (.num p m e) : ℝ) : EReal)
def negative : FVal → Bool
  | .num p _ _ => p
  | .inf p => p
  | .nan _ => false
/-- The first code of spec/05 R113 that describes an encoding. -/
def ClassCode (f : Fmt) (b k : Nat) : Prop :=
  match valueOf f b with
  | .inf p => k = if p then 0 else 7
  | .nan q => k = if q then 8 else 9
  | .num p m _ => k = if m = 0 then (if p then 3 else 4) else if bitsAt b f.frac f.expo = 0 then (if p then 2 else 5) else if p then 1 else 6

end Sys2Proof.Claims

/-- R89: rounding to a format, for every value, mode and flush setting, and rounding to the integers. -/
def Obligations.RoundingModes : Prop :=
  ∀ (f : Fmt) (flush : Bool) (rm : Rm) (neg : Bool) (m : Nat) (e : Int) (q : Bool),
    let x := real (.num neg m e)
    let r := roundVal f flush rm (.num neg m e)
    (m ≠ 0 → RoundsTo f flush rm x r.1 r.2) ∧
    (m = 0 → r = (withSign f neg 0, 0)) ∧
    roundVal f flush rm (.nan q) = (qnan f, 0) ∧
    roundVal f flush rm (.inf neg) =
      (if f = .e4m3 then (withSign f neg (maxBits f), 0x004) else (withSign f neg (infBits f), 0)) ∧
    Chooses Whole EvenWhole rm x ((roundInt rm neg m e).1 : ℝ) ∧
    ((roundInt rm neg m e).2 = true ↔ ((roundInt rm neg m e).1 : ℝ) ≠ x)

/-- R160 with R90, R92, R109, R110: fadd, fsub, fmul, fdiv, fsqrt and fma complete in every state: X[d] gets the sum,
difference, product, quotient, square root or fused result, rounded once by the word's mode, with the flags of its reads
and of its result, nf for an infinite one or a NaN. -/
def Obligations.FloatArithmetic : Prop :=
  ∀ (f : FFmt) (rm : Rm) (d a b : Reg) (s : State),
    let x := source f s a
    let y := source f s b
    let z := source f s d
    let F := ffmt f
    let flush := resultFlush s.me.fpctl F
    (∃ r, IsSum F flush rm x.1 y.1 r ∧ Gives (.fadd f rm d a b) s d (BitVec.ofNat 64 r.1) (x.2 ||| y.2 ||| r.2)) ∧
    (∃ r, IsSum F flush rm x.1 (opposite y.1) r ∧ Gives (.fsub f rm d a b) s d (BitVec.ofNat 64 r.1) (x.2 ||| y.2 ||| r.2)) ∧
    (∃ r, IsProduct F flush rm x.1 y.1 r ∧ Gives (.fmul f rm d a b) s d (BitVec.ofNat 64 r.1) (x.2 ||| y.2 ||| r.2)) ∧
    (∃ r, IsQuotient F flush rm x.1 y.1 r ∧ Gives (.fdiv f rm d a b) s d (BitVec.ofNat 64 r.1) (x.2 ||| y.2 ||| r.2)) ∧
    (∃ r, IsRoot F flush rm x.1 r ∧ Gives (.fsqrt f rm d a) s d (BitVec.ofNat 64 r.1) (x.2 ||| r.2)) ∧
    (∃ r, IsFused F flush rm x.1 y.1 z.1 r ∧
      Gives (.fma f rm d a b) s d (BitVec.ofNat 64 r.1) (x.2 ||| y.2 ||| z.2 ||| r.2))

/-- R160 with R111, R113, R129: fmin and fmax give the lesser and the greater operand, −0 below +0, the other one where one
is a NaN; fcmp writes whether its condition holds of the values, with no NaN but for .un; fclass writes the class code. -/
def Obligations.FloatComparisons : Prop :=
  ∀ (f : FFmt) (d a b : Reg) (s : State),
    let x := source f s a
    let y := source f s b
    let F := ffmt f
    let fl := x.2 ||| y.2
    let cmp := fun (i : Instr) (p : Prop) => ∃ c : Bool, (c = true ↔ p) ∧ Gives i s d (if c then 1 else 0) fl
    let pick := fun (i : Instr) (least : Bool) => ∃ r : Nat, r < 2 ^ F.width ∧
      Gives i s d (BitVec.ofNat 64 r) (fl ||| if nonFinite F r then 0x080 else 0) ∧
      (¬ notNan x.1 → ¬ notNan y.1 → r = qnan F) ∧
      (notNan x.1 → ¬ notNan y.1 → value (valueOf F r) = value x.1 ∧ bitOf r (F.width - 1) = negative x.1) ∧
      (¬ notNan x.1 → notNan y.1 → value (valueOf F r) = value y.1 ∧ bitOf r (F.width - 1) = negative y.1) ∧
      (notNan x.1 → notNan y.1 →
        value (valueOf F r) = (if least then min (value x.1) (value y.1) else max (value x.1) (value y.1)) ∧
        bitOf r (F.width - 1) = (if value x.1 = value y.1 then (if least then negative x.1 || negative y.1 else negative x.1 && negative y.1)
          else negative (valueOf F r)))
    pick (.fmin f d a b) true ∧ pick (.fmax f d a b) false ∧
    cmp (.fcmpEq f d a b) (notNan x.1 ∧ notNan y.1 ∧ value x.1 = value y.1) ∧
    cmp (.fcmpLt f d a b) (notNan x.1 ∧ notNan y.1 ∧ value x.1 < value y.1) ∧
    cmp (.fcmpLe f d a b) (notNan x.1 ∧ notNan y.1 ∧ value x.1 ≤ value y.1) ∧
    cmp (.fcmpUn f d a b) (¬ notNan x.1 ∨ ¬ notNan y.1) ∧
    (∃ k, ClassCode F (asRead F s.me.fpctl ((s.readX a).toNat % 2 ^ F.width)) k ∧
      Gives (.fclass f d a) s d (BitVec.ofNat 64 k) (x.2 &&& 0x020))

namespace Sys2Proof.Claims
open Machine

/-- The integers of a conversion code, and a number held in their range. -/
def intRange : CvtTy → Option (Int × Int)
  | .s64 => some (-2 ^ 63, 2 ^ 63 - 1)
  | .z64 => some (0, 2 ^ 64 - 1)
  | .s32 => some (-2 ^ 31, 2 ^ 31 - 1)
  | .z32 => some (0, 2 ^ 32 - 1)
  | _ => none
def intSource : CvtTy → Word → Int
  | .s64, x => x.toInt
  | .z64, x => x.toNat
  | .s32, x => (x.setWidth 32).toInt
  | .z32, x => (x.setWidth 32).toNat
  | _, _ => 0
def floatOf : CvtTy → Option Fmt
  | .f32 => some .f32
  | .f16 => some .f16
  | .bf16 => some .bf16
  | _ => none
/-- An integer as the word X[d] gets. -/
def intWord (t : CvtTy) (z : Int) : Word :=
  match t with
  | .s32 => (BitVec.ofInt 32 z).signExtend 64
  | .z32 => (BitVec.ofInt 32 z).setWidth 64
  | _ => BitVec.ofInt 64 z
/-- sat_t of a number other than 0: rounded, but an infinity becomes the greatest finite value of its sign (spec/04 R91). -/
def Saturates (f : Fmt) (flush : Bool) (rm : Rm) (x : ℝ) (r : Nat × Flags) : Prop :=
  ∃ b neg, RoundsTo f flush rm x b r.2 ∧ (neg = true ↔ x < 0) ∧
    r.1 = if nonFinite f b then withSign f neg (maxBits f) else b

end Sys2Proof.Claims

/-- R161, R114: fcvt between every pair of codes. Integers saturate with sat; a float becomes the integer its mode chooses,
saturating with nv, and 0 with nv for a NaN; an integer or a finite float is rounded and stays finite; an infinity stays
one, a NaN becomes the canonical NaN. -/
def Obligations.FloatConversions : Prop :=
  ∀ (dst src : CvtTy) (rm : Rm) (d a : Reg) (s : State),
    let w := s.readX a
    let out := fun (v : Word) (fl : Flags) => Gives (.fcvt dst src rm d a) s d v fl
    (∀ lo hi, intRange dst = some (lo, hi) → (intRange src).isSome = true →
      let z := intSource src w
      out (intWord dst (if z < lo then lo else if hi < z then hi else z)) (if z < lo ∨ hi < z then 0x040 else 0)) ∧
    (∀ F, floatOf dst = some F → (intRange src).isSome = true →
      let z := intSource src w
      if z = 0 then out 0 0
      else ∃ r, Saturates F (resultFlush s.me.fpctl F) rm z r ∧ out (BitVec.ofNat 64 r.1) r.2) ∧
    (∀ lo hi G, intRange dst = some (lo, hi) → floatOf src = some G →
      let x := operand G s.me.fpctl (w.toNat % 2 ^ G.width)
      match x.1 with
      | .nan _ => out 0 (x.2 ||| 0x010)
      | .inf p => out (intWord dst (if p then lo else hi)) 0x010
      | .num p m e => ∃ z : Int, Chooses Whole EvenWhole rm (real (.num p m e)) z ∧
          (z < lo → out (intWord dst lo) (x.2 ||| 0x010)) ∧ (hi < z → out (intWord dst hi) (x.2 ||| 0x010)) ∧
          (lo ≤ z → z ≤ hi → ((z : ℝ) = real (.num p m e) → out (intWord dst z) x.2) ∧
            ((z : ℝ) ≠ real (.num p m e) → out (intWord dst z) (x.2 ||| 0x001)))) ∧
    (∀ F G, floatOf dst = some F → floatOf src = some G →
      let x := operand G s.me.fpctl (w.toNat % 2 ^ G.width)
      match x.1 with
      | .nan _ => out (BitVec.ofNat 64 (qnan F)) (x.2 ||| 0x080)
      | .inf p => out (BitVec.ofNat 64 (withSign F p (infBits F))) 0x080
      | .num p m e =>
        if m = 0 then out (BitVec.ofNat 64 (withSign F p 0)) x.2
        else ∃ r, Saturates F (resultFlush s.me.fpctl F) rm (real (.num p m e)) r ∧ out (BitVec.ofNat 64 r.1) (x.2 ||| r.2))

namespace Sys2Proof.Claims
open Machine

/-- The running context owns the hart's vector state, which is in vector mode (spec/11 R232, spec/02 R46). -/
def Vector (s : State) : Prop := s.me.own = s.me.ctx ∧ s.me.matrix = false
/-- vlmax of a width code on a number of lanes (spec/08 R167, spec/04 R82). -/
def mostRows (w : WCode) (qw lanes : Nat) : Nat :=
  match w with
  | .w8 => 256 * lanes
  | .w16 => 128 * lanes
  | .w32 => 64 * lanes
  | .w64 => 32 * lanes
  | .sliced => min (256 * lanes) (2048 * lanes / qw)
/-- The rows of an element type that one lane holds (spec/08 R174). -/
def laneRows (t : ETy) : Nat :=
  match t with
  | .s8 | .z8 | .e4m3 | .e5m2 | .q => 256
  | .s16 | .z16 | .bf16 | .f16 | .pr => 128
  | .s32 | .z32 | .f32 => 64
  | .s64 | .z64 => 32
def elemBits (t : ETy) : Nat := 2048 / laneRows t
/-- The rows a word outside a block acts on: below the length, and below the capacity of its type. -/
def reachRows (h : Hart) (t : ETy) : Nat := min (if h.matrix then h.mvlen else h.vlen) (laneRows t * h.lanes)
/-- Row i of a vector register at a width of w bits (spec/03 R53). -/
def row (h : Hart) (r : Reg) (w i : Nat) : Nat := h.vimg r / 2 ^ (w * i) % 2 ^ w
/-- A word that ends as a scalar word does, but for the energy count and the counters: v in X[d], fl raised. -/
structure LaneOut (s t : State) (d : Reg) (v : Word) (fl : Flags) : Prop where
  value : t.readX d = if d = 0 then 0 else v
  others : ∀ r, r ≠ d → t.readX r = s.readX r
  pc : t.me.pc = s.me.pc + 4
  flags : t.me.fpflags = s.me.fpflags ||| fl
  ready : t.me.wait = .none ∧ t.me.issued = false ∧ t.me.rest = none ∧ t.me.emitSeq = none ∧ t.me.tableStall = false
  hart : { t.me with x := s.me.x, pc := s.me.pc, fpflags := s.me.fpflags, wait := s.me.wait, issued := s.me.issued, rest := s.me.rest, emitSeq := s.me.emitSeq, tableStall := s.me.tableStall,
                     ectr := s.me.ectr } = s.me
  harts : ∀ h, h ≠ s.cur → t.hart h = s.hart h
  rest : { t with harts := s.harts, counters := s.counters } = s
def LaneGives (i : Instr) (s : State) (d : Reg) (v : Word) (fl : Flags) : Prop := ∃ t, exec i s = .next t ∧ LaneOut s t d v fl
/-- A word that leaves row i of V[d] at value i, at a width of w bits, every other vector register and all else but the
energy count and the counters as it was, and raises fl. -/
structure VectorOut (s t : State) (d : Reg) (w : Nat) (value : Nat → Nat) (fl : Flags) : Prop where
  rows : ∀ i, row t.me d w i = value i
  others : ∀ r, r ≠ d → t.me.vimg r = s.me.vimg r
  regs : ∀ r, t.readX r = s.readX r
  pc : t.me.pc = s.me.pc + 4
  flags : t.me.fpflags = s.me.fpflags ||| fl
  ready : t.me.wait = .none ∧ t.me.issued = false ∧ t.me.rest = none ∧ t.me.emitSeq = none ∧ t.me.tableStall = false
  hart : { t.me with v := s.me.v, pc := s.me.pc, fpflags := s.me.fpflags, wait := s.me.wait, issued := s.me.issued, rest := s.me.rest, emitSeq := s.me.emitSeq, tableStall := s.me.tableStall,
                     ectr := s.me.ectr } = s.me
  harts : ∀ h, h ≠ s.cur → t.hart h = s.hart h
  rest : { t with harts := s.harts, counters := s.counters } = s
def VectorGives (i : Instr) (s : State) (d : Reg) (w : Nat) (value : Nat → Nat) (fl : Flags) : Prop :=
  ∃ t, exec i s = .next t ∧ VectorOut s t d w value fl
/-- A value of an element type in a scalar register. -/
def extended (t : ETy) (v : Nat) : Word :=
  match t with
  | .s8 => (BitVec.ofNat 8 v).signExtend 64
  | .s16 => (BitVec.ofNat 16 v).signExtend 64
  | .s32 => (BitVec.ofNat 32 v).signExtend 64
  | _ => BitVec.ofNat 64 v
/-- A legal value of vtype (spec/08 R168). -/
def LegalType (v : Nat) : Prop :=
  1 ≤ v % 2 ^ 5 ∧ v % 2 ^ 5 ≤ 16 ∧ v / 2 ^ 6 % 4 = 0 ∧ v / 2 ^ 8 % 2 ^ 5 ≤ 16 ∧ v < 2 ^ 14
/-- Whether an element covers a byte, and the byte it gives. -/
def covers (e : BufElem) (pa : Nat) : Prop := e.pa ≤ pa ∧ pa < e.pa + e.size

end Sys2Proof.Claims

/-- R167, R169, R170: setvl sets the length to the lesser of the request and the most rows of its width, and writes it. With
.keep, with a request of 0 or with stores buffered the lanes stay; else the strip boundary gives the hart its lanes, or
leaves it waiting for them; on a change of lanes, whose record finds room, every vector and predicate register reads 0. A
hart that shares its core with no other vector hart gets the lanes its request fills, in fours. -/
def Sys2Proof.Claims.SetLength : Prop :=
  ∀ (keep : Bool) (w : WCode) (d a : Reg) (s : State), Vector s →
    let req := (s.readX a).toNat
    let qw := s.me.vtype.toNat % 32
    let sets := fun (lanes : Nat) (t : State) =>
      let n := min req (mostRows w qw lanes)
      exec (.setvl keep w d a) s = .next t ∧ t.me.vlen = n ∧ t.me.sw = wcode w ∧ t.me.lanes = lanes ∧
        t.readX d = (if d = 0 then 0 else BitVec.ofNat 64 n) ∧ (∀ r, r ≠ d → t.readX r = s.readX r) ∧
        t.me.pc = s.me.pc + 4 ∧ t.me.fpflags = s.me.fpflags
    (keep = true ∨ req = 0 ∨ s.me.buffer ≠ [] → ∃ t, sets s.me.lanes t ∧ t.me.v = s.me.v ∧ t.me.p = s.me.p ∧ t.mem = s.mem) ∧
    (keep = false → req ≠ 0 → s.me.buffer = [] →
      (∀ k, s.boundaryLanes s.cur req (wcode w) qw = some k → k = s.me.lanes ∨ (s.me.stall = none ∧ s.reelRoom s.cur 0x0103 = true) → s.me.lanes ≤ 32 →
        4 ≤ k ∧ k ≤ 32 ∧ ∃ t, sets k t ∧
        (k ≠ s.me.lanes → ∀ r, t.me.vimg r = 0 ∧ t.me.pred r = {}) ∧
        (k = s.me.lanes → t.me.v = s.me.v ∧ t.me.p = s.me.p)) ∧
      (s.boundaryLanes s.cur req (wcode w) qw = none → ∃ t, exec (.setvl keep w d a) s = .next t ∧ t.me.wait = .lanes ∧
        t.me.pc = s.me.pc ∧ (∀ r, t.readX r = s.readX r) ∧ s.cur ∈ t.myCore.laneWait) ∧
      ((∀ h ∈ hartsOfCore (coreOf s.cur), h ≠ s.cur → (s.hart h).lanes = 0) → s.myCore.laneWait = [] → s.me.lanes ≤ 32 →
        (w = .sliced → 1 ≤ qw) → ∀ k, k ≤ 8 → mostRows w qw (4 * k - 4) < req → (k = 8 ∨ req ≤ mostRows w qw (4 * k)) → 1 ≤ k →
          (w = .sliced → qw ∣ 2048) → s.boundaryLanes s.cur req (wcode w) qw = some (4 * k)))

/-- R168, R185, R186, R183: setvtype takes a legal value, and takes its trap on another; vmvx reads one row, 0 beyond the
rows; vbcast sets the rows its word reaches; sabort empties the strip store buffer. Each changes nothing else. -/
def Sys2Proof.Claims.TypesAndSingleValues : Prop :=
  ∀ (t : ETy) (d a c : Reg) (s : State),
    (s.me.matrix = false →
      (LegalType (s.readX a).toNat → ∃ u, exec (.setvtype a) s = .next u ∧ u.me.vtype = s.readX a ∧
        (∀ r, u.readX r = s.readX r) ∧ u.me.pc = s.me.pc + 4 ∧ u.me.v = s.me.v ∧ u.me.vlen = s.me.vlen ∧
        { u with harts := s.harts } = s) ∧
      (¬ LegalType (s.readX a).toNat → s.copying s.cur = false → exec (.setvtype a) s =
        .next (s.takeTrap s.cur { cause := 0x15, value := s.readX a, tpc := s.me.pc }))) ∧
    (s.me.own = s.me.ctx → t ≠ .q → t ≠ .pr →
      LaneGives (.vmvx t d a c) s d
        (extended t (if (s.readX c).toNat < reachRows s.me t then row s.me a (elemBits t) (s.readX c).toNat else 0)) 0 ∧
      VectorGives (.vbcast t d a) s d (elemBits t)
        (fun i => if i < reachRows s.me t then (s.readX a).toNat % 2 ^ elemBits t else row s.me d (elemBits t) i) 0) ∧
    (s.me.own = s.me.ctx → ∃ u, exec .sabort s = .next u ∧ GoesOn s u ∧ u.me.buffer = [] ∧ u.me.v = s.me.v ∧
      u.me.stripBase = s.me.stripBase ∧ { u with harts := s.harts, counters := s.counters } = s)

/-- The statements SetLength and TypesAndSingleValues together. -/
def Obligations.LengthsAndSingleValues : Prop := Claims.SetLength ∧ Claims.TypesAndSingleValues

/-- R182, R180: scommit writes the buffered elements of the rows its predicate selects, in order, so that the last one that
covers a byte gives it; every other byte reads as before; the buffer empties and the strip base advances by the rows. A
predicate of the probability class takes its trap. The space is untranslated, no copies are about. -/
def Obligations.StripCommit : Prop :=
  ∀ (p : Option Prefix) (s : State), s.me.own = s.me.ctx → s.drains = [] →
    (∀ q, p = some q → (s.me.pred q.p).prob = true → s.copying s.cur = false →
      exec (.scommit p) s = .next (s.takeTrap s.cur { cause := 0x10, value := q.p.setWidth 64, tpc := s.me.pc })) ∧
    ((∀ q, p = some q → (s.me.pred q.p).prob = false) → s.myCore.interlocks = [] → s.journals = [] →
      tbaseEn s.me.tbase = false → Uncached s →
      (∀ b ∈ s.me.buffer, ∀ e ∈ b.elems, e.sliced = false ∧ servedBy e.pa ≠ .mgmt ∧ Writable s e.pa e.size ∧
        ∀ j, j < e.size → (lineFor b.o e.size e.pa).holds (e.pa + j) = true) →
      let sel := fun (i : Nat) => match p with
        | none => True
        | some q => i < 256 * s.me.lanes ∧ (s.me.pred q.p).bit i ≠ q.neg
      ∃ t, exec (.scommit p) s = .next t ∧ GoesOn s t ∧ t.me.buffer = [] ∧ t.me.v = s.me.v ∧
        t.me.stripBase = s.me.stripBase + BitVec.ofNat 64 (if s.me.matrix then s.me.mvlen else s.me.vlen) ∧
        (∀ pre e post pa, s.me.buffer.flatMap (·.elems) = pre ++ e :: post → sel e.row → covers e pa →
          (∀ x ∈ post, sel x.row → ¬ covers x pa) →
          t.clusterByte (clusterOf s.cur) pa = BitVec.ofNat 8 (e.val / 2 ^ (8 * (pa - e.pa)))) ∧
        (∀ pa, (∀ x ∈ s.me.buffer.flatMap (·.elems), sel x.row → ¬ covers x pa) →
          t.clusterByte (clusterOf s.cur) pa = s.clusterByte (clusterOf s.cur) pa))

/-- R47, R49, R50, R56, R60, R70, R164, R264: vf and vdrain with a valid closure put one entry last in the hart's queue,
with its words, its target and the values it captures, and go on; a closure with row memory also enters the interlock table.
A target that is not a multiple of 8 takes the illegal-instruction trap. That the row-length test of R56 is no part of the
issue, but made when the entry starts, is log 3. -/
def Obligations.RunWords : Prop :=
  ∀ (i : BitVec 20) (s s1 : State) (words : Tab Nat),
    let target := s.me.pc + BitVec.ofInt 64 (4 * i.toInt)
    ∀ x ∈ [(Instr.vf i, false), (.vdrain i, true)],
      (target.toNat % 8 ≠ 0 → s.copying s.cur = false → exec x.1 s =
        .next (s.takeTrap s.cur { cause := 0x01, value := BitVec.ofNat 64 ((encode x.1).map (·.2)).get!, tpc := s.me.pc })) ∧
      (target.toNat % 8 = 0 → Vector s → s.walkClosure s.cur 33 0 [] [target.toNat] = (.ok words, s1) →
        (rowMemoryIn words = true → s1.myCore.interlocks.length < 32 ∧ s1.conflicts s.cur .all .all = []) → ∃ t e, exec x.1 s = .next t ∧ GoesOn s t ∧
          t.me.queue = s.me.queue ++ [e] ∧ e.issuePc = s.me.pc.toNat ∧ e.target = target.toNat ∧ e.words = words ∧
          e.isDrain = x.2 ∧ e.cap.vlen = s.me.vlen ∧ e.cap.vtype = s.me.vtype ∧ e.cap.fpctl = s.me.fpctl ∧
          e.cap.ptemp = s.me.ptemp ∧ e.cap.lanes = s.me.lanes ∧ e.cap.mvlen = s.me.mvlen ∧ e.word = none ∧
          (rowMemoryIn words = true → t.myCore.interlocks = ⟨s.cur, 0, .all, .all⟩ :: s1.myCore.interlocks) ∧
          (rowMemoryIn words = false → t.myCore.interlocks = s1.myCore.interlocks) ∧ t.mem = s.mem)

namespace Sys2Proof.Claims
open Machine

/-- Accesses of a vector word that all pass their checks with translations ps, that no watchpoint, interlock or emission
record holds back, on ordinary memory (spec/08 R176). -/
def AllPass (s : State) (o : Orient) (st : Bool) (l : List Acc1) (ps : List Trans) : Prop :=
  ps.length = l.length ∧ s.myCore.interlocks = [] ∧ s.journals = [] ∧
    (∃ s1, s.checkAll s.cur o (if st then .store else .load) st l = (l.zip (ps.map .ok), s1)) ∧
    (∀ a ∈ l, s.watchHits s.cur a.ea a.size (!st) st = 0) ∧ ∀ p ∈ ps, servedBy p.pa ≠ .mgmt ∧ leafC p.leaf = 0
/-- What a vector load finds at a translated address: memory as the core reads it, under what its strip store buffer holds
(spec/08 R176). -/
def seen (s : State) (p : Trans) (n : Nat) : Nat := overlay s.me.buffer none [] p.pa n (leOf (s.bytesAt (coreOf s.cur) p.pa n).1)
/-- No byte that the loads bring in carries poison, in its copy or at its home. -/
def Clean (s : State) (o : Orient) (l : List Acc1) (ps : List Trans) : Prop :=
  ∀ x ∈ l.zip ps, (s.bytesAt (coreOf s.cur) x.2.pa x.1.size).2 = false ∧
    ∀ b ∈ (lineFor o x.1.size x.2.pa).bytes ++ (List.range x.1.size).map (x.2.pa + ·), Unmarked s b
/-- The loads bring no line in that may replace a dirty one: no cluster holds copies, or the lines are there. -/
def Settled (s : State) (o : Orient) (l : List Acc1) (ps : List Trans) : Prop :=
  Bare s ∨ ∀ x ∈ l.zip ps, cacheable x.2.pa = false ∨
    (s.cluster (clusterOf s.cur)).lines.any (fun y => y.key == lineFor o x.1.size x.2.pa) = true
/-- A vector load leaves row i of V[d] at value i, every other register as it was, and every byte of memory reads as
before. -/
structure VectorLoads (s t : State) (d : Reg) : Prop where
  others : ∀ r, r ≠ d → t.me.vimg r = s.me.vimg r
  regs : ∀ r, t.readX r = s.readX r
  pc : t.me.pc = s.me.pc + 4
  ready : t.me.wait = .none ∧ t.me.issued = false ∧ t.me.rest = none ∧ t.me.emitSeq = none ∧ t.me.tableStall = false
  hart : { t.me with v := s.me.v, vlen := s.me.vlen, armed := s.me.armed, pc := s.me.pc, wait := s.me.wait,
                     issued := s.me.issued, rest := s.me.rest, emitSeq := s.me.emitSeq, tableStall := s.me.tableStall, ectr := s.me.ectr } = s.me
  armed : t.me.armed = none ∨ t.me.armed = s.me.armed
  harts : ∀ h, h ≠ s.cur → t.hart h = s.hart h
  homes : t.mem = s.mem
  views : ∀ k b, t.clusterByte k b = s.clusterByte k b
/-- The stride of a word's column form is a whole panel row (spec/08 R175). -/
def StrideOk (s : State) (m : VMem) (c : Reg) : Prop := m.o = .col → c ≠ 0 → (s.readX c).toNat % 4096 = 0
/-- Row i of plane q in a sliced register image of n rows per plane (spec/04 R82). -/
def planeBit (img n q i : Nat) : Bool := img.testBit (q * n + i)
/-- The rows a word outside a block acts on by length alone. -/
def lengthOf (h : Hart) : Nat := if h.matrix then h.mvlen else h.vlen

end Sys2Proof.Claims

/-- R174 to R176, R178: vld, and vlff where no element faults, load every row below the length from its element's address,
or every plane of a sliced register, and leave the other rows. vlff that faults beyond element 0 loads the rows before it
and shortens the length. More rows than the register holds take the row-length trap. That a byte the strip buffer holds
counts as newer than what scalar words have written since is log 77, the model's reading. -/
def Sys2Proof.Claims.VectorLoadWords : Prop :=
  ∀ (d c : Reg) (m : VMem) (s : State) (ps : List Trans), s.me.own = s.me.ctx → NoCapture s →
    let n := lengthOf s.me
    let M := slicedRows (s.me.vtype.toNat % 32) s.me.lanes
    (capOf m.t s.me.vtype s.me.lanes < n → s.copying s.cur = false →
      ∀ i ∈ [Instr.vld d c m, .vlff d m], exec i s =
        .next (s.takeTrap s.cur { cause := 0x11, value := BitVec.ofNat 64 n, tpc := s.me.pc })) ∧
    (n ≤ capOf m.t s.me.vtype s.me.lanes → ∀ x ∈ [(Instr.vld d c m, c), (.vlff d m, 0)], StrideOk s m x.2 →
      let l := accesses s.me m x.2 n
      AllPass s m.o false l ps → Clean s m.o l ps → Settled s m.o l ps →
      ∃ t, exec x.1 s = .next t ∧ VectorLoads s t d ∧ t.me.vlen = s.me.vlen ∧
        (m.t ≠ .q → m.t ≠ .pr → ∀ i, row t.me d (elemBits m.t) i =
          match ps[i]? with
          | some p => seen s p (elemBits m.t / 8)
          | none => row s.me d (elemBits m.t) i) ∧
        (m.t = .q → ∀ q i, q < s.me.vtype.toNat % 32 → i < n → ∀ p, ps[q * ((n + 7) / 8) + i / 8]? = some p →
          planeBit (t.me.vimg d) M q i = (seen s p 1).testBit (i % 8))) ∧
    (n ≤ capOf m.t s.me.vtype s.me.lanes → m.t ≠ .q → m.t ≠ .pr → s.me.matrix = false → ∀ (k : Nat) (b : Bad),
      k ≠ 0 → k < n →
      let l := accesses s.me m 0 n
      (s.checkAll s.cur m.o .load false l).1[k]?.map (·.2) = some (.error b) →
      AllPass s m.o false (l.take k) ps → Clean s m.o (l.take k) ps → Settled s m.o (l.take k) ps →
      ∃ t, exec (.vlff d m) s = .next t ∧ VectorLoads s t d ∧ t.me.vlen = k ∧
        ∀ i, row t.me d (elemBits m.t) i =
          match ps[i]? with
          | some p => seen s p (elemBits m.t / 8)
          | none => row s.me d (elemBits m.t) i)

/-- R179, R225: vldx gathers every row below the length whose bit of an armed completion mask is clear from its base plus
the row's index, and disarms the mask. -/
def Sys2Proof.Claims.GatherWord : Prop :=
  ∀ (d b : Reg) (m : VMem) (s : State) (ps : List Trans), s.me.own = s.me.ctx → NoCapture s → m.t ≠ .q → m.t ≠ .pr →
    let n := lengthOf s.me
    let l := indexed s.me m b n
    let ea := fun i => s.readX m.base + m.off.signExtend 64 + BitVec.ofNat 64 (row s.me b 64 i)
    (32 * s.me.lanes < n → s.copying s.cur = false → exec (.vldx d b m) s =
      .next (s.takeTrap s.cur { cause := 0x11, value := BitVec.ofNat 64 n, tpc := s.me.pc })) ∧
    (n ≤ 32 * s.me.lanes → AllPass s m.o false l ps → Clean s m.o l ps → Settled s m.o l ps →
      l.map (fun a => (a.idx, a.ea, a.size)) =
        ((List.range n).filter fun i => !(s.me.armed.getD 0).testBit i).map (fun i => (i, ea i, elemBits m.t / 8)) ∧
      ∃ t, exec (.vldx d b m) s = .next t ∧ VectorLoads s t d ∧ t.me.armed = none ∧ t.me.vlen = s.me.vlen ∧
        (∀ x ∈ l.zip ps, row t.me d (elemBits m.t) x.1.idx = seen s x.2 (elemBits m.t / 8)) ∧
        (∀ i, (∀ a ∈ l, a.idx ≠ i) → row t.me d (elemBits m.t) i = row s.me d (elemBits m.t) i))

/-- The statements VectorLoadWords and GatherWord together. -/
def Obligations.VectorLoadsAndGathers : Prop := Claims.VectorLoadWords ∧ Claims.GatherWord

/-- R174, R175, R177, R180, R181: vst, vst.mc and a fresh vstx put one entry last in the strip store buffer, with the address
and the value of every row below the length, in the order of their rows, and change no byte of memory. A seventeenth entry takes the
strip-overflow trap; a length of 0 leaves no entry. -/
def Obligations.VectorStoreWords : Prop :=
  ∀ (a c : Reg) (m : VMem) (s : State) (ps : List Trans), s.me.own = s.me.ctx → s.me.armed = none →
    let n := lengthOf s.me
    let strided := accesses s.me m c n
    let scattered := indexed s.me m c n
    ∀ x ∈ [(Instr.vst a c m, false, strided), (.vstMc a c m, true, strided), (.vstx a c m, false, scattered)],
      (x.1 = .vstx a c m → m.t ≠ .q ∧ m.t ≠ .pr ∧ n ≤ 32 * s.me.lanes) →
      (x.1 ≠ .vstx a c m → n ≤ capOf m.t s.me.vtype s.me.lanes ∧ StrideOk s m c) →
      AllPass s m.o true x.2.2 ps →
      (n = 0 → ∃ t, exec x.1 s = .next t ∧ GoesOn s t ∧ t.me.buffer = s.me.buffer) ∧
      (n ≠ 0 → s.me.buffer.length < 16 → ∃ t e, exec x.1 s = .next t ∧ GoesOn s t ∧ t.me.v = s.me.v ∧ t.mem = s.mem ∧
        (∀ k b, t.clusterByte k b = s.clusterByte k b) ∧ t.me.buffer = s.me.buffer ++ [e] ∧ e.mc = x.2.1 ∧ e.o = m.o ∧
        (m.t ≠ .q → m.t ≠ .pr → e.elems.map (fun y => (y.va, y.pa, y.size, y.row, y.val, y.own)) =
          (x.2.2.zip ps).map fun y => (y.1.ea.toNat, y.2.pa, elemBits m.t / 8, y.1.idx, row s.me a (elemBits m.t) y.1.idx, row s.me a (elemBits m.t) y.1.idx)) ∧
        (m.t = .q → (e.elems.map (·.row)).Pairwise (· ≤ ·)) ∧
        (m.t = .q → ∀ z ∈ x.2.2.zip ps, ∃ y ∈ e.elems, y.va = z.1.ea.toNat ∧ y.pa = z.2.pa ∧ y.row = z.1.row) ∧
        (m.t = .q → ∀ y ∈ e.elems, ∃ z ∈ x.2.2.zip ps, y.va = z.1.ea.toNat ∧ y.pa = z.2.pa ∧ y.size = 1 ∧ y.row = z.1.row ∧
          ∀ j, j < 8 → y.val.testBit j = (decide (y.row + j < n) &&
            planeBit (s.me.vimg a) (slicedRows (s.me.vtype.toNat % 32) s.me.lanes) z.1.plane (y.row + j)))) ∧
      (n ≠ 0 → 16 ≤ s.me.buffer.length → s.copying s.cur = false → ∃ u : State, (∀ r, u.readX r = s.readX r) ∧
        u.me.buffer = s.me.buffer ∧
        exec x.1 s = .next (u.takeTrap s.cur { cause := 0x14, value := 16, tpc := s.me.pc }))

namespace Sys2Proof.Claims
open Machine

/-- Whether row i takes part under a prefix, and the rows that do, with what they hold (spec/09 R187). -/
def taking (h : Hart) (p : Option Prefix) (i : Nat) : Bool :=
  match p with
  | none => true
  | some q => (h.pred q.p).bit i != q.neg
def activeOf (h : Hart) (t : ETy) (p : Option Prefix) : List Nat := (List.range (reachRows h t)).filter (taking h p)
def heldRows (h : Hart) (t : ETy) (p : Option Prefix) (a : Reg) : List Nat := (activeOf h t p).map (row h a (elemBits t))
/-- A predicate that selects rows holds the bit class (spec/06 R127). -/
def BitClass (s : State) (p : Option Prefix) : Prop := ∀ q, p = some q → (s.me.pred q.p).prob = false
def isSignedTy (t : ETy) : Bool := t = .s8 || t = .s16 || t = .s32 || t = .s64
/-- An element as an integer, the bounds of its type, an integer held between them, and its bits. -/
def intVal (t : ETy) (v : Nat) : Int :=
  if isSignedTy t then (BitVec.ofNat (elemBits t) v).toInt else ((v % 2 ^ elemBits t : Nat) : Int)
def least (t : ETy) : Int := if isSignedTy t then -2 ^ (elemBits t - 1) else 0
def most (t : ETy) : Int := if isSignedTy t then 2 ^ (elemBits t - 1) - 1 else 2 ^ elemBits t - 1
def held (t : ETy) (z : Int) : Int := max (least t) (min (most t) z)
def bitsOfInt (t : ETy) (z : Int) : Nat := (z % 2 ^ elemBits t).toNat
def satFlag (t : ETy) (z : Int) : Flags := if z < least t ∨ most t < z then 0x040 else 0
def fmtOf : ETy → Option Fmt
  | .f32 => some .f32
  | .bf16 => some .bf16
  | .f16 => some .f16
  | .e4m3 => some .e4m3
  | .e5m2 => some .e5m2
  | _ => none
/-- Flags of reading some operands. -/
def readsOf (f : Fmt) (ctl : BitVec 10) (xs : List Nat) : Flags := xs.foldr (fun x fl => (operand f ctl x).2 ||| fl) 0

/-- An FP32 sum in progress with the flags raised so far. -/
def plus (ctl : BitVec 10) (p : Nat × Flags) (x : FVal) (fl : Flags) : Nat × Flags :=
  let r := fAdd .f32 ctl .rne (valueOf .f32 p.1) x
  (r.bits, p.2 ||| fl ||| r.fl)
/-- The sum of one lane's active rows, from −0, in ascending rows (spec/04 R97). -/
def laneSum (h : Hart) (f : Fmt) (t : ETy) (p : Option Prefix) (a : Reg) (l : Nat) : Nat × Flags :=
  ((activeOf h t p).filter fun i => i % h.lanes == l).foldl (fun z i =>
    let o := operand f h.fpctl (row h a (elemBits t) i)
    plus h.fpctl z o.1 o.2) (0x80000000, 0)
/-- The fixed tree over the lanes: at each level lane l takes in lane l + 2^k, if there is one. -/
def node (ctl : BitVec 10) (lanes : Nat) (leaf : Nat → Nat × Flags) : Nat → Nat → Nat × Flags
  | 0, l => leaf l
  | k + 1, l =>
    let z := node ctl lanes leaf k l
    if l + 2 ^ k < lanes then
      let y := node ctl lanes leaf k (l + 2 ^ k)
      plus ctl z (valueOf .f32 y.1) y.2
    else z
/-- The FP32 sum rounded to a format; only the result tells whether nf is raised. -/
def rounded (f : Fmt) (ctl : BitVec 10) (z : Nat × Flags) : Nat × Flags :=
  let r := roundVal f (resultFlush ctl f) .rne (valueOf .f32 z.1)
  (r.1, (z.2 &&& 0x17F) ||| r.2 ||| if nonFinite f r.1 then 0x080 else 0)
/-- x stands before y in the order of minimum and maximum: −0 before +0 (spec/05 R111). -/
def Before (x y : FVal) : Prop := value x < value y ∨ (value x = value y ∧ negative x = true ∧ negative y = false)
/-- Row i is the first among the active rows that are not NaN with no row before (or after) it. -/
def IsExtreme (isMax : Bool) (f : Fmt) (ctl : BitVec 10) (get : Nat → Nat) (rows : List Nat) (i : Nat) : Prop :=
  let v := fun j => (operand f ctl (get j)).1
  i ∈ rows ∧ notNan (v i) ∧ ∀ j ∈ rows, notNan (v j) →
    (if isMax then ¬ Before (v i) (v j) else ¬ Before (v j) (v i)) ∧
    (j < i → if isMax then Before (v j) (v i) else Before (v i) (v j))
def IsExtremeInt (isMax : Bool) (t : ETy) (get : Nat → Nat) (rows : List Nat) (i : Nat) : Prop :=
  i ∈ rows ∧ ∀ j ∈ rows, (if isMax then intVal t (get j) ≤ intVal t (get i) else intVal t (get i) ≤ intVal t (get j)) ∧
    (j < i → get j ≠ get i)
/-- The running values of an integer scan from z on. -/
def running (f : Int → Int → Int) : Int → List Nat → (Nat → Int) → List Int
  | _, [], _ => []
  | z, x :: xs, val => f z (val x) :: running f (f z (val x)) xs val
/-- Whether a saturating sum scan leaves the range of its type at some row. -/
def everSat (t : ETy) : Int → List Nat → Bool
  | _, [] => false
  | z, x :: xs => decide (held t (z + intVal t x) ≠ z + intVal t x) || everSat t (held t (z + intVal t x)) xs
/-- The outputs of a float minimum or maximum scan from z on, with their flags. -/
def extremes (f : Fmt) (ctl : BitVec 10) (isMax : Bool) : Nat → List Nat → List (Nat × Flags)
  | _, [] => []
  | z, x :: xs =>
    let y := fMinMax f ctl isMax z x
    let o := roundVal f (resultFlush ctl f) .rne (valueOf f y.bits)
    (o.1, y.fl ||| o.2) :: extremes f ctl isMax y.bits xs
/-- The running FP32 sums of a scan. -/
def sums (f : Fmt) (ctl : BitVec 10) : Nat × Flags → List Nat → List (Nat × Flags)
  | _, [] => []
  | z, x :: xs =>
    let o := operand f ctl x
    let y := plus ctl (z.1, 0) o.1 o.2
    y :: sums f ctl y xs
/-- The word leaves the k-th active row at the k-th output and every other row as it was. -/
def ScanGives (i : Instr) (s : State) (t : ETy) (p : Option Prefix) (d : Reg) (outs : List Nat) (fl : Flags) : Prop :=
  let rows := activeOf s.me t p
  outs.length = rows.length ∧ VectorGives i s d (elemBits t)
    (fun r => match outs[rows.idxOf r]? with
      | some v => v
      | none => row s.me d (elemBits t) r) fl

end Sys2Proof.Claims

/-- R187 to R190: the reductions of integers over the active rows, from the identity of their operation; an integer sum is
exact and saturates once. A selecting predicate of the probability class takes its trap. -/
def Sys2Proof.Claims.IntegerReductions : Prop :=
  ∀ (t : ETy) (p : Option Prefix) (d a : Reg) (s : State), s.me.own = s.me.ctx → fmtOf t = none → t ≠ .q → t ≠ .pr →
    let xs := heldRows s.me t p a
    let zs := xs.map (intVal t)
    let out := fun (z : Int) => extended t (bitsOfInt t z)
    let bits := fun (op : Nat → Nat → Nat) (e : Nat) => extended t (xs.foldr op e)
    (BitClass s p →
      LaneGives (.vredAdd t p d a) s d (out (held t zs.sum)) (satFlag t zs.sum) ∧
      LaneGives (.vredMin t p d a) s d (out (zs.foldr min (most t))) 0 ∧
      LaneGives (.vredMax t p d a) s d (out (zs.foldr max (least t))) 0 ∧
      LaneGives (.vredAnd t p d a) s d (bits (· &&& ·) (2 ^ elemBits t - 1)) 0 ∧
      LaneGives (.vredOr t p d a) s d (bits (· ||| ·) 0) 0 ∧
      LaneGives (.vredXor t p d a) s d (bits (· ^^^ ·) 0) 0) ∧
    (∀ q, p = some q → (s.me.pred q.p).prob = true → s.copying s.cur = false →
      ∀ i ∈ [Instr.vredAdd t p d a, .vredMin t p d a, .vredMax t p d a, .vredAnd t p d a, .vredOr t p d a, .vredXor t p d a],
        exec i s = .next (s.takeTrap s.cur { cause := 0x10, value := q.p.setWidth 64, tpc := s.me.pc }))

/-- R97, R98, R189 to R191 on floats: the sum goes lane by lane, then over the fixed tree, in FP32, and is rounded once; the
minimum and maximum pass over NaNs; the index words give the first row of the extreme, or all ones. -/
def Sys2Proof.Claims.FloatReductionsAndIndices : Prop :=
  ∀ (t : ETy) (p : Option Prefix) (d a : Reg) (s : State), s.me.own = s.me.ctx → s.me.lanes ≤ 32 → BitClass s p →
    let rows := activeOf s.me t p
    let get := row s.me a (elemBits t)
    let none_ : Word := BitVec.allOnes 64
    (∀ f, fmtOf t = some f →
      let ctl := s.me.fpctl
      let fl := readsOf f ctl (rows.map get)
      let sum := rounded f ctl (node ctl s.me.lanes (laneSum s.me f t p a) 5 0)
      LaneGives (.vredAdd t p d a) s d (BitVec.ofNat 64 sum.1) sum.2 ∧
      ∀ x ∈ [(false, Instr.vredMin t p d a, Instr.vminidx t p d a), (true, .vredMax t p d a, .vmaxidx t p d a)],
        (∀ i, IsExtreme x.1 f ctl get rows i →
          let b := asRead f ctl (get i)
          LaneGives x.2.1 s d (BitVec.ofNat 64 b) (fl ||| if nonFinite f b then 0x080 else 0) ∧
          LaneGives x.2.2 s d (BitVec.ofNat 64 i) fl) ∧
        ((∀ i ∈ rows, ¬ notNan (operand f ctl (get i)).1) →
          let b := if rows = [] then withSign f x.1 (infBits f) else qnan f
          LaneGives x.2.1 s d (BitVec.ofNat 64 b) (fl ||| if nonFinite f b then 0x080 else 0) ∧
          LaneGives x.2.2 s d none_ fl)) ∧
    (fmtOf t = none → t ≠ .q → t ≠ .pr →
      ∀ x ∈ [(false, Instr.vminidx t p d a), (true, .vmaxidx t p d a)],
        (rows = [] → LaneGives x.2 s d none_ 0) ∧
        (∀ i, IsExtremeInt x.1 t get rows i → LaneGives x.2 s d (BitVec.ofNat 64 i) 0))

/-- The statements IntegerReductions and FloatReductionsAndIndices together. -/
def Obligations.CrossLaneReductions : Prop := Claims.IntegerReductions ∧ Claims.FloatReductionsAndIndices

/-- R192, R98: each scan leaves every active row at the running result of the active rows up to it: saturating sums,
minima, maxima and patterns of integers; for floats the FP32 sum rounded at each output, and the running minimum and maximum
rounded to the type. -/
def Sys2Proof.Claims.Scans : Prop :=
  ∀ (t : ETy) (p : Option Prefix) (d a : Reg) (s : State), s.me.own = s.me.ctx → BitClass s p →
    let xs := heldRows s.me t p a
    let ctl := s.me.fpctl
    (fmtOf t = none → t ≠ .q → t ≠ .pr →
      let ints := fun (f : Int → Int → Int) (e : Int) => running f e xs (intVal t)
      let pats := fun (f : Nat → Nat → Nat) (e : Nat) => (running (fun y z => (f y.toNat z.toNat : Nat)) e xs (fun v => (v : Int))).map Int.toNat
      ScanGives (.vscanAdd t p d a) s t p d ((ints (fun y z => held t (y + z)) 0).map (bitsOfInt t))
        (if everSat t 0 xs then 0x040 else 0) ∧
      ScanGives (.vscanMin t p d a) s t p d ((ints min (most t)).map (bitsOfInt t)) 0 ∧
      ScanGives (.vscanMax t p d a) s t p d ((ints max (least t)).map (bitsOfInt t)) 0 ∧
      ScanGives (.vscanAnd t p d a) s t p d (pats (· &&& ·) (2 ^ elemBits t - 1)) 0 ∧
      ScanGives (.vscanOr t p d a) s t p d (pats (· ||| ·) 0) 0 ∧
      ScanGives (.vscanXor t p d a) s t p d (pats (· ^^^ ·) 0) 0) ∧
    (∀ f, fmtOf t = some f →
      let outs := (sums f ctl (0x80000000, 0) xs).map (rounded f ctl)
      ScanGives (.vscanAdd t p d a) s t p d (outs.map (·.1)) (outs.foldr (fun o fl => o.2 ||| fl) 0) ∧
      ∀ x ∈ [(false, Instr.vscanMin t p d a), (true, .vscanMax t p d a)],
        let outs := extremes f ctl x.1 (withSign f x.1 (infBits f)) xs
        ScanGives x.2 s t p d (outs.map (·.1)) (outs.foldr (fun o fl => o.2 ||| fl) 0))

/-- R193 to R196: vperm, vcompress, vexpand and the slides move rows bit for bit; vfirst and vpcount count the rows a
predicate selects. That a row that vslideDown takes from at or beyond the capacity, but below the length, is 0 is log 70, the
model's choice. -/
def Sys2Proof.Claims.MovesAndCounts : Prop :=
  ∀ (t : ETy) (d a b p : Reg) (s : State), s.me.own = s.me.ctx →
    let w := elemBits t
    let m := reachRows s.me t
    let src := row s.me a w
    let old := row s.me d w
    let bit := (s.me.pred p).bit
    let chosen := fun (n : Nat) => (List.range n).filter bit
    let k := (s.readX b).toNat
    let n := min (if s.me.matrix then s.me.mvlen else s.me.vlen) (256 * s.me.lanes)
    (t ≠ .q → t ≠ .pr →
      ((if s.me.matrix then s.me.mvlen else s.me.vlen) ≤ 64 * s.me.lanes → VectorGives (.vperm t d a b) s d w
        (fun i => if i < m then (if row s.me b 32 i < m then src (row s.me b 32 i) else 0) else old i) 0) ∧
      VectorGives (.vslideUp t d a b) s d w (fun i => if i < m ∧ k ≤ i then src (i - k) else old i) 0 ∧
      VectorGives (.vslideDown t d a b) s d w (fun i => if i < m then (if i + k < m then src (i + k) else 0) else old i) 0 ∧
      ((s.me.pred p).prob = false →
        VectorGives (.vcompress t d a p) s d w (fun i => match (chosen m)[i]? with
          | some j => src j
          | none => old i) 0 ∧
        VectorGives (.vexpand t d a p) s d w (fun i =>
          if i < m ∧ bit i = true then src ((List.range i).filter bit).length else old i) 0)) ∧
    ((s.me.pred p).prob = false →
      LaneGives (.vfirst d p) s d (match chosen n with
        | [] => BitVec.allOnes 64
        | i :: _ => BitVec.ofNat 64 i) 0 ∧
      LaneGives (.vpcount d p) s d (BitVec.ofNat 64 (chosen n).length) 0)

/-- The statements Scans and MovesAndCounts together. -/
def Obligations.ScansMovesAndCounts : Prop := Claims.Scans ∧ Claims.MovesAndCounts

namespace Sys2Proof.Claims
open Machine

/-- The running context owns the hart's vector state, which is in matrix mode. -/
def Matrix (s : State) : Prop := s.me.own = s.me.ctx ∧ s.me.matrix = true
def accOf (h : Hart) : Acc → Nat
  | .za => h.za
  | .zb => h.zb
/-- Cell [i][j] of an accumulator. -/
def cell (h : Hart) (z : Acc) (i j : Nat) : Nat := accOf h z / 2 ^ (32 * (128 * i + j)) % 2 ^ 32
/-- A matrix word goes on with its registers, its vector registers and memory as before. -/
structure MatrixGoesOn (s t : State) : Prop where
  regs : ∀ r, t.readX r = s.readX r
  pc : t.me.pc = s.me.pc + 4
  ready : t.me.wait = .none ∧ t.me.issued = false ∧ t.me.rest = none ∧ t.me.emitSeq = none ∧ t.me.tableStall = false
  mode : t.me.matrix = true ∧ t.me.mvlen = s.me.mvlen
  mem : t.mem = s.mem
  harts : ∀ h, h ≠ s.cur → t.hart h = s.hart h
/-- The product words with their halves (spec/10 R204, R206, R214, R215). -/
def productWords (t : ETy) (z : Acc) (rm : Rm) (k : Option Scales) (a b : Reg) (p q : BitVec 2) : List (Instr × List Half) :=
  let A : Reg := 8 * p.setWidth 5
  let B : Reg := 8 * q.setWidth 5
  [(.mop t z rm k a b, [⟨.mop, z, a, b, k, true⟩]), (.mtile t z rm k a q, [⟨.mtile, z, a, B, k, true⟩]),
   (.mbwdX t rm k p q, [⟨.mbwd, .za, A, B, k, true⟩]), (.mbwdW t rm k p q, [⟨.mbwd, .zb, A, B, k, true⟩]),
   (.mbwdBoth t rm k p q, [⟨.mbwd, .za, A, B, k, true⟩, ⟨.mbwd, .zb, A + 16, B + 16, k.map fun s => ⟨s.ka + 1, s.kb + 1⟩, false⟩])]
/-- The register and the row that give the operands of step k of cell [i][j]. -/
def aSpot (p : Half) (k i : Nat) : Reg × Nat :=
  match p.form with
  | .mop => (p.va, i)
  | .mtile => (p.va, 8 * i + k)
  | .mbwd => (p.va + BitVec.ofNat 5 k, i)
def bSpot (p : Half) (k j : Nat) : Reg × Nat :=
  match p.form with
  | .mop => (p.vb, j)
  | _ => (p.vb + BitVec.ofNat 5 k, j)
def stepsOf (p : Half) : Nat :=
  match p.form with
  | .mop => 1
  | _ => 8
/-- The A operand of a float word: from the bypass where one is armed that serves the half, else from its register. -/
def aOperand (h : Hart) (t : ETy) (p : Half) (k i : Nat) : Nat :=
  match p.byp, h.bypass with
  | true, some (_, img) => img / 2 ^ (elemBits t * (8 * i + k)) % 2 ^ elemBits t
  | _, _ => row h (aSpot p k i).1 (elemBits t) (aSpot p k i).2
/-- The power of two that scales a product, none where a scale is 0xFF: the group index is the row of a group of 1, or the
register's number in a group of 8 times the capacity plus the row (spec/10 R206, spec/04 R85). -/
def productScale (h : Hart) (t : ETy) (p : Half) (k i j : Nat) : Option Int :=
  let m := laneRows t * h.lanes
  let byte := fun (r e : Nat) => Tab.get 0 h.k r / 2 ^ (8 * (e / 32)) % 256
  match p.k with
  | none => some 0
  | some s =>
    let a := byte s.ka.toNat (if p.form = .mbwd then k * m + i else (aSpot p k i).2)
    let b := byte s.kb.toNat (if p.form = .mop then j else k * m + j)
    if a = 255 ∨ b = 255 then none else some ((a : Int) - 127 + ((b : Int) - 127))
/-- x times a power of two. -/
def scaled (x : FVal) (e : Int) : FVal :=
  match x with
  | .num p m i => .num p m (i + e)
  | v => v
/-- A float cell after n steps: each adds one exact product, or a NaN for a NaN scale, with one rounding. -/
def FloatCell (h : Hart) (t : ETy) (f : Fmt) (rm : Rm) (p : Half) (i j : Nat) : Nat → Nat × Flags → Prop
  | 0, r => r = (cell h p.z i j, 0)
  | k + 1, r => ∃ c, FloatCell h t f rm p i j k c ∧
    let x := operand f h.fpctl (aOperand h t p k i)
    let y := operand f h.fpctl (row h (bSpot p k j).1 (elemBits t) (bSpot p k j).2)
    match productScale h t p k i j with
    | none => r = (qnan .f32, c.2 ||| x.2 ||| y.2 ||| 0x090)
    | some e => ∃ q, IsFused .f32 (resultFlush h.fpctl .f32) rm (scaled x.1 e) y.1 (valueOf .f32 c.1) q ∧
        r = (q.1, c.2 ||| x.2 ||| y.2 ||| q.2)
/-- Width and signedness of the sliced operands, and the products of one step (spec/04 R81, spec/10 R204). -/
def aWidth (h : Hart) : Nat := h.vtype.toNat % 32
def bWidth (h : Hart) : Nat := if h.vtype.toNat / 2 ^ 8 % 32 = 0 then aWidth h else h.vtype.toNat / 2 ^ 8 % 32
def aSign (h : Hart) : Bool := h.vtype.getLsbD 5
def bSign (h : Hart) : Bool := if h.vtype.toNat / 2 ^ 8 % 32 = 0 then aSign h else h.vtype.getLsbD 13
def perStep (h : Hart) : Nat := max 1 (64 / (aWidth h * bWidth h))
/-- The number in row e of a sliced register (spec/04 R82). -/
def slicedNumber (h : Hart) (r : Reg) (w : Nat) (sgn : Bool) (e : Nat) : Int :=
  let v := ((List.range w).map fun b => if planeBit (h.vimg r) (mostRows .sliced w h.lanes) b e then 2 ^ b else 0).sum
  if sgn && decide (2 ^ (w - 1) ≤ v) then (v : Int) - 2 ^ w else v
def slicedStepSum (h : Hart) (p : Half) (i j k : Nat) : Int :=
  let g := perStep h
  ((List.range g).map fun u =>
    slicedNumber h (aSpot p k i).1 (aWidth h) (aSign h) ((aSpot p k i).2 * g + u) *
      slicedNumber h (bSpot p k j).1 (bWidth h) (bSign h) ((bSpot p k j).2 * g + u)).sum
/-- A cell of a sliced word: the exact sum of its integer products over every step, added to the cell with one rounding
(spec/04 R99). -/
def SlicedCell (h : Hart) (rm : Rm) (p : Half) (i j : Nat) (r : Nat × Flags) : Prop :=
  let z := ((List.range (stepsOf p)).map (slicedStepSum h p i j)).sum
  IsSum .f32 (resultFlush h.fpctl .f32) rm (valueOf .f32 (cell h p.z i j)) (.num (decide (z < 0)) z.natAbs 0) r
/-- The rows a half needs are within the capacity of its operands (spec/10 R202). -/
def Fits (h : Hart) (t : ETy) (p : Half) : Prop :=
  let g := if t = .q then perStep h else 1
  let cap := fun (w : Nat) => if t = .q then mostRows .sliced w h.lanes else laneRows t * h.lanes
  h.mvlen * g ≤ cap (bWidth h) ∧
    ((p.byp = false ∨ h.bypass = none) → (if p.form = .mtile then 8 * (h.mvlen * g) else h.mvlen * g) ≤ cap (aWidth h))
/-- A cell as a drain gives it (spec/10 R207): as it is at FP32, else as sat_t rounds it. -/
def drained (ctl : BitVec 10) (t : ETy) (rm : Rm) (c : Nat) : Nat × Flags :=
  match fmtOf t with
  | some .f32 | none => (c, 0)
  | some f => let r := satVal f ctl rm (valueOf .f32 c)
    (r.bits, r.fl)

end Sys2Proof.Claims

/-- R199 to R201, R203: menter takes the array, with both accumulators at +0, or waits for it; mleave gives it up; mzero
clears what it names. Outside their mode they take the illegal-mode trap. -/
def Sys2Proof.Claims.MatrixMode : Prop :=
  ∀ (a : Reg) (z : ZSel) (s : State), s.me.own = s.me.ctx →
    (s.me.matrix = false →
      (s.myCore.arrayHolder = some s.cur ∨ (s.myCore.arrayHolder = none ∧ (s.myCore.arrayWait = [] ∨ s.myCore.arrayWait.head? = some s.cur)) →
        ∃ t, exec (.menter a) s = .next t ∧ GoesOn s t ∧ t.me.matrix = true ∧ t.me.mvlen = min (s.readX a).toNat 128 ∧
          t.me.za = 0 ∧ t.me.zb = 0 ∧ t.me.bypass = none ∧ t.myCore.arrayHolder = some s.cur ∧ t.me.v = s.me.v ∧ t.mem = s.mem) ∧
      (∀ h, s.myCore.arrayHolder = some h → h ≠ s.cur → ∃ t, exec (.menter a) s = .next t ∧ t.me.wait = .array ∧
        t.me.pc = s.me.pc ∧ t.me.matrix = false ∧ s.cur ∈ t.myCore.arrayWait ∧ ∀ r, t.readX r = s.readX r) ∧
      (s.copying s.cur = false → ∀ i ∈ [Instr.mleave, .mzero z], exec i s = .next (s.takeTrap s.cur
        { cause := 0x02, value := BitVec.ofNat 64 ((encode i).map (·.2)).get!, tpc := s.me.pc }))) ∧
    (s.me.matrix = true →
      (∃ t, exec .mleave s = .next t ∧ GoesOn s t ∧ t.me.matrix = false ∧ t.me.za = 0 ∧ t.me.zb = 0 ∧ t.me.bypass = none ∧
        t.myCore.arrayHolder ≠ some s.cur ∧ t.me.v = s.me.v ∧ t.mem = s.mem) ∧
      (∃ t, exec (.mzero z) s = .next t ∧ GoesOn s t ∧ t.me.za = (if z = .zb then s.me.za else 0) ∧
        t.me.zb = (if z = .za then s.me.zb else 0) ∧ t.me.bypass = s.me.bypass ∧ t.me.v = s.me.v ∧ t.mem = s.mem) ∧
      (s.copying s.cur = false → exec (.menter a) s = .next (s.takeTrap s.cur
        { cause := 0x02, value := BitVec.ofNat 64 ((encode (.menter a)).map (·.2)).get!, tpc := s.me.pc })))

/-- R99, R202, R204 to R206, R208, R214, R215: a product word whose operands fit completes, with the bypass empty. Cell by
cell in the corner, a float word adds step by step the exact product of its operands, of the bypass where one of its type is
armed, under their two scales where it has them, each with one rounding in FP32, and a NaN for a NaN scale; a sliced word adds
the exact integer sum of its products with one rounding (that this holds of mtile.q too is log 59, DEDUCED). The old cell is not
flushed under of_f32 (log 60, the model's choice). The other cells stay, and so does an accumulator the word does not name.
mbwd.both is an instruction on core 0 of a cluster only. A bypass of another type takes the bypass-type trap, before any test of
row lengths (log 38, DEDUCED), with the code of the word's type, pinned here for f32 and bf16. The product check's mismatches
(R217) are left out. -/
def Obligations.MatrixProducts : Prop :=
  ∀ (t : ETy) (z : Acc) (rm : Rm) (k : Option Scales) (a b : Reg) (p q : BitVec 2) (s : State), Claims.Matrix s →
    (coreOf s.cur % 8 ≠ 0 → (Instr.mbwdBoth t rm k p q).wf = true → s.copying s.cur = false → exec (.mbwdBoth t rm k p q) s = .next (s.takeTrap s.cur
      { cause := 0x01, value := BitVec.ofNat 64 ((encode (.mbwdBoth t rm k p q)).map (·.2)).get!, tpc := s.me.pc })) ∧
    (∀ x ∈ productWords t z rm k a b p q, x.1.wf = true → (x.1 = .mbwdBoth t rm k p q → coreOf s.cur % 8 = 0) →
      (∀ y img, s.me.bypass = some (y, img) → y ≠ t → s.copying s.cur = false → ∃ n, exec x.1 s = .next (s.takeTrap s.cur
        { cause := 0x17, value := BitVec.ofNat 64 n, tpc := s.me.pc }) ∧ (t = .f32 → n = 8) ∧ (t = .bf16 → n = 9)) ∧
      (s.myCore.dupNext = none → (s.me.bypass.isSome → s.me.bypass.map (·.1) = some t) →
        t = .q ∨ (fmtOf t).isSome → (∀ half ∈ x.2, Fits s.me t half) → s.me.mvlen ≤ 128 →
        let n := s.me.mvlen
        ∃ (u : State) (res : Half → Nat → Nat → Nat × Flags), exec x.1 s = .next u ∧ MatrixGoesOn s u ∧
          u.me.bypass = none ∧ u.me.v = s.me.v ∧
          (∀ half ∈ x.2, ∀ i j, i < n → j < n →
            (t = .q → SlicedCell s.me rm half i j (res half i j)) ∧
            (∀ f, fmtOf t = some f → FloatCell s.me t f rm half i j (stepsOf half) (res half i j))) ∧
          (∀ half ∈ x.2, ∀ i j, j < 128 →
            cell u.me half.z i j = if i < n ∧ j < n then (res half i j).1 else cell s.me half.z i j) ∧
          (∀ w, (∀ half ∈ x.2, half.z ≠ w) → accOf u.me w = accOf s.me w) ∧
          u.me.fpflags = x.2.foldl (fun fl half => (List.range n).foldl (fun fl i => (List.range n).foldl (fun fl j =>
            fl ||| (res half i j).2) fl) fl) s.me.fpflags))

/-- R207, R208: mdrain leaves the row or column of cells X[c] names in V[d], drained to its type, and empties the bypass;
mdrain.b fills the bypass with eight of them. An index beyond the array takes the matrix-index trap, before the capacity of
V[d] is tested (log 64, DESIGN CHOICE). That a drain takes the cell as it stands, with no operand read that flushes it or
raises a flag, is log 60: both are the model's choices. -/
def Sys2Proof.Claims.MatrixDrains : Prop :=
  ∀ (o : Orient) (t : ETy) (z : Acc) (rm : Rm) (d c : Reg) (s : State) (f : Fmt), Matrix s → fmtOf t = some f → s.me.mvlen ≤ 128 →
    let x := (s.readX c).toNat
    let n := s.me.mvlen
    let out := fun (i j : Nat) => drained s.me.fpctl t rm (cell s.me z i j)
    let w := elemBits t
    (127 < x → s.copying s.cur = false → exec (.mdrain o t z rm d c) s = .next (s.takeTrap s.cur
      { cause := 0x16, value := s.readX c, tpc := s.me.pc })) ∧
    (120 < x → s.copying s.cur = false → exec (.mdrainB o t z rm c) s = .next (s.takeTrap s.cur
      { cause := 0x16, value := s.readX c, tpc := s.me.pc })) ∧
    (x ≤ 127 → n ≤ laneRows t * s.me.lanes → ∃ u, exec (.mdrain o t z rm d c) s = .next u ∧ MatrixGoesOn s u ∧
      u.me.za = s.me.za ∧ u.me.zb = s.me.zb ∧ u.me.bypass = none ∧ (∀ r, r ≠ d → u.me.vimg r = s.me.vimg r) ∧
      (∀ j, row u.me d w j = if j < n then (if o = .row then out x j else out j x).1 else row s.me d w j) ∧
      u.me.fpflags = (List.range n).foldl (fun fl j => fl ||| (if o = .row then out x j else out j x).2) s.me.fpflags) ∧
    (x ≤ 120 → ∃ u img, exec (.mdrainB o t z rm c) s = .next u ∧ MatrixGoesOn s u ∧
      u.me.za = s.me.za ∧ u.me.zb = s.me.zb ∧ u.me.v = s.me.v ∧ u.me.bypass = some (t, img) ∧
      ∀ i k, i < n → k < 8 → img / 2 ^ (w * (8 * i + k)) % 2 ^ w = (if o = .col then out i (x + k) else out (x + k) i).1)

/-- The statements MatrixMode and MatrixDrains together. -/
def Obligations.MatrixModeAndDrains : Prop := Claims.MatrixMode ∧ Claims.MatrixDrains

/-- R209 to R212: mld loads every cell of the corner from its place in the tile, widened to FP32 without rounding, and keeps the
cells outside the corner; it raises nv for a signalling NaN and no other flag; mst
stores every cell, drained to its type, where no later cell of the tile overlaps it. Both empty the bypass. That mst takes the
cell as it stands, a subnormal one unflushed, is log 60, the model's choice; the flags of mst and tiles that fault are left out. -/
def Obligations.MatrixMemory : Prop :=
  ∀ (o : Orient) (t : ETy) (z : Acc) (rm : Rm) (a c : Reg) (s : State) (f : Fmt) (ps : List Trans), Matrix s → fmtOf t = some f →
    s.me.mvlen ≤ 128 → (o = .col → c ≠ 0 → (s.readX c).toNat % 4096 = 0) → NoCapture s →
    let n := s.me.mvlen
    let l := tileAccesses s.me o t a c
    let size := elemBits t / 8
    -- the cell of position r · n + k
    let at_ := fun (h : Hart) (r k : Nat) => if o = .row then cell h z r k else cell h z k r
    (AllPass s o false l ps → Clean s o l ps → Settled s o l ps → ∃ u, exec (.mld o t z a c) s = .next u ∧ u.me.bypass = none ∧
      (∀ r, u.readX r = s.readX r) ∧ u.me.pc = s.me.pc + 4 ∧ u.me.v = s.me.v ∧ u.mem = s.mem ∧
      (∀ k b, u.clusterByte k b = s.clusterByte k b) ∧
      (∀ w, w ≠ z → accOf u.me w = accOf s.me w) ∧
      (∀ i j, j < 128 → ¬ (i < n ∧ j < n) → cell u.me z i j = cell s.me z i j) ∧
      u.me.fpflags = s.me.fpflags ||| (if ∃ p ∈ ps, valueOf f (seen s p size) = .nan true then flagNv else 0) ∧
      ∀ r k p, r < n → k < n → ps[r * n + k]? = some p →
        let v := valueOf f (seen s p size)
        let got := valueOf .f32 (at_ u.me r k)
        (notNan v → value got = value v ∧ negative got = negative v) ∧ (¬ notNan v → at_ u.me r k = 0x7FC00000)) ∧
    (AllPass s o true l ps → Uncached s → (∀ p ∈ ps, Writable s p.pa size) →
      (∀ p ∈ ps, ∀ j, j < size → (lineFor o size p.pa).holds (p.pa + j) = true) →
      ∃ u, exec (.mst o t z rm a c) s = .next u ∧ u.me.bypass = none ∧ u.me.za = s.me.za ∧ u.me.zb = s.me.zb ∧
        (∀ r, u.readX r = s.readX r) ∧ u.me.pc = s.me.pc + 4 ∧ u.me.v = s.me.v ∧
        (∀ r k p i, r < n → k < n → ps[r * n + k]? = some p → i < size →
          (∀ m q, r * n + k < m → ps[m]? = some q → p.pa + i < q.pa ∨ q.pa + size ≤ p.pa + i) →
          u.clusterByte (clusterOf s.cur) (p.pa + i) =
            BitVec.ofNat 8 ((drained s.me.fpctl t rm (at_ s.me r k)).1 / 2 ^ (8 * i))) ∧
        ∀ b, (∀ p ∈ ps, b < p.pa ∨ p.pa + size ≤ b) → u.clusterByte (clusterOf s.cur) b = s.clusterByte (clusterOf s.cur) b)

namespace Sys2Proof.Claims
open Machine

/-- A run is in progress and its current row executes a word that acts on some element types: the prefix holds for it, and
it is below their capacity; a mask holds the bit class (spec/03 R57, spec/05 R102, spec/04 R93). -/
def RowReady (s : State) (r : Run) (h : BHead) (ts : List ETy) (m : Option Reg) : Prop :=
  s.me.run = some r ∧ (∀ q, h.pred = some q → (s.me.pred q.p).prob = false ∧ (s.me.pred q.p).bit r.cur ≠ q.neg) ∧
    r.cur < 256 * r.cap.lanes ∧
    (∀ t ∈ ts, r.cur < if t = .q then slicedRows (r.cap.vtype.toNat % 32) r.cap.lanes else laneRows t * r.cap.lanes) ∧
    ∀ p, m = some p → (s.me.pred p).prob = false
/-- Element i of a register as a type of the run reads it. -/
def element (r : Run) (h : Hart) (t : ETy) (reg : Reg) (i : Nat) : Nat :=
  match t with
  | .q => slicedRow (h.vimg reg) (slicedRows (r.cap.vtype.toNat % 32) r.cap.lanes) i (r.cap.vtype.toNat % 32)
  | .pr => min (row h reg 16 i) 0x8000
  | t => row h reg (elemBits t) i
/-- The row goes on at its next word; nothing else of the machine changes but the hart's vector and predicate registers,
flags and energy count. -/
structure RowGoesOn (s t : State) (r : Run) (fl : Flags) : Prop where
  run : t.me.run = some { r with rows := r.rows.modify r.cur fun x => { x with pc := x.pc + 8 } }
  flags : t.me.fpflags = s.me.fpflags ||| fl
  hart : { t.me with v := s.me.v, p := s.me.p, run := s.me.run, fpflags := s.me.fpflags, ectr := s.me.ectr } = s.me
  harts : ∀ h, h ≠ s.cur → t.hart h = s.hart h
  rest : { t with harts := s.harts } = s
/-- The word stores v into the current row of a vector register, sets that row's bit of its mask if mark holds, and raises
fl; no other row, register or cell changes. -/
structure RowWrites (s t : State) (r : Run) (ty : ETy) (d : Reg) (m : Option Reg) (v : Nat) (mark : Bool) (fl : Flags) : Prop where
  goes : RowGoesOn s t r fl
  value : element r t.me ty d r.cur = v
  rows : ∀ j, j ≠ r.cur → (ty = .q → j < slicedRows (r.cap.vtype.toNat % 32) r.cap.lanes) →
    element r t.me ty d j = element r s.me ty d j
  others : ∀ x, x ≠ d → t.me.vimg x = s.me.vimg x
  cells : ∀ p j, (t.me.pred p).cell j = if mark = true ∧ m = some p ∧ j = r.cur then 0x8000 else (s.me.pred p).cell j
  tags : ∀ p, (t.me.pred p).prob = (s.me.pred p).prob ∧ (t.me.pred p).ind = (s.me.pred p).ind
def RowGives (i : Instr) (s : State) (r : Run) (ty : ETy) (d : Reg) (m : Option Reg) (v : Nat) (mark : Bool) (fl : Flags) : Prop :=
  ∃ t, exec i s = .next t ∧ RowWrites s t r ty d m v mark fl
/-- The word stores v into the current cell of a predicate register. -/
structure CellWrites (s t : State) (r : Run) (d : Reg) (v : Nat) (fl : Flags) : Prop where
  goes : RowGoesOn s t r fl
  vectors : ∀ x, t.me.vimg x = s.me.vimg x
  cells : ∀ p j, (t.me.pred p).cell j = if p = d ∧ j = r.cur then v else (s.me.pred p).cell j
  tags : ∀ p, (t.me.pred p).prob = (s.me.pred p).prob ∧ (t.me.pred p).ind = (s.me.pred p).ind
def CellGives (i : Instr) (s : State) (r : Run) (d : Reg) (v : Nat) (fl : Flags) : Prop :=
  ∃ t, exec i s = .next t ∧ CellWrites s t r d v fl
/-- An exact integer stored with saturation, marked and flagged beyond the range (spec/05 R104). -/
def SatRow (i : Instr) (s : State) (r : Run) (t : ETy) (d : Reg) (m : Option Reg) (z : Int) : Prop :=
  RowGives i s r t d m (bitsOfInt t (held t z)) (decide (z < least t ∨ most t < z)) (satFlag t z)
/-- A float result with its reads: it is marked where it overflows, is invalid or divides by zero (spec/04 R92). -/
def FloatRow (i : Instr) (s : State) (r : Run) (t : ETy) (d : Reg) (m : Option Reg) (p : Nat × Flags → Prop) (reads : Flags) : Prop :=
  ∃ x, p x ∧ RowGives i s r t d m x.1 (x.2 &&& 0x01C != 0) (reads ||| x.2)
/-- A sliced result, saturated to the width and sign of the run (spec/05 R117). -/
def slicedInt (r : Run) (v : Nat) : Int :=
  let w := r.cap.vtype.toNat % 32
  if r.cap.vtype.getLsbD 5 then (BitVec.ofNat w v).toInt else ((v % 2 ^ w : Nat) : Int)
def slicedLeast (r : Run) : Int := if r.cap.vtype.getLsbD 5 then -2 ^ (r.cap.vtype.toNat % 32 - 1) else 0
def slicedMost (r : Run) : Int :=
  if r.cap.vtype.getLsbD 5 then 2 ^ (r.cap.vtype.toNat % 32 - 1) - 1 else 2 ^ (r.cap.vtype.toNat % 32) - 1
def SlicedRow (i : Instr) (s : State) (r : Run) (d : Reg) (m : Option Reg) (z : Int) (fl : Flags) : Prop :=
  RowGives i s r .q d m ((max (slicedLeast r) (min (slicedMost r) z) % 2 ^ (r.cap.vtype.toNat % 32)).toNat)
    (decide (z < slicedLeast r ∨ slicedMost r < z)) (fl ||| if z < slicedLeast r ∨ slicedMost r < z then 0x040 else 0)
/-- A value stored as a float by sat_t: a NaN is the canonical one, an infinity stays but for E4M3, where it becomes ±448 and
marks, and a finite value stays finite and marks where it overflows (spec/04 R91, R92). -/
def FloatSat (i : Instr) (s : State) (r : Run) (t : ETy) (d : Reg) (m : Option Reg) (f : Fmt) (rm : Rm) (x : FVal) (reads : Flags) : Prop :=
  match x with
  | .nan _ => RowGives i s r t d m (qnan f) false (reads ||| 0x080)
  | .inf p =>
    if f = .e4m3 then RowGives i s r t d m (withSign f p (maxBits f)) true (reads ||| 0x004)
    else RowGives i s r t d m (withSign f p (infBits f)) false (reads ||| 0x080)
  | .num p n e =>
    if n = 0 then RowGives i s r t d m (withSign f p 0) false reads
    else ∃ k, Saturates f (resultFlush r.cap.fpctl f) rm (real (.num p n e)) k ∧
      RowGives i s r t d m k.1 (k.2 &&& 0x004 != 0) (reads ||| k.2)
/-- The integer a float becomes: 0 with nv for a NaN, the end of the range with nv beyond it, nx where it is inexact; the
events of nv mark (spec/05 R114, spec/04 R92). -/
def IntegerSat (i : Instr) (s : State) (r : Run) (t : ETy) (d : Reg) (m : Option Reg) (rm : Rm) (x : FVal) (reads : Flags) : Prop :=
  match x with
  | .nan _ => RowGives i s r t d m 0 true (reads ||| 0x010)
  | .inf p => RowGives i s r t d m (bitsOfInt t (if p then least t else most t)) true (reads ||| 0x010)
  | .num p n e => ∃ z : Int, Chooses Whole EvenWhole rm (real (.num p n e)) z ∧
      if z < least t ∨ most t < z then RowGives i s r t d m (bitsOfInt t (held t z)) true (reads ||| 0x010)
      else RowGives i s r t d m (bitsOfInt t z) false (reads ||| if (z : ℝ) = real (.num p n e) then 0 else 0x001)
/-- 2^x with the corners of spec/05 R116. Where x is no integer the result is inexact and the single rounding is that of a
number v within 2^-200 of 2^x, in proportion: that no FP32 rounding boundary lies between the two is log 14. -/
def IsExp2 (flush : Bool) (rm : Rm) (x : FVal) (r : Nat × Flags) : Prop :=
  match x with
  | .nan _ => r = nanOut .f32
  | .inf p => r = if p then zero .f32 false else infinity .f32 false
  | .num p m e =>
    (Whole (real (.num p m e)) → Rounded .f32 flush rm ((2 : ℝ) ^ real (.num p m e)) r) ∧
      (¬ Whole (real (.num p m e)) → r.2 &&& 0x001 = 0x001 ∧
        ∃ v : ℝ, |v - (2 : ℝ) ^ real (.num p m e)| ≤ (2 : ℝ) ^ real (.num p m e) / 2 ^ 200 ∧ Rounded .f32 flush rm v r)
/-- log2 x with the corners of spec/05 R116; 0 for 1 and exact without a flag for every power of two. Elsewhere the result is
inexact and rounds a number v within 2^-100 of log2 x (log 14). -/
def IsLog2 (flush : Bool) (rm : Rm) (x : FVal) (r : Nat × Flags) : Prop :=
  match x with
  | .nan _ => r = nanOut .f32
  | .inf p => r = if p then invalid .f32 else infinity .f32 false
  | .num p m e =>
    if m = 0 then r = (withSign .f32 true (infBits .f32), 0x088)
    else if p then r = invalid .f32
    else
      (∀ z : Int, real (.num p m e) = (2 : ℝ) ^ z → real (valueOf .f32 r.1) = z ∧ notNan (valueOf .f32 r.1) ∧ r.2 = 0 ∧ (z = 0 → r.1 = 0)) ∧
        ((∀ z : Int, real (.num p m e) ≠ (2 : ℝ) ^ z) → r.2 &&& 0x001 = 0x001 ∧
          ∃ v : ℝ, |v - Real.logb 2 (real (.num p m e))| ≤ 1 / 2 ^ 100 ∧ Rounded .f32 flush rm v r)
/-- 1/√x with the corners of spec/04 R92. -/
def IsInverseRoot (flush : Bool) (rm : Rm) (x : FVal) (r : Nat × Flags) : Prop :=
  match x with
  | .nan _ => r = nanOut .f32
  | .inf p => r = if p then invalid .f32 else zero .f32 false
  | .num p m _ =>
    if m = 0 then r = (withSign .f32 p (infBits .f32), 0x088) else if p then r = invalid .f32
    else Rounded .f32 flush rm (1 / Real.sqrt (real x)) r
/-- A condition of spec/06 R129 between two numbers. -/
def Compares {α : Type} [LE α] [LT α] (cc : CmpOp) (x y : α) : Prop :=
  match cc with
  | .eq => x = y
  | .ne => x ≠ y
  | .lt => x < y
  | .le => x ≤ y
  | .gt => y < x
  | .ge => y ≤ x
/-- q = 0.5 + 0.25 · s for s = (u − v) / T, each step rounded to FP32 by RNE without flag or flush; none where s is a NaN
(spec/06 R133). -/
def IsRamp (T : BitVec 32) (u v : FVal) (q : Option FVal) : Prop :=
  ∃ dd s, IsSum .f32 false .rne u (opposite v) dd ∧ IsQuotient .f32 false .rne (valueOf .f32 dd.1) (valueOf .f32 T.toNat) s ∧
    (¬ notNan (valueOf .f32 s.1) → q = none) ∧
    (notNan (valueOf .f32 s.1) → ∃ k, IsFused .f32 false .rne (.num false 1 (-2)) (valueOf .f32 s.1) (.num false 1 (-1)) k ∧
      q = some (valueOf .f32 k.1))
/-- The cell of a fraction clamped to 0 and 1: its multiple of 1/32768, ties to even. -/
def IsFraction (q : FVal) (k : Nat) : Prop :=
  (value q ≤ 0 → k = 0) ∧ (1 ≤ value q → k = 0x8000) ∧
    (0 < value q → value q < 1 → Chooses Whole EvenWhole .rne (32768 * real q) (k : ℝ))
/-- The 15 bits that pcollapse draws for row i at counter c (spec/06 R138). -/
def drawn (c i : Nat) : Nat :=
  let z := c ^^^ (i * 2 ^ 50 % 2 ^ 64)
  let z := (z ^^^ (z / 2 ^ 31)) * 0xD1B54A32D192ED03 % 2 ^ 64
  let z := (z ^^^ (z / 2 ^ 29)) * 0xAEF17502108EF2D9 % 2 ^ 64
  let z := (z ^^^ (z / 2 ^ 32)) * 0xD1B54A32D192ED03 % 2 ^ 64
  z / 2 ^ 49
/-- The addresses of the pcollapse words of a closure. -/
def collapseWords (r : Run) : List Nat := (r.words.filter fun e => decide (e.2 / 2 ^ 56 = 0x46)).map (·.1)
/-- A number of FP32 rounded once more to a format of a row (spec/06 R137). -/
def IsNarrowed (f : Fmt) (flush : Bool) (rm : Rm) (x : FVal) (r : Nat × Flags) : Prop :=
  match x with
  | .nan _ => r = nanOut f
  | .inf p => r = infinity f p
  | .num p m e => if m = 0 then r = zero f p else Rounded f flush rm (real (.num p m e)) r
/-- The words of the block run on floats of FP32, BF16 and FP16. -/
def FloatTy (t : ETy) (f : Fmt) : Prop := fmtOf t = some f ∧ f ≠ .e4m3 ∧ f ≠ .e5m2

end Sys2Proof.Claims

/-- R104 to R108: the integer row words store their saturated sums, products, quotients, patterns, shifts and counts into the
current row, mark and flag what saturates or divides by zero, and change nothing else. -/
def Obligations.RowIntegerWords : Prop :=
  ∀ (h : BHead) (t : ETy) (rm : Rm) (d : Reg) (a b : Src) (m : Option Reg) (s : State) (r : Run),
    fmtOf t = none → t ≠ .q → t ≠ .pr → RowReady s r h [t] m →
    let u := row s.me a.r (elemBits t) r.cur
    let v := row s.me b.r (elemBits t) r.cur
    let x := intVal t u
    let y := intVal t v
    let o := intVal t (row s.me d (elemBits t) r.cur)
    let w := elemBits t
    let bits := fun (i : Instr) (z : Nat) => RowGives i s r t d none z false 0
    SatRow (.vadd h t rm d a b m) s r t d m (x + y) ∧ SatRow (.vsub h t rm d a b m) s r t d m (x - y) ∧
    SatRow (.vmul h t rm d a b m) s r t d m (x * y) ∧ SatRow (.vmac h t rm d a b m) s r t d m (o + x * y) ∧
    SatRow (.vabs h t d a m) s r t d m |x| ∧ SatRow (.vneg h t d a m) s r t d m (-x) ∧
    (y = 0 → RowGives (.vdiv h t rm d a b m) s r t d m (2 ^ w - 1) true 0x008 ∧ RowGives (.vrem h t d a b m) s r t d m u true 0x008) ∧
    (y = -1 → isSignedTy t = true → x = least t →
      RowGives (.vdiv h t rm d a b m) s r t d m u true 0x040 ∧ RowGives (.vrem h t d a b m) s r t d m 0 true 0x040) ∧
    (y ≠ 0 → ¬ (y = -1 ∧ isSignedTy t = true ∧ x = least t) →
      RowGives (.vdiv h t rm d a b m) s r t d m (bitsOfInt t (x.tdiv y)) false 0 ∧
      RowGives (.vrem h t d a b m) s r t d m (bitsOfInt t (x - x.tdiv y * y)) false 0) ∧
    (m = none →
      bits (.vmulh h t d a b) (bitsOfInt t (x * y / 2 ^ w)) ∧
      bits (.vmin h t d a b) (bitsOfInt t (min x y)) ∧ bits (.vmax h t d a b) (bitsOfInt t (max x y)) ∧
      bits (.vand h t d a b) (u &&& v) ∧ bits (.vor h t d a b) (u ||| v) ∧ bits (.vxor h t d a b) (u ^^^ v) ∧
      bits (.vnot h t d a) (2 ^ w - 1 - u) ∧
      bits (.vshl h t d a b) (if v < w then u * 2 ^ v % 2 ^ w else 0) ∧ bits (.vshr h t d a b) (if v < w then u / 2 ^ v else 0) ∧
      bits (.vsra h t d a b) (if isSignedTy t then bitsOfInt t (if v < w then x / 2 ^ v else if x < 0 then -1 else 0)
        else if v < w then u / 2 ^ v else 0) ∧
      bits (.vpopc h t d a) (ones w (BitVec.ofNat 64 u)) ∧
      ∃ k, ZerosAbove w (BitVec.ofNat 64 u) k ∧ bits (.vclz h t d a) k)

/-- R109 to R112: the float row words store their rounded results into the current row, with marks for overflow, invalid
operations and division by zero; vmac rounds twice, vfma once; vmin, vmax, vabs and vneg return an operand as read. The root
of +∞ raises nf, as R95 and R103 say of every infinity written: R109's 'without flags' is read as said of the operation's own flags
(log 62, DEDUCED). -/
def Obligations.RowFloatWords : Prop :=
  ∀ (h : BHead) (t : ETy) (rm : Rm) (d : Reg) (a b c : Src) (m : Option Reg) (s : State) (r : Run) (f : Fmt),
    FloatTy t f → RowReady s r h [t] m →
    let ctl := r.cap.fpctl
    let get := fun (x : Reg) => row s.me x (elemBits t) r.cur
    let x := operand f ctl (get a.r)
    let y := operand f ctl (get b.r)
    let z := operand f ctl (get c.r)
    let o := operand f ctl (get d)
    let flush := resultFlush ctl f
    let two := x.2 ||| y.2
    let plain := fun (i : Instr) (k : Nat) (fl : Flags) => RowGives i s r t d none k false (fl ||| if nonFinite f k then 0x080 else 0)
    FloatRow (.vadd h t rm d a b m) s r t d m (IsSum f flush rm x.1 y.1) two ∧
    FloatRow (.vsub h t rm d a b m) s r t d m (IsSum f flush rm x.1 (opposite y.1)) two ∧
    FloatRow (.vmul h t rm d a b m) s r t d m (IsProduct f flush rm x.1 y.1) two ∧
    FloatRow (.vdiv h t rm d a b m) s r t d m (IsQuotient f flush rm x.1 y.1) two ∧
    FloatRow (.vfma h t rm d a b c m) s r t d m (IsFused f flush rm x.1 y.1 z.1) (two ||| z.2) ∧
    (∃ p q, IsProduct f flush rm x.1 y.1 p ∧ IsSum f flush rm o.1 (valueOf f p.1) q ∧
      RowGives (.vmac h t rm d a b m) s r t d m q.1 ((p.2 ||| q.2) &&& 0x01C != 0) (two ||| o.2 ||| p.2 ||| q.2)) ∧
    (∀ e ∈ [(Instr.vabs h t d a m, false), (.vneg h t d a m, !negative x.1)], ∃ k, RowGives e.1 s r t d m k false
        (x.2 ||| if nonFinite f k then 0x080 else 0) ∧
      (¬ notNan x.1 → k = qnan f) ∧ (notNan x.1 → k % signBit f = asRead f ctl (get a.r) % signBit f ∧ bitOf k (f.width - 1) = e.2)) ∧
    (m = none →
      FloatRow (.vsqrt h t rm d a) s r t d none (IsRoot f flush rm x.1) x.2 ∧
      ∀ e ∈ [(Instr.vmin h t d a b, false), (.vmax h t d a b, true)], plain e.1 (fMinMax f ctl e.2 (get a.r) (get b.r)).bits two)

/-- R113 to R120: conversions, special functions, sliced arithmetic, scaling, immediates, selection and moves of rows. The
special functions round once (R116); for 2^x and log2 x see IsExp2 and IsLog2 (log 14). -/
def Obligations.RowConversions : Prop :=
  ∀ (h : BHead) (t u : ETy) (rm : Rm) (d : Reg) (a b : Src) (n : Reg) (k : KReg) (imm : BitVec 12) (m : Option Reg) (s : State) (r : Run),
    let ctl := r.cap.fpctl
    let i := r.cur
    let one := RowReady s r h [t] none
    let get := fun (t : ETy) (x : Reg) => element r s.me t x i
    (t ≠ .q → t ≠ .pr → u ≠ .q → u ≠ .pr → RowReady s r h [t, u] m →
      let w := Instr.vcvt h t u rm d a m
      (fmtOf t = none → fmtOf u = none → SatRow w s r t d m (intVal u (get u a.r))) ∧
      (∀ f, fmtOf t = some f → fmtOf u = none →
        FloatSat w s r t d m f rm (.num (decide (intVal u (get u a.r) < 0)) (intVal u (get u a.r)).natAbs 0) 0) ∧
      (∀ g, fmtOf u = some g →
        let x := operand g ctl (get u a.r)
        (fmtOf t = none → IntegerSat w s r t d m rm x.1 x.2) ∧
        ∀ f, fmtOf t = some f → FloatSat w s r t d m f rm x.1 x.2)) ∧
    (RowReady s r h [.f32] m →
      let x := operand .f32 ctl (get .f32 a.r)
      let flush := resultFlush ctl .f32
      FloatRow (.vrcp h rm d a m) s r .f32 d m (IsQuotient .f32 flush rm (.num false 1 0) x.1) x.2 ∧
      FloatRow (.vrsqrt h rm d a m) s r .f32 d m (IsInverseRoot flush rm x.1) x.2 ∧
      FloatRow (.vexp2 h rm d a m) s r .f32 d m (IsExp2 flush rm x.1) x.2 ∧
      FloatRow (.vlog2 h rm d a m) s r .f32 d m (IsLog2 flush rm x.1) x.2) ∧
    (1 ≤ r.cap.vtype.toNat % 32 → RowReady s r h [.q] m →
      let x := slicedInt r (get .q a.r)
      let e := s.me.scale k.toNat (i / 32)
      let sq := Instr.vscale h .q rm d a k m
      SlicedRow (.vqadd h d a b m) s r d m (x + slicedInt r (get .q b.r)) 0 ∧
      SlicedRow (.vqmul h d a b m) s r d m (x * slicedInt r (get .q b.r)) 0 ∧
      (fmtOf u = none → u ≠ .q → u ≠ .pr → RowReady s r h [.q, u] m → SlicedRow (.vqpack h u d a m) s r d m (intVal u (get u a.r)) 0) ∧
      (fmtOf t = none → t ≠ .q → t ≠ .pr → RowReady s r h [t, .q] none →
        RowGives (.vqunpack h t d a) s r t d none (bitsOfInt t (held t x)) false (satFlag t x)) ∧
      (e = 255 → RowGives sq s r .q d m 0 true 0x010) ∧
      (e ≠ 255 → ∃ z : Int, Chooses Whole EvenWhole .rne ((x : ℝ) * (2 : ℝ) ^ ((e : Int) - 127)) z ∧
        SlicedRow sq s r d m z (if (z : ℝ) = (x : ℝ) * (2 : ℝ) ^ ((e : Int) - 127) then 0 else 0x001))) ∧
    (∀ f, fmtOf t = some f →
      let x := operand f ctl (get t a.r)
      (one → (∃ c, ClassCode f (asRead f ctl (get t a.r)) c ∧ RowGives (.vclass h t d a) s r t d none c false (x.2 &&& 0x020)) ∧
        let v := roundVal f (resultFlush ctl f) .rne (.num (decide (imm.toInt < 0)) imm.toInt.natAbs 0)
        RowGives (.vli h t d imm) s r t d none v.1 false v.2) ∧
      (RowReady s r h [t] m →
        let e := s.me.scale k.toNat (i / 32)
        (e = 255 → RowGives (.vscale h t rm d a k m) s r t d m (qnan f) true (x.2 ||| 0x090)) ∧
        (e ≠ 255 → FloatSat (.vscale h t rm d a k m) s r t d m f rm (scaled x.1 ((e : Int) - 127)) x.2))) ∧
    (fmtOf t = none → t ≠ .q → t ≠ .pr → one →
      RowGives (.vli h t d imm) s r t d none (bitsOfInt t (held t imm.toInt)) false (satFlag t imm.toInt)) ∧
    (one → RowGives (.vmov h t d a) s r t d none (get t a.r) false 0) ∧
    (t ≠ .q → t ≠ .pr → RowReady s r h [t] (some n) →
      RowGives (.vsel h t d a b n) s r t d none (get t (if (s.me.pred n).bit i then a.r else b.r)) false 0)

/-- R123, R129 to R142: predicate words write the current cell: comparisons as bits, logic with the product rule of
independent fractions, soft compares, fractions, collapses by the bits that R138 and R139 draw; blends and gradients store
their row. pind changes no cell. psgrad with a NaN gradient at T = +0 follows R142 (log 63). That vblend at the fractions 0 and
0x8000, where it copies, raises no flag, nf included, is log 35, DEDUCED: R137 gives the bits alone. -/
def Obligations.RowPredicateWords : Prop :=
  ∀ (h : BHead) (cv : Bool) (cc : CmpOp) (t : ETy) (rm : Rm) (d x y : Reg) (a b g : Src) (v : Bool) (s : State) (r : Run),
    let ctl := r.cap.fpctl
    let i := r.cur
    let get := fun (q : Src) => element r s.me t q.r i
    let p := (s.me.pred x).cell i
    let q := (s.me.pred y).cell i
    (RowReady s r h [] none → ∃ z : Nat, Chooses Whole EvenWhole .rne ((p : ℝ) * q / 32768) z ∧
      let both := if (s.me.pred x).ind ∧ (s.me.pred y).ind then z else min p q
      CellGives (.pand h d x y) s r d (min both 0x8000) 0 ∧ CellGives (.por h d x y) s r d (min (p + q - both) 0x8000) 0 ∧
      CellGives (.pxor h d x y) s r d (min (p + q - 2 * both) 0x8000) 0 ∧
      CellGives (.pnot h d x) s r d (0x8000 - p) 0 ∧ CellGives (.pmov h d x) s r d (min p 0x8000) 0) ∧
    (RowReady s r h [.z16] none → CellGives (.pset h d a) s r d (min (row s.me a.r 16 i) 0x8000) 0) ∧
    (RowReady s r ⟨cv, none⟩ [] none →
      (∃ u, exec (.pind cv d v) s = .next u ∧ RowGoesOn s u r 0 ∧ u.me.v = s.me.v ∧ u.me.p = s.me.p) ∧
      (∃ u b, exec (.pcollapse cv d x) s = .next u ∧
        (∀ z j, (u.me.pred z).cell j = if z = d ∧ j = i then (if b then 0x8000 else 0) else (s.me.pred z).cell j) ∧
        (p = 0 → b = false) ∧ (p = 0x8000 → b = true) ∧
        (r.words.Pairwise (·.1 < ·.1) → r.row.pc ∈ collapseWords r →
          b = decide (drawn ((r.g0.toNat + (collapseWords r).length * r.row.count r.row.pc +
            ((collapseWords r).filter (· < r.row.pc)).length) % 2 ^ 64) i < p)) ∧ (∀ z, u.me.vimg z = s.me.vimg z) ∧ u.me.fpflags = s.me.fpflags ∧
        ∃ r', u.me.run = some r' ∧ r'.cur = i ∧ (i < r.rows.length → r'.row.pc = r.row.pc + 8 ∧ r'.row.count r.row.pc = r.row.count r.row.pc + 1))) ∧
    (fmtOf t = none → t ≠ .q → t ≠ .pr → RowReady s r h [t] none →
      ∃ c : Bool, (c = true ↔ Compares cc (intVal t (get a)) (intVal t (get b))) ∧
        CellGives (.vcmp h cc t d a b) s r d (if c then 0x8000 else 0) 0) ∧
    (∀ f, fmtOf t = some f → RowReady s r h [t] none →
      let m := operand f ctl (get a)
      let n := operand f ctl (get b)
      let fl := m.2 ||| n.2
      let holds := fun (cc : CmpOp) => Compares cc (value m.1) (value n.1)
      (∃ c : Bool, (c = true ↔ (notNan m.1 ∧ notNan n.1 ∧ holds cc) ∨ (cc = .ne ∧ (¬ notNan m.1 ∨ ¬ notNan n.1))) ∧
        CellGives (.vcmp h cc t d a b) s r d (if c then 0x8000 else 0) fl) ∧
      ∀ e ∈ [(Instr.psgt h t d a b, CmpOp.gt, false), (.psge h t d a b, .ge, false), (.pslt h t d a b, .lt, true), (.psle h t d a b, .le, true)],
        ((¬ notNan m.1 ∨ ¬ notNan n.1) → CellGives e.1 s r d 0 (fl ||| 0x010)) ∧
        (notNan m.1 → notNan n.1 → r.cap.ptemp = 0 → ∃ c : Bool, (c = true ↔ holds e.2.1) ∧
          CellGives e.1 s r d (if c then 0x8000 else 0) fl) ∧
        (notNan m.1 → notNan n.1 → r.cap.ptemp ≠ 0 →
          ∃ z, IsRamp r.cap.ptemp (if e.2.2 then n.1 else m.1) (if e.2.2 then m.1 else n.1) z ∧
            match z with
            | none => CellGives e.1 s r d 0 (fl ||| 0x010)
            | some z => ∃ k, IsFraction z k ∧ CellGives e.1 s r d k fl)) ∧
    (∀ f, fmtOf t = some f → f ≠ .e4m3 → f ≠ .e5m2 →
      let flush32 := resultFlush ctl .f32
      let m := operand f ctl (get a)
      let n := operand f ctl (get b)
      (RowReady s r ⟨cv, none⟩ [t] none →
        (p = 0 → RowGives (.vblend cv t rm d a b x) s r t d none (get b) false 0) ∧
        (p = 0x8000 → RowGives (.vblend cv t rm d a b x) s r t d none (get a) false 0) ∧
        (p ≠ 0 → p ≠ 0x8000 → ∃ dd z w, IsSum .f32 flush32 rm m.1 (opposite n.1) dd ∧
          IsFused .f32 flush32 rm (.num false p (-15)) (valueOf .f32 dd.1) n.1 z ∧
          (if f = .f32 then w = (z.1, 0) else IsNarrowed f (resultFlush ctl f) rm (valueOf .f32 z.1) w) ∧
          RowGives (.vblend cv t rm d a b x) s r t d none w.1 false (m.2 ||| n.2 ||| dd.2 ||| z.2 ||| w.2))) ∧
      (RowReady s r h [t] none →
        let o := operand f ctl (get g)
        let fl := o.2 ||| m.2 ||| n.2
        let gives := fun (k : Nat × Flags) => RowGives (.psgrad h t rm d g a b) s r t d none k.1 false (fl ||| k.2)
        (∃ dd z, IsSum .f32 flush32 rm m.1 (opposite n.1) dd ∧ IsProduct f (resultFlush ctl f) rm o.1 (valueOf .f32 dd.1) z ∧
          RowGives (.vbgrad h t rm d g a b) s r t d none z.1 false (fl ||| dd.2 ||| z.2)) ∧
        (¬ notNan o.1 → gives (qnan f, 0x080)) ∧
        (notNan o.1 → ¬ (notNan m.1 ∧ notNan n.1) → gives (0, 0x010)) ∧
        (notNan o.1 → notNan m.1 → notNan n.1 →
          (r.cap.ptemp = 0 → gives (0, 0)) ∧
          (r.cap.ptemp ≠ 0 → ∃ z, IsRamp r.cap.ptemp m.1 n.1 z ∧
            match z with
            | none => gives (0, 0x010)
            | some z =>
              if 0 < value z ∧ value z < 1 then
                ∃ k, IsQuotient f (resultFlush ctl f) rm (scaled o.1 (-2)) (valueOf .f32 r.cap.ptemp.toNat) k ∧ gives k
              else gives (0, 0)))))

namespace Sys2Proof.Claims
open Machine

/-- A row's access to n bytes at ea passes its check with the translation p, on ordinary memory, and no watchpoint or
emission record holds it back. -/
def RowFinds (s : State) (ea : Word) (n : Nat) (o : Orient) (kind : AccKind) (width : Nat) (ld st : Bool) (p : Trans) : Prop :=
  (∃ s1, s.check s.cur ea n o kind width s.me.sup = (.ok p, s1)) ∧ servedBy p.pa ≠ .mgmt ∧ leafC p.leaf = 0 ∧
    s.watchHits s.cur ea n ld st = 0 ∧ s.journals = []
/-- The run with its current row changed by f. -/
def rowChanged (r : Run) (f : RowState → RowState) : Run := { r with rows := r.rows.modify r.cur f }
/-- A row fault at the current row's word, as spec/03 R73 describes it. -/
def rowTrap (r : Run) (cause : Nat) (value : Word) : Trap :=
  { cause := cause, value := value, tpc := BitVec.ofNat 64 r.issuePc, aux := BitVec.ofNat 64 r.row.block,
    word := some (r.row.pc - r.row.block), pos := some r.cur }
/-- The address a block offset names from a block word (spec/02 R44). -/
def blockAt (r : Run) (i : BitVec 12) : Nat := (BitVec.ofNat 64 r.row.pc + BitVec.ofInt 64 (8 * i.toInt)).toNat
/-- The bytes of an atomic as an element type of a row. -/
def amoRowTy (ty : AmoTy) : ETy := if amoBytes ty = 2 then .z16 else if amoBytes ty = 4 then .z32 else .z64
/-- Byte c of a buffered element that holds it. -/
def elemByte (e : BufElem) (c : Nat) : Nat := e.val / 2 ^ (8 * (c - e.pa)) % 256
/-- An entry y is x, but that in an entry of a run the bytes of e's row that e stores again are e's; what an element contributes
to a commutative page stays its own (spec/14 R290). -/
def Repaired (e : BufElem) (x y : BufEntry) : Prop :=
  (x.inst = none → y = x) ∧ y = { x with elems := y.elems } ∧ y.elems.length = x.elems.length ∧
    ∀ (j : Nat) (u w : BufElem), x.elems[j]? = some u → y.elems[j]? = some w → w = { u with val := w.val } ∧ (u.row ≠ e.row → w = u) ∧
      (x.inst ≠ none → u.row = e.row → ∀ c, u.pa ≤ c → c < u.pa + u.size →
        elemByte w c = if e.pa ≤ c ∧ c < e.pa + e.size then elemByte e c else elemByte u c)
/-- What vamo finds; no cache holds a copy. -/
def RowAtomicFinds (s : State) (ea : Word) (n : Nat) (c : Scope) (p : Trans) (m : Nat) : Prop :=
  RowFinds s ea n .row .both 0 true true p ∧ (s.cluster (engineFor s.cur p.pa c)).atomics = [] ∧ Uncached s ∧ Writable s p.pa n ∧
    s.bytesAt (coreOf s.cur) p.pa n = (bytesLE n m, false) ∧ m < 2 ^ (8 * n) ∧
    ∀ b, b / 64 = p.pa / 64 → s.homePoison (dieOf s.cur) b = false

end Sys2Proof.Claims

/-- R60, R61: vlde loads the current row from the address its row holds, seeing earlier stores of the strip and its own
row's of the run, but for bytes that a later vamo of the row has changed. Its line replaces no other and brings in no newer
bytes of another die. That what the buffer holds counts as newer than memory but for that vamo is log 77, the model's
reading. -/
def Sys2Proof.Claims.RowLoads : Prop :=
  ∀ (h : BHead) (o : Orient) (t : ETy) (d : Reg) (a : Src) (i : BitVec 12) (s : State) (r : Run) (p : Trans),
    t ≠ .q → t ≠ .pr → RowReady s r h [t, .z64] none →
    let n := elemBits t / 8
    let ea := BitVec.ofNat 64 (row s.me a.r 64 r.cur) + i.signExtend 64
    RowFinds s ea n o .load 0 true false p → (s.bytesAt (coreOf s.cur) p.pa n).2 = false →
    (cacheable p.pa = true → HasWay s (lineFor o n p.pa) ∧ Current s (lineFor o n p.pa).bytes) →
    (∀ b ∈ (lineFor o n p.pa).bytes ++ (List.range n).map (p.pa + ·), Unmarked s b) →
    ∃ u, exec (.vlde h o t d a i) s = .next u ∧ u.me.run = some (rowChanged r fun x => { x with pc := x.pc + 8 }) ∧
      row u.me d (elemBits t) r.cur =
        overlay s.me.buffer (some r.cur) r.row.amos p.pa n (leOf (s.bytesAt (coreOf s.cur) p.pa n).1) % 2 ^ elemBits t ∧
      (∀ j, j ≠ r.cur → row u.me d (elemBits t) j = row s.me d (elemBits t) j) ∧ (∀ x, x ≠ d → u.me.vimg x = s.me.vimg x) ∧
      { u.me with v := s.me.v, run := s.me.run, ectr := s.me.ectr } = s.me ∧ (∀ k, k ≠ s.cur → u.hart k = s.hart k) ∧
      u.mem = s.mem ∧ ∀ k b, u.clusterByte k b = s.clusterByte k b

/-- R61, R181: vste adds its row's element to the entry of its instance, which takes its place at the first one; where that
would be a seventeenth entry, the row faults. Memory does not change. Entries of the run behind that one, which commit after it, take
the newer bytes of the row where they hold its older ones (R60). -/
def Sys2Proof.Claims.RowStores : Prop :=
  ∀ (h : BHead) (o : Orient) (t : ETy) (a b : Src) (i : BitVec 12) (s : State) (r : Run) (p : Trans),
    t ≠ .q → t ≠ .pr → RowReady s r h [t, .z64] none →
    let n := elemBits t / 8
    let ea := BitVec.ofNat 64 (row s.me a.r 64 r.cur) + i.signExtend 64
    let key := (r.row.pc, r.row.count r.row.pc)
    let e : BufElem := { va := ea.toNat, pa := p.pa, size := n, row := r.cur, val := row s.me b.r (elemBits t) r.cur, at_ := s.now }
    let fresh := s.me.buffer.all fun x => x.inst != some key
    RowFinds s ea n o .store n false true p →
    (fresh = false ∨ s.me.buffer.length < 16 → ∃ u, exec (.vste h o t a b i) s = .next u ∧ u.mem = s.mem ∧
      u.me.run = some (rowChanged r fun x => { x with inst := Tab.put x.inst x.pc (x.count x.pc + 1), pc := x.pc + 8 }) ∧
      u.me.v = s.me.v ∧ (∀ k b, u.clusterByte k b = s.clusterByte k b) ∧
      (fresh = true → u.me.buffer = s.me.buffer ++ [{ inst := some key, o := o, bytes := n * r.n, elems := [e] }]) ∧
      (fresh = false → u.me.buffer.length = s.me.buffer.length ∧ ∀ (f k : Nat) (x y : BufEntry),
        (s.me.buffer[f]?.bind (·.inst)) = some key → (∀ g, g < f → (s.me.buffer[g]?.bind (·.inst)) ≠ some key) →
        s.me.buffer[k]? = some x → u.me.buffer[k]? = some y →
          (k < f → y = x) ∧
          (k = f → ∃ pre post, x.elems = pre ++ post ∧ y = { x with elems := pre ++ e :: post } ∧ (∀ z ∈ pre, z.row ≤ r.cur) ∧
            ∀ z, post.head? = some z → r.cur < z.row) ∧
          (f < k → Repaired e x y))) ∧
    (fresh = true → 16 ≤ s.me.buffer.length → s.copying s.cur = false → ∃ u : State, (∀ k, u.readX k = s.readX k) ∧ u.me.v = s.me.v ∧
      u.me.run = none ∧ exec (.vste h o t a b i) s = .next (u.takeTrap s.cur (rowTrap r 0x14 16)))

/-- R63, R64: vamo does its atomic at the address its row holds, and stores the old value in the row. The row's bytes it
changes are marked newer than what the row has stored (R60). Its request is served as it arrives (log 24, the model's
choice), but where it has reached its engine before (R272): that row waits while it is not served, and once it is takes the
old value and goes on. -/
def Sys2Proof.Claims.RowAtomics : Prop :=
  ∀ (h : BHead) (op : AmoOp) (c : Scope) (ty : AmoTy) (d : Reg) (a b n : Src) (s : State) (r : Run) (p : Trans) (m : Nat),
    RowReady s r h [amoRowTy ty, .z64] none → (op = .fadd ↔ ty.isInt = false) →
    let w := 8 * amoBytes ty
    let x := row s.me b.r w r.cur
    let y := row s.me n.r w r.cur
    (∀ q, r.row.amo = .waiting q → ∃ t, exec (.vamo h op c ty d a b n) s = .next t ∧ t.me.wait = .atomic ∧ t.me.run = some r ∧
      t.me.v = s.me.v ∧ t.me.fpflags = s.me.fpflags ∧ t.mem = s.mem ∧ t.clusters = s.clusters) ∧
    (∀ q v k, r.row.amo = .served q v k → v < 2 ^ w → ∃ t amos, exec (.vamo h op c ty d a b n) s = .next t ∧
      t.me.run = some (rowChanged r fun x => { x with pc := x.pc + 8, amos := amos, amo := .idle }) ∧
      (op ≠ .cas → ∀ z, q ≤ z → z < q + amoBytes ty → Tab.find amos z = some k) ∧
      row t.me d w r.cur = v ∧ (∀ j, j ≠ r.cur → row t.me d w j = row s.me d w j) ∧ (∀ k, k ≠ d → t.me.vimg k = s.me.vimg k) ∧
      t.me.fpflags = s.me.fpflags ∧ t.mem = s.mem ∧ t.clusters = s.clusters) ∧
    (r.row.amo = .idle → RowAtomicFinds s (BitVec.ofNat 64 (row s.me a.r 64 r.cur)) (amoBytes ty) c p m →
    let f := amoFmt ty
    let u := operand f r.cap.fpctl m
    let v := operand f r.cap.fpctl x
    let z := fAdd f r.cap.fpctl .rne u.1 v.1
    let new := if op = .fadd then z.bits else atomicNew op w (amoIsSigned ty) m x y
    ∃ t amos, exec (.vamo h op c ty d a b n) s = .next t ∧
      t.me.run = some (rowChanged r fun x => { x with pc := x.pc + 8, amos := amos }) ∧
      (∀ k, (k < p.pa ∨ p.pa + amoBytes ty ≤ k) → Tab.find amos k = Tab.find r.row.amos k) ∧
      (op ≠ .cas → ∀ k, p.pa ≤ k → k < p.pa + amoBytes ty → Tab.find amos k = some s.now) ∧
      row t.me d w r.cur = m ∧ (∀ j, j ≠ r.cur → row t.me d w j = row s.me d w j) ∧ (∀ k, k ≠ d → t.me.vimg k = s.me.vimg k) ∧
      t.me.fpflags = s.me.fpflags ||| (if op = .fadd then u.2 ||| v.2 ||| z.fl else 0) ∧
      (∀ j, j < amoBytes ty → t.clusterByte (clusterOf s.cur) (p.pa + j) = BitVec.ofNat 8 (new / 2 ^ (8 * j))) ∧
      ∀ k b, (b < p.pa ∨ p.pa + amoBytes ty ≤ b) → t.clusterByte k b = s.clusterByte k b)

/-- The statements RowLoads, RowStores and RowAtomics together. -/
def Obligations.RowMemoryWords : Prop := Claims.RowLoads ∧ Claims.RowStores ∧ Claims.RowAtomics

/-- R65, R66, R69, R71, R102: vfetch sends its row to the block it names; vstop ends it; vdefer puts an entry with the row, its
block and the carried elements last in the core's Geyser queue and ends the row, and faults when the queue is full; R69 gives
it one to four carried registers, and that none at all is carried as well is log 34, the model's choice. A row
that the prefix leaves out, or beyond the capacity of a word's types, goes on with no effect. Outside a run a block word is
refused (log 23). -/
def Obligations.RowControl : Prop :=
  ∀ (h : BHead) (cc : CmpOp) (o : Orient) (op : AmoOp) (sc : Scope) (ty : AmoTy) (t : ETy) (rm : Rm) (d : Option Reg) (e : Reg)
    (a b c : Option Src) (x y : Src) (i : BitVec 12) (s : State) (r : Run),
    let ended := rowChanged r fun x => { x with ended := true }
    let words := [(Instr.vadd h t rm e x y none, [t]), (.vfma h t rm e x y x none, [t]), (.vmov h t e x, [t]), (.vcmp h cc t e x y, [t]),
      (.pand h e x.r y.r, []), (.pset h e x, [.z16]), (.vlde h o t e x i, [t, .z64]), (.vste h o t x y i, [t, .z64]),
      (.vamo h op sc ty e x y x, [amoRowTy ty, .z64])]
    let skips := fun (w : Instr) => exec w s = .next (s.updMe fun z => { z with run := some (rowChanged r fun x => { x with pc := x.pc + 8 }) })
    (s.me.run = some r →
      (exec .vstop s = .next ((s.updMe fun z => { z with run := some ended }).chargeMe 2 1)) ∧
      (RowReady s r h [] none →
        (∃ u, exec (.vfetch h i) s = .next u ∧ u.me.v = s.me.v ∧ u.me.p = s.me.p ∧
          u.me.run = some (rowChanged r fun x => { x with pc := blockAt r i, block := blockAt r i })) ∧
        (r.cur < mostRows (match r.cap.sw with
            | 0 => .w8
            | 1 => .w16
            | 2 => .w32
            | 3 => .w64
            | _ => .sliced) r.cap.swq r.cap.lanes → r.cap.sw ≤ 4 →
          (s.myCore.geyser.length < 4096 → ∃ u g, exec (.vdefer h d a b c i) s = .next u ∧ u.me.run = some ended ∧
            u.myCore.geyser = s.myCore.geyser ++ [g] ∧ g.hart = s.cur % 4 ∧ g.row = r.cur ∧ g.target = blockAt r i % 2 ^ 57 ∧
            g.width = r.cap.sw ∧ g.mask = (if d.isSome then 1 else 0) + (if a.isSome then 2 else 0) + (if b.isSome then 4 else 0) +
              (if c.isSome then 8 else 0) ∧
            (r.cap.sw < 4 → ∀ k ∈ [(d, 0), (a.map (·.r), 1), (b.map (·.r), 2), (c.map (·.r), 3)], ∀ reg, k.1 = some reg →
              g.vals[k.2]? = some (row s.me reg (8 * 2 ^ r.cap.sw) r.cur)) ∧ u.me.v = s.me.v) ∧
          (4096 ≤ s.myCore.geyser.length → s.copying s.cur = false → ∃ u : State, (∀ k, u.readX k = s.readX k) ∧ u.me.run = none ∧
            exec (.vdefer h d a b c i) s = .next (u.takeTrap s.cur (rowTrap r 0x12 (BitVec.ofNat 64 (r.row.pc - r.row.block))))))) ∧
      (∀ w ∈ words, (∃ k ∈ w.2, (if k = .q then slicedRows (r.cap.vtype.toNat % 32) r.cap.lanes else laneRows k * r.cap.lanes) ≤ r.cur) → skips w.1) ∧
      (∀ q, h.pred = some q → (s.me.pred q.p).prob = false → (s.me.pred q.p).bit r.cur = q.neg → ∀ w ∈ words, skips w.1)) ∧
    (s.me.run = none → ∀ w ∈ (Instr.vstop :: .vfetch h i :: .vdefer h d a b c i :: words.map (·.1)), exec w s = .refused .blockWordOutsideRun)

namespace Sys2Proof.Claims
open Machine

/-- No Reel stream is enabled: a record that is emitted goes nowhere. -/
def Quiet (s : State) : Prop := ∀ n, (s.stream n).sctl.getLsbD 63 = false
/-- A byte takes writes of the agents of a die. -/
def Alive (s : State) (die pa : Nat) : Prop := s.dead pa = false ∧ s.cut die pa = false
/-- Hart h, its queue empty and no stall by Reel open, waits in the word i; u is the state in which i executes again. -/
def Issues (s : State) (h : Nat) (w : Wait) (i : Instr) (u : State) : Prop :=
  s.runs h = true ∧ (s.hart h).drained = true ∧ (s.hart h).rest = none ∧ (s.hart h).stall = none ∧ (s.hart h).wait = w ∧ ∃ s1, s.wordAt h = (some i, s1) ∧
    u = (({ s1 with cur := h } : State).updMe fun x =>
      { x with issued := true, issuedAt := if x.issued then x.issuedAt else s1.now }).chargeMe 0 1
/-- The word that hart h waits in is over, its registers as before. -/
structure Passes (s t : State) (h : Nat) : Prop where
  ready : (t.hart h).wait = .none
  pc : (t.hart h).pc = (s.hart h).pc + 4
  regs : ∀ r, (t.hart h).readX r = (s.hart h).readX r

end Sys2Proof.Claims

/-- The ends of waits (R169, R199, R313, R269, R312, R390, R230): where what a waiting word needs is there, the event gives a
next state in which the word is over. The ends of a wait for the interlock table (R265) and of a stall by Reel (R356) end
only the note of the wait: the word executes again at its hart's turn (log 24, the model's reading). -/
def Obligations.WaitEvents : Prop :=
  ∀ (h : Nat) (s u : State),
    (∀ w d a n, Issues s h .lanes (.setvl false w d a) u → u.me.own = u.me.ctx → u.me.matrix = false → u.readX a ≠ 0 →
      u.me.buffer = [] → u.boundaryLanes h (u.readX a).toNat (wcode w) (vtQw u.me.vtype) = some n →
      n = u.me.lanes ∨ u.reelRoom h 0x0103 = true →
      ∃ t, exec (.laneGrant h) s = .next t ∧ (t.hart h).wait = .none ∧ (t.hart h).pc = (s.hart h).pc + 4 ∧
        (t.hart h).lanes = n ∧ (t.hart h).vlen = min (u.readX a).toNat (mostRows w (vtQw u.me.vtype) n)) ∧
    (∀ a, Issues s h .array (.menter a) u → u.me.own = u.me.ctx → u.me.matrix = false → u.myCore.arrayHolder = none →
      u.myCore.arrayWait.head? = some h →
      ∃ t, exec (.arrayGrant h) s = .next t ∧ Passes s t h ∧ (t.hart h).matrix = true ∧
        (t.core (coreOf h)).arrayHolder = some h) ∧
    (∀ a b p, Issues s h .abar (.abarWait a b) u → BarrierAt u (u.readX a) p →
      barPhase (u.barrier p.pa) = (u.readX b).getLsbD 0 → ∃ t, exec (.abarWaitEnd h) s = .next t ∧ Passes s t h) ∧
    (∀ a b p m, Issues s h .gwait (.gwait a b) u → Uncached u → LoadFinds u (u.readX a) 8 .row p m →
      (u.readX b).toNat ≤ m → ∃ t, exec (.gwaitEnd h) s = .next t ∧ Passes s t h) ∧
    (∀ a j, Issues s h .jsync (.jsync a) u → OwnContext u j → (u.readX a).toNat < j.ack.toNat →
      (u.readX a).toNat < j.next.toNat → ∃ t, exec (.jsyncEnd h) s = .next t ∧ Passes s t h) ∧
    (Issues (s.setLatch h) h .wfe .wfe u →
      (∃ t, exec (.wfeWake h) s = .next t ∧ Passes s t h ∧ (t.hart h).latch = false) ∧
      ((s.hart h).waitSince + 65536 ≤ s.now →
        ∃ t, exec (.wfeTimeout h) s = .next t ∧ Passes s t h ∧ (t.hart h).latch = false)) ∧
    (∀ g : Gang, s.gangOf g.id = some g → blockCo g.blk = true → g.count + g.haltedHarts.length = blockSize g.blk →
      ∃ t, exec (.gbarPass g.id) s = .next t ∧ (t.gangOf g.id).map (·.count) = some 0 ∧
        (∀ j ∈ g.harts, (s.hart j).gang = some g.id → (s.hart j).arr = true → (t.hart j).arr = false) ∧
        (h ∈ g.harts → (s.hart h).gang = some g.id → (s.hart h).arr = true →
          (∀ j ∈ g.harts, j ≠ h → (s.hart j).halted = true) → Issues (s.turnCheck g.id) h .gbar .gbar u →
          u.reelRoom h 0x0203 = true → NoCapture u → Passes s t h ∧ (t.hart h).pass = false)) ∧
    ((s.hart h).wait = .interlock → ∃ t, exec (.interlockWaitEnd h) s = .next t ∧ (t.hart h).wait = .none ∧
      { t.hart h with wait := .interlock } = s.hart h ∧ { t with harts := s.harts } = s) ∧
    ((s.hart h).wait = .reel ∨ (s.hart h).wait = .held → (s.hart h).stall.isSome = true → s.reelStallOver h = true →
      ∃ t, exec (.reelStallEnd h) s = .next t ∧ (t.hart h).wait = .none ∧ (t.hart h).stall = none ∧ (t.hart h).pc = (s.hart h).pc ∧
        ∀ r, (t.hart h).readX r = (s.hart h).readX r)

namespace Sys2Proof.Claims
open Machine

/-- Gang c consumes gang p: its dependence word is p's completion word. -/
def Consumes (c p : Gang) : Prop := c.blk.w3 ≠ 0 ∧ c.blk.w3 = p.blk.w5
/-- Every hart of a gang has started, and each has taken the stop with no copy of its own in flight, or has halted. -/
def HasStopped (s : State) (g : Gang) : Prop :=
  blockSize g.blk ≤ g.harts.length ∧ ∀ h ∈ g.harts, h ∈ g.haltedHarts ∨ ((s.hart h).stopTaken = true ∧ s.copying h = false)

end Sys2Proof.Claims

/-- Entries, lanes and asynchronous requests (R56, R70, R164, R169, R170, R220, R336): an entry of a vf starts its run; the
lanes of a setvl change; a preemption and a stop are noted when they arrive and taken at a control-word boundary, with the
word not yet executed as return address; a stall by Reel ends with it, and words of the queue that Reel held back are given
back. The stop reaches a gang once the gangs of the set that it consumes from have stopped, is withheld while one of them
runs or has harts to start, and reaches every gang of a set at once where some of its gangs consume from each other in a
cycle; a hart of the gang that starts later finds it as it starts. That a hart takes a stop at its next turn, before a
preemption, and waits for its buffer and takes sub-code 1 after 65,536 cycles as for one, is log 50, which waits are
boundaries log 51, and that a waiting hart's buffer counts too log 66. -/
def Obligations.RequestEvents : Prop :=
  ∀ (h : Nat) (s : State),
    let x := s.hart h
    (∀ e rest, s.runs h = true → x.run = none → x.queue = e :: rest → e.word = none → e.isDrain = false →
      tagFailure ((closureInstrs e.words).filterMap tagUse) (fun r => (x.pred r).prob) = none →
      (rowMemoryIn e.words = true → e.cap.vlen ≤ 32 * e.cap.lanes) →
      ∃ t, exec (.vectorQueueEntryStart h) s = .next t ∧ (t.hart h).queue = rest ∧ (t.hart h).pc = x.pc ∧ t.mem = s.mem ∧
        (e.cap.vlen = 0 → (t.hart h).run = none) ∧
        (e.cap.vlen ≠ 0 → ∃ r, (t.hart h).run = some r ∧ r.n = e.cap.vlen ∧ r.target = e.target ∧ r.words = e.words ∧
          r.cap = e.cap ∧ r.rows = List.replicate e.cap.vlen { pc := e.target, block := e.target })) ∧
    (∀ w d a n s1, s.runs h = true → x.drained = true → x.wait = .none ∨ x.wait = .lanes →
      s.wordAt h = (some (.setvl false w d a), s1) → x.own = x.ctx → x.matrix = false → x.readX a ≠ 0 → x.buffer = [] →
      s1.boundaryLanes h (x.readX a).toNat (wcode w) (vtQw x.vtype) = some n → n = x.lanes ∨ s1.reelRoom h 0x0103 = true →
      ∃ t, exec (.laneChange h) s = .next t ∧ (t.hart h).lanes = n ∧ (n ≠ x.lanes → (t.hart h).v = [] ∧ (t.hart h).p = [])) ∧
    (s.runs h = true → ∃ t, exec (.preemptionRequest h) s = .next t ∧ (t.hart h).latch = true ∧
      (t.hart h).preempt = some (x.preempt.getD s.now) ∧ (t.hart h).pc = x.pc ∧ { t with harts := s.harts } = s) ∧
    (∀ n, x.preempt = some n → s.atBoundary h = true → x.wait = .reel ∨ x.wait = .held → x.stall.isSome = true → x.buffer = [] →
      ∃ u : State, (u.hart h).queue = [] ∧ (∀ r, (u.hart h).readX r = x.readX r) ∧ (u.hart h).wait = .none ∧
        exec (.preemptionTaken h) s = .next (u.takeTrap h
          { cause := 0x40, async := true, tpc := BitVec.ofNat 64 ((x.queue.head?.map (·.issuePc)).getD x.pc.toNat) })) ∧
    (∀ n, x.preempt = some n → s.atBoundary h = true → x.wait ≠ .reel → x.wait ≠ .held →
      (x.buffer = [] → exec (.preemptionTaken h) s = .next ((s.updHart h fun y => { y with preempt := none }).takeTrap h
        { cause := 0x40, async := true, tpc := x.pc })) ∧
      (x.buffer ≠ [] → n + 65536 ≤ s.now → exec (.preemptionTimeout h) s =
        .next ((s.updHart h fun y => { y with preempt := none }).takeTrap h
          { cause := 0x40, sub := 1, async := true, tpc := x.pc }))) ∧
    (∀ n, x.stopMsg = some n → s.atBoundary h = true → x.wait ≠ .reel → x.wait ≠ .held → x.buffer = [] ∨ n + 65536 ≤ s.now →
      s.cur = h → s.agenda = [] → s.poweredDown = false → x.heldAhead = false →
      step s = .next ((((s.settleOwes h).updHart h fun y => { y with stopMsg := none, stopTaken := true }).takeTrap h
        { cause := 0x41, sub := if x.buffer = [] then 0 else 1, async := true, tpc := x.pc }).passTime 1)) ∧
    (∀ (set : List Nat) (g : Nat) (c : Gang), (set.filterMap s.gangOf).find? (fun y => y.id == g) = some c →
      let reached := fun (t : State) (k : Gang) => (t.gangOf k.id).map (·.stopping) = some true ∧ ∀ j ∈ k.harts, j ∉ k.haltedHarts →
        (t.hart j).latch = true ∧ (t.hart j).pc = (s.hart j).pc ∧
        (t.hart j).stopMsg = if (s.hart j).stopTaken then (s.hart j).stopMsg else some ((s.hart j).stopMsg.getD s.now)
      ((∀ p ∈ set.filterMap s.gangOf, Consumes c p → HasStopped s p) → ∃ t, exec (.stopMessage set g) s = .next t ∧ reached t c) ∧
      (∀ p ∈ set.filterMap s.gangOf, Consumes c p → ¬ HasStopped s p →
        (∃ rank : Nat → Nat, ∀ k ∈ set.filterMap s.gangOf, ∀ q ∈ set.filterMap s.gangOf, Consumes k q → rank q.id < rank k.id) →
        exec (.stopMessage set g) s = .next s) ∧
      (∀ cyc : List Gang, cyc ≠ [] → (∀ k ∈ cyc, k ∈ set.filterMap s.gangOf ∧ ∃ q ∈ cyc, Consumes k q) →
        ∃ t, exec (.stopMessage set g) s = .next t ∧ ∀ k ∈ set.filterMap s.gangOf, reached t k)) ∧
    (∀ g : Gang, s.gangOf g.id = some g → g.stopping = true → blockCo g.blk = false → s.gangs = [g] → g.affected = false →
      g.blk.w3 = 0 → g.harts.length < blockSize g.blk → s.slotFree h = true → reaches g.blk h = true → blockSp g.blk = false →
      ∃ t, exec (.waveHartStart g.die h) s = .next t ∧ (t.hart h).started = true ∧ (t.hart h).stopMsg = some s.now ∧
        (t.hart h).latch = true)

/-- Writes with a rule of their own (R120, R121, R131, R148, R251, R296, R351, R364, R367, R369, R370, R386): each leaves
its register, and what goes with it, as its rule says: a write of cnval first credits the counter's total with what it gained
since its last reading, and makes its value that reading; a write that changes the header, the size or the losslessness of an enabled
stream discards what it had pending and reads written from the header. That a move keeps the jnpeer of its start is log 43. -/
def Obligations.RegisterEvents : Prop :=
  ∀ (h : Nat) (op : CregOp) (d a : Reg) (v : Word) (s : State),
    let x := s.hart h
    let b := v.toNat % 2 ^ 32
    let j := s.journal s.jcidx.toNat
    (s.runs h = true → x.drained = true →
      ∀ c ∈ [((0x009 : BitVec 12), x.fpflags.setWidth 64, (0x1FF : Word)), (0x00B, x.gctr, 0xFFFFFFFFFFFFFFFF)],
      ∃ t, exec (.waitingCregAccess h op d a c.1) s = .next t ∧ (t.hart h).pc = x.pc + 4 ∧
        (t.hart h).readX d = (if op = .set then x.readX d else if d = 0 then 0 else c.2.1) ∧
        (c.1, if op = .get then c.2.1 else x.readX a &&& c.2.2) ∈ hartRegs { t with cur := h }) ∧
    (s.runs h = true → x.drained = true → x.own = x.ctx → ∃ t, exec (.kwinAccess h op d a) s = .next t ∧
      (t.hart h).readX d = (if op = .set then x.readX d else if d = 0 then 0 else x.window) ∧
      ({ t.hart h with kidx := x.kidx } : Hart).window = (if op = .get then x.window else x.readX a) ∧
      (t.hart h).kidx = BitVec.ofNat 64 (x.kidx.toNat / 2 ^ 11 % 8 * 2 ^ 11 + (x.kidx.toNat / 8 % 256 + 1) % 256 * 8)) ∧
    (∃ t, exec (.ptempWrite h v) s = .next t ∧
      (t.hart h).ptemp = BitVec.ofNat 32 (if 0x7F800000 < b then 0 else b) ∧
      (t.hart h).fpflags = x.fpflags ||| (if 0x7F800000 < b ∧ b ≠ 0x80000000 then 0x100 else 0)) ∧
    (∃ t, exec (.tinvWrite v) s = .next t ∧ t.mem = s.mem ∧ ∀ c, ∀ e ∈ (t.core c).tlb ++ (t.cluster c).tlb,
      v.toNat % 4 ≠ 3 ∧ e.page ≠ v.toNat / 2 ^ 16 % 2 ^ 41 * 2 ^ 16 / 2 ^ levelShift e.level) ∧
    (countsAt x.cnsel.toNat = true → ∃ t, exec (.cnvalWrite h v) s = .next t ∧
      let c := x.cnsel.toNat
      let total := s.ctbase.toNat / 2 ^ 21 % 2 ^ 31 * 2 ^ 21 + 8 * c
      Tab.get 0 t.counters c = b ∧ Tab.get 0 t.lastRead c = b ∧
      (s.ctbase.getLsbD 0 = false → t.mem = s.mem ∧ ∀ i, i ≠ c → Tab.get 0 t.counters i = Tab.get 0 s.counters i) ∧
      (s.ctbase.getLsbD 0 = true → Uncached s → servedBy total ≠ .mgmt → (∀ i, i < 8 → Alive s (sweeperOf c) (total + i)) →
        t.readHome total 8 = (s.readHome total 8 + (Tab.get 0 s.counters c + 2 ^ 32 - Tab.get 0 s.lastRead c) % 2 ^ 32) % 2 ^ 64 ∧
        ∀ a, (a < total ∨ total + 8 ≤ a) → Memory.read t.mem a = Memory.read s.mem a)) ∧
    (∀ core u, ∃ t, exec (.lcfgWrite core u v) s = .next t ∧
      Tab.get 0 (t.core core).lcfg u = v &&& 0x801FFF0F0F00000F ∧ 
        Tab.get {} (t.core core).latency u = { lost := if u ∈ (s.core core).clash then 1 else 0 }) ∧
    (∀ k i, i < 8 →
      (∃ t, exec (.residencyWrite k (BitVec.ofNat 12 (0x080 + i)) v) s = .next t ∧
        Tab.get 0 (t.cluster k).resb i = v &&& 0x800FFFFFFFFF0000 ∧ Tab.get 0 (t.cluster k).acc i = 0) ∧
      (∃ t w, exec (.residencyWrite k (BitVec.ofNat 12 (0x088 + i)) v) s = .next t ∧ w = Tab.get 0 (t.cluster k).resc i ∧
        w.toNat / 2 ^ 60 = min 12 (v.toNat / 2 ^ 60) ∧ w.toNat % 2 ^ 9 = min 256 (v.toNat % 2 ^ 9) ∧
        w.toNat / 2 ^ 16 % 2 ^ 36 = v.toNat / 2 ^ 16 % 2 ^ 36 ∧ Tab.get 0 (t.cluster k).acc i = 0)) ∧
    (∃ t, exec (.tallowWrite h v) s = .next t ∧ (t.hart h).tallow = v.setWidth 16 ||| 0x0020 ∧
      (t.hart h).tmask = x.tmask &&& (v.setWidth 16 ||| 0x0020) ||| 0x0020) ∧
    (∃ t, exec (.ctbaseWrite v) s = .next t ∧ t.ctbase = v &&& 0x000FFFFFFFE00001 ∧
      t.lastRead = if v.getLsbD 0 && !s.ctbase.getLsbD 0 then s.counters else s.lastRead) ∧
    (∀ n, v.getLsbD 63 = true → ∃ t, exec (.streamEnable n v) s = .next t ∧ (t.stream n).sctl.getLsbD 63 = true ∧
      (t.stream n).sbase = (s.stream n).sbase ∧
      (t.stream n).size = max 4 (min 20 (v.toNat % 32)) ∧ (t.stream n).ll = v.getLsbD 62 ∧
      ((s.stream n).sctl.getLsbD 63 = false → (t.stream n).written = s.readHome (s.stream n).header 8) ∧
      ((s.stream n).sctl.getLsbD 63 = true → (s.stream n).size ≠ (t.stream n).size ∨ (s.stream n).ll ≠ (t.stream n).ll →
        (t.stream n).written = s.readHome (s.stream n).header 8 ∧ (t.stream n).drops = 0 ∧ (t.stream n).house = [])) ∧
    (∀ n, n < 16 → x.sup = true → (s.stream n).sctl.getLsbD 63 = true →
      let base := x.readX a &&& 0x000FFFFFFFFFFFC0
      ∃ t, exec (.cset a (BitVec.ofNat 12 (0x100 + 2 * n))) { s with cur := h } = .next t ∧ (t.stream n).sbase = base ∧
        (t.stream n).sctl = (s.stream n).sctl ∧ (base ≠ (s.stream n).sbase →
          (t.stream n).written = s.readHome (base.toNat / 64 % 2 ^ 46 * 64) 8 ∧ (t.stream n).drops = 0 ∧ (t.stream n).house = [])) ∧
    (∀ n, v.getLsbD 63 = false → ∃ t, exec (.streamDisable n v) s = .next t ∧ (t.stream n).sctl.getLsbD 63 = false ∧
      ((s.stream n).sctl.getLsbD 63 = true → (t.stream n).drops = 0 ∧ (t.stream n).house = [])) ∧
    (v.getLsbD 63 = false ∨ v.toNat % 8 = 0 → ∃ t, exec (.jcfgOff v) s = .next t ∧
      (t.journal s.jcidx.toNat).state = 0 ∧ (t.journal s.jcidx.toNat).en = v.getLsbD 63 ∧
      (j.state ≠ 0 → (t.journal s.jcidx.toNat).held = [] ∧ (t.journal s.jcidx.toNat).queue = [] ∧
        (t.journal s.jcidx.toNat).newQueue = [])) ∧
    (v.getLsbD 63 = true → v.toNat % 8 = 1 ∨ v.toNat % 8 = 2 → j.state = 0 → ∃ t, exec (.jcfgEnable v) s = .next t ∧
      (t.journal s.jcidx.toNat).state = v.toNat % 8 ∧ (t.journal s.jcidx.toNat).en = true ∧
      (t.journal s.jcidx.toNat).ten = v.extractLsb' 40 12 ∧ (t.journal s.jcidx.toNat).port = v.toNat / 2 ^ 32 % 4) ∧
    (v.getLsbD 63 = true → v.toNat % 8 = 3 → j.state = 1 ∨ j.state = 4 → j.npeer.getLsbD 63 = true →
      ∃ t, exec (.jcfgMove v) s = .next t ∧ (t.journal s.jcidx.toNat).state = 3 ∧
        (t.journal s.jcidx.toNat).before = j.state ∧ (t.journal s.jcidx.toNat).toPeer = j.npeer ∧
        (t.journal s.jcidx.toNat).newAck = j.trunc ∧ (t.journal s.jcidx.toNat).next = j.next ∧
        (t.journal s.jcidx.toNat).newQueue = [.copies j.trunc.toNat j.next.toNat] ∧ (t.journal s.jcidx.toNat).queue = j.queue)

/-- The registers of the management window (R318, R379; their layout is the model's, log 11), and the energy of a boundary of
1,024 cycles (R241): a hart that runs its own vector state is charged its shares, one that has halted nothing. -/
def Obligations.WindowAndEnergy : Prop :=
  ∀ (v : Word) (n k core : Nat) (s : State),
    (∃ t, exec (.mgmtWindowWrite .tenantTable v) s = .next t ∧ t.tenantTable = v ∧ t.mem = s.mem) ∧
    (∃ t, exec (.mgmtWindowWrite (.stopBase n) v) s = .next t ∧ Tab.find t.stopBase n = some v ∧ t.mem = s.mem) ∧
    (∃ t, exec (.mgmtWindowWrite (.trackerThreshold n) v) s = .next t ∧ (t.die n).threshold = v.toNat ∧ t.mem = s.mem) ∧
    (∃ t, exec (.mgmtWindowWrite (.compressionMap n k) v) s = .next t ∧
      Tab.get false (t.stack n).compMap k = v.getLsbD 0 ∧ t.mem = s.mem) ∧
    (∃ t q, exec (.mgmtWindowWrite (.queuePair n k) v) s = .next t ∧ Tab.find t.qps (n + 4 * k) = some q ∧
      q.setUp = v.getLsbD 63 ∧ q.tenant = v.toNat % 4096 ∧ t.mem = s.mem) ∧
    (∃ t q, exec (.mgmtWindowWrite (.sendQueue n k) v) s = .next t ∧ Tab.find t.qps (n + 4 * k) = some q ∧ q.send = v ∧
      q.setUp = (Tab.get {} s.qps (n + 4 * k)).setUp ∧ t.mem = s.mem) ∧
    (s.now % 1024 = 0 → ∃ t, exec (.energyTick core) s = .next t ∧ t.mem = s.mem ∧
      ∀ h, h / 4 = core →
        let x := s.hart h
        let share := fun i => (Tab.get 0 (s.core core).ew i).toNat / 2 ^ 32 % 2 ^ 16
        let own := share 1 * x.lanes / 4 + if (s.core core).arrayHolder = some h then share 5 else 0
        (x.started = false ∨ x.halted = true → t.hart h = x) ∧
        (x.started = true → x.halted = false → x.own = x.ctx →
          t.hart h = { x with ectr := chargeTo x.ectr (share 0 + own) }) ∧
        (x.started = true → x.halted = false → x.own ≠ x.ctx →
          t.hart h = { x with ectr := chargeTo x.ectr (share 0), pend := chargeTo x.pend own }))

namespace Sys2Proof.Claims
open Machine

/-- Hart h runs as member i of gang g in the state that R305 gives it. -/
structure Started (t : State) (g : Gang) (h i : Nat) : Prop where
  pc : (t.hart h).pc = g.blk.w0
  gid : (t.hart h).gid = i
  gsz : (t.hart h).gsz = g.blk.w2.toNat % 2 ^ 32
  garg : (t.hart h).garg = g.blk.w1
  tenant : (t.hart h).tenant = g.blk.w2.extractLsb' 40 12
  level : (t.hart h).sup = g.ent.sv
  regs : ∀ r, (t.hart h).readX r = 0
  flags : (t.hart h).fpflags = 0 ∧ (t.hart h).fpctl = 0
  runs : (t.hart h).started = true ∧ (t.hart h).halted = false ∧ (t.hart h).wait = .none
  gang : (t.hart h).gang = some g.id
/-- The status of a block rejected when it is taken: block, size or never (spec/15 R302). -/
def verdict (b : Block) : Option Nat :=
  let w2 := b.w2.toNat
  let w6 := b.w6.toNat
  let dies := (List.range 4).filter fun d => decide (w2 / 2 ^ 32 % 16 = 0) || decide (w2 / 2 ^ (32 + d) % 2 = 1)
  let one := w6 / 2 ^ 63
  let clus := w6 / 2 ^ 4 % 16
  let sp := w2 / 2 ^ 37 % 2
  let room := if one = 1 then (if sp = 1 then 8 else if clus = 0 then 31 else 32) else (if sp = 1 then 96 else 383) * dies.length
  if w2 / 2 ^ 52 ≠ 0 ∨ w6 / 2 ^ 10 % 2 ^ 53 ≠ 0 ∨ w6 % 16 ≠ 0 ∨ b.w7 ≠ 0 ∨ b.w0.toNat % 4 ≠ 0 ∨ b.w3.toNat % 8 ≠ 0 ∨
      b.w5.toNat % 8 ≠ 0 ∨ (one = 1 ∧ (11 < clus ∨ w6 / 2 ^ 8 % 4 ∉ dies)) then some 5
  else if w2 % 2 ^ 32 = 0 then none
  else if 2048 < w2 % 2 ^ 32 then some 3
  else if w2 / 2 ^ 36 % 2 = 1 ∧ room < w2 % 2 ^ 32 then some 4
  else none
/-- The dependence of a gang is met (spec/15 R303): it has none, or the word at its address has reached dval. -/
def DependenceMet (s : State) (g : Gang) (met : Bool) : Prop :=
  (g.blk.w3 = 0 ∧ met = true) ∨ (g.blk.w3 ≠ 0 ∧ ∃ p, s.gangTrans g g.blk.w3 .load = some p ∧ servedBy p.pa ≠ .mgmt ∧
    leafC p.leaf = 0 ∧ s.readHomePoison g.die p.pa 8 = false ∧ met = decide (g.blk.w4.toNat ≤ s.readHome p.pa 8))
/-- A gang completes with a status: it leaves its dispatcher, and its word, if it has one, says so (spec/15 R307). -/
def Completes (s t : State) (g : Gang) (status : Nat) : Prop :=
  t.gangOf g.id = none ∧ (g.blk.w5 = 0 → t.mem = s.mem) ∧
    ∀ p, g.blk.w5 ≠ 0 → s.gangTrans g g.blk.w5 .store = some p → servedBy p.pa ≠ .mgmt → leafC p.leaf = 0 →
      (∀ i, i < 8 → Alive s g.die (p.pa + i)) → t.readHome p.pa 8 = g.harts.length % 2 ^ 12 * 2 ^ 8 + status
/-- A slot that a reserving gang holds (spec/15 R304): a free one it may use, with sp = 1 one per core. -/
def Reserved (s : State) (r : Gang) (h : Nat) : Prop :=
  s.slotFree h = true ∧ reaches r.blk h = true ∧
    (blockSp r.blk = true → ∀ j, coreOf j = coreOf h → j < h → s.slotFree j = false)

end Sys2Proof.Claims

/-- Launches (R298 to R307): a dispatcher that finds a bad header notes it; one that finds a new block of a valid tenant
takes it, or rejects it with its status, and moves head. A gang waits for its dependence; a ready co-resident gang then
starts in free slots all at once, on distinct cores where sp = 1, and a wave gang its next hart, but not in a slot that a
reserving gang holds, with sp = 1 the lowest free slot of each core (log 16, the model's choice: R304 says one per core). A
gang of no harts completes as empty, one whose dependence faults as a bad block, one whose harts have halted as done, and
one of a halted tenant as halted when the line falls. That the header, a slot and the tenant table entry are used
also where they carry poison is log 74, the model's choice. -/
def Obligations.LaunchEvents : Prop :=
  ∀ (d : Nat) (s : State) (g : Gang) (base v : Nat), Uncached s → Quiet s →
    (s.supervisor = true → (s.die d).held = false → (s.die d).devList = [] → s.lists[d]? = some base →
      servedBy base ≠ .mgmt → base % 64 = 0 → s.readHome base 64 = v →
      let tail := v % 2 ^ 64
      let head := v / 2 ^ 64 % 2 ^ 64
      let lcap := v / 2 ^ 128 % 2 ^ 5
      let bad := 12 < lcap ∨ v / 2 ^ 133 % 2 ^ 59 ≠ 0 ∨ v / 2 ^ 192 % 2 ^ 320 ≠ 0
      (bad → ∃ t, exec (.launchListRead d) s = .next t ∧ (t.die d).listFault = true ∧ t.gangs = s.gangs ∧ t.mem = s.mem) ∧
      (¬bad → tail = head → ∃ t, exec (.launchListRead d) s = .next t ∧ (t.die d).listFault = false ∧ t.gangs = s.gangs ∧
        t.mem = s.mem) ∧
      (¬bad → tail = (head + 1) % 2 ^ 64 →
        let b := blockOf (s.readHome (base + 0x40 + 64 * (head % 2 ^ lcap)) 64)
        let ta := s.tenantTable.toNat % 2 ^ 52 + 64 * (b.w2.toNat / 2 ^ 40 % 2 ^ 12)
        let e := s.readHome ta 64
        s.haltUp (b.w2.toNat / 2 ^ 40 % 2 ^ 12) = false → servedBy ta ≠ .mgmt → e / 2 ^ 63 % 2 = 1 → e % 2 ^ 62 = 0 →
        e / 2 ^ 384 % 2 ^ 128 = 0 → (∀ i, i < 8 → Alive s d (base + 8 + i)) →
        ∃ t, exec (.launchListRead d) s = .next t ∧ t.readHome (base + 8) 8 = (head + 1) % 2 ^ 64 ∧
          (verdict b = none → ∃ x, t.gangs = s.gangs ++ [x] ∧ x.blk = b ∧ x.die = d ∧ x.order = (s.die d).takeNo ∧
            x.taken = s.takes ∧ x.harts = [] ∧
            x.ent.sv = e.testBit 62 ∧ x.ent.tbase = BitVec.ofNat 64 (e / 2 ^ 64)) ∧
          ∀ st, verdict b = some st → t.gangs = s.gangs ∧ ∀ p, b.w5 ≠ 0 →
            s.spaceTrans d (BitVec.ofNat 64 (e / 2 ^ 64)) (e.testBit 62) b.w5 8 .store = some p → servedBy p.pa ≠ .mgmt →
            leafC p.leaf = 0 → (∀ i, i < 8 → Alive s d (p.pa + i)) → (p.pa + 8 ≤ base + 8 ∨ base + 16 ≤ p.pa) →
            t.readHome p.pa 8 = st)) ∧
    (s.gangs = [g] → g.die = d → g.affected = false → g.harts.length < blockSize g.blk →
      (DependenceMet s g true →
        (blockCo g.blk = true → g.harts = [] → g.chosen = false → ∀ slots : List Nat, slots.length = blockSize g.blk →
          slots.Pairwise (· < ·) → (∀ h ∈ slots, s.slotFree h = true ∧ reaches g.blk h = true) →
          (blockSp g.blk = true → slots.Pairwise fun i j => coreOf i ≠ coreOf j) →
          ∃ t, exec (.gangDispatch d slots) s = .next t ∧ (t.gangOf g.id).map (·.harts) = some slots ∧
            ∀ i h, slots[i]? = some h → Started t g h i) ∧
        (blockCo g.blk = false → ∀ h, s.slotFree h = true → reaches g.blk h = true →
          (blockSp g.blk = true → ∀ j ∈ g.harts, j ∉ g.haltedHarts → coreOf j ≠ coreOf h) →
          ∃ t, exec (.waveHartStart d h) s = .next t ∧ (t.gangOf g.id).map (·.harts) = some (g.harts ++ [h]) ∧
            Started t g h g.harts.length)) ∧
      (DependenceMet s g false → g.chosen = false → ∀ slots, ∃ t, exec (.gangDispatch d slots) s = .next t ∧
        t.gangs = s.gangs ∧ t.mem = s.mem ∧ ∀ h, t.hart h = s.hart h) ∧
      (g.blk.w3 ≠ 0 → s.gangTrans g g.blk.w3 .load = none → g.chosen = false → g.trial = none → ∀ slots,
        ∃ t, exec (.gangDispatch d slots) s = .next t ∧ Completes s t g 5)) ∧
    (∀ (r : Gang) (h : Nat), s.gangs = [r, g] → r.id ≠ g.id → r.die ≠ d → blockCo r.blk = true → r.chosen = true → r.harts = [] →
      0 < blockSize r.blk → r.affected = false → g.die = d → g.affected = false → g.blk.w3 = 0 → blockCo g.blk = false →
      g.harts.length < blockSize g.blk → blockSp g.blk = false → s.slotFree h = true → reaches g.blk h = true →
      (Reserved s r h → ∃ t, exec (.waveHartStart d h) s = .next t ∧ (t.gangOf g.id).map (·.harts) = some g.harts ∧
        t.hart h = s.hart h) ∧
      (¬ Reserved s r h → ∃ t, exec (.waveHartStart d h) s = .next t ∧ Started t g h g.harts.length)) ∧
    (s.gangs = [g] → g.die = d → g.affected = false → blockSize g.blk = 0 → g.harts = [] → g.chosen = false →
      DependenceMet s g true → ∀ slots, ∃ t, exec (.gangDispatch d slots) s = .next t ∧ Completes s t g 2) ∧
    (s.gangOf g.id = some g → s.gangOver g = true → g.trial = none →
      ∃ t, exec (.gangCompletion g.id) s = .next t ∧ Completes s t g 1) ∧
    (∀ l, s.gangs = [g] → g.affected = true → g.trial = none →
      let ten := g.blk.w2.toNat / 2 ^ 40 % 2 ^ 12
      Tab.find s.halts ten = some l → (∀ h, h < 1536 → h ∉ l.stopped → (s.hart h).started = true →
        (s.hart h).halted = false → (s.hart h).tenant.toNat ≠ ten) → (Tab.find s.stopBase ten = none ∨ ∀ e, e < 1702 → e ∈ l.stopped) →
      ∃ t, exec (.haltRegisterLower ten) s = .next t ∧ Completes s t g 6)

namespace Sys2Proof.Claims
open Machine

/-- The nine atomics by their operation. -/
def amoInstr (op : AmoOp) (ty : AmoTy) (c : Scope) (d a b : Reg) : Instr :=
  match op with
  | .add => .amoAdd ty c d a b
  | .fadd => .amoFadd ty c d a b
  | .min => .amoMin ty c d a b
  | .max => .amoMax ty c d a b
  | .and => .amoAnd ty c d a b
  | .or => .amoOr ty c d a b
  | .xor => .amoXor ty c d a b
  | .swap => .amoSwap ty c d a b
  | .cas => .amoCas ty c d a b

end Sys2Proof.Claims

/-- The copy engine (R262, R263): the copy at the head of the queue starts; that it reads its whole source at that moment is
log 52, the model's choice, and that it reads an untracked clean byte anew in a sector of which its cluster misses another one is
log 48. A unit that lands writes its bytes and no others, the last one completes the copy; an error
raises the halt line. -/
def Sys2Proof.Claims.EngineEvents : Prop :=
  ∀ (k : Nat) (s : State) (c : Copy) (rest : List Copy), (s.cluster k).copies = c :: rest → s.haltUp c.tenant = false →
    (c.running = false → (∀ g ∈ c.srcSegs, g.mode = 0) → ∃ t x, exec (.copyRequestStart k) s = .next t ∧
      (t.cluster k).copies = x :: rest ∧ x.running = true ∧ x.data.length = (segBytes c.srcSegs).length ∧
      (∀ (i b : Nat), (segBytes c.srcSegs)[i]? = some b → x.data[i]? = some (s.copyByte k b) ∨
        (x.data[i]? = some (s.belowByte k b) ∧ s.dirtyByte k b = false ∧ homeDie b ≠ clusterDie k ∧
          ∃ a ∈ segBytes c.srcSegs, a / 32 = b / 32 ∧ s.resident k a = false)) ∧
      x.landed = c.landed ∧ t.mem = s.mem) ∧
    (c.running = true → ∃ t, exec (.copyUnitLand k true) s = .next t ∧ t.haltUp c.tenant = true) ∧
    (∀ pa m, c.running = true → c.link = none → c.dstSegs = [⟨pa, c.n, m⟩] → c.data.length = c.n → c.landed < c.n →
      Uncached s → Quiet s → (∀ i, i < c.n → Alive s (clusterDie k) (pa + i) ∧ servedBy (pa + i) ≠ .mgmt) →
      (∀ y ∈ rest, y.id ≠ c.id) →
      let u := min (c.n - c.landed)
        ((if c.od = .row then 64 else 4096) - (c.dst + c.landed) % (if c.od = .row then 64 else 4096))
      ∃ t, exec (.copyUnitLand k false) s = .next t ∧
        (∀ i, i < u → some (Memory.read t.mem (pa + c.landed + i)) = c.data[c.landed + i]?) ∧
        (∀ b, (b < pa + c.landed ∨ pa + c.landed + u ≤ b) → Memory.read t.mem b = Memory.read s.mem b) ∧
        (c.landed + u < c.n → (t.cluster k).copies = { c with landed := c.landed + u } :: rest) ∧
        (c.landed + u = c.n → (t.cluster k).copies = rest ∧ (t.hart c.hart).latch = true ∧
          ∀ e ∈ (t.core (coreOf c.hart)).interlocks, e.copy ≠ c.id))

/-- Atomics at an engine (R272, R275): a request that reaches its engine stands last there, its hart waiting; the earliest
one is served: its hart gets the old value, and memory the new one. Each row of a run that executes vamo is one request of its
own, and waits alone. -/
def Sys2Proof.Claims.AtomicEvents : Prop :=
  ∀ (h : Nat) (s s1 : State) (p : Trans),
    (∀ op ty c d a b, s.runs h = true → (s.hart h).drained = true → (s.hart h).midWord = false → (s.hart h).wait = .none ∨ (s.hart h).wait = .atomic →
      s.wordAt h = (some (amoInstr op ty c d a b), s1) →
      let u : State := { s1 with cur := h }
      let ea := u.readX a
      let n := amoBytes ty
      let k := engineFor h p.pa c
      u.me.reply = none → u.amoQueued h = false →
      (∃ s2, u.check h ea n .row .both 0 u.me.sup = (.ok p, s2)) → servedBy p.pa ≠ .mgmt → u.watchHits h ea n true true = 0 →
      u.conflicts h (spanOf ea n) (spanOf ea n) = [] → u.emissionMeets h p.pa n = false →
      ((u.cluster k).atomics.filter fun r => coreOf r.hart == coreOf h).length < 8 →
      ∃ t r, exec (.atomicRequestArrival h) s = .next t ∧ (t.cluster k).atomics = (u.cluster k).atomics ++ [r] ∧
        r.hart = h ∧ r.pa = p.pa ∧ r.op = op ∧ r.ty = ty ∧ r.b = (u.readX b).toNat % 2 ^ (8 * n) ∧
        r.row = none ∧ (t.hart h).wait = .atomic ∧ (t.hart h).amo = some (d, ty) ∧ (t.hart h).pc = (s.hart h).pc ∧ t.mem = s.mem) ∧
    (∀ hd op c ty d a b n r, s.runs h = true → (s.hart h).midWord = false → (s.hart h).run = some r → r.ready.contains r.cur = true →
      r.wordAt r.row.pc = some (.vamo hd op c ty d a b n) → r.row.amo = .idle ∨ r.row.amo = .limited →
      hd.cv = true ∨ convoyConflict [] (.vamo hd op c ty d a b n :: r.followers 7 (r.row.pc + 8)) 0 = none →
      let u : State := { s.updHart h (fun x => { x with wait := .none }) with cur := h }
      let m := amoBytes ty
      let k := engineFor h p.pa c
      RowReady u r hd [amoRowTy ty, .z64] none → RowFinds u (BitVec.ofNat 64 (row u.me a.r 64 r.cur)) m .row .both 0 true true p →
      ((s.cluster k).atomics.filter fun q => coreOf q.hart == coreOf h).length < 8 →
      ∃ t q, exec (.atomicRequestArrival h) s = .next t ∧ (t.cluster k).atomics = (s.cluster k).atomics ++ [q] ∧
        q.hart = h ∧ q.row = some r.cur ∧ q.pa = p.pa ∧ q.op = op ∧ q.ty = ty ∧ q.a = row u.me b.r (8 * m) r.cur ∧ q.b = row u.me n.r (8 * m) r.cur ∧
        (t.hart h).run = some (rowChanged r fun x => { x with amo := .waiting p.pa }) ∧ (t.hart h).v = (s.hart h).v ∧ t.mem = s.mem) ∧
    (∀ k r rest, (s.cluster k).atomics = r :: rest → s.haltUp r.tenant = false → r.ty.isInt = true → r.op ≠ .fadd →
      Uncached s →
      let n := amoBytes r.ty
      let w := 8 * n
      r.pa % n = 0 → servedBy r.pa ≠ .mgmt → (∀ i, i < n → Alive s (dieOf r.hart) (r.pa + i)) →
      (∀ b, b / 64 = r.pa / 64 → s.homePoison (dieOf r.hart) b = false) →
      let m := s.readHome r.pa n
      let new := atomicNew r.op w (amoIsSigned r.ty) m (r.a % 2 ^ w) (r.b % 2 ^ w)
      ∃ t, exec (.atomicService k) s = .next t ∧ (t.cluster k).atomics = rest ∧
        (r.row = none → (t.hart r.hart).reply = some m) ∧
        (∀ i x q, r.row = some i → (s.hart r.hart).run = some x → x.cur = i → x.row.amo = .waiting q →
          (t.hart r.hart).run = some (rowChanged x fun y => { y with amo := .served q m s.now })) ∧
        (t.hart r.hart).fpflags = (s.hart r.hart).fpflags ∧ (t.bytesAt (coreOf r.hart) r.pa n).1 = bytesLE n new)

/-- The statements EngineEvents and AtomicEvents together. -/
def Obligations.EngineAndAtomicEvents : Prop := Claims.EngineEvents ∧ Claims.AtomicEvents

namespace Sys2Proof.Claims
open Machine

/-- A byte is dirty in a line's own mask, in cluster k (spec/12 R247). -/
def DirtyIn (s : State) (k : Nat) (key : LineKey) (pa : Nat) : Prop :=
  ∃ l ∈ (s.cluster k).lines ++ (s.cluster k).atomLines, l.key = key ∧ ∃ i, key.index pa = some i ∧ bitOf l.dirty i = true
/-- Every way that a general fill of a line may take holds a line, and v is the one that was used before all the others
there (spec/12 R254). -/
def LeastRecent (c : Cluster) (key : LineKey) (v : Line) : Prop :=
  let here := fun (l : Line) => l.key.set = key.set ∧ c.wayStart 8 ≤ l.way ∧ l.way < 16
  (∀ w, c.wayStart 8 ≤ w → w < 16 → ∃ l ∈ c.lines, here l ∧ l.way = w) ∧ v ∈ c.lines ∧ here v ∧
    ∀ l ∈ c.lines, here l → l ≠ v → v.usedAt < l.usedAt

end Sys2Proof.Claims

/-- The caches (R247, R249, R254, R278, R279, R293, R295): a fill brings a line in and changes no value where a way is empty;
where none is, the least recently used line of its ways leaves. The dirty bytes of a line leave for their home, with the other
dirty bytes of their sectors, are clean then in every line of the cluster, and read as before; a line in a reserved way stays. A line
long dirty is drained in the same way; a line that is old leaves; a drain that arrives is what the home holds; an
invalidation leaves no copy; a walk puts its leaf into the translation caches. Which ways a line may take, and so which lines
compete, is log 10, the model's choice; that clean copies of bytes of another die are read again beside a fill is log 48. -/
def Obligations.CacheEvents : Prop :=
  ∀ (k : Nat) (key : LineKey) (s : State),
    (∀ core, core / 8 = k → cacheable (key.byteAt 0) = true → (s.cluster k).lines.any (fun l => l.key == key) = false →
      ((∀ cls, ((s.cluster k).placeFor key cls).2 = none) →
        ∃ t, exec (.lineFill core key none) s = .next t ∧ (t.cluster k).lines.any (fun l => l.key == key) = true ∧
          t.mem = s.mem ∧ ∀ j b, t.clusterByte j b = s.clusterByte j b ∨ (j = k ∧ t.clusterByte k b = s.belowByte k b ∧
            s.dirtyByte k b = false ∧ ∃ a ∈ key.bytes, a / 32 = b / 32 ∧ s.resident k a = false ∧ homeDie a ≠ clusterDie k)) ∧
      (∀ v, (s.cluster k).rangeOf (key.byteAt 0) = none → LeastRecent (s.cluster k) key v →
        ∃ t, exec (.lineFill core key (some v.key)) s = .next t ∧ (t.cluster k).lines.any (fun l => l.key == key) = true ∧
          (t.cluster k).lines.any (fun l => l.key == v.key) = false)) ∧
    (∀ drop, ∃ t, exec (.dirtyDrain k key drop) s = .next t ∧ t.mem = s.mem ∧
      (∀ q pa, DirtyIn t k q pa ↔ DirtyIn s k q pa ∧ ∀ b, b / 32 = pa / 32 → ¬ DirtyIn s k key b) ∧
      (∀ pa b, DirtyIn s k key b → b / 32 = pa / 32 → s.dirtyByte k pa = true →
        inFlight t.drains k pa = some (Memory.read (s.cluster k).bytes pa)) ∧
      (drop = true → (∀ l ∈ (s.cluster k).lines, l.key = key → (s.cluster k).wayStart 8 ≤ l.way) →
        (t.cluster k).lines.any (fun l => l.key == key) = false) ∧
      ((drop = false ∨ ∀ l ∈ (s.cluster k).lines, l.key = key → l.way < (s.cluster k).wayStart 8) →
        (∀ j b, t.clusterByte j b = s.clusterByte j b) ∧
          (t.cluster k).lines.map (·.key) = (s.cluster k).lines.map (·.key))) ∧
    (∀ l, s.lineAt k key = some l →
      (l.dirty ≠ 0 → l.dirtyAt + 1048576 ≤ s.now → ∃ t, exec (.dirtyAgeDrain k key) s = .next t ∧
        (∀ pa, ¬ DirtyIn t k key pa) ∧ ∀ q pa, DirtyIn t k q pa → DirtyIn s k q pa) ∧
      (LineKeyHome key ≠ clusterDie k → l.fillAt + 1048576 ≤ s.now → ∃ t, exec (.remoteCopyExpiry k key) s = .next t ∧
        t.lineAt k key = none)) ∧
    (∀ n dr, s.drains[n]? = some dr →
      (∀ e ∈ s.drains.take n, e.cluster = dr.cluster → ∀ c ∈ e.cells, ∀ x ∈ dr.cells, c.1 / 32 ≠ x.1 / 32) →
      (dr.cells.map (·.1)).Nodup → (∀ c ∈ dr.cells, Alive s (clusterDie dr.cluster) c.1) → (∀ e ∈ s.drains, e.cells ≠ []) →
      (∀ j, j ≠ dr.cluster → ∀ l ∈ (s.cluster j).lines ++ (s.cluster j).atomLines, l.dirty = 0) →
      ∃ t, exec (.homeDrainAccept n) s = .next t ∧ t.drains = s.drains.eraseIdx n ∧
        ∀ c ∈ dr.cells, Memory.read t.mem c.1 = c.2) ∧
    (∀ pa, (∀ q ∈ s.dcacheKeys k, (s.cluster k).lines.any (fun l => l.key == q) = true) →
      (∀ l ∈ (s.cluster k).atomLines, l.key.isCol = false) →
      ∃ t, exec (.invalidation k pa) s = .next t ∧ t.resident k pa = false) ∧
    (∀ core, core / 8 = k → ∃ t, exec (.drainRequest core) s = .next t ∧
      ∀ pa, (s.cluster k).touchedBy core pa = true → t.dirtyByte k pa = false) ∧
    (∀ h va kind leaf level, tbaseEn (s.hart h).tbase = true →
      s.walk (dieOf h) (tbaseRoot (s.hart h).tbase) (va % 2 ^ 57) = .ok (leaf, level) →
      leafRefuses leaf level (va % 2 ^ 57) (dieOf h) (!(s.hart h).sup) kind 0 = none →
      ∃ t, exec (.translationWalk h va kind false) s = .next t ∧ t.mem = s.mem ∧
        tlbFind (t.core (coreOf h)).tlb (tbaseRoot (s.hart h).tbase) (va % 2 ^ 57) =
          some ⟨tbaseRoot (s.hart h).tbase, va % 2 ^ 57 / 2 ^ levelShift level, level, leaf⟩)

namespace Sys2Proof.Claims
open Machine

/-- The sector of a byte is in the memory-side cache of its base die. -/
def InMsc (s : State) (pa : Nat) : Prop :=
  ∀ n line, mscPlace pa = some (n, line) → ∃ e, mscFind (s.stack n).msc line = some e ∧ bitOf e.valid (pa % 2048 / 64) = true

end Sys2Proof.Claims

/-- The memory below (R256, R321, R323, R324): a column fetch and a miss bring their sectors into the memory-side cache and
change no byte, and the line of a full set that was used longest ago leaves (log 10, the model's choice: R321 gives no
replacement); that the outcome of a retry is the event's operand is log 26; a lasting error marks its sector and retires its
row, a transient one marks nothing; a failed remap segment answers nothing any more; a lasting link error costs a lane. -/
def Sys2Proof.Claims.MemoryEvents : Prop :=
  ∀ (o : Option Nat) (s : State),
    (∀ k key, key.isCol = true → cacheable (key.byteAt 0) = true → ∃ t, exec (.columnLineFetch k key) s = .next t ∧
      t.mem = s.mem ∧ (∀ pa ∈ key.bytes, InMsc t pa) ∧ ∀ j b, t.clusterByte j b = s.clusterByte j b) ∧
    (∀ n line mask, mscPlace (2048 * line) = some (n, line) →
      ((s.stack n).msc.filter fun (e : MscLine) => Machine.setOf e.line == Machine.setOf line).length < 16 →
      ∃ t e, exec (.mscMissFill n line mask none) s = .next t ∧ t.mem = s.mem ∧ mscFind (t.stack n).msc line = some e ∧
        e.valid &&& mask = mask) ∧
    (∀ n line mask v, mscPlace (2048 * line) = some (n, line) → mscFind (s.stack n).msc line = none →
      let set := (s.stack n).msc.filter fun (e : MscLine) => Machine.setOf e.line == Machine.setOf line
      set.length = 16 → set.getLast? = some v →
      ∃ t e, exec (.mscMissFill n line mask none) s = .next t ∧ t.mem = s.mem ∧ mscFind (t.stack n).msc line = some e ∧
        e.valid &&& mask = mask ∧ mscFind (t.stack n).msc v.line = none) ∧
    (Quiet s → ∀ n pa, servedBy pa = .stack n →
      (∃ t, exec (.dramUncorrectableError pa ⟨.transient, o⟩) s = .next t ∧ t.poison = s.poison ∧ t.mem = s.mem ∧
        t.baseDies = s.baseDies) ∧
      (∃ t, exec (.dramUncorrectableError pa ⟨.lasting, o⟩) s = .next t ∧ t.poison.contains (sectorOf pa) = true ∧ t.mem = s.mem ∧
        ((∃ i, (channelOf pa, rowOf pa, i) ∈ (t.stack n).remap) ∨ channelOf pa ∈ (t.stack n).fencedCh))) ∧
    (∀ n seg, ∃ t, exec (.remapSegmentError n seg) s = .next t ∧ (t.stack n).remapFault = true ∧
      ∀ pa, servedBy pa = .stack n → channelOf pa = seg → t.dead pa = true) ∧
    (Quiet s → ∀ port pa, servedBy pa = .cxl port →
      (∃ t, exec (.cxlPoisonRead port pa ⟨.transient, o⟩) s = .next t ∧ t.poison = s.poison ∧ t.mem = s.mem) ∧
      (∃ t, exec (.cxlPoisonRead port pa ⟨.lasting, o⟩) s = .next t ∧ t.poison.contains (sectorOf pa) = true ∧ t.mem = s.mem ∧
        Tab.get 0 (Tab.get [] t.cxlPages port) (pa / 65536) = Tab.get 0 (Tab.get [] s.cxlPages port) (pa / 65536) + 1)) ∧
    (∀ n, (∃ t, exec (.flitCrcError (.cenel n) ⟨.transient, o⟩) s = .next t ∧ t.cenel = s.cenel) ∧
      (∃ t, exec (.flitCrcError (.cenel n) ⟨.lasting, o⟩) s = .next t ∧
        (Tab.get {} t.cenel n).lanes = (Tab.get {} s.cenel n).lanes + 1) ∧
      (∃ t, exec (.flitCrcError (.cxl n) ⟨.lasting, o⟩) s = .next t ∧
        (Tab.get {} t.cxl n).lanes = (Tab.get {} s.cxl n).lanes + 1) ∧
      ∃ t, exec (.flitCrcError (.dieNet n) ⟨.lasting, o⟩) s = .next t ∧
        (Tab.get {} t.dieNet n).lanes = (Tab.get {} s.dieNet n).lanes + 1)

/-- The hot-page tracker (R328): an epoch clears the counts; a page that is hot enough, and that nothing holds, moves with
its bytes into the frame at the head of the ring, and its leaf entry names that frame; a page that buffered elements have
held for 65,536 cycles is given up, and so is a promoted page that was to go back to the CXL tier, whose wait is timed alike. -/
def Sys2Proof.Claims.PageEvents : Prop :=
  ∀ (d h va e n new f : Nat) (rest : List Nat) (p : Piece) (q : Promoted) (s : State),
    (∃ t, exec (.hotPageEpoch d) s = .next t ∧ (t.die d).hot = [] ∧ (t.die d).abandoned = [] ∧ t.mem = s.mem) ∧
    (Memory.wf s.mem = true → Uncached s → Quiet s → s.rangeLeaf h va = .ok p → p.entry = some e → p.level = 4 →
      f = p.pa / 65536 * 65536 → servedBy f = .cxl n → n / 2 = d → f ∉ (s.die d).abandoned →
      (s.die d).threshold ≤ Tab.get 0 (s.die d).hot (f / 65536) → leafP p.leaf = false → leafH p.leaf = false →
      leafM p.leaf = false → leafC p.leaf = 0 → s.bufferedIn f = false → s.accessedIn f = false →
      (s.die d).frames = new :: rest → new % 65536 = 0 → new ≠ f → e % 8 = 0 → e / 65536 ≠ f / 65536 →
      e / 65536 ≠ new / 65536 → (∀ i, i < 8 → Alive s (homeDie e) (e + i)) →
      ∃ t, exec (.pageMigration d h va) s = .next t ∧ (t.die d).frames = rest ∧
        (∀ i, i < 65536 → Memory.read t.mem (new + i) = Memory.read s.mem (f + i)) ∧
        t.readHome e 8 / 2 ^ 16 % 2 ^ 36 = new / 2 ^ 16 % 2 ^ 36 ∧ t.readHome e 8 % 2 ^ 16 = s.readHome e 8 % 2 ^ 16) ∧
    (s.rangeLeaf h va = .ok p → p.entry = some e → p.level = 4 → f = p.pa / 65536 * 65536 → servedBy f = .cxl n → n / 2 = d →
      f ∉ (s.die d).abandoned → (s.die d).threshold ≤ Tab.get 0 (s.die d).hot (f / 65536) → leafP p.leaf = false →
      leafH p.leaf = false → leafM p.leaf = false → leafC p.leaf = 0 → s.bufferedIn f = false → s.accessedIn f = false →
      (s.die d).frames = [] → (s.die d).promoted = [q] → leafPage (s.readHome q.entry 8) = q.frame →
      leafMoves (s.readHome q.entry 8) = true → s.bufferedIn q.frame = true →
      (q.frame ∉ (s.die d).abandoned → ∃ t, exec (.pageMigration d h va) s = .next t ∧
        Tab.find (t.die d).waiting q.frame = some ((Tab.find (s.die d).waiting q.frame).getD s.now) ∧
        (t.die d).promoted = [q] ∧ t.mem = s.mem) ∧
      (q.frame ∈ (s.die d).abandoned → ∃ t, exec (.pageMigration d h va) s = .next t ∧
        (t.die d).waiting = (s.die d).waiting ∧ (t.die d).promoted = [q] ∧ t.mem = s.mem)) ∧
    (∀ page at_, Tab.find (s.die d).waiting (frameOf page) = some at_ → at_ + 65536 ≤ s.now →
      s.bufferedIn (frameOf page) = true → ∃ t, exec (.migrationAbandon d page) s = .next t ∧
        frameOf page ∈ (t.die d).abandoned ∧ Tab.find (t.die d).waiting (frameOf page) = none ∧ t.mem = s.mem)

/-- The statements MemoryEvents and PageEvents together. -/
def Obligations.MemoryAndPageEvents : Prop := Claims.MemoryEvents ∧ Claims.PageEvents

/-- The host and peers (R318, R329, R381): a read by the host answers with the bytes of the home and changes none, and one of
an address that nothing serves or that the host may not read answers with the poison indication; a write puts
its bytes there and changes no other; a message of a queue pair that is set up, whose pages take it, is applied and
counted, with an immediate or without. That a refused read returns no bytes and that an immediate changes nothing is log 26, and
that a write stands at the home in its own step log 19: the model's choices. -/
def Obligations.HostEvents : Prop :=
  ∀ (port pa n : Nat) (bs : List Byte) (s : State), Uncached s →
    (hostMay pa n = true →
      (∃ t, exec (.hostRead port pa n) s = .next t ∧ t.hostData = Memory.readN s.mem pa n ∧ t.mem = s.mem ∧
        t.hostPoison = ((Tab.get {} s.cenel port).fenced || s.readHomePoison (2 * port) pa n)) ∧
      (∃ t, exec (.hostReadAcquire port pa n) s = .next t ∧ t.hostData = Memory.readN s.mem pa n ∧ t.mem = s.mem)) ∧
    (hostMay pa n = false → ∀ i ∈ [Instr.hostRead port pa n, .hostReadAcquire port pa n], ∃ t, exec i s = .next t ∧
      t.hostData = [] ∧ t.hostPoison = true ∧ t.mem = s.mem) ∧
    (hostMay pa bs.length = true → (Tab.get {} s.cenel port).fenced = false →
      (∀ i, i < bs.length → Alive s (2 * port) (pa + i)) →
      ∀ i ∈ [Instr.hostWrite port pa bs, .hostWriteRelease port pa bs], ∃ t, exec i s = .next t ∧
        Memory.readN t.mem pa bs.length = bs ∧
        ∀ b, (b < pa ∨ pa + bs.length ≤ b) → Memory.read t.mem b = Memory.read s.mem b) ∧
    (∀ e qp va imm cells,
      let q : QueuePair := Tab.get {} s.qps (e + 4 * qp)
      q.setUp = true → (Tab.get {} s.eth e).link.fenced = false → s.haltUp q.tenant = false →
      s.rdmaCells e q va bs = some cells → (cells.map (·.1)).Nodup → (∀ c ∈ cells, Alive s e c.1) →
      ∀ i ∈ [Instr.rdmaWrite e qp va bs, .rdmaWriteWithImmediate e qp va bs imm], ∃ t, exec i s = .next t ∧
        (∀ c ∈ cells, Memory.read t.mem c.1 = c.2) ∧
        (∀ b, b ∉ cells.map (·.1) → Memory.read t.mem b = Memory.read s.mem b) ∧
        (Tab.get {} t.qps (e + 4 * qp)).messages = q.messages + 1)

/-- Containment (R332 to R335): a halt register raises its tenant's line and marks its gangs; a hart of the tenant stops
with its buffer and queue discarded, its registers kept, and its stop record written, with the pc of the word it would have
executed next, the head of its queue where words stand there; the copies of the tenant go; an
engine that holds no work for a tenant, as every base die and every Cenel and CXL port, writes a record with time 0 (R333, R335); when
the line falls, the tenant's harts are as after reset (log 6 for what R145 does not give). Where a stop record stands is
log 31. -/
def Obligations.HaltEvents : Prop :=
  ∀ (ten : Nat) (s : State),
    (s.haltUp ten = false → ∃ t, exec (.haltRegisterRaise ten) s = .next t ∧ t.haltUp ten = true ∧
      ∀ g ∈ t.gangs, g.blk.w2.toNat / 2 ^ 40 % 2 ^ 12 = ten → g.affected = true) ∧
    (∀ l h, Tab.find s.halts ten = some l → h ∉ l.stopped → h < 1536 → (s.hart h).started = true → (s.hart h).halted = false →
      (s.hart h).tenant.toNat = ten →
      ∃ t l', exec (.engineHaltStop h ten) s = .next t ∧ Tab.find t.halts ten = some l' ∧ h ∈ l'.stopped ∧
        (t.hart h).buffer = [] ∧ (t.hart h).queue = [] ∧ (t.hart h).run = none ∧ (t.hart h).pc = (s.hart h).pc ∧
        (t.hart h).v = (s.hart h).v ∧ (∀ r, (t.hart h).readX r = (s.hart h).readX r) ∧
        ∀ b, Tab.find s.stopBase ten = some b →
          (∀ i, i < 256 → Alive s (dieOf h) (b.toNat % 2 ^ 52 + 256 * h + i)) →
          t.readHome (b.toNat % 2 ^ 52 + 256 * h + 0x20) 8 =
            ((s.hart h).queue.head?.map (·.issuePc % 2 ^ 64)).getD (s.hart h).pc.toNat ∧
          t.readHome (b.toNat % 2 ^ 52 + 256 * h + 0x10) 8 = l.cause.toNat) ∧
    (∀ l k, Tab.find s.halts ten = some l → 1536 + 3 * k ∉ l.stopped → k < 48 →
      ∃ t, exec (.engineHaltStop (1536 + 3 * k) ten) s = .next t ∧ ∀ c ∈ (t.cluster k).copies, c.tenant ≠ ten) ∧
    (∀ l e, Tab.find s.halts ten = some l → e ∉ l.stopped → e < 1702 →
      ((1680 ≤ e ∧ e < 1688) ∨ 1692 ≤ e ∨ ((s.hart e).started = false ∧ e < 1536) ∨
        ∃ k, e = 1536 + 3 * k ∧ k < 48 ∧ (s.cluster k).copies = []) →
      ∃ t l', exec (.engineHaltStop e ten) s = .next t ∧ Tab.find t.halts ten = some l' ∧ e ∈ l'.stopped ∧
        ∀ b, Tab.find s.stopBase ten = some b → (∀ i, i < 256 → Alive s (sourceDie e) (b.toNat % 2 ^ 52 + 256 * e + i)) →
          t.readHome (b.toNat % 2 ^ 52 + 256 * e) 8 = 0 ∧ t.readHome (b.toNat % 2 ^ 52 + 256 * e + 0x10) 8 = l.cause.toNat) ∧
    (s.haltUp ten = true → ∃ t, exec (.haltRegisterLower ten) s = .next t ∧ t.haltUp ten = false ∧
      (∀ g ∈ t.gangs, g.affected = true → g.blk.w2.toNat / 2 ^ 40 % 2 ^ 12 ≠ ten) ∧
      ∀ h, (s.hart h).started = true → (s.hart h).halted = false → (s.hart h).tenant.toNat = ten → t.hart h = {})

/-- Power, bring-up and identity (R337, R338): a trip raises every tenant's line and powers the module down; throttling
changes nothing else; after a module reset no hart has started, memory lists nothing, and a die whose image failed is held
and reported over Cenel; the supervisor starts on every die that is not held, at its entry, whose low two bits are dropped
(log 8); a quote is added for each nonce. What memory reads after a module reset is logs 5 and 27, and the quote in the step
of its request log 13: the model's choices. -/
def Obligations.BringUpEvents : Prop :=
  ∀ (d : Nat) (on : Bool) (entry : Word) (ls : List Nat) (image nonce : Nat) (ok : List Bool) (s : State),
    (∃ t, exec (.thermalTrip d) s = .next t ∧ t.poweredDown = true ∧ ∀ ten, ten < 4096 → t.haltUp ten = true) ∧
    (∃ t, exec (.powerLimit d on) s = .next t ∧ (t.die d).throttled = on ∧ t.harts = s.harts ∧ t.mem = s.mem) ∧
    (∃ t, exec (.moduleReset ok) s = .next t ∧ t.harts = [] ∧ t.mem = [] ∧ t.poison = [] ∧ t.halts = [] ∧ t.gangs = [] ∧
      t.supervisor = false ∧ ∀ j, j < 4 → (t.die j).held = !ok.getD j true ∧ (j ∈ t.bootReports ↔ ok.getD j true = false)) ∧
    (s.supervisor = false → ∃ t, exec (.supervisorStart entry ls image) s = .next t ∧ t.supervisor = true ∧ t.lists = ls ∧
      ∀ j, j < 4 → (s.die j).held = false → (t.hart (384 * j)).pc = entry &&& 0xFFFFFFFFFFFFFFFC ∧ (t.hart (384 * j)).sup = true ∧
        (t.hart (384 * j)).started = true ∧ ∀ r, (t.hart (384 * j)).readX r = 0) ∧
    (∃ t q, exec (.attestationQuote nonce) s = .next t ∧ t.quotes = s.quotes ++ [q] ∧ { t with quotes := s.quotes } = s)

namespace Sys2Proof.Claims
open Machine

/-- A record of a reserve may leave it, with some records before it: it is lossy by now, since its tenant's halt line is up
or its hart is a stream's consumer, or it finds room in the lossless streams that it was offered to and that accept it
still, and no older record of its source waits (spec/18 R349, R354, R359, R360). -/
def MayLeave (s : State) (before : List Machine.Reserved) (r : Machine.Reserved) : Prop :=
  (r.rcd.nt = false ∧ s.haltUp r.rcd.tenant = true) ∨
    (r.rcd.source < 1536 ∧ ∃ n, n < 16 ∧ (s.stream n).consumer = some r.rcd.source) ∨
    (s.roomInAll r.rcd (s.wants r) = true ∧ ∀ x ∈ before, x.rcd.source ≠ r.rcd.source)
/-- A counter of a memory-side cache or its DRAM, which counts the accesses of a sweep too. -/
def OfBaseDie (c : Nat) : Prop := 1680 ≤ c / 64 ∧ c / 64 < 1688

end Sys2Proof.Claims

/-- Reel and time (R348, R349, R354, R360, R369, R379, R380): the first record of a reserve that may leave it leaves, and with
none the reserve stays (log 18); a sweep takes the counts of its die, and changes nothing while sweeping is off (log 21); the
time base gives every unlocked die one step to the same time; the loss of a grandmaster and the choice of a port step no
counter; a message is stamped, and one that arrives at the time port steps none either: the locked dies then slew by its
correction together, at 100 parts per million at most (log 2). -/
def Obligations.TimeEvents : Prop :=
  ∀ (d e base : Nat) (off : Int) (s : State),
    (∀ before r rest, (s.die d).reserve = before ++ r :: rest → MayLeave s before r →
      (∀ b x l, before = b ++ x :: l → ¬ MayLeave s b x) →
      ∃ t, exec (.recordAccept d) s = .next t ∧ (t.die d).reserve = before ++ rest) ∧
    ((∀ before r rest, (s.die d).reserve = before ++ r :: rest → ¬ MayLeave s before r) →
      exec (.recordAccept d) s = .next s) ∧
    (s.ctbase.getLsbD 0 = true → ∃ t, exec (.counterSweep d) s = .next t ∧
      ∀ c, ¬ OfBaseDie c → Tab.get 0 t.counters c = Tab.get 0 s.counters c ∧
        ((Tab.find s.counters c).isSome = true → sweeperOf c = d → Tab.get 0 t.lastRead c = Tab.get 0 s.counters c)) ∧
    (s.ctbase.getLsbD 0 = false → exec (.counterSweep d) s = .next s) ∧
    (∃ t, exec (.timebaseLock base) s = .next t ∧ ∀ j, j < 4 → (t.die j).locked = true ∧
      t.tstamp j = if (s.die j).locked then s.tstamp j else base % 2 ^ 64) ∧
    (∃ t, exec (.grandmasterLoss e) s = .next t ∧ (Tab.get {} t.eth e).grandmaster = false ∧
      ∀ j, t.tstamp j = s.tstamp j) ∧
    (∃ t, exec (.timePortSelect e) s = .next t ∧ t.timePort = e ∧ ∀ j, t.tstamp j = s.tstamp j) ∧
    (∀ ingress, ∃ t, exec (.ieee1588EventMessage e ingress off) s = .next t ∧
      (Tab.get {} t.eth e).lastStamp = s.tstamp e ∧ (Tab.get {} t.eth e).offset = off ∧
      (ingress = false ∨ e ≠ s.timePort ∨ (Tab.get {} s.eth e).grandmaster = false →
        t.dies = s.dies ∧ t.slew = s.slew ∧ t.slewAt = s.slewAt) ∧
      (ingress = true → e = s.timePort → (Tab.get {} s.eth e).grandmaster = true → ∀ j, j < 4 →
        t.tstamp j = s.tstamp j ∧ ((s.die j).locked = true → ∀ n : Nat, ∃ m : Int, |m| ≤ n / 1875 ∧
          (|off| ≤ n / 1875 → m = off) ∧
          ((({ t with now := s.now + n } : State).tstamp j : Int) =
            (s.tstamp j + ((16 * (s.now + n) / 3 - 16 * s.now / 3 : Nat) : Int) + m) % 2 ^ 64))))

/-- Journals and Ethernet ports (R386, R387, R391): an acknowledgement advances its context by the entry at the head of its
queue, behind the trunc fields sent before it (R392); in a move the new partner acknowledges what is queued for it, the
copies of the entries from trunc on and then those put since (R395), and the move ends, with the partner and the ring of its
start (log 43), when the new partner has all; the oldest emission record is written once its entry is acknowledged; a lost
partner leaves the context alone, its queue discarded, a lost new partner gives the move up; a lasting frame error, the
outcome of whose retry is the event's (log 26), fences its port and loses the partners there. -/
def Obligations.JournalEvents : Prop :=
  ∀ (c : Nat) (o : Option Nat) (s : State),
    let j := s.journal c
    (s.haltUp j.ten.toNat = false → (Tab.get {} s.eth j.port).link.fenced = false →
      (j.sends = true → (∀ sent rest, (∀ x ∈ sent, ∃ v, x = JItem.trunc v) → j.queue = sent ++ .entry j.ack.toNat :: rest →
          j.ack.toNat + 1 < 2 ^ 64 →
          ∃ t, exec (.journalAck c false) s = .next t ∧ (t.journal c).ack = j.ack + 1 ∧ (t.journal c).queue = rest ∧
            (t.journal c).next = j.next ∧ (t.journal c).state = j.state) ∧
        ((∀ x ∈ j.queue, ∃ v, x = JItem.trunc v) → exec (.journalAck c false) s = .next s)) ∧
      (j.state = 3 → j.en = true → ∀ (sent rest left : List JItem) (n : Nat),
        (∀ x ∈ sent, (∃ v, x = JItem.trunc v) ∨ ∃ lo hi, hi ≤ lo ∧ x = JItem.copies lo hi) →
        (j.newQueue = sent ++ .entry n :: rest ∧ left = rest ∨
          ∃ hi, n < hi ∧ j.newQueue = sent ++ .copies n hi :: rest ∧ left = .copies (n + 1) hi :: rest) →
        j.newAck.toNat ≤ n → n + 1 < 2 ^ 64 → ∃ t, exec (.journalAck c true) s = .next t ∧
          (t.journal c).newAck.toNat = n + 1 ∧ (t.journal c).ack.toNat = max j.ack.toNat (n + 1) ∧
          (n + 1 < j.next.toNat → (t.journal c).state = 3 ∧ (t.journal c).peer = j.peer ∧ (t.journal c).newQueue = left ∧
            (t.journal c).queue = j.queue) ∧
          (j.next.toNat ≤ n + 1 → (t.journal c).state = 1 ∧ (t.journal c).peer = j.toPeer ∧ (t.journal c).ring = j.toRing ∧
            (t.journal c).queue = left ∧ (t.journal c).newQueue = []))) ∧
    (∀ r rest, j.held = r :: rest → r.seq < j.ack.toNat → s.haltUp j.ten.toNat = false → Quiet s → c < 256 →
      (∀ i, i < 16 → Alive s (sourceDie (1688 + j.port)) (r.pa + i)) →
      ∃ t, exec (.emissionRecordWrite c) s = .next t ∧ (t.journal c).held = rest ∧ t.readHome r.pa 8 = r.seq % 2 ^ 64 ∧
        t.readHome (r.pa + 8) 8 = r.token % 2 ^ 32 + c * 2 ^ 32) ∧
    (j.state = 1 → j.peer.getLsbD 63 = true ∨ (Tab.get {} s.eth j.port).link.fenced = true →
      ∃ t, exec (.partnerLost c) s = .next t ∧ (t.journal c).state = 4 ∧ (t.journal c).queue = [] ∧
      (t.journal c).next = j.next ∧ (t.journal c).ack = j.ack) ∧
    (j.state = 3 → ∃ t, exec (.newPartnerUnreachable c) s = .next t ∧ (t.journal c).state = j.before ∧
      (t.journal c).peer = j.peer ∧ (t.journal c).queue = j.queue ∧ (t.journal c).newQueue = []) ∧
    (∃ t, exec (.ethernetFrameError j.port ⟨.transient, o⟩) s = .next t ∧ t.journals = s.journals ∧ t.eth = s.eth) ∧
    (∃ t, exec (.ethernetFrameError j.port ⟨.lasting, o⟩) s = .next t ∧ (Tab.get {} t.eth j.port).link.fenced = true ∧
      (j.state = 1 → (t.journal c).state = 4))

namespace Sys2Proof.Claims
open Machine

/-- The executing hart may issue: nothing stands before its next word, and no request is taken first. -/
def Ready (s : State) : Prop :=
  s.poweredDown = false ∧ s.me.started = true ∧ s.me.halted = false ∧ s.myCore.fenced = false ∧
    s.haltUp s.me.tenant.toNat = false ∧ s.takeRequests s.cur = none ∧ s.me.wait ≠ .held ∧ s.wfeExpired s.cur = false
/-- Its queue is empty, it is in the middle of no word and Reel does not hold it, so the word at its pc is next. -/
def AtWord (s : State) : Prop :=
  s.me.run = none ∧ s.me.queue = [] ∧ s.me.midWord = false ∧ s.reelHeld s.cur = false ∧ s.me.holdUntil ≤ s.now
/-- Words written out bit by bit in the fields of spec/02 R29, R42, with the instructions they stand for. -/
def words : List (Nat × Nat × Instr) :=
  [(32, 0b0000001_00001_00010_00011_0000000_000, .add .s64 1 2 3),
   (32, 0b0000010_00101_00110_111111111111111, .addi 5 6 0x7FFF),
   (32, 0b0001100_00001_11111111111111111110, .jmp 1 0xFFFFE),
   (32, 0b0011011_00111_01000_111111111000_01_1, .ldZ16 7 8 0xFF8 .na .col),
   (32, 0b0100110_00001_00010_00011_0100001_010, .fsub .bf16 .rtz 1 2 3),
   (32, 0b0100111_01001_00000_000_000000001001, .cget 9 0x009),
   (32, 0b0101011_00001_00010_00011_1000011_101, .amoCas .z64 .sys 1 2 3),
   (32, 0b0101110_00000_00100_00000_0000000_000, .trap 4),
   (32, 0b1000100_00011_00100_00101_1000_100001, .vld 3 5 ⟨4, 1, .col, .f32⟩),
   (32, 0b1100011_00001_00010_00011_1001_000011, .mop .bf16 .zb .rup none 2 3),
   (64, 0b00000001_0_00001_00010_0_00011_0_00000_0_00101_1_00000_1000_000_1_0_000000000000,
     .vadd ⟨false, some ⟨5, true⟩⟩ .f32 .rne 1 ⟨2, false⟩ ⟨3, false⟩ none),
   (64, 0b01010000_0_00001_00010_0_00000_0_00000_0_00000_0_00000_0100_001_0_0_111111111100,
     .vlde ⟨false, none⟩ .col .s32 1 ⟨2, false⟩ 0xFFC),
   (64, 0b01010101 * 2 ^ 56, .vstop)]

end Sys2Proof.Claims

/-- The words of spec/02 decode to the instructions their fields name. -/
def Obligations.DecodeWords : Prop := ∀ e ∈ words, decodeTableWord e.1 e.2.1 = some e.2.2

/-- R28 to R49: the word of every well-formed instruction decodes to it, with every operand it admits; and a word that
decodes is the one word of its instruction, so that no bit of it is dropped. Every well-formed instruction that is no event
has a word, of 32 or of 64 bits. -/
def Obligations.DecodeEncode : Prop :=
  (∀ i : Instr, i.wf = true → i.isEvent = false → ∃ n w, encode i = some (n, w) ∧ (n = 32 ∨ n = 64)) ∧
  (∀ i n w, i.wf = true → encode i = some (n, w) → decodeTableWord n w = some i) ∧
  (∀ w i, decodeTableWord 32 w = some i → i.wf = true ∧ encode i = some (32, w % 2 ^ 32)) ∧
  (∀ w i, decodeTableWord 64 w = some i → i.wf = true ∧ encode i = some (64, w % 2 ^ 64))

/-- R48, R164, R219: a step at a ready hart runs the word its pc fetches, by its meaning; a word that is no instruction
takes the illegal-instruction trap with the word as value, a fetch that faults the fetch trap; in a run, a step runs the
block word of the row that moves. A word that issues behind entries of the vector queue enters it, and one at its head runs
by its meaning; where it waits it stays there, and where it traps the entries behind it go. One that needs an entry of a
full interlock table does not issue (R264), nor does one of a hart that Reel holds, which is stalled (R356). A vrest and an
atomic that have begun go on without being fetched again (logs 24 and 41, the model's readings). A step first strikes out
what its hart owes Reel no more, and ends a stall of the issue behind its queue once Reel does not hold it (R356). The step
adds the issue of the word (R365 slot 0), in a run the lane pass of a convoy that does not wait (R365 slot 2), the interlock
entry that a word holds while it waits (R261, R264), and the time that passes. The agenda and one cycle a turn are logs 1
and 2, the choice of the row log 4, slot 0 of a word that traps log 46, and which words wait for the queue log 3: the
model's choices. -/
def Obligations.StepRunsDecoded : Prop :=
  ∀ (s s1 s2 : State) (w sub : Nat) (i : Instr) (r0 : Run),
    (s.agenda = [] → s.me.heldAhead = false → step s = step (s.settleOwes s.cur)) ∧
    (let u := (s.settleOwes s.cur).endHold s.cur;
      s.agenda = [] → u.settleOwes s.cur = u → u.endHold s.cur = u → step s = step u) ∧
    (s.settleOwes s.cur = s → s.endHold s.cur = s → Ready s →
    (AtWord s → ∀ u ∈ [s, { s with agenda := .hart s.cur :: s.agenda }], (u = s → s.agenda = []) →
      (s.fetchWord s.cur s.me.pc = (.word w, s1) →
        (decodeControl (BitVec.ofNat 32 w) = some i →
          step u = after 1 (issueWord (writesCnval i) (holding i fun x => exec i (x.disarm (some i))) s1)) ∧
        (decodeControl (BitVec.ofNat 32 w) = none →
          step u = after 1 (issueWord false (finish (Machine.trap 0x01 0 (BitVec.ofNat 64 w))) (s1.disarm none)))) ∧
      (s.fetchWord s.cur s.me.pc = (.poison, s1) → step u = after 1 (issueWord false (finish (consumePoison s.me.pc)) s1)) ∧
      (s.fetchWord s.cur s.me.pc = (.fault sub, s1) →
        step u = after 1 (issueWord false (finish (Machine.trap 0x04 sub s.me.pc)) s1))) ∧
    (s.agenda = [] → s.me.rest.isSome = true → step s = after 1 (issueWord false vrestResume s)) ∧
    (s.agenda = [] → s.me.rest = none → s.me.amo.isSome = true → step s = after 1 (issueWord false amoResume s)) ∧
    (s.agenda = [] → s.me.midWord = false → s.me.run = some r0 →
      let r : Run := { r0 with cur := r0.choose none }
      r.wordAt r.row.pc = some i →
      convoyCheck r i (s.updMe fun h => { h with run := some r, wait := .none }) = .ok ((), s2) →
      step s = after 1 (match exec i s2 with
        | .next t => .next ((t.lanePass s.cur i).settleRun s.cur)
        | o => o)) ∧
    (s.agenda = [] → s.me.midWord = false → s.me.run = none → ∀ e rest t, s.me.queue = e :: rest → e.word = some i →
      isMark i = false →
      let u := (if e.holds then s.freeHead s.cur else s).updMe fun h =>
        { h with pc := BitVec.ofNat 64 e.issuePc, queue := [], issued := true, issuedAt := e.begun.getD s.now }
      issueWord false (fun x => exec i (x.disarm (some i))) u = .next t →
      step s = .next ((if (t.hart s.cur).wait ≠ .none then
          (if e.holds then t.updCore (coreOf s.cur) fun c => { c with interlocks := s.myCore.interlocks } else t).updHart s.cur
            fun h => { h with pc := s.me.pc, queue := { e with begun := some (e.begun.getD s.now) } :: rest }
        else if trappedIn u t s.cur then t.freeQueueEntry s.cur
        else t.updHart s.cur fun h => { h with pc := s.me.pc, queue := h.queue ++ rest }).passTime 1)) ∧
    (s.me.run = none → s.me.queue ≠ [] → s.me.steered = false → s.me.wait = .none → s.me.holdUntil ≤ s.now → s.me.places < 16 →
      s.reelHeld s.cur = false →
      s.fetchWord s.cur s.me.pc = (.word w, s1) → decodeControl (BitVec.ofNat 32 w) = some i → takesEntry i = true →
      (s.myCore.interlocks.length < 32 →
        ∃ u e, step { s with agenda := .ahead s.cur :: s.agenda } = .next u ∧ u.me.queue = s.me.queue ++ [e] ∧
          e.word = some i ∧ e.issuePc = s.me.pc.toNat ∧ e.cap = s.me.capture ∧ u.me.pc = s.me.pc + 4 ∧ u.me.run = none) ∧
      (32 ≤ s.myCore.interlocks.length → (∃ d b m, i = .vldx d b m) →
        ∃ u, step { s with agenda := .ahead s.cur :: s.agenda } = .next u ∧ u.me.queue = s.me.queue ∧ u.me.pc = s.me.pc)) ∧
    (s.me.run = none → s.me.queue ≠ [] → s.me.steered = false → s.me.wait = .none → s.me.holdUntil ≤ s.now →
      s.reelHeld s.cur = true → ∃ u, step { s with agenda := .ahead s.cur :: s.agenda } = .next u ∧ u.me.queue = s.me.queue ∧
        u.me.pc = s.me.pc ∧ u.me.heldAhead = true ∧ u.me.stall = some (s.me.stall.getD (s.now, s.tstamp (dieOf s.cur)))))

/-- R145, R146, R296, R337, R364: the control registers of every hart after reset, where the map gives their reset value; every
scalar register reads 0, the level of vector state and the lanes are those of R145. That no hart has started is log 7. -/
def Obligations.ResetState : Prop :=
  ∀ h : Nat, h < 1536 →
    let s : State := { State.reset with cur := h }
    (∀ c : BitVec 12, c ∈ ([0x000, 0x001, 0x004, 0x008, 0x009, 0x00A, 0x00B, 0x020, 0x030, 0x031, 0x032, 0x033, 0x034, 0x035,
      0x036, 0x040, 0x090] : List (BitVec 12)) → (c, 0) ∈ hartRegs s) ∧
    ((0x002 : BitVec 12), (0x28 : Word)) ∈ hartRegs s ∧ ((0x010 : BitVec 12), BitVec.ofNat 64 h) ∈ hartRegs s ∧
    (((0x120 : BitVec 12), (0x20 : Word)) ∈ hartRegs s ∧ ((0x121 : BitVec 12), (0x20 : Word)) ∈ hartRegs s) ∧
    (∀ r, s.readX r = 0) ∧ s.me.started = false ∧ s.me.matrix = false ∧ s.me.lanes = 0

/-- After reset memory has its canonical form, and every byte reads as the model's blank byte (log 5). -/
def Obligations.ResetMemory : Prop :=
  Safety.memOk State.reset = true ∧ ∀ a, Memory.read State.reset.mem a = blank

/-- Every step keeps the canonical form of the homes' memory and of every cluster's bytes. -/
def Obligations.StepKeepsMemory : Prop :=
  ∀ s t : State, Safety.memOk s = true → step s = .next t → Safety.memOk t = true
end

