-- ==== Sys2Proof/Laws/Encoding.lean ====
section
/-!
SUPPORT. The pieces of the round trip of spec/02: fields out of appended fields, codes of operand kinds, and the two
word formats. Laws/PerInstr.lean rests on these.
-/
namespace Sys2Proof.Laws

-- Fields -----------------------------------------------------------------------------------------------------------------

theorem low_of_append {m n : Nat} (a : BitVec m) (b : BitVec n) : (a ++ b).extractLsb' 0 n = b := by
  apply BitVec.eq_of_getLsbD_eq
  intro i hi
  simp [BitVec.getLsbD_append, hi]

theorem high_of_append {m n : Nat} (a : BitVec m) (b : BitVec n) : (a ++ b).extractLsb' n m = a := by
  apply BitVec.eq_of_getLsbD_eq
  intro i hi
  simp [BitVec.getLsbD_append, hi]

theorem join {m n k : Nat} (i : BitVec k) (h : k = m + n) :
    i.extractLsb' n m ++ i.extractLsb' 0 n = i.cast h := by
  subst h
  apply BitVec.eq_of_getLsbD_eq
  intro j hj
  simp only [BitVec.getLsbD_append, BitVec.getLsbD_extractLsb', BitVec.getLsbD_cast]
  by_cases hn : j < n
  · simp [hn]
  · have : j - n < m := by omega
    have e : n + (j - n) = j := by omega
    simp [hn, this, e]

theorem imm15_parts (i : BitVec 15) : i.extractLsb' 10 5 ++ i.extractLsb' 0 10 = i := join (m := 5) (n := 10) i rfl
theorem imm12_parts (i : BitVec 12) : i.extractLsb' 7 5 ++ i.extractLsb' 0 7 = i := join (m := 5) (n := 7) i rfl
theorem imm10_parts (i : BitVec 10) : i.extractLsb' 7 3 ++ i.extractLsb' 0 7 = i := join (m := 3) (n := 7) i rfl
theorem imm20_parts (i : BitVec 20) : i.extractLsb' 15 5 ++ i.extractLsb' 10 5 ++ i.extractLsb' 0 10 = i := by
  apply BitVec.eq_of_getLsbD_eq
  intro j hj
  simp only [BitVec.getLsbD_append, BitVec.getLsbD_extractLsb']
  by_cases h1 : j < 10
  · simp [h1]
  · by_cases h2 : j - 10 < 5
    · have e : 10 + (j - 10) = j := by omega
      simp [h1, h2, e]
    · have h3 : j - 10 - 5 < 5 := by omega
      have e : 15 + (j - 10 - 5) = j := by omega
      simp [h1, h2, h3, e]

-- Codes ------------------------------------------------------------------------------------------------------------------

theorem isize_code (x : ISize) : ISize.ofCode x.code = some x := by cases x <;> rfl
theorem rm_code (x : Rm) : Rm.ofCode x.code = some x := by cases x <;> rfl
theorem ffmt_code (x : FFmt) : FFmt.ofCode x.code = some x := by cases x <;> rfl
theorem cvt_code (x : CvtTy) : CvtTy.ofCode x.code = some x := by cases x <;> rfl
theorem hint_code (x : Hint) : Hint.ofCode x.code = some x := by cases x <;> rfl
theorem orient_code (x : Orient) : Orient.ofCode x.code = some x := by cases x <;> rfl
theorem scope_code (x : Scope) : Scope.ofCode x.code = some x := by cases x <;> rfl
theorem size_code (x : AccSize) : AccSize.ofCode x.code = some x := by cases x <;> rfl
theorem ety_code (x : ETy) : ETy.ofCode x.code = some x := by cases x <;> rfl
theorem amoty_code (x : AmoTy) : AmoTy.ofCode x.code = some x := by cases x <;> rfl
theorem amoop_code (x : AmoOp) : AmoOp.ofCode x.code = some x := by cases x <;> rfl
theorem cmode_code (x : CMode) : CMode.ofCode x.code = some x := by cases x <;> rfl
theorem wcode_code (x : WCode) : WCode.ofCode x.code = some x := by cases x <;> rfl
theorem acc_code (x : Acc) : Acc.ofCode x.code = some x := by cases x <;> rfl
theorem zsel_code (x : ZSel) : ZSel.ofCode x.code = some x := by cases x <;> rfl
theorem cmp_code (x : CmpOp) : CmpOp.ofCode x.code = some x := by cases x <;> rfl
theorem bit_true (b : Bool) : bitTrue (bit b) = b := by cases b <;> rfl
theorem bit_is_one (b : Bool) : (bit b = 1#1) = (b = true) := by cases b <;> simp [bit]
theorem bit_of_true (c : BitVec 1) : bit (bitTrue c) = c := by
  revert c; decide

-- Word formats -----------------------------------------------------------------------------------------------------------

theorem upper {m n : Nat} (x : BitVec m) (y : BitVec n) (s k : Nat) :
    (x ++ y).extractLsb' (n + s) k = x.extractLsb' s k := by
  apply BitVec.eq_of_getLsbD_eq
  intro i hi
  have h1 : ¬ n + s + i < n := by omega
  have h2 : n + s + i - n = s + i := by omega
  simp [BitVec.getLsbD_append, h1, h2]

theorem lower {m n : Nat} (x : BitVec m) (y : BitVec n) (s k : Nat) (h : s + k ≤ n) :
    (x ++ y).extractLsb' s k = y.extractLsb' s k := by
  apply BitVec.eq_of_getLsbD_eq
  intro i hi
  have h1 : s + i < n := by omega
  simp [BitVec.getLsbD_append, h1]

theorem whole {m : Nat} (x : BitVec m) : x.extractLsb' 0 m = x := by
  apply BitVec.eq_of_getLsbD_eq
  intro i hi
  simp [hi]

/-- Packed fields unpack to themselves (spec/02 R29). -/
theorem control_fields (f : CFields) : CFields.unpack f.pack = f := by
  obtain ⟨op, a, b, c, lo⟩ := f
  have h0 : (op ++ a ++ b ++ c ++ lo).extractLsb' 0 10 = lo := (lower _ lo 0 10 (by decide)).trans (whole lo)
  have h1 : (op ++ a ++ b ++ c ++ lo).extractLsb' 10 5 = c := (upper _ lo 0 5).trans ((lower _ c 0 5 (by decide)).trans (whole c))
  have h2 : (op ++ a ++ b ++ c ++ lo).extractLsb' 15 5 = b :=
    (upper _ lo 5 5).trans ((upper _ c 0 5).trans ((lower _ b 0 5 (by decide)).trans (whole b)))
  have h3 : (op ++ a ++ b ++ c ++ lo).extractLsb' 20 5 = a :=
    (upper _ lo 10 5).trans ((upper _ c 5 5).trans ((upper _ b 0 5).trans ((lower _ a 0 5 (by decide)).trans (whole a))))
  have h4 : (op ++ a ++ b ++ c ++ lo).extractLsb' 25 7 = op :=
    (upper _ lo 15 7).trans ((upper _ c 10 7).trans ((upper _ b 5 7).trans ((upper _ a 0 7).trans (whole op))))
  show CFields.mk _ _ _ _ _ = _
  exact congr (congr (congr (congr (congrArg CFields.mk h4) h3) h2) h1) h0

theorem high_half {x y : BitVec 32} (s k : Nat) : (x ++ y).extractLsb' (32 + s) k = x.extractLsb' s k := upper x y s k
theorem low_half {x y : BitVec 32} (s k : Nat) (h : s + k ≤ 32) : (x ++ y).extractLsb' s k = y.extractLsb' s k :=
  lower x y s k h

/-- Packed fields unpack to themselves (spec/02 R42). -/
theorem block_fields (f : BFields) : BFields.unpack f.pack = f := by
  obtain ⟨op, cv, vd, va, ca, vb, cb, vc, cc, pp, ps, pm, ty, rm, pe, me, imm⟩ := f
  let H : BitVec 32 := op ++ bit cv ++ vd ++ va ++ bit ca ++ vb ++ bit cb ++ vc ++ bit cc
  let L : BitVec 32 := pp ++ bit ps ++ pm ++ ty ++ rm ++ bit pe ++ bit me ++ imm
  have h0_24 : (H ++ L).extractLsb' 56 8 = op := (high_half 24 8).trans ((upper _ (bit cc) 23 8).trans ((upper _ (vc) 18 8).trans ((upper _ (bit cb) 17 8).trans ((upper _ (vb) 12 8).trans ((upper _ (bit ca) 11 8).trans ((upper _ (va) 6 8).trans ((upper _ (vd) 1 8).trans ((upper _ (bit cv) 0 8).trans (whole (op))))))))))
  have h0_23 : bitTrue ((H ++ L).extractLsb' 55 1) = cv := (congrArg bitTrue ((high_half 23 1).trans ((upper _ (bit cc) 22 1).trans ((upper _ (vc) 17 1).trans ((upper _ (bit cb) 16 1).trans ((upper _ (vb) 11 1).trans ((upper _ (bit ca) 10 1).trans ((upper _ (va) 5 1).trans ((upper _ (vd) 0 1).trans ((lower _ (bit cv) 0 1 (by decide)).trans (whole (bit cv)))))))))))).trans (bit_true cv)
  have h0_18 : (H ++ L).extractLsb' 50 5 = vd := (high_half 18 5).trans ((upper _ (bit cc) 17 5).trans ((upper _ (vc) 12 5).trans ((upper _ (bit cb) 11 5).trans ((upper _ (vb) 6 5).trans ((upper _ (bit ca) 5 5).trans ((upper _ (va) 0 5).trans ((lower _ (vd) 0 5 (by decide)).trans (whole (vd)))))))))
  have h0_13 : (H ++ L).extractLsb' 45 5 = va := (high_half 13 5).trans ((upper _ (bit cc) 12 5).trans ((upper _ (vc) 7 5).trans ((upper _ (bit cb) 6 5).trans ((upper _ (vb) 1 5).trans ((upper _ (bit ca) 0 5).trans ((lower _ (va) 0 5 (by decide)).trans (whole (va))))))))
  have h0_12 : bitTrue ((H ++ L).extractLsb' 44 1) = ca := (congrArg bitTrue ((high_half 12 1).trans ((upper _ (bit cc) 11 1).trans ((upper _ (vc) 6 1).trans ((upper _ (bit cb) 5 1).trans ((upper _ (vb) 0 1).trans ((lower _ (bit ca) 0 1 (by decide)).trans (whole (bit ca))))))))).trans (bit_true ca)
  have h0_7 : (H ++ L).extractLsb' 39 5 = vb := (high_half 7 5).trans ((upper _ (bit cc) 6 5).trans ((upper _ (vc) 1 5).trans ((upper _ (bit cb) 0 5).trans ((lower _ (vb) 0 5 (by decide)).trans (whole (vb))))))
  have h0_6 : bitTrue ((H ++ L).extractLsb' 38 1) = cb := (congrArg bitTrue ((high_half 6 1).trans ((upper _ (bit cc) 5 1).trans ((upper _ (vc) 0 1).trans ((lower _ (bit cb) 0 1 (by decide)).trans (whole (bit cb))))))).trans (bit_true cb)
  have h0_1 : (H ++ L).extractLsb' 33 5 = vc := (high_half 1 5).trans ((upper _ (bit cc) 0 5).trans ((lower _ (vc) 0 5 (by decide)).trans (whole (vc))))
  have h0_0 : bitTrue ((H ++ L).extractLsb' 32 1) = cc := (congrArg bitTrue ((high_half 0 1).trans ((lower _ (bit cc) 0 1 (by decide)).trans (whole (bit cc))))).trans (bit_true cc)
  have h1_27 : (H ++ L).extractLsb' 27 5 = pp := (low_half 27 5 (by decide)).trans ((upper _ (imm) 15 5).trans ((upper _ (bit me) 14 5).trans ((upper _ (bit pe) 13 5).trans ((upper _ (rm) 10 5).trans ((upper _ (ty) 6 5).trans ((upper _ (pm) 1 5).trans ((upper _ (bit ps) 0 5).trans (whole (pp)))))))))
  have h1_26 : bitTrue ((H ++ L).extractLsb' 26 1) = ps := (congrArg bitTrue ((low_half 26 1 (by decide)).trans ((upper _ (imm) 14 1).trans ((upper _ (bit me) 13 1).trans ((upper _ (bit pe) 12 1).trans ((upper _ (rm) 9 1).trans ((upper _ (ty) 5 1).trans ((upper _ (pm) 0 1).trans ((lower _ (bit ps) 0 1 (by decide)).trans (whole (bit ps))))))))))).trans (bit_true ps)
  have h1_21 : (H ++ L).extractLsb' 21 5 = pm := (low_half 21 5 (by decide)).trans ((upper _ (imm) 9 5).trans ((upper _ (bit me) 8 5).trans ((upper _ (bit pe) 7 5).trans ((upper _ (rm) 4 5).trans ((upper _ (ty) 0 5).trans ((lower _ (pm) 0 5 (by decide)).trans (whole (pm))))))))
  have h1_17 : (H ++ L).extractLsb' 17 4 = ty := (low_half 17 4 (by decide)).trans ((upper _ (imm) 5 4).trans ((upper _ (bit me) 4 4).trans ((upper _ (bit pe) 3 4).trans ((upper _ (rm) 0 4).trans ((lower _ (ty) 0 4 (by decide)).trans (whole (ty)))))))
  have h1_14 : (H ++ L).extractLsb' 14 3 = rm := (low_half 14 3 (by decide)).trans ((upper _ (imm) 2 3).trans ((upper _ (bit me) 1 3).trans ((upper _ (bit pe) 0 3).trans ((lower _ (rm) 0 3 (by decide)).trans (whole (rm))))))
  have h1_13 : bitTrue ((H ++ L).extractLsb' 13 1) = pe := (congrArg bitTrue ((low_half 13 1 (by decide)).trans ((upper _ (imm) 1 1).trans ((upper _ (bit me) 0 1).trans ((lower _ (bit pe) 0 1 (by decide)).trans (whole (bit pe))))))).trans (bit_true pe)
  have h1_12 : bitTrue ((H ++ L).extractLsb' 12 1) = me := (congrArg bitTrue ((low_half 12 1 (by decide)).trans ((upper _ (imm) 0 1).trans ((lower _ (bit me) 0 1 (by decide)).trans (whole (bit me)))))).trans (bit_true me)
  have h1_0 : (H ++ L).extractLsb' 0 12 = imm := (low_half 0 12 (by decide)).trans ((lower _ (imm) 0 12 (by decide)).trans (whole (imm)))
  show BFields.mk _ _ _ _ _ _ _ _ _ _ _ _ _ _ _ _ _ = _
  exact congr (congr (congr (congr (congr (congr (congr (congr (congr (congr (congr (congr (congr (congr (congr (congr (congrArg BFields.mk h0_24) h0_23) h0_18) h0_13) h0_12) h0_7) h0_6) h0_1) h0_0) h1_27) h1_26) h1_21) h1_17) h1_14) h1_13) h1_12) h1_0

/-- A well-formed control word whose candidate it is decodes to itself. -/
theorem control_word {i : Instr} {f : CFields} (hw : i.wf = true) (he : encodeC i = some f) (hc : candC f = some i) :
    decodeTableWord 32 f.pack.toNat = some i := by
  simp [decodeTableWord, decodeControl, control_fields, decodeFieldsC, hc, hw, he]

/-- A well-formed block word whose candidate it is decodes to itself. -/
theorem block_word {i : Instr} {f : BFields} (hw : i.wf = true) (he : encodeB i = some f) (hc : candB f = some i) :
    decodeTableWord 64 f.pack.toNat = some i := by
  simp [decodeTableWord, decodeBlock, block_fields, decodeFieldsB, hc, hw, he]

-- What each format's fields hold -----------------------------------------------------------------------------------------

section Formats
variable (op : BitVec 7) (d s t : Reg)

theorem r_op (fn : BitVec 7) (sz : BitVec 3) : (encR op d s t fn sz).op = op := rfl
theorem r_a (fn : BitVec 7) (sz : BitVec 3) : (encR op d s t fn sz).a = d := rfl
theorem r_b (fn : BitVec 7) (sz : BitVec 3) : (encR op d s t fn sz).b = s := rfl
theorem r_c (fn : BitVec 7) (sz : BitVec 3) : (encR op d s t fn sz).c = t := rfl
theorem r_fn (fn : BitVec 7) (sz : BitVec 3) : (encR op d s t fn sz).fn = fn := high_of_append fn sz
theorem r_sz (fn : BitVec 7) (sz : BitVec 3) : (encR op d s t fn sz).sz = sz := low_of_append fn sz
theorem i_op (i : BitVec 15) : (encI op d s i).op = op := rfl
theorem i_a (i : BitVec 15) : (encI op d s i).a = d := rfl
theorem i_b (i : BitVec 15) : (encI op d s i).b = s := rfl
theorem i_imm (i : BitVec 15) : (encI op d s i).imm15 = i := imm15_parts i
theorem j_op (i : BitVec 20) : (encJ op d i).op = op := rfl
theorem j_a (i : BitVec 20) : (encJ op d i).a = d := rfl
theorem j_imm (i : BitVec 20) : (encJ op d i).imm20 = i := imm20_parts i
theorem m_op (i : BitVec 12) (h : Hint) (o : Orient) : (encM op d s i h o).op = op := rfl
theorem m_a (i : BitVec 12) (h : Hint) (o : Orient) : (encM op d s i h o).a = d := rfl
theorem m_b (i : BitVec 12) (h : Hint) (o : Orient) : (encM op d s i h o).b = s := rfl
theorem m_off (i : BitVec 12) (h : Hint) (o : Orient) : (encM op d s i h o).off12 = i := by
  have e : (i.extractLsb' 0 7 ++ h.code ++ o.code).extractLsb' 3 7 = i.extractLsb' 0 7 :=
    (upper _ o.code 2 7).trans ((upper _ h.code 0 7).trans (whole _))
  show _ ++ (i.extractLsb' 0 7 ++ h.code ++ o.code).extractLsb' 3 7 = i
  rw [e]; exact imm12_parts i
theorem m_hint (i : BitVec 12) (h : Hint) (o : Orient) : (encM op d s i h o).lo.extractLsb' 1 2 = h.code :=
  (upper _ o.code 0 2).trans ((lower _ h.code 0 2 (by decide)).trans (whole _))
theorem m_o (i : BitVec 12) (h : Hint) (o : Orient) : (encM op d s i h o).lo.extractLsb' 0 1 = o.code := low_of_append _ o.code
theorem ma_op (z : AccSize) (i : BitVec 10) (c : Scope) : (encMA op d s z i c).op = op := rfl
theorem ma_a (z : AccSize) (i : BitVec 10) (c : Scope) : (encMA op d s z i c).a = d := rfl
theorem ma_b (z : AccSize) (i : BitVec 10) (c : Scope) : (encMA op d s z i c).b = s := rfl
theorem ma_z (z : AccSize) (i : BitVec 10) (c : Scope) : (encMA op d s z i c).c.extractLsb' 3 2 = z.code :=
  high_of_append z.code (i.extractLsb' 7 3)
theorem ma_off (z : AccSize) (i : BitVec 10) (c : Scope) : (encMA op d s z i c).off10 = i := by
  have e : (i.extractLsb' 0 7 ++ c.code).extractLsb' 3 7 = i.extractLsb' 0 7 := high_of_append _ c.code
  have e' : (z.code ++ i.extractLsb' 7 3).extractLsb' 0 3 = i.extractLsb' 7 3 := low_of_append z.code _
  show (z.code ++ i.extractLsb' 7 3).extractLsb' 0 3 ++ (i.extractLsb' 0 7 ++ c.code).extractLsb' 3 7 = i
  rw [e, e']; exact imm10_parts i
theorem ma_scope (z : AccSize) (i : BitVec 10) (c : Scope) : (encMA op d s z i c).sz = c.code := low_of_append _ c.code
theorem v_op (ty : BitVec 4) (F : BitVec 6) : (encV op d s t ty F).op = op := rfl
theorem v_a (ty : BitVec 4) (F : BitVec 6) : (encV op d s t ty F).a = d := rfl
theorem v_b (ty : BitVec 4) (F : BitVec 6) : (encV op d s t ty F).b = s := rfl
theorem v_c (ty : BitVec 4) (F : BitVec 6) : (encV op d s t ty F).c = t := rfl
theorem v_ty (ty : BitVec 4) (F : BitVec 6) : (encV op d s t ty F).ty = ty := high_of_append ty F
theorem v_F (ty : BitVec 4) (F : BitVec 6) : (encV op d s t ty F).F = F := low_of_append ty F
end Formats

theorem flt_op (rm : Rm) (o : BitVec 5) : (fltFn rm o).extractLsb' 0 5 = o := low_of_append rm.code o
theorem flt_rm (rm : Rm) (o : BitVec 5) : (fltFn rm o).extractLsb' 5 2 = rm.code := high_of_append rm.code o
theorem amo_ty (o : AmoOp) (y : AmoTy) : (amoFn o y).extractLsb' 0 3 = y.code := low_of_append o.code y.code
theorem amo_op (o : AmoOp) (y : AmoTy) : (amoFn o y).extractLsb' 3 4 = o.code := high_of_append o.code y.code
theorem sh_n (n : BitVec 6) : ((0 : BitVec 9) ++ n).extractLsb' 0 6 = n := low_of_append _ n
theorem creg_n (c : BitVec 12) : ((0 : BitVec 3) ++ c).extractLsb' 0 12 = c := low_of_append _ c
theorem cvt_src (c : BitVec 3) : ((0 : BitVec 2) ++ c).extractLsb' 0 3 = c := low_of_append _ c
theorem cp_od (a b : BitVec 1) : ((0 : BitVec 1) ++ a ++ b).extractLsb' 1 1 = a :=
  (upper _ b 0 1).trans (low_of_append _ a)
theorem cp_os (a b : BitVec 1) : ((0 : BitVec 1) ++ a ++ b).extractLsb' 0 1 = b := low_of_append _ b
theorem vl_w (b : BitVec 1) (w : BitVec 3) : (b ++ (0 : BitVec 2) ++ w).extractLsb' 0 3 = w := low_of_append _ w
theorem vl_keep (b : BitVec 1) (w : BitVec 3) : (b ++ (0 : BitVec 2) ++ w).extractLsb' 5 1 = b :=
  (upper _ w 2 1).trans ((upper _ (0 : BitVec 2) 0 1).trans (whole b))
theorem mem_o (m : VMem) : m.F.extractLsb' 5 1 = m.o.code := high_of_append m.o.code m.off
theorem mem_off (m : VMem) : m.F.extractLsb' 0 5 = m.off := low_of_append m.o.code m.off
theorem z_sel (c : BitVec 2) : ((0 : BitVec 3) ++ c).extractLsb' 0 2 = c := low_of_append _ c
theorem acc_bit (c : BitVec 1) : ((0 : BitVec 4) ++ c).extractLsb' 0 1 = c := low_of_append _ c
theorem or_o (o : Orient) (rm : Rm) : (orF o rm).extractLsb' 5 1 = o.code :=
  (upper _ rm.code 3 1).trans ((upper _ (0 : BitVec 3) 0 1).trans (whole _))
theorem or_rm (o : Orient) (rm : Rm) : (orF o rm).extractLsb' 0 2 = rm.code := low_of_append _ rm.code
theorem grp_n (g : BitVec 2) : (grp g).extractLsb' 3 2 = g := high_of_append g _
theorem prod_acc (k : Option Scales) (z : BitVec 1) : (prodA k z).extractLsb' 0 1 = z := by
  cases k <;> exact low_of_append _ z
theorem prod_rm (k : Option Scales) (rm : Rm) : (prodF k rm).extractLsb' 0 2 = rm.code := by
  cases k <;> exact low_of_append _ rm.code
theorem xl_op (p : Option Prefix) (o : BitVec 4) : (xlF p o).extractLsb' 0 4 = o := by
  cases p <;> exact low_of_append _ o

/-- The prefix of a cross-lane word comes back (spec/02 R40). -/
theorem xl_prefix (op : BitVec 7) (d a : Reg) (ty : BitVec 4) (p : Option Prefix) (o : BitVec 4) :
    (encV op d a (xlC p) ty (xlF p o)).xlPrefix = p := by
  cases p with
  | none =>
    have e : (xlF none o).extractLsb' 5 1 = (0 : BitVec 1) := (upper (0 : BitVec 2) o 1 1).trans (by decide)
    simp only [CFields.xlPrefix, v_F, e]; exact if_neg (by decide)
  | some q =>
    have e : (xlF (some q) o).extractLsb' 5 1 = (1 : BitVec 1) :=
      (upper _ o 1 1).trans ((upper (1 : BitVec 1) (bit q.neg) 0 1).trans (whole _))
    have e' : (xlF (some q) o).extractLsb' 4 1 = bit q.neg := (upper _ o 0 1).trans (low_of_append (1 : BitVec 1) (bit q.neg))
    simp only [CFields.xlPrefix, v_F, e, e', bit_true, v_c, xlC, if_true]

/-- The scale registers of a product word come back (spec/02 R41). -/
theorem prod_scales (op : BitVec 7) (z : BitVec 1) (b c : Reg) (ty : BitVec 4) (k : Option Scales) (rm : Rm) :
    (encV op (prodA k z) b c ty (prodF k rm)).scales = k := by
  cases k with
  | none =>
    have e : (prodA none z).extractLsb' 4 1 = (0 : BitVec 1) := (upper (0 : BitVec 4) z 3 1).trans (by decide)
    simp only [CFields.scales, v_a, e]; exact if_neg (by decide)
  | some q =>
    have e : (prodA (some q) z).extractLsb' 4 1 = (1 : BitVec 1) :=
      (upper _ z 3 1).trans ((upper (1 : BitVec 1) q.kb 0 1).trans (whole _))
    have e' : (prodA (some q) z).extractLsb' 1 3 = q.kb := (upper _ z 0 3).trans (low_of_append (1 : BitVec 1) q.kb)
    have e'' : (prodF (some q) rm).extractLsb' 2 3 = q.ka := (upper _ rm.code 0 3).trans (low_of_append (0 : BitVec 1) q.ka)
    simp only [CFields.scales, v_a, v_F, e, e', e'', if_true]

theorem zero_ne_one : ((0 : BitVec 1) = 1) = False := by decide
theorem slide_up : (0 : BitVec 6).extractLsb' 0 1 = 0 := by decide
theorem slide_down : (1 : BitVec 6).extractLsb' 0 1 = 1 := by decide
theorem commit_none : (0 : BitVec 6).extractLsb' 1 1 = 0 := by decide
theorem commit_bit (b : BitVec 1) : ((0 : BitVec 4) ++ (1 : BitVec 1) ++ b).extractLsb' 1 1 = 1 :=
  (upper _ b 0 1).trans (low_of_append (0 : BitVec 4) (1 : BitVec 1))
theorem commit_neg (b : BitVec 1) : ((0 : BitVec 4) ++ (1 : BitVec 1) ++ b).extractLsb' 0 1 = b := low_of_append _ b

-- Block words --------------------------------------------------------------------------------------------------------------

theorem rm3_top (rm : Rm) : ((rm3 rm).extractLsb' 2 1 = 1) = False := by cases rm <;> decide
theorem rm3_low (rm : Rm) : (rm3 rm).extractLsb' 0 2 = rm.code := low_of_append _ rm.code
theorem rm_zero_top : ((0 : BitVec 3).extractLsb' 2 1 = 1) = False := by decide
theorem imm_ty (c : BitVec 4) : ((0 : BitVec 8) ++ c).extractLsb' 0 4 = c := low_of_append _ c
theorem imm_k (c : BitVec 3) : ((0 : BitVec 9) ++ c).extractLsb' 0 3 = c := low_of_append _ c
theorem imm_v (c : BitVec 1) : ((0 : BitVec 11) ++ c).extractLsb' 0 1 = c := low_of_append _ c
theorem o_low (c : BitVec 1) : ((0 : BitVec 2) ++ c).extractLsb' 0 1 = c := low_of_append _ c
theorem imm_scope (c : BitVec 3) (o : BitVec 4) : ((0 : BitVec 5) ++ c ++ o).extractLsb' 4 3 = c :=
  (upper _ o 0 3).trans (low_of_append (0 : BitVec 5) c)
theorem imm_op (c : BitVec 3) (o : BitVec 4) : ((0 : BitVec 5) ++ c ++ o).extractLsb' 0 4 = o := low_of_append _ o
theorem amo_pack (y : AmoTy) : ((4 : BitVec 4) + ((0 : BitVec 1) ++ y.code) - 4).extractLsb' 0 3 = y.code := by
  cases y <;> decide
theorem amo_range (y : AmoTy) :
    ((4 : BitVec 4) + ((0 : BitVec 1) ++ y.code) < 4 ∨ 10 < (4 : BitVec 4) + ((0 : BitVec 1) ++ y.code)) = False := by
  cases y <;> decide
theorem carry_0 (c b a d : Bool) : (bit c ++ bit b ++ bit a ++ bit d).extractLsb' 0 1 = bit d := by
  cases c <;> cases b <;> cases a <;> cases d <;> decide
theorem carry_1 (c b a d : Bool) : (bit c ++ bit b ++ bit a ++ bit d).extractLsb' 1 1 = bit a := by
  cases c <;> cases b <;> cases a <;> cases d <;> decide
theorem carry_2 (c b a d : Bool) : (bit c ++ bit b ++ bit a ++ bit d).extractLsb' 2 1 = bit b := by
  cases c <;> cases b <;> cases a <;> cases d <;> decide
theorem carry_3 (c b a d : Bool) : (bit c ++ bit b ++ bit a ++ bit d).extractLsb' 3 1 = bit c := by
  cases c <;> cases b <;> cases a <;> cases d <;> decide

end Sys2Proof.Laws
end

