-- ==== Sys2Proof/Laws/Table.lean ====
section
/-!
SUPPORT. The laws of sparse tables and byte memory (Machine/Table.lean): what a key reads as after a write, and that
every operation keeps the canonical form.
-/
namespace Sys2Proof.Machine

-- What a key reads as --------------------------------------------------------------------------------------------------

theorem Tab.find_put {α : Type} (t : Tab α) (k j : Nat) (v : α) :
    Tab.find (Tab.put t k v) j = if j = k then some v else Tab.find t j := by
  induction t with
  | nil => simp [Tab.put, Tab.find]
  | cons e t ih =>
    obtain ⟨k', v'⟩ := e
    simp only [Tab.put]
    split
    · simp [Tab.find]
    · split
      · subst_vars
        simp only [Tab.find]
        split <;> rfl
      · simp only [Tab.find, ih]
        split <;> split <;> simp_all
@[simp] theorem Tab.get_put {α : Type} (d : α) (t : Tab α) (k j : Nat) (v : α) :
    Tab.get d (Tab.put t k v) j = if j = k then v else Tab.get d t j := by
  simp only [Tab.get, Tab.find_put]
  split <;> rfl
@[simp] theorem Tab.put_put {α : Type} (t : Tab α) (k : Nat) (v w : α) : Tab.put (Tab.put t k v) k w = Tab.put t k w := by
  induction t with
  | nil => simp [Tab.put]
  | cons e t ih =>
    obtain ⟨k', v'⟩ := e
    by_cases h : k < k'
    · simp [Tab.put, h]
    · by_cases g : k = k'
      · simp [Tab.put, g]
      · simp [Tab.put, h, g, ih]
theorem Tab.find_drop {α : Type} (t : Tab α) (k j : Nat) :
    Tab.find (Tab.drop t k) j = if j = k then none else Tab.find t j := by
  induction t with
  | nil => simp [Tab.drop, Tab.find]
  | cons e t ih =>
    obtain ⟨k', v'⟩ := e
    simp only [Tab.drop] at ih
    by_cases h : k' = k <;> by_cases g : j = k' <;> simp_all [Tab.drop, Tab.find]
@[simp] theorem Tab.get_drop {α : Type} (d : α) (t : Tab α) (k j : Nat) :
    Tab.get d (Tab.drop t k) j = if j = k then d else Tab.get d t j := by
  simp only [Tab.get, Tab.find_drop]
  split <;> rfl
@[simp] theorem Tab.get_set {α : Type} [DecidableEq α] (d : α) (t : Tab α) (k j : Nat) (v : α) :
    Tab.get d (Tab.set d t k v) j = if j = k then v else Tab.get d t j := by
  unfold Tab.set
  split <;> simp_all
@[simp] theorem Tab.get_nil {α : Type} (d : α) (j : Nat) : Tab.get d [] j = d := rfl

-- The canonical form ------------------------------------------------------------------------------------------------------

theorem Tab.sortedFrom_mono {α : Type} {t : Tab α} {m n : Nat} (h : Tab.sortedFrom n t = true) (l : m ≤ n) :
    Tab.sortedFrom m t = true := by
  cases t with
  | nil => rfl
  | cons e t =>
    simp only [Tab.sortedFrom, Bool.and_eq_true, decide_eq_true_eq] at *
    exact ⟨by omega, h.2⟩
theorem Tab.sortedFrom_put {α : Type} {t : Tab α} {n : Nat} (k : Nat) (v : α) (h : Tab.sortedFrom n t = true)
    (l : n ≤ k) : Tab.sortedFrom n (Tab.put t k v) = true := by
  induction t generalizing n with
  | nil => simpa [Tab.put, Tab.sortedFrom] using l
  | cons e t ih =>
    obtain ⟨k', v'⟩ := e
    simp only [Tab.sortedFrom, Bool.and_eq_true, decide_eq_true_eq] at h
    simp only [Tab.put]
    split
    · simp [Tab.sortedFrom, l, h.2]; omega
    · split
      · subst_vars
        simp [Tab.sortedFrom, l, h.2]
      · have := ih h.2 (by omega)
        simp [Tab.sortedFrom, h.1, this]
theorem Tab.sortedFrom_filter {α : Type} {t : Tab α} {n : Nat} (p : Nat × α → Bool) (h : Tab.sortedFrom n t = true) :
    Tab.sortedFrom n (t.filter p) = true := by
  induction t generalizing n with
  | nil => rfl
  | cons e t ih =>
    obtain ⟨k', v'⟩ := e
    simp only [Tab.sortedFrom, Bool.and_eq_true, decide_eq_true_eq] at h
    simp only [List.filter_cons]
    split
    · simp [Tab.sortedFrom, h.1, ih h.2]
    · exact Tab.sortedFrom_mono (ih h.2) (by omega)
theorem Tab.all_put {α : Type} {t : Tab α} (p : Nat × α → Bool) (k : Nat) (v : α) (h : t.all p = true)
    (e : p (k, v) = true) : (Tab.put t k v).all p = true := by
  induction t with
  | nil => simpa [Tab.put] using e
  | cons c t ih =>
    obtain ⟨k', v'⟩ := c
    simp only [List.all_cons, Bool.and_eq_true] at h
    simp only [Tab.put]
    split
    · simp [e, h.1, h.2]
    · split
      · simp only [List.all_cons, Bool.and_eq_true]; exact ⟨e, h.2⟩
      · simp only [List.all_cons, Bool.and_eq_true]; exact ⟨h.1, ih h.2⟩
theorem Tab.all_filter {α : Type} {t : List α} (p q : α → Bool) (h : t.all p = true) : (t.filter q).all p = true := by
  simp only [List.all_eq_true, List.mem_filter] at *
  exact fun x hx => h x hx.1
theorem Tab.wf_set {α : Type} [DecidableEq α] {d : α} {t : Tab α} (k : Nat) (v : α) (h : Tab.wf d t = true) :
    Tab.wf d (Tab.set d t k v) = true := by
  simp only [Tab.wf, Bool.and_eq_true] at *
  unfold Tab.set
  split
  · exact ⟨Tab.sortedFrom_filter _ h.1, Tab.all_filter _ _ h.2⟩
  · exact ⟨Tab.sortedFrom_put k v h.1 (by omega), Tab.all_put _ k v h.2 (by simpa using ‹¬v = d›)⟩

-- Byte memory ----------------------------------------------------------------------------------------------------------------

/-- A byte after a write: the byte written at its address, and every other byte as before. -/
@[simp] theorem Memory.read_write (m : List Host.Cell) (a b : Nat) (v : Byte) :
    Memory.read (Memory.write m a v) b = if b = a then v else Memory.read m b := Tab.get_set blank m a b v
theorem Memory.read_write_same (m : List Host.Cell) (a : Nat) (v : Byte) : Memory.read (Memory.write m a v) a = v := by simp
theorem Memory.read_write_other (m : List Host.Cell) {a b : Nat} (v : Byte) (h : b ≠ a) :
    Memory.read (Memory.write m a v) b = Memory.read m b := by simp [h]
@[simp] theorem Memory.read_nil (a : Nat) : Memory.read [] a = blank := rfl
theorem Memory.wf_nil : Memory.wf [] = true := rfl
theorem Memory.wf_write {m : List Host.Cell} (a : Nat) (v : Byte) (h : Memory.wf m = true) :
    Memory.wf (Memory.write m a v) = true := Tab.wf_set a v h
theorem Memory.wf_writeN {m : List Host.Cell} (a : Nat) (bs : List Byte) (h : Memory.wf m = true) :
    Memory.wf (Memory.writeN m a bs) = true := by
  induction bs generalizing m a with
  | nil => exact h
  | cons b bs ih => exact ih (a + 1) (Memory.wf_write a b h)
theorem Memory.wf_writeCells {m : List Host.Cell} (cs : List Host.Cell) (h : Memory.wf m = true) :
    Memory.wf (Memory.writeCells m cs) = true := by
  induction cs generalizing m with
  | nil => exact h
  | cons c cs ih => exact ih (Memory.wf_write c.1 c.2 h)
/-- Bytes put back to blank, as a cluster does with bytes no copy holds any more. -/
theorem Memory.wf_erase {m : List Host.Cell} (as : List Nat) (h : Memory.wf m = true) :
    Memory.wf (as.foldl (fun m a => Memory.write m a blank) m) = true := by
  induction as generalizing m with
  | nil => exact h
  | cons a as ih => exact ih (Memory.wf_write a blank h)
/-- Outside the bytes written, memory reads as before. -/
theorem Memory.read_writeN_outside (m : List Host.Cell) (a b : Nat) (bs : List Byte) (h : b < a ∨ a + bs.length ≤ b) :
    Memory.read (Memory.writeN m a bs) b = Memory.read m b := by
  induction bs generalizing m a with
  | nil => rfl
  | cons v bs ih =>
    simp only [List.length_cons] at h
    simp only [Memory.writeN]
    rw [ih _ _ (by omega), Memory.read_write, if_neg (by omega)]
/-- The bytes written read back. -/
theorem Memory.read_writeN_inside (m : List Host.Cell) (a i : Nat) (bs : List Byte) (h : i < bs.length) :
    Memory.read (Memory.writeN m a bs) (a + i) = bs[i] := by
  induction bs generalizing m a i with
  | nil => simp at h
  | cons v bs ih =>
    simp only [Memory.writeN]
    cases i with
    | zero => rw [Memory.read_writeN_outside _ _ _ _ (by omega)]; simp
    | succ i =>
      simp only [List.length_cons] at h
      have := ih (Memory.write m a v) (a + 1) i (by omega)
      rw [show a + (i + 1) = a + 1 + i by omega, this]
      rfl
theorem Memory.read_writeCells_outside (m cs : List Host.Cell) (b : Nat) (h : ∀ c ∈ cs, c.1 ≠ b) :
    Memory.read (Memory.writeCells m cs) b = Memory.read m b := by
  induction cs generalizing m with
  | nil => rfl
  | cons c cs ih =>
    simp only [Memory.writeCells]
    rw [ih _ fun x hx => h x (List.mem_cons_of_mem _ hx), Memory.read_write,
      if_neg fun e => h c (List.mem_cons_self ..) e.symm]
/-- A read of n bytes is the list of its bytes. -/
theorem Memory.readN_eq (m : List Host.Cell) (a n : Nat) :
    Memory.readN m a n = (List.range n).map fun i => Memory.read m (a + i) := by
  induction n generalizing a with
  | zero => rfl
  | succ n ih =>
    simp only [Memory.readN, ih, List.range_succ_eq_map, List.map_cons, List.map_map, Nat.add_zero]
    congr 1
    exact List.map_congr_left fun i _ => by simp only [Function.comp]; congr 1; omega
@[simp] theorem Memory.readN_length (m : List Host.Cell) (a n : Nat) : (Memory.readN m a n).length = n := by
  simp [Memory.readN_eq]

end Sys2Proof.Machine
end

