-- ==== Sys2Proof/Laws/State.lean ====
section
/-!
SUPPORT. The laws of the updates of State.lean and Access.lean: one lemma per field per update. Tables and
memory have theirs in Laws/Table.lean.
-/
namespace Sys2Proof.Machine

-- The parts of the state -------------------------------------------------------------------------------------------------


@[simp] theorem State.setHart_agenda (s : State) (h : Nat) (v : Hart) : (s.setHart h v).agenda = s.agenda := rfl
@[simp] theorem State.setHart_cur (s : State) (h : Nat) (v : Hart) : (s.setHart h v).cur = s.cur := rfl
@[simp] theorem State.setHart_now (s : State) (h : Nat) (v : Hart) : (s.setHart h v).now = s.now := rfl
@[simp] theorem State.setHart_draws (s : State) (h : Nat) (v : Hart) : (s.setHart h v).draws = s.draws := rfl
@[simp] theorem State.setHart_harts (s : State) (h : Nat) (v : Hart) : (s.setHart h v).harts = Tab.put s.harts h v := rfl
@[simp] theorem State.setHart_cores (s : State) (h : Nat) (v : Hart) : (s.setHart h v).cores = s.cores := rfl
@[simp] theorem State.setHart_clusters (s : State) (h : Nat) (v : Hart) : (s.setHart h v).clusters = s.clusters := rfl
@[simp] theorem State.setHart_dies (s : State) (h : Nat) (v : Hart) : (s.setHart h v).dies = s.dies := rfl
@[simp] theorem State.setHart_baseDies (s : State) (h : Nat) (v : Hart) : (s.setHart h v).baseDies = s.baseDies := rfl
@[simp] theorem State.setHart_cxl (s : State) (h : Nat) (v : Hart) : (s.setHart h v).cxl = s.cxl := rfl
@[simp] theorem State.setHart_cenel (s : State) (h : Nat) (v : Hart) : (s.setHart h v).cenel = s.cenel := rfl
@[simp] theorem State.setHart_dieNet (s : State) (h : Nat) (v : Hart) : (s.setHart h v).dieNet = s.dieNet := rfl
@[simp] theorem State.setHart_eth (s : State) (h : Nat) (v : Hart) : (s.setHart h v).eth = s.eth := rfl
@[simp] theorem State.setHart_qps (s : State) (h : Nat) (v : Hart) : (s.setHart h v).qps = s.qps := rfl
@[simp] theorem State.setHart_peers (s : State) (h : Nat) (v : Hart) : (s.setHart h v).peers = s.peers := rfl
@[simp] theorem State.setHart_mem (s : State) (h : Nat) (v : Hart) : (s.setHart h v).mem = s.mem := rfl
@[simp] theorem State.setHart_poison (s : State) (h : Nat) (v : Hart) : (s.setHart h v).poison = s.poison := rfl
@[simp] theorem State.setHart_drains (s : State) (h : Nat) (v : Hart) : (s.setHart h v).drains = s.drains := rfl
@[simp] theorem State.setHart_tinv (s : State) (h : Nat) (v : Hart) : (s.setHart h v).tinv = s.tinv := rfl
@[simp] theorem State.setHart_streams (s : State) (h : Nat) (v : Hart) : (s.setHart h v).streams = s.streams := rfl
@[simp] theorem State.setHart_counters (s : State) (h : Nat) (v : Hart) : (s.setHart h v).counters = s.counters := rfl
@[simp] theorem State.setHart_lastRead (s : State) (h : Nat) (v : Hart) : (s.setHart h v).lastRead = s.lastRead := rfl
@[simp] theorem State.setHart_ctbase (s : State) (h : Nat) (v : Hart) : (s.setHart h v).ctbase = s.ctbase := rfl
@[simp] theorem State.setHart_cnloss (s : State) (h : Nat) (v : Hart) : (s.setHart h v).cnloss = s.cnloss := rfl
@[simp] theorem State.setHart_seqs (s : State) (h : Nat) (v : Hart) : (s.setHart h v).seqs = s.seqs := rfl
@[simp] theorem State.setHart_halts (s : State) (h : Nat) (v : Hart) : (s.setHart h v).halts = s.halts := rfl
@[simp] theorem State.setHart_stopBase (s : State) (h : Nat) (v : Hart) : (s.setHart h v).stopBase = s.stopBase := rfl
@[simp] theorem State.setHart_tenantTable (s : State) (h : Nat) (v : Hart) : (s.setHart h v).tenantTable = s.tenantTable := rfl
@[simp] theorem State.setHart_mgmt (s : State) (h : Nat) (v : Hart) : (s.setHart h v).mgmt = s.mgmt := rfl
@[simp] theorem State.setHart_timePort (s : State) (h : Nat) (v : Hart) : (s.setHart h v).timePort = s.timePort := rfl
@[simp] theorem State.setHart_slewAt (s : State) (h : Nat) (v : Hart) : (s.setHart h v).slewAt = s.slewAt := rfl
@[simp] theorem State.setHart_slew (s : State) (h : Nat) (v : Hart) : (s.setHart h v).slew = s.slew := rfl
@[simp] theorem State.setHart_bootReports (s : State) (h : Nat) (v : Hart) : (s.setHart h v).bootReports = s.bootReports := rfl
@[simp] theorem State.setHart_sent (s : State) (h : Nat) (v : Hart) : (s.setHart h v).sent = s.sent := rfl
@[simp] theorem State.setHart_cnWrite (s : State) (h : Nat) (v : Hart) : (s.setHart h v).cnWrite = s.cnWrite := rfl
@[simp] theorem State.setHart_selWrite (s : State) (h : Nat) (v : Hart) : (s.setHart h v).selWrite = s.selWrite := rfl
@[simp] theorem State.setHart_cxlPages (s : State) (h : Nat) (v : Hart) : (s.setHart h v).cxlPages = s.cxlPages := rfl
@[simp] theorem State.setHart_takes (s : State) (h : Nat) (v : Hart) : (s.setHart h v).takes = s.takes := rfl
@[simp] theorem State.setHart_lists (s : State) (h : Nat) (v : Hart) : (s.setHart h v).lists = s.lists := rfl
@[simp] theorem State.setHart_supervisor (s : State) (h : Nat) (v : Hart) : (s.setHart h v).supervisor = s.supervisor := rfl
@[simp] theorem State.setHart_image (s : State) (h : Nat) (v : Hart) : (s.setHart h v).image = s.image := rfl
@[simp] theorem State.setHart_gangs (s : State) (h : Nat) (v : Hart) : (s.setHart h v).gangs = s.gangs := rfl
@[simp] theorem State.setHart_nextGang (s : State) (h : Nat) (v : Hart) : (s.setHart h v).nextGang = s.nextGang := rfl
@[simp] theorem State.setHart_nextCopy (s : State) (h : Nat) (v : Hart) : (s.setHart h v).nextCopy = s.nextCopy := rfl
@[simp] theorem State.setHart_jcidx (s : State) (h : Nat) (v : Hart) : (s.setHart h v).jcidx = s.jcidx := rfl
@[simp] theorem State.setHart_journals (s : State) (h : Nat) (v : Hart) : (s.setHart h v).journals = s.journals := rfl
@[simp] theorem State.setHart_quotes (s : State) (h : Nat) (v : Hart) : (s.setHart h v).quotes = s.quotes := rfl
@[simp] theorem State.setHart_hostData (s : State) (h : Nat) (v : Hart) : (s.setHart h v).hostData = s.hostData := rfl
@[simp] theorem State.setHart_hostPoison (s : State) (h : Nat) (v : Hart) : (s.setHart h v).hostPoison = s.hostPoison := rfl
@[simp] theorem State.setHart_poweredDown (s : State) (h : Nat) (v : Hart) : (s.setHart h v).poweredDown = s.poweredDown := rfl
@[simp] theorem State.setHart_core (s : State) (h : Nat) (v : Hart) (j : Nat) : (s.setHart h v).core j = s.core j := rfl
@[simp] theorem State.setHart_cluster (s : State) (h : Nat) (v : Hart) (j : Nat) : (s.setHart h v).cluster j = s.cluster j := rfl
@[simp] theorem State.setHart_die (s : State) (h : Nat) (v : Hart) (j : Nat) : (s.setHart h v).die j = s.die j := rfl
@[simp] theorem State.setHart_stack (s : State) (h : Nat) (v : Hart) (j : Nat) : (s.setHart h v).stack j = s.stack j := rfl
@[simp] theorem State.setHart_stream (s : State) (h : Nat) (v : Hart) (j : Nat) : (s.setHart h v).stream j = s.stream j := rfl
@[simp] theorem State.setHart_journal (s : State) (h : Nat) (v : Hart) (j : Nat) : (s.setHart h v).journal j = s.journal j := rfl

@[simp] theorem State.setCore_agenda (s : State) (c : Nat) (v : Core) : (s.setCore c v).agenda = s.agenda := rfl
@[simp] theorem State.setCore_cur (s : State) (c : Nat) (v : Core) : (s.setCore c v).cur = s.cur := rfl
@[simp] theorem State.setCore_now (s : State) (c : Nat) (v : Core) : (s.setCore c v).now = s.now := rfl
@[simp] theorem State.setCore_draws (s : State) (c : Nat) (v : Core) : (s.setCore c v).draws = s.draws := rfl
@[simp] theorem State.setCore_harts (s : State) (c : Nat) (v : Core) : (s.setCore c v).harts = s.harts := rfl
@[simp] theorem State.setCore_cores (s : State) (c : Nat) (v : Core) : (s.setCore c v).cores = Tab.put s.cores c v := rfl
@[simp] theorem State.setCore_clusters (s : State) (c : Nat) (v : Core) : (s.setCore c v).clusters = s.clusters := rfl
@[simp] theorem State.setCore_dies (s : State) (c : Nat) (v : Core) : (s.setCore c v).dies = s.dies := rfl
@[simp] theorem State.setCore_baseDies (s : State) (c : Nat) (v : Core) : (s.setCore c v).baseDies = s.baseDies := rfl
@[simp] theorem State.setCore_cxl (s : State) (c : Nat) (v : Core) : (s.setCore c v).cxl = s.cxl := rfl
@[simp] theorem State.setCore_cenel (s : State) (c : Nat) (v : Core) : (s.setCore c v).cenel = s.cenel := rfl
@[simp] theorem State.setCore_dieNet (s : State) (c : Nat) (v : Core) : (s.setCore c v).dieNet = s.dieNet := rfl
@[simp] theorem State.setCore_eth (s : State) (c : Nat) (v : Core) : (s.setCore c v).eth = s.eth := rfl
@[simp] theorem State.setCore_qps (s : State) (c : Nat) (v : Core) : (s.setCore c v).qps = s.qps := rfl
@[simp] theorem State.setCore_peers (s : State) (c : Nat) (v : Core) : (s.setCore c v).peers = s.peers := rfl
@[simp] theorem State.setCore_mem (s : State) (c : Nat) (v : Core) : (s.setCore c v).mem = s.mem := rfl
@[simp] theorem State.setCore_poison (s : State) (c : Nat) (v : Core) : (s.setCore c v).poison = s.poison := rfl
@[simp] theorem State.setCore_drains (s : State) (c : Nat) (v : Core) : (s.setCore c v).drains = s.drains := rfl
@[simp] theorem State.setCore_tinv (s : State) (c : Nat) (v : Core) : (s.setCore c v).tinv = s.tinv := rfl
@[simp] theorem State.setCore_streams (s : State) (c : Nat) (v : Core) : (s.setCore c v).streams = s.streams := rfl
@[simp] theorem State.setCore_counters (s : State) (c : Nat) (v : Core) : (s.setCore c v).counters = s.counters := rfl
@[simp] theorem State.setCore_lastRead (s : State) (c : Nat) (v : Core) : (s.setCore c v).lastRead = s.lastRead := rfl
@[simp] theorem State.setCore_ctbase (s : State) (c : Nat) (v : Core) : (s.setCore c v).ctbase = s.ctbase := rfl
@[simp] theorem State.setCore_cnloss (s : State) (c : Nat) (v : Core) : (s.setCore c v).cnloss = s.cnloss := rfl
@[simp] theorem State.setCore_seqs (s : State) (c : Nat) (v : Core) : (s.setCore c v).seqs = s.seqs := rfl
@[simp] theorem State.setCore_halts (s : State) (c : Nat) (v : Core) : (s.setCore c v).halts = s.halts := rfl
@[simp] theorem State.setCore_stopBase (s : State) (c : Nat) (v : Core) : (s.setCore c v).stopBase = s.stopBase := rfl
@[simp] theorem State.setCore_tenantTable (s : State) (c : Nat) (v : Core) : (s.setCore c v).tenantTable = s.tenantTable := rfl
@[simp] theorem State.setCore_mgmt (s : State) (c : Nat) (v : Core) : (s.setCore c v).mgmt = s.mgmt := rfl
@[simp] theorem State.setCore_timePort (s : State) (c : Nat) (v : Core) : (s.setCore c v).timePort = s.timePort := rfl
@[simp] theorem State.setCore_slewAt (s : State) (c : Nat) (v : Core) : (s.setCore c v).slewAt = s.slewAt := rfl
@[simp] theorem State.setCore_slew (s : State) (c : Nat) (v : Core) : (s.setCore c v).slew = s.slew := rfl
@[simp] theorem State.setCore_bootReports (s : State) (c : Nat) (v : Core) : (s.setCore c v).bootReports = s.bootReports := rfl
@[simp] theorem State.setCore_sent (s : State) (c : Nat) (v : Core) : (s.setCore c v).sent = s.sent := rfl
@[simp] theorem State.setCore_cnWrite (s : State) (c : Nat) (v : Core) : (s.setCore c v).cnWrite = s.cnWrite := rfl
@[simp] theorem State.setCore_selWrite (s : State) (c : Nat) (v : Core) : (s.setCore c v).selWrite = s.selWrite := rfl
@[simp] theorem State.setCore_cxlPages (s : State) (c : Nat) (v : Core) : (s.setCore c v).cxlPages = s.cxlPages := rfl
@[simp] theorem State.setCore_takes (s : State) (c : Nat) (v : Core) : (s.setCore c v).takes = s.takes := rfl
@[simp] theorem State.setCore_lists (s : State) (c : Nat) (v : Core) : (s.setCore c v).lists = s.lists := rfl
@[simp] theorem State.setCore_supervisor (s : State) (c : Nat) (v : Core) : (s.setCore c v).supervisor = s.supervisor := rfl
@[simp] theorem State.setCore_image (s : State) (c : Nat) (v : Core) : (s.setCore c v).image = s.image := rfl
@[simp] theorem State.setCore_gangs (s : State) (c : Nat) (v : Core) : (s.setCore c v).gangs = s.gangs := rfl
@[simp] theorem State.setCore_nextGang (s : State) (c : Nat) (v : Core) : (s.setCore c v).nextGang = s.nextGang := rfl
@[simp] theorem State.setCore_nextCopy (s : State) (c : Nat) (v : Core) : (s.setCore c v).nextCopy = s.nextCopy := rfl
@[simp] theorem State.setCore_jcidx (s : State) (c : Nat) (v : Core) : (s.setCore c v).jcidx = s.jcidx := rfl
@[simp] theorem State.setCore_journals (s : State) (c : Nat) (v : Core) : (s.setCore c v).journals = s.journals := rfl
@[simp] theorem State.setCore_quotes (s : State) (c : Nat) (v : Core) : (s.setCore c v).quotes = s.quotes := rfl
@[simp] theorem State.setCore_hostData (s : State) (c : Nat) (v : Core) : (s.setCore c v).hostData = s.hostData := rfl
@[simp] theorem State.setCore_hostPoison (s : State) (c : Nat) (v : Core) : (s.setCore c v).hostPoison = s.hostPoison := rfl
@[simp] theorem State.setCore_poweredDown (s : State) (c : Nat) (v : Core) : (s.setCore c v).poweredDown = s.poweredDown := rfl
@[simp] theorem State.setCore_hart (s : State) (c : Nat) (v : Core) (j : Nat) : (s.setCore c v).hart j = s.hart j := rfl
@[simp] theorem State.setCore_cluster (s : State) (c : Nat) (v : Core) (j : Nat) : (s.setCore c v).cluster j = s.cluster j := rfl
@[simp] theorem State.setCore_die (s : State) (c : Nat) (v : Core) (j : Nat) : (s.setCore c v).die j = s.die j := rfl
@[simp] theorem State.setCore_stack (s : State) (c : Nat) (v : Core) (j : Nat) : (s.setCore c v).stack j = s.stack j := rfl
@[simp] theorem State.setCore_stream (s : State) (c : Nat) (v : Core) (j : Nat) : (s.setCore c v).stream j = s.stream j := rfl
@[simp] theorem State.setCore_journal (s : State) (c : Nat) (v : Core) (j : Nat) : (s.setCore c v).journal j = s.journal j := rfl

@[simp] theorem State.setCluster_agenda (s : State) (k : Nat) (v : Cluster) : (s.setCluster k v).agenda = s.agenda := rfl
@[simp] theorem State.setCluster_cur (s : State) (k : Nat) (v : Cluster) : (s.setCluster k v).cur = s.cur := rfl
@[simp] theorem State.setCluster_now (s : State) (k : Nat) (v : Cluster) : (s.setCluster k v).now = s.now := rfl
@[simp] theorem State.setCluster_draws (s : State) (k : Nat) (v : Cluster) : (s.setCluster k v).draws = s.draws := rfl
@[simp] theorem State.setCluster_harts (s : State) (k : Nat) (v : Cluster) : (s.setCluster k v).harts = s.harts := rfl
@[simp] theorem State.setCluster_cores (s : State) (k : Nat) (v : Cluster) : (s.setCluster k v).cores = s.cores := rfl
@[simp] theorem State.setCluster_clusters (s : State) (k : Nat) (v : Cluster) : (s.setCluster k v).clusters = Tab.put s.clusters k v := rfl
@[simp] theorem State.setCluster_dies (s : State) (k : Nat) (v : Cluster) : (s.setCluster k v).dies = s.dies := rfl
@[simp] theorem State.setCluster_baseDies (s : State) (k : Nat) (v : Cluster) : (s.setCluster k v).baseDies = s.baseDies := rfl
@[simp] theorem State.setCluster_cxl (s : State) (k : Nat) (v : Cluster) : (s.setCluster k v).cxl = s.cxl := rfl
@[simp] theorem State.setCluster_cenel (s : State) (k : Nat) (v : Cluster) : (s.setCluster k v).cenel = s.cenel := rfl
@[simp] theorem State.setCluster_dieNet (s : State) (k : Nat) (v : Cluster) : (s.setCluster k v).dieNet = s.dieNet := rfl
@[simp] theorem State.setCluster_eth (s : State) (k : Nat) (v : Cluster) : (s.setCluster k v).eth = s.eth := rfl
@[simp] theorem State.setCluster_qps (s : State) (k : Nat) (v : Cluster) : (s.setCluster k v).qps = s.qps := rfl
@[simp] theorem State.setCluster_peers (s : State) (k : Nat) (v : Cluster) : (s.setCluster k v).peers = s.peers := rfl
@[simp] theorem State.setCluster_mem (s : State) (k : Nat) (v : Cluster) : (s.setCluster k v).mem = s.mem := rfl
@[simp] theorem State.setCluster_poison (s : State) (k : Nat) (v : Cluster) : (s.setCluster k v).poison = s.poison := rfl
@[simp] theorem State.setCluster_drains (s : State) (k : Nat) (v : Cluster) : (s.setCluster k v).drains = s.drains := rfl
@[simp] theorem State.setCluster_tinv (s : State) (k : Nat) (v : Cluster) : (s.setCluster k v).tinv = s.tinv := rfl
@[simp] theorem State.setCluster_streams (s : State) (k : Nat) (v : Cluster) : (s.setCluster k v).streams = s.streams := rfl
@[simp] theorem State.setCluster_counters (s : State) (k : Nat) (v : Cluster) : (s.setCluster k v).counters = s.counters := rfl
@[simp] theorem State.setCluster_lastRead (s : State) (k : Nat) (v : Cluster) : (s.setCluster k v).lastRead = s.lastRead := rfl
@[simp] theorem State.setCluster_ctbase (s : State) (k : Nat) (v : Cluster) : (s.setCluster k v).ctbase = s.ctbase := rfl
@[simp] theorem State.setCluster_cnloss (s : State) (k : Nat) (v : Cluster) : (s.setCluster k v).cnloss = s.cnloss := rfl
@[simp] theorem State.setCluster_seqs (s : State) (k : Nat) (v : Cluster) : (s.setCluster k v).seqs = s.seqs := rfl
@[simp] theorem State.setCluster_halts (s : State) (k : Nat) (v : Cluster) : (s.setCluster k v).halts = s.halts := rfl
@[simp] theorem State.setCluster_stopBase (s : State) (k : Nat) (v : Cluster) : (s.setCluster k v).stopBase = s.stopBase := rfl
@[simp] theorem State.setCluster_tenantTable (s : State) (k : Nat) (v : Cluster) : (s.setCluster k v).tenantTable = s.tenantTable := rfl
@[simp] theorem State.setCluster_mgmt (s : State) (k : Nat) (v : Cluster) : (s.setCluster k v).mgmt = s.mgmt := rfl
@[simp] theorem State.setCluster_timePort (s : State) (k : Nat) (v : Cluster) : (s.setCluster k v).timePort = s.timePort := rfl
@[simp] theorem State.setCluster_slewAt (s : State) (k : Nat) (v : Cluster) : (s.setCluster k v).slewAt = s.slewAt := rfl
@[simp] theorem State.setCluster_slew (s : State) (k : Nat) (v : Cluster) : (s.setCluster k v).slew = s.slew := rfl
@[simp] theorem State.setCluster_bootReports (s : State) (k : Nat) (v : Cluster) : (s.setCluster k v).bootReports = s.bootReports := rfl
@[simp] theorem State.setCluster_sent (s : State) (k : Nat) (v : Cluster) : (s.setCluster k v).sent = s.sent := rfl
@[simp] theorem State.setCluster_cnWrite (s : State) (k : Nat) (v : Cluster) : (s.setCluster k v).cnWrite = s.cnWrite := rfl
@[simp] theorem State.setCluster_selWrite (s : State) (k : Nat) (v : Cluster) : (s.setCluster k v).selWrite = s.selWrite := rfl
@[simp] theorem State.setCluster_cxlPages (s : State) (k : Nat) (v : Cluster) : (s.setCluster k v).cxlPages = s.cxlPages := rfl
@[simp] theorem State.setCluster_takes (s : State) (k : Nat) (v : Cluster) : (s.setCluster k v).takes = s.takes := rfl
@[simp] theorem State.setCluster_lists (s : State) (k : Nat) (v : Cluster) : (s.setCluster k v).lists = s.lists := rfl
@[simp] theorem State.setCluster_supervisor (s : State) (k : Nat) (v : Cluster) : (s.setCluster k v).supervisor = s.supervisor := rfl
@[simp] theorem State.setCluster_image (s : State) (k : Nat) (v : Cluster) : (s.setCluster k v).image = s.image := rfl
@[simp] theorem State.setCluster_gangs (s : State) (k : Nat) (v : Cluster) : (s.setCluster k v).gangs = s.gangs := rfl
@[simp] theorem State.setCluster_nextGang (s : State) (k : Nat) (v : Cluster) : (s.setCluster k v).nextGang = s.nextGang := rfl
@[simp] theorem State.setCluster_nextCopy (s : State) (k : Nat) (v : Cluster) : (s.setCluster k v).nextCopy = s.nextCopy := rfl
@[simp] theorem State.setCluster_jcidx (s : State) (k : Nat) (v : Cluster) : (s.setCluster k v).jcidx = s.jcidx := rfl
@[simp] theorem State.setCluster_journals (s : State) (k : Nat) (v : Cluster) : (s.setCluster k v).journals = s.journals := rfl
@[simp] theorem State.setCluster_quotes (s : State) (k : Nat) (v : Cluster) : (s.setCluster k v).quotes = s.quotes := rfl
@[simp] theorem State.setCluster_hostData (s : State) (k : Nat) (v : Cluster) : (s.setCluster k v).hostData = s.hostData := rfl
@[simp] theorem State.setCluster_hostPoison (s : State) (k : Nat) (v : Cluster) : (s.setCluster k v).hostPoison = s.hostPoison := rfl
@[simp] theorem State.setCluster_poweredDown (s : State) (k : Nat) (v : Cluster) : (s.setCluster k v).poweredDown = s.poweredDown := rfl
@[simp] theorem State.setCluster_hart (s : State) (k : Nat) (v : Cluster) (j : Nat) : (s.setCluster k v).hart j = s.hart j := rfl
@[simp] theorem State.setCluster_core (s : State) (k : Nat) (v : Cluster) (j : Nat) : (s.setCluster k v).core j = s.core j := rfl
@[simp] theorem State.setCluster_die (s : State) (k : Nat) (v : Cluster) (j : Nat) : (s.setCluster k v).die j = s.die j := rfl
@[simp] theorem State.setCluster_stack (s : State) (k : Nat) (v : Cluster) (j : Nat) : (s.setCluster k v).stack j = s.stack j := rfl
@[simp] theorem State.setCluster_stream (s : State) (k : Nat) (v : Cluster) (j : Nat) : (s.setCluster k v).stream j = s.stream j := rfl
@[simp] theorem State.setCluster_journal (s : State) (k : Nat) (v : Cluster) (j : Nat) : (s.setCluster k v).journal j = s.journal j := rfl

@[simp] theorem State.setDie_agenda (s : State) (d : Nat) (v : Die) : (s.setDie d v).agenda = s.agenda := rfl
@[simp] theorem State.setDie_cur (s : State) (d : Nat) (v : Die) : (s.setDie d v).cur = s.cur := rfl
@[simp] theorem State.setDie_now (s : State) (d : Nat) (v : Die) : (s.setDie d v).now = s.now := rfl
@[simp] theorem State.setDie_draws (s : State) (d : Nat) (v : Die) : (s.setDie d v).draws = s.draws := rfl
@[simp] theorem State.setDie_harts (s : State) (d : Nat) (v : Die) : (s.setDie d v).harts = s.harts := rfl
@[simp] theorem State.setDie_cores (s : State) (d : Nat) (v : Die) : (s.setDie d v).cores = s.cores := rfl
@[simp] theorem State.setDie_clusters (s : State) (d : Nat) (v : Die) : (s.setDie d v).clusters = s.clusters := rfl
@[simp] theorem State.setDie_dies (s : State) (d : Nat) (v : Die) : (s.setDie d v).dies = Tab.put s.dies d v := rfl
@[simp] theorem State.setDie_baseDies (s : State) (d : Nat) (v : Die) : (s.setDie d v).baseDies = s.baseDies := rfl
@[simp] theorem State.setDie_cxl (s : State) (d : Nat) (v : Die) : (s.setDie d v).cxl = s.cxl := rfl
@[simp] theorem State.setDie_cenel (s : State) (d : Nat) (v : Die) : (s.setDie d v).cenel = s.cenel := rfl
@[simp] theorem State.setDie_dieNet (s : State) (d : Nat) (v : Die) : (s.setDie d v).dieNet = s.dieNet := rfl
@[simp] theorem State.setDie_eth (s : State) (d : Nat) (v : Die) : (s.setDie d v).eth = s.eth := rfl
@[simp] theorem State.setDie_qps (s : State) (d : Nat) (v : Die) : (s.setDie d v).qps = s.qps := rfl
@[simp] theorem State.setDie_peers (s : State) (d : Nat) (v : Die) : (s.setDie d v).peers = s.peers := rfl
@[simp] theorem State.setDie_mem (s : State) (d : Nat) (v : Die) : (s.setDie d v).mem = s.mem := rfl
@[simp] theorem State.setDie_poison (s : State) (d : Nat) (v : Die) : (s.setDie d v).poison = s.poison := rfl
@[simp] theorem State.setDie_drains (s : State) (d : Nat) (v : Die) : (s.setDie d v).drains = s.drains := rfl
@[simp] theorem State.setDie_tinv (s : State) (d : Nat) (v : Die) : (s.setDie d v).tinv = s.tinv := rfl
@[simp] theorem State.setDie_streams (s : State) (d : Nat) (v : Die) : (s.setDie d v).streams = s.streams := rfl
@[simp] theorem State.setDie_counters (s : State) (d : Nat) (v : Die) : (s.setDie d v).counters = s.counters := rfl
@[simp] theorem State.setDie_lastRead (s : State) (d : Nat) (v : Die) : (s.setDie d v).lastRead = s.lastRead := rfl
@[simp] theorem State.setDie_ctbase (s : State) (d : Nat) (v : Die) : (s.setDie d v).ctbase = s.ctbase := rfl
@[simp] theorem State.setDie_cnloss (s : State) (d : Nat) (v : Die) : (s.setDie d v).cnloss = s.cnloss := rfl
@[simp] theorem State.setDie_seqs (s : State) (d : Nat) (v : Die) : (s.setDie d v).seqs = s.seqs := rfl
@[simp] theorem State.setDie_halts (s : State) (d : Nat) (v : Die) : (s.setDie d v).halts = s.halts := rfl
@[simp] theorem State.setDie_stopBase (s : State) (d : Nat) (v : Die) : (s.setDie d v).stopBase = s.stopBase := rfl
@[simp] theorem State.setDie_tenantTable (s : State) (d : Nat) (v : Die) : (s.setDie d v).tenantTable = s.tenantTable := rfl
@[simp] theorem State.setDie_mgmt (s : State) (d : Nat) (v : Die) : (s.setDie d v).mgmt = s.mgmt := rfl
@[simp] theorem State.setDie_timePort (s : State) (d : Nat) (v : Die) : (s.setDie d v).timePort = s.timePort := rfl
@[simp] theorem State.setDie_slewAt (s : State) (d : Nat) (v : Die) : (s.setDie d v).slewAt = s.slewAt := rfl
@[simp] theorem State.setDie_slew (s : State) (d : Nat) (v : Die) : (s.setDie d v).slew = s.slew := rfl
@[simp] theorem State.setDie_bootReports (s : State) (d : Nat) (v : Die) : (s.setDie d v).bootReports = s.bootReports := rfl
@[simp] theorem State.setDie_sent (s : State) (d : Nat) (v : Die) : (s.setDie d v).sent = s.sent := rfl
@[simp] theorem State.setDie_cnWrite (s : State) (d : Nat) (v : Die) : (s.setDie d v).cnWrite = s.cnWrite := rfl
@[simp] theorem State.setDie_selWrite (s : State) (d : Nat) (v : Die) : (s.setDie d v).selWrite = s.selWrite := rfl
@[simp] theorem State.setDie_cxlPages (s : State) (d : Nat) (v : Die) : (s.setDie d v).cxlPages = s.cxlPages := rfl
@[simp] theorem State.setDie_takes (s : State) (d : Nat) (v : Die) : (s.setDie d v).takes = s.takes := rfl
@[simp] theorem State.setDie_lists (s : State) (d : Nat) (v : Die) : (s.setDie d v).lists = s.lists := rfl
@[simp] theorem State.setDie_supervisor (s : State) (d : Nat) (v : Die) : (s.setDie d v).supervisor = s.supervisor := rfl
@[simp] theorem State.setDie_image (s : State) (d : Nat) (v : Die) : (s.setDie d v).image = s.image := rfl
@[simp] theorem State.setDie_gangs (s : State) (d : Nat) (v : Die) : (s.setDie d v).gangs = s.gangs := rfl
@[simp] theorem State.setDie_nextGang (s : State) (d : Nat) (v : Die) : (s.setDie d v).nextGang = s.nextGang := rfl
@[simp] theorem State.setDie_nextCopy (s : State) (d : Nat) (v : Die) : (s.setDie d v).nextCopy = s.nextCopy := rfl
@[simp] theorem State.setDie_jcidx (s : State) (d : Nat) (v : Die) : (s.setDie d v).jcidx = s.jcidx := rfl
@[simp] theorem State.setDie_journals (s : State) (d : Nat) (v : Die) : (s.setDie d v).journals = s.journals := rfl
@[simp] theorem State.setDie_quotes (s : State) (d : Nat) (v : Die) : (s.setDie d v).quotes = s.quotes := rfl
@[simp] theorem State.setDie_hostData (s : State) (d : Nat) (v : Die) : (s.setDie d v).hostData = s.hostData := rfl
@[simp] theorem State.setDie_hostPoison (s : State) (d : Nat) (v : Die) : (s.setDie d v).hostPoison = s.hostPoison := rfl
@[simp] theorem State.setDie_poweredDown (s : State) (d : Nat) (v : Die) : (s.setDie d v).poweredDown = s.poweredDown := rfl
@[simp] theorem State.setDie_hart (s : State) (d : Nat) (v : Die) (j : Nat) : (s.setDie d v).hart j = s.hart j := rfl
@[simp] theorem State.setDie_core (s : State) (d : Nat) (v : Die) (j : Nat) : (s.setDie d v).core j = s.core j := rfl
@[simp] theorem State.setDie_cluster (s : State) (d : Nat) (v : Die) (j : Nat) : (s.setDie d v).cluster j = s.cluster j := rfl
@[simp] theorem State.setDie_stack (s : State) (d : Nat) (v : Die) (j : Nat) : (s.setDie d v).stack j = s.stack j := rfl
@[simp] theorem State.setDie_stream (s : State) (d : Nat) (v : Die) (j : Nat) : (s.setDie d v).stream j = s.stream j := rfl
@[simp] theorem State.setDie_journal (s : State) (d : Nat) (v : Die) (j : Nat) : (s.setDie d v).journal j = s.journal j := rfl

@[simp] theorem State.setStack_agenda (s : State) (n : Nat) (v : Stack) : (s.setStack n v).agenda = s.agenda := rfl
@[simp] theorem State.setStack_cur (s : State) (n : Nat) (v : Stack) : (s.setStack n v).cur = s.cur := rfl
@[simp] theorem State.setStack_now (s : State) (n : Nat) (v : Stack) : (s.setStack n v).now = s.now := rfl
@[simp] theorem State.setStack_draws (s : State) (n : Nat) (v : Stack) : (s.setStack n v).draws = s.draws := rfl
@[simp] theorem State.setStack_harts (s : State) (n : Nat) (v : Stack) : (s.setStack n v).harts = s.harts := rfl
@[simp] theorem State.setStack_cores (s : State) (n : Nat) (v : Stack) : (s.setStack n v).cores = s.cores := rfl
@[simp] theorem State.setStack_clusters (s : State) (n : Nat) (v : Stack) : (s.setStack n v).clusters = s.clusters := rfl
@[simp] theorem State.setStack_dies (s : State) (n : Nat) (v : Stack) : (s.setStack n v).dies = s.dies := rfl
@[simp] theorem State.setStack_baseDies (s : State) (n : Nat) (v : Stack) : (s.setStack n v).baseDies = Tab.put s.baseDies n v := rfl
@[simp] theorem State.setStack_cxl (s : State) (n : Nat) (v : Stack) : (s.setStack n v).cxl = s.cxl := rfl
@[simp] theorem State.setStack_cenel (s : State) (n : Nat) (v : Stack) : (s.setStack n v).cenel = s.cenel := rfl
@[simp] theorem State.setStack_dieNet (s : State) (n : Nat) (v : Stack) : (s.setStack n v).dieNet = s.dieNet := rfl
@[simp] theorem State.setStack_eth (s : State) (n : Nat) (v : Stack) : (s.setStack n v).eth = s.eth := rfl
@[simp] theorem State.setStack_qps (s : State) (n : Nat) (v : Stack) : (s.setStack n v).qps = s.qps := rfl
@[simp] theorem State.setStack_peers (s : State) (n : Nat) (v : Stack) : (s.setStack n v).peers = s.peers := rfl
@[simp] theorem State.setStack_mem (s : State) (n : Nat) (v : Stack) : (s.setStack n v).mem = s.mem := rfl
@[simp] theorem State.setStack_poison (s : State) (n : Nat) (v : Stack) : (s.setStack n v).poison = s.poison := rfl
@[simp] theorem State.setStack_drains (s : State) (n : Nat) (v : Stack) : (s.setStack n v).drains = s.drains := rfl
@[simp] theorem State.setStack_tinv (s : State) (n : Nat) (v : Stack) : (s.setStack n v).tinv = s.tinv := rfl
@[simp] theorem State.setStack_streams (s : State) (n : Nat) (v : Stack) : (s.setStack n v).streams = s.streams := rfl
@[simp] theorem State.setStack_counters (s : State) (n : Nat) (v : Stack) : (s.setStack n v).counters = s.counters := rfl
@[simp] theorem State.setStack_lastRead (s : State) (n : Nat) (v : Stack) : (s.setStack n v).lastRead = s.lastRead := rfl
@[simp] theorem State.setStack_ctbase (s : State) (n : Nat) (v : Stack) : (s.setStack n v).ctbase = s.ctbase := rfl
@[simp] theorem State.setStack_cnloss (s : State) (n : Nat) (v : Stack) : (s.setStack n v).cnloss = s.cnloss := rfl
@[simp] theorem State.setStack_seqs (s : State) (n : Nat) (v : Stack) : (s.setStack n v).seqs = s.seqs := rfl
@[simp] theorem State.setStack_halts (s : State) (n : Nat) (v : Stack) : (s.setStack n v).halts = s.halts := rfl
@[simp] theorem State.setStack_stopBase (s : State) (n : Nat) (v : Stack) : (s.setStack n v).stopBase = s.stopBase := rfl
@[simp] theorem State.setStack_tenantTable (s : State) (n : Nat) (v : Stack) : (s.setStack n v).tenantTable = s.tenantTable := rfl
@[simp] theorem State.setStack_mgmt (s : State) (n : Nat) (v : Stack) : (s.setStack n v).mgmt = s.mgmt := rfl
@[simp] theorem State.setStack_timePort (s : State) (n : Nat) (v : Stack) : (s.setStack n v).timePort = s.timePort := rfl
@[simp] theorem State.setStack_slewAt (s : State) (n : Nat) (v : Stack) : (s.setStack n v).slewAt = s.slewAt := rfl
@[simp] theorem State.setStack_slew (s : State) (n : Nat) (v : Stack) : (s.setStack n v).slew = s.slew := rfl
@[simp] theorem State.setStack_bootReports (s : State) (n : Nat) (v : Stack) : (s.setStack n v).bootReports = s.bootReports := rfl
@[simp] theorem State.setStack_sent (s : State) (n : Nat) (v : Stack) : (s.setStack n v).sent = s.sent := rfl
@[simp] theorem State.setStack_cnWrite (s : State) (n : Nat) (v : Stack) : (s.setStack n v).cnWrite = s.cnWrite := rfl
@[simp] theorem State.setStack_selWrite (s : State) (n : Nat) (v : Stack) : (s.setStack n v).selWrite = s.selWrite := rfl
@[simp] theorem State.setStack_cxlPages (s : State) (n : Nat) (v : Stack) : (s.setStack n v).cxlPages = s.cxlPages := rfl
@[simp] theorem State.setStack_takes (s : State) (n : Nat) (v : Stack) : (s.setStack n v).takes = s.takes := rfl
@[simp] theorem State.setStack_lists (s : State) (n : Nat) (v : Stack) : (s.setStack n v).lists = s.lists := rfl
@[simp] theorem State.setStack_supervisor (s : State) (n : Nat) (v : Stack) : (s.setStack n v).supervisor = s.supervisor := rfl
@[simp] theorem State.setStack_image (s : State) (n : Nat) (v : Stack) : (s.setStack n v).image = s.image := rfl
@[simp] theorem State.setStack_gangs (s : State) (n : Nat) (v : Stack) : (s.setStack n v).gangs = s.gangs := rfl
@[simp] theorem State.setStack_nextGang (s : State) (n : Nat) (v : Stack) : (s.setStack n v).nextGang = s.nextGang := rfl
@[simp] theorem State.setStack_nextCopy (s : State) (n : Nat) (v : Stack) : (s.setStack n v).nextCopy = s.nextCopy := rfl
@[simp] theorem State.setStack_jcidx (s : State) (n : Nat) (v : Stack) : (s.setStack n v).jcidx = s.jcidx := rfl
@[simp] theorem State.setStack_journals (s : State) (n : Nat) (v : Stack) : (s.setStack n v).journals = s.journals := rfl
@[simp] theorem State.setStack_quotes (s : State) (n : Nat) (v : Stack) : (s.setStack n v).quotes = s.quotes := rfl
@[simp] theorem State.setStack_hostData (s : State) (n : Nat) (v : Stack) : (s.setStack n v).hostData = s.hostData := rfl
@[simp] theorem State.setStack_hostPoison (s : State) (n : Nat) (v : Stack) : (s.setStack n v).hostPoison = s.hostPoison := rfl
@[simp] theorem State.setStack_poweredDown (s : State) (n : Nat) (v : Stack) : (s.setStack n v).poweredDown = s.poweredDown := rfl
@[simp] theorem State.setStack_hart (s : State) (n : Nat) (v : Stack) (j : Nat) : (s.setStack n v).hart j = s.hart j := rfl
@[simp] theorem State.setStack_core (s : State) (n : Nat) (v : Stack) (j : Nat) : (s.setStack n v).core j = s.core j := rfl
@[simp] theorem State.setStack_cluster (s : State) (n : Nat) (v : Stack) (j : Nat) : (s.setStack n v).cluster j = s.cluster j := rfl
@[simp] theorem State.setStack_die (s : State) (n : Nat) (v : Stack) (j : Nat) : (s.setStack n v).die j = s.die j := rfl
@[simp] theorem State.setStack_stream (s : State) (n : Nat) (v : Stack) (j : Nat) : (s.setStack n v).stream j = s.stream j := rfl
@[simp] theorem State.setStack_journal (s : State) (n : Nat) (v : Stack) (j : Nat) : (s.setStack n v).journal j = s.journal j := rfl

@[simp] theorem State.setStream_agenda (s : State) (n : Nat) (v : Stream) : (s.setStream n v).agenda = s.agenda := rfl
@[simp] theorem State.setStream_cur (s : State) (n : Nat) (v : Stream) : (s.setStream n v).cur = s.cur := rfl
@[simp] theorem State.setStream_now (s : State) (n : Nat) (v : Stream) : (s.setStream n v).now = s.now := rfl
@[simp] theorem State.setStream_draws (s : State) (n : Nat) (v : Stream) : (s.setStream n v).draws = s.draws := rfl
@[simp] theorem State.setStream_harts (s : State) (n : Nat) (v : Stream) : (s.setStream n v).harts = s.harts := rfl
@[simp] theorem State.setStream_cores (s : State) (n : Nat) (v : Stream) : (s.setStream n v).cores = s.cores := rfl
@[simp] theorem State.setStream_clusters (s : State) (n : Nat) (v : Stream) : (s.setStream n v).clusters = s.clusters := rfl
@[simp] theorem State.setStream_dies (s : State) (n : Nat) (v : Stream) : (s.setStream n v).dies = s.dies := rfl
@[simp] theorem State.setStream_baseDies (s : State) (n : Nat) (v : Stream) : (s.setStream n v).baseDies = s.baseDies := rfl
@[simp] theorem State.setStream_cxl (s : State) (n : Nat) (v : Stream) : (s.setStream n v).cxl = s.cxl := rfl
@[simp] theorem State.setStream_cenel (s : State) (n : Nat) (v : Stream) : (s.setStream n v).cenel = s.cenel := rfl
@[simp] theorem State.setStream_dieNet (s : State) (n : Nat) (v : Stream) : (s.setStream n v).dieNet = s.dieNet := rfl
@[simp] theorem State.setStream_eth (s : State) (n : Nat) (v : Stream) : (s.setStream n v).eth = s.eth := rfl
@[simp] theorem State.setStream_qps (s : State) (n : Nat) (v : Stream) : (s.setStream n v).qps = s.qps := rfl
@[simp] theorem State.setStream_peers (s : State) (n : Nat) (v : Stream) : (s.setStream n v).peers = s.peers := rfl
@[simp] theorem State.setStream_mem (s : State) (n : Nat) (v : Stream) : (s.setStream n v).mem = s.mem := rfl
@[simp] theorem State.setStream_poison (s : State) (n : Nat) (v : Stream) : (s.setStream n v).poison = s.poison := rfl
@[simp] theorem State.setStream_drains (s : State) (n : Nat) (v : Stream) : (s.setStream n v).drains = s.drains := rfl
@[simp] theorem State.setStream_tinv (s : State) (n : Nat) (v : Stream) : (s.setStream n v).tinv = s.tinv := rfl
@[simp] theorem State.setStream_streams (s : State) (n : Nat) (v : Stream) : (s.setStream n v).streams = Tab.put s.streams n v := rfl
@[simp] theorem State.setStream_counters (s : State) (n : Nat) (v : Stream) : (s.setStream n v).counters = s.counters := rfl
@[simp] theorem State.setStream_lastRead (s : State) (n : Nat) (v : Stream) : (s.setStream n v).lastRead = s.lastRead := rfl
@[simp] theorem State.setStream_ctbase (s : State) (n : Nat) (v : Stream) : (s.setStream n v).ctbase = s.ctbase := rfl
@[simp] theorem State.setStream_cnloss (s : State) (n : Nat) (v : Stream) : (s.setStream n v).cnloss = s.cnloss := rfl
@[simp] theorem State.setStream_seqs (s : State) (n : Nat) (v : Stream) : (s.setStream n v).seqs = s.seqs := rfl
@[simp] theorem State.setStream_halts (s : State) (n : Nat) (v : Stream) : (s.setStream n v).halts = s.halts := rfl
@[simp] theorem State.setStream_stopBase (s : State) (n : Nat) (v : Stream) : (s.setStream n v).stopBase = s.stopBase := rfl
@[simp] theorem State.setStream_tenantTable (s : State) (n : Nat) (v : Stream) : (s.setStream n v).tenantTable = s.tenantTable := rfl
@[simp] theorem State.setStream_mgmt (s : State) (n : Nat) (v : Stream) : (s.setStream n v).mgmt = s.mgmt := rfl
@[simp] theorem State.setStream_timePort (s : State) (n : Nat) (v : Stream) : (s.setStream n v).timePort = s.timePort := rfl
@[simp] theorem State.setStream_slewAt (s : State) (n : Nat) (v : Stream) : (s.setStream n v).slewAt = s.slewAt := rfl
@[simp] theorem State.setStream_slew (s : State) (n : Nat) (v : Stream) : (s.setStream n v).slew = s.slew := rfl
@[simp] theorem State.setStream_bootReports (s : State) (n : Nat) (v : Stream) : (s.setStream n v).bootReports = s.bootReports := rfl
@[simp] theorem State.setStream_sent (s : State) (n : Nat) (v : Stream) : (s.setStream n v).sent = s.sent := rfl
@[simp] theorem State.setStream_cnWrite (s : State) (n : Nat) (v : Stream) : (s.setStream n v).cnWrite = s.cnWrite := rfl
@[simp] theorem State.setStream_selWrite (s : State) (n : Nat) (v : Stream) : (s.setStream n v).selWrite = s.selWrite := rfl
@[simp] theorem State.setStream_cxlPages (s : State) (n : Nat) (v : Stream) : (s.setStream n v).cxlPages = s.cxlPages := rfl
@[simp] theorem State.setStream_takes (s : State) (n : Nat) (v : Stream) : (s.setStream n v).takes = s.takes := rfl
@[simp] theorem State.setStream_lists (s : State) (n : Nat) (v : Stream) : (s.setStream n v).lists = s.lists := rfl
@[simp] theorem State.setStream_supervisor (s : State) (n : Nat) (v : Stream) : (s.setStream n v).supervisor = s.supervisor := rfl
@[simp] theorem State.setStream_image (s : State) (n : Nat) (v : Stream) : (s.setStream n v).image = s.image := rfl
@[simp] theorem State.setStream_gangs (s : State) (n : Nat) (v : Stream) : (s.setStream n v).gangs = s.gangs := rfl
@[simp] theorem State.setStream_nextGang (s : State) (n : Nat) (v : Stream) : (s.setStream n v).nextGang = s.nextGang := rfl
@[simp] theorem State.setStream_nextCopy (s : State) (n : Nat) (v : Stream) : (s.setStream n v).nextCopy = s.nextCopy := rfl
@[simp] theorem State.setStream_jcidx (s : State) (n : Nat) (v : Stream) : (s.setStream n v).jcidx = s.jcidx := rfl
@[simp] theorem State.setStream_journals (s : State) (n : Nat) (v : Stream) : (s.setStream n v).journals = s.journals := rfl
@[simp] theorem State.setStream_quotes (s : State) (n : Nat) (v : Stream) : (s.setStream n v).quotes = s.quotes := rfl
@[simp] theorem State.setStream_hostData (s : State) (n : Nat) (v : Stream) : (s.setStream n v).hostData = s.hostData := rfl
@[simp] theorem State.setStream_hostPoison (s : State) (n : Nat) (v : Stream) : (s.setStream n v).hostPoison = s.hostPoison := rfl
@[simp] theorem State.setStream_poweredDown (s : State) (n : Nat) (v : Stream) : (s.setStream n v).poweredDown = s.poweredDown := rfl
@[simp] theorem State.setStream_hart (s : State) (n : Nat) (v : Stream) (j : Nat) : (s.setStream n v).hart j = s.hart j := rfl
@[simp] theorem State.setStream_core (s : State) (n : Nat) (v : Stream) (j : Nat) : (s.setStream n v).core j = s.core j := rfl
@[simp] theorem State.setStream_cluster (s : State) (n : Nat) (v : Stream) (j : Nat) : (s.setStream n v).cluster j = s.cluster j := rfl
@[simp] theorem State.setStream_die (s : State) (n : Nat) (v : Stream) (j : Nat) : (s.setStream n v).die j = s.die j := rfl
@[simp] theorem State.setStream_stack (s : State) (n : Nat) (v : Stream) (j : Nat) : (s.setStream n v).stack j = s.stack j := rfl
@[simp] theorem State.setStream_journal (s : State) (n : Nat) (v : Stream) (j : Nat) : (s.setStream n v).journal j = s.journal j := rfl

@[simp] theorem State.setJournal_agenda (s : State) (n : Nat) (v : Journal) : (s.setJournal n v).agenda = s.agenda := rfl
@[simp] theorem State.setJournal_cur (s : State) (n : Nat) (v : Journal) : (s.setJournal n v).cur = s.cur := rfl
@[simp] theorem State.setJournal_now (s : State) (n : Nat) (v : Journal) : (s.setJournal n v).now = s.now := rfl
@[simp] theorem State.setJournal_draws (s : State) (n : Nat) (v : Journal) : (s.setJournal n v).draws = s.draws := rfl
@[simp] theorem State.setJournal_harts (s : State) (n : Nat) (v : Journal) : (s.setJournal n v).harts = s.harts := rfl
@[simp] theorem State.setJournal_cores (s : State) (n : Nat) (v : Journal) : (s.setJournal n v).cores = s.cores := rfl
@[simp] theorem State.setJournal_clusters (s : State) (n : Nat) (v : Journal) : (s.setJournal n v).clusters = s.clusters := rfl
@[simp] theorem State.setJournal_dies (s : State) (n : Nat) (v : Journal) : (s.setJournal n v).dies = s.dies := rfl
@[simp] theorem State.setJournal_baseDies (s : State) (n : Nat) (v : Journal) : (s.setJournal n v).baseDies = s.baseDies := rfl
@[simp] theorem State.setJournal_cxl (s : State) (n : Nat) (v : Journal) : (s.setJournal n v).cxl = s.cxl := rfl
@[simp] theorem State.setJournal_cenel (s : State) (n : Nat) (v : Journal) : (s.setJournal n v).cenel = s.cenel := rfl
@[simp] theorem State.setJournal_dieNet (s : State) (n : Nat) (v : Journal) : (s.setJournal n v).dieNet = s.dieNet := rfl
@[simp] theorem State.setJournal_eth (s : State) (n : Nat) (v : Journal) : (s.setJournal n v).eth = s.eth := rfl
@[simp] theorem State.setJournal_qps (s : State) (n : Nat) (v : Journal) : (s.setJournal n v).qps = s.qps := rfl
@[simp] theorem State.setJournal_peers (s : State) (n : Nat) (v : Journal) : (s.setJournal n v).peers = s.peers := rfl
@[simp] theorem State.setJournal_mem (s : State) (n : Nat) (v : Journal) : (s.setJournal n v).mem = s.mem := rfl
@[simp] theorem State.setJournal_poison (s : State) (n : Nat) (v : Journal) : (s.setJournal n v).poison = s.poison := rfl
@[simp] theorem State.setJournal_drains (s : State) (n : Nat) (v : Journal) : (s.setJournal n v).drains = s.drains := rfl
@[simp] theorem State.setJournal_tinv (s : State) (n : Nat) (v : Journal) : (s.setJournal n v).tinv = s.tinv := rfl
@[simp] theorem State.setJournal_streams (s : State) (n : Nat) (v : Journal) : (s.setJournal n v).streams = s.streams := rfl
@[simp] theorem State.setJournal_counters (s : State) (n : Nat) (v : Journal) : (s.setJournal n v).counters = s.counters := rfl
@[simp] theorem State.setJournal_lastRead (s : State) (n : Nat) (v : Journal) : (s.setJournal n v).lastRead = s.lastRead := rfl
@[simp] theorem State.setJournal_ctbase (s : State) (n : Nat) (v : Journal) : (s.setJournal n v).ctbase = s.ctbase := rfl
@[simp] theorem State.setJournal_cnloss (s : State) (n : Nat) (v : Journal) : (s.setJournal n v).cnloss = s.cnloss := rfl
@[simp] theorem State.setJournal_seqs (s : State) (n : Nat) (v : Journal) : (s.setJournal n v).seqs = s.seqs := rfl
@[simp] theorem State.setJournal_halts (s : State) (n : Nat) (v : Journal) : (s.setJournal n v).halts = s.halts := rfl
@[simp] theorem State.setJournal_stopBase (s : State) (n : Nat) (v : Journal) : (s.setJournal n v).stopBase = s.stopBase := rfl
@[simp] theorem State.setJournal_tenantTable (s : State) (n : Nat) (v : Journal) : (s.setJournal n v).tenantTable = s.tenantTable := rfl
@[simp] theorem State.setJournal_mgmt (s : State) (n : Nat) (v : Journal) : (s.setJournal n v).mgmt = s.mgmt := rfl
@[simp] theorem State.setJournal_timePort (s : State) (n : Nat) (v : Journal) : (s.setJournal n v).timePort = s.timePort := rfl
@[simp] theorem State.setJournal_slewAt (s : State) (n : Nat) (v : Journal) : (s.setJournal n v).slewAt = s.slewAt := rfl
@[simp] theorem State.setJournal_slew (s : State) (n : Nat) (v : Journal) : (s.setJournal n v).slew = s.slew := rfl
@[simp] theorem State.setJournal_bootReports (s : State) (n : Nat) (v : Journal) : (s.setJournal n v).bootReports = s.bootReports := rfl
@[simp] theorem State.setJournal_sent (s : State) (n : Nat) (v : Journal) : (s.setJournal n v).sent = s.sent := rfl
@[simp] theorem State.setJournal_cnWrite (s : State) (n : Nat) (v : Journal) : (s.setJournal n v).cnWrite = s.cnWrite := rfl
@[simp] theorem State.setJournal_selWrite (s : State) (n : Nat) (v : Journal) : (s.setJournal n v).selWrite = s.selWrite := rfl
@[simp] theorem State.setJournal_cxlPages (s : State) (n : Nat) (v : Journal) : (s.setJournal n v).cxlPages = s.cxlPages := rfl
@[simp] theorem State.setJournal_takes (s : State) (n : Nat) (v : Journal) : (s.setJournal n v).takes = s.takes := rfl
@[simp] theorem State.setJournal_lists (s : State) (n : Nat) (v : Journal) : (s.setJournal n v).lists = s.lists := rfl
@[simp] theorem State.setJournal_supervisor (s : State) (n : Nat) (v : Journal) : (s.setJournal n v).supervisor = s.supervisor := rfl
@[simp] theorem State.setJournal_image (s : State) (n : Nat) (v : Journal) : (s.setJournal n v).image = s.image := rfl
@[simp] theorem State.setJournal_gangs (s : State) (n : Nat) (v : Journal) : (s.setJournal n v).gangs = s.gangs := rfl
@[simp] theorem State.setJournal_nextGang (s : State) (n : Nat) (v : Journal) : (s.setJournal n v).nextGang = s.nextGang := rfl
@[simp] theorem State.setJournal_nextCopy (s : State) (n : Nat) (v : Journal) : (s.setJournal n v).nextCopy = s.nextCopy := rfl
@[simp] theorem State.setJournal_jcidx (s : State) (n : Nat) (v : Journal) : (s.setJournal n v).jcidx = s.jcidx := rfl
@[simp] theorem State.setJournal_journals (s : State) (n : Nat) (v : Journal) : (s.setJournal n v).journals = Tab.put s.journals n v := rfl
@[simp] theorem State.setJournal_quotes (s : State) (n : Nat) (v : Journal) : (s.setJournal n v).quotes = s.quotes := rfl
@[simp] theorem State.setJournal_hostData (s : State) (n : Nat) (v : Journal) : (s.setJournal n v).hostData = s.hostData := rfl
@[simp] theorem State.setJournal_hostPoison (s : State) (n : Nat) (v : Journal) : (s.setJournal n v).hostPoison = s.hostPoison := rfl
@[simp] theorem State.setJournal_poweredDown (s : State) (n : Nat) (v : Journal) : (s.setJournal n v).poweredDown = s.poweredDown := rfl
@[simp] theorem State.setJournal_hart (s : State) (n : Nat) (v : Journal) (j : Nat) : (s.setJournal n v).hart j = s.hart j := rfl
@[simp] theorem State.setJournal_core (s : State) (n : Nat) (v : Journal) (j : Nat) : (s.setJournal n v).core j = s.core j := rfl
@[simp] theorem State.setJournal_cluster (s : State) (n : Nat) (v : Journal) (j : Nat) : (s.setJournal n v).cluster j = s.cluster j := rfl
@[simp] theorem State.setJournal_die (s : State) (n : Nat) (v : Journal) (j : Nat) : (s.setJournal n v).die j = s.die j := rfl
@[simp] theorem State.setJournal_stack (s : State) (n : Nat) (v : Journal) (j : Nat) : (s.setJournal n v).stack j = s.stack j := rfl
@[simp] theorem State.setJournal_stream (s : State) (n : Nat) (v : Journal) (j : Nat) : (s.setJournal n v).stream j = s.stream j := rfl

theorem State.updHart_eq (s : State) (h : Nat) (f : Hart → Hart) : s.updHart h f = s.setHart h (f (s.hart h)) := rfl
theorem State.updCore_eq (s : State) (c : Nat) (f : Core → Core) : s.updCore c f = s.setCore c (f (s.core c)) := rfl
theorem State.updCluster_eq (s : State) (k : Nat) (f : Cluster → Cluster) : s.updCluster k f = s.setCluster k (f (s.cluster k)) := rfl
theorem State.updDie_eq (s : State) (d : Nat) (f : Die → Die) : s.updDie d f = s.setDie d (f (s.die d)) := rfl
theorem State.updStack_eq (s : State) (n : Nat) (f : Stack → Stack) : s.updStack n f = s.setStack n (f (s.stack n)) := rfl
theorem State.updMe_eq (s : State) (f : Hart → Hart) : s.updMe f = s.setHart s.cur (f s.me) := rfl
theorem State.advance_eq (s : State) : s.advance = s.updMe Hart.next := rfl
theorem State.raise_eq (s : State) (f : Flags) : s.raise f = s.updMe fun h => h.raise f := rfl
theorem State.goTo_eq (s : State) (a : Word) : s.goTo a = s.updMe fun h => h.goTo a := rfl
theorem State.writeX_eq (s : State) (r : Reg) (v : Word) : s.writeX r v = s.updMe fun h => h.writeX r v := rfl
theorem State.chargeMe_eq (s : State) (cls n : Nat) : s.chargeMe cls n = s.charge s.cur cls n := rfl
theorem State.bumpMe_eq (s : State) (slot n : Nat) : s.bumpMe slot n = s.bumpHart s.cur slot n := rfl

@[simp] theorem State.updHart_agenda (s : State) (h : Nat) (f : Hart → Hart) : (s.updHart h f).agenda = s.agenda := rfl
@[simp] theorem State.updHart_cur (s : State) (h : Nat) (f : Hart → Hart) : (s.updHart h f).cur = s.cur := rfl
@[simp] theorem State.updHart_now (s : State) (h : Nat) (f : Hart → Hart) : (s.updHart h f).now = s.now := rfl
@[simp] theorem State.updHart_draws (s : State) (h : Nat) (f : Hart → Hart) : (s.updHart h f).draws = s.draws := rfl
@[simp] theorem State.updHart_cores (s : State) (h : Nat) (f : Hart → Hart) : (s.updHart h f).cores = s.cores := rfl
@[simp] theorem State.updHart_clusters (s : State) (h : Nat) (f : Hart → Hart) : (s.updHart h f).clusters = s.clusters := rfl
@[simp] theorem State.updHart_dies (s : State) (h : Nat) (f : Hart → Hart) : (s.updHart h f).dies = s.dies := rfl
@[simp] theorem State.updHart_baseDies (s : State) (h : Nat) (f : Hart → Hart) : (s.updHart h f).baseDies = s.baseDies := rfl
@[simp] theorem State.updHart_cxl (s : State) (h : Nat) (f : Hart → Hart) : (s.updHart h f).cxl = s.cxl := rfl
@[simp] theorem State.updHart_cenel (s : State) (h : Nat) (f : Hart → Hart) : (s.updHart h f).cenel = s.cenel := rfl
@[simp] theorem State.updHart_dieNet (s : State) (h : Nat) (f : Hart → Hart) : (s.updHart h f).dieNet = s.dieNet := rfl
@[simp] theorem State.updHart_eth (s : State) (h : Nat) (f : Hart → Hart) : (s.updHart h f).eth = s.eth := rfl
@[simp] theorem State.updHart_qps (s : State) (h : Nat) (f : Hart → Hart) : (s.updHart h f).qps = s.qps := rfl
@[simp] theorem State.updHart_peers (s : State) (h : Nat) (f : Hart → Hart) : (s.updHart h f).peers = s.peers := rfl
@[simp] theorem State.updHart_mem (s : State) (h : Nat) (f : Hart → Hart) : (s.updHart h f).mem = s.mem := rfl
@[simp] theorem State.updHart_poison (s : State) (h : Nat) (f : Hart → Hart) : (s.updHart h f).poison = s.poison := rfl
@[simp] theorem State.updHart_drains (s : State) (h : Nat) (f : Hart → Hart) : (s.updHart h f).drains = s.drains := rfl
@[simp] theorem State.updHart_tinv (s : State) (h : Nat) (f : Hart → Hart) : (s.updHart h f).tinv = s.tinv := rfl
@[simp] theorem State.updHart_streams (s : State) (h : Nat) (f : Hart → Hart) : (s.updHart h f).streams = s.streams := rfl
@[simp] theorem State.updHart_counters (s : State) (h : Nat) (f : Hart → Hart) : (s.updHart h f).counters = s.counters := rfl
@[simp] theorem State.updHart_lastRead (s : State) (h : Nat) (f : Hart → Hart) : (s.updHart h f).lastRead = s.lastRead := rfl
@[simp] theorem State.updHart_ctbase (s : State) (h : Nat) (f : Hart → Hart) : (s.updHart h f).ctbase = s.ctbase := rfl
@[simp] theorem State.updHart_cnloss (s : State) (h : Nat) (f : Hart → Hart) : (s.updHart h f).cnloss = s.cnloss := rfl
@[simp] theorem State.updHart_seqs (s : State) (h : Nat) (f : Hart → Hart) : (s.updHart h f).seqs = s.seqs := rfl
@[simp] theorem State.updHart_halts (s : State) (h : Nat) (f : Hart → Hart) : (s.updHart h f).halts = s.halts := rfl
@[simp] theorem State.updHart_stopBase (s : State) (h : Nat) (f : Hart → Hart) : (s.updHart h f).stopBase = s.stopBase := rfl
@[simp] theorem State.updHart_tenantTable (s : State) (h : Nat) (f : Hart → Hart) : (s.updHart h f).tenantTable = s.tenantTable := rfl
@[simp] theorem State.updHart_mgmt (s : State) (h : Nat) (f : Hart → Hart) : (s.updHart h f).mgmt = s.mgmt := rfl
@[simp] theorem State.updHart_timePort (s : State) (h : Nat) (f : Hart → Hart) : (s.updHart h f).timePort = s.timePort := rfl
@[simp] theorem State.updHart_slewAt (s : State) (h : Nat) (f : Hart → Hart) : (s.updHart h f).slewAt = s.slewAt := rfl
@[simp] theorem State.updHart_slew (s : State) (h : Nat) (f : Hart → Hart) : (s.updHart h f).slew = s.slew := rfl
@[simp] theorem State.updHart_bootReports (s : State) (h : Nat) (f : Hart → Hart) : (s.updHart h f).bootReports = s.bootReports := rfl
@[simp] theorem State.updHart_sent (s : State) (h : Nat) (f : Hart → Hart) : (s.updHart h f).sent = s.sent := rfl
@[simp] theorem State.updHart_cnWrite (s : State) (h : Nat) (f : Hart → Hart) : (s.updHart h f).cnWrite = s.cnWrite := rfl
@[simp] theorem State.updHart_selWrite (s : State) (h : Nat) (f : Hart → Hart) : (s.updHart h f).selWrite = s.selWrite := rfl
@[simp] theorem State.updHart_cxlPages (s : State) (h : Nat) (f : Hart → Hart) : (s.updHart h f).cxlPages = s.cxlPages := rfl
@[simp] theorem State.updHart_takes (s : State) (h : Nat) (f : Hart → Hart) : (s.updHart h f).takes = s.takes := rfl
@[simp] theorem State.updHart_lists (s : State) (h : Nat) (f : Hart → Hart) : (s.updHart h f).lists = s.lists := rfl
@[simp] theorem State.updHart_supervisor (s : State) (h : Nat) (f : Hart → Hart) : (s.updHart h f).supervisor = s.supervisor := rfl
@[simp] theorem State.updHart_image (s : State) (h : Nat) (f : Hart → Hart) : (s.updHart h f).image = s.image := rfl
@[simp] theorem State.updHart_gangs (s : State) (h : Nat) (f : Hart → Hart) : (s.updHart h f).gangs = s.gangs := rfl
@[simp] theorem State.updHart_nextGang (s : State) (h : Nat) (f : Hart → Hart) : (s.updHart h f).nextGang = s.nextGang := rfl
@[simp] theorem State.updHart_nextCopy (s : State) (h : Nat) (f : Hart → Hart) : (s.updHart h f).nextCopy = s.nextCopy := rfl
@[simp] theorem State.updHart_jcidx (s : State) (h : Nat) (f : Hart → Hart) : (s.updHart h f).jcidx = s.jcidx := rfl
@[simp] theorem State.updHart_journals (s : State) (h : Nat) (f : Hart → Hart) : (s.updHart h f).journals = s.journals := rfl
@[simp] theorem State.updHart_quotes (s : State) (h : Nat) (f : Hart → Hart) : (s.updHart h f).quotes = s.quotes := rfl
@[simp] theorem State.updHart_hostData (s : State) (h : Nat) (f : Hart → Hart) : (s.updHart h f).hostData = s.hostData := rfl
@[simp] theorem State.updHart_hostPoison (s : State) (h : Nat) (f : Hart → Hart) : (s.updHart h f).hostPoison = s.hostPoison := rfl
@[simp] theorem State.updHart_poweredDown (s : State) (h : Nat) (f : Hart → Hart) : (s.updHart h f).poweredDown = s.poweredDown := rfl

@[simp] theorem State.updCore_agenda (s : State) (c : Nat) (f : Core → Core) : (s.updCore c f).agenda = s.agenda := rfl
@[simp] theorem State.updCore_cur (s : State) (c : Nat) (f : Core → Core) : (s.updCore c f).cur = s.cur := rfl
@[simp] theorem State.updCore_now (s : State) (c : Nat) (f : Core → Core) : (s.updCore c f).now = s.now := rfl
@[simp] theorem State.updCore_draws (s : State) (c : Nat) (f : Core → Core) : (s.updCore c f).draws = s.draws := rfl
@[simp] theorem State.updCore_harts (s : State) (c : Nat) (f : Core → Core) : (s.updCore c f).harts = s.harts := rfl
@[simp] theorem State.updCore_clusters (s : State) (c : Nat) (f : Core → Core) : (s.updCore c f).clusters = s.clusters := rfl
@[simp] theorem State.updCore_dies (s : State) (c : Nat) (f : Core → Core) : (s.updCore c f).dies = s.dies := rfl
@[simp] theorem State.updCore_baseDies (s : State) (c : Nat) (f : Core → Core) : (s.updCore c f).baseDies = s.baseDies := rfl
@[simp] theorem State.updCore_cxl (s : State) (c : Nat) (f : Core → Core) : (s.updCore c f).cxl = s.cxl := rfl
@[simp] theorem State.updCore_cenel (s : State) (c : Nat) (f : Core → Core) : (s.updCore c f).cenel = s.cenel := rfl
@[simp] theorem State.updCore_dieNet (s : State) (c : Nat) (f : Core → Core) : (s.updCore c f).dieNet = s.dieNet := rfl
@[simp] theorem State.updCore_eth (s : State) (c : Nat) (f : Core → Core) : (s.updCore c f).eth = s.eth := rfl
@[simp] theorem State.updCore_qps (s : State) (c : Nat) (f : Core → Core) : (s.updCore c f).qps = s.qps := rfl
@[simp] theorem State.updCore_peers (s : State) (c : Nat) (f : Core → Core) : (s.updCore c f).peers = s.peers := rfl
@[simp] theorem State.updCore_mem (s : State) (c : Nat) (f : Core → Core) : (s.updCore c f).mem = s.mem := rfl
@[simp] theorem State.updCore_poison (s : State) (c : Nat) (f : Core → Core) : (s.updCore c f).poison = s.poison := rfl
@[simp] theorem State.updCore_drains (s : State) (c : Nat) (f : Core → Core) : (s.updCore c f).drains = s.drains := rfl
@[simp] theorem State.updCore_tinv (s : State) (c : Nat) (f : Core → Core) : (s.updCore c f).tinv = s.tinv := rfl
@[simp] theorem State.updCore_streams (s : State) (c : Nat) (f : Core → Core) : (s.updCore c f).streams = s.streams := rfl
@[simp] theorem State.updCore_counters (s : State) (c : Nat) (f : Core → Core) : (s.updCore c f).counters = s.counters := rfl
@[simp] theorem State.updCore_lastRead (s : State) (c : Nat) (f : Core → Core) : (s.updCore c f).lastRead = s.lastRead := rfl
@[simp] theorem State.updCore_ctbase (s : State) (c : Nat) (f : Core → Core) : (s.updCore c f).ctbase = s.ctbase := rfl
@[simp] theorem State.updCore_cnloss (s : State) (c : Nat) (f : Core → Core) : (s.updCore c f).cnloss = s.cnloss := rfl
@[simp] theorem State.updCore_seqs (s : State) (c : Nat) (f : Core → Core) : (s.updCore c f).seqs = s.seqs := rfl
@[simp] theorem State.updCore_halts (s : State) (c : Nat) (f : Core → Core) : (s.updCore c f).halts = s.halts := rfl
@[simp] theorem State.updCore_stopBase (s : State) (c : Nat) (f : Core → Core) : (s.updCore c f).stopBase = s.stopBase := rfl
@[simp] theorem State.updCore_tenantTable (s : State) (c : Nat) (f : Core → Core) : (s.updCore c f).tenantTable = s.tenantTable := rfl
@[simp] theorem State.updCore_mgmt (s : State) (c : Nat) (f : Core → Core) : (s.updCore c f).mgmt = s.mgmt := rfl
@[simp] theorem State.updCore_timePort (s : State) (c : Nat) (f : Core → Core) : (s.updCore c f).timePort = s.timePort := rfl
@[simp] theorem State.updCore_slewAt (s : State) (c : Nat) (f : Core → Core) : (s.updCore c f).slewAt = s.slewAt := rfl
@[simp] theorem State.updCore_slew (s : State) (c : Nat) (f : Core → Core) : (s.updCore c f).slew = s.slew := rfl
@[simp] theorem State.updCore_bootReports (s : State) (c : Nat) (f : Core → Core) : (s.updCore c f).bootReports = s.bootReports := rfl
@[simp] theorem State.updCore_sent (s : State) (c : Nat) (f : Core → Core) : (s.updCore c f).sent = s.sent := rfl
@[simp] theorem State.updCore_cnWrite (s : State) (c : Nat) (f : Core → Core) : (s.updCore c f).cnWrite = s.cnWrite := rfl
@[simp] theorem State.updCore_selWrite (s : State) (c : Nat) (f : Core → Core) : (s.updCore c f).selWrite = s.selWrite := rfl
@[simp] theorem State.updCore_cxlPages (s : State) (c : Nat) (f : Core → Core) : (s.updCore c f).cxlPages = s.cxlPages := rfl
@[simp] theorem State.updCore_takes (s : State) (c : Nat) (f : Core → Core) : (s.updCore c f).takes = s.takes := rfl
@[simp] theorem State.updCore_lists (s : State) (c : Nat) (f : Core → Core) : (s.updCore c f).lists = s.lists := rfl
@[simp] theorem State.updCore_supervisor (s : State) (c : Nat) (f : Core → Core) : (s.updCore c f).supervisor = s.supervisor := rfl
@[simp] theorem State.updCore_image (s : State) (c : Nat) (f : Core → Core) : (s.updCore c f).image = s.image := rfl
@[simp] theorem State.updCore_gangs (s : State) (c : Nat) (f : Core → Core) : (s.updCore c f).gangs = s.gangs := rfl
@[simp] theorem State.updCore_nextGang (s : State) (c : Nat) (f : Core → Core) : (s.updCore c f).nextGang = s.nextGang := rfl
@[simp] theorem State.updCore_nextCopy (s : State) (c : Nat) (f : Core → Core) : (s.updCore c f).nextCopy = s.nextCopy := rfl
@[simp] theorem State.updCore_jcidx (s : State) (c : Nat) (f : Core → Core) : (s.updCore c f).jcidx = s.jcidx := rfl
@[simp] theorem State.updCore_journals (s : State) (c : Nat) (f : Core → Core) : (s.updCore c f).journals = s.journals := rfl
@[simp] theorem State.updCore_quotes (s : State) (c : Nat) (f : Core → Core) : (s.updCore c f).quotes = s.quotes := rfl
@[simp] theorem State.updCore_hostData (s : State) (c : Nat) (f : Core → Core) : (s.updCore c f).hostData = s.hostData := rfl
@[simp] theorem State.updCore_hostPoison (s : State) (c : Nat) (f : Core → Core) : (s.updCore c f).hostPoison = s.hostPoison := rfl
@[simp] theorem State.updCore_poweredDown (s : State) (c : Nat) (f : Core → Core) : (s.updCore c f).poweredDown = s.poweredDown := rfl

@[simp] theorem State.updCluster_agenda (s : State) (k : Nat) (f : Cluster → Cluster) : (s.updCluster k f).agenda = s.agenda := rfl
@[simp] theorem State.updCluster_cur (s : State) (k : Nat) (f : Cluster → Cluster) : (s.updCluster k f).cur = s.cur := rfl
@[simp] theorem State.updCluster_now (s : State) (k : Nat) (f : Cluster → Cluster) : (s.updCluster k f).now = s.now := rfl
@[simp] theorem State.updCluster_draws (s : State) (k : Nat) (f : Cluster → Cluster) : (s.updCluster k f).draws = s.draws := rfl
@[simp] theorem State.updCluster_harts (s : State) (k : Nat) (f : Cluster → Cluster) : (s.updCluster k f).harts = s.harts := rfl
@[simp] theorem State.updCluster_cores (s : State) (k : Nat) (f : Cluster → Cluster) : (s.updCluster k f).cores = s.cores := rfl
@[simp] theorem State.updCluster_dies (s : State) (k : Nat) (f : Cluster → Cluster) : (s.updCluster k f).dies = s.dies := rfl
@[simp] theorem State.updCluster_baseDies (s : State) (k : Nat) (f : Cluster → Cluster) : (s.updCluster k f).baseDies = s.baseDies := rfl
@[simp] theorem State.updCluster_cxl (s : State) (k : Nat) (f : Cluster → Cluster) : (s.updCluster k f).cxl = s.cxl := rfl
@[simp] theorem State.updCluster_cenel (s : State) (k : Nat) (f : Cluster → Cluster) : (s.updCluster k f).cenel = s.cenel := rfl
@[simp] theorem State.updCluster_dieNet (s : State) (k : Nat) (f : Cluster → Cluster) : (s.updCluster k f).dieNet = s.dieNet := rfl
@[simp] theorem State.updCluster_eth (s : State) (k : Nat) (f : Cluster → Cluster) : (s.updCluster k f).eth = s.eth := rfl
@[simp] theorem State.updCluster_qps (s : State) (k : Nat) (f : Cluster → Cluster) : (s.updCluster k f).qps = s.qps := rfl
@[simp] theorem State.updCluster_peers (s : State) (k : Nat) (f : Cluster → Cluster) : (s.updCluster k f).peers = s.peers := rfl
@[simp] theorem State.updCluster_mem (s : State) (k : Nat) (f : Cluster → Cluster) : (s.updCluster k f).mem = s.mem := rfl
@[simp] theorem State.updCluster_poison (s : State) (k : Nat) (f : Cluster → Cluster) : (s.updCluster k f).poison = s.poison := rfl
@[simp] theorem State.updCluster_drains (s : State) (k : Nat) (f : Cluster → Cluster) : (s.updCluster k f).drains = s.drains := rfl
@[simp] theorem State.updCluster_tinv (s : State) (k : Nat) (f : Cluster → Cluster) : (s.updCluster k f).tinv = s.tinv := rfl
@[simp] theorem State.updCluster_streams (s : State) (k : Nat) (f : Cluster → Cluster) : (s.updCluster k f).streams = s.streams := rfl
@[simp] theorem State.updCluster_counters (s : State) (k : Nat) (f : Cluster → Cluster) : (s.updCluster k f).counters = s.counters := rfl
@[simp] theorem State.updCluster_lastRead (s : State) (k : Nat) (f : Cluster → Cluster) : (s.updCluster k f).lastRead = s.lastRead := rfl
@[simp] theorem State.updCluster_ctbase (s : State) (k : Nat) (f : Cluster → Cluster) : (s.updCluster k f).ctbase = s.ctbase := rfl
@[simp] theorem State.updCluster_cnloss (s : State) (k : Nat) (f : Cluster → Cluster) : (s.updCluster k f).cnloss = s.cnloss := rfl
@[simp] theorem State.updCluster_seqs (s : State) (k : Nat) (f : Cluster → Cluster) : (s.updCluster k f).seqs = s.seqs := rfl
@[simp] theorem State.updCluster_halts (s : State) (k : Nat) (f : Cluster → Cluster) : (s.updCluster k f).halts = s.halts := rfl
@[simp] theorem State.updCluster_stopBase (s : State) (k : Nat) (f : Cluster → Cluster) : (s.updCluster k f).stopBase = s.stopBase := rfl
@[simp] theorem State.updCluster_tenantTable (s : State) (k : Nat) (f : Cluster → Cluster) : (s.updCluster k f).tenantTable = s.tenantTable := rfl
@[simp] theorem State.updCluster_mgmt (s : State) (k : Nat) (f : Cluster → Cluster) : (s.updCluster k f).mgmt = s.mgmt := rfl
@[simp] theorem State.updCluster_timePort (s : State) (k : Nat) (f : Cluster → Cluster) : (s.updCluster k f).timePort = s.timePort := rfl
@[simp] theorem State.updCluster_slewAt (s : State) (k : Nat) (f : Cluster → Cluster) : (s.updCluster k f).slewAt = s.slewAt := rfl
@[simp] theorem State.updCluster_slew (s : State) (k : Nat) (f : Cluster → Cluster) : (s.updCluster k f).slew = s.slew := rfl
@[simp] theorem State.updCluster_bootReports (s : State) (k : Nat) (f : Cluster → Cluster) : (s.updCluster k f).bootReports = s.bootReports := rfl
@[simp] theorem State.updCluster_sent (s : State) (k : Nat) (f : Cluster → Cluster) : (s.updCluster k f).sent = s.sent := rfl
@[simp] theorem State.updCluster_cnWrite (s : State) (k : Nat) (f : Cluster → Cluster) : (s.updCluster k f).cnWrite = s.cnWrite := rfl
@[simp] theorem State.updCluster_selWrite (s : State) (k : Nat) (f : Cluster → Cluster) : (s.updCluster k f).selWrite = s.selWrite := rfl
@[simp] theorem State.updCluster_cxlPages (s : State) (k : Nat) (f : Cluster → Cluster) : (s.updCluster k f).cxlPages = s.cxlPages := rfl
@[simp] theorem State.updCluster_takes (s : State) (k : Nat) (f : Cluster → Cluster) : (s.updCluster k f).takes = s.takes := rfl
@[simp] theorem State.updCluster_lists (s : State) (k : Nat) (f : Cluster → Cluster) : (s.updCluster k f).lists = s.lists := rfl
@[simp] theorem State.updCluster_supervisor (s : State) (k : Nat) (f : Cluster → Cluster) : (s.updCluster k f).supervisor = s.supervisor := rfl
@[simp] theorem State.updCluster_image (s : State) (k : Nat) (f : Cluster → Cluster) : (s.updCluster k f).image = s.image := rfl
@[simp] theorem State.updCluster_gangs (s : State) (k : Nat) (f : Cluster → Cluster) : (s.updCluster k f).gangs = s.gangs := rfl
@[simp] theorem State.updCluster_nextGang (s : State) (k : Nat) (f : Cluster → Cluster) : (s.updCluster k f).nextGang = s.nextGang := rfl
@[simp] theorem State.updCluster_nextCopy (s : State) (k : Nat) (f : Cluster → Cluster) : (s.updCluster k f).nextCopy = s.nextCopy := rfl
@[simp] theorem State.updCluster_jcidx (s : State) (k : Nat) (f : Cluster → Cluster) : (s.updCluster k f).jcidx = s.jcidx := rfl
@[simp] theorem State.updCluster_journals (s : State) (k : Nat) (f : Cluster → Cluster) : (s.updCluster k f).journals = s.journals := rfl
@[simp] theorem State.updCluster_quotes (s : State) (k : Nat) (f : Cluster → Cluster) : (s.updCluster k f).quotes = s.quotes := rfl
@[simp] theorem State.updCluster_hostData (s : State) (k : Nat) (f : Cluster → Cluster) : (s.updCluster k f).hostData = s.hostData := rfl
@[simp] theorem State.updCluster_hostPoison (s : State) (k : Nat) (f : Cluster → Cluster) : (s.updCluster k f).hostPoison = s.hostPoison := rfl
@[simp] theorem State.updCluster_poweredDown (s : State) (k : Nat) (f : Cluster → Cluster) : (s.updCluster k f).poweredDown = s.poweredDown := rfl

@[simp] theorem State.updDie_agenda (s : State) (d : Nat) (f : Die → Die) : (s.updDie d f).agenda = s.agenda := rfl
@[simp] theorem State.updDie_cur (s : State) (d : Nat) (f : Die → Die) : (s.updDie d f).cur = s.cur := rfl
@[simp] theorem State.updDie_now (s : State) (d : Nat) (f : Die → Die) : (s.updDie d f).now = s.now := rfl
@[simp] theorem State.updDie_draws (s : State) (d : Nat) (f : Die → Die) : (s.updDie d f).draws = s.draws := rfl
@[simp] theorem State.updDie_harts (s : State) (d : Nat) (f : Die → Die) : (s.updDie d f).harts = s.harts := rfl
@[simp] theorem State.updDie_cores (s : State) (d : Nat) (f : Die → Die) : (s.updDie d f).cores = s.cores := rfl
@[simp] theorem State.updDie_clusters (s : State) (d : Nat) (f : Die → Die) : (s.updDie d f).clusters = s.clusters := rfl
@[simp] theorem State.updDie_baseDies (s : State) (d : Nat) (f : Die → Die) : (s.updDie d f).baseDies = s.baseDies := rfl
@[simp] theorem State.updDie_cxl (s : State) (d : Nat) (f : Die → Die) : (s.updDie d f).cxl = s.cxl := rfl
@[simp] theorem State.updDie_cenel (s : State) (d : Nat) (f : Die → Die) : (s.updDie d f).cenel = s.cenel := rfl
@[simp] theorem State.updDie_dieNet (s : State) (d : Nat) (f : Die → Die) : (s.updDie d f).dieNet = s.dieNet := rfl
@[simp] theorem State.updDie_eth (s : State) (d : Nat) (f : Die → Die) : (s.updDie d f).eth = s.eth := rfl
@[simp] theorem State.updDie_qps (s : State) (d : Nat) (f : Die → Die) : (s.updDie d f).qps = s.qps := rfl
@[simp] theorem State.updDie_peers (s : State) (d : Nat) (f : Die → Die) : (s.updDie d f).peers = s.peers := rfl
@[simp] theorem State.updDie_mem (s : State) (d : Nat) (f : Die → Die) : (s.updDie d f).mem = s.mem := rfl
@[simp] theorem State.updDie_poison (s : State) (d : Nat) (f : Die → Die) : (s.updDie d f).poison = s.poison := rfl
@[simp] theorem State.updDie_drains (s : State) (d : Nat) (f : Die → Die) : (s.updDie d f).drains = s.drains := rfl
@[simp] theorem State.updDie_tinv (s : State) (d : Nat) (f : Die → Die) : (s.updDie d f).tinv = s.tinv := rfl
@[simp] theorem State.updDie_streams (s : State) (d : Nat) (f : Die → Die) : (s.updDie d f).streams = s.streams := rfl
@[simp] theorem State.updDie_counters (s : State) (d : Nat) (f : Die → Die) : (s.updDie d f).counters = s.counters := rfl
@[simp] theorem State.updDie_lastRead (s : State) (d : Nat) (f : Die → Die) : (s.updDie d f).lastRead = s.lastRead := rfl
@[simp] theorem State.updDie_ctbase (s : State) (d : Nat) (f : Die → Die) : (s.updDie d f).ctbase = s.ctbase := rfl
@[simp] theorem State.updDie_cnloss (s : State) (d : Nat) (f : Die → Die) : (s.updDie d f).cnloss = s.cnloss := rfl
@[simp] theorem State.updDie_seqs (s : State) (d : Nat) (f : Die → Die) : (s.updDie d f).seqs = s.seqs := rfl
@[simp] theorem State.updDie_halts (s : State) (d : Nat) (f : Die → Die) : (s.updDie d f).halts = s.halts := rfl
@[simp] theorem State.updDie_stopBase (s : State) (d : Nat) (f : Die → Die) : (s.updDie d f).stopBase = s.stopBase := rfl
@[simp] theorem State.updDie_tenantTable (s : State) (d : Nat) (f : Die → Die) : (s.updDie d f).tenantTable = s.tenantTable := rfl
@[simp] theorem State.updDie_mgmt (s : State) (d : Nat) (f : Die → Die) : (s.updDie d f).mgmt = s.mgmt := rfl
@[simp] theorem State.updDie_timePort (s : State) (d : Nat) (f : Die → Die) : (s.updDie d f).timePort = s.timePort := rfl
@[simp] theorem State.updDie_slewAt (s : State) (d : Nat) (f : Die → Die) : (s.updDie d f).slewAt = s.slewAt := rfl
@[simp] theorem State.updDie_slew (s : State) (d : Nat) (f : Die → Die) : (s.updDie d f).slew = s.slew := rfl
@[simp] theorem State.updDie_bootReports (s : State) (d : Nat) (f : Die → Die) : (s.updDie d f).bootReports = s.bootReports := rfl
@[simp] theorem State.updDie_sent (s : State) (d : Nat) (f : Die → Die) : (s.updDie d f).sent = s.sent := rfl
@[simp] theorem State.updDie_cnWrite (s : State) (d : Nat) (f : Die → Die) : (s.updDie d f).cnWrite = s.cnWrite := rfl
@[simp] theorem State.updDie_selWrite (s : State) (d : Nat) (f : Die → Die) : (s.updDie d f).selWrite = s.selWrite := rfl
@[simp] theorem State.updDie_cxlPages (s : State) (d : Nat) (f : Die → Die) : (s.updDie d f).cxlPages = s.cxlPages := rfl
@[simp] theorem State.updDie_takes (s : State) (d : Nat) (f : Die → Die) : (s.updDie d f).takes = s.takes := rfl
@[simp] theorem State.updDie_lists (s : State) (d : Nat) (f : Die → Die) : (s.updDie d f).lists = s.lists := rfl
@[simp] theorem State.updDie_supervisor (s : State) (d : Nat) (f : Die → Die) : (s.updDie d f).supervisor = s.supervisor := rfl
@[simp] theorem State.updDie_image (s : State) (d : Nat) (f : Die → Die) : (s.updDie d f).image = s.image := rfl
@[simp] theorem State.updDie_gangs (s : State) (d : Nat) (f : Die → Die) : (s.updDie d f).gangs = s.gangs := rfl
@[simp] theorem State.updDie_nextGang (s : State) (d : Nat) (f : Die → Die) : (s.updDie d f).nextGang = s.nextGang := rfl
@[simp] theorem State.updDie_nextCopy (s : State) (d : Nat) (f : Die → Die) : (s.updDie d f).nextCopy = s.nextCopy := rfl
@[simp] theorem State.updDie_jcidx (s : State) (d : Nat) (f : Die → Die) : (s.updDie d f).jcidx = s.jcidx := rfl
@[simp] theorem State.updDie_journals (s : State) (d : Nat) (f : Die → Die) : (s.updDie d f).journals = s.journals := rfl
@[simp] theorem State.updDie_quotes (s : State) (d : Nat) (f : Die → Die) : (s.updDie d f).quotes = s.quotes := rfl
@[simp] theorem State.updDie_hostData (s : State) (d : Nat) (f : Die → Die) : (s.updDie d f).hostData = s.hostData := rfl
@[simp] theorem State.updDie_hostPoison (s : State) (d : Nat) (f : Die → Die) : (s.updDie d f).hostPoison = s.hostPoison := rfl
@[simp] theorem State.updDie_poweredDown (s : State) (d : Nat) (f : Die → Die) : (s.updDie d f).poweredDown = s.poweredDown := rfl

@[simp] theorem State.updStack_agenda (s : State) (n : Nat) (f : Stack → Stack) : (s.updStack n f).agenda = s.agenda := rfl
@[simp] theorem State.updStack_cur (s : State) (n : Nat) (f : Stack → Stack) : (s.updStack n f).cur = s.cur := rfl
@[simp] theorem State.updStack_now (s : State) (n : Nat) (f : Stack → Stack) : (s.updStack n f).now = s.now := rfl
@[simp] theorem State.updStack_draws (s : State) (n : Nat) (f : Stack → Stack) : (s.updStack n f).draws = s.draws := rfl
@[simp] theorem State.updStack_harts (s : State) (n : Nat) (f : Stack → Stack) : (s.updStack n f).harts = s.harts := rfl
@[simp] theorem State.updStack_cores (s : State) (n : Nat) (f : Stack → Stack) : (s.updStack n f).cores = s.cores := rfl
@[simp] theorem State.updStack_clusters (s : State) (n : Nat) (f : Stack → Stack) : (s.updStack n f).clusters = s.clusters := rfl
@[simp] theorem State.updStack_dies (s : State) (n : Nat) (f : Stack → Stack) : (s.updStack n f).dies = s.dies := rfl
@[simp] theorem State.updStack_cxl (s : State) (n : Nat) (f : Stack → Stack) : (s.updStack n f).cxl = s.cxl := rfl
@[simp] theorem State.updStack_cenel (s : State) (n : Nat) (f : Stack → Stack) : (s.updStack n f).cenel = s.cenel := rfl
@[simp] theorem State.updStack_dieNet (s : State) (n : Nat) (f : Stack → Stack) : (s.updStack n f).dieNet = s.dieNet := rfl
@[simp] theorem State.updStack_eth (s : State) (n : Nat) (f : Stack → Stack) : (s.updStack n f).eth = s.eth := rfl
@[simp] theorem State.updStack_qps (s : State) (n : Nat) (f : Stack → Stack) : (s.updStack n f).qps = s.qps := rfl
@[simp] theorem State.updStack_peers (s : State) (n : Nat) (f : Stack → Stack) : (s.updStack n f).peers = s.peers := rfl
@[simp] theorem State.updStack_mem (s : State) (n : Nat) (f : Stack → Stack) : (s.updStack n f).mem = s.mem := rfl
@[simp] theorem State.updStack_poison (s : State) (n : Nat) (f : Stack → Stack) : (s.updStack n f).poison = s.poison := rfl
@[simp] theorem State.updStack_drains (s : State) (n : Nat) (f : Stack → Stack) : (s.updStack n f).drains = s.drains := rfl
@[simp] theorem State.updStack_tinv (s : State) (n : Nat) (f : Stack → Stack) : (s.updStack n f).tinv = s.tinv := rfl
@[simp] theorem State.updStack_streams (s : State) (n : Nat) (f : Stack → Stack) : (s.updStack n f).streams = s.streams := rfl
@[simp] theorem State.updStack_counters (s : State) (n : Nat) (f : Stack → Stack) : (s.updStack n f).counters = s.counters := rfl
@[simp] theorem State.updStack_lastRead (s : State) (n : Nat) (f : Stack → Stack) : (s.updStack n f).lastRead = s.lastRead := rfl
@[simp] theorem State.updStack_ctbase (s : State) (n : Nat) (f : Stack → Stack) : (s.updStack n f).ctbase = s.ctbase := rfl
@[simp] theorem State.updStack_cnloss (s : State) (n : Nat) (f : Stack → Stack) : (s.updStack n f).cnloss = s.cnloss := rfl
@[simp] theorem State.updStack_seqs (s : State) (n : Nat) (f : Stack → Stack) : (s.updStack n f).seqs = s.seqs := rfl
@[simp] theorem State.updStack_halts (s : State) (n : Nat) (f : Stack → Stack) : (s.updStack n f).halts = s.halts := rfl
@[simp] theorem State.updStack_stopBase (s : State) (n : Nat) (f : Stack → Stack) : (s.updStack n f).stopBase = s.stopBase := rfl
@[simp] theorem State.updStack_tenantTable (s : State) (n : Nat) (f : Stack → Stack) : (s.updStack n f).tenantTable = s.tenantTable := rfl
@[simp] theorem State.updStack_mgmt (s : State) (n : Nat) (f : Stack → Stack) : (s.updStack n f).mgmt = s.mgmt := rfl
@[simp] theorem State.updStack_timePort (s : State) (n : Nat) (f : Stack → Stack) : (s.updStack n f).timePort = s.timePort := rfl
@[simp] theorem State.updStack_slewAt (s : State) (n : Nat) (f : Stack → Stack) : (s.updStack n f).slewAt = s.slewAt := rfl
@[simp] theorem State.updStack_slew (s : State) (n : Nat) (f : Stack → Stack) : (s.updStack n f).slew = s.slew := rfl
@[simp] theorem State.updStack_bootReports (s : State) (n : Nat) (f : Stack → Stack) : (s.updStack n f).bootReports = s.bootReports := rfl
@[simp] theorem State.updStack_sent (s : State) (n : Nat) (f : Stack → Stack) : (s.updStack n f).sent = s.sent := rfl
@[simp] theorem State.updStack_cnWrite (s : State) (n : Nat) (f : Stack → Stack) : (s.updStack n f).cnWrite = s.cnWrite := rfl
@[simp] theorem State.updStack_selWrite (s : State) (n : Nat) (f : Stack → Stack) : (s.updStack n f).selWrite = s.selWrite := rfl
@[simp] theorem State.updStack_cxlPages (s : State) (n : Nat) (f : Stack → Stack) : (s.updStack n f).cxlPages = s.cxlPages := rfl
@[simp] theorem State.updStack_takes (s : State) (n : Nat) (f : Stack → Stack) : (s.updStack n f).takes = s.takes := rfl
@[simp] theorem State.updStack_lists (s : State) (n : Nat) (f : Stack → Stack) : (s.updStack n f).lists = s.lists := rfl
@[simp] theorem State.updStack_supervisor (s : State) (n : Nat) (f : Stack → Stack) : (s.updStack n f).supervisor = s.supervisor := rfl
@[simp] theorem State.updStack_image (s : State) (n : Nat) (f : Stack → Stack) : (s.updStack n f).image = s.image := rfl
@[simp] theorem State.updStack_gangs (s : State) (n : Nat) (f : Stack → Stack) : (s.updStack n f).gangs = s.gangs := rfl
@[simp] theorem State.updStack_nextGang (s : State) (n : Nat) (f : Stack → Stack) : (s.updStack n f).nextGang = s.nextGang := rfl
@[simp] theorem State.updStack_nextCopy (s : State) (n : Nat) (f : Stack → Stack) : (s.updStack n f).nextCopy = s.nextCopy := rfl
@[simp] theorem State.updStack_jcidx (s : State) (n : Nat) (f : Stack → Stack) : (s.updStack n f).jcidx = s.jcidx := rfl
@[simp] theorem State.updStack_journals (s : State) (n : Nat) (f : Stack → Stack) : (s.updStack n f).journals = s.journals := rfl
@[simp] theorem State.updStack_quotes (s : State) (n : Nat) (f : Stack → Stack) : (s.updStack n f).quotes = s.quotes := rfl
@[simp] theorem State.updStack_hostData (s : State) (n : Nat) (f : Stack → Stack) : (s.updStack n f).hostData = s.hostData := rfl
@[simp] theorem State.updStack_hostPoison (s : State) (n : Nat) (f : Stack → Stack) : (s.updStack n f).hostPoison = s.hostPoison := rfl
@[simp] theorem State.updStack_poweredDown (s : State) (n : Nat) (f : Stack → Stack) : (s.updStack n f).poweredDown = s.poweredDown := rfl

-- A counter -------------------------------------------------------------------------------------------------------------

@[simp] theorem State.count_agenda (s : State) (c n : Nat) : (s.count c n).agenda = s.agenda := rfl
@[simp] theorem State.count_cur (s : State) (c n : Nat) : (s.count c n).cur = s.cur := rfl
@[simp] theorem State.count_now (s : State) (c n : Nat) : (s.count c n).now = s.now := rfl
@[simp] theorem State.count_draws (s : State) (c n : Nat) : (s.count c n).draws = s.draws := rfl
@[simp] theorem State.count_harts (s : State) (c n : Nat) : (s.count c n).harts = s.harts := rfl
@[simp] theorem State.count_cores (s : State) (c n : Nat) : (s.count c n).cores = s.cores := rfl
@[simp] theorem State.count_clusters (s : State) (c n : Nat) : (s.count c n).clusters = s.clusters := rfl
@[simp] theorem State.count_dies (s : State) (c n : Nat) : (s.count c n).dies = s.dies := rfl
@[simp] theorem State.count_baseDies (s : State) (c n : Nat) : (s.count c n).baseDies = s.baseDies := rfl
@[simp] theorem State.count_cxl (s : State) (c n : Nat) : (s.count c n).cxl = s.cxl := rfl
@[simp] theorem State.count_cenel (s : State) (c n : Nat) : (s.count c n).cenel = s.cenel := rfl
@[simp] theorem State.count_dieNet (s : State) (c n : Nat) : (s.count c n).dieNet = s.dieNet := rfl
@[simp] theorem State.count_eth (s : State) (c n : Nat) : (s.count c n).eth = s.eth := rfl
@[simp] theorem State.count_qps (s : State) (c n : Nat) : (s.count c n).qps = s.qps := rfl
@[simp] theorem State.count_peers (s : State) (c n : Nat) : (s.count c n).peers = s.peers := rfl
@[simp] theorem State.count_mem (s : State) (c n : Nat) : (s.count c n).mem = s.mem := rfl
@[simp] theorem State.count_poison (s : State) (c n : Nat) : (s.count c n).poison = s.poison := rfl
@[simp] theorem State.count_drains (s : State) (c n : Nat) : (s.count c n).drains = s.drains := rfl
@[simp] theorem State.count_tinv (s : State) (c n : Nat) : (s.count c n).tinv = s.tinv := rfl
@[simp] theorem State.count_streams (s : State) (c n : Nat) : (s.count c n).streams = s.streams := rfl
@[simp] theorem State.count_lastRead (s : State) (c n : Nat) : (s.count c n).lastRead = s.lastRead := rfl
@[simp] theorem State.count_ctbase (s : State) (c n : Nat) : (s.count c n).ctbase = s.ctbase := rfl
@[simp] theorem State.count_cnloss (s : State) (c n : Nat) : (s.count c n).cnloss = s.cnloss := rfl
@[simp] theorem State.count_seqs (s : State) (c n : Nat) : (s.count c n).seqs = s.seqs := rfl
@[simp] theorem State.count_halts (s : State) (c n : Nat) : (s.count c n).halts = s.halts := rfl
@[simp] theorem State.count_stopBase (s : State) (c n : Nat) : (s.count c n).stopBase = s.stopBase := rfl
@[simp] theorem State.count_tenantTable (s : State) (c n : Nat) : (s.count c n).tenantTable = s.tenantTable := rfl
@[simp] theorem State.count_mgmt (s : State) (c n : Nat) : (s.count c n).mgmt = s.mgmt := rfl
@[simp] theorem State.count_timePort (s : State) (c n : Nat) : (s.count c n).timePort = s.timePort := rfl
@[simp] theorem State.count_slewAt (s : State) (c n : Nat) : (s.count c n).slewAt = s.slewAt := rfl
@[simp] theorem State.count_slew (s : State) (c n : Nat) : (s.count c n).slew = s.slew := rfl
@[simp] theorem State.count_bootReports (s : State) (c n : Nat) : (s.count c n).bootReports = s.bootReports := rfl
@[simp] theorem State.count_sent (s : State) (c n : Nat) : (s.count c n).sent = s.sent := rfl
@[simp] theorem State.count_cnWrite (s : State) (c n : Nat) : (s.count c n).cnWrite = s.cnWrite := rfl
@[simp] theorem State.count_selWrite (s : State) (c n : Nat) : (s.count c n).selWrite = s.selWrite := rfl
@[simp] theorem State.count_cxlPages (s : State) (c n : Nat) : (s.count c n).cxlPages = s.cxlPages := rfl
@[simp] theorem State.count_takes (s : State) (c n : Nat) : (s.count c n).takes = s.takes := rfl
@[simp] theorem State.count_lists (s : State) (c n : Nat) : (s.count c n).lists = s.lists := rfl
@[simp] theorem State.count_supervisor (s : State) (c n : Nat) : (s.count c n).supervisor = s.supervisor := rfl
@[simp] theorem State.count_image (s : State) (c n : Nat) : (s.count c n).image = s.image := rfl
@[simp] theorem State.count_gangs (s : State) (c n : Nat) : (s.count c n).gangs = s.gangs := rfl
@[simp] theorem State.count_nextGang (s : State) (c n : Nat) : (s.count c n).nextGang = s.nextGang := rfl
@[simp] theorem State.count_nextCopy (s : State) (c n : Nat) : (s.count c n).nextCopy = s.nextCopy := rfl
@[simp] theorem State.count_jcidx (s : State) (c n : Nat) : (s.count c n).jcidx = s.jcidx := rfl
@[simp] theorem State.count_journals (s : State) (c n : Nat) : (s.count c n).journals = s.journals := rfl
@[simp] theorem State.count_quotes (s : State) (c n : Nat) : (s.count c n).quotes = s.quotes := rfl
@[simp] theorem State.count_hostData (s : State) (c n : Nat) : (s.count c n).hostData = s.hostData := rfl
@[simp] theorem State.count_hostPoison (s : State) (c n : Nat) : (s.count c n).hostPoison = s.hostPoison := rfl
@[simp] theorem State.count_poweredDown (s : State) (c n : Nat) : (s.count c n).poweredDown = s.poweredDown := rfl
@[simp] theorem State.setHart_hart (s : State) (h j : Nat) (v : Hart) : (s.setHart h v).hart j = if j = h then v else s.hart j :=
  Tab.get_put ..
@[simp] theorem State.setCore_core (s : State) (c j : Nat) (v : Core) : (s.setCore c v).core j = if j = c then v else s.core j :=
  Tab.get_put ..
@[simp] theorem State.setCluster_cluster (s : State) (k j : Nat) (v : Cluster) : (s.setCluster k v).cluster j = if j = k then v else s.cluster j :=
  Tab.get_put ..
@[simp] theorem State.setDie_die (s : State) (d j : Nat) (v : Die) : (s.setDie d v).die j = if j = d then v else s.die j :=
  Tab.get_put ..
@[simp] theorem State.setStack_stack (s : State) (n j : Nat) (v : Stack) : (s.setStack n v).stack j = if j = n then v else s.stack j :=
  Tab.get_put ..
@[simp] theorem State.setStream_stream (s : State) (n j : Nat) (v : Stream) : (s.setStream n v).stream j = if j = n then v else s.stream j :=
  Tab.get_put ..
@[simp] theorem State.setJournal_journal (s : State) (n j : Nat) (v : Journal) : (s.setJournal n v).journal j = if j = n then v else s.journal j :=
  Tab.get_put ..
@[simp] theorem State.setHart_me (s : State) (v : Hart) : (s.setHart s.cur v).me = v := by simp [State.me]
@[simp] theorem State.updMe_me (s : State) (f : Hart → Hart) : (s.updMe f).me = f s.me := by simp [State.updMe_eq]
@[simp] theorem State.updMe_cur (s : State) (f : Hart → Hart) : (s.updMe f).cur = s.cur := rfl
@[simp] theorem State.updMe_mem (s : State) (f : Hart → Hart) : (s.updMe f).mem = s.mem := rfl


-- The parts of a hart ----------------------------------------------------------------------------------------------------

@[simp] theorem Hart.goTo_pc (h : Hart) (a : Word) : (h.goTo a).pc = a := rfl
@[simp] theorem Hart.goTo_x (h : Hart) (a : Word) : (h.goTo a).x = h.x := rfl
@[simp] theorem Hart.goTo_vlen (h : Hart) (a : Word) : (h.goTo a).vlen = h.vlen := rfl
@[simp] theorem Hart.goTo_mvlen (h : Hart) (a : Word) : (h.goTo a).mvlen = h.mvlen := rfl
@[simp] theorem Hart.goTo_vtype (h : Hart) (a : Word) : (h.goTo a).vtype = h.vtype := rfl
@[simp] theorem Hart.goTo_sw (h : Hart) (a : Word) : (h.goTo a).sw = h.sw := rfl
@[simp] theorem Hart.goTo_swq (h : Hart) (a : Word) : (h.goTo a).swq = h.swq := rfl
@[simp] theorem Hart.goTo_stripBase (h : Hart) (a : Word) : (h.goTo a).stripBase = h.stripBase := rfl
@[simp] theorem Hart.goTo_buffer (h : Hart) (a : Word) : (h.goTo a).buffer = h.buffer := rfl
@[simp] theorem Hart.goTo_kidx (h : Hart) (a : Word) : (h.goTo a).kidx = h.kidx := rfl
@[simp] theorem Hart.goTo_fpctl (h : Hart) (a : Word) : (h.goTo a).fpctl = h.fpctl := rfl
@[simp] theorem Hart.goTo_fpflags (h : Hart) (a : Word) : (h.goTo a).fpflags = h.fpflags := rfl
@[simp] theorem Hart.goTo_ptemp (h : Hart) (a : Word) : (h.goTo a).ptemp = h.ptemp := rfl
@[simp] theorem Hart.goTo_gctr (h : Hart) (a : Word) : (h.goTo a).gctr = h.gctr := rfl
@[simp] theorem Hart.goTo_gid (h : Hart) (a : Word) : (h.goTo a).gid = h.gid := rfl
@[simp] theorem Hart.goTo_gsz (h : Hart) (a : Word) : (h.goTo a).gsz = h.gsz := rfl
@[simp] theorem Hart.goTo_garg (h : Hart) (a : Word) : (h.goTo a).garg = h.garg := rfl
@[simp] theorem Hart.goTo_tenant (h : Hart) (a : Word) : (h.goTo a).tenant = h.tenant := rfl
@[simp] theorem Hart.goTo_sup (h : Hart) (a : Word) : (h.goTo a).sup = h.sup := rfl
@[simp] theorem Hart.goTo_matrix (h : Hart) (a : Word) : (h.goTo a).matrix = h.matrix := rfl
@[simp] theorem Hart.goTo_tvec (h : Hart) (a : Word) : (h.goTo a).tvec = h.tvec := rfl
@[simp] theorem Hart.goTo_tpc (h : Hart) (a : Word) : (h.goTo a).tpc = h.tpc := rfl
@[simp] theorem Hart.goTo_tcause (h : Hart) (a : Word) : (h.goTo a).tcause = h.tcause := rfl
@[simp] theorem Hart.goTo_tval (h : Hart) (a : Word) : (h.goTo a).tval = h.tval := rfl
@[simp] theorem Hart.goTo_tinfo (h : Hart) (a : Word) : (h.goTo a).tinfo = h.tinfo := rfl
@[simp] theorem Hart.goTo_tscratch (h : Hart) (a : Word) : (h.goTo a).tscratch = h.tscratch := rfl
@[simp] theorem Hart.goTo_ectr (h : Hart) (a : Word) : (h.goTo a).ectr = h.ectr := rfl
@[simp] theorem Hart.goTo_pend (h : Hart) (a : Word) : (h.goTo a).pend = h.pend := rfl
@[simp] theorem Hart.goTo_own (h : Hart) (a : Word) : (h.goTo a).own = h.own := rfl
@[simp] theorem Hart.goTo_tbase (h : Hart) (a : Word) : (h.goTo a).tbase = h.tbase := rfl
@[simp] theorem Hart.goTo_tmask (h : Hart) (a : Word) : (h.goTo a).tmask = h.tmask := rfl
@[simp] theorem Hart.goTo_tallow (h : Hart) (a : Word) : (h.goTo a).tallow = h.tallow := rfl
@[simp] theorem Hart.goTo_cnsel (h : Hart) (a : Word) : (h.goTo a).cnsel = h.cnsel := rfl
@[simp] theorem Hart.goTo_jsel (h : Hart) (a : Word) : (h.goTo a).jsel = h.jsel := rfl
@[simp] theorem Hart.goTo_v (h : Hart) (a : Word) : (h.goTo a).v = h.v := rfl
@[simp] theorem Hart.goTo_p (h : Hart) (a : Word) : (h.goTo a).p = h.p := rfl
@[simp] theorem Hart.goTo_k (h : Hart) (a : Word) : (h.goTo a).k = h.k := rfl
@[simp] theorem Hart.goTo_lanes (h : Hart) (a : Word) : (h.goTo a).lanes = h.lanes := rfl
@[simp] theorem Hart.goTo_za (h : Hart) (a : Word) : (h.goTo a).za = h.za := rfl
@[simp] theorem Hart.goTo_zb (h : Hart) (a : Word) : (h.goTo a).zb = h.zb := rfl
@[simp] theorem Hart.goTo_bypass (h : Hart) (a : Word) : (h.goTo a).bypass = h.bypass := rfl
@[simp] theorem Hart.goTo_queue (h : Hart) (a : Word) : (h.goTo a).queue = h.queue := rfl
@[simp] theorem Hart.goTo_run (h : Hart) (a : Word) : (h.goTo a).run = h.run := rfl
@[simp] theorem Hart.goTo_armed (h : Hart) (a : Word) : (h.goTo a).armed = h.armed := rfl
@[simp] theorem Hart.goTo_latch (h : Hart) (a : Word) : (h.goTo a).latch = h.latch := rfl
@[simp] theorem Hart.goTo_lastAcq (h : Hart) (a : Word) : (h.goTo a).lastAcq = h.lastAcq := rfl
@[simp] theorem Hart.goTo_started (h : Hart) (a : Word) : (h.goTo a).started = h.started := rfl
@[simp] theorem Hart.goTo_halted (h : Hart) (a : Word) : (h.goTo a).halted = h.halted := rfl
@[simp] theorem Hart.goTo_wait (h : Hart) (a : Word) : (h.goTo a).wait = .none := rfl
@[simp] theorem Hart.goTo_waitSince (h : Hart) (a : Word) : (h.goTo a).waitSince = h.waitSince := rfl
@[simp] theorem Hart.goTo_issued (h : Hart) (a : Word) : (h.goTo a).issued = false := rfl
@[simp] theorem Hart.goTo_issuedAt (h : Hart) (a : Word) : (h.goTo a).issuedAt = h.issuedAt := rfl
@[simp] theorem Hart.goTo_preempt (h : Hart) (a : Word) : (h.goTo a).preempt = h.preempt := rfl
@[simp] theorem Hart.goTo_stopMsg (h : Hart) (a : Word) : (h.goTo a).stopMsg = h.stopMsg := rfl
@[simp] theorem Hart.goTo_stopTaken (h : Hart) (a : Word) : (h.goTo a).stopTaken = h.stopTaken := rfl
@[simp] theorem Hart.goTo_gang (h : Hart) (a : Word) : (h.goTo a).gang = h.gang := rfl
@[simp] theorem Hart.goTo_arr (h : Hart) (a : Word) : (h.goTo a).arr = h.arr := rfl
@[simp] theorem Hart.goTo_pass (h : Hart) (a : Word) : (h.goTo a).pass = h.pass := rfl
@[simp] theorem Hart.goTo_idle (h : Hart) (a : Word) : (h.goTo a).idle = h.idle := rfl
@[simp] theorem Hart.goTo_arrivedAt (h : Hart) (a : Word) : (h.goTo a).arrivedAt = h.arrivedAt := rfl
@[simp] theorem Hart.goTo_rest (h : Hart) (a : Word) : (h.goTo a).rest = none := rfl
@[simp] theorem Hart.goTo_trial (h : Hart) (a : Word) : (h.goTo a).trial = h.trial := rfl
@[simp] theorem Hart.goTo_holdUntil (h : Hart) (a : Word) : (h.goTo a).holdUntil = h.holdUntil := rfl
@[simp] theorem Hart.goTo_reply (h : Hart) (a : Word) : (h.goTo a).reply = h.reply := rfl
@[simp] theorem Hart.goTo_emitSeq (h : Hart) (a : Word) : (h.goTo a).emitSeq = none := rfl
@[simp] theorem Hart.goTo_stall (h : Hart) (a : Word) : (h.goTo a).stall = h.stall := rfl
@[simp] theorem Hart.goTo_holds (h : Hart) (a : Word) : (h.goTo a).holds = h.holds := rfl
@[simp] theorem Hart.goTo_marks (h : Hart) (a : Word) : (h.goTo a).marks = h.marks := rfl
@[simp] theorem Hart.goTo_behind (h : Hart) (a : Word) : (h.goTo a).behind = h.behind := rfl
@[simp] theorem Hart.goTo_owes (h : Hart) (a : Word) : (h.goTo a).owes = h.owes := rfl
@[simp] theorem Hart.goTo_amo (h : Hart) (a : Word) : (h.goTo a).amo = h.amo := rfl
@[simp] theorem Hart.goTo_tableStall (h : Hart) (a : Word) : (h.goTo a).tableStall = false := rfl
@[simp] theorem Hart.goTo_heldAhead (h : Hart) (a : Word) : (h.goTo a).heldAhead = h.heldAhead := rfl

@[simp] theorem Hart.raise_pc (h : Hart) (f : Flags) : (h.raise f).pc = h.pc := rfl
@[simp] theorem Hart.raise_x (h : Hart) (f : Flags) : (h.raise f).x = h.x := rfl
@[simp] theorem Hart.raise_vlen (h : Hart) (f : Flags) : (h.raise f).vlen = h.vlen := rfl
@[simp] theorem Hart.raise_mvlen (h : Hart) (f : Flags) : (h.raise f).mvlen = h.mvlen := rfl
@[simp] theorem Hart.raise_vtype (h : Hart) (f : Flags) : (h.raise f).vtype = h.vtype := rfl
@[simp] theorem Hart.raise_sw (h : Hart) (f : Flags) : (h.raise f).sw = h.sw := rfl
@[simp] theorem Hart.raise_swq (h : Hart) (f : Flags) : (h.raise f).swq = h.swq := rfl
@[simp] theorem Hart.raise_stripBase (h : Hart) (f : Flags) : (h.raise f).stripBase = h.stripBase := rfl
@[simp] theorem Hart.raise_buffer (h : Hart) (f : Flags) : (h.raise f).buffer = h.buffer := rfl
@[simp] theorem Hart.raise_kidx (h : Hart) (f : Flags) : (h.raise f).kidx = h.kidx := rfl
@[simp] theorem Hart.raise_fpctl (h : Hart) (f : Flags) : (h.raise f).fpctl = h.fpctl := rfl
@[simp] theorem Hart.raise_fpflags (h : Hart) (f : Flags) : (h.raise f).fpflags = h.fpflags ||| f := rfl
@[simp] theorem Hart.raise_ptemp (h : Hart) (f : Flags) : (h.raise f).ptemp = h.ptemp := rfl
@[simp] theorem Hart.raise_gctr (h : Hart) (f : Flags) : (h.raise f).gctr = h.gctr := rfl
@[simp] theorem Hart.raise_gid (h : Hart) (f : Flags) : (h.raise f).gid = h.gid := rfl
@[simp] theorem Hart.raise_gsz (h : Hart) (f : Flags) : (h.raise f).gsz = h.gsz := rfl
@[simp] theorem Hart.raise_garg (h : Hart) (f : Flags) : (h.raise f).garg = h.garg := rfl
@[simp] theorem Hart.raise_tenant (h : Hart) (f : Flags) : (h.raise f).tenant = h.tenant := rfl
@[simp] theorem Hart.raise_sup (h : Hart) (f : Flags) : (h.raise f).sup = h.sup := rfl
@[simp] theorem Hart.raise_matrix (h : Hart) (f : Flags) : (h.raise f).matrix = h.matrix := rfl
@[simp] theorem Hart.raise_tvec (h : Hart) (f : Flags) : (h.raise f).tvec = h.tvec := rfl
@[simp] theorem Hart.raise_tpc (h : Hart) (f : Flags) : (h.raise f).tpc = h.tpc := rfl
@[simp] theorem Hart.raise_tcause (h : Hart) (f : Flags) : (h.raise f).tcause = h.tcause := rfl
@[simp] theorem Hart.raise_tval (h : Hart) (f : Flags) : (h.raise f).tval = h.tval := rfl
@[simp] theorem Hart.raise_tinfo (h : Hart) (f : Flags) : (h.raise f).tinfo = h.tinfo := rfl
@[simp] theorem Hart.raise_tscratch (h : Hart) (f : Flags) : (h.raise f).tscratch = h.tscratch := rfl
@[simp] theorem Hart.raise_ectr (h : Hart) (f : Flags) : (h.raise f).ectr = h.ectr := rfl
@[simp] theorem Hart.raise_pend (h : Hart) (f : Flags) : (h.raise f).pend = h.pend := rfl
@[simp] theorem Hart.raise_own (h : Hart) (f : Flags) : (h.raise f).own = h.own := rfl
@[simp] theorem Hart.raise_tbase (h : Hart) (f : Flags) : (h.raise f).tbase = h.tbase := rfl
@[simp] theorem Hart.raise_tmask (h : Hart) (f : Flags) : (h.raise f).tmask = h.tmask := rfl
@[simp] theorem Hart.raise_tallow (h : Hart) (f : Flags) : (h.raise f).tallow = h.tallow := rfl
@[simp] theorem Hart.raise_cnsel (h : Hart) (f : Flags) : (h.raise f).cnsel = h.cnsel := rfl
@[simp] theorem Hart.raise_jsel (h : Hart) (f : Flags) : (h.raise f).jsel = h.jsel := rfl
@[simp] theorem Hart.raise_v (h : Hart) (f : Flags) : (h.raise f).v = h.v := rfl
@[simp] theorem Hart.raise_p (h : Hart) (f : Flags) : (h.raise f).p = h.p := rfl
@[simp] theorem Hart.raise_k (h : Hart) (f : Flags) : (h.raise f).k = h.k := rfl
@[simp] theorem Hart.raise_lanes (h : Hart) (f : Flags) : (h.raise f).lanes = h.lanes := rfl
@[simp] theorem Hart.raise_za (h : Hart) (f : Flags) : (h.raise f).za = h.za := rfl
@[simp] theorem Hart.raise_zb (h : Hart) (f : Flags) : (h.raise f).zb = h.zb := rfl
@[simp] theorem Hart.raise_bypass (h : Hart) (f : Flags) : (h.raise f).bypass = h.bypass := rfl
@[simp] theorem Hart.raise_queue (h : Hart) (f : Flags) : (h.raise f).queue = h.queue := rfl
@[simp] theorem Hart.raise_run (h : Hart) (f : Flags) : (h.raise f).run = h.run := rfl
@[simp] theorem Hart.raise_armed (h : Hart) (f : Flags) : (h.raise f).armed = h.armed := rfl
@[simp] theorem Hart.raise_latch (h : Hart) (f : Flags) : (h.raise f).latch = h.latch := rfl
@[simp] theorem Hart.raise_lastAcq (h : Hart) (f : Flags) : (h.raise f).lastAcq = h.lastAcq := rfl
@[simp] theorem Hart.raise_started (h : Hart) (f : Flags) : (h.raise f).started = h.started := rfl
@[simp] theorem Hart.raise_halted (h : Hart) (f : Flags) : (h.raise f).halted = h.halted := rfl
@[simp] theorem Hart.raise_wait (h : Hart) (f : Flags) : (h.raise f).wait = h.wait := rfl
@[simp] theorem Hart.raise_waitSince (h : Hart) (f : Flags) : (h.raise f).waitSince = h.waitSince := rfl
@[simp] theorem Hart.raise_issued (h : Hart) (f : Flags) : (h.raise f).issued = h.issued := rfl
@[simp] theorem Hart.raise_issuedAt (h : Hart) (f : Flags) : (h.raise f).issuedAt = h.issuedAt := rfl
@[simp] theorem Hart.raise_preempt (h : Hart) (f : Flags) : (h.raise f).preempt = h.preempt := rfl
@[simp] theorem Hart.raise_stopMsg (h : Hart) (f : Flags) : (h.raise f).stopMsg = h.stopMsg := rfl
@[simp] theorem Hart.raise_stopTaken (h : Hart) (f : Flags) : (h.raise f).stopTaken = h.stopTaken := rfl
@[simp] theorem Hart.raise_gang (h : Hart) (f : Flags) : (h.raise f).gang = h.gang := rfl
@[simp] theorem Hart.raise_arr (h : Hart) (f : Flags) : (h.raise f).arr = h.arr := rfl
@[simp] theorem Hart.raise_pass (h : Hart) (f : Flags) : (h.raise f).pass = h.pass := rfl
@[simp] theorem Hart.raise_idle (h : Hart) (f : Flags) : (h.raise f).idle = h.idle := rfl
@[simp] theorem Hart.raise_arrivedAt (h : Hart) (f : Flags) : (h.raise f).arrivedAt = h.arrivedAt := rfl
@[simp] theorem Hart.raise_rest (h : Hart) (f : Flags) : (h.raise f).rest = h.rest := rfl
@[simp] theorem Hart.raise_trial (h : Hart) (f : Flags) : (h.raise f).trial = h.trial := rfl
@[simp] theorem Hart.raise_holdUntil (h : Hart) (f : Flags) : (h.raise f).holdUntil = h.holdUntil := rfl
@[simp] theorem Hart.raise_reply (h : Hart) (f : Flags) : (h.raise f).reply = h.reply := rfl
@[simp] theorem Hart.raise_emitSeq (h : Hart) (f : Flags) : (h.raise f).emitSeq = h.emitSeq := rfl
@[simp] theorem Hart.raise_stall (h : Hart) (f : Flags) : (h.raise f).stall = h.stall := rfl
@[simp] theorem Hart.raise_holds (h : Hart) (f : Flags) : (h.raise f).holds = h.holds := rfl
@[simp] theorem Hart.raise_marks (h : Hart) (f : Flags) : (h.raise f).marks = h.marks := rfl
@[simp] theorem Hart.raise_behind (h : Hart) (f : Flags) : (h.raise f).behind = h.behind := rfl
@[simp] theorem Hart.raise_owes (h : Hart) (f : Flags) : (h.raise f).owes = h.owes := rfl
@[simp] theorem Hart.raise_amo (h : Hart) (f : Flags) : (h.raise f).amo = h.amo := rfl
@[simp] theorem Hart.raise_tableStall (h : Hart) (f : Flags) : (h.raise f).tableStall = h.tableStall := rfl
@[simp] theorem Hart.raise_heldAhead (h : Hart) (f : Flags) : (h.raise f).heldAhead = h.heldAhead := rfl

@[simp] theorem Hart.next_pc (h : Hart) : h.next.pc = h.pc + 4 := rfl
@[simp] theorem Hart.next_x (h : Hart) : h.next.x = h.x := rfl
@[simp] theorem Hart.next_vlen (h : Hart) : h.next.vlen = h.vlen := rfl
@[simp] theorem Hart.next_mvlen (h : Hart) : h.next.mvlen = h.mvlen := rfl
@[simp] theorem Hart.next_vtype (h : Hart) : h.next.vtype = h.vtype := rfl
@[simp] theorem Hart.next_sw (h : Hart) : h.next.sw = h.sw := rfl
@[simp] theorem Hart.next_swq (h : Hart) : h.next.swq = h.swq := rfl
@[simp] theorem Hart.next_stripBase (h : Hart) : h.next.stripBase = h.stripBase := rfl
@[simp] theorem Hart.next_buffer (h : Hart) : h.next.buffer = h.buffer := rfl
@[simp] theorem Hart.next_kidx (h : Hart) : h.next.kidx = h.kidx := rfl
@[simp] theorem Hart.next_fpctl (h : Hart) : h.next.fpctl = h.fpctl := rfl
@[simp] theorem Hart.next_fpflags (h : Hart) : h.next.fpflags = h.fpflags := rfl
@[simp] theorem Hart.next_ptemp (h : Hart) : h.next.ptemp = h.ptemp := rfl
@[simp] theorem Hart.next_gctr (h : Hart) : h.next.gctr = h.gctr := rfl
@[simp] theorem Hart.next_gid (h : Hart) : h.next.gid = h.gid := rfl
@[simp] theorem Hart.next_gsz (h : Hart) : h.next.gsz = h.gsz := rfl
@[simp] theorem Hart.next_garg (h : Hart) : h.next.garg = h.garg := rfl
@[simp] theorem Hart.next_tenant (h : Hart) : h.next.tenant = h.tenant := rfl
@[simp] theorem Hart.next_sup (h : Hart) : h.next.sup = h.sup := rfl
@[simp] theorem Hart.next_matrix (h : Hart) : h.next.matrix = h.matrix := rfl
@[simp] theorem Hart.next_tvec (h : Hart) : h.next.tvec = h.tvec := rfl
@[simp] theorem Hart.next_tpc (h : Hart) : h.next.tpc = h.tpc := rfl
@[simp] theorem Hart.next_tcause (h : Hart) : h.next.tcause = h.tcause := rfl
@[simp] theorem Hart.next_tval (h : Hart) : h.next.tval = h.tval := rfl
@[simp] theorem Hart.next_tinfo (h : Hart) : h.next.tinfo = h.tinfo := rfl
@[simp] theorem Hart.next_tscratch (h : Hart) : h.next.tscratch = h.tscratch := rfl
@[simp] theorem Hart.next_ectr (h : Hart) : h.next.ectr = h.ectr := rfl
@[simp] theorem Hart.next_pend (h : Hart) : h.next.pend = h.pend := rfl
@[simp] theorem Hart.next_own (h : Hart) : h.next.own = h.own := rfl
@[simp] theorem Hart.next_tbase (h : Hart) : h.next.tbase = h.tbase := rfl
@[simp] theorem Hart.next_tmask (h : Hart) : h.next.tmask = h.tmask := rfl
@[simp] theorem Hart.next_tallow (h : Hart) : h.next.tallow = h.tallow := rfl
@[simp] theorem Hart.next_cnsel (h : Hart) : h.next.cnsel = h.cnsel := rfl
@[simp] theorem Hart.next_jsel (h : Hart) : h.next.jsel = h.jsel := rfl
@[simp] theorem Hart.next_v (h : Hart) : h.next.v = h.v := rfl
@[simp] theorem Hart.next_p (h : Hart) : h.next.p = h.p := rfl
@[simp] theorem Hart.next_k (h : Hart) : h.next.k = h.k := rfl
@[simp] theorem Hart.next_lanes (h : Hart) : h.next.lanes = h.lanes := rfl
@[simp] theorem Hart.next_za (h : Hart) : h.next.za = h.za := rfl
@[simp] theorem Hart.next_zb (h : Hart) : h.next.zb = h.zb := rfl
@[simp] theorem Hart.next_bypass (h : Hart) : h.next.bypass = h.bypass := rfl
@[simp] theorem Hart.next_queue (h : Hart) : h.next.queue = h.queue := rfl
@[simp] theorem Hart.next_run (h : Hart) : h.next.run = h.run := rfl
@[simp] theorem Hart.next_armed (h : Hart) : h.next.armed = h.armed := rfl
@[simp] theorem Hart.next_latch (h : Hart) : h.next.latch = h.latch := rfl
@[simp] theorem Hart.next_lastAcq (h : Hart) : h.next.lastAcq = h.lastAcq := rfl
@[simp] theorem Hart.next_started (h : Hart) : h.next.started = h.started := rfl
@[simp] theorem Hart.next_halted (h : Hart) : h.next.halted = h.halted := rfl
@[simp] theorem Hart.next_wait (h : Hart) : h.next.wait = .none := rfl
@[simp] theorem Hart.next_waitSince (h : Hart) : h.next.waitSince = h.waitSince := rfl
@[simp] theorem Hart.next_issued (h : Hart) : h.next.issued = false := rfl
@[simp] theorem Hart.next_issuedAt (h : Hart) : h.next.issuedAt = h.issuedAt := rfl
@[simp] theorem Hart.next_preempt (h : Hart) : h.next.preempt = h.preempt := rfl
@[simp] theorem Hart.next_stopMsg (h : Hart) : h.next.stopMsg = h.stopMsg := rfl
@[simp] theorem Hart.next_stopTaken (h : Hart) : h.next.stopTaken = h.stopTaken := rfl
@[simp] theorem Hart.next_gang (h : Hart) : h.next.gang = h.gang := rfl
@[simp] theorem Hart.next_arr (h : Hart) : h.next.arr = h.arr := rfl
@[simp] theorem Hart.next_pass (h : Hart) : h.next.pass = h.pass := rfl
@[simp] theorem Hart.next_idle (h : Hart) : h.next.idle = h.idle := rfl
@[simp] theorem Hart.next_arrivedAt (h : Hart) : h.next.arrivedAt = h.arrivedAt := rfl
@[simp] theorem Hart.next_rest (h : Hart) : h.next.rest = none := rfl
@[simp] theorem Hart.next_trial (h : Hart) : h.next.trial = h.trial := rfl
@[simp] theorem Hart.next_holdUntil (h : Hart) : h.next.holdUntil = h.holdUntil := rfl
@[simp] theorem Hart.next_reply (h : Hart) : h.next.reply = h.reply := rfl
@[simp] theorem Hart.next_emitSeq (h : Hart) : h.next.emitSeq = none := rfl
@[simp] theorem Hart.next_stall (h : Hart) : h.next.stall = h.stall := rfl
@[simp] theorem Hart.next_holds (h : Hart) : h.next.holds = h.holds := rfl
@[simp] theorem Hart.next_marks (h : Hart) : h.next.marks = h.marks := rfl
@[simp] theorem Hart.next_behind (h : Hart) : h.next.behind = h.behind := rfl
@[simp] theorem Hart.next_owes (h : Hart) : h.next.owes = h.owes := rfl
@[simp] theorem Hart.next_amo (h : Hart) : h.next.amo = h.amo := rfl
@[simp] theorem Hart.next_tableStall (h : Hart) : h.next.tableStall = false := rfl
@[simp] theorem Hart.next_heldAhead (h : Hart) : h.next.heldAhead = h.heldAhead := rfl

@[simp] theorem Hart.writeX_pc (h : Hart) (r : Reg) (v : Word) : (h.writeX r v).pc = h.pc := by unfold Hart.writeX; split <;> rfl
@[simp] theorem Hart.writeX_vlen (h : Hart) (r : Reg) (v : Word) : (h.writeX r v).vlen = h.vlen := by unfold Hart.writeX; split <;> rfl
@[simp] theorem Hart.writeX_mvlen (h : Hart) (r : Reg) (v : Word) : (h.writeX r v).mvlen = h.mvlen := by unfold Hart.writeX; split <;> rfl
@[simp] theorem Hart.writeX_vtype (h : Hart) (r : Reg) (v : Word) : (h.writeX r v).vtype = h.vtype := by unfold Hart.writeX; split <;> rfl
@[simp] theorem Hart.writeX_sw (h : Hart) (r : Reg) (v : Word) : (h.writeX r v).sw = h.sw := by unfold Hart.writeX; split <;> rfl
@[simp] theorem Hart.writeX_swq (h : Hart) (r : Reg) (v : Word) : (h.writeX r v).swq = h.swq := by unfold Hart.writeX; split <;> rfl
@[simp] theorem Hart.writeX_stripBase (h : Hart) (r : Reg) (v : Word) : (h.writeX r v).stripBase = h.stripBase := by unfold Hart.writeX; split <;> rfl
@[simp] theorem Hart.writeX_buffer (h : Hart) (r : Reg) (v : Word) : (h.writeX r v).buffer = h.buffer := by unfold Hart.writeX; split <;> rfl
@[simp] theorem Hart.writeX_kidx (h : Hart) (r : Reg) (v : Word) : (h.writeX r v).kidx = h.kidx := by unfold Hart.writeX; split <;> rfl
@[simp] theorem Hart.writeX_fpctl (h : Hart) (r : Reg) (v : Word) : (h.writeX r v).fpctl = h.fpctl := by unfold Hart.writeX; split <;> rfl
@[simp] theorem Hart.writeX_fpflags (h : Hart) (r : Reg) (v : Word) : (h.writeX r v).fpflags = h.fpflags := by unfold Hart.writeX; split <;> rfl
@[simp] theorem Hart.writeX_ptemp (h : Hart) (r : Reg) (v : Word) : (h.writeX r v).ptemp = h.ptemp := by unfold Hart.writeX; split <;> rfl
@[simp] theorem Hart.writeX_gctr (h : Hart) (r : Reg) (v : Word) : (h.writeX r v).gctr = h.gctr := by unfold Hart.writeX; split <;> rfl
@[simp] theorem Hart.writeX_gid (h : Hart) (r : Reg) (v : Word) : (h.writeX r v).gid = h.gid := by unfold Hart.writeX; split <;> rfl
@[simp] theorem Hart.writeX_gsz (h : Hart) (r : Reg) (v : Word) : (h.writeX r v).gsz = h.gsz := by unfold Hart.writeX; split <;> rfl
@[simp] theorem Hart.writeX_garg (h : Hart) (r : Reg) (v : Word) : (h.writeX r v).garg = h.garg := by unfold Hart.writeX; split <;> rfl
@[simp] theorem Hart.writeX_tenant (h : Hart) (r : Reg) (v : Word) : (h.writeX r v).tenant = h.tenant := by unfold Hart.writeX; split <;> rfl
@[simp] theorem Hart.writeX_sup (h : Hart) (r : Reg) (v : Word) : (h.writeX r v).sup = h.sup := by unfold Hart.writeX; split <;> rfl
@[simp] theorem Hart.writeX_matrix (h : Hart) (r : Reg) (v : Word) : (h.writeX r v).matrix = h.matrix := by unfold Hart.writeX; split <;> rfl
@[simp] theorem Hart.writeX_tvec (h : Hart) (r : Reg) (v : Word) : (h.writeX r v).tvec = h.tvec := by unfold Hart.writeX; split <;> rfl
@[simp] theorem Hart.writeX_tpc (h : Hart) (r : Reg) (v : Word) : (h.writeX r v).tpc = h.tpc := by unfold Hart.writeX; split <;> rfl
@[simp] theorem Hart.writeX_tcause (h : Hart) (r : Reg) (v : Word) : (h.writeX r v).tcause = h.tcause := by unfold Hart.writeX; split <;> rfl
@[simp] theorem Hart.writeX_tval (h : Hart) (r : Reg) (v : Word) : (h.writeX r v).tval = h.tval := by unfold Hart.writeX; split <;> rfl
@[simp] theorem Hart.writeX_tinfo (h : Hart) (r : Reg) (v : Word) : (h.writeX r v).tinfo = h.tinfo := by unfold Hart.writeX; split <;> rfl
@[simp] theorem Hart.writeX_tscratch (h : Hart) (r : Reg) (v : Word) : (h.writeX r v).tscratch = h.tscratch := by unfold Hart.writeX; split <;> rfl
@[simp] theorem Hart.writeX_ectr (h : Hart) (r : Reg) (v : Word) : (h.writeX r v).ectr = h.ectr := by unfold Hart.writeX; split <;> rfl
@[simp] theorem Hart.writeX_pend (h : Hart) (r : Reg) (v : Word) : (h.writeX r v).pend = h.pend := by unfold Hart.writeX; split <;> rfl
@[simp] theorem Hart.writeX_own (h : Hart) (r : Reg) (v : Word) : (h.writeX r v).own = h.own := by unfold Hart.writeX; split <;> rfl
@[simp] theorem Hart.writeX_tbase (h : Hart) (r : Reg) (v : Word) : (h.writeX r v).tbase = h.tbase := by unfold Hart.writeX; split <;> rfl
@[simp] theorem Hart.writeX_tmask (h : Hart) (r : Reg) (v : Word) : (h.writeX r v).tmask = h.tmask := by unfold Hart.writeX; split <;> rfl
@[simp] theorem Hart.writeX_tallow (h : Hart) (r : Reg) (v : Word) : (h.writeX r v).tallow = h.tallow := by unfold Hart.writeX; split <;> rfl
@[simp] theorem Hart.writeX_cnsel (h : Hart) (r : Reg) (v : Word) : (h.writeX r v).cnsel = h.cnsel := by unfold Hart.writeX; split <;> rfl
@[simp] theorem Hart.writeX_jsel (h : Hart) (r : Reg) (v : Word) : (h.writeX r v).jsel = h.jsel := by unfold Hart.writeX; split <;> rfl
@[simp] theorem Hart.writeX_v (h : Hart) (r : Reg) (v : Word) : (h.writeX r v).v = h.v := by unfold Hart.writeX; split <;> rfl
@[simp] theorem Hart.writeX_p (h : Hart) (r : Reg) (v : Word) : (h.writeX r v).p = h.p := by unfold Hart.writeX; split <;> rfl
@[simp] theorem Hart.writeX_k (h : Hart) (r : Reg) (v : Word) : (h.writeX r v).k = h.k := by unfold Hart.writeX; split <;> rfl
@[simp] theorem Hart.writeX_lanes (h : Hart) (r : Reg) (v : Word) : (h.writeX r v).lanes = h.lanes := by unfold Hart.writeX; split <;> rfl
@[simp] theorem Hart.writeX_za (h : Hart) (r : Reg) (v : Word) : (h.writeX r v).za = h.za := by unfold Hart.writeX; split <;> rfl
@[simp] theorem Hart.writeX_zb (h : Hart) (r : Reg) (v : Word) : (h.writeX r v).zb = h.zb := by unfold Hart.writeX; split <;> rfl
@[simp] theorem Hart.writeX_bypass (h : Hart) (r : Reg) (v : Word) : (h.writeX r v).bypass = h.bypass := by unfold Hart.writeX; split <;> rfl
@[simp] theorem Hart.writeX_queue (h : Hart) (r : Reg) (v : Word) : (h.writeX r v).queue = h.queue := by unfold Hart.writeX; split <;> rfl
@[simp] theorem Hart.writeX_run (h : Hart) (r : Reg) (v : Word) : (h.writeX r v).run = h.run := by unfold Hart.writeX; split <;> rfl
@[simp] theorem Hart.writeX_armed (h : Hart) (r : Reg) (v : Word) : (h.writeX r v).armed = h.armed := by unfold Hart.writeX; split <;> rfl
@[simp] theorem Hart.writeX_latch (h : Hart) (r : Reg) (v : Word) : (h.writeX r v).latch = h.latch := by unfold Hart.writeX; split <;> rfl
@[simp] theorem Hart.writeX_lastAcq (h : Hart) (r : Reg) (v : Word) : (h.writeX r v).lastAcq = h.lastAcq := by unfold Hart.writeX; split <;> rfl
@[simp] theorem Hart.writeX_started (h : Hart) (r : Reg) (v : Word) : (h.writeX r v).started = h.started := by unfold Hart.writeX; split <;> rfl
@[simp] theorem Hart.writeX_halted (h : Hart) (r : Reg) (v : Word) : (h.writeX r v).halted = h.halted := by unfold Hart.writeX; split <;> rfl
@[simp] theorem Hart.writeX_wait (h : Hart) (r : Reg) (v : Word) : (h.writeX r v).wait = h.wait := by unfold Hart.writeX; split <;> rfl
@[simp] theorem Hart.writeX_waitSince (h : Hart) (r : Reg) (v : Word) : (h.writeX r v).waitSince = h.waitSince := by unfold Hart.writeX; split <;> rfl
@[simp] theorem Hart.writeX_issued (h : Hart) (r : Reg) (v : Word) : (h.writeX r v).issued = h.issued := by unfold Hart.writeX; split <;> rfl
@[simp] theorem Hart.writeX_issuedAt (h : Hart) (r : Reg) (v : Word) : (h.writeX r v).issuedAt = h.issuedAt := by unfold Hart.writeX; split <;> rfl
@[simp] theorem Hart.writeX_preempt (h : Hart) (r : Reg) (v : Word) : (h.writeX r v).preempt = h.preempt := by unfold Hart.writeX; split <;> rfl
@[simp] theorem Hart.writeX_stopMsg (h : Hart) (r : Reg) (v : Word) : (h.writeX r v).stopMsg = h.stopMsg := by unfold Hart.writeX; split <;> rfl
@[simp] theorem Hart.writeX_stopTaken (h : Hart) (r : Reg) (v : Word) : (h.writeX r v).stopTaken = h.stopTaken := by unfold Hart.writeX; split <;> rfl
@[simp] theorem Hart.writeX_gang (h : Hart) (r : Reg) (v : Word) : (h.writeX r v).gang = h.gang := by unfold Hart.writeX; split <;> rfl
@[simp] theorem Hart.writeX_arr (h : Hart) (r : Reg) (v : Word) : (h.writeX r v).arr = h.arr := by unfold Hart.writeX; split <;> rfl
@[simp] theorem Hart.writeX_pass (h : Hart) (r : Reg) (v : Word) : (h.writeX r v).pass = h.pass := by unfold Hart.writeX; split <;> rfl
@[simp] theorem Hart.writeX_idle (h : Hart) (r : Reg) (v : Word) : (h.writeX r v).idle = h.idle := by unfold Hart.writeX; split <;> rfl
@[simp] theorem Hart.writeX_arrivedAt (h : Hart) (r : Reg) (v : Word) : (h.writeX r v).arrivedAt = h.arrivedAt := by unfold Hart.writeX; split <;> rfl
@[simp] theorem Hart.writeX_rest (h : Hart) (r : Reg) (v : Word) : (h.writeX r v).rest = h.rest := by unfold Hart.writeX; split <;> rfl
@[simp] theorem Hart.writeX_trial (h : Hart) (r : Reg) (v : Word) : (h.writeX r v).trial = h.trial := by unfold Hart.writeX; split <;> rfl
@[simp] theorem Hart.writeX_holdUntil (h : Hart) (r : Reg) (v : Word) : (h.writeX r v).holdUntil = h.holdUntil := by unfold Hart.writeX; split <;> rfl
@[simp] theorem Hart.writeX_reply (h : Hart) (r : Reg) (v : Word) : (h.writeX r v).reply = h.reply := by unfold Hart.writeX; split <;> rfl
@[simp] theorem Hart.writeX_emitSeq (h : Hart) (r : Reg) (v : Word) : (h.writeX r v).emitSeq = h.emitSeq := by unfold Hart.writeX; split <;> rfl
@[simp] theorem Hart.writeX_stall (h : Hart) (r : Reg) (v : Word) : (h.writeX r v).stall = h.stall := by unfold Hart.writeX; split <;> rfl
@[simp] theorem Hart.writeX_holds (h : Hart) (r : Reg) (v : Word) : (h.writeX r v).holds = h.holds := by unfold Hart.writeX; split <;> rfl
@[simp] theorem Hart.writeX_marks (h : Hart) (r : Reg) (v : Word) : (h.writeX r v).marks = h.marks := by unfold Hart.writeX; split <;> rfl
@[simp] theorem Hart.writeX_behind (h : Hart) (r : Reg) (v : Word) : (h.writeX r v).behind = h.behind := by unfold Hart.writeX; split <;> rfl
@[simp] theorem Hart.writeX_owes (h : Hart) (r : Reg) (v : Word) : (h.writeX r v).owes = h.owes := by unfold Hart.writeX; split <;> rfl
@[simp] theorem Hart.writeX_amo (h : Hart) (r : Reg) (v : Word) : (h.writeX r v).amo = h.amo := by unfold Hart.writeX; split <;> rfl
@[simp] theorem Hart.writeX_tableStall (h : Hart) (r : Reg) (v : Word) : (h.writeX r v).tableStall = h.tableStall := by unfold Hart.writeX; split <;> rfl
@[simp] theorem Hart.writeX_heldAhead (h : Hart) (r : Reg) (v : Word) : (h.writeX r v).heldAhead = h.heldAhead := by unfold Hart.writeX; split <;> rfl


end Sys2Proof.Machine
end

