-- ==== Sys2Proof/Laws/Memory.lean ====
section
/-!
SUPPORT. The shared operations over memory keep every byte memory in its canonical form (Safety.memOk): the homes, the
caches, the drains, Reel, translation, exceptions, loads and stores.
-/
set_option Elab.async false
namespace Sys2Proof.Laws
open Machine Safety

-- The parts of the state --------------------------------------------------------------------------------------------------

theorem memOk_iff (s : State) :
    memOk s = true ↔ Memory.wf s.mem = true ∧ ∀ e ∈ s.clusters, Memory.wf e.2.bytes = true := by
  simp only [memOk, Bool.and_eq_true, List.all_eq_true]
/-- An update of neither the homes' memory nor the clusters. -/
theorem memOk_frame {s t : State} (h : memOk s = true) (m : t.mem = s.mem := by rfl) (c : t.clusters = s.clusters := by rfl) :
    memOk t = true := by
  simpa only [memOk, m, c] using h
theorem memOk_mem {s : State} (h : memOk s = true) : Memory.wf s.mem = true := ((memOk_iff s).1 h).1
theorem memOk_cluster {s : State} (h : memOk s = true) (k : Nat) : Memory.wf (s.cluster k).bytes = true := by
  have g := ((memOk_iff s).1 h).2
  simp only [State.cluster, Tab.get]
  generalize s.clusters = l at g
  induction l with
  | nil => rfl
  | cons e l ih =>
    obtain ⟨k', c⟩ := e
    simp only [Tab.find]
    split
    · exact g _ (List.mem_cons_self ..)
    · exact ih fun e h => g e (List.mem_cons_of_mem _ h)
theorem memOk_setMem {s : State} {m : List Host.Cell} (h : memOk s = true) (w : Memory.wf m = true) :
    memOk { s with mem := m } = true := (memOk_iff _).2 ⟨w, ((memOk_iff s).1 h).2⟩
theorem memOk_setCluster {s : State} (k : Nat) {c : Cluster} (h : memOk s = true) (w : Memory.wf c.bytes = true) :
    memOk (s.setCluster k c) = true := by
  simp only [memOk, Bool.and_eq_true, State.setCluster_mem, State.setCluster_clusters] at *
  exact ⟨h.1, Tab.all_put _ k c h.2 w⟩
theorem memOk_updCluster {s : State} (k : Nat) (f : Cluster → Cluster) (h : memOk s = true)
    (w : Memory.wf (s.cluster k).bytes = true → Memory.wf (f (s.cluster k)).bytes = true) :
    memOk (s.updCluster k f) = true := memOk_setCluster k h (w (memOk_cluster h k))
/-- An update of a cluster that leaves its bytes. -/
theorem memOk_updCluster_same {s : State} (k : Nat) (f : Cluster → Cluster) (h : memOk s = true)
    (w : ∀ c, (f c).bytes = c.bytes := by intro c; rfl) : memOk (s.updCluster k f) = true :=
  memOk_updCluster k f h fun g => by rw [w]; exact g
/-- An update of every cluster that leaves its bytes. -/
theorem memOk_mapClusters {s : State} (f : Cluster → Cluster) (h : memOk s = true)
    (w : ∀ c, (f c).bytes = c.bytes := by intro c; rfl) :
    memOk { s with clusters := s.clusters.map fun e : Nat × Cluster => (e.1, f e.2) } = true := by
  refine (memOk_iff _).2 ⟨show Memory.wf s.mem = true from memOk_mem h, fun e he => ?_⟩
  obtain ⟨x, hx, rfl⟩ := List.mem_map.1 he
  simpa only [w] using ((memOk_iff s).1 h).2 x hx
theorem memOk_setHart {s : State} (k : Nat) (v : Hart) (h : memOk s = true) : memOk (s.setHart k v) = true := memOk_frame h
theorem memOk_updHart {s : State} (k : Nat) (f : Hart → Hart) (h : memOk s = true) : memOk (s.updHart k f) = true := memOk_frame h
theorem memOk_updMe {s : State} (f : Hart → Hart) (h : memOk s = true) : memOk (s.updMe f) = true := memOk_frame h
theorem memOk_updCore {s : State} (k : Nat) (f : Core → Core) (h : memOk s = true) : memOk (s.updCore k f) = true := memOk_frame h
theorem memOk_updDie {s : State} (k : Nat) (f : Die → Die) (h : memOk s = true) : memOk (s.updDie k f) = true := memOk_frame h
theorem memOk_updStack {s : State} (k : Nat) (f : Stack → Stack) (h : memOk s = true) : memOk (s.updStack k f) = true := memOk_frame h
theorem memOk_setStack {s : State} (k : Nat) (v : Stack) (h : memOk s = true) : memOk (s.setStack k v) = true := memOk_frame h
theorem memOk_setStream {s : State} (k : Nat) (v : Stream) (h : memOk s = true) : memOk (s.setStream k v) = true := memOk_frame h
theorem memOk_foldl {α : Type} (f : State → α → State) (w : ∀ s x, memOk s = true → memOk (f s x) = true) (l : List α)
    {s : State} (h : memOk s = true) : memOk (l.foldl f s) = true := by
  induction l generalizing s with
  | nil => exact h
  | cons x l ih => exact ih (w s x h)
theorem memOk_foldl_fst {α β : Type} (f : State × β → α → State × β)
    (w : ∀ x a, memOk x.1 = true → memOk (f x a).1 = true) (l : List α) {x : State × β} (h : memOk x.1 = true) :
    memOk (l.foldl f x).1 = true := by
  induction l generalizing x with
  | nil => exact h
  | cons a l ih => exact ih (w x a h)

-- Counters, energy, waits ---------------------------------------------------------------------------------------------------

theorem memOk_count {s : State} (c n : Nat) (h : memOk s = true) : memOk (s.count c n) = true := memOk_frame h
theorem memOk_bump {s : State} (src slot n : Nat) (h : memOk s = true) : memOk (s.bump src slot n) = true := memOk_frame h
theorem memOk_bumpSel {s : State} (k slot n : Nat) (l : List Nat) (h : memOk s = true) : memOk (s.bumpSel k slot n l) = true := by
  induction l generalizing s with
  | nil => exact h
  | cons j l ih =>
    unfold State.bumpSel
    apply ih
    split
    · exact memOk_count _ _ h
    · exact h
theorem memOk_bumpHart {s : State} (k slot n : Nat) (h : memOk s = true) : memOk (s.bumpHart k slot n) = true :=
  memOk_bumpSel _ _ _ _ (memOk_bump _ _ _ h)
theorem memOk_bumpMe {s : State} (slot n : Nat) (h : memOk s = true) : memOk (s.bumpMe slot n) = true := memOk_bumpHart _ _ _ h
theorem memOk_charge {s : State} (k cls n : Nat) (h : memOk s = true) : memOk (s.charge k cls n) = true := memOk_frame h

-- The memory-side cache (spec/16 R321, R322) ---------------------------------------------------------------------------------

theorem memOk_trackHot {s : State} (pa : Nat) (h : memOk s = true) : memOk (s.trackHot pa) = true := by
  unfold State.trackHot
  dsimp only
  split
  · exact h
  · exact memOk_frame h
theorem memOk_writeBack {s : State} (n line i : Nat) (h : memOk s = true) : memOk (s.writeBack n line i) = true := by
  have g := memOk_bump (1680 + n) 1 1 h
  unfold State.writeBack
  generalize s.bump (1680 + n) 1 1 = u at g ⊢
  dsimp only
  split
  · exact g
  · split
    · exact memOk_updStack _ _ (memOk_bump _ _ _ g)
    · exact memOk_updStack _ _ (memOk_bump _ _ _ g)
theorem memOk_writeBackAll {s : State} (n line mask : Nat) (h : memOk s = true) : memOk (s.writeBackAll n line mask) = true :=
  memOk_foldl _ (fun _ _ g => memOk_writeBack _ _ _ g) _ h
theorem memOk_mscEvict {s : State} (n line : Nat) (h : memOk s = true) : memOk (s.mscEvict n line) = true := by
  unfold State.mscEvict
  split
  · exact h
  · exact memOk_updStack _ _ (memOk_writeBackAll _ _ _ h)
theorem memOk_mscRoom {s : State} (n line : Nat) (h : memOk s = true) : memOk (s.mscRoom n line) = true := by
  unfold State.mscRoom
  split
  · exact h
  · exact memOk_mscEvict _ _ h
theorem memOk_mscBring {s : State} (n line mask : Nat) (w : Bool) (h : memOk s = true) :
    memOk (s.mscBring n line mask w) = true := memOk_bump _ _ _ (memOk_setStack _ _ (memOk_mscRoom n line h))
theorem memOk_mscTouch {s : State} (pa : Nat) (w b x : Bool) (h : memOk s = true) : memOk (s.mscTouch pa w b x) = true := by
  unfold State.mscTouch
  split
  · exact h
  · dsimp only
    split
    · exact memOk_bump _ _ _ (memOk_bump _ _ _ (memOk_trackHot _ h))
    · split
      · exact memOk_updStack _ _ (memOk_mscBring _ _ _ _ (memOk_bump _ _ _ (memOk_trackHot _ h)))
      · exact memOk_mscBring _ _ _ _ (memOk_bump _ _ _ (memOk_trackHot _ h))
theorem memOk_mscReads {s : State} (pas : List Nat) (b : Bool) (h : memOk s = true) : memOk (s.mscReads pas b) = true :=
  memOk_foldl _ (fun _ _ g => memOk_mscTouch _ _ _ _ g) _ h

-- Homes, drains and caches ----------------------------------------------------------------------------------------------------

theorem memOk_settle {s : State} (d : Nat) (cs : List Host.Cell) (ms : List Nat) (b : Bool) (h : memOk s = true) :
    memOk (s.settle d cs ms b) = true := by
  unfold State.settle
  refine memOk_foldl _ (fun _ _ g => memOk_mscTouch _ _ _ _ g) _ ?_
  exact (memOk_iff _).2 ⟨Memory.wf_writeCells _ (memOk_mem h), ((memOk_iff s).1 h).2⟩
theorem memOk_forget {s : State} (k : Nat) (pas : List Nat) (h : memOk s = true) : memOk (s.forget k pas) = true :=
  memOk_updCluster _ _ h fun w => Memory.wf_erase _ w
theorem memOk_retouch {s : State} (k : Nat) (cs : List Host.Cell) (h : memOk s = true) : memOk (s.retouch k cs) = true :=
  memOk_updCluster_same _ _ h
theorem memOk_cleanCells {s : State} (k : Nat) (cs : List Host.Cell) (h : memOk s = true) : memOk (s.cleanCells k cs) = true :=
  memOk_retouch _ _ (memOk_updCluster_same _ _ h)
theorem memOk_removeLines {s : State} (k : Nat) (p : LineKey → Bool) (h : memOk s = true) : memOk (s.removeLines k p) = true := by
  unfold State.removeLines
  refine memOk_forget _ _ (memOk_retouch _ _ (memOk_foldl _ (fun s j g => ?_) _ (memOk_setCluster _ h (memOk_cluster h k))))
  split
  · exact memOk_updCore _ _ g
  · exact g
theorem memOk_landSectors {s : State} (k : Nat) (secs : List Nat) (h : memOk s = true) :
    memOk (s.landSectors k secs).1 = true :=
  memOk_foldl _ (fun _ _ g => memOk_settle _ _ _ _ g) _ (memOk_frame h)
theorem memOk_purgeAt {s : State} (k pa : Nat) (h : memOk s = true) : memOk (s.purgeAt k pa).1 = true := by
  unfold State.purgeAt
  dsimp only
  split
  · exact memOk_removeLines _ _ (memOk_settle _ _ _ _ (memOk_landSectors _ _ h))
  · exact h
theorem memOk_purgeDie {s : State} (k : Option Nat) (pa : Nat) (h : memOk s = true) : memOk (s.purgeDie k pa).1 = true := by
  unfold State.purgeDie
  refine memOk_foldl_fst _ (fun x j g => ?_) _ h
  split
  · exact g
  · exact memOk_purgeAt _ _ g
theorem memOk_reread {s : State} (k : Nat) (secs : List Nat) (h : memOk s = true) : memOk (s.reread k secs) = true := by
  unfold State.reread
  dsimp only
  split
  · exact h
  · exact memOk_updCluster _ _ h fun w =>
      List.foldlRecOn _ _ (motive := fun m => Memory.wf m = true) w fun m g pa _ => Memory.wf_write _ _ g
/-- What is read again changes the values and marks of one cluster alone. -/
theorem reread_eq (s : State) (k : Nat) (secs : List Nat) :
    ∃ bs ps, s.reread k secs = s ∨ s.reread k secs = s.updCluster k fun c => { c with bytes := bs, poison := ps } := by
  unfold State.reread
  dsimp only
  split
  · exact ⟨[], [], .inl rfl⟩
  · exact ⟨_, _, .inr rfl⟩
theorem memOk_wakeOthers {s : State} (k : Option Nat) (pas : List Nat) (h : memOk s = true) : memOk (s.wakeOthers k pas) = true := by
  unfold State.wakeOthers
  dsimp only
  split
  · exact memOk_frame h
  · exact h
theorem memOk_accept {s : State} (k : Option Nat) (d : Nat) (cs : List Host.Cell) (ms : List Nat) (b : Bool)
    (h : memOk s = true) : memOk (s.accept k d cs ms b) = true := by
  unfold State.accept
  have f := memOk_foldl_fst (β := List Host.Cell) (fun x pa =>
    let y := x.1.purgeDie k pa
    (y.1, x.2 ++ y.2)) (fun x pa w => memOk_purgeDie k pa w) (sectorBytes cs) (x := (s, [])) h
  revert f
  generalize List.foldl _ (s, ([] : List Host.Cell)) (sectorBytes cs) = x
  intro f
  dsimp only
  split
  · exact memOk_settle _ _ _ _ f
  · exact memOk_reread _ _ (memOk_settle _ _ _ _ f)
theorem memOk_flushFirst {s : State} (n : Nat) (h : memOk s = true) : memOk (s.flushFirst n) = true := by
  induction n generalizing s with
  | zero => exact h
  | succ n ih =>
    unfold State.flushFirst
    split
    · exact h
    · exact ih (memOk_accept _ _ _ _ _ (memOk_frame h))
theorem memOk_flushDrains {s : State} (h : memOk s = true) : memOk s.flushDrains = true := memOk_flushFirst _ h
theorem memOk_drainBytes {s : State} (k : Nat) (p : Nat → Bool) (h : memOk s = true) : memOk (s.drainBytes k p) = true := by
  unfold State.drainBytes
  dsimp only
  split
  · exact memOk_flushDrains h
  · exact memOk_accept _ _ _ _ _ (memOk_cleanCells _ _ (memOk_flushDrains h))
theorem memOk_drainLines {s : State} (k : Nat) (p : LineKey → Bool) (h : memOk s = true) : memOk (s.drainLines k p) = true := by
  unfold State.drainLines
  split
  · exact memOk_accept _ _ _ _ _ (memOk_cleanCells _ _ (memOk_flushDrains h))
  · exact h
theorem memOk_evict {s : State} (k : Nat) (p : LineKey → Bool) (h : memOk s = true) : memOk (s.evict k p) = true :=
  memOk_removeLines _ _ (memOk_drainLines _ _ h)
theorem memOk_dropLines {s : State} (k : Nat) (p : LineKey → Bool) (h : memOk s = true) : memOk (s.dropLines k p) = true := by
  unfold State.dropLines
  split
  · exact memOk_evict _ _ h
  · exact h
theorem memOk_freshen {s : State} (k : Nat) (pas : List Nat) (h : memOk s = true) : memOk (s.freshen k pas) = true := by
  unfold State.freshen
  exact memOk_reread _ _ h
theorem memOk_fillBytes {s : State} (k : Nat) (key : LineKey) (h : memOk s = true) : memOk (s.fillBytes k key) = true := by
  have f := memOk_freshen k (key.bytes.filter fun pa => !s.resident k pa) h
  refine memOk_setCluster k (memOk_mscReads _ _ f) ?_
  exact List.foldlRecOn _ _ (motive := fun m => Memory.wf m = true) (memOk_cluster f k) fun m g pa _ => Memory.wf_write _ _ g
theorem classify_bytes (c : Cluster) (pa : Nat) : (c.classify pa).2.bytes = c.bytes := by
  unfold Cluster.classify
  split
  · rfl
  · dsimp only; split <;> rfl
theorem fillClass_bytes (s : State) (k : Nat) (key : LineKey) (pa : Nat) : (s.fillClass k key pa).2.bytes = (s.cluster k).bytes := by
  unfold State.fillClass
  split
  · rfl
  · exact classify_bytes _ _
theorem memOk_lineFill {s : State} (k : Nat) (key : LineKey) (o : Bool) (pa : Nat) (h : memOk s = true) :
    memOk (s.lineFill k key o pa) = true := by
  unfold State.lineFill
  split
  · exact memOk_updCluster_same _ _ h
  · have g : memOk (s.setCluster k (s.fillClass k key pa).2) = true :=
      memOk_setCluster k h (by rw [fillClass_bytes]; exact memOk_cluster h k)
    dsimp only
    refine memOk_updCluster_same _ _ (memOk_fillBytes _ _ ?_)
    split
    · exact g
    · exact memOk_evict _ _ g
theorem memOk_atomEvict {s : State} (k : Nat) (l : Line) (h : memOk s = true) : memOk (s.atomEvict k l) = true := by
  unfold State.atomEvict
  dsimp only
  refine memOk_forget _ _ (memOk_updCluster_same _ _ ?_)
  split
  · exact memOk_flushDrains h
  · exact memOk_accept _ _ _ _ _ (memOk_cleanCells _ _ (memOk_flushDrains h))
theorem memOk_atomFill {s : State} (k pa : Nat) (o : Bool) (h : memOk s = true) : memOk (s.atomFill k pa o) = true := by
  unfold State.atomFill
  dsimp only
  split
  · exact memOk_updCluster_same _ _ h
  · have g := memOk_bump (1537 + 3 * k) 2 1 (memOk_fillBytes k (.row (pa / 64)) h)
    split
    · exact memOk_updCluster_same _ _ g
    · exact memOk_atomEvict _ _ (memOk_updCluster_same _ _ g)
theorem memOk_touch {s : State} (k core : Nat) (pas : List Nat) (h : memOk s = true) : memOk (s.touch k core pas) = true :=
  memOk_updCluster_same _ _ h
theorem memOk_touchDirty {s : State} (k core : Nat) (h : memOk s = true) : memOk (s.touchDirty k core) = true := memOk_touch _ _ _ h
theorem memOk_ownBytes {s : State} (k ten : Nat) (pas : List Nat) (h : memOk s = true) : memOk (s.ownBytes k ten pas) = true :=
  memOk_updCluster_same _ _ h
theorem memOk_sendCells {s : State} (k : Nat) (cs : List Host.Cell) (h : memOk s = true) : memOk (s.sendCells k cs) = true := by
  unfold State.sendCells
  dsimp only
  split
  · exact h
  · exact memOk_cleanCells _ _ (memOk_frame h)
theorem memOk_partTenants {s : State} (k ten : Nat) (pas : List Nat) (h : memOk s = true) :
    memOk (s.partTenants k ten pas) = true := by
  unfold State.partTenants
  dsimp only
  split
  · exact h
  · exact memOk_sendCells _ _ h
theorem memOk_discardIn {s : State} (ten k : Nat) (sent : List Nat) (h : memOk s = true) :
    memOk (s.discardIn ten k sent) = true := by
  unfold State.discardIn
  refine memOk_reread _ _ ?_
  split
  · exact memOk_updCluster_same _ _ h
  · exact memOk_cleanCells _ _ (memOk_updCluster_same _ _ h)
theorem memOk_discardWrites {s : State} (ten : Nat) (h : memOk s = true) : memOk (s.discardWrites ten) = true := by
  unfold State.discardWrites
  exact memOk_foldl _ (fun _ _ g => memOk_discardIn _ _ _ g) _ (memOk_frame h)
theorem memOk_writeCopies {s : State} (k : Nat) (l : LineKey) (a : Bool) (cs : List Host.Cell) (h : memOk s = true) :
    memOk (s.writeCopies k l a cs) = true := memOk_updCluster _ _ h fun w => Memory.wf_writeCells _ w
theorem memOk_mergeCells {s : State} (k : Nat) (own : LineKey) (cs : List Host.Cell) (h : memOk s = true) :
    memOk (s.mergeCells k own cs) = true := by
  unfold State.mergeCells
  refine memOk_foldl _ (fun s c g => ?_) _ h
  split
  · exact memOk_writeCopies _ _ _ _ g
  · exact g
theorem memOk_overwrite {s : State} (k : Nat) (cs : List Host.Cell) (ms : List Nat) (h : memOk s = true) :
    memOk (s.overwrite k cs ms) = true := by
  unfold State.overwrite
  dsimp only
  split
  · exact h
  · exact memOk_updCluster _ _ (memOk_cleanCells _ _ h) fun w => Memory.wf_writeCells _ w
theorem memOk_dcacheFill {s : State} (core : Nat) (key : LineKey) (h : memOk s = true) : memOk (s.dcacheFill core key) = true := by
  unfold State.dcacheFill
  dsimp only
  split
  · exact memOk_updCore _ _ h
  · exact memOk_forget _ _ (memOk_updCore _ _ h)
theorem memOk_loadFill {s : State} (core pa n : Nat) (key : LineKey) (o : Bool) (hint : Hint) (sc : Bool) (h : memOk s = true) :
    memOk (s.loadFill core pa n key o hint sc) = true := by
  unfold State.loadFill
  dsimp only
  split
  · exact h
  · split
    · split
      · exact memOk_dcacheFill _ _ (memOk_lineFill _ _ _ _ h)
      · exact memOk_lineFill _ _ _ _ h
    · exact memOk_mscReads _ _ (memOk_freshen _ _ h)
theorem memOk_writeThrough {s : State} (k : Nat) (cs : List Host.Cell) (ms : List Nat) (b : Bool) (h : memOk s = true) :
    memOk (s.writeThrough k cs ms b) = true := by
  unfold State.writeThrough
  dsimp only
  apply memOk_accept
  exact memOk_cleanCells _ _ (memOk_overwrite _ _ _ (memOk_flushDrains h))
theorem memOk_storeBytes {s : State} (core : Nat) (key : LineKey) (o : Bool) (hint : Hint) (pa : Nat) (bs : List Byte)
    (h : memOk s = true) : memOk (s.storeBytes core key o hint pa bs) = true := by
  unfold State.storeBytes
  dsimp only
  split
  · exact memOk_accept _ _ _ _ _ h
  · split
    · exact memOk_touch _ _ _ (memOk_writeCopies _ _ _ _ (memOk_lineFill _ _ _ _ h))
    · have g : memOk (if ((((upTo bs.length).map (pa + ·)).zip bs).filter fun c =>
          ((s.cluster (core / 8)).markLine key c.1).isSome).isEmpty then s
        else (s.mergeCells (core / 8) key ((((upTo bs.length).map (pa + ·)).zip bs).filter fun c =>
          ((s.cluster (core / 8)).markLine key c.1).isSome)).touch (core / 8) core
            ((((((upTo bs.length).map (pa + ·)).zip bs).filter fun c =>
              ((s.cluster (core / 8)).markLine key c.1).isSome)).map (·.1))) = true := by
        split
        · exact h
        · exact memOk_touch _ _ _ (memOk_mergeCells _ _ _ h)
      split
      · exact g
      · exact memOk_writeThrough _ _ _ _ g
theorem memOk_writeHome {s : State} (d pa n v : Nat) (h : memOk s = true) : memOk (s.writeHome d pa n v) = true :=
  memOk_wakeOthers _ _ (memOk_accept _ _ _ _ _ (memOk_flushDrains h))
theorem memOk_writeHomeBytes {s : State} (d pa : Nat) (bs : List Byte) (h : memOk s = true) :
    memOk (s.writeHomeBytes d pa bs) = true := memOk_wakeOthers _ _ (memOk_accept _ _ _ _ _ (memOk_flushDrains h))

end Sys2Proof.Laws
end

