-- ==== Sys2Proof/Laws/Ops.lean ====
section
/-!
SUPPORT. The laws of the shared operations: how a meaning in steps runs and what its end gives, and that counters,
Reel, translation, exceptions, loads, stores, acquires, releases and atomics keep the canonical form of memory.
-/
set_option Elab.async false
namespace Sys2Proof.Machine

-- Meanings in steps -----------------------------------------------------------------------------------------------------

@[simp] theorem Op.pure_run {α : Type} (a : α) (s : State) : (pure a : Op α) s = .ok (a, s) := rfl
@[simp] theorem Op.bind_run {α β : Type} (m : Op α) (f : α → Op β) (s : State) :
    (m >>= f) s = match m s with
      | .ok (a, t) => f a t
      | .error t => .error t := by
  simp only [bind, StateT.bind]
  cases m s <;> rfl
@[simp] theorem ask_run {α : Type} (f : State → α) (s : State) : ask f s = .ok (f s, s) := rfl
@[simp] theorem upd_run (f : State → State) (s : State) : upd f s = .ok ((), f s) := rfl
@[simp] theorem stop_run {α : Type} (t s : State) : (stop t : Op α) s = .error t := rfl
@[simp] theorem waitHere_run {α : Type} (w : Wait) (s : State) : (waitHere w : Op α) s = .error (s.waitFor s.cur w) := rfl
/-- What ends a word in a trap: a wait while the hart has a copy in flight, else the entry (spec/13 R263). -/
theorem takeHere_run {α : Type} (t : Trap) (s : State) :
    (takeHere t : Op α) s = if s.copying s.cur then .error (s.waitFor s.cur .copies) else .error (s.takeTrap s.cur t) := rfl
theorem trap_run {α : Type} (cause sub : Nat) (v : Word) (s : State) :
    (Machine.trap cause sub v : Op α) s = (takeHere { cause := cause, sub := sub, value := v, tpc := s.me.pc } : Op α) s := rfl
theorem needSupervisor_run (i : Instr) (s : State) :
    needSupervisor i s = if s.me.sup then .ok ((), s) else Machine.trap 0x03 0 (wordOf i) s := by
  simp only [needSupervisor, Op.bind_run, ask_run]
  split <;> rfl
/-- A meaning in steps always answers a next state. -/
theorem finish_next (m : Op Unit) (s : State) : ∃ t, finish m s = .next t := by
  unfold finish
  split <;> exact ⟨_, rfl⟩
/-- The next state of a meaning in steps: of its end, or of the step it ended early in. -/
theorem finish_cases {m : Op Unit} {s t : State} (h : finish m s = .next t) : m s = .ok ((), t) ∨ m s = .error t := by
  unfold finish at h
  split at h
  · rename_i e
    injection h with h
    exact .inl (h ▸ e)
  · rename_i e
    injection h with h
    exact .inr (h ▸ e)

end Sys2Proof.Machine

namespace Sys2Proof.Laws
open Machine Safety

-- Meanings in steps keep memory -------------------------------------------------------------------------------------------

/-- Wherever the meaning ends, memory keeps its canonical form. -/
def Keeps {α : Type} (m : Op α) : Prop :=
  ∀ s, memOk s = true → match m s with
    | .ok (_, t) => memOk t = true
    | .error t => memOk t = true
theorem keeps_finish {m : Op Unit} (k : Keeps m) {s t : State} (h : memOk s = true) (e : finish m s = .next t) :
    memOk t = true := by
  have g := k s h
  obtain e | e := finish_cases e <;> simpa only [e] using g
theorem keeps_pure {α : Type} (a : α) : Keeps (pure a : Op α) := fun _ h => h
theorem keeps_ask {α : Type} (f : State → α) : Keeps (ask f) := fun _ h => h
theorem keeps_upd {f : State → State} (w : ∀ s, memOk s = true → memOk (f s) = true) : Keeps (upd f) := fun s h => w s h
theorem keeps_bind {α β : Type} {m : Op α} {f : α → Op β} (k : Keeps m) (l : ∀ a, Keeps (f a)) : Keeps (m >>= f) := by
  intro s h
  have g := k s h
  rw [Op.bind_run]
  revert g
  generalize m s = x
  intro g
  obtain t | ⟨a, t⟩ := x
  · exact g
  · exact l a t g
theorem keeps_ite {α : Type} {c : Prop} [Decidable c] {m n : Op α} (k : Keeps m) (l : Keeps n) : Keeps (if c then m else n) := by
  split
  · exact k
  · exact l

-- Reel (spec/18 R351 to R360) and the halt lines ----------------------------------------------------------------------------

theorem memOk_mkRec {s : State} (src code : Nat) (ten : Option Nat) (p q : Word) (h : memOk s = true) :
    memOk (s.mkRec src code ten p q).2 = true := memOk_frame h
theorem memOk_putSlot {s : State} (n : Nat) (r : Rec) (h : memOk s = true) : memOk (s.putSlot n r) = true := by
  unfold State.putSlot
  dsimp only
  apply memOk_setStream
  apply memOk_writeHome
  exact memOk_writeHomeBytes _ _ _ h
theorem memOk_dropIn {s : State} (n : Nat) (r : Rec) (h : memOk s = true) : memOk (s.dropIn n r) = true := memOk_setStream _ _ h
theorem memOk_keepHouse {s : State} (n : Nat) (r : Rec) (h : memOk s = true) : memOk (s.keepHouse n r) = true := memOk_setStream _ _ h
theorem memOk_lose {s : State} (r : Rec) (n : Nat) (h : memOk s = true) : memOk (s.lose r n) = true := by
  unfold State.lose
  split
  · exact memOk_keepHouse _ _ h
  · exact memOk_dropIn _ _ h
theorem memOk_putDrops {s : State} (n : Nat) (h : memOk s = true) : memOk (s.putDrops n) = true := by
  unfold State.putDrops
  dsimp only
  split
  · exact h
  · exact memOk_setStream _ _ (memOk_putSlot _ _ (memOk_mkRec _ _ _ _ _ h))
theorem memOk_putHouse {s : State} (n src : Nat) (h : memOk s = true) : memOk (s.putHouse n src) = true :=
  memOk_foldl (fun s x => s.putSlot n x) (fun _ x g => memOk_putSlot n x g) _ (memOk_setStream _ _ h)
theorem memOk_deliverTo {s : State} (r : Rec) (n : Nat) (h : memOk s = true) : memOk (s.deliverTo r n) = true := by
  have g := memOk_mscReads [(s.stream n).header + 8] false h
  unfold State.deliverTo
  dsimp only
  split
  · exact memOk_putSlot _ _ (memOk_putHouse _ _ (memOk_putDrops _ g))
  · exact memOk_lose _ _ g
theorem memOk_deliverAll {s : State} (r : Rec) (l : List Nat) (h : memOk s = true) : memOk (s.deliverAll r l) = true :=
  memOk_foldl _ (fun _ _ g => memOk_deliverTo _ _ g) _ h
theorem memOk_deliver {s : State} (r : Rec) (h : memOk s = true) : memOk (s.deliver r) = true := memOk_deliverAll _ _ h
theorem memOk_deliverLossy {s : State} (r : Rec) (l m : List Nat) (h : memOk s = true) : memOk (s.deliverLossy r l m) = true := by
  have g : memOk ((l.filter m.contains).foldl (State.lose · r ·) (s.deliverAll r (l.filter (!m.contains ·)))) = true :=
    memOk_foldl _ (fun _ _ g => memOk_lose _ _ g) _ (memOk_deliverAll _ _ h)
  unfold State.deliverLossy
  dsimp only
  split
  · exact memOk_bumpHart _ _ _ g
  · exact g
theorem memOk_reserve {s : State} (d : Nat) (r : Rec) (k : Nat) (h : memOk s = true) : memOk (s.reserve d r k) = true := by
  unfold State.reserve
  split
  · exact memOk_foldl _ (fun _ _ g => memOk_lose _ _ g) _ h
  · dsimp only
    split
    · exact memOk_updDie _ _ h
    · exact memOk_updHart _ _ (memOk_updDie _ _ h)
theorem memOk_offerHart {s : State} (k : Nat) (r : Rec) (h : memOk s = true) : memOk (s.offerHart k r) = true := by
  have g := memOk_bumpHart k 16 1 h
  unfold State.offerHart
  dsimp only
  revert g
  generalize s.bumpHart k 16 1 = u
  intro g
  split
  · exact g
  · split
    · exact memOk_deliverLossy _ _ _ g
    · split
      · exact memOk_deliver _ g
      · exact memOk_reserve _ _ _ g
theorem memOk_sendHart {s : State} (k time code : Nat) (ten : Option Nat) (p q : Word) (h : memOk s = true) :
    memOk (s.sendHart k time code ten p q) = true := memOk_offerHart _ _ (memOk_frame h)
theorem memOk_sendEngine {s : State} (time src code : Nat) (ten : Option Nat) (m : BitVec 16) (k : Nat) (p q : Word)
    (h : memOk s = true) : memOk (s.sendEngine time src code ten m k p q) = true := by
  have g : memOk (s.mkRecAt time src code ten p q).2 = true := memOk_frame h
  unfold State.sendEngine
  dsimp only
  revert g
  generalize (s.mkRecAt time src code ten p q).2 = u
  intro g
  repeat' split
  all_goals first
    | exact g
    | exact memOk_deliverLossy _ _ _ g
    | exact memOk_reserve _ _ _ g
theorem memOk_sendBehind {s : State} (k : Nat) (b : Behind) (h : memOk s = true) : memOk (s.sendBehind k b) = true := by
  unfold State.sendBehind
  split
  · exact memOk_sendHart _ _ _ _ _ _ h
  · exact memOk_sendEngine _ _ _ _ _ _ _ _ h
theorem memOk_putBehind {s : State} (k code : Nat) (ten : Option Nat) (m : Option (BitVec 16)) (p q : Word) (h : memOk s = true) :
    memOk (s.putBehind k code ten m p q) = true := memOk_updHart _ _ h
theorem memOk_markDone {s : State} (k : Nat) (h : memOk s = true) : memOk (s.markDone k) = true :=
  memOk_foldl _ (fun _ _ g => memOk_sendBehind _ _ g) _ (memOk_updHart _ _ h)
theorem memOk_dropMarks {s : State} (k : Nat) (h : memOk s = true) : memOk (s.dropMarks k) = true := by
  unfold State.dropMarks
  split
  · exact h
  · exact memOk_foldl _ (fun _ _ g => memOk_sendBehind _ _ g) _ (memOk_updHart _ _ h)
theorem memOk_emitOf {s : State} (k code : Nat) (ten : Option Nat) (p q : Word) (h : memOk s = true) :
    memOk (s.emitOf k code ten p q) = true := by
  unfold State.emitOf
  split
  · exact memOk_sendHart _ _ _ _ _ _ h
  · exact memOk_putBehind _ _ _ _ _ _ h
theorem memOk_emitHart {s : State} (k code : Nat) (p q : Word) (h : memOk s = true) : memOk (s.emitHart k code p q) = true :=
  memOk_emitOf _ _ _ _ _ h
theorem memOk_emitHartNt {s : State} (k code : Nat) (p q : Word) (h : memOk s = true) : memOk (s.emitHartNt k code p q) = true :=
  memOk_emitOf _ _ _ _ _ h
theorem memOk_emitHartAt {s : State} (k time code : Nat) (p q : Word) (h : memOk s = true) :
    memOk (s.emitHartAt k time code p q) = true :=
  memOk_sendHart _ _ _ _ _ _ h
theorem memOk_emitEngine {s : State} (src code : Nat) (ten : Option Nat) (m : BitVec 16) (k : Nat) (p q : Word)
    (h : memOk s = true) : memOk (s.emitEngine src code ten m k p q) = true := by
  unfold State.emitEngine
  split
  · exact memOk_putBehind _ _ _ _ _ _ h
  · exact memOk_sendEngine _ _ _ _ _ _ _ _ h
theorem memOk_captureIn {s : State} (k kind n j : Nat) (h : memOk s = true) : memOk (s.captureIn k kind n j) = true := by
  unfold State.captureIn
  dsimp only
  split
  · exact memOk_foldl _ (fun _ _ g => memOk_emitHart _ _ _ _ g) _ (memOk_updCore _ _ h)
  · exact h
theorem memOk_capture {s : State} (k kind n : Nat) (h : memOk s = true) : memOk (s.capture k kind n) = true :=
  memOk_foldl _ (fun _ _ g => memOk_captureIn _ _ _ _ g) _ h
theorem memOk_endStall {s : State} (k : Nat) (h : memOk s = true) : memOk (s.endStall k) = true := by
  unfold State.endStall
  dsimp only
  split
  · exact h
  · apply memOk_emitHartNt
    apply memOk_capture
    exact memOk_updHart _ _ h
theorem memOk_endWordStall {s : State} (k : Nat) (h : memOk s = true) : memOk (s.endWordStall k) = true := by
  unfold State.endWordStall
  split
  · exact h
  · exact memOk_endStall _ h
theorem memOk_endHold {s : State} (k : Nat) (h : memOk s = true) : memOk (s.endHold k) = true := by
  unfold State.endHold
  split
  · exact h
  · split
    · exact memOk_updHart _ _ h
    · exact memOk_endStall _ h
-- What the stall, the marks and the interlock entry of a hart add where it has none

theorem endStall_idle {s : State} {k : Nat} (h : (s.hart k).stall = none) : s.endStall k = s := by simp [State.endStall, h]
theorem endWordStall_idle {s : State} {k : Nat} (h : (s.hart k).stall = none) : s.endWordStall k = s := by
  simp [State.endWordStall, endStall_idle h]
theorem dropMarks_idle {s : State} {k : Nat} (h : (s.hart k).marks = 0) : s.dropMarks k = s := by simp [State.dropMarks, h]
theorem letGo_idle {s : State} {k : Nat} (h : (s.hart k).holds = false) : s.letGo k = s := by simp [State.letGo, h]
theorem emitOf_now {s : State} {k : Nat} (h : (s.hart k).marks = 0) (code : Nat) (ten : Option Nat) (p q : Word) :
    s.emitOf k code ten p q = s.sendHart k (s.tstamp (sourceDie k)) code ten p q := by simp [State.emitOf, h]
/-- A wait that is no stall by Reel, of a hart that is in none, notes the wait and its start. -/
theorem waitFor_idle {s : State} {k : Nat} (h : (s.hart k).stall = none) {w : Wait} (hw : stallsByReel w = false) :
    s.waitFor k w = s.updHart k fun x => { x with wait := w, waitSince := if x.wait = w then x.waitSince else s.now } := by
  simp [State.waitFor, hw, endWordStall_idle h]
theorem memOk_waitFor {s : State} (k : Nat) (w : Wait) (h : memOk s = true) : memOk (s.waitFor k w) = true := by
  unfold State.waitFor
  apply memOk_updHart
  split
  · exact h
  · exact memOk_endWordStall _ h
theorem keeps_waitHere {α : Type} (w : Wait) : Keeps (waitHere w : Op α) := fun _ h => memOk_waitFor _ _ h
theorem memOk_raiseHalt {s : State} (ten origin : Nat) (c v : Word) (h : memOk s = true) : memOk (s.raiseHalt ten origin c v) = true := by
  have g := memOk_discardWrites ten h
  unfold State.raiseHalt
  split
  · exact h
  · dsimp only
    split
    · exact memOk_emitEngine _ _ _ _ _ _ _ (memOk_bumpHart _ _ _ (memOk_frame g))
    · exact memOk_emitEngine _ _ _ _ _ _ _ (memOk_frame g)
theorem memOk_contextHalt {s : State} (k : Nat) (c v : Word) (h : memOk s = true) : memOk (s.contextHalt k c v) = true :=
  memOk_raiseHalt _ _ _ _ h

-- Translation (spec/14 R293 to R297) -------------------------------------------------------------------------------------------

theorem memOk_tlbFill {s : State} (core root va level leaf : Nat) (h : memOk s = true) :
    memOk (s.tlbFill core root va level leaf) = true := by
  unfold State.tlbFill
  dsimp only
  exact memOk_updCluster_same _ _ (memOk_updCore _ _ h)
theorem memOk_walkTouch {s : State} (k va : Nat) (h : memOk s = true) : memOk (s.walkTouch k va) = true := by
  unfold State.walkTouch
  dsimp only
  split
  · exact h
  · exact memOk_foldl _ (fun _ _ g => memOk_mscReads _ _ g) _ h
theorem memOk_translate {s : State} (k va : Nat) (kind : AccKind) (w : Nat) (sup : Bool) (h : memOk s = true) :
    memOk (s.translate k va kind w sup).2 = true := by
  unfold State.translate
  dsimp only
  split
  · split
    · exact h
    · split <;> exact h
  · have m := memOk_bumpHart k 6 1 (memOk_walkTouch k (va % 2 ^ 57) h)
    split
    · exact m
    · rename_i leaf level hit _
      have g : memOk (if hit = true then s else (s.walkTouch k (va % 2 ^ 57)).bumpHart k 6 1) = true := by
        split
        · exact h
        · exact m
      revert g
      generalize (if hit = true then s else (s.walkTouch k (va % 2 ^ 57)).bumpHart k 6 1) = u
      intro g
      split
      · exact g
      · exact memOk_tlbFill _ _ _ _ _ g
theorem memOk_check {s : State} (k : Nat) (ea : Word) (n : Nat) (o : Orient) (kind : AccKind) (w : Nat) (sup : Bool)
    (h : memOk s = true) : memOk (s.check k ea n o kind w sup).2 = true := by
  have g := memOk_translate k ea.toNat kind w sup h
  unfold State.check
  split
  · exact h
  · split
    · exact h
    · revert g
      generalize s.translate k ea.toNat kind w sup = x
      intro g
      obtain ⟨e | t, u⟩ := x
      · exact g
      · dsimp only
        split <;> exact g

-- Exceptions (spec/11 R221, R224, R228) ------------------------------------------------------------------------------------------

theorem memOk_storeFor {s : State} (k : Nat) (key : LineKey) (o : Bool) (hint : Hint) (pa : Nat) (bs : List Byte) (h : memOk s = true) :
    memOk (s.storeFor k key o hint pa bs) = true :=
  memOk_ownBytes _ _ _ (memOk_storeBytes _ _ _ _ _ _ (memOk_partTenants _ _ _ h))
theorem memOk_storeLines {s : State} (k : Nat) (o : Bool) (pa : Nat) (bs : List Byte) (n : Nat) (h : memOk s = true) :
    memOk (s.storeLines k o pa bs n) = true := by
  induction n generalizing s pa bs with
  | zero => exact h
  | succ n ih =>
    unfold State.storeLines
    dsimp only
    apply ih
    split
    · exact h
    · apply memOk_wakeOthers
      exact memOk_storeFor _ _ _ _ _ _ h
theorem memOk_writeTrapRecord {s t : State} (k : Nat) (bs : List Byte) (h : memOk s = true)
    (e : s.writeTrapRecord k bs = some t) : memOk t = true := by
  have g := memOk_check k (s.hart k).tinfo 8 .row .store 0 true h
  unfold State.writeTrapRecord at e
  revert g e
  generalize s.check k (s.hart k).tinfo 8 .row .store 0 true = x
  intro e g
  obtain ⟨b | p, u⟩ := x
  · simp at e
  · simp only [Option.some.injEq] at e
    subst e
    exact memOk_storeLines _ _ _ _ _ g
theorem memOk_letGo {s : State} (k : Nat) (h : memOk s = true) : memOk (s.letGo k) = true := by
  unfold State.letGo
  split
  · exact memOk_updHart _ _ (memOk_updCore _ _ h)
  · exact h
theorem memOk_takeTrap {s : State} (k : Nat) (t : Trap) (h : memOk s = true) : memOk (s.takeTrap k t) = true := by
  have h := memOk_dropMarks k (memOk_endStall k (memOk_letGo k h))
  unfold State.takeTrap
  dsimp only
  revert h
  generalize ((s.letGo k).endStall k).dropMarks k = s
  intro h
  split
  · exact memOk_contextHalt _ _ _ h
  · split
    · exact memOk_contextHalt _ _ _ h
    · rename_i u e
      apply memOk_emitHart
      apply memOk_bumpHart
      exact memOk_updHart _ _ (memOk_writeTrapRecord _ _ h e)
theorem keeps_takeHere {α : Type} (t : Trap) : Keeps (takeHere t : Op α) := by
  intro s h
  rw [takeHere_run]
  split
  · rename_i e
    split at e
    · simp at e
    · simp at e
  · rename_i u e
    split at e
    · injection e with e; exact e ▸ memOk_waitFor _ _ h
    · injection e with e; exact e ▸ memOk_takeTrap _ _ h
theorem keeps_trap {α : Type} (cause sub : Nat) (v : Word) : Keeps (Machine.trap cause sub v : Op α) := fun s h =>
  keeps_takeHere { cause := cause, sub := sub, value := v, tpc := s.me.pc } s h
theorem keeps_needSupervisor (i : Instr) : Keeps (needSupervisor i) :=
  keeps_bind (keeps_ask _) fun _ => keeps_ite (keeps_pure _) (keeps_trap _ _ _)
theorem keeps_consumePoison {α : Type} (va : Word) : Keeps (consumePoison va : Op α) := fun _ h => memOk_contextHalt _ _ _ h
theorem keeps_awaitInterlock (rd wr : Range) : Keeps (awaitInterlock rd wr) :=
  keeps_bind (keeps_ask _) fun _ => keeps_ite (keeps_pure _)
    (keeps_waitHere _)
theorem keeps_awaitEmission (pa n : Nat) : Keeps (awaitEmission pa n) :=
  keeps_bind (keeps_ask _) fun _ => keeps_ite (keeps_waitHere _) (keeps_pure _)
theorem keeps_awaitTable : Keeps awaitTable :=
  keeps_bind (keeps_ask _) fun _ => keeps_ite
    (keeps_waitHere _) (keeps_pure _)
theorem keeps_awaitRelease : Keeps awaitRelease :=
  keeps_bind (keeps_ask _) fun a => by
    cases a with
    | none => exact keeps_pure _
    | some w => exact keeps_waitHere _
theorem keeps_scalarCheck (ea : Word) (n : Nat) (o : Orient) (kind : AccKind) (w : Nat) :
    Keeps (scalarCheck ea n o kind w) := by
  intro s h
  have g := memOk_check s.cur ea n o kind w s.me.sup h
  unfold scalarCheck
  revert g
  generalize s.check s.cur ea n o kind w s.me.sup = x
  intro g
  obtain ⟨b | t, u⟩ := x
  · exact keeps_trap _ _ _ u g
  · exact g
theorem keeps_watch (ea : Word) (n : Nat) (ld st : Bool) : Keeps (watch ea n ld st) :=
  keeps_bind (keeps_ask _) fun hits => keeps_ite (fun s h =>
    keeps_takeHere { cause := 0x21, value := BitVec.ofNat 64 hits, tpc := s.me.pc, pos := some 0 } s h) (keeps_pure _)

-- Commutative pages (spec/14 R290) -----------------------------------------------------------------------------------------------

theorem memOk_combine {s : State} (mode pa : Nat) (h : memOk s = true) : memOk (s.combine mode pa) = true := by
  unfold State.combine
  dsimp only
  apply memOk_writeHome
  apply memOk_mscReads
  exact memOk_mapClusters (fun c => { c with partials := c.partials.filter fun p => p.pa != pa }) h
theorem memOk_combineRange {s : State} (mode pa n : Nat) (h : memOk s = true) : memOk (s.combineRange mode pa n) = true :=
  memOk_foldl _ (fun _ _ g => memOk_combine _ _ g) _ h
theorem memOk_combineTouched {s : State} (pas : List Nat) (h : memOk s = true) : memOk (s.combineTouched pas) = true :=
  memOk_foldl _ (fun _ _ g => memOk_combine _ _ g) _ h
theorem memOk_contribute {s : State} (core ten mode pa v : Nat) (h : memOk s = true) :
    memOk (s.contribute core ten mode pa v) = true :=
  memOk_updCluster_same _ _ h
theorem memOk_beforeLoad {s : State} (core : Nat) (t : Trans) (n : Nat) (h : memOk s = true) : memOk (s.beforeLoad core t n) = true := by
  unfold State.beforeLoad
  split
  · exact h
  · exact memOk_combineRange _ _ _ (memOk_dropLines _ _ h)

-- Loads and stores ----------------------------------------------------------------------------------------------------------------

theorem memOk_readAt {s : State} (k : Nat) (t : Trans) (n : Nat) (o : Orient) (hint : Hint) (sc : Bool) (h : memOk s = true) :
    memOk (s.readAt k t n o hint sc).2.2 = true := by
  unfold State.readAt
  dsimp only
  split
  · exact memOk_frame h
  · apply memOk_touch
    apply memOk_loadFill
    exact memOk_beforeLoad _ _ _ h
theorem memOk_readMask {s : State} (k : Nat) (h : memOk s = true) : memOk (s.readMask k).2 = true := by
  have g := memOk_check k (s.hart k).tinfo 8 .row .load 0 true h
  unfold State.readMask
  revert g
  generalize s.check k (s.hart k).tinfo 8 .row .load 0 true = x
  intro g
  obtain ⟨b | p, u⟩ := x
  · exact g
  · exact memOk_readAt _ _ _ _ _ _ (memOk_readAt _ _ _ _ _ _ g)
theorem memOk_returnFromTrap {s : State} (k : Nat) (h : memOk s = true) : memOk (s.returnFromTrap k) = true := by
  have g := memOk_readMask k h
  unfold State.returnFromTrap
  dsimp only
  split
  · revert g
    generalize s.readMask k = x
    intro g
    obtain ⟨v | _ | _, u⟩ := x
    · exact memOk_emitHart _ _ _ _ (memOk_updHart _ _ g)
    · exact memOk_emitHart _ _ _ _ (memOk_updHart _ _ g)
    · exact memOk_contextHalt _ _ _ g
  · exact memOk_emitHart _ _ _ _ (memOk_updHart _ _ h)
theorem memOk_writeAt {s : State} (k : Nat) (t : Trans) (n : Nat) (o : Orient) (hint : Hint) (v : Nat) (h : memOk s = true) :
    memOk (s.writeAt k t n o hint v) = true := by
  unfold State.writeAt
  split
  · exact memOk_frame h
  · split
    · exact memOk_contribute _ _ _ _ _ h
    · dsimp only
      split
      · exact memOk_drainBytes _ _ (memOk_wakeOthers _ _ (memOk_storeFor _ _ _ _ _ _ h))
      · exact memOk_wakeOthers _ _ (memOk_storeFor _ _ _ _ _ _ h)
theorem keeps_loadScalar (ea : Word) (n : Nat) (o : Orient) (hint : Hint) : Keeps (loadScalar ea n o hint) := by
  refine keeps_bind (keeps_scalarCheck _ _ _ _ _) fun t => keeps_bind (keeps_watch _ _ _ _) fun _ =>
    keeps_bind (keeps_awaitInterlock _ _) fun _ => keeps_bind (keeps_awaitEmission _ _) fun _ =>
    keeps_bind (keeps_ask _) fun hit => keeps_bind (fun s h => memOk_readAt _ _ _ _ _ _ h) fun x =>
    keeps_bind (keeps_upd fun s h => ?_) fun _ => keeps_ite (keeps_consumePoison _) (keeps_pure _)
  have g := memOk_bumpMe 3 1 (memOk_charge s.cur 1 1 h)
  dsimp only
  split
  · exact memOk_capture _ _ _ g
  · apply memOk_capture
    apply memOk_bumpMe
    exact memOk_capture _ _ _ g
theorem keeps_storeScalar (ea : Word) (n : Nat) (o : Orient) (hint : Hint) (v : Nat) : Keeps (storeScalar ea n o hint v) := by
  refine keeps_bind (keeps_scalarCheck _ _ _ _ _) fun t => keeps_bind (keeps_watch _ _ _ _) fun _ =>
    keeps_bind (keeps_awaitInterlock _ _) fun _ => keeps_bind (keeps_awaitEmission _ _) fun _ =>
    keeps_upd fun s h => ?_
  apply memOk_bumpMe
  apply memOk_charge
  exact memOk_writeAt _ _ _ _ _ _ h

-- Acquires and releases (spec/14 R279, R286, R287) -----------------------------------------------------------------------------------

theorem memOk_drainCore {s : State} (core : Nat) (h : memOk s = true) : memOk (s.drainCore core) = true := by
  unfold State.drainCore
  refine memOk_foldl _ (fun s d g => ?_) _ (memOk_drainBytes _ _ h)
  split
  · exact memOk_updDie _ _ g
  · exact g
theorem memOk_dropRemote {s : State} (d : Nat) (h : memOk s = true) : memOk (s.dropRemote d) = true :=
  memOk_foldl _ (fun _ _ g => memOk_dropLines _ _ g) _ h
theorem memOk_dropRecorded {s : State} (d : Nat) (l : List LineKey) (h : memOk s = true) : memOk (s.dropRecorded d l) = true := by
  unfold State.dropRecorded
  split
  · exact h
  · exact memOk_foldl _ (fun _ _ g => memOk_dropLines _ _ g) _ h
theorem memOk_collect {s : State} (d : Nat) (rs : List Release) (h : memOk s = true) : memOk (s.collect d rs) = true :=
  memOk_foldl _ (fun _ _ g => memOk_dropRecorded _ _ (memOk_drainCore _ g)) _ h
theorem memOk_acquireSide {s : State} (k : Nat) (c : Scope) (rs : List Release) (h : memOk s = true) :
    memOk (s.acquireSide k c rs) = true := by
  unfold State.acquireSide
  dsimp only
  split
  · exact memOk_touchDirty _ _ h
  · exact memOk_dropRemote _ (memOk_collect _ _ (memOk_touchDirty _ _ h))
theorem memOk_acquireAll {s : State} (k : Nat) (c : Scope) (h : memOk s = true) : memOk (s.acquireAll k c) = true := by
  unfold State.acquireAll
  dsimp only
  apply memOk_acquireSide
  split
  · exact memOk_drainCore _ h
  · exact h
theorem memOk_releaseAll {s : State} (k : Nat) (c : Scope) (h : memOk s = true) : memOk (s.releaseAll k c) = true := by
  unfold State.releaseAll
  split
  · exact memOk_drainCore _ h
  · exact h
theorem memOk_releaseWrite {s : State} (k : Nat) (t : Trans) (n : Nat) (c : Scope) (v : Nat) (h : memOk s = true) :
    memOk (s.releaseWrite k t n c v) = true := by
  unfold State.releaseWrite
  dsimp only
  split
  · apply memOk_writeAt
    exact memOk_releaseAll _ _ h
  · apply memOk_updDie
    apply memOk_wakeOthers
    exact memOk_writeThrough _ _ _ _ (memOk_drainBytes _ _ h)
theorem memOk_acquireRead {s : State} (k : Nat) (t : Trans) (n : Nat) (c : Scope) (h : memOk s = true) :
    memOk (s.acquireRead k t n c).2.2 = true := by
  unfold State.acquireRead
  dsimp only
  split
  · exact memOk_acquireSide _ _ _ (memOk_readAt _ _ _ _ _ _ h)
  · exact memOk_acquireSide _ _ _ (memOk_reread _ _ (memOk_mscReads _ _ (memOk_drainBytes _ _ (memOk_beforeLoad _ _ _ h))))

-- Atomics (spec/13 R271 to R275) and fetch ----------------------------------------------------------------------------------------------

theorem memOk_amoPerform {s : State} (k pa : Nat) (o : Bool) (op : AmoOp) (t : AmoTy) (c : Scope) (ctl : BitVec 10) (a b : Nat)
    (h : memOk s = true) : memOk (s.amoPerform k pa o op t c ctl a b).2.2.2 = true := by
  unfold State.amoPerform
  dsimp only
  split
  · have g := memOk_bump (1537 + 3 * clusterOf k) 0 1 (memOk_atomFill (clusterOf k) pa o h)
    revert g
    generalize (s.atomFill (clusterOf k) pa o).bump (1537 + 3 * clusterOf k) 0 1 = u
    intro g
    split
    · exact g
    · split
      · exact memOk_touch _ _ _ g
      · exact memOk_wakeOthers _ _ (memOk_ownBytes _ _ _ (memOk_touch _ _ _ (memOk_writeCopies _ _ _ _
          (memOk_partTenants _ _ _ g))))
  · have g := memOk_mscReads ((upTo (amoSize t)).map (pa + ·)) false (memOk_bump (1537 + 3 * homeCluster pa) 0 1
      (memOk_purgeDie none pa (memOk_flushDrains
        (memOk_dropLines (clusterOf k) (fun l => ((upTo (amoSize t)).map (pa + ·)).any l.holds) h))))
    revert g
    generalize ((((s.dropLines (clusterOf k) fun l => ((upTo (amoSize t)).map (pa + ·)).any l.holds).flushDrains.purgeDie none pa).1.bump
      (1537 + 3 * homeCluster pa) 0 1).mscReads ((upTo (amoSize t)).map (pa + ·)) false) = u
    intro g
    split
    · exact g
    · split
      · exact g
      · apply memOk_wakeOthers
        exact memOk_accept _ _ _ _ _ g
theorem memOk_serveOne {s : State} (k : Nat) (h : memOk s = true) : memOk (s.serveOne k) = true := by
  unfold State.serveOne
  dsimp only
  split
  · exact h
  · rename_i r _
    have f : memOk (s.updCluster k fun c => { c with atomics := c.atomics.eraseP fun r => !s.haltUp r.tenant }) = true :=
      memOk_updCluster_same _ _ h
    have g := memOk_amoPerform r.hart r.pa r.o r.op r.ty r.scope r.fpctl r.a r.b f
    split
    · exact memOk_raiseHalt _ _ _ _ g
    · exact memOk_updHart _ _ g
theorem memOk_serveAll {s : State} (k n : Nat) (h : memOk s = true) : memOk (s.serveAll k n) = true := by
  induction n generalizing s with
  | zero => exact h
  | succ n ih => exact ih (memOk_serveOne _ h)
theorem memOk_fetchLine {s : State} (core pa : Nat) (h : memOk s = true) : memOk (s.fetchLine core pa).2 = true := by
  unfold State.fetchLine
  dsimp only
  split
  · exact h
  · split
    · exact h
    · exact memOk_updCore _ _ (memOk_mscTouch _ _ _ _ h)
theorem memOk_fetchWord {s : State} (k : Nat) (va : Word) (h : memOk s = true) : memOk (s.fetchWord k va).2 = true := by
  have g := memOk_translate k va.toNat .fetch 0 (s.hart k).sup h
  unfold State.fetchWord
  split
  · exact h
  · revert g
    generalize s.translate k va.toNat .fetch 0 (s.hart k).sup = x
    intro g
    obtain ⟨e | t, u⟩ := x
    · exact g
    · exact memOk_fetchLine _ _ g

end Sys2Proof.Laws
end

