-- ==== Sys2Proof/Laws/PerInstr.lean ====
section
/-!
SUPPORT. The family RoundTrip: a well-formed word decodes from its own encoding to itself (spec/02). One lemma for every
constructor; an event has no encoding.
-/
set_option Elab.async false
namespace Sys2Proof.Laws

/-- A well-formed word has an encoding, and its encoding decodes to it. -/
def RoundTrip.Statement (i : Instr) : Prop :=
  i.isEvent = true ∨ (i.wf = true → ∃ n w, encode i = some (n, w) ∧ decodeTableWord n w = some i)

theorem event_trip {i : Instr} (h : i.isEvent = true) : RoundTrip.Statement i := .inl h
theorem control_trip {i : Instr} {f : CFields} (he : encodeC i = some f) (hc : candC f = some i) : RoundTrip.Statement i :=
  .inr fun hw => ⟨32, f.pack.toNat, by simp [encode, he], control_word hw he hc⟩
theorem block_trip {i : Instr} {f : BFields} (h0 : encodeC i = none) (he : encodeB i = some f) (hc : candB f = some i) :
    RoundTrip.Statement i :=
  .inr fun hw => ⟨64, f.pack.toNat, by simp [encode, h0, he], block_word hw he hc⟩

theorem RoundTrip.add (sz : ISize) (d : Reg) (s : Reg) (t : Reg) : RoundTrip.Statement (.add sz d s t) :=
  control_trip rfl (by simp only [candC, r_op, r_a, r_b, r_c, r_fn, r_sz, BitVec.reduceToNat, isize_code, candInt, Option.bind_some])
theorem RoundTrip.sub (sz : ISize) (d : Reg) (s : Reg) (t : Reg) : RoundTrip.Statement (.sub sz d s t) :=
  control_trip rfl (by simp only [candC, r_op, r_a, r_b, r_c, r_fn, r_sz, BitVec.reduceToNat, isize_code, candInt, Option.bind_some])
theorem RoundTrip.mul (sz : ISize) (d : Reg) (s : Reg) (t : Reg) : RoundTrip.Statement (.mul sz d s t) :=
  control_trip rfl (by simp only [candC, r_op, r_a, r_b, r_c, r_fn, r_sz, BitVec.reduceToNat, isize_code, candInt, Option.bind_some])
theorem RoundTrip.mulh (sz : ISize) (d : Reg) (s : Reg) (t : Reg) : RoundTrip.Statement (.mulh sz d s t) :=
  control_trip rfl (by simp only [candC, r_op, r_a, r_b, r_c, r_fn, r_sz, BitVec.reduceToNat, isize_code, candInt, Option.bind_some])
theorem RoundTrip.div (sz : ISize) (d : Reg) (s : Reg) (t : Reg) : RoundTrip.Statement (.div sz d s t) :=
  control_trip rfl (by simp only [candC, r_op, r_a, r_b, r_c, r_fn, r_sz, BitVec.reduceToNat, isize_code, candInt, Option.bind_some])
theorem RoundTrip.rem (sz : ISize) (d : Reg) (s : Reg) (t : Reg) : RoundTrip.Statement (.rem sz d s t) :=
  control_trip rfl (by simp only [candC, r_op, r_a, r_b, r_c, r_fn, r_sz, BitVec.reduceToNat, isize_code, candInt, Option.bind_some])
theorem RoundTrip.and (sz : ISize) (d : Reg) (s : Reg) (t : Reg) : RoundTrip.Statement (.and sz d s t) :=
  control_trip rfl (by simp only [candC, r_op, r_a, r_b, r_c, r_fn, r_sz, BitVec.reduceToNat, isize_code, candInt, Option.bind_some])
theorem RoundTrip.or (sz : ISize) (d : Reg) (s : Reg) (t : Reg) : RoundTrip.Statement (.or sz d s t) :=
  control_trip rfl (by simp only [candC, r_op, r_a, r_b, r_c, r_fn, r_sz, BitVec.reduceToNat, isize_code, candInt, Option.bind_some])
theorem RoundTrip.xor (sz : ISize) (d : Reg) (s : Reg) (t : Reg) : RoundTrip.Statement (.xor sz d s t) :=
  control_trip rfl (by simp only [candC, r_op, r_a, r_b, r_c, r_fn, r_sz, BitVec.reduceToNat, isize_code, candInt, Option.bind_some])
theorem RoundTrip.shl (sz : ISize) (d : Reg) (s : Reg) (t : Reg) : RoundTrip.Statement (.shl sz d s t) :=
  control_trip rfl (by simp only [candC, r_op, r_a, r_b, r_c, r_fn, r_sz, BitVec.reduceToNat, isize_code, candInt, Option.bind_some])
theorem RoundTrip.shr (sz : ISize) (d : Reg) (s : Reg) (t : Reg) : RoundTrip.Statement (.shr sz d s t) :=
  control_trip rfl (by simp only [candC, r_op, r_a, r_b, r_c, r_fn, r_sz, BitVec.reduceToNat, isize_code, candInt, Option.bind_some])
theorem RoundTrip.sra (sz : ISize) (d : Reg) (s : Reg) (t : Reg) : RoundTrip.Statement (.sra sz d s t) :=
  control_trip rfl (by simp only [candC, r_op, r_a, r_b, r_c, r_fn, r_sz, BitVec.reduceToNat, isize_code, candInt, Option.bind_some])
theorem RoundTrip.clz (sz : ISize) (d : Reg) (s : Reg) : RoundTrip.Statement (.clz sz d s) :=
  control_trip rfl (by simp only [candC, r_op, r_a, r_b, r_fn, r_sz, BitVec.reduceToNat, isize_code, candInt, Option.bind_some])
theorem RoundTrip.ctz (sz : ISize) (d : Reg) (s : Reg) : RoundTrip.Statement (.ctz sz d s) :=
  control_trip rfl (by simp only [candC, r_op, r_a, r_b, r_fn, r_sz, BitVec.reduceToNat, isize_code, candInt, Option.bind_some])
theorem RoundTrip.popc (sz : ISize) (d : Reg) (s : Reg) : RoundTrip.Statement (.popc sz d s) :=
  control_trip rfl (by simp only [candC, r_op, r_a, r_b, r_fn, r_sz, BitVec.reduceToNat, isize_code, candInt, Option.bind_some])
theorem RoundTrip.min (sz : ISize) (d : Reg) (s : Reg) (t : Reg) : RoundTrip.Statement (.min sz d s t) :=
  control_trip rfl (by simp only [candC, r_op, r_a, r_b, r_c, r_fn, r_sz, BitVec.reduceToNat, isize_code, candInt, Option.bind_some])
theorem RoundTrip.max (sz : ISize) (d : Reg) (s : Reg) (t : Reg) : RoundTrip.Statement (.max sz d s t) :=
  control_trip rfl (by simp only [candC, r_op, r_a, r_b, r_c, r_fn, r_sz, BitVec.reduceToNat, isize_code, candInt, Option.bind_some])
theorem RoundTrip.slt (sz : ISize) (d : Reg) (s : Reg) (t : Reg) : RoundTrip.Statement (.slt sz d s t) :=
  control_trip rfl (by simp only [candC, r_op, r_a, r_b, r_c, r_fn, r_sz, BitVec.reduceToNat, isize_code, candInt, Option.bind_some])
theorem RoundTrip.sel (sz : ISize) (d : Reg) (s : Reg) (t : Reg) : RoundTrip.Statement (.sel sz d s t) :=
  control_trip rfl (by simp only [candC, r_op, r_a, r_b, r_c, r_fn, r_sz, BitVec.reduceToNat, isize_code, candInt, Option.bind_some])
theorem RoundTrip.addi (d : Reg) (s : Reg) (i : BitVec 15) : RoundTrip.Statement (.addi d s i) :=
  control_trip rfl (by simp only [candC, i_op, i_a, i_b, i_imm, BitVec.reduceToNat])
theorem RoundTrip.andi (d : Reg) (s : Reg) (i : BitVec 15) : RoundTrip.Statement (.andi d s i) :=
  control_trip rfl (by simp only [candC, i_op, i_a, i_b, i_imm, BitVec.reduceToNat])
theorem RoundTrip.ori (d : Reg) (s : Reg) (i : BitVec 15) : RoundTrip.Statement (.ori d s i) :=
  control_trip rfl (by simp only [candC, i_op, i_a, i_b, i_imm, BitVec.reduceToNat])
theorem RoundTrip.xori (d : Reg) (s : Reg) (i : BitVec 15) : RoundTrip.Statement (.xori d s i) :=
  control_trip rfl (by simp only [candC, i_op, i_a, i_b, i_imm, BitVec.reduceToNat])
theorem RoundTrip.shli (d : Reg) (s : Reg) (n : BitVec 6) : RoundTrip.Statement (.shli d s n) :=
  control_trip rfl (by simp only [candC, i_op, i_a, i_b, i_imm, BitVec.reduceToNat, sh_n])
theorem RoundTrip.shri (d : Reg) (s : Reg) (n : BitVec 6) : RoundTrip.Statement (.shri d s n) :=
  control_trip rfl (by simp only [candC, i_op, i_a, i_b, i_imm, BitVec.reduceToNat, sh_n])
theorem RoundTrip.srai (d : Reg) (s : Reg) (n : BitVec 6) : RoundTrip.Statement (.srai d s n) :=
  control_trip rfl (by simp only [candC, i_op, i_a, i_b, i_imm, BitVec.reduceToNat, sh_n])
theorem RoundTrip.slti (d : Reg) (s : Reg) (i : BitVec 15) : RoundTrip.Statement (.slti d s i) :=
  control_trip rfl (by simp only [candC, i_op, i_a, i_b, i_imm, BitVec.reduceToNat])
theorem RoundTrip.lhi (d : Reg) (i : BitVec 20) : RoundTrip.Statement (.lhi d i) :=
  control_trip rfl (by simp only [candC, j_op, j_a, j_imm, BitVec.reduceToNat])
theorem RoundTrip.pcrel (d : Reg) (i : BitVec 20) : RoundTrip.Statement (.pcrel d i) :=
  control_trip rfl (by simp only [candC, j_op, j_a, j_imm, BitVec.reduceToNat])
theorem RoundTrip.jmp (d : Reg) (i : BitVec 20) : RoundTrip.Statement (.jmp d i) :=
  control_trip rfl (by simp only [candC, j_op, j_a, j_imm, BitVec.reduceToNat])
theorem RoundTrip.jr (d : Reg) (s : Reg) (i : BitVec 15) : RoundTrip.Statement (.jr d s i) :=
  control_trip rfl (by simp only [candC, i_op, i_a, i_b, i_imm, BitVec.reduceToNat])
theorem RoundTrip.jtab (s : Reg) (t : Reg) (i : BitVec 15) : RoundTrip.Statement (.jtab s t i) :=
  control_trip rfl (by simp only [candC, i_op, i_a, i_b, i_imm, BitVec.reduceToNat])
theorem RoundTrip.beq (s : Reg) (t : Reg) (i : BitVec 15) : RoundTrip.Statement (.beq s t i) :=
  control_trip rfl (by simp only [candC, i_op, i_a, i_b, i_imm, BitVec.reduceToNat])
theorem RoundTrip.bne (s : Reg) (t : Reg) (i : BitVec 15) : RoundTrip.Statement (.bne s t i) :=
  control_trip rfl (by simp only [candC, i_op, i_a, i_b, i_imm, BitVec.reduceToNat])
theorem RoundTrip.blt (s : Reg) (t : Reg) (i : BitVec 15) : RoundTrip.Statement (.blt s t i) :=
  control_trip rfl (by simp only [candC, i_op, i_a, i_b, i_imm, BitVec.reduceToNat])
theorem RoundTrip.bge (s : Reg) (t : Reg) (i : BitVec 15) : RoundTrip.Statement (.bge s t i) :=
  control_trip rfl (by simp only [candC, i_op, i_a, i_b, i_imm, BitVec.reduceToNat])
theorem RoundTrip.ldS8 (d : Reg) (s : Reg) (i : BitVec 12) (h : Hint) (o : Orient) : RoundTrip.Statement (.ldS8 d s i h o) :=
  control_trip rfl (by simp only [candC, m_op, m_a, m_b, m_off, m_hint, m_o, BitVec.reduceToNat, candMem, hint_code, orient_code, Option.bind_some, Nat.reduceLT, if_true])
theorem RoundTrip.ldZ8 (d : Reg) (s : Reg) (i : BitVec 12) (h : Hint) (o : Orient) : RoundTrip.Statement (.ldZ8 d s i h o) :=
  control_trip rfl (by simp only [candC, m_op, m_a, m_b, m_off, m_hint, m_o, BitVec.reduceToNat, candMem, hint_code, orient_code, Option.bind_some, Nat.reduceLT, if_true])
theorem RoundTrip.ldS16 (d : Reg) (s : Reg) (i : BitVec 12) (h : Hint) (o : Orient) : RoundTrip.Statement (.ldS16 d s i h o) :=
  control_trip rfl (by simp only [candC, m_op, m_a, m_b, m_off, m_hint, m_o, BitVec.reduceToNat, candMem, hint_code, orient_code, Option.bind_some, Nat.reduceLT, if_true])
theorem RoundTrip.ldZ16 (d : Reg) (s : Reg) (i : BitVec 12) (h : Hint) (o : Orient) : RoundTrip.Statement (.ldZ16 d s i h o) :=
  control_trip rfl (by simp only [candC, m_op, m_a, m_b, m_off, m_hint, m_o, BitVec.reduceToNat, candMem, hint_code, orient_code, Option.bind_some, Nat.reduceLT, if_true])
theorem RoundTrip.ldS32 (d : Reg) (s : Reg) (i : BitVec 12) (h : Hint) (o : Orient) : RoundTrip.Statement (.ldS32 d s i h o) :=
  control_trip rfl (by simp only [candC, m_op, m_a, m_b, m_off, m_hint, m_o, BitVec.reduceToNat, candMem, hint_code, orient_code, Option.bind_some, Nat.reduceLT, if_true])
theorem RoundTrip.ldZ32 (d : Reg) (s : Reg) (i : BitVec 12) (h : Hint) (o : Orient) : RoundTrip.Statement (.ldZ32 d s i h o) :=
  control_trip rfl (by simp only [candC, m_op, m_a, m_b, m_off, m_hint, m_o, BitVec.reduceToNat, candMem, hint_code, orient_code, Option.bind_some, Nat.reduceLT, if_true])
theorem RoundTrip.ld64 (d : Reg) (s : Reg) (i : BitVec 12) (h : Hint) : RoundTrip.Statement (.ld64 d s i h) :=
  control_trip rfl (by simp only [candC, m_op, m_a, m_b, m_off, m_hint, m_o, BitVec.reduceToNat, candMem, hint_code, orient_code, Option.bind_some, Nat.reduceLT, if_true])
theorem RoundTrip.st8 (d : Reg) (s : Reg) (i : BitVec 12) (h : Hint) (o : Orient) : RoundTrip.Statement (.st8 d s i h o) :=
  control_trip rfl (by simp only [candC, m_op, m_a, m_b, m_off, m_hint, m_o, BitVec.reduceToNat, candMem, hint_code, orient_code, Option.bind_some, Nat.reduceLT, if_true])
theorem RoundTrip.st16 (d : Reg) (s : Reg) (i : BitVec 12) (h : Hint) (o : Orient) : RoundTrip.Statement (.st16 d s i h o) :=
  control_trip rfl (by simp only [candC, m_op, m_a, m_b, m_off, m_hint, m_o, BitVec.reduceToNat, candMem, hint_code, orient_code, Option.bind_some, Nat.reduceLT, if_true])
theorem RoundTrip.st32 (d : Reg) (s : Reg) (i : BitVec 12) (h : Hint) (o : Orient) : RoundTrip.Statement (.st32 d s i h o) :=
  control_trip rfl (by simp only [candC, m_op, m_a, m_b, m_off, m_hint, m_o, BitVec.reduceToNat, candMem, hint_code, orient_code, Option.bind_some, Nat.reduceLT, if_true])
theorem RoundTrip.st64 (d : Reg) (s : Reg) (i : BitVec 12) (h : Hint) : RoundTrip.Statement (.st64 d s i h) :=
  control_trip rfl (by simp only [candC, m_op, m_a, m_b, m_off, m_hint, m_o, BitVec.reduceToNat, candMem, hint_code, orient_code, Option.bind_some, Nat.reduceLT, if_true])
theorem RoundTrip.ldAcq (d : Reg) (s : Reg) (z : AccSize) (i : BitVec 10) (c : Scope) : RoundTrip.Statement (.ldAcq d s z i c) :=
  control_trip rfl (by simp only [candC, ma_op, ma_a, ma_b, ma_z, ma_off, ma_scope, BitVec.reduceToNat, size_code, scope_code, Option.bind_some, Option.map_some])
theorem RoundTrip.stRel (d : Reg) (s : Reg) (z : AccSize) (i : BitVec 10) (c : Scope) : RoundTrip.Statement (.stRel d s z i c) :=
  control_trip rfl (by simp only [candC, ma_op, ma_a, ma_b, ma_z, ma_off, ma_scope, BitVec.reduceToNat, size_code, scope_code, Option.bind_some, Option.map_some])
theorem RoundTrip.fadd (f : FFmt) (rm : Rm) (d : Reg) (s : Reg) (t : Reg) : RoundTrip.Statement (.fadd f rm d s t) :=
  control_trip rfl (by simp only [candC, r_op, r_a, r_b, r_c, r_fn, r_sz, BitVec.reduceToNat, candFlt, flt_op, flt_rm, rm_code, ffmt_code, Option.bind_some, Option.map_some])
theorem RoundTrip.fsub (f : FFmt) (rm : Rm) (d : Reg) (s : Reg) (t : Reg) : RoundTrip.Statement (.fsub f rm d s t) :=
  control_trip rfl (by simp only [candC, r_op, r_a, r_b, r_c, r_fn, r_sz, BitVec.reduceToNat, candFlt, flt_op, flt_rm, rm_code, ffmt_code, Option.bind_some, Option.map_some])
theorem RoundTrip.fmul (f : FFmt) (rm : Rm) (d : Reg) (s : Reg) (t : Reg) : RoundTrip.Statement (.fmul f rm d s t) :=
  control_trip rfl (by simp only [candC, r_op, r_a, r_b, r_c, r_fn, r_sz, BitVec.reduceToNat, candFlt, flt_op, flt_rm, rm_code, ffmt_code, Option.bind_some, Option.map_some])
theorem RoundTrip.fdiv (f : FFmt) (rm : Rm) (d : Reg) (s : Reg) (t : Reg) : RoundTrip.Statement (.fdiv f rm d s t) :=
  control_trip rfl (by simp only [candC, r_op, r_a, r_b, r_c, r_fn, r_sz, BitVec.reduceToNat, candFlt, flt_op, flt_rm, rm_code, ffmt_code, Option.bind_some, Option.map_some])
theorem RoundTrip.fsqrt (f : FFmt) (rm : Rm) (d : Reg) (s : Reg) : RoundTrip.Statement (.fsqrt f rm d s) :=
  control_trip rfl (by simp only [candC, r_op, r_a, r_b, r_fn, r_sz, BitVec.reduceToNat, candFlt, flt_op, flt_rm, rm_code, ffmt_code, Option.bind_some, Option.map_some])
theorem RoundTrip.fma (f : FFmt) (rm : Rm) (d : Reg) (s : Reg) (t : Reg) : RoundTrip.Statement (.fma f rm d s t) :=
  control_trip rfl (by simp only [candC, r_op, r_a, r_b, r_c, r_fn, r_sz, BitVec.reduceToNat, candFlt, flt_op, flt_rm, rm_code, ffmt_code, Option.bind_some, Option.map_some])
theorem RoundTrip.fmin (f : FFmt) (d : Reg) (s : Reg) (t : Reg) : RoundTrip.Statement (.fmin f d s t) :=
  control_trip rfl (by simp only [candC, r_op, r_a, r_b, r_c, r_fn, r_sz, BitVec.reduceToNat, candFlt, flt_op, flt_rm, rm_code, ffmt_code, Option.bind_some, Option.map_some])
theorem RoundTrip.fmax (f : FFmt) (d : Reg) (s : Reg) (t : Reg) : RoundTrip.Statement (.fmax f d s t) :=
  control_trip rfl (by simp only [candC, r_op, r_a, r_b, r_c, r_fn, r_sz, BitVec.reduceToNat, candFlt, flt_op, flt_rm, rm_code, ffmt_code, Option.bind_some, Option.map_some])
theorem RoundTrip.fcmpEq (f : FFmt) (d : Reg) (s : Reg) (t : Reg) : RoundTrip.Statement (.fcmpEq f d s t) :=
  control_trip rfl (by simp only [candC, r_op, r_a, r_b, r_c, r_fn, r_sz, BitVec.reduceToNat, candFlt, flt_op, flt_rm, rm_code, ffmt_code, Option.bind_some, Option.map_some])
theorem RoundTrip.fcmpLt (f : FFmt) (d : Reg) (s : Reg) (t : Reg) : RoundTrip.Statement (.fcmpLt f d s t) :=
  control_trip rfl (by simp only [candC, r_op, r_a, r_b, r_c, r_fn, r_sz, BitVec.reduceToNat, candFlt, flt_op, flt_rm, rm_code, ffmt_code, Option.bind_some, Option.map_some])
theorem RoundTrip.fcmpLe (f : FFmt) (d : Reg) (s : Reg) (t : Reg) : RoundTrip.Statement (.fcmpLe f d s t) :=
  control_trip rfl (by simp only [candC, r_op, r_a, r_b, r_c, r_fn, r_sz, BitVec.reduceToNat, candFlt, flt_op, flt_rm, rm_code, ffmt_code, Option.bind_some, Option.map_some])
theorem RoundTrip.fcmpUn (f : FFmt) (d : Reg) (s : Reg) (t : Reg) : RoundTrip.Statement (.fcmpUn f d s t) :=
  control_trip rfl (by simp only [candC, r_op, r_a, r_b, r_c, r_fn, r_sz, BitVec.reduceToNat, candFlt, flt_op, flt_rm, rm_code, ffmt_code, Option.bind_some, Option.map_some])
theorem RoundTrip.fcvt (dst : CvtTy) (src : CvtTy) (rm : Rm) (d : Reg) (s : Reg) : RoundTrip.Statement (.fcvt dst src rm d s) :=
  control_trip rfl (by simp only [candC, r_op, r_a, r_b, r_c, r_fn, r_sz, BitVec.reduceToNat, candFlt, flt_op, flt_rm, rm_code, cvt_code, cvt_src, Option.bind_some, Option.map_some])
theorem RoundTrip.fclass (f : FFmt) (d : Reg) (s : Reg) : RoundTrip.Statement (.fclass f d s) :=
  control_trip rfl (by simp only [candC, r_op, r_a, r_b, r_fn, r_sz, BitVec.reduceToNat, candFlt, flt_op, flt_rm, rm_code, ffmt_code, Option.bind_some, Option.map_some])
theorem RoundTrip.cget (d : Reg) (c : BitVec 12) : RoundTrip.Statement (.cget d c) :=
  control_trip rfl (by simp only [candC, i_op, i_a, i_imm, BitVec.reduceToNat, creg_n])
theorem RoundTrip.cset (s : Reg) (c : BitVec 12) : RoundTrip.Statement (.cset s c) :=
  control_trip rfl (by simp only [candC, i_op, i_b, i_imm, BitVec.reduceToNat, creg_n])
theorem RoundTrip.cswap (d : Reg) (s : Reg) (c : BitVec 12) : RoundTrip.Statement (.cswap d s c) :=
  control_trip rfl (by simp only [candC, i_op, i_a, i_b, i_imm, BitVec.reduceToNat, creg_n])
theorem RoundTrip.fenceAcq (c : Scope) : RoundTrip.Statement (.fenceAcq c) :=
  control_trip rfl (by simp only [candC, r_op, r_fn, r_sz, BitVec.reduceToNat, candMm, scope_code, Option.map_some])
theorem RoundTrip.fenceRel (c : Scope) : RoundTrip.Statement (.fenceRel c) :=
  control_trip rfl (by simp only [candC, r_op, r_fn, r_sz, BitVec.reduceToNat, candMm, scope_code, Option.map_some])
theorem RoundTrip.fenceSc (c : Scope) : RoundTrip.Statement (.fenceSc c) :=
  control_trip rfl (by simp only [candC, r_op, r_fn, r_sz, BitVec.reduceToNat, candMm, scope_code, Option.map_some])
theorem RoundTrip.seal (s : Reg) (t : Reg) : RoundTrip.Statement (.seal s t) :=
  control_trip rfl (by simp only [candC, r_op, r_b, r_c, r_fn, BitVec.reduceToNat, candMm])
theorem RoundTrip.unseal (s : Reg) (t : Reg) : RoundTrip.Statement (.unseal s t) :=
  control_trip rfl (by simp only [candC, r_op, r_b, r_c, r_fn, BitVec.reduceToNat, candMm])
theorem RoundTrip.crange (m : CMode) (s : Reg) (t : Reg) : RoundTrip.Statement (.crange m s t) :=
  control_trip rfl (by simp only [candC, r_op, r_a, r_b, r_c, r_fn, BitVec.reduceToNat, candMm, cmode_code, Option.map_some])
theorem RoundTrip.cflush (s : Reg) (t : Reg) : RoundTrip.Statement (.cflush s t) :=
  control_trip rfl (by simp only [candC, r_op, r_b, r_c, r_fn, BitVec.reduceToNat, candMm])
theorem RoundTrip.cinval (s : Reg) (t : Reg) : RoundTrip.Statement (.cinval s t) :=
  control_trip rfl (by simp only [candC, r_op, r_b, r_c, r_fn, BitVec.reduceToNat, candMm])
theorem RoundTrip.amoAdd (ty : AmoTy) (c : Scope) (d : Reg) (s : Reg) (t : Reg) : RoundTrip.Statement (.amoAdd ty c d s t) :=
  control_trip rfl (by simp only [candC, r_op, r_a, r_b, r_c, r_fn, r_sz, BitVec.reduceToNat, candAmo, amo_ty, amo_op, amoty_code, amoop_code, scope_code, Option.bind_some, Option.map_some])
theorem RoundTrip.amoFadd (ty : AmoTy) (c : Scope) (d : Reg) (s : Reg) (t : Reg) : RoundTrip.Statement (.amoFadd ty c d s t) :=
  control_trip rfl (by simp only [candC, r_op, r_a, r_b, r_c, r_fn, r_sz, BitVec.reduceToNat, candAmo, amo_ty, amo_op, amoty_code, amoop_code, scope_code, Option.bind_some, Option.map_some])
theorem RoundTrip.amoMin (ty : AmoTy) (c : Scope) (d : Reg) (s : Reg) (t : Reg) : RoundTrip.Statement (.amoMin ty c d s t) :=
  control_trip rfl (by simp only [candC, r_op, r_a, r_b, r_c, r_fn, r_sz, BitVec.reduceToNat, candAmo, amo_ty, amo_op, amoty_code, amoop_code, scope_code, Option.bind_some, Option.map_some])
theorem RoundTrip.amoMax (ty : AmoTy) (c : Scope) (d : Reg) (s : Reg) (t : Reg) : RoundTrip.Statement (.amoMax ty c d s t) :=
  control_trip rfl (by simp only [candC, r_op, r_a, r_b, r_c, r_fn, r_sz, BitVec.reduceToNat, candAmo, amo_ty, amo_op, amoty_code, amoop_code, scope_code, Option.bind_some, Option.map_some])
theorem RoundTrip.amoAnd (ty : AmoTy) (c : Scope) (d : Reg) (s : Reg) (t : Reg) : RoundTrip.Statement (.amoAnd ty c d s t) :=
  control_trip rfl (by simp only [candC, r_op, r_a, r_b, r_c, r_fn, r_sz, BitVec.reduceToNat, candAmo, amo_ty, amo_op, amoty_code, amoop_code, scope_code, Option.bind_some, Option.map_some])
theorem RoundTrip.amoOr (ty : AmoTy) (c : Scope) (d : Reg) (s : Reg) (t : Reg) : RoundTrip.Statement (.amoOr ty c d s t) :=
  control_trip rfl (by simp only [candC, r_op, r_a, r_b, r_c, r_fn, r_sz, BitVec.reduceToNat, candAmo, amo_ty, amo_op, amoty_code, amoop_code, scope_code, Option.bind_some, Option.map_some])
theorem RoundTrip.amoXor (ty : AmoTy) (c : Scope) (d : Reg) (s : Reg) (t : Reg) : RoundTrip.Statement (.amoXor ty c d s t) :=
  control_trip rfl (by simp only [candC, r_op, r_a, r_b, r_c, r_fn, r_sz, BitVec.reduceToNat, candAmo, amo_ty, amo_op, amoty_code, amoop_code, scope_code, Option.bind_some, Option.map_some])
theorem RoundTrip.amoSwap (ty : AmoTy) (c : Scope) (d : Reg) (s : Reg) (t : Reg) : RoundTrip.Statement (.amoSwap ty c d s t) :=
  control_trip rfl (by simp only [candC, r_op, r_a, r_b, r_c, r_fn, r_sz, BitVec.reduceToNat, candAmo, amo_ty, amo_op, amoty_code, amoop_code, scope_code, Option.bind_some, Option.map_some])
theorem RoundTrip.amoCas (ty : AmoTy) (c : Scope) (d : Reg) (s : Reg) (t : Reg) : RoundTrip.Statement (.amoCas ty c d s t) :=
  control_trip rfl (by simp only [candC, r_op, r_a, r_b, r_c, r_fn, r_sz, BitVec.reduceToNat, candAmo, amo_ty, amo_op, amoty_code, amoop_code, scope_code, Option.bind_some, Option.map_some])
theorem RoundTrip.cp (od : Orient) (os : Orient) (d : Reg) (s : Reg) (t : Reg) : RoundTrip.Statement (.cp od os d s t) :=
  control_trip rfl (by simp only [candC, r_op, r_a, r_b, r_c, r_fn, r_sz, BitVec.reduceToNat, candEng, cp_od, cp_os, orient_code, Option.bind_some, Option.map_some])
theorem RoundTrip.abarInit (s : Reg) (t : Reg) : RoundTrip.Statement (.abarInit s t) :=
  control_trip rfl (by simp only [candC, r_op, r_b, r_c, r_fn, BitVec.reduceToNat, candEng])
theorem RoundTrip.abarExpect (s : Reg) (t : Reg) : RoundTrip.Statement (.abarExpect s t) :=
  control_trip rfl (by simp only [candC, r_op, r_b, r_c, r_fn, BitVec.reduceToNat, candEng])
theorem RoundTrip.abarArrive (s : Reg) : RoundTrip.Statement (.abarArrive s) :=
  control_trip rfl (by simp only [candC, r_op, r_b, r_fn, BitVec.reduceToNat, candEng])
theorem RoundTrip.abarWait (s : Reg) (t : Reg) : RoundTrip.Statement (.abarWait s t) :=
  control_trip rfl (by simp only [candC, r_op, r_b, r_c, r_fn, BitVec.reduceToNat, candEng])
theorem RoundTrip.gbar : RoundTrip.Statement .gbar :=
  control_trip rfl (by simp only [candC, r_op, r_fn, BitVec.reduceToNat, candGang])
theorem RoundTrip.glaunch (d : Reg) (s : Reg) : RoundTrip.Statement (.glaunch d s) :=
  control_trip rfl (by simp only [candC, r_op, r_a, r_b, r_fn, BitVec.reduceToNat, candGang])
theorem RoundTrip.gwait (s : Reg) (t : Reg) : RoundTrip.Statement (.gwait s t) :=
  control_trip rfl (by simp only [candC, r_op, r_b, r_c, r_fn, BitVec.reduceToNat, candGang])
theorem RoundTrip.wadd (s : Reg) (t : Reg) : RoundTrip.Statement (.wadd s t) :=
  control_trip rfl (by simp only [candC, r_op, r_b, r_c, r_fn, BitVec.reduceToNat, candGang])
theorem RoundTrip.wtake (d : Reg) (s : Reg) : RoundTrip.Statement (.wtake d s) :=
  control_trip rfl (by simp only [candC, r_op, r_a, r_b, r_fn, BitVec.reduceToNat, candGang])
theorem RoundTrip.tidle : RoundTrip.Statement .tidle :=
  control_trip rfl (by simp only [candC, r_op, r_fn, BitVec.reduceToNat, candGang])
theorem RoundTrip.tquiet (d : Reg) : RoundTrip.Statement (.tquiet d) :=
  control_trip rfl (by simp only [candC, r_op, r_a, r_fn, BitVec.reduceToNat, candGang])
theorem RoundTrip.trap (s : Reg) : RoundTrip.Statement (.trap s) :=
  control_trip rfl (by simp only [candC, r_op, r_b, r_fn, BitVec.reduceToNat, candTrap])
theorem RoundTrip.tret : RoundTrip.Statement .tret :=
  control_trip rfl (by simp only [candC, r_op, r_fn, BitVec.reduceToNat, candTrap])
theorem RoundTrip.halt : RoundTrip.Statement .halt :=
  control_trip rfl (by simp only [candC, r_op, r_fn, BitVec.reduceToNat, candTrap])
theorem RoundTrip.wfe : RoundTrip.Statement .wfe :=
  control_trip rfl (by simp only [candC, r_op, r_fn, BitVec.reduceToNat, candTrap])
theorem RoundTrip.vown (d : Reg) : RoundTrip.Statement (.vown d) :=
  control_trip rfl (by simp only [candC, r_op, r_a, r_fn, BitVec.reduceToNat, candTrap])
theorem RoundTrip.vsave (s : Reg) : RoundTrip.Statement (.vsave s) :=
  control_trip rfl (by simp only [candC, r_op, r_b, r_fn, BitVec.reduceToNat, candTrap])
theorem RoundTrip.vrest (s : Reg) : RoundTrip.Statement (.vrest s) :=
  control_trip rfl (by simp only [candC, r_op, r_b, r_fn, BitVec.reduceToNat, candTrap])
theorem RoundTrip.tmark (s : Reg) (t : Reg) : RoundTrip.Statement (.tmark s t) :=
  control_trip rfl (by simp only [candC, r_op, r_b, r_c, r_fn, BitVec.reduceToNat, candReel])
theorem RoundTrip.tflt (s : Reg) : RoundTrip.Statement (.tflt s) :=
  control_trip rfl (by simp only [candC, r_op, r_b, r_fn, BitVec.reduceToNat, candReel])
theorem RoundTrip.cexp (s : Reg) : RoundTrip.Statement (.cexp s) :=
  control_trip rfl (by simp only [candC, r_op, r_b, r_fn, BitVec.reduceToNat, candReel])
theorem RoundTrip.prog (s : Reg) : RoundTrip.Statement (.prog s) :=
  control_trip rfl (by simp only [candC, r_op, r_b, r_fn, BitVec.reduceToNat, candReel])
theorem RoundTrip.lcap (d : Reg) (s : Reg) : RoundTrip.Statement (.lcap d s) :=
  control_trip rfl (by simp only [candC, r_op, r_a, r_b, r_fn, BitVec.reduceToNat, candReel])
theorem RoundTrip.jput (s : Reg) : RoundTrip.Statement (.jput s) :=
  control_trip rfl (by simp only [candC, r_op, r_b, r_fn, BitVec.reduceToNat, candSlate])
theorem RoundTrip.jsync (s : Reg) : RoundTrip.Statement (.jsync s) :=
  control_trip rfl (by simp only [candC, r_op, r_b, r_fn, BitVec.reduceToNat, candSlate])
theorem RoundTrip.emit (s : Reg) (t : Reg) : RoundTrip.Statement (.emit s t) :=
  control_trip rfl (by simp only [candC, r_op, r_b, r_c, r_fn, BitVec.reduceToNat, candSlate])
theorem RoundTrip.jtrunc (s : Reg) : RoundTrip.Statement (.jtrunc s) :=
  control_trip rfl (by simp only [candC, r_op, r_b, r_fn, BitVec.reduceToNat, candSlate])
theorem RoundTrip.jreplay (s : Reg) : RoundTrip.Statement (.jreplay s) :=
  control_trip rfl (by simp only [candC, r_op, r_b, r_fn, BitVec.reduceToNat, candSlate])
theorem RoundTrip.setvl (keep : Bool) (w : WCode) (d : Reg) (s : Reg) : RoundTrip.Statement (.setvl keep w d s) :=
  control_trip rfl (by simp only [candC, v_op, v_a, v_b, v_F, BitVec.reduceToNat, vl_w, vl_keep, wcode_code, bit_true, Option.map_some])
theorem RoundTrip.setvtype (s : Reg) : RoundTrip.Statement (.setvtype s) :=
  control_trip rfl (by simp only [candC, v_op, v_b, BitVec.reduceToNat])
theorem RoundTrip.vf (i : BitVec 20) : RoundTrip.Statement (.vf i) :=
  control_trip rfl (by simp only [candC, j_op, j_imm, BitVec.reduceToNat])
theorem RoundTrip.vdrain (i : BitVec 20) : RoundTrip.Statement (.vdrain i) :=
  control_trip rfl (by simp only [candC, j_op, j_imm, BitVec.reduceToNat])
theorem RoundTrip.vld (d : Reg) (c : Reg) (m : VMem) : RoundTrip.Statement (.vld d c m) :=
  control_trip rfl (by simp only [candC, v_op, v_a, v_b, v_c, v_ty, v_F, BitVec.reduceToNat, candVec, ety_code, CFields.vmem, CFields.ori, mem_o, mem_off, orient_code, Option.bind_some, Option.map_some, Nat.reduceLT, if_false])
theorem RoundTrip.vst (a : Reg) (c : Reg) (m : VMem) : RoundTrip.Statement (.vst a c m) :=
  control_trip rfl (by simp only [candC, v_op, v_a, v_b, v_c, v_ty, v_F, BitVec.reduceToNat, candVec, ety_code, CFields.vmem, CFields.ori, mem_o, mem_off, orient_code, Option.bind_some, Option.map_some, Nat.reduceLT, if_false])
theorem RoundTrip.vstMc (a : Reg) (c : Reg) (m : VMem) : RoundTrip.Statement (.vstMc a c m) :=
  control_trip rfl (by simp only [candC, v_op, v_a, v_b, v_c, v_ty, v_F, BitVec.reduceToNat, candVec, ety_code, CFields.vmem, CFields.ori, mem_o, mem_off, orient_code, Option.bind_some, Option.map_some, Nat.reduceLT, if_false])
theorem RoundTrip.vlff (d : Reg) (m : VMem) : RoundTrip.Statement (.vlff d m) :=
  control_trip rfl (by simp only [candC, v_op, v_a, v_b, v_ty, v_F, BitVec.reduceToNat, candVec, ety_code, CFields.vmem, CFields.ori, mem_o, mem_off, orient_code, Option.bind_some, Option.map_some, Nat.reduceLT, if_false])
theorem RoundTrip.vldx (d : Reg) (b : Reg) (m : VMem) : RoundTrip.Statement (.vldx d b m) :=
  control_trip rfl (by simp only [candC, v_op, v_a, v_b, v_c, v_ty, v_F, BitVec.reduceToNat, candVec, ety_code, CFields.vmem, CFields.ori, mem_o, mem_off, orient_code, Option.bind_some, Option.map_some, Nat.reduceLT, if_false])
theorem RoundTrip.vstx (a : Reg) (b : Reg) (m : VMem) : RoundTrip.Statement (.vstx a b m) :=
  control_trip rfl (by simp only [candC, v_op, v_a, v_b, v_c, v_ty, v_F, BitVec.reduceToNat, candVec, ety_code, CFields.vmem, CFields.ori, mem_o, mem_off, orient_code, Option.bind_some, Option.map_some, Nat.reduceLT, if_false])
theorem RoundTrip.scommit (p : Option Prefix) : RoundTrip.Statement (.scommit p) :=
  control_trip rfl (by cases p <;> simp only [candC, v_op, v_a, v_F, BitVec.reduceToNat, commit_bit, commit_neg, commit_none, bit_true, zero_ne_one, xlC, if_true, if_false])
theorem RoundTrip.sabort : RoundTrip.Statement .sabort :=
  control_trip rfl (by simp only [candC, v_op, BitVec.reduceToNat])
theorem RoundTrip.vmvx (t : ETy) (d : Reg) (a : Reg) (c : Reg) : RoundTrip.Statement (.vmvx t d a c) :=
  control_trip rfl (by simp only [candC, v_op, v_a, v_b, v_c, v_ty, BitVec.reduceToNat, candVec, ety_code, Option.bind_some, Nat.reduceLT, if_false])
theorem RoundTrip.vbcast (t : ETy) (d : Reg) (s : Reg) : RoundTrip.Statement (.vbcast t d s) :=
  control_trip rfl (by simp only [candC, v_op, v_a, v_b, v_ty, BitVec.reduceToNat, candVec, ety_code, Option.bind_some, Nat.reduceLT, if_false])
theorem RoundTrip.vredAdd (t : ETy) (p : Option Prefix) (d : Reg) (a : Reg) : RoundTrip.Statement (.vredAdd t p d a) :=
  control_trip rfl (by simp only [candC, v_op, v_a, v_b, v_ty, v_F, BitVec.reduceToNat, candVec, ety_code, xl_op, xl_prefix, candRed, Option.bind_some, Nat.reduceLT, if_false])
theorem RoundTrip.vredMin (t : ETy) (p : Option Prefix) (d : Reg) (a : Reg) : RoundTrip.Statement (.vredMin t p d a) :=
  control_trip rfl (by simp only [candC, v_op, v_a, v_b, v_ty, v_F, BitVec.reduceToNat, candVec, ety_code, xl_op, xl_prefix, candRed, Option.bind_some, Nat.reduceLT, if_false])
theorem RoundTrip.vredMax (t : ETy) (p : Option Prefix) (d : Reg) (a : Reg) : RoundTrip.Statement (.vredMax t p d a) :=
  control_trip rfl (by simp only [candC, v_op, v_a, v_b, v_ty, v_F, BitVec.reduceToNat, candVec, ety_code, xl_op, xl_prefix, candRed, Option.bind_some, Nat.reduceLT, if_false])
theorem RoundTrip.vredAnd (t : ETy) (p : Option Prefix) (d : Reg) (a : Reg) : RoundTrip.Statement (.vredAnd t p d a) :=
  control_trip rfl (by simp only [candC, v_op, v_a, v_b, v_ty, v_F, BitVec.reduceToNat, candVec, ety_code, xl_op, xl_prefix, candRed, Option.bind_some, Nat.reduceLT, if_false])
theorem RoundTrip.vredOr (t : ETy) (p : Option Prefix) (d : Reg) (a : Reg) : RoundTrip.Statement (.vredOr t p d a) :=
  control_trip rfl (by simp only [candC, v_op, v_a, v_b, v_ty, v_F, BitVec.reduceToNat, candVec, ety_code, xl_op, xl_prefix, candRed, Option.bind_some, Nat.reduceLT, if_false])
theorem RoundTrip.vredXor (t : ETy) (p : Option Prefix) (d : Reg) (a : Reg) : RoundTrip.Statement (.vredXor t p d a) :=
  control_trip rfl (by simp only [candC, v_op, v_a, v_b, v_ty, v_F, BitVec.reduceToNat, candVec, ety_code, xl_op, xl_prefix, candRed, Option.bind_some, Nat.reduceLT, if_false])
theorem RoundTrip.vminidx (t : ETy) (p : Option Prefix) (d : Reg) (a : Reg) : RoundTrip.Statement (.vminidx t p d a) :=
  control_trip rfl (by simp only [candC, v_op, v_a, v_b, v_ty, BitVec.reduceToNat, candVec, ety_code, xl_prefix, Option.bind_some, Nat.reduceLT, if_false])
theorem RoundTrip.vmaxidx (t : ETy) (p : Option Prefix) (d : Reg) (a : Reg) : RoundTrip.Statement (.vmaxidx t p d a) :=
  control_trip rfl (by simp only [candC, v_op, v_a, v_b, v_ty, BitVec.reduceToNat, candVec, ety_code, xl_prefix, Option.bind_some, Nat.reduceLT, if_false])
theorem RoundTrip.vscanAdd (t : ETy) (p : Option Prefix) (d : Reg) (a : Reg) : RoundTrip.Statement (.vscanAdd t p d a) :=
  control_trip rfl (by simp only [candC, v_op, v_a, v_b, v_ty, v_F, BitVec.reduceToNat, candVec, ety_code, xl_op, xl_prefix, candRed, Option.bind_some, Nat.reduceLT, if_false])
theorem RoundTrip.vscanMin (t : ETy) (p : Option Prefix) (d : Reg) (a : Reg) : RoundTrip.Statement (.vscanMin t p d a) :=
  control_trip rfl (by simp only [candC, v_op, v_a, v_b, v_ty, v_F, BitVec.reduceToNat, candVec, ety_code, xl_op, xl_prefix, candRed, Option.bind_some, Nat.reduceLT, if_false])
theorem RoundTrip.vscanMax (t : ETy) (p : Option Prefix) (d : Reg) (a : Reg) : RoundTrip.Statement (.vscanMax t p d a) :=
  control_trip rfl (by simp only [candC, v_op, v_a, v_b, v_ty, v_F, BitVec.reduceToNat, candVec, ety_code, xl_op, xl_prefix, candRed, Option.bind_some, Nat.reduceLT, if_false])
theorem RoundTrip.vscanAnd (t : ETy) (p : Option Prefix) (d : Reg) (a : Reg) : RoundTrip.Statement (.vscanAnd t p d a) :=
  control_trip rfl (by simp only [candC, v_op, v_a, v_b, v_ty, v_F, BitVec.reduceToNat, candVec, ety_code, xl_op, xl_prefix, candRed, Option.bind_some, Nat.reduceLT, if_false])
theorem RoundTrip.vscanOr (t : ETy) (p : Option Prefix) (d : Reg) (a : Reg) : RoundTrip.Statement (.vscanOr t p d a) :=
  control_trip rfl (by simp only [candC, v_op, v_a, v_b, v_ty, v_F, BitVec.reduceToNat, candVec, ety_code, xl_op, xl_prefix, candRed, Option.bind_some, Nat.reduceLT, if_false])
theorem RoundTrip.vscanXor (t : ETy) (p : Option Prefix) (d : Reg) (a : Reg) : RoundTrip.Statement (.vscanXor t p d a) :=
  control_trip rfl (by simp only [candC, v_op, v_a, v_b, v_ty, v_F, BitVec.reduceToNat, candVec, ety_code, xl_op, xl_prefix, candRed, Option.bind_some, Nat.reduceLT, if_false])
theorem RoundTrip.vperm (t : ETy) (d : Reg) (a : Reg) (b : Reg) : RoundTrip.Statement (.vperm t d a b) :=
  control_trip rfl (by simp only [candC, v_op, v_a, v_b, v_c, v_ty, BitVec.reduceToNat, candVec, ety_code, Option.bind_some, Nat.reduceLT, if_false])
theorem RoundTrip.vcompress (t : ETy) (d : Reg) (a : Reg) (p : Reg) : RoundTrip.Statement (.vcompress t d a p) :=
  control_trip rfl (by simp only [candC, v_op, v_a, v_b, v_c, v_ty, BitVec.reduceToNat, candVec, ety_code, Option.bind_some, Nat.reduceLT, if_false])
theorem RoundTrip.vexpand (t : ETy) (d : Reg) (a : Reg) (p : Reg) : RoundTrip.Statement (.vexpand t d a p) :=
  control_trip rfl (by simp only [candC, v_op, v_a, v_b, v_c, v_ty, BitVec.reduceToNat, candVec, ety_code, Option.bind_some, Nat.reduceLT, if_false])
theorem RoundTrip.vslideUp (t : ETy) (d : Reg) (a : Reg) (c : Reg) : RoundTrip.Statement (.vslideUp t d a c) :=
  control_trip rfl (by simp only [candC, v_op, v_a, v_b, v_c, v_ty, v_F, BitVec.reduceToNat, candVec, ety_code, slide_up, zero_ne_one, Option.bind_some, Nat.reduceLT, if_false])
theorem RoundTrip.vslideDown (t : ETy) (d : Reg) (a : Reg) (c : Reg) : RoundTrip.Statement (.vslideDown t d a c) :=
  control_trip rfl (by simp only [candC, v_op, v_a, v_b, v_c, v_ty, v_F, BitVec.reduceToNat, candVec, ety_code, slide_down, Option.bind_some, Nat.reduceLT, if_true, if_false])
theorem RoundTrip.vfirst (d : Reg) (a : Reg) : RoundTrip.Statement (.vfirst d a) :=
  control_trip rfl (by simp only [candC, v_op, v_a, v_b, BitVec.reduceToNat])
theorem RoundTrip.vpcount (d : Reg) (a : Reg) : RoundTrip.Statement (.vpcount d a) :=
  control_trip rfl (by simp only [candC, v_op, v_a, v_b, BitVec.reduceToNat])
theorem RoundTrip.menter (s : Reg) : RoundTrip.Statement (.menter s) :=
  control_trip rfl (by simp only [candC, v_op, v_b, BitVec.reduceToNat])
theorem RoundTrip.mleave : RoundTrip.Statement .mleave :=
  control_trip rfl (by simp only [candC, v_op, BitVec.reduceToNat])
theorem RoundTrip.mzero (z : ZSel) : RoundTrip.Statement (.mzero z) :=
  control_trip rfl (by simp only [candC, v_op, v_a, BitVec.reduceToNat, z_sel, zsel_code, Option.map_some])
theorem RoundTrip.mop (t : ETy) (z : Acc) (rm : Rm) (k : Option Scales) (a : Reg) (b : Reg) : RoundTrip.Statement (.mop t z rm k a b) :=
  control_trip rfl (by simp only [candC, v_op, v_a, v_b, v_c, v_ty, v_F, BitVec.reduceToNat, candVec, ety_code, CFields.rm, rm_code, acc_code, prod_acc, prod_rm, prod_scales, Option.bind_some, Option.map_some, Nat.reduceLT, if_false])
theorem RoundTrip.mtile (t : ETy) (z : Acc) (rm : Rm) (k : Option Scales) (a : Reg) (b : BitVec 2) : RoundTrip.Statement (.mtile t z rm k a b) :=
  control_trip rfl (by simp only [candC, v_op, v_a, v_b, v_c, v_ty, v_F, BitVec.reduceToNat, candVec, ety_code, CFields.rm, rm_code, acc_code, grp_n, prod_acc, prod_rm, prod_scales, Option.bind_some, Option.map_some, Nat.reduceLT, if_false])
theorem RoundTrip.mdrain (o : Orient) (t : ETy) (z : Acc) (rm : Rm) (d : Reg) (c : Reg) : RoundTrip.Statement (.mdrain o t z rm d c) :=
  control_trip rfl (by simp only [candC, v_op, v_a, v_b, v_c, v_ty, v_F, BitVec.reduceToNat, candVec, ety_code, CFields.ori, CFields.rm, orient_code, rm_code, acc_code, acc_bit, or_o, or_rm, Option.bind_some, Option.map_some, Nat.reduceLT, if_false])
theorem RoundTrip.mdrainB (o : Orient) (t : ETy) (z : Acc) (rm : Rm) (c : Reg) : RoundTrip.Statement (.mdrainB o t z rm c) :=
  control_trip rfl (by simp only [candC, v_op, v_b, v_c, v_ty, v_F, BitVec.reduceToNat, candVec, ety_code, CFields.ori, CFields.rm, orient_code, rm_code, acc_code, acc_bit, or_o, or_rm, Option.bind_some, Option.map_some, Nat.reduceLT, if_false])
theorem RoundTrip.mld (o : Orient) (t : ETy) (z : Acc) (s : Reg) (c : Reg) : RoundTrip.Statement (.mld o t z s c) :=
  control_trip rfl (by simp only [candC, v_op, v_a, v_b, v_c, v_ty, v_F, BitVec.reduceToNat, candVec, ety_code, CFields.ori, orient_code, acc_code, acc_bit, or_o, Option.bind_some, Option.map_some, Nat.reduceLT, if_false])
theorem RoundTrip.mst (o : Orient) (t : ETy) (z : Acc) (rm : Rm) (s : Reg) (c : Reg) : RoundTrip.Statement (.mst o t z rm s c) :=
  control_trip rfl (by simp only [candC, v_op, v_a, v_b, v_c, v_ty, v_F, BitVec.reduceToNat, candVec, ety_code, CFields.ori, CFields.rm, orient_code, rm_code, acc_code, acc_bit, or_o, or_rm, Option.bind_some, Option.map_some, Nat.reduceLT, if_false])
theorem RoundTrip.mbwdX (t : ETy) (rm : Rm) (k : Option Scales) (a : BitVec 2) (b : BitVec 2) : RoundTrip.Statement (.mbwdX t rm k a b) :=
  control_trip rfl (by simp only [candC, v_op, v_b, v_c, v_ty, v_F, BitVec.reduceToNat, candVec, ety_code, CFields.rm, rm_code, grp_n, prod_rm, prod_scales, Option.bind_some, Option.map_some, Nat.reduceLT, if_false])
theorem RoundTrip.mbwdW (t : ETy) (rm : Rm) (k : Option Scales) (a : BitVec 2) (b : BitVec 2) : RoundTrip.Statement (.mbwdW t rm k a b) :=
  control_trip rfl (by simp only [candC, v_op, v_b, v_c, v_ty, v_F, BitVec.reduceToNat, candVec, ety_code, CFields.rm, rm_code, grp_n, prod_rm, prod_scales, Option.bind_some, Option.map_some, Nat.reduceLT, if_false])
theorem RoundTrip.mbwdBoth (t : ETy) (rm : Rm) (k : Option Scales) (a : BitVec 2) (b : BitVec 2) : RoundTrip.Statement (.mbwdBoth t rm k a b) :=
  control_trip rfl (by simp only [candC, v_op, v_b, v_c, v_ty, v_F, BitVec.reduceToNat, candVec, ety_code, CFields.rm, rm_code, grp_n, prod_rm, prod_scales, Option.bind_some, Option.map_some, Nat.reduceLT, if_false])
theorem RoundTrip.vadd (h : BHead) (t : ETy) (rm : Rm) (d : Reg) (a : Src) (b : Src) (m : Option Reg) : RoundTrip.Statement (.vadd h t rm d a b m) :=
  block_trip rfl rfl (by obtain ⟨cv, _ | ⟨p, ng⟩⟩ := h <;> cases m <;> simp only [candB, bhead, BFields.withMask, BFields.d, BFields.a, BFields.b, BFields.t, BFields.r, BFields.head, BFields.mask, BFields.sa, BFields.sb, BFields.rmode, BitVec.reduceToNat, rm3_top, rm3_low, rm_code, ety_code, Option.bind_some, Option.map_some, if_true, if_false, Bool.false_eq_true])
theorem RoundTrip.vsub (h : BHead) (t : ETy) (rm : Rm) (d : Reg) (a : Src) (b : Src) (m : Option Reg) : RoundTrip.Statement (.vsub h t rm d a b m) :=
  block_trip rfl rfl (by obtain ⟨cv, _ | ⟨p, ng⟩⟩ := h <;> cases m <;> simp only [candB, bhead, BFields.withMask, BFields.d, BFields.a, BFields.b, BFields.t, BFields.r, BFields.head, BFields.mask, BFields.sa, BFields.sb, BFields.rmode, BitVec.reduceToNat, rm3_top, rm3_low, rm_code, ety_code, Option.bind_some, Option.map_some, if_true, if_false, Bool.false_eq_true])
theorem RoundTrip.vmul (h : BHead) (t : ETy) (rm : Rm) (d : Reg) (a : Src) (b : Src) (m : Option Reg) : RoundTrip.Statement (.vmul h t rm d a b m) :=
  block_trip rfl rfl (by obtain ⟨cv, _ | ⟨p, ng⟩⟩ := h <;> cases m <;> simp only [candB, bhead, BFields.withMask, BFields.d, BFields.a, BFields.b, BFields.t, BFields.r, BFields.head, BFields.mask, BFields.sa, BFields.sb, BFields.rmode, BitVec.reduceToNat, rm3_top, rm3_low, rm_code, ety_code, Option.bind_some, Option.map_some, if_true, if_false, Bool.false_eq_true])
theorem RoundTrip.vmulh (h : BHead) (t : ETy) (d : Reg) (a : Src) (b : Src) : RoundTrip.Statement (.vmulh h t d a b) :=
  block_trip rfl rfl (by obtain ⟨cv, _ | ⟨p, ng⟩⟩ := h <;> simp only [candB, bhead, BFields.d, BFields.a, BFields.b, BFields.t, BFields.head, BFields.sa, BFields.sb, BitVec.reduceToNat, ety_code, Option.map_some, if_true, if_false, Bool.false_eq_true])
theorem RoundTrip.vmac (h : BHead) (t : ETy) (rm : Rm) (d : Reg) (a : Src) (b : Src) (m : Option Reg) : RoundTrip.Statement (.vmac h t rm d a b m) :=
  block_trip rfl rfl (by obtain ⟨cv, _ | ⟨p, ng⟩⟩ := h <;> cases m <;> simp only [candB, bhead, BFields.withMask, BFields.d, BFields.a, BFields.b, BFields.t, BFields.r, BFields.head, BFields.mask, BFields.sa, BFields.sb, BFields.rmode, BitVec.reduceToNat, rm3_top, rm3_low, rm_code, ety_code, Option.bind_some, Option.map_some, if_true, if_false, Bool.false_eq_true])
theorem RoundTrip.vfma (h : BHead) (t : ETy) (rm : Rm) (d : Reg) (a : Src) (b : Src) (c : Src) (m : Option Reg) : RoundTrip.Statement (.vfma h t rm d a b c m) :=
  block_trip rfl rfl (by obtain ⟨cv, _ | ⟨p, ng⟩⟩ := h <;> cases m <;> simp only [candB, bhead, BFields.withMask, BFields.d, BFields.a, BFields.b, BFields.c, BFields.t, BFields.r, BFields.head, BFields.mask, BFields.sa, BFields.sb, BFields.sc, BFields.rmode, BitVec.reduceToNat, rm3_top, rm3_low, rm_code, ety_code, Option.bind_some, Option.map_some, if_true, if_false, Bool.false_eq_true])
theorem RoundTrip.vdiv (h : BHead) (t : ETy) (rm : Rm) (d : Reg) (a : Src) (b : Src) (m : Option Reg) : RoundTrip.Statement (.vdiv h t rm d a b m) :=
  block_trip rfl rfl (by obtain ⟨cv, _ | ⟨p, ng⟩⟩ := h <;> cases m <;> simp only [candB, bhead, BFields.withMask, BFields.d, BFields.a, BFields.b, BFields.t, BFields.r, BFields.head, BFields.mask, BFields.sa, BFields.sb, BFields.rmode, BitVec.reduceToNat, rm3_top, rm3_low, rm_code, ety_code, Option.bind_some, Option.map_some, if_true, if_false, Bool.false_eq_true])
theorem RoundTrip.vrem (h : BHead) (t : ETy) (d : Reg) (a : Src) (b : Src) (m : Option Reg) : RoundTrip.Statement (.vrem h t d a b m) :=
  block_trip rfl rfl (by obtain ⟨cv, _ | ⟨p, ng⟩⟩ := h <;> cases m <;> simp only [candB, bhead, BFields.withMask, BFields.d, BFields.a, BFields.b, BFields.t, BFields.head, BFields.mask, BFields.sa, BFields.sb, BitVec.reduceToNat, ety_code, Option.map_some, if_true, if_false, Bool.false_eq_true])
theorem RoundTrip.vmin (h : BHead) (t : ETy) (d : Reg) (a : Src) (b : Src) : RoundTrip.Statement (.vmin h t d a b) :=
  block_trip rfl rfl (by obtain ⟨cv, _ | ⟨p, ng⟩⟩ := h <;> simp only [candB, bhead, BFields.d, BFields.a, BFields.b, BFields.t, BFields.head, BFields.sa, BFields.sb, BitVec.reduceToNat, ety_code, Option.map_some, if_true, if_false, Bool.false_eq_true])
theorem RoundTrip.vmax (h : BHead) (t : ETy) (d : Reg) (a : Src) (b : Src) : RoundTrip.Statement (.vmax h t d a b) :=
  block_trip rfl rfl (by obtain ⟨cv, _ | ⟨p, ng⟩⟩ := h <;> simp only [candB, bhead, BFields.d, BFields.a, BFields.b, BFields.t, BFields.head, BFields.sa, BFields.sb, BitVec.reduceToNat, ety_code, Option.map_some, if_true, if_false, Bool.false_eq_true])
theorem RoundTrip.vabs (h : BHead) (t : ETy) (d : Reg) (a : Src) (m : Option Reg) : RoundTrip.Statement (.vabs h t d a m) :=
  block_trip rfl rfl (by obtain ⟨cv, _ | ⟨p, ng⟩⟩ := h <;> cases m <;> simp only [candB, bhead, BFields.withMask, BFields.d, BFields.a, BFields.t, BFields.head, BFields.mask, BFields.sa, BitVec.reduceToNat, ety_code, Option.map_some, if_true, if_false, Bool.false_eq_true])
theorem RoundTrip.vneg (h : BHead) (t : ETy) (d : Reg) (a : Src) (m : Option Reg) : RoundTrip.Statement (.vneg h t d a m) :=
  block_trip rfl rfl (by obtain ⟨cv, _ | ⟨p, ng⟩⟩ := h <;> cases m <;> simp only [candB, bhead, BFields.withMask, BFields.d, BFields.a, BFields.t, BFields.head, BFields.mask, BFields.sa, BitVec.reduceToNat, ety_code, Option.map_some, if_true, if_false, Bool.false_eq_true])
theorem RoundTrip.vsqrt (h : BHead) (t : ETy) (rm : Rm) (d : Reg) (a : Src) : RoundTrip.Statement (.vsqrt h t rm d a) :=
  block_trip rfl rfl (by obtain ⟨cv, _ | ⟨p, ng⟩⟩ := h <;> simp only [candB, bhead, BFields.d, BFields.a, BFields.t, BFields.r, BFields.head, BFields.sa, BFields.rmode, BitVec.reduceToNat, rm3_top, rm3_low, rm_code, ety_code, Option.bind_some, Option.map_some, if_true, if_false, Bool.false_eq_true])
theorem RoundTrip.vand (h : BHead) (t : ETy) (d : Reg) (a : Src) (b : Src) : RoundTrip.Statement (.vand h t d a b) :=
  block_trip rfl rfl (by obtain ⟨cv, _ | ⟨p, ng⟩⟩ := h <;> simp only [candB, bhead, BFields.d, BFields.a, BFields.b, BFields.t, BFields.head, BFields.sa, BFields.sb, BitVec.reduceToNat, ety_code, Option.map_some, if_true, if_false, Bool.false_eq_true])
theorem RoundTrip.vor (h : BHead) (t : ETy) (d : Reg) (a : Src) (b : Src) : RoundTrip.Statement (.vor h t d a b) :=
  block_trip rfl rfl (by obtain ⟨cv, _ | ⟨p, ng⟩⟩ := h <;> simp only [candB, bhead, BFields.d, BFields.a, BFields.b, BFields.t, BFields.head, BFields.sa, BFields.sb, BitVec.reduceToNat, ety_code, Option.map_some, if_true, if_false, Bool.false_eq_true])
theorem RoundTrip.vxor (h : BHead) (t : ETy) (d : Reg) (a : Src) (b : Src) : RoundTrip.Statement (.vxor h t d a b) :=
  block_trip rfl rfl (by obtain ⟨cv, _ | ⟨p, ng⟩⟩ := h <;> simp only [candB, bhead, BFields.d, BFields.a, BFields.b, BFields.t, BFields.head, BFields.sa, BFields.sb, BitVec.reduceToNat, ety_code, Option.map_some, if_true, if_false, Bool.false_eq_true])
theorem RoundTrip.vnot (h : BHead) (t : ETy) (d : Reg) (a : Src) : RoundTrip.Statement (.vnot h t d a) :=
  block_trip rfl rfl (by obtain ⟨cv, _ | ⟨p, ng⟩⟩ := h <;> simp only [candB, bhead, BFields.d, BFields.a, BFields.t, BFields.head, BFields.sa, BitVec.reduceToNat, ety_code, Option.map_some, if_true, if_false, Bool.false_eq_true])
theorem RoundTrip.vshl (h : BHead) (t : ETy) (d : Reg) (a : Src) (b : Src) : RoundTrip.Statement (.vshl h t d a b) :=
  block_trip rfl rfl (by obtain ⟨cv, _ | ⟨p, ng⟩⟩ := h <;> simp only [candB, bhead, BFields.d, BFields.a, BFields.b, BFields.t, BFields.head, BFields.sa, BFields.sb, BitVec.reduceToNat, ety_code, Option.map_some, if_true, if_false, Bool.false_eq_true])
theorem RoundTrip.vshr (h : BHead) (t : ETy) (d : Reg) (a : Src) (b : Src) : RoundTrip.Statement (.vshr h t d a b) :=
  block_trip rfl rfl (by obtain ⟨cv, _ | ⟨p, ng⟩⟩ := h <;> simp only [candB, bhead, BFields.d, BFields.a, BFields.b, BFields.t, BFields.head, BFields.sa, BFields.sb, BitVec.reduceToNat, ety_code, Option.map_some, if_true, if_false, Bool.false_eq_true])
theorem RoundTrip.vsra (h : BHead) (t : ETy) (d : Reg) (a : Src) (b : Src) : RoundTrip.Statement (.vsra h t d a b) :=
  block_trip rfl rfl (by obtain ⟨cv, _ | ⟨p, ng⟩⟩ := h <;> simp only [candB, bhead, BFields.d, BFields.a, BFields.b, BFields.t, BFields.head, BFields.sa, BFields.sb, BitVec.reduceToNat, ety_code, Option.map_some, if_true, if_false, Bool.false_eq_true])
theorem RoundTrip.vpopc (h : BHead) (t : ETy) (d : Reg) (a : Src) : RoundTrip.Statement (.vpopc h t d a) :=
  block_trip rfl rfl (by obtain ⟨cv, _ | ⟨p, ng⟩⟩ := h <;> simp only [candB, bhead, BFields.d, BFields.a, BFields.t, BFields.head, BFields.sa, BitVec.reduceToNat, ety_code, Option.map_some, if_true, if_false, Bool.false_eq_true])
theorem RoundTrip.vclz (h : BHead) (t : ETy) (d : Reg) (a : Src) : RoundTrip.Statement (.vclz h t d a) :=
  block_trip rfl rfl (by obtain ⟨cv, _ | ⟨p, ng⟩⟩ := h <;> simp only [candB, bhead, BFields.d, BFields.a, BFields.t, BFields.head, BFields.sa, BitVec.reduceToNat, ety_code, Option.map_some, if_true, if_false, Bool.false_eq_true])
theorem RoundTrip.vsel (h : BHead) (t : ETy) (d : Reg) (a : Src) (b : Src) (n : Reg) : RoundTrip.Statement (.vsel h t d a b n) :=
  block_trip rfl rfl (by obtain ⟨cv, _ | ⟨p, ng⟩⟩ := h <;> simp only [candB, bhead, BFields.d, BFields.a, BFields.b, BFields.head, BFields.sa, BFields.sb, BitVec.reduceToNat, ety_code, Option.map_some, if_true, if_false, Bool.false_eq_true])
theorem RoundTrip.vli (h : BHead) (t : ETy) (d : Reg) (i : BitVec 12) : RoundTrip.Statement (.vli h t d i) :=
  block_trip rfl rfl (by obtain ⟨cv, _ | ⟨p, ng⟩⟩ := h <;> simp only [candB, bhead, BFields.d, BFields.t, BFields.i, BFields.head, BitVec.reduceToNat, ety_code, Option.map_some, if_true, if_false, Bool.false_eq_true])
theorem RoundTrip.vmov (h : BHead) (t : ETy) (d : Reg) (a : Src) : RoundTrip.Statement (.vmov h t d a) :=
  block_trip rfl rfl (by obtain ⟨cv, _ | ⟨p, ng⟩⟩ := h <;> simp only [candB, bhead, BFields.d, BFields.a, BFields.t, BFields.head, BFields.sa, BitVec.reduceToNat, ety_code, Option.map_some, if_true, if_false, Bool.false_eq_true])
theorem RoundTrip.vcvt (h : BHead) (t : ETy) (u : ETy) (rm : Rm) (d : Reg) (a : Src) (m : Option Reg) : RoundTrip.Statement (.vcvt h t u rm d a m) :=
  block_trip rfl rfl (by obtain ⟨cv, _ | ⟨p, ng⟩⟩ := h <;> cases m <;> simp only [candB, bhead, BFields.withMask, BFields.d, BFields.a, BFields.t, BFields.r, BFields.i, BFields.head, BFields.mask, BFields.sa, BFields.rmode, BitVec.reduceToNat, rm3_top, rm3_low, rm_code, ety_code, Option.bind_some, Option.map_some, if_true, if_false, Bool.false_eq_true, imm_ty])
theorem RoundTrip.vclass (h : BHead) (t : ETy) (d : Reg) (a : Src) : RoundTrip.Statement (.vclass h t d a) :=
  block_trip rfl rfl (by obtain ⟨cv, _ | ⟨p, ng⟩⟩ := h <;> simp only [candB, bhead, BFields.d, BFields.a, BFields.t, BFields.head, BFields.sa, BitVec.reduceToNat, ety_code, Option.map_some, if_true, if_false, Bool.false_eq_true])
theorem RoundTrip.vrcp (h : BHead) (rm : Rm) (d : Reg) (a : Src) (m : Option Reg) : RoundTrip.Statement (.vrcp h rm d a m) :=
  block_trip rfl rfl (by obtain ⟨cv, _ | ⟨p, ng⟩⟩ := h <;> cases m <;> simp only [candB, bhead, BFields.withMask, BFields.d, BFields.a, BFields.t, BFields.r, BFields.head, BFields.mask, BFields.sa, BFields.rmode, BitVec.reduceToNat, rm3_top, rm3_low, rm_code, Option.map_some, if_true, if_false, Bool.false_eq_true])
theorem RoundTrip.vrsqrt (h : BHead) (rm : Rm) (d : Reg) (a : Src) (m : Option Reg) : RoundTrip.Statement (.vrsqrt h rm d a m) :=
  block_trip rfl rfl (by obtain ⟨cv, _ | ⟨p, ng⟩⟩ := h <;> cases m <;> simp only [candB, bhead, BFields.withMask, BFields.d, BFields.a, BFields.t, BFields.r, BFields.head, BFields.mask, BFields.sa, BFields.rmode, BitVec.reduceToNat, rm3_top, rm3_low, rm_code, Option.map_some, if_true, if_false, Bool.false_eq_true])
theorem RoundTrip.vexp2 (h : BHead) (rm : Rm) (d : Reg) (a : Src) (m : Option Reg) : RoundTrip.Statement (.vexp2 h rm d a m) :=
  block_trip rfl rfl (by obtain ⟨cv, _ | ⟨p, ng⟩⟩ := h <;> cases m <;> simp only [candB, bhead, BFields.withMask, BFields.d, BFields.a, BFields.t, BFields.r, BFields.head, BFields.mask, BFields.sa, BFields.rmode, BitVec.reduceToNat, rm3_top, rm3_low, rm_code, Option.map_some, if_true, if_false, Bool.false_eq_true])
theorem RoundTrip.vlog2 (h : BHead) (rm : Rm) (d : Reg) (a : Src) (m : Option Reg) : RoundTrip.Statement (.vlog2 h rm d a m) :=
  block_trip rfl rfl (by obtain ⟨cv, _ | ⟨p, ng⟩⟩ := h <;> cases m <;> simp only [candB, bhead, BFields.withMask, BFields.d, BFields.a, BFields.t, BFields.r, BFields.head, BFields.mask, BFields.sa, BFields.rmode, BitVec.reduceToNat, rm3_top, rm3_low, rm_code, Option.map_some, if_true, if_false, Bool.false_eq_true])
theorem RoundTrip.vqadd (h : BHead) (d : Reg) (a : Src) (b : Src) (m : Option Reg) : RoundTrip.Statement (.vqadd h d a b m) :=
  block_trip rfl rfl (by obtain ⟨cv, _ | ⟨p, ng⟩⟩ := h <;> cases m <;> simp only [candB, bhead, BFields.withMask, BFields.d, BFields.a, BFields.b, BFields.t, BFields.head, BFields.mask, BFields.sa, BFields.sb, BitVec.reduceToNat, if_true, if_false, Bool.false_eq_true])
theorem RoundTrip.vqmul (h : BHead) (d : Reg) (a : Src) (b : Src) (m : Option Reg) : RoundTrip.Statement (.vqmul h d a b m) :=
  block_trip rfl rfl (by obtain ⟨cv, _ | ⟨p, ng⟩⟩ := h <;> cases m <;> simp only [candB, bhead, BFields.withMask, BFields.d, BFields.a, BFields.b, BFields.t, BFields.head, BFields.mask, BFields.sa, BFields.sb, BitVec.reduceToNat, if_true, if_false, Bool.false_eq_true])
theorem RoundTrip.vqpack (h : BHead) (u : ETy) (d : Reg) (a : Src) (m : Option Reg) : RoundTrip.Statement (.vqpack h u d a m) :=
  block_trip rfl rfl (by obtain ⟨cv, _ | ⟨p, ng⟩⟩ := h <;> cases m <;> simp only [candB, bhead, BFields.withMask, BFields.d, BFields.a, BFields.t, BFields.i, BFields.head, BFields.mask, BFields.sa, BitVec.reduceToNat, ety_code, Option.map_some, if_true, if_false, Bool.false_eq_true, imm_ty])
theorem RoundTrip.vqunpack (h : BHead) (t : ETy) (d : Reg) (a : Src) : RoundTrip.Statement (.vqunpack h t d a) :=
  block_trip rfl rfl (by obtain ⟨cv, _ | ⟨p, ng⟩⟩ := h <;> simp only [candB, bhead, BFields.d, BFields.a, BFields.t, BFields.head, BFields.sa, BitVec.reduceToNat, ety_code, Option.map_some, if_true, if_false, Bool.false_eq_true])
theorem RoundTrip.vscale (h : BHead) (t : ETy) (rm : Rm) (d : Reg) (a : Src) (k : KReg) (m : Option Reg) : RoundTrip.Statement (.vscale h t rm d a k m) :=
  block_trip rfl rfl (by obtain ⟨cv, _ | ⟨p, ng⟩⟩ := h <;> cases m <;> simp only [candB, bhead, BFields.withMask, BFields.d, BFields.a, BFields.t, BFields.r, BFields.i, BFields.head, BFields.mask, BFields.sa, BFields.rmode, BitVec.reduceToNat, rm3_top, rm3_low, rm_code, ety_code, Option.bind_some, Option.map_some, if_true, if_false, Bool.false_eq_true, imm_k])
theorem RoundTrip.vcmp (h : BHead) (cc : CmpOp) (t : ETy) (d : Reg) (a : Src) (b : Src) : RoundTrip.Statement (.vcmp h cc t d a b) :=
  block_trip rfl rfl (by obtain ⟨cv, _ | ⟨p, ng⟩⟩ := h <;> simp only [candB, bhead, BFields.d, BFields.a, BFields.b, BFields.t, BFields.i, BFields.head, BFields.sa, BFields.sb, BitVec.reduceToNat, ety_code, Option.bind_some, Option.map_some, if_true, if_false, Bool.false_eq_true, imm_k, cmp_code])
theorem RoundTrip.pand (h : BHead) (d : Reg) (a : Reg) (b : Reg) : RoundTrip.Statement (.pand h d a b) :=
  block_trip rfl rfl (by obtain ⟨cv, _ | ⟨p, ng⟩⟩ := h <;> simp only [candB, bhead, BFields.head, BitVec.reduceToNat, if_true, if_false, Bool.false_eq_true])
theorem RoundTrip.por (h : BHead) (d : Reg) (a : Reg) (b : Reg) : RoundTrip.Statement (.por h d a b) :=
  block_trip rfl rfl (by obtain ⟨cv, _ | ⟨p, ng⟩⟩ := h <;> simp only [candB, bhead, BFields.head, BitVec.reduceToNat, if_true, if_false, Bool.false_eq_true])
theorem RoundTrip.pxor (h : BHead) (d : Reg) (a : Reg) (b : Reg) : RoundTrip.Statement (.pxor h d a b) :=
  block_trip rfl rfl (by obtain ⟨cv, _ | ⟨p, ng⟩⟩ := h <;> simp only [candB, bhead, BFields.head, BitVec.reduceToNat, if_true, if_false, Bool.false_eq_true])
theorem RoundTrip.pnot (h : BHead) (d : Reg) (a : Reg) : RoundTrip.Statement (.pnot h d a) :=
  block_trip rfl rfl (by obtain ⟨cv, _ | ⟨p, ng⟩⟩ := h <;> simp only [candB, bhead, BFields.head, BitVec.reduceToNat, if_true, if_false, Bool.false_eq_true])
theorem RoundTrip.pmov (h : BHead) (d : Reg) (a : Reg) : RoundTrip.Statement (.pmov h d a) :=
  block_trip rfl rfl (by obtain ⟨cv, _ | ⟨p, ng⟩⟩ := h <;> simp only [candB, bhead, BFields.head, BitVec.reduceToNat, if_true, if_false, Bool.false_eq_true])
theorem RoundTrip.psgt (h : BHead) (t : ETy) (d : Reg) (a : Src) (b : Src) : RoundTrip.Statement (.psgt h t d a b) :=
  block_trip rfl rfl (by obtain ⟨cv, _ | ⟨p, ng⟩⟩ := h <;> simp only [candB, bhead, BFields.d, BFields.a, BFields.b, BFields.t, BFields.head, BFields.sa, BFields.sb, BitVec.reduceToNat, ety_code, Option.map_some, if_true, if_false, Bool.false_eq_true])
theorem RoundTrip.psge (h : BHead) (t : ETy) (d : Reg) (a : Src) (b : Src) : RoundTrip.Statement (.psge h t d a b) :=
  block_trip rfl rfl (by obtain ⟨cv, _ | ⟨p, ng⟩⟩ := h <;> simp only [candB, bhead, BFields.d, BFields.a, BFields.b, BFields.t, BFields.head, BFields.sa, BFields.sb, BitVec.reduceToNat, ety_code, Option.map_some, if_true, if_false, Bool.false_eq_true])
theorem RoundTrip.pslt (h : BHead) (t : ETy) (d : Reg) (a : Src) (b : Src) : RoundTrip.Statement (.pslt h t d a b) :=
  block_trip rfl rfl (by obtain ⟨cv, _ | ⟨p, ng⟩⟩ := h <;> simp only [candB, bhead, BFields.d, BFields.a, BFields.b, BFields.t, BFields.head, BFields.sa, BFields.sb, BitVec.reduceToNat, ety_code, Option.map_some, if_true, if_false, Bool.false_eq_true])
theorem RoundTrip.psle (h : BHead) (t : ETy) (d : Reg) (a : Src) (b : Src) : RoundTrip.Statement (.psle h t d a b) :=
  block_trip rfl rfl (by obtain ⟨cv, _ | ⟨p, ng⟩⟩ := h <;> simp only [candB, bhead, BFields.d, BFields.a, BFields.b, BFields.t, BFields.head, BFields.sa, BFields.sb, BitVec.reduceToNat, ety_code, Option.map_some, if_true, if_false, Bool.false_eq_true])
theorem RoundTrip.pset (h : BHead) (d : Reg) (a : Src) : RoundTrip.Statement (.pset h d a) :=
  block_trip rfl rfl (by obtain ⟨cv, _ | ⟨p, ng⟩⟩ := h <;> simp only [candB, bhead, BFields.d, BFields.a, BFields.t, BFields.head, BFields.sa, BitVec.reduceToNat, if_true, if_false, Bool.false_eq_true])
theorem RoundTrip.pind (cv : Bool) (d : Reg) (v : Bool) : RoundTrip.Statement (.pind cv d v) :=
  block_trip rfl rfl (by simp only [candB, BitVec.reduceToNat, imm_v, bit_true])
theorem RoundTrip.pcollapse (cv : Bool) (d : Reg) (a : Reg) : RoundTrip.Statement (.pcollapse cv d a) :=
  block_trip rfl rfl (by simp only [candB, BitVec.reduceToNat])
theorem RoundTrip.vblend (cv : Bool) (t : ETy) (rm : Rm) (d : Reg) (a : Src) (b : Src) (c : Reg) : RoundTrip.Statement (.vblend cv t rm d a b c) :=
  block_trip rfl rfl (by simp only [candB, BFields.d, BFields.a, BFields.b, BFields.t, BFields.sa, BFields.sb, BFields.rmode, BitVec.reduceToNat, rm3_top, rm3_low, rm_code, ety_code, Option.bind_some, Option.map_some, if_false])
theorem RoundTrip.vbgrad (h : BHead) (t : ETy) (rm : Rm) (d : Reg) (g : Src) (a : Src) (b : Src) : RoundTrip.Statement (.vbgrad h t rm d g a b) :=
  block_trip rfl rfl (by obtain ⟨cv, _ | ⟨p, ng⟩⟩ := h <;> simp only [candB, bhead, BFields.d, BFields.a, BFields.b, BFields.c, BFields.t, BFields.r, BFields.head, BFields.sa, BFields.sb, BFields.sc, BFields.rmode, BitVec.reduceToNat, rm3_top, rm3_low, rm_code, ety_code, Option.bind_some, Option.map_some, if_true, if_false, Bool.false_eq_true])
theorem RoundTrip.psgrad (h : BHead) (t : ETy) (rm : Rm) (d : Reg) (g : Src) (a : Src) (b : Src) : RoundTrip.Statement (.psgrad h t rm d g a b) :=
  block_trip rfl rfl (by obtain ⟨cv, _ | ⟨p, ng⟩⟩ := h <;> simp only [candB, bhead, BFields.d, BFields.a, BFields.b, BFields.c, BFields.t, BFields.r, BFields.head, BFields.sa, BFields.sb, BFields.sc, BFields.rmode, BitVec.reduceToNat, rm3_top, rm3_low, rm_code, ety_code, Option.bind_some, Option.map_some, if_true, if_false, Bool.false_eq_true])
theorem RoundTrip.vlde (h : BHead) (o : Orient) (t : ETy) (d : Reg) (a : Src) (i : BitVec 12) : RoundTrip.Statement (.vlde h o t d a i) :=
  block_trip rfl rfl (by obtain ⟨cv, _ | ⟨p, ng⟩⟩ := h <;> simp only [candB, bhead, BFields.d, BFields.a, BFields.t, BFields.i, BFields.o, BFields.head, BFields.sa, BitVec.reduceToNat, ety_code, Option.bind_some, Option.map_some, if_true, if_false, Bool.false_eq_true, o_low, orient_code])
theorem RoundTrip.vste (h : BHead) (o : Orient) (t : ETy) (a : Src) (b : Src) (i : BitVec 12) : RoundTrip.Statement (.vste h o t a b i) :=
  block_trip rfl rfl (by obtain ⟨cv, _ | ⟨p, ng⟩⟩ := h <;> simp only [candB, bhead, BFields.a, BFields.b, BFields.t, BFields.i, BFields.o, BFields.head, BFields.sa, BFields.sb, BitVec.reduceToNat, ety_code, Option.bind_some, Option.map_some, if_true, if_false, Bool.false_eq_true, o_low, orient_code])
theorem RoundTrip.vamo (h : BHead) (op : AmoOp) (c : Scope) (ty : AmoTy) (d : Reg) (a : Src) (b : Src) (n : Src) : RoundTrip.Statement (.vamo h op c ty d a b n) :=
  block_trip rfl rfl (by obtain ⟨cv, _ | ⟨p, ng⟩⟩ := h <;> simp only [candB, bhead, BFields.d, BFields.a, BFields.b, BFields.c, BFields.head, BFields.sa, BFields.sb, BFields.sc, BitVec.reduceToNat, Option.bind_some, Option.map_some, if_true, if_false, Bool.false_eq_true, imm_scope, imm_op, amo_pack, amo_range, amoty_code, amoop_code, scope_code])
theorem RoundTrip.vdefer (h : BHead) (d : Option Reg) (a : Option Src) (b : Option Src) (c : Option Src) (i : BitVec 12) : RoundTrip.Statement (.vdefer h d a b c i) :=
  block_trip rfl rfl (by obtain ⟨cv, _ | ⟨p, ng⟩⟩ := h <;> cases d <;> cases a <;> cases b <;> cases c <;> simp only [candB, bhead, BFields.i, BFields.head, BFields.sa, BFields.sb, BFields.sc, BitVec.reduceToNat, if_true, if_false, Bool.false_eq_true, carry, carry_0, carry_1, carry_2, carry_3, bit_true, Option.getD_some, Option.getD_none, Option.isSome_some, Option.isSome_none])
theorem RoundTrip.vfetch (h : BHead) (i : BitVec 12) : RoundTrip.Statement (.vfetch h i) :=
  block_trip rfl rfl (by obtain ⟨cv, _ | ⟨p, ng⟩⟩ := h <;> simp only [candB, bhead, BFields.i, BFields.head, BitVec.reduceToNat, if_true, if_false, Bool.false_eq_true])
theorem RoundTrip.vstop : RoundTrip.Statement .vstop :=
  block_trip rfl rfl (by simp only [candB, BitVec.reduceToNat])
theorem RoundTrip.vectorQueueEntryStart (h : Nat) : RoundTrip.Statement (.vectorQueueEntryStart h) := event_trip rfl
theorem RoundTrip.laneGrant (h : Nat) : RoundTrip.Statement (.laneGrant h) := event_trip rfl
theorem RoundTrip.laneChange (h : Nat) : RoundTrip.Statement (.laneChange h) := event_trip rfl
theorem RoundTrip.arrayGrant (h : Nat) : RoundTrip.Statement (.arrayGrant h) := event_trip rfl
theorem RoundTrip.preemptionRequest (h : Nat) : RoundTrip.Statement (.preemptionRequest h) := event_trip rfl
theorem RoundTrip.preemptionTaken (h : Nat) : RoundTrip.Statement (.preemptionTaken h) := event_trip rfl
theorem RoundTrip.preemptionTimeout (h : Nat) : RoundTrip.Statement (.preemptionTimeout h) := event_trip rfl
theorem RoundTrip.stopMessage (set : List Nat) (g : Nat) : RoundTrip.Statement (.stopMessage set g) := event_trip rfl
theorem RoundTrip.wfeWake (h : Nat) : RoundTrip.Statement (.wfeWake h) := event_trip rfl
theorem RoundTrip.wfeTimeout (h : Nat) : RoundTrip.Statement (.wfeTimeout h) := event_trip rfl
theorem RoundTrip.waitingCregAccess (h : Nat) (op : CregOp) (d : Reg) (s : Reg) (c : BitVec 12) : RoundTrip.Statement (.waitingCregAccess h op d s c) := event_trip rfl
theorem RoundTrip.kwinAccess (h : Nat) (op : CregOp) (d : Reg) (s : Reg) : RoundTrip.Statement (.kwinAccess h op d s) := event_trip rfl
theorem RoundTrip.ptempWrite (h : Nat) (v : Word) : RoundTrip.Statement (.ptempWrite h v) := event_trip rfl
theorem RoundTrip.tinvWrite (v : Word) : RoundTrip.Statement (.tinvWrite v) := event_trip rfl
theorem RoundTrip.cnvalWrite (h : Nat) (v : Word) : RoundTrip.Statement (.cnvalWrite h v) := event_trip rfl
theorem RoundTrip.lcfgWrite (core : Nat) (j : Nat) (v : Word) : RoundTrip.Statement (.lcfgWrite core j v) := event_trip rfl
theorem RoundTrip.residencyWrite (cluster : Nat) (c : BitVec 12) (v : Word) : RoundTrip.Statement (.residencyWrite cluster c v) := event_trip rfl
theorem RoundTrip.tallowWrite (h : Nat) (v : Word) : RoundTrip.Statement (.tallowWrite h v) := event_trip rfl
theorem RoundTrip.ctbaseWrite (v : Word) : RoundTrip.Statement (.ctbaseWrite v) := event_trip rfl
theorem RoundTrip.streamEnable (n : Nat) (v : Word) : RoundTrip.Statement (.streamEnable n v) := event_trip rfl
theorem RoundTrip.streamDisable (n : Nat) (v : Word) : RoundTrip.Statement (.streamDisable n v) := event_trip rfl
theorem RoundTrip.jcfgOff (v : Word) : RoundTrip.Statement (.jcfgOff v) := event_trip rfl
theorem RoundTrip.jcfgEnable (v : Word) : RoundTrip.Statement (.jcfgEnable v) := event_trip rfl
theorem RoundTrip.jcfgMove (v : Word) : RoundTrip.Statement (.jcfgMove v) := event_trip rfl
theorem RoundTrip.mgmtWindowWrite (r : MgmtReg) (v : Word) : RoundTrip.Statement (.mgmtWindowWrite r v) := event_trip rfl
theorem RoundTrip.energyTick (core : Nat) : RoundTrip.Statement (.energyTick core) := event_trip rfl
theorem RoundTrip.launchListRead (d : Nat) : RoundTrip.Statement (.launchListRead d) := event_trip rfl
theorem RoundTrip.gangDispatch (d : Nat) (slots : List Nat) : RoundTrip.Statement (.gangDispatch d slots) := event_trip rfl
theorem RoundTrip.waveHartStart (d : Nat) (slot : Nat) : RoundTrip.Statement (.waveHartStart d slot) := event_trip rfl
theorem RoundTrip.gangCompletion (g : Nat) : RoundTrip.Statement (.gangCompletion g) := event_trip rfl
theorem RoundTrip.gbarPass (g : Nat) : RoundTrip.Statement (.gbarPass g) := event_trip rfl
theorem RoundTrip.abarWaitEnd (h : Nat) : RoundTrip.Statement (.abarWaitEnd h) := event_trip rfl
theorem RoundTrip.gwaitEnd (h : Nat) : RoundTrip.Statement (.gwaitEnd h) := event_trip rfl
theorem RoundTrip.copyRequestStart (k : Nat) : RoundTrip.Statement (.copyRequestStart k) := event_trip rfl
theorem RoundTrip.copyUnitLand (k : Nat) (error : Bool) : RoundTrip.Statement (.copyUnitLand k error) := event_trip rfl
theorem RoundTrip.interlockWaitEnd (h : Nat) : RoundTrip.Statement (.interlockWaitEnd h) := event_trip rfl
theorem RoundTrip.atomicRequestArrival (h : Nat) : RoundTrip.Statement (.atomicRequestArrival h) := event_trip rfl
theorem RoundTrip.atomicService (k : Nat) : RoundTrip.Statement (.atomicService k) := event_trip rfl
theorem RoundTrip.lineFill (core : Nat) (key : LineKey) (victim : Option LineKey) : RoundTrip.Statement (.lineFill core key victim) := event_trip rfl
theorem RoundTrip.dirtyDrain (k : Nat) (key : LineKey) (drop : Bool) : RoundTrip.Statement (.dirtyDrain k key drop) := event_trip rfl
theorem RoundTrip.dirtyAgeDrain (k : Nat) (key : LineKey) : RoundTrip.Statement (.dirtyAgeDrain k key) := event_trip rfl
theorem RoundTrip.remoteCopyExpiry (k : Nat) (key : LineKey) : RoundTrip.Statement (.remoteCopyExpiry k key) := event_trip rfl
theorem RoundTrip.homeDrainAccept (n : Nat) : RoundTrip.Statement (.homeDrainAccept n) := event_trip rfl
theorem RoundTrip.invalidation (k : Nat) (pa : Nat) : RoundTrip.Statement (.invalidation k pa) := event_trip rfl
theorem RoundTrip.drainRequest (core : Nat) : RoundTrip.Statement (.drainRequest core) := event_trip rfl
theorem RoundTrip.translationWalk (h : Nat) (va : Nat) (kind : AccKind) (badRead : Bool) : RoundTrip.Statement (.translationWalk h va kind badRead) := event_trip rfl
theorem RoundTrip.columnLineFetch (k : Nat) (key : LineKey) : RoundTrip.Statement (.columnLineFetch k key) := event_trip rfl
theorem RoundTrip.mscMissFill (stack : Nat) (line : Nat) (mask : Nat) (victim : Option Nat) : RoundTrip.Statement (.mscMissFill stack line mask victim) := event_trip rfl
theorem RoundTrip.dramUncorrectableError (pa : Nat) (f : FaultCase) : RoundTrip.Statement (.dramUncorrectableError pa f) := event_trip rfl
theorem RoundTrip.remapSegmentError (stack : Nat) (seg : Nat) : RoundTrip.Statement (.remapSegmentError stack seg) := event_trip rfl
theorem RoundTrip.cxlPoisonRead (port : Nat) (pa : Nat) (f : FaultCase) : RoundTrip.Statement (.cxlPoisonRead port pa f) := event_trip rfl
theorem RoundTrip.flitCrcError (l : Link) (f : FaultCase) : RoundTrip.Statement (.flitCrcError l f) := event_trip rfl
theorem RoundTrip.hotPageEpoch (d : Nat) : RoundTrip.Statement (.hotPageEpoch d) := event_trip rfl
theorem RoundTrip.pageMigration (d : Nat) (h : Nat) (va : Nat) : RoundTrip.Statement (.pageMigration d h va) := event_trip rfl
theorem RoundTrip.migrationAbandon (d : Nat) (page : Nat) : RoundTrip.Statement (.migrationAbandon d page) := event_trip rfl
theorem RoundTrip.hostRead (port : Nat) (pa : Nat) (n : Nat) : RoundTrip.Statement (.hostRead port pa n) := event_trip rfl
theorem RoundTrip.hostWrite (port : Nat) (pa : Nat) (bytes : List Byte) : RoundTrip.Statement (.hostWrite port pa bytes) := event_trip rfl
theorem RoundTrip.hostWriteRelease (port : Nat) (pa : Nat) (bytes : List Byte) : RoundTrip.Statement (.hostWriteRelease port pa bytes) := event_trip rfl
theorem RoundTrip.hostReadAcquire (port : Nat) (pa : Nat) (n : Nat) : RoundTrip.Statement (.hostReadAcquire port pa n) := event_trip rfl
theorem RoundTrip.rdmaWrite (e : Nat) (qp : Nat) (va : Nat) (bytes : List Byte) : RoundTrip.Statement (.rdmaWrite e qp va bytes) := event_trip rfl
theorem RoundTrip.rdmaWriteWithImmediate (e : Nat) (qp : Nat) (va : Nat) (bytes : List Byte) (imm : BitVec 32) : RoundTrip.Statement (.rdmaWriteWithImmediate e qp va bytes imm) := event_trip rfl
theorem RoundTrip.haltRegisterRaise (ten : Nat) : RoundTrip.Statement (.haltRegisterRaise ten) := event_trip rfl
theorem RoundTrip.engineHaltStop (engine : Nat) (ten : Nat) : RoundTrip.Statement (.engineHaltStop engine ten) := event_trip rfl
theorem RoundTrip.haltRegisterLower (ten : Nat) : RoundTrip.Statement (.haltRegisterLower ten) := event_trip rfl
theorem RoundTrip.thermalTrip (d : Nat) : RoundTrip.Statement (.thermalTrip d) := event_trip rfl
theorem RoundTrip.powerLimit (d : Nat) (on : Bool) : RoundTrip.Statement (.powerLimit d on) := event_trip rfl
theorem RoundTrip.moduleReset (imagesOk : List Bool) : RoundTrip.Statement (.moduleReset imagesOk) := event_trip rfl
theorem RoundTrip.supervisorStart (entry : Word) (lists : List Nat) (image : Nat) : RoundTrip.Statement (.supervisorStart entry lists image) := event_trip rfl
theorem RoundTrip.attestationQuote (nonce : Nat) : RoundTrip.Statement (.attestationQuote nonce) := event_trip rfl
theorem RoundTrip.recordAccept (d : Nat) : RoundTrip.Statement (.recordAccept d) := event_trip rfl
theorem RoundTrip.reelStallEnd (h : Nat) : RoundTrip.Statement (.reelStallEnd h) := event_trip rfl
theorem RoundTrip.counterSweep (d : Nat) : RoundTrip.Statement (.counterSweep d) := event_trip rfl
theorem RoundTrip.timebaseLock (base : Nat) : RoundTrip.Statement (.timebaseLock base) := event_trip rfl
theorem RoundTrip.grandmasterLoss (e : Nat) : RoundTrip.Statement (.grandmasterLoss e) := event_trip rfl
theorem RoundTrip.timePortSelect (e : Nat) : RoundTrip.Statement (.timePortSelect e) := event_trip rfl
theorem RoundTrip.journalAck (c : Nat) (byNew : Bool) : RoundTrip.Statement (.journalAck c byNew) := event_trip rfl
theorem RoundTrip.jsyncEnd (h : Nat) : RoundTrip.Statement (.jsyncEnd h) := event_trip rfl
theorem RoundTrip.emissionRecordWrite (c : Nat) : RoundTrip.Statement (.emissionRecordWrite c) := event_trip rfl
theorem RoundTrip.partnerLost (c : Nat) : RoundTrip.Statement (.partnerLost c) := event_trip rfl
theorem RoundTrip.newPartnerUnreachable (c : Nat) : RoundTrip.Statement (.newPartnerUnreachable c) := event_trip rfl
theorem RoundTrip.ieee1588EventMessage (e : Nat) (ingress : Bool) (offset : Int) : RoundTrip.Statement (.ieee1588EventMessage e ingress offset) := event_trip rfl
theorem RoundTrip.ethernetFrameError (e : Nat) (f : FaultCase) : RoundTrip.Statement (.ethernetFrameError e f) := event_trip rfl

end Sys2Proof.Laws
end

