-- ==== Sys2Proof/Tests/Slice0.lean ====
section
/-!
SUPPORT. The tests of this row: words decoded and terms refused, one step of each kind of instruction against a value
worked out from the rule named, and for every statement with hypotheses states and operands that meet them.
-/
set_option Elab.async false
namespace Sys2Proof.Tests
open Machine Claims

-- States -------------------------------------------------------------------------------------------------------------

/-- A hart at supervisor level in an untranslated space, with a handler, a record area and four lanes. -/
def hart0 : Hart :=
  { pc := 0x4000, started := true, sup := true, tvec := 0x8000, tinfo := 0x9000, lanes := 4, vlen := 2,
    x := [(1, 0x1000), (2, 5), (3, 0x2000), (4, 3)] }
/-- Hart 0 alone on an empty machine. -/
def base : State := { harts := [(0, hart0)] }
def with0 (f : Hart → Hart) : State := { harts := [(0, f hart0)] }
/-- The same in a space whose one table, at 0x10000, names itself on the way down and maps 0x10000 to the page at
0x30000, readable, writable, executable, open to users and with attribute O. -/
def paged : State :=
  { harts := [(0, { hart0 with tbase := 0x10001, x := [(1, 0x10000), (2, 0x10000), (3, 5)] })],
    mem := [(0x10000, 0x01), (0x10002, 0x01), (0x10008, 0x7F), (0x1000A, 0x03)] }
theorem no_stream (s : State) (h : s.streams = []) (n : Nat) : (s.stream n).en = false := by
  simp only [State.stream, h, Tab.get, Tab.find]; decide
def at_ (pa : Nat) : Trans := ⟨pa, 0x1F, 4⟩

-- Witnesses: scalars, loads and stores ---------------------------------------------------------------------------------

/-- A machine whose every table is empty but its harts'. -/
theorem uncached_of (s : State) (h1 : s.drains = []) (h2 : s.clusters = []) (h3 : s.cores = []) : Uncached s := by
  have hc : ∀ k, s.cluster k = {} := fun k => by simp [State.cluster, Tab.get, Tab.find, h2]
  refine ⟨⟨h1, fun k => ⟨?_, ?_, ?_, ?_⟩⟩, fun k => ?_⟩ <;> simp [hc, State.dcacheKeys, State.core, Tab.get, Tab.find, h3]
theorem uncached_base : Uncached base := uncached_of _ rfl rfl rfl
/-- A fill of a cluster without lines has a way. -/
theorem hasWay_of (s : State) (key : LineKey) (h : (s.cluster (clusterOf s.cur)).lines = []) : HasWay s key := by
  refine .inr fun cls => ?_
  simp only [Cluster.placeFor, h, List.filter_nil, List.all_nil]
  split
  · rfl
  · simp [oldestLine]
theorem inclusive_of (s : State) (h : s.dcacheKeys (clusterOf s.cur) = []) : Inclusive s := fun key hk => by simp [h] at hk
/-- A cluster without lines holds no clean copies. -/
theorem current_of (s : State) (pas : List Nat) (h1 : (s.cluster (clusterOf s.cur)).lines = [])
    (h2 : (s.cluster (clusterOf s.cur)).atomLines = []) (h3 : s.dcacheKeys (clusterOf s.cur) = []) : Current s pas :=
  fun a _ _ _ j _ hr => by simp [State.resident, h1, h2, h3] at hr
/-- On a machine without marks and failures, no byte of stack 0 carries poison for hart 0. -/
theorem unmarked (s : State) (h1 : s.cur = 0) (h2 : s.baseDies = []) (h3 : s.poison = []) (h4 : s.clusters = []) (b : Nat)
    (hb : b < 64000000000) : Unmarked s b := by
  have e : servedBy b = .stack 0 := by
    have a : b % 0x1000000000 = b := Nat.mod_eq_of_lt (by omega)
    have c : b / 0x1000000000 = 0 := Nat.div_eq_of_lt (by omega)
    simp [servedBy, a, c, hb]; omega
  simp [Unmarked, State.homePoison, State.dead, State.cut, homeDie, e, h1, h3, dieOf, State.stack, State.cluster, Tab.get, h2, h4,
    Tab.find]
/-- Nor is a byte there out of reach. -/
theorem reachable (s : State) (h1 : s.cur = 0) (h2 : s.baseDies = []) (b : Nat) (hb : b < 64000000000) :
    s.dead b = false ∧ s.cut (dieOf s.cur) b = false := by
  have e : servedBy b = .stack 0 := by
    have a : b % 0x1000000000 = b := Nat.mod_eq_of_lt (by omega)
    have c : b / 0x1000000000 = 0 := Nat.div_eq_of_lt (by omega)
    simp [servedBy, a, c, hb]; omega
  simp [State.dead, State.cut, homeDie, e, h1, dieOf, State.stack, Tab.get, h2, Tab.find]
theorem noCapture_base : NoCapture base := fun j => by
  have h : base.myCore.lcfg = [] := rfl
  simp [h, Tab.get, Tab.find]
theorem finds_base : ∀ n ∈ [1, 2, 4, 8, 32, 64], LoadFinds base 0x1000 n .row (at_ 0x1000) 0 := by
  intro n hn
  refine ⟨⟨base, ?_⟩, ?_, ?_, ?_, ?_, ?_, ?_, ?_, hasWay_of _ _ rfl, inclusive_of _ rfl, current_of _ _ rfl rfl rfl, ?_⟩ <;> (try simp only [Unmarked]) <;> revert n <;> decide +kernel
theorem stores_base : ∀ n ∈ [1, 2, 4, 8], StoreFinds base 0x1000 n .row (at_ 0x1000) ∧ Writable base 0x1000 n := by
  intro n hn
  refine ⟨⟨⟨base, ?_⟩, ?_, ?_, ?_, ?_, ?_⟩, ?_, ?_, inclusive_of _ rfl⟩ <;> revert n <;> decide +kernel

theorem witness_Jumps_aligned : (BitVec.ofInt 64 ((base.readX 1).toInt + (4#15).toInt)).toNat % 4 = 0 := by decide
theorem witness_Jumps_misaligned :
    (BitVec.ofInt 64 ((base.readX 1).toInt + (2#15).toInt)).toNat % 4 ≠ 0 ∧ base.copying base.cur = false := by decide +kernel
theorem witness_ScalarLoads : NoCapture base ∧ ∀ n ∈ [1, 2, 4, 8],
    LoadFinds base (base.readX 1 + (0#12).signExtend 64) n .row (at_ 0x1000) 0 :=
  ⟨noCapture_base, fun n h => finds_base n (by revert n; decide)⟩
/-- The column form, on a page with attribute O. -/
theorem witness_ScalarLoads_col : NoCapture paged ∧ ∀ n ∈ [1, 2, 4],
    LoadFinds paged (paged.readX 1 + (0#12).signExtend 64) n .col ⟨0x30000, 0x3007F, 4⟩ 0 := by
  refine ⟨fun j => ?_, fun n hn => ⟨⟨(paged.check 0 0x10000 1 .row .load 0 true).2, ?_⟩, ?_, ?_, ?_, ?_, ?_, ?_, ?_,
    hasWay_of _ _ rfl, inclusive_of _ rfl, current_of _ _ rfl rfl rfl, ?_⟩⟩
  · have h : paged.myCore.lcfg = [] := rfl
    simp [h, Tab.get, Tab.find]
  all_goals (try simp only [Unmarked]) <;> revert n <;> decide +kernel
theorem witness_ScalarStores : ∀ n ∈ [1, 2, 4, 8],
    StoreFinds base (base.readX 1 + (0#12).signExtend 64) n .row (at_ 0x1000) ∧ Writable base (at_ 0x1000).pa n :=
  stores_base
theorem alone_of (s : State) (h2 : s.clusters = []) (h3 : s.cores = []) : Alone s := fun k _ => by
  have hc : s.cluster k = {} := by simp [State.cluster, Tab.get, Tab.find, h2]
  refine ⟨?_, ?_, ?_⟩ <;> simp [hc, State.dcacheKeys, State.core, Tab.get, Tab.find, h3]
/-- Without a hint, and with one. -/
theorem witness_StoreFrame : Alone base ∧ cacheable (at_ 0x1000).pa = true ∧ leafH (at_ 0x1000).leaf = false ∧
    ∀ h : Hint, ∀ x ∈ storesOf 3 1 0 h .row, StoreFinds base (base.readX 1 + (0#12).signExtend 64) x.1 .row (at_ 0x1000) ∧
      HasWay base (lineFor .row x.1 0x1000) ∧ Current base (lineFor .row x.1 0x1000).bytes ∧ Writable base (at_ 0x1000).pa x.1 := by
  refine ⟨alone_of _ rfl rfl, by decide, by decide, fun h x hx => ?_⟩
  have hn : x.1 ∈ [1, 2, 4, 8] := by
    simp only [storesOf, if_pos, List.cons_append, List.nil_append, List.mem_cons, List.not_mem_nil, or_false] at hx
    rcases hx with rfl | rfl | rfl | rfl <;> simp
  exact ⟨(stores_base x.1 hn).1, hasWay_of _ _ rfl, current_of _ _ rfl rfl rfl, (stores_base x.1 hn).2⟩
/-- A place that caches do not serve: the scratchpad of the cluster. -/
def scratch : State := with0 fun h => { h with x := [(1, 0xFF00000000000)] }
theorem witness_StoreFrame_scratch : Alone scratch ∧ cacheable 0xFF00000000000 = false ∧ NoneInPanel scratch 0xFF00000000000 ∧
    StoreFinds scratch (scratch.readX 1 + (0#12).signExtend 64) 8 .row (at_ 0xFF00000000000) ∧
    Writable scratch 0xFF00000000000 8 := by
  refine ⟨alone_of _ rfl rfl, by decide, fun l hl => ?_, ⟨⟨scratch, ?_⟩, ?_, ?_, ?_, ?_, ?_⟩, ?_, ?_, inclusive_of _ rfl⟩
  · have e : (scratch.cluster (clusterOf scratch.cur)).lines ++ (scratch.cluster (clusterOf scratch.cur)).atomLines = [] := rfl
    simp [e] at hl
  all_goals decide +kernel
/-- A table of no entries, its index at the bound. -/
theorem witness_TableJump_default : LoadFinds base (base.readX 1) 4 .row (at_ 0x1000) 0 ∧ 0 ≤ (base.readX 0).toNat :=
  ⟨finds_base 4 (by decide), by decide⟩
def table (e : Byte) : State := { base with mem := [(0x1000, 1), (0x1004, e)] }
/-- A table of one entry, its index one below the bound, its target aligned or not; the entry lies in the bound's line. -/
theorem witness_TableJump_taken : ∀ e ∈ [4, 2], LoadFinds (table (BitVec.ofNat 8 e)) 0x1000 4 .row (at_ 0x1000) 1 ∧
    ((table (BitVec.ofNat 8 e)).readX 0).toNat < 1 ∧ tbaseEn (table (BitVec.ofNat 8 e)).me.tbase = false ∧
    LoadFinds (table (BitVec.ofNat 8 e)) 0x1004 4 .row (at_ 0x1004) e ∧ (at_ 0x1000).pa / 64 = (at_ 0x1004).pa / 64 ∧
    (table (BitVec.ofNat 8 e)).copying 0 = false := by
  intro e he
  refine ⟨⟨⟨table (BitVec.ofNat 8 e), ?_⟩, ?_, ?_, ?_, ?_, ?_, ?_, ?_, hasWay_of _ _ rfl, inclusive_of _ rfl, current_of _ _ rfl rfl rfl, ?_⟩, ?_, ?_,
    ⟨⟨table (BitVec.ofNat 8 e), ?_⟩, ?_, ?_, ?_, ?_, ?_, ?_, ?_, hasWay_of _ _ rfl, inclusive_of _ rfl, current_of _ _ rfl rfl rfl, ?_⟩, by decide, ?_⟩ <;>
    (try simp only [Unmarked]) <;> revert e <;> decide +kernel
theorem witness_TableJump_aligned : ((0x1000#64) + (BitVec.ofNat 32 4).signExtend 64).toNat % 4 = 0 ∧
    ((0x1000#64) + (BitVec.ofNat 32 2).signExtend 64).toNat % 4 ≠ 0 := by decide

-- Witnesses: order, atomics, control registers ---------------------------------------------------------------------------

theorem witness_AcquireAndRelease : Uncached base ∧ NoCapture base ∧ ∀ z : AccSize,
    LoadFinds base (base.readX 1 + (0#10).signExtend 64) (sizeBytes z) .row (at_ 0x1000) 0 ∧
    StoreFinds base (base.readX 1 + (0#10).signExtend 64) (sizeBytes z) .row (at_ 0x1000) ∧
    Writable base (at_ 0x1000).pa (sizeBytes z) ∧ base.releaseBusy base.cur = none := by
  refine ⟨uncached_base, noCapture_base, fun z => ?_⟩
  have h : sizeBytes z ∈ [1, 2, 4, 8] := by cases z <;> decide
  exact ⟨finds_base _ (by revert h; generalize sizeBytes z = n; simp; omega), (stores_base _ h).1, (stores_base _ h).2, rfl⟩
/-- A hart with a copy in the interlock table, and one that holds an emission record. -/
def locked : State := { base with cores := [(0, { interlocks := [⟨0, 1, .span 0x1000 0x10FF, .empty⟩] })] }
def emitting : State := { base with journals := [(0, { held := [⟨0, 0, 0, 0x1000, 0x1000⟩] })] }
theorem witness_FenceWords : locked.releaseBusy locked.cur = some .interlock ∧
    emitting.releaseBusy emitting.cur = some .emitted ∧ base.releaseBusy base.cur = none := by decide +kernel
theorem witness_RangeWords_empty : base.readX 0 = 0 := by decide
def page : Piece := ⟨0x10000, 0x30000, 65536, 0x3007F, 4, some 0x10008⟩
theorem witness_RangeWords : paged.readX 2 ≠ 0 ∧ (paged.readX 1).toNat + (paged.readX 2).toNat ≤ 2 ^ 64 ∧
    paged.releaseBusy paged.cur = none ∧ paged.pieces 0 .valid 0x10000 0x10000 3 = .ok [page] := by decide +kernel
/-- One whole page, its entry within reach: ordinary, and commutative in mode 1 for the words that end or change a mode. -/
theorem witness_RangeWords_page : (paged.readX 1).toNat % 65536 = 0 ∧ (paged.readX 2).toNat % 65536 = 0 ∧ Bare paged ∧
    WholePages paged [page] ∧ paged.storesInFlight (allReplicas [page]) = false ∧
    paged.pieces 0 .write 0x10000 0x10000 3 = .ok [page] ∧ paged.pieces 0 .unsealed 0x10000 0x10000 3 = .ok [page] := by
  refine ⟨by decide, by decide, (uncached_of _ rfl rfl rfl).1, ⟨fun p hp => ?_, List.pairwise_singleton _ _⟩, ?_⟩
  · rw [List.mem_singleton.mp hp]
    exact ⟨by decide, by decide, 0x10008, rfl, by decide +kernel⟩
  · decide +kernel
def modal : State := { paged with mem := [(0x10000, 0x01), (0x10002, 0x01), (0x10008, 0x7F), (0x10009, 0x01), (0x1000A, 0x03)] }
theorem witness_RangeWords_mode : Bare modal ∧ WholePages modal [{ page with leaf := 0x3017F }] ∧
    modal.storesInFlight (allReplicas [{ page with leaf := 0x3017F }]) = false ∧ leafC 0x3017F = 1 ∧ page.len = 2 ^ levelShift page.level ∧
    inPieces [{ page with leaf := 0x3017F }] 0x30000 = true ∧
    modal.pieces 0 .write 0x10000 0x10000 3 = .ok [{ page with leaf := 0x3017F }] ∧
    modal.pieces 0 .unsealed 0x10000 0x10000 3 = .ok [{ page with leaf := 0x3017F }] := by
  refine ⟨(uncached_of _ rfl rfl rfl).1, ⟨fun p hp => ?_, List.pairwise_singleton _ _⟩, ?_⟩
  · rw [List.mem_singleton.mp hp]
    exact ⟨by decide, by decide, 0x10008, rfl, by decide +kernel⟩
  · decide +kernel
theorem witness_AtomicWords : NoCapture base ∧ ∀ (ty : AmoTy) (c : Scope),
    AtomicFinds base (base.readX 1) (amoBytes ty) c (at_ 0x1000) 0 := by
  refine ⟨noCapture_base, fun ty c => ⟨rfl, ?_, ⟨base, ?_⟩, ?_, ?_, ?_, ?_, ?_, uncached_base, ⟨rfl, ?_, inclusive_of _ rfl⟩, ?_, ?_, ?_⟩⟩
  any_goals (cases ty <;> cases c <;> decide +kernel)
  intro b hb
  obtain ⟨j, h, rfl⟩ : ∃ j, j < 64 ∧ b = 4096 + j := ⟨b - 4096, by simp [at_] at hb; omega⟩
  exact (by decide +kernel : ∀ j, j < 64 → base.homePoison (dieOf base.cur) (4096 + j) = false) j h
theorem witness_AtomicWords_types : AmoTy.isInt .s32 = true ∧ AmoTy.isInt .bf16 = false := by decide

def user : State := with0 fun h => { h with sup := false }
theorem witness_ControlRegisterReads : (0x031, 0x8000) ∈ hartRegs base ∧ base.me.sup = true ∧ (0x036, 0) ∈ hartRegs base ∧
    (0x000, 2) ∈ hartRegs user ∧ readLevel 0x000 = false ∧ (0x030, user.me.hstat) ∈ hartRegs user ∧ readLevel 0x030 = false ∧
    (0x031, 0x8000) ∈ hartRegs user ∧ user.me.sup = false ∧ readLevel 0x031 = true ∧ user.copying user.cur = false := by
  decide +kernel
theorem witness_ControlRegisterWrites : ((0x031, 0xFFFFFFFFFFFFFFFC) ∈ hartMasks ∧ (0x031, 0x8000) ∈ hartRegs base ∧
      base.me.sup = true) ∧
    ((0x00B, 0xFFFFFFFFFFFFFFFF) ∈ hartMasks ∧ (0x00B, 0) ∈ hartRegs user ∧ writeLevel 0x00B = false) ∧
    ((0x014, 0xFFF) ∈ hartMasks ∧ (0x014, 0) ∈ hartRegs user ∧ user.me.sup = false ∧ writeLevel 0x014 = true ∧
      user.copying user.cur = false) := by decide +kernel

-- Witnesses: copies, barriers, gangs, traps -------------------------------------------------------------------------------

theorem witness_CopyWord_empty : (base.readX 0).toNat % 2 ^ 32 = 0 := by decide
theorem witness_CopyWord : (base.readX 2).toNat % 2 ^ 32 = 5 ∧
    base.copySegs base.cur .row .store (base.readX 3) 5 2 = (.ok [⟨0x2000, 5, 0⟩], base) ∧
    base.copySegs base.cur .row .load (base.readX 1) 5 2 = (.ok [⟨0x1000, 5, 0⟩], base) ∧
    base.watchHits base.cur (base.readX 3) 5 false true = 0 ∧ base.watchHits base.cur (base.readX 1) 5 true false = 0 ∧
    base.myCore.interlocks.length < 32 ∧ base.conflicts base.cur (spanOf (base.readX 1) 5) (spanOf (base.readX 3) 5) = [] ∧
    base.emissionMeets base.cur 0x2000 5 = false ∧ base.emissionMeets base.cur 0x1000 5 = false ∧
    (base.cluster (clusterOf base.cur)).copies.length < 64 := by
  refine ⟨by decide, rfl, rfl, ?_⟩
  decide +kernel
/-- Column sides of whole panels, at the least length. -/
def panels : State := { paged with harts := [(0, { hart0 with tbase := 0x10001, x := [(1, 0x10000), (2, 0x1000), (3, 0x11000)] })] }
theorem witness_CopyWord_col : (panels.readX 3).toNat % 4096 = 0 ∧ (panels.readX 1).toNat % 4096 = 0 ∧
    (panels.readX 2).toNat % 2 ^ 32 % 4096 = 0 ∧
    (∃ s1 s2, panels.copySegs 0 .col .store (panels.readX 3) 4096 2 = (.ok [⟨0x31000, 4096, 0⟩], s1) ∧
      s1.copySegs 0 .col .load (panels.readX 1) 4096 2 = (.ok [⟨0x30000, 4096, 0⟩], s2)) := by
  refine ⟨by decide, by decide, by decide,
    (panels.copySegs 0 .col .store (panels.readX 3) 4096 2).2,
    ((panels.copySegs 0 .col .store (panels.readX 3) 4096 2).2.copySegs 0 .col .load (panels.readX 1) 4096 2).2, ?_, ?_⟩ <;>
  decide +kernel

/-- A barrier word in the scratchpad of cluster 0. -/
def bar (w : Nat) (v : Word) : State :=
  { with0 (fun h => { h with x := [(1, 0xFF00000000000), (2, v)] }) with mem := Memory.writeN [] 0xFF00000000000 (bytesLE 8 w) }
theorem witness_BarrierWords : ∀ x ∈ [(barrierWord true false 2047 0 (-549755813888), 0), (barrierWord false true 0 2047 549755813887, 1)],
    Uncached (bar x.1 x.2) ∧ BarrierAt (bar x.1 x.2) ((bar x.1 x.2).readX 1) (at_ 0xFF00000000000) ∧
    (bar x.1 x.2).readHome 0xFF00000000000 8 = x.1 ∧ (bar x.1 x.2).arriveBusy 0 0xFF00000000000 = none ∧ (bar x.1 x.2).me.stall = none := by
  intro x hx
  refine ⟨uncached_of _ rfl rfl rfl, ⟨⟨bar x.1 x.2, ?_⟩, ?_, ?_, ?_, ?_, ?_⟩, ?_, ?_, ?_⟩ <;> revert x <;> decide +kernel
/-- The byte count at its bounds, and an expectation that reaches one; no arrival pending, and some; the phase asked for,
and the other. -/
theorem witness_BarrierWords_bounds : (-(2 ^ 39) : Int) ≤ -549755813888 ∧ (549755813887 : Int) < 2 ^ 39 ∧
    (-549755813888 : Int) + ((bar 0 0).readX 2).toInt < 2 ^ 39 ∧ true ≠ ((bar 0 0).readX 2).getLsbD 0 ∧
    true = ((bar 0 1).readX 2).getLsbD 0 := by decide +kernel

/-- A co-resident gang of n harts, of which hart 0 runs. -/
def gang (n : Word) : Gang :=
  { id := 0, die := 0, order := 0, blk := ⟨0x4000, 0, 0x1000000000 + n, 0, 0, 0, 0, 0⟩, ent := {}, harts := [0] }
def ganged (n : Word) (f : Hart → Hart) : State :=
  { with0 (fun h => f { h with gang := some 0 }) with gangs := [gang n] }
theorem witness_GangBarrier_wave : base.coResident = false ∧ base.copying base.cur = false := by decide +kernel
theorem witness_GangBarrier_passed :
    let s := ganged 1 fun h => { h with pass := true, wait := .gbar }
    s.coResident = true ∧ s.me.gang = some (gang 1).id ∧ s.gangOf (gang 1).id = some (gang 1) ∧ s.reelRoom s.cur 0x0203 = true ∧
      s.me.stall = none ∧ s.me.pass = true := by decide +kernel
/-- The first of two arrivals, and the last of one. -/
theorem witness_GangBarrier_arrival : ∀ k ∈ ([2, 1] : List Nat),
    let n := BitVec.ofNat 64 k
    let s := ganged n fun h => h
    s.coResident = true ∧ s.me.gang = some (gang n).id ∧ s.gangOf (gang n).id = some (gang n) ∧ s.reelRoom s.cur 0x0203 = true ∧
      s.me.stall = none ∧ s.me.pass = false ∧ s.me.arr = false ∧ s.releaseBusy s.cur = none ∧ s.cur ∈ (gang n).harts ∧
      ((gang n).count + 1 + (gang n).haltedHarts.length = blockSize (gang n).blk ↔ k = 1) := by decide +kernel
theorem witness_LaunchAndWait : Uncached base ∧ base.releaseBusy base.cur = none ∧
    LoadFinds base (base.readX 1) 64 .row (at_ 0x1000) 0 ∧ LoadFinds base (base.readX 1) 8 .row (at_ 0x1000) 0 ∧
    (base.readX 0).toNat ≤ 0 ∧ 0 < (base.readX 2).toNat ∧ base.me.stall = none :=
  ⟨uncached_base, rfl, finds_base 64 (by decide), finds_base 8 (by decide), by decide, by decide, rfl⟩
/-- A work list of cluster 0 that holds l. -/
def worked (l : List (Nat × Word)) : State := { base with clusters := [(0, { lists := [(0, l)] })] }
theorem witness_WorkWords : ∀ l : List (Nat × Word), (worked l).releaseBusy 0 = none ∧
    listOf (0 : Word) = some (0, 0) ∧ (worked l).readX 0 = 0 ∧ (worked l).quietGang = false ∧ (worked l).workList 0 0 = l ∧
    (worked l).copying 0 = false ∧ gangKey (worked l).me = 0 :=
  fun _ => ⟨rfl, by decide, rfl, rfl, rfl, rfl, rfl⟩
/-- A list with room for one item more, a full one, one with an item of another gang before an own one, an empty one. -/
theorem witness_WorkWords_lists : (List.replicate 4095 ((1, 0) : Nat × Word)).length < 4096 ∧
    4096 ≤ (List.replicate 4096 ((1, 0) : Nat × Word)).length ∧
    ([(1, 7), (0, 9)] : List (Nat × Word)) = [(1, 7)] ++ (0, 9) :: [] ∧ (∀ x ∈ ([(1, 7)] : List (Nat × Word)), x.1 ≠ 0) := by
  exact ⟨by rw [List.length_replicate]; omega, by rw [List.length_replicate], rfl, by decide⟩
/-- A list operand beyond the lists, one whose number is 12, and a gang found quiescent. -/
theorem witness_WorkWords_traps : base.releaseBusy base.cur = none ∧ base.copying base.cur = false ∧ base.coResident = false ∧
    (base.readX 1).toNat / 2 ^ 10 ≠ 0 ∧ 12 ≤ (0xC0 : Nat) / 2 ^ 4 % 16 ∧
    let s : State := { ganged 1 id with gangs := [{ gang 1 with quiet := true }] }
    s.releaseBusy s.cur = none ∧ s.copying s.cur = false ∧ listOf (s.readX 0) = some (0, 0) ∧ s.quietGang = true := by
  decide +kernel
theorem witness_WorkWords_gang : (ganged 1 id).releaseBusy 0 = none ∧ (ganged 1 id).coResident = true ∧
    (ganged 1 id).myGang = some (gang 1) := by decide +kernel

theorem witness_TrapEntry : ((base.hart 0).tvec ≠ 0 ∧ (base.hart 0).tinfo ≠ 0) ∧
    (base.hart 0).holds = false ∧ (base.hart 0).stall = none ∧ (base.hart 0).marks = 0 ∧
    base.check 0 (base.hart 0).tinfo 8 .row .store 0 true = (.ok (at_ 0x9000), base) := by decide +kernel
/-- Where the record goes: an area that no cluster holds a copy of, and one in the cluster cache. -/
def recordCached : State := { base with clusters := [(0, { lines := [576, 577, 578, 579].map fun n => { key := .row n } })] }
theorem witness_TrapEntry_record : (∀ n, (base.stream n).en = false) ∧ Bare base ∧ (base.hart 0).tinfo.toNat % 256 = 0 ∧
    (base.hart 0).buffer.length ≤ 16 ∧ ((base.hart 0).buffer.map (·.bytes)).sum < 2 ^ 32 ∧ Writable { base with cur := 0 } 0x9000 256 ∧
    ∀ j, j < 256 → (recordCached.cluster 0).lines.any (fun l => l.key == .row ((0x9000 + j) / 64)) = true := by
  refine ⟨no_stream base rfl, (uncached_of _ rfl rfl rfl).1, by decide, by decide, by decide,
    ⟨rfl, fun i h => ⟨(reachable base rfl rfl _ (by omega)).1, (reachable base rfl rfl _ (by omega)).2, .inl ?_⟩, inclusive_of _ rfl⟩, ?_⟩
  · revert i; decide +kernel
  · decide +kernel
theorem witness_TrapWithoutHandler : (((with0 fun h => { h with tvec := 0 }).hart 0).tvec = 0 ∧
      (with0 fun h => { h with tvec := 0 }).haltUp 0 = false) ∧
    (∀ s ∈ [with0 fun h => { h with tvec := 0 }, with0 fun h => { h with tinfo := 0 }],
      (s.hart 0).holds = false ∧ (s.hart 0).stall = none ∧ (s.hart 0).marks = 0) ∧
    ((with0 fun h => { h with tinfo := 0 }).hart 0).tinfo = 0 ∧ (with0 fun h => { h with tinfo := 0 }).haltUp 0 = false := by
  decide +kernel
/-- A completion mask pending, its area without poison, with it, and of no page; and none pending. -/
def pending (ps : List Nat) (ti : Word) : State :=
  { with0 (fun h => { h with tcause := 1#64 <<< 61, tinfo := ti }) with poison := ps }
theorem witness_TrapAndReturn : (base.copying base.cur = false ∧ base.me.sup = true ∧ base.reelRoom base.cur 0x0101 = true ∧
    base.me.stall = none ∧ base.me.tcause.getLsbD 61 = false) ∧ user.me.sup = false ∧ user.copying user.cur = false ∧
    (∀ ps ∈ [[], [sectorOf 0x9080]], let s := pending ps 0x9000
      s.me.sup = true ∧ s.reelRoom s.cur 0x0101 = true ∧ s.me.stall = none ∧ s.me.tcause.getLsbD 61 = true ∧
        s.check s.cur s.me.tinfo 8 .row .load 0 true = (.ok (at_ 0x9000), s) ∧
        s.bytesAt (coreOf s.cur) 0x9080 128 = (bytesLE 128 0, !ps.isEmpty) ∧
        s.haltUp s.me.tenant.toNat = false ∧ s.conflicts s.cur (spanOf (s.me.tinfo + 0x80) 128) .empty = [] ∧
        servedBy (at_ 0x9000).pa ≠ .mgmt ∧ leafC (at_ 0x9000).leaf = 0 ∧ s.emissionMeets s.cur 0x9080 128 = false) ∧
    (let s := pending [] 0x9001
     s.me.sup = true ∧ s.me.tcause.getLsbD 61 = true ∧ (s.check s.cur s.me.tinfo 8 .row .load 0 true).1.isOk = false ∧
       s.conflicts s.cur (spanOf (s.me.tinfo + 0x80) 128) .empty = []) := by
  decide +kernel
theorem witness_TrapAndReturn_fill (ps : List Nat) (key : LineKey) (pas : List Nat) :
    Inclusive (pending ps 0x9000) ∧ HasWay (pending ps 0x9000) key ∧ Current (pending ps 0x9000) pas :=
  ⟨inclusive_of _ rfl, hasWay_of _ _ rfl, current_of _ _ rfl rfl rfl⟩
theorem witness_HaltAndWait : (base.reelRoom base.cur 0x0201 = true ∧ base.me.stall = none ∧ base.copying base.cur = false) ∧
    base.me.own = base.me.ctx ∧ (with0 fun h => { h with own := 1 }).me.own ≠ (with0 fun h => { h with own := 1 }).me.ctx ∧
    (with0 fun h => { h with latch := true }).me.latch = true ∧ base.me.latch = false ∧ base.me.stall = none := by decide +kernel
theorem witness_TakeOwnership : base.me.sup = true ∧ base.reelRoom base.cur 0x0102 = true ∧ base.me.stall = none := by
  decide +kernel
/-- The last area that stack 0 holds whole. -/
def last : State := with0 fun h => { h with x := [(1, 0xEE6328000)] }
theorem last_plain : last.me.sup = true ∧ tbaseEn last.me.tbase = false ∧ (last.readX 1).toNat % 4096 = 0 ∧
    (last.readX 1).toNat + 0x800000 ≤ 64000000000 ∧ last.me.lanes ≤ 32 ∧ (slotsOf last.me.buffer).length ≤ 131072 ∧
    (last.geyserOf last.cur).length ≤ 4096 := by decide +kernel
theorem witness_SaveVectorState : last.me.sup = true ∧ tbaseEn last.me.tbase = false ∧ (last.readX 1).toNat % 4096 = 0 ∧
    (last.readX 1).toNat + 0x800000 ≤ 64000000000 ∧ last.me.lanes ≤ 32 ∧ (slotsOf last.me.buffer).length ≤ 131072 ∧
    (last.geyserOf last.cur).length ≤ 4096 ∧ last.myCore.interlocks = [] ∧ last.journals = [] ∧ last.drains = [] ∧ Alone last ∧
    ∀ b, (last.readX 1).toNat ≤ b → b < (last.readX 1).toNat + 0x800000 → last.dead b = false ∧ last.cut (dieOf last.cur) b = false := by
  obtain ⟨h1, h2, h3, h4, h5, h6, h7⟩ := last_plain
  refine ⟨h1, h2, h3, h4, h5, h6, h7, rfl, rfl, rfl, alone_of _ rfl rfl, fun b _ h => reachable _ rfl rfl b ?_⟩
  have e : (last.readX 1).toNat = 0xEE6328000 := rfl
  omega

/-- A header of 4 lanes with one slot of one entry, in vector and in matrix mode; one of 36, beyond the most, and one whose length
does not fit its lanes. -/
def header (lanes len m : Byte) : State :=
  { base with mem := Memory.writeCells [] [(0x1002, lanes), (0x1003, m), (0x1008, len), (0x102A, 1), (0x102C, 1)] }
theorem witness_RestoreVectorState : ∀ x ∈ [((4 : Nat), (0 : Nat), (0 : Nat)), (4, 0, 1), (36, 0, 0), (0, 1, 0)],
    let s := header (BitVec.ofNat 8 x.1) (BitVec.ofNat 8 x.2.1) (BitVec.ofNat 8 x.2.2)
    s.me.sup = true ∧ tbaseEn s.me.tbase = false ∧ (s.readX 1).toNat % 4096 = 0 ∧ (s.readX 1).toNat + 0x800000 ≤ 64000000000 ∧
      s.myCore.interlocks = [] ∧ s.journals = [] ∧ s.me.stall = none ∧ s.me.rest = none ∧ s.reelRoom s.cur 0x0102 = true ∧
      s.copying s.cur = false ∧
      let bs := (s.bytesAt (coreOf s.cur) 0x1000 0x60).1
      savedBad bs = (if x.1 = 4 then none else if x.1 = 36 then some 0 else some 8) ∧
      (x.1 = 4 → (savedOf bs).m = (x.2.2 == 1) ∧ (savedOf bs).lanes = s.me.lanes ∧ (savedOf bs).slots = 1 ∧
        slotBad (savedOf bs).entries (areaBytes s (0x1000 + 0x116000) 32) = false ∧
        s.myCore.arrayHolder = none ∧ s.myCore.arrayWait = [] ∧
        (s.myCore.geyser.filter fun e => e.hart != s.cur % 4).length + (savedOf bs).queued ≤ 4096) := by decide +kernel
theorem witness_RestoreVectorState_marks : ∀ l n m, Bare (header l n m) ∧
    ∀ b, 0x1000 ≤ b → b < 0x1000 + 0x800000 → Unmarked (header l n m) b :=
  fun _ _ _ => ⟨(uncached_of _ rfl rfl rfl).1, fun b _ h => unmarked _ rfl rfl rfl rfl b (by omega)⟩

def holding (v : Word) : State := with0 fun h => { h with x := [(1, v)] }
theorem witness_ReelWords : ∀ v ∈ [(7 : Nat), 8], let s := holding (BitVec.ofNat 64 v)
    s.me.stall = none ∧ s.reelRoom s.cur (0x8000 + (s.readX 1).toNat % 2 ^ 12) = true ∧ s.me.tmask.getLsbD 0 = false ∧
      s.reelRoom s.cur 0x0602 = true ∧ s.copying s.cur = false ∧ ((s.readX 1).toNat ≤ 7 ↔ v = 7) := by decide +kernel
/-- One stream that takes every class, its ring at 0x2000 empty. -/
def streamed : State :=
  { with0 (fun h => { h with tmask := 1 }) with streams := [(0, { sbase := 0x2000, sctl := 0xA000000000010005 })] }
def markRec : Rec := ⟨streamed.tstamp 0, 0, 0x8000, false, 0, 0, 0, 0x4000⟩
/-- The stream takes the record at once, in the slot at 0x2040. -/
theorem markRec_goes : streamed.streamsFor markRec = [0] ∧ streamed.olderWaits 0 = false ∧ (streamed.stream 0).drops = 0 ∧
    (streamed.stream 0).house = [] ∧ streamed.ringUsed 0 < 2 ^ (streamed.stream 0).size ∧
    0x2040 = (streamed.stream 0).header + 0x40 + 32 * ((streamed.stream 0).written % 2 ^ (streamed.stream 0).size) := by
  decide +kernel
theorem witness_ReelWords_record : streamed.me.stall = none ∧ streamed.reelRoom streamed.cur 0x8000 = true ∧
    streamed.me.tmask.getLsbD 0 = true ∧ streamed.cur < 1536 ∧ Tab.get 0 streamed.seqs streamed.cur = 0 ∧
    OneStream streamed markRec 0 0x2040 := by
  obtain ⟨g1, g2, g3, g4, g5, g6⟩ := markRec_goes
  refine ⟨rfl, by decide +kernel, rfl, by decide, rfl, g1, g2, g3, g4, g5, g6, fun i h => ?_⟩
  have e := reachable streamed rfl rfl (0x2040 + i) (by omega)
  rwa [show homeDie 0x2040 = dieOf streamed.cur by decide]
def trialled : State := { ganged 1 id with gangs := [{ gang 1 with trial := some ⟨0x1000, 0x1000, 0, 0, 0⟩ }] }
theorem witness_ReelWords_trial : ((ganged 1 id).myGang.bind (·.trial)).isSome = false ∧
    (trialled.myGang.bind (·.trial)).isSome = true ∧ (trialled.readX 4).toNat ≤ 7 ∧ trialled.reelRoom trialled.cur 0x0602 = true := by
  decide +kernel
theorem witness_ReelWords_selectors : selectorValid 0x4 = true ∧ selectorValid 0x410 = true ∧ selectorValid 0x5 = false ∧
    lcapReadable base.me (Tab.get 0 base.myCore.lcfg 0) = true := by decide +kernel

/-- A gang with co = 0 that names a descriptor. -/
theorem witness_Trials_wave : let g : Gang := { gang 1 with blk := { (gang 1).blk with w2 := 1 } }
    let s : State := { ganged 1 id with gangs := [g] }
    s.me.stall = none ∧ s.me.gang = some g.id ∧ s.gangOf g.id = some g ∧ blockCo g.blk = false ∧ s.copying s.cur = false ∧
      s.reelRoom s.cur 0x0600 = true := by decide +kernel
theorem witness_Trials : (base.me.stall = none ∧ base.me.gang = none ∧ base.copying base.cur = false) ∧
    ((ganged 1 id).me.stall = none ∧ (ganged 1 id).me.gang = some (gang 1).id ∧
      (ganged 1 id).gangOf (gang 1).id = some (gang 1) ∧ blockCo (gang 1).blk = true ∧ (ganged 1 id).readX 1 ≠ 0 ∧
      (ganged 1 id).reelRoom 0 0x0600 = true ∧ (gang 1).trial = none ∧ Uncached (ganged 1 id) ∧
      (∃ s1, (ganged 1 id).check 0 ((ganged 1 id).readX 1) 128 .row .both 0 true = (.ok (at_ 0x1000), s1)) ∧
      servedBy 0x1000 ≠ .mgmt ∧ leafC (at_ 0).leaf = 0 ∧ (ganged 1 id).conflicts 0 (spanOf 0x1000 128) (spanOf 0x1000 128) = [] ∧
      (ganged 1 id).emissionMeets 0 0x1000 128 = false ∧ (ganged 1 id).bytesAt 0 0x1000 128 = (bytesLE 128 0, false) ∧
      (∀ b, 0x1000 / 64 ≤ b / 64 → b / 64 ≤ (0x1000 + 127) / 64 → (ganged 1 id).homePoison 0 b = false) ∧ descriptorBad 0 = false) ∧
    (trialled.me.stall = none ∧ trialled.me.gang = some 0 ∧
      (trialled.gangOf 0).map (fun g => (g.id, blockCo g.blk, g.trial.isSome)) = some (0, true, true) ∧ trialled.readX 0 = 0 ∧
      trialled.reelRoom trialled.cur 0x0601 = true) := by
  refine ⟨by decide +kernel, ⟨rfl, rfl, rfl, rfl, ?_, ?_, rfl, uncached_of _ rfl rfl rfl, ⟨ganged 1 id, ?_⟩, ?_, ?_, ?_, ?_, ?_,
    ?_, ?_⟩, ?_⟩
  rotate_left 8
  rotate_right
  all_goals try decide +kernel
  exact fun b _ h => (unmarked (ganged 1 id) rfl rfl rfl rfl b (by omega)).1

/-- Hart 0 with journal context 0 as given, and 15 in the entry at 0x1000. -/
def journalled (j : Journal) : State := { base with journals := [(0, j)], mem := [(0x1000, 15)] }
theorem witness_JournalContextCheck : ((base.journal base.me.jsel.toNat).en = false ∧ base.copying base.cur = false) ∧
    (journalled { en := true }).me.jsel.toNat = 0 ∧ ((journalled { en := true }).journal 0).state = 0 ∧
    ∀ x ∈ [((32 : Nat), AccKind.load), (16, .store), (32, .store)],
      base.check base.cur (base.readX 1) x.1 .row x.2 0 base.me.sup = (.ok (at_ 0x1000), base) := by decide +kernel
/-- A log with one free slot and the entry that is next, live and in a move; one whose next entry is another. -/
theorem witness_JournalPut : ∀ x ∈ [((15 : Nat), (1 : Nat)), (15, 3), (16, 1)],
    let n := x.1
    let j : Journal := { en := true, state := x.2, next := BitVec.ofNat 64 n }
    let s := journalled j
    OwnContext s j ∧ Uncached s ∧ s.me.stall = none ∧ s.reelRoom s.cur 0x0700 = true ∧
      LoadFinds s (s.readX 1) 32 .row (at_ 0x1000) 15 ∧ 15 / 2 ^ 226 % 2 ^ 13 = 0 ∧
      (∀ b, 0x1000 ≤ b → b < 0x1000 + 32 → s.homePoison (dieOf s.cur) b = false) ∧
      (15 % 2 ^ 64 = j.next.toNat ↔ n = 15) ∧ (n = 15 → j.next.toNat < j.trunc.toNat + 2 ^ j.size ∧ j.next ≠ BitVec.allOnes 64) ∧
      s.copying s.cur = false ∧ (∀ k, (s.stream k).en = false) ∧
      ∀ i, i < 32 → s.dead (j.slot j.next.toNat + i) = false ∧ s.cut (dieOf s.cur) (j.slot j.next.toNat + i) = false := by
  intro x hx n j s
  refine ⟨⟨rfl, rfl, ?_, rfl⟩, uncached_of _ rfl rfl rfl, ?_, ?_, ⟨⟨s, ?_⟩, ?_, ?_, ?_, ?_, ?_, ?_, ?_,
      hasWay_of _ _ rfl, inclusive_of _ rfl, current_of _ _ rfl rfl rfl, ?_⟩, by decide,
    fun b _ h => (unmarked s rfl rfl rfl rfl b (by omega)).1, ?_, ?_, ?_, no_stream s rfl, ?_⟩ <;>
    (try simp only [Unmarked]) <;> (try simp only [n, j, s]) <;> clear j s n <;> revert x <;> decide +kernel
theorem witness_JournalWaits : ∀ x ∈ [((1 : Nat), (1 : Nat)), (0, 1), (0, 0)],
    let j : Journal := { en := true, state := 1, ack := BitVec.ofNat 64 x.1, next := BitVec.ofNat 64 x.2 }
    let s := journalled j
    j = s.journal s.me.jsel.toNat ∧ j.en = true ∧ j.state ≠ 0 ∧ j.ten = s.me.tenant ∧ s.copying s.cur = false ∧
      s.me.stall = none ∧ s.reelRoom s.cur 0x0703 = true ∧ j.trunc.toNat ≤ (s.readX 0).toNat ∧ (s.readX 0).toNat ≤ j.ack.toNat ∧
      ((s.readX 0).toNat < j.ack.toNat ↔ x.1 = 1) ∧ ((s.readX 0).toNat < j.next.toNat ↔ x.2 = 1) := by decide +kernel
/-- Room for one emission record more, and none. -/
theorem witness_JournalWaits_emit : ∀ n ∈ [(15 : Nat), 16],
    let j : Journal := { en := true, state := 1, next := 1, held := List.replicate n ⟨0, 0, 0, 0x2000, 0x2000⟩ }
    let s := journalled j
    j = s.journal s.me.jsel.toNat ∧ j.ten = s.me.tenant ∧ j.next ≠ 0 ∧
      s.check s.cur (s.readX 1) 16 .row .store 0 s.me.sup = (.ok (at_ 0x1000), s) ∧
      s.myCore.interlocks.any (fun e => e.hart == s.cur) = false ∧ (j.held.length < 16 ↔ n = 15) := by decide +kernel
/-- One entry left, and none. -/
theorem witness_JournalReplay : ∀ n ∈ [(1 : Nat), 0],
    let j : Journal := { en := true, state := 2, stop := BitVec.ofNat 64 n }
    let s := journalled j
    OwnContext s j ∧ Uncached s ∧ s.me.stall = none ∧ s.reelRoom s.cur 0x0704 = true ∧
      (∃ s1, s.check s.cur (s.readX 1) 32 .row .store 0 s.me.sup = (.ok (at_ 0x1000), s1)) ∧
      servedBy (at_ 0x1000).pa ≠ .mgmt ∧ leafC (at_ 0x1000).leaf = 0 ∧ s.watchHits s.cur (s.readX 1) 32 false true = 0 ∧
      s.conflicts s.cur .empty (spanOf (s.readX 1) 32) = [] ∧
      s.emissionMeets s.cur 0x1000 32 = false ∧ j.state = 2 ∧ Writable s 0x1000 32 ∧ (j.rep.toNat < j.stop.toNat ↔ n = 1) ∧
      s.readHomePoison (dieOf s.cur) (j.slot j.rep.toNat) 32 = false := by
  intro n hn j s
  refine ⟨⟨rfl, rfl, ?_, rfl⟩, uncached_of _ rfl rfl rfl, ?_, ?_, ⟨s, ?_⟩, ?_, ?_, ?_, ?_, ?_, ?_,
      ⟨rfl, fun i h => ⟨(reachable s rfl rfl _ (by omega)).1, (reachable s rfl rfl _ (by omega)).2,
        .inl ((by decide : ∀ i, i < 32 → cacheable (0x1000 + i) = true) i h)⟩, inclusive_of _ rfl⟩, ?_, ?_⟩ <;>
    (try simp only [j, s]) <;> clear j s <;> revert n <;> decide +kernel

-- Witnesses: vectors -----------------------------------------------------------------------------------------------------

theorem vector_base : Vector base := ⟨rfl, rfl⟩
def buffered (b : List BufEntry) : State := with0 fun h => { h with buffer := b }
def elem0 : BufElem := { va := 0x1000, pa := 0x1000, size := 4, row := 0, val := 7 }
/-- A vsave of a Geyser entry, a buffered element and, in matrix mode, the array. -/
theorem witness_SaveVectorState_full : let x : Hart := { hart0 with buffer := [{ elems := [elem0] }], matrix := true }
    let s : State := { harts := [(0, x)], cores := [(0, { geyser := [⟨0, 0, 1, 2, 3, 4, 0, 0, 0, 0, []⟩] })] }
    s.me.buffer.length ≤ 16 ∧ (slotsOf s.me.buffer).length = 1 ∧ (s.geyserOf s.cur).length = 1 ∧ s.me.matrix = true := by decide +kernel
/-- A request of 0; buffered stores; a hart alone; one that changes its lanes, one that keeps them; all lanes taken. -/
theorem witness_SetLength_same : (Vector base ∧ (base.readX 0).toNat = 0) ∧
    Vector (buffered [{ elems := [elem0] }]) ∧ (buffered [{ elems := [elem0] }]).me.buffer ≠ [] :=
  ⟨⟨vector_base, rfl⟩, ⟨rfl, rfl⟩, by decide⟩
theorem witness_SetLength_boundary : ∀ x ∈ [((1000 : Nat), (16 : Nat)), (256, 4), (257, 8)],
    let s := holding (BitVec.ofNat 64 x.1)
    s.me.own = s.me.ctx ∧ s.me.matrix = false ∧ (s.readX 1).toNat ≠ 0 ∧ s.me.buffer = [] ∧
      s.boundaryLanes s.cur (s.readX 1).toNat (wcode .w32) 8 = some x.2 ∧ s.reelRoom s.cur 0x0103 = true ∧ s.me.lanes ≤ 32 := by decide +kernel
theorem witness_SetLength_alone : (∀ h ∈ hartsOfCore (coreOf base.cur), h ≠ base.cur → (base.hart h).lanes = 0) ∧
    base.myCore.laneWait = [] ∧ base.me.lanes ≤ 32 ∧ mostRows .w32 8 (4 * 2 - 4) < 257 ∧ 257 ≤ mostRows .w32 8 (4 * 2) ∧
    mostRows .sliced 8 (4 * 8 - 4) < 8192 ∧ 8 ∣ 2048 := by decide +kernel
def crowded : State := { harts := [(0, { hart0 with lanes := 0 }), (1, { hart0 with lanes := 32 })] }
theorem witness_SetLength_wait : Vector crowded ∧ (crowded.readX 2).toNat ≠ 0 ∧ crowded.me.buffer = [] ∧
    crowded.boundaryLanes crowded.cur (crowded.readX 2).toNat (wcode .w64) 8 = none := ⟨⟨rfl, rfl⟩, by decide +kernel⟩
/-- The last legal value of vtype, and one beyond it. -/
theorem witness_TypesAndSingleValues : base.me.matrix = false ∧ LegalType 0x3030 ∧ ¬ LegalType 0x3031 ∧ ¬ LegalType 0x4030 ∧
    base.copying base.cur = false ∧ base.me.own = base.me.ctx ∧ ETy.f32 ≠ .q ∧ ETy.f32 ≠ .pr := by
  simp only [LegalType]; decide +kernel
def preds (p : Pred) (b : List BufEntry) : State := with0 fun h => { h with buffer := b, p := [(5, p)] }
theorem witness_StripCommit_class : (preds { prob := true } []).me.own = (preds { prob := true } []).me.ctx ∧
    (preds { prob := true } []).drains = [] ∧ ((preds { prob := true } []).me.pred 5).prob = true ∧
    (preds { prob := true } []).copying 0 = false := by decide +kernel
/-- Two elements at one place, of which the predicate selects the first. -/
def committed : State :=
  preds { cells := 0x8000 } [{ elems := [elem0, { elem0 with row := 1, val := 9 }] }]
theorem witness_StripCommit : committed.me.own = committed.me.ctx ∧ committed.drains = [] ∧ (committed.me.pred 5).prob = false ∧
    committed.myCore.interlocks = [] ∧ committed.journals = [] ∧ tbaseEn committed.me.tbase = false ∧ Uncached committed ∧
    (∀ b ∈ committed.me.buffer, ∀ e ∈ b.elems, e.sliced = false ∧ servedBy e.pa ≠ .mgmt ∧ Writable committed e.pa e.size ∧
      ∀ j, j < e.size → (lineFor b.o e.size e.pa).holds (e.pa + j) = true) ∧
    (committed.me.pred 5).bit 0 ≠ false ∧ (committed.me.pred 5).bit 1 = false := by
  refine ⟨by decide, by decide, by decide, rfl, rfl, rfl, uncached_of _ rfl rfl rfl, ?_, by decide, by decide⟩
  simp only [Writable, Inclusive]; decide +kernel
/-- The word vstop, or a load of rows and vstop, at 0x4000. -/
def blocked (words : List Nat) : State :=
  { base with mem := Memory.writeN [] 0x4000 (words.flatMap (bytesLE 8)) }
def vldeWord : Nat := 0b01010000_0_00001_00010_0_00000_0_00000_0_00000_0_00000_0100_001_0_0_111111111100
theorem witness_RunWords_misaligned : ((base.me.pc + BitVec.ofInt 64 (4 * (1#20).toInt)).toNat % 8 ≠ 0) ∧
    base.copying base.cur = false := by decide +kernel
theorem witness_RunWords : ∀ x ∈ [([0x55 * 2 ^ 56], false), ([vldeWord, 0x55 * 2 ^ 56], true)],
    let s := blocked x.1
    (s.me.pc + BitVec.ofInt 64 (4 * (0#20).toInt)).toNat % 8 = 0 ∧ s.me.own = s.me.ctx ∧ s.me.matrix = false ∧
      (s.walkClosure s.cur 33 0 [] [0x4000]).1.toOption = some (((List.range x.1.length).map (0x4000 + 8 * ·)).zip x.1) ∧
      rowMemoryIn (((List.range x.1.length).map (0x4000 + 8 * ·)).zip x.1) = x.2 ∧
      (s.walkClosure s.cur 33 0 [] [0x4000]).2.myCore.interlocks = [] ∧
      (s.walkClosure s.cur 33 0 [] [0x4000]).2.conflicts s.cur .all .all = [] := by decide +kernel

/-- Rows 0 and 1 of 32 bits at 0x1000; eight rows of three planes; the type with more rows than its registers hold. -/
def planes : State := with0 fun h => { h with vtype := 0x23, vlen := 8 }
theorem witness_VectorLoadWords_length : base.me.own = base.me.ctx ∧ NoCapture base ∧
    capOf .s64 base.me.vtype base.me.lanes = 128 ∧
    capOf .s64 (with0 fun h => { h with vlen := 129 }).me.vtype (with0 fun h => { h with vlen := 129 }).me.lanes <
      lengthOf (with0 fun h => { h with vlen := 129 }).me ∧ (with0 fun h => { h with vlen := 129 }).copying 0 = false :=
  ⟨rfl, noCapture_base, by decide, by decide, by decide⟩
theorem witness_VectorLoadWords : ∀ c ∈ ([0, 2] : List Reg), base.me.own = base.me.ctx ∧ StrideOk base ⟨1, 0, .row, .z8⟩ c ∧
    lengthOf base.me ≤ capOf .z8 base.me.vtype base.me.lanes ∧
    AllPass base .row false (accesses base.me ⟨1, 0, .row, .z8⟩ c 2) [at_ 0x1000, at_ (if c = 0 then 0x1001 else 0x1005)] ∧
    Clean base .row (accesses base.me ⟨1, 0, .row, .z8⟩ c 2) [at_ 0x1000, at_ (if c = 0 then 0x1001 else 0x1005)] ∧ Bare base := by
  intro c hc
  refine ⟨rfl, fun h => by simp at h, by decide, ⟨?_, rfl, rfl, ⟨base, ?_⟩, ?_, ?_⟩, ?_, uncached_base.1⟩ <;>
    (try simp only [Clean, Unmarked]) <;> (simp only [List.mem_cons, List.not_mem_nil, or_false] at hc) <;>
    (rcases hc with rfl | rfl) <;> decide +kernel
theorem witness_VectorLoadWords_planes : planes.me.own = planes.me.ctx ∧ NoCapture planes ∧
    lengthOf planes.me ≤ capOf .q planes.me.vtype planes.me.lanes ∧
    AllPass planes .row false (accesses planes.me ⟨1, 0, .row, .q⟩ 0 8) [at_ 0x1000, at_ 0x1001, at_ 0x1002] ∧
    Clean planes .row (accesses planes.me ⟨1, 0, .row, .q⟩ 0 8) [at_ 0x1000, at_ 0x1001, at_ 0x1002] ∧ Bare planes := by
  refine ⟨rfl, fun j => ?_, by decide, ⟨?_, rfl, rfl, ⟨planes, ?_⟩, ?_, ?_⟩, ?_, (uncached_of _ rfl rfl rfl).1⟩
  · have h : planes.myCore.lcfg = [] := rfl
    simp [h, Tab.get, Tab.find]
  all_goals (try simp only [Clean, Unmarked]) <;> decide +kernel
/-- The second of two rows lies on a page that is not mapped. -/
def edge : State := { paged with harts := [(0, { hart0 with tbase := 0x10001, x := [(1, 0x1FFFC)] })] }
theorem witness_VectorLoadWords_first : edge.me.own = edge.me.ctx ∧ edge.me.matrix = false ∧ lengthOf edge.me = 2 ∧
    (edge.checkAll edge.cur .row .load false (accesses edge.me ⟨1, 0, .row, .f32⟩ 0 2)).1[1]?.map (·.2.toOption) = some none ∧
    AllPass edge .row false ((accesses edge.me ⟨1, 0, .row, .f32⟩ 0 2).take 1) [⟨0x3FFFC, 0x3007F, 4⟩] ∧
    Clean edge .row ((accesses edge.me ⟨1, 0, .row, .f32⟩ 0 2).take 1) [⟨0x3FFFC, 0x3007F, 4⟩] ∧ Bare edge := by
  refine ⟨rfl, rfl, rfl, by decide +kernel,
    ⟨?_, rfl, rfl, ⟨(edge.checkAll edge.cur .row .load false ((accesses edge.me ⟨1, 0, .row, .f32⟩ 0 2).take 1)).2, ?_⟩, ?_, ?_⟩, ?_, (uncached_of _ rfl rfl rfl).1⟩ <;>
    (try simp only [Clean, Unmarked]) <;> decide +kernel
/-- Indices 0 and 8 in v2, the first row complete already; a length one beyond the rows a gather reaches. -/
def gather : State := with0 fun h => { h with v := [(2, 8 * 2 ^ 64)], armed := some 1 }
theorem witness_GatherWord : gather.me.own = gather.me.ctx ∧ NoCapture gather ∧ lengthOf gather.me ≤ 32 * gather.me.lanes ∧
    (indexed gather.me ⟨1, 0, .row, .f32⟩ 2 2).map (·.ea) = [0x1008] ∧
    AllPass gather .row false (indexed gather.me ⟨1, 0, .row, .f32⟩ 2 2) [at_ 0x1008] ∧
    Clean gather .row (indexed gather.me ⟨1, 0, .row, .f32⟩ 2 2) [at_ 0x1008] ∧ Bare gather := by
  refine ⟨rfl, fun j => ?_, by decide, by decide +kernel, ⟨?_, rfl, rfl, ⟨gather, ?_⟩, ?_, ?_⟩, ?_, (uncached_of _ rfl rfl rfl).1⟩
  · have h : gather.myCore.lcfg = [] := rfl
    simp [h, Tab.get, Tab.find]
  all_goals (try simp only [Clean, Unmarked]) <;> decide +kernel
theorem witness_GatherWord_length : 32 * (with0 fun h => { h with vlen := 129 }).me.lanes <
    lengthOf (with0 fun h => { h with vlen := 129 }).me ∧ (with0 fun h => { h with vlen := 129 }).copying 0 = false := by decide
/-- A buffer with room for one entry, and a full one; a length of 0. -/
theorem witness_VectorStoreWords : ∀ n ∈ [(15 : Nat), 16], let s := buffered (List.replicate n { elems := [elem0] })
    s.me.own = s.me.ctx ∧ s.me.armed = none ∧ lengthOf s.me = 2 ∧ 2 ≤ 32 * s.me.lanes ∧
      2 ≤ capOf .f32 s.me.vtype s.me.lanes ∧ StrideOk s ⟨1, 0, .row, .f32⟩ 0 ∧
      AllPass s .row true (accesses s.me ⟨1, 0, .row, .f32⟩ 0 2) [at_ 0x1000, at_ 0x1004] ∧
      AllPass s .row true (indexed s.me ⟨1, 0, .row, .f32⟩ 0 2) [at_ 0x1000, at_ 0x1000] ∧
      (s.me.buffer.length < 16 ↔ n = 15) ∧ s.copying s.cur = false := by
  intro n hn s
  refine ⟨?_, ?_, ?_, ?_, ?_, fun h => by simp at h, ⟨?_, ?_, ?_, ⟨s, ?_⟩, ?_, ?_⟩,
    ⟨?_, ?_, ?_, ⟨s, ?_⟩, ?_, ?_⟩, ?_, ?_⟩ <;> (try simp only [s]) <;> clear s <;> revert n <;> decide +kernel
theorem witness_VectorStoreWords_empty : (with0 fun h => { h with vlen := 0 }).me.own = 0 ∧
    lengthOf (with0 fun h => { h with vlen := 0 }).me = 0 ∧
    AllPass (with0 fun h => { h with vlen := 0 }) .row true (accesses (with0 fun h => { h with vlen := 0 }).me ⟨1, 0, .row, .f32⟩ 0 0) [] :=
  ⟨rfl, rfl, rfl, rfl, rfl, ⟨_, rfl⟩, fun _ h => by simp [accesses, upTo] at h, fun _ h => by simp at h⟩

-- Witnesses: lanes, the matrix array, rows ----------------------------------------------------------------------------------

def one (x : Nat) : State := with0 fun h => { h with vlen := 1, v := [(1, x)] }
theorem witness_IntegerReductions : base.me.own = base.me.ctx ∧ fmtOf .s32 = none ∧ ETy.s32 ≠ .q ∧ ETy.s32 ≠ .pr ∧
    (∀ q, (none : Option Prefix) = some q → (base.me.pred q.p).prob = false) ∧
    (preds {} []).me.own = (preds {} []).me.ctx ∧ BitClass (preds {} []) (some ⟨5, true⟩) ∧
    ((preds { prob := true } []).me.pred 5).prob = true ∧ (preds { prob := true } []).copying 0 = false := by
  refine ⟨rfl, rfl, by decide, by decide, fun q h => by simp at h, rfl, ?_, by decide, by decide⟩
  rintro q ⟨⟩; decide
/-- The one active row is the extreme; it is a NaN; no row is active. -/
theorem witness_FloatReductionsAndIndices (isMax : Bool) :
    IsExtreme isMax .f32 0 (row (one 0x3F800000).me 1 32) (activeOf (one 0x3F800000).me .f32 none) 0 ∧
    (∀ i ∈ activeOf (one 0x7FC00000).me .f32 none, ¬ notNan (operand .f32 0 (row (one 0x7FC00000).me 1 32 i)).1) ∧
    activeOf (with0 fun h => { h with vlen := 0 }).me .f32 none = [] ∧ BitClass base none ∧ base.me.lanes ≤ 32 ∧
    IsExtremeInt isMax .s32 (row (one 7).me 1 32) (activeOf (one 7).me .s32 none) 0 := by
  have e : ∀ x t, elemBits t = 32 → laneRows t = 64 → activeOf (one x).me t none = [0] := by
    intro x t _ h
    simp [activeOf, taking, reachRows, h, show (one x).me.matrix = false from rfl, show (one x).me.vlen = 1 from rfl,
      show (one x).me.lanes = 4 from rfl]
  refine ⟨⟨by rw [e _ _ rfl rfl]; simp, ?_, ?_⟩, ?_, rfl, fun q h => by simp at h, by decide, by rw [e _ _ rfl rfl]; simp, ?_⟩
  · have h : (operand .f32 0 (row (one 0x3F800000).me 1 32 0)).1 = .num false 0x800000 (-23) := by decide +kernel
    simp only [h]; trivial
  · rw [e _ _ rfl rfl]
    intro j hj _
    obtain rfl : j = 0 := by simpa using hj
    refine ⟨?_, fun h => absurd h (by decide)⟩
    cases isMax <;> simp [Before]
  · rw [e _ _ rfl rfl]
    intro i hi
    obtain rfl : i = 0 := by simpa using hi
    have h : (operand .f32 0 (row (one 0x7FC00000).me 1 32 0)).1 = .nan false := by decide +kernel
    rw [h]; exact id
  · rw [e _ _ rfl rfl]
    intro j hj
    obtain rfl : j = 0 := by simpa using hj
    cases isMax <;> simp
theorem witness_Scans : (base.me.own = base.me.ctx ∧ BitClass base none) ∧ fmtOf .z8 = none ∧ ETy.z8 ≠ .q ∧ ETy.z8 ≠ .pr ∧
    fmtOf .bf16 = some .bf16 := ⟨⟨rfl, fun q h => by simp at h⟩, rfl, by decide, by decide, rfl⟩
theorem witness_MovesAndCounts : base.me.own = base.me.ctx ∧ ETy.s8 ≠ .q ∧ ETy.s8 ≠ .pr ∧ (base.me.pred 5).prob = false ∧
    (with0 fun h => { h with vlen := 256 }).me.matrix = false ∧
    (with0 fun h => { h with vlen := 256 }).me.vlen = 64 * (with0 fun h => { h with vlen := 256 }).me.lanes := by decide

def matrixed (f : Hart → Hart) : State :=
  { with0 (fun h => f { h with matrix := true, mvlen := 1 }) with cores := [(0, { arrayHolder := some 0 })] }
/-- The array free, held by the hart itself, held by another. -/
theorem witness_MatrixMode : (base.me.own = base.me.ctx ∧ base.me.matrix = false ∧ base.myCore.arrayHolder = none ∧
      base.myCore.arrayWait = [] ∧ base.copying base.cur = false) ∧
    (({ base with cores := [(0, { arrayWait := [0, 1] })] } : State).myCore.arrayWait.head? = some 0) ∧
    (({ base with cores := [(0, { arrayHolder := some 1 })] } : State).myCore.arrayHolder = some 1 ∧ 1 ≠ base.cur) ∧
    ((matrixed id).me.own = (matrixed id).me.ctx ∧ (matrixed id).me.matrix = true ∧ (matrixed id).copying 0 = false) := by
  decide +kernel
/-- A corner of one cell, with the bypass empty and holding the type; a bypass of another type. -/
theorem witness_MatrixProducts : ∀ b ∈ [none, some (ETy.bf16, 0)],
    let s := matrixed fun h => { h with bypass := b }
    Claims.Matrix s ∧ s.myCore.dupNext = none ∧ (s.me.bypass.isSome → s.me.bypass.map (·.1) = some .bf16) ∧ coreOf s.cur % 8 = 0 ∧
      (∀ x ∈ productWords .bf16 .za .rne none 2 3 0 1, x.1.wf = true ∧ ∀ half ∈ x.2, Fits s.me .bf16 half) ∧
      fmtOf .bf16 = some .bf16 ∧ s.me.mvlen ≤ 128 := by
  simp only [Claims.Matrix, Fits]; decide +kernel
theorem witness_MatrixProducts_sliced : let s := matrixed fun h => { h with vtype := 8 }
    Claims.Matrix s ∧ s.myCore.dupNext = none ∧ s.me.bypass = none ∧ coreOf s.cur % 8 = 0 ∧
      (productWords .q .za .rne none 2 3 0 1).any (fun x => x.1.wf) = true ∧
      (∀ x ∈ productWords .q .za .rne none 2 3 0 1, ∀ half ∈ x.2, Fits s.me .q half) ∧ s.me.mvlen ≤ 128 := by
  simp only [Claims.Matrix, Fits]; decide +kernel
theorem witness_MatrixProducts_bypass : let s := matrixed fun h => { h with bypass := some (.f16, 0) }
    Claims.Matrix s ∧ coreOf s.cur % 8 = 0 ∧ s.me.bypass = some (.f16, 0) ∧ ETy.f16 ≠ .bf16 ∧ s.copying s.cur = false := by
  simp only [Claims.Matrix]; decide +kernel
theorem witness_MatrixProducts_core : let s : State := { matrixed id with cur := 4, harts := [(4, { hart0 with matrix := true })] }
    Claims.Matrix s ∧ coreOf s.cur % 8 ≠ 0 ∧ (Instr.mbwdBoth .bf16 .rne none 0 1).wf = true ∧ s.copying s.cur = false := by
  simp only [Claims.Matrix]; decide +kernel
/-- The last row of cells and one beyond it; the last bypass and one beyond it. -/
theorem witness_MatrixDrains : ∀ c ∈ [(127 : Nat), 128, 120, 121],
    let s := matrixed fun h => { h with x := [(1, BitVec.ofNat 64 c)] }
    Claims.Matrix s ∧ fmtOf .f32 = some .f32 ∧ s.me.mvlen ≤ 128 ∧ (127 < (s.readX 1).toNat ↔ c = 128) ∧
      (120 < (s.readX 1).toNat ↔ c ≠ 120) ∧ s.copying s.cur = false ∧ s.me.mvlen ≤ laneRows .f32 * s.me.lanes := by
  simp only [Claims.Matrix]; decide +kernel
theorem witness_MatrixMemory : Claims.Matrix (matrixed id) ∧ fmtOf .f16 = some .f16 ∧ (matrixed id).me.mvlen ≤ 128 ∧ NoCapture (matrixed id) ∧
    Uncached (matrixed id) ∧ AllPass (matrixed id) .row false (tileAccesses (matrixed id).me .row .f16 1 0) [at_ 0x1000] ∧
    Clean (matrixed id) .row (tileAccesses (matrixed id).me .row .f16 1 0) [at_ 0x1000] ∧
    AllPass (matrixed id) .row true (tileAccesses (matrixed id).me .row .f16 1 0) [at_ 0x1000] ∧
    (∀ p ∈ [at_ 0x1000], Writable (matrixed id) p.pa 2) ∧
    (∀ p ∈ [at_ 0x1000], ∀ j, j < 2 → (lineFor .row 2 p.pa).holds (p.pa + j) = true) := by
  refine ⟨⟨rfl, rfl⟩, rfl, by decide, fun j => ?_, ⟨⟨rfl, fun k => ⟨rfl, rfl, rfl, ?_⟩⟩, fun _ => rfl⟩, ⟨?_, rfl, rfl, ⟨matrixed id, ?_⟩, ?_, ?_⟩, ?_,
    ⟨?_, rfl, rfl, ⟨matrixed id, ?_⟩, ?_, ?_⟩, ?_, ?_⟩
  · have h : (matrixed id).myCore.lcfg = [] := rfl
    simp [h, Tab.get, Tab.find]
  · simp only [State.dcacheKeys, List.flatMap_eq_nil_iff]
    intro c _
    simp [State.core, matrixed, with0, Tab.get, Tab.find]
    split <;> rfl
  all_goals (try simp only [Clean, Unmarked, Writable, Inclusive]) <;> decide +kernel

/-- Hart 0 in a run of n rows whose row c moves next; the registers hold v. -/
def run0 (c n vt : Nat) : Run :=
  { issuePc := 0x4000, target := 0x4000, n := n, words := [(0x4000, 0x55 * 2 ^ 56)],
    rows := List.replicate n { pc := 0x4000, block := 0x4000 }, cur := c, cap := { vlen := n, lanes := 4, vtype := BitVec.ofNat 64 vt } }
def running0 (r : Run) (v : Tab Nat) (b : List BufEntry) : State :=
  with0 fun h => { h with run := some r, v := v, buffer := b, p := [(5, { cells := 0x8000 })] }
def plain : BHead := ⟨false, none⟩
def guarded : BHead := ⟨false, some ⟨5, false⟩⟩
theorem ready (ts : List ETy) (v : Tab Nat) (b : List BufEntry) (m : Option Reg)
    (h : ∀ t ∈ ts, 0 < if t = .q then slicedRows (0x28 % 32) 4 else laneRows t * 4) :
    RowReady (running0 (run0 0 1 0x28) v b) (run0 0 1 0x28) guarded ts m ∧
    RowReady (running0 (run0 0 1 0x28) v b) (run0 0 1 0x28) plain ts m := by
  have p : ∀ p, ((running0 (run0 0 1 0x28) v b).me.pred p).prob = false := by
    intro p
    simp only [Hart.pred, show (running0 (run0 0 1 0x28) v b).me.p = [(5, { cells := 0x8000 })] from rfl, Tab.get, Tab.find]
    split <;> rfl
  refine ⟨⟨rfl, ?_, by decide, ?_, fun q _ => p q⟩, ⟨rfl, fun q h => by simp [plain] at h, by decide, ?_, fun q _ => p q⟩⟩
  · rintro q ⟨⟩
    exact ⟨p _, (by decide : ((running0 (run0 0 1 0x28) [] []).me.pred 5).bit 0 ≠ false)⟩
  · exact h
  · exact h
/-- Division by 0, the quotient that overflows, and the others: x and y in v2 and v3. -/
theorem witness_RowIntegerWords : ∀ x ∈ [((5 : Nat), (0 : Nat)), (0x80000000, 0xFFFFFFFF), (0x80000000, 1)],
    let s := running0 (run0 0 1 0x28) [(2, x.1), (3, x.2)] []
    fmtOf .s32 = none ∧ RowReady s (run0 0 1 0x28) guarded [.s32] (some 6) ∧
      (intVal .s32 (row s.me 3 32 0) = 0 ↔ x.2 = 0) ∧ (intVal .s32 (row s.me 3 32 0) = -1 ↔ x.2 = 0xFFFFFFFF) ∧
      (x.1 = 0x80000000 → intVal .s32 (row s.me 2 32 0) = least .s32) := by
  intro x hx s
  refine ⟨rfl, (ready _ _ _ _ (by decide)).1, ?_⟩
  simp only [s]; clear s; revert x; decide +kernel
theorem witness_RowFloatWords : FloatTy .f16 .f16 ∧ RowReady (running0 (run0 0 1 0x28) [] []) (run0 0 1 0x28) guarded [.f16] (some 6) :=
  ⟨⟨rfl, by decide, by decide⟩, (ready _ _ _ _ (by decide)).1⟩
/-- exp2 and log2 at the bounds where they are exact; every element type. -/
theorem witness_RowConversions : (∀ t u : ETy, RowReady (running0 (run0 0 1 0x28) [] []) (run0 0 1 0x28) guarded [t, u] (some 6)) ∧
    (∀ t, RowReady (running0 (run0 0 1 0x28) [] []) (run0 0 1 0x28) plain [t] (some 5)) ∧
    1 ≤ (run0 0 1 0x28).cap.vtype.toNat % 32 ∧ (operand .f32 0 0x42FE0000).1 = .num false 0xFE0000 (-17) ∧
    (operand .f32 0 1).1 = .num false 1 (-149) := by
  refine ⟨fun t u => (ready _ _ _ _ ?_).1, fun t => (ready _ _ _ _ ?_).2, by decide, by decide +kernel, by decide +kernel⟩
  · cases t <;> cases u <;> decide
  · cases t <;> decide
theorem witness_RowPredicateWords : RowReady (running0 (run0 0 1 0x28) [] []) (run0 0 1 0x28) guarded [] none ∧
    RowReady (running0 (run0 0 1 0x28) [] []) (run0 0 1 0x28) plain [.z16] none ∧
    ((running0 (run0 0 1 0x28) [] []).me.pred 5).cell 0 = 0x8000 ∧ ((running0 (run0 0 1 0x28) [] []).me.pred 6).cell 0 = 0 ∧
    (run0 0 1 0x28).cur < (run0 0 1 0x28).rows.length ∧
    RowReady (running0 (run0 0 1 0x28) [] []) (run0 0 1 0x28) guarded [.s8] none ∧
    RowReady (running0 (run0 0 1 0x28) [] []) (run0 0 1 0x28) plain [.f32] none ∧ fmtOf .f32 = some .f32 ∧
    (run0 0 1 0x28).cap.ptemp = 0 ∧ ({ run0 0 1 0x28 with cap := { ptemp := 0x3F800000 } } : Run).cap.ptemp ≠ 0 :=
  ⟨(ready _ _ _ _ (by simp)).1, (ready _ _ _ _ (by decide)).2, by decide, by decide, by decide, (ready _ _ _ _ (by decide)).1,
    (ready _ _ _ _ (by decide)).2, rfl, rfl, by decide⟩
/-- The address 0x1000 in row 0 of v2. -/
def rowMem (b : List BufEntry) : State := running0 (run0 0 1 0x28) [(2, 0x1000)] b
def mine : BufEntry := { inst := some (0x4000, 0), elems := [elem0] }
theorem rowFinds : ∀ b ∈ [[], [mine], List.replicate 15 { elems := [elem0] }, List.replicate 16 { elems := [elem0] }],
    ∀ kind ∈ [AccKind.load, .store, .both], ∀ n ∈ [1, 2, 4, 8],
    RowFinds (rowMem b) 0x1000 n .row kind (if kind = .store then n else 0) (kind != .store) (kind != .load) (at_ 0x1000) := by
  intro b hb kind hk n hn
  refine ⟨⟨rowMem b, ?_⟩, by decide, by decide, ?_, rfl⟩ <;> revert n kind b <;> decide +kernel
theorem witness_RowLoads : RowReady (rowMem []) (run0 0 1 0x28) guarded [.f32, .z64] none ∧
    BitVec.ofNat 64 (row (rowMem []).me 2 64 0) + (0#12).signExtend 64 = 0x1000 ∧
    RowFinds (rowMem []) 0x1000 4 .row .load 0 true false (at_ 0x1000) ∧
    ((rowMem []).bytesAt (coreOf (rowMem []).cur) 0x1000 4).2 = false ∧ HasWay (rowMem []) (lineFor .row 4 0x1000) ∧
    Current (rowMem []) (lineFor .row 4 0x1000).bytes ∧
    (∀ b ∈ (lineFor .row 4 0x1000).bytes ++ (List.range 4).map (0x1000 + ·), Unmarked (rowMem []) b) := by
  refine ⟨(ready _ _ _ _ (by decide)).1, by decide, rowFinds [] (by decide) .load (by decide) 4 (by decide), by decide +kernel,
    hasWay_of _ _ rfl, current_of _ _ rfl rfl rfl, ?_⟩
  simp only [Unmarked]; decide +kernel
/-- The entry of the row's instance is there; it is not, with room for one more; it is not, without room. -/
theorem witness_RowStores : ∀ b ∈ [[mine], List.replicate 15 { elems := [elem0] }, List.replicate 16 { elems := [elem0] }],
    RowReady (rowMem b) (run0 0 1 0x28) guarded [.f32, .z64] none ∧
    RowFinds (rowMem b) 0x1000 4 .row .store 4 false true (at_ 0x1000) ∧ (rowMem b).copying 0 = false ∧
    ((rowMem b).me.buffer.all (fun x => x.inst != some ((run0 0 1 0x28).row.pc, (run0 0 1 0x28).row.count (run0 0 1 0x28).row.pc)) = false ↔
      b = [mine]) ∧ (b.length < 16 ∨ b.length = 16) := by
  intro b hb
  refine ⟨(ready _ _ _ _ (by decide)).1, rowFinds b (by revert b; decide) .store (by decide) 4 (by decide), ?_, ?_, ?_⟩ <;> revert b <;> decide +kernel
theorem witness_RowAtomics : ∀ (ty : AmoTy) (c : Scope),
    RowReady (rowMem []) (run0 0 1 0x28) guarded [amoRowTy ty, .z64] none ∧
    (AmoOp.fadd = .fadd ↔ AmoTy.f32.isInt = false) ∧ (AmoOp.add = .fadd ↔ AmoTy.s64.isInt = false) ∧
    RowAtomicFinds (rowMem []) (BitVec.ofNat 64 (row (rowMem []).me 2 64 0)) (amoBytes ty) c (at_ 0x1000) 0 := by
  intro ty c
  refine ⟨(ready _ _ _ _ (by cases ty <;> decide)).1, by decide, by decide,
    ⟨rowFinds [] (by decide) .both (by decide) _ (by cases ty <;> decide), ?_, uncached_of _ rfl rfl rfl, ⟨rfl, ?_, inclusive_of _ rfl⟩, ?_, ?_, ?_⟩⟩
  any_goals (cases ty <;> cases c <;> decide +kernel)
  intro b hb
  exact (unmarked _ rfl rfl rfl rfl b (by simp [at_] at hb; omega)).1
/-- A row whose request waits at its engine, and one whose request has been served. -/
def amoRun (a : RowAmo) : Run := { run0 0 1 0x28 with rows := [{ pc := 0x4000, block := 0x4000, amo := a }] }
theorem witness_RowAtomics_waits : ∀ a ∈ [RowAmo.waiting 0x1000, .served 0x1000 7 3],
    RowReady (running0 (amoRun a) [] []) (amoRun a) guarded [amoRowTy .s64, .z64] none ∧ (amoRun a).row.amo = a ∧ 7 < 2 ^ (8 * amoBytes .s64) := by
  intro a ha
  refine ⟨⟨rfl, fun q hq => ?_, ?_, ?_, fun p hp => by cases hp⟩, rfl, by decide⟩
  · cases hq
    revert a
    decide
  all_goals (revert a; decide)
/-- In a run; with a full queue; beyond the capacity of 64-bit rows; at the prefix of a clear bit; outside a run. -/
def full : State := { rowMem [] with cores := [(0, { geyser := List.replicate 4096 ⟨0, 0, 0, 0, 0, 3, 0, 0, 0, 0, []⟩ })] }
theorem witness_RowControl : (rowMem []).me.run = some (run0 0 1 0x28) ∧
    RowReady (rowMem []) (run0 0 1 0x28) guarded [] none ∧ (run0 0 1 0x28).cur < mostRows .w64 0 4 ∧ (run0 0 1 0x28).cap.sw = 3 ∧
    (rowMem []).myCore.geyser.length < 4096 ∧ 4096 ≤ full.myCore.geyser.length ∧ full.copying full.cur = false ∧
    full.me.run = some (run0 0 1 0x28) ∧ laneRows .z64 * (run0 128 129 0x28).cap.lanes ≤ (run0 128 129 0x28).cur ∧
    ((rowMem []).me.pred 5).bit 0 = true ∧ ((rowMem []).me.pred 5).prob = false ∧ base.me.run = none := by
  refine ⟨rfl, (ready _ _ _ _ (by simp)).1, by decide, rfl, by decide, ?_, rfl, rfl, by decide, by decide, by decide, rfl⟩
  rw [show full.myCore.geyser = List.replicate 4096 ⟨0, 0, 0, 0, 0, 3, 0, 0, 0, 0, []⟩ from rfl, List.length_replicate]
/-- A scale of 0xFF, and one that is not; a closure whose row stands at its pcollapse. -/
theorem witness_RowConversions_scale : (with0 fun h => { h with k := [(0, 255)] }).me.scale 0 0 = 255 ∧ base.me.scale 0 0 ≠ 255 := by
  decide +kernel
theorem witness_RowPredicateWords_collapse :
    let r : Run := { run0 0 1 0x28 with words := [(0x4000, 0x46 * 2 ^ 56), (0x4008, 0x55 * 2 ^ 56)] }
    r.words.Pairwise (·.1 < ·.1) ∧ r.row.pc ∈ collapseWords r ∧ r.cur < r.rows.length := by decide

-- Witnesses: events ------------------------------------------------------------------------------------------------------------

/-- The word of i stands at 0x4000. -/
def placed (i : Instr) : List Host.Cell := Memory.writeN [] 0x4000 (bytesLE 4 ((encode i).map (·.2)).get!)
/-- Hart 0 waits in i. -/
def waiting (w : Wait) (i : Instr) : State := { with0 (fun h => { h with wait := w }) with mem := placed i }
/-- The state in which the word that hart 0 waits in executes again. -/
def reissued (s : State) : State :=
  (({ (s.wordAt 0).2 with cur := 0 } : State).updMe fun x =>
    { x with issued := true, issuedAt := if x.issued then x.issuedAt else (s.wordAt 0).2.now }).chargeMe 0 1
theorem issues_reissued (s : State) (w : Wait) (i : Instr) (h : s.runs 0 = true ∧ (s.hart 0).drained = true ∧
      (s.hart 0).rest = none ∧ (s.hart 0).stall = none ∧ (s.hart 0).wait = w)
    (h4 : (s.wordAt 0).1 = some i) : Issues s 0 w i (reissued s) := ⟨h.1, h.2.1, h.2.2.1, h.2.2.2.1, h.2.2.2.2, _, Prod.ext h4 rfl, rfl⟩
theorem witness_WaitEvents_lanes :
    let s := waiting .lanes (.setvl false .w32 1 2)
    Issues s 0 .lanes (.setvl false .w32 1 2) (reissued s) ∧ (reissued s).me.own = (reissued s).me.ctx ∧
      (reissued s).me.matrix = false ∧ (reissued s).readX 2 ≠ 0 ∧ (reissued s).me.buffer = [] ∧
      (reissued s).boundaryLanes 0 ((reissued s).readX 2).toNat (wcode .w32) (vtQw (reissued s).me.vtype) = some 4 ∧
      (reissued s).me.lanes = 4 := by
  refine ⟨issues_reissued _ _ _ (by decide) (by decide +kernel), ?_⟩
  decide +kernel
theorem witness_WaitEvents_array :
    let s : State := { waiting .array (.menter 2) with cores := [(0, { arrayWait := [0] })] }
    Issues s 0 .array (.menter 2) (reissued s) ∧ (reissued s).me.own = (reissued s).me.ctx ∧ (reissued s).me.matrix = false ∧
      (reissued s).myCore.arrayHolder = none ∧ (reissued s).myCore.arrayWait.head? = some 0 := by
  refine ⟨issues_reissued _ _ _ (by decide) (by decide +kernel), ?_⟩
  decide +kernel
def atBarrier : State :=
  { with0 (fun h => { h with wait := .abar, x := [(1, 0xFF00000000000)] }) with mem := placed (.abarWait 1 0) }
theorem witness_WaitEvents_barrier : Issues atBarrier 0 .abar (.abarWait 1 0) (reissued atBarrier) ∧
    BarrierAt (reissued atBarrier) ((reissued atBarrier).readX 1) (at_ 0xFF00000000000) ∧
    barPhase ((reissued atBarrier).barrier 0xFF00000000000) = ((reissued atBarrier).readX 0).getLsbD 0 := by
  refine ⟨issues_reissued _ _ _ (by decide) (by decide +kernel), ⟨⟨reissued atBarrier, ?_⟩, ?_⟩, ?_⟩ <;> decide +kernel
theorem uncached_with (s : State) (h : s.drains = [] ∧ s.clusters = [] ∧ s.cores.all (fun c => c.2.dcache = []) = true) :
    Uncached s := by
  obtain ⟨h1, h2, h3⟩ := h
  have e : ∀ c, (s.core c).dcache = [] := by
    intro c
    simp only [State.core, Tab.get]
    revert h3
    generalize s.cores = l
    induction l with
    | nil => intro _; rfl
    | cons x l ih =>
      intro h
      simp only [List.all_cons, Bool.and_eq_true, decide_eq_true_eq] at h
      simp only [Tab.find]
      split
      · exact h.1
      · exact ih h.2
  refine ⟨⟨h1, fun k => ?_⟩, fun k => ?_⟩ <;> simp [State.cluster, h2, Tab.get, Tab.find, State.dcacheKeys, e]
def atWord : State := waiting .gwait (.gwait 1 0)
theorem witness_WaitEvents_gwait : Issues atWord 0 .gwait (.gwait 1 0) (reissued atWord) ∧ Uncached (reissued atWord) ∧
    LoadFinds (reissued atWord) ((reissued atWord).readX 1) 8 .row (at_ 0x1000) 0 ∧ ((reissued atWord).readX 0).toNat ≤ 0 := by
  refine ⟨issues_reissued _ _ _ (by decide) (by decide +kernel), uncached_with _ (by decide +kernel),
    ⟨⟨reissued atWord, ?_⟩, ?_, ?_, ?_, ?_, ?_, ?_, ?_, hasWay_of _ _ (by decide +kernel), inclusive_of _ (by decide +kernel),
    current_of _ _ (by decide +kernel) (by decide +kernel) (by decide +kernel), ?_⟩,
    ?_⟩ <;> (try simp only [Unmarked]) <;> decide +kernel
theorem witness_WaitEvents_jsync :
    let j : Journal := { en := true, state := 1, ack := 1, next := 1 }
    let s : State := { waiting .jsync (.jsync 0) with journals := [(0, j)] }
    Issues s 0 .jsync (.jsync 0) (reissued s) ∧ OwnContext (reissued s) j ∧ ((reissued s).readX 0).toNat < j.ack.toNat ∧
      ((reissued s).readX 0).toNat < j.next.toNat := by
  refine ⟨issues_reissued _ _ _ (by decide) (by decide +kernel), ⟨?_, ?_⟩, ?_⟩ <;> decide +kernel
/-- At the end of 65,536 cycles. -/
theorem witness_WaitEvents_wfe :
    let s : State := { waiting .wfe .wfe with now := 65536 }
    Issues (s.setLatch 0) 0 .wfe .wfe (reissued (s.setLatch 0)) ∧ (s.hart 0).waitSince + 65536 = s.now := by
  refine ⟨issues_reissued _ _ _ (by decide +kernel) (by decide +kernel), ?_⟩
  decide +kernel
theorem witness_WaitEvents_gbar :
    let g : Gang := { gang 1 with count := 1 }
    let s : State := { waiting .gbar .gbar with gangs := [g], harts := [(0, { hart0 with wait := .gbar, gang := some 0, arr := true })] }
    s.gangOf g.id = some g ∧ blockCo g.blk = true ∧ g.count + g.haltedHarts.length = blockSize g.blk ∧ 0 ∈ g.harts ∧
      (s.hart 0).gang = some g.id ∧ (s.hart 0).arr = true ∧ (∀ j ∈ g.harts, j ≠ 0 → (s.hart j).halted = true) ∧
      Issues (s.turnCheck g.id) 0 .gbar .gbar (reissued (s.turnCheck g.id)) ∧
      (reissued (s.turnCheck g.id)).reelRoom 0 0x0203 = true := by
  refine ⟨by decide +kernel, by decide +kernel, by decide +kernel, by decide, by decide, by decide, by decide,
    issues_reissued _ _ _ (by decide +kernel) (by decide +kernel), by decide +kernel⟩
theorem witness_WaitEvents_captures :
    let s : State := { waiting .gbar .gbar with gangs := [{ gang 1 with count := 1 }], harts := [(0, { hart0 with wait := .gbar, gang := some 0, arr := true })] }
    NoCapture (reissued (s.turnCheck 0)) := by
  intro s j
  have h : (reissued (s.turnCheck 0)).myCore.lcfg = [] := by decide +kernel
  simp [h, Tab.get, Tab.find]
theorem witness_WaitEvents_others : (((with0 fun h => { h with wait := .interlock }).hart 0).wait = .interlock) ∧
    ∀ w ∈ [Wait.reel, .held], let s := with0 fun h => { h with wait := w, stall := some (0, 0) }
      (s.hart 0).wait = w ∧ (s.hart 0).stall.isSome = true ∧ s.reelStallOver 0 = true := by decide +kernel

def entry (n : Nat) : QEntry :=
  { issuePc := 0x4000, target := 0x5000, words := [(0x5000, vldeWord), (0x5008, 0x55 * 2 ^ 56)], isDrain := false,
    cap := { vlen := n, lanes := 4 } }
/-- An entry of no rows; one of as many rows as 64-bit addresses reach. -/
theorem witness_RequestEvents_entry : ∀ n ∈ [(0 : Nat), 128], let s := with0 fun h => { h with queue := [entry n] }
    s.runs 0 = true ∧ (s.hart 0).run = none ∧ (s.hart 0).queue = entry n :: [] ∧ (entry n).word = none ∧ (entry n).isDrain = false ∧
      tagFailure ((closureInstrs (entry n).words).filterMap tagUse) (fun r => ((s.hart 0).pred r).prob) = none ∧
      rowMemoryIn (entry n).words = true ∧ (entry n).cap.vlen ≤ 32 * (entry n).cap.lanes := by decide +kernel
theorem witness_RequestEvents_lanes : let s := waiting .none (.setvl false .w32 1 2)
    s.runs 0 = true ∧ (s.hart 0).drained = true ∧ (s.hart 0).wait = .none ∧
      (s.wordAt 0).1 = some (.setvl false .w32 1 2) ∧ (s.hart 0).own = (s.hart 0).ctx ∧ (s.hart 0).matrix = false ∧
      (s.hart 0).readX 2 ≠ 0 ∧ (s.hart 0).buffer = [] ∧
      (s.wordAt 0).2.boundaryLanes 0 ((s.hart 0).readX 2).toNat (wcode .w32) (vtQw (s.hart 0).vtype) = some 4 ∧ (s.hart 0).lanes = 4 := by
  decide +kernel
/-- A preemption with the buffer empty, and one at the end of its 65,536 cycles. -/
theorem witness_RequestEvents_preemption : ∀ b ∈ [[], [({ elems := [elem0] } : BufEntry)]],
    let s : State := { with0 (fun h => { h with buffer := b, preempt := some 0 }) with now := 65536 }
    s.runs 0 = true ∧ (s.hart 0).preempt = some 0 ∧ s.atBoundary 0 = true ∧ (s.hart 0).wait = .none ∧ (s.hart 0).buffer = b ∧ 0 + 65536 ≤ s.now := by
  decide +kernel
/-- One that comes while Reel holds the hart, or its entry at the head of the queue. -/
theorem witness_RequestEvents_held : ∀ y ∈ [(Wait.reel, []), (.held, []), (.reel, [{ entry 1 with word := some (.tmark 0 1) }])],
    let s := with0 fun h => { h with wait := y.1, queue := y.2, preempt := some 0, stall := some (0, 0) }
    (s.hart 0).preempt = some 0 ∧ s.atBoundary 0 = true ∧ (s.hart 0).wait = y.1 ∧ (s.hart 0).stall.isSome = true ∧ (s.hart 0).buffer = [] := by decide +kernel
/-- A stop at its hart's turn, with the buffer empty and at the end of its 65,536 cycles. -/
theorem witness_RequestEvents_stopTaken : ∀ b ∈ [[], [({ elems := [elem0] } : BufEntry)]],
    let s : State := { with0 (fun h => { h with buffer := b, stopMsg := some 0 }) with now := 65536 }
    (s.hart 0).stopMsg = some 0 ∧ (s.hart 0).heldAhead = false ∧ s.atBoundary 0 = true ∧ (s.hart 0).wait = .none ∧ (s.hart 0).buffer = b ∧ 0 + 65536 ≤ s.now ∧
      s.cur = 0 ∧ s.agenda = [] ∧ s.poweredDown = false := by
  decide +kernel
/-- Gang 1 consumes gang 0, whose hart has stopped or runs; and each of them the other, beside a third that neither consumes. -/
def producer (w3 : Word) : Gang := { gang 1 with blk := ⟨0x4000, 0, 0x1000000001, w3, 0, 0x2000, 0, 0⟩ }
def consumer : Gang := { gang 1 with id := 1, harts := [4], blk := ⟨0x4000, 0, 0x1000000001, 0x2000, 0, 0x3000, 0, 0⟩ }
def stopping (taken : Bool) (w3 : Word) : State :=
  { harts := [(0, { hart0 with gang := some 0, stopTaken := taken }), (4, { hart0 with gang := some 1 })],
    gangs := [producer w3, consumer] }
theorem witness_RequestEvents_stop :
    ((([0, 1] : List Nat).filterMap (stopping true 0).gangOf).find? (fun y => y.id == 1) = some consumer) ∧
    (∀ p ∈ ([0, 1] : List Nat).filterMap (stopping true 0).gangOf, Consumes consumer p → HasStopped (stopping true 0) p) ∧
    (producer 0 ∈ ([0, 1] : List Nat).filterMap (stopping false 0).gangOf ∧ Consumes consumer (producer 0) ∧
      ¬ HasStopped (stopping false 0) (producer 0) ∧
      ∀ k ∈ ([0, 1] : List Nat).filterMap (stopping false 0).gangOf, ∀ q ∈ ([0, 1] : List Nat).filterMap (stopping false 0).gangOf,
        Consumes k q → q.id < k.id) ∧
    (let g2 : Gang := { gang 1 with id := 2, harts := [] }
     let s : State := { stopping false 0x3000 with gangs := [producer 0x3000, consumer, g2] }
     let cyc := [producer 0x3000, consumer]
     cyc ≠ [] ∧ ([0, 1, 2].filterMap s.gangOf).find? (fun y => y.id == 2) = some g2 ∧
       ∀ k ∈ cyc, k ∈ [0, 1, 2].filterMap s.gangOf ∧ ∃ q ∈ cyc, Consumes k q) := by
  simp only [Consumes, HasStopped]; decide +kernel
/-- A wave gang that was told to stop before its hart started. -/
theorem witness_RequestEvents_late : let g : Gang := { gang 1 with harts := [], stopping := true, blk := ⟨0x4000, 0, 1, 0, 0, 0, 0, 0⟩ }
    let s : State := { gangs := [g] }
    s.gangOf g.id = some g ∧ g.stopping = true ∧ blockCo g.blk = false ∧ g.affected = false ∧ g.blk.w3 = 0 ∧
      g.harts.length < blockSize g.blk ∧ s.slotFree 1 = true ∧ reaches g.blk 1 = true ∧ blockSp g.blk = false := by decide +kernel
theorem witness_RegisterEvents : (base.runs 0 = true ∧ (base.hart 0).drained = true ∧ (base.hart 0).own = (base.hart 0).ctx) ∧
    countsAt 17 = true ∧ countsAt 18 = false ∧ (0x8000000000000005 : Word).getLsbD 63 = true ∧ (0x5 : Word).getLsbD 63 = false ∧
    (0x8000000000000001 : Word).getLsbD 63 = true ∧ (0x8000000000000001 : Word).toNat % 8 = 1 ∧
    (base.journal base.jcidx.toNat).state = 0 ∧ (0x8000000000000003 : Word).toNat % 8 = 3 ∧
    (let s := journalled { state := 4, npeer := 0x8000000000000000 }
     (s.journal s.jcidx.toNat).state = 4 ∧ (s.journal s.jcidx.toNat).npeer.getLsbD 63 = true) := by decide +kernel
/-- Counter 17 while its total is swept; an enabled stream whose size, losslessness or header changes. -/
theorem witness_RegisterEvents_cnval : let s : State := { base with ctbase := 0x200001, counters := [(17, 5)], lastRead := [(17, 0xFFFFFFFF)] }
    let total := s.ctbase.toNat / 2 ^ 21 % 2 ^ 31 * 2 ^ 21 + 8 * 17
    s.ctbase.getLsbD 0 = true ∧ Uncached s ∧ servedBy total ≠ .mgmt ∧
      ∀ i, i < 8 → s.dead (total + i) = false ∧ s.cut (sweeperOf 17) (total + i) = false :=
  ⟨by decide, uncached_of _ rfl rfl rfl, by decide +kernel⟩
theorem witness_RegisterEvents_stream : ∀ n ∈ [(0x8000000000000006 : Nat), 0xC000000000000005], let v := BitVec.ofNat 64 n
    let s : State := { base with streams := [(3, { sbase := 0x2000, sctl := 0x8000000000000005 })] }
    v.getLsbD 63 = true ∧ (s.stream 3).sctl.getLsbD 63 = true ∧ (base.hart 0).sup = true ∧
      ((s.stream 3).size ≠ max 4 (min 20 (v.toNat % 32)) ∨ (s.stream 3).ll ≠ v.getLsbD 62) ∧
      (base.hart 0).readX 1 &&& 0x000FFFFFFFFFFFC0 ≠ (s.stream 3).sbase := by decide +kernel
theorem witness_WindowAndEnergy : ({ base with now := 1024 } : State).now % 1024 = 0 ∧
    ((base.hart 0).started = true ∧ (base.hart 0).halted = false ∧ (base.hart 0).own = (base.hart 0).ctx) ∧
    (base.hart 1).started = false ∧ ((with0 fun h => { h with own := 1 }).hart 0).own ≠ ((with0 fun h => { h with own := 1 }).hart 0).ctx := by
  decide +kernel

theorem quiet_of (s : State) (h : s.streams = []) : Quiet s := fun n => by
  simp only [State.stream, h, Tab.get, Tab.find]; decide

/-- Die 0 has its launch list at 0x20000; the tenant's entry and the block are zeros but for the bits given. -/
def listed (cells : List Host.Cell) : State :=
  { supervisor := true, lists := [0x20000, 0, 0, 0], mem := Memory.writeCells [] cells }
/-- An empty list, a bad capacity, and a list with one block. -/
theorem witness_LaunchEvents_list : ∀ cells ∈ [[], [(0x20010, (13 : Byte))], [(0x7, 0x80), (0x20000, 1)]],
    let s := listed cells
    s.supervisor = true ∧ (s.die 0).held = false ∧ (s.die 0).devList = [] ∧ s.lists[0]? = some 0x20000 ∧ Uncached s ∧ Quiet s ∧
      servedBy 0x20000 ≠ .mgmt := by
  intro cells hc
  exact ⟨rfl, rfl, rfl, rfl, uncached_of _ rfl rfl rfl, quiet_of _ rfl, by decide⟩
theorem witness_LaunchEvents_header : (listed []).readHome 0x20000 64 = 0 ∧
    (listed [(0x20010, 13)]).readHome 0x20000 64 / 2 ^ 128 % 2 ^ 5 = 13 ∧
    (let s := listed [(0x7, 0x80), (0x20000, 1)]
     s.readHome 0x20000 64 = 1 ∧ s.haltUp 0 = false ∧ servedBy 0 ≠ .mgmt ∧ s.readHome 0 64 = 2 ^ 63 ∧
      blockOf (s.readHome 0x20040 64) = ⟨0, 0, 0, 0, 0, 0, 0, 0⟩ ∧ verdict ⟨0, 0, 0, 0, 0, 0, 0, 0⟩ = none ∧
      ∀ i, i < 8 → s.dead (0x20008 + i) = false ∧ s.cut 0 (0x20008 + i) = false) := by decide +kernel
/-- A block of 2,049 harts, rejected as too large, and one with its completion word misaligned. -/
theorem witness_LaunchEvents_rejected : verdict ⟨0x4000, 0, 2049, 0, 0, 0, 0, 0⟩ = some 3 ∧ verdict ⟨0x4000, 0, 2048, 0, 0, 0, 0, 0⟩ = none ∧
    verdict ⟨0x4000, 0, 0x1000000600, 0, 0, 0, 0, 0⟩ = some 4 ∧ verdict ⟨0x4000, 0, 1, 0, 0, 4, 0, 0⟩ = some 5 := by decide +kernel
def alone (s : State) : Prop := Uncached s ∧ Quiet s
def waitingGang (co sp : Bool) : Gang :=
  { id := 0, die := 0, order := 0, ent := {},
    blk := ⟨0x4000, 0, (if co then 0x1000000001 else 1) + (if sp then 0x2000000000 else 0), 0, 0, 0, 0, 0⟩ }
theorem witness_LaunchEvents_start : ∀ co sp : Bool, let g := waitingGang co sp
    let s : State := { gangs := [g] }
    alone s ∧ DependenceMet s g true ∧ s.gangs = [g] ∧ g.die = 0 ∧ g.affected = false ∧ g.harts.length < blockSize g.blk ∧
      blockSp g.blk = sp ∧ blockCo g.blk = co ∧ g.harts = [] ∧ g.chosen = false ∧ ([1] : List Nat).length = blockSize g.blk ∧
      ([1] : List Nat).Pairwise (· < ·) ∧ (∀ h ∈ ([1] : List Nat), s.slotFree h = true ∧ reaches g.blk h = true) ∧
      ([1] : List Nat).Pairwise fun i j => coreOf i ≠ coreOf j := by
  intro co sp
  exact ⟨⟨uncached_of _ rfl rfl rfl, quiet_of _ rfl⟩, .inl ⟨rfl, rfl⟩, by revert co sp; decide +kernel⟩
/-- A dependence that has not reached its value, and one that faults. -/
def dependent (dep dval : Word) : Gang := { waitingGang true false with blk := ⟨0x4000, 0, 0x1000000001, dep, dval, 0, 0, 0⟩, ent := { sv := true } }
theorem witness_LaunchEvents_dependence : let g := dependent 0x2000 1
    let s : State := { gangs := [g] }
    alone s ∧ DependenceMet s g false ∧ g.chosen = false ∧ g.harts.length < blockSize g.blk := by
  refine ⟨⟨uncached_of _ rfl rfl rfl, quiet_of _ rfl⟩, .inr ⟨by decide, at_ 0x2000, ?_⟩, by decide, by decide⟩
  decide +kernel
theorem witness_LaunchEvents_dependenceFault : let g := dependent 0x1000000000000000 1
    let s : State := { gangs := [g] }
    alone s ∧ g.blk.w3 ≠ 0 ∧ s.gangTrans g g.blk.w3 .load = none ∧ g.chosen = false ∧ g.trial = none ∧ g.harts.length < blockSize g.blk :=
  ⟨⟨uncached_of _ rfl rfl rfl, quiet_of _ rfl⟩, by decide +kernel⟩
/-- A reserving gang of die 1 that may use core 0 only, so that slot 1 is held and slot 5 is not. -/
theorem witness_LaunchEvents_reserved :
    let r : Gang := { waitingGang true true with id := 1, die := 1, chosen := true }
    let g := waitingGang false false
    let s : State := { gangs := [r, g] }
    alone s ∧ Reserved s r 1 ∧ ¬ Reserved s r 2 ∧ r.id ≠ g.id ∧ r.die ≠ 0 ∧ blockCo r.blk = true ∧ r.chosen = true ∧ r.harts = [] ∧ 0 < blockSize r.blk ∧
      r.affected = false ∧ g.affected = false ∧ g.blk.w3 = 0 ∧ blockCo g.blk = false ∧ g.harts.length < blockSize g.blk ∧
      blockSp g.blk = false ∧ (∀ h ∈ [1, 2], s.slotFree h = true ∧ reaches g.blk h = true) := by
  refine ⟨⟨uncached_of _ rfl rfl rfl, quiet_of _ rfl⟩, ⟨by decide +kernel, by decide +kernel, ?_⟩, ?_, by decide +kernel⟩
  · intro _ j h1 h2
    obtain rfl : j = 0 := by omega
    decide +kernel
  · intro h
    exact absurd (h.2.2 (by decide) 1 (by decide) (by decide)) (by decide +kernel)
/-- A gang of no harts; one whose hart has halted, with a completion word and without; one of a halted tenant. -/
theorem witness_LaunchEvents_empty : let g : Gang := { waitingGang true false with blk := ⟨0x4000, 0, 0, 0, 0, 0, 0, 0⟩ }
    let s : State := { gangs := [g] }
    alone s ∧ g.affected = false ∧ blockSize g.blk = 0 ∧ g.harts = [] ∧ g.chosen = false ∧ DependenceMet s g true :=
  ⟨⟨uncached_of _ rfl rfl rfl, quiet_of _ rfl⟩, by decide, by decide, by decide, by decide, .inl ⟨rfl, rfl⟩⟩
theorem witness_LaunchEvents_over : ∀ cpl ∈ [(0 : Nat), 0x1000],
    let g : Gang := { gang 1 with blk := ⟨0x4000, 0, 0x1000000001, 0, 0, BitVec.ofNat 64 cpl, 0, 0⟩, ent := { sv := true }, ended := 1 }
    let s : State := { gangs := [g] }
    alone s ∧ s.gangOf g.id = some g ∧ s.gangOver g = true ∧ g.trial = none ∧ (g.blk.w5 = 0 ↔ cpl = 0) ∧
      (cpl ≠ 0 → s.gangTrans g g.blk.w5 .store = some (at_ 0x1000)) ∧ servedBy 0x1000 ≠ .mgmt ∧ leafC (at_ 0x1000).leaf = 0 ∧
      ∀ i, i < 8 → s.dead (0x1000 + i) = false ∧ s.cut g.die (0x1000 + i) = false := by
  intro cpl h
  exact ⟨⟨uncached_of _ rfl rfl rfl, quiet_of _ rfl⟩, by revert cpl; decide +kernel⟩
theorem witness_LaunchEvents_halted : let g : Gang := { waitingGang true false with affected := true }
    let s : State := { gangs := [g], halts := [(0, ⟨0, 0x1A, 0, []⟩)] }
    alone s ∧ s.gangs = [g] ∧ g.affected = true ∧ g.trial = none ∧ g.blk.w2.toNat / 2 ^ 40 % 2 ^ 12 = 0 ∧
      Tab.find s.halts 0 = some ⟨0, 0x1A, 0, []⟩ ∧ (∀ h, (s.hart h).started = false) ∧ Tab.find s.stopBase 0 = none :=
  ⟨⟨uncached_of _ rfl rfl rfl, quiet_of _ rfl⟩, rfl, rfl, rfl, by decide, rfl, fun _ => rfl, rfl⟩
/-- The same with room for the stop records, every engine stopped. -/
theorem witness_LaunchEvents_recorded : ∀ e, e < 1702 → e ∈ List.range 1702 := fun _ h => List.mem_range.mpr h

/-- A copy of five bytes from 0x1000 to 0x2000, not started, and running with the last byte to land. -/
def copy (run : Bool) : Copy :=
  { id := 1, hart := 0, tenant := 0, dst := 0x2000, src := 0x1000, n := 5, od := .row, os := .row, link := none,
    dstSegs := [⟨0x2000, 5, 0⟩], srcSegs := [⟨0x1000, 5, 0⟩], running := run, data := if run then [1, 2, 3, 4, 5] else [],
    landed := if run then 4 else 0 }
def engined (run : Bool) : State := { base with clusters := [(0, { copies := [copy run] })] }
theorem witness_EngineEvents : ∀ run : Bool, let s := engined run
    let c := copy run
    (s.cluster 0).copies = c :: [] ∧ s.haltUp c.tenant = false ∧ c.running = run ∧ (∀ g ∈ c.srcSegs, g.mode = 0) ∧
      c.link = none ∧ c.dstSegs = [⟨0x2000, c.n, 0⟩] ∧ (run = true → c.data.length = c.n) ∧ c.landed < c.n ∧
      (∀ i, i < c.n → (s.dead (0x2000 + i) = false ∧ s.cut (clusterDie 0) (0x2000 + i) = false) ∧ servedBy (0x2000 + i) ≠ .mgmt) ∧
      (∀ y ∈ ([] : List Copy), y.id ≠ c.id) := by decide +kernel
theorem witness_EngineEvents_uncached : Uncached (engined true) ∧ Quiet (engined true) := by
  refine ⟨⟨⟨rfl, fun k => ?_⟩, fun k => ?_⟩, quiet_of _ rfl⟩ <;>
    (simp only [State.cluster, engined, Tab.get, Tab.find]; by_cases h : k = 0 <;> simp [h] <;> rfl)
def atomicReq : AtomicReq :=
  { hart := 0, row := none, va := 0x1000, pa := 0x1000, op := .add, ty := .s64, scope := .sys, a := 5, b := 0, fpctl := 0,
    tenant := 0, order := 0, issuedAt := 0 }
theorem witness_AtomicEvents_arrival : let s := waiting .none (.amoAdd .s64 .sys 2 1 4)
    let u : State := { (s.wordAt 0).2 with cur := 0 }
    s.runs 0 = true ∧ (s.hart 0).drained = true ∧ (s.hart 0).wait = .none ∧
      (s.hart 0).midWord = false ∧ (s.wordAt 0).1 = some (amoInstr .add .s64 .sys 2 1 4) ∧ u.me.reply = none ∧ u.amoQueued 0 = false ∧
      u.check 0 (u.readX 1) 8 .row .both 0 u.me.sup = (.ok (at_ 0x1000), u) ∧ servedBy 0x1000 ≠ .mgmt ∧
      u.watchHits 0 (u.readX 1) 8 true true = 0 ∧ u.conflicts 0 (spanOf (u.readX 1) 8) (spanOf (u.readX 1) 8) = [] ∧
      u.emissionMeets 0 0x1000 8 = false ∧
      ((u.cluster (engineFor 0 0x1000 .sys)).atomics.filter fun r => coreOf r.hart == coreOf 0).length < 8 := by decide +kernel
/-- A run at a vamo at address 0x1000. -/
def rowAdd : Instr := .vamo plain .add .sys .s64 4 ⟨2, false⟩ ⟨3, false⟩ ⟨0, false⟩
def addRun : Run := { run0 0 1 0x28 with words := [(0x4000, ((encode rowAdd).map (·.2)).get!)] }
theorem witness_AtomicEvents_row : let s := running0 addRun [(2, 0x1000)] []
    let u : State := { s.updHart 0 (fun x => { x with wait := .none }) with cur := 0 }
    s.runs 0 = true ∧ (s.hart 0).midWord = false ∧ (s.hart 0).run = some addRun ∧ addRun.ready.contains addRun.cur = true ∧
      addRun.wordAt addRun.row.pc = some rowAdd ∧ addRun.row.amo = .idle ∧
      (convoyConflict [] (rowAdd :: addRun.followers 7 (addRun.row.pc + 8)) 0).isNone = true ∧
      RowReady u addRun plain [amoRowTy .s64, .z64] none ∧
      RowFinds u (BitVec.ofNat 64 (row u.me 2 64 addRun.cur)) 8 .row .both 0 true true (at_ 0x1000) ∧
      ((s.cluster (engineFor 0 0x1000 .sys)).atomics.filter fun q => coreOf q.hart == coreOf 0).length < 8 := by
  intro s u
  refine ⟨by decide, by decide, by decide, by decide +kernel, by decide +kernel, by decide, by decide +kernel,
    ⟨by decide, fun q h => by simp [plain] at h, by decide, by decide, fun q h => by cases h⟩,
    ⟨⟨u, ?_⟩, by decide, by decide, ?_, by decide⟩, ?_⟩ <;> decide +kernel
/-- The request of the row waits at the engine of address 0x1000; it is served; the row takes the old value. -/
def requested : State :=
  match execAtomicRequestArrival 0 (running0 addRun [(2, 0x1000)] []) with
  | .next t => t
  | _ => base
theorem test_row_request : (requested.cluster 1).atomics.map (·.row) = [some 0] ∧
    (requested.hart 0).run.map (·.row.amo) = some (.waiting 0x1000) ∧
    ((requested.serveOne 1).cluster 1).atomics = [] ∧
    ((requested.serveOne 1).hart 0).run.map (·.row.amo) = some (.served 0x1000 0 0) := by decide +kernel
theorem witness_AtomicEvents_service : let s : State := { base with clusters := [(1, { atomics := [atomicReq] })] }
    (s.cluster 1).atomics = atomicReq :: [] ∧ s.haltUp atomicReq.tenant = false ∧ atomicReq.ty.isInt = true ∧ atomicReq.op ≠ .fadd ∧
      Uncached s ∧ atomicReq.pa % 8 = 0 ∧ servedBy atomicReq.pa ≠ .mgmt ∧
      (∀ i, i < 8 → s.dead (0x1000 + i) = false ∧ s.cut 0 (0x1000 + i) = false) ∧
      ∀ b, b / 64 = 0x1000 / 64 → s.homePoison 0 b = false := by
  refine ⟨by decide, by decide, by decide, by decide, ⟨⟨rfl, fun k => ?_⟩, fun k => ?_⟩, by decide, by decide, by decide +kernel, fun b h => ?_⟩
  iterate 2
    · simp only [State.cluster, Tab.get, Tab.find]
      by_cases h : k = 1 <;> simp [h] <;> rfl
  · obtain ⟨j, hj, rfl⟩ : ∃ j, j < 64 ∧ b = 4096 + j := ⟨b - 4096, by omega, by omega⟩
    exact (by decide +kernel : ∀ j, j < 64 → ({ base with clusters := [(1, { atomics := [atomicReq] })] } : State).homePoison 0 (4096 + j) = false) j hj
/-- A dirty line that has been so for 1,048,576 cycles, at its home die and at another. -/
def aged : State :=
  { base with now := 1048576, clusters := [(0, { lines := [{ key := .row 64, dirty := 1 }] }), (12, { lines := [{ key := .row 64, dirty := 1 }] })] }
theorem witness_CacheEvents : (cacheable ((LineKey.row 64).byteAt 0) = true ∧ (base.cluster 0).lines.any (fun l => l.key == .row 64) = false ∧
      0 / 8 = 0) ∧
    (∀ k ∈ [0, 12], aged.lineAt k (.row 64) = some { key := .row 64, dirty := 1 } ∧ 0 + 1048576 ≤ aged.now) ∧
    LineKeyHome (.row 64) ≠ clusterDie 12 ∧
    (let s : State := { base with drains := [⟨0, [(0x1020, 8)], [], []⟩, ⟨0, [(0x1000, 7)], [], []⟩] }
     s.drains[1]? = some ⟨0, [(0x1000, 7)], [], []⟩ ∧ 0x1020 / 32 ≠ 0x1000 / 32 ∧ ([0x1000] : List Nat).Nodup ∧ s.dead 0x1000 = false ∧
       s.cut (clusterDie 0) 0x1000 = false ∧ ∀ e ∈ s.drains, e.cells ≠ []) ∧
    ((∀ q ∈ aged.dcacheKeys 0, (aged.cluster 0).lines.any (fun l => l.key == q) = true) ∧
      ∀ l ∈ (aged.cluster 0).atomLines, l.key.isCol = false) := by
  decide +kernel
/-- R277: eight bytes on their way and four newer dirty ones of their sector are home together once another cluster's drain of the
line is accepted. -/
theorem test_sector_lands : let s : State := { base with
      drains := [⟨0, (List.range 8).map fun i => (0x1000 + i, 1), [], []⟩, ⟨1, [(0x1010, 9)], [], []⟩],
      clusters := [(0, { lines := [{ key := .row 64, dirty := 15 }], bytes := (List.range 4).map fun i => (0x1000 + i, 2) })] }
    (s.acceptDrain 1).readHome 0x1000 8 = 0x0101010102020202 ∧ Memory.read (s.acceptDrain 1).mem 0x1010 = 9 ∧ (s.acceptDrain 1).drains = [] := by
  decide +kernel
/-- An empty way for every class of a fill; and a set of sixteen lines, of which the first was used longest ago. -/
theorem witness_CacheEvents_way : ∀ cls, ((base.cluster 0).placeFor (.row 64) cls).2 = none := by
  intro cls
  have h : (base.cluster 0).lines = [] := rfl
  simp only [Cluster.placeFor, h, List.filter_nil, List.all_nil]
  split
  · rfl
  · simp [oldestLine]
def crammed : Cluster :=
  { lines := (List.range 16).map fun w => { key := .row (64 + 8192 * (w + 1)), way := w, usedAt := w } }
theorem witness_CacheEvents_full : let v : Line := { key := .row (64 + 8192), way := 0, usedAt := 0 }
    crammed.rangeOf ((LineKey.row 64).byteAt 0) = none ∧ crammed.lines.any (fun l => l.key == .row 64) = false ∧
      LeastRecent crammed (.row 64) v := by
  refine ⟨by decide +kernel, by decide +kernel, ?_, by decide +kernel, by decide +kernel, by decide +kernel⟩
  have h : crammed.wayStart 8 = 0 := by decide +kernel
  rw [h]
  intro w _ hw
  revert w
  decide +kernel
/-- The dirty byte of a line in a general way, and of one in a reserved way. -/
theorem witness_CacheEvents_drain : DirtyIn aged 0 (.row 64) 0x1000 ∧ aged.dirtyByte 0 0x1000 = true ∧
    (∀ l ∈ (aged.cluster 0).lines, l.key = .row 64 → (aged.cluster 0).wayStart 8 ≤ l.way) ∧
    (let c : Cluster := { lines := [{ key := .row 64, dirty := 1 }], resb := [(0, 0x8000000000000000)], resc := [(0, 0x1000000000000000)] }
     ∀ l ∈ c.lines, l.key = .row 64 → l.way < c.wayStart 8) ∧
    (aged.cluster 0).touchedBy 0 0x1000 = false := by
  refine ⟨⟨{ key := .row 64, dirty := 1 }, by decide +kernel, rfl, 0, by decide +kernel, by decide +kernel⟩, by decide +kernel, ?_⟩
  decide +kernel
theorem witness_CacheEvents_walk : tbaseEn (paged.hart 0).tbase = true ∧
    paged.walk (dieOf 0) (tbaseRoot (paged.hart 0).tbase) (0x10000 % 2 ^ 57) = .ok (0x3007F, 4) ∧
    leafRefuses 0x3007F 4 (0x10000 % 2 ^ 57) (dieOf 0) (!(paged.hart 0).sup) .load 0 = none := by decide +kernel
theorem witness_MemoryEvents : ((LineKey.col 1 1 0 0).isCol = true ∧ cacheable ((LineKey.col 1 1 0 0).byteAt 0) = true) ∧
    (mscPlace (2048 * 2) = some (0, 2) ∧ (base.stack 0).msc = []) ∧ Quiet base ∧ servedBy 0x1000 = .stack 0 ∧ channelOf 0x1000 = 2 :=
  ⟨by decide, by decide, quiet_of _ rfl, by decide, by decide⟩
/-- A full set, whose last line was used longest ago. -/
theorem witness_MemoryEvents_full :
    let l := (List.range 16).map fun i => (⟨2 + 2048 * (16 - i), 1, 0, 16 - i⟩ : MscLine)
    let s : State := { baseDies := [(0, { msc := l })] }
    mscPlace (2048 * 2) = some (0, 2) ∧ mscFind (s.stack 0).msc 2 = none ∧
      ((s.stack 0).msc.filter fun (e : MscLine) => Machine.setOf e.line == Machine.setOf 2).length = 16 ∧
      ((s.stack 0).msc.filter fun (e : MscLine) => Machine.setOf e.line == Machine.setOf 2).getLast? = some ⟨2 + 2048, 1, 0, 1⟩ := by
  decide +kernel
/-- A byte of an expander, if the device has a byte (log 12). -/
theorem witness_MemoryEvents_cxl (h : 0 < Config.cxlBytes 0) : Quiet base ∧ servedBy 0x1000000000000 = .cxl 0 :=
  ⟨quiet_of _ rfl, by simp [servedBy, h]⟩
/-- A page of an expander, if the device holds one (log 12), just hot enough, with a frame for it in the ring. -/
def hotPage : State :=
  { paged with mem := [(0x10000, 0x01), (0x10002, 0x01), (0x10008, 0x3F), (0x1000E, 0x01)], dies := [(0, { frames := [0x40000] })] }
theorem witness_PageEvents (h : 0 < Config.cxlBytes 0) : Memory.wf hotPage.mem = true ∧ Uncached hotPage ∧ Quiet hotPage ∧
    hotPage.rangeLeaf 0 0x10000 = .ok ⟨0x10000, 0x1000000000000, 65536, 0x100000000003F, 4, some 0x10008⟩ ∧
    0x1000000000000 = 0x1000000000000 / 65536 * 65536 ∧ servedBy 0x1000000000000 = .cxl 0 ∧ (hotPage.die 0).abandoned = [] ∧
    (hotPage.die 0).threshold ≤ Tab.get 0 (hotPage.die 0).hot (0x1000000000000 / 65536) ∧ leafP 0x100000000003F = false ∧
    leafH 0x100000000003F = false ∧ leafM 0x100000000003F = false ∧ leafC 0x100000000003F = 0 ∧
    hotPage.bufferedIn 0x1000000000000 = false ∧ hotPage.accessedIn 0x1000000000000 = false ∧
    (hotPage.die 0).frames = 0x40000 :: [] ∧ 0x40000 % 65536 = 0 ∧ 0x10008 % 8 = 0 ∧ 0x10008 / 65536 ≠ 0x40000 / 65536 ∧
    ∀ i, i < 8 → hotPage.dead (0x10008 + i) = false ∧ hotPage.cut (homeDie 0x10008) (0x10008 + i) = false := by
  refine ⟨by decide, uncached_of _ rfl rfl rfl, quiet_of _ rfl, by decide +kernel, by decide, by simp [servedBy, h], ?_⟩
  decide +kernel
/-- The ring empty, and a promoted page to go back that buffered elements hold: not given up yet, and given up. -/
def coldPage (gone : List Nat) : State :=
  { hotPage with mem := hotPage.mem ++ [(0x50008, 0x3F), (0x5000A, 0x06)],
                 harts := [(0, { hart0 with tbase := 0x10001, buffer := [{ elems := [{ elem0 with pa := 0x60000 }] }] })],
                 dies := [(0, { promoted := [{ entry := 0x50008, va := 0x20000, cxl := 0x1000000010000, frame := 0x60000 }], abandoned := gone })] }
theorem witness_PageEvents_back (h : 0 < Config.cxlBytes 0) : ∀ gone ∈ [([] : List Nat), [0x60000]], let s := coldPage gone
    s.rangeLeaf 0 0x10000 = .ok ⟨0x10000, 0x1000000000000, 65536, 0x100000000003F, 4, some 0x10008⟩ ∧
      servedBy 0x1000000000000 = .cxl 0 ∧ 0x1000000000000 ∉ (s.die 0).abandoned ∧ s.bufferedIn 0x1000000000000 = false ∧
      s.accessedIn 0x1000000000000 = false ∧ (s.die 0).frames = [] ∧ (s.die 0).promoted = [⟨0x50008, 0x20000, 0x1000000010000, 0x60000, 0⟩] ∧
      leafPage (s.readHome 0x50008 8) = 0x60000 ∧ leafMoves (s.readHome 0x50008 8) = true ∧ s.bufferedIn 0x60000 = true := by
  intro gone hg
  refine ⟨?_, by simp [servedBy, h], ?_⟩ <;> revert gone <;> decide +kernel
theorem witness_PageEvents_abandon :
    let s : State := { buffered [{ elems := [elem0] }] with now := 65536, dies := [(0, { waiting := [(0, 0)] })] }
    Tab.find (s.die 0).waiting (frameOf 0x1234) = some 0 ∧ 0 + 65536 ≤ s.now ∧ s.bufferedIn (frameOf 0x1234) = true := by
  decide +kernel
/-- A queue pair in a space whose page takes messages. -/
def peered : State :=
  { base with mem := [(0x10000, 0x01), (0x10002, 0x01), (0x10008, 0x3F), (0x10009, 0x10), (0x1000A, 0x03)],
              qps := [(0, { setUp := true, tbase := 0x10001 })] }
theorem witness_HostEvents : Uncached peered ∧ hostMay 0x1000 2 = true ∧ (Tab.get ({} : LinkState) peered.cenel 0).fenced = false ∧
    (∀ i, i < 2 → peered.dead (0x1000 + i) = false ∧ peered.cut 0 (0x1000 + i) = false) ∧
    (Tab.get ({} : QueuePair) peered.qps 0).setUp = true ∧ (Tab.get ({} : EthPort) peered.eth 0).link.fenced = false ∧
    peered.haltUp 0 = false ∧ peered.rdmaCells 0 (Tab.get {} peered.qps 0) 0x10000 [7, 8] = some [(0x30000, 7), (0x30001, 8)] ∧
    ([0x30000, 0x30001] : List Nat).Nodup ∧
    ∀ a ∈ [0x30000, 0x30001], peered.dead a = false ∧ peered.cut 0 a = false :=
  ⟨uncached_of _ rfl rfl rfl, by decide +kernel⟩
/-- An address that nothing serves. -/
theorem witness_HostEvents_unserved : Uncached base ∧ hostMay 0x8000000000 8 = false := ⟨uncached_base, by decide +kernel⟩
def halting : State := { base with halts := [(0, ⟨0, 0x1A, 0, []⟩)], stopBase := [(0, 0x100000)] }
theorem witness_HaltEvents : base.haltUp 0 = false ∧ Tab.find halting.halts 0 = some ⟨0, 0x1A, 0, []⟩ ∧ halting.haltUp 0 = true ∧
    (halting.hart 0).started = true ∧ (halting.hart 0).halted = false ∧ (halting.hart 0).tenant.toNat = 0 ∧
    Tab.find halting.stopBase 0 = some 0x100000 ∧ 1536 + 3 * 47 ∉ ([] : List Nat) ∧
    ∀ i, i < 256 → halting.dead (0x100000 + i) = false ∧ halting.cut (dieOf 0) (0x100000 + i) = false := by decide +kernel
/-- Engines with nothing to stop: a hart that has not started, a copy engine, a memory-side cache, a Cenel port. -/
theorem witness_HaltEvents_idle : ∀ e ∈ [5, 1536, 1680, 1701],
    ((1680 ≤ e ∧ e < 1688) ∨ 1692 ≤ e ∨ ((halting.hart e).started = false ∧ e < 1536) ∨
      (e = 1536 + 3 * 0 ∧ (halting.cluster 0).copies = [])) ∧
    ∀ i, i < 256 → halting.dead (0x100000 + 256 * e + i) = false ∧ halting.cut (sourceDie e) (0x100000 + 256 * e + i) = false := by
  decide +kernel
theorem witness_BringUpEvents : State.reset.supervisor = false ∧ ((State.reset.die 3).held = false) := by decide
/-- A record whose stream has room, and one whose lossless stream has none. -/
theorem witness_TimeEvents : (∀ n ∈ [(0 : Nat), 32], let r : Machine.Reserved := ⟨⟨0, 0, 0x0201, false, 0, 0, 0, 0⟩, 0, [0]⟩
      let s : State := { base with dies := [(0, { reserve := [r] })], streams := [(0, { sctl := 0xE0000000FFFF0005, written := n, sbase := 0x2000 })] }
      (s.die 0).reserve = r :: [] ∧ (s.roomInAll r.rcd (s.wants r) = true ↔ n = 0) ∧ s.haltUp r.rcd.tenant = false) ∧
    (({ base with ctbase := 1, counters := [(1, 7)] } : State).ctbase.getLsbD 0 = true ∧ (Tab.find ([(1, 7)] : Tab Nat) 1).isSome = true ∧
      sweeperOf 1 = 0) ∧ base.ctbase.getLsbD 0 = false := by decide +kernel
/-- Behind a record that is stuck, one of another source with room in its own stream; and one of a halted tenant. -/
def queuedRec (src ten n : Nat) : Machine.Reserved := ⟨⟨0, 0, 0x0201, false, ten, src, 0, 0⟩, src, [n]⟩
def reserved (r : Machine.Reserved) : State :=
  { base with dies := [(0, { reserve := [queuedRec 0 0 0, r] })],
              streams := [(0, { sctl := 0xE0000000FFFF0005, written := 32, sbase := 0x2000 }), (1, { sctl := 0xE0000000FFFF0005, sbase := 0x3000 })],
              halts := [(7, ⟨0, 0x1A, 0, []⟩)] }
theorem witness_TimeEvents_behind : ∀ r ∈ [queuedRec 1 0 1, queuedRec 0 7 0], let s := reserved r
    (s.die 0).reserve = [queuedRec 0 0 0] ++ r :: [] ∧ MayLeave s [queuedRec 0 0 0] r ∧ ¬ MayLeave s [] (queuedRec 0 0 0) := by
  intro r hr
  refine ⟨rfl, ?_, ?_⟩ <;> (simp only [MayLeave]; revert r; decide +kernel)
/-- A record of a hart that has become a stream's consumer leaves, though an older one of its own waits. -/
theorem witness_TimeEvents_consumer :
    let s : State := { reserved (queuedRec 5 0 0) with
      streams := [(0, { sctl := 0xF0050000FFFF0005, written := 32, sbase := 0x2000 })] }
    MayLeave s [queuedRec 5 0 0] (queuedRec 5 0 0) := by
  exact .inr (.inl ⟨by decide, 0, by decide, by decide +kernel⟩)
/-- A message that arrives at the time port of a locked die, from a grandmaster. -/
theorem witness_TimeEvents_message :
    let s : State := { base with dies := [(0, { locked := true })], eth := [(0, { grandmaster := true })] }
    0 = s.timePort ∧ (Tab.get {} s.eth 0).grandmaster = true ∧ (s.die 0).locked = true ∧ (s.die 1).locked = false ∧
      (Tab.get {} base.eth 1).grandmaster = true ∧ |(-3 : Int)| ≤ (5625 : Nat) / 1875 := by decide +kernel
theorem witness_JournalEvents_truncs : (∀ x ∈ [JItem.trunc 0], ∃ v, x = .trunc v) ∧
    ∀ x ∈ [JItem.trunc 0, .copies 0 0], (∃ v, x = JItem.trunc v) ∨ ∃ lo hi, hi ≤ lo ∧ x = JItem.copies lo hi := by simp
theorem witness_JournalEvents : base.haltUp 0 = false ∧ (Tab.get ({} : EthPort) base.eth 0).link.fenced = false ∧ Quiet base ∧
    (let j : Journal := { en := true, state := 1, peer := 0x8000000000000000, next := 1, queue := [.trunc 0, .entry 0] }
     j.sends = true ∧ j.queue = [.trunc 0] ++ .entry j.ack.toNat :: [] ∧  j.ack.toNat + 1 < 2 ^ 64 ∧ j.state = 1 ∧ j.peer.getLsbD 63 = true ∧
       ({ j with queue := [] } : Journal).sends = true) ∧
    (∀ n ∈ [(1 : Nat), 2], ∀ q ∈ [[JItem.trunc 0, .copies 0 0, .entry 0], [.copies 0 1, .entry 1]],
      let j : Journal := { en := true, state := 3, before := 1, next := BitVec.ofNat 64 n, newQueue := q }
      j.state = 3 ∧ j.en = true ∧ j.newAck.toNat ≤ 0 ∧ (j.next.toNat ≤ 0 + 1 ↔ n = 1) ∧ (j.newQueue = [.trunc 0, .copies 0 0] ++ .entry 0 :: [] ∨
        0 < 1 ∧ j.newQueue = [] ++ .copies 0 1 :: [.entry 1])) ∧
    (let j : Journal := { ack := 1, held := [⟨0, 0, 0, 0x1000, 0x1000⟩] }
     j.held = ⟨0, 0, 0, 0x1000, 0x1000⟩ :: [] ∧ 0 < j.ack.toNat ∧ (255 < 256) ∧
      ∀ i, i < 16 → (journalled j).dead (0x1000 + i) = false ∧ (journalled j).cut (sourceDie (1688 + j.port)) (0x1000 + i) = false) :=
  ⟨by decide, by decide, quiet_of _ rfl, by decide +kernel⟩

-- Witnesses: the machine as a whole ------------------------------------------------------------------------------------------------

theorem witness_DecodeEncode : Instr.wf (.add .s64 1 2 3) = true ∧ Instr.isEvent (.add .s64 1 2 3) = false ∧ (encode (.add .s64 1 2 3)).isSome = true ∧
    decodeTableWord 32 0x2110C00 = some (.add .s64 1 2 3) ∧ decodeTableWord 64 (0x55 * 2 ^ 56) = some .vstop := by decide +kernel
theorem ready_base : base.poweredDown = false ∧ base.me.started = true ∧ base.me.halted = false ∧ base.myCore.fenced = false ∧
    base.haltUp base.me.tenant.toNat = false ∧ base.takeRequests base.cur = none ∧ base.me.wait ≠ .held ∧
    base.wfeExpired base.cur = false ∧ base.me.run = none ∧ base.me.queue = [] ∧ base.me.midWord = false ∧
    base.reelHeld base.cur = false ∧ base.me.holdUntil ≤ base.now ∧ base.agenda = [] := by
  refine ⟨rfl, rfl, rfl, rfl, rfl, ?_, ?_⟩
  · rw [← Option.isNone_iff_eq_none]; decide +kernel
  · decide +kernel
/-- A word that decodes, one that does not, and a fetch that faults. -/
theorem witness_StepRunsDecoded : base.settleOwes base.cur = base ∧ base.me.heldAhead = false ∧ base.endHold base.cur = base ∧ Ready base ∧ AtWord base ∧ base.agenda = [] ∧
    (base.fetchWord base.cur base.me.pc).1 = .word 0 ∧ decodeControl (BitVec.ofNat 32 0) = none ∧
    ((waiting .none .wfe).wordAt 0).1 = some .wfe ∧
    ((with0 fun h => { h with pc := 0x10000000000000 }).fetchWord 0 0x10000000000000).1 = .fault 1 := by
  obtain ⟨h1, h2, h3, h4, h5, h6, h7, h8, h9, h10, h11, h12, h13, h14⟩ := ready_base
  refine ⟨rfl, rfl, rfl, ⟨h1, h2, h3, h4, h5, h6, h7, h8⟩, ⟨h9, h10, h11, h12, h13⟩, h14, ?_⟩
  decide +kernel
/-- A hart whose issue Reel held, and holds no more. -/
theorem witness_StepRunsDecoded_hold : let s := with0 fun h => { h with heldAhead := true, stall := some (0, 0) }
    let u := (s.settleOwes s.cur).endHold s.cur
    s.agenda = [] ∧ s.me.heldAhead = true ∧ u.settleOwes s.cur = u ∧ u.endHold s.cur = u := by decide +kernel
/-- A hart in the middle of a vrest, one in the middle of an atomic, one whose word is poisoned. -/
def between : List State :=
  [with0 fun h => { h with rest := some ([], []) }, with0 fun h => { h with amo := some (4, .s64) },
   { base with poison := [sectorOf 0x4000] }]
theorem witness_StepRunsDecoded_between : ∀ s ∈ between, s.settleOwes s.cur = s ∧ s.endHold s.cur = s ∧ Ready s ∧ s.agenda = [] ∧
    (s.me.rest.isSome = true ∨ s.me.rest = none ∧ s.me.amo.isSome = true ∨
      s.me.midWord = false ∧ (s.fetchWord s.cur s.me.pc).1 = .poison ∧ s.me.run = none ∧ s.me.queue = [] ∧
        s.reelHeld s.cur = false ∧ s.me.holdUntil ≤ s.now) := by
  intro s hs
  have h : ∀ s ∈ between, (s.takeRequests 0).isNone = true ∧ s.wfeExpired 0 = false := by decide +kernel
  have r := h s hs
  simp only [between, List.mem_cons, List.not_mem_nil, or_false] at hs
  obtain rfl | rfl | rfl := hs
  all_goals refine ⟨rfl, rfl, ⟨rfl, rfl, rfl, rfl, rfl, Option.isNone_iff_eq_none.mp r.1, by decide, r.2⟩, rfl, ?_⟩
  all_goals decide +kernel
/-- A run stands at vstop. -/
theorem witness_StepRunsDecoded_run : let s := running0 (run0 0 1 0x28) [] []
    s.agenda = [] ∧ s.me.midWord = false ∧ s.me.run = some (run0 0 1 0x28) ∧ (run0 0 1 0x28).choose none = 0 ∧
      (run0 0 1 0x28).wordAt (run0 0 1 0x28).row.pc = some .vstop ∧
      (convoyCheck (run0 0 1 0x28) .vstop (s.updMe fun h => { h with run := some (run0 0 1 0x28), wait := .none })).toOption.isSome = true := by
  decide +kernel
/-- A word that takes an entry behind a vf, and one that stands at the head. -/
def behind (e : QEntry) : State := { waiting .none (.vbcast .f32 3 1) with harts := [(0, { hart0 with queue := [e] })] }
theorem witness_StepRunsDecoded_queue : (let s := behind (entry 1)
      s.me.run = none ∧ s.me.queue ≠ [] ∧ s.me.steered = false ∧ s.me.wait = .none ∧ s.me.holdUntil ≤ s.now ∧ s.me.places < 16 ∧
        (s.fetchWord s.cur s.me.pc).1 = .word ((encode (.vbcast .f32 3 1)).map (·.2)).get! ∧
        takesEntry (.vbcast .f32 3 1) = true ∧ s.reelHeld s.cur = false ∧ s.myCore.interlocks.length < 32) ∧
    (let i := Instr.vldx 3 1 ⟨1, 0, .row, .f32⟩
     let s : State := { behind (entry 1) with mem := placed i, cores := [(0, { interlocks := List.replicate 32 ⟨0, 0, .all, .all⟩ })] }
     s.me.run = none ∧ s.me.queue ≠ [] ∧ s.me.steered = false ∧ s.me.wait = .none ∧ s.me.holdUntil ≤ s.now ∧ s.me.places < 16 ∧
        s.reelHeld s.cur = false ∧ (s.fetchWord s.cur s.me.pc).1 = .word ((encode i).map (·.2)).get! ∧ takesEntry i = true ∧
        32 ≤ s.myCore.interlocks.length) ∧
    (let e : QEntry := { issuePc := 0x4000, cap := {}, word := some (.vbcast .f32 3 1) }
     let s := behind e
     s.agenda = [] ∧ s.me.midWord = false ∧ s.me.run = none ∧ s.me.queue = e :: [] ∧ e.word = some (.vbcast .f32 3 1) ∧
       isMark (.vbcast .f32 3 1) = false ∧ e.holds = false ∧
       (match issueWord false (fun x => exec (.vbcast .f32 3 1) (x.disarm (some (.vbcast .f32 3 1)))) (s.updMe fun h =>
          { h with pc := BitVec.ofNat 64 e.issuePc, queue := [], issued := true, issuedAt := e.begun.getD s.now }) with
        | .next _ => true
        | _ => false) = true) := by
  decide +kernel
theorem witness_ResetState : 1535 < 1536 := by decide
theorem witness_StepKeepsMemory : Safety.memOk base = true ∧ ∃ t, step base = .next t := by
  refine ⟨by decide, ?_⟩
  have h : (match step base with
    | .next _ => true
    | _ => false) = true := by decide +kernel
  revert h
  cases step base with
  | next t => exact fun _ => ⟨t, rfl⟩
  | fault _ => simp
  | refused _ => simp
/-- The next word of a hart whose record waits for a stream without room. -/
theorem witness_StepRunsDecoded_stalled :
    let s : State := { behind (entry 1) with
      harts := [(0, { hart0 with queue := [entry 1], owes := [0] })],
      dies := [(0, { reserve := [⟨⟨0, 0, 0x0201, false, 0, 0, 0, 0⟩, 0, [0]⟩] })],
      streams := [(0, { sctl := 0xE0000000FFFF0005, written := 32, sbase := 0x2000 })] }
    s.settleOwes s.cur = s ∧ s.endHold s.cur = s ∧ s.me.run = none ∧ s.me.queue ≠ [] ∧ s.me.steered = false ∧ s.me.wait = .none ∧
      s.me.holdUntil ≤ s.now ∧ s.reelHeld s.cur = true ∧ (s.takeRequests s.cur).isNone = true := by decide +kernel
theorem witness_StepRunsDecoded_ready : ∀ e ∈ [entry 1, { issuePc := 0x4000, cap := {}, word := some (.vbcast .f32 3 1) }],
    (behind e).endHold 0 = behind e ∧ Ready (behind e) := by
  intro e he
  have h : ∀ e ∈ [entry 1, { issuePc := 0x4000, cap := {}, word := some (.vbcast .f32 3 1) }],
      ((behind e).takeRequests 0).isNone = true ∧ (behind e).me.wait ≠ .held ∧ (behind e).wfeExpired 0 = false := by decide +kernel
  exact ⟨rfl, rfl, rfl, rfl, rfl, rfl, Option.isNone_iff_eq_none.mp (h e he).1, (h e he).2.1, (h e he).2.2⟩
theorem witness_FloatConversions :
    (intRange .s32).isSome = true ∧ (intRange .z64).isSome = true ∧ floatOf .f32 = some .f32 ∧ floatOf .bf16 = some .bf16 := by
  decide
theorem witness_RoundingModes : (3 : Nat) ≠ 0 := by decide

-- Words of spec/02 written out field by field, and what they decode to -----------------------------------------------------------

/-- Every word decodes to its instruction, and its instruction to no other. -/
def decodesTo (l : List (Nat × Nat × Instr)) : Bool := l.all fun e => decodeTableWord e.1 e.2.1 == some e.2.2
def refuses (l : List (Nat × Nat)) : Bool := l.all fun e => decodeTableWord e.1 e.2 == none

theorem test_decode_scalar : decodesTo
    [(32, 0b0000001_00001_00010_00011_0010010_010, .sel .s32 1 2 3), (32, 0b0000001_11111_00010_00000_0001110_001, .popc .z64 31 2),
     (32, 0b0000001_00001_00010_00011_0000011_011, .mulh .z32 1 2 3), (32, 0b0000011_00101_00110_100000000000000, .andi 5 6 0x4000),
     (32, 0b0001000_00101_00110_000000000_111111, .srai 5 6 63), (32, 0b0001010_00101_10000000000000000000, .lhi 5 0x80000),
     (32, 0b0001011_00101_00000000000000000001, .pcrel 5 1)] = true := by decide +kernel
theorem test_decode_branches : decodesTo
    [(32, 0b0010000_00001_00010_111111111111110, .beq 1 2 0x7FFE), (32, 0b0010011_00001_00010_000000000000001, .bge 1 2 1),
     (32, 0b0001101_00001_00010_000000000000100, .jr 1 2 4), (32, 0b0001110_00001_00010_000000000000011, .jtab 1 2 3)] = true := by
  decide +kernel
theorem test_decode_memory : decodesTo
    [(32, 0b0011000_00111_01000_111111111000_10_0, .ldS8 7 8 0xFF8 .byp .row), (32, 0b0011110_00111_01000_000000001000_01_0, .ld64 7 8 8 .na),
     (32, 0b0100010_00111_01000_000000000100_00_1, .st32 7 8 4 .none .col), (32, 0b0100011_00111_01000_000000000000_00_0, .st64 7 8 0 .none),
     (32, 0b0100100_00111_01000_10_1111111100_100, .ldAcq 7 8 .b32 0x3FC .pkg), (32, 0b0100101_00111_01000_11_0000000000_001, .stRel 7 8 .b64 0 .core)]
      = true := by decide +kernel
theorem test_decode_float : decodesTo
    [(32, 0b0100110_00001_00010_00011_1100101_001, .fma .f16 .rup 1 2 3), (32, 0b0100110_00001_00010_00000_0000100_000, .fsqrt .f32 .rne 1 2),
     (32, 0b0100110_00001_00010_00011_0001010_010, .fcmpLe .bf16 1 2 3), (32, 0b0100110_00001_00010_00011_1001100_110, .fcvt .z32 .s64 .rdn 1 2),
     (32, 0b0100110_00001_00010_00000_0001101_000, .fclass .f32 1 2)] = true := by decide +kernel
theorem test_decode_registers : decodesTo
    [(32, 0b0101000_00000_01001_000_000000001000, .cset 9 0x008), (32, 0b0101001_00011_01001_000_000000110110, .cswap 3 9 0x036)] = true := by
  decide +kernel
theorem test_decode_order : decodesTo
    [(32, 0b0101010_00000_00000_00000_0000010_101, .fenceSc .sys), (32, 0b0101010_00110_00001_00010_0000101_000, .crange .minS32 1 2),
     (32, 0b0101010_00000_00001_00010_0000111_000, .cinval 1 2), (32, 0b0101010_00000_00001_00010_0000011_000, .seal 1 2),
     (32, 0b0101011_00001_00010_00011_0001101_010, .amoFadd .bf16 .clus 1 2 3)] = true := by decide +kernel
theorem test_decode_engines : decodesTo
    [(32, 0b0101100_00001_00010_00011_0000000_010, .cp .col .row 1 2 3), (32, 0b0101100_00000_00001_00000_0000011_000, .abarArrive 1),
     (32, 0b0101100_00000_00001_00010_0000100_000, .abarWait 1 2), (32, 0b0101101_00000_00000_00000_0000000_000, .gbar),
     (32, 0b0101101_00001_00010_00000_0000001_000, .glaunch 1 2), (32, 0b0101101_00000_00001_00010_0000011_000, .wadd 1 2),
     (32, 0b0101101_00001_00000_00000_0000110_000, .tquiet 1)] = true := by decide +kernel
theorem test_decode_system : decodesTo
    [(32, 0b0101110_00000_00000_00000_0000001_000, .tret), (32, 0b0101110_00000_00000_00000_0000011_000, .wfe),
     (32, 0b0101110_00001_00000_00000_0000100_000, .vown 1), (32, 0b0101110_00000_00001_00000_0000110_000, .vrest 1),
     (32, 0b0101111_00000_00001_00010_0000000_000, .tmark 1 2), (32, 0b0101111_00001_00010_00000_0000100_000, .lcap 1 2),
     (32, 0b0110000_00000_00001_00000_0000000_000, .jput 1), (32, 0b0110000_00000_00001_00010_0000010_000, .emit 1 2),
     (32, 0b0110000_00000_00001_00000_0000100_000, .jreplay 1)] = true := by decide +kernel
theorem test_decode_vector : decodesTo
    [(32, 0b1000000_00001_00010_00000_0000_100_010, .setvl true .w32 1 2), (32, 0b1000010_00000_11111111111111111110, .vf 0xFFFFE),
     (32, 0b1000011_00000_00000000000000000010, .vdrain 2), (32, 0b1000110_00011_00100_00101_0010_010000, .vstMc 3 5 ⟨4, 16, .row, .s16⟩),
     (32, 0b1001000_00011_00100_00101_1100_100000, .vldx 3 5 ⟨4, 0, .col, .e5m2⟩), (32, 0b1001010_00101_00000_00000_0000_0000_1_1, .scommit (some ⟨5, true⟩)),
     (32, 0b1001100_00001_00010_00011_0100_000000, .vmvx .s32 1 2 3)] = true := by decide +kernel
theorem test_decode_lanes : decodesTo
    [(32, 0b1010000_00001_00010_00101_0100_1_0_0101, .vredXor .s32 (some ⟨5, false⟩) 1 2), (32, 0b1010010_00001_00010_00000_1000_0_0_0000, .vmaxidx .f32 none 1 2),
     (32, 0b1010011_00001_00010_00000_1010_0_0_0000, .vscanAdd .f16 none 1 2), (32, 0b1010100_00001_00010_00011_1011_000000, .vperm .e4m3 1 2 3),
     (32, 0b1010110_00001_00010_00011_0000_000000, .vexpand .s8 1 2 3), (32, 0b1010111_00001_00010_00011_0111_000001, .vslideDown .z64 1 2 3),
     (32, 0b1011001_00001_00010_00000_0000_000000, .vpcount 1 2)] = true := by decide +kernel
theorem test_decode_matrix : decodesTo
    [(32, 0b1100000_00000_00001_00000_0000_000000, .menter 1), (32, 0b1100010_00011_00000_00000_0000_000000, .mzero .both),
     (32, 0b1100011_1_001_0_00001_00010_1011_0_000_00, .mop .e4m3 .za .rne (some ⟨0, 1⟩) 1 2),
     (32, 0b1100100_0_000_1_00101_11000_1101_0_000_10, .mtile .q .zb .rdn none 5 3), (32, 0b1100101_00001_00001_00010_1001_1_000_01, .mdrain .col .bf16 .zb .rtz 1 2),
     (32, 0b1100110_00000_00000_00010_1000_0_000_00, .mdrainB .row .f32 .za .rne 2), (32, 0b1101000_00001_00010_00011_1010_1_000_11, .mst .col .f16 .zb .rup 2 3),
     (32, 0b1101011_1_010_0_00000_01000_1001_0_110_00, .mbwdBoth .bf16 .rne (some ⟨6, 2⟩) 0 1)] = true := by decide +kernel
/-- Block words: op, cv, vd, va, ca, vb, cb, vc, cc, pp, ps, pm, type, rm, pe, me, imm. -/
theorem test_decode_block : decodesTo
    [(64, 0b00000110_1_00001_00010_1_00011_1_00100_1_00101_0_00110_1010_011_1_1_000000000000,
        .vfma ⟨true, some ⟨5, false⟩⟩ .f16 .rup 1 ⟨2, true⟩ ⟨3, true⟩ ⟨4, true⟩ (some 6)),
     (64, 0b00011101_0_00001_00000_0_00000_0_00000_0_00000_0_00000_0100_000_0_0_111111111111, .vli ⟨false, none⟩ .s32 1 0xFFF),
     (64, 0b00100000_0_00001_00010_0_00000_0_00000_0_00000_0_00000_1011_001_0_0_000000001000, .vcvt ⟨false, none⟩ .e4m3 .f32 .rtz 1 ⟨2, false⟩ none),
     (64, 0b00101100_0_00001_00010_0_00000_0_00000_0_00000_0_00000_1000_000_0_0_000000000111, .vscale ⟨false, none⟩ .f32 .rne 1 ⟨2, false⟩ 7 none),
     (64, 0b00110000_0_00001_00010_0_00011_0_00000_0_00000_0_00000_0001_000_0_0_000000000101, .vcmp ⟨false, none⟩ .ge .z8 1 ⟨2, false⟩ ⟨3, false⟩),
     (64, 0b00111010_0_00001_00010_0_00011_0_00000_0_00000_0_00000_0000_000_0_0_000000000000, .pxor ⟨false, none⟩ 1 2 3),
     (64, 0b01000111_0_00001_00010_0_00011_0_00100_0_00000_0_00000_1000_000_0_0_000000000000, .vblend false .f32 .rne 1 ⟨2, false⟩ ⟨3, false⟩ 4),
     (64, 0b01010010_0_00001_00010_0_00011_0_00100_0_00000_0_00000_0110_000_0_0_00000_101_1000,
        .vamo ⟨false, none⟩ .cas .sys .s64 1 ⟨2, false⟩ ⟨3, false⟩ ⟨4, false⟩),
     (64, 0b01010011_0_00001_00010_0_00000_0_00000_0_00000_0_00000_0011_000_0_0_000000000010,
        .vdefer ⟨false, none⟩ (some 1) (some ⟨2, false⟩) none none 2),
     (64, 0b01010100_0_00000_00000_0_00000_0_00000_0_00101_1_00000_0000_000_1_0_111111111111, .vfetch ⟨false, some ⟨5, true⟩⟩ 0xFFF)]
      = true := by decide +kernel
/-- R30, R31, R33, R35, R38, R39, R41, R43, R45, R47: what is no instruction. -/
theorem test_refuses : refuses
    [(32, 0), (32, 0xFFFFFFFF), (32, 0b0000001_00001_00010_00011_0010011_000), (32, 0b0000001_00001_00010_00011_0000000_100),
     (32, 0b0000001_00001_00010_00011_0001100_000), (32, 0b0000110_00001_00010_000000001_000000), (32, 0b0011000_00111_01000_000000000000_11_0),
     (32, 0b0011110_00111_01000_000000001000_00_1), (32, 0b0100100_00111_01000_10_0000000000_110), (32, 0b0100110_00001_00010_00011_0000000_011),
     (32, 0b0100110_00001_00010_00011_0100110_000), (32, 0b0100111_01001_00000_000_111111111111), (32, 0b0101010_01000_00001_00010_0000101_000),
     (32, 0b0101011_00001_00010_00011_0000100_000), (32, 0b1000000_00001_00010_00000_0000_000_101), (32, 0b1000100_00011_00100_00101_0111_100000),
     (32, 0b1010000_00001_00010_00000_1000_0_0_0011), (32, 0b1010000_00001_00010_00101_0100_0_0_0000), (32, 0b1100010_00000_00000_00000_0000_000000),
     (32, 0b1100011_1_001_0_00001_00010_1101_0_000_00), (32, 0b1100011_0_001_0_00001_00010_1011_0_000_00), (32, 0b1100100_0_000_1_00101_11001_1101_0_000_10),
     (64, 0), (64, 0b00000001_0_00001_00010_0_00011_0_00000_0_00000_0_00000_0100_001_0_0_000000000000),
     (64, 0b00000001_0_00001_00010_0_00011_0_00000_0_00101_0_00000_0100_000_0_0_000000000000),
     (64, 0b00000100_0_00001_00010_0_00011_0_00000_0_00000_0_00001_0100_000_0_1_000000000000),
     (64, 0b01010000_0_00001_00010_0_00000_0_00000_0_00000_0_00000_0110_001_0_0_000000000000), (64, 0b01010101 * 2 ^ 56 + 1)] = true := by
  decide +kernel

-- A term for each check of WellFormed, which it refuses -----------------------------------------------------------------------------

def illFormed (l : List Instr) : Bool := l.all fun i => !i.wf
theorem test_wf_control : illFormed
    [.cget 1 0xFFF, .cset 1 0x020, .cswap 1 2 0x020, .amoAdd .f32 .sys 1 2 3, .amoFadd .s32 .sys 1 2 3, .amoMin .f16 .sys 1 2 3,
     .amoMax .f32 .sys 1 2 3, .amoAnd .bf16 .sys 1 2 3, .amoOr .f32 .sys 1 2 3, .amoXor .f32 .sys 1 2 3, .amoSwap .f32 .sys 1 2 3,
     .amoCas .f32 .sys 1 2 3, .vld 1 2 ⟨3, 0, .row, .pr⟩, .vst 1 2 ⟨3, 0, .col, .s64⟩, .vstMc 1 2 ⟨3, 0, .col, .q⟩, .vlff 1 ⟨3, 0, .row, .pr⟩,
     .vldx 1 2 ⟨3, 0, .row, .q⟩, .vstx 1 2 ⟨3, 0, .col, .z64⟩, .vmvx .q 1 2 3, .vbcast .pr 1 2, .vredAdd .e4m3 none 1 2,
     .vredMin .e5m2 none 1 2, .vredMax .q none 1 2, .vminidx .e4m3 none 1 2, .vmaxidx .q none 1 2, .vscanAdd .e4m3 none 1 2,
     .vscanMin .q none 1 2, .vscanMax .e5m2 none 1 2, .vredAnd .f32 none 1 2, .vredOr .f32 none 1 2, .vredXor .f32 none 1 2,
     .vscanAnd .f16 none 1 2, .vscanOr .f16 none 1 2, .vscanXor .f16 none 1 2, .vperm .q 1 2 3, .vcompress .pr 1 2 3, .vexpand .q 1 2 3,
     .vslideUp .q 1 2 3, .vslideDown .pr 1 2 3, .mop .s8 .za .rne none 1 2, .mop .q .za .rne (some ⟨0, 1⟩) 1 2, .mtile .s8 .za .rne none 1 2,
     .mdrain .row .q .za .rne 1 2, .mdrainB .row .s8 .za .rne 1, .mld .row .e4m3 .za 1 2, .mst .row .q .za .rne 1 2, .mbwdX .q .rne none 0 1,
     .mbwdW .s8 .rne none 0 1, .mbwdBoth .q .rne none 0 1, .mbwdBoth .f32 .rne none 1 1, .mbwdBoth .f32 .rne none 2 0] = true := by
  decide +kernel
theorem test_wf_block : illFormed
    [.vadd plain .e4m3 .rne 1 ⟨2, false⟩ ⟨3, false⟩ none, .vsub plain .s8 .rtz 1 ⟨2, false⟩ ⟨3, false⟩ none, .vmul plain .q .rne 1 ⟨2, false⟩ ⟨3, false⟩ none,
     .vmac plain .pr .rne 1 ⟨2, false⟩ ⟨3, false⟩ none, .vdiv plain .z8 .rup 1 ⟨2, false⟩ ⟨3, false⟩ none, .vmulh plain .f32 1 ⟨2, false⟩ ⟨3, false⟩,
     .vrem plain .f32 1 ⟨2, false⟩ ⟨3, false⟩ none, .vfma plain .s8 .rne 1 ⟨2, false⟩ ⟨3, false⟩ ⟨4, false⟩ none, .vsqrt plain .s32 .rne 1 ⟨2, false⟩,
     .vmin plain .q 1 ⟨2, false⟩ ⟨3, false⟩, .vmax plain .e4m3 1 ⟨2, false⟩ ⟨3, false⟩, .vabs plain .e4m3 1 ⟨2, false⟩ none, .vneg plain .q 1 ⟨2, false⟩ none,
     .vand plain .f32 1 ⟨2, false⟩ ⟨3, false⟩, .vor plain .f32 1 ⟨2, false⟩ ⟨3, false⟩, .vxor plain .f32 1 ⟨2, false⟩ ⟨3, false⟩, .vnot plain .f32 1 ⟨2, false⟩,
     .vshl plain .f32 1 ⟨2, false⟩ ⟨3, false⟩, .vshr plain .q 1 ⟨2, false⟩ ⟨3, false⟩, .vsra plain .f16 1 ⟨2, false⟩ ⟨3, false⟩, .vpopc plain .f32 1 ⟨2, false⟩,
     .vclz plain .f32 1 ⟨2, false⟩, .vsel plain .q 1 ⟨2, false⟩ ⟨3, false⟩ 4, .vli plain .e4m3 1 5, .vmov plain .pr 1 ⟨2, false⟩,
     .vcvt plain .q .f32 .rne 1 ⟨2, false⟩ none, .vcvt plain .f32 .q .rne 1 ⟨2, false⟩ none, .vclass plain .s8 1 ⟨2, false⟩, .vqpack plain .f32 1 ⟨2, false⟩ none,
     .vqunpack plain .f32 1 ⟨2, false⟩, .vscale plain .s8 .rne 1 ⟨2, false⟩ 0 none, .vscale plain .q .rtz 1 ⟨2, false⟩ 0 none,
     .vcmp plain .eq .q 1 ⟨2, false⟩ ⟨3, false⟩, .psgt plain .s8 1 ⟨2, false⟩ ⟨3, false⟩, .psge plain .e4m3 1 ⟨2, false⟩ ⟨3, false⟩,
     .pslt plain .q 1 ⟨2, false⟩ ⟨3, false⟩, .psle plain .s8 1 ⟨2, false⟩ ⟨3, false⟩, .vblend false .s8 .rne 1 ⟨2, false⟩ ⟨3, false⟩ 4,
     .vbgrad plain .s8 .rne 1 ⟨2, false⟩ ⟨3, false⟩ ⟨4, false⟩, .psgrad plain .e4m3 .rne 1 ⟨2, false⟩ ⟨3, false⟩ ⟨4, false⟩,
     .vlde plain .col .s64 1 ⟨2, false⟩ 0, .vste plain .row .q ⟨1, false⟩ ⟨2, false⟩ 0, .vamo plain .add .sys .f32 1 ⟨2, false⟩ ⟨3, false⟩ ⟨0, false⟩,
     .vamo plain .add .sys .s32 1 ⟨2, false⟩ ⟨3, false⟩ ⟨1, false⟩] = true := by decide +kernel
theorem test_wf_harts : illFormed
    [.vectorQueueEntryStart 1536, .laneGrant 1536, .laneChange 1536, .arrayGrant 1536, .preemptionRequest 1536, .preemptionTaken 1536,
     .preemptionTimeout 1536, .wfeWake 1536, .wfeTimeout 1536, .kwinAccess 1536 .get 1 2, .ptempWrite 1536 0, .cnvalWrite 1536 0,
     .tallowWrite 1536 0, .abarWaitEnd 1536, .gwaitEnd 1536, .interlockWaitEnd 1536, .atomicRequestArrival 1536, .reelStallEnd 1536,
     .jsyncEnd 1536, .translationWalk 1536 0 .load false, .waitingCregAccess 1536 .get 1 2 0x009, .waitingCregAccess 0 .set 1 2 0x020,
     .waveHartStart 0 1536, .gangDispatch 0 [1536], .pageMigration 0 1536 0] = true := by decide +kernel
theorem test_wf_units : illFormed
    [.lcfgWrite 384 0 0, .lcfgWrite 0 4 0, .residencyWrite 48 0x080 0, .residencyWrite 0 0x000 0, .streamEnable 16 0, .streamDisable 16 0,
     .mgmtWindowWrite (.stopBase 4096) 0, .mgmtWindowWrite (.compressionMap 8 0) 0, .mgmtWindowWrite (.trackerThreshold 4) 0,
     .mgmtWindowWrite (.frameRing 4) 0, .mgmtWindowWrite (.queuePair 4 0) 0, .mgmtWindowWrite (.queueSpace 4 0) 0,
     .mgmtWindowWrite (.peerEntry 4 0) 0, .mgmtWindowWrite (.other 0) 0, .energyTick 384, .drainRequest 384, .launchListRead 4,
     .hotPageEpoch 4, .migrationAbandon 4 0, .thermalTrip 4, .powerLimit 4 true, .recordAccept 4, .counterSweep 4, .gangDispatch 4 [],
     .waveHartStart 4 1, .copyRequestStart 48, .copyUnitLand 48 false, .atomicService 48] = true := by decide +kernel
theorem test_wf_lines : illFormed
    [.lineFill 384 (.row 0) none, .lineFill 0 (.row (2 ^ 46)) none, .lineFill 0 (.row 0) (some (.col 0 3 0 0)), .dirtyDrain 48 (.row 0) false,
     .dirtyDrain 0 (.col 0 2 1 0) false, .dirtyAgeDrain 0 (.col 0 2 0 2), .remoteCopyExpiry 0 (.col (2 ^ 40) 1 0 0),
     .columnLineFetch 0 (.col 0 1 64 0), .invalidation 48 0, .invalidation 0 (2 ^ 52), .mscMissFill 8 0 0 none, .mscMissFill 0 0 (2 ^ 32) none,
     .dramUncorrectableError (2 ^ 52) ⟨.lasting, none⟩, .remapSegmentError 8 0, .remapSegmentError 0 384, .cxlPoisonRead 8 0 ⟨.lasting, none⟩,
     .cxlPoisonRead 0 (2 ^ 52) ⟨.lasting, none⟩, .flitCrcError (.dieNet 4) ⟨.lasting, none⟩, .flitCrcError (.cenel 2) ⟨.lasting, none⟩, .flitCrcError (.cxl 8) ⟨.lasting, none⟩]
      = true := by decide +kernel
theorem test_wf_outside : illFormed
    [.pageMigration 4 0 0, .hostRead 2 0 1, .hostRead 0 (2 ^ 52) 1, .hostReadAcquire 2 0 1, .hostWrite 2 0 [], .hostWriteRelease 0 (2 ^ 52) [],
     .rdmaWrite 4 0 0 [], .rdmaWriteWithImmediate 4 0 0 [] 0, .haltRegisterRaise 4096, .haltRegisterLower 4096, .engineHaltStop 1702 0,
     .engineHaltStop 0 4096, .moduleReset [true], .supervisorStart 0 [0] 0, .grandmasterLoss 4, .timePortSelect 4, .ieee1588EventMessage 4 true 0,
     .ethernetFrameError 4 ⟨.lasting, none⟩, .ethernetFrameError 0 ⟨.lasting, some 4096⟩, .journalAck 256 false, .emissionRecordWrite 256, .partnerLost 256, .newPartnerUnreachable 256] = true := by
  decide +kernel

-- One step of an instruction, against a value worked out from its rule ------------------------------------------------------------

def does (i : Instr) (s : State) (p : State → Bool) : Bool :=
  match exec i s with
  | .next t => p t
  | _ => false
def regs (a b : Word) : State := with0 fun h => { h with x := [(1, a), (2, b), (3, 7)] }
/-- The word leaves v in x4 and raises exactly the flags fl. -/
def gives (i : Instr) (a b v : Word) (fl : Flags := 0) : Bool :=
  does i (regs a b) fun t => t.readX 4 == v && t.me.fpflags == fl && t.me.pc == 0x4004
/-- The word takes a trap with a cause and a value. -/
def traps (i : Instr) (s : State) (cause : Nat) (value : Word) : Bool :=
  does i s fun t => t.me.pc == 0x8000 && t.me.tcause.toNat % 256 == cause && t.me.tval == value && t.me.tpc == s.me.pc

-- R151 to R155
theorem test_add_wraps_z32 : gives (.add .z32 4 1 2) 0xFFFFFFFF 1 0 = true := by decide +kernel
theorem test_add_x0 : does (.add .s64 0 1 2) (regs 5 6) (fun t => t.readX 0 == 0 && t.me.pc == 0x4004) = true := by decide +kernel
theorem test_sub_s32 : gives (.sub .s32 4 1 2) 0x80000000 1 0x7FFFFFFF = true := by decide +kernel
theorem test_mul_s32_extends : gives (.mul .s32 4 1 2) 0x10000 0x8000 0xFFFFFFFF80000000 = true := by decide +kernel
theorem test_mulh_signs : gives (.mulh .s64 4 1 2) 0xFFFFFFFFFFFFFFFF 2 0xFFFFFFFFFFFFFFFF = true ∧
    gives (.mulh .z64 4 1 2) 0xFFFFFFFFFFFFFFFF 2 1 = true := by decide +kernel
theorem test_div_by_zero : gives (.div .z32 4 1 2) 5 0 0xFFFFFFFF 0x008 = true := by decide +kernel
theorem test_div_overflow : gives (.div .s32 4 1 2) 0x80000000 0xFFFFFFFF 0xFFFFFFFF80000000 0x040 = true := by decide +kernel
theorem test_rem_sign : gives (.rem .s64 4 1 2) 0xFFFFFFFFFFFFFFF9 2 0xFFFFFFFFFFFFFFFF = true := by decide +kernel
theorem test_shl_full : gives (.shl .s32 4 1 2) 1 32 0 = true := by decide +kernel
theorem test_shr_s32 : gives (.shr .s32 4 1 2) 0xFFFFFFFF80000000 0 0xFFFFFFFF80000000 = true := by decide +kernel
theorem test_sra_full : gives (.sra .s32 4 1 2) 0x80000000 99 0xFFFFFFFFFFFFFFFF = true := by decide +kernel
theorem test_clz_zero : gives (.clz .z32 4 1) 0xFF00000000 0 32 = true := by decide +kernel
theorem test_ctz_zero : gives (.ctz .s64 4 1) 0 0 64 = true := by decide +kernel
theorem test_popc_s32 : gives (.popc .s32 4 1) 0xFFFFFFFF00000003 0 2 = true := by decide +kernel
theorem test_min_signed : gives (.min .s32 4 1 2) 0xFFFFFFFF 1 0xFFFFFFFFFFFFFFFF = true := by decide +kernel
theorem test_max_unsigned : gives (.max .z32 4 1 2) 0xFFFFFFFF 1 0xFFFFFFFF = true := by decide +kernel
theorem test_slt_unsigned : gives (.slt .z64 4 1 2) 1 0x8000000000000000 1 = true := by decide +kernel
theorem test_sel_reads_old : does (.sel .s64 3 1 2) (regs 5 6) (fun t => t.readX 3 == 5) = true ∧
    gives (.sel .s64 4 1 2) 5 6 6 = true := by decide +kernel
theorem test_addi_sign : gives (.addi 4 1 0x7FFF) 5 0 4 = true := by decide +kernel
theorem test_andi_zero : gives (.andi 4 1 0x7FFF) 0xFFFFFFFFFFFFFFFF 0 0x7FFF = true := by decide +kernel
theorem test_srai : gives (.srai 4 1 63) 0x8000000000000000 0 0xFFFFFFFFFFFFFFFF = true := by decide +kernel
theorem test_slti_sign : gives (.slti 4 1 0x7FFF) 0xFFFFFFFFFFFFFFFE 0 1 = true := by decide +kernel
theorem test_lhi_sign : gives (.lhi 4 0x80000) 0 0 0xFFFFFFFC00000000 = true := by decide +kernel
theorem test_pcrel : gives (.pcrel 4 0xFFFFF) 0 0 0x3FFF = true := by decide +kernel
theorem test_blt_signed : does (.blt 1 2 0x7FFF) (regs 0xFFFFFFFFFFFFFFFF 0) (fun t => t.me.pc == 0x3FFC) = true := by decide +kernel
theorem test_bge_equal : does (.bge 1 2 3) (regs 5 5) (fun t => t.me.pc == 0x400C) = true := by decide +kernel
theorem test_jmp_links : does (.jmp 4 2) (regs 0 0) (fun t => t.me.pc == 0x4008 && t.readX 4 == 0x4004) = true := by decide +kernel
theorem test_jr_reads_first : does (.jr 1 1 8) (regs 0x100 0) (fun t => t.me.pc == 0x108 && t.readX 1 == 0x4004) = true := by
  decide +kernel
theorem test_jr_misaligned : traps (.jr 1 1 2) (regs 0x100 0) 0x09 0x102 = true := by decide +kernel

-- R157 to R159, R275, R286
def stored (bs : List Byte) : State := { regs 0x1000 0x1122334455667788 with mem := Memory.writeN [] 0x1000 bs }
theorem test_ld_sign : does (.ldS8 4 1 1 .none .row) (stored [0, 0x80]) (fun t => t.readX 4 == 0xFFFFFFFFFFFFFF80) = true := by decide +kernel
theorem test_ld_order : does (.ldZ32 4 1 0 .none .row) (stored [1, 2, 3, 4]) (fun t => t.readX 4 == 0x04030201) = true := by decide +kernel
theorem test_ld_misaligned : traps (.ldZ16 4 1 1 .none .row) (regs 0x1000 0) 0x09 0x1001 = true := by decide +kernel
theorem test_st_bytes : does (.st16 2 1 2 .none .row) (regs 0x1000 0xAABB)
    (fun t => t.clusterByte 0 0x1002 == 0xBB && t.clusterByte 0 0x1003 == 0xAA && t.clusterByte 0 0x1004 == 0) = true := by decide +kernel
theorem test_store_orientation : traps (.st32 2 1 0 .none .col) (regs 0x1000 0) 0x0B 0x1000 = true := by decide +kernel
theorem test_ldAcq_latest : does (.ldAcq 4 1 .b16 0 .sys) (stored [5, 1]) (fun t => t.readX 4 == 0x105 && t.me.lastAcq == some 0x80) = true := by
  decide +kernel
theorem test_stRel_home : does (.stRel 2 1 .b8 0 .pkg) (regs 0x1000 0x1FF) (fun t => Memory.read t.mem 0x1000 == 0xFF && Memory.read t.mem 0x1001 == 0) = true := by
  decide +kernel
theorem test_amo_min_signed : does (.amoMin .s32 .sys 4 1 2) { stored [0xFF, 0xFF, 0xFF, 0xFF] with harts := (regs 0x1000 1).harts }
    (fun t => t.readX 4 == 0xFFFFFFFFFFFFFFFF && t.clusterByte 0 0x1000 == 0xFF) = true := by decide +kernel
theorem test_amo_cas_misses : does (.amoCas .z64 .clus 3 1 2) (stored [8]) (fun t => t.readX 3 == 8 && t.clusterByte 0 0x1000 == 8) = true := by
  decide +kernel
theorem test_amo_fadd : does (.amoFadd .f32 .die 4 1 2) { stored [0, 0, 0x80, 0x3F] with harts := (regs 0x1000 0x3F800000).harts }
    (fun t => t.readX 4 == 0x3F800000 && t.clusterByte 0 0x1003 == 0x40) = true := by decide +kernel

-- R160, R161
theorem test_fadd_up : gives (.fadd .f32 .rup 4 1 2) 0x3F800000 0x33000000 0x3F800001 0x001 = true := by decide +kernel
theorem test_fadd_cancel_down : gives (.fadd .f32 .rdn 4 1 2) 0x3F800000 0xBF800000 0x80000000 = true := by decide +kernel
theorem test_fsub_infinities : gives (.fsub .f16 .rne 4 1 2) 0x7C00 0x7C00 0x7E00 0x090 = true := by decide +kernel
theorem test_fmul_bf16 : gives (.fmul .bf16 .rne 4 1 2) 0x4000 0xC000 0xC080 = true := by decide +kernel
theorem test_fdiv_by_zero : gives (.fdiv .f32 .rne 4 1 2) 0x3F800000 0x80000000 0xFF800000 0x088 = true := by decide +kernel
theorem test_fsqrt_negative : gives (.fsqrt .f32 .rne 4 1) 0xC0800000 0 0x7FC00000 0x090 = true := by decide +kernel
theorem test_fsqrt_infinity : gives (.fsqrt .f32 .rne 4 1) 0x7F800000 0 0x7F800000 0x080 = true := by decide +kernel
theorem test_fma_once : does (.fma .f32 .rne 3 1 2) (with0 fun h => { h with x := [(1, 0x40000000), (2, 0x40400000), (3, 0xC0C00000)] })
    (fun t => t.readX 3 == 0) = true := by decide +kernel
theorem test_fmin_zeros : gives (.fmin .f32 4 1 2) 0 0x80000000 0x80000000 = true := by decide +kernel
theorem test_fmax_nan : gives (.fmax .f32 4 1 2) 0x7FC00000 0x3F800000 0x3F800000 = true := by decide +kernel
theorem test_fcmp_nan : gives (.fcmpLe .f32 4 1 2) 0x7FC00000 0 0 = true ∧ gives (.fcmpUn .f32 4 1 2) 0x7FC00000 0 1 = true := by decide +kernel
theorem test_fclass_subnormal : gives (.fclass .f32 4 1) 0x80000001 0 2 = true := by decide +kernel
theorem test_fcvt_nan : gives (.fcvt .s32 .f32 .rne 4 1) 0x7FC00000 0 0 0x010 = true := by decide +kernel
theorem test_fcvt_negative : gives (.fcvt .z32 .s64 .rne 4 1) 0xFFFFFFFFFFFFFFFF 0 0 0x040 = true := by decide +kernel
theorem test_fcvt_ties : gives (.fcvt .s64 .f32 .rne 4 1) 0x40200000 0 2 0x001 = true := by decide +kernel

-- R146, R221, R226 to R230
theorem test_cset_mask : does (.cset 1 0x008) (regs 0xFFFF 0) (fun t => t.me.fpctl == 0x3FF) = true := by decide +kernel
theorem test_cswap : does (.cswap 4 1 0x00B) (regs 9 0) (fun t => t.readX 4 == 0 && t.me.gctr == 9) = true := by decide +kernel
theorem test_cget_user : traps (.cget 4 0x031) user 0x03 0x031 = true := by decide +kernel
theorem test_trap : does (.trap 2) base (fun t => t.me.pc == 0x8000 && t.me.tpc == 0x4004 && t.me.tval == 5 && t.me.sup &&
    t.me.tcause == 0x4000000000000020) = true := by decide +kernel
theorem test_tret_user : does .tret (with0 fun h => { h with tpc := 0x6000, tcause := 0x20 }) (fun t => t.me.pc == 0x6000 && !t.me.sup) = true := by
  decide +kernel
theorem test_tret_privilege : traps .tret user 0x03 0x5C000008 = true := by decide +kernel
theorem test_trap_record : does (.trap 2) base (fun t => t.clusterByte 0 0x9001 == 0x40 && t.clusterByte 0 0x9008 == 0x20 &&
    t.clusterByte 0 0x9010 == 5) = true := by decide +kernel
theorem test_halt : does .halt base (fun t => t.me.halted && t.me.lanes == 0) = true := by decide +kernel
theorem test_wfe_waits : does .wfe base (fun t => t.me.wait == .wfe && t.me.pc == 0x4000) = true := by decide +kernel
theorem test_vown : does (.vown 4) (with0 fun h => { h with own := 9, vlen := 3 }) (fun t => t.readX 4 == 9 && t.me.own == 0 && t.me.vlen == 0) = true := by
  decide +kernel

-- R267 to R269, R310, R363, R388
theorem test_abar_init : does (.abarInit 1 2) (bar 0 2) (fun t => t.readHome 0xFF00000000000 8 == 2 * 2 ^ 51 + 2 * 2 ^ 40) = true := by decide +kernel
theorem test_abar_arrive_turns : does (.abarArrive 1) (bar (2 ^ 51 + 2 ^ 40) 0) (fun t => t.readHome 0xFF00000000000 8 == 2 ^ 63 + 2 ^ 51 + 2 ^ 40) = true := by
  decide +kernel
theorem test_gbar_outside : traps .gbar base 0x22 0 = true := by decide +kernel
theorem test_wadd_clears_bit : does (.wadd 0 1) (holding 0x8000000000000005) (fun t => t.workList 0 0 == [(0, 5)]) = true := by decide +kernel
theorem test_wtake_empty : does (.wtake 4 0) base (fun t => t.readX 4 == 0xFFFFFFFFFFFFFFFF) = true := by decide +kernel
theorem test_tflt : does (.tflt 1) (holding 0xFFFF) (fun t => t.me.tmask == 0x0020) = true := by decide +kernel
theorem test_prog_index : traps (.prog 1) (holding 8) 0x28 8 = true := by decide +kernel
theorem test_jtrunc_sends : does (.jtrunc 0) (journalled { en := true, state := 1, peer := 0x8000000000000000, queue := [.entry 4] })
    (fun t => (t.journal 0).queue == [.entry 4, .trunc 0]) = true := by decide +kernel
theorem test_jsync_disabled : traps (.jsync 1) base 0x2C 0 = true := by decide +kernel

-- R167 to R196
theorem test_setvl : does (.setvl false .w32 4 1) (holding 1000) (fun t => t.me.lanes == 16 && t.me.vlen == 1000 && t.readX 4 == 1000) = true := by
  decide +kernel
theorem test_setvtype_bad : traps (.setvtype 1) (holding 0x11) 0x15 0x11 = true := by decide +kernel
theorem test_vmvx_sign : does (.vmvx .s8 4 1 0) (one 0x80) (fun t => t.readX 4 == 0xFFFFFFFFFFFFFF80) = true := by decide +kernel
theorem test_vbcast_rows : does (.vbcast .s16 1 2) base (fun t => t.me.vimg 1 == 0x50005) = true := by decide +kernel
theorem test_vld : does (.vld 1 0 ⟨1, 0, .row, .s16⟩) (stored [1, 2, 3, 4, 5]) (fun t => t.me.vimg 1 == 0x04030201) = true := by decide +kernel
theorem test_vst_buffers : does (.vst 1 0 ⟨1, 0, .row, .s8⟩) (with0 fun h => { h with v := [(1, 0x0201)] })
    (fun t => t.me.buffer.map (fun b => b.elems.map fun e => (e.pa, e.val)) == [[(0x1000, 1), (0x1001, 2)]] && t.clusterByte 0 0x1000 == 0) = true := by
  decide +kernel
theorem test_scommit : does (.scommit none) (buffered [{ elems := [elem0] }])
    (fun t => t.clusterByte 0 0x1000 == 7 && t.me.buffer == [] && t.me.stripBase == 2) = true := by decide +kernel
theorem test_row_length : traps (.vld 1 0 ⟨1, 0, .row, .s64⟩) (with0 fun h => { h with vlen := 129 }) 0x11 129 = true := by decide +kernel
def lanes0 (a b : Nat) : State := with0 fun h => { h with v := [(1, a), (2, b)], p := [(5, { cells := 0x80000000 })] }
theorem test_vred_saturates : does (.vredAdd .s8 none 4 1) (lanes0 0x7F01 0) (fun t => t.readX 4 == 0x7F && t.me.fpflags == 0x040) = true := by
  decide +kernel
theorem test_vred_prefix : does (.vredMax .z8 (some ⟨5, true⟩) 4 1) (lanes0 0x0903 0) (fun t => t.readX 4 == 3) = true := by decide +kernel
theorem test_vminidx_none : does (.vminidx .f32 (some ⟨6, false⟩) 4 1) (lanes0 0 0) (fun t => t.readX 4 == 0xFFFFFFFFFFFFFFFF) = true := by
  decide +kernel
theorem test_vscan : does (.vscanAdd .z8 none 4 1) (lanes0 0xF020 0) (fun t => t.me.vimg 4 == 0xFF20 && t.me.fpflags == 0x040) = true := by
  decide +kernel
theorem test_vperm_beyond : does (.vperm .s8 4 1 2) (lanes0 0x0807 (2 ^ 32 * 9 + 1)) (fun t => t.me.vimg 4 == 0x08) = true := by decide +kernel
theorem test_vcompress : does (.vcompress .s8 4 1 5) (lanes0 0x0807 0) (fun t => t.me.vimg 4 == 0x08) = true := by decide +kernel
theorem test_vexpand : does (.vexpand .s8 4 1 5) (lanes0 0x0807 0) (fun t => t.me.vimg 4 == 0x0700) = true := by decide +kernel
theorem test_vslide_up_keeps : does (.vslideUp .s8 2 1 5) (with0 fun h => { h with x := [(5, 1)], v := [(1, 0x0807), (2, 0x0201)] })
    (fun t => t.me.vimg 2 == 0x0701) = true := by decide +kernel
theorem test_vfirst : does (.vfirst 4 5) (lanes0 0 0) (fun t => t.readX 4 == 1) = true := by decide +kernel

-- R199 to R212
theorem test_menter_clamps : does (.menter 1) (holding 500) (fun t => t.me.mvlen == 128 && t.me.matrix && t.myCore.arrayHolder == some 0) = true := by
  decide +kernel
theorem test_mop : does (.mop .f32 .zb .rne none 1 2) (matrixed fun h => { h with v := [(1, 0x40000000), (2, 0x40400000)] })
    (fun t => t.me.zb == 0x40C00000 && t.me.za == 0) = true := by decide +kernel
theorem test_mdrain_index : traps (.mdrain .row .f32 .za .rne 1 1) (matrixed fun h => { h with x := [(1, 128)] }) 0x16 128 = true := by decide +kernel
theorem test_mst_bf16 : does (.mst .row .bf16 .za .rne 1 0) (matrixed fun h => { h with za := 0x3F808001 })
    (fun t => t.clusterByte 0 0x1000 == 0x81 && t.clusterByte 0 0x1001 == 0x3F) = true := by decide +kernel
theorem test_mode_trap : traps .mleave base 0x02 0xC2000000 = true := by decide +kernel

-- R100 to R142, R60 to R71
def rows0 (a b : Nat) : State := running0 (run0 0 1 0x28) [(1, a), (2, b), (3, 3)] []
/-- The row gets v in v4, its mask bit in p6 as mark says, and the flags fl. -/
def rowGives (i : Instr) (a b v : Nat) (mark : Bool := false) (fl : Flags := 0) : Bool :=
  does i (rows0 a b) fun t => t.me.vimg 4 == v && (t.me.pred 6).bit 0 == mark && t.me.fpflags == fl
def v1 : Src := ⟨1, false⟩
def v2 : Src := ⟨2, false⟩
theorem test_vadd_saturates : rowGives (.vadd plain .s8 .rne 4 v1 v2 (some 6)) 0x7F 1 0x7F true 0x040 = true := by decide +kernel
theorem test_vsub_unsigned : rowGives (.vsub plain .z8 .rne 4 v1 v2 (some 6)) 1 2 0 true 0x040 = true := by decide +kernel
theorem test_vmul_float : rowGives (.vmul plain .f16 .rne 4 v1 v2 (some 6)) 0x7BFF 0x4000 0x7C00 true 0x085 = true := by decide +kernel
theorem test_vsqrt_infinity : rowGives (.vsqrt plain .f32 .rne 4 v1) 0x7F800000 0 0x7F800000 false 0x080 = true := by decide +kernel
theorem test_vmulh : rowGives (.vmulh plain .s8 4 v1 v2) 0x80 0x80 0x40 = true := by decide +kernel
theorem test_vmac : rowGives (.vmac guarded .s16 .rne 4 v1 v2 none) 0xFFFF 2 0xFFFE = true := by decide +kernel
theorem test_vfma : rowGives (.vfma plain .f32 .rne 4 v1 v1 v2 none) 0x40000000 0xC0800000 0 = true := by decide +kernel
theorem test_vdiv_zero : rowGives (.vdiv plain .s16 .rne 4 v1 v2 (some 6)) 5 0 0xFFFF true 0x008 = true := by decide +kernel
theorem test_vrem_zero : rowGives (.vrem plain .z8 4 v1 v2 (some 6)) 5 0 5 true 0x008 = true := by decide +kernel
theorem test_vmin_signed : rowGives (.vmin plain .s8 4 v1 v2) 0xFF 1 0xFF = true := by decide +kernel
theorem test_vabs_least : rowGives (.vabs plain .s8 4 v1 (some 6)) 0x80 0 0x7F true 0x040 = true := by decide +kernel
theorem test_vneg_float : rowGives (.vneg plain .f32 4 v1 none) 0x3F800000 0 0xBF800000 = true := by decide +kernel
theorem test_vnot : rowGives (.vnot plain .z8 4 v1) 0x0F 0 0xF0 = true := by decide +kernel
theorem test_vshl_full : rowGives (.vshl plain .z8 4 v1 v2) 0xFF 8 0 = true := by decide +kernel
theorem test_vsra_unsigned : rowGives (.vsra plain .z8 4 v1 v2) 0x80 1 0x40 = true := by decide +kernel
theorem test_vclz : rowGives (.vclz plain .s16 4 v1) 1 0 15 = true := by decide +kernel
theorem test_vsel : rowGives (.vsel plain .s8 4 v1 v2 5) 7 9 7 = true ∧ rowGives (.vsel plain .s8 4 v1 v2 6) 7 9 9 = true := by decide +kernel
theorem test_vli_saturates : rowGives (.vli plain .z8 4 0xFFF) 0 0 0 false 0x040 = true := by decide +kernel
theorem test_vcvt_saturates : rowGives (.vcvt plain .s8 .f32 .rne 4 v1 (some 6)) 0x43800000 0 0x7F true 0x010 = true := by decide +kernel
theorem test_vrcp_zero : rowGives (.vrcp plain .rne 4 v1 (some 6)) 0 0 0x7F800000 true 0x088 = true := by decide +kernel
theorem test_vexp2 : rowGives (.vexp2 plain .rne 4 v1 none) 0x40400000 0 0x41000000 = true := by decide +kernel
theorem test_vlog2 : rowGives (.vlog2 plain .rne 4 v1 none) 0x41000000 0 0x40400000 = true := by decide +kernel
theorem test_vcmp_nan : does (.vcmp plain .ne .f32 7 v1 v2) (rows0 0x7FC00000 0) (fun t => (t.me.pred 7).bit 0) = true ∧
    does (.vcmp plain .ge .f32 7 v1 v2) (rows0 0x7FC00000 0) (fun t => !(t.me.pred 7).bit 0) = true := by decide +kernel
theorem test_pnot : does (.pnot plain 7 6) (rows0 0 0) (fun t => (t.me.pred 7).cell 0 == 0x8000) = true := by decide +kernel
theorem test_pset_clamps : does (.pset plain 7 v1) (rows0 0xFFFF 0) (fun t => (t.me.pred 7).cell 0 == 0x8000) = true := by decide +kernel
theorem test_psgt_hard : does (.psgt plain .f32 7 v1 v2) (rows0 0x40000000 0x3F800000) (fun t => (t.me.pred 7).cell 0 == 0x8000) = true := by
  decide +kernel
theorem test_vblend_ends : rowGives (.vblend false .f32 .rne 4 v1 v2 5) 0x3F800000 0 0x3F800000 = true := by decide +kernel
theorem test_vlde : does (.vlde plain .row .z16 4 v1 2) { rows0 0x1000 0 with mem := [(0x1002, 5), (0x1003, 1)] } (fun t => t.me.vimg 4 == 0x105) = true := by
  decide +kernel
theorem test_vste : does (.vste plain .row .s8 v1 v2 0) (rows0 0x1000 9)
    (fun t => t.me.buffer.map (fun b => (b.inst, b.elems.map fun e => (e.pa, e.val))) == [(some (0x4000, 0), [(0x1000, 9)])]) = true := by decide +kernel
theorem test_vamo : does (.vamo plain .add .sys .s32 4 v1 v2 ⟨0, false⟩) { rows0 0x1000 9 with mem := [(0x1000, 5)] }
    (fun t => t.me.vimg 4 == 5 && t.clusterByte 0 0x1000 == 14) = true := by decide +kernel
theorem test_vstop : does .vstop (rows0 0 0) (fun t => t.me.run.map (fun r => r.rows.map (·.ended)) == some [true]) = true := by decide +kernel
theorem test_vfetch : does (.vfetch plain 0xFFF) (rows0 0 0) (fun t => t.me.run.map (fun r => r.rows.map fun x => (x.pc, x.block)) == some [(0x3FF8, 0x3FF8)]) = true := by
  decide +kernel
theorem test_vdefer : does (.vdefer plain (some 3) none none none 1) (rows0 0 0)
    (fun t => t.myCore.geyser.map (fun e => (e.row, e.target, e.mask, e.vals.headD 0)) == [(0, 0x4008, 1, 3)]) = true := by decide +kernel
theorem test_row_beyond : does (.vadd plain .s64 .rne 4 v1 v2 none) (running0 (run0 128 129 0x28) [] []) (fun t => t.me.v == []) = true := by decide +kernel
/-- A whole step: the word at the pc is fetched, decoded and executed, and a cycle passes. -/
theorem test_step : (match step { base with mem := placed (.addi 4 2 3) } with
    | .next t => t.readX 4 == 8 && t.me.pc == 0x4004 && t.now == 1
    | _ => false) = true := by decide +kernel
theorem test_step_reset : (match step (State.reset.withFetchWord 32 0x02208003) with
    | .next t => t.me.started
    | _ => false) = true := by decide +kernel
/-- R247: byte 0x1000 is dirty in a row line and in a column line that cross; when the row line drains, it is clean in both. -/
theorem test_drain_both_lines : does (.dirtyDrain 0 (.row 64) false)
    { base with clusters := [(0, { lines := [{ key := .row 64, dirty := 1 }, { key := .col 1 1 0 0, dirty := 1, way := 1 }] })] }
    (fun t => (t.cluster 0).lines.map (·.dirty) == [0, 0] && t.drains.length == 1) = true := by decide +kernel
/-- R349: a later 0x0501 merges into the earlier one and stands behind the 0x0502 between them. -/
theorem test_house_order : let r := fun (code time : Nat) => (⟨time, 0, code, false, 0, 3, 0, 1⟩ : Rec)
    ((((base.keepHouse 0 (r 0x0501 1)).keepHouse 0 (r 0x0502 2)).keepHouse 0 (r 0x0501 3)).stream 0).house.map
      (fun x => (x.time, x.code, x.p1)) = [(2, 0x0502, 1), (3, 0x0501, 2)] := by decide +kernel
/-- R395: in a move the new partner acknowledges the copies from trunc on, one at a time. -/
theorem test_move_copies : does (.journalAck 0 true)
    (journalled { en := true, state := 3, before := 1, next := 2, newQueue := [.copies 0 2] })
    (fun t => (t.journal 0).newQueue == [.copies 1 2] && (t.journal 0).newAck == 1 && (t.journal 0).state == 3) = true := by decide +kernel
end Sys2Proof.Tests
end

section
/-!
PROOFS. The round trip of the encodings (spec/02): every word of a well-formed instruction decodes to it, and every word
that decodes is the word of its instruction.
-/
namespace Sys2Proof.Laws

-- From an instruction to its word ------------------------------------------------------------------------------------------

theorem encode_control {i : Instr} {f : CFields} (h : encodeC i = some f) : encode i = some (32, f.pack.toNat) := by
  simp only [encode, h]
theorem encode_block {i : Instr} {f : BFields} (h0 : encodeC i = none) (h : encodeB i = some f) :
    encode i = some (64, f.pack.toNat) := by
  simp only [encode, h0, h]
/-- No instruction is a control word and a block word. -/
theorem encodeC_of_encodeB {i : Instr} {f : BFields} (h : encodeB i = some f) : encodeC i = none := by
  unfold encodeB at h
  split at h
  case h_59 => cases h
  all_goals rfl
/-- An event has no word. -/
theorem encode_event {i : Instr} (h : i.isEvent = true) : encode i = none := by
  unfold Instr.isEvent at h
  split at h
  case h_83 => cases h
  all_goals rfl
/-- A word is one of 32 or of 64 bits. -/
theorem encode_width {i : Instr} {n w : Nat} (h : encode i = some (n, w)) : n = 32 ∨ n = 64 := by
  unfold encode at h
  split at h
  · simp only [Option.some.injEq, Prod.mk.injEq] at h
    exact .inl h.1.symm
  · split at h
    · simp only [Option.some.injEq, Prod.mk.injEq] at h
      exact .inr h.1.symm
    · cases h

/-- seal and unseal: their names are words of Lean's own, so that no case of a split is called by them. -/
def isSealing : Instr → Bool
  | .seal .. | .unseal .. => true
  | _ => false
theorem sealing_trip {i : Instr} (h : isSealing i = true) : RoundTrip.Statement i := by
  unfold isSealing at h
  split at h
  · exact RoundTrip.seal ..
  · exact RoundTrip.unseal ..
  · cases h
theorem event_or_sealing_trip {i : Instr} (h : (i.isEvent || isSealing i) = true) : RoundTrip.Statement i := by
  cases hs : isSealing i with
  | true => exact sealing_trip hs
  | false => exact event_trip (by simpa [hs] using h)
/-- The round trips of the constructors in one statement: those of the words, and the rest are events. -/
theorem roundTrip (i : Instr) : RoundTrip.Statement i := by
  cases i with
  | add => exact RoundTrip.add .. | sub => exact RoundTrip.sub .. | mul => exact RoundTrip.mul ..
  | mulh => exact RoundTrip.mulh .. | div => exact RoundTrip.div .. | rem => exact RoundTrip.rem ..
  | and => exact RoundTrip.and .. | or => exact RoundTrip.or .. | xor => exact RoundTrip.xor ..
  | shl => exact RoundTrip.shl .. | shr => exact RoundTrip.shr .. | sra => exact RoundTrip.sra ..
  | clz => exact RoundTrip.clz .. | ctz => exact RoundTrip.ctz .. | popc => exact RoundTrip.popc ..
  | min => exact RoundTrip.min .. | max => exact RoundTrip.max .. | slt => exact RoundTrip.slt ..
  | sel => exact RoundTrip.sel .. | addi => exact RoundTrip.addi .. | andi => exact RoundTrip.andi ..
  | ori => exact RoundTrip.ori .. | xori => exact RoundTrip.xori .. | shli => exact RoundTrip.shli ..
  | shri => exact RoundTrip.shri .. | srai => exact RoundTrip.srai .. | slti => exact RoundTrip.slti ..
  | lhi => exact RoundTrip.lhi .. | pcrel => exact RoundTrip.pcrel .. | jmp => exact RoundTrip.jmp ..
  | jr => exact RoundTrip.jr .. | jtab => exact RoundTrip.jtab .. | beq => exact RoundTrip.beq ..
  | bne => exact RoundTrip.bne .. | blt => exact RoundTrip.blt .. | bge => exact RoundTrip.bge ..
  | ldS8 => exact RoundTrip.ldS8 .. | ldZ8 => exact RoundTrip.ldZ8 .. | ldS16 => exact RoundTrip.ldS16 ..
  | ldZ16 => exact RoundTrip.ldZ16 .. | ldS32 => exact RoundTrip.ldS32 .. | ldZ32 => exact RoundTrip.ldZ32 ..
  | ld64 => exact RoundTrip.ld64 .. | st8 => exact RoundTrip.st8 .. | st16 => exact RoundTrip.st16 ..
  | st32 => exact RoundTrip.st32 .. | st64 => exact RoundTrip.st64 .. | ldAcq => exact RoundTrip.ldAcq ..
  | stRel => exact RoundTrip.stRel .. | fadd => exact RoundTrip.fadd .. | fsub => exact RoundTrip.fsub ..
  | fmul => exact RoundTrip.fmul .. | fdiv => exact RoundTrip.fdiv .. | fsqrt => exact RoundTrip.fsqrt ..
  | fma => exact RoundTrip.fma .. | fmin => exact RoundTrip.fmin .. | fmax => exact RoundTrip.fmax ..
  | fcmpEq => exact RoundTrip.fcmpEq .. | fcmpLt => exact RoundTrip.fcmpLt .. | fcmpLe => exact RoundTrip.fcmpLe ..
  | fcmpUn => exact RoundTrip.fcmpUn .. | fcvt => exact RoundTrip.fcvt .. | fclass => exact RoundTrip.fclass ..
  | cget => exact RoundTrip.cget .. | cset => exact RoundTrip.cset .. | cswap => exact RoundTrip.cswap ..
  | fenceAcq => exact RoundTrip.fenceAcq .. | fenceRel => exact RoundTrip.fenceRel .. | fenceSc => exact RoundTrip.fenceSc ..
  | crange => exact RoundTrip.crange ..
  | cflush => exact RoundTrip.cflush .. | cinval => exact RoundTrip.cinval .. | amoAdd => exact RoundTrip.amoAdd ..
  | amoFadd => exact RoundTrip.amoFadd .. | amoMin => exact RoundTrip.amoMin .. | amoMax => exact RoundTrip.amoMax ..
  | amoAnd => exact RoundTrip.amoAnd .. | amoOr => exact RoundTrip.amoOr .. | amoXor => exact RoundTrip.amoXor ..
  | amoSwap => exact RoundTrip.amoSwap .. | amoCas => exact RoundTrip.amoCas .. | cp => exact RoundTrip.cp ..
  | abarInit => exact RoundTrip.abarInit .. | abarExpect => exact RoundTrip.abarExpect ..
  | abarArrive => exact RoundTrip.abarArrive .. | abarWait => exact RoundTrip.abarWait .. | gbar => exact RoundTrip.gbar
  | glaunch => exact RoundTrip.glaunch .. | gwait => exact RoundTrip.gwait .. | wadd => exact RoundTrip.wadd ..
  | wtake => exact RoundTrip.wtake .. | tidle => exact RoundTrip.tidle | tquiet => exact RoundTrip.tquiet ..
  | trap => exact RoundTrip.trap .. | tret => exact RoundTrip.tret | halt => exact RoundTrip.halt
  | wfe => exact RoundTrip.wfe | vown => exact RoundTrip.vown .. | vsave => exact RoundTrip.vsave ..
  | vrest => exact RoundTrip.vrest .. | tmark => exact RoundTrip.tmark .. | tflt => exact RoundTrip.tflt ..
  | cexp => exact RoundTrip.cexp .. | prog => exact RoundTrip.prog .. | lcap => exact RoundTrip.lcap ..
  | jput => exact RoundTrip.jput .. | jsync => exact RoundTrip.jsync .. | emit => exact RoundTrip.emit ..
  | jtrunc => exact RoundTrip.jtrunc .. | jreplay => exact RoundTrip.jreplay .. | setvl => exact RoundTrip.setvl ..
  | setvtype => exact RoundTrip.setvtype .. | vf => exact RoundTrip.vf .. | vdrain => exact RoundTrip.vdrain ..
  | vld => exact RoundTrip.vld .. | vst => exact RoundTrip.vst .. | vstMc => exact RoundTrip.vstMc ..
  | vlff => exact RoundTrip.vlff .. | vldx => exact RoundTrip.vldx .. | vstx => exact RoundTrip.vstx ..
  | scommit => exact RoundTrip.scommit .. | sabort => exact RoundTrip.sabort | vmvx => exact RoundTrip.vmvx ..
  | vbcast => exact RoundTrip.vbcast .. | vredAdd => exact RoundTrip.vredAdd .. | vredMin => exact RoundTrip.vredMin ..
  | vredMax => exact RoundTrip.vredMax .. | vredAnd => exact RoundTrip.vredAnd .. | vredOr => exact RoundTrip.vredOr ..
  | vredXor => exact RoundTrip.vredXor .. | vminidx => exact RoundTrip.vminidx .. | vmaxidx => exact RoundTrip.vmaxidx ..
  | vscanAdd => exact RoundTrip.vscanAdd .. | vscanMin => exact RoundTrip.vscanMin ..
  | vscanMax => exact RoundTrip.vscanMax .. | vscanAnd => exact RoundTrip.vscanAnd .. | vscanOr => exact RoundTrip.vscanOr ..
  | vscanXor => exact RoundTrip.vscanXor .. | vperm => exact RoundTrip.vperm .. | vcompress => exact RoundTrip.vcompress ..
  | vexpand => exact RoundTrip.vexpand .. | vslideUp => exact RoundTrip.vslideUp ..
  | vslideDown => exact RoundTrip.vslideDown .. | vfirst => exact RoundTrip.vfirst .. | vpcount => exact RoundTrip.vpcount ..
  | menter => exact RoundTrip.menter .. | mleave => exact RoundTrip.mleave | mzero => exact RoundTrip.mzero ..
  | mop => exact RoundTrip.mop .. | mtile => exact RoundTrip.mtile .. | mdrain => exact RoundTrip.mdrain ..
  | mdrainB => exact RoundTrip.mdrainB .. | mld => exact RoundTrip.mld .. | mst => exact RoundTrip.mst ..
  | mbwdX => exact RoundTrip.mbwdX .. | mbwdW => exact RoundTrip.mbwdW .. | mbwdBoth => exact RoundTrip.mbwdBoth ..
  | vadd => exact RoundTrip.vadd .. | vsub => exact RoundTrip.vsub .. | vmul => exact RoundTrip.vmul ..
  | vmulh => exact RoundTrip.vmulh .. | vmac => exact RoundTrip.vmac .. | vfma => exact RoundTrip.vfma ..
  | vdiv => exact RoundTrip.vdiv .. | vrem => exact RoundTrip.vrem .. | vmin => exact RoundTrip.vmin ..
  | vmax => exact RoundTrip.vmax .. | vabs => exact RoundTrip.vabs .. | vneg => exact RoundTrip.vneg ..
  | vsqrt => exact RoundTrip.vsqrt .. | vand => exact RoundTrip.vand .. | vor => exact RoundTrip.vor ..
  | vxor => exact RoundTrip.vxor .. | vnot => exact RoundTrip.vnot .. | vshl => exact RoundTrip.vshl ..
  | vshr => exact RoundTrip.vshr .. | vsra => exact RoundTrip.vsra .. | vpopc => exact RoundTrip.vpopc ..
  | vclz => exact RoundTrip.vclz .. | vsel => exact RoundTrip.vsel .. | vli => exact RoundTrip.vli ..
  | vmov => exact RoundTrip.vmov .. | vcvt => exact RoundTrip.vcvt .. | vclass => exact RoundTrip.vclass ..
  | vrcp => exact RoundTrip.vrcp .. | vrsqrt => exact RoundTrip.vrsqrt .. | vexp2 => exact RoundTrip.vexp2 ..
  | vlog2 => exact RoundTrip.vlog2 .. | vqadd => exact RoundTrip.vqadd .. | vqmul => exact RoundTrip.vqmul ..
  | vqpack => exact RoundTrip.vqpack .. | vqunpack => exact RoundTrip.vqunpack .. | vscale => exact RoundTrip.vscale ..
  | vcmp => exact RoundTrip.vcmp .. | pand => exact RoundTrip.pand .. | por => exact RoundTrip.por ..
  | pxor => exact RoundTrip.pxor .. | pnot => exact RoundTrip.pnot .. | pmov => exact RoundTrip.pmov ..
  | psgt => exact RoundTrip.psgt .. | psge => exact RoundTrip.psge .. | pslt => exact RoundTrip.pslt ..
  | psle => exact RoundTrip.psle .. | pset => exact RoundTrip.pset .. | pind => exact RoundTrip.pind ..
  | pcollapse => exact RoundTrip.pcollapse .. | vblend => exact RoundTrip.vblend .. | vbgrad => exact RoundTrip.vbgrad ..
  | psgrad => exact RoundTrip.psgrad .. | vlde => exact RoundTrip.vlde .. | vste => exact RoundTrip.vste ..
  | vamo => exact RoundTrip.vamo .. | vdefer => exact RoundTrip.vdefer .. | vfetch => exact RoundTrip.vfetch ..
  | vstop => exact RoundTrip.vstop
  | _ => exact event_or_sealing_trip rfl

/-- Every well-formed instruction that is no event has a word, of 32 or of 64 bits. -/
theorem encode_word {i : Instr} (hw : i.wf = true) (he : i.isEvent = false) :
    ∃ n w, encode i = some (n, w) ∧ (n = 32 ∨ n = 64) := by
  obtain h | h := roundTrip i
  · rw [he] at h; cases h
  · obtain ⟨n, w, h, -⟩ := h hw
    exact ⟨n, w, h, encode_width h⟩
/-- The word of a well-formed instruction decodes to it. -/
theorem decode_encode {i : Instr} {n w : Nat} (hw : i.wf = true) (he : encode i = some (n, w)) :
    decodeTableWord n w = some i := by
  obtain h | h := roundTrip i
  · rw [encode_event h] at he; cases he
  · obtain ⟨n', w', h', hd⟩ := h hw
    obtain ⟨rfl, rfl⟩ : n' = n ∧ w' = w := by simpa [h'] using he
    exact hd

-- From a word to its instruction -------------------------------------------------------------------------------------------

theorem decodeFieldsC_some {f : CFields} {i : Instr} (h : decodeFieldsC f = some i) : i.wf = true ∧ encodeC i = some f := by
  unfold decodeFieldsC at h
  split at h
  · split at h
    case isTrue c =>
      obtain rfl := Option.some.inj h
      simpa using c
    case isFalse => cases h
  · cases h
theorem decodeFieldsB_some {f : BFields} {i : Instr} (h : decodeFieldsB f = some i) : i.wf = true ∧ encodeB i = some f := by
  unfold decodeFieldsB at h
  split at h
  · split at h
    case isTrue c =>
      obtain rfl := Option.some.inj h
      simpa using c
    case isFalse => cases h
  · cases h

/-- The two parts of a field, side by side, are the field. -/
theorem parts {w : Nat} (x : BitVec w) (s m n : Nat) :
    x.extractLsb' (s + n) m ++ x.extractLsb' s n = x.extractLsb' s (m + n) := by
  apply BitVec.eq_of_getLsbD_eq
  intro i hi
  simp only [BitVec.getLsbD_append, BitVec.getLsbD_extractLsb']
  by_cases h : i < n
  · simp [h, hi]
  · have e : s + n + (i - n) = s + i := by omega
    have l : i - n < m := by omega
    simp [h, hi, l, e]

/-- A control word is put together again from its fields (spec/02 R29). -/
theorem control_pack (w : CWord) : (CFields.unpack w).pack = w := by
  show w.extractLsb' 25 7 ++ w.extractLsb' 20 5 ++ w.extractLsb' 15 5 ++ w.extractLsb' 10 5 ++ w.extractLsb' 0 10 = w
  rw [parts w 20 7 5, parts w 15 12 5, parts w 10 17 5, parts w 0 22 10]
  exact whole w
/-- A block word is put together again from its fields (spec/02 R42). -/
theorem block_pack (w : BWord) : (BFields.unpack w).pack = w := by
  have hi : (BFields.unpack w).hi = w.extractLsb' 32 32 := by
    simp only [BFields.hi, BFields.unpack, bit_of_true]
    rw [parts w 55 8 1, parts w 50 9 5, parts w 45 14 5, parts w 44 19 1, parts w 39 20 5, parts w 38 25 1, parts w 33 26 5,
      parts w 32 31 1]
  have low : (BFields.unpack w).low = w.extractLsb' 0 32 := by
    simp only [BFields.low, BFields.unpack, bit_of_true]
    rw [parts w 26 5 1, parts w 21 6 5, parts w 17 11 4, parts w 14 15 3, parts w 13 18 1, parts w 12 19 1, parts w 0 20 12]
  rw [BFields.pack, hi, low]
  exact (parts w 0 32 32).trans (whole w)

/-- A control word that decodes is the word of its instruction. -/
theorem encode_decodeControl {w : CWord} {i : Instr} (h : decodeControl w = some i) :
    i.wf = true ∧ encode i = some (32, w.toNat) := by
  obtain ⟨hw, he⟩ := decodeFieldsC_some h
  exact ⟨hw, control_pack w ▸ encode_control he⟩
/-- A block word that decodes is the word of its instruction. -/
theorem encode_decodeBlock {w : BWord} {i : Instr} (h : decodeBlock w = some i) :
    i.wf = true ∧ encode i = some (64, w.toNat) := by
  obtain ⟨hw, he⟩ := decodeFieldsB_some h
  exact ⟨hw, block_pack w ▸ encode_block (encodeC_of_encodeB he) he⟩

end Sys2Proof.Laws

namespace Sys2Proof.Claims
open Laws

/-- Settles O56: the round trip of every constructor one way, the fields put together again the other. -/
theorem decodeEncode : Obligations.DecodeEncode := by
  unfold Obligations.DecodeEncode
  refine ⟨fun i => encode_word, fun i n w => decode_encode, fun w i h => ?_, fun w i h => ?_⟩
  · simpa using encode_decodeControl (w := BitVec.ofNat 32 w) h
  · simpa using encode_decodeBlock (w := BitVec.ofNat 64 w) h

/-- The listed words are those of their instructions, which are well formed. -/
theorem words_encode : ∀ e ∈ words, e.2.2.wf = true ∧ encode e.2.2 = some (e.1, e.2.1) := by decide +kernel
/-- Settles O55: each word is the encoding of its instruction, and so decodes to it. -/
theorem decodeWords : Obligations.DecodeWords := by
  unfold Obligations.DecodeWords
  intro e he
  obtain ⟨hw, hc⟩ := words_encode e he
  exact decode_encode hw hc

end Sys2Proof.Claims
end

section
/-!
PROOFS. What the path to memory, a record and a cycle leave unchanged. A fetch touches counters, caches and trackers alone
(spec/14 R297, spec/16 R321); a record of Reel is written through the homes (spec/18 R352), and changes neither the agenda
nor who moves; the cycles that pass change no hart but its energy (spec/11 R241).
-/
namespace Sys2Proof.Machine

-- The parts that stay ----------------------------------------------------------------------------------------------------

/-- The state without its counters, caches, translation caches and trackers. -/
def State.withoutCaches (s : State) : State := { s with dies := [], baseDies := [], counters := [], cores := [], clusters := [] }
/-- What a fetch keeps: all but the caches, and the interlock table of every core. -/
def State.offPath (s : State) : State × (Nat → List Interlock) := (s.withoutCaches, fun c => (s.core c).interlocks)
/-- What the records of Reel keep. -/
def State.offReel (s : State) : State :=
  { s.withoutCaches with harts := [], mem := [], poison := [], drains := [], streams := [], seqs := [] }
/-- A hart without what energy residency charges. -/
def Hart.uncharged (x : Hart) : Hart := { x with ectr := 0, pend := 0 }
/-- What time keeps of the harts. -/
def State.offClock (s : State) : Nat × (Nat → Hart) := (s.cur, fun h => (s.hart h).uncharged)

/-- What every step of a fold keeps, the fold keeps. -/
theorem foldl_keeps {α β : Type} (p : State → α) (f : State → β → State) (h : ∀ s b, p (f s b) = p s) (l : List β) (s : State) :
    p (l.foldl f s) = p s := by
  induction l generalizing s with
  | nil => rfl
  | cons x l ih => exact (ih (f s x)).trans (h s x)
/-- The same for a fold that also gathers a value. -/
theorem foldl_keeps_fst {α β γ : Type} (p : State → α) (f : State × γ → β → State × γ) (h : ∀ x b, p (f x b).1 = p x.1)
    (l : List β) (x : State × γ) : p (l.foldl f x).1 = p x.1 := by
  induction l generalizing x with
  | nil => rfl
  | cons b l ih => exact (ih (f x b)).trans (h x b)

section
variable {s t : State} (h : t.offPath = s.offPath)
include h
theorem harts_of_offPath : t.harts = s.harts := congrArg (fun x => x.1.harts) h
theorem cur_of_offPath : t.cur = s.cur := congrArg (fun x => x.1.cur) h
theorem mem_of_offPath : t.mem = s.mem := congrArg (fun x => x.1.mem) h
theorem hart_of_offPath (k : Nat) : t.hart k = s.hart k := congrArg (Tab.get ({} : Hart) · k) (harts_of_offPath h)
theorem me_of_offPath : t.me = s.me := by
  rw [State.me, State.me, cur_of_offPath h, hart_of_offPath h]
theorem readX_of_offPath (r : Reg) : t.readX r = s.readX r := congrArg (Hart.readX · r) (me_of_offPath h)
theorem interlocks_of_offPath (c : Nat) : (t.core c).interlocks = (s.core c).interlocks := congrArg (fun x => x.2 c) h
theorem myInterlocks_of_offPath : t.myCore.interlocks = s.myCore.interlocks := by
  rw [State.myCore, State.myCore, cur_of_offPath h, interlocks_of_offPath h]
theorem offReel_of_offPath : t.offReel = s.offReel :=
  congrArg (fun x => { x.1 with harts := [], mem := [], poison := [], drains := [], streams := [], seqs := [] }) h
theorem offClock_of_offPath : t.offClock = s.offClock := by
  simp only [State.offClock, cur_of_offPath h, hart_of_offPath h]
end

-- The path to memory (spec/16 R321) and fetches (spec/14 R297) ---------------------------------------------------------------

@[simp] theorem offPath_bump (s : State) (src slot n : Nat) : (s.bump src slot n).offPath = s.offPath := rfl
@[simp] theorem offPath_setDie (s : State) (d : Nat) (v : Die) : (s.setDie d v).offPath = s.offPath := rfl
@[simp] theorem offPath_setStack (s : State) (n : Nat) (v : Stack) : (s.setStack n v).offPath = s.offPath := rfl
@[simp] theorem offPath_updStack (s : State) (n : Nat) (f : Stack → Stack) : (s.updStack n f).offPath = s.offPath := rfl
@[simp] theorem offPath_updCluster (s : State) (k : Nat) (f : Cluster → Cluster) : (s.updCluster k f).offPath = s.offPath := rfl
theorem offPath_updCore (s : State) (c : Nat) {f : Core → Core} (h : ∀ x, (f x).interlocks = x.interlocks) :
    (s.updCore c f).offPath = s.offPath := by
  refine Prod.ext rfl (funext fun j => ?_)
  show ((s.updCore c f).core j).interlocks = (s.core j).interlocks
  rw [State.updCore_eq, State.setCore_core]
  split
  case isTrue e => rw [h, e]
  case isFalse => rfl
@[simp] theorem offPath_bumpSel (s : State) (k slot n : Nat) (l : List Nat) : (s.bumpSel k slot n l).offPath = s.offPath := by
  induction l generalizing s with
  | nil => rfl
  | cons j l ih =>
    simp only [State.bumpSel, ih]
    split <;> rfl
@[simp] theorem offPath_bumpHart (s : State) (k slot n : Nat) : (s.bumpHart k slot n).offPath = s.offPath := by
  simp [State.bumpHart]
@[simp] theorem offPath_trackHot (s : State) (pa : Nat) : (s.trackHot pa).offPath = s.offPath := by
  unfold State.trackHot
  dsimp only
  split <;> rfl
@[simp] theorem offPath_writeBack (s : State) (n line i : Nat) : (s.writeBack n line i).offPath = s.offPath := by
  unfold State.writeBack
  dsimp only
  split
  · rfl
  · split <;> rfl
@[simp] theorem offPath_mscRoom (s : State) (n line : Nat) : (s.mscRoom n line).offPath = s.offPath := by
  unfold State.mscRoom State.mscEvict
  split
  · rfl
  · split
    · rfl
    · exact foldl_keeps State.offPath _ (fun s i => offPath_writeBack s n _ i) _ s
@[simp] theorem offPath_mscBring (s : State) (n line mask : Nat) (w : Bool) : (s.mscBring n line mask w).offPath = s.offPath := by
  simp [State.mscBring]
@[simp] theorem offPath_mscTouch (s : State) (pa : Nat) (w b x : Bool) : (s.mscTouch pa w b x).offPath = s.offPath := by
  unfold State.mscTouch
  split
  · rfl
  · dsimp only
    split
    · simp
    · split <;> simp
@[simp] theorem offPath_mscReads (s : State) (pas : List Nat) (b : Bool) : (s.mscReads pas b).offPath = s.offPath :=
  foldl_keeps State.offPath _ (fun s _ => offPath_mscTouch s _ _ _ _) _ s
@[simp] theorem offPath_tlbFill (s : State) (core root va level leaf : Nat) :
    (s.tlbFill core root va level leaf).offPath = s.offPath := by
  simp only [State.tlbFill, offPath_updCluster]
  exact offPath_updCore s core fun _ => rfl
@[simp] theorem offPath_walkTouch (s : State) (k va : Nat) : (s.walkTouch k va).offPath = s.offPath := by
  unfold State.walkTouch
  dsimp only
  split
  · rfl
  · exact foldl_keeps State.offPath _ (fun s a => offPath_mscReads s _ _) _ s
@[simp] theorem offPath_translate (s : State) (k va : Nat) (kind : AccKind) (w : Nat) (sup : Bool) :
    (s.translate k va kind w sup).2.offPath = s.offPath := by
  unfold State.translate
  dsimp only
  split
  · split
    · rfl
    · split <;> rfl
  · split
    · simp
    · split <;> split <;> simp
@[simp] theorem offPath_fetchLine (s : State) (core pa : Nat) : (s.fetchLine core pa).2.offPath = s.offPath := by
  unfold State.fetchLine
  dsimp only
  split
  · rfl
  · split
    · rfl
    · refine (offPath_updCore _ core ?_).trans (offPath_mscTouch s _ _ _ _)
      exact fun _ => rfl
/-- A fetch changes counters, caches and trackers alone. -/
@[simp] theorem offPath_fetchWord (s : State) (k : Nat) (va : Word) : (s.fetchWord k va).2.offPath = s.offPath := by
  have ht := offPath_translate s k va.toNat .fetch 0 (s.hart k).sup
  unfold State.fetchWord
  split
  · rfl
  · split
    case h_1 e => rwa [e] at ht
    case h_2 t u e =>
      rw [e] at ht
      exact (offPath_fetchLine u _ _).trans ht
theorem offPath_of_fetchWord {s t : State} {k : Nat} {va : Word} {r : Fetched} (h : s.fetchWord k va = (r, t)) :
    t.offPath = s.offPath := by
  simpa [h] using offPath_fetchWord s k va

-- The walk of a closure (spec/02 R50) -----------------------------------------------------------------------------------------

theorem offPath_fetchBlockWord (s : State) (k a : Nat) : (s.fetchBlockWord k a).2.offPath = s.offPath := by
  unfold State.fetchBlockWord
  split
  case h_1 e => exact offPath_of_fetchWord e
  case h_2 e => exact offPath_of_fetchWord e
  case h_3 lo u e =>
    have hu := offPath_of_fetchWord e
    split
    case h_1 e' => exact (offPath_of_fetchWord e').trans hu
    case h_2 e' => exact (offPath_of_fetchWord e').trans hu
    case h_3 e' => exact (offPath_of_fetchWord e').trans hu
theorem offPath_walkBlock (s : State) (k start fuel a : Nat) (words : Tab Nat) (found : List Nat) :
    (s.walkBlock k start fuel a words found).2.offPath = s.offPath := by
  induction fuel generalizing s a words found with
  | zero => rfl
  | succ fuel ih =>
    have hf := offPath_fetchBlockWord s k a
    unfold State.walkBlock
    split
    case h_1 e => rwa [e] at hf
    case h_2 e => rwa [e] at hf
    case h_3 w u e =>
      rw [e] at hf
      dsimp only
      repeat' split
      all_goals simp only [ih, hf]
/-- The walk of a closure changes what its fetches change. -/
theorem offPath_walkClosure (s : State) (k fuel n : Nat) (words : Tab Nat) (found : List Nat) :
    (s.walkClosure k fuel n words found).2.offPath = s.offPath := by
  induction fuel generalizing s n words found with
  | zero => rfl
  | succ fuel ih =>
    unfold State.walkClosure
    split
    · rfl
    case h_2 b _ =>
      have hb := offPath_walkBlock s k b 4096 b words found
      split
      case h_1 e => rwa [e] at hb
      case h_2 e =>
        rw [e] at hb
        exact (ih _ _ _ _).trans hb
/-- Finding the ranges of an interlock entry fetches at most a closure. -/
theorem offPath_entryRanges (s : State) (i : Instr) : (s.entryRanges i).2.offPath = s.offPath := by
  have closure : ∀ off : BitVec 20, (match s.walkClosure s.cur 33 0 [] [(branchTarget s.me.pc off).toNat] with
      | (.ok words, s) => (if rowMemoryIn words then some (Range.all, Range.all) else none, s)
      | (.error _, s) => (none, s)).2.offPath = s.offPath := fun off => by
    have hc := offPath_walkClosure s s.cur 33 0 [] [(branchTarget s.me.pc off).toNat]
    split
    case h_1 e => rwa [e] at hc
    case h_2 e => rwa [e] at hc
  cases i
  case vf off => exact closure off
  case vdrain off => exact closure off
  all_goals rfl

-- Writes at the homes (spec/14 R278) and records of Reel (spec/18 R351 to R360) ---------------------------------------------------

@[simp] theorem offReel_updHart (s : State) (k : Nat) (f : Hart → Hart) : (s.updHart k f).offReel = s.offReel := rfl
@[simp] theorem offReel_updCore (s : State) (c : Nat) (f : Core → Core) : (s.updCore c f).offReel = s.offReel := rfl
@[simp] theorem offReel_updCluster (s : State) (k : Nat) (f : Cluster → Cluster) : (s.updCluster k f).offReel = s.offReel := rfl
@[simp] theorem offReel_setCluster (s : State) (k : Nat) (v : Cluster) : (s.setCluster k v).offReel = s.offReel := rfl
@[simp] theorem offReel_updDie (s : State) (d : Nat) (f : Die → Die) : (s.updDie d f).offReel = s.offReel := rfl
@[simp] theorem offReel_setStream (s : State) (n : Nat) (v : Stream) : (s.setStream n v).offReel = s.offReel := rfl
@[simp] theorem offReel_bumpHart (s : State) (k slot n : Nat) : (s.bumpHart k slot n).offReel = s.offReel :=
  offReel_of_offPath (offPath_bumpHart s k slot n)
@[simp] theorem offReel_mscReads (s : State) (pas : List Nat) (b : Bool) : (s.mscReads pas b).offReel = s.offReel :=
  offReel_of_offPath (offPath_mscReads s pas b)
@[simp] theorem offReel_settle (s : State) (d : Nat) (cs : List Host.Cell) (ms : List Nat) (b : Bool) :
    (s.settle d cs ms b).offReel = s.offReel :=
  foldl_keeps State.offReel _ (fun s _ => offReel_of_offPath (offPath_mscTouch s _ _ _ _)) _ _
@[simp] theorem offReel_forget (s : State) (k : Nat) (pas : List Nat) : (s.forget k pas).offReel = s.offReel := rfl
@[simp] theorem offReel_retouch (s : State) (k : Nat) (cs : List Host.Cell) : (s.retouch k cs).offReel = s.offReel := rfl
@[simp] theorem offReel_removeLines (s : State) (k : Nat) (p : LineKey → Bool) : (s.removeLines k p).offReel = s.offReel := by
  simp only [State.removeLines, offReel_forget, offReel_retouch]
  refine (foldl_keeps State.offReel _ (fun s j => ?_) _ _).trans (offReel_setCluster s k _)
  split <;> rfl
@[simp] theorem offReel_landSectors (s : State) (k : Nat) (secs : List Nat) : (s.landSectors k secs).1.offReel = s.offReel :=
  foldl_keeps State.offReel _ (fun s _ => offReel_settle s _ _ _ _) _ _
@[simp] theorem offReel_purgeAt (s : State) (k pa : Nat) : (s.purgeAt k pa).1.offReel = s.offReel := by
  unfold State.purgeAt
  dsimp only
  split <;> simp
@[simp] theorem offReel_purgeDie (s : State) (k : Option Nat) (pa : Nat) : (s.purgeDie k pa).1.offReel = s.offReel :=
  foldl_keeps_fst State.offReel _ (fun x j => by dsimp only; split <;> simp) _ _
@[simp] theorem offReel_reread (s : State) (k : Nat) (secs : List Nat) : (s.reread k secs).offReel = s.offReel := by
  unfold State.reread
  dsimp only
  split <;> rfl
@[simp] theorem offReel_wakeOthers (s : State) (k : Option Nat) (pas : List Nat) : (s.wakeOthers k pas).offReel = s.offReel := by
  unfold State.wakeOthers
  dsimp only
  split <;> rfl
@[simp] theorem offReel_accept (s : State) (k : Option Nat) (d : Nat) (cs : List Host.Cell) (ms : List Nat) (b : Bool) :
    (s.accept k d cs ms b).offReel = s.offReel := by
  have hp : ((sectorBytes cs).foldl (fun (x : State × List Host.Cell) pa =>
      ((x.1.purgeDie k pa).1, x.2 ++ (x.1.purgeDie k pa).2)) (s, [])).1.offReel = s.offReel :=
    foldl_keeps_fst State.offReel
      (fun x pa => ((x.1.purgeDie k pa).1, x.2 ++ (x.1.purgeDie k pa).2)) (fun x pa => offReel_purgeDie x.1 k pa) _ _
  unfold State.accept
  dsimp only
  split <;> simp only [offReel_reread, offReel_settle, hp]
@[simp] theorem offReel_flushFirst (s : State) (n : Nat) : (s.flushFirst n).offReel = s.offReel := by
  induction n generalizing s with
  | zero => rfl
  | succ n ih =>
    unfold State.flushFirst
    split
    · rfl
    · rw [ih, offReel_accept]; rfl
@[simp] theorem offReel_writeHome (s : State) (d pa n v : Nat) : (s.writeHome d pa n v).offReel = s.offReel := by
  simp [State.writeHome, State.flushDrains]
@[simp] theorem offReel_writeHomeBytes (s : State) (d pa : Nat) (bs : List Byte) : (s.writeHomeBytes d pa bs).offReel = s.offReel := by
  simp [State.writeHomeBytes, State.flushDrains]
@[simp] theorem offReel_putSlot (s : State) (n : Nat) (r : Rec) : (s.putSlot n r).offReel = s.offReel := by
  simp [State.putSlot]
@[simp] theorem offReel_lose (s : State) (r : Rec) (n : Nat) : (s.lose r n).offReel = s.offReel := by
  unfold State.lose
  split <;> rfl
@[simp] theorem offReel_mkRecAt (s : State) (time src code : Nat) (ten : Option Nat) (p q : Word) :
    (s.mkRecAt time src code ten p q).2.offReel = s.offReel := rfl
@[simp] theorem offReel_putDrops (s : State) (n : Nat) : (s.putDrops n).offReel = s.offReel := by
  unfold State.putDrops
  dsimp only
  split
  · rfl
  · simp [State.mkRec]
@[simp] theorem offReel_putHouse (s : State) (n src : Nat) : (s.putHouse n src).offReel = s.offReel :=
  foldl_keeps State.offReel _ (fun s r => offReel_putSlot s n r) _ _
@[simp] theorem offReel_deliverTo (s : State) (r : Rec) (n : Nat) : (s.deliverTo r n).offReel = s.offReel := by
  unfold State.deliverTo
  dsimp only
  split <;> simp
@[simp] theorem offReel_deliverAll (s : State) (r : Rec) (l : List Nat) : (s.deliverAll r l).offReel = s.offReel :=
  foldl_keeps State.offReel _ (fun s n => offReel_deliverTo s r n) _ _
@[simp] theorem offReel_loseAll (s : State) (r : Rec) (l : List Nat) : (l.foldl (State.lose · r ·) s).offReel = s.offReel :=
  foldl_keeps State.offReel _ (fun s n => offReel_lose s r n) _ _
@[simp] theorem offReel_deliverLossy (s : State) (r : Rec) (ns older : List Nat) :
    (s.deliverLossy r ns older).offReel = s.offReel := by
  unfold State.deliverLossy
  dsimp only
  split <;> simp
@[simp] theorem offReel_reserve (s : State) (d : Nat) (r : Rec) (k : Nat) : (s.reserve d r k).offReel = s.offReel := by
  unfold State.reserve
  split
  · simp
  · dsimp only
    split <;> rfl
@[simp] theorem offReel_sendHart (s : State) (k time code : Nat) (ten : Option Nat) (p q : Word) :
    (s.sendHart k time code ten p q).offReel = s.offReel := by
  unfold State.sendHart State.offerHart State.deliver
  dsimp only
  repeat' split
  all_goals simp
@[simp] theorem offReel_emitOf (s : State) (k code : Nat) (ten : Option Nat) (p q : Word) :
    (s.emitOf k code ten p q).offReel = s.offReel := by
  unfold State.emitOf
  split
  · simp
  · rfl
@[simp] theorem offReel_captureIn (s : State) (k kind n j : Nat) : (s.captureIn k kind n j).offReel = s.offReel := by
  unfold State.captureIn
  dsimp only
  split
  · exact foldl_keeps State.offReel _ (fun s i => offReel_emitOf s k _ _ _ _) _ _
  · rfl
@[simp] theorem offReel_endStall (s : State) (k : Nat) : (s.endStall k).offReel = s.offReel := by
  unfold State.endStall
  split
  · rfl
  · refine (offReel_emitOf _ _ _ _ _ _).trans ?_
    exact foldl_keeps State.offReel _ (fun s j => offReel_captureIn s _ _ _ j) _ _
/-- The end of a hold by Reel emits a record at most. -/
@[simp] theorem offReel_endHold (s : State) (k : Nat) : (s.endHold k).offReel = s.offReel := by
  unfold State.endHold
  split
  · rfl
  · split <;> simp
@[simp] theorem offReel_settleOwes (s : State) (k : Nat) : (s.settleOwes k).offReel = s.offReel := by
  unfold State.settleOwes
  split <;> rfl

-- Cycles (spec/11 R241, spec/18 R365) -------------------------------------------------------------------------------------------

@[simp] theorem offClock_tickHart (n : Nat) (s : State) (h : Nat) : (s.tickHart n h).offClock = s.offClock := by
  have upd : ∀ f : Hart → Hart, (∀ x, (f x).uncharged = x.uncharged) → (s.updHart h f).offClock = s.offClock := fun f hf => by
    refine Prod.ext rfl (funext fun j => ?_)
    show ((s.updHart h f).hart j).uncharged = (s.hart j).uncharged
    rw [State.updHart_eq, State.setHart_hart]
    split
    case isTrue e => rw [hf, e]
    case isFalse => rfl
  unfold State.tickHart
  dsimp only
  split
  · rfl
  · split
    · exact upd _ fun _ => rfl
    · exact upd _ fun _ => rfl
theorem offPath_countStalls (s : State) (n : Nat) : (s.countStalls n).offPath = s.offPath :=
  foldl_keeps State.offPath _ (fun s h => foldl_keeps State.offPath _ (fun s k => offPath_bumpHart s h k n) _ s) _ s
theorem offPath_countFull (s : State) (n : Nat) : (s.countFull n).offPath = s.offPath :=
  foldl_keeps State.offPath _ (fun s _ => offPath_bump s _ 2 n) _ s
theorem offPath_underOldSel (s : State) {f : State → State} (h : ∀ u, (f u).offPath = u.offPath) :
    (s.underOldSel f).offPath = s.offPath := by
  unfold State.underOldSel
  split
  · exact h s
  case h_2 c old _ =>
    have first : (s.updCore c fun x => { x with csel := old }).offPath = s.offPath := offPath_updCore s c fun _ => rfl
    exact Eq.trans (offPath_updCore _ c fun _ => by rfl) ((h _).trans first)
theorem offClock_writeWins (s u : State) : (s.writeWins u).offClock = u.offClock := by
  unfold State.writeWins State.loseEvent
  split
  · rfl
  · split <;> rfl
/-- The cycles that pass leave every hart as it was, but for its energy. -/
theorem offClock_passTime (s : State) (n : Nat) : (s.passTime n).offClock = s.offClock := by
  have hu : (s.writeWins (s.underOldSel fun s => (s.countStalls n).countFull n)).offClock = s.offClock :=
    (offClock_writeWins _ _).trans (offClock_of_offPath
      (offPath_underOldSel s fun s => (offPath_countFull _ n).trans (offPath_countStalls s n)))
  unfold State.passTime
  dsimp only
  split
  · exact hu
  · exact (foldl_keeps State.offClock _
      (fun s c => foldl_keeps State.offClock _ (fun s h => offClock_tickHart _ s h) _ s) _ _).trans hu
theorem passTime_cur (s : State) (n : Nat) : (s.passTime n).cur = s.cur := congrArg Prod.fst (offClock_passTime s n)
theorem passTime_me (s : State) (n : Nat) : (s.passTime n).me.uncharged = s.me.uncharged := by
  rw [State.me, State.me, passTime_cur]
  exact congrFun (congrArg Prod.snd (offClock_passTime s n)) s.cur

end Sys2Proof.Machine
end

section
/-!
PROOFS. The issue of a run: vf and vdrain with a valid closure, and with a misaligned target (spec/02 R47, R50, spec/08
R164, spec/13 R264).
-/
namespace Sys2Proof.Machine

/-- The target of a branch is the pc and four times the offset. -/
theorem branchTarget_eq {w : Nat} (pc : Word) (i : BitVec w) : branchTarget pc i = pc + BitVec.ofInt 64 (4 * i.toInt) := by
  rw [BitVec.ofInt_mul]
  rfl
theorem needOwner_ok {s : State} (h : s.me.own = s.me.ctx) : needOwner s = .ok ((), s) := by
  simp [needOwner, h]
theorem needVectorMode_ok {s : State} (i : Instr) (h : s.me.matrix = false) : needVectorMode i s = .ok ((), s) := by
  simp [needVectorMode, h]
theorem awaitTable_ok {s : State} (h : s.myCore.interlocks.length < 32) : awaitTable s = .ok ((), s) := by
  simp [awaitTable, Nat.not_le.2 h]
theorem awaitInterlock_ok {s : State} {rd wr : Range} (h : s.conflicts s.cur rd wr = []) :
    awaitInterlock rd wr s = .ok ((), s) := by
  simp [awaitInterlock, h]
theorem validate_ok {s t : State} {target : Nat} {words : Tab Nat}
    (h : s.walkClosure s.cur 33 0 [] [target] = (.ok words, t)) : validate target s = .ok (words, t) := by
  simp only [validate, h]

/-- The entry of a run: its words, its target, and the values that the hart captures (spec/08 R164). -/
def Hart.runEntry (x : Hart) (target : Nat) (words : Tab Nat) (isDrain : Bool) : QEntry :=
  { issuePc := x.pc.toNat, target := target, words := words, isDrain := isDrain, cap := x.capture }
/-- The interlock entry of a run whose closure has row memory (spec/13 R264). -/
def State.lockRun (s : State) (words : Tab Nat) : State :=
  if rowMemoryIn words then
    s.updCore (coreOf s.cur) fun c => { c with interlocks := (⟨s.cur, 0, .all, .all⟩ : Interlock) :: c.interlocks }
  else s
@[simp] theorem lockRun_cur (s : State) (words : Tab Nat) : (s.lockRun words).cur = s.cur := by
  unfold State.lockRun; split <;> rfl
@[simp] theorem lockRun_me (s : State) (words : Tab Nat) : (s.lockRun words).me = s.me := by
  unfold State.lockRun; split <;> rfl
@[simp] theorem lockRun_mem (s : State) (words : Tab Nat) : (s.lockRun words).mem = s.mem := by
  unfold State.lockRun; split <;> rfl

/-- A run whose target is misaligned is no instruction (spec/02 R47). -/
theorem issueRun_misaligned {w : Instr} {isDrain : Bool} {i : BitVec 20} {s : State}
    (ht : (branchTarget s.me.pc i).toNat % 8 ≠ 0) (hc : s.copying s.cur = false) :
    issueRun w isDrain i s = .next (s.takeTrap s.cur { cause := 0x01, value := wordOf w, tpc := s.me.pc }) := by
  simp [issueRun, finish, ht, trap_run, takeHere_run, hc]
/-- What a run with a valid closure leaves. -/
def State.issuedRun (s : State) (target : Nat) (words : Tab Nat) (isDrain : Bool) : State :=
  ((s.lockRun words).updMe fun x => { x with queue := x.queue ++ [s.me.runEntry target words isDrain] }).advance
/-- A run with a valid closure enters the queue (spec/03 R56, R70). -/
theorem issueRun_valid {w : Instr} {isDrain : Bool} {i : BitVec 20} {s t : State} {words : Tab Nat}
    (ht : (branchTarget s.me.pc i).toNat % 8 = 0) (hown : s.me.own = s.me.ctx) (hmode : s.me.matrix = false)
    (hwalk : s.walkClosure s.cur 33 0 [] [(branchTarget s.me.pc i).toNat] = (.ok words, t))
    (hlock : rowMemoryIn words = true → t.myCore.interlocks.length < 32 ∧ t.conflicts t.cur .all .all = []) :
    issueRun w isDrain i s = .next (t.issuedRun (branchTarget s.me.pc i).toNat words isDrain) := by
  have passes := And.intro (needOwner_ok hown) (And.intro (needVectorMode_ok w hmode) (validate_ok hwalk))
  cases hrow : rowMemoryIn words with
  | false => simp [issueRun, finish, ht, passes, hrow, State.issuedRun, State.lockRun, Hart.runEntry]
  | true =>
    obtain ⟨hl, hf⟩ := hlock hrow
    simp [issueRun, finish, ht, passes, hrow, awaitTable_ok hl, awaitInterlock_ok hf, State.issuedRun, State.lockRun]
    rfl

@[simp] theorem issuedRun_me (s : State) (target : Nat) (words : Tab Nat) (isDrain : Bool) :
    (s.issuedRun target words isDrain).me = { s.me with queue := s.me.queue ++ [s.me.runEntry target words isDrain] }.next := by
  simp [State.issuedRun, State.advance]
@[simp] theorem issuedRun_mem (s : State) (target : Nat) (words : Tab Nat) (isDrain : Bool) :
    (s.issuedRun target words isDrain).mem = s.mem := lockRun_mem s words
theorem issuedRun_interlocks (s : State) (target : Nat) (words : Tab Nat) (isDrain : Bool) :
    (s.issuedRun target words isDrain).myCore.interlocks =
      if rowMemoryIn words then ⟨s.cur, 0, .all, .all⟩ :: s.myCore.interlocks else s.myCore.interlocks := by
  show ((s.lockRun words).core (coreOf (s.lockRun words).cur)).interlocks = _
  rw [lockRun_cur]
  unfold State.lockRun
  split
  · simp [State.updCore_eq, State.myCore]
  · rfl

end Sys2Proof.Machine

namespace Sys2Proof.Claims
open Machine

/-- Settles O28: vf and vdrain are one operation, which queues the validated closure; the walk keeps the harts, memory and
the interlock table. -/
theorem runWords : Obligations.RunWords := by
  unfold Obligations.RunWords
  intro i s s1 words target x hx
  have hrun : exec x.1 s = issueRun x.1 x.2 i s := by
    obtain rfl | rfl : x = (.vf i, false) ∨ x = (.vdrain i, true) := by simpa using hx
    · rfl
    · rfl
  have htarget : branchTarget s.me.pc i = target := branchTarget_eq s.me.pc i
  rw [hrun]
  refine ⟨fun hm hc => issueRun_misaligned (htarget ▸ hm) hc, fun ha ⟨hown, hmode⟩ hwalk hlock => ?_⟩
  have kept : s1.offPath = s.offPath := by simpa [hwalk] using offPath_walkClosure s s.cur 33 0 [] [target.toNat]
  have hme := me_of_offPath kept
  have hcur := cur_of_offPath kept
  have hexec := issueRun_valid (w := x.1) (isDrain := x.2) (htarget ▸ ha) hown hmode (htarget ▸ hwalk) (hcur ▸ hlock)
  rw [htarget] at hexec
  refine ⟨_, s1.me.runEntry target.toNat words x.2, hexec, ?goesOn, ?_⟩
  case goesOn => constructor <;> simp [State.readX, Hart.readX, hme]
  have hlocks := issuedRun_interlocks s1 target.toNat words x.2
  refine ⟨by simp [hme], by simp [Hart.runEntry, hme], rfl, rfl, rfl, ?_⟩
  simp [Hart.runEntry, Hart.capture, hlocks, hme, hcur, mem_of_offPath kept]

end Sys2Proof.Claims
end

section
/-!
PROOFS. A step of the machine (spec/02 R48, spec/08 R164, spec/11 R219): what the turn of a ready hart does, and what the
issue behind its vector queue does.
-/
namespace Sys2Proof.Machine

-- The turn of a hart ---------------------------------------------------------------------------------------------------------

/-- With an empty agenda a step is the turn of the hart that moved last (log 1). -/
theorem step_idle {s : State} (hp : s.poweredDown = false) (ha : s.agenda = []) : step s = after 1 (turn s) := by
  simp [step, hp, ha]
/-- With a turn first in the agenda a step is that turn. -/
theorem step_agenda {s : State} (t : Turn) (hp : s.poweredDown = false) :
    step { s with agenda := t :: s.agenda } = after (cyclesOf t) (runTurn t s) := by
  unfold step
  exact if_neg (by simp [hp])
/-- Two states between which only records of Reel lie step alike where their turns are the same. -/
theorem step_congr {s u : State} (ho : u.offReel = s.offReel) (ha : s.agenda = []) (ht : turn s = turn u) : step s = step u := by
  have hagenda : u.agenda = s.agenda := (congrArg State.agenda ho :)
  have hpower : u.poweredDown = s.poweredDown := (congrArg State.poweredDown ho :)
  simp only [step, hagenda, hpower, ha, ht]

theorem updHart_updHart (s : State) (k : Nat) (f g : Hart → Hart) : (s.updHart k f).updHart k g = s.updHart k fun x => g (f x) := by
  rw [State.updHart_eq, State.updHart_eq, State.updHart_eq, State.setHart_hart, if_pos rfl]
  simp [State.setHart]
/-- The debts of a hart that are still debts, by which dies hold a record of which tenant. -/
def Hart.strike (p : Nat → Nat → Bool) (x : Hart) : Hart := { x with owes := x.owes.filter (p x.tenant.toNat) }
theorem strike_strike (p : Nat → Nat → Bool) (x : Hart) : (x.strike p).strike p = x.strike p := by
  simp [Hart.strike, List.filter_filter]
/-- What is struck out once is struck out: which records are stuck is no matter of the harts. -/
theorem settleOwes_settleOwes (s : State) (k : Nat) : (s.settleOwes k).settleOwes k = s.settleOwes k := by
  by_cases h : (s.hart k).owes.isEmpty = true
  · simp only [State.settleOwes, if_pos h]
  · have hs : s.settleOwes k = s.updHart k (Hart.strike s.stuck) := if_neg h
    have again : (s.updHart k (Hart.strike s.stuck)).updHart k (Hart.strike s.stuck) = s.updHart k (Hart.strike s.stuck) := by
      simp only [updHart_updHart, strike_strike]
    rw [hs, State.settleOwes]
    split
    · rfl
    · exact again

theorem runs_of_ready {s : State} (hr : Claims.Ready s) : s.runs s.cur = true := by
  obtain ⟨-, hstarted, hhalted, hfenced, hhalt, -⟩ := hr
  show (s.me.started && !s.me.halted && !s.myCore.fenced && !s.haltUp s.me.tenant.toNat) = true
  simp [hstarted, hhalted, hfenced, hhalt]
/-- A ready hart that is not held at a boundary acts. -/
theorem turn_act {s : State} (ho : s.settleOwes s.cur = s) (hh : s.endHold s.cur = s) (hr : Claims.Ready s)
    (hb : (s.me.drained && !s.me.midWord && s.reelHeld s.cur) = false) : turn s = act s := by
  obtain ⟨-, hstarted, hhalted, hfenced, hhalt, hrequests, hheld, hwfe⟩ := hr
  have hready : readyTurn s = act s := by simp [readyTurn, hrequests, hheld, hwfe]
  have goes : (!s.me.started || s.me.halted || s.myCore.fenced) = false := by simp [hstarted, hhalted, hfenced]
  unfold turn
  simp only [ho, hh, goes, hhalt, hb, Bool.false_and, Bool.false_eq_true, if_false, hready]

/-- With an empty agenda a step is what the hart does. -/
theorem step_act {s : State} (ha : s.agenda = []) (ho : s.settleOwes s.cur = s) (hh : s.endHold s.cur = s) (hr : Claims.Ready s)
    (hb : (s.me.drained && !s.me.midWord && s.reelHeld s.cur) = false) : step s = after 1 (act s) := by
  rw [step_idle hr.1 ha, turn_act ho hh hr hb]

-- What a ready hart does -----------------------------------------------------------------------------------------------------

theorem act_rest {s : State} (h : s.me.rest.isSome = true) : act s = issueWord false vrestResume s := if_pos h
theorem act_amo {s : State} (hr : s.me.rest = none) (h : s.me.amo.isSome = true) : act s = issueWord false amoResume s := by
  simp [act, hr, h]
theorem act_run {s : State} (hm : s.me.midWord = false) (h : s.me.run.isSome = true) : act s = stepRow exec none s := by
  obtain ⟨hrest, hamo⟩ : s.me.rest = none ∧ s.me.amo = none := by simpa [Hart.midWord] using hm
  simp [act, hrest, hamo, h]
theorem act_queue {s : State} (hm : s.me.midWord = false) (hr : s.me.run = none) (h : s.me.queue ≠ []) :
    act s = stepEntry exec s := by
  obtain ⟨hrest, hamo⟩ : s.me.rest = none ∧ s.me.amo = none := by simpa [Hart.midWord] using hm
  simp [act, hrest, hamo, hr, h]
theorem act_word {s : State} (hw : Claims.AtWord s) : act s = issue s := by
  obtain ⟨hrun, hqueue, hm, -, hhold⟩ := hw
  obtain ⟨hrest, hamo⟩ : s.me.rest = none ∧ s.me.amo = none := by simpa [Hart.midWord] using hm
  simp [act, hrest, hamo, hrun, hqueue, Nat.not_lt.2 hhold]

theorem issue_word {s t : State} {w : Nat} {i : Instr} (hf : s.fetchWord s.cur s.me.pc = (.word w, t))
    (hd : decodeControl (BitVec.ofNat 32 w) = some i) :
    issue s = issueWord (writesCnval i) (holding i fun x => exec i (x.disarm (some i))) t := by
  simp only [issue, hf, hd]
theorem issue_noInstr {s t : State} {w : Nat} (hf : s.fetchWord s.cur s.me.pc = (.word w, t))
    (hd : decodeControl (BitVec.ofNat 32 w) = none) :
    issue s = issueWord false (finish (Machine.trap 0x01 0 (BitVec.ofNat 64 w))) (t.disarm none) := by
  simp only [issue, hf, hd]
theorem issue_poison {s t : State} (hf : s.fetchWord s.cur s.me.pc = (.poison, t)) :
    issue s = issueWord false (finish (consumePoison t.me.pc)) t := by
  simp only [issue, hf]
theorem issue_fault {s t : State} {sub : Nat} (hf : s.fetchWord s.cur s.me.pc = (.fault sub, t)) :
    issue s = issueWord false (finish (Machine.trap 0x04 sub t.me.pc)) t := by
  simp only [issue, hf]

theorem rowFaultAt_error {α : Type} (pc cause sub : Nat) (v : Word) (s : State) :
    ∃ t, (rowFaultAt pc cause sub v : Op α) s = .error t := by
  unfold rowFaultAt
  split
  · exact ⟨_, rfl⟩
  · split <;> exact ⟨_, rfl⟩
/-- The check of a convoy that finds no conflict changes nothing. -/
theorem convoyCheck_ok {r : Run} {i : Instr} {s t : State} (h : convoyCheck r i s = .ok ((), t)) : t = s := by
  by_cases hcv : (blockInfo i).cv = true
  · simp only [convoyCheck, hcv, if_true] at h
    cases h; rfl
  · cases hc : convoyConflict [] (i :: r.followers 7 (r.row.pc + 8)) 0 with
    | none =>
      simp only [convoyCheck, hcv, hc] at h
      cases h; rfl
    | some n =>
      simp only [convoyCheck, hcv, hc] at h
      obtain ⟨u, hu⟩ := rowFaultAt_error (α := Unit) (r.row.pc + 8 * n) 0x13 0 (BitVec.ofNat 64 (r.row.pc - r.row.block)) s
      cases hu.symm.trans h
/-- The run at the row whose word runs next (log 4). -/
def Run.moving (r : Run) : Run := { r with cur := r.choose none }
/-- A step of the run is the block word of that row. -/
theorem stepRow_word {s t : State} {r : Run} {i : Instr} (hr : s.me.run = some r) (hw : r.moving.wordAt r.moving.row.pc = some i)
    (hc : convoyCheck r.moving i (s.updMe fun h => { h with run := some r.moving, wait := .none }) = .ok ((), t)) :
    stepRow exec none s = match exec i t with
      | .next u => .next ((u.lanePass s.cur i).settleRun s.cur)
      | o => o := by
  have hcur : t.cur = s.cur := (congrArg State.cur (convoyCheck_ok hc) :)
  simp only [Run.moving] at hw hc
  unfold stepRow
  simp only [hr, hw, hc, hcur] <;> rfl
/-- A word of the queue that is no mark means there what it means at the pc. -/
theorem entryWord_noMark (ex : Instr → State → Out) (e : QEntry) {i : Instr} (h : isMark i = false) :
    entryWord ex e i = fun x => ex i (x.disarm (some i)) := by
  cases i
  case tmark => cases h
  case jput => cases h
  all_goals rfl

/-- The state in which the word of the entry at the head of the queue runs. -/
def State.openEntry (s : State) (e : QEntry) : State :=
  (if e.holds then s.freeHead s.cur else s).updMe fun h =>
    { h with pc := BitVec.ofNat 64 e.issuePc, queue := [], issued := true, issuedAt := e.begun.getD s.now }
/-- The state s goes to where the word of that entry leaves t: it waits and stays, traps and takes the entries behind it along, or
is done (spec/08 R164, spec/11 R219). -/
def State.leaveEntry (s t : State) (e : QEntry) (rest : List QEntry) : State :=
  if (t.hart s.cur).wait ≠ .none then
    (if e.holds then t.updCore (coreOf s.cur) fun c => { c with interlocks := s.myCore.interlocks } else t).updHart s.cur
      fun h => { h with pc := s.me.pc, queue := { e with begun := some (e.begun.getD s.now) } :: rest }
  else if trappedIn (s.openEntry e) t s.cur then t.freeQueueEntry s.cur
  else t.updHart s.cur fun h => { h with pc := s.me.pc, queue := h.queue ++ rest }
theorem openEntry_cur (s : State) (e : QEntry) : (s.openEntry e).cur = s.cur := by
  show (if e.holds then s.freeHead s.cur else s).cur = s.cur
  split <;> rfl
theorem stepEntry_word {s t : State} {e : QEntry} {rest : List QEntry} {i : Instr} (hq : s.me.queue = e :: rest)
    (hw : e.word = some i) (hm : isMark i = false)
    (h : issueWord false (fun x => exec i (x.disarm (some i))) (s.openEntry e) = .next t) :
    stepEntry exec s = .next (s.leaveEntry t e rest) := by
  have hcur := openEntry_cur s e
  cases e
  cases hw
  unfold stepEntry
  rw [hq]
  unfold State.openEntry at h hcur
  dsimp only at h hcur ⊢
  rw [entryWord_noMark exec _ hm, h]
  dsimp only
  rw [hcur]
  simp only [hm, Bool.false_eq_true, if_false, State.leaveEntry, State.openEntry]
  split_ifs <;> rfl

-- Issue behind the queue (spec/08 R164) --------------------------------------------------------------------------------------

section
variable (s : State) (n : Nat)
@[simp] theorem passTime_pc : (s.passTime n).me.pc = s.me.pc := (congrArg Hart.pc (passTime_me s n) :)
@[simp] theorem passTime_queue : (s.passTime n).me.queue = s.me.queue := (congrArg Hart.queue (passTime_me s n) :)
@[simp] theorem passTime_run : (s.passTime n).me.run = s.me.run := (congrArg Hart.run (passTime_me s n) :)
@[simp] theorem passTime_stall : (s.passTime n).me.stall = s.me.stall := (congrArg Hart.stall (passTime_me s n) :)
@[simp] theorem passTime_heldAhead : (s.passTime n).me.heldAhead = s.me.heldAhead := (congrArg Hart.heldAhead (passTime_me s n) :)
end

/-- A turn of the issue behind the queue is what the hart issues there, and a cycle. -/
theorem step_ahead {s t : State} (hp : s.poweredDown = false) (h : issueAhead s = .next t) (hc : t.cur = s.cur) :
    step { s with agenda := .ahead s.cur :: s.agenda } = .next (t.passTime 1) := by
  have run : runTurn (.ahead s.cur) s = .next t := by
    have hout : asHartOut s.cur issueAhead s = .next { t with cur := s.cur } := by simp only [asHartOut, h]
    exact hout.trans (by rw [← hc])
  rw [step_agenda _ hp, run]
  rfl

section
variable {s : State} (hr : Claims.Ready s) (hh : s.endHold s.cur = s) (hq : s.me.queue ≠ []) (hs : s.me.steered = false)
  (hw : s.me.wait = .none) (hn : s.me.holdUntil ≤ s.now)
include hr hh hq hs hw hn
/-- A word of the queue that finds a place enters it. -/
theorem issueAhead_word {w : Nat} {i : Instr} {t : State} (hl : s.reelHeld s.cur = false)
    (hf : s.fetchWord s.cur s.me.pc = (.word w, t)) (hd : decodeControl (BitVec.ofNat 32 w) = some i)
    (ht : takesEntry i = true) (hp : s.me.places < 16) : issueAhead s = .next (t.queueWord i) := by
  have hdrained : s.me.drained = false := by simp [Hart.drained, hq]
  simp [issueAhead, hh, runs_of_ready hr, hdrained, hs, hw, hn, hl, hf, hd, ht, hp]
/-- A hart held by Reel issues nothing, and its stall begins (spec/18 R356). -/
theorem issueAhead_held (hl : s.reelHeld s.cur = true) : issueAhead s = .next (s.holdAhead s.cur) := by
  have hdrained : s.me.drained = false := by simp [Hart.drained, hq]
  simp [issueAhead, hh, runs_of_ready hr, hdrained, hs, hw, hn, hl]
end

/-- A word that enters the queue is its last entry, with what the hart captures, and the hart goes on at the next word. -/
theorem queueWord_enters (s : State) (i : Instr) (hl : s.myCore.interlocks.length < 32) :
    (s.queueWord i).cur = s.cur ∧ ∃ e, (s.queueWord i).me.queue = s.me.queue ++ [e] ∧ (s.queueWord i).me.pc = s.me.pc + 4 ∧
      (s.queueWord i).me.run = s.me.run ∧ e.word = some i ∧ e.issuePc = s.me.pc.toNat ∧ e.cap = s.me.capture := by
  have kept := offPath_entryRanges s i
  unfold State.queueWord
  generalize s.entryRanges i = x at kept
  obtain ⟨ranges, t⟩ := x
  have room : decide (32 ≤ t.myCore.interlocks.length) = false := by
    simp only [myInterlocks_of_offPath kept]; simpa using hl
  have hcur := cur_of_offPath kept
  have hme := me_of_offPath kept
  simp only [room, Bool.and_false, Bool.false_eq_true, if_false, State.updMe_me, State.updMe_cur]
  rw [← hme]
  cases ranges with
  | none => exact ⟨hcur, _, rfl, rfl, rfl, rfl, rfl, rfl⟩
  | some r => exact ⟨hcur, _, rfl, rfl, rfl, rfl, rfl, rfl⟩
/-- A word of the queue that finds no place in a full interlock table does not issue (spec/13 R264). -/
theorem queueWord_stalls {s : State} {i : Instr} (hr : (s.entryRanges i).1.isSome = true) (hl : 32 ≤ s.myCore.interlocks.length) :
    s.queueWord i = (s.entryRanges i).2.updMe fun h => { h with tableStall := true } := by
  have kept := offPath_entryRanges s i
  unfold State.queueWord
  generalize s.entryRanges i = x at kept hr
  obtain ⟨ranges, t⟩ := x
  have full : (ranges.isSome && decide (32 ≤ t.myCore.interlocks.length)) = true := by
    simpa [myInterlocks_of_offPath kept, hr] using hl
  exact if_pos full
end Sys2Proof.Machine
namespace Sys2Proof.Claims
open Machine

/-- Settles O57, clause by clause: which hart acts (`turn_act`), what it does (`act_…`), and how its word runs at the pc, in a
run, at the head of the queue or behind it. -/
theorem stepRunsDecoded : Obligations.StepRunsDecoded := by
  unfold Obligations.StepRunsDecoded
  intro s s1 s2 w sub i r0
  have hsettle : (s.settleOwes s.cur).cur = s.cur := (congrArg State.cur (offReel_settleOwes s s.cur) :)
  refine ⟨fun ha _ => ?settle, fun ha hsettled hfree => ?hold, fun ho hh hr => ⟨?word, ?vrest, ?amo, ?run, ?queue, ?ahead, ?held⟩⟩
  case settle =>
    refine step_congr (offReel_settleOwes s s.cur) ha ?_
    simp only [turn, hsettle, settleOwes_settleOwes]
  case hold =>
    have hoff : ((s.settleOwes s.cur).endHold s.cur).offReel = s.offReel :=
      (offReel_endHold _ _).trans (offReel_settleOwes s s.cur)
    have hcur : ((s.settleOwes s.cur).endHold s.cur).cur = s.cur := (congrArg State.cur hoff :)
    refine step_congr hoff ha ?_
    simp only [turn, hcur, hsettled, hfree]
  case word =>
    intro hat u hu hidle
    obtain ⟨-, -, -, hfree, -⟩ := id hat
    have hturn : turn s = issue s := (turn_act ho hh hr (by simp [hfree])).trans (act_word hat)
    have hstep : step u = after 1 (issue s) := by
      rw [← hturn]
      obtain rfl | rfl : u = s ∨ u = { s with agenda := .hart s.cur :: s.agenda } := by simpa using hu
      · exact step_idle hr.1 (hidle rfl)
      · exact step_agenda (.hart s.cur) hr.1
    rw [hstep]
    refine ⟨fun hf => ⟨fun hd => ?_, fun hd => ?_⟩, fun hf => ?_, fun hf => ?_⟩
    · rw [issue_word hf hd]
    · rw [issue_noInstr hf hd]
    · rw [issue_poison hf, me_of_offPath (offPath_of_fetchWord hf)]
    · rw [issue_fault hf, me_of_offPath (offPath_of_fetchWord hf)]
  case vrest =>
    intro ha hrest
    have hmid : s.me.midWord = true := by simp [Hart.midWord, hrest]
    rw [step_act ha ho hh hr (by simp [hmid]), act_rest hrest]
  case amo =>
    intro ha hrest hamo
    have hmid : s.me.midWord = true := by simp [Hart.midWord, hamo]
    rw [step_act ha ho hh hr (by simp [hmid]), act_amo hrest hamo]
  case run =>
    intro ha hmid hrun r hword hcheck
    have hbusy : s.me.drained = false := by simp [Hart.drained, hrun]
    have hrow := (act_run hmid (by simp [hrun])).trans (stepRow_word hrun hword hcheck)
    exact (step_act ha ho hh hr (by simp [hbusy])).trans (congrArg (after 1) hrow)
  case queue =>
    intro ha hmid hrun e rest t hq hw hm u hout
    have hbusy : s.me.drained = false := by simp [Hart.drained, hq]
    have hentry := (act_queue hmid hrun (by simp [hq])).trans (stepEntry_word hq hw hm hout)
    exact (step_act ha ho hh hr (by simp [hbusy])).trans (congrArg (after 1) hentry)
  case ahead =>
    intro hrun hq hs hw hn hp hl hf hd ht
    have kept := offPath_of_fetchWord hf
    have hme := me_of_offPath kept
    have hcur := cur_of_offPath kept
    have hlocks := myInterlocks_of_offPath kept
    have hnext := issueAhead_word hr hh hq hs hw hn hl hf hd ht hp
    refine ⟨fun hroom => ?_, fun hfull hx => ?_⟩
    · obtain ⟨hc, e, hqueue, hpc, hrun', hword, hissue, hcap⟩ := queueWord_enters s1 i (hlocks ▸ hroom)
      exact ⟨_, e, step_ahead hr.1 hnext (hc.trans hcur), by simp [hqueue, hme], hword, hme ▸ hissue, hme ▸ hcap,
        by simp [hpc, hme], by simp [hrun', hme, hrun]⟩
    · obtain ⟨d, b, m, rfl⟩ := hx
      have hstall := queueWord_stalls (s := s1) (i := .vldx d b m) rfl (hlocks ▸ hfull)
      rw [hstall] at hnext
      exact ⟨_, step_ahead hr.1 hnext hcur, by simp [State.entryRanges, hme], by simp [State.entryRanges, hme]⟩
  case held =>
    intro hrun hq hs hw hn hl
    have hnext := issueAhead_held hr hh hq hs hw hn hl
    have hheld : (s.holdAhead s.cur).me =
        { s.me with heldAhead := true, stall := s.me.stall <|> some (s.now, s.tstamp (dieOf s.cur)) } :=
      State.updMe_me s _
    refine ⟨_, step_ahead hr.1 hnext rfl, by simp [hheld], by simp [hheld], by simp [hheld], ?_⟩
    cases h : s.me.stall <;> simp [hheld, h]
end Sys2Proof.Claims
end

section
/-!
PROOFS. How a row executes a block word (spec/03 R57, spec/05 R102): outside a run it is refused, a row beyond the capacity or left
out by the prefix goes on, any other runs the body; and what a row fault takes back (spec/03 R73).
-/
namespace Sys2Proof.Machine

-- Capacities (spec/03 R54, spec/04 R82) -------------------------------------------------------------------------------------

/-- A lane holds 256 bytes of an element type. -/
theorem laneRows_mul (t : ETy) : t = .q ∨ (tyCode t < 4 ∧ Claims.laneRows t * 2 ^ tyCode t = 256) := by
  cases t <;> decide
/-- The capacity of an element type in a run, as the statements write it. -/
theorem cap1_eq (r : Run) (t : ETy) :
    r.cap1 t = if t = .q then slicedRows (r.cap.vtype.toNat % 32) r.cap.lanes else Claims.laneRows t * r.cap.lanes := by
  unfold Run.cap1 capOf
  split
  · simp [vtQw, bitsOf]
  case isFalse hq =>
    obtain ⟨hcode, hrows⟩ := (laneRows_mul t).resolve_left hq
    rw [vlmax, if_neg (by omega), ← hrows, Nat.mul_right_comm, Nat.mul_div_cancel _ (by positivity)]
theorem foldl_min_le {α : Type} (f : α → Nat) (l : List α) (n i : Nat) :
    l.foldl (fun n t => min n (f t)) n ≤ i ↔ n ≤ i ∨ ∃ t ∈ l, f t ≤ i := by
  induction l generalizing n with
  | nil => simp
  | cons t l ih => simp [ih, or_assoc]
/-- A row lies beyond the capacity of a word where it lies beyond that of a type of the word. -/
theorem capacity_le (r : Run) (ts : List ETy) (i : Nat) : r.capacity ts ≤ i ↔ 256 * r.cap.lanes ≤ i ∨ ∃ t ∈ ts, r.cap1 t ≤ i :=
  foldl_min_le _ _ _ _
theorem stripCap_eq (r : Run) (hw : r.cap.sw ≤ 4) :
    r.stripCap = Claims.mostRows (match r.cap.sw with
      | 0 => .w8
      | 1 => .w16
      | 2 => .w32
      | 3 => .w64
      | _ => .sliced) r.cap.swq r.cap.lanes := by
  unfold Run.stripCap vlmax
  generalize r.cap.sw = w at hw
  interval_cases w <;> simp [Claims.mostRows] <;> omega

-- The row's change of its run ------------------------------------------------------------------------------------------------

theorem updMe_congr {s : State} {f g : Hart → Hart} (h : f s.me = g s.me) : s.updMe f = s.updMe g := by
  rw [State.updMe_eq, State.updMe_eq, h]
theorem updRun_eq {s : State} {r : Run} (hr : s.me.run = some r) (f : Run → Run) :
    s.updRun f = s.updMe fun z => { z with run := some (f r) } :=
  updMe_congr (by rw [hr]; rfl)
theorem rowNext_eq {s : State} {r : Run} (hr : s.me.run = some r) :
    s.rowNext = s.updMe fun z => { z with run := some (Claims.rowChanged r fun x => { x with pc := x.pc + 8 }) } :=
  updRun_eq hr _
theorem rowEnd_eq {s : State} {r : Run} (hr : s.me.run = some r) :
    s.rowEnd = s.updMe fun z => { z with run := some (Claims.rowChanged r fun x => { x with ended := true }) } :=
  updRun_eq hr _

-- One word ---------------------------------------------------------------------------------------------------------------------

/-- The prefix of a word lets the row act. -/
def Lets (h : BHead) (s : State) (i : Nat) : Prop :=
  ∀ q, h.pred = some q → (s.me.pred q.p).prob = false ∧ (s.me.pred q.p).bit i ≠ q.neg
theorem rowActs_true {h : BHead} {s : State} {i : Nat} (hl : Lets h s i) : rowActs h i s = .ok (true, s) := by
  cases hp : h.pred with
  | none => simp [rowActs, hp]
  | some q =>
    obtain ⟨hc, hb⟩ := hl q hp
    simp [rowActs, hp, hc, hb]
theorem rowActs_false {h : BHead} {s : State} {i : Nat} {q : Prefix} (hq : h.pred = some q) (hc : (s.me.pred q.p).prob = false)
    (hb : (s.me.pred q.p).bit i = q.neg) : rowActs h i s = .ok (false, s) := by
  simp [rowActs, hq, hc, hb]

section
variable {h : BHead} {ts : List ETy} {cells : Bool} {cls : Nat} {body : Run → Nat → Op Unit} {s : State} {r : Run}
/-- Outside a run no row is there to execute a word (spec/02 R28). -/
theorem rowWord_outside (hr : s.me.run = none) : rowWord h ts cells cls body s = .refused .blockWordOutsideRun := by
  simp [rowWord, hr]
/-- A row beyond the capacity goes on. -/
theorem rowWord_beyond (hr : s.me.run = some r) (hc : (cells || h.pred.isSome) = true) (hcap : r.capacity ts ≤ r.cur) :
    rowWord h ts cells cls body s = .next s.rowNext := by
  simp [rowWord, hr, finish, hc, hcap]
/-- A row that the prefix leaves out goes on. -/
theorem rowWord_leftOut (hr : s.me.run = some r) {q : Prefix} (hq : h.pred = some q) (hc : (s.me.pred q.p).prob = false)
    (hb : (s.me.pred q.p).bit r.cur = q.neg) : rowWord h ts cells cls body s = .next s.rowNext := by
  by_cases hcap : r.capacity ts ≤ r.cur
  · exact rowWord_beyond hr (by simp [hq]) hcap
  · simp [rowWord, hr, finish, hcap, rowActs_false hq hc hb]
/-- A row that acts runs the body, and is charged. -/
theorem rowWord_acts (hr : s.me.run = some r) (hl : Lets h s r.cur) (hcap : (cells || h.pred.isSome) = true → r.cur < r.capacity ts) :
    rowWord h ts cells cls body s = finish (do body r r.cur; upd fun s => s.chargeMe cls 1) s := by
  have inside : ((cells || h.pred.isSome) && decide (r.capacity ts ≤ r.cur)) = false := by
    rw [Bool.and_eq_false_imp]
    intro hc
    simpa using hcap hc
  simp only [rowWord, hr, finish, inside, Op.bind_run, rowActs_true hl, Bool.false_eq_true, if_false, if_true]
end

/-- A row ready for a word acts, below the capacity of the word. -/
theorem acts_of_ready {s : State} {r : Run} {h : BHead} {ts : List ETy} {m : Option Reg} (hr : Claims.RowReady s r h ts m) :
    s.me.run = some r ∧ Lets h s r.cur ∧ r.cur < r.capacity ts := by
  obtain ⟨hrun, hlets, hlanes, htypes, -⟩ := hr
  refine ⟨hrun, hlets, Nat.lt_of_not_le fun hcap => ?_⟩
  obtain hl | ⟨t, ht, hle⟩ := (capacity_le r ts r.cur).1 hcap
  · omega
  · exact absurd (htypes t ht) (by rw [cap1_eq] at hle; omega)

/-- An instruction that executes as a block word which reads or writes rows of some types. -/
def IsRowWord (h : BHead) (ts : List ETy) (i : Instr) : Prop := ∃ cls body, ∀ s, exec i s = rowWord h ts true cls body s

-- Row faults (spec/03 R73) --------------------------------------------------------------------------------------------------------

/-- What a row fault leaves before its trap: the run is abandoned, and the hart stands at its vf or vdrain. -/
def State.backToIssue (s : State) (r : Run) : State :=
  (s.abandonRun s.cur).updMe fun x => { x with pc := BitVec.ofNat 64 r.issuePc }
/-- Giving up the requests of rows changes the engines alone. -/
theorem dropRowRequests_eq (s : State) (h : Nat) : ∃ cs, s.dropRowRequests h = { s with clusters := cs } := by
  unfold State.dropRowRequests
  dsimp only
  split
  · exact ⟨_, rfl⟩
  · exact ⟨s.clusters, rfl⟩
/-- An abandoned run is gone with its stores and the words behind it; no other hart changes. -/
theorem abandonRun_harts {s : State} {r : Run} {h : Nat} (hr : (s.hart h).run = some r) :
    (s.abandonRun h).cur = s.cur ∧ (s.abandonRun h).harts =
      (s.updHart h fun x => { x with run := none, queue := [], buffer := withoutInstances x.buffer }).harts := by
  obtain ⟨cs, hcs⟩ := dropRowRequests_eq s h
  unfold State.abandonRun
  rw [hr]
  simp only [hcs]
  exact ⟨rfl, rfl⟩
theorem rowFault_traps {α : Type} {s : State} {r : Run} (hr : s.me.run = some r) (hc : s.copying s.cur = false) (cause : Nat) (value : Word) :
    (rowFault cause 0 value : Op α) s = .error ((s.backToIssue r).takeTrap s.cur (Claims.rowTrap r cause value)) := by
  have hcur : (s.abandonRun s.cur).cur = s.cur := (abandonRun_harts hr).1
  simp [rowFault, rowFaultAt, hr, hc, State.backToIssue, hcur, Claims.rowTrap]
theorem backToIssue_me {s : State} {r : Run} (hr : s.me.run = some r) :
    (s.backToIssue r).me = { s.me with run := none, queue := [], buffer := withoutInstances s.me.buffer, pc := BitVec.ofNat 64 r.issuePc } := by
  obtain ⟨hcur, hharts⟩ := abandonRun_harts hr
  have hme : (s.abandonRun s.cur).me = { s.me with run := none, queue := [], buffer := withoutInstances s.me.buffer } := by
    rw [State.me, hcur, State.hart, hharts]
    exact (Tab.get_put ..).trans (if_pos rfl)
  rw [State.backToIssue, State.updMe_me, hme]

end Sys2Proof.Machine
end

section
/-!
PROOFS. How rows leave the common path (spec/03 R65, R66, R69, R71): vfetch, vstop, vdefer, and the rows that a word skips.
-/
namespace Sys2Proof.Machine

-- Skipped rows (spec/05 R102) -------------------------------------------------------------------------------------------------

theorem vamoTypes_eq (ty : AmoTy) : vamoTypes ty = [Claims.amoRowTy ty, .z64] := by
  cases ty <;> rfl
section
variable (h : BHead) (t : ETy) (d : Reg) (a b : Src) (i : BitVec 12)
theorem isRowWord_vadd (rm : Rm) :
    IsRowWord h [t] (.vadd h t rm d a b none) :=
  ⟨_, _, fun s => by rw [show exec (.vadd h t rm d a b none) s = execVadd h t rm d a b none s from rfl, execVadd, rowTwo, rowResult]⟩
theorem isRowWord_vfma (rm : Rm) :
    IsRowWord h [t] (.vfma h t rm d a b a none) :=
  ⟨_, _, fun s => by rw [show exec (.vfma h t rm d a b a none) s = execVfma h t rm d a b a none s from rfl, execVfma, rowResult]⟩
theorem isRowWord_vmov  :
    IsRowWord h [t] (.vmov h t d a) :=
  ⟨_, _, fun s => by rw [show exec (.vmov h t d a) s = execVmov h t d a s from rfl, execVmov, bitsOne, rowResult]⟩
theorem isRowWord_vcmp (cc : CmpOp) :
    IsRowWord h [t] (.vcmp h cc t d a b) :=
  ⟨_, _, fun s => by rw [show exec (.vcmp h cc t d a b) s = execVcmp h cc t d a b s from rfl, execVcmp, rowCell]⟩
theorem isRowWord_pand (p q : Reg) :
    IsRowWord h [] (.pand h d p q) :=
  ⟨_, _, fun s => by rw [show exec (.pand h d p q) s = execPand h d p q s from rfl, execPand, logicTwo, rowCell]⟩
theorem isRowWord_pset  :
    IsRowWord h [.z16] (.pset h d a) :=
  ⟨_, _, fun s => by rw [show exec (.pset h d a) s = execPset h d a s from rfl, execPset, rowCell]⟩
theorem isRowWord_vlde (o : Orient) :
    IsRowWord h [t, .z64] (.vlde h o t d a i) :=
  ⟨_, _, fun s => by rw [show exec (.vlde h o t d a i) s = execVlde h o t d a i s from rfl, execVlde]⟩
theorem isRowWord_vste (o : Orient) :
    IsRowWord h [t, .z64] (.vste h o t a b i) :=
  ⟨_, _, fun s => by rw [show exec (.vste h o t a b i) s = execVste h o t a b i s from rfl, execVste]⟩
theorem isRowWord_vamo (op : AmoOp) (c : Scope) (ty : AmoTy) (n : Src) :
    IsRowWord h (vamoTypes ty) (.vamo h op c ty d a b n) :=
  ⟨_, _, fun s => by rw [show exec (.vamo h op c ty d a b n) s = execVamo h op c ty d a b n s from rfl, execVamo]⟩
end
/-- The block words of RowControl, each with its element types. -/
theorem isRowWord_words (h : BHead) (cc : CmpOp) (o : Orient) (op : AmoOp) (sc : Scope) (ty : AmoTy) (t : ETy) (rm : Rm) (e : Reg)
    (x y : Src) (i : BitVec 12) :
    ∀ w ∈ [(Instr.vadd h t rm e x y none, [t]), (.vfma h t rm e x y x none, [t]), (.vmov h t e x, [t]), (.vcmp h cc t e x y, [t]),
      (.pand h e x.r y.r, []), (.pset h e x, [.z16]), (.vlde h o t e x i, [t, .z64]), (.vste h o t x y i, [t, .z64]),
      (.vamo h op sc ty e x y x, [Claims.amoRowTy ty, .z64])], IsRowWord h w.2 w.1 := by
  have hvamo : IsRowWord h [Claims.amoRowTy ty, .z64] (.vamo h op sc ty e x y x) := vamoTypes_eq ty ▸ isRowWord_vamo ..
  simp only [List.forall_mem_cons, List.not_mem_nil, IsEmpty.forall_iff, implies_true, and_true]
  exact ⟨isRowWord_vadd .., isRowWord_vfma .., isRowWord_vmov .., isRowWord_vcmp .., isRowWord_pand .., isRowWord_pset ..,
    isRowWord_vlde .., isRowWord_vste .., hvamo⟩

section
variable {h : BHead} {ts : List ETy} {w : Instr} {s : State} {r : Run} (hw : IsRowWord h ts w)
include hw
theorem exec_beyond (hr : s.me.run = some r) (hcap : r.capacity ts ≤ r.cur) : exec w s = .next s.rowNext := by
  obtain ⟨cls, body, hw⟩ := hw
  rw [hw, rowWord_beyond hr (Bool.true_or _) hcap]
theorem exec_leftOut (hr : s.me.run = some r) {q : Prefix} (hq : h.pred = some q) (hc : (s.me.pred q.p).prob = false)
    (hb : (s.me.pred q.p).bit r.cur = q.neg) : exec w s = .next s.rowNext := by
  obtain ⟨cls, body, hw⟩ := hw
  rw [hw, rowWord_leftOut hr hq hc hb]
theorem exec_outside (hr : s.me.run = none) : exec w s = .refused .blockWordOutsideRun := by
  obtain ⟨cls, body, hw⟩ := hw
  rw [hw, rowWord_outside hr]
end

-- vfetch and vstop (spec/03 R65, R66) ------------------------------------------------------------------------------------------

theorem blockTarget_eq (r : Run) (i : BitVec 12) : blockTarget r.row.pc i = Claims.blockAt r i := by
  rw [blockTarget, Claims.blockAt, BitVec.ofInt_mul]
  rfl
theorem execVfetch_acts {h : BHead} {i : BitVec 12} {s : State} {r : Run} (hr : Claims.RowReady s r h [] none) :
    execVfetch h i s = .next ((s.updMe fun z => { z with run := some (Claims.rowChanged r fun x =>
      { x with pc := Claims.blockAt r i, block := Claims.blockAt r i }) }).chargeMe 2 1) := by
  obtain ⟨hrun, hlets, hcap⟩ := acts_of_ready hr
  rw [execVfetch, rowWord_acts hrun hlets fun _ => hcap]
  simp only [finish, Op.bind_run, upd_run, updRun_eq hrun, blockTarget_eq]
  rfl
theorem execVstop_acts {s : State} {r : Run} (hr : s.me.run = some r) :
    execVstop s = .next ((s.updMe fun z => { z with run := some (Claims.rowChanged r fun x => { x with ended := true }) }).chargeMe 2 1) := by
  rw [execVstop, rowWord_acts hr (by simp [Lets, plainHead]) (by simp [plainHead])]
  simp only [finish, Op.bind_run, upd_run, rowEnd_eq hr]

-- vdefer (spec/03 R69, R71) ------------------------------------------------------------------------------------------------------

/-- An entry joins the Geyser queue of the executing hart's core. -/
def State.pushGeyser (s : State) (e : GEntry) : State :=
  s.updCore (coreOf s.cur) fun k => { k with geyser := k.geyser ++ [e] }
@[simp] theorem pushGeyser_offPath (s : State) (e : GEntry) : (s.pushGeyser e).offPath = s.offPath :=
  offPath_updCore s _ fun _ => rfl
theorem pushGeyser_core (s : State) (e : GEntry) : ((s.pushGeyser e).core (coreOf s.cur)).geyser = s.myCore.geyser ++ [e] := by
  rw [State.pushGeyser, State.updCore_eq, State.setCore_core, if_pos rfl]
  rfl
/-- What a vdefer leaves that finds a place in the queue. -/
def State.deferred (s : State) (e : GEntry) : State := (((s.pushGeyser e).bumpMe 10 1).rowEnd).chargeMe 2 1
section
variable {h : BHead} {d : Option Reg} {a b c : Option Src} {i : BitVec 12} {s : State} {r : Run}
  (hr : Claims.RowReady s r h [] none) (hs : r.cur < r.stripCap)
include hr hs
theorem execVdefer_room (hroom : s.myCore.geyser.length < 4096) :
    execVdefer h d a b c i s = .next (s.deferred (deferEntry r s.me s.cur r.cur (blockTarget r.row.pc i) d a b c)) := by
  obtain ⟨hrun, hlets, hcap⟩ := acts_of_ready hr
  simp only [execVdefer, hrun, if_neg (Nat.not_le.2 hs), rowWord_acts hrun hlets fun _ => hcap]
  simp [finish, Nat.not_le.2 hroom, State.deferred, State.pushGeyser]
theorem execVdefer_full (hfull : 4096 ≤ s.myCore.geyser.length) (hc : s.copying s.cur = false) :
    execVdefer h d a b c i s = .next ((s.backToIssue r).takeTrap s.cur
      (Claims.rowTrap r 0x12 (BitVec.ofNat 64 (r.row.pc - r.row.block)))) := by
  obtain ⟨hrun, hlets, hcap⟩ := acts_of_ready hr
  simp only [execVdefer, hrun, if_neg (Nat.not_le.2 hs), rowWord_acts hrun hlets fun _ => hcap]
  simp [finish, hfull, rowFault_traps hrun hc]
end
/-- A hart's counts change no core. -/
theorem bumpHart_core (s : State) (h slot n c : Nat) : (s.bumpHart h slot n).core c = s.core c := by
  have sel : ∀ (l : List Nat) (t : State), (State.bumpSel t h slot n l).core c = t.core c := by
    intro l
    induction l with
    | nil => exact fun t => rfl
    | cons j l ih =>
      intro t
      refine (ih _).trans ?_
      split <;> rfl
  exact sel _ _
theorem deferred_geyser (s : State) (e : GEntry) : (s.deferred e).myCore.geyser = s.myCore.geyser ++ [e] := by
  have hoff : ((s.pushGeyser e).bumpMe 10 1).offPath = s.offPath := (offPath_bumpHart _ _ 10 1).trans (pushGeyser_offPath s e)
  have hcur : (s.deferred e).cur = s.cur := (cur_of_offPath hoff :)
  have hcore : (s.deferred e).core (coreOf s.cur) = (s.pushGeyser e).core (coreOf s.cur) := bumpHart_core _ _ 10 1 _
  rw [State.myCore, hcur, hcore, pushGeyser_core]
/-- A charge of energy to the executing hart. -/
theorem chargeMe_me (s : State) (cls n : Nat) :
    (s.chargeMe cls n).me = { s.me with ectr := chargeTo s.me.ectr (n * s.weight (coreOf s.cur) cls) } := State.updMe_me s _
theorem deferred_me {s : State} {r : Run} (hr : s.me.run = some r) (e : GEntry) :
    (s.deferred e).me.run = some (Claims.rowChanged r fun x => { x with ended := true }) ∧ (s.deferred e).me.v = s.me.v := by
  have hme : ((s.pushGeyser e).bumpMe 10 1).me = s.me := me_of_offPath ((offPath_bumpHart _ _ 10 1).trans (pushGeyser_offPath s e))
  rw [State.deferred, chargeMe_me, rowEnd_eq (hme.symm ▸ hr), State.updMe_me, hme]
  exact ⟨rfl, rfl⟩
/-- The entry of a vdefer (spec/03 R68): what it names, and the elements of the registers that it carries. -/
theorem deferEntry_vals {r : Run} (hw : r.cap.sw < 4) (x : Hart) (k i target : Nat) (d : Option Reg) (a b c : Option Src) :
    ∀ y ∈ [(d, 0), (a.map (·.r), 1), (b.map (·.r), 2), (c.map (·.r), 3)], ∀ reg, y.1 = some reg →
      (deferEntry r x k i target d a b c).vals[y.2]? = some (Claims.row x reg (8 * 2 ^ r.cap.sw) i) := by
  have hval : ∀ reg, stripElem x r.cap.sw r.cap.swq r.cap.lanes reg i = Claims.row x reg (8 * 2 ^ r.cap.sw) i := fun reg => by
    rw [stripElem, if_neg (by omega), Hart.elem, elemAt, bitsAt, Nat.shiftRight_eq_div_pow, Claims.row]
  simp only [List.forall_mem_cons, List.not_mem_nil, IsEmpty.forall_iff, implies_true, and_true]
  refine ⟨?_, ?_, ?_, ?_⟩ <;> rintro reg hreg <;> simp [deferEntry, hreg, hval]

end Sys2Proof.Machine

namespace Sys2Proof.Claims
open Machine

/-- Settles O41: a row that acts runs the body of its word, one left out or beyond the capacity goes on, and none executes outside a
run. -/
theorem rowControl : Obligations.RowControl := by
  unfold Obligations.RowControl
  intro h cc o op sc ty t rm d e a b c x y i s r ended words skips
  have isRow := isRowWord_words h cc o op sc ty t rm e x y i
  refine ⟨fun hrun => ⟨execVstop_acts hrun, fun hready => ⟨?fetch, fun hcur hsw => ⟨fun hroom => ?defers, fun hfull hc => ?faults⟩⟩,
    fun w hw hk => ?beyond, fun q hq hp hb w hw => ?leftOut⟩, fun hrun => ?outside⟩
  case fetch => exact ⟨_, execVfetch_acts hready, by simp [chargeMe_me]⟩
  case defers =>
    have hstrip : r.cur < r.stripCap := by rw [stripCap_eq r hsw]; exact hcur
    obtain ⟨hended, hv⟩ := deferred_me hrun (deferEntry r s.me s.cur r.cur (blockTarget r.row.pc i) d a b c)
    refine ⟨_, _, execVdefer_room hready hstrip hroom, hended, deferred_geyser _ _, rfl, rfl, ?_, rfl, ?_,
      fun hw => deferEntry_vals hw _ _ _ _ _ _ _ _, hv⟩
    · rw [← blockTarget_eq]; rfl
    · simp [deferEntry]
  case faults =>
    have hstrip : r.cur < r.stripCap := by rw [stripCap_eq r hsw]; exact hcur
    have hme := backToIssue_me hrun
    exact ⟨s.backToIssue r, fun k => by simp [State.readX, Hart.readX, hme], by rw [hme], execVdefer_full hready hstrip hfull hc⟩
  case beyond =>
    obtain ⟨k, hk, hle⟩ := hk
    have hcap : r.capacity w.2 ≤ r.cur := (capacity_le r w.2 r.cur).2 (.inr ⟨k, hk, by rwa [cap1_eq]⟩)
    exact (exec_beyond (isRow w hw) hrun hcap).trans (by rw [rowNext_eq hrun])
  case leftOut => exact (exec_leftOut (isRow w hw) hrun hq hp hb).trans (by rw [rowNext_eq hrun])
  case outside =>
    intro w hw
    obtain rfl | rfl | rfl | ⟨v, hv, rfl⟩ : w = .vstop ∨ w = .vfetch h i ∨ w = .vdefer h d a b c i ∨ ∃ v ∈ words, v.1 = w := by
      simpa only [List.mem_cons, List.mem_map] using hw
    · exact (rowWord_outside hrun : execVstop s = _)
    · exact (rowWord_outside hrun : execVfetch h i s = _)
    · show execVdefer h d a b c i s = _
      simp [execVdefer, hrun]
    · exact exec_outside (isRow v hv) hrun

end Sys2Proof.Claims
end

section
/-!
PROOFS. A row that waits for an atomic engine, and a stall by Reel that is open meanwhile (spec/13 R272, spec/18 R356): the wait ends
the stall, and the stall's record is written to memory.
-/
namespace Sys2Proof.Machine

/-- A row whose vamo waits at its engine goes on waiting (spec/13 R272). -/
theorem execVamo_waits {h : BHead} {op : AmoOp} {c : Scope} {ty : AmoTy} {d : Reg} {a b n : Src} {s : State} {r : Run} {pa : Nat}
    (hr : Claims.RowReady s r h (vamoTypes ty) none) (hw : r.row.amo = .waiting pa) :
    execVamo h op c ty d a b n s = .next (s.waitFor s.cur .atomic) := by
  obtain ⟨hrun, hlets, hcap⟩ := acts_of_ready hr
  rw [execVamo, rowWord_acts hrun hlets fun _ => hcap]
  simp [finish, hw]

/-- A run of one row, which waits for an engine with its vamo at 0x1000. -/
def waitingRun : Run :=
  { issuePc := 0x4000, target := 0x4000, n := 1, words := [], rows := [{ pc := 0x4000, block := 0x4000, amo := .waiting 0x1000 }],
    cap := { vlen := 1, lanes := 4 } }
/-- Hart 0 in that run while a stall by Reel is open. A stream whose ring of 16 slots has its header at address 0 is enabled for the
records of class 5, which the hart emits as it does after reset. -/
def stalledInRun : State :=
  { harts := [(0, { run := some waitingRun, stall := some (0, 0) })], streams := [(0, { sctl := 0xA000000000200004 })] }
theorem stalledInRun_ready : Claims.RowReady stalledInRun waitingRun ⟨false, none⟩ [.z64, .z64] none :=
  ⟨rfl, ⟨by simp, by decide, by decide, by simp⟩⟩
/-- The wait ends the stall: the ring's header then counts one record. -/
theorem stalledInRun_waits : Memory.read (stalledInRun.waitFor 0 .atomic).mem 0 = 1 := by decide +kernel

end Sys2Proof.Machine

namespace Sys2Proof.Claims
open Machine

/-- Refutes O40: RowAtomics says of a row that waits at its engine that memory stays as it was, of whatever state; where a stall by
Reel is open, the wait ends it, and its record 0x0501 goes to memory (stalledInRun). -/
theorem not_rowMemoryWords : ¬ Obligations.RowMemoryWords := by
  unfold Obligations.RowMemoryWords
  rintro ⟨-, -, hatomics⟩
  obtain ⟨hwaits, -⟩ := hatomics ⟨false, none⟩ .add .die .s64 0 ⟨0, false⟩ ⟨0, false⟩ ⟨0, false⟩ stalledInRun waitingRun ⟨0, 0, 0⟩ 0
    stalledInRun_ready (by decide)
  obtain ⟨t, ht, -, -, -, -, hmem, -⟩ := hwaits 0x1000 rfl
  have hexec : execVamo ⟨false, none⟩ .add .die .s64 0 ⟨0, false⟩ ⟨0, false⟩ ⟨0, false⟩ stalledInRun = .next t := ht
  rw [execVamo_waits (pa := 0x1000) stalledInRun_ready rfl, Host.Outcome.next.injEq] at hexec
  have hread := stalledInRun_waits
  rw [show stalledInRun.waitFor 0 .atomic = t from hexec, hmem] at hread
  exact absurd hread (by decide)

end Sys2Proof.Claims
end

section
/-!
PROOFS. What writes at the homes and acquires keep (spec/14 R278, R287), and what a record of Reel can do to a hart (spec/18 R352,
R356): set its event latch, note a debt, join the records behind its marks.
-/
namespace Sys2Proof.Machine

-- The path to the homes (spec/14 R278) ---------------------------------------------------------------------------------------

/-- What the caches, the drains and the homes do not touch. -/
def State.offHome (s : State) : State := { s.withoutCaches with mem := [], poison := [], drains := [] }
theorem offHome_of_offPath {s t : State} (h : t.offPath = s.offPath) : t.offHome = s.offHome :=
  congrArg (fun x => { x.1 with mem := [], poison := [], drains := [] }) h
theorem harts_of_offHome {s t : State} (h : t.offHome = s.offHome) : t.harts = s.harts := (congrArg State.harts h :)

@[simp] theorem offHome_settle (s : State) (d : Nat) (cs : List Host.Cell) (ms : List Nat) (b : Bool) :
    (s.settle d cs ms b).offHome = s.offHome :=
  foldl_keeps State.offHome _ (fun s _ => offHome_of_offPath (offPath_mscTouch s _ _ _ _)) _ _
@[simp] theorem offHome_forget (s : State) (k : Nat) (pas : List Nat) : (s.forget k pas).offHome = s.offHome := rfl
@[simp] theorem offHome_retouch (s : State) (k : Nat) (cs : List Host.Cell) : (s.retouch k cs).offHome = s.offHome := rfl
@[simp] theorem offHome_cleanCells (s : State) (k : Nat) (cs : List Host.Cell) : (s.cleanCells k cs).offHome = s.offHome := rfl
@[simp] theorem offHome_removeLines (s : State) (k : Nat) (p : LineKey → Bool) : (s.removeLines k p).offHome = s.offHome := by
  simp only [State.removeLines, offHome_forget, offHome_retouch]
  refine (foldl_keeps State.offHome _ (fun s j => ?_) _ _).trans (rfl : (s.setCluster k _).offHome = s.offHome)
  split <;> rfl
@[simp] theorem offHome_landSectors (s : State) (k : Nat) (secs : List Nat) : (s.landSectors k secs).1.offHome = s.offHome :=
  foldl_keeps State.offHome _ (fun s _ => offHome_settle s _ _ _ _) _ _
@[simp] theorem offHome_purgeAt (s : State) (k pa : Nat) : (s.purgeAt k pa).1.offHome = s.offHome := by
  unfold State.purgeAt
  dsimp only
  split <;> simp
@[simp] theorem offHome_purgeDie (s : State) (k : Option Nat) (pa : Nat) : (s.purgeDie k pa).1.offHome = s.offHome :=
  foldl_keeps_fst State.offHome _ (fun x j => by dsimp only; split <;> simp) _ _
@[simp] theorem offHome_reread (s : State) (k : Nat) (secs : List Nat) : (s.reread k secs).offHome = s.offHome := by
  unfold State.reread
  dsimp only
  split <;> rfl
@[simp] theorem offHome_accept (s : State) (k : Option Nat) (d : Nat) (cs : List Host.Cell) (ms : List Nat) (b : Bool) :
    (s.accept k d cs ms b).offHome = s.offHome := by
  have purged := foldl_keeps_fst State.offHome
    (fun (x : State × List Host.Cell) pa => ((x.1.purgeDie k pa).1, x.2 ++ (x.1.purgeDie k pa).2))
    (fun x pa => offHome_purgeDie x.1 k pa) (sectorBytes cs) (s, [])
  unfold State.accept
  dsimp only
  split <;> simp only [offHome_reread, offHome_settle, purged]
@[simp] theorem offHome_flushDrains (s : State) : s.flushDrains.offHome = s.offHome := by
  have first : ∀ (n : Nat) (t : State), (t.flushFirst n).offHome = t.offHome := by
    intro n
    induction n with
    | zero => exact fun _ => rfl
    | succ n ih =>
      intro t
      unfold State.flushFirst
      split
      · rfl
      · rw [ih, offHome_accept]; rfl
  exact first _ s
@[simp] theorem offHome_drainBytes (s : State) (k : Nat) (p : Nat → Bool) : (s.drainBytes k p).offHome = s.offHome := by
  unfold State.drainBytes
  dsimp only
  split <;> simp
@[simp] theorem offHome_drainLines (s : State) (k : Nat) (p : LineKey → Bool) : (s.drainLines k p).offHome = s.offHome := by
  unfold State.drainLines
  dsimp only
  split <;> simp
@[simp] theorem offHome_dropLines (s : State) (k : Nat) (p : LineKey → Bool) : (s.dropLines k p).offHome = s.offHome := by
  unfold State.dropLines State.evict
  split <;> simp

-- Acquires (spec/14 R279, R287) --------------------------------------------------------------------------------------------------

@[simp] theorem offHome_drainCore (s : State) (core : Nat) : (s.drainCore core).offHome = s.offHome := by
  refine (foldl_keeps State.offHome _ (fun s d => ?_) _ _).trans (offHome_drainBytes s _ _)
  split <;> rfl
@[simp] theorem offHome_dropRecorded (s : State) (d : Nat) (l : List LineKey) : (s.dropRecorded d l).offHome = s.offHome := by
  unfold State.dropRecorded
  split
  · rfl
  · exact foldl_keeps State.offHome _ (fun s _ => offHome_dropLines s _ _) _ _
@[simp] theorem offHome_acquireSide (s : State) (h : Nat) (c : Scope) (rs : List Release) :
    (s.acquireSide h c rs).offHome = s.offHome := by
  unfold State.acquireSide
  dsimp only
  split
  · rfl
  · refine (foldl_keeps State.offHome _ (fun s _ => offHome_dropLines s _ _) _ _).trans ?_
    exact foldl_keeps State.offHome _ (fun s r => by simp) _ _
@[simp] theorem offHome_acquireAll (s : State) (h : Nat) (c : Scope) : (s.acquireAll h c).offHome = s.offHome := by
  unfold State.acquireAll
  dsimp only
  split <;> simp

-- What a record does to the harts (spec/11 R230, spec/18 R349, R356) --------------------------------------------------------------

/-- A hart y is x, but that its latch may have come up, and that it owes and keeps behind its marks what it does. -/
structure Hart.Noted (x y : Hart) : Prop where
  latch : x.latch = true → y.latch = true
  rest : y = { x with latch := y.latch, owes := y.owes, behind := y.behind }
/-- Every hart is as before but for such notes. -/
def State.Notes (s t : State) : Prop := ∀ k, (s.hart k).Noted (t.hart k)
theorem Hart.Noted.refl (x : Hart) : x.Noted x := ⟨id, rfl⟩
theorem Hart.Noted.trans {x y z : Hart} (h : x.Noted y) (g : y.Noted z) : x.Noted z :=
  ⟨fun e => g.latch (h.latch e), by rw [g.rest, h.rest]⟩
theorem State.Notes.trans {s t u : State} (h : s.Notes t) (g : t.Notes u) : s.Notes u := fun k => (h k).trans (g k)
theorem notes_of_harts {s t : State} (h : t.harts = s.harts) : s.Notes t := fun k => by
  rw [State.hart, State.hart, h]; exact .refl _
theorem notes_of_offHome {s t : State} (h : t.offHome = s.offHome) : s.Notes t := notes_of_harts (harts_of_offHome h)
theorem notes_of_offPath {s t : State} (h : t.offPath = s.offPath) : s.Notes t := notes_of_harts (harts_of_offPath h)
theorem notes_refl (s : State) : s.Notes s := notes_of_harts rfl
theorem notes_updHart (s : State) (k : Nat) {f : Hart → Hart} (h : (s.hart k).Noted (f (s.hart k))) : s.Notes (s.updHart k f) := fun j => by
  rw [State.updHart_eq, State.setHart_hart]
  split
  case isTrue e => exact e ▸ h
  case isFalse => exact .refl _
theorem State.Notes.after {s t u : State} (g : t.Notes u) (h : t.harts = s.harts) : s.Notes u := (notes_of_harts h).trans g
theorem notes_foldl {α : Type} (f : State → α → State) (h : ∀ (s : State) a, s.Notes (f s a)) (l : List α) (s : State) : s.Notes (l.foldl f s) := by
  induction l generalizing s with
  | nil => exact notes_refl s
  | cons a l ih => exact (h s a).trans (ih _)

/-- What a hart reads as after a change of each entry of the table that keeps its key. -/
theorem notes_mapHarts {s t : State} (F : Nat × Hart → Nat × Hart) (hF : ∀ e, (F e).1 = e.1 ∧ e.2.Noted (F e).2)
    (h : t.harts = s.harts.map F) : s.Notes t := fun k => by
  simp only [State.hart, Tab.get, h]
  generalize s.harts = l
  induction l with
  | nil => exact .refl _
  | cons e l ih =>
    obtain ⟨hkey, hnoted⟩ := hF e
    simp only [List.map_cons, Tab.find, hkey]
    split
    · exact hnoted
    · exact ih
theorem notes_wakeOthers (s : State) (h : Option Nat) (pas : List Nat) : s.Notes (s.wakeOthers h pas) := by
  unfold State.wakeOthers
  dsimp only
  split
  · refine notes_mapHarts _ (fun e => ?_) rfl
    split_ifs
    · exact ⟨rfl, fun _ => rfl, rfl⟩
    · exact ⟨rfl, .refl _⟩
  · exact notes_refl s
theorem notes_writeHome (s : State) (d pa n v : Nat) : s.Notes (s.writeHome d pa n v) :=
  (notes_of_offHome (by simp)).trans (notes_wakeOthers (s.flushDrains.accept none d (((upTo n).map (pa + ·)).zip (bytesLE n v)) []) _ _)
theorem notes_writeHomeBytes (s : State) (d pa : Nat) (bs : List Byte) : s.Notes (s.writeHomeBytes d pa bs) :=
  (notes_of_offHome (by simp)).trans (notes_wakeOthers (s.flushDrains.accept none d (((upTo bs.length).map (pa + ·)).zip bs) []) _ _)
theorem notes_putSlot (s : State) (n : Nat) (r : Rec) : s.Notes (s.putSlot n r) :=
  ((notes_writeHomeBytes s _ _ _).trans (notes_writeHome _ _ _ _ _)).trans (notes_of_harts rfl)
theorem notes_lose (s : State) (r : Rec) (n : Nat) : s.Notes (s.lose r n) := by
  unfold State.lose
  split <;> exact notes_of_harts rfl
theorem notes_putDrops (s : State) (n : Nat) : s.Notes (s.putDrops n) := by
  unfold State.putDrops
  dsimp only
  split
  · exact notes_refl s
  · exact ((notes_of_harts rfl).trans (notes_putSlot (s.mkRec 1706 0x0500 none _ _).2 n _)).trans (notes_of_harts rfl)
theorem notes_putHouse (s : State) (n src : Nat) : s.Notes (s.putHouse n src) :=
  (notes_foldl _ (fun s r => notes_putSlot s n r) _ _).after rfl
theorem notes_deliverTo (s : State) (r : Rec) (n : Nat) : s.Notes (s.deliverTo r n) := by
  refine (notes_of_offPath (offPath_mscReads s [(s.stream n).header + 8] false)).trans ?_
  unfold State.deliverTo
  dsimp only
  split
  · exact ((notes_putDrops _ n).trans (notes_putHouse _ n _)).trans (notes_putSlot _ n r)
  · exact notes_lose _ r n
theorem notes_deliverAll (s : State) (r : Rec) (l : List Nat) : s.Notes (s.deliverAll r l) :=
  notes_foldl _ (fun s n => notes_deliverTo s r n) _ _
theorem notes_deliverLossy (s : State) (r : Rec) (ns older : List Nat) : s.Notes (s.deliverLossy r ns older) := by
  have lost := (notes_deliverAll s r (ns.filter (!older.contains ·))).trans
    (notes_foldl _ (fun s n => notes_lose s r n) (ns.filter older.contains) _)
  unfold State.deliverLossy
  dsimp only
  split
  · exact lost.trans (notes_of_offPath (offPath_bumpHart _ _ _ _))
  · exact lost
theorem notes_reserve (s : State) (d : Nat) (r : Rec) (k : Nat) : s.Notes (s.reserve d r k) := by
  unfold State.reserve
  dsimp only
  split
  · exact notes_foldl _ (fun s n => notes_lose s r n) _ _
  · split
    · exact notes_of_harts rfl
    · exact (notes_updHart (s.updDie d _) k ⟨id, rfl⟩).after rfl
theorem notes_offerHart (s : State) (k : Nat) (r : Rec) : s.Notes (s.offerHart k r) := by
  have counted : s.Notes (s.bumpHart k 16 1) := notes_of_offPath (offPath_bumpHart s k 16 1)
  unfold State.offerHart State.deliver
  generalize s.bumpHart k 16 1 = u at counted
  dsimp only
  split
  · exact counted
  · split
    · exact counted.trans (notes_deliverLossy _ _ _ _)
    · split
      · exact counted.trans (notes_deliverAll _ _ _)
      · exact counted.trans (notes_reserve _ _ _ _)
theorem notes_sendHart (s : State) (k time code : Nat) (ten : Option Nat) (p q : Word) : s.Notes (s.sendHart k time code ten p q) :=
  (notes_offerHart (s.mkRecAt time k code ten p q).2 k (s.mkRecAt time k code ten p q).1).after rfl
/-- A record that a hart emits leaves every hart but for notes as it was. -/
theorem notes_emitOf (s : State) (k code : Nat) (ten : Option Nat) (p q : Word) : s.Notes (s.emitOf k code ten p q) := by
  unfold State.emitOf
  split
  · exact notes_sendHart s _ _ _ _ _ _
  · exact notes_updHart s k ⟨id, rfl⟩
theorem notes_emitHart (s : State) (k code : Nat) (p q : Word) : s.Notes (s.emitHart k code p q) := notes_emitOf s k code _ p q
theorem notes_capture (s : State) (k kind n : Nat) : s.Notes (s.capture k kind n) := by
  refine notes_foldl _ (fun s j => ?_) _ s
  unfold State.captureIn
  dsimp only
  split
  · exact (notes_foldl _ (fun s i => notes_emitOf s k _ _ _ _) _ _).after rfl
  · exact notes_refl s

end Sys2Proof.Machine
end

section
/-!
PROOFS. Entries of the vector queue, lanes, preemptions and stops of one hart (spec/03 R56, spec/08 R164, R170, spec/11 R220,
spec/16 R336).
-/
namespace Sys2Proof.Machine

-- The start of a run (spec/03 R56) ---------------------------------------------------------------------------------------------

/-- The entry at the head leaves the queue as it starts. -/
def State.popEntry (s : State) : State := s.updMe fun x => { x with queue := x.queue.drop 1, wait := .none }
/-- What an entry of a vf leaves that starts: no row has nothing to do, else the run begins. -/
def State.startedRun (s : State) (e : QEntry) : State :=
  if e.cap.vlen = 0 then s.popEntry.endEntry s.cur e.words else s.popEntry.beginRun s.cur e e.cap.vlen []
theorem startEntry_run {s : State} {e : QEntry} {rest : List QEntry} (hq : s.me.queue = e :: rest) (hd : e.isDrain = false)
    (htags : tagFailure ((closureInstrs e.words).filterMap tagUse) (fun r => (s.me.pred r).prob) = none)
    (hlen : rowMemoryIn e.words = true → e.cap.vlen ≤ 32 * e.cap.lanes) : startEntry s = .ok ((), s.startedRun e) := by
  have hmax : vlmax 3 0 e.cap.lanes = 32 * e.cap.lanes := by simp [vlmax]; omega
  have fits : ¬ (rowMemoryIn e.words = true ∧ vlmax 3 0 e.cap.lanes < e.cap.vlen) := fun ⟨hrow, hlt⟩ => by
    have := hlen hrow
    omega
  unfold State.startedRun
  split
  case isTrue hv => simp [startEntry, hq, hd, htags, hv, State.popEntry]
  case isFalse hv => simp [startEntry, hq, hd, htags, fits, hv, State.popEntry]
/-- The tags of a run change predicates alone (spec/06 R124). -/
theorem resolveTags_eq (x : Hart) (us : List TagUse) : ∃ p, x.resolveTags us = { x with p := p } := by
  have each : ∀ (l : List Reg) (f : Hart → Reg → Hart), (∀ y r, ∃ p, f y r = { y with p := p }) → ∀ y, ∃ p, l.foldl f y = { y with p := p } := by
    intro l f hf
    induction l with
    | nil => exact fun y => ⟨y.p, rfl⟩
    | cons r l ih =>
      intro y
      obtain ⟨p, hp⟩ := hf y r
      obtain ⟨p', hp'⟩ := ih (f y r)
      exact ⟨p', by rw [List.foldl_cons, hp', hp]⟩
  refine each _ _ (fun y r => ?_) x
  split_ifs
  · exact ⟨_, rfl⟩
  · exact ⟨_, rfl⟩
  · exact ⟨y.p, rfl⟩
/-- The run of n rows that an entry of a vf begins: every row stands at the target. -/
def State.newRun (s : State) (h : Nat) (e : QEntry) (n : Nat) : Run :=
  { issuePc := e.issuePc, target := e.target, n := n, words := e.words, rows := List.replicate n { pc := e.target, block := e.target },
    cap := e.cap, g0 := (s.hart h).gctr, isDrain := e.isDrain, geyserMark := (s.geyserOf h).length }
theorem beginRun_hart (s : State) (h : Nat) (e : QEntry) (n : Nat) :
    ∃ p, (s.beginRun h e n []).hart h = { s.hart h with p := p, run := some (s.newRun h e n) } := by
  obtain ⟨p, hp⟩ := resolveTags_eq (s.hart h) ((closureInstrs e.words).filterMap tagUse)
  rw [State.beginRun, State.updHart_eq, State.setHart_hart, if_pos rfl]
  by_cases hn : n = 0
  · exact ⟨(s.hart h).p, by simp only [if_pos hn]; rfl⟩
  · exact ⟨p, by simp only [if_neg hn, hp]; rfl⟩
/-- An entry that starts leaves the queue to those behind it; its run stands with every row at the target. -/
theorem startedRun_me {s : State} {e : QEntry} {rest : List QEntry} (hq : s.me.queue = e :: rest) :
    (s.startedRun e).mem = s.mem ∧ ((s.startedRun e).hart s.cur).queue = rest ∧ ((s.startedRun e).hart s.cur).pc = s.me.pc ∧
      (e.cap.vlen = 0 → ((s.startedRun e).hart s.cur).run = none) ∧
      (e.cap.vlen ≠ 0 → ∃ r, ((s.startedRun e).hart s.cur).run = some r ∧ r.n = e.cap.vlen ∧ r.target = e.target ∧ r.words = e.words ∧
        r.cap = e.cap ∧ r.rows = List.replicate e.cap.vlen { pc := e.target, block := e.target }) := by
  have hpop : s.popEntry.hart s.cur = { s.me with queue := rest, wait := .none } := by
    rw [State.popEntry, State.updMe_eq, State.setHart_hart, if_pos rfl, hq]
    rfl
  unfold State.startedRun
  split
  case isTrue hv =>
    have hhart : (s.popEntry.endEntry s.cur e.words).hart s.cur = { s.me with queue := rest, wait := .none, run := none } := by
      rw [State.endEntry, hart_of_offPath (offPath_bumpHart _ _ _ _), State.updHart_eq, State.setHart_hart, if_pos rfl]
      split <;> simp [State.freeHead, State.updCore_eq, hpop]
    have hmem : (s.popEntry.endEntry s.cur e.words).mem = s.mem := by
      rw [State.endEntry, mem_of_offPath (offPath_bumpHart _ _ _ _)]
      split <;> rfl
    exact ⟨hmem, by rw [hhart], by rw [hhart], fun _ => by rw [hhart], fun h => absurd hv h⟩
  case isFalse hv =>
    obtain ⟨p, hhart⟩ := beginRun_hart s.popEntry s.cur e e.cap.vlen
    exact ⟨rfl, by rw [hhart, hpop], by rw [hhart, hpop], fun h => absurd h hv,
      fun _ => ⟨_, by rw [hhart], rfl, rfl, rfl, rfl, rfl⟩⟩

-- Lanes (spec/08 R170) -------------------------------------------------------------------------------------------------------------

/-- A change of the lane set leaves its hart with the new lanes, and registers that read as zero where they are others. -/
theorem setLanes_hart (s : State) (h n : Nat) :
    ((s.setLanes h n).hart h).lanes = n ∧ (n ≠ (s.hart h).lanes → ((s.setLanes h n).hart h).v = [] ∧ ((s.setLanes h n).hart h).p = []) := by
  unfold State.setLanes
  dsimp only
  split
  case isTrue heq => exact ⟨heq, fun hne => absurd heq.symm hne⟩
  case isFalse =>
    have hset : (s.updHart h fun x => { x.zeroRegs with lanes := n }).hart h = { (s.hart h).zeroRegs with lanes := n } := by
      rw [State.updHart_eq, State.setHart_hart, if_pos rfl]
    generalize (s.updHart h fun x => { x.zeroRegs with lanes := n }) = u at hset ⊢
    have noted := ((notes_of_offPath (offPath_bumpHart u h 12 1)).trans
      (notes_emitHart _ h 0x0103 (BitVec.ofNat 64 (s.hart h).lanes) (BitVec.ofNat 64 n)) h).rest
    rw [noted, hset]
    exact ⟨rfl, fun _ => ⟨rfl, rfl⟩⟩
theorem laneChange_grants {s : State} {h n : Nat} {w : WCode} {a : Reg} (hown : (s.hart h).own = (s.hart h).ctx)
    (hmode : (s.hart h).matrix = false) (hreq : (s.hart h).readX a ≠ 0) (hbuf : (s.hart h).buffer = [])
    (hn : s.boundaryLanes h ((s.hart h).readX a).toNat (wcode w) (vtQw (s.hart h).vtype) = some n)
    (hroom : n = (s.hart h).lanes ∨ s.reelRoom h 0x0103 = true) : s.laneChange h w a = (s.leaveLaneQueue h).setLanes h n := by
  have hnat : ((s.hart h).readX a).toNat ≠ 0 := fun e => hreq (BitVec.eq_of_toNat_eq e)
  have held : ((s.hart h).lanes != n && !s.reelRoom h 0x0103) = false := by
    obtain rfl | hroom := hroom <;> simp [*]
  simp [State.laneChange, hown, hmode, hnat, hbuf, hn, held]

end Sys2Proof.Machine
end

section
/-!
PROOFS. The requests of one hart: entries and lanes that the events start (spec/03 R56, spec/08 R170), preemptions and stops at a
boundary (spec/11 R220, spec/16 R336).
-/
namespace Sys2Proof.Machine

-- Entries and lanes ------------------------------------------------------------------------------------------------------------

theorem execVectorQueueEntryStart_runs {s : State} {h : Nat} {e : QEntry} {rest : List QEntry} (hr : s.runs h = true)
    (hrun : (s.hart h).run = none) (hq : (s.hart h).queue = e :: rest) (hw : e.word = none) :
    execVectorQueueEntryStart h s = .next (s.asHart h startEntry) := by
  simp [execVectorQueueEntryStart, hr, hrun, Hart.runNext, hq, hw]
/-- The word at a hart's pc is read with nothing but the caches touched. -/
theorem offPath_of_wordAt {s t : State} {h : Nat} {i : Option Instr} (hw : s.wordAt h = (i, t)) : t.offPath = s.offPath := by
  unfold State.wordAt at hw
  split at hw
  case h_1 w u hf =>
    obtain ⟨-, rfl⟩ : _ ∧ u = t := by simpa using hw
    exact offPath_of_fetchWord hf
  case h_2 r u _ hf =>
    obtain ⟨-, rfl⟩ : _ ∧ u = t := by simpa using hw
    exact offPath_of_fetchWord hf
theorem execLaneChange_setvl {s t : State} {h : Nat} {w : WCode} {d a : Reg} (hr : s.runs h = true) (hd : (s.hart h).drained = true)
    (hwait : (s.hart h).wait = .none ∨ (s.hart h).wait = .lanes) (hw : s.wordAt h = (some (.setvl false w d a), t)) :
    execLaneChange h s = .next (t.laneChange h w a) := by
  have waits : ((s.hart h).wait == .none || (s.hart h).wait == .lanes) = true := by simpa using hwait
  simp [execLaneChange, hr, hd, waits, hw]

-- Requests that arrive -----------------------------------------------------------------------------------------------------------

theorem execPreemptionRequest_runs {s : State} {h : Nat} (hr : s.runs h = true) :
    execPreemptionRequest h s = .next (s.requestPreemption h) := if_pos hr
theorem requestPreemption_hart (s : State) (h : Nat) : (s.requestPreemption h).hart h =
    { s.hart h with latch := true, preempt := some ((s.hart h).preempt.getD s.now) } := by
  rw [State.requestPreemption, State.updHart_eq, State.setHart_hart, if_pos rfl]
  cases (s.hart h).preempt <;> rfl

-- The end of a stall by Reel (spec/18 R356) -----------------------------------------------------------------------------------------

theorem letGo_hart (s : State) (h : Nat) : (s.letGo h).hart h = { s.hart h with holds := false } := by
  unfold State.letGo
  split
  case isTrue => rw [State.updHart_eq, State.setHart_hart, if_pos rfl]; rfl
  case isFalse hf => rw [← (Bool.not_eq_true _ ▸ hf : (s.hart h).holds = false)]
/-- What a hart is once its stall by Reel is over. -/
def Hart.unstalled (x : Hart) : Hart :=
  { x with stall := none, heldAhead := false, wait := if stallsByReel x.wait then .none else x.wait }
/-- The end of a stall leaves its hart without one, and notes what its records say. -/
theorem endStall_hart {s : State} {h : Nat} (hs : (s.hart h).stall.isSome = true) :
    (s.hart h).unstalled.Noted ((s.endStall h).hart h) := by
  obtain ⟨⟨since, stamp⟩, hst⟩ := Option.isSome_iff_exists.mp hs
  have start : (s.updHart h Hart.unstalled).hart h = (s.hart h).unstalled := by rw [State.updHart_eq, State.setHart_hart, if_pos rfl]
  have emits := ((notes_capture (s.updHart h Hart.unstalled) h 7 (s.now - since)).trans
    (notes_emitOf _ h 0x0501 none (BitVec.ofNat 64 stamp) (BitVec.ofNat 64 (s.now - since)))) h
  rw [start] at emits
  unfold State.endStall
  rw [hst]
  exact emits
/-- A trap ends its hart's stall and lets go its entry first: what both leave traps alike. -/
theorem takeTrap_endStall {s : State} {h : Nat} (hs : (s.hart h).stall.isSome = true) (t : Trap) :
    s.takeTrap h t = ((s.letGo h).endStall h).takeTrap h t := by
  have stalls : ((s.letGo h).hart h).stall.isSome = true := by rw [letGo_hart]; exact hs
  have hrest := (endStall_hart stalls).rest
  rw [letGo_hart] at hrest
  generalize hu : (s.letGo h).endStall h = u at hrest
  have released : u.letGo h = u := Laws.letGo_idle (by rw [hrest]; rfl)
  have ended : u.endStall h = u := Laws.endStall_idle (by rw [hrest]; rfl)
  rw [State.takeTrap, State.takeTrap, hu, released, ended]

-- Requests at a boundary (spec/11 R220) -----------------------------------------------------------------------------------------------

theorem runs_of_atBoundary {s : State} {h : Nat} (hb : s.atBoundary h = true) : s.runs h = true := by
  simp only [State.atBoundary, Bool.and_eq_true] at hb
  exact hb.1.1.1
/-- But for one held at the head of its queue, a hart at a boundary has an empty queue. -/
theorem queue_of_atBoundary {s : State} {h : Nat} (hb : s.atBoundary h = true) (hw : (s.hart h).wait ≠ .reel) : (s.hart h).queue = [] := by
  have notHeld : (s.hart h).headHeld = false := by simp [Hart.headHeld, hw]
  simp only [State.atBoundary, notHeld, Bool.false_or, Bool.and_eq_true, Hart.drained, List.isEmpty_iff] at hb
  exact hb.2.1.2
theorem giveBack_empty {s : State} {h : Nat} (hq : (s.hart h).queue = []) : s.giveBack h = s := by simp [State.giveBack, hq]
/-- Words of the queue that are given back leave it empty, with the pc at the first of them. -/
theorem giveBack_hart (s : State) (h : Nat) : (s.giveBack h).hart h = { s.hart h with pc := (s.hart h).nextPc, queue := [] } := by
  unfold State.giveBack
  split
  case isTrue he =>
    have hq : (s.hart h).queue = [] := by simpa using he
    have hpc : (s.hart h).nextPc = (s.hart h).pc := by simp [Hart.nextPc, hq]
    rw [hpc, ← hq]
  case isFalse => rw [State.updHart_eq, State.setHart_hart, if_pos rfl]; rfl
/-- With nothing in the queue a request is a trap at the pc. -/
theorem takeRequest_empty {s : State} {h : Nat} (hq : (s.hart h).queue = []) (cause sub : Nat) :
    s.takeRequest h cause sub = s.takeTrap h { cause := cause, sub := sub, async := true, tpc := (s.hart h).pc } := by
  rw [State.takeRequest, giveBack_empty hq]
theorem nextPc_eq (x : Hart) : x.nextPc = BitVec.ofNat 64 ((x.queue.head?.map (·.issuePc)).getD x.pc.toNat) := by
  unfold Hart.nextPc
  cases x.queue with
  | nil => simp
  | cons e l => rfl
/-- A request that ends a stall by Reel: the words of the queue are given back, and the trap finds no stall. -/
theorem takeRequest_stalled {s : State} {h : Nat} (hs : (s.hart h).stall.isSome = true) (hw : stallsByReel (s.hart h).wait = true)
    (cause sub : Nat) : ∃ u : State, (u.hart h).queue = [] ∧ (∀ r, (u.hart h).readX r = (s.hart h).readX r) ∧ (u.hart h).wait = .none ∧
      s.takeRequest h cause sub = u.takeTrap h { cause := cause, sub := sub, async := true, tpc := (s.hart h).nextPc } := by
  have hg := giveBack_hart s h
  have stalls : ((s.giveBack h).hart h).stall.isSome = true := by rw [hg]; exact hs
  have hrest := (endStall_hart (s := (s.giveBack h).letGo h) (by rw [letGo_hart]; exact stalls)).rest
  rw [letGo_hart, hg] at hrest
  refine ⟨((s.giveBack h).letGo h).endStall h, ?_, fun r => ?_, ?_, ?_⟩
  · rw [hrest]; rfl
  · rw [hrest]; rfl
  · rw [hrest]; exact if_pos hw
  · rw [State.takeRequest, takeTrap_endStall stalls, hg]

/-- A hart whose pre-emption has come, with it noted no more. -/
def State.noPreempt (s : State) (h : Nat) : State := s.updHart h fun y => { y with preempt := none }
theorem noPreempt_hart (s : State) (h : Nat) : (s.noPreempt h).hart h = { s.hart h with preempt := none } := by
  rw [State.noPreempt, State.updHart_eq, State.setHart_hart, if_pos rfl]
theorem takePreemption_empty {s : State} {h n : Nat} (hp : (s.hart h).preempt = some n) (hb : s.atBoundary h = true)
    (he : (s.hart h).buffer = []) : s.takePreemption h = (s.noPreempt h).takeRequest h 0x40 0 := by
  simp [State.takePreemption, hp, hb, he, State.noPreempt]
theorem timeoutPreemption_late {s : State} {h n : Nat} (hp : (s.hart h).preempt = some n) (hb : s.atBoundary h = true)
    (he : (s.hart h).buffer ≠ []) (hn : n + 65536 ≤ s.now) : s.timeoutPreemption h = (s.noPreempt h).takeRequest h 0x40 1 := by
  simp [State.timeoutPreemption, hp, hb, he, hn, State.noPreempt]
theorem takeRequest_noPreempt {s : State} {h : Nat} (hq : (s.hart h).queue = []) (sub : Nat) :
    (s.noPreempt h).takeRequest h 0x40 sub =
      (s.noPreempt h).takeTrap h { cause := 0x40, sub := sub, async := true, tpc := (s.hart h).pc } := by
  rw [takeRequest_empty (by rw [noPreempt_hart]; exact hq), noPreempt_hart]

-- A stop at its hart's turn (spec/16 R336) ------------------------------------------------------------------------------------------

/-- A hart that has taken the stop. -/
def State.tookStop (s : State) (h : Nat) : State := s.updHart h fun y => { y with stopMsg := none, stopTaken := true }
theorem tookStop_hart (s : State) (h : Nat) : (s.tookStop h).hart h = { s.hart h with stopMsg := none, stopTaken := true } := by
  rw [State.tookStop, State.updHart_eq, State.setHart_hart, if_pos rfl]
theorem takeStop_empty {s : State} {h n : Nat} (hm : (s.hart h).stopMsg = some n) (hb : s.atBoundary h = true)
    (hw : (s.hart h).wait ≠ .reel) (hr : (s.hart h).buffer = [] ∨ n + 65536 ≤ s.now) :
    s.takeStop h = (s.tookStop h).takeTrap h
      { cause := 0x41, sub := if (s.hart h).buffer = [] then 0 else 1, async := true, tpc := (s.hart h).pc } := by
  have taken : s.takeStop h = (s.tookStop h).takeRequest h 0x41 (if (s.hart h).buffer = [] then 0 else 1) := by
    simp [State.takeStop, hm, hb, hr, State.tookStop]
  have hq := queue_of_atBoundary hb hw
  rw [taken, takeRequest_empty (by rw [tookStop_hart]; exact hq), tookStop_hart]
theorem takeRequests_stop {s : State} {h n : Nat} (hm : (s.hart h).stopMsg = some n) (hb : s.atBoundary h = true)
    (hr : (s.hart h).buffer = [] ∨ n + 65536 ≤ s.now) : s.takeRequests h = some (s.takeStop h) := by
  have ripe : s.ripe h (s.hart h).stopMsg = true := by simpa [State.ripe, hm] using hr
  simp [State.takeRequests, hb, ripe]
/-- Debts that are struck out change nothing else of a hart. -/
theorem settleOwes_eq (s : State) (h : Nat) : ∃ l, s.settleOwes h = s.updHart h (fun x => { x with owes := l }) ∨ s.settleOwes h = s := by
  unfold State.settleOwes
  split
  · exact ⟨[], .inr rfl⟩
  · exact ⟨_, .inl rfl⟩
theorem settleOwes_hart (s : State) (h : Nat) : ∃ l, (s.settleOwes h).hart h = { s.hart h with owes := l } := by
  obtain ⟨l, e | e⟩ := settleOwes_eq s h
  · exact ⟨l, by rw [e, State.updHart_eq, State.setHart_hart, if_pos rfl]⟩
  · exact ⟨(s.hart h).owes, by rw [e]⟩
theorem settleOwes_cur (s : State) (h : Nat) : (s.settleOwes h).cur = s.cur := by
  unfold State.settleOwes
  split <;> rfl
theorem settleOwes_now (s : State) (h : Nat) : (s.settleOwes h).now = s.now := by
  unfold State.settleOwes
  split <;> rfl
theorem settleOwes_atBoundary (s : State) (h : Nat) : (s.settleOwes h).atBoundary h = s.atBoundary h := by
  obtain ⟨l, e | e⟩ := settleOwes_eq s h
  · have hh : (s.updHart h fun x => { x with owes := l }).hart h = { s.hart h with owes := l } := by
      rw [State.updHart_eq, State.setHart_hart, if_pos rfl]
    rw [e, State.atBoundary, State.atBoundary, State.runs, hh]
    rfl
  · rw [e]
/-- A hart that runs and has taken a request at its boundary does nothing else in its turn. -/
theorem turn_takes {s t : State} (hh : ((s.settleOwes s.cur).hart s.cur).heldAhead = false) (hr : (s.settleOwes s.cur).runs s.cur = true)
    (ht : (s.settleOwes s.cur).takeRequests s.cur = some t) : turn s = .next t := by
  have hcur := settleOwes_cur s s.cur
  have hold : (s.settleOwes s.cur).endHold s.cur = s.settleOwes s.cur := by simp [State.endHold, hh]
  unfold turn
  dsimp only
  rw [hold]
  generalize s.settleOwes s.cur = u at *
  rw [← hcur] at hr ht ⊢
  obtain ⟨⟨⟨hstarted, hhalted⟩, hfenced⟩, hhalt⟩ :
      ((u.me.started = true ∧ u.me.halted = false) ∧ u.myCore.fenced = false) ∧ u.haltUp u.me.tenant.toNat = false := by
    simpa [State.runs, State.me, State.myCore] using hr
  simp [hstarted, hhalted, hfenced, hhalt, ht, readyTurn]
/-- A stop is taken at its hart's turn, before a pre-emption (log 50). -/
theorem step_takesStop {s : State} {n : Nat} (hm : s.me.stopMsg = some n) (hb : s.atBoundary s.cur = true) (hw : s.me.wait ≠ .reel)
    (hr : s.me.buffer = [] ∨ n + 65536 ≤ s.now) (ha : s.agenda = []) (hp : s.poweredDown = false) (hh : s.me.heldAhead = false) :
    step s = .next ((((s.settleOwes s.cur).tookStop s.cur).takeTrap s.cur
      { cause := 0x41, sub := if s.me.buffer = [] then 0 else 1, async := true, tpc := s.me.pc }).passTime 1) := by
  obtain ⟨l, hhart⟩ := settleOwes_hart s s.cur
  have hb' := (settleOwes_atBoundary s s.cur).trans hb
  have hm' : ((s.settleOwes s.cur).hart s.cur).stopMsg = some n := by rw [hhart]; exact hm
  have hr' : ((s.settleOwes s.cur).hart s.cur).buffer = [] ∨ n + 65536 ≤ (s.settleOwes s.cur).now := by rw [hhart, settleOwes_now]; exact hr
  have taken := takeStop_empty hm' hb' (by rw [hhart]; exact hw) hr'
  rw [hhart] at taken
  have moves := turn_takes (by rw [hhart]; exact hh) (runs_of_atBoundary hb') (takeRequests_stop hm' hb' hr')
  rw [step_idle hp ha, moves, taken]
  rfl

end Sys2Proof.Machine
end

section
/-!
PROOFS. The stop of a set of gangs (spec/16 R336): which gangs the model finds on a cycle, whom a delivery reaches, and a hart that
starts in a gang that stops.
-/
namespace Sys2Proof.Machine

-- Gangs that consume from each other ----------------------------------------------------------------------------------------------

theorem consumes_iff {c p : Gang} : consumes c p = true ↔ Claims.Consumes c p := by simp [consumes, Claims.Consumes]
theorem gangStopped_iff {s : State} {g : Gang} : s.gangStopped g = true ↔ Claims.HasStopped s g := by
  simp [State.gangStopped, Claims.HasStopped]
/-- Gangs each of which consumes from one of them are never peeled. -/
theorem mem_peel_of_cycle {cyc : List Gang} (hc : ∀ k ∈ cyc, ∃ q ∈ cyc, consumes k q = true) (n : Nat) (l : List Gang)
    (hl : ∀ k ∈ cyc, k ∈ l) : ∀ k ∈ cyc, k ∈ peel n l := by
  induction n generalizing l with
  | zero => exact hl
  | succ n ih =>
    refine ih _ fun k hk => List.mem_filter.mpr ⟨hl k hk, ?_⟩
    obtain ⟨q, hq, hkq⟩ := hc k hk
    exact List.any_eq_true.mpr ⟨q, hl q hq, hkq⟩
/-- With a rank that falls from each gang to those it consumes from, every pass peels the gangs of the least rank. -/
theorem peel_eq_nil_of_rank {rank : Gang → Nat} (n : Nat) (l : List Gang) (hn : l.length ≤ n)
    (hr : ∀ k ∈ l, ∀ q ∈ l, consumes k q = true → rank q < rank k) : peel n l = [] := by
  induction n generalizing l with
  | zero => exact List.length_eq_zero_iff.mp (Nat.le_zero.mp hn)
  | succ n ih =>
    have shorter : (l.filter fun g => l.any fun p => consumes g p).length ≤ n := by
      by_cases hl : l = []
      · simp [hl]
      · obtain ⟨least, hmem, hmin⟩ := (measure rank).wf.has_min {g | g ∈ l} (List.exists_mem_of_ne_nil l hl)
        have leaves : ∃ x ∈ l, ¬ (l.any fun p => consumes x p) = true := by
          refine ⟨least, hmem, fun hany => ?_⟩
          obtain ⟨p, hp, hcons⟩ := List.any_eq_true.mp hany
          exact hmin p hp (hr least hmem p hp hcons)
        have := List.length_filter_lt_length_iff_exists.mpr leaves
        omega
    exact ih _ shorter fun k hk q hq => hr k (List.mem_of_mem_filter hk) q (List.mem_of_mem_filter hq)

-- Whom a delivery reaches -----------------------------------------------------------------------------------------------------------

theorem gangOf_id {s : State} {k : Nat} {g : Gang} (h : s.gangOf k = some g) : g.id = k := by simpa using List.find?_some h
/-- A member of a set of gangs is the gang with its identifier. -/
theorem gangOf_of_mem {s : State} {set : List Nat} {k : Gang} (h : k ∈ set.filterMap s.gangOf) : s.gangOf k.id = some k := by
  obtain ⟨i, -, hi⟩ := List.mem_filterMap.mp h
  rw [gangOf_id hi, hi]
theorem updGang_gangOf (s : State) (g k : Nat) (f : Gang → Gang) (hf : ∀ x, (f x).id = x.id) :
    (s.updGang g f).gangOf k = (s.gangOf k).map fun x => if x.id = g then f x else x := by
  have ids : ((fun x => x.id == k) ∘ fun x : Gang => if x.id = g then f x else x) = fun x => x.id == k := by
    funext x
    dsimp only [Function.comp]
    split <;> simp [hf]
  show (s.gangs.map _).find? _ = (s.gangs.find? _).map _
  rw [List.find?_map, ids]
/-- A hart that a stop has reached at a time. -/
def Hart.told (x : Hart) (now : Nat) : Hart :=
  { x with latch := true, stopMsg := if x.stopTaken then x.stopMsg else x.stopMsg <|> some now }
theorem told_told (x : Hart) (now : Nat) : (x.told now).told now = x.told now := by
  unfold Hart.told
  cases x.stopTaken <;> cases x.stopMsg <;> rfl
/-- The harts of a gang that a stop reaches: those that run. -/
def Gang.running (g : Gang) : List Nat := g.harts.filter fun h => !g.haltedHarts.contains h
def State.tell (s : State) (h : Nat) : State := s.updHart h fun x => x.told s.now
theorem tell_hart (s : State) (h j : Nat) : (s.tell h).hart j = if j = h then (s.hart j).told s.now else s.hart j := by
  rw [State.tell, State.updHart_eq, State.setHart_hart]
  split
  case isTrue e => rw [e]
  case isFalse => rfl
theorem tellAll (l : List Nat) (s : State) : (l.foldl State.tell s).now = s.now ∧ (l.foldl State.tell s).gangs = s.gangs ∧
    ∀ j, (l.foldl State.tell s).hart j = if j ∈ l then (s.hart j).told s.now else s.hart j := by
  induction l generalizing s with
  | nil => exact ⟨rfl, rfl, fun j => rfl⟩
  | cons h l ih =>
    obtain ⟨hnow, hgangs, hharts⟩ := ih (s.tell h)
    refine ⟨hnow, hgangs, fun j => (hharts j).trans ?_⟩
    rw [tell_hart, show (s.tell h).now = s.now from rfl]
    by_cases e : j = h <;> by_cases m : j ∈ l <;> simp [e, m, told_told]
theorem deliverStop_now (s : State) (g : Gang) : (s.deliverStop g).now = s.now := (tellAll g.running _).1
theorem deliverStop_hart (s : State) (g : Gang) (j : Nat) :
    (s.deliverStop g).hart j = if j ∈ g.running then (s.hart j).told s.now else s.hart j := (tellAll g.running _).2.2 j
theorem deliverStop_gangOf (s : State) (g : Gang) (k : Nat) :
    (s.deliverStop g).gangOf k = (s.gangOf k).map fun x => if x.id = g.id then { x with stopping := true } else x := by
  have kept : (s.deliverStop g).gangs = (s.updGang g.id fun x => { x with stopping := true }).gangs := (tellAll g.running _).2.1
  rw [State.gangOf, kept]
  exact updGang_gangOf s g.id k _ fun x => rfl

/-- The stop reached gang k between s and t: it is marked, and each of its harts that runs is told. -/
def StopReached (s t : State) (k : Gang) : Prop :=
  (t.gangOf k.id).map (·.stopping) = some true ∧ ∀ j ∈ k.running, t.hart j = (s.hart j).told s.now
/-- Between s and t the stop reached some harts, and nothing else happened to harts and gangs. -/
structure StopSpreads (s t : State) : Prop where
  now : t.now = s.now
  gangs : ∀ k, (t.gangOf k).isSome = (s.gangOf k).isSome
  harts : ∀ j, t.hart j = s.hart j ∨ t.hart j = (s.hart j).told s.now
theorem StopSpreads.refl (s : State) : StopSpreads s s := ⟨rfl, fun _ => rfl, fun _ => .inl rfl⟩
theorem StopSpreads.told {s t : State} (h : StopSpreads s t) (j : Nat) : (t.hart j).told t.now = (s.hart j).told s.now := by
  obtain e | e := h.harts j
  · rw [e, h.now]
  · rw [e, h.now, told_told]
theorem StopSpreads.deliver {s t : State} (h : StopSpreads s t) (g : Gang) : StopSpreads s (t.deliverStop g) := by
  refine ⟨(deliverStop_now t g).trans h.now, fun k => ?_, fun j => ?_⟩
  · rw [deliverStop_gangOf, Option.isSome_map, h.gangs]
  · rw [deliverStop_hart]
    split
    · exact .inr (h.told j)
    · exact h.harts j
/-- A delivery reaches its gang, and no gang less than before. -/
theorem StopSpreads.reaches {s t : State} (h : StopSpreads s t) (g k : Gang)
    (hk : (k = g ∧ (s.gangOf g.id).isSome = true) ∨ StopReached s t k) : StopReached s (t.deliverStop g) k := by
  constructor
  · rw [deliverStop_gangOf, Option.map_map]
    obtain ⟨rfl, hg⟩ | ⟨hmark, -⟩ := hk
    · obtain ⟨x, hx⟩ := Option.isSome_iff_exists.mp ((h.gangs k.id).trans hg)
      simp [hx, gangOf_id hx]
    · obtain ⟨x, hx, hstop⟩ := Option.map_eq_some_iff.mp hmark
      rw [hx]
      by_cases e : x.id = g.id <;> simp [e, hstop]
  · intro j hj
    rw [deliverStop_hart]
    obtain ⟨rfl, -⟩ | ⟨-, htold⟩ := hk
    · rw [if_pos hj, h.told]
    · split
      · exact h.told j
      · exact htold j hj
/-- A delivery to gangs that are there reaches each of them. -/
theorem StopSpreads.reachesAll {s t : State} (h : StopSpreads s t) (l : List Gang) (hl : ∀ g ∈ l, (s.gangOf g.id).isSome = true) (k : Gang)
    (hk : k ∈ l ∨ StopReached s t k) : StopReached s (l.foldl State.deliverStop t) k := by
  induction l generalizing t with
  | nil => exact hk.resolve_left List.not_mem_nil
  | cons g l ih =>
    refine ih (h.deliver g) (fun x hx => hl x (List.mem_cons_of_mem g hx)) ?_
    obtain hmem | hreached := hk
    · obtain rfl | hmem := List.mem_cons.mp hmem
      · exact .inr (h.reaches k k (.inl ⟨rfl, hl k List.mem_cons_self⟩))
      · exact .inl hmem
    · exact .inr (h.reaches g k (.inr hreached))
/-- What a hart of a gang that the stop reached shows. -/
theorem StopReached.hart {s t : State} {k : Gang} (h : StopReached s t k) {j : Nat} (hj : j ∈ k.harts) (hr : j ∉ k.haltedHarts) :
    (t.hart j).latch = true ∧ (t.hart j).pc = (s.hart j).pc ∧
      (t.hart j).stopMsg = if (s.hart j).stopTaken then (s.hart j).stopMsg else some ((s.hart j).stopMsg.getD s.now) := by
  have hmem : j ∈ k.running := List.mem_filter.mpr ⟨hj, by simpa using hr⟩
  rw [h.2 j hmem]
  refine ⟨rfl, rfl, ?_⟩
  show (if (s.hart j).stopTaken then (s.hart j).stopMsg else (s.hart j).stopMsg <|> some s.now) = _
  cases (s.hart j).stopMsg <;> rfl

-- The stop of a set --------------------------------------------------------------------------------------------------------------------

/-- The gangs of a set that gang c consumes from have stopped. -/
def producersStopped (s : State) (set : List Nat) (c : Gang) : Bool :=
  (set.filterMap s.gangOf).all fun p => !consumes c p || s.gangStopped p
theorem producersStopped_iff {s : State} {set : List Nat} {c : Gang} :
    producersStopped s set c = true ↔ ∀ p ∈ set.filterMap s.gangOf, Claims.Consumes c p → Claims.HasStopped s p := by
  unfold producersStopped
  simp only [List.all_eq_true, Bool.or_eq_true, Bool.not_eq_true', ← consumes_iff, ← gangStopped_iff]
  exact forall₂_congr fun p _ => by cases consumes c p <;> simp

section
variable {s : State} {set : List Nat} {g : Nat} {c : Gang} (hc : (set.filterMap s.gangOf).find? (fun y => y.id == g) = some c)
include hc
/-- Where gangs of the set consume from each other in a cycle, all of it stops; else a gang that runs holds back those that consume from
it. -/
theorem stopSet_eq : s.stopSet set g =
    if peel (set.filterMap s.gangOf).length (set.filterMap s.gangOf) ≠ [] then (set.filterMap s.gangOf).foldl State.deliverStop s
    else if producersStopped s set c = true then s.deliverStop c else s := by
  unfold State.stopSet producersStopped
  simp [hc]
theorem stopSet_reaches (hall : ∀ p ∈ set.filterMap s.gangOf, Claims.Consumes c p → Claims.HasStopped s p) :
    StopReached s (s.stopSet set g) c := by
  have hmem := List.mem_of_find?_eq_some hc
  have there : ∀ k ∈ set.filterMap s.gangOf, (s.gangOf k.id).isSome = true := fun k hk => by rw [gangOf_of_mem hk]; rfl
  rw [stopSet_eq hc, if_pos (producersStopped_iff.mpr hall)]
  split
  · exact (StopSpreads.refl s).reachesAll _ there c (.inl hmem)
  · exact (StopSpreads.refl s).reaches c c (.inl ⟨rfl, there c hmem⟩)
theorem stopSet_withheld {p : Gang} (hp : p ∈ set.filterMap s.gangOf) (hcp : Claims.Consumes c p) (hrun : ¬ Claims.HasStopped s p)
    {rank : Nat → Nat}
    (hrank : ∀ k ∈ set.filterMap s.gangOf, ∀ q ∈ set.filterMap s.gangOf, Claims.Consumes k q → rank q.id < rank k.id) :
    s.stopSet set g = s := by
  have peeled := peel_eq_nil_of_rank (rank := fun k => rank k.id) _ _ le_rfl fun k hk q hq h => hrank k hk q hq (consumes_iff.mp h)
  rw [stopSet_eq hc, if_neg (not_not_intro peeled), if_neg fun hall => hrun (producersStopped_iff.mp hall p hp hcp)]
theorem stopSet_cycle {cyc : List Gang} (hne : cyc ≠ [])
    (hcyc : ∀ k ∈ cyc, k ∈ set.filterMap s.gangOf ∧ ∃ q ∈ cyc, Claims.Consumes k q) {k : Gang} (hk : k ∈ set.filterMap s.gangOf) :
    StopReached s (s.stopSet set g) k := by
  have stays : peel (set.filterMap s.gangOf).length (set.filterMap s.gangOf) ≠ [] := by
    obtain ⟨x, hx⟩ := List.exists_mem_of_ne_nil cyc hne
    refine List.ne_nil_of_mem (mem_peel_of_cycle (fun k hk => ?_) _ _ (fun k hk => (hcyc k hk).1) x hx)
    obtain ⟨-, q, hq, hkq⟩ := hcyc k hk
    exact ⟨q, hq, consumes_iff.mpr hkq⟩
  rw [stopSet_eq hc, if_pos stays]
  exact (StopSpreads.refl s).reachesAll _ (fun k hk => by rw [gangOf_of_mem hk]; rfl) k (.inl hk)
end

end Sys2Proof.Machine
end

section
/-!
PROOFS. A hart that starts in a gang that stops (spec/15 R305, spec/16 R336), and the events of requests together.
-/
namespace Sys2Proof.Machine

/-- A gang of the launch list with nothing to wait for, that a dispatcher can start harts of beside no other. -/
structure OnlyWave (s : State) (g : Gang) : Prop where
  gangs : s.gangs = [g]
  wave : blockCo g.blk = false
  alive : g.affected = false
  free : g.blk.w3 = 0
  more : g.harts.length < blockSize g.blk
theorem OnlyWave.notStarted {s : State} {g : Gang} (h : OnlyWave s g) : g.started = false := decide_eq_false (by have := h.more; omega)
theorem OnlyWave.gangOf {s : State} {g : Gang} (h : OnlyWave s g) : s.gangOf g.id = some g := by simp [State.gangOf, h.gangs]
/-- It is the candidate of its dispatcher, whether or not it is chosen already. -/
theorem OnlyWave.candidates {s : State} {g : Gang} (h : OnlyWave s g) : s.candidates g.die = ([g], s) := by
  have size : blockSize g.blk ≠ 0 := by have := h.more; omega
  have polled : s.pollGangs [g] = ([g], s) := by simp [State.pollGangs, State.dependenceMet, h.free, size]
  have none : s.pollGangs [] = ([], s) := rfl
  unfold State.candidates
  cases hc : g.chosen <;> simp [h.gangs, h.alive, h.notStarted, hc, polled, none, bestGang, insertGang]
theorem OnlyWave.choose {s : State} {g : Gang} (h : OnlyWave s g) : OnlyWave (s.choose g) { g with chosen := true } :=
  ⟨by simp [State.choose, State.updGang, h.gangs], h.wave, h.alive, h.free, h.more⟩
/-- With no co-resident gang to hold slots for, a slot that is free and in reach takes its hart. -/
theorem OnlyWave.slotFor {s : State} {g : Gang} (h : OnlyWave s g) {k : Gang} {j : Nat} (hfree : s.slotFree j = true)
    (hreach : reaches k.blk j = true) (hsp : blockSp k.blk = false) : s.slotFor k j = true := by
  have reserving : s.reserving = none := by simp [State.reserving, h.gangs, h.wave, bestGang]
  simp [State.slotFor, hfree, hreach, hsp, reserving]
/-- The dispatcher of the only gang starts its next hart in a free slot. -/
theorem OnlyWave.starts {s : State} {g : Gang} {j : Nat} (h : OnlyWave s g) (hfree : s.slotFree j = true) (hreach : reaches g.blk j = true)
    (hsp : blockSp g.blk = false) :
    execWaveHartStart g.die j s = .next ((s.choose g).startHart { g with chosen := true } j) := by
  have takes : ∀ k : Gang, k.blk = g.blk → (s.choose g).slotFor k j = true := fun k hk =>
    h.choose.slotFor hfree (hk ▸ hreach) (hk ▸ hsp)
  have found : (s.choose g).gangOf g.id = some { g with chosen := true } := h.choose.gangOf
  have notStarted : ({ g with chosen := true } : Gang).started = false := h.choose.notStarted
  have wave : (s.choose g).startWave g.id j = (s.choose g).startHart { g with chosen := true } j := by
    simp only [State.startWave, found, notStarted, takes { g with chosen := true } rfl, Bool.not_false, Bool.and_true, if_true]
  simp only [execWaveHartStart, State.dispatchTo, h.candidates, List.find?_cons, h.wave, takes g rfl, Bool.not_false, Bool.and_true,
    State.startIn, Bool.false_eq_true, if_false, List.foldl_cons, List.foldl_nil, wave]

-- The start of a hart -----------------------------------------------------------------------------------------------------------------

/-- The identifier of the next hart of a gang: as many as have started. -/
def State.nextGid (s : State) (g : Gang) : Nat := ((s.gangOf g.id).map fun x => x.harts.length).getD 0
/-- A hart that starts stands in its state at start, with the stop that its gang was told, but for notes. -/
theorem startHart_hart (s : State) (g : Gang) (h : Nat) :
    (s.withStop g.id (startState g (s.nextGid g))).Noted ((s.startHart g h).hart h) := by
  have hput : (((s.dropGeyser h).releaseArray h).leaveLaneQueue h).withStop g.id (startState g (s.nextGid g)) =
      s.withStop g.id (startState g (s.nextGid g)) := rfl
  unfold State.startHart
  dsimp only
  rw [← State.nextGid, hput]
  generalize s.withStop g.id (startState g (s.nextGid g)) = x
  generalize ((s.dropGeyser h).releaseArray h).leaveLaneQueue h = u
  have hset : (u.setHart h x).hart h = x := by rw [State.setHart_hart, if_pos rfl]
  have acquired : (u.setHart h x).Notes ((u.setHart h x).acquireAll h .sys) := notes_of_offHome (offHome_acquireAll _ _ _)
  generalize (u.setHart h x).acquireAll h .sys = v at acquired
  have noted := (acquired.trans (notes_of_harts rfl)).trans (notes_emitHart (v.updGang g.id fun y =>
    { y with chosen := true, harts := y.harts ++ [h], haltedHarts := NSet.del y.haltedHarts h }) h 0x0200
    (BitVec.ofNat 64 (s.nextGid g + blockSize g.blk * 2 ^ 32)) g.blk.w0) h
  rwa [hset] at noted
/-- A hart that starts in a gang that stops finds the stop as it starts. -/
theorem startHart_told {s : State} {g : Gang} (hg : s.gangOf g.id = some g) (hstop : g.stopping = true) (h : Nat) :
    ((s.startHart g h).hart h).started = true ∧ ((s.startHart g h).hart h).stopMsg = some s.now ∧
      ((s.startHart g h).hart h).latch = true := by
  have hnoted := startHart_hart s g h
  have told : s.withStop g.id (startState g (s.nextGid g)) = { startState g (s.nextGid g) with latch := true, stopMsg := some s.now } := by
    simp [State.withStop, hg, hstop]
  rw [told] at hnoted
  have hrest := hnoted.rest
  exact ⟨by rw [hrest]; rfl, by rw [hrest], hnoted.latch rfl⟩

end Sys2Proof.Machine

namespace Sys2Proof.Claims
open Machine

/-- Settles O43: each event is one operation on a hart or a set of gangs; records of Reel only leave notes with a hart, a delivered
stop is told once however often it comes, and peeling empties a set of gangs exactly where none of them lie on a cycle. -/
theorem requestEvents : Obligations.RequestEvents := by
  unfold Obligations.RequestEvents
  intro h s x
  refine ⟨?entry, ?lanes, ?request, ?stalled, ?taken, ?stop, ?stopSet, ?start⟩
  case entry =>
    intro e rest hr hrun hq hw hd htags hlen
    have hstart := startEntry_run (s := { s with cur := h }) hq hd htags hlen
    obtain ⟨hmem, hqueue, hpc, hnone, hsome⟩ := startedRun_me (s := { s with cur := h }) hq
    refine ⟨_, execVectorQueueEntryStart_runs hr hrun hq hw, ?_⟩
    rw [State.asHart, hstart]
    exact ⟨hqueue, hpc, hmem, hnone, hsome⟩
  case lanes =>
    intro w d a n s1 hr hd hwait hw hown hmode hreq hbuf hn hroom
    have hhart : s1.hart h = x := hart_of_offPath (offPath_of_wordAt hw) h
    refine ⟨_, execLaneChange_setvl hr hd hwait hw, ?_⟩
    rw [← hhart] at hown hmode hreq hbuf hn hroom ⊢
    rw [laneChange_grants hown hmode hreq hbuf hn hroom]
    exact setLanes_hart (s1.leaveLaneQueue h) h n
  case request =>
    intro hr
    refine ⟨s.requestPreemption h, execPreemptionRequest_runs hr, ?_⟩
    rw [requestPreemption_hart]
    exact ⟨rfl, rfl, rfl, rfl⟩
  case stalled =>
    intro n hp hb hw hs he
    have waits : stallsByReel ((s.noPreempt h).hart h).wait = true := by
      rw [noPreempt_hart]
      obtain e | e := hw <;> exact congrArg stallsByReel e
    obtain ⟨u, hqueue, hregs, hwait, htrap⟩ := takeRequest_stalled (s := s.noPreempt h) (by rw [noPreempt_hart]; exact hs) waits 0x40 0
    rw [noPreempt_hart] at hregs htrap
    refine ⟨u, hqueue, hregs, hwait, ?_⟩
    rw [← nextPc_eq]
    exact congrArg Host.Outcome.next ((takePreemption_empty hp hb he).trans htrap)
  case taken =>
    intro n hp hb hw _
    have hq := queue_of_atBoundary hb hw
    exact ⟨fun he => congrArg Host.Outcome.next ((takePreemption_empty hp hb he).trans (takeRequest_noPreempt hq 0)),
      fun he hn => congrArg Host.Outcome.next ((timeoutPreemption_late hp hb he hn).trans (takeRequest_noPreempt hq 1))⟩
  case stop =>
    rintro n hm hb hw - hr rfl ha hp hh
    exact step_takesStop hm hb hw hr ha hp hh
  case stopSet =>
    intro set g c hc reached
    have shows : ∀ {t k}, StopReached s t k → reached t k := fun hreach => ⟨hreach.1, fun j => hreach.hart⟩
    exact ⟨fun hall => ⟨_, rfl, shows (stopSet_reaches hc hall)⟩,
      fun p hp hcp hrun ⟨_, hrank⟩ => congrArg Host.Outcome.next (stopSet_withheld hc hp hcp hrun hrank),
      fun cyc hne hcyc => ⟨_, rfl, fun k hk => shows (stopSet_cycle hc hne hcyc hk)⟩⟩
  case start =>
    intro g hg hstop hco hgangs haff hdep hmore hfree hreach hsp
    have only : OnlyWave s g := ⟨hgangs, hco, haff, hdep, hmore⟩
    exact ⟨_, only.starts hfree hreach hsp, startHart_told only.choose.gangOf hstop h⟩

end Sys2Proof.Claims
end

section
/-!
PROOFS. Choices on grids of numbers (spec/04 R89): the multiples of a unit, what a rounding mode chooses among them, and how a
choice on a coarse grid is one on a finer grid.
-/
namespace Sys2Proof.Claims
open Machine

-- Signs ---------------------------------------------------------------------------------------------------------------------

/-- A magnitude with a sign. -/
noncomputable def ofSign (neg : Bool) (a : ℝ) : ℝ := if neg then -a else a
@[simp] theorem ofSign_true (a : ℝ) : ofSign true a = -a := rfl
@[simp] theorem ofSign_false (a : ℝ) : ofSign false a = a := rfl
@[simp] theorem abs_ofSign (neg : Bool) (a : ℝ) : |ofSign neg a| = |a| := by cases neg <;> simp
theorem ofSign_mul (neg : Bool) (a u : ℝ) : ofSign neg (a * u) = ofSign neg a * u := by cases neg <;> simp
theorem ofSign_inj {neg : Bool} {a b : ℝ} : ofSign neg a = ofSign neg b ↔ a = b := by cases neg <;> simp
theorem ofSign_neg_iff {neg : Bool} {a : ℝ} (h : 0 < a) : neg = true ↔ ofSign neg a < 0 := by
  cases neg
  · simpa using h.le
  · simpa using h
theorem real_num (neg : Bool) (m : Nat) (e : Int) : real (.num neg m e) = ofSign neg (m * 2 ^ e) := by
  cases neg <;> simp [real]

-- What a mode chooses on any grid ---------------------------------------------------------------------------------------------

theorem chooses_self {grid even : ℝ → Prop} (rm : Rm) {x : ℝ} (hx : grid x) : Chooses grid even rm x x := by
  refine ⟨hx, ?_⟩
  cases rm
  · refine ⟨fun z _ => by simp, fun z _ hne heq => absurd ?_ hne⟩
    rw [sub_self, abs_zero, abs_eq_zero, sub_eq_zero] at heq
    exact heq.symm
  · exact ⟨le_rfl, mul_self_nonneg x, fun _ _ h => h⟩
  · exact ⟨le_rfl, fun _ _ h => h⟩
  · exact ⟨le_rfl, fun _ _ h => h⟩

section
variable {grid even : ℝ → Prop} {rm : Rm} {x y c : ℝ} (hneg : ∀ z, grid z → grid (-z)) (h : Chooses grid even rm x y)
include hneg h
/-- A point of the grid that bounds x bounds what is chosen. -/
theorem Chooses.bounded (hc : grid c) (hx : |x| ≤ c) : |y| ≤ c := by
  obtain ⟨hlo, hhi⟩ := abs_le.1 hx
  obtain ⟨-, h⟩ := h
  cases rm
  · obtain ⟨near, -⟩ := h
    have up := near c hc
    have down := near (-c) (hneg c hc)
    rw [abs_of_nonpos (by linarith : x - c ≤ 0)] at up
    rw [abs_of_nonneg (by linarith : 0 ≤ x - -c)] at down
    exact abs_le.2 ⟨by linarith [le_abs_self (x - y)], by linarith [neg_abs_le (x - y)]⟩
  · exact h.1.trans hx
  · exact abs_le.2 ⟨h.2 _ (hneg c hc) hlo, h.1.trans hhi⟩
  · exact abs_le.2 ⟨hlo.trans h.1, h.2 _ hc hhi⟩
/-- A point of the grid within x is within what is chosen. -/
theorem Chooses.bounds (hc : grid c) (h0 : 0 ≤ c) (hx : c ≤ |x|) : c ≤ |y| := by
  obtain ⟨-, h⟩ := h
  obtain hx | hx := le_abs.1 hx
  · cases rm
    · have := (abs_le.1 (h.1 c hc |>.trans_eq (abs_of_nonneg (by linarith)))).2
      exact le_abs.2 (.inl (by linarith))
    · simpa only [abs_of_nonneg h0] using h.2.2 c hc (by rwa [abs_of_nonneg h0, abs_of_nonneg (h0.trans hx)])
    · exact le_abs.2 (.inl (h.2 c hc hx))
    · exact le_abs.2 (.inl (hx.trans h.1))
  · cases rm
    · have := (abs_le.1 (h.1 _ (hneg c hc) |>.trans_eq (abs_of_nonpos (by linarith)))).1
      exact le_abs.2 (.inr (by linarith))
    · simpa only [abs_of_nonneg h0] using h.2.2 c hc (by rw [abs_of_nonneg h0]; exact le_abs.2 (.inr hx))
    · exact le_abs.2 (.inr (by linarith [h.1]))
    · exact le_abs.2 (.inr (by linarith [h.2 _ (hneg c hc) (by linarith)]))
/-- A choice on a coarse grid is one on a finer grid whose other points lie nearer to zero than a coarse point within x. -/
theorem Chooses.refine {fine fineEven : ℝ → Prop} (hy : fine y) (heven : even y → fineEven y) (h0 : 0 ≤ c) (hc : grid c) (hx : c ≤ |x|)
    (hfine : ∀ z, fine z → grid z ∨ |z| < c) : Chooses fine fineEven rm x y := by
  refine ⟨hy, ?_⟩
  obtain ⟨-, h⟩ := h
  cases rm
  · obtain ⟨near, tie⟩ := h
    -- such a point is farther from x than c or −c is
    have far : ∀ z, |z| < c → |x - y| < |x - z| := fun z hz => by
      obtain ⟨hz1, hz2⟩ := abs_lt.1 hz
      obtain hx | hx := le_abs.1 hx
      · exact (near c hc).trans_lt (by rw [abs_of_nonneg (by linarith), abs_of_nonneg (by linarith)]; linarith)
      · exact (near _ (hneg c hc)).trans_lt (by rw [abs_of_nonpos (by linarith), abs_of_nonpos (by linarith)]; linarith)
    refine ⟨fun z hz => ?_, fun z hz hne heq => ?_⟩
    · obtain hz | hz := hfine z hz
      · exact near z hz
      · exact (far z hz).le
    · obtain hz | hz := hfine z hz
      · exact heven (tie z hz hne heq)
      · exact absurd heq (far z hz).ne'
  · obtain ⟨hle, hsign, most⟩ := h
    refine ⟨hle, hsign, fun z hz hzx => ?_⟩
    obtain hz | hz := hfine z hz
    · exact most z hz hzx
    · have := most c hc (by rwa [abs_of_nonneg h0])
      rw [abs_of_nonneg h0] at this
      exact hz.le.trans this
  · obtain ⟨hle, most⟩ := h
    refine ⟨hle, fun z hz hzx => ?_⟩
    obtain hz | hz := hfine z hz
    · exact most z hz hzx
    · obtain ⟨hz1, hz2⟩ := abs_lt.1 hz
      obtain hx | hx := le_abs.1 hx
      · exact hz2.le.trans (most c hc hx)
      · linarith
  · obtain ⟨hge, least⟩ := h
    refine ⟨hge, fun z hz hzx => ?_⟩
    obtain hz | hz := hfine z hz
    · exact least z hz hzx
    · obtain ⟨hz1, hz2⟩ := abs_lt.1 hz
      obtain hx | hx := le_abs.1 hx
      · linarith
      · exact (least _ (hneg c hc) (by linarith)).trans hz1.le
end

-- The multiples of a unit -----------------------------------------------------------------------------------------------------

/-- The integer multiples of u, and the even ones. -/
def Multiple (u y : ℝ) : Prop := ∃ n : Int, y = n * u
def EvenMultiple (u y : ℝ) : Prop := ∃ n : Int, y = 2 * n * u
theorem Multiple.neg {u : ℝ} (z : ℝ) (h : Multiple u z) : Multiple u (-z) := by
  obtain ⟨n, rfl⟩ := h
  exact ⟨-n, by push_cast; ring⟩
theorem multiple_natCast (n : Nat) (u : ℝ) : Multiple u (n * u) := ⟨n, by simp⟩
theorem multiple_ofSign (neg : Bool) (n : Nat) (u : ℝ) : Multiple u (ofSign neg (n * u)) := by
  cases neg
  · exact multiple_natCast n u
  · exact (multiple_natCast n u).neg
theorem whole_eq : Whole = Multiple 1 := by
  funext y
  simp [Whole, Multiple]
theorem evenWhole_eq : EvenWhole = EvenMultiple 1 := by
  funext y
  simp [EvenWhole, EvenMultiple]

/-- n is what a mode chooses for t among the integers. -/
def RoundsInt (rm : Rm) (t : ℝ) (n : Int) : Prop :=
  match rm with
  | .rne => |t - n| ≤ 1 / 2 ∧ (|t - n| = 1 / 2 → Even n)
  | .rtz => |(n : ℝ)| ≤ |t| ∧ |t| < |(n : ℝ)| + 1 ∧ 0 ≤ t * n
  | .rdn => n ≤ t ∧ t < n + 1
  | .rup => t ≤ n ∧ n < t + 1
theorem RoundsInt.chooses {rm : Rm} {t : ℝ} {n : Int} (h : RoundsInt rm t n) {u : ℝ} (hu : 0 < u) :
    Chooses (Multiple u) (EvenMultiple u) rm (t * u) (n * u) := by
  refine ⟨⟨n, rfl⟩, ?_⟩
  have scale : ∀ k : Int, |t * u - k * u| = |t - k| * u := fun k => by rw [← sub_mul, abs_mul, abs_of_pos hu]
  have size : ∀ a : ℝ, |a * u| = |a| * u := fun a => by rw [abs_mul, abs_of_pos hu]
  cases rm
  · obtain ⟨near, tie⟩ := h
    -- another integer is at least as far from t as a half
    have far : ∀ k : Int, k ≠ n → 1 / 2 ≤ |t - k| := fun k hk => by
      have : (1 : ℝ) ≤ |(k : ℝ) - n| := by exact_mod_cast Int.one_le_abs (sub_ne_zero.2 hk)
      have : |(k : ℝ) - n| ≤ |t - n| + |t - k| := by
        rw [show (k : ℝ) - n = (t - n) - (t - k) by ring]
        exact abs_sub _ _
      linarith
    refine ⟨?_, ?_⟩
    · rintro _ ⟨k, rfl⟩
      rw [scale, scale]
      by_cases hk : k = n
      · rw [hk]
      · exact mul_le_mul_of_nonneg_right (near.trans (far k hk)) hu.le
    · rintro _ ⟨k, rfl⟩ hne heq
      rw [scale, scale, mul_left_inj' hu.ne'] at heq
      obtain ⟨j, hj⟩ := tie (le_antisymm near (heq ▸ far k fun e => hne (by rw [e])))
      exact ⟨j, by rw [hj]; push_cast; ring⟩
  · obtain ⟨hle, hlt, hsign⟩ := h
    refine ⟨by rw [size, size]; exact mul_le_mul_of_nonneg_right hle hu.le, ?_, ?_⟩
    · rw [show t * u * (n * u) = t * n * (u * u) by ring]
      exact mul_nonneg hsign (mul_self_nonneg u)
    · rintro _ ⟨k, rfl⟩ hk
      rw [size, size] at hk ⊢
      have hk := (le_of_mul_le_mul_right hk hu).trans_lt hlt
      refine mul_le_mul_of_nonneg_right ?_ hu.le
      exact_mod_cast Int.lt_add_one_iff.1 (by exact_mod_cast hk : |k| < |n| + 1)
  · obtain ⟨hle, hlt⟩ := h
    refine ⟨mul_le_mul_of_nonneg_right hle hu.le, ?_⟩
    rintro _ ⟨k, rfl⟩ hk
    have hk := (le_of_mul_le_mul_right hk hu).trans_lt hlt
    refine mul_le_mul_of_nonneg_right ?_ hu.le
    exact_mod_cast Int.lt_add_one_iff.1 (by exact_mod_cast hk : k < n + 1)
  · obtain ⟨hle, hlt⟩ := h
    refine ⟨mul_le_mul_of_nonneg_right hle hu.le, ?_⟩
    rintro _ ⟨k, rfl⟩ hk
    have hk := hlt.trans_le (add_le_add_left (le_of_mul_le_mul_right hk hu) 1)
    refine mul_le_mul_of_nonneg_right ?_ hu.le
    exact_mod_cast Int.lt_add_one_iff.1 (by exact_mod_cast hk : n < k + 1)

-- Rounding a significand to a grid (toGrid) --------------------------------------------------------------------------------------

/-- Whether something lies above the multiple below, as a fraction of a unit. -/
theorem inexact_iff {st : Bool} {r s : Nat} {θ : ℝ} (h0 : 0 ≤ θ) (hst : st = true ↔ θ ≠ 0) :
    (r != 0 || st) = true ↔ ((r + θ) / 2 ^ s : ℝ) ≠ 0 := by
  have split : ((r + θ) / 2 ^ s : ℝ) ≠ 0 ↔ (r : ℝ) + θ ≠ 0 := by simp
  rw [split, Bool.or_eq_true, hst, bne_iff_ne, ← not_iff_not]
  push Not
  rw [add_eq_zero_iff_of_nonneg (by positivity) h0]
  simp
/-- A mode moves a magnitude up to the next multiple: φ is the fraction of a unit above the one below, which is odd or not. -/
def GoesUp (rm : Rm) (neg odd : Bool) (φ : ℝ) : Prop :=
  match rm with
  | .rne => 1 / 2 < φ ∨ φ = 1 / 2 ∧ odd = true
  | .rtz => False
  | .rdn => φ ≠ 0 ∧ neg = true
  | .rup => φ ≠ 0 ∧ neg = false
theorem GoesUp.ne_zero {rm : Rm} {neg odd : Bool} {φ : ℝ} (h : GoesUp rm neg odd φ) : φ ≠ 0 := by
  cases rm
  · obtain h | ⟨h, -⟩ := h
    all_goals exact ne_of_gt (by linarith)
  · exact h.elim
  · exact h.1
  · exact h.1
theorem roundsUp_iff {rm : Rm} {neg odd st : Bool} {r s : Nat} {θ : ℝ} (hs : s ≠ 0) (h0 : 0 ≤ θ) (h1 : θ < 1) (hst : st = true ↔ θ ≠ 0) :
    roundsUp rm neg odd r s st = true ↔ GoesUp rm neg odd ((r + θ) / 2 ^ s) := by
  let φ := (r + θ) / 2 ^ s
  change _ ↔ GoesUp rm neg odd φ
  have hpow : (2 : ℝ) ^ s = 2 * 2 ^ (s - 1) := by rw [← pow_succ', Nat.sub_one_add_one hs]
  have hpos : (0 : ℝ) < 2 ^ (s - 1) := by positivity
  have inexact : (r != 0 || st) = true ↔ φ ≠ 0 := inexact_iff h0 hst
  cases rm
  · have above : 1 / 2 < φ ↔ 2 ^ (s - 1) < r ∨ r = 2 ^ (s - 1) ∧ θ ≠ 0 := by
      have e : 1 / 2 < φ ↔ (2 : ℝ) ^ (s - 1) < r + θ := by
        rw [lt_div_iff₀ (by positivity), hpow]
        constructor <;> intro h <;> linarith
      rw [e]
      obtain h | h | h := lt_trichotomy r (2 ^ (s - 1))
      · have : (r : ℝ) + 1 ≤ 2 ^ (s - 1) := by exact_mod_cast h
        simp only [h.not_gt, h.ne, false_and, or_false, iff_false, not_lt]
        linarith
      · have : (r : ℝ) = 2 ^ (s - 1) := by exact_mod_cast h
        simp [h, h0.lt_iff_ne, eq_comm]
      · have : (2 : ℝ) ^ (s - 1) < r := by exact_mod_cast h
        simp only [h, true_or, iff_true]
        linarith
    have half : φ = 1 / 2 ↔ r = 2 ^ (s - 1) ∧ θ = 0 := by
      have e : φ = 1 / 2 ↔ (r : ℝ) + θ = 2 ^ (s - 1) := by
        rw [div_eq_iff (by positivity), hpow]
        constructor <;> intro h <;> linarith
      rw [e]
      refine ⟨fun h => ?_, fun ⟨hr, ht⟩ => by rw [hr, ht]; simp⟩
      have lo : (r : ℝ) ≤ 2 ^ (s - 1) := by linarith
      have hi : (2 : ℝ) ^ (s - 1) < r + 1 := by linarith
      have hr : r = 2 ^ (s - 1) := le_antisymm (by exact_mod_cast lo) (Nat.lt_add_one_iff.1 (by exact_mod_cast hi))
      exact ⟨hr, by rw [hr] at h; push_cast at h; linarith⟩
    simp only [roundsUp, GoesUp, if_neg hs, above, half, Bool.or_eq_true, Bool.and_eq_true, decide_eq_true_eq, beq_iff_eq, hst]
    tauto
  · simp [roundsUp, GoesUp]
  · simp [roundsUp, GoesUp, ← inexact]
  · simp [roundsUp, GoesUp, ← inexact]
/-- The multiple that roundsUp_iff chooses, as an integer with its sign. -/
theorem roundsInt_ofSign {rm : Rm} {neg up : Bool} {q : Nat} {φ : ℝ} (h0 : 0 ≤ φ) (h1 : φ < 1)
    (hup : up = true ↔ GoesUp rm neg (q % 2 == 1) φ) :
    let n := if up then q + 1 else q
    RoundsInt rm (ofSign neg (q + φ)) (if neg then -(n : Int) else n) := by
  intro n
  have hq : (0 : ℝ) ≤ q := by positivity
  have hn : ((if neg then -(n : Int) else n : Int) : ℝ) = ofSign neg n := by cases neg <;> simp
  have hdiff : |ofSign neg (q + φ) - ofSign neg n| = |q + φ - n| := by
    cases neg
    · rfl
    · rw [ofSign_true, ofSign_true, ← abs_neg]
      ring_nf
  cases rm
  · simp only [RoundsInt, hn, hdiff]
    by_cases hu : up = true
    · obtain h | ⟨h, hodd⟩ := hup.1 hu
      all_goals
        have : (n : ℝ) = q + 1 := by simp [n, hu]
        rw [this, show (q : ℝ) + φ - (q + 1) = -(1 - φ) by ring, abs_neg, abs_of_nonneg (by linarith)]
      · exact ⟨by linarith, fun h => by linarith⟩
      · refine ⟨by linarith, fun _ => ?_⟩
        have even : Even n := by simp [n, hu, Nat.odd_iff.2 (beq_iff_eq.1 hodd)]
        cases neg <;> simpa using even
    · have := mt hup.2 hu
      simp only [GoesUp, not_or, not_lt, not_and, beq_iff_eq] at this
      obtain ⟨hle, hodd⟩ := this
      have : (n : ℝ) = q := by simp [n, hu]
      rw [this, add_sub_cancel_left, abs_of_nonneg h0]
      refine ⟨hle, fun h => ?_⟩
      have even : Even n := by simpa [n, hu, Nat.even_iff] using hodd h
      cases neg <;> simpa using even
  · have : (n : ℝ) = q := by simp [n, hup, GoesUp]
    simp only [RoundsInt, hn, abs_ofSign, this, abs_of_nonneg hq, abs_of_nonneg (add_nonneg hq h0)]
    refine ⟨by linarith, by linarith, ?_⟩
    have : 0 ≤ (q + φ) * (q : ℝ) := by positivity
    cases neg
    · simpa using this
    · simpa only [ofSign_true, neg_mul_neg] using this
  all_goals
    simp only [RoundsInt, hn]
    by_cases hu : up = true
    · obtain ⟨hφ, hneg⟩ := hup.1 hu
      have hφ : 0 < φ := h0.lt_of_ne' hφ
      have : (n : ℝ) = q + 1 := by simp [n, hu]
      simp only [hneg, this, ofSign_true, ofSign_false]
      exact ⟨by linarith, by linarith⟩
    · have hz := mt hup.2 hu
      have : (n : ℝ) = q := by simp [n, hu]
      simp only [this]
      cases neg
      · simp only [GoesUp, ofSign_false, reduceCtorEq, and_false, and_true, not_false_eq_true, ne_eq, not_not] at hz ⊢
        exact ⟨by linarith, by linarith⟩
      · simp only [GoesUp, ofSign_true, reduceCtorEq, and_false, and_true, not_false_eq_true, ne_eq, not_not] at hz ⊢
        exact ⟨by linarith, by linarith⟩

/-- The multiple is exact where there is no fraction to round. -/
theorem roundsUp_exact_iff {up : Bool} {q : Nat} {φ : ℝ} (h1 : φ < 1) (hup : up = true → φ ≠ 0) :
    φ ≠ 0 ↔ ((if up then q + 1 else q : Nat) : ℝ) ≠ q + φ := by
  cases up
  · simp
  · have := hup rfl
    simp [this, h1.ne']

/-- A number on the grid stays. -/
theorem toGrid_exact {rm : Rm} {neg : Bool} {m : Nat} {e g : Int} (h : g ≤ e) :
    ((toGrid rm neg m e g false).1 : ℝ) * 2 ^ g = m * 2 ^ e := by
  have : (2 : ℝ) ^ e = 2 ^ (e - g).toNat * 2 ^ g := by
    rw [← zpow_natCast, ← zpow_add₀ two_ne_zero]
    congr 1
    omega
  simp only [toGrid, if_pos h, this]
  push_cast
  ring
/-- toGrid chooses among the multiples of 2^g for (m + θ) · 2^e, where θ is what the sticky bit stands for. -/
theorem toGrid_chooses {rm : Rm} {neg st : Bool} {m : Nat} {e g : Int} {θ : ℝ} (h0 : 0 ≤ θ) (h1 : θ < 1) (hst : st = true ↔ θ ≠ 0)
    (hg : st = true → e < g) :
    let r := toGrid rm neg m e g st
    let x := ofSign neg ((m + θ) * 2 ^ e)
    let y := ofSign neg (r.1 * 2 ^ g)
    Chooses (Multiple (2 ^ g)) (EvenMultiple (2 ^ g)) rm x y ∧ (r.2 = true ↔ y ≠ x) := by
  intro r x y
  by_cases hge : g ≤ e
  · have hst' : st = false := by
      by_contra hne
      exact absurd (hg (by simpa using hne)) (by omega)
    have hθ : θ = 0 := by simpa [hst'] using hst
    have hxy : y = x := by
      simp only [x, y, r, hθ, hst', toGrid_exact hge, add_zero]
    refine ⟨hxy ▸ chooses_self rm (multiple_ofSign neg _ _), ?_⟩
    simp [r, toGrid, hge, hst', hxy]
  · obtain ⟨s, hs⟩ : ∃ s : Nat, (g - e).toNat = s := ⟨_, rfl⟩
    have hs0 : s ≠ 0 := by omega
    have hpow : (2 : ℝ) ^ g = 2 ^ s * 2 ^ e := by
      rw [← zpow_natCast, ← zpow_add₀ two_ne_zero]
      congr 1
      omega
    have hup := roundsUp_iff (rm := rm) (neg := neg) (odd := m / 2 ^ s % 2 == 1) (r := m % 2 ^ s) hs0 h0 h1 hst
    have hix := inexact_iff (r := m % 2 ^ s) (s := s) h0 hst
    have hφ0 : 0 ≤ ((m % 2 ^ s : Nat) + θ) / 2 ^ s := by positivity
    have hφ1 : ((m % 2 ^ s : Nat) + θ) / 2 ^ s < 1 := by
      have : ((m % 2 ^ s : Nat) : ℝ) + 1 ≤ 2 ^ s := by exact_mod_cast Nat.mod_lt m (by positivity)
      rw [div_lt_one (by positivity)]
      linarith
    have hx : x = ofSign neg ((m / 2 ^ s : Nat) + ((m % 2 ^ s : Nat) + θ) / 2 ^ s) * 2 ^ g := by
      have hsplit : (m : ℝ) = (m / 2 ^ s : Nat) * 2 ^ s + (m % 2 ^ s : Nat) := by
        exact_mod_cast (Nat.div_add_mod' m (2 ^ s)).symm
      rw [← ofSign_mul, hpow]
      simp only [x]
      congr 1
      field_simp
      linear_combination hsplit
    have hr1 : r.1 = if roundsUp rm neg (m / 2 ^ s % 2 == 1) (m % 2 ^ s) s st then m / 2 ^ s + 1 else m / 2 ^ s := by
      simp only [r, toGrid, if_neg hge, hs]
    have hr2 : r.2 = (m % 2 ^ s != 0 || st) := by simp only [r, toGrid, if_neg hge, hs]
    generalize ((m % 2 ^ s : Nat) + θ) / 2 ^ s = φ at hup hix hφ0 hφ1 hx
    have hy : y = ((if neg then -(r.1 : Int) else r.1 : Int) : ℝ) * 2 ^ g := by cases neg <;> simp [y]
    refine ⟨?_, ?_⟩
    · rw [hx, hy, hr1]
      exact (roundsInt_ofSign hφ0 hφ1 hup).chooses (by positivity)
    · rw [hr2, hix, roundsUp_exact_iff hφ1 fun h => (hup.1 h).ne_zero, ← hr1, hx, ← ofSign_mul]
      simp only [y, ne_eq, ofSign_inj]
      rw [mul_left_inj' (by positivity)]
end Sys2Proof.Claims
end

section
/-!
PROOFS. The encodings of a float format and round_t (spec/04 R77, R78, R89): the digits a format holds, their order, and rounding to a
format in every mode.
-/
namespace Sys2Proof.Claims
open Machine

-- Fields of an encoding (spec/04 R77) ---------------------------------------------------------------------------------------------

theorem frac_pos (f : Fmt) : 2 ≤ f.frac := by cases f <;> decide
theorem width_eq (f : Fmt) : f.width - 1 = f.frac + f.expo := by cases f <;> rfl
theorem signBit_eq (f : Fmt) : signBit f = 2 ^ (f.width - 1) := rfl
theorem two_pow_width (f : Fmt) : 2 ^ f.width = 2 ^ (f.width - 1) + 2 ^ (f.width - 1) := by cases f <;> rfl
theorem withSign_lt {f : Fmt} (neg : Bool) {b : Nat} (h : b < 2 ^ (f.width - 1)) : withSign f neg b < 2 ^ f.width := by
  rw [two_pow_width]
  cases neg <;> simp [withSign, signBit_eq] <;> omega
theorem bitOf_withSign {f : Fmt} (neg : Bool) {b : Nat} (h : b < 2 ^ (f.width - 1)) : bitOf (withSign f neg b) (f.width - 1) = neg := by
  cases neg
  · simp [withSign, bitOf, Nat.div_eq_of_lt h]
  · simp [withSign, bitOf, signBit_eq, Nat.add_div_right _ (Nat.two_pow_pos _), Nat.div_eq_of_lt h]
/-- The sign reaches no other field. -/
theorem bitsAt_withSign {f : Fmt} (neg : Bool) (b : Nat) {k w : Nat} (h : k + w ≤ f.width - 1) :
    bitsAt (withSign f neg b) k w = bitsAt b k w := by
  cases neg
  · rfl
  · obtain ⟨j, hj⟩ := Nat.exists_eq_add_of_le h
    have : signBit f = 2 ^ j * 2 ^ w * 2 ^ k := by rw [signBit_eq, hj]; ring
    simp [bitsAt, withSign, this, Nat.shiftRight_eq_div_pow, Nat.add_mul_div_right]
theorem bitsAt_exponent {f : Fmt} {E r : Nat} (hE : E < 2 ^ f.expo) (hr : r < 2 ^ f.frac) : bitsAt (E * 2 ^ f.frac + r) f.frac f.expo = E := by
  rw [bitsAt, Nat.shiftRight_eq_div_pow, Nat.mul_comm, Nat.mul_add_div (Nat.two_pow_pos _), Nat.div_eq_of_lt hr, add_zero,
    Nat.mod_eq_of_lt hE]
theorem bitsAt_fraction {f : Fmt} {E r : Nat} (hr : r < 2 ^ f.frac) : bitsAt (E * 2 ^ f.frac + r) 0 f.frac = r := by
  simp [bitsAt, Nat.mod_eq_of_lt hr]

-- Digits (spec/04 R77) ---------------------------------------------------------------------------------------------------------------

/-- q · 2^g in the form in which a format holds a number: q with its leading bit, or the smallest exponent. -/
structure Digits (f : Fmt) (q : Nat) (g : Int) : Prop where
  lt : q < 2 ^ (f.frac + 1)
  least : emin f - f.frac ≤ g
  subnormal : q < 2 ^ f.frac → g = emin f - f.frac
/-- The digits of the greatest finite value. -/
def maxDigit (f : Fmt) : Nat := if f = .e4m3 then 14 else 2 ^ (f.frac + 1) - 1
def maxExp (f : Fmt) : Int := (if f = .e4m3 then 15 else 2 ^ f.expo - 2) - (f.bias : Int) - f.frac
theorem digits_max (f : Fmt) : Digits f (maxDigit f) (maxExp f) := by
  cases f <;> exact ⟨by decide, by decide, by decide⟩
theorem magBits_max (f : Fmt) : magBits f (maxDigit f) (maxExp f) = maxBits f := by cases f <;> decide
theorem maxBits_lt (f : Fmt) : maxBits f < 2 ^ (f.width - 1) := by cases f <;> decide
theorem infBits_lt (f : Fmt) : infBits f < 2 ^ (f.width - 1) := by cases f <;> decide
theorem qnan_lt (f : Fmt) : qnan f < 2 ^ f.width := by cases f <;> decide

section
variable {f : Fmt} {q : Nat} {g : Int} (h : Digits f q g)
include h
/-- The encodings run through the exponents, the digits of each in turn. -/
theorem Digits.magBits_eq : magBits f q g = (g - (emin f - f.frac)).toNat * 2 ^ f.frac + q := by
  have := h.least
  unfold magBits
  split
  next hq => simp [h.subnormal hq]
  next hq =>
    have hE : (g + f.frac + f.bias).toNat = (g - (emin f - f.frac)).toNat + 1 := by unfold emin at *; omega
    rw [hE, add_mul, one_mul]
    omega
theorem Digits.value_eq : (q : ℝ) * 2 ^ g = (q * 2 ^ (g - (emin f - f.frac)).toNat : Nat) * 2 ^ (emin f - f.frac) := by
  have := h.least
  rw [Nat.cast_mul, mul_assoc, Nat.cast_pow, Nat.cast_ofNat, ← zpow_natCast, ← zpow_add₀ two_ne_zero]
  congr 2
  omega
/-- The order of the encodings is that of the values. -/
theorem Digits.lt_iff {q' : Nat} {g' : Int} (h' : Digits f q' g') : magBits f q g < magBits f q' g' ↔ (q : ℝ) * 2 ^ g < q' * 2 ^ g' := by
  have key : ∀ {a b : Nat} {d e : Nat}, a < 2 ^ (f.frac + 1) → (b < 2 ^ f.frac → e = 0) → d < e →
      d * 2 ^ f.frac + a < e * 2 ^ f.frac + b ∧ a * 2 ^ d < b * 2 ^ e := fun {a b d e} ha hb hde => by
    have hb : 2 ^ f.frac ≤ b := by
      by_contra hlt
      have := hb (Nat.lt_of_not_le hlt)
      omega
    rw [pow_succ] at ha
    refine ⟨?_, ?_⟩
    · have : (d + 1) * 2 ^ f.frac ≤ e * 2 ^ f.frac := Nat.mul_le_mul_right _ hde
      rw [add_mul, one_mul] at this
      omega
    · calc a * 2 ^ d < 2 ^ f.frac * 2 * 2 ^ d := Nat.mul_lt_mul_of_pos_right ha (Nat.two_pow_pos d)
        _ = 2 ^ f.frac * 2 ^ (d + 1) := by ring
        _ ≤ b * 2 ^ e := Nat.mul_le_mul hb (Nat.pow_le_pow_right two_pos hde)
  have zero : ∀ {b : Nat} {k : Int}, (b < 2 ^ f.frac → k = emin f - f.frac) → b < 2 ^ f.frac → (k - (emin f - f.frac)).toNat = 0 :=
    fun hk hb => by simp [hk hb]
  rw [h.magBits_eq, h'.magBits_eq, h.value_eq, h'.value_eq, mul_lt_mul_iff_left₀ (by positivity), Nat.cast_lt]
  have hz := zero h.subnormal
  have hz' := zero h'.subnormal
  generalize (g - (emin f - f.frac)).toNat = d at *
  generalize (g' - (emin f - f.frac)).toNat = e at *
  obtain hde | rfl | hde := lt_trichotomy d e
  · obtain ⟨h1, h2⟩ := key h.lt hz' hde
    exact iff_of_true h1 h2
  · rw [Nat.add_lt_add_iff_left, Nat.mul_lt_mul_right (Nat.two_pow_pos d)]
  · obtain ⟨h1, h2⟩ := key h'.lt hz hde
    exact iff_of_false h1.not_gt h2.not_gt
/-- The encoding of digits no greater than the format's holds them. -/
theorem Digits.valueOf_eq (hmax : magBits f q g ≤ maxBits f) (neg : Bool) : valueOf f (withSign f neg (magBits f q g)) = .num neg q g := by
  obtain ⟨E, r, hr, hb, hsub, hnorm⟩ : ∃ E r, r < 2 ^ f.frac ∧ magBits f q g = E * 2 ^ f.frac + r ∧ (E = 0 → q = r ∧ g = emin f - f.frac) ∧
      (E ≠ 0 → q = 2 ^ f.frac + r ∧ g = E - f.bias - f.frac) := by
    have := h.least
    have := h.lt
    rw [pow_succ] at this
    by_cases hq : q < 2 ^ f.frac
    · exact ⟨0, q, hq, by simp [magBits, hq], fun _ => ⟨rfl, h.subnormal hq⟩, fun h => absurd rfl h⟩
    · exact ⟨(g + f.frac + f.bias).toNat, q - 2 ^ f.frac, by omega, by simp [magBits, hq], fun _ => by unfold emin at *; omega,
        fun _ => by unfold emin at *; omega⟩
  rw [hb] at hmax ⊢
  have hlt : E * 2 ^ f.frac + r < 2 ^ (f.width - 1) := hmax.trans_lt (maxBits_lt f)
  have hE : E < 2 ^ f.expo := by
    by_contra hle
    have := Nat.mul_le_mul_right (2 ^ f.frac) (Nat.le_of_not_lt hle)
    rw [← pow_add, add_comm f.expo, ← width_eq] at this
    omega
  have hw := width_eq f
  rw [valueOf, bitOf_withSign neg hlt, bitsAt_withSign _ _ hw.ge, bitsAt_withSign _ _ (by omega), bitsAt_exponent hE hr, bitsAt_fraction hr]
  by_cases h0 : E = 0
  · obtain ⟨rfl, rfl⟩ := hsub h0
    simp [h0, emin]
  · obtain ⟨rfl, rfl⟩ := hnorm h0
    have hfinite : if f = .e4m3 then ¬ (E = 15 ∧ r = 7) else E ≠ 2 ^ f.expo - 1 := by
      cases f <;> simp only [maxBits, Fmt.frac, Fmt.expo, reduceCtorEq, if_true, if_false] at hmax hr ⊢ <;> omega
    by_cases hf : f = .e4m3
    · rw [if_pos hf] at hfinite
      simp [h0, hf, hfinite]
    · rw [if_neg hf] at hfinite
      simp [h0, hf, hfinite]
/-- Digits are a point of the format's grid. -/
theorem Digits.onGrid (neg : Bool) : OnGrid f (ofSign neg (q * 2 ^ g)) :=
  ⟨q, g, h.lt, h.least, by rw [abs_ofSign, abs_of_nonneg (by positivity)]⟩
theorem Digits.subnormal_iff : (q : ℝ) * 2 ^ g < smallestNormal f ↔ q < 2 ^ f.frac := by
  have hnormal : smallestNormal f = 2 ^ f.frac * 2 ^ (emin f - f.frac) := by
    rw [smallestNormal, ← zpow_natCast, ← zpow_add₀ two_ne_zero]
    congr 1
    omega
  rw [hnormal]
  constructor
  · intro hlt
    by_contra hge
    refine hlt.not_ge ?_
    gcongr
    · exact_mod_cast Nat.le_of_not_lt hge
    · exact one_le_two
    · exact h.least
  · intro hq
    rw [h.subnormal hq]
    gcongr
    exact_mod_cast hq
end

theorem valueOf_maxBits (f : Fmt) (neg : Bool) : valueOf f (withSign f neg (maxBits f)) = .num neg (maxDigit f) (maxExp f) := by
  have := (digits_max f).valueOf_eq (magBits_max f).le neg
  rwa [magBits_max] at this
theorem greatest_eq (f : Fmt) : greatest f = maxDigit f * 2 ^ maxExp f := by
  have := valueOf_maxBits f false
  rw [withSign, if_neg Bool.false_ne_true] at this
  rw [greatest, this, real_num, ofSign_false]
theorem valueOf_infBits {f : Fmt} (h : f ≠ .e4m3) (neg : Bool) : valueOf f (withSign f neg (infBits f)) = .inf neg := by
  cases f
  case e4m3 => exact absurd rfl h
  all_goals cases neg <;> decide
theorem infBits_e4m3 : infBits .e4m3 = maxBits .e4m3 := rfl
theorem nonFinite_of_num {f : Fmt} {b : Nat} {neg : Bool} {m : Nat} {e : Int} (h : valueOf f b = .num neg m e) : nonFinite f b = false := by
  simp [nonFinite, h]
theorem nonFinite_of_inf {f : Fmt} {b : Nat} {neg : Bool} (h : valueOf f b = .inf neg) : nonFinite f b = true := by
  simp [nonFinite, h]

-- Rounding to a format (spec/04 R89) ---------------------------------------------------------------------------------------------------

/-- The digits of a multiple of 2^g that rounding may have carried into one bit more. -/
def carried (f : Fmt) (q : Nat) (g : Int) : Nat × Int := if q = 2 ^ (f.frac + 1) then (2 ^ f.frac, g + 1) else (q, g)
theorem carried_value (f : Fmt) (q : Nat) (g : Int) : ((carried f q g).1 : ℝ) * 2 ^ (carried f q g).2 = q * 2 ^ g := by
  unfold carried
  split
  next h =>
    rw [h, pow_succ, zpow_add_one₀ two_ne_zero]
    push_cast
    ring
  next => rfl
theorem digits_carried {f : Fmt} {q : Nat} {g : Int} (hle : q ≤ 2 ^ (f.frac + 1)) (hleast : emin f - f.frac ≤ g)
    (hsub : q < 2 ^ f.frac → g = emin f - f.frac) : Digits f (carried f q g).1 (carried f q g).2 := by
  unfold carried
  split
  next => exact ⟨Nat.pow_lt_pow_succ one_lt_two, hleast.trans (by simp), fun h => absurd h (lt_irrefl _)⟩
  next h => exact ⟨lt_of_le_of_ne hle h, hleast, hsub⟩
theorem even_carried {f : Fmt} {q : Nat} (g : Int) (h : Even q) : Even (carried f q g).1 := by
  unfold carried
  split
  next => exact (Nat.even_pow.2 ⟨even_two, by have := frac_pos f; omega⟩)
  next => exact h

/-- A point of the grid is a multiple of every smaller power of two. -/
theorem multiple_of_le {k : Nat} {g j : Int} {z : ℝ} (hj : g ≤ j) (hz : |z| = k * 2 ^ j) : Multiple (2 ^ g) z := by
  have hsplit : (2 : ℝ) ^ j = 2 ^ (j - g).toNat * 2 ^ g := by
    rw [← zpow_natCast, ← zpow_add₀ two_ne_zero]
    congr 1
    omega
  have hm : Multiple (2 ^ g) |z| := ⟨k * 2 ^ (j - g).toNat, by rw [hz, hsplit]; push_cast; ring⟩
  obtain h | h := abs_choice z
  · exact h ▸ hm
  · exact neg_neg z ▸ (h ▸ hm).neg
/-- A choice among the multiples of 2^g is one on the format's grid, where a number as great as x has no smaller last place. -/
theorem Chooses.onGrid {f : Fmt} {rm : Rm} {neg : Bool} {q : Nat} {g : Int} {x : ℝ} (hx : emin f - f.frac < g → 2 ^ f.frac * 2 ^ g ≤ |x|)
    (hd : Digits f (carried f q g).1 (carried f q g).2) (hleast : emin f - f.frac ≤ g)
    (h : Chooses (Multiple (2 ^ g)) (EvenMultiple (2 ^ g)) rm x (ofSign neg (q * 2 ^ g))) :
    Chooses (OnGrid f) (EvenOnGrid f) rm x (ofSign neg (q * 2 ^ g)) := by
  have hgrid := hd.onGrid neg
  rw [carried_value] at hgrid
  have heven : EvenMultiple (2 ^ g) (ofSign neg (q * 2 ^ g)) → EvenOnGrid f (ofSign neg (q * 2 ^ g)) := by
    rintro ⟨n, hn⟩
    rw [ofSign_mul, mul_left_inj' (by positivity)] at hn
    have hq : Even q := by
      have hn := congrArg abs hn
      rw [abs_ofSign, Nat.abs_cast] at hn
      have hn : (q : Int) = |2 * n| := by exact_mod_cast hn
      exact (Int.even_coe_nat q).1 (hn ▸ even_abs.2 (even_two_mul n))
    obtain ⟨k, hk⟩ := even_carried g hq
    refine ⟨k, (carried f q g).2, ?_, hd.least, ?_⟩
    · rw [two_mul, ← hk]
      exact hd.lt
    · rw [abs_ofSign, abs_of_nonneg (by positivity), ← carried_value f, hk]
      push_cast
      ring
  obtain hg | hg := hleast.eq_or_lt
  · refine h.refine Multiple.neg (c := 0) hgrid heven le_rfl ⟨0, by simp⟩ (abs_nonneg x) ?_
    rintro z ⟨k, j, -, hj, hz⟩
    exact .inl (multiple_of_le (hg ▸ hj) hz)
  · refine h.refine Multiple.neg (c := 2 ^ f.frac * 2 ^ g) hgrid heven (by positivity) ?_ (hx hg) ?_
    · exact_mod_cast multiple_natCast (2 ^ f.frac) ((2 : ℝ) ^ g)
    · rintro z ⟨k, j, hk, -, hz⟩
      by_cases hjg : g ≤ j
      · exact .inl (multiple_of_le hjg hz)
      · refine .inr ?_
        calc |z| = k * 2 ^ j := hz
          _ < 2 ^ (f.frac + 1) * 2 ^ j := by gcongr; exact_mod_cast hk
          _ = 2 ^ f.frac * 2 ^ (j + 1) := by rw [zpow_add_one₀ two_ne_zero]; ring
          _ ≤ 2 ^ f.frac * 2 ^ g := by gcongr; exacts [one_le_two, by omega]

theorem roundNum_eq {f : Fmt} {rf : Bool} {rm : Rm} {neg : Bool} {m : Nat} {e : Int} {st : Bool} (hm : m ≠ 0) :
    roundNum f rf rm neg m e st =
      let g := max (expOf m e) (emin f) - f.frac
      let r := toGrid rm neg m e g st
      let p := carried f r.1 g
      let fl := flagIf r.2 flagNx ||| flagIf (r.2 && decide (expOf m e < emin f)) flagUf
      if maxBits f < magBits f p.1 p.2 then (overflowBits f rm neg, fl ||| flagOf ||| flagNx)
      else if rf && p.1 != 0 && decide (p.1 < 2 ^ f.frac) then (withSign f neg 0, fl ||| flagUf ||| flagNx)
      else (withSign f neg (magBits f p.1 p.2), fl) := by
  rw [roundNum, if_neg (by simp [hm])]
  rfl

/-- Whether an overflow goes to the infinity of its sign (the table of R89). -/
def toInfinity (rm : Rm) (neg : Bool) : Bool :=
  match rm with
  | .rne => true
  | .rtz => false
  | .rdn => neg
  | .rup => !neg
theorem overflowBits_eq (f : Fmt) (rm : Rm) (neg : Bool) :
    overflowBits f rm neg = withSign f neg (if toInfinity rm neg then infBits f else maxBits f) := by
  cases rm <;> cases neg <;> rfl
theorem overflows_iff {f : Fmt} {rm : Rm} {neg : Bool} {b : Nat} : Overflows f rm neg b ↔
    b < 2 ^ f.width ∧ bitOf b (f.width - 1) = neg ∧ if toInfinity rm neg = true ∧ f ≠ .e4m3 then valueOf f b = .inf neg
      else nonFinite f b = false ∧ real (valueOf f b) = if neg then -greatest f else greatest f := by
  cases rm <;> cases neg <;> rfl
theorem overflowBits_overflows (f : Fmt) (rm : Rm) (neg : Bool) : Overflows f rm neg (overflowBits f rm neg) := by
  have max : nonFinite f (withSign f neg (maxBits f)) = false ∧
      real (valueOf f (withSign f neg (maxBits f))) = if neg then -greatest f else greatest f :=
    ⟨nonFinite_of_num (valueOf_maxBits f neg), by rw [valueOf_maxBits, real_num, greatest_eq, ofSign]⟩
  have small : (if toInfinity rm neg then infBits f else maxBits f) < 2 ^ (f.width - 1) := by
    split
    · exact infBits_lt f
    · exact maxBits_lt f
  rw [overflowBits_eq, overflows_iff]
  refine ⟨withSign_lt neg small, bitOf_withSign neg small, ?_⟩
  split
  next h => rw [if_pos h.1]; exact valueOf_infBits h.2 neg
  next h =>
    have : (if toInfinity rm neg then infBits f else maxBits f) = maxBits f := by
      split
      next hi =>
        obtain rfl : f = .e4m3 := by simpa [hi] using h
        exact infBits_e4m3
      next => rfl
    rw [this]
    exact max

-- The magnitude of a number ------------------------------------------------------------------------------------------------------------

theorem expOf_le {m : Nat} (e : Int) (hm : m ≠ 0) : (2 : ℝ) ^ expOf m e ≤ m * 2 ^ e := by
  rw [expOf, zpow_add₀ two_ne_zero, zpow_natCast]
  gcongr
  exact_mod_cast Nat.log2_self_le hm
theorem lt_expOf {m : Nat} (e : Int) {θ : ℝ} (h1 : θ < 1) : (m + θ) * 2 ^ e < 2 ^ (expOf m e + 1) := by
  rw [expOf, add_right_comm, zpow_add₀ two_ne_zero]
  gcongr
  have : (m : ℝ) + 1 ≤ 2 ^ (m.log2 + 1) := by exact_mod_cast Nat.lt_log2_self
  have e : (2 : ℝ) ^ ((m.log2 : Int) + 1) = 2 ^ (m.log2 + 1) := by exact_mod_cast zpow_natCast (2 : ℝ) (m.log2 + 1)
  rw [e]
  linarith

theorem mul_zpow_le_iff {g : Int} {a b : Nat} : (a : ℝ) * 2 ^ g ≤ b * 2 ^ g ↔ a ≤ b := by
  rw [mul_le_mul_iff_left₀ (by positivity), Nat.cast_le]
/-- The multiple of the last place that is chosen has the digits of the format, but for a carry. -/
theorem Chooses.digits {f : Fmt} {rm : Rm} {neg : Bool} {q : Nat} {g : Int} {x : ℝ} (hlow : emin f - f.frac < g → 2 ^ f.frac * 2 ^ g ≤ |x|)
    (hhigh : |x| ≤ 2 ^ (f.frac + 1) * 2 ^ g) (hleast : emin f - f.frac ≤ g)
    (h : Chooses (Multiple (2 ^ g)) (EvenMultiple (2 ^ g)) rm x (ofSign neg (q * 2 ^ g))) : Digits f (carried f q g).1 (carried f q g).2 := by
  have hy : |ofSign neg (q * 2 ^ g)| = q * 2 ^ g := by rw [abs_ofSign, abs_of_nonneg (by positivity)]
  have point : ∀ n : Nat, Multiple (2 ^ g) ((2 : ℝ) ^ n * 2 ^ g) := fun n => by exact_mod_cast multiple_natCast (2 ^ n) ((2 : ℝ) ^ g)
  refine digits_carried ?_ hleast fun hq => ?_
  · have := h.bounded Multiple.neg (point _) hhigh
    rw [hy] at this
    exact mul_zpow_le_iff.1 (by exact_mod_cast this)
  · by_contra hne
    have := h.bounds Multiple.neg (point _) (by positivity) (hlow (lt_of_le_of_ne hleast (Ne.symm hne)))
    rw [hy] at this
    exact hq.not_ge (mul_zpow_le_iff.1 (by exact_mod_cast this))
theorem roundFlags_of {f : Fmt} {x y : ℝ} {ix tiny : Bool} (hix : ix = true ↔ y ≠ x) (htiny : tiny = true ↔ |x| < smallestNormal f) :
    RoundFlags f x y (flagIf ix flagNx ||| flagIf (ix && tiny) flagUf) := by
  refine ⟨fun h => ?_, fun hne h => ?_, fun hne h => ?_⟩
  · have : ix = false := by simpa [h] using hix
    simp [this, flagIf]
  · have : tiny = false := by simpa [h.not_gt] using htiny
    simp [hix.2 hne, this, flagIf, flagNx]
  · simp [hix.2 hne, htiny.2 h, flagIf, flagNx, flagUf]

/-- How chosen digits are stored: as their encoding, flushed to a zero, or as an overflow. -/
theorem Digits.stored {f : Fmt} {flush : Bool} {rm : Rm} {neg : Bool} {x : ℝ} {q : Nat} {g : Int} {fl : Flags} (hd : Digits f q g)
    (hneg : neg = true ↔ x < 0) (hgrid : Chooses (OnGrid f) (EvenOnGrid f) rm x (ofSign neg (q * 2 ^ g)))
    (hflags : RoundFlags f x (ofSign neg (q * 2 ^ g)) fl) :
    let r := if maxBits f < magBits f q g then (overflowBits f rm neg, fl ||| flagOf ||| flagNx)
      else if flush && q != 0 && decide (q < 2 ^ f.frac) then (withSign f neg 0, fl ||| flagUf ||| flagNx)
      else (withSign f neg (magBits f q g), fl)
    RoundsTo f flush rm x r.1 r.2 := by
  have hy : |ofSign neg (q * 2 ^ g)| = q * 2 ^ g := by rw [abs_ofSign, abs_of_nonneg (by positivity)]
  have hzero : ofSign neg (q * 2 ^ g) = 0 ↔ q = 0 := by
    rw [← abs_eq_zero, hy, mul_eq_zero, or_iff_left (by positivity), Nat.cast_eq_zero]
  have hbig : maxBits f < magBits f q g ↔ greatest f < |ofSign neg (q * 2 ^ g)| := by
    rw [hy, greatest_eq, ← magBits_max]
    exact (digits_max f).lt_iff hd
  have hsmall := hd.subnormal_iff
  rw [← hy] at hsmall
  refine ⟨ofSign neg (q * 2 ^ g), neg, fl, hgrid, hflags, hneg, ?_⟩
  by_cases hmax : maxBits f < magBits f q g
  · rw [if_pos hmax]
    refine ⟨fun _ => ⟨overflowBits_overflows f rm neg, ?_⟩, fun h => absurd (hbig.1 hmax) h.not_gt, fun h => absurd (hbig.1 hmax) h.not_gt⟩
    rw [BitVec.or_assoc]
    rfl
  · rw [if_neg hmax]
    refine ⟨fun h => absurd (hbig.2 h) hmax, fun _ hflush hne hlt => ?_, fun _ hkeep => ?_⟩
    · have hcond : (flush && q != 0 && decide (q < 2 ^ f.frac)) = true := by simp [hflush, hsmall.1 hlt, mt hzero.2 hne]
      rw [if_pos hcond]
      refine ⟨rfl, ?_⟩
      rw [BitVec.or_assoc]
      rfl
    · have hcond : ¬ (flush && q != 0 && decide (q < 2 ^ f.frac)) = true := by
        simp only [Bool.and_eq_true, bne_iff_ne, decide_eq_true_eq, not_and, and_imp]
        intro hflush hne hlt
        obtain h | h | h := hkeep
        · exact absurd hflush (by simp [h])
        · exact hne (hzero.1 h)
        · exact h.not_gt (hsmall.2 hlt)
      rw [if_neg hcond]
      have hle := Nat.le_of_not_lt hmax
      have hlt := hle.trans_lt (maxBits_lt f)
      have hv := hd.valueOf_eq hle neg
      exact ⟨by rw [hv, real_num], bitOf_withSign neg hlt, withSign_lt neg hlt, nonFinite_of_num hv, rfl⟩
/-- round_t of (m + θ) · 2^e, where θ is what the sticky bit stands for: as R89 says. -/
theorem roundNum_roundsTo {f : Fmt} {flush : Bool} {rm : Rm} {neg : Bool} {m : Nat} {e : Int} {st : Bool} {θ : ℝ} (h0 : 0 ≤ θ) (h1 : θ < 1)
    (hst : st = true ↔ θ ≠ 0) (hm : m ≠ 0) (hs : st = true → 2 ^ (f.frac + 1) ≤ m) :
    let r := roundNum f flush rm neg m e st
    RoundsTo f flush rm (ofSign neg ((m + θ) * 2 ^ e)) r.1 r.2 := by
  have hE : (2 : ℝ) ^ expOf m e ≤ (m + θ) * 2 ^ e := (expOf_le e hm).trans (by gcongr; linarith)
  have hE' := lt_expOf (m := m) e h1
  have hpos : 0 < (m + θ) * (2 : ℝ) ^ e := lt_of_lt_of_le (by positivity) hE
  have hsticky : st = true → e < max (expOf m e) (emin f) - f.frac := fun h => by
    have : f.frac + 1 ≤ m.log2 := (Nat.le_log2 hm).2 (hs h)
    unfold expOf
    omega
  obtain ⟨hchooses, hix⟩ := toGrid_chooses (rm := rm) (neg := neg) (m := m) h0 h1 hst hsticky
  have hneg : neg = true ↔ ofSign neg ((m + θ) * 2 ^ e) < 0 := ofSign_neg_iff hpos
  have habs : |ofSign neg ((m + θ) * 2 ^ e)| = (m + θ) * 2 ^ e := by rw [abs_ofSign, abs_of_pos hpos]
  rw [← habs] at hE hE'
  have htiny : decide (expOf m e < emin f) = true ↔ |ofSign neg ((m + θ) * 2 ^ e)| < smallestNormal f := by
    rw [decide_eq_true_eq, smallestNormal]
    refine ⟨fun h => hE'.trans_le (zpow_le_zpow_right₀ one_le_two h), fun h => ?_⟩
    exact (zpow_lt_zpow_iff_right₀ one_lt_two).1 (hE.trans_lt h)
  have hleast : emin f - f.frac ≤ max (expOf m e) (emin f) - f.frac := by omega
  have hlow : emin f - f.frac < max (expOf m e) (emin f) - f.frac →
      2 ^ f.frac * 2 ^ (max (expOf m e) (emin f) - f.frac) ≤ |ofSign neg ((m + θ) * 2 ^ e)| := fun h => by
    refine le_of_eq_of_le ?_ hE
    rw [← zpow_natCast, ← zpow_add₀ two_ne_zero]
    congr 1
    omega
  have hhigh : |ofSign neg ((m + θ) * 2 ^ e)| ≤ 2 ^ (f.frac + 1) * 2 ^ (max (expOf m e) (emin f) - f.frac) := by
    refine hE'.le.trans ?_
    rw [← zpow_natCast, ← zpow_add₀ two_ne_zero]
    exact zpow_le_zpow_right₀ one_le_two (by push_cast; omega)
  have hd := hchooses.digits hlow hhigh hleast
  have hgrid := hchooses.onGrid hlow hd hleast
  rw [roundNum_eq hm]
  generalize max (expOf m e) (emin f) - f.frac = g at *
  have hflags := roundFlags_of hix htiny
  dsimp only at hflags ⊢
  generalize flagIf (toGrid rm neg m e g st).2 flagNx ||| _ = fl at *
  generalize (toGrid rm neg m e g st).1 = q0 at *
  generalize ofSign neg ((m + θ) * 2 ^ e) = x at *
  rw [← carried_value f] at hgrid hflags
  exact hd.stored hneg hgrid hflags

/-- round_t of a number that is not zero. -/
theorem roundVal_roundsTo {f : Fmt} {flush : Bool} {rm : Rm} {neg : Bool} {m : Nat} {e : Int} (hm : m ≠ 0) :
    let r := roundVal f flush rm (.num neg m e)
    RoundsTo f flush rm (real (.num neg m e)) r.1 r.2 := by
  have := roundNum_roundsTo (f := f) (flush := flush) (rm := rm) (neg := neg) (e := e) (st := false) le_rfl one_pos (by simp) hm (by simp)
  rwa [add_zero, ← real_num] at this
theorem roundVal_zero (f : Fmt) (flush : Bool) (rm : Rm) (neg : Bool) (e : Int) : roundVal f flush rm (.num neg 0 e) = (withSign f neg 0, 0) := by
  simp [roundVal, roundNum]
/-- round_int of a number: the integer its mode chooses, and whether it differs. -/
theorem roundInt_chooses (rm : Rm) (neg : Bool) (m : Nat) (e : Int) :
    let x := real (.num neg m e)
    let r := roundInt rm neg m e
    Chooses Whole EvenWhole rm x (r.1 : ℝ) ∧ (r.2 = true ↔ (r.1 : ℝ) ≠ x) := by
  have h := toGrid_chooses (rm := rm) (neg := neg) (m := m) (e := e) (g := 0) (st := false) le_rfl one_pos (by simp) (by simp)
  have hr : ((roundInt rm neg m e).1 : ℝ) = ofSign neg ((toGrid rm neg m e 0 false).1) := by cases neg <;> simp [roundInt]
  simp only [add_zero, ← real_num, zpow_zero, mul_one, ← hr] at h
  rw [whole_eq, evenWhole_eq]
  exact h

/-- Settles O22: round_t chooses among the multiples of the number's last place, which are the points of the format's grid beside it;
the digits of the multiple are its encoding, in the order of the values, and past the greatest of them it overflows. -/
theorem roundingModes : Obligations.RoundingModes := by
  unfold Obligations.RoundingModes
  intro f flush rm neg m e q
  refine ⟨roundVal_roundsTo, ?_, rfl, ?_, (roundInt_chooses rm neg m e).1, (roundInt_chooses rm neg m e).2⟩
  · rintro rfl
    exact roundVal_zero f flush rm neg e
  · rfl

end Sys2Proof.Claims
end

section
/-!
PROOFS. Float sums, products and fused sums (spec/05 R109, R110; spec/04 R90, R92): exact on dyadic numbers, then rounded once.
-/
namespace Sys2Proof.Claims
open Machine

-- Rounded results -------------------------------------------------------------------------------------------------------------------

theorem real_eq_zero {neg : Bool} {m : Nat} {e : Int} : real (.num neg m e) = 0 ↔ m = 0 := by
  rw [real_num, ← abs_eq_zero, abs_ofSign, abs_eq_zero, mul_eq_zero, or_iff_left (by positivity), Nat.cast_eq_zero]
/-- What rounding gives is an encoding of the format. -/
theorem RoundsTo.lt {f : Fmt} {flush : Bool} {rm : Rm} {x : ℝ} {b : Nat} {fl : Flags} (h : RoundsTo f flush rm x b fl) : b < 2 ^ f.width := by
  obtain ⟨y, neg, fl0, -, -, -, hbig, hflush, hkeep⟩ := h
  obtain hy | hy := lt_or_ge (greatest f) |y|
  · exact (hbig hy).1.1
  · by_cases hc : flush = false ∨ y = 0 ∨ smallestNormal f ≤ |y|
    · exact (hkeep hy hc).2.2.1
    · push Not at hc
      obtain ⟨hf, hy0, hsmall⟩ := hc
      rw [(hflush hy (by simpa using hf) hy0 hsmall).1]
      exact withSign_lt neg (Nat.two_pow_pos _)
/-- A rounded result of (m + θ) · 2^e, where θ is what the sticky bit stands for. -/
theorem arithRes_rounded {f : Fmt} {ctl : BitVec 10} {rm : Rm} {neg : Bool} {m : Nat} {e : Int} {st : Bool} {θ : ℝ} (h0 : 0 ≤ θ) (h1 : θ < 1)
    (hst : st = true ↔ θ ≠ 0) (hm : m ≠ 0) (hs : st = true → 2 ^ (f.frac + 1) ≤ m) :
    let r := arithRes f ctl rm neg m e st
    Rounded f (resultFlush ctl f) rm (ofSign neg ((m + θ) * 2 ^ e)) (r.bits, r.fl) :=
  ⟨_, roundNum_roundsTo h0 h1 hst hm hs, rfl⟩
theorem arithRes_num {f : Fmt} {ctl : BitVec 10} {rm : Rm} {neg : Bool} {m : Nat} {e : Int} (hm : m ≠ 0) :
    let r := arithRes f ctl rm neg m e false
    Rounded f (resultFlush ctl f) rm (real (.num neg m e)) (r.bits, r.fl) := by
  have := arithRes_rounded (f := f) (ctl := ctl) (rm := rm) (neg := neg) (e := e) (st := false) le_rfl one_pos (by simp) hm (by simp)
  rwa [add_zero, ← real_num] at this
theorem valueOf_zero (f : Fmt) (neg : Bool) : valueOf f (withSign f neg 0) = .num neg 0 (1 - (f.bias : Int) - f.frac) := by
  cases f <;> cases neg <;> decide
theorem arithRes_zero (f : Fmt) (ctl : BitVec 10) (rm : Rm) (neg : Bool) (e : Int) :
    arithRes f ctl rm neg 0 e false = { bits := withSign f neg 0 } := by
  have : nonFinite f (withSign f neg 0) = false := nonFinite_of_num (valueOf_zero f neg)
  simp [arithRes, roundNum, Res.nf, this, flagIf]

-- Sums ----------------------------------------------------------------------------------------------------------------------------------

/-- A number at a smaller exponent. -/
theorem align_value (m : Nat) {e g : Int} (h : g ≤ e) : ((m * 2 ^ (e - g).toNat : Nat) : ℝ) * 2 ^ g = m * 2 ^ e := by
  have := toGrid_exact (rm := .rne) (neg := false) (m := m) h
  rwa [toGrid, if_pos h] at this
theorem sumExact_real (rm : Rm) (p : Bool) (m : Nat) (e : Int) (q : Bool) (n : Nat) (g : Int) :
    let r := sumExact rm p m e q n g
    real (.num r.1 r.2.1 r.2.2) = real (.num p m e) + real (.num q n g) := by
  simp only [sumExact]
  rw [real_num p, real_num q, ← align_value m (min_le_left e g), ← align_value n (min_le_right e g), ofSign_mul, ofSign_mul, ← add_mul]
  generalize m * 2 ^ (e - min e g).toNat = a
  generalize n * 2 ^ (g - min e g).toNat = b
  by_cases hpq : p = q
  · rw [if_pos hpq, real_num, ofSign_mul, ← hpq]
    congr 1
    cases p
    · simp
    · simp only [ofSign_true, Nat.cast_add]
      ring
  · rw [if_neg hpq]
    have hq : q = !p := by cases p <;> cases q <;> simp_all
    obtain h | rfl | h := lt_trichotomy a b
    · rw [if_neg h.ne, if_neg h.not_gt, real_num, ofSign_mul, hq]
      congr 1
      cases p <;> simp [Nat.cast_sub h.le, sub_eq_neg_add, add_comm]
    · rw [if_pos rfl, real_eq_zero.2 rfl, hq]
      cases p <;> simp
    · rw [if_neg h.ne', if_pos h, real_num, ofSign_mul, hq]
      congr 1
      cases p <;> simp [Nat.cast_sub h.le, sub_eq_add_neg, add_comm]
/-- The sign of an exact zero sum (spec/04 R90). -/
theorem sumExact_zero {rm : Rm} {p : Bool} {m : Nat} {e : Int} {q : Bool} {n : Nat} {g : Int} (h : (sumExact rm p m e q n g).2.1 = 0) :
    (sumExact rm p m e q n g).1 = if p = q then p else decide (rm = .rdn) := by
  simp only [sumExact] at h ⊢
  split
  next => rfl
  next hpq =>
    rw [if_neg hpq] at h
    split
    next => rfl
    next hne =>
      rw [if_neg hne] at h
      split at h
      all_goals dsimp only at h; omega

theorem infRes_eq {f : Fmt} (hf : f ≠ .e4m3) (neg : Bool) : infRes f neg = { bits := withSign f neg (infBits f), fl := 0x080 } := by
  simp [infRes, Res.nf, nonFinite_of_inf (valueOf_infBits hf neg), flagIf, flagNf]
/-- fop of + (spec/05 R109) at a format with infinities. -/
theorem fAdd_isSum {f : Fmt} (hf : f ≠ .e4m3) (ctl : BitVec 10) (rm : Rm) (x y : FVal) :
    let r := fAdd f ctl rm x y
    IsSum f (resultFlush ctl f) rm x y (r.bits, r.fl) := by
  cases x with
  | nan a => cases y <;> rfl
  | inf a =>
    cases y with
    | nan b => rfl
    | inf b =>
      simp only [fAdd, IsSum, infRes_eq hf]
      split <;> rfl
    | num b m e => simp only [fAdd, IsSum, infRes_eq hf, infinity]
  | num a m e =>
    cases y with
    | nan b => rfl
    | inf b => simp only [fAdd, IsSum, infRes_eq hf, infinity]
    | num b n g =>
      have hreal := sumExact_real rm a m e b n g
      have hzero := sumExact_zero (rm := rm) (p := a) (m := m) (e := e) (q := b) (n := n) (g := g)
      simp only [fAdd, IsSum, ← hreal, ne_eq, real_eq_zero]
      refine ⟨fun h => arithRes_num h, fun h => ?_⟩
      rw [h, arithRes_zero, hzero h, zero]

-- Fused sums ------------------------------------------------------------------------------------------------------------------------------

/-- fop_fma (spec/05 R110) at a format with infinities. -/
theorem fFma_isFused {f : Fmt} (hf : f ≠ .e4m3) (ctl : BitVec 10) (rm : Rm) (x y z : FVal) :
    let r := fFma f ctl rm x y z
    IsFused f (resultFlush ctl f) rm x y z (r.bits, r.fl) := by
  have added := fun p => fAdd_isSum hf ctl rm p z
  cases x with
  | nan a => cases y <;> cases z <;> rfl
  | inf a =>
    cases y with
    | nan b => cases z <;> rfl
    | inf b => exact added _
    | num b m e =>
      simp only [fFma, mulExact, IsFused]
      split
      · rfl
      · exact added _
  | num a m e =>
    cases y with
    | nan b => cases z <;> rfl
    | inf b =>
      simp only [fFma, mulExact, IsFused]
      split
      · rfl
      · exact added _
    | num b n g => exact added _

-- The encodings that result ---------------------------------------------------------------------------------------------------------------------

theorem IsSum.lt {f : Fmt} {flush : Bool} {rm : Rm} {x y : FVal} {r : Nat × Flags} (h : IsSum f flush rm x y r) : r.1 < 2 ^ f.width := by
  have nan := qnan_lt f
  have inf := fun p => withSign_lt p (infBits_lt f)
  cases x with
  | nan a => cases y <;> exact h ▸ nan
  | inf a =>
    cases y with
    | nan b => exact h ▸ nan
    | inf b =>
      obtain rfl : r = _ := h
      split
      · exact inf a
      · exact nan
    | num b m e => exact (h : r = _) ▸ inf a
  | num a m e =>
    cases y with
    | nan b => exact h ▸ nan
    | inf b => exact (h : r = _) ▸ inf b
    | num b n g =>
      obtain ⟨hne, heq⟩ := h
      by_cases h0 : real (.num a m e) + real (.num b n g) = 0
      · rw [heq h0]
        exact withSign_lt _ (Nat.two_pow_pos _)
      · obtain ⟨fl, hr, -⟩ := hne h0
        exact hr.lt
theorem IsFused.lt {f : Fmt} {flush : Bool} {rm : Rm} {x y z : FVal} {r : Nat × Flags} (h : IsFused f flush rm x y z r) : r.1 < 2 ^ f.width := by
  have nan := qnan_lt f
  cases x with
  | nan a => cases y <;> exact h ▸ nan
  | inf a =>
    cases y with
    | nan b => exact h ▸ nan
    | inf b => exact IsSum.lt h
    | num b m e =>
      simp only [IsFused] at h
      split at h
      · exact h ▸ nan
      · exact IsSum.lt h
  | num a m e =>
    cases y with
    | nan b => exact h ▸ nan
    | inf b =>
      simp only [IsFused] at h
      split at h
      · exact h ▸ nan
      · exact IsSum.lt h
    | num b n g => exact IsSum.lt h
end Sys2Proof.Claims
end

section
/-!
PROOFS. The cells of a product word (spec/10 R204 to R206): images of elements, the operands and scales as the statements write them,
float cells step by step and sliced cells as one exact sum, and an accumulator after a half.
-/
namespace Sys2Proof.Claims
open Machine

-- Elements of an image (spec/03 R53) ----------------------------------------------------------------------------------------------------

theorem testBit_withBits (img k w v n : Nat) :
    (withBits img k w v).testBit n = if n < k then img.testBit n else if n < k + w then v.testBit (n - k) else img.testBit n := by
  simp only [withBits, Nat.testBit_or, Nat.testBit_shiftLeft, Nat.testBit_shiftRight, Nat.testBit_mod_two_pow]
  by_cases h1 : n < k
  · simp [h1, show ¬ k + w ≤ n by omega, show ¬ k ≤ n by omega]
  · by_cases h2 : n < k + w
    · simp [h1, h2, show ¬ k + w ≤ n by omega, show k ≤ n by omega, show n - k < w by omega]
    · simp [h1, h2, show k + w ≤ n by omega, show ¬ n - k < w by omega]
theorem testBit_bitsAt (img k w n : Nat) : (bitsAt img k w).testBit n = (decide (n < w) && img.testBit (k + n)) := by
  simp [bitsAt, Nat.testBit_mod_two_pow, Nat.testBit_shiftRight]
theorem elemAt_withElem (img w i v j : Nat) : elemAt (withElem img w i v) w j = if j = i then v % 2 ^ w else elemAt img w j := by
  apply Nat.eq_of_testBit_eq
  intro n
  rw [elemAt, withElem, testBit_bitsAt, testBit_withBits]
  by_cases hn : n < w
  · obtain h | rfl | h := lt_trichotomy j i
    · have : w * j + w ≤ w * i := by rw [← Nat.mul_succ]; exact Nat.mul_le_mul_left w h
      simp [h.ne, hn, show w * j + n < w * i by omega, elemAt, testBit_bitsAt]
    · simp [hn, Nat.testBit_mod_two_pow]
    · have : w * i + w ≤ w * j := by rw [← Nat.mul_succ]; exact Nat.mul_le_mul_left w h
      simp [h.ne', hn, show ¬ w * j + n < w * i by omega, show ¬ w * j + n < w * i + w by omega, elemAt, testBit_bitsAt]
  · have : (if j = i then v % 2 ^ w else elemAt img w j).testBit n = false := by
      split <;> simp [hn, Nat.testBit_mod_two_pow, elemAt, testBit_bitsAt]
    simp [hn, this]
theorem elemAt_eq (img w i : Nat) : elemAt img w i = img / 2 ^ (w * i) % 2 ^ w := by
  rw [elemAt, bitsAt, Nat.shiftRight_eq_div_pow]
theorem cellAt_withCell {img i j v a b : Nat} (hj : j < 128) (hb : b < 128) :
    cellAt (withCell img a b v) i j = if i = a ∧ j = b then v % 2 ^ 32 else cellAt img i j := by
  rw [cellAt, withCell, elemAt_withElem, cellAt]
  exact if_congr (by omega) rfl rfl
theorem cell_eq (h : Hart) (z : Acc) (i j : Nat) : cell h z i j = cellAt (accOf h z) i j := (elemAt_eq _ _ _).symm
theorem acc_eq (h : Hart) (z : Acc) : h.acc z = accOf h z := by cases z <;> rfl

-- Operands and scales as the statements write them ------------------------------------------------------------------------------------------

theorem tyBits_eq (t : ETy) : tyBits t = elemBits t := by cases t <;> rfl
theorem tyFmtD_of {t : ETy} {f : Fmt} (h : fmtOf t = some f) : tyFmtD t = f := by
  cases t <;> cases h <;> rfl
theorem capOf_eq {t : ETy} (ht : t ≠ .q) (v : Word) (lanes : Nat) : capOf t v lanes = laneRows t * lanes := by
  obtain ⟨hcode, hrows⟩ := (laneRows_mul t).resolve_left ht
  rw [capOf, if_neg ht, vlmax, if_neg (by omega), ← hrows, Nat.mul_right_comm, Nat.mul_div_cancel _ (by positivity)]
theorem elem_eq (h : Hart) (r : Reg) (w i : Nat) : h.elem r w i = row h r w i := elemAt_eq _ _ _
theorem aPlace_eq (p : Half) (k i : Nat) : p.aPlace k i = aSpot p k i := by
  obtain ⟨form, _⟩ := p
  cases form <;> rfl
theorem bPlace_eq (p : Half) (k j : Nat) : p.bPlace k j = bSpot p k j := by
  obtain ⟨form, _⟩ := p
  cases form <;> rfl
theorem bSpot_row (p : Half) (k j : Nat) : (bSpot p k j).2 = j := by
  obtain ⟨form, _⟩ := p
  cases form <;> rfl
theorem aBits_eq (p : Half) (h : Hart) (t : ETy) (k i : Nat) : p.aBits h t k i = aOperand h t p k i := by
  unfold Half.aBits aOperand
  rw [elem_eq, aPlace_eq, tyBits_eq]
  cases p.byp
  · rfl
  · cases h.bypass with
    | none => rfl
    | some b => exact elemAt_eq _ _ _
theorem steps_eq (p : Half) : p.form.steps = stepsOf p := by
  obtain ⟨form, _⟩ := p
  cases form <;> rfl
theorem scale_eq {t : ETy} (ht : t ≠ .q) (p : Half) (h : Hart) (k i j : Nat) :
    p.scale h (capOf t h.vtype h.lanes) k i j = productScale h t p k i j := by
  obtain ⟨form, z, va, vb, ks, byp⟩ := p
  rw [capOf_eq ht]
  cases ks with
  | none => rfl
  | some s => cases form <;> simp only [Half.scale, productScale, Half.aScale, Half.bScale, aSpot, Hart.scale, bitsAt, Nat.shiftRight_eq_div_pow] <;> rfl
theorem scaleBy_eq (x : FVal) (e : Int) : scaleBy x e = scaled x e := by cases x <;> rfl

-- Float cells (spec/10 R205, R206) ---------------------------------------------------------------------------------------------------------------

theorem floatStep_spec {t : ETy} {f : Fmt} (hf : fmtOf t = some f) (p : Half) (h : Hart) (rm : Rm) (i j k : Nat) (c : Nat × Flags) :
    let x := operand f h.fpctl (aOperand h t p k i)
    let y := operand f h.fpctl (row h (bSpot p k j).1 (elemBits t) (bSpot p k j).2)
    let r := floatStep p h t rm (capOf t h.vtype h.lanes) i j c k
    match productScale h t p k i j with
    | none => r = (qnan .f32, c.2 ||| x.2 ||| y.2 ||| 0x090)
    | some e => ∃ q, IsFused .f32 (resultFlush h.fpctl .f32) rm (scaled x.1 e) y.1 (valueOf .f32 c.1) q ∧ r = (q.1, c.2 ||| x.2 ||| y.2 ||| q.2) := by
  have ht : t ≠ .q := by
    rintro rfl
    cases hf
  simp only [floatStep, tyFmtD_of hf, aBits_eq, bPlace_eq, elem_eq, tyBits_eq, scale_eq ht]
  cases productScale h t p k i j with
  | none => rfl
  | some e =>
    simp only [addProduct, scaleBy_eq]
    exact ⟨_, fFma_isFused (by decide) _ _ _ _ _, rfl⟩
theorem floatCell_steps {t : ETy} {f : Fmt} (hf : fmtOf t = some f) (p : Half) (h : Hart) (rm : Rm) (i j n : Nat) :
    FloatCell h t f rm p i j n
      ((List.range n).foldl (floatStep p h t rm (capOf t h.vtype h.lanes) i j) (cell h p.z i j, 0)) := by
  induction n with
  | zero => rfl
  | succ n ih =>
    rw [List.range_succ, List.foldl_append]
    exact ⟨_, ih, floatStep_spec hf p h rm i j n _⟩
theorem FloatCell.lt {h : Hart} {t : ETy} {f : Fmt} {rm : Rm} {p : Half} {i j n : Nat} {r : Nat × Flags} (hc : FloatCell h t f rm p i j n r) :
    r.1 < 2 ^ 32 := by
  cases n with
  | zero =>
    obtain rfl : r = _ := hc
    exact Nat.mod_lt _ (Nat.two_pow_pos _)
  | succ n =>
    obtain ⟨c, -, hr⟩ := hc
    dsimp only at hr
    split at hr
    · rw [hr]
      exact qnan_lt .f32
    · obtain ⟨q, hq, rfl⟩ := hr
      exact hq.lt

-- Sliced cells (spec/04 R81, R82, R99) --------------------------------------------------------------------------------------------------------------

theorem qaOf_eq (h : Hart) : qaOf h = aWidth h := by simp [qaOf, aWidth, vtQw, bitsOf]
theorem qbOf_eq (h : Hart) : qbOf h = bWidth h := by simp [qbOf, bWidth, aWidth, vtQw, vtQwb, bitsOf]
theorem qbSigned_eq (h : Hart) : qbSigned h = bSign h := by simp [qbSigned, bSign, aSign, vtQs, vtQsb, vtQwb, bitsOf]
theorem groupOf_eq (h : Hart) : groupOf h = perStep h := by rw [groupOf, perStep, qaOf_eq, qbOf_eq]
theorem slicedRows_eq (qw lanes : Nat) : slicedRows qw lanes = mostRows .sliced qw lanes := rfl
theorem bitOf_eq (v i : Nat) : bitOf v i = v.testBit i := by
  rw [bitOf, Nat.testBit_eq_decide_div_mod_eq, Bool.beq_eq_decide_eq]
theorem slicedRow_eq (img m i w : Nat) :
    (slicedRow img m i w : Int) = ((List.range w).map fun b => if planeBit img m b i then 2 ^ b else 0).sum := by
  induction w with
  | zero => rfl
  | succ w ih =>
    rw [slicedRow, Nat.cast_add, ih, List.range_succ, List.map_append, List.sum_append, bitOf_eq]
    by_cases hb : img.testBit (w * m + i) = true <;> simp [planeBit, hb]
theorem slicedRow_lt (img m i w : Nat) : slicedRow img m i w < 2 ^ w := by
  induction w with
  | zero => exact one_pos
  | succ w ih =>
    rw [slicedRow, pow_succ]
    split <;> omega
theorem intOf_of_lt {sgn : Bool} {w v : Nat} (h : v < 2 ^ w) :
    intOf sgn w v = if sgn && decide ((2 : Int) ^ (w - 1) ≤ v) then (v : Int) - 2 ^ w else v := by
  have half : 2 * v < 2 ^ w ↔ ¬ (2 : Int) ^ (w - 1) ≤ v := by
    have : (2 : Int) ^ (w - 1) ≤ v ↔ 2 ^ (w - 1) ≤ v := by exact_mod_cast Iff.rfl
    rw [this]
    cases w with
    | zero => simp
    | succ w => rw [pow_succ, Nat.add_sub_cancel]; omega
  rw [intOf, sextN, Nat.mod_eq_of_lt h]
  cases sgn
  · simp
  · by_cases hv : (2 : Int) ^ (w - 1) ≤ v <;> simp [half, hv]
theorem intOf_slicedRow (h : Hart) (r : Reg) (w e : Nat) (sgn : Bool) :
    intOf sgn w (slicedRow (h.vimg r) (slicedRows w h.lanes) e w) = slicedNumber h r w sgn e := by
  rw [intOf_of_lt (slicedRow_lt ..), slicedRow_eq, slicedRows_eq, slicedNumber]
theorem foldl_add_eq {α : Type} (f : α → Int) (l : List α) (z : Int) : l.foldl (fun z u => z + f u) z = z + (l.map f).sum := by
  induction l generalizing z with
  | nil => simp
  | cons u l ih => simp [ih, add_assoc]
theorem slicedSum_eq (p : Half) (h : Hart) (i j k : Nat) : slicedSum p h i j k = slicedStepSum h p i j k := by
  simp only [slicedSum, slicedStepSum, foldl_add_eq, zero_add, upTo, aPlace_eq, bPlace_eq, bSpot_row, groupOf_eq, qaOf_eq, qbOf_eq, qbSigned_eq,
    intOf_slicedRow]
  rfl
theorem addExact_sliced (p : Half) (h : Hart) (rm : Rm) (i j : Nat) :
    SlicedCell h rm p i j (addExact h rm (cell h p.z i j, 0) (slicedTotal p h i j)) := by
  have hz : slicedTotal p h i j = ((List.range (stepsOf p)).map (slicedStepSum h p i j)).sum := by
    rw [slicedTotal, steps_eq, upTo]
    congr 2
    funext k
    exact slicedSum_eq p h i j k
  have hr : ∀ z : Int, addExact h rm (cell h p.z i j, 0) z =
      ((fAdd .f32 h.fpctl rm (valueOf .f32 (cell h p.z i j)) (ofInt z)).bits, (fAdd .f32 h.fpctl rm (valueOf .f32 (cell h p.z i j)) (ofInt z)).fl) :=
    fun z => Prod.ext rfl (BitVec.zero_or ..)
  rw [hz, hr]
  exact fAdd_isSum (by decide) _ _ _ _

-- An accumulator after a half ------------------------------------------------------------------------------------------------------------------------

/-- What a half makes of a cell, with the flags it raises there. -/
def cellResult (p : Half) (h : Hart) (t : ETy) (rm : Rm) (i j : Nat) : Nat × Flags :=
  if t = .q then addExact h rm (cell h p.z i j, 0) (slicedTotal p h i j)
  else (List.range (stepsOf p)).foldl (floatStep p h t rm (capOf t h.vtype h.lanes) i j) (cell h p.z i j, 0)
theorem cellResult_sliced (p : Half) (h : Hart) (rm : Rm) (i j : Nat) : SlicedCell h rm p i j (cellResult p h .q rm i j) :=
  addExact_sliced p h rm i j
theorem cellResult_float {t : ETy} {f : Fmt} (hf : fmtOf t = some f) (p : Half) (h : Hart) (rm : Rm) (i j : Nat) :
    FloatCell h t f rm p i j (stepsOf p) (cellResult p h t rm i j) := by
  have ht : t ≠ .q := by
    rintro rfl
    cases hf
  rw [cellResult, if_neg ht]
  exact floatCell_steps hf p h rm i j _
theorem cellResult_lt {t : ETy} (ht : t = .q ∨ (fmtOf t).isSome) (p : Half) (h : Hart) (rm : Rm) (i j : Nat) :
    (cellResult p h t rm i j).1 < 2 ^ 32 := by
  obtain rfl | ht := ht
  · exact (cellResult_sliced p h rm i j).lt
  · obtain ⟨f, hf⟩ := Option.isSome_iff_exists.1 ht
    exact (cellResult_float hf p h rm i j).lt
theorem half_run_eq (p : Half) (h : Hart) (t : ETy) (rm : Rm) :
    p.run h t rm = (corner h.mvlen).foldl (fun acc x =>
      (withCell acc.1 x.1 x.2 (cellResult p h t rm x.1 x.2).1, acc.2 ||| (cellResult p h t rm x.1 x.2).2)) (accOf h p.z, 0) := by
  simp only [Half.run, cellResult, upTo, steps_eq, acc_eq, ← cell_eq]

theorem mem_corner {n i j : Nat} : (i, j) ∈ corner n ↔ i < n ∧ j < n := by simp [corner, upTo]
theorem cellAt_writes {v : Nat → Nat → Nat × Flags} {l : List (Nat × Nat)} (hl : ∀ x ∈ l, x.2 < 128) {i j : Nat} (hj : j < 128) (a : Nat × Flags) :
    cellAt (l.foldl (fun acc x => (withCell acc.1 x.1 x.2 (v x.1 x.2).1, acc.2 ||| (v x.1 x.2).2)) a).1 i j =
      if (i, j) ∈ l then (v i j).1 % 2 ^ 32 else cellAt a.1 i j := by
  induction l generalizing a with
  | nil => simp
  | cons x l ih =>
    rw [List.foldl_cons, ih fun y hy => hl y (List.mem_cons_of_mem _ hy), cellAt_withCell hj (hl x List.mem_cons_self)]
    by_cases hin : (i, j) ∈ l
    · simp [hin]
    · by_cases hx : i = x.1 ∧ j = x.2
      · obtain ⟨rfl, rfl⟩ := hx
        simp [hin]
      · have : (i, j) ≠ x := fun e => hx (by simp [← e])
        simp [hin, hx, this]
theorem half_run_cell {p : Half} {h : Hart} {t : ETy} (ht : t = .q ∨ (fmtOf t).isSome) (rm : Rm) (hn : h.mvlen ≤ 128) {i j : Nat} (hj : j < 128) :
    cellAt (p.run h t rm).1 i j = if i < h.mvlen ∧ j < h.mvlen then (cellResult p h t rm i j).1 else cell h p.z i j := by
  rw [half_run_eq, cellAt_writes (fun x hx => (mem_corner.1 hx).2.trans_le hn) hj, Nat.mod_eq_of_lt (cellResult_lt ht ..), cell_eq]
  exact if_congr mem_corner rfl rfl

/-- Flags gathered by a fold join those that stood before. -/
theorem foldl_or_eq {α : Type} (f : α → Flags) (l : List α) (a : Flags) : l.foldl (fun fl x => fl ||| f x) a = a ||| l.foldl (fun fl x => fl ||| f x) 0 := by
  induction l generalizing a with
  | nil => simp
  | cons x l ih =>
    have first : (0 : Flags) ||| f x = f x := BitVec.zero_or ..
    rw [List.foldl_cons, ih, List.foldl_cons, first, ih (f x), BitVec.or_assoc]
/-- The flags of the corner's cells, joined to those that stood before. -/
def cornerFlags (n : Nat) (v : Nat → Nat → Nat × Flags) (fl : Flags) : Flags :=
  (List.range n).foldl (fun fl i => (List.range n).foldl (fun fl j => fl ||| (v i j).2) fl) fl
theorem cornerFlags_eq (n : Nat) (v : Nat → Nat → Nat × Flags) (fl : Flags) :
    cornerFlags n v fl = (corner n).foldl (fun fl x => fl ||| (v x.1 x.2).2) fl := by
  simp only [cornerFlags, corner, upTo, List.foldl_flatMap, List.foldl_map]
theorem half_run_flags (p : Half) (h : Hart) (t : ETy) (rm : Rm) (fl : Flags) :
    fl ||| (p.run h t rm).2 = cornerFlags h.mvlen (cellResult p h t rm) fl := by
  have snd : ∀ (l : List (Nat × Nat)) (a : Nat × Flags),
      (l.foldl (fun acc x => (withCell acc.1 x.1 x.2 (cellResult p h t rm x.1 x.2).1, acc.2 ||| (cellResult p h t rm x.1 x.2).2)) a).2 =
        l.foldl (fun fl x => fl ||| (cellResult p h t rm x.1 x.2).2) a.2 := by
    intro l
    induction l with
    | nil => exact fun a => rfl
    | cons x l ih => exact fun a => ih _
  rw [half_run_eq, snd, cornerFlags_eq, foldl_or_eq _ _ fl]
end Sys2Proof.Claims
end

section
/-!
PROOFS. Product words (spec/10 R202, R208, R214, R215): the tests before a product, what it leaves of the state, and the words with
their halves.
-/
namespace Sys2Proof.Machine

-- The tests of a product word (spec/10 R202, R208) ------------------------------------------------------------------------------------------

theorem needMatrixMode_ok {s : State} (i : Instr) (h : s.me.matrix = true) : needMatrixMode i s = .ok ((), s) := by
  simp [needMatrixMode, h]
theorem trap_takes {α : Type} {s : State} (h : s.copying s.cur = false) (cause : Nat) (value : Word) :
    (Machine.trap cause 0 value : Op α) s = .error (s.takeTrap s.cur { cause := cause, value := value, tpc := s.me.pc }) := by
  rw [trap_run, takeHere_run, h]
  rfl
/-- A bypass of another type traps before the rows are tested. -/
theorem productWord_otherBypass {w : Instr} {t y : ETy} {rm : Rm} {halves : List Half} {s : State} {img : Nat} (hs : Claims.Matrix s)
    (hb : s.me.bypass = some (y, img)) (hy : y ≠ t) (hc : s.copying s.cur = false) :
    productWord w t rm halves s = .next (s.takeTrap s.cur
      { cause := 0x17, value := BitVec.ofNat 64 (productWord.tyNumber t), tpc := s.me.pc }) := by
  simp [productWord, finish, needOwner_ok hs.1, needMatrixMode_ok _ hs.2, hb, hy, trap_takes hc]

/-- A hart after the halves of a product word. -/
def Hart.produced (x h : Hart) (t : ETy) (rm : Rm) (halves : List Half) : Hart :=
  halves.foldl (fun x p => (x.setAcc p.z (p.run h t rm).1).raise (p.run h t rm).2) x
/-- A hart with its bypass empty. -/
def Hart.unarmed (x : Hart) : Hart := { x with bypass := none }
/-- The state after a product word of n array cycles. -/
def State.produced (s : State) (t : ETy) (rm : Rm) (halves : List Half) (n : Nat) : State :=
  (((s.updMe fun x => x.unarmed.produced s.me t rm halves).spendCycles n).bumpMe 1 1).advance
theorem productWord_completes {w : Instr} {t : ETy} {rm : Rm} {halves : List Half} {s : State} (hs : Claims.Matrix s)
    (hd : s.myCore.dupNext = none) (hb : ∀ b, s.me.bypass = some b → b.1 = t)
    (hrows : ∀ p ∈ halves, ∀ x ∈ p.needs s.me t s.me.bypass.isSome, x.1 ≤ x.2) :
    ∃ n, productWord w t rm halves s = .next (s.produced t rm halves n) := by
  have hfind : (halves.flatMap fun p => p.needs s.me t s.me.bypass.isSome).find? (fun x => decide (x.2 < x.1)) = none := by
    rw [List.find?_eq_none]
    intro x hx
    obtain ⟨p, hp, hx⟩ := List.mem_flatMap.1 hx
    simpa using hrows p hp x hx
  refine ⟨halves.foldl (fun n p => n + arrayCycles s.me t p.form) 0, ?_⟩
  cases hbyp : s.me.bypass with
  | none =>
    rw [hbyp, Option.isSome_none] at hfind
    simp [productWord, finish, needOwner_ok hs.1, needMatrixMode_ok _ hs.2, hbyp, hfind, hd, State.produced, Hart.produced, Hart.unarmed, List.foldl_map,
      -List.find?_flatMap]
  | some b =>
    rw [hbyp, Option.isSome_some] at hfind
    simp [productWord, finish, needOwner_ok hs.1, needMatrixMode_ok _ hs.2, hbyp, hb b hbyp, hfind, hd, State.produced, Hart.produced,
      Hart.unarmed, List.foldl_map, -List.find?_flatMap]

-- What a product word leaves ------------------------------------------------------------------------------------------------------------------

section
variable (x h : Hart) (t : ETy) (rm : Rm) (l : List Half)
/-- The halves change the accumulators and the flags alone. -/
theorem produced_eq : ∃ a b fl, x.produced h t rm l = { x with za := a, zb := b, fpflags := fl } := by
  induction l generalizing x with
  | nil => exact ⟨_, _, _, rfl⟩
  | cons p l ih =>
    obtain ⟨a, b, fl, e⟩ := ih ((x.setAcc p.z (p.run h t rm).1).raise (p.run h t rm).2)
    refine ⟨a, b, fl, (show x.produced h t rm (p :: l) = _ from e).trans ?_⟩
    cases p.z <;> rfl
theorem produced_flags : (x.produced h t rm l).fpflags =
    l.foldl (fun fl p => Claims.cornerFlags h.mvlen (Claims.cellResult p h t rm) fl) x.fpflags := by
  induction l generalizing x with
  | nil => rfl
  | cons p l ih =>
    have raised : ((x.setAcc p.z (p.run h t rm).1).raise (p.run h t rm).2).fpflags = x.fpflags ||| (p.run h t rm).2 := by
      cases p.z <;> rfl
    rw [List.foldl_cons, ← Claims.half_run_flags, ← raised]
    exact ih _
theorem accOf_half (p : Half) (w : Acc) : Claims.accOf ((x.setAcc p.z (p.run h t rm).1).raise (p.run h t rm).2) w =
    if w = p.z then (p.run h t rm).1 else Claims.accOf x w := by
  cases w <;> cases p.z <;> rfl
theorem produced_other {w : Acc} (hw : ∀ p ∈ l, p.z ≠ w) : Claims.accOf (x.produced h t rm l) w = Claims.accOf x w := by
  induction l generalizing x with
  | nil => rfl
  | cons p l ih =>
    obtain ⟨hp, hl⟩ := List.forall_mem_cons.1 hw
    exact (ih _ hl).trans ((accOf_half x h t rm p w).trans (if_neg (Ne.symm hp)))
/-- Each half leaves its accumulator as it gives it, where no two share one. -/
theorem produced_acc (hl : (l.map (·.z)).Nodup) {p : Half} (hp : p ∈ l) : Claims.accOf (x.produced h t rm l) p.z = (p.run h t rm).1 := by
  induction l generalizing x with
  | nil => cases hp
  | cons q l ih =>
    obtain ⟨hq, hl⟩ := List.nodup_cons.1 hl
    obtain rfl | hp := List.mem_cons.1 hp
    · refine (produced_other _ h t rm l fun r hr e => hq (List.mem_map.2 ⟨r, hr, e⟩)).trans ?_
      rw [accOf_half, if_pos rfl]
    · exact ih _ hl hp
end

theorem offPath_bumpMe (s : State) (slot n : Nat) : (s.bumpMe slot n).offPath = s.offPath := offPath_bumpHart s s.cur slot n
theorem spendCycles_offPath (s : State) (n : Nat) : (s.spendCycles n).offPath = (s.chargeMe 5 n).offPath := offPath_bumpMe _ 13 n
/-- The energy count of a hart set to e. -/
def Hart.charged (x : Hart) (e : Word) : Hart := { x with ectr := e }
theorem spendCycles_me (s : State) (n : Nat) : ∃ e, (s.spendCycles n).me = s.me.charged e :=
  ⟨_, (me_of_offPath (spendCycles_offPath s n)).trans (chargeMe_me s 5 n)⟩
theorem produced_me (s : State) (t : ETy) (rm : Rm) (l : List Half) (n : Nat) :
    ∃ e, (s.produced t rm l n).me = ((s.me.unarmed.produced s.me t rm l).charged e).next := by
  obtain ⟨e, he⟩ := spendCycles_me (s.updMe fun x => x.unarmed.produced s.me t rm l) n
  rw [State.updMe_me] at he
  exact ⟨e, by rw [State.produced, State.advance, State.updMe_me, me_of_offPath (offPath_bumpMe _ 1 1), he]⟩
theorem updMe_other (s : State) (f : Hart → Hart) {k : Nat} (hk : k ≠ s.cur) : (s.updMe f).hart k = s.hart k := by
  rw [State.updMe_eq, State.setHart_hart, if_neg hk]
theorem spendCycles_cur (s : State) (n : Nat) : (s.spendCycles n).cur = s.cur :=
  (cur_of_offPath (spendCycles_offPath s n) :)
theorem spendCycles_other (s : State) (n : Nat) {k : Nat} (hk : k ≠ s.cur) : (s.spendCycles n).hart k = s.hart k :=
  (hart_of_offPath (spendCycles_offPath s n) k).trans (updMe_other s _ hk)
theorem produced_hart (s : State) (t : ETy) (rm : Rm) (l : List Half) (n : Nat) {k : Nat} (hk : k ≠ s.cur) :
    (s.produced t rm l n).hart k = s.hart k := by
  have hoff := offPath_bumpMe ((s.updMe fun x => x.unarmed.produced s.me t rm l).spendCycles n) 1 1
  have hcur : k ≠ (((s.updMe fun x => x.unarmed.produced s.me t rm l).spendCycles n).bumpMe 1 1).cur := by
    rw [cur_of_offPath hoff, spendCycles_cur]
    exact hk
  rw [State.produced, State.advance, updMe_other _ _ hcur, hart_of_offPath hoff]
  exact (spendCycles_other (s.updMe _) n hk).trans (updMe_other s _ hk)
theorem produced_mem (s : State) (t : ETy) (rm : Rm) (l : List Half) (n : Nat) : (s.produced t rm l n).mem = s.mem := by
  rw [State.produced, State.advance, State.updMe_mem, mem_of_offPath (offPath_bumpMe _ 1 1), mem_of_offPath (spendCycles_offPath _ n)]
  rfl

end Sys2Proof.Machine

namespace Sys2Proof.Claims
open Machine

/-- The rows a half needs are those it must fit. -/
theorem Fits.needs {p : Half} {h : Hart} {t : ETy} (hfit : Fits h t p) : ∀ x ∈ p.needs h t h.bypass.isSome, x.1 ≤ x.2 := by
  obtain ⟨hb, ha⟩ := hfit
  have hcap : ∀ w, (if t = .q then slicedRows w h.lanes else capOf t h.vtype h.lanes) =
      if t = .q then mostRows .sliced w h.lanes else laneRows t * h.lanes := fun w => by
    split
    next => rfl
    next ht => exact capOf_eq ht _ _
  have hcb : (if t = .q then slicedRows (qbOf h) h.lanes else if t = .q then mostRows .sliced (aWidth h) h.lanes else laneRows t * h.lanes) =
      if t = .q then mostRows .sliced (bWidth h) h.lanes else laneRows t * h.lanes := by
    by_cases ht : t = .q <;> simp [ht, qbOf_eq, slicedRows_eq]
  simp only [Half.needs, hcap, hcb, groupOf_eq, qaOf_eq, List.mem_append, List.mem_singleton]
  rintro x (hx | rfl)
  · split at hx
    next => cases hx
    next hbyp =>
      obtain rfl := List.mem_singleton.1 hx
      refine ha ?_
      simpa [or_iff_not_imp_left] using hbyp
  · exact hb

/-- A product word goes on with nothing else of its hart changed than the accumulators, the flags and the bypass. -/
theorem produced_goesOn {s : State} (hs : Matrix s) (t : ETy) (rm : Rm) (l : List Half) (n : Nat) : MatrixGoesOn s (s.produced t rm l n) := by
  obtain ⟨e, he⟩ := produced_me s t rm l n
  obtain ⟨a, b, fl, hp⟩ := produced_eq s.me.unarmed s.me t rm l
  rw [hp] at he
  exact {
    regs := fun r => (congrArg (Hart.readX · r) he).trans rfl
    pc := (congrArg Hart.pc he).trans rfl
    ready := by rw [he]; exact ⟨rfl, rfl, rfl, rfl, rfl⟩
    mode := by rw [he]; exact ⟨hs.2, rfl⟩
    mem := produced_mem s t rm l n
    harts := fun k hk => produced_hart s t rm l n hk }

/-- The product words are one operation on their halves; mbwd.both on core 0 of a cluster. -/
theorem exec_productWords {t : ETy} {z : Acc} {rm : Rm} {k : Option Scales} {a b : Reg} {p q : BitVec 2} {s : State} {x : Instr × List Half}
    (hx : x ∈ productWords t z rm k a b p q) (hcore : x.1 = .mbwdBoth t rm k p q → coreOf s.cur % 8 = 0) :
    exec x.1 s = productWord x.1 t rm x.2 s ∧ (x.2.map (·.z)).Nodup := by
  simp only [productWords, List.mem_cons, List.not_mem_nil, or_false] at hx
  obtain rfl | rfl | rfl | rfl | rfl := hx
  case inr.inr.inr.inr =>
    exact ⟨if_neg (not_not.2 (hcore rfl)), by simp⟩
  all_goals exact ⟨rfl, by simp⟩

/-- Settles O34: a product word is one operation on its halves; each half leaves the corner's cells as its steps or its exact sum
give them from the operands before the word, and their flags together. -/
theorem matrixProducts : Obligations.MatrixProducts := by
  unfold Obligations.MatrixProducts
  intro t z rm k a b p q s hs
  refine ⟨fun hcore _ hc => ?_, fun x hx _ hcore => ?_⟩
  · refine (if_pos hcore).trans ?_
    rw [finish, trap_takes hc]
    rfl
  obtain ⟨hexec, hnodup⟩ := exec_productWords hx hcore
  refine ⟨fun y img hb hy hc => ?_, fun hd hb ht hfit hn => ?_⟩
  · refine ⟨_, hexec.trans (productWord_otherBypass hs hb hy hc), ?_, ?_⟩ <;> rintro rfl <;> rfl
  have hbyp : ∀ b, s.me.bypass = some b → b.1 = t := fun b hbyp => by simpa [hbyp] using hb
  obtain ⟨n, hrun⟩ := productWord_completes (w := x.1) (rm := rm) hs hd hbyp fun p hp => (hfit p hp).needs
  obtain ⟨e, he⟩ := produced_me s t rm x.2 n
  obtain ⟨a, b, fl, hp⟩ := produced_eq s.me.unarmed s.me t rm x.2
  have hacc : ∀ w, accOf (s.produced t rm x.2 n).me w = accOf (s.me.unarmed.produced s.me t rm x.2) w := fun w => by
    rw [he]
    cases w <;> rfl
  refine ⟨_, fun half => cellResult half s.me t rm, hexec.trans hrun, produced_goesOn hs t rm x.2 n, ?_, ?_, ?_, ?_, ?_, ?_⟩
  · rw [he, hp]
    rfl
  · rw [he, hp]
    rfl
  · exact fun half _ i j _ _ => ⟨fun hq => hq ▸ cellResult_sliced half s.me rm i j, fun f hf => cellResult_float hf half s.me rm i j⟩
  · intro half hhalf i j hj
    rw [cell_eq, hacc, produced_acc _ _ _ _ _ hnodup hhalf]
    exact half_run_cell ht rm hn hj
  · intro w hw
    rw [hacc, produced_other _ _ _ _ _ hw]
    cases w <;> rfl
  · rw [he]
    exact produced_flags s.me.unarmed s.me t rm x.2

end Sys2Proof.Claims
end

section
/-!
PROOFS. What a block word with one result leaves (spec/05 R101 to R103, spec/04 R92): the element in the current row of its
register, the row's bit of its mask, and the flags; every other row, register and cell stays.
-/
namespace Sys2Proof.Machine

-- Elements of a register in a run (spec/03 R53, spec/04 R82, R87) -----------------------------------------------------------

/-- A number that an element type of a run holds as it is. -/
def Run.holds (r : Run) (t : ETy) (v : Nat) : Prop :=
  match t with
  | .q => v < 2 ^ (r.cap.vtype.toNat % 32)
  | .pr => v ≤ 0x8000
  | t => v < 2 ^ Claims.elemBits t
theorem Run.holds_of_lt {r : Run} {t : ETy} (hq : t ≠ .q) (hp : t ≠ .pr) {v : Nat} (h : v < 2 ^ Claims.elemBits t) : r.holds t v := by
  cases t
  case q => exact absurd rfl hq
  case pr => exact absurd rfl hp
  all_goals exact h
theorem qw_eq (r : Run) : r.qw = r.cap.vtype.toNat % 32 := by simp [Run.qw, vtQw, bitsOf]
theorem cap1_sliced (r : Run) : r.cap1 .q = slicedRows (r.cap.vtype.toNat % 32) r.cap.lanes := cap1_eq r .q
theorem rowGet_eq (r : Run) (x : Hart) (t : ETy) (reg : Reg) (i : Nat) : rowGet r x t reg i = Claims.element r x t reg i := by
  cases t
  case q => simp only [rowGet, Claims.element, qw_eq, cap1_sliced]
  case pr => exact congrArg prRead (Claims.elem_eq ..)
  all_goals exact Claims.elem_eq ..
theorem element_of_ne {r : Run} {t : ETy} (hq : t ≠ .q) (hp : t ≠ .pr) (x : Hart) (reg : Reg) (i : Nat) :
    Claims.element r x t reg i = Claims.row x reg (Claims.elemBits t) i := by
  cases t
  case q => exact absurd rfl hq
  case pr => exact absurd rfl hp
  all_goals rfl
theorem element_holds (r : Run) (x : Hart) (t : ETy) (reg : Reg) (i : Nat) : r.holds t (Claims.element r x t reg i) := by
  cases t
  case q => exact Claims.slicedRow_lt ..
  case pr => exact Nat.min_le_right ..
  all_goals exact Nat.mod_lt _ (Nat.two_pow_pos _)
theorem row_lt (x : Hart) (reg : Reg) (w i : Nat) : Claims.row x reg w i < 2 ^ w := Nat.mod_lt _ (Nat.two_pow_pos _)

-- Sliced images (spec/04 R82) ---------------------------------------------------------------------------------------------------

/-- A sliced write changes the planes' bits of its row and no other. -/
theorem testBit_withSlicedRow {img m i v : Nat} (hi : i < m) (w b j : Nat) (hj : j < m) :
    (withSlicedRow img m i v w).testBit (b * m + j) =
      if j = i ∧ b < w then v.testBit b else img.testBit (b * m + j) := by
  induction w with
  | zero => simp [withSlicedRow]
  | succ w ih =>
    have same : b * m + j = w * m + i ↔ b = w ∧ j = i := by
      refine ⟨fun h => ?_, fun ⟨hb, hj⟩ => by rw [hb, hj]⟩
      have hb : b = w := by
        have := congrArg (· / m) h
        simpa [Nat.mul_comm _ m, Nat.mul_add_div (by omega : 0 < m), Nat.div_eq_of_lt hj, Nat.div_eq_of_lt hi] using this
      subst hb
      exact ⟨rfl, by omega⟩
    rw [withSlicedRow, Claims.testBit_withBits, ih]
    by_cases h : b * m + j = w * m + i
    · obtain ⟨rfl, rfl⟩ := same.1 h
      simp [Nat.testBit_eq_decide_div_mod_eq]
    · have hne := mt same.2 h
      have less : (j = i ∧ b < w + 1) ↔ (j = i ∧ b < w) := by omega
      simp only [less]
      obtain hlt | hgt := Nat.lt_or_gt_of_ne h
      · rw [if_pos hlt]
      · rw [if_neg (by omega), if_neg (by omega)]
theorem slicedRow_congr {img img' m m' i i' w : Nat} (h : ∀ b, b < w → img.testBit (b * m + i) = img'.testBit (b * m' + i')) :
    slicedRow img m i w = slicedRow img' m' i' w := by
  induction w with
  | zero => rfl
  | succ w ih => rw [slicedRow, slicedRow, ih fun b hb => h b (hb.trans w.lt_succ_self), Claims.bitOf_eq, Claims.bitOf_eq, h w w.lt_succ_self]
theorem slicedRow_of_bits {img m i v w : Nat} (h : ∀ b, b < w → img.testBit (b * m + i) = v.testBit b) : slicedRow img m i w = v % 2 ^ w := by
  induction w with
  | zero => simp [slicedRow, Nat.mod_one]
  | succ w ih =>
    rw [slicedRow, ih fun b hb => h b (hb.trans w.lt_succ_self), Claims.bitOf_eq, h w w.lt_succ_self, Nat.mod_pow_succ,
      Nat.testBit_eq_decide_div_mod_eq]
    obtain hb | hb := Nat.mod_two_eq_zero_or_one (v / 2 ^ w) <;> simp [hb]
theorem slicedRow_withSlicedRow {img m i v : Nat} (hi : i < m) (w : Nat) {j : Nat} (hj : j < m) :
    slicedRow (withSlicedRow img m i v w) m j w = if j = i then v % 2 ^ w else slicedRow img m j w := by
  split
  next h => exact slicedRow_of_bits fun b hb => by rw [testBit_withSlicedRow hi w b j hj, if_pos ⟨h, hb⟩]
  next h => exact slicedRow_congr fun b _ => by rw [testBit_withSlicedRow hi w b j hj, if_neg fun hc => h hc.1]

-- Writing an element ---------------------------------------------------------------------------------------------------------------

theorem vimg_setVimg (x : Hart) (d reg : Reg) (v : Nat) : (x.setVimg d v).vimg reg = if reg = d then v else x.vimg reg := by
  rw [Hart.vimg, Hart.setVimg, Tab.get_put, Hart.vimg]
  exact if_congr BitVec.toNat_inj rfl rfl
theorem row_setElem (x : Hart) (d : Reg) (w i v j : Nat) :
    Claims.row (x.setElem d w i v) d w j = if j = i then v % 2 ^ w else Claims.row x d w j := by
  rw [← Claims.elem_eq, ← Claims.elem_eq, Hart.elem, Hart.setElem, vimg_setVimg, if_pos rfl, Claims.elemAt_withElem, Hart.elem]
/-- A write of an element changes the image of its register alone. -/
theorem rowPut_eq (r : Run) (x : Hart) (t : ETy) (d : Reg) (i v : Nat) : ∃ img, rowPut r x t d i v = x.setVimg d img := by
  cases t <;> exact ⟨_, rfl⟩
/-- What the rows of a register hold after a write of one. -/
theorem element_rowPut {r : Run} {t : ETy} {i v : Nat} (hv : r.holds t v) (hi : t = .q → i < r.cap1 .q) (x : Hart) (d : Reg) {j : Nat}
    (hj : t = .q → j < r.cap1 .q) : Claims.element r (rowPut r x t d i v) t d j = if j = i then v else Claims.element r x t d j := by
  cases t
  case q =>
    rw [← rowGet_eq, ← rowGet_eq, rowGet, rowGet, rowPut, vimg_setVimg, if_pos rfl, slicedRow_withSlicedRow (hi rfl) _ (hj rfl), qw_eq,
      Nat.mod_eq_of_lt hv]
  case pr =>
    have hread : prRead v = v := Nat.min_eq_left hv
    rw [Claims.element, rowPut, row_setElem, hread, Nat.mod_eq_of_lt (Nat.lt_of_le_of_lt hv (by decide)), Claims.element]
    split
    · exact Nat.min_eq_left hv
    · rfl
  all_goals
    refine (row_setElem ..).trans ?_
    rw [Claims.tyBits_eq, Nat.mod_eq_of_lt hv]
    rfl

-- Marks (spec/04 R92, R93) -----------------------------------------------------------------------------------------------------------

theorem pred_setPred (x : Hart) (p q : Reg) (v : Pred) : (x.setPred p v).pred q = if q = p then v else x.pred q := by
  rw [Hart.pred, Hart.setPred, Tab.get_put, Hart.pred]
  exact if_congr BitVec.toNat_inj rfl rfl
theorem cell_setCell (p : Pred) (i v j : Nat) : (p.setCell i v).cell j = if j = i then min v 0x8000 else p.cell j := by
  have h := Claims.elemAt_withElem p.cells 16 i (min v 0x8000) j
  rw [Nat.mod_eq_of_lt (Nat.lt_of_le_of_lt (Nat.min_le_right ..) (by decide))] at h
  exact h
/-- The hart whose mask, where a word names one and marks its row, has the row's bit set. -/
def Hart.marked (x : Hart) (m : Option Reg) (mark : Bool) (i : Nat) : Hart :=
  match m with
  | some p => if mark then x.setPred p ((x.pred p).setBit i true) else x
  | none => x
theorem marked_eq (x : Hart) (m : Option Reg) (mark : Bool) (i : Nat) : ∃ ps, x.marked m mark i = { x with p := ps } := by
  cases m with
  | none => exact ⟨_, rfl⟩
  | some p => cases mark <;> exact ⟨_, rfl⟩
theorem pred_marked (x : Hart) (m : Option Reg) (mark : Bool) (i : Nat) (q : Reg) :
    (x.marked m mark i).pred q = if mark = true ∧ m = some q then (x.pred q).setBit i true else x.pred q := by
  cases m with
  | none => simp [Hart.marked]
  | some p =>
    cases mark
    · simp [Hart.marked]
    · rw [Hart.marked, if_pos rfl, pred_setPred]
      by_cases h : q = p
      · simp [h]
      · simp [h, Ne.symm h]

-- The words with one result ------------------------------------------------------------------------------------------------------------

theorem needMask_ok {s : State} {m : Option Reg} (h : ∀ p, m = some p → (s.me.pred p).prob = false) : needMask m s = .ok ((), s) := by
  cases m with
  | none => rfl
  | some p => simp [needMask, h p rfl]
/-- The hart of a row's result: the element and the mark written, the flags raised. -/
def Hart.stored (x : Hart) (r : Run) (t : ETy) (d : Reg) (m : Option Reg) (i : Nat) (y : Res) : Hart :=
  ((rowPut r x t d i y.bits).raise y.fl).marked m y.mark i
theorem rowStore_eq (s : State) (r : Run) (t : ETy) (d : Reg) (m : Option Reg) (i : Nat) (y : Res) :
    s.rowStore r t d m i y = s.updMe fun x => x.stored r t d m i y := by
  cases m <;> rfl
/-- A result stored in the current row, and the row gone on: what every word with one result leaves. -/
theorem stored_writes {s : State} {r : Run} {t : ETy} {m : Option Reg} {y : Res} (d : Reg) (hr : s.me.run = some r)
    (hcap : t = .q → r.cur < r.cap1 .q) (hy : r.holds t y.bits) :
    Claims.RowWrites s (((s.rowStore r t d m r.cur y).rowNext).chargeMe 2 1) r t d m y.bits y.mark y.fl := by
  obtain ⟨img, himg⟩ := rowPut_eq r s.me t d r.cur y.bits
  obtain ⟨ps, hps⟩ := marked_eq ((s.me.setVimg d img).raise y.fl) m y.mark r.cur
  have hstored : s.me.stored r t d m r.cur y = { s.me with v := (s.me.setVimg d img).v, p := ps, fpflags := s.me.fpflags ||| y.fl } := by
    rw [Hart.stored, himg, hps]
    rfl
  have hstore : (s.rowStore r t d m r.cur y).me = s.me.stored r t d m r.cur y := by rw [rowStore_eq, State.updMe_me]
  have hrun : (s.rowStore r t d m r.cur y).me.run = some r := by rw [hstore, hstored]; exact hr
  have hme : (((s.rowStore r t d m r.cur y).rowNext).chargeMe 2 1).me =
      { s.me.stored r t d m r.cur y with run := some (Claims.rowChanged r fun x => { x with pc := x.pc + 8 }),
                                         ectr := chargeTo s.me.ectr (1 * s.weight (coreOf s.cur) 2) } := by
    rw [chargeMe_me, rowNext_eq hrun, State.updMe_me, hstore, hstored]
    rfl
  have hpred : ∀ p, (((s.rowStore r t d m r.cur y).rowNext).chargeMe 2 1).me.pred p =
      if y.mark = true ∧ m = some p then (s.me.pred p).setBit r.cur true else s.me.pred p := fun p => by
    have : ((s.me.setVimg d img).raise y.fl).pred p = s.me.pred p := rfl
    rw [hme, ← this, ← pred_marked, ← himg]
    rfl
  have helement : ∀ j, Claims.element r (((s.rowStore r t d m r.cur y).rowNext).chargeMe 2 1).me t d j =
      Claims.element r (rowPut r s.me t d r.cur y.bits) t d j := fun j => by
    rw [hme, hstored, himg]
    cases t <;> rfl
  refine ⟨⟨?_, ?_, ?_, fun k hk => ?_, rfl⟩, ?_, fun j hj hq => ?_, fun reg hreg => ?_, fun p j => ?_, fun p => ?_⟩
  · rw [hme]
    rfl
  · rw [hme, hstored]
  · rw [hme, hstored]
  · rw [rowNext_eq hrun, rowStore_eq]
    refine (updMe_other ((s.updMe _).updMe _) _ hk).trans ?_
    exact (updMe_other (s.updMe _) _ hk).trans (updMe_other s _ hk)
  · rw [helement, element_rowPut hy hcap _ _ hcap, if_pos rfl]
  · rw [helement, element_rowPut hy hcap _ _ fun h => (hq h).trans_eq (cap1_sliced r).symm, if_neg hj]
  · rw [hme, hstored]
    exact (vimg_setVimg ..).trans (if_neg hreg)
  · rw [hpred]
    by_cases hm : y.mark = true ∧ m = some p
    · rw [if_pos hm, Pred.setBit, cell_setCell, if_pos rfl]
      exact if_congr (by simp [hm]) rfl rfl
    · rw [if_neg hm, if_neg fun h => hm ⟨h.1, h.2.1⟩]
  · rw [hpred]
    split <;> exact ⟨rfl, rfl⟩
/-- A row ready for a word with one result stores it. -/
theorem gives_of_rowResult {h : BHead} {ts : List ETy} {t : ETy} {d : Reg} {m : Option Reg} {f : Run → Hart → Nat → Res} {s : State} {r : Run}
    {i : Instr} (hi : exec i s = rowResult h ts t d m f s) (hr : Claims.RowReady s r h (t :: ts) m) (hy : r.holds t (f r s.me r.cur).bits) :
    Claims.RowGives i s r t d m (f r s.me r.cur).bits (f r s.me r.cur).mark (f r s.me r.cur).fl := by
  obtain ⟨hrun, hlets, hcap⟩ := acts_of_ready hr
  obtain ⟨-, -, -, htypes, hmask⟩ := hr
  refine ⟨_, ?_, stored_writes d hrun (fun ht => ?_) hy⟩
  · rw [hi, rowResult, rowWord_acts hrun hlets fun _ => hcap]
    simp only [finish, Op.bind_run, needMask_ok hmask, upd_run]
  · subst ht
    simpa [cap1_sliced] using htypes .q (List.mem_cons_self ..)
end Sys2Proof.Machine
end

section
/-!
PROOFS. Float products, quotients and roots (spec/05 R109, spec/04 R90, R92): exact or with what they drop as a sticky bit, then
rounded once; and that a result is an encoding of its format, marked as its own flags say.
-/
namespace Sys2Proof.Claims
open Machine

-- Results rounded from a floor ------------------------------------------------------------------------------------------------

/-- A number given by its floor, with a sticky bit for the rest, is rounded once. -/
theorem arithRes_floor {f : Fmt} {ctl : BitVec 10} {rm : Rm} {neg : Bool} {q : Nat} {e : Int} {st : Bool} {v : ℝ} (hle : (q : ℝ) ≤ v)
    (hlt : v < q + 1) (hst : st = true ↔ (q : ℝ) ≠ v) (hbig : 2 ^ 24 ≤ q) :
    let r := arithRes f ctl rm neg q e st
    Rounded f (resultFlush ctl f) rm (ofSign neg (v * 2 ^ e)) (r.bits, r.fl) := by
  have hfrac : 2 ^ (f.frac + 1) ≤ q := le_trans (Nat.pow_le_pow_right two_pos (by cases f <;> decide)) hbig
  have := arithRes_rounded (f := f) (ctl := ctl) (rm := rm) (neg := neg) (m := q) (e := e) (st := st) (θ := v - q) (by linarith) (by linarith)
    (by rw [hst, sub_ne_zero, ne_comm]) (by rintro rfl; simp at hbig) fun _ => hfrac
  rwa [add_sub_cancel] at this
theorem ofSign_mul_ofSign (p q : Bool) (a b : ℝ) : ofSign p a * ofSign q b = ofSign (p != q) (a * b) := by
  cases p <;> cases q <;> simp
theorem ofSign_div_ofSign (p q : Bool) (a b : ℝ) : ofSign p a / ofSign q b = ofSign (p != q) (a / b) := by
  cases p <;> cases q <;> simp [neg_div, div_neg]

-- Products ------------------------------------------------------------------------------------------------------------------------

theorem real_mul (p q : Bool) (m n : Nat) (e g : Int) :
    real (.num p m e) * real (.num q n g) = real (.num (p != q) (m * n) (e + g)) := by
  rw [real_num, real_num, real_num, ofSign_mul_ofSign, zpow_add₀ two_ne_zero]
  push_cast
  congr 1
  ring
/-- fop of × (spec/05 R109) at a format with infinities. -/
theorem fMul_isProduct {f : Fmt} (hf : f ≠ .e4m3) (ctl : BitVec 10) (rm : Rm) (x y : FVal) :
    let r := fMul f ctl rm x y
    IsProduct f (resultFlush ctl f) rm x y (r.bits, r.fl) := by
  cases x with
  | nan a => cases y <;> rfl
  | inf a =>
    cases y with
    | nan b => rfl
    | inf b => simp only [fMul, mulExact, IsProduct, infRes_eq hf, infinity]
    | num b m e =>
      simp only [fMul, mulExact, IsProduct]
      by_cases hm : m = 0
      · simp [hm, invalidRes, invalid, flagNv, flagNf]
      · simp [hm, infRes_eq hf, infinity]
  | num a m e =>
    cases y with
    | nan b => rfl
    | inf b =>
      simp only [fMul, mulExact, IsProduct]
      by_cases hm : m = 0
      · simp [hm, invalidRes, invalid, flagNv, flagNf]
      · simp [hm, infRes_eq hf, infinity]
    | num b n g =>
      simp only [fMul, mulExact, IsProduct, real_mul, ne_eq, real_eq_zero]
      exact ⟨fun h => arithRes_num h, fun h => by rw [h, arithRes_zero, zero]⟩

-- Quotients -------------------------------------------------------------------------------------------------------------------------

theorem natDiv_floor (a : Nat) {b : Nat} (hb : b ≠ 0) :
    ((a / b : Nat) : ℝ) ≤ a / b ∧ (a : ℝ) / b < (a / b : Nat) + 1 ∧ ((a % b != 0) = true ↔ ((a / b : Nat) : ℝ) ≠ a / b) := by
  have hpos : (0 : ℝ) < b := by positivity
  have hsplit : (a : ℝ) = b * (a / b : Nat) + (a % b : Nat) := by exact_mod_cast (Nat.div_add_mod a b).symm
  refine ⟨Nat.cast_div_le, ?_, ?_⟩
  · rw [div_lt_iff₀ hpos]
    have : ((a % b : Nat) : ℝ) < b := by exact_mod_cast Nat.mod_lt a (Nat.pos_of_ne_zero hb)
    nlinarith
  · rw [bne_iff_ne, ne_eq, ne_eq, not_iff_not, eq_div_iff hpos.ne']
    constructor
    · intro h
      rw [h] at hsplit
      push_cast at hsplit
      linarith
    · intro h
      have : ((a % b : Nat) : ℝ) = 0 := by linarith
      exact_mod_cast this
/-- The quotient of two significands, rounded once. -/
theorem quotient_rounded {f : Fmt} {ctl : BitVec 10} {rm : Rm} {neg : Bool} {m n : Nat} {e : Int} (hm : m ≠ 0) (hn : n ≠ 0) :
    let q := quotient m n
    let r := arithRes f ctl rm neg q.1 (q.2.1 + e) q.2.2
    Rounded f (resultFlush ctl f) rm (ofSign neg ((m : ℝ) / n * 2 ^ e)) (r.bits, r.fl) := by
  obtain ⟨hle, hlt, hst⟩ := natDiv_floor (m * 2 ^ (40 + n.log2)) hn
  have hbig : 2 ^ 24 ≤ m * 2 ^ (40 + n.log2) / n := by
    rw [Nat.le_div_iff_mul_le (Nat.pos_of_ne_zero hn)]
    calc 2 ^ 24 * n ≤ 2 ^ 24 * 2 ^ (n.log2 + 1) := Nat.mul_le_mul_left _ Nat.lt_log2_self.le
      _ = 2 ^ (25 + n.log2) := by ring
      _ ≤ 2 ^ (40 + n.log2) := Nat.pow_le_pow_right two_pos (by omega)
      _ ≤ m * 2 ^ (40 + n.log2) := Nat.le_mul_of_pos_left _ (Nat.pos_of_ne_zero hm)
  have hval : (m : ℝ) / n * 2 ^ e = (m * 2 ^ (40 + n.log2) : Nat) / n * 2 ^ (-((40 + n.log2 : Nat) : Int) + e) := by
    rw [zpow_add₀ two_ne_zero, zpow_neg, zpow_natCast]
    push_cast
    field_simp
  rw [hval]
  exact arithRes_floor hle hlt hst hbig
theorem real_div (p q : Bool) (m n : Nat) (e g : Int) :
    real (.num p m e) / real (.num q n g) = ofSign (p != q) ((m : ℝ) / n * 2 ^ (e - g)) := by
  rw [real_num, real_num, ofSign_div_ofSign, zpow_sub₀ two_ne_zero]
  congr 1
  ring
/-- fop of / (spec/05 R109) at a format with infinities. -/
theorem fDiv_isQuotient {f : Fmt} (hf : f ≠ .e4m3) (ctl : BitVec 10) (rm : Rm) (x y : FVal) :
    let r := fDiv f ctl rm x y
    IsQuotient f (resultFlush ctl f) rm x y (r.bits, r.fl) := by
  cases x with
  | nan a => cases y <;> rfl
  | inf a =>
    cases y with
    | nan b => rfl
    | inf b => rfl
    | num b m e => simp only [fDiv, IsQuotient, infRes_eq hf, infinity]
  | num a m e =>
    cases y with
    | nan b => rfl
    | inf b => simp only [fDiv, IsQuotient, arithRes_zero, zero]
    | num b n g =>
      simp only [fDiv, IsQuotient]
      by_cases hn : n = 0
      · simp only [hn, if_true]
        split <;> rfl
      · simp only [hn, if_false]
        refine ⟨fun hm => ?_, fun hm => ?_⟩
        · rw [real_div, add_sub_assoc]
          exact quotient_rounded hm hn
        · have : quotient m n = (0, -((40 + n.log2 : Nat) : Int), false) := by simp [quotient, hm]
          rw [this, arithRes_zero, zero]

-- Roots --------------------------------------------------------------------------------------------------------------------------------

theorem isqrtBits_spec {n b r : Nat} (hle : r * r ≤ n) (hlt : n < (r + 2 ^ b) * (r + 2 ^ b)) :
    isqrtBits n b r * isqrtBits n b r ≤ n ∧ n < (isqrtBits n b r + 1) * (isqrtBits n b r + 1) := by
  induction b generalizing r with
  | zero => exact ⟨hle, hlt⟩
  | succ b ih =>
    rw [isqrtBits]
    split
    next h => exact ih h (by rwa [add_assoc, ← two_mul, ← pow_succ'])
    next h => exact ih hle (Nat.lt_of_not_le h)
theorem isqrt_eq (n : Nat) : isqrt n = n.sqrt := by
  refine Nat.eq_sqrt.2 (isqrtBits_spec (Nat.zero_le n) ?_)
  calc n < 2 ^ (n.log2 + 1) := Nat.lt_log2_self
    _ ≤ 2 ^ ((n.log2 / 2 + 1) + (n.log2 / 2 + 1)) := Nat.pow_le_pow_right two_pos (by omega)
    _ = (0 + 2 ^ (n.log2 / 2 + 1)) * (0 + 2 ^ (n.log2 / 2 + 1)) := by rw [zero_add, pow_add]
/-- The root of an even power of two is the power of half the exponent. -/
theorem sqrt_mul_zpow {a : ℝ} (ha : 0 ≤ a) (e : Int) : Real.sqrt (a * 2 ^ (2 * e)) = Real.sqrt a * 2 ^ e := by
  rw [Real.sqrt_mul ha, mul_comm 2 e, zpow_mul, zpow_ofNat, Real.sqrt_sq (by positivity)]
theorem natSqrt_floor (n : Nat) : (n.sqrt : ℝ) ≤ Real.sqrt n ∧ Real.sqrt n < n.sqrt + 1 ∧ ((n.sqrt * n.sqrt != n) = true ↔ (n.sqrt : ℝ) ≠ Real.sqrt n) := by
  refine ⟨Real.nat_sqrt_le_real_sqrt, Real.real_sqrt_lt_nat_sqrt_succ, ?_⟩
  rw [bne_iff_ne, ne_eq, ne_eq, not_iff_not, eq_comm (b := Real.sqrt _), Real.sqrt_eq_iff_mul_self_eq (by positivity) (by positivity), eq_comm]
  exact_mod_cast Iff.rfl
/-- The root of a number above 0, rounded once. -/
theorem root_rounded {f : Fmt} {ctl : BitVec 10} {rm : Rm} {m : Nat} {e : Int} (hm : m ≠ 0) :
    let q := rootOf m e
    let r := arithRes f ctl rm false q.1 q.2.1 q.2.2
    Rounded f (resultFlush ctl f) rm (Real.sqrt (real (.num false m e))) (r.bits, r.fl) := by
  obtain ⟨k, hk, heven⟩ : ∃ k : Nat, 80 + (if e % 2 = 0 then 0 else 1) = k ∧ e = k + 2 * ((e - k) / 2) ∧ 80 ≤ k := by
    refine ⟨_, rfl, ?_, by omega⟩
    split <;> omega
  obtain ⟨he, hk80⟩ := heven
  obtain ⟨hle, hlt, hst⟩ := natSqrt_floor (m * 2 ^ k)
  have hbig : 2 ^ 24 ≤ (m * 2 ^ k).sqrt := by
    rw [Nat.le_sqrt, ← pow_add]
    exact (Nat.pow_le_pow_right two_pos (by omega)).trans (Nat.le_mul_of_pos_left _ (Nat.pos_of_ne_zero hm))
  have hval : Real.sqrt (real (.num false m e)) = Real.sqrt (m * 2 ^ k : Nat) * 2 ^ ((e - k) / 2) := by
    rw [← sqrt_mul_zpow (by positivity), real_num, ofSign_false]
    congr 1
    conv_lhs => rw [he]
    rw [zpow_add₀ two_ne_zero, zpow_natCast]
    push_cast
    ring
  simp only [rootOf, hk, isqrt_eq, hval]
  exact arithRes_floor (neg := false) hle hlt hst hbig
/-- Square root (spec/05 R109) at a format with infinities. -/
theorem fSqrt_isRoot {f : Fmt} (hf : f ≠ .e4m3) (ctl : BitVec 10) (rm : Rm) (x : FVal) :
    let r := fSqrt f ctl rm x
    IsRoot f (resultFlush ctl f) rm x (r.bits, r.fl) := by
  cases x with
  | nan a => rfl
  | inf a =>
    cases a
    · exact congrArg (fun r : Res => (r.bits, r.fl)) (infRes_eq hf false)
    · rfl
  | num a m e =>
    simp only [fSqrt, IsRoot]
    by_cases hm : m = 0
    · simp only [hm, if_true, zero]
    · cases a
      · simpa only [hm, if_false, Bool.false_eq_true] using root_rounded hm
      · simp only [hm, if_false, if_true]
        rfl

-- Marks and encodings of results (spec/04 R92) -----------------------------------------------------------------------------------------

/-- A result is an encoding of its format, and it is marked where its flags hold an overflow, a division by zero or an invalid
operation. -/
structure Own (f : Fmt) (r : Res) : Prop where
  lt : r.bits < 2 ^ f.width
  mark : r.mark = (r.fl &&& 0x01C != 0)
/-- What rounding can give: a zero, an overflow, a flushed zero, or an encoding no greater than the greatest; it raises nx wherever
something was dropped, and of its own but nx and uf. -/
theorem roundNum_cases (f : Fmt) (rf : Bool) (rm : Rm) (neg : Bool) (m : Nat) (e : Int) (st : Bool) :
    ∃ fl : Flags, fl &&& 0x1FC = 0 ∧ (st = true → fl &&& 0x001 = 0x001) ∧
      let r := roundNum f rf rm neg m e st
      (r = (withSign f neg 0, fl) ∨ r = (overflowBits f rm neg, fl ||| flagOf ||| flagNx) ∨ r = (withSign f neg 0, fl ||| flagUf ||| flagNx) ∨
        ∃ q ≤ maxBits f, r = (withSign f neg q, fl)) := by
  by_cases hm : (m = 0 && !st) = true
  · refine ⟨0, rfl, fun h => by simp [h] at hm, .inl ?_⟩
    rw [roundNum, if_pos hm]
  · obtain ⟨g, hg⟩ : ∃ g, g = max (expOf m e) (emin f) - f.frac := ⟨_, rfl⟩
    obtain ⟨p, hp⟩ : ∃ p, p = carried f (toGrid rm neg m e g st).1 g := ⟨_, rfl⟩
    obtain ⟨ix, hix⟩ : ∃ ix, ix = (toGrid rm neg m e g st).2 := ⟨_, rfl⟩
    obtain ⟨tiny, ht⟩ : ∃ tiny, tiny = decide (expOf m e < emin f) := ⟨_, rfl⟩
    have hround : roundNum f rf rm neg m e st =
        if maxBits f < magBits f p.1 p.2 then (overflowBits f rm neg, flagIf ix flagNx ||| flagIf (ix && tiny) flagUf ||| flagOf ||| flagNx)
        else if rf && p.1 != 0 && decide (p.1 < 2 ^ f.frac) then
          (withSign f neg 0, flagIf ix flagNx ||| flagIf (ix && tiny) flagUf ||| flagUf ||| flagNx)
        else (withSign f neg (magBits f p.1 p.2), flagIf ix flagNx ||| flagIf (ix && tiny) flagUf) := by
      rw [roundNum, if_neg hm, hp, hix, ht, hg]
      rfl
    refine ⟨flagIf ix flagNx ||| flagIf (ix && tiny) flagUf, ?_, fun h => ?_, ?_⟩
    · cases ix <;> cases tiny <;> rfl
    · have : ix = true := by
        rw [hix, h, toGrid]
        split <;> simp
      subst this
      cases tiny <;> rfl
    · dsimp only
      rw [hround]
      split
      · exact .inr (.inl rfl)
      · split
        · exact .inr (.inr (.inl rfl))
        next h _ => exact .inr (.inr (.inr ⟨_, Nat.le_of_not_lt h, rfl⟩))
theorem roundNum_lt (f : Fmt) (rf : Bool) (rm : Rm) (neg : Bool) (m : Nat) (e : Int) (st : Bool) : (roundNum f rf rm neg m e st).1 < 2 ^ f.width := by
  obtain ⟨fl, -, -, h | h | h | ⟨q, hq, h⟩⟩ := roundNum_cases f rf rm neg m e st <;> rw [h]
  · exact withSign_lt neg (Nat.two_pow_pos _)
  · exact (overflowBits_overflows f rm neg).1
  · exact withSign_lt neg (Nat.two_pow_pos _)
  · exact withSign_lt neg (hq.trans_lt (maxBits_lt f))
/-- Rounding alone raises neither a division by zero nor an invalid operation, nor nf. -/
theorem roundNum_flags (f : Fmt) (rf : Bool) (rm : Rm) (neg : Bool) (m : Nat) (e : Int) (st : Bool) : (roundNum f rf rm neg m e st).2 &&& 0x098 = 0 := by
  have key : ∀ fl : Flags, fl &&& 0x1FC = 0 → fl &&& 0x098 = 0 ∧ (fl ||| flagOf ||| flagNx) &&& 0x098 = 0 ∧ (fl ||| flagUf ||| flagNx) &&& 0x098 = 0 := by
    decide +kernel
  obtain ⟨fl, hfl, -, h⟩ := roundNum_cases f rf rm neg m e st
  obtain ⟨hplain, hover, hflush⟩ := key fl hfl
  obtain h | h | h | ⟨q, -, h⟩ := h <;> rw [h] <;> assumption
/-- Where a sticky bit is set the result is inexact. -/
theorem roundNum_inexact (f : Fmt) (rf : Bool) (rm : Rm) (neg : Bool) (m : Nat) (e : Int) : (roundNum f rf rm neg m e true).2 &&& 0x001 = 0x001 := by
  have key : ∀ fl : Flags, fl &&& 0x001 = 0x001 → (fl ||| flagOf ||| flagNx) &&& 0x001 = 0x001 ∧ (fl ||| flagUf ||| flagNx) &&& 0x001 = 0x001 := by
    decide +kernel
  obtain ⟨fl, -, hfl, h⟩ := roundNum_cases f rf rm neg m e true
  obtain ⟨hover, hflush⟩ := key fl (hfl rfl)
  obtain h | h | h | ⟨q, -, h⟩ := h <;> rw [h]
  · exact hfl rfl
  · exact hover
  · exact hflush
  · exact hfl rfl
theorem arithRes_own (f : Fmt) (ctl : BitVec 10) (rm : Rm) (neg : Bool) (m : Nat) (e : Int) (st : Bool) : Own f (arithRes f ctl rm neg m e st) := by
  refine ⟨roundNum_lt .., ?_⟩
  have key : ∀ fl : Flags, fl &&& 0x098 = 0 → ∀ nf : Bool, (fl &&& flagOf != 0) = ((fl ||| flagIf nf flagNf) &&& 0x01C != 0) := by decide +kernel
  exact key _ (roundNum_flags ..) _
theorem nanRes_own (f : Fmt) : Own f (nanRes f) := ⟨qnan_lt f, by simp [nanRes, flagNf]⟩
theorem invalidRes_own (f : Fmt) : Own f (invalidRes f) := ⟨qnan_lt f, by simp [invalidRes, flagNv, flagNf]⟩
theorem divZeroRes_own (f : Fmt) (neg : Bool) : Own f (divZeroRes f neg) :=
  ⟨withSign_lt neg (infBits_lt f), by simp [divZeroRes, flagDz, flagNf]⟩
theorem infRes_own (f : Fmt) (neg : Bool) : Own f (infRes f neg) := by
  refine ⟨withSign_lt neg (infBits_lt f), ?_⟩
  rw [infRes, Res.nf]
  cases nonFinite f (withSign f neg (infBits f)) <;> simp [flagIf, flagNf]
theorem zero_own (f : Fmt) (neg : Bool) : Own f { bits := withSign f neg 0 } := ⟨withSign_lt neg (Nat.two_pow_pos _), by simp⟩
theorem fAdd_own (f : Fmt) (ctl : BitVec 10) (rm : Rm) (x y : FVal) : Own f (fAdd f ctl rm x y) := by
  unfold fAdd
  split
  · exact nanRes_own f
  · exact nanRes_own f
  · split
    · exact infRes_own ..
    · exact invalidRes_own f
  · exact infRes_own ..
  · exact infRes_own ..
  · exact arithRes_own ..
theorem fMul_own (f : Fmt) (ctl : BitVec 10) (rm : Rm) (x y : FVal) : Own f (fMul f ctl rm x y) := by
  unfold fMul
  split
  · exact invalidRes_own f
  · exact nanRes_own f
  · exact infRes_own ..
  · exact arithRes_own ..
theorem fFma_own (f : Fmt) (ctl : BitVec 10) (rm : Rm) (x y z : FVal) : Own f (fFma f ctl rm x y z) := by
  unfold fFma
  split
  · exact invalidRes_own f
  · exact fAdd_own ..
theorem fDiv_own (f : Fmt) (ctl : BitVec 10) (rm : Rm) (x y : FVal) : Own f (fDiv f ctl rm x y) := by
  unfold fDiv
  split
  · exact nanRes_own f
  · exact nanRes_own f
  · exact invalidRes_own f
  · exact infRes_own ..
  · exact arithRes_own ..
  · split
    · split
      · exact invalidRes_own f
      · exact divZeroRes_own ..
    · exact arithRes_own ..
theorem fSqrt_own (f : Fmt) (ctl : BitVec 10) (rm : Rm) (x : FVal) : Own f (fSqrt f ctl rm x) := by
  unfold fSqrt
  split
  · exact nanRes_own f
  · exact infRes_own f false
  · exact invalidRes_own f
  · split
    · exact zero_own ..
    · split
      · exact invalidRes_own f
      · exact arithRes_own ..
end Sys2Proof.Claims
end

section
/-!
PROOFS. The integer words of rows (spec/05 R104 to R108): the numbers of an integer type, sat_int, and each word's result.
-/
namespace Sys2Proof.Claims
open Machine

-- Integer types (spec/04 R76, spec/05 R104) -------------------------------------------------------------------------------------

theorem tyFmt_eq (t : ETy) : tyFmt t = fmtOf t := by cases t <;> rfl
theorem tySigned_eq (t : ETy) : tySigned t = isSignedTy t := by cases t <;> rfl
theorem elemBits_pos (t : ETy) : 0 < elemBits t := by cases t <;> decide
theorem elemBits_le (t : ETy) : elemBits t ≤ 64 := by cases t <;> decide
theorem minOf_eq (t : ETy) : minOf (tySigned t) (tyBits t) = least t := by
  rw [minOf, least, tySigned_eq, tyBits_eq]
  push_cast
  rfl
theorem maxOf_eq (t : ETy) : maxOf (tySigned t) (tyBits t) = most t := by
  rw [maxOf, most, tySigned_eq, tyBits_eq]
  push_cast
  rfl
theorem wrapN_eq (t : ETy) (z : Int) : wrapN (tyBits t) z = bitsOfInt t z := by
  rw [wrapN, bitsOfInt, tyBits_eq]
  push_cast
  rfl
theorem bitsOfInt_lt (t : ETy) (z : Int) : bitsOfInt t z < 2 ^ elemBits t := by
  have h := Int.emod_lt_of_pos z (by positivity : (0 : Int) < 2 ^ elemBits t)
  have h0 := Int.emod_nonneg z (by positivity : (2 : Int) ^ elemBits t ≠ 0)
  rw [bitsOfInt, Int.toNat_lt h0]
  exact_mod_cast h
/-- A number between the bounds is a bit vector's signed or unsigned value. -/
theorem intOf_eq (sgn : Bool) (w v : Nat) : intOf sgn w v = if sgn then (BitVec.ofNat w v).toInt else ((v % 2 ^ w : Nat) : Int) := by
  cases sgn
  · rfl
  · simp only [intOf, sextN, if_true, BitVec.toInt_eq_toNat_cond, BitVec.toNat_ofNat]
theorem tyInt_eq (t : ETy) (v : Nat) : tyInt t v = intVal t v := by
  rw [tyInt, intOf_eq, tySigned_eq, tyBits_eq, intVal]
theorem intVal_emod (t : ETy) (v : Nat) : intVal t v % 2 ^ elemBits t = ((v % 2 ^ elemBits t : Nat) : Int) := by
  rw [intVal]
  split
  · rw [BitVec.toInt_eq_toNat_cond, BitVec.toNat_ofNat]
    split <;> push_cast <;> simp
  · push_cast
    exact Int.emod_emod_of_dvd _ (dvd_refl _)
/-- The bits of an element's number are the element. -/
theorem bitsOfInt_intVal {t : ETy} {v : Nat} (h : v < 2 ^ elemBits t) : bitsOfInt t (intVal t v) = v := by
  rw [bitsOfInt, intVal_emod, Nat.mod_eq_of_lt h, Int.toNat_natCast]

theorem minOf_le_maxOf (sgn : Bool) (n : Nat) : minOf sgn n ≤ maxOf sgn n := by
  have h := Nat.one_le_two_pow (n := n - 1)
  have h' := Nat.one_le_two_pow (n := n)
  cases sgn <;> simp only [minOf, maxOf, if_true, Bool.false_eq_true, if_false] <;> omega
/-- sat_int at a width and signedness: held between the bounds, marked and flagged beyond them. -/
theorem satTo_eq (sgn : Bool) (n : Nat) (z : Int) : satTo sgn n z =
    { bits := wrapN n (max (minOf sgn n) (min (maxOf sgn n) z)), fl := if z < minOf sgn n ∨ maxOf sgn n < z then flagSat else 0,
      mark := decide (z < minOf sgn n ∨ maxOf sgn n < z) } := by
  have hle := minOf_le_maxOf sgn n
  rw [satTo]
  generalize minOf sgn n = lo at *
  generalize maxOf sgn n = hi at *
  split
  next h => simp [h, max_eq_left (min_le_of_right_le h.le)]
  next h =>
    split
    next h' => simp [h', min_eq_left h'.le, hle]
    next h' => simp [h, h', not_lt.1 h, not_lt.1 h']
theorem satInt_eq (t : ETy) (z : Int) :
    satInt t z = { bits := bitsOfInt t (held t z), fl := satFlag t z, mark := decide (z < least t ∨ most t < z) } := by
  rw [satInt, satTo_eq, wrapN_eq, minOf_eq, maxOf_eq]
  rfl

-- Words by their sources -----------------------------------------------------------------------------------------------------------

section
variable {h : BHead} {ts : List ETy} {t : ETy} {d : Reg} {a b : Src} {m : Option Reg} {s : State} {r : Run} {i : Instr} {v : Nat} {fl : Flags}
  {mark : Bool}
/-- A word whose result is known stores it. -/
theorem gives_of_res {f : Run → Hart → Nat → Res} (hi : exec i s = rowResult h ts t d m f s) (hr : RowReady s r h (t :: ts) m)
    (hf : f r s.me r.cur = { bits := v, fl := fl, mark := mark }) (hv : r.holds t v) : RowGives i s r t d m v mark fl := by
  have := gives_of_rowResult hi hr (hf ▸ hv)
  rwa [hf] at this
/-- A word of two sources of one type. -/
theorem gives_two {g : BitVec 10 → Nat → Nat → Res} (hi : exec i s = rowTwo h t d a b m g s) (hr : RowReady s r h [t] m)
    (hg : g r.cap.fpctl (element r s.me t a.r r.cur) (element r s.me t b.r r.cur) = { bits := v, fl := fl, mark := mark }) (hv : r.holds t v) :
    RowGives i s r t d m v mark fl := by
  rw [rowTwo] at hi
  exact gives_of_res hi hr (by rw [rowGet_eq, rowGet_eq, hg]) hv
/-- A word of one source of its type. -/
theorem gives_one {g : BitVec 10 → Nat → Res} (hi : exec i s = rowOne h t d a m g s) (hr : RowReady s r h [t] m)
    (hg : g r.cap.fpctl (element r s.me t a.r r.cur) = { bits := v, fl := fl, mark := mark }) (hv : r.holds t v) :
    RowGives i s r t d m v mark fl := by
  rw [rowOne] at hi
  exact gives_of_res hi hr (by rw [rowGet_eq, hg]) hv
/-- A word on the patterns of two elements, and of one. -/
theorem gives_bitsTwo {g : Nat → Nat → Nat} (hi : exec i s = bitsTwo h t d a b g s) (hr : RowReady s r h [t] none)
    (hg : g (element r s.me t a.r r.cur) (element r s.me t b.r r.cur) = v) (hv : r.holds t v) : RowGives i s r t d none v false 0 := by
  rw [bitsTwo] at hi
  exact gives_of_res hi hr (by rw [rowGet_eq, rowGet_eq, hg]) hv
theorem gives_bitsOne {g : Nat → Nat} (hi : exec i s = bitsOne h t d a g s) (hr : RowReady s r h [t] none)
    (hg : g (element r s.me t a.r r.cur) = v) (hv : r.holds t v) : RowGives i s r t d none v false 0 := by
  rw [bitsOne] at hi
  exact gives_of_res hi hr (by rw [rowGet_eq, hg]) hv
end

-- The words (spec/05 R104 to R108) ---------------------------------------------------------------------------------------------------

section
variable (h : BHead) (t : ETy) (rm : Rm) (d : Reg) (a b : Src) (m : Option Reg) (s : State)
theorem exec_vadd : exec (.vadd h t rm d a b m) s = rowTwo h t d a b m (fun c => arith c t (· + ·) fun f => fAdd f c rm) s := rfl
theorem exec_vsub : exec (.vsub h t rm d a b m) s = rowTwo h t d a b m (fun c => arith c t (· - ·) fun f => fSub f c rm) s := rfl
theorem exec_vmul : exec (.vmul h t rm d a b m) s = rowTwo h t d a b m (fun c => arith c t (· * ·) fun f => fMul f c rm) s := rfl
theorem exec_vmac : exec (.vmac h t rm d a b m) s = rowResult h [] t d m
    (fun r x i => macc r.cap.fpctl t rm (rowGet r x t d i) (rowGet r x t a.r i) (rowGet r x t b.r i)) s := rfl
theorem exec_vmulh : exec (.vmulh h t d a b) s = rowTwo h t d a b none (fun _ => mulHigh t) s := rfl
theorem exec_vdiv : exec (.vdiv h t rm d a b m) s = rowTwo h t d a b m (fun c u v => match tyFmt t with
    | none => (rowDivRem t u v).1
    | some f => onTwo f c (fDiv f c rm) u v) s := rfl
theorem exec_vrem : exec (.vrem h t d a b m) s = rowTwo h t d a b m (fun _ u v => (rowDivRem t u v).2) s := rfl
theorem exec_vmin : exec (.vmin h t d a b) s = rowTwo h t d a b none (fun c => minMax false c t) s := rfl
theorem exec_vmax : exec (.vmax h t d a b) s = rowTwo h t d a b none (fun c => minMax true c t) s := rfl
theorem exec_vabs : exec (.vabs h t d a m) s = rowOne h t d a m (fun c v => match tyFmt t with
    | none => satInt t (tyInt t v).natAbs
    | some f => floatSign f c (fun _ => false) v) s := rfl
theorem exec_vneg : exec (.vneg h t d a m) s = rowOne h t d a m (fun c v => match tyFmt t with
    | none => satInt t (-(tyInt t v))
    | some f => floatSign f c (!·) v) s := rfl
theorem exec_vand : exec (.vand h t d a b) s = bitsTwo h t d a b (· &&& ·) s := rfl
theorem exec_vor : exec (.vor h t d a b) s = bitsTwo h t d a b (· ||| ·) s := rfl
theorem exec_vxor : exec (.vxor h t d a b) s = bitsTwo h t d a b (· ^^^ ·) s := rfl
theorem exec_vnot : exec (.vnot h t d a) s = bitsOne h t d a (fun v => 2 ^ tyBits t - 1 - v) s := rfl
theorem exec_vshl : exec (.vshl h t d a b) s = bitsTwo h t d a b (rowShl (tyBits t)) s := rfl
theorem exec_vshr : exec (.vshr h t d a b) s = bitsTwo h t d a b (rowShr (tyBits t)) s := rfl
theorem exec_vsra : exec (.vsra h t d a b) s = bitsTwo h t d a b (rowSra t) s := rfl
theorem exec_vpopc : exec (.vpopc h t d a) s = bitsOne h t d a (onesIn (tyBits t)) s := rfl
theorem exec_vclz : exec (.vclz h t d a) s = bitsOne h t d a (leadingZeros (tyBits t)) s := rfl
end

theorem arith_int {t : ETy} (ht : fmtOf t = none) (ctl : BitVec 10) (fi : Int → Int → Int) (ff : Fmt → FVal → FVal → Res) (a b : Nat) :
    arith ctl t fi ff a b = satInt t (fi (intVal t a) (intVal t b)) := by
  rw [arith, tyFmt_eq, ht, tyInt_eq, tyInt_eq]
theorem macc_int {t : ETy} (ht : fmtOf t = none) (ctl : BitVec 10) (rm : Rm) (o a b : Nat) :
    macc ctl t rm o a b = satInt t (intVal t o + intVal t a * intVal t b) := by
  rw [macc, tyFmt_eq, ht, tyInt_eq, tyInt_eq, tyInt_eq]

/-- The saturating words: sums, products and signs (R104, R105, R112). -/
theorem satWords {h : BHead} {t : ETy} (rm : Rm) (d : Reg) (a b : Src) {m : Option Reg} {s : State} {r : Run} (ht : fmtOf t = none) (hq : t ≠ .q)
    (hp : t ≠ .pr) (hr : RowReady s r h [t] m) :
    let x := intVal t (element r s.me t a.r r.cur)
    let y := intVal t (element r s.me t b.r r.cur)
    let o := intVal t (element r s.me t d r.cur)
    SatRow (.vadd h t rm d a b m) s r t d m (x + y) ∧ SatRow (.vsub h t rm d a b m) s r t d m (x - y) ∧
    SatRow (.vmul h t rm d a b m) s r t d m (x * y) ∧ SatRow (.vmac h t rm d a b m) s r t d m (o + x * y) ∧
    SatRow (.vabs h t d a m) s r t d m |x| ∧ SatRow (.vneg h t d a m) s r t d m (-x) := by
  intro x y o
  have fits : ∀ z, r.holds t (bitsOfInt t (held t z)) := fun z => Run.holds_of_lt hq hp (bitsOfInt_lt ..)
  have sat : ∀ {y z}, y = satInt t z → y = _ := fun h => h.trans (satInt_eq t _)
  refine ⟨gives_two (exec_vadd ..) hr (sat (arith_int ht ..)) (fits _), gives_two (exec_vsub ..) hr (sat (arith_int ht ..)) (fits _),
    gives_two (exec_vmul ..) hr (sat (arith_int ht ..)) (fits _), gives_of_res (exec_vmac ..) hr (sat ?_) (fits _),
    gives_one (exec_vabs ..) hr (sat ?_) (fits _), gives_one (exec_vneg ..) hr (sat ?_) (fits _)⟩
  · rw [macc_int ht, rowGet_eq, rowGet_eq, rowGet_eq]
  · rw [tyFmt_eq, ht, tyInt_eq, Int.abs_eq_natAbs]
  · rw [tyFmt_eq, ht, tyInt_eq]
/-- Division and remainder, the two corners first (R106). -/
theorem divRem_cases (t : ETy) {u : Nat} (v : Nat) (hu : u < 2 ^ elemBits t) :
    let x := intVal t u
    let y := intVal t v
    (y = 0 → rowDivRem t u v = ({ bits := 2 ^ elemBits t - 1, fl := 0x008, mark := true }, { bits := u, fl := 0x008, mark := true })) ∧
    (y = -1 → isSignedTy t = true → x = least t →
      rowDivRem t u v = ({ bits := u, fl := 0x040, mark := true }, { bits := 0, fl := 0x040, mark := true })) ∧
    (y ≠ 0 → ¬ (y = -1 ∧ isSignedTy t = true ∧ x = least t) →
      rowDivRem t u v = ({ bits := bitsOfInt t (x.tdiv y) }, { bits := bitsOfInt t (x - x.tdiv y * y) })) := by
  intro x y
  have hmod : u % 2 ^ tyBits t = u := Nat.mod_eq_of_lt (tyBits_eq t ▸ hu)
  have hleast : isSignedTy t = true → minOf true (tyBits t) = least t := fun hs => by rw [← minOf_eq, tySigned_eq, hs]
  have hdef : rowDivRem t u v =
      if y = 0 then ({ bits := 2 ^ elemBits t - 1, fl := flagDz, mark := true }, { bits := u, fl := flagDz, mark := true })
      else if tySigned t && decide (x = minOf true (tyBits t)) && decide (y = -1) then
        ({ bits := u, fl := flagSat, mark := true }, { bits := 0, fl := flagSat, mark := true })
      else ({ bits := bitsOfInt t (x.tdiv y) }, { bits := bitsOfInt t (x.tmod y) }) := by
    rw [rowDivRem, hmod, wrapN_eq, wrapN_eq, tyInt_eq, tyInt_eq, tyBits_eq]
  refine ⟨fun hy => ?_, fun hy hs hx => ?_, fun hy hc => ?_⟩
  · rw [hdef, if_pos hy]
    rfl
  · rw [hdef, if_neg (by omega), if_pos (by simp [tySigned_eq, hs, hx, hy, hleast hs])]
    rfl
  · rw [hdef, if_neg hy, if_neg ?_, Int.tmod_def, Int.mul_comm]
    simp only [Bool.and_eq_true, decide_eq_true_eq, tySigned_eq]
    rintro ⟨⟨hs, hx⟩, hy⟩
    exact hc ⟨hy, hs, hx.trans (hleast hs)⟩

-- Patterns and counts (R105, R107, R108) ------------------------------------------------------------------------------------------------

theorem mulHigh_eq (t : ETy) (u v : Nat) : mulHigh t u v = { bits := bitsOfInt t (intVal t u * intVal t v / 2 ^ elemBits t) } := by
  rw [mulHigh, wrapN_eq, tyInt_eq, tyInt_eq, tyBits_eq]
  push_cast
  rfl
theorem minMax_int {t : ETy} (ht : fmtOf t = none) {u v : Nat} (hu : u < 2 ^ elemBits t) (hv : v < 2 ^ elemBits t) (ctl : BitVec 10) :
    minMax false ctl t u v = { bits := bitsOfInt t (min (intVal t u) (intVal t v)) } ∧
      minMax true ctl t u v = { bits := bitsOfInt t (max (intVal t u) (intVal t v)) } := by
  simp only [minMax, tyFmt_eq, ht, tyInt_eq]
  obtain h | h := lt_or_ge (intVal t u) (intVal t v)
  · simp [h, min_eq_left h.le, max_eq_right h.le, bitsOfInt_intVal hu, bitsOfInt_intVal hv]
  · simp [h.not_gt, min_eq_right h, max_eq_left h, bitsOfInt_intVal hu, bitsOfInt_intVal hv]
theorem intVal_lower (t : ETy) (v : Nat) : -2 ^ elemBits t ≤ intVal t v ∧ intVal t v < 2 ^ elemBits t := by
  have hlt : ((v % 2 ^ elemBits t : Nat) : Int) < 2 ^ elemBits t := by exact_mod_cast Nat.mod_lt v (Nat.two_pow_pos _)
  rw [intVal]
  split
  · rw [BitVec.toInt_eq_toNat_cond, BitVec.toNat_ofNat]
    split <;> push_cast at * <;> omega
  · omega
theorem rowSra_eq (t : ETy) (u v : Nat) : rowSra t u v =
    if isSignedTy t then bitsOfInt t (if v < elemBits t then intVal t u / 2 ^ v else if intVal t u < 0 then -1 else 0)
    else if v < elemBits t then u / 2 ^ v else 0 := by
  rw [rowSra, tySigned_eq, wrapN_eq, tyInt_eq, tyBits_eq]
  cases hs : isSignedTy t
  · rfl
  · simp only [Bool.not_true, Bool.false_eq_true, if_false, if_true]
    congr 1
    obtain h | h := Nat.lt_or_ge v (elemBits t)
    · rw [if_pos h, Nat.min_eq_left h.le]
      push_cast
      rfl
    · obtain ⟨hlo, hhi⟩ := intVal_lower t u
      have hpos : (0 : Int) < 2 ^ elemBits t := by positivity
      rw [if_neg h.not_gt, Nat.min_eq_right h]
      push_cast
      split
      next hneg => exact (Int.ediv_eq_iff_of_pos hpos).2 ⟨by omega, by omega⟩
      next hneg => exact Int.ediv_eq_zero_of_lt (by omega) hhi
theorem onesIn_eq {w : Nat} (hw : w ≤ 64) (v : Nat) : onesIn w v = ones w (BitVec.ofNat 64 v) := by
  have count : ∀ w v, onesIn w v = ((List.range w).filter v.testBit).length := fun w => by
    induction w with
    | zero => exact fun v => rfl
    | succ w ih =>
      intro v
      rw [onesIn, ih, List.range_succ_eq_map, List.filter_cons, List.filter_map, Nat.testBit_zero]
      have : v.testBit ∘ Nat.succ = (v / 2).testBit := funext fun j => Nat.testBit_succ v j
      rw [this]
      obtain h | h := Nat.mod_two_eq_zero_or_one v <;> simp [h, add_comm]
  rw [count, ones]
  refine congrArg List.length (List.filter_congr fun j hj => ?_)
  rw [BitVec.getLsbD_ofNat, decide_eq_true (by have := List.mem_range.1 hj; omega : j < 64), Bool.true_and]
theorem ones_le (w : Nat) (x : Word) : ones w x ≤ w := (List.length_filter_le ..).trans_eq List.length_range
theorem leadingZeros_le (w v : Nat) : leadingZeros w v ≤ w := by
  rw [leadingZeros]
  split <;> omega
theorem leadingZeros_zerosAbove {w v : Nat} (hw : w ≤ 64) (hv : v < 2 ^ w) : ZerosAbove w (BitVec.ofNat 64 v) (leadingZeros w v) := by
  have bit : ∀ j, j < w → (BitVec.ofNat 64 v).getLsbD j = v.testBit j := fun j hj => by
    rw [BitVec.getLsbD_ofNat, decide_eq_true (by omega : j < 64), Bool.true_and]
  refine ⟨leadingZeros_le w v, fun j hlo hj => ?_, fun hlt => ?_⟩
  · rw [bit j hj]
    apply Nat.testBit_lt_two_pow
    rw [leadingZeros] at hlo
    split at hlo
    next h0 => rw [h0]; positivity
    next h0 => exact (Nat.log2_lt h0).1 (by have := (Nat.log2_lt h0).2 hv; omega)
  · rw [leadingZeros] at hlt ⊢
    split at hlt
    next => omega
    next h0 =>
      have hlog := (Nat.log2_lt h0).2 hv
      rw [if_neg h0, bit _ (by omega), show w - 1 - (w - 1 - v.log2) = v.log2 by omega]
      exact Nat.testBit_log2 h0
theorem lt_two_pow_elemBits (t : ETy) {k : Nat} (h : k ≤ elemBits t) : k < 2 ^ elemBits t := h.trans_lt Nat.lt_two_pow_self

/-- Settles O36: each integer word is one operation on the elements of its row, stored with its mark and flags. -/
theorem rowIntegerWords : Obligations.RowIntegerWords := by
  unfold Obligations.RowIntegerWords
  intro h t rm d a b m s r ht hq hp hr
  simp only [← element_of_ne (r := r) hq hp]
  have fits : ∀ {v}, v < 2 ^ elemBits t → r.holds t v := Run.holds_of_lt hq hp
  have read : ∀ reg, element r s.me t reg r.cur < 2 ^ elemBits t := fun reg => by rw [element_of_ne hq hp]; exact row_lt ..
  have hu := read a.r
  have hv := read b.r
  obtain ⟨hzero, hover, hplain⟩ := divRem_cases t (element r s.me t b.r r.cur) hu
  have bits := fun z => fits (bitsOfInt_lt t z)
  obtain ⟨hadd, hsub, hmul, hmac, habs, hneg⟩ := satWords rm d a b ht hq hp hr
  have hdiv : ∀ {y : Res × Res} {v fl mark}, rowDivRem t (element r s.me t a.r r.cur) (element r s.me t b.r r.cur) = y → y.1 = ⟨v, fl, mark⟩ →
      v < 2 ^ elemBits t → RowGives (.vdiv h t rm d a b m) s r t d m v mark fl := fun hy h1 hlt =>
    gives_two (exec_vdiv ..) hr (by rw [tyFmt_eq, ht]; exact hy ▸ h1) (fits hlt)
  have hrem : ∀ {y : Res × Res} {v fl mark}, rowDivRem t (element r s.me t a.r r.cur) (element r s.me t b.r r.cur) = y → y.2 = ⟨v, fl, mark⟩ →
      v < 2 ^ elemBits t → RowGives (.vrem h t d a b m) s r t d m v mark fl := fun hy h1 hlt =>
    gives_two (exec_vrem ..) hr (hy ▸ h1) (fits hlt)
  have hones : 2 ^ elemBits t - 1 < 2 ^ elemBits t := Nat.sub_lt (Nat.two_pow_pos _) one_pos
  refine ⟨hadd, hsub, hmul, hmac, habs, hneg, fun hy => ⟨hdiv (hzero hy) rfl hones, hrem (hzero hy) rfl hu⟩,
    fun hy hs hx => ⟨hdiv (hover hy hs hx) rfl hu, hrem (hover hy hs hx) rfl (Nat.two_pow_pos _)⟩,
    fun hy hc => ⟨hdiv (hplain hy hc) rfl (bitsOfInt_lt ..), hrem (hplain hy hc) rfl (bitsOfInt_lt ..)⟩, ?_⟩
  rintro rfl
  obtain ⟨hmin, hmax⟩ := minMax_int ht hu hv r.cap.fpctl
  refine ⟨gives_two (exec_vmulh ..) hr (mulHigh_eq ..) (bits _), gives_two (exec_vmin ..) hr hmin (bits _), gives_two (exec_vmax ..) hr hmax (bits _),
    gives_bitsTwo (exec_vand ..) hr rfl (fits (Nat.and_lt_two_pow _ hv)), gives_bitsTwo (exec_vor ..) hr rfl (fits (Nat.or_lt_two_pow hu hv)),
    gives_bitsTwo (exec_vxor ..) hr rfl (fits (Nat.xor_lt_two_pow hu hv)), gives_bitsOne (exec_vnot ..) hr (by rw [tyBits_eq]) (fits (by omega)),
    gives_bitsTwo (exec_vshl ..) hr (by rw [tyBits_eq, rowShl]) (fits ?_), gives_bitsTwo (exec_vshr ..) hr (by rw [tyBits_eq, rowShr]) (fits ?_),
    gives_bitsTwo (exec_vsra ..) hr (rowSra_eq ..) (fits ?_), gives_bitsOne (exec_vpopc ..) hr (by rw [tyBits_eq, onesIn_eq (elemBits_le t)])
      (fits (lt_two_pow_elemBits t (ones_le ..))), leadingZeros (elemBits t) (element r s.me t a.r r.cur),
    leadingZeros_zerosAbove (elemBits_le t) hu, gives_bitsOne (exec_vclz ..) hr (by rw [tyBits_eq])
      (fits (lt_two_pow_elemBits t (leadingZeros_le ..)))⟩
  · split
    · exact Nat.mod_lt _ (Nat.two_pow_pos _)
    · exact Nat.two_pow_pos _
  · split
    · exact (Nat.div_le_self ..).trans_lt hu
    · exact Nat.two_pow_pos _
  · split
    · exact bitsOfInt_lt ..
    · split
      · exact (Nat.div_le_self ..).trans_lt hu
      · exact Nat.two_pow_pos _
end Sys2Proof.Claims
end

section
/-!
PROOFS. The float words of rows (spec/05 R109 to R112): each rounds its result once, marks it as its own flags say, and adds the flags
of its operands' reads.
-/
namespace Sys2Proof.Claims
open Machine

-- Float types and operands (spec/04 R76, R88) ------------------------------------------------------------------------------------

theorem elemBits_fmt {t : ETy} {f : Fmt} (h : fmtOf t = some f) : elemBits t = f.width := by cases t <;> cases h <;> rfl
theorem ne_q_of_fmt {t : ETy} {f : Fmt} (h : fmtOf t = some f) : t ≠ .q := by rintro rfl; cases h
theorem ne_pr_of_fmt {t : ETy} {f : Fmt} (h : fmtOf t = some f) : t ≠ .pr := by rintro rfl; cases h
theorem holds_fmt {t : ETy} {f : Fmt} (h : fmtOf t = some f) {r : Run} {v : Nat} (hv : v < 2 ^ f.width) : r.holds t v :=
  Run.holds_of_lt (ne_q_of_fmt h) (ne_pr_of_fmt h) (elemBits_fmt h ▸ hv)
theorem element_lt {t : ETy} {f : Fmt} (h : fmtOf t = some f) (r : Run) (x : Hart) (reg : Reg) (i : Nat) : element r x t reg i < 2 ^ f.width := by
  rw [element_of_ne (ne_q_of_fmt h) (ne_pr_of_fmt h), ← elemBits_fmt h]
  exact row_lt ..
theorem isNan_iff (x : FVal) : isNan x = true ↔ ¬ notNan x := by cases x <;> simp [isNan, notNan]
theorem negative_valueOf {f : Fmt} {b : Nat} (h : notNan (valueOf f b)) : negative (valueOf f b) = bitOf b (f.width - 1) := by
  unfold valueOf at h ⊢
  dsimp only at h ⊢
  split_ifs at h ⊢
  · rfl
  · exact h.elim
  · rfl
  · rfl
  · exact h.elim
  · rfl
theorem asRead_lt {f : Fmt} {b : Nat} (ctl : BitVec 10) (h : b < 2 ^ f.width) : asRead f ctl b < 2 ^ f.width := by
  rw [asRead]
  split
  · exact withSign_lt _ (Nat.two_pow_pos _)
  · exact h
/-- The value of an operand, where no flush changes it. -/
theorem operand_fst (f : Fmt) (ctl : BitVec 10) (b : Nat) :
    (operand f ctl b).1 = if isSubnormal f b && operandFlush ctl f then .num (bitOf b (f.width - 1)) 0 0 else valueOf f b := by
  rw [operand]
  split
  · rfl
  · split <;> simp_all
/-- The sign of an operand is that of its bits as read. -/
theorem negative_operand {f : Fmt} {ctl : BitVec 10} {b : Nat} (h : notNan (operand f ctl b).1) :
    negative (operand f ctl b).1 = bitOf (asRead f ctl b) (f.width - 1) := by
  rw [operand_fst] at h ⊢
  rw [asRead]
  split
  · exact (bitOf_withSign _ (Nat.two_pow_pos _)).symm
  next hn =>
    rw [if_neg hn] at h
    exact negative_valueOf h

-- Results with the flags of their reads (spec/05 R103) ------------------------------------------------------------------------------

theorem Own.reads {f : Fmt} {y : Res} (h : Own f y) (fl : Flags) : y.reads fl = { bits := y.bits, fl := fl ||| y.fl, mark := y.fl &&& 0x01C != 0 } := by
  rw [Res.reads, ← h.mark, BitVec.or_comm]
theorem onOne_eq (f : Fmt) (ctl : BitVec 10) (op : FVal → Res) (u : Nat) :
    onOne f ctl op u = (op (operand f ctl u).1).reads (operand f ctl u).2 := rfl
theorem onTwo_eq (f : Fmt) (ctl : BitVec 10) (op : FVal → FVal → Res) (u v : Nat) :
    onTwo f ctl op u v = (op (operand f ctl u).1 (operand f ctl v).1).reads ((operand f ctl u).2 ||| (operand f ctl v).2) := rfl
theorem arith_float {t : ETy} {f : Fmt} (ht : fmtOf t = some f) (ctl : BitVec 10) (fi : Int → Int → Int) (ff : Fmt → FVal → FVal → Res) (u v : Nat) :
    arith ctl t fi ff u v = onTwo f ctl (ff f) u v := by
  rw [arith, tyFmt_eq, ht]
theorem fused_eq {t : ETy} {f : Fmt} (ht : fmtOf t = some f) (ctl : BitVec 10) (rm : Rm) (u v w : Nat) :
    fused ctl t rm u v w = (fFma f ctl rm (operand f ctl u).1 (operand f ctl v).1 (operand f ctl w).1).reads
      ((operand f ctl u).2 ||| (operand f ctl v).2 ||| (operand f ctl w).2) := by
  rw [fused, tyFmtD_of ht]
theorem fNeg_eq (x : FVal) : fNeg x = opposite x := by cases x <;> rfl
theorem or_and_ne_zero (a b c : Flags) : ((a ||| b) &&& c != 0) = ((a &&& c != 0) || (b &&& c != 0)) := by
  have : (a ||| b) &&& c = (a &&& c) ||| (b &&& c) := by
    ext i
    simp [Bool.and_or_distrib_right]
  rw [this, Bool.eq_iff_iff]
  simp [BitVec.or_eq_zero_iff, Classical.or_iff_not_imp_left]
/-- old + a · b rounds twice and joins the flags and marks of both (R110). -/
theorem macc_float {t : ETy} {f : Fmt} (ht : fmtOf t = some f) (ctl : BitVec 10) (rm : Rm) (w u v : Nat) :
    let x := operand f ctl u
    let y := operand f ctl v
    let o := operand f ctl w
    let p := fMul f ctl rm x.1 y.1
    let q := fAdd f ctl rm o.1 (valueOf f p.bits)
    macc ctl t rm w u v =
      { bits := q.bits, fl := x.2 ||| y.2 ||| o.2 ||| p.fl ||| q.fl, mark := (p.fl ||| q.fl) &&& 0x01C != 0 } := by
  intro x y o p q
  have hp : p.mark = (p.fl &&& 0x01C != 0) := (fMul_own ..).mark
  have hq : q.mark = (q.fl &&& 0x01C != 0) := (fAdd_own ..).mark
  have hmacc : macc ctl t rm w u v = { bits := q.bits, fl := (q.fl ||| o.2) ||| (p.fl ||| (x.2 ||| y.2)), mark := q.mark || p.mark } := by
    rw [macc, tyFmt_eq, ht]
    rfl
  rw [hmacc, or_and_ne_zero, ← hp, ← hq, Bool.or_comm]
  congr 1
  ac_rfl

-- Signs, minima and maxima (R111, R112) ------------------------------------------------------------------------------------------------

theorem nonFinite_qnan (f : Fmt) : nonFinite f (qnan f) = true := by cases f <;> decide
/-- An operand with another sign: the canonical NaN for a NaN, else its bits as read under the sign. -/
theorem floatSign_spec (f : Fmt) (ctl : BitVec 10) (sign : Bool → Bool) (b : Nat) :
    let x := operand f ctl b
    ∃ k, k < 2 ^ f.width ∧ floatSign f ctl sign b = { bits := k, fl := x.2 ||| if nonFinite f k then 0x080 else 0, mark := false } ∧
      (¬ notNan x.1 → k = qnan f) ∧
      (notNan x.1 → k % signBit f = asRead f ctl b % signBit f ∧ bitOf k (f.width - 1) = sign (negative x.1)) := by
  intro x
  have hmag : asRead f ctl b % signBit f < 2 ^ (f.width - 1) := Nat.mod_lt _ (Nat.two_pow_pos _)
  by_cases hx : notNan x.1
  · have hnan : isNan x.1 = false := by
      rw [← Bool.not_eq_true, isNan_iff, not_not]
      exact hx
    refine ⟨withSign f (sign (bitOf (asRead f ctl b) (f.width - 1))) (asRead f ctl b % signBit f), withSign_lt _ hmag, ?_, fun h => absurd hx h,
      fun _ => ⟨?_, by rw [bitOf_withSign _ hmag, negative_operand hx]⟩⟩
    · change (if isNan x.1 = true then _ else _) = _
      rw [hnan, if_neg Bool.false_ne_true, Res.reads, BitVec.or_comm]
      congr 2
      exact BitVec.zero_or ..
    · cases sign (bitOf (asRead f ctl b) (f.width - 1)) <;> simp [withSign]
  · refine ⟨qnan f, qnan_lt f, ?_, fun _ => rfl, fun h => absurd h hx⟩
    change (if isNan x.1 = true then _ else _) = _
    rw [if_pos ((isNan_iff _).2 hx), nonFinite_qnan, if_pos rfl, Res.reads, BitVec.or_comm]
    rfl
theorem minMax_float {t : ETy} {f : Fmt} (ht : fmtOf t = some f) (isMax : Bool) (ctl : BitVec 10) (u v : Nat) :
    let k := (fMinMax f ctl isMax u v).bits
    let fl := (operand f ctl u).2 ||| (operand f ctl v).2 ||| if nonFinite f k then 0x080 else 0
    minMax isMax ctl t u v = { bits := k, fl := fl, mark := false } := by
  rw [minMax, tyFmt_eq, ht]
  rfl
theorem fMinMax_lt {f : Fmt} {u v : Nat} (isMax : Bool) (ctl : BitVec 10) (hu : u < 2 ^ f.width) (hv : v < 2 ^ f.width) :
    (fMinMax f ctl isMax u v).bits < 2 ^ f.width := by
  have hu := asRead_lt ctl hu
  have hv := asRead_lt ctl hv
  have hn := qnan_lt f
  simp only [fMinMax, Res.nf]
  split_ifs <;> assumption

-- The words (R109 to R112) ---------------------------------------------------------------------------------------------------------------

section
variable (h : BHead) (t : ETy) (rm : Rm) (d : Reg) (a b c : Src) (m : Option Reg) (s : State)
theorem exec_vfma : exec (.vfma h t rm d a b c m) s = rowResult h [] t d m
    (fun r x i => fused r.cap.fpctl t rm (rowGet r x t a.r i) (rowGet r x t b.r i) (rowGet r x t c.r i)) s := rfl
theorem exec_vsqrt : exec (.vsqrt h t rm d a) s = rowOne h t d a none (fun c v => onOne (tyFmtD t) c (fSqrt (tyFmtD t) c rm) v) s := rfl
end

section
variable {h : BHead} {t : ETy} {d : Reg} {a b : Src} {m : Option Reg} {s : State} {r : Run} {i : Instr} {f : Fmt} {P : Nat × Flags → Prop} {y : Res}
  {fl : Flags} (ht : fmtOf t = some f) (hr : RowReady s r h [t] m) (own : Own f y) (hP : P (y.bits, y.fl))
include ht hr own hP
/-- A word of two sources whose result is marked as its own flags say. -/
theorem floatRow_two {g : BitVec 10 → Nat → Nat → Res} (hi : exec i s = rowTwo h t d a b m g s)
    (hg : g r.cap.fpctl (element r s.me t a.r r.cur) (element r s.me t b.r r.cur) = y.reads fl) : FloatRow i s r t d m P fl :=
  ⟨_, hP, gives_two hi hr (hg.trans (own.reads fl)) (holds_fmt ht own.lt)⟩
theorem floatRow_one {g : BitVec 10 → Nat → Res} (hi : exec i s = rowOne h t d a m g s)
    (hg : g r.cap.fpctl (element r s.me t a.r r.cur) = y.reads fl) : FloatRow i s r t d m P fl :=
  ⟨_, hP, gives_one hi hr (hg.trans (own.reads fl)) (holds_fmt ht own.lt)⟩
theorem floatRow_of {g : Run → Hart → Nat → Res} (hi : exec i s = rowResult h [] t d m g s) (hg : g r s.me r.cur = y.reads fl) :
    FloatRow i s r t d m P fl :=
  ⟨_, hP, gives_of_res hi hr (hg.trans (own.reads fl)) (holds_fmt ht own.lt)⟩
end

/-- Settles O37: each float word is one rounded operation on the operands of its row, or a product and a sum each rounded. -/
theorem rowFloatWords : Obligations.RowFloatWords := by
  unfold Obligations.RowFloatWords
  rintro h t rm d a b c m s r f ⟨ht, hf, -⟩ hr
  simp only [← element_of_ne (r := r) (ne_q_of_fmt ht) (ne_pr_of_fmt ht)]
  refine ⟨floatRow_two ht hr (fAdd_own ..) (fAdd_isSum hf ..) (exec_vadd ..) (arith_float ht ..),
    floatRow_two ht hr (fAdd_own ..) (fAdd_isSum hf ..) (exec_vsub ..) ((arith_float ht ..).trans ?_),
    floatRow_two ht hr (fMul_own ..) (fMul_isProduct hf ..) (exec_vmul ..) (arith_float ht ..),
    floatRow_two ht hr (fDiv_own ..) (fDiv_isQuotient hf ..) (exec_vdiv ..) (by rw [tyFmt_eq, ht]; rfl),
    floatRow_of ht hr (fFma_own ..) (fFma_isFused hf ..) (exec_vfma ..) (by rw [rowGet_eq, rowGet_eq, rowGet_eq, fused_eq ht]),
    ⟨_, _, fMul_isProduct hf .., fAdd_isSum hf .., gives_of_res (exec_vmac ..) hr (by rw [rowGet_eq, rowGet_eq, rowGet_eq, macc_float ht])
      (holds_fmt ht (fAdd_own ..).lt)⟩, ?_, ?_⟩
  · rw [onTwo_eq, fSub, fNeg_eq]
  · obtain ⟨k, hk, habs, hnan, hsign⟩ := floatSign_spec f r.cap.fpctl (fun _ => false) (element r s.me t a.r r.cur)
    obtain ⟨l, hl, hneg, hnan', hsign'⟩ := floatSign_spec f r.cap.fpctl (!·) (element r s.me t a.r r.cur)
    simp only [List.forall_mem_cons, List.not_mem_nil, IsEmpty.forall_iff, implies_true, and_true]
    exact ⟨⟨k, gives_one (exec_vabs ..) hr (by rw [tyFmt_eq, ht]; exact habs) (holds_fmt ht hk), hnan, hsign⟩,
      ⟨l, gives_one (exec_vneg ..) hr (by rw [tyFmt_eq, ht]; exact hneg) (holds_fmt ht hl), hnan', hsign'⟩⟩
  · rintro rfl
    have hlt := fun isMax => fMinMax_lt isMax r.cap.fpctl (element_lt ht r s.me a.r r.cur) (element_lt ht r s.me b.r r.cur)
    simp only [List.forall_mem_cons, List.not_mem_nil, IsEmpty.forall_iff, implies_true, and_true]
    exact ⟨floatRow_one ht hr (fSqrt_own ..) (fSqrt_isRoot hf ..) (exec_vsqrt ..) (by rw [tyFmtD_of ht, onOne_eq]),
      gives_two (exec_vmin ..) hr (minMax_float ht ..) (holds_fmt ht (hlt false)),
      gives_two (exec_vmax ..) hr (minMax_float ht ..) (holds_fmt ht (hlt true))⟩
end Sys2Proof.Claims
end

section
/-!
PROOFS. Conversions, sliced arithmetic, scaling, immediates and moves of rows (spec/05 R113 to R115, R117 to R119): sat_t and the
integers a float becomes, and each word's result.
-/
namespace Sys2Proof.Claims
open Machine

-- sat_t (spec/04 R91) -----------------------------------------------------------------------------------------------------------------

theorem notNan_of_finite {f : Fmt} {b : Nat} (h : nonFinite f b = false) : notNan (valueOf f b) := by
  rw [nonFinite] at h
  cases hv : valueOf f b with
  | nan q => simp [hv] at h
  | inf p => trivial
  | num p m e => trivial
/-- Rounding a number gives no NaN. -/
theorem RoundsTo.notNan {f : Fmt} {flush : Bool} {rm : Rm} {x : ℝ} {b : Nat} {fl : Flags} (h : RoundsTo f flush rm x b fl) :
    notNan (valueOf f b) := by
  obtain ⟨y, neg, fl0, -, -, -, hbig, hflush, hkeep⟩ := h
  obtain hy | hy := lt_or_ge (greatest f) |y|
  · obtain ⟨-, -, hover⟩ := overflows_iff.1 (hbig hy).1
    split at hover
    · rw [hover]
      trivial
    · exact notNan_of_finite hover.1
  · by_cases hc : flush = false ∨ y = 0 ∨ smallestNormal f ≤ |y|
    · exact notNan_of_finite (hkeep hy hc).2.2.2.1
    · push Not at hc
      obtain ⟨hf, hy0, hsmall⟩ := hc
      rw [(hflush hy (by simpa using hf) hy0 hsmall).1, valueOf_zero]
      trivial
theorem nonFinite_maxBits (f : Fmt) (neg : Bool) : nonFinite f (withSign f neg (maxBits f)) = false := nonFinite_of_num (valueOf_maxBits f neg)
/-- sat_t of a number that is not zero: rounded, but an infinity becomes the greatest value of its sign, marked on an overflow. -/
theorem satVal_num {f : Fmt} {ctl : BitVec 10} {rm : Rm} {neg : Bool} {m : Nat} {e : Int} (hm : m ≠ 0) :
    ∃ k : Nat × Flags, Saturates f (resultFlush ctl f) rm (real (.num neg m e)) k ∧ k.1 < 2 ^ f.width ∧
      satVal f ctl rm (.num neg m e) = { bits := k.1, fl := k.2, mark := k.2 &&& 0x004 != 0 } := by
  have hround := roundVal_roundsTo (f := f) (flush := resultFlush ctl f) (rm := rm) (neg := neg) (e := e) hm
  have hneg : neg = true ↔ real (.num neg m e) < 0 := by
    rw [real_num]
    exact ofSign_neg_iff (by positivity)
  obtain ⟨b, fl, hb⟩ : ∃ b fl, roundVal f (resultFlush ctl f) rm (.num neg m e) = (b, fl) := ⟨_, _, rfl⟩
  rw [hb] at hround
  have hn : notNan (valueOf f b) := hround.notNan
  refine ⟨(if nonFinite f b then withSign f neg (maxBits f) else b, fl), ⟨b, neg, hround, hneg, rfl⟩, ?_, ?_⟩
  · dsimp only
    split
    · exact withSign_lt neg (maxBits_lt f)
    · exact hround.lt
  · rw [satVal, hb]
    dsimp only
    cases hv : valueOf f b with
    | nan q =>
      rw [hv] at hn
      exact hn.elim
    | inf p => simp [nonFinite_of_inf hv, Res.nf, nonFinite_maxBits, flagIf, flagOf]
    | num p n g => simp [nonFinite_of_num hv, Res.nf, flagIf, flagOf]
/-- The other values under sat_t. -/
theorem satVal_zero (f : Fmt) (ctl : BitVec 10) (rm : Rm) (neg : Bool) (e : Int) : satVal f ctl rm (.num neg 0 e) = { bits := withSign f neg 0 } := by
  rw [satVal, roundVal_zero]
  dsimp only
  rw [valueOf_zero, Res.nf, nonFinite_of_num (valueOf_zero f neg)]
  simp [flagIf]
theorem satVal_nan (f : Fmt) (ctl : BitVec 10) (rm : Rm) (q : Bool) : satVal f ctl rm (.nan q) = { bits := qnan f, fl := 0x080 } := by
  rw [satVal, roundVal]
  dsimp only
  rw [Res.nf, nonFinite_qnan]
  simp [flagIf, flagNf]
theorem satVal_inf (f : Fmt) (ctl : BitVec 10) (rm : Rm) (p : Bool) : satVal f ctl rm (.inf p) =
    if f = .e4m3 then { bits := withSign f p (maxBits f), fl := 0x004, mark := true } else { bits := withSign f p (infBits f), fl := 0x080 } := by
  by_cases hf : f = .e4m3
  · subst hf
    simp [satVal, roundVal, Res.nf, nonFinite_maxBits, flagIf, flagOf]
  · simp [satVal, roundVal, hf, Res.nf, nonFinite_of_inf (valueOf_infBits hf p), flagIf, flagNf]

section
variable {h : BHead} {ts : List ETy} {t : ETy} {d : Reg} {m : Option Reg} {g : Run → Hart → Nat → Res} {s : State} {r : Run} {i : Instr} {fl : Flags}
  (hi : exec i s = rowResult h ts t d m g s) (hr : RowReady s r h (t :: ts) m)
include hi hr
/-- A word whose result is a value stored by sat_t. -/
theorem floatSat_of {f : Fmt} {rm : Rm} {x : FVal} (ht : fmtOf t = some f) (hg : g r s.me r.cur = (satVal f r.cap.fpctl rm x).reads fl) :
    FloatSat i s r t d m f rm x fl := by
  have gives : ∀ {v : Nat} {fl' : Flags} {mark : Bool}, satVal f r.cap.fpctl rm x = { bits := v, fl := fl', mark := mark } → v < 2 ^ f.width →
      RowGives i s r t d m v mark (fl ||| fl') := fun hx hv =>
    gives_of_res hi hr (by rw [hg, hx, Res.reads, BitVec.or_comm]) (holds_fmt ht hv)
  cases x with
  | nan q => exact gives (satVal_nan ..) (qnan_lt f)
  | inf p =>
    have hx := satVal_inf f r.cap.fpctl rm p
    simp only [FloatSat]
    split
    next hf =>
      rw [if_pos hf] at hx
      exact gives hx (withSign_lt p (maxBits_lt f))
    next hf =>
      rw [if_neg hf] at hx
      exact gives hx (withSign_lt p (infBits_lt f))
  | num p n e =>
    simp only [FloatSat]
    split
    next hn =>
      subst hn
      exact BitVec.or_zero (x := fl) ▸ gives (satVal_zero f _ rm p e) (withSign_lt p (Nat.two_pow_pos _))
    next hn =>
      obtain ⟨k, hk, hlt, hx⟩ := satVal_num (f := f) (ctl := r.cap.fpctl) (rm := rm) (neg := p) (e := e) hn
      exact ⟨k, hk, gives hx hlt⟩

-- Floats as integers (spec/05 R114) -----------------------------------------------------------------------------------------------------------

/-- A word whose result is the integer a float becomes. -/
theorem integerSat_of {rm : Rm} {x : FVal} (hq : t ≠ .q) (hp : t ≠ .pr) (hg : g r s.me r.cur = (toInt (tySigned t) (tyBits t) rm x).reads fl) :
    IntegerSat i s r t d m rm x fl := by
  have gives : ∀ {v : Nat} {fl' : Flags} {mark : Bool}, toInt (tySigned t) (tyBits t) rm x = { bits := v, fl := fl', mark := mark } →
      v < 2 ^ elemBits t → RowGives i s r t d m v mark (fl ||| fl') := fun hx hv =>
    gives_of_res hi hr (by rw [hg, hx, Res.reads, BitVec.or_comm]) (Run.holds_of_lt hq hp hv)
  cases x with
  | nan q => exact gives rfl (Nat.two_pow_pos _)
  | inf p => exact gives (by rw [toInt, wrapN_eq, minOf_eq, maxOf_eq]; rfl) (bitsOfInt_lt ..)
  | num p n e =>
    obtain ⟨hchooses, hexact⟩ := roundInt_chooses rm p n e
    have hle : least t ≤ most t := by
      rw [← minOf_eq, ← maxOf_eq]
      exact minOf_le_maxOf ..
    obtain ⟨z, ix, hz⟩ : ∃ z ix, roundInt rm p n e = (z, ix) := ⟨_, _, rfl⟩
    rw [hz] at hchooses hexact
    dsimp only at hchooses hexact
    have hx : toInt (tySigned t) (tyBits t) rm (.num p n e) =
        if z < least t then { bits := bitsOfInt t (least t), fl := flagNv, mark := true }
        else if most t < z then { bits := bitsOfInt t (most t), fl := flagNv, mark := true }
        else { bits := bitsOfInt t z, fl := flagIf ix flagNx } := by
      rw [toInt, hz, minOf_eq, maxOf_eq, wrapN_eq, wrapN_eq, ← wrapN_eq t z]
    refine ⟨z, hchooses, ?_⟩
    split
    next hout =>
      refine gives (hx.trans ?_) (bitsOfInt_lt ..)
      split
      next hlo => rw [held, max_eq_left (min_le_of_right_le hlo.le)]; rfl
      next hlo =>
        have hhi := hout.resolve_left hlo
        rw [if_pos hhi, held, min_eq_left hhi.le, max_eq_right hle]
        rfl
    next hin =>
      push Not at hin
      refine gives (hx.trans ?_) (bitsOfInt_lt ..)
      rw [if_neg hin.1.not_gt, if_neg hin.2.not_gt]
      by_cases heq : (z : ℝ) = real (.num p n e)
      · have : ix = false := by simpa [heq] using hexact
        rw [this, if_pos heq]
        rfl
      · rw [hexact.2 heq, if_neg heq]
        rfl
end

theorem reads_zero (y : Res) : y.reads 0 = y := by simp [Res.reads]

-- Conversions (spec/05 R114) -------------------------------------------------------------------------------------------------------------------

section
variable (ctl : BitVec 10) (rm : Rm) (v : Nat) {t u : ETy} {f g : Fmt}
theorem convert_ints (ht : fmtOf t = none) (hu : fmtOf u = none) : convert ctl rm t u v = satInt t (intVal u v) := by
  rw [convert, tyFmt_eq, tyFmt_eq, ht, hu, tyInt_eq]
theorem convert_toFloat (ht : fmtOf t = some f) (hu : fmtOf u = none) :
    convert ctl rm t u v = (satVal f ctl rm (.num (decide (intVal u v < 0)) (intVal u v).natAbs 0)).reads 0 := by
  rw [convert, tyFmt_eq, tyFmt_eq, ht, hu, tyInt_eq, reads_zero]
  rfl
theorem convert_toInt (ht : fmtOf t = none) (hu : fmtOf u = some g) :
    convert ctl rm t u v = (toInt (tySigned t) (tyBits t) rm (operand g ctl v).1).reads (operand g ctl v).2 := by
  rw [convert, tyFmt_eq, tyFmt_eq, ht, hu]
  rfl
theorem convert_floats (ht : fmtOf t = some f) (hu : fmtOf u = some g) :
    convert ctl rm t u v = (satVal f ctl rm (operand g ctl v).1).reads (operand g ctl v).2 := by
  rw [convert, tyFmt_eq, tyFmt_eq, ht, hu]
  rfl
end
theorem exec_vcvt (h : BHead) (t u : ETy) (rm : Rm) (d : Reg) (a : Src) (m : Option Reg) (s : State) : exec (.vcvt h t u rm d a m) s =
    rowResult h [u] t d m (fun r x i => convert r.cap.fpctl rm t u (rowGet r x u a.r i)) s := rfl
/-- The table of R114. -/
theorem vcvt_gives {h : BHead} {t u : ETy} (rm : Rm) (d : Reg) (a : Src) {m : Option Reg} {s : State} {r : Run} (hq : t ≠ .q) (hp : t ≠ .pr)
    (hr : RowReady s r h [t, u] m) :
    let w := Instr.vcvt h t u rm d a m
    let v := element r s.me u a.r r.cur
    (fmtOf t = none → fmtOf u = none → SatRow w s r t d m (intVal u v)) ∧
    (∀ f, fmtOf t = some f → fmtOf u = none → FloatSat w s r t d m f rm (.num (decide (intVal u v < 0)) (intVal u v).natAbs 0) 0) ∧
    (∀ g, fmtOf u = some g →
      let x := operand g r.cap.fpctl v
      (fmtOf t = none → IntegerSat w s r t d m rm x.1 x.2) ∧ ∀ f, fmtOf t = some f → FloatSat w s r t d m f rm x.1 x.2) := by
  refine ⟨fun ht hu => gives_of_res (exec_vcvt ..) hr ?_ (Run.holds_of_lt hq hp (bitsOfInt_lt ..)),
    fun f ht hu => floatSat_of (exec_vcvt ..) hr ht ?_,
    fun g hu => ⟨fun ht => integerSat_of (exec_vcvt ..) hr hq hp ?_, fun f ht => floatSat_of (exec_vcvt ..) hr ht ?_⟩⟩
  · rw [rowGet_eq, convert_ints _ _ _ ht hu, satInt_eq]
  · rw [rowGet_eq, convert_toFloat _ _ _ ht hu]
  · rw [rowGet_eq, convert_toInt _ _ _ ht hu]
  · rw [rowGet_eq, convert_floats _ _ _ ht hu]

-- Sliced words (spec/05 R117 to R119) -------------------------------------------------------------------------------------------------------------

theorem slicedInt_eq (r : Run) (v : Nat) : intOf r.qs r.qw v = slicedInt r v := by
  rw [intOf_eq, qw_eq]
  rfl
theorem slicedLeast_eq (r : Run) : minOf r.qs r.qw = slicedLeast r := by
  rw [minOf, slicedLeast, qw_eq]
  push_cast
  rfl
theorem slicedMost_eq (r : Run) : maxOf r.qs r.qw = slicedMost r := by
  rw [maxOf, slicedMost, qw_eq]
  push_cast
  rfl
theorem satTo_sliced (r : Run) (z : Int) : satTo r.qs r.qw z =
    { bits := (max (slicedLeast r) (min (slicedMost r) z) % 2 ^ (r.cap.vtype.toNat % 32)).toNat,
      fl := if z < slicedLeast r ∨ slicedMost r < z then 0x040 else 0, mark := decide (z < slicedLeast r ∨ slicedMost r < z) } := by
  rw [satTo_eq, slicedLeast_eq, slicedMost_eq, wrapN, qw_eq]
  push_cast
  rfl
theorem emod_toNat_lt (z : Int) (w : Nat) : (z % 2 ^ w).toNat < 2 ^ w := by
  have h0 := Int.emod_nonneg z (by positivity : (2 : Int) ^ w ≠ 0)
  rw [Int.toNat_lt h0]
  exact_mod_cast Int.emod_lt_of_pos z (by positivity : (0 : Int) < 2 ^ w)
section
variable {h : BHead} {ts : List ETy} {d : Reg} {a b : Src} {m : Option Reg} {g : Run → Hart → Nat → Res} {s : State} {r : Run} {i : Instr}
/-- A word whose result is saturated to the width and sign of the run. -/
theorem slicedRow_of {z : Int} {fl : Flags} (hi : exec i s = rowResult h ts .q d m g s) (hr : RowReady s r h (.q :: ts) m)
    (hg : g r s.me r.cur = (satTo r.qs r.qw z).reads fl) : SlicedRow i s r d m z fl :=
  gives_of_res hi hr (by rw [hg, satTo_sliced, Res.reads, BitVec.or_comm]) (emod_toNat_lt ..)
theorem slicedTwo_gives {f : Int → Int → Int} (hi : exec i s = slicedTwo h d a b m f s) (hr : RowReady s r h [.q] m) :
    SlicedRow i s r d m (f (slicedInt r (element r s.me .q a.r r.cur)) (slicedInt r (element r s.me .q b.r r.cur))) 0 := by
  rw [slicedTwo] at hi
  refine slicedRow_of hi hr ?_
  rw [qval, qval, rowGet_eq, rowGet_eq, slicedInt_eq, slicedInt_eq, reads_zero]
end
section
variable (h : BHead) (t u : ETy) (rm : Rm) (d : Reg) (a b : Src) (k : KReg) (m : Option Reg) (s : State)
theorem exec_vqadd : exec (.vqadd h d a b m) s = slicedTwo h d a b m (· + ·) s := rfl
theorem exec_vqmul : exec (.vqmul h d a b m) s = slicedTwo h d a b m (· * ·) s := rfl
theorem exec_vqpack : exec (.vqpack h u d a m) s =
    rowResult h [u] .q d m (fun r x i => satTo r.qs r.qw (tyInt u (rowGet r x u a.r i))) s := rfl
theorem exec_vqunpack : exec (.vqunpack h t d a) s =
    rowResult h [.q] t d none (fun r x i => { satInt t (qval r (rowGet r x .q a.r i)) with mark := false }) s := rfl
theorem exec_vscale : exec (.vscale h t rm d a k m) s = rowResult h [] t d m (fun r x i => match tyFmt t with
    | some f => scaleFloat f r.cap.fpctl rm (x.scale k.toNat (i / 32)) (rowGet r x t a.r i)
    | none => scaleSliced r.qs r.qw (x.scale k.toNat (i / 32)) (rowGet r x t a.r i)) s := rfl
end
theorem vqpack_gives {h : BHead} {u : ETy} (d : Reg) (a : Src) {m : Option Reg} {s : State} {r : Run} (hr : RowReady s r h [.q, u] m) :
    SlicedRow (.vqpack h u d a m) s r d m (intVal u (element r s.me u a.r r.cur)) 0 :=
  slicedRow_of (exec_vqpack ..) hr (by rw [rowGet_eq, tyInt_eq, reads_zero])
theorem vqunpack_gives {h : BHead} {t : ETy} (d : Reg) (a : Src) {s : State} {r : Run} (hq : t ≠ .q) (hp : t ≠ .pr)
    (hr : RowReady s r h [t, .q] none) :
    let x := slicedInt r (element r s.me .q a.r r.cur)
    RowGives (.vqunpack h t d a) s r t d none (bitsOfInt t (held t x)) false (satFlag t x) :=
  gives_of_res (exec_vqunpack ..) hr (by rw [rowGet_eq, qval, slicedInt_eq, satInt_eq]) (Run.holds_of_lt hq hp (bitsOfInt_lt ..))

-- Scales (spec/04 R86, spec/05 R119) -----------------------------------------------------------------------------------------------------------------

theorem real_ofInt (z : Int) (g : Int) : real (.num (decide (z < 0)) z.natAbs g) = (z : ℝ) * 2 ^ g := by
  rw [real_num, ofSign_mul]
  congr 1
  have hcast : ((z.natAbs : Nat) : ℝ) = ((|z| : Int) : ℝ) := by rw [Int.abs_eq_natAbs]; rfl
  rw [hcast]
  by_cases hz : z < 0
  · rw [decide_eq_true hz, ofSign_true, abs_of_neg hz]
    push_cast
    ring
  · rw [decide_eq_false hz, ofSign_false, abs_of_nonneg (not_lt.1 hz)]
/-- A sliced element under a scale that is not a NaN: an integer chosen for the product, inexact where it differs. -/
theorem scaleSliced_spec (r : Run) {e : Nat} (he : e ≠ 255) (v : Nat) :
    ∃ z : Int, Chooses Whole EvenWhole .rne ((slicedInt r v : ℝ) * (2 : ℝ) ^ ((e : Int) - 127)) z ∧
      scaleSliced r.qs r.qw e v = (satTo r.qs r.qw z).reads (if (z : ℝ) = (slicedInt r v : ℝ) * (2 : ℝ) ^ ((e : Int) - 127) then 0 else 0x001) := by
  obtain ⟨hchooses, hexact⟩ := roundInt_chooses .rne (decide (slicedInt r v < 0)) (slicedInt r v).natAbs ((e : Int) - 127)
  rw [real_ofInt] at hchooses hexact
  refine ⟨_, hchooses, ?_⟩
  have hdef : scaleSliced r.qs r.qw e v =
      let o := roundInt .rne (decide (slicedInt r v < 0)) (slicedInt r v).natAbs ((e : Int) - 127)
      (satTo r.qs r.qw o.1).reads (flagIf o.2 flagNx) := by
    rw [scaleSliced, if_neg he, slicedInt_eq]
    rfl
  rw [hdef]
  dsimp only
  congr 1
  split
  next heq =>
    rw [show (roundInt .rne (decide (slicedInt r v < 0)) (slicedInt r v).natAbs ((e : Int) - 127)).2 = false by simpa [heq] using hexact]
    rfl
  next hne =>
    rw [hexact.2 hne]
    rfl
theorem scaleSliced_nan (sgn : Bool) (w v : Nat) : scaleSliced sgn w 255 v = { bits := 0, fl := 0x010, mark := true } := rfl
theorem scaleFloat_eq (f : Fmt) (ctl : BitVec 10) (rm : Rm) (e v : Nat) : scaleFloat f ctl rm e v =
    if e = 255 then { bits := qnan f, fl := (operand f ctl v).2 ||| 0x090, mark := true }
    else (satVal f ctl rm (scaled (operand f ctl v).1 ((e : Int) - 127))).reads (operand f ctl v).2 := by
  have hdef : scaleFloat f ctl rm e v =
      if e = 255 then { bits := qnan f, fl := flagNv ||| flagNf ||| (operand f ctl v).2, mark := true }
      else (satVal f ctl rm (scaleBy (operand f ctl v).1 ((e : Int) - 127))).reads (operand f ctl v).2 := rfl
  rw [hdef, scaleBy_eq, BitVec.or_comm]
  rfl
section
variable {h : BHead} {t : ETy} (rm : Rm) (d : Reg) (a : Src) (k : KReg) {m : Option Reg} {s : State} {r : Run}
theorem vscale_sliced (hr : RowReady s r h [.q] m) :
    let x := slicedInt r (element r s.me .q a.r r.cur)
    let e := s.me.scale k.toNat (r.cur / 32)
    (e = 255 → RowGives (.vscale h .q rm d a k m) s r .q d m 0 true 0x010) ∧
    (e ≠ 255 → ∃ z : Int, Chooses Whole EvenWhole .rne ((x : ℝ) * (2 : ℝ) ^ ((e : Int) - 127)) z ∧
      SlicedRow (.vscale h .q rm d a k m) s r d m z (if (z : ℝ) = (x : ℝ) * (2 : ℝ) ^ ((e : Int) - 127) then 0 else 0x001)) := by
  refine ⟨fun he => gives_of_res (exec_vscale ..) hr ?_ (Nat.two_pow_pos _), fun he => ?_⟩
  · dsimp only [tyFmt]
    rw [he, scaleSliced_nan]
  · obtain ⟨z, hz, hscale⟩ := scaleSliced_spec r he (element r s.me .q a.r r.cur)
    exact ⟨z, hz, slicedRow_of (exec_vscale ..) hr (by rw [rowGet_eq]; exact hscale)⟩
theorem vscale_float {f : Fmt} (ht : fmtOf t = some f) (hr : RowReady s r h [t] m) :
    let x := operand f r.cap.fpctl (element r s.me t a.r r.cur)
    let e := s.me.scale k.toNat (r.cur / 32)
    (e = 255 → RowGives (.vscale h t rm d a k m) s r t d m (qnan f) true (x.2 ||| 0x090)) ∧
    (e ≠ 255 → FloatSat (.vscale h t rm d a k m) s r t d m f rm (scaled x.1 ((e : Int) - 127)) x.2) := by
  refine ⟨fun he => gives_of_res (exec_vscale ..) hr ?_ (holds_fmt ht (qnan_lt f)), fun he => floatSat_of (exec_vscale ..) hr ht ?_⟩
  all_goals
    rw [tyFmt_eq, ht]
    dsimp only
    rw [rowGet_eq, scaleFloat_eq]
  · rw [if_pos he]
  · rw [if_neg he]
end

-- Classes, immediates, selection and moves (spec/05 R113, R115) -------------------------------------------------------------------------------------------

section
variable (h : BHead) (t : ETy) (d : Reg) (a b : Src) (imm : BitVec 12) (s : State)
theorem exec_vclass : exec (.vclass h t d a) s = rowOne h t d a none
    (fun c v => { bits := (classOf (tyFmtD t) c v).1, fl := (classOf (tyFmtD t) c v).2 }) s := rfl
theorem exec_vli : exec (.vli h t d imm) s = rowResult h [] t d none (fun r _ _ => liRes r.cap.fpctl t imm) s := rfl
theorem exec_vmov : exec (.vmov h t d a) s = bitsOne h t d a id s := rfl
end
/-- The class of an operand, flushed or not. -/
theorem classOf_code (f : Fmt) (ctl : BitVec 10) (v : Nat) : ClassCode f (asRead f ctl v) (classOf f ctl v).1 ∧ (classOf f ctl v).1 < 10 := by
  generalize hc : asRead f ctl v = c
  cases hv : valueOf f c with
  | nan q => cases q <;> simp [ClassCode, classOf, hc, hv]
  | inf p => cases p <;> simp [ClassCode, classOf, hc, hv]
  | num p m e =>
    have hp : bitOf c (f.width - 1) = p := by
      have := negative_valueOf (f := f) (b := c) (by rw [hv]; trivial)
      rw [← this, hv]
      rfl
    have hsub : m ≠ 0 → (isSubnormal f c = true ↔ bitsAt c f.frac f.expo = 0) := fun hm => by
      rw [isSubnormal, Bool.and_eq_true, beq_iff_eq, bne_iff_ne, and_iff_left_iff_imp]
      intro hE
      rw [valueOf, if_pos hE] at hv
      injection hv with _ hfrac
      rwa [hfrac]
    by_cases hm : m = 0
    · cases p <;> simp [ClassCode, classOf, hc, hv, hm, hp]
    · by_cases hE : bitsAt c f.frac f.expo = 0
      · cases p <;> simp [ClassCode, classOf, hc, hv, hm, hp, hE, (hsub hm).2 hE]
      · cases p <;> simp [ClassCode, classOf, hc, hv, hm, hp, hE, mt (hsub hm).1 hE]
/-- A class raises the flag of a flush and no other. -/
theorem classOf_flags (f : Fmt) (ctl : BitVec 10) (v : Nat) : (classOf f ctl v).2 = (operand f ctl v).2 &&& 0x020 := by
  change flagIf _ flagFo = _
  rw [operand]
  split
  next hflush => simp [hflush, flagIf, flagFo]
  next hkeep =>
    rw [Bool.not_eq_true _ |>.mp hkeep]
    split
    next q _ => cases q <;> rfl
    next => simp [flagIf]
theorem vclass_gives {h : BHead} {t : ETy} {f : Fmt} (d : Reg) (a : Src) {s : State} {r : Run} (ht : fmtOf t = some f) (hr : RowReady s r h [t] none) :
    let v := element r s.me t a.r r.cur
    ∃ c, ClassCode f (asRead f r.cap.fpctl v) c ∧
      RowGives (.vclass h t d a) s r t d none c false ((operand f r.cap.fpctl v).2 &&& 0x020) := by
  obtain ⟨hcode, hlt⟩ := classOf_code f r.cap.fpctl (element r s.me t a.r r.cur)
  have small : 10 < 2 ^ f.width := by cases f <;> decide
  exact ⟨_, hcode, gives_one (exec_vclass ..) hr (by rw [tyFmtD_of ht, classOf_flags]) (holds_fmt ht (hlt.trans small))⟩
theorem vli_float {h : BHead} {t : ETy} {f : Fmt} (d : Reg) (imm : BitVec 12) {s : State} {r : Run} (ht : fmtOf t = some f)
    (hr : RowReady s r h [t] none) :
    let v := roundVal f (resultFlush r.cap.fpctl f) .rne (.num (decide (imm.toInt < 0)) imm.toInt.natAbs 0)
    RowGives (.vli h t d imm) s r t d none v.1 false v.2 :=
  gives_of_res (exec_vli ..) hr (by rw [liRes, tyFmt_eq, ht]; rfl) (holds_fmt ht (roundNum_lt ..))
theorem vli_int {h : BHead} {t : ETy} (d : Reg) (imm : BitVec 12) {s : State} {r : Run} (ht : fmtOf t = none) (hq : t ≠ .q) (hp : t ≠ .pr)
    (hr : RowReady s r h [t] none) :
    RowGives (.vli h t d imm) s r t d none (bitsOfInt t (held t imm.toInt)) false (satFlag t imm.toInt) :=
  gives_of_res (exec_vli ..) hr (by rw [liRes, tyFmt_eq, ht, satInt_eq]) (Run.holds_of_lt hq hp (bitsOfInt_lt ..))
theorem vsel_gives {h : BHead} {t : ETy} (d : Reg) (a b : Src) (n : Reg) {s : State} {r : Run} (hq : t ≠ .q)
    (hr : RowReady s r h [t] (some n)) :
    RowGives (.vsel h t d a b n) s r t d none (element r s.me t (if (s.me.pred n).bit r.cur then a.r else b.r) r.cur) false 0 := by
  obtain ⟨hrun, hlets, hcap⟩ := acts_of_ready hr
  obtain ⟨-, -, -, -, hmask⟩ := hr
  have hexec : exec (.vsel h t d a b n) s = execVsel h t d a b n s := rfl
  have hwrites := stored_writes (m := none) (y := { bits := element r s.me t (if (s.me.pred n).bit r.cur then a.r else b.r) r.cur }) d hrun
    (fun ht => absurd ht hq) (element_holds ..)
  refine ⟨_, ?_, hwrites⟩
  rw [hexec, execVsel, rowWord_acts hrun hlets fun _ => hcap]
  simp only [finish, Op.bind_run, needMask_ok hmask, upd_run, rowGet_eq]
end Sys2Proof.Claims
end

section
/-!
PROOFS. Reciprocals, inverse roots and powers of two (spec/05 R116): rounded once; the fixed-point value of 2^x lies within 2^-200 of
it, in proportion (log 14).
-/
namespace Sys2Proof.Claims
open Machine

-- Reciprocals and inverse roots ---------------------------------------------------------------------------------------------------

theorem fRcp_isQuotient (ctl : BitVec 10) (rm : Rm) (x : FVal) :
    let r := fRcp ctl rm x
    IsQuotient .f32 (resultFlush ctl .f32) rm (.num false 1 0) x (r.bits, r.fl) := by
  cases x with
  | nan q => rfl
  | inf p => cases p <;> rfl
  | num p m e =>
    simp only [fRcp, IsQuotient]
    by_cases hm : m = 0
    · simp only [hm, if_true, one_ne_zero, if_false]
      cases p <;> rfl
    · simp only [hm, if_false]
      refine ⟨fun _ => ?_, fun h => absurd h one_ne_zero⟩
      rw [real_div, zero_sub, Bool.false_bne]
      exact quotient_rounded one_ne_zero hm
theorem fRcp_own (ctl : BitVec 10) (rm : Rm) (x : FVal) : Own .f32 (fRcp ctl rm x) := by
  unfold fRcp
  split
  · exact nanRes_own _
  · exact zero_own ..
  · split
    · exact divZeroRes_own ..
    · exact arithRes_own ..

/-- The floor of the root of a quotient's floor is that of the root of the quotient. -/
theorem sqrt_div_floor {m k r : Nat} (hm : m ≠ 0) (hr : r = (2 ^ (2 * k) / m).sqrt) :
    (r : ℝ) ≤ 2 ^ k / Real.sqrt m ∧ (2 : ℝ) ^ k / Real.sqrt m < r + 1 ∧
      ((r * r * m != 2 ^ (2 * k)) = true ↔ (r : ℝ) ≠ 2 ^ k / Real.sqrt m) := by
  have hpos : 0 < Real.sqrt m := by positivity
  have hsq : Real.sqrt m * Real.sqrt m = m := Real.mul_self_sqrt (by positivity)
  have hpow : (2 : ℝ) ^ (2 * k) = 2 ^ k * 2 ^ k := by rw [two_mul, pow_add]
  have hle : r * r * m ≤ 2 ^ (2 * k) := by
    rw [hr, ← Nat.le_div_iff_mul_le (Nat.pos_of_ne_zero hm)]
    exact Nat.sqrt_le _
  have hlt : 2 ^ (2 * k) < (r + 1) * (r + 1) * m := by
    rw [hr, ← Nat.div_lt_iff_lt_mul (Nat.pos_of_ne_zero hm)]
    exact Nat.lt_succ_sqrt _
  have hle' : (r * Real.sqrt m) * (r * Real.sqrt m) ≤ 2 ^ k * 2 ^ k := by
    rw [mul_mul_mul_comm, hsq, ← hpow]
    exact_mod_cast hle
  have hlt' : (2 : ℝ) ^ k * 2 ^ k < ((r + 1) * Real.sqrt m) * ((r + 1) * Real.sqrt m) := by
    rw [mul_mul_mul_comm, hsq, ← hpow]
    exact_mod_cast hlt
  refine ⟨?_, ?_, ?_⟩
  · rw [le_div_iff₀ hpos]
    exact (mul_self_le_mul_self_iff (by positivity) (by positivity)).2 hle'
  · rw [div_lt_iff₀ hpos]
    exact (mul_self_lt_mul_self_iff (by positivity) (by positivity)).2 hlt'
  · rw [bne_iff_ne, ne_eq, ne_eq, not_iff_not, eq_div_iff hpos.ne', ← mul_self_inj (a := (r : ℝ) * Real.sqrt m) (by positivity) (by positivity),
      mul_mul_mul_comm, hsq, ← hpow]
    exact_mod_cast Iff.rfl
/-- The inverse root of a number above 0 with an even exponent, rounded once. -/
theorem inverseRoot_rounded {ctl : BitVec 10} {rm : Rm} {m : Nat} (hm : m ≠ 0) (e : Int) :
    let k := 60 + m.log2
    let r := isqrt (2 ^ (2 * k) / m)
    let o := arithRes .f32 ctl rm false r (-(k : Int) - e) (r * r * m != 2 ^ (2 * k))
    Rounded .f32 (resultFlush ctl .f32) rm (1 / Real.sqrt (m * 2 ^ (2 * e))) (o.bits, o.fl) := by
  intro k r
  obtain ⟨hle, hlt, hst⟩ := sqrt_div_floor (k := k) hm (isqrt_eq _)
  have hbig : 2 ^ 24 ≤ r := by
    have hlog : m < 2 ^ (m.log2 + 1) := Nat.lt_log2_self
    rw [show r = _ from isqrt_eq _, Nat.le_sqrt, Nat.le_div_iff_mul_le (Nat.pos_of_ne_zero hm)]
    calc 2 ^ 24 * 2 ^ 24 * m ≤ 2 ^ 48 * 2 ^ (m.log2 + 1) := by rw [← pow_add]; exact Nat.mul_le_mul_left _ hlog.le
      _ = 2 ^ (49 + m.log2) := by ring
      _ ≤ 2 ^ (2 * k) := Nat.pow_le_pow_right two_pos (by omega)
  have hval : 1 / Real.sqrt (m * 2 ^ (2 * e)) = 2 ^ k / Real.sqrt m * 2 ^ (-(k : Int) - e) := by
    rw [sqrt_mul_zpow (by positivity), zpow_sub₀ two_ne_zero, zpow_neg, zpow_natCast]
    have : Real.sqrt m ≠ 0 := by positivity
    field_simp
  rw [hval]
  exact arithRes_floor (neg := false) hle hlt hst hbig
theorem fRsqrt_isInverseRoot (ctl : BitVec 10) (rm : Rm) (x : FVal) :
    let r := fRsqrt ctl rm x
    IsInverseRoot (resultFlush ctl .f32) rm x (r.bits, r.fl) := by
  cases x with
  | nan q => rfl
  | inf p => cases p <;> rfl
  | num p m e =>
    simp only [fRsqrt, IsInverseRoot]
    by_cases hm : m = 0
    · simp only [hm, if_true]
      cases p <;> rfl
    · cases p
      · simp only [hm, if_false, Bool.false_eq_true, real_num, ofSign_false]
        by_cases he : e % 2 = 0
        · have hreal : (m : ℝ) * 2 ^ e = m * 2 ^ (2 * (e / 2)) := by rw [show 2 * (e / 2) = e by omega]
          simp only [he, bne_self_eq_false, Bool.false_eq_true, if_false, hreal]
          exact inverseRoot_rounded hm (e / 2)
        · have hreal : (m : ℝ) * 2 ^ e = (2 * m : Nat) * 2 ^ (2 * ((e - 1) / 2)) := by
            rw [show 2 * ((e - 1) / 2) = e - 1 by omega, zpow_sub_one₀ two_ne_zero]
            push_cast
            ring
          simp only [bne_iff_ne, ne_eq, he, not_false_eq_true, if_true, hreal]
          exact inverseRoot_rounded (by omega) ((e - 1) / 2)
      · simp only [hm, if_false, if_true]
        rfl
theorem fRsqrt_own (ctl : BitVec 10) (rm : Rm) (x : FVal) : Own .f32 (fRsqrt ctl rm x) := by
  unfold fRsqrt
  split
  · exact nanRes_own _
  · exact zero_own .f32 false
  · exact invalidRes_own _
  · split
    · exact divZeroRes_own ..
    · split
      · exact invalidRes_own _
      · exact arithRes_own ..
end Sys2Proof.Claims
end

section
/-!
PROOFS. The fixed-point value of 2^x (spec/05 R116, log 14): the terms of the exponential series, each rounded down, lie within 2^13
units of the value, of 2^320 units to 1.
-/
namespace Sys2Proof.Claims
open Machine

-- The natural logarithm of 2 -------------------------------------------------------------------------------------------------------------

/-- The terms of the logarithm's series, each rounded down, lose less than one unit each. -/
theorem ln2Sum_near (n : Nat) :
    (ln2Sum n : ℝ) ≤ 2 ^ (fixBits + 32) * ∑ i ∈ Finset.range n, (1 / 2 : ℝ) ^ (i + 1) / (i + 1) ∧
      2 ^ (fixBits + 32) * ∑ i ∈ Finset.range n, (1 / 2 : ℝ) ^ (i + 1) / (i + 1) ≤ ln2Sum n + n := by
  induction n with
  | zero => simp [ln2Sum]
  | succ n ih =>
    obtain ⟨lo, hi⟩ := ih
    obtain ⟨hle, hlt, -⟩ := natDiv_floor (2 ^ (fixBits + 32)) (b := (n + 1) * 2 ^ (n + 1)) (by positivity)
    have hterm : (2 : ℝ) ^ (fixBits + 32) * ((1 / 2 : ℝ) ^ (n + 1) / (n + 1)) = (2 ^ (fixBits + 32) : Nat) / ((n + 1) * 2 ^ (n + 1) : Nat) := by
      push_cast
      rw [one_div, inv_pow]
      field_simp
    have hsum : (ln2Sum (n + 1) : ℝ) = (2 ^ (fixBits + 32) / ((n + 1) * 2 ^ (n + 1)) : Nat) + ln2Sum n := by
      rw [ln2Sum, Nat.cast_add]
    rw [Finset.sum_range_succ, mul_add, hterm, hsum]
    push_cast at *
    constructor <;> linarith
theorem ln2Fix_near : |(ln2Fix : ℝ) - 2 ^ fixBits * Real.log 2| ≤ 2 := by
  obtain ⟨lo, hi⟩ := ln2Sum_near 360
  have htail := Real.abs_log_sub_add_sum_range_le (x := 1 / 2) (by norm_num [abs_of_pos]) 360
  have hpow : |(1 / 2 : ℝ)| ^ (360 + 1) / (1 - |1 / 2|) = ((2 : ℝ) ^ fixBits)⁻¹ * ((2 : ℝ) ^ 40)⁻¹ := by
    rw [abs_of_pos (by norm_num), show (1 : ℝ) - 1 / 2 = 1 / 2 by norm_num, pow_succ, mul_div_cancel_right₀ _ (by norm_num), one_div, inv_pow,
      ← mul_inv, ← pow_add]
    rfl
  rw [show (1 : ℝ) - 1 / 2 = 2⁻¹ by norm_num, Real.log_inv, hpow, ← sub_eq_add_neg, abs_le] at htail
  obtain ⟨hle, hlt, -⟩ := natDiv_floor (ln2Sum 360) (b := 2 ^ 32) (by positivity)
  rw [show ln2Sum 360 / 2 ^ 32 = ln2Fix from rfl] at hle hlt
  rw [pow_add] at lo hi
  have hF : (0 : ℝ) < 2 ^ fixBits := by positivity
  generalize (∑ i ∈ Finset.range 360, (1 / 2 : ℝ) ^ (i + 1) / (i + 1)) = a at *
  generalize (2 : ℝ) ^ fixBits = F at *
  generalize ln2Sum 360 = c at *
  generalize ln2Fix = l at *
  obtain ⟨tlo, thi⟩ := htail
  have slo : -((2 : ℝ) ^ 40)⁻¹ ≤ F * a - F * Real.log 2 := by
    have := mul_le_mul_of_nonneg_left tlo hF.le
    rwa [mul_neg, mul_inv_cancel_left₀ hF.ne', mul_sub] at this
  have shi : F * a - F * Real.log 2 ≤ ((2 : ℝ) ^ 40)⁻¹ := by
    have := mul_le_mul_of_nonneg_left thi hF.le
    rwa [mul_inv_cancel_left₀ hF.ne', mul_sub] at this
  push_cast at lo hi hle hlt
  rw [abs_le]
  norm_num at lo hi hle hlt slo shi
  constructor <;> linarith

-- The exponential series ---------------------------------------------------------------------------------------------------------------

/-- The series with its terms unrounded: n terms from the k-th, whose value is a. -/
noncomputable def expSeries (τ : ℝ) : Nat → Nat → ℝ → ℝ
  | 0, _, _ => 0
  | n + 1, k, a => a + expSeries τ n (k + 1) (a * τ / (k + 1))
theorem expSeries_eq (τ c : ℝ) (n k : Nat) :
    expSeries τ n k (c * (τ ^ k / k.factorial)) = c * ∑ i ∈ Finset.range n, τ ^ (k + i) / (k + i).factorial := by
  induction n generalizing k with
  | zero => simp [expSeries]
  | succ n ih =>
    have hnext : c * (τ ^ k / k.factorial) * τ / (k + 1) = c * (τ ^ (k + 1) / (k + 1).factorial) := by
      rw [Nat.factorial_succ, pow_succ]
      push_cast
      field_simp
    rw [expSeries, hnext, ih, Finset.sum_range_succ', mul_add, add_comm]
    simp only [add_zero, add_assoc, add_comm 1]
/-- Two series whose first terms are near stay near, for a ratio up to 1. -/
theorem expSeries_near {τ a b : ℝ} (h0 : 0 ≤ τ) (h1 : τ ≤ 1) (hab : a ≤ b) (hb : b ≤ a + 1) (n k : Nat) :
    expSeries τ n k a ≤ expSeries τ n k b ∧ expSeries τ n k b ≤ expSeries τ n k a + n := by
  induction n generalizing k a b with
  | zero => simp [expSeries]
  | succ n ih =>
    have hk : (1 : ℝ) ≤ k + 1 := by linarith [Nat.cast_nonneg (α := ℝ) k]
    have hle : a * τ / (k + 1) ≤ b * τ / (k + 1) := by gcongr
    have hstep : b * τ / (k + 1) ≤ a * τ / (k + 1) + 1 := by
      rw [div_add_one (by linarith)]
      gcongr
      nlinarith
    obtain ⟨lo, hi⟩ := ih hle hstep (k + 1)
    simp only [expSeries]
    push_cast
    constructor <;> linarith
/-- The rounded terms of the series lose at most n units for each of them. -/
theorem expTerms_near {t : Nat} (h1 : (t : ℝ) / 2 ^ fixBits ≤ 1) (n k term : Nat) :
    (expTerms t n k term : ℝ) ≤ expSeries (t / 2 ^ fixBits) n k term ∧ expSeries (t / 2 ^ fixBits) n k term ≤ expTerms t n k term + n * n := by
  induction n generalizing k term with
  | zero => simp [expTerms, expSeries]
  | succ n ih =>
    obtain ⟨hle, hlt, -⟩ := natDiv_floor (term * t) (b := (k + 1) * 2 ^ fixBits) (by positivity)
    have hterm : (term : ℝ) * (t / 2 ^ fixBits) / (k + 1) = (term * t : Nat) / ((k + 1) * 2 ^ fixBits : Nat) := by
      push_cast
      field_simp
    obtain ⟨slo, shi⟩ := expSeries_near (τ := t / 2 ^ fixBits) (by positivity) h1 hle hlt.le n (k + 1)
    obtain ⟨lo, hi⟩ := ih (k + 1) (term * t / ((k + 1) * 2 ^ fixBits))
    rw [expTerms, expSeries, hterm]
    push_cast at *
    constructor <;> nlinarith
theorem exp_series_near {τ : ℝ} (h0 : 0 ≤ τ) (h1 : τ ≤ 1) :
    ∑ i ∈ Finset.range 80, τ ^ i / i.factorial ≤ Real.exp τ ∧ 2 ^ fixBits * Real.exp τ ≤ 2 ^ fixBits * ∑ i ∈ Finset.range 80, τ ^ i / i.factorial + 1 := by
  refine ⟨Real.sum_le_exp_of_nonneg h0 80, ?_⟩
  have hfac : (2 : ℝ) ^ fixBits * 81 ≤ (80).factorial * 80 := by
    have : 2 ^ fixBits * 81 ≤ (80).factorial * 80 := by decide +kernel
    exact_mod_cast this
  have hrest : (2 : ℝ) ^ fixBits * (τ ^ 80 * ((80 : Nat) + 1) / ((80).factorial * (80 : Nat))) ≤ 1 := by
    rw [← mul_div_assoc, div_le_one (by positivity)]
    calc (2 : ℝ) ^ fixBits * (τ ^ 80 * ((80 : Nat) + 1)) ≤ 2 ^ fixBits * (1 * ((80 : Nat) + 1)) := by gcongr; exact pow_le_one₀ h0 h1
      _ = 2 ^ fixBits * 81 := by norm_num
      _ ≤ _ := by rwa [Nat.cast_ofNat]
  calc (2 : ℝ) ^ fixBits * Real.exp τ ≤ 2 ^ fixBits * (_ + _) := by gcongr; exact Real.exp_bound' h0 h1 (n := 80) (by norm_num)
    _ ≤ _ := by rw [mul_add]; gcongr

-- The fraction's power -----------------------------------------------------------------------------------------------------------------------

/-- Exponents below 1 that lie near give near exponentials. -/
theorem exp_near {a b δ : ℝ} (ha : Real.exp a ≤ 2) (hab : |b - a| ≤ δ) (hδ : δ ≤ 1) : |Real.exp b - Real.exp a| ≤ 4 * δ := by
  have hsplit : Real.exp b - Real.exp a = Real.exp a * (Real.exp (b - a) - 1) := by
    rw [mul_sub, ← Real.exp_add, add_sub_cancel, mul_one]
  rw [hsplit, abs_mul, abs_of_pos (Real.exp_pos a)]
  have := Real.abs_exp_sub_one_le (hab.trans hδ)
  calc Real.exp a * |Real.exp (b - a) - 1| ≤ 2 * (2 * δ) := by gcongr; linarith
    _ = 4 * δ := by ring
theorem exp2Frac_ge (fr : Nat) : 2 ^ fixBits ≤ exp2Frac fr := Nat.le_add_right _ _
/-- The exponent of the series, from the fraction and the logarithm of 2, each rounded down. -/
theorem exponent_near {fr l : Nat} (h : fr < 2 ^ fixBits) (hl : |(l : ℝ) - 2 ^ fixBits * Real.log 2| ≤ 2) :
    |((fr * l / 2 ^ fixBits : Nat) : ℝ) / 2 ^ fixBits - fr / 2 ^ fixBits * Real.log 2| ≤ 3 / 2 ^ fixBits := by
  obtain ⟨lo, hi, -⟩ := natDiv_floor (fr * l) (b := 2 ^ fixBits) (by positivity)
  have hF : (0 : ℝ) < 2 ^ fixBits := by positivity
  have hu : (fr : ℝ) / 2 ^ fixBits ≤ 1 := by
    rw [div_le_one hF]
    exact_mod_cast h.le
  have hu0 : 0 ≤ (fr : ℝ) / 2 ^ fixBits := by positivity
  generalize fr * l / 2 ^ fixBits = t at *
  push_cast at lo hi
  rw [mul_div_right_comm] at lo hi
  have hmul : |(fr : ℝ) / 2 ^ fixBits * l - fr / 2 ^ fixBits * (2 ^ fixBits * Real.log 2)| ≤ 2 := by
    rw [← mul_sub, abs_mul, abs_of_nonneg hu0]
    nlinarith [abs_nonneg ((l : ℝ) - 2 ^ fixBits * Real.log 2)]
  have hsplit : (t : ℝ) / 2 ^ fixBits - fr / 2 ^ fixBits * Real.log 2 = (t - fr / 2 ^ fixBits * (2 ^ fixBits * Real.log 2)) / 2 ^ fixBits := by
    field_simp
  rw [hsplit, abs_div, abs_of_pos hF]
  gcongr
  rw [abs_le] at hmul ⊢
  constructor <;> linarith
theorem exp2Frac_near {fr : Nat} (h : fr < 2 ^ fixBits) : |(exp2Frac fr : ℝ) - 2 ^ fixBits * 2 ^ ((fr : ℝ) / 2 ^ fixBits)| ≤ 2 ^ 13 := by
  have hτ := exponent_near h ln2Fix_near
  rw [exp2Frac]
  generalize fr * ln2Fix / 2 ^ fixBits = t at *
  have hF : (0 : ℝ) < 2 ^ fixBits := by positivity
  have hbig : (2 : ℝ) ^ 13 ≤ 2 ^ fixBits := pow_le_pow_right₀ (by norm_num) (by decide)
  have hu : (fr : ℝ) / 2 ^ fixBits < 1 := by
    rw [div_lt_one hF]
    exact_mod_cast h
  have hu0 : 0 ≤ (fr : ℝ) / 2 ^ fixBits := by positivity
  have hlog := Real.log_two_lt_d9
  have hlog0 := Real.log_two_gt_d9
  have hsmall : 3 / (2 : ℝ) ^ fixBits ≤ 1 / 2 ^ 10 := by
    rw [div_le_div_iff₀ hF (by positivity)]
    linarith
  have hpow : (2 : ℝ) ^ ((fr : ℝ) / 2 ^ fixBits) = Real.exp (fr / 2 ^ fixBits * Real.log 2) := by
    rw [Real.rpow_def_of_pos two_pos, mul_comm]
  have hpow2 : Real.exp (fr / 2 ^ fixBits * Real.log 2) ≤ 2 := by
    rw [← hpow]
    exact (Real.rpow_le_rpow_of_exponent_le one_le_two hu.le).trans_eq (Real.rpow_one 2)
  have hτ1 : (t : ℝ) / 2 ^ fixBits ≤ 1 := by
    have := (abs_le.1 hτ).2
    nlinarith
  have hexp := exp_near hpow2 hτ (hsmall.trans (by norm_num))
  obtain ⟨elo, ehi⟩ := expTerms_near hτ1 80 0 (2 ^ fixBits)
  have hseries := expSeries_eq ((t : ℝ) / 2 ^ fixBits) (2 ^ fixBits) 80 0
  obtain ⟨slo, shi⟩ := exp_series_near (τ := t / 2 ^ fixBits) (by positivity) hτ1
  have slo' := mul_le_mul_of_nonneg_left slo hF.le
  simp only [pow_zero, Nat.factorial_zero, Nat.cast_one, div_one, mul_one, zero_add] at hseries
  rw [Nat.cast_pow, Nat.cast_ofNat, hseries] at elo ehi
  have hexp' : |2 ^ fixBits * Real.exp (t / 2 ^ fixBits) - 2 ^ fixBits * 2 ^ ((fr : ℝ) / 2 ^ fixBits)| ≤ 12 := by
    rw [hpow, ← mul_sub, abs_mul, abs_of_pos hF]
    calc (2 : ℝ) ^ fixBits * _ ≤ 2 ^ fixBits * (4 * (3 / 2 ^ fixBits)) := by gcongr
      _ = 12 := by field_simp; norm_num
  rw [abs_le] at hexp' ⊢
  constructor <;> linarith
end Sys2Proof.Claims
end

section
/-!
PROOFS. Powers of two (spec/05 R116): exact for whole exponents; past the format's range the rounding of every power is the same; else
the fixed-point value is rounded once, with a sticky bit (log 14).
-/
namespace Sys2Proof.Claims
open Machine

-- Numbers past the range of FP32 -----------------------------------------------------------------------------------------------------

/-- The digits of a normal number fill the significand. -/
theorem toGrid_normal (rm : Rm) (neg : Bool) {m : Nat} (hm : m ≠ 0) (e : Int) (st : Bool) (n : Nat) : 2 ^ n ≤ (toGrid rm neg m e (expOf m e - n) st).1 := by
  have hlog : 2 ^ m.log2 ≤ m := Nat.log2_self_le hm
  unfold toGrid expOf
  split
  · calc 2 ^ n ≤ 2 ^ (m.log2 + (e - (m.log2 + e - n)).toNat) := Nat.pow_le_pow_right two_pos (by omega)
      _ ≤ m * 2 ^ (e - (m.log2 + e - n)).toNat := by rw [pow_add]; exact Nat.mul_le_mul_right _ hlog
  · have : 2 ^ n ≤ m / 2 ^ ((m.log2 : Int) + e - n - e).toNat := by
      rw [Nat.le_div_iff_mul_le (by positivity), ← pow_add]
      exact (Nat.pow_le_pow_right two_pos (by omega)).trans hlog
    dsimp only
    split <;> omega
theorem overflow_magBits {q : Nat} {g : Int} (hq : 2 ^ 23 ≤ q) (hg : 105 ≤ g) : maxBits .f32 < magBits .f32 q g := by
  have hexp : 255 ≤ (g + (23 : Nat) + (127 : Nat)).toNat := by omega
  have hmag : magBits .f32 q g = (g + (23 : Nat) + (127 : Nat)).toNat * 2 ^ 23 + (q - 2 ^ 23) := if_neg (Nat.not_lt.2 hq)
  rw [hmag, maxBits]
  omega
/-- A number of 2^128 or more overflows. -/
theorem roundNum_overflow (rf : Bool) (rm : Rm) {m : Nat} (hm : m ≠ 0) {e : Int} (he : 128 ≤ expOf m e) (st : Bool) :
    roundNum .f32 rf rm false m e st = (overflowBits .f32 rm false, 0x005) := by
  have hg : max (expOf m e) (emin .f32) - Fmt.f32.frac = expOf m e - (23 : Nat) := by rw [max_eq_left (he.trans' (by decide))]; rfl
  have htiny : decide (expOf m e < emin .f32) = false := decide_eq_false (not_lt.2 (he.trans' (by decide)))
  have hq := toGrid_normal rm false hm e st 23
  rw [roundNum_eq hm]
  simp only [hg, htiny]
  generalize toGrid rm false m e (expOf m e - (23 : Nat)) st = r at *
  have hover : maxBits .f32 < magBits .f32 (carried .f32 r.1 (expOf m e - (23 : Nat))).1 (carried .f32 r.1 (expOf m e - (23 : Nat))).2 := by
    rw [carried]
    split
    · exact overflow_magBits le_rfl (by dsimp only; omega)
    · exact overflow_magBits hq (by dsimp only; omega)
  rw [if_pos hover]
  cases r.2 <;> rfl
/-- A number above 0 and below half the least subnormal rounds up or away. -/
theorem roundNum_underflow (rf : Bool) (rm : Rm) {m s : Nat} (hm : m ≠ 0) (hs : m < 2 ^ s) {e : Int} (he : e = -150 - s) (st : Bool) :
    roundNum .f32 rf rm false m e st = (if rm = .rup ∧ rf = false then 1 else 0, 0x003) := by
  have hlog : m.log2 < s := (Nat.log2_lt hm).2 hs
  have hexp : expOf m e < emin .f32 := by
    rw [expOf, show emin .f32 = -126 from rfl]
    omega
  have hgrid : toGrid rm false m e (-149) st = (if rm = .rup then 1 else 0, true) := by
    have hshift : (-149 - e).toNat = s + 1 := by omega
    have hlt : m < 2 ^ (s + 1) := hs.trans_le (Nat.pow_le_pow_right two_pos (by omega))
    simp only [toGrid, if_neg (show ¬ (-149 : Int) ≤ e by omega), hshift, Nat.div_eq_of_lt hlt, Nat.mod_eq_of_lt hlt]
    have : (m != 0) = true := by simp [hm]
    cases rm
    · simp [roundsUp, this, hs.le, hs.ne]
    all_goals simp [roundsUp, this]
  rw [roundNum_eq hm, max_eq_right hexp.le, show emin .f32 - (Fmt.f32.frac : Int) = -149 from rfl, decide_eq_true hexp]
  simp only [hgrid]
  cases rm <;> cases rf <;> decide +kernel
/-- A power of two with a real exponent by its floor. -/
theorem rpow_floor (x : ℝ) : ∃ (m : Nat) (st : Bool) (w : ℝ), 2 ^ 24 ≤ m ∧ m < 2 ^ 25 ∧ (m : ℝ) ≤ w ∧ w < m + 1 ∧ (st = true ↔ (m : ℝ) ≠ w) ∧
    w * 2 ^ (⌊x⌋ - 24) = (2 : ℝ) ^ x := by
  have hw : (2 : ℝ) ^ (x - ((⌊x⌋ - 24 : Int) : ℝ)) * 2 ^ (⌊x⌋ - 24) = 2 ^ x := by
    rw [← Real.rpow_intCast, ← Real.rpow_add two_pos, sub_add_cancel]
  have hlo : (2 : ℝ) ^ (24 : Nat) ≤ 2 ^ (x - ((⌊x⌋ - 24 : Int) : ℝ)) := by
    rw [← Real.rpow_natCast]
    refine Real.rpow_le_rpow_of_exponent_le one_le_two ?_
    push_cast
    linarith [Int.floor_le x]
  have hhi : (2 : ℝ) ^ (x - ((⌊x⌋ - 24 : Int) : ℝ)) < 2 ^ (25 : Nat) := by
    rw [← Real.rpow_natCast]
    refine Real.rpow_lt_rpow_of_exponent_lt one_lt_two ?_
    push_cast
    linarith [Int.lt_floor_add_one x]
  refine ⟨⌊(2 : ℝ) ^ (x - ((⌊x⌋ - 24 : Int) : ℝ))⌋₊, decide ((⌊(2 : ℝ) ^ (x - ((⌊x⌋ - 24 : Int) : ℝ))⌋₊ : ℝ) ≠ 2 ^ (x - ((⌊x⌋ - 24 : Int) : ℝ))), _,
    Nat.le_floor (by exact_mod_cast hlo), ?_, Nat.floor_le (by positivity), Nat.lt_floor_add_one _, by simp, hw⟩
  rw [Nat.floor_lt (by positivity)]
  exact_mod_cast hhi
theorem expOf_of_digits {m : Nat} (hlo : 2 ^ 24 ≤ m) (hhi : m < 2 ^ 25) (z : Int) : expOf m (z - 24) = z := by
  have hm : m ≠ 0 := by rintro rfl; simp at hlo
  have : m.log2 = 24 := (Nat.log2_eq_iff hm).2 ⟨hlo, hhi⟩
  rw [expOf, this]
  omega
/-- With a sticky bit set the result raises nx. -/
theorem arithRes_inexact (f : Fmt) (ctl : BitVec 10) (rm : Rm) (neg : Bool) (m : Nat) (e : Int) : (arithRes f ctl rm neg m e true).fl &&& 0x001 = 0x001 := by
  have key : ∀ fl : Flags, fl &&& 0x001 = 0x001 → ∀ nf : Bool, (fl ||| flagIf nf flagNf) &&& 0x001 = 0x001 := by decide +kernel
  exact key _ (roundNum_inexact ..) _
theorem exp2_overflow (ctl : BitVec 10) (rm : Rm) {x : ℝ} (hx : 128 ≤ x) :
    let r := arithRes .f32 ctl rm false 1 2000 false
    Rounded .f32 (resultFlush ctl .f32) rm (2 ^ x) (r.bits, r.fl) ∧ r.fl &&& 0x001 = 0x001 := by
  obtain ⟨m, st, w, hlo, hhi, hle, hlt, hst, hw⟩ := rpow_floor x
  have hm : m ≠ 0 := by rintro rfl; simp at hlo
  have hfloor : (128 : Int) ≤ ⌊x⌋ := Int.le_floor.2 (by exact_mod_cast hx)
  have hsame : arithRes .f32 ctl rm false 1 2000 false = arithRes .f32 ctl rm false m (⌊x⌋ - 24) st := by
    rw [arithRes, arithRes, roundNum_overflow _ _ one_ne_zero (by decide), roundNum_overflow _ _ hm (by rwa [expOf_of_digits hlo hhi])]
  refine ⟨?_, ?_⟩
  · rw [hsame, ← hw]
    exact arithRes_floor (neg := false) hle hlt hst hlo
  · rw [arithRes, roundNum_overflow _ _ one_ne_zero (by decide)]
    cases rm <;> rfl
theorem exp2_underflow (ctl : BitVec 10) (rm : Rm) {x : ℝ} (hx : x < -152) :
    let r := arithRes .f32 ctl rm false 1 (-2000) true
    Rounded .f32 (resultFlush ctl .f32) rm (2 ^ x) (r.bits, r.fl) ∧ r.fl &&& 0x001 = 0x001 := by
  obtain ⟨m, st, w, hlo, hhi, hle, hlt, hst, hw⟩ := rpow_floor x
  have hm : m ≠ 0 := by rintro rfl; simp at hlo
  have hfloor : ⌊x⌋ < -152 := Int.floor_lt.2 (by exact_mod_cast hx)
  have hone : roundNum .f32 (resultFlush ctl .f32) rm false 1 (-2000) true = (if rm = .rup ∧ resultFlush ctl .f32 = false then 1 else 0, 0x003) := by
    obtain ⟨s, hs, hpos⟩ : ∃ s : Nat, (-2000 : Int) = -150 - s ∧ s ≠ 0 := ⟨1850, rfl, by decide⟩
    exact roundNum_underflow _ _ one_ne_zero (Nat.one_lt_two_pow hpos) hs _
  obtain ⟨s, hs⟩ : ∃ s : Nat, ⌊x⌋ - 24 = -150 - s := ⟨(-126 - ⌊x⌋).toNat, by omega⟩
  have hsame : arithRes .f32 ctl rm false 1 (-2000) true = arithRes .f32 ctl rm false m (⌊x⌋ - 24) st := by
    rw [arithRes, arithRes, hone,
      roundNum_underflow _ _ hm (hhi.trans_le (Nat.pow_le_pow_right two_pos (by omega))) hs]
  refine ⟨?_, arithRes_inexact ..⟩
  rw [hsame, ← hw]
  exact arithRes_floor (neg := false) hle hlt hst hlo

-- The value of an exponent in fixed point ------------------------------------------------------------------------------------------------

/-- The numbers FP32 holds, as far as the fixed-point arithmetic needs it. -/
def Single (x : FVal) : Prop := ∀ p m e, x = .num p m e → m < 2 ^ 24 ∧ -149 ≤ e ∧ e ≤ 104
theorem operand_single (ctl : BitVec 10) (b : Nat) : Single (operand .f32 ctl b).1 := by
  intro p m e h
  have hfr : bitsAt b 0 Fmt.f32.frac < 2 ^ 23 := Nat.mod_lt _ (by decide)
  have hexpo : bitsAt b Fmt.f32.frac Fmt.f32.expo < 2 ^ 8 := Nat.mod_lt _ (by decide)
  rw [operand_fst] at h
  split at h
  · cases h
    decide
  · simp only [valueOf, Fmt.bias, reduceCtorEq, if_false] at h
    split_ifs at h <;> cases h
    · exact ⟨by omega, by decide, by decide⟩
    next hexp _ =>
      simp only [Fmt.frac, Fmt.expo] at *
      exact ⟨by omega, by omega, by omega⟩
/-- A magnitude in fixed point is exact: its whole part and its fraction. -/
theorem fixed_split (m : Nat) {e : Int} (he : 0 ≤ e + fixBits) :
    let mag := m * 2 ^ (e + fixBits).toNat
    (m : ℝ) * 2 ^ e = (mag / 2 ^ fixBits : Nat) + (mag % 2 ^ fixBits : Nat) / 2 ^ fixBits := by
  intro mag
  have hF : (2 : ℝ) ^ fixBits ≠ 0 := by positivity
  have hmag : (m : ℝ) * 2 ^ e * 2 ^ fixBits = mag := by
    have := align_value m (e := e) (g := -fixBits) (by omega)
    rw [sub_neg_eq_add, zpow_neg, zpow_natCast] at this
    rw [← this, inv_mul_cancel_right₀ hF]
  have hdiv : (mag : ℝ) = 2 ^ fixBits * (mag / 2 ^ fixBits : Nat) + (mag % 2 ^ fixBits : Nat) := by exact_mod_cast (Nat.div_add_mod mag _).symm
  rw [← mul_left_inj' hF, hmag, hdiv, add_mul, div_mul_cancel₀ _ hF, mul_comm]
/-- A whole number and a fraction between 0 and 1 is not whole, nor is its opposite. -/
theorem not_whole_of_fraction {z : Int} {u : ℝ} (h0 : 0 < u) (h1 : u < 1) : ¬ Whole (z + u) := by
  rintro ⟨n, hn⟩
  have hlo : (z : ℝ) < n := by linarith
  have hhi : (n : ℝ) < z + 1 := by linarith
  have hlo' : z < n := by exact_mod_cast hlo
  have hhi' : n < z + 1 := by exact_mod_cast hhi
  omega
/-- The rounded power of a whole number and a fraction. -/
theorem exp2_fraction (ctl : BitVec 10) (rm : Rm) (z : Int) {fr : Nat} (h : fr < 2 ^ fixBits) :
    let x : ℝ := z + fr / 2 ^ fixBits
    let r := arithRes .f32 ctl rm false (exp2Frac fr) (z - fixBits) true
    r.fl &&& 0x001 = 0x001 ∧ ∃ v : ℝ, |v - 2 ^ x| ≤ 2 ^ x / 2 ^ 200 ∧ Rounded .f32 (resultFlush ctl .f32) rm v (r.bits, r.fl) := by
  intro x r
  have hF : (0 : ℝ) < 2 ^ fixBits := by positivity
  have hpow : (2 : ℝ) ^ x = 2 ^ ((fr : ℝ) / 2 ^ fixBits) * 2 ^ z := by
    rw [show x = fr / 2 ^ fixBits + z from add_comm .., Real.rpow_add two_pos, Real.rpow_intCast]
  have hone : (1 : ℝ) ≤ 2 ^ ((fr : ℝ) / 2 ^ fixBits) := Real.one_le_rpow one_le_two (by positivity)
  have hnear := exp2Frac_near h
  have hunit : (2 : ℝ) ^ 14 * 2 ^ 200 ≤ 2 ^ fixBits := by
    rw [← pow_add]
    exact pow_le_pow_right₀ one_le_two (by decide)
  have hbig : 2 ^ 24 ≤ exp2Frac fr := (Nat.pow_le_pow_right two_pos (by decide)).trans (exp2Frac_ge fr)
  subst r
  generalize exp2Frac fr = y at *
  refine ⟨arithRes_inexact .., _, ?_, arithRes_floor (neg := false) (v := y + 1 / 2) (by linarith) (by linarith) (by simp) hbig⟩
  rw [ofSign_false, hpow, zpow_sub₀ two_ne_zero, zpow_natCast]
  generalize (2 : ℝ) ^ ((fr : ℝ) / 2 ^ fixBits) = w at *
  generalize (y : ℝ) = y at *
  generalize (2 : ℝ) ^ fixBits = F at *
  have hz : (0 : ℝ) < 2 ^ z := by positivity
  have hsplit : (y + 1 / 2) * (2 ^ z / F) - w * 2 ^ z = (y + 1 / 2 - F * w) / F * 2 ^ z := by field_simp
  rw [hsplit, abs_mul, abs_of_pos hz, mul_div_right_comm]
  gcongr
  rw [abs_div, abs_of_pos hF, div_le_div_iff₀ hF (by positivity)]
  have : |y + 1 / 2 - F * w| ≤ 2 ^ 14 := by
    rw [abs_le] at hnear ⊢
    constructor <;> linarith
  calc |y + 1 / 2 - F * w| * 2 ^ 200 ≤ 2 ^ 14 * 2 ^ 200 := by gcongr
    _ ≤ 1 * F := by rwa [one_mul]
    _ ≤ w * F := by gcongr

-- 2^x (spec/05 R116) -------------------------------------------------------------------------------------------------------------------------

theorem fExp2_own (ctl : BitVec 10) (rm : Rm) (x : FVal) : Own .f32 (fExp2 ctl rm x) := by
  unfold fExp2
  split
  · exact nanRes_own _
  · exact infRes_own ..
  · exact zero_own .f32 false
  · dsimp only
    split_ifs <;> exact arithRes_own ..
section
variable {p : Bool} {m : Nat} {e : Int}
theorem isExp2_whole (ctl : BitVec 10) (rm : Rm) {z : Int} (hz : real (.num p m e) = z) :
    let r := arithRes .f32 ctl rm false 1 z false
    IsExp2 (resultFlush ctl .f32) rm (.num p m e) (r.bits, r.fl) := by
  refine ⟨fun _ => ?_, fun h => absurd ⟨z, hz⟩ h⟩
  have := arithRes_num (f := .f32) (ctl := ctl) (rm := rm) (neg := false) (e := z) one_ne_zero
  rwa [real_num, ofSign_false, Nat.cast_one, one_mul, ← Real.rpow_intCast, ← hz] at this
/-- A power rounded exactly once, past the range of the format. -/
theorem isExp2_past {flush : Bool} {rm : Rm} {r : Res}
    (hr : Rounded .f32 flush rm (2 ^ real (.num p m e)) (r.bits, r.fl) ∧ r.fl &&& 0x001 = 0x001) : IsExp2 flush rm (.num p m e) (r.bits, r.fl) :=
  ⟨fun _ => hr.1, fun _ => ⟨hr.2, _, by rw [sub_self, abs_zero]; positivity, hr.1⟩⟩
theorem isExp2_inexact {flush : Bool} {rm : Rm} {r : Res} (hnot : ¬ Whole (real (.num p m e))) (hnx : r.fl &&& 0x001 = 0x001)
    {v : ℝ} (hv : |v - 2 ^ real (.num p m e)| ≤ 2 ^ real (.num p m e) / 2 ^ 200) (hr : Rounded .f32 flush rm v (r.bits, r.fl)) :
    IsExp2 flush rm (.num p m e) (r.bits, r.fl) :=
  ⟨fun h => absurd h hnot, fun _ => ⟨hnx, v, hv, hr⟩⟩
theorem isExp2_fraction (ctl : BitVec 10) (rm : Rm) {z : Int} {fr : Nat} (h0 : 0 < fr) (h1 : fr < 2 ^ fixBits)
    (hz : real (.num p m e) = z + fr / 2 ^ fixBits) :
    let r := arithRes .f32 ctl rm false (exp2Frac fr) (z - fixBits) true
    IsExp2 (resultFlush ctl .f32) rm (.num p m e) (r.bits, r.fl) := by
  have hF : (0 : ℝ) < 2 ^ fixBits := by positivity
  have hnot : ¬ Whole (real (.num p m e)) := by
    rw [hz]
    refine not_whole_of_fraction (by positivity) ?_
    rw [div_lt_one hF]
    exact_mod_cast h1
  obtain ⟨hnx, v, hv, hr⟩ := exp2_fraction ctl rm z h1
  rw [← hz] at hv
  exact isExp2_inexact hnot hnx hv hr
end
theorem fExp2_isExp2 (ctl : BitVec 10) (rm : Rm) {x : FVal} (hx : Single x) :
    let r := fExp2 ctl rm x
    IsExp2 (resultFlush ctl .f32) rm x (r.bits, r.fl) := by
  cases x with
  | nan q => rfl
  | inf p => cases p <;> rfl
  | num p m e =>
    obtain ⟨-, he, -⟩ := hx p m e rfl
    have hfix : 0 ≤ e + fixBits := by simp only [fixBits]; omega
    simp only [fExp2, hfix, if_true, decide_true, Bool.and_true, Bool.or_false, decide_eq_true_eq]
    by_cases hm : m = 0
    · rw [if_pos hm]
      exact isExp2_whole ctl rm (z := 0) (by rw [real_eq_zero.2 hm, Int.cast_zero])
    rw [if_neg hm]
    by_cases hbig : 10 ≤ expOf m e
    · have hmag : (2 : ℝ) ^ 10 ≤ m * 2 ^ e := (expOf_le e hm).trans' (by exact_mod_cast zpow_le_zpow_right₀ (one_le_two (α := ℝ)) hbig)
      rw [if_pos hbig]
      cases p
      · simp only [Bool.false_eq_true, if_false]
        exact isExp2_past (exp2_overflow ctl rm (by rw [real_num, ofSign_false]; linarith))
      · simp only [if_true]
        exact isExp2_past (exp2_underflow ctl rm (by rw [real_num, ofSign_true]; linarith))
    rw [if_neg hbig]
    have hsplit := fixed_split m hfix
    have hlt : m * 2 ^ (e + fixBits).toNat % 2 ^ fixBits < 2 ^ fixBits := Nat.mod_lt _ (by positivity)
    dsimp only at hsplit
    generalize m * 2 ^ (e + fixBits).toNat / 2 ^ fixBits = ip at *
    generalize m * 2 ^ (e + fixBits).toNat % 2 ^ fixBits = fr at *
    by_cases hfr : fr = 0
    · rw [if_pos hfr]
      refine isExp2_whole ctl rm ?_
      rw [real_num, hsplit, hfr]
      cases p <;> simp
    rw [if_neg hfr, if_neg hfr]
    cases p
    · simp only [Bool.false_eq_true, if_false]
      exact isExp2_fraction ctl rm (z := ip) (by omega) hlt (by rw [real_num, hsplit, ofSign_false, Int.cast_natCast])
    · simp only [if_true]
      refine isExp2_fraction ctl rm (z := -(ip + 1)) (by omega) (by omega) ?_
      rw [real_num, hsplit, ofSign_true, Nat.cast_sub hlt.le]
      push_cast
      field_simp
      ring
end Sys2Proof.Claims
end

section
/-!
PROOFS. The binary logarithm (spec/05 R116): exact for powers of two; else the bits found by repeated squaring lie within 2^-100 of it,
and are rounded once with a sticky bit (log 14).
-/
namespace Sys2Proof.Claims
open Machine

-- The bits of a logarithm ------------------------------------------------------------------------------------------------------------------

/-- The binary logarithm of a number from 1 to 2 in fixed point. -/
noncomputable def fixedLog (y : Nat) : ℝ := Real.logb 2 (y / 2 ^ fixBits)
/-- A number and a rounded one within 2 units of 2^fixBits above it: their logarithms. -/
theorem logb_near {a w : ℝ} (hw : 2 ^ fixBits ≤ w) (h0 : w ≤ a) (h1 : a < w + 1) :
    Real.logb 2 (w / 2 ^ fixBits) ≤ Real.logb 2 (a / 2 ^ fixBits) ∧ Real.logb 2 (a / 2 ^ fixBits) ≤ Real.logb 2 (w / 2 ^ fixBits) + 2 / 2 ^ fixBits := by
  have hF : (0 : ℝ) < 2 ^ fixBits := by positivity
  have hwpos : 0 < w := hF.trans_le hw
  have hapos : 0 < a := hwpos.trans_le h0
  have hlog := Real.log_two_gt_d9
  refine ⟨Real.logb_le_logb_of_le one_lt_two (by positivity) (by gcongr), ?_⟩
  rw [← sub_le_iff_le_add', ← Real.logb_div (by positivity) (by positivity), div_div_div_cancel_right₀ hF.ne', Real.logb, div_le_iff₀ (by linarith)]
  have hratio : a / w - 1 ≤ 1 / 2 ^ fixBits := by
    rw [div_sub_one hwpos.ne', div_le_div_iff₀ hwpos hF]
    nlinarith
  have := Real.log_le_sub_one_of_pos (div_pos hapos hwpos)
  have hpos : 0 < 1 / (2 : ℝ) ^ fixBits := by positivity
  rw [show (2 : ℝ) / 2 ^ fixBits = 2 * (1 / 2 ^ fixBits) by ring]
  nlinarith
/-- The logarithm of a square. -/
theorem fixedLog_sq (y : Nat) : Real.logb 2 ((y * y / 2 ^ fixBits : ℝ) / 2 ^ fixBits) = 2 * fixedLog y := by
  rw [fixedLog, show (y * y / 2 ^ fixBits : ℝ) / 2 ^ fixBits = (y / 2 ^ fixBits) ^ 2 by ring, Real.logb_pow]
  norm_num
theorem fixedLog_half {a : ℝ} (ha : 0 < a) : Real.logb 2 (a / 2 / 2 ^ fixBits) = Real.logb 2 (a / 2 ^ fixBits) - 1 := by
  rw [div_right_comm, Real.logb_div (by positivity) two_ne_zero, Real.logb_self_eq_one one_lt_two]
theorem fixedLog_range {y : Nat} (hlo : 2 ^ fixBits ≤ y) (hhi : y < 2 ^ (fixBits + 1)) : 0 ≤ fixedLog y ∧ fixedLog y < 1 := by
  have hF : (0 : ℝ) < 2 ^ fixBits := by positivity
  have hlo' : (2 : ℝ) ^ fixBits ≤ y := by exact_mod_cast hlo
  have hhi' : (y : ℝ) < 2 ^ fixBits * 2 := by
    rw [pow_succ] at hhi
    exact_mod_cast hhi
  refine ⟨Real.logb_nonneg one_lt_two ((one_le_div hF).2 hlo'), ?_⟩
  rw [fixedLog, ← Real.logb_self_eq_one one_lt_two]
  refine Real.logb_lt_logb one_lt_two (div_pos (hF.trans_le hlo') hF) ?_
  rw [div_lt_iff₀ hF]
  linarith
/-- One squaring: the next bit of the logarithm and the number whose logarithm is the rest. -/
theorem log2Bits_succ {n y acc : Nat} (hlo : 2 ^ fixBits ≤ y) (hhi : y < 2 ^ (fixBits + 1)) :
    ∃ w b : Nat, log2Bits (n + 1) y acc = log2Bits n w (2 * acc + b) ∧ 2 ^ fixBits ≤ w ∧ w < 2 ^ (fixBits + 1) ∧
      fixedLog w + b ≤ 2 * fixedLog y ∧ 2 * fixedLog y ≤ fixedLog w + b + 2 / 2 ^ fixBits := by
  obtain ⟨z, hz⟩ : ∃ z, z = y * y / 2 ^ fixBits := ⟨_, rfl⟩
  obtain ⟨zlo, zhi, -⟩ := natDiv_floor (y * y) (b := 2 ^ fixBits) (by positivity)
  rw [← hz] at zlo zhi
  have hge : 2 ^ fixBits ≤ z := by
    rw [hz, Nat.le_div_iff_mul_le (by positivity)]
    exact Nat.mul_le_mul hlo hlo
  have hlt : z < 2 ^ (fixBits + 1) * 2 := by
    rw [hz, Nat.div_lt_iff_lt_mul (by positivity)]
    calc y * y < 2 ^ (fixBits + 1) * 2 ^ (fixBits + 1) := Nat.mul_lt_mul'' hhi hhi
      _ = 2 ^ (fixBits + 1) * 2 * 2 ^ fixBits := by rw [pow_succ]; ring
  have hgeR : (2 : ℝ) ^ fixBits ≤ z := by exact_mod_cast hge
  push_cast at zlo zhi
  rw [log2Bits, ← hz]
  split
  next hsmall =>
    obtain ⟨lo, hi⟩ := logb_near hgeR zlo zhi
    rw [fixedLog_sq] at lo hi
    exact ⟨z, 0, rfl, hge, hsmall, by simpa [fixedLog] using lo, by simpa [fixedLog] using hi⟩
  next hbig =>
    have hhalf : 2 ^ fixBits ≤ z / 2 := by
      rw [pow_succ] at hbig
      omega
    have hhalfR : (2 : ℝ) ^ fixBits ≤ (z / 2 : Nat) := by exact_mod_cast hhalf
    obtain ⟨r, hr, hsplit⟩ : ∃ r : Nat, r ≤ 1 ∧ z = 2 * (z / 2) + r := ⟨z % 2, by omega, by omega⟩
    have hsplitR : (z : ℝ) = 2 * (z / 2 : Nat) + r := by exact_mod_cast hsplit
    have hrR : (r : ℝ) ≤ 1 := by exact_mod_cast hr
    have hr0 : (0 : ℝ) ≤ r := r.cast_nonneg
    obtain ⟨lo, hi⟩ := logb_near (a := y * y / 2 ^ fixBits / 2) hhalfR (by linarith) (by linarith)
    have hpos : (0 : ℝ) < y * y / 2 ^ fixBits := by
      have : (0 : ℝ) < 2 ^ fixBits := by positivity
      linarith
    rw [fixedLog_half hpos, fixedLog_sq, ← fixedLog] at lo hi
    refine ⟨z / 2, 1, rfl, hhalf, by omega, ?_, ?_⟩
    · push_cast
      linarith
    · push_cast
      linarith
/-- The bits lie within one unit below the logarithm, and what the squares lost. -/
theorem log2Bits_near {n y acc : Nat} (hlo : 2 ^ fixBits ≤ y) (hhi : y < 2 ^ (fixBits + 1)) :
    (log2Bits n y acc : ℝ) ≤ 2 ^ n * (acc + fixedLog y) ∧ 2 ^ n * (acc + fixedLog y) ≤ log2Bits n y acc + 1 + 2 ^ n * (2 / 2 ^ fixBits) := by
  have hpos : 0 < 2 / (2 : ℝ) ^ fixBits := by positivity
  induction n generalizing y acc with
  | zero =>
    obtain ⟨h0, h1⟩ := fixedLog_range hlo hhi
    rw [log2Bits]
    constructor <;> linarith
  | succ n ih =>
    obtain ⟨w, b, hbits, hwlo, hwhi, lo, hi⟩ := log2Bits_succ (n := n) (acc := acc) hlo hhi
    obtain ⟨ilo, ihi⟩ := ih (acc := 2 * acc + b) hwlo hwhi
    have hn : (0 : ℝ) < 2 ^ n := by positivity
    have hlo' := mul_le_mul_of_nonneg_left lo hn.le
    have hhi' := mul_le_mul_of_nonneg_left hi hn.le
    rw [hbits, pow_succ]
    push_cast at ilo ihi
    constructor <;> nlinarith

-- Numbers that are no power of two -------------------------------------------------------------------------------------------------------

/-- A binary logarithm is greater than the natural one. -/
theorem abs_log_le_abs_logb (y : ℝ) : |Real.log y| ≤ |Real.logb 2 y| := by
  have hlo := Real.log_two_gt_d9
  have hhi := Real.log_two_lt_d9
  rw [Real.logb, abs_div, abs_of_pos (by linarith : 0 < Real.log 2), le_div_iff₀ (by linarith)]
  nlinarith [abs_nonneg (Real.log y)]
/-- The logarithm of a number above 1, or below it, that is not near it. -/
theorem le_abs_log {y δ : ℝ} (hy : 0 < y) (h : δ * y ≤ y - 1 ∨ δ ≤ 1 - y) : δ ≤ |Real.log y| := by
  obtain h | h := h
  · refine le_abs.2 (.inl ((Real.one_sub_inv_le_log_of_pos hy).trans' ?_))
    rw [← mul_le_mul_iff_of_pos_right hy, sub_mul, inv_mul_cancel₀ hy.ne', one_mul]
    exact h
  · exact le_abs.2 (.inr (by linarith [Real.log_le_sub_one_of_pos hy]))
/-- A number of 24 digits that is not 1 lies 2^-24 or more from 1, and so does its logarithm from 0. -/
theorem logb_away {m : Nat} {e : Int} (h0 : m ≠ 0) (hm : m < 2 ^ 24) (hne : (m : ℝ) * 2 ^ e ≠ 1) : 1 / 2 ^ 24 ≤ |Real.logb 2 (m * 2 ^ e)| := by
  refine le_trans (le_abs_log (by positivity) ?_) (abs_log_le_abs_logb _)
  have hmR : (m : ℝ) < 2 ^ 24 := by exact_mod_cast hm
  obtain ⟨k, rfl | rfl⟩ := e.eq_nat_or_neg
  · have hnat : (m : ℝ) * 2 ^ (k : Int) = (m * 2 ^ k : Nat) := by push_cast; rfl
    rw [hnat] at hne ⊢
    have : 2 ≤ m * 2 ^ k := by
      have : m * 2 ^ k ≠ 1 := by exact_mod_cast hne
      have : 0 < m * 2 ^ k := by positivity
      omega
    have : (2 : ℝ) ≤ (m * 2 ^ k : Nat) := by exact_mod_cast this
    exact .inl (by linarith)
  · have hK : (0 : ℝ) < 2 ^ k := by positivity
    rw [zpow_neg, zpow_natCast, ← div_eq_mul_inv] at hne ⊢
    have hne' : (m : ℝ) ≠ 2 ^ k := fun h => hne (by rw [h, div_self hK.ne'])
    obtain hlt | hgt := lt_or_gt_of_ne hne'
    · refine .inr ?_
      rw [one_sub_div hK.ne', div_le_div_iff₀ (by positivity) hK, one_mul]
      have hstep : (m : ℝ) + 1 ≤ 2 ^ k := by exact_mod_cast hlt
      obtain hk | hk := le_or_gt k 24
      · have : (2 : ℝ) ^ k ≤ 2 ^ 24 := pow_le_pow_right₀ one_le_two hk
        nlinarith
      · have : (2 : ℝ) ^ 25 ≤ 2 ^ k := pow_le_pow_right₀ one_le_two hk
        nlinarith
    · refine .inl ?_
      rw [div_sub_one hK.ne', ← mul_div_assoc, div_le_div_iff_of_pos_right hK, div_mul_eq_mul_div, one_mul, div_le_iff₀ (by positivity)]
      have hstep : (2 : ℝ) ^ k + 1 ≤ m := by exact_mod_cast hgt
      nlinarith
/-- A number of digits 2^k is a power of two, and no other is. -/
theorem eq_two_zpow_iff {m : Nat} (h0 : m ≠ 0) (e z : Int) : (m : ℝ) * 2 ^ e = 2 ^ z ↔ m = 2 ^ m.log2 ∧ z = expOf m e := by
  constructor
  · intro h
    have hlo := expOf_le e h0
    have hhi := lt_expOf (m := m) e (θ := 0) one_pos
    rw [add_zero, h] at hhi
    rw [h] at hlo
    have hlo' := (zpow_le_zpow_iff_right₀ (one_lt_two (α := ℝ))).1 hlo
    have hhi' := (zpow_lt_zpow_iff_right₀ (one_lt_two (α := ℝ))).1 hhi
    have hz : z = expOf m e := by omega
    refine ⟨?_, hz⟩
    rw [hz, expOf, zpow_add₀ two_ne_zero, zpow_natCast, mul_left_inj' (by positivity)] at h
    exact_mod_cast h
  · rintro ⟨hm, rfl⟩
    rw [expOf, zpow_add₀ two_ne_zero, zpow_natCast]
    congr 1
    exact_mod_cast hm

/-- A number's logarithm: its exponent and that of its digits, as a number from 1 to 2. -/
theorem logb_fixed {m : Nat} (hm : m ≠ 0) (hlog : m.log2 ≤ 24) (e : Int) :
    let y := m * 2 ^ (fixBits - m.log2)
    2 ^ fixBits ≤ y ∧ y < 2 ^ (fixBits + 1) ∧ Real.logb 2 (m * 2 ^ e) = expOf m e + fixedLog y := by
  intro y
  have hle : m.log2 ≤ fixBits := hlog.trans (by decide)
  have hpow : 2 ^ fixBits = 2 ^ m.log2 * 2 ^ (fixBits - m.log2) := by rw [← pow_add, Nat.add_sub_cancel' hle]
  refine ⟨?_, ?_, ?_⟩
  · rw [hpow]
    exact Nat.mul_le_mul_right _ (Nat.log2_self_le hm)
  · rw [pow_succ, hpow, mul_right_comm, ← pow_succ]
    exact Nat.mul_lt_mul_of_pos_right Nat.lt_log2_self (by positivity)
  · have hy : (y : ℝ) / 2 ^ fixBits = m * 2 ^ (-(m.log2 : Int)) := by
      have : (2 : ℝ) ^ fixBits = 2 ^ m.log2 * 2 ^ (fixBits - m.log2) := by exact_mod_cast hpow
      rw [this, zpow_neg, zpow_natCast]
      push_cast [y]
      field_simp
    have hpos : (0 : ℝ) < m * 2 ^ (-(m.log2 : Int)) := by positivity
    rw [fixedLog, hy, show (m : ℝ) * 2 ^ e = 2 ^ expOf m e * (m * 2 ^ (-(m.log2 : Int))) by
      rw [mul_left_comm, ← zpow_add₀ two_ne_zero, expOf, add_neg_cancel_comm], Real.logb_mul (by positivity) hpos.ne', ← Real.rpow_intCast,
      Real.logb_rpow two_pos (by norm_num)]

-- log2 x (spec/05 R116) ---------------------------------------------------------------------------------------------------------------------

/-- What a grid holds is chosen as it is. -/
theorem Chooses.eq_self {grid even : ℝ → Prop} {rm : Rm} {x y : ℝ} (hx : grid x) (h : Chooses grid even rm x y) : y = x := by
  obtain ⟨-, h⟩ := h
  cases rm
  · have := h.1 x hx
    rw [sub_self, abs_zero] at this
    exact (sub_eq_zero.1 (abs_nonpos_iff.1 this)).symm
  · obtain ⟨hle, hsign, hge⟩ := h
    have habs := le_antisymm hle (hge x hx le_rfl)
    obtain heq | hneg := abs_eq_abs.1 habs
    · exact heq
    · rw [hneg] at hsign ⊢
      nlinarith
  · exact le_antisymm h.1 (h.2 x hx le_rfl)
  · exact le_antisymm (h.2 x hx le_rfl) h.1
/-- A small whole number is a number of FP32. -/
theorem roundsTo_small {flush : Bool} {rm : Rm} {z : Int} (h0 : z ≠ 0) (hz : |z| ≤ 2 ^ 8) {b : Nat} {fl : Flags}
    (h : RoundsTo .f32 flush rm z b fl) : real (valueOf .f32 b) = z ∧ nonFinite .f32 b = false ∧ fl = 0 := by
  obtain ⟨y, neg, fl0, hy, hfl, -, -, -, hkeep⟩ := h
  have hgrid : OnGrid .f32 z := ⟨z.natAbs, 0, by have := abs_le.1 hz; simp only [Fmt.frac]; omega, by decide, by simp [Nat.cast_natAbs]⟩
  obtain rfl := hy.eq_self hgrid
  have hone : (1 : ℝ) ≤ |(z : ℝ)| := by exact_mod_cast Int.one_le_abs h0
  have hle : |(z : ℝ)| ≤ 2 ^ 8 := by exact_mod_cast hz
  have hgreat : |(z : ℝ)| ≤ greatest .f32 := by
    have : greatest .f32 = (16777215 : Nat) * 2 ^ (104 : Int) := greatest_eq .f32
    rw [this]
    norm_num at hle ⊢
    linarith
  have hsmall : smallestNormal .f32 ≤ |(z : ℝ)| := hone.trans' (zpow_le_one_of_nonpos₀ one_le_two (by decide))
  obtain ⟨hval, -, -, hnf, rfl⟩ := hkeep hgreat (.inr (.inr hsmall))
  exact ⟨hval, hnf, hfl.1 rfl⟩
theorem fLog2_own (ctl : BitVec 10) (rm : Rm) (x : FVal) : Own .f32 (fLog2 ctl rm x) := by
  unfold fLog2
  split
  · exact nanRes_own _
  · exact infRes_own ..
  · exact invalidRes_own _
  · dsimp only
    split_ifs
    · exact divZeroRes_own ..
    · exact invalidRes_own _
    all_goals exact arithRes_own ..
/-- The logarithm of a power of two. -/
theorem log2_exact (ctl : BitVec 10) (rm : Rm) {z : Int} (hz : |z| ≤ 2 ^ 8) :
    let r := arithRes .f32 ctl rm (decide (z < 0)) z.natAbs 0 false
    real (valueOf .f32 r.bits) = z ∧ notNan (valueOf .f32 r.bits) ∧ r.fl = 0 ∧ (z = 0 → r.bits = 0) := by
  by_cases h0 : z = 0
  · subst h0
    rw [show decide ((0 : Int) < 0) = false from rfl, Int.natAbs_zero, arithRes_zero]
    dsimp only
    rw [valueOf_zero, real_eq_zero.2 rfl]
    exact ⟨by simp, trivial, rfl, fun _ => rfl⟩
  · obtain ⟨fl, hr, hfl⟩ := arithRes_num (f := .f32) (ctl := ctl) (rm := rm) (neg := decide (z < 0)) (e := 0) (Int.natAbs_ne_zero.2 h0)
    have hval : real (.num (decide (z < 0)) z.natAbs 0) = z := by rw [real_ofInt, zpow_zero, mul_one]
    rw [hval] at hr
    obtain ⟨hv, hnf, rfl⟩ := roundsTo_small h0 hz hr
    rw [hnf] at hfl
    exact ⟨hv, notNan_of_finite hnf, hfl, fun h => absurd h h0⟩
/-- The logarithm of any other number, rounded from its bits. -/
theorem log2_inexact (ctl : BitVec 10) (rm : Rm) {x : ℝ} {v : Int} (hlo : v ≤ 2 ^ 120 * x) (hhi : 2 ^ 120 * x ≤ v + 2) (haway : 1 / 2 ^ 24 ≤ |x|) :
    let r := if 0 ≤ v then arithRes .f32 ctl rm false v.toNat (-120) true else arithRes .f32 ctl rm true ((-v).toNat - 1) (-120) true
    r.fl &&& 0x001 = 0x001 ∧ ∃ u : ℝ, |u - x| ≤ 1 / 2 ^ 100 ∧ Rounded .f32 (resultFlush ctl .f32) rm u (r.bits, r.fl) := by
  have hpow : (2 : ℝ) ^ (-120 : Int) = 1 / 2 ^ 120 := by rw [zpow_neg, one_div]; rfl
  have hnear : |(v + 1 / 2 : ℝ) * (1 / 2 ^ 120) - x| ≤ 1 / 2 ^ 100 := by
    rw [abs_le]
    constructor <;> linarith
  dsimp only
  split
  next hv =>
    obtain ⟨q, rfl⟩ := Int.eq_ofNat_of_zero_le hv
    have hx : 0 ≤ x := by
      by_contra hneg
      push Not at hneg
      rw [abs_of_neg hneg] at haway
      push_cast at hlo
      linarith [q.cast_nonneg (α := ℝ)]
    have hbig : 2 ^ 24 ≤ q := by
      rw [abs_of_nonneg hx] at haway
      have : (2 : ℝ) ^ 24 ≤ q := by
        push_cast at hhi
        linarith
      exact_mod_cast this
    refine ⟨arithRes_inexact .., _, ?_, arithRes_floor (neg := false) (q := q) (v := q + 1 / 2) (by linarith) (by linarith) (by simp) hbig⟩
    rw [ofSign_false, hpow]
    exact hnear
  next hv =>
    obtain ⟨q, hq, rfl⟩ : ∃ q : Nat, (-v).toNat - 1 = q ∧ v = -(q + 1) := ⟨_, rfl, by omega⟩
    push_cast at hlo hhi hnear
    have hx : x < 0 := by
      by_contra hpos
      push Not at hpos
      rw [abs_of_nonneg hpos] at haway
      linarith [q.cast_nonneg (α := ℝ)]
    have hbig : 2 ^ 24 ≤ q := by
      rw [abs_of_neg hx] at haway
      have : (2 : ℝ) ^ 24 ≤ q := by linarith
      exact_mod_cast this
    rw [hq]
    refine ⟨arithRes_inexact .., _, ?_, arithRes_floor (neg := true) (q := q) (v := q + 1 / 2) (by linarith) (by linarith) (by simp) hbig⟩
    rw [ofSign_true, hpow]
    rw [abs_le] at hnear ⊢
    constructor <;> linarith
theorem fLog2_isLog2 (ctl : BitVec 10) (rm : Rm) {x : FVal} (hx : Single x) :
    let r := fLog2 ctl rm x
    IsLog2 (resultFlush ctl .f32) rm x (r.bits, r.fl) := by
  cases x with
  | nan q => rfl
  | inf p => cases p <;> rfl
  | num p m e =>
    obtain ⟨hdigits, hlo, hhi⟩ := hx p m e rfl
    simp only [fLog2, IsLog2]
    by_cases hm : m = 0
    · simp only [hm, if_true]
      rfl
    simp only [hm, if_false]
    cases p
    case true => rfl
    simp only [Bool.false_eq_true, if_false, real_num, ofSign_false, eq_two_zpow_iff hm, ne_eq]
    have hlog : m.log2 < 24 := (Nat.log2_lt hm).2 hdigits
    by_cases hpow : m = 2 ^ m.log2
    · rw [if_pos hpow]
      have hE : |expOf m e| ≤ 2 ^ 8 := by
        rw [expOf, abs_le]
        omega
      refine ⟨?_, fun h => absurd ⟨hpow, rfl⟩ (h _)⟩
      rintro _ ⟨-, rfl⟩
      exact log2_exact ctl rm hE
    · rw [if_neg hpow]
      refine ⟨fun z h => absurd h.1 hpow, fun _ => ?_⟩
      have hne : (m : ℝ) * 2 ^ e ≠ 1 := fun h => hpow ((eq_two_zpow_iff hm e 0).1 (by rw [h, zpow_zero])).1
      obtain ⟨hylo, hyhi, hlogb⟩ := logb_fixed hm hlog.le e
      obtain ⟨hbits, hrest⟩ := log2Bits_near (n := 120) (acc := 0) hylo hyhi
      have hlost : (2 : ℝ) ^ 120 * (2 / 2 ^ fixBits) ≤ 1 := by
        rw [← mul_div_assoc, div_le_one (by positivity), ← pow_succ]
        exact pow_le_pow_right₀ one_le_two (by decide)
      generalize log2Bits 120 (m * 2 ^ (fixBits - m.log2)) 0 = fr at *
      rw [Nat.cast_zero, zero_add] at hbits hrest
      exact log2_inexact ctl rm (v := expOf m e * 2 ^ 120 + fr) (by rw [hlogb]; push_cast; linarith) (by rw [hlogb]; push_cast; linarith)
        (logb_away hm hdigits hne)
end Sys2Proof.Claims
end

section
/-!
PROOFS. The special functions of rows (spec/05 R116), and all the conversions and moves of R113 to R120.
-/
namespace Sys2Proof.Claims
open Machine

section
variable (h : BHead) (rm : Rm) (d : Reg) (a : Src) (m : Option Reg) (s : State)
theorem exec_vrcp : exec (.vrcp h rm d a m) s = rowOne h .f32 d a m (fun c v => onOne .f32 c (fRcp c rm) v) s := rfl
theorem exec_vrsqrt : exec (.vrsqrt h rm d a m) s = rowOne h .f32 d a m (fun c v => onOne .f32 c (fRsqrt c rm) v) s := rfl
theorem exec_vexp2 : exec (.vexp2 h rm d a m) s = rowOne h .f32 d a m (fun c v => onOne .f32 c (fExp2 c rm) v) s := rfl
theorem exec_vlog2 : exec (.vlog2 h rm d a m) s = rowOne h .f32 d a m (fun c v => onOne .f32 c (fLog2 c rm) v) s := rfl
end
/-- The special functions: each rounds once and is marked as its own flags say. -/
theorem special_gives {h : BHead} (rm : Rm) (d : Reg) (a : Src) {m : Option Reg} {s : State} {r : Run} (hr : RowReady s r h [.f32] m) :
    let x := operand .f32 r.cap.fpctl (element r s.me .f32 a.r r.cur)
    let flush := resultFlush r.cap.fpctl .f32
    FloatRow (.vrcp h rm d a m) s r .f32 d m (IsQuotient .f32 flush rm (.num false 1 0) x.1) x.2 ∧
    FloatRow (.vrsqrt h rm d a m) s r .f32 d m (IsInverseRoot flush rm x.1) x.2 ∧
    FloatRow (.vexp2 h rm d a m) s r .f32 d m (IsExp2 flush rm x.1) x.2 ∧
    FloatRow (.vlog2 h rm d a m) s r .f32 d m (IsLog2 flush rm x.1) x.2 :=
  ⟨floatRow_one rfl hr (fRcp_own ..) (fRcp_isQuotient ..) (exec_vrcp ..) (onOne_eq ..),
    floatRow_one rfl hr (fRsqrt_own ..) (fRsqrt_isInverseRoot ..) (exec_vrsqrt ..) (onOne_eq ..),
    floatRow_one rfl hr (fExp2_own ..) (fExp2_isExp2 _ rm (operand_single _ _)) (exec_vexp2 ..) (onOne_eq ..),
    floatRow_one rfl hr (fLog2_own ..) (fLog2_isLog2 _ rm (operand_single _ _)) (exec_vlog2 ..) (onOne_eq ..)⟩

/-- Settles O38: each word is its conversion, special function or choice on the elements of its row. -/
theorem rowConversions : Obligations.RowConversions := by
  unfold Obligations.RowConversions
  intro h t u rm d a b n k imm m s r
  refine ⟨fun hq hp _ _ hr => vcvt_gives rm d a hq hp hr, fun hr => special_gives rm d a hr,
    fun _ hr => ⟨slicedTwo_gives (exec_vqadd ..) hr, slicedTwo_gives (exec_vqmul ..) hr, fun _ _ _ hu => vqpack_gives d a hu,
      fun _ hq hp ht => vqunpack_gives d a hq hp ht, vscale_sliced rm d a k hr⟩,
    fun f ht => ⟨fun hr => ⟨vclass_gives d a ht hr, vli_float d imm ht hr⟩, fun hr => vscale_float rm d a k ht hr⟩,
    fun ht hq hp hr => vli_int d imm ht hq hp hr, fun hr => gives_bitsOne (exec_vmov ..) hr rfl (element_holds ..),
    fun hq _ hr => vsel_gives d a b n hq hr⟩
end Sys2Proof.Claims
end

section
/-!
PROOFS. Writes of control registers with a rule of their own (spec/06 R131, spec/07 R148, spec/12 R251, spec/14 R296, spec/18 R364,
R369, R370): the registers of a hart, a core and a cluster, and the invalidation of translations.
-/
namespace Sys2Proof.Claims
open Machine

-- Access words whose tests pass (spec/07 R147, R150) -----------------------------------------------------------------------------------

section
variable {op : CregOp} {c : BitVec 12} {r : Creg} {s : State} (hv : cregVector r = false) (hp : cregPrivileged op r = false ∨ s.me.sup = true)
include hv hp
theorem cregTests_pass : cregTests op r c s = .ok ((), s) := by
  have hmap : ∀ f : State → Bool, ((fun _ => ()) <$> ask f : Op Unit) s = .ok ((), s) := fun _ => rfl
  obtain hp | hp := hp <;> simp [cregTests, hv, hp, hmap]
variable (hc : cregOf c = some r)
include hc
/-- A word whose tests pass accesses the register once, and goes on. -/
theorem cregWord_get (hop : op = .get) (d : Reg) :
    execCget d c s = .next ((s.accessCreg s.cur .get r 0).2.retire d (s.accessCreg s.cur .get r 0).1) := by
  subst hop
  simp [execCget, cregWord, finish, hc, cregTests_pass hv hp]
theorem cregWord_set (hop : op = .set) (a : Reg) : execCset a c s = .next (s.accessCreg s.cur .set r (s.readX a)).2.advance := by
  subst hop
  simp [execCset, cregWord, finish, hc, cregTests_pass hv hp]
theorem cregWord_swap (hop : op = .swap) (d a : Reg) :
    execCswap d a c s = .next ((s.accessCreg s.cur .swap r (s.readX a)).2.retire d (s.accessCreg s.cur .swap r (s.readX a)).1) := by
  subst hop
  simp [execCswap, cregWord, finish, hc, cregTests_pass hv hp]
end
/-- What an access of a hart's own register leaves of the hart: the old value in X[d] unless it is a set, the register written unless
it is a get. -/
def accessed (x : Hart) (op : CregOp) (d a : Reg) (old : Word) (write : Word → Hart → Hart) : Hart :=
  match op with
  | .get => (x.writeX d old).next
  | .set => (write (x.readX a) x).next
  | .swap => ((write (x.readX a) x).writeX d old).next
theorem readX_writeX (x : Hart) (d : Reg) (v : Word) : (x.writeX d v).readX d = if d = 0 then 0 else v := by
  rw [Hart.readX, Hart.writeX]
  split
  · rfl
  · exact Tab.get_put ..|>.trans (if_pos rfl)
theorem asHartOut_of {h : Nat} {f : State → Out} {s u : State} (hf : f { s with cur := h } = .next u) (hcur : u.cur = h) :
    ∃ t, asHartOut h f s = .next t ∧ t.hart h = u.me := by
  refine ⟨_, by rw [asHartOut, hf], ?_⟩
  rw [State.me, hcur]
  rfl
theorem advance_me (u : State) : u.advance.me = u.me.next := by rw [State.advance_eq, State.updMe_me]
theorem retire_me (u : State) (d : Reg) (v : Word) : (u.retire d v).me = (u.me.writeX d v).next := by
  rw [State.retire, advance_me, State.writeX_eq, State.updMe_me]
/-- The access of a register of the class 'waits' of which a write changes only the hart. -/
theorem waitingAccess {h : Nat} {c : BitVec 12} {r : Creg} {s : State} {write : Word → Hart → Hart} (op : CregOp) (d a : Reg) (hc : cregOf c = some r)
    (hv : cregVector r = false) (hp : cregPrivileged op r = false) (hw : cregEffect r = .waits) (hruns : s.runs h = true)
    (hdrained : (s.hart h).drained = true)
    (hget : ∀ (u : State) v, u.accessCreg h .get r v = (u.readCreg h r, u))
    (hset : ∀ (u : State) v, u.accessCreg h .set r v = (u.readCreg h r, u.updHart h (write v)))
    (hswap : ∀ (u : State) v, u.accessCreg h .swap r v = (u.readCreg h r, u.updHart h (write v))) :
    ∃ t, exec (.waitingCregAccess h op d a c) s = .next t ∧
      t.hart h = accessed (s.hart h) op d a (({ s with cur := h } : State).readCreg h r) write := by
  change ∃ t, execWaitingCregAccess h op d a c s = .next t ∧ _
  simp only [execWaitingCregAccess, hruns, hdrained, hc, hw, beq_self_eq_true, Bool.and_self, if_true]
  have written : ∀ v, (({ s with cur := h } : State).updHart h (write v)).me = write v (s.hart h) := fun v =>
    (State.setHart_hart ..).trans (if_pos rfl)
  cases op with
  | get =>
    obtain ⟨t, ht, hme⟩ := asHartOut_of (cregWord_get (s := { s with cur := h }) hv (.inl hp) hc rfl d) (by rw [hget]; rfl)
    exact ⟨t, ht, by rw [hme, hget, retire_me]; rfl⟩
  | set =>
    obtain ⟨t, ht, hme⟩ := asHartOut_of (cregWord_set (s := { s with cur := h }) hv (.inl hp) hc rfl a) (by rw [hset]; rfl)
    exact ⟨t, ht, by rw [hme, hset, advance_me, written]; rfl⟩
  | swap =>
    obtain ⟨t, ht, hme⟩ := asHartOut_of (cregWord_swap (s := { s with cur := h }) hv (.inl hp) hc rfl d a) (by rw [hswap]; rfl)
    exact ⟨t, ht, by rw [hme, hswap, retire_me, written]; rfl⟩
/-- What such an access leaves, where a write of the register changes no x-register and not the pc. -/
theorem accessed_reads {x : Hart} {op : CregOp} {d a : Reg} {old : Word} {write : Word → Hart → Hart}
    (hx : ∀ v, (write v x).x = x.x) (hpc : ∀ v, (write v x).pc = x.pc) :
    (accessed x op d a old write).pc = x.pc + 4 ∧
      (accessed x op d a old write).readX d = if op = .set then x.readX d else if d = 0 then 0 else old := by
  have hreg : ∀ y : Hart, y.next.readX d = y.readX d := fun y => rfl
  have hwpc : ∀ (y : Hart) v, (y.writeX d v).next.pc = y.pc + 4 := fun y v => by simp
  cases op with
  | get => exact ⟨hwpc .., (hreg _).trans (readX_writeX ..)⟩
  | set => exact ⟨congrArg (· + 4) (hpc _), by rw [if_pos rfl, accessed, hreg, Hart.readX, hx]; rfl⟩
  | swap => exact ⟨(hwpc ..).trans (congrArg (· + 4) (hpc _)), (hreg _).trans (readX_writeX ..)⟩
theorem truncate9_setWidth (v : Word) : ((v.truncate 9 : BitVec 9)).setWidth 64 = v &&& 0x1FF := by
  apply BitVec.eq_of_toNat_eq
  have : v.toNat &&& 0x1FF = v.toNat % 2 ^ 9 := Nat.and_two_pow_sub_one_eq_mod _ 9
  rw [BitVec.toNat_and, BitVec.toNat_setWidth, BitVec.toNat_setWidth]
  change _ = v.toNat &&& 0x1FF
  omega
theorem and_ones (v : Word) : v &&& 0xFFFFFFFFFFFFFFFF = v := BitVec.and_allOnes
/-- fpflags and gctr (spec/07 R148): the access waits for the queue, then reads and writes the register. -/
theorem waiting_registers {h : Nat} {s : State} (op : CregOp) (d a : Reg) (hruns : s.runs h = true) (hdrained : (s.hart h).drained = true) :
    let x := s.hart h
    ∀ c ∈ [((0x009 : BitVec 12), x.fpflags.setWidth 64, (0x1FF : Word)), (0x00B, x.gctr, 0xFFFFFFFFFFFFFFFF)],
      ∃ t, exec (.waitingCregAccess h op d a c.1) s = .next t ∧ (t.hart h).pc = x.pc + 4 ∧
        (t.hart h).readX d = (if op = .set then x.readX d else if d = 0 then 0 else c.2.1) ∧
        (c.1, if op = .get then c.2.1 else x.readX a &&& c.2.2) ∈ hartRegs { t with cur := h } := by
  intro x
  simp only [List.forall_mem_cons, List.not_mem_nil, IsEmpty.forall_iff, implies_true, and_true]
  constructor
  · obtain ⟨t, ht, hx⟩ := waitingAccess (c := 0x009) (r := .fpflags) (write := fun v x => { x with fpflags := v.truncate 9 }) op d a rfl rfl
      (by cases op <;> rfl) rfl hruns hdrained (fun _ _ => rfl) (fun _ _ => rfl) (fun _ _ => rfl)
    obtain ⟨hpc, hreg⟩ := accessed_reads (x := s.hart h) (op := op) (d := d) (a := a) (old := x.fpflags.setWidth 64)
      (write := fun v x => { x with fpflags := v.truncate 9 }) (fun _ => rfl) fun _ => rfl
    refine ⟨t, ht, hx ▸ hpc, hx ▸ hreg, List.mem_of_getElem? (i := 5) ?_⟩
    have hval : (t.hart h).fpflags.setWidth 64 = if op = .get then x.fpflags.setWidth 64 else x.readX a &&& 0x1FF := by
      rw [hx, ← truncate9_setWidth]
      cases op <;> simp [accessed, x]
    rw [← hval]
    rfl
  · obtain ⟨t, ht, hx⟩ := waitingAccess (c := 0x00B) (r := .gctr) (write := fun v x => { x with gctr := v }) op d a rfl rfl
      (by cases op <;> rfl) rfl hruns hdrained (fun _ _ => rfl) (fun _ _ => rfl) (fun _ _ => rfl)
    obtain ⟨hpc, hreg⟩ := accessed_reads (x := s.hart h) (op := op) (d := d) (a := a) (old := x.gctr)
      (write := fun v x => { x with gctr := v }) (fun _ => rfl) fun _ => rfl
    refine ⟨t, ht, hx ▸ hpc, hx ▸ hreg, List.mem_of_getElem? (i := 7) ?_⟩
    have hval : (t.hart h).gctr = if op = .get then x.gctr else x.readX a &&& 0xFFFFFFFFFFFFFFFF := by
      rw [hx, and_ones]
      cases op <;> simp [accessed, x]
    rw [← hval]
    rfl

-- The window of the scale registers (spec/05 R120, R121) -------------------------------------------------------------------------------

/-- What an access to kwin leaves of the hart. -/
def windowed (x : Hart) (op : CregOp) (d a : Reg) : Hart :=
  match op with
  | .get => x.stepWindow.writeX d x.window
  | .set => (x.setWindow (x.readX a)).stepWindow
  | .swap => (x.setWindow (x.readX a)).stepWindow.writeX d x.window
theorem hart_asHart_owner {h : Nat} {s : State} {f : State → State} (hown : (s.hart h).own = (s.hart h).ctx)
    (hcur : (f { s with cur := h }).cur = h) :
    (s.asHart h (do needOwner; upd f)).hart h = (f { s with cur := h }).me := by
  have hme : ({ s with cur := h } : State).me = s.hart h := rfl
  have howner : needOwner ({ s with cur := h } : State) = .ok ((), { s with cur := h }) := by simp [needOwner, hme, hown]
  rw [State.asHart, Op.bind_run, howner, State.me, hcur]
  rfl
theorem hart_bumpHart (u : State) (h slot n k : Nat) : (u.bumpHart h slot n).hart k = u.hart k := hart_of_offPath (offPath_bumpHart ..) k
theorem cur_bumpHart (u : State) (h slot n : Nat) : (u.bumpHart h slot n).cur = u.cur := cur_of_offPath (offPath_bumpHart ..)
theorem me_bumpHart (u : State) (h slot n : Nat) : (u.bumpHart h slot n).me = u.me := by rw [State.me, State.me, cur_bumpHart, hart_bumpHart]
theorem me_writeX (u : State) (d : Reg) (v : Word) : (u.writeX d v).me = u.me.writeX d v := State.updMe_me ..
theorem kwinWord_hart {h : Nat} {s : State} (op : CregOp) (d a : Reg) (hown : (s.hart h).own = (s.hart h).ctx) :
    (s.kwinWord h op d a).hart h = windowed (s.hart h) op d a := by
  have step : ∀ u : State, u.cur = h → ((u.updHart h Hart.stepWindow).bumpHart h 1 1).me = u.me.stepWindow := fun u hu => by
    rw [me_bumpHart, ← hu]
    exact State.updMe_me ..
  have written : ∀ v, (({ s with cur := h } : State).updHart h fun x => x.setWindow v).me = (s.hart h).setWindow v := fun v =>
    (State.setHart_hart ..).trans (if_pos rfl)
  rw [State.kwinWord]
  cases op with
  | get =>
    refine (hart_asHart_owner hown (cur_bumpHart ..)).trans ?_
    exact (me_writeX ..).trans (congrArg (Hart.writeX · d _) (step _ rfl))
  | set =>
    refine (hart_asHart_owner hown (cur_bumpHart ..)).trans ?_
    exact (step _ rfl).trans (congrArg Hart.stepWindow (written _))
  | swap =>
    refine (hart_asHart_owner hown (cur_bumpHart ..)).trans ?_
    exact (me_writeX ..).trans (congrArg (Hart.writeX · d _) ((step _ rfl).trans (congrArg Hart.stepWindow (written _))))
/-- The window that a set leaves is the value set. -/
theorem window_setWindow (x : Hart) (v : Word) : (x.setWindow v).window = v := by
  have hk : (x.setWindow v).window = BitVec.ofNat 64 (elemAt (withElem (Tab.get 0 x.k (kidxReg x.kidx)) 64 (kidxGroup x.kidx) v.toNat) 64
      (kidxGroup x.kidx)) := by
    have : Tab.get 0 (x.setWindow v).k (kidxReg x.kidx) = withElem (Tab.get 0 x.k (kidxReg x.kidx)) 64 (kidxGroup x.kidx) v.toNat :=
      (Tab.get_put ..).trans (if_pos rfl)
    rw [← this]
    rfl
  rw [hk, elemAt_withElem, if_pos rfl, Nat.mod_eq_of_lt v.isLt, BitVec.ofNat_toNat, BitVec.setWidth_eq]
section
variable (x : Hart) (op : CregOp) (d a : Reg)
theorem windowed_readX : (windowed x op d a).readX d = if op = .set then x.readX d else if d = 0 then 0 else x.window := by
  cases op with
  | get => exact readX_writeX ..
  | set => rfl
  | swap => exact readX_writeX ..
theorem windowed_kidx : (windowed x op d a).kidx = x.stepWindow.kidx := by cases op <;> simp [windowed, Hart.setWindow, Hart.stepWindow]
theorem windowed_k : (windowed x op d a).k = if op = .get then x.k else (x.setWindow (x.readX a)).k := by
  cases op <;> simp [windowed, Hart.stepWindow]
end
theorem kwin_gives {h : Nat} {s : State} (op : CregOp) (d a : Reg) (hruns : s.runs h = true) (hdrained : (s.hart h).drained = true)
    (hown : (s.hart h).own = (s.hart h).ctx) :
    let x := s.hart h
    ∃ t, exec (.kwinAccess h op d a) s = .next t ∧
      (t.hart h).readX d = (if op = .set then x.readX d else if d = 0 then 0 else x.window) ∧
      ({ t.hart h with kidx := x.kidx } : Hart).window = (if op = .get then x.window else x.readX a) ∧
      (t.hart h).kidx = BitVec.ofNat 64 (x.kidx.toNat / 2 ^ 11 % 8 * 2 ^ 11 + (x.kidx.toNat / 8 % 256 + 1) % 256 * 8) := by
  intro x
  have hexec : exec (.kwinAccess h op d a) s = .next (s.kwinWord h op d a) := by
    change execKwinAccess h op d a s = _
    rw [execKwinAccess, hruns, hdrained]
    rfl
  have hwin : ∀ y z : Hart, y.k = z.k → y.kidx = z.kidx → y.window = z.window := fun y z h1 h2 => by rw [Hart.window, Hart.window, h1, h2]
  refine ⟨_, hexec, ?_⟩
  rw [kwinWord_hart op d a hown]
  refine ⟨windowed_readX .., ?_, windowed_kidx ..⟩
  have hk := windowed_k x op d a
  split at hk
  next hop => rw [if_pos hop]; exact hwin { windowed x op d a with kidx := x.kidx } _ hk rfl
  next hop => rw [if_neg hop]; exact (hwin { windowed x op d a with kidx := x.kidx } _ hk rfl).trans (window_setWindow ..)

-- Registers of a hart, a core and a cluster (spec/06 R131, spec/12 R251, spec/18 R364, R370) -----------------------------------------------

theorem isNan_single (b : Nat) : isNan (valueOf .f32 b) = true ↔ 0x7F800000 < b % 2 ^ 31 := by
  have hE : bitsAt b Fmt.f32.frac Fmt.f32.expo = b / 2 ^ 23 % 2 ^ 8 := by rw [bitsAt, Nat.shiftRight_eq_div_pow]; rfl
  have hfr : bitsAt b 0 Fmt.f32.frac = b % 2 ^ 23 := rfl
  have hval : isNan (valueOf .f32 b) = (decide (bitsAt b Fmt.f32.frac Fmt.f32.expo = 255) && decide (bitsAt b 0 Fmt.f32.frac ≠ 0)) := by
    simp only [valueOf, reduceCtorEq, if_false]
    split_ifs with h0 h1 h2 <;> simp_all [isNan, Fmt.expo]
  rw [hval, hE, hfr, Bool.and_eq_true, decide_eq_true_eq, decide_eq_true_eq]
  omega
theorem ptempValue_eq (v : Word) :
    let b := v.toNat % 2 ^ 32
    ptempValue v = (BitVec.ofNat 32 (if 0x7F800000 < b then 0 else b), if 0x7F800000 < b ∧ b ≠ 0x80000000 then 0x100 else 0) := by
  intro b
  have hlt : b < 2 ^ 32 := Nat.mod_lt _ (by decide)
  have hb : (v.truncate 32 : BitVec 32).toNat = b := BitVec.toNat_setWidth ..
  have hv : (v.truncate 32 : BitVec 32) = BitVec.ofNat 32 b := by rw [← hb, BitVec.ofNat_toNat, BitVec.setWidth_eq]
  have htop : bitOf b 31 = true ↔ 2 ^ 31 ≤ b := by
    rw [bitOf, beq_iff_eq]
    omega
  rw [ptempValue, hb, hv]
  by_cases hnan : 0x7F800000 < b % 2 ^ 31
  · rw [if_pos ((isNan_single b).2 hnan), if_pos (by omega), if_pos (by omega)]
    rfl
  rw [if_neg (mt (isNan_single b).1 hnan)]
  by_cases hzero : b = 0x80000000
  · rw [if_pos hzero, hzero]
    rfl
  rw [if_neg hzero]
  by_cases hneg : 2 ^ 31 ≤ b
  · rw [if_pos (htop.2 hneg), if_pos (by omega), if_pos (by omega)]
    rfl
  · rw [if_neg (mt htop.1 hneg), if_neg (by omega), if_neg (by omega)]
theorem ptempWrite_gives (h : Nat) (v : Word) (s : State) :
    let x := s.hart h
    let b := v.toNat % 2 ^ 32
    ∃ t, exec (.ptempWrite h v) s = .next t ∧
      (t.hart h).ptemp = BitVec.ofNat 32 (if 0x7F800000 < b then 0 else b) ∧
      (t.hart h).fpflags = x.fpflags ||| (if 0x7F800000 < b ∧ b ≠ 0x80000000 then 0x100 else 0) := by
  intro x b
  have hhart : (s.updHart h fun x => ptempWrite x v).hart h = ptempWrite x v := (State.setHart_hart ..).trans (if_pos rfl)
  refine ⟨_, rfl, ?_⟩
  rw [hhart, ptempWrite, ptempValue_eq]
  exact ⟨rfl, rfl⟩
theorem tallowWrite_gives (h : Nat) (v : Word) (s : State) :
    ∃ t, exec (.tallowWrite h v) s = .next t ∧ (t.hart h).tallow = v.setWidth 16 ||| 0x0020 ∧
      (t.hart h).tmask = (s.hart h).tmask &&& (v.setWidth 16 ||| 0x0020) ||| 0x0020 := by
  have hhart : (s.updHart h fun x => tallowWrite x v).hart h = tallowWrite (s.hart h) v := (State.setHart_hart ..).trans (if_pos rfl)
  refine ⟨_, rfl, ?_⟩
  rw [hhart]
  exact ⟨rfl, rfl⟩
theorem lcfgWrite_gives (core u : Nat) (v : Word) (s : State) :
    ∃ t, exec (.lcfgWrite core u v) s = .next t ∧ Tab.get 0 (t.core core).lcfg u = v &&& 0x801FFF0F0F00000F ∧
      Tab.get {} (t.core core).latency u = { lost := if u ∈ (s.core core).clash then 1 else 0 } := by
  have hcore : (s.writeLcfg core u v).core core =
      { (s.core core).clearUnit u with lcfg := Tab.put (s.core core).lcfg u (keep 0x801FFF0F0F00000F v) } := (State.setCore_core ..).trans (if_pos rfl)
  refine ⟨_, rfl, ?_⟩
  rw [hcore]
  refine ⟨(Tab.get_put ..).trans (if_pos rfl), ((Tab.get_put ..).trans (if_pos rfl)).trans ?_⟩
  simp only [List.contains_iff_mem]
end Sys2Proof.Claims
end

section
/-!
PROOFS. Writes of control registers (spec/12 R251, spec/14 R296, spec/18 R369): residency ranges, translations and counter totals,
and the journal contexts (spec/19 R386).
-/
namespace Sys2Proof.Claims
open Machine

-- Residency ranges (spec/12 R251) ----------------------------------------------------------------------------------------------------------

/-- What a mask of n bits from bit k keeps of a number. -/
theorem and_field (v n k : Nat) : v &&& (2 ^ n - 1) * 2 ^ k = v / 2 ^ k % 2 ^ n * 2 ^ k := by
  apply Nat.eq_of_testBit_eq
  intro i
  rw [Nat.testBit_and, Nat.testBit_mul_two_pow, Nat.testBit_mul_two_pow, Nat.testBit_mod_two_pow, Nat.testBit_two_pow_sub_one,
    Nat.testBit_div_two_pow]
  by_cases hk : k ≤ i
  · simp [hk, Bool.and_comm]
  · simp [hk]
/-- Bits of a number put together from three fields: 36 bits from bit 16, one from bit 60 and one below bit 16. -/
theorem join_fields {m w l : Nat} (hm : m < 2 ^ 36) (hl : l < 2 ^ 16) :
    m * 2 ^ 16 ||| w * 2 ^ 60 ||| l = w * 2 ^ 60 + m * 2 ^ 16 + l := by
  have h1 : m * 2 ^ 16 ||| w * 2 ^ 60 = w * 2 ^ 60 + m * 2 ^ 16 := by
    rw [Nat.or_comm, mul_comm w, ← Nat.two_pow_add_eq_or_of_lt (by omega)]
  rw [h1, show w * 2 ^ 60 + m * 2 ^ 16 = 2 ^ 16 * (w * 2 ^ 44 + m) by ring, ← Nat.two_pow_add_eq_or_of_lt hl]
theorem toNat_ofNat_lt {n : Nat} (h : n < 2 ^ 64) : (BitVec.ofNat 64 n).toNat = n := by rw [BitVec.toNat_ofNat, Nat.mod_eq_of_lt h]
theorem rescValue_toNat (v : Word) :
    (rescValue v).toNat = min 12 (v.toNat / 2 ^ 60) * 2 ^ 60 + v.toNat / 2 ^ 16 % 2 ^ 36 * 2 ^ 16 + min 256 (v.toNat % 2 ^ 9) := by
  have hmask : (keep 0x000FFFFFFFFF0000 v).toNat = v.toNat / 2 ^ 16 % 2 ^ 36 * 2 ^ 16 := by
    rw [← and_field]
    rfl
  have hways : clampField v 63 60 0 12 = min 12 (v.toNat / 2 ^ 60) * 2 ^ 60 := by
    have := v.isLt
    simp only [clampField, bitsOf]
    omega
  have hratio : clampField v 8 0 0 256 = min 256 (v.toNat % 2 ^ 9) := by
    simp only [clampField, bitsOf]
    omega
  have hlt := v.isLt
  rw [rescValue, BitVec.toNat_or, BitVec.toNat_or, hmask, hways, hratio, toNat_ofNat_lt (by omega), toNat_ofNat_lt (by omega),
    join_fields (Nat.mod_lt _ (by decide)) (by omega)]
theorem residencyWrite_gives (k : Nat) (v : Word) (s : State) {i : Nat} (hi : i < 8) :
    (∃ t, exec (.residencyWrite k (BitVec.ofNat 12 (0x080 + i)) v) s = .next t ∧
      Tab.get 0 (t.cluster k).resb i = v &&& 0x800FFFFFFFFF0000 ∧ Tab.get 0 (t.cluster k).acc i = 0) ∧
    (∃ t w, exec (.residencyWrite k (BitVec.ofNat 12 (0x088 + i)) v) s = .next t ∧ w = Tab.get 0 (t.cluster k).resc i ∧
      w.toNat / 2 ^ 60 = min 12 (v.toNat / 2 ^ 60) ∧ w.toNat % 2 ^ 9 = min 256 (v.toNat % 2 ^ 9) ∧
      w.toNat / 2 ^ 16 % 2 ^ 36 = v.toNat / 2 ^ 16 % 2 ^ 36 ∧ Tab.get 0 (t.cluster k).acc i = 0) := by
  have hregs : ∀ i, i < 8 → cregOf (BitVec.ofNat 12 (0x080 + i)) = some (.resb i) ∧ cregOf (BitVec.ofNat 12 (0x088 + i)) = some (.resc i) := by
    decide
  obtain ⟨hb, hc⟩ := hregs i hi
  have hlt := v.isLt
  constructor
  · have hcluster : (s.writeResb k i v).cluster k = { s.cluster k with
        resb := Tab.put (s.cluster k).resb i (keep 0x800FFFFFFFFF0000 v), acc := Tab.put (s.cluster k).acc i 0 } :=
      (State.setCluster_cluster ..).trans (if_pos rfl)
    refine ⟨s.writeResb k i v, ?_, ?_⟩
    · change execResidencyWrite _ _ _ _ = _
      rw [execResidencyWrite, hb]
    · rw [hcluster]
      exact ⟨(Tab.get_put ..).trans (if_pos rfl), (Tab.get_put ..).trans (if_pos rfl)⟩
  · have hcluster : (s.writeResc k i v).cluster k = { s.cluster k with
        resc := Tab.put (s.cluster k).resc i (rescValue v), acc := Tab.put (s.cluster k).acc i 0 } :=
      (State.setCluster_cluster ..).trans (if_pos rfl)
    have hresc : Tab.get 0 ((s.writeResc k i v).cluster k).resc i = rescValue v := by
      rw [hcluster]
      exact (Tab.get_put ..).trans (if_pos rfl)
    refine ⟨s.writeResc k i v, _, ?_, rfl, ?_⟩
    · change execResidencyWrite _ _ _ _ = _
      rw [execResidencyWrite, hc]
    · rw [hresc, rescValue_toNat, hcluster]
      exact ⟨by omega, by omega, by omega, (Tab.get_put ..).trans (if_pos rfl)⟩

-- Translations (spec/14 R296) ---------------------------------------------------------------------------------------------------------------

theorem get_mapTab {α : Type} {d : α} {g : α → α} (hd : g d = d) (t : Tab α) (k : Nat) :
    Tab.get d (t.map fun e => (e.1, g e.2)) k = g (Tab.get d t k) := by
  induction t with
  | nil => exact hd.symm
  | cons e t ih =>
    simp only [Tab.get, Tab.find, List.map_cons] at ih ⊢
    split
    · rfl
    · exact ih
theorem core_tlbDrop (s : State) (va size c : Nat) :
    ((s.tlbDrop va size).core c).tlb = (s.core c).tlb.filter fun t => !tlbCovers va size t :=
  congrArg Core.tlb (get_mapTab (g := fun x : Core => { x with tlb := x.tlb.filter fun t => !tlbCovers va size t }) rfl ..)
theorem cluster_tlbDrop (s : State) (va size k : Nat) :
    ((s.tlbDrop va size).cluster k).tlb = (s.cluster k).tlb.filter fun t => !tlbCovers va size t :=
  congrArg Cluster.tlb (get_mapTab (g := fun x : Cluster => { x with tlb := x.tlb.filter fun t => !tlbCovers va size t }) rfl ..)
/-- An entry that a write of tinv does not cover translates another page. -/
theorem not_tlbCovers {va size : Nat} {e : TlbEntry} (h : tlbCovers va size e = false) : size ≠ 3 ∧ e.page ≠ va / 2 ^ levelShift e.level := by
  rw [tlbCovers] at h
  split at h
  next => cases h
  next hsize =>
    refine ⟨hsize, fun hpage => ?_⟩
    obtain ⟨k, hk⟩ := Nat.exists_eq_add_of_le (le_max_left (levelShift e.level) (if size = 2 then 30 else if size = 1 then 21 else 16))
    have hpow : (0 : Nat) < 2 ^ levelShift e.level := Nat.two_pow_pos _
    dsimp only at h
    rw [hk, hpage, pow_add, ← Nat.div_div_eq_div_mul, ← Nat.div_div_eq_div_mul, Nat.mul_div_cancel _ hpow, beq_self_eq_true] at h
    cases h
theorem tinvWrite_gives (v : Word) (s : State) :
    ∃ t, exec (.tinvWrite v) s = .next t ∧ t.mem = s.mem ∧ ∀ c, ∀ e ∈ (t.core c).tlb ++ (t.cluster c).tlb,
      v.toNat % 4 ≠ 3 ∧ e.page ≠ v.toNat / 2 ^ 16 % 2 ^ 41 * 2 ^ 16 / 2 ^ levelShift e.level := by
  refine ⟨_, rfl, rfl, fun c e he => ?_⟩
  have hcores : ((s.writeTinv v).core c).tlb = _ := core_tlbDrop s (bitsOf v.toNat 56 16 * 2 ^ 16) (v.toNat % 4) c
  have hclusters : ((s.writeTinv v).cluster c).tlb = _ := cluster_tlbDrop s (bitsOf v.toNat 56 16 * 2 ^ 16) (v.toNat % 4) c
  rw [List.mem_append, hcores, hclusters] at he
  obtain he | he := he
  all_goals
    obtain ⟨-, hcovers⟩ := List.mem_filter.1 he
    exact not_tlbCovers (Bool.not_eq_true' _ |>.mp hcovers)

-- The base of the totals (spec/18 R369) --------------------------------------------------------------------------------------------------

theorem ctbaseWrite_gives (v : Word) (s : State) :
    ∃ t, exec (.ctbaseWrite v) s = .next t ∧ t.ctbase = v &&& 0x000FFFFFFFE00001 ∧
      t.lastRead = if v.getLsbD 0 && !s.ctbase.getLsbD 0 then s.counters else s.lastRead := by
  have hen : ctbaseEn (keep 0x000FFFFFFFE00001 v) = v.getLsbD 0 := by
    rw [ctbaseEn, keep, BitVec.getLsbD_and]
    exact Bool.and_true _
  have hwrite : s.writeCtbase v = if v.getLsbD 0 && !s.ctbase.getLsbD 0 then
      { s with ctbase := keep 0x000FFFFFFFE00001 v, lastRead := s.counters } else { s with ctbase := keep 0x000FFFFFFFE00001 v } := by
    rw [← hen]
    rfl
  refine ⟨s.writeCtbase v, rfl, ?_⟩
  rw [hwrite]
  split <;> exact ⟨rfl, rfl⟩

-- Journal contexts (spec/19 R386) ----------------------------------------------------------------------------------------------------------

theorem writeJcfg_journal (s : State) (v : Word) : (s.writeJcfg v).journal s.jcidx.toNat = jcfgWrite (s.journal s.jcidx.toNat) v :=
  (State.setJournal_journal ..).trans (if_pos rfl)
theorem jcfgIsOff_iff (v : Word) : jcfgIsOff v = true ↔ v.getLsbD 63 = false ∨ v.toNat % 8 = 0 := by simp [jcfgIsOff]
theorem jcfgIsOff_false {v : Word} (hen : v.getLsbD 63 = true) (hst : v.toNat % 8 ≠ 0) : jcfgIsOff v = false :=
  Bool.eq_false_iff.2 fun h => ((jcfgIsOff_iff v).1 h).elim (by simp [hen]) hst
/-- A context that is off takes the tenant and the port, and turns on at mode 1 or 2. -/
theorem jcfgWrite_idle {j : Journal} (hj : j.state = 0) (v : Word) :
    jcfgWrite j v = { j with en := v.getLsbD 63, ten := v.extractLsb' 40 12, port := v.toNat / 2 ^ 32 % 4,
                             state := if v.getLsbD 63 = true ∧ (v.toNat % 8 = 1 ∨ v.toNat % 8 = 2) then v.toNat % 8 else 0 } := by
  have hcond : (v.getLsbD 63 && (decide (v.toNat % 8 = 1) || decide (v.toNat % 8 = 2))) = true ↔
      v.getLsbD 63 = true ∧ (v.toNat % 8 = 1 ∨ v.toNat % 8 = 2) := by simp
  rw [jcfgWrite, if_pos hj]
  dsimp only
  split
  next h => rw [if_pos (hcond.1 h)]; rfl
  next h => rw [if_neg (mt hcond.2 h), ← hj]; rfl
theorem jcfgOff_gives {v : Word} (s : State) (hoff : v.getLsbD 63 = false ∨ v.toNat % 8 = 0) :
    let j := s.journal s.jcidx.toNat
    ∃ t, exec (.jcfgOff v) s = .next t ∧
      (t.journal s.jcidx.toNat).state = 0 ∧ (t.journal s.jcidx.toNat).en = v.getLsbD 63 ∧
      (j.state ≠ 0 → (t.journal s.jcidx.toNat).held = [] ∧ (t.journal s.jcidx.toNat).queue = [] ∧
        (t.journal s.jcidx.toNat).newQueue = []) := by
  intro j
  refine ⟨s.writeJcfg v, if_pos ((jcfgIsOff_iff v).2 hoff), ?_⟩
  rw [writeJcfg_journal]
  by_cases hj : (s.journal s.jcidx.toNat).state = 0
  · rw [jcfgWrite_idle hj]
    refine ⟨if_neg ?_, rfl, fun h => absurd hj h⟩
    rintro ⟨hen, hmode⟩
    obtain h | h := hoff
    · rw [hen] at h
      cases h
    · omega
  · have hcond : (!v.getLsbD 63 || decide (v.toNat % 8 = 0)) = true := by simpa using hoff
    rw [jcfgWrite, if_neg hj, if_pos hcond]
    exact ⟨rfl, rfl, fun _ => ⟨rfl, rfl, rfl⟩⟩
theorem jcfgEnable_gives {v : Word} (s : State) (hen : v.getLsbD 63 = true) (hmode : v.toNat % 8 = 1 ∨ v.toNat % 8 = 2)
    (hj : (s.journal s.jcidx.toNat).state = 0) :
    ∃ t, exec (.jcfgEnable v) s = .next t ∧
      (t.journal s.jcidx.toNat).state = v.toNat % 8 ∧ (t.journal s.jcidx.toNat).en = true ∧
      (t.journal s.jcidx.toNat).ten = v.extractLsb' 40 12 ∧ (t.journal s.jcidx.toNat).port = v.toNat / 2 ^ 32 % 4 := by
  have hcond : (!jcfgIsOff v && v.toNat % 8 != 3) = true := by
    rw [jcfgIsOff_false hen (by omega), Bool.not_false, Bool.true_and, bne_iff_ne]
    omega
  refine ⟨s.writeJcfg v, if_pos hcond, ?_⟩
  rw [writeJcfg_journal, jcfgWrite_idle hj]
  exact ⟨if_pos ⟨hen, hmode⟩, hen, rfl, rfl⟩
theorem jcfgMove_gives {v : Word} (s : State) (hen : v.getLsbD 63 = true) (hmode : v.toNat % 8 = 3) :
    let j := s.journal s.jcidx.toNat
    j.state = 1 ∨ j.state = 4 → j.npeer.getLsbD 63 = true →
      ∃ t, exec (.jcfgMove v) s = .next t ∧ (t.journal s.jcidx.toNat).state = 3 ∧
        (t.journal s.jcidx.toNat).before = j.state ∧ (t.journal s.jcidx.toNat).toPeer = j.npeer ∧
        (t.journal s.jcidx.toNat).newAck = j.trunc ∧ (t.journal s.jcidx.toNat).next = j.next ∧
        (t.journal s.jcidx.toNat).newQueue = [.copies j.trunc.toNat j.next.toNat] ∧ (t.journal s.jcidx.toNat).queue = j.queue := by
  intro j hstate hpeer
  have hcond : (!jcfgIsOff v && v.toNat % 8 == 3) = true := by
    rw [jcfgIsOff_false hen (by omega), Bool.not_false, Bool.true_and, beq_iff_eq]
    exact hmode
  have hon : ¬ (!v.getLsbD 63 || decide (v.toNat % 8 = 0)) = true := by simp [hen, hmode]
  have hmove : (decide (v.toNat % 8 = 3) && (decide (j.state = 1) || decide (j.state = 4)) && j.npeer.getLsbD 63) = true := by
    simp [hmode, hstate, hpeer]
  have hne : (s.journal s.jcidx.toNat).state ≠ 0 := fun h => by
    have : j.state = 0 := h
    omega
  refine ⟨s.writeJcfg v, if_pos hcond, ?_⟩
  rw [writeJcfg_journal, jcfgWrite, if_neg hne, if_neg hon, if_pos hmove]
  exact ⟨rfl, rfl, rfl, rfl, rfl, rfl, rfl⟩
end Sys2Proof.Claims
end

section
/-!
PROOFS. A word added at its home where nothing is cached (spec/14 R278), and a write of a counter that credits its total (spec/18
R367, R369).
-/
namespace Sys2Proof.Claims
open Machine

-- What the memory-side cache leaves (spec/16 R321) -----------------------------------------------------------------------------------

/-- What an access to the memory-side cache keeps: all but what the dies and base dies keep count of, and the fenced channels. -/
def offTrackers (s : State) : State × (Nat → List Nat × List Nat) :=
  ({ s with dies := [], baseDies := [], counters := [] }, fun n => ((s.stack n).fencedCh, (s.stack n).segErr))
theorem offTrackers_updStack (s : State) (n : Nat) {f : Stack → Stack} (hf : ∀ k, (f k).fencedCh = k.fencedCh ∧ (f k).segErr = k.segErr) :
    offTrackers (s.updStack n f) = offTrackers s := by
  refine Prod.ext rfl (funext fun j => ?_)
  change (((s.updStack n f).stack j).fencedCh, ((s.updStack n f).stack j).segErr) = ((s.stack j).fencedCh, (s.stack j).segErr)
  rw [State.updStack_eq, State.setStack_stack]
  split
  next hj => rw [(hf _).1, (hf _).2, hj]
  next => rfl
theorem offTrackers_bump (s : State) (src slot n : Nat) : offTrackers (s.bump src slot n) = offTrackers s := rfl
theorem offTrackers_trackHot (s : State) (pa : Nat) : offTrackers (s.trackHot pa) = offTrackers s := by
  unfold State.trackHot
  dsimp only
  split <;> rfl
theorem offTrackers_writeBack (s : State) (n line i : Nat) : offTrackers (s.writeBack n line i) = offTrackers s := by
  unfold State.writeBack
  dsimp only
  split
  · rfl
  · split
    · exact offTrackers_updStack (s.bump (1680 + n) 1 1 |>.bump (1680 + n) 7 1) n fun _ => ⟨rfl, rfl⟩
    · exact offTrackers_updStack (s.bump (1680 + n) 1 1 |>.bump (1680 + n) 8 1) n fun _ => ⟨rfl, rfl⟩
theorem offTrackers_writeBackAll (s : State) (n line mask : Nat) : offTrackers (s.writeBackAll n line mask) = offTrackers s :=
  foldl_keeps offTrackers _ (fun s i => offTrackers_writeBack s n line i) _ s
theorem offTrackers_mscRoom (s : State) (n line : Nat) : offTrackers (s.mscRoom n line) = offTrackers s := by
  unfold State.mscRoom State.mscEvict
  split
  · rfl
  · split
    · rfl
    · refine (offTrackers_updStack _ n ?_).trans (offTrackers_writeBackAll s n _ _)
      exact fun _ => ⟨rfl, rfl⟩
theorem mscFill_keeps (k : Stack) (line mask : Nat) : (k.mscFill line mask).fencedCh = k.fencedCh ∧ (k.mscFill line mask).segErr = k.segErr := by
  unfold Stack.mscFill
  split <;> exact ⟨rfl, rfl⟩
theorem mscDirty_keeps (k : Stack) (line mask : Nat) : (k.mscDirty line mask).fencedCh = k.fencedCh ∧ (k.mscDirty line mask).segErr = k.segErr := by
  unfold Stack.mscDirty
  split <;> exact ⟨rfl, rfl⟩
theorem offTrackers_mscBring (s : State) (n line mask : Nat) (w : Bool) : offTrackers (s.mscBring n line mask w) = offTrackers s :=
  (offTrackers_updStack (s.mscRoom n line) n fun k => mscFill_keeps k line mask).trans (offTrackers_mscRoom ..)
theorem offTrackers_mscTouch (s : State) (pa : Nat) (w b x : Bool) : offTrackers (s.mscTouch pa w b x) = offTrackers s := by
  unfold State.mscTouch
  split
  · rfl
  · dsimp only
    split
    · rw [offTrackers_bump, offTrackers_bump, offTrackers_bump, offTrackers_trackHot]
    · split
      · rw [offTrackers_updStack _ _ fun k => mscDirty_keeps k _ _, offTrackers_mscBring, offTrackers_bump, offTrackers_trackHot]
      · rw [offTrackers_mscBring, offTrackers_bump, offTrackers_trackHot]
theorem offTrackers_mscReads (s : State) (pas : List Nat) (b : Bool) : offTrackers (s.mscReads pas b) = offTrackers s :=
  foldl_keeps offTrackers _ (fun s _ => offTrackers_mscTouch s _ _ _ _) _ s
/-- What decides whether a home answers. -/
theorem alive_congr {s t : State} (hcxl : t.cxl = s.cxl) (hcenel : t.cenel = s.cenel) (hnet : t.dieNet = s.dieNet)
    (hstack : ∀ n, ((t.stack n).fencedCh, (t.stack n).segErr) = ((s.stack n).fencedCh, (s.stack n).segErr)) {die pa : Nat}
    (ha : Alive s die pa) : Alive t die pa := by
  have hfenced : ∀ n, (t.stack n).fencedCh = (s.stack n).fencedCh := fun n => congrArg Prod.fst (hstack n)
  have hseg : ∀ n, (t.stack n).segErr = (s.stack n).segErr := fun n => congrArg Prod.snd (hstack n)
  have hdead : t.dead pa = s.dead pa := by simp only [State.dead, hcxl, hcenel, hfenced, hseg]
  have hcut : t.cut die pa = s.cut die pa := by simp only [State.cut, hnet]
  rwa [Alive, hdead, hcut]
section
variable {s t : State} (h : offTrackers t = offTrackers s)
include h
theorem bare_of_offTrackers (hb : Bare s) : Bare t := by
  have hdrains : t.drains = s.drains := congrArg (fun x => x.1.drains) h
  have hclusters : t.clusters = s.clusters := congrArg (fun x => x.1.clusters) h
  have hcores : t.cores = s.cores := congrArg (fun x => x.1.cores) h
  have hkeys : ∀ k, t.dcacheKeys k = s.dcacheKeys k := fun k => by simp only [State.dcacheKeys, State.core, hcores]
  simp only [Bare, hdrains, State.cluster, hclusters, hkeys]
  exact hb
theorem alive_of_offTrackers {die pa : Nat} (ha : Alive s die pa) : Alive t die pa :=
  alive_congr (congrArg (fun x => x.1.cxl) h) (congrArg (fun x => x.1.cenel) h) (congrArg (fun x => x.1.dieNet) h) (fun n => congrFun (congrArg Prod.snd h) n) ha
theorem mem_of_offTrackers : t.mem = s.mem := congrArg (fun x => x.1.mem) h
end

-- Bytes of a number (spec/00 R5) -----------------------------------------------------------------------------------------------------------

theorem bytesLE_length (n v : Nat) : (bytesLE n v).length = n := by
  induction n generalizing v with
  | zero => rfl
  | succ n ih => rw [bytesLE, List.length_cons, ih]
theorem leOf_bytesLE (n v : Nat) : leOf (bytesLE n v) = v % 2 ^ (8 * n) := by
  induction n generalizing v with
  | zero => simp [bytesLE, leOf, Nat.mod_one]
  | succ n ih =>
    rw [bytesLE, leOf, ih, BitVec.toNat_ofNat, show 8 * (n + 1) = 8 + 8 * n by omega, pow_add, Nat.mod_mul]
    rfl
/-- Cells of bytes one after another. -/
theorem writeCells_run (m : List Host.Cell) (pa : Nat) (bs : List Byte) :
    Memory.writeCells m (((upTo bs.length).map (pa + ·)).zip bs) = Memory.writeN m pa bs := by
  induction bs generalizing m pa with
  | nil => rfl
  | cons b bs ih =>
    have hshift : (List.range bs.length).map ((pa + ·) ∘ Nat.succ) = (List.range bs.length).map (pa + 1 + ·) :=
      List.map_congr_left fun i _ => by simp only [Function.comp]; omega
    have := ih (Memory.write m pa b) (pa + 1)
    rw [upTo] at *
    rw [List.length_cons, List.range_succ_eq_map, List.map_cons, List.map_map, hshift, List.zip_cons_cons, Memory.writeCells, Memory.writeN, add_zero,
      this]
theorem readN_writeN (m : List Host.Cell) (pa : Nat) (bs : List Byte) : Memory.readN (Memory.writeN m pa bs) pa bs.length = bs := by
  rw [Memory.readN_eq]
  refine List.ext_getElem (by simp) fun i h _ => ?_
  simp only [List.length_map, List.length_range] at h
  rw [List.getElem_map, List.getElem_range, Memory.read_writeN_inside _ _ _ _ h]

-- Homes where nothing is cached (spec/14 R278) ---------------------------------------------------------------------------------------

theorem mem_settle_alive (s : State) {d : Nat} {cells : List Host.Cell} (ha : ∀ c ∈ cells, Alive s d c.1) (marks : List Nat) :
    (s.settle d cells marks).mem = Memory.writeCells s.mem cells := by
  have hall : cells.filter (fun c => !s.dead c.1 && !s.cut d c.1) = cells := by
    refine List.filter_eq_self.2 fun c hc => ?_
    obtain ⟨hdead, hcut⟩ := ha c hc
    simp [hdead, hcut]
  unfold State.settle
  dsimp only
  rw [hall]
  exact foldl_keeps State.mem _ (fun s b => mem_of_offPath (offPath_mscTouch s _ _ _ _)) _ _
theorem mem_wakeOthers (s : State) (h : Option Nat) (pas : List Nat) : (s.wakeOthers h pas).mem = s.mem := by
  unfold State.wakeOthers
  dsimp only
  split <;> rfl
section
variable {s : State} (hb : Bare s)
include hb
theorem flushDrains_bare : s.flushDrains = s := by
  rw [State.flushDrains, hb.1]
  rfl
theorem purgeDie_bare (k : Option Nat) (pa : Nat) : s.purgeDie k pa = (s, []) := by
  unfold State.purgeDie
  generalize clustersOfDie (homeDie pa) = l
  induction l with
  | nil => rfl
  | cons j l ih =>
    obtain ⟨hlines, hatoms, -, hkeys⟩ := hb.2 j
    rw [List.foldl_cons]
    simpa [hlines, hatoms, hkeys] using ih
/-- Every sector of some cells purged. -/
theorem purgeAll_bare (k : Option Nat) (pas : List Nat) :
    pas.foldl (fun (x : State × List Host.Cell) pa => ((x.1.purgeDie k pa).1, x.2 ++ (x.1.purgeDie k pa).2)) (s, []) = (s, []) := by
  induction pas with
  | nil => rfl
  | cons pa pas ih => rw [List.foldl_cons, purgeDie_bare hb, List.append_nil, ih]
theorem accept_bare (d : Nat) (cells : List Host.Cell) : s.accept none d cells [] = s.settle d cells [] := by
  have := purgeAll_bare hb none (sectorBytes cells)
  unfold State.accept
  dsimp only
  rw [this]
/-- Bytes written by an agent outside the clusters, at homes that answer. -/
theorem writeHome_bare {d pa n v : Nat} (ha : ∀ i, i < n → Alive s d (pa + i)) : (s.writeHome d pa n v).mem = Memory.writeN s.mem pa (bytesLE n v) := by
  have hcells : ∀ c ∈ ((upTo n).map (pa + ·)).zip (bytesLE n v), Alive s d c.1 := fun c hc => by
    obtain ⟨i, hi, heq⟩ := List.mem_map.1 (List.of_mem_zip hc).1
    exact heq ▸ ha i (List.mem_range.1 hi)
  have hrun := writeCells_run s.mem pa (bytesLE n v)
  rw [bytesLE_length] at hrun
  rw [State.writeHome, flushDrains_bare hb, mem_wakeOthers, accept_bare hb, mem_settle_alive s hcells, hrun]
/-- A number added to a word at its home. -/
theorem addWord_bare {d pa n : Nat} (ha : ∀ i, i < 8 → Alive s d (pa + i)) :
    (s.addWord d pa n).mem = Memory.writeN s.mem pa (bytesLE 8 ((s.readHome pa 8 + n) % 2 ^ 64)) := by
  have hkeep := offTrackers_mscReads s ((upTo 8).map (pa + ·)) false
  rw [State.addWord, flushDrains_bare hb, purgeDie_bare hb, State.readDevice]
  dsimp only
  rw [writeHome_bare (bare_of_offTrackers hkeep hb) fun i hi => alive_of_offTrackers hkeep (ha i hi), mem_of_offTrackers hkeep]
end
theorem readHome_written (s : State) {t : State} {pa n v : Nat} (ht : t.mem = Memory.writeN s.mem pa (bytesLE n v)) (hv : v < 2 ^ (8 * n)) :
    t.readHome pa n = v ∧ ∀ a, (a < pa ∨ pa + n ≤ a) → Memory.read t.mem a = Memory.read s.mem a := by
  have hread := readN_writeN s.mem pa (bytesLE n v)
  rw [bytesLE_length] at hread
  refine ⟨by rw [State.readHome, ht, hread, leOf_bytesLE, Nat.mod_eq_of_lt hv], fun a ha => ?_⟩
  rw [ht, Memory.read_writeN_outside _ _ _ _ (by rwa [bytesLE_length])]

/-- The word is the sum, and no other byte changes. -/
theorem addWord_gains {s : State} (hb : Bare s) {d pa n : Nat} (ha : ∀ i, i < 8 → Alive s d (pa + i)) :
    (s.addWord d pa n).readHome pa 8 = (s.readHome pa 8 + n) % 2 ^ 64 ∧
      ∀ a, (a < pa ∨ pa + 8 ≤ a) → Memory.read (s.addWord d pa n).mem a = Memory.read s.mem a :=
  readHome_written s (addWord_bare hb ha) (Nat.mod_lt _ (Nat.two_pow_pos 64))

-- Counters (spec/18 R367, R369) ---------------------------------------------------------------------------------------------------------

theorem leOf_lt (bs : List Byte) : leOf bs < 2 ^ (8 * bs.length) := by
  induction bs with
  | nil => simp [leOf]
  | cons b bs ih =>
    have := b.isLt
    rw [leOf, List.length_cons, show 8 * (bs.length + 1) = 8 + 8 * bs.length by omega, pow_add]
    omega
theorem readHome_lt (s : State) (pa n : Nat) : s.readHome pa n < 2 ^ (8 * n) := by
  have := leOf_lt (Memory.readN s.mem pa n)
  rwa [Memory.readN_length] at this
theorem creditTotal_off {s : State} (c : Nat) (hen : s.ctbase.getLsbD 0 = false) : s.creditTotal c = s := by
  rw [State.creditTotal, ctbaseEn, hen]
  rfl
theorem alive_lastRead {s : State} (l : Tab Nat) {d pa : Nat} (ha : Alive s d pa) : Alive { s with lastRead := l } d pa :=
  alive_congr rfl rfl rfl (fun _ => rfl) ha
/-- A counter's total takes what the counter has gained since its last reading. -/
theorem creditTotal_mem {s : State} {c : Nat} (hen : s.ctbase.getLsbD 0 = true) (hb : Bare s)
    (ha : ∀ i, i < 8 → Alive s (sweeperOf c) (totalAddr s.ctbase c + i)) :
    let total := totalAddr s.ctbase c
    (s.creditTotal c).readHome total 8 = (s.readHome total 8 + (Tab.get 0 s.counters c + 2 ^ 32 - Tab.get 0 s.lastRead c) % 2 ^ 32) % 2 ^ 64 ∧
      ∀ a, (a < total ∨ total + 8 ≤ a) → Memory.read (s.creditTotal c).mem a = Memory.read s.mem a := by
  intro total
  obtain ⟨adv, hadv⟩ : ∃ adv, adv = (Tab.get 0 s.counters c + 2 ^ 32 - Tab.get 0 s.lastRead c) % 2 ^ 32 := ⟨_, rfl⟩
  obtain ⟨u, hu⟩ : ∃ u : State, u = { s with lastRead := Tab.put s.lastRead c (Tab.get 0 s.counters c) } := ⟨_, rfl⟩
  have hcredit : s.creditTotal c = if adv = 0 then u else u.addWord (sweeperOf c) total adv := by
    simp only [State.creditTotal, ctbaseEn, hen, Bool.not_true, Bool.false_eq_true, if_false]
    rw [← hadv, ← hu]
  have humem : u.mem = s.mem := by rw [hu]
  have huread : u.readHome total 8 = s.readHome total 8 := by rw [State.readHome, State.readHome, humem]
  rw [hcredit, ← hadv]
  clear hadv
  by_cases h0 : adv = 0
  · rw [if_pos h0, huread, h0, add_zero, Nat.mod_eq_of_lt (readHome_lt ..), humem]
    exact ⟨rfl, fun _ _ => rfl⟩
  · rw [if_neg h0]
    have hub : Bare u := by rw [hu]; exact hb
    have hua : ∀ i, i < 8 → Alive u (sweeperOf c) (total + i) := fun i hi => by
      rw [hu]
      exact alive_lastRead _ (ha i hi)
    rw [← huread, ← humem]
    exact addWord_gains hub hua
end Sys2Proof.Claims
end

section
/-!
PROOFS. Writes of cnval (spec/18 R367, R369), and what a write of a stream's registers does (spec/18 R351).
-/
namespace Sys2Proof.Claims
open Machine

-- cnval (spec/18 R367, R369) -----------------------------------------------------------------------------------------------------------------

theorem totalAddr_eq (base : Word) (c : Nat) : totalAddr base c = base.toNat / 2 ^ 21 % 2 ^ 31 * 2 ^ 21 + 8 * c := rfl
theorem cnvalWrite_gives {h : Nat} {v : Word} {s : State} (hcounts : countsAt (s.hart h).cnsel.toNat = true) :
    let b := v.toNat % 2 ^ 32
    ∃ t, exec (.cnvalWrite h v) s = .next t ∧
      let c := (s.hart h).cnsel.toNat
      let total := s.ctbase.toNat / 2 ^ 21 % 2 ^ 31 * 2 ^ 21 + 8 * c
      Tab.get 0 t.counters c = b ∧ Tab.get 0 t.lastRead c = b ∧
      (s.ctbase.getLsbD 0 = false → t.mem = s.mem ∧ ∀ i, i ≠ c → Tab.get 0 t.counters i = Tab.get 0 s.counters i) ∧
      (s.ctbase.getLsbD 0 = true → Uncached s → servedBy total ≠ .mgmt → (∀ i, i < 8 → Alive s (sweeperOf c) (total + i)) →
        t.readHome total 8 = (s.readHome total 8 + (Tab.get 0 s.counters c + 2 ^ 32 - Tab.get 0 s.lastRead c) % 2 ^ 32) % 2 ^ 64 ∧
        ∀ a, (a < total ∨ total + 8 ≤ a) → Memory.read t.mem a = Memory.read s.mem a) := by
  intro b
  generalize hc : (s.hart h).cnsel.toNat = c at *
  obtain ⟨u, hu⟩ : ∃ u, u = s.creditTotal c := ⟨_, rfl⟩
  have hwrite : s.writeCounter c b =
      { u with counters := Tab.put u.counters c (b % 2 ^ 32), lastRead := Tab.put u.lastRead c (b % 2 ^ 32), cnWrite := some c } := by
    simp only [State.writeCounter, hcounts, Bool.not_true, Bool.false_eq_true, if_false, hu]
  have hb : b % 2 ^ 32 = b := Nat.mod_mod ..
  have hexec : exec (.cnvalWrite h v) s = .next (s.writeCounter (s.hart h).cnsel.toNat b) := rfl
  refine ⟨_, by rw [hexec, hc, hwrite, hb], ?_⟩
  dsimp only
  refine ⟨(Tab.get_put ..).trans (if_pos rfl), (Tab.get_put ..).trans (if_pos rfl), fun hen => ?_, fun hen huncached _ halive => ?_⟩
  · rw [hu, creditTotal_off c hen]
    exact ⟨rfl, fun i hi => (Tab.get_put ..).trans (if_neg hi)⟩
  · rw [← totalAddr_eq] at halive ⊢
    have := creditTotal_mem hen huncached.1 halive
    rw [← hu] at this
    exact this

-- Streams (spec/18 R351) ----------------------------------------------------------------------------------------------------------------------

theorem setStream_self (s : State) (n : Nat) (v : Stream) : (s.setStream n v).stream n = v := (State.setStream_stream ..).trans (if_pos rfl)
/-- A write of a stream's registers: where it turns on, written is read from the header. -/
theorem setStreamRegs_stream (s : State) (n : Nat) (base ctl : Word) :
    (s.setStreamRegs n base ctl).stream n =
      { s.stream n with sbase := base, sctl := ctl,
                        written := if ctl.getLsbD 63 = true ∧ (s.stream n).en = false then s.readHome (bitsOf base.toNat 51 6 * 64) 8
                          else (s.stream n).written } := by
  obtain ⟨u, hu⟩ : ∃ u, u = s.setStream n { s.stream n with sbase := base, sctl := ctl } := ⟨_, rfl⟩
  have hself : u.stream n = { s.stream n with sbase := base, sctl := ctl } := hu ▸ setStream_self ..
  have hread : u.readHome (u.stream n).header 8 = s.readHome (bitsOf base.toNat 51 6 * 64) 8 := by
    rw [hself, State.readHome, State.readHome, hu]
    rfl
  have hkeep : ∀ pas, (u.mscReads pas).stream n = u.stream n := fun pas => by
    have hstreams : (u.mscReads pas).streams = u.streams :=
      congrArg (fun x : State × (Nat → List Nat × List Nat) => x.1.streams) (offTrackers_mscReads u pas false)
    exact congrArg (Tab.get ({} : Stream) · n) hstreams
  rw [State.setStreamRegs]
  dsimp only
  rw [← hu, State.readDevice, hread]
  by_cases hon : ctl.getLsbD 63 = true ∧ (s.stream n).en = false
  · rw [if_pos (by simp [hon]), if_pos hon, setStream_self, hkeep, hself]
  · rw [if_neg (by simpa using hon), if_neg hon, hself]
theorem disableStream_stream (s : State) (n : Nat) :
    (s.disableStream n).stream n = { s.stream n with sctl := keep 0x7FFFFFFFFFFFFFFF (s.stream n).sctl, drops := 0, firstDrop := 0, house := [] } :=
  setStream_self ..
/-- Whether a write of an enabled stream's registers discards what it had pending. -/
def discards (t : Stream) (base ctl : Word) : Prop :=
  t.en = true ∧ (base ≠ t.sbase ∨ ctl.getLsbD 62 ≠ t.ll ∨ ctl.toNat % 32 ≠ t.size ∨ ctl.getLsbD 63 = false)
theorem writeStream_eq (s : State) (n : Nat) (base ctl : Word) :
    (discards (s.stream n) base ctl → s.writeStream n base ctl = (s.disableStream n).setStreamRegs n base ctl) ∧
      (¬ discards (s.stream n) base ctl → s.writeStream n base ctl = s.setStreamRegs n base ctl) := by
  obtain ⟨c, hc⟩ : ∃ c : Bool, c = (((s.stream n).en && (base != (s.stream n).sbase || (ctl.getLsbD 62 != (s.stream n).ll) ||
      ctl.toNat % 32 != (s.stream n).size)) || ((s.stream n).en && !ctl.getLsbD 63)) := ⟨_, rfl⟩
  have hiff : c = true ↔ discards (s.stream n) base ctl := by
    rw [hc, discards]
    cases (s.stream n).en <;> simp [or_assoc]
  have hwrite : s.writeStream n base ctl = (if c = true then s.disableStream n else s).setStreamRegs n base ctl := by
    rw [hc]
    rfl
  rw [hwrite, ← hiff]
  exact ⟨fun h => by rw [if_pos h], fun h => by rw [if_neg h]⟩
section
variable {s : State} {n : Nat} {base ctl : Word}
/-- A write that discards: nothing is pending, and written is read again where the stream stays enabled. -/
theorem writeStream_discards (h : discards (s.stream n) base ctl) :
    (s.writeStream n base ctl).stream n =
      { s.stream n with sbase := base, sctl := ctl, drops := 0, firstDrop := 0, house := [],
                        written := if ctl.getLsbD 63 = true then s.readHome (bitsOf base.toNat 51 6 * 64) 8 else (s.stream n).written } := by
  have hoff : ((s.disableStream n).stream n).en = false := by
    rw [disableStream_stream, Stream.en, keep, BitVec.getLsbD_and]
    exact Bool.and_false _
  rw [(writeStream_eq ..).1 h, setStreamRegs_stream, hoff, disableStream_stream]
  simp only [and_true]
  rfl
theorem writeStream_keeps (h : ¬ discards (s.stream n) base ctl) :
    (s.writeStream n base ctl).stream n =
      { s.stream n with sbase := base, sctl := ctl,
                        written := if ctl.getLsbD 63 = true ∧ (s.stream n).en = false then s.readHome (bitsOf base.toNat 51 6 * 64) 8
                          else (s.stream n).written } := by
  rw [(writeStream_eq ..).2 h, setStreamRegs_stream]
theorem writeStream_regs : ((s.writeStream n base ctl).stream n).sbase = base ∧ ((s.writeStream n base ctl).stream n).sctl = ctl := by
  by_cases h : discards (s.stream n) base ctl
  · rw [writeStream_discards h]
    exact ⟨rfl, rfl⟩
  · rw [writeStream_keeps h]
    exact ⟨rfl, rfl⟩
end
end Sys2Proof.Claims
end

section
/-!
PROOFS. Streams turned on, moved and turned off (spec/18 R351), and all the register writes together.
-/
namespace Sys2Proof.Claims
open Machine

-- The control word of a stream (spec/18 R351) -------------------------------------------------------------------------------------------

theorem sctlValue_bit (v : Word) {i : Nat} (hi : 16 ≤ i) :
    (sctlValue v).getLsbD i = (v.getLsbD i && (0xF7FF0FFFFFFF0000 : Word).getLsbD i || (0x200000 : Word).getLsbD i) := by
  have hsize : clampField v 4 0 4 20 < 2 ^ i :=
    lt_of_lt_of_le (b := 2 ^ 16) (by simp only [clampField]; omega) (Nat.pow_le_pow_right (by norm_num) hi)
  have hlow : (BitVec.ofNat 64 (clampField v 4 0 4 20)).getLsbD i = false := by
    rw [BitVec.getLsbD_ofNat, Nat.testBit_lt_two_pow hsize, Bool.and_false]
  rw [sctlValue, BitVec.getLsbD_or, BitVec.getLsbD_or, keep, BitVec.getLsbD_and, hlow, Bool.or_false]
  rfl
theorem sctlValue_en (v : Word) : (sctlValue v).getLsbD 63 = v.getLsbD 63 := by
  rw [sctlValue_bit v (by norm_num)]
  exact (Bool.or_false _).trans (Bool.and_true _)
theorem sctlValue_ll (v : Word) : (sctlValue v).getLsbD 62 = v.getLsbD 62 := by
  rw [sctlValue_bit v (by norm_num)]
  exact (Bool.or_false _).trans (Bool.and_true _)
theorem sctlValue_size (v : Word) : (sctlValue v).toNat % 32 = max 4 (min 20 (v.toNat % 32)) := by
  have hclamp : clampField v 4 0 4 20 = max 4 (min 20 (v.toNat % 32)) := by
    simp only [clampField, bitsOf, pow_zero, Nat.div_one, mul_one]
    norm_num
  have hmask : (keep 0xF7FF0FFFFFFF0000 v).toNat % 2 ^ 5 = 0 := by
    rw [keep, BitVec.toNat_and, Nat.and_mod_two_pow]
    exact Nat.and_zero _
  have hsize : max 4 (min 20 (v.toNat % 32)) < 2 ^ 5 := by omega
  change (sctlValue v).toNat % 2 ^ 5 = _
  rw [sctlValue, hclamp, BitVec.toNat_or, BitVec.toNat_or, Nat.or_mod_two_pow, Nat.or_mod_two_pow, hmask, toNat_ofNat_lt (by omega),
    Nat.mod_eq_of_lt hsize]
  exact Nat.zero_or _

-- Writes of sctl and sbase -----------------------------------------------------------------------------------------------------------------

theorem streamEnable_gives {v : Word} (s : State) (n : Nat) (hv : v.getLsbD 63 = true) :
    ∃ t, exec (.streamEnable n v) s = .next t ∧ (t.stream n).sctl.getLsbD 63 = true ∧
      (t.stream n).sbase = (s.stream n).sbase ∧
      (t.stream n).size = max 4 (min 20 (v.toNat % 32)) ∧ (t.stream n).ll = v.getLsbD 62 ∧
      ((s.stream n).sctl.getLsbD 63 = false → (t.stream n).written = s.readHome (s.stream n).header 8) ∧
      ((s.stream n).sctl.getLsbD 63 = true → (s.stream n).size ≠ (t.stream n).size ∨ (s.stream n).ll ≠ (t.stream n).ll →
        (t.stream n).written = s.readHome (s.stream n).header 8 ∧ (t.stream n).drops = 0 ∧ (t.stream n).house = []) := by
  have hen : (sctlValue v).getLsbD 63 = true := (sctlValue_en v).trans hv
  obtain ⟨t, ht⟩ : ∃ t, t = s.writeStream n (s.stream n).sbase (sctlValue v) := ⟨_, rfl⟩
  obtain ⟨hbase, hctl⟩ : (t.stream n).sbase = (s.stream n).sbase ∧ (t.stream n).sctl = sctlValue v := ht ▸ writeStream_regs
  have hsize : (t.stream n).size = (sctlValue v).toNat % 32 := by rw [Stream.size, hctl]
  have hll : (t.stream n).ll = (sctlValue v).getLsbD 62 := by rw [Stream.ll, hctl]
  refine ⟨t, ht ▸ if_pos hv, hctl ▸ hen, hbase, hsize.trans (sctlValue_size v), hll.trans (sctlValue_ll v), fun hoff => ?_, fun hon hdiff => ?_⟩
  · have hkeeps : ¬ discards (s.stream n) (s.stream n).sbase (sctlValue v) := fun hd => by
      have := hd.1
      rw [Stream.en, hoff] at this
      exact Bool.false_ne_true this
    rw [ht, writeStream_keeps hkeeps]
    exact if_pos ⟨hen, hoff⟩
  · rw [hsize, hll] at hdiff
    have hdiscards : discards (s.stream n) (s.stream n).sbase (sctlValue v) :=
      ⟨hon, hdiff.elim (fun h => .inr (.inr (.inl h.symm))) fun h => .inr (.inl h.symm)⟩
    rw [ht, writeStream_discards hdiscards]
    exact ⟨if_pos hen, rfl, rfl⟩
theorem streamDisable_gives {v : Word} (s : State) (n : Nat) (hv : v.getLsbD 63 = false) :
    ∃ t, exec (.streamDisable n v) s = .next t ∧ (t.stream n).sctl.getLsbD 63 = false ∧
      ((s.stream n).sctl.getLsbD 63 = true → (t.stream n).drops = 0 ∧ (t.stream n).house = []) := by
  have hen : (sctlValue v).getLsbD 63 = false := (sctlValue_en v).trans hv
  refine ⟨s.writeStream n (s.stream n).sbase (sctlValue v), if_neg (by rw [hv]; exact Bool.false_ne_true), ?_, fun hon => ?_⟩
  · rw [writeStream_regs.2]
    exact hen
  · rw [writeStream_discards ⟨hon, .inr (.inr (.inr hen))⟩]
    exact ⟨rfl, rfl⟩
theorem cregOf_sbase : ∀ n < 16, cregOf (BitVec.ofNat 12 (0x100 + 2 * n)) = some (.sbase n) := by decide
theorem setSbase_gives {h n : Nat} {s : State} (a : Reg) (hn : n < 16) (hsup : (s.hart h).sup = true)
    (hon : (s.stream n).sctl.getLsbD 63 = true) :
    let base := (s.hart h).readX a &&& 0x000FFFFFFFFFFFC0
    ∃ t, exec (.cset a (BitVec.ofNat 12 (0x100 + 2 * n))) { s with cur := h } = .next t ∧ (t.stream n).sbase = base ∧
      (t.stream n).sctl = (s.stream n).sctl ∧ (base ≠ (s.stream n).sbase →
        (t.stream n).written = s.readHome (base.toNat / 64 % 2 ^ 46 * 64) 8 ∧ (t.stream n).drops = 0 ∧ (t.stream n).house = []) := by
  intro base
  obtain ⟨u, hu⟩ : ∃ u, u = State.writeStream { s with cur := h } n base (s.stream n).sctl := ⟨_, rfl⟩
  have hexec : exec (.cset a (BitVec.ofNat 12 (0x100 + 2 * n))) { s with cur := h } = .next u.advance := by
    rw [hu]
    exact cregWord_set (op := .set) (s := { s with cur := h }) rfl (.inr hsup) (cregOf_sbase n hn) rfl a
  obtain ⟨hbase, hctl⟩ : (u.stream n).sbase = base ∧ (u.stream n).sctl = (s.stream n).sctl := hu ▸ writeStream_regs
  refine ⟨u.advance, hexec, hbase, hctl, fun hne => ?_⟩
  have hdiscards : discards ((State.stream { s with cur := h }) n) base (s.stream n).sctl := ⟨hon, .inl hne⟩
  change (u.stream n).written = _ ∧ (u.stream n).drops = 0 ∧ (u.stream n).house = []
  rw [hu, writeStream_discards hdiscards]
  exact ⟨if_pos hon, rfl, rfl⟩

/-- Settles O44: each write by the lemma of its register; those of a stream turn on whether the write `discards` what the stream had pending. -/
theorem registerEvents : Obligations.RegisterEvents := by
  unfold Obligations.RegisterEvents
  intro h op d a v s
  exact ⟨fun hruns hdrained => waiting_registers op d a hruns hdrained, fun hruns hdrained hown => kwin_gives op d a hruns hdrained hown,
    ptempWrite_gives h v s, tinvWrite_gives v s, fun hcounts => cnvalWrite_gives hcounts, fun core u => lcfgWrite_gives core u v s,
    fun k i hi => residencyWrite_gives k v s hi, tallowWrite_gives h v s, ctbaseWrite_gives v s,
    fun n hv => streamEnable_gives s n hv, fun n hn hsup hon => setSbase_gives a hn hsup hon, fun n hv => streamDisable_gives s n hv,
    fun hoff => jcfgOff_gives s hoff, fun hen hmode hj => jcfgEnable_gives s hen hmode hj,
    fun hen hmode hstate hpeer => jcfgMove_gives s hen hmode hstate hpeer⟩

end Sys2Proof.Claims
end

section
/-!
PROOFS. What a block word leaves that writes a predicate cell (spec/06 R123): the cell of the current row in its register, and the
flags; every other cell, every tag and every vector register stays.
-/
namespace Sys2Proof.Machine

/-- The executing hart with other vector and predicate registers and some flags raised. -/
def Hart.withRows (x : Hart) (v : Tab Nat) (p : Tab Pred) (fl : Flags) : Hart := { x with v := v, p := p, fpflags := x.fpflags ||| fl }
/-- A row that goes on after a change of its hart's registers and flags, charged. -/
theorem goesOn_withRows {s s1 : State} {r : Run} {v : Tab Nat} {p : Tab Pred} {fl : Flags} (hr : s.me.run = some r)
    (hme : s1.me = s.me.withRows v p fl) (hcur : s1.cur = s.cur) (hharts : ∀ k, k ≠ s.cur → s1.hart k = s.hart k)
    (hrest : { s1 with harts := s.harts } = s) :
    Claims.RowGoesOn s (s1.rowNext.chargeMe 2 1) r fl ∧ (s1.rowNext.chargeMe 2 1).me.v = v ∧ (s1.rowNext.chargeMe 2 1).me.p = p := by
  have hrun : s1.me.run = some r := by rw [hme]; exact hr
  have hnext : (s1.rowNext.chargeMe 2 1).me = { s.me.withRows v p fl with
      run := some (Claims.rowChanged r fun x => { x with pc := x.pc + 8 }), ectr := chargeTo s.me.ectr (1 * s1.weight (coreOf s1.cur) 2) } := by
    rw [chargeMe_me, rowNext_eq hrun, State.updMe_me, hme]
    rfl
  refine ⟨⟨?_, ?_, ?_, fun k hk => ?_, hrest⟩, ?_, ?_⟩
  · rw [hnext]
    rfl
  · rw [hnext]
    rfl
  · rw [hnext]
    rfl
  · rw [rowNext_eq hrun]
    refine (updMe_other (s1.updMe _) _ (hcur ▸ hk)).trans ?_
    exact (updMe_other s1 _ (hcur ▸ hk)).trans (hharts k hk)
  · rw [hnext]
    rfl
  · rw [hnext]
    rfl
/-- The cells of every predicate after a write of one. -/
theorem cell_setPred_setCell (x : Hart) (d p : Reg) (i v j : Nat) :
    ((x.setPred d ((x.pred d).setCell i v)).pred p).cell j = if p = d ∧ j = i then min v 0x8000 else (x.pred p).cell j := by
  rw [pred_setPred]
  by_cases hp : p = d
  · rw [if_pos hp, cell_setCell, hp]
    simp only [true_and]
  · rw [if_neg hp, if_neg fun h => hp h.1]
theorem tags_setPred_setCell (x : Hart) (d p : Reg) (i v : Nat) :
    ((x.setPred d ((x.pred d).setCell i v)).pred p).prob = (x.pred p).prob ∧
      ((x.setPred d ((x.pred d).setCell i v)).pred p).ind = (x.pred p).ind := by
  rw [pred_setPred]
  by_cases hp : p = d
  · rw [if_pos hp, hp]
    exact ⟨rfl, rfl⟩
  · rw [if_neg hp]
    exact ⟨rfl, rfl⟩
/-- A row ready for a word that writes a cell writes it. -/
theorem gives_of_rowCell {h : BHead} {ts : List ETy} {d : Reg} {m : Option Reg} {f : Run → Hart → Nat → Nat × Flags} {s : State} {r : Run}
    {i : Instr} {v : Nat} {fl : Flags} (hi : exec i s = rowCell h ts d f s) (hr : Claims.RowReady s r h ts m)
    (hf : f r s.me r.cur = (v, fl)) : Claims.CellGives i s r d (min v 0x8000) fl := by
  obtain ⟨hrun, hlets, hcap⟩ := acts_of_ready hr
  obtain ⟨x, hx⟩ : ∃ x, x = s.me.setPred d ((s.me.pred d).setCell r.cur v) := ⟨_, rfl⟩
  obtain ⟨s1, hs1⟩ : ∃ s1, s1 = s.updMe fun y => (y.setPred d ((y.pred d).setCell r.cur v)).raise fl := ⟨_, rfl⟩
  have hme : s1.me = s.me.withRows s.me.v x.p fl := by
    rw [hs1, State.updMe_me, hx]
    rfl
  obtain ⟨hgoes, hv, hp⟩ := goesOn_withRows hrun hme (hs1 ▸ rfl) (fun k hk => hs1 ▸ updMe_other s _ hk) (hs1 ▸ rfl)
  have hpred : ∀ p, (s1.rowNext.chargeMe 2 1).me.pred p = x.pred p := fun p => by
    rw [Hart.pred, hp, ← Hart.pred]
  refine ⟨s1.rowNext.chargeMe 2 1, ?_, hgoes, fun reg => congrArg (Tab.get 0 · reg.toNat) hv, fun p j => ?_, fun p => ?_⟩
  · rw [hi, rowCell, rowWord_acts hrun hlets fun _ => hcap]
    simp only [finish, Op.bind_run, upd_run, hf, hs1]
  · rw [hpred, hx, cell_setPred_setCell]
  · rw [hpred, hx]
    exact tags_setPred_setCell ..

end Sys2Proof.Machine
end

section
/-!
PROOFS. Comparisons of values (spec/06 R129), the product rule of independent fractions (R130), and the ramp of a soft compare with its
fraction (R133).
-/
namespace Sys2Proof.Claims
open Machine

-- Comparisons (spec/06 R129) ------------------------------------------------------------------------------------------------------

/-- A condition holds of an outcome where it holds of what was compared. -/
theorem condHolds_iff {α : Type} [LinearOrder α] (cc : CmpOp) {o : Ordering} {x y : α} (h : o.Compares x y) :
    condHolds cc (some o) = true ↔ Compares cc x y := by
  cases cc
  · exact beq_iff_eq.trans h.eq_eq
  · exact bne_iff_ne.trans (not_congr h.eq_eq)
  · exact beq_iff_eq.trans h.eq_lt
  · exact bne_iff_ne.trans h.ne_gt
  · exact beq_iff_eq.trans h.eq_gt
  · exact bne_iff_ne.trans h.ne_lt
theorem compare_int (a b : Int) : (compare a b).Compares a b := by
  rw [← cmp_eq_compare]
  exact cmp_compares a b
theorem condHolds_none (cc : CmpOp) : condHolds cc none = true ↔ cc = .ne := by cases cc <;> decide
/-- A number as a multiple of a power of two no greater than its own. -/
theorem real_aligned (neg : Bool) (m : Nat) {e g : Int} (h : g ≤ e) :
    real (.num neg m e) = ((if neg then -((m * 2 ^ (e - g).toNat : Nat) : Int) else ((m * 2 ^ (e - g).toNat : Nat) : Int) : Int) : ℝ) * 2 ^ g := by
  rw [real_num, ← align_value m h, ofSign_mul]
  cases neg <;> simp
theorem numCmp_compares (p : Bool) (m : Nat) (e : Int) (q : Bool) (n : Nat) (g : Int) :
    (numCmp p m e q n g).Compares (value (.num p m e)) (value (.num q n g)) := by
  rw [value, value, real_aligned p m (min_le_left e g), real_aligned q n (min_le_right e g), numCmp]
  generalize (if p then -((m * 2 ^ (e - min e g).toNat : Nat) : Int) else _) = a
  generalize (if q then -((n * 2 ^ (g - min e g).toNat : Nat) : Int) else _) = b
  have hpos : (0 : ℝ) < 2 ^ min e g := by positivity
  have lt : ∀ {c d : Int}, c < d → ((c * 2 ^ min e g : ℝ) : EReal) < ((d * 2 ^ min e g : ℝ) : EReal) := fun h =>
    EReal.coe_lt_coe_iff.2 (mul_lt_mul_of_pos_right (Int.cast_lt.2 h) hpos)
  have h := compare_int a b
  cases hc : compare a b <;> rw [hc] at h
  · exact lt h
  · exact congrArg (fun c : Int => ((c * 2 ^ min e g : ℝ) : EReal)) h
  · exact lt h
/-- Numbers and infinities compare by their values. -/
theorem fCmp_compares {x y : FVal} (hx : notNan x) (hy : notNan y) : ∃ o : Ordering, fCmp x y = some o ∧ o.Compares (value x) (value y) := by
  cases x with
  | nan a => exact hx.elim
  | inf a =>
    cases y with
    | nan b => exact hy.elim
    | inf b => cases a <;> cases b <;> exact ⟨_, rfl, by simp [Ordering.Compares, value]⟩
    | num b n g => cases a <;> exact ⟨_, rfl, by simp [Ordering.Compares, value, EReal.coe_lt_top, EReal.bot_lt_coe]⟩
  | num a m e =>
    cases y with
    | nan b => exact hy.elim
    | inf b => cases b <;> exact ⟨_, rfl, by simp [Ordering.Compares, value, EReal.coe_lt_top, EReal.bot_lt_coe]⟩
    | num b n g => exact ⟨_, rfl, numCmp_compares ..⟩
theorem condHolds_fCmp (cc : CmpOp) {x y : FVal} (hx : notNan x) (hy : notNan y) :
    condHolds cc (fCmp x y) = true ↔ Compares cc (value x) (value y) := by
  obtain ⟨o, ho, hc⟩ := fCmp_compares hx hy
  rw [ho, condHolds_iff cc hc]
theorem fCmp_nan {x y : FVal} (h : ¬ notNan x ∨ ¬ notNan y) : fCmp x y = none := by
  cases x with
  | nan a => cases y <;> rfl
  | inf a | num a m e =>
    cases y with
    | nan b => rfl
    | inf b | num b n g => exact absurd h (by simp [notNan])
/-- vcmp of floats: a NaN satisfies no condition but .ne. -/
theorem condHolds_values (cc : CmpOp) (x y : FVal) : condHolds cc (fCmp x y) = true ↔
    (notNan x ∧ notNan y ∧ Compares cc (value x) (value y)) ∨ (cc = .ne ∧ (¬ notNan x ∨ ¬ notNan y)) := by
  by_cases h : notNan x ∧ notNan y
  · rw [condHolds_fCmp cc h.1 h.2]
    simp [h.1, h.2]
  · have hn := not_and_or.1 h
    rw [fCmp_nan hn, condHolds_none]
    simp only [hn, and_true]
    tauto

-- The product rule (spec/06 R130) ---------------------------------------------------------------------------------------------------

/-- The product of two fractions in units of 1/32768, ties to even. -/
theorem andP_chooses (p q : Nat) : Chooses Whole EvenWhole .rne ((p : ℝ) * q / 32768) (andP true p q : ℝ) := by
  have hround : (roundInt .rne false (p * q) (-15)).1 = (andP true p q : Int) := by
    have hshift : ((0 : Int) - -15).toNat = 15 := rfl
    simp only [roundInt, toGrid, andP, roundsUp, hshift]
    norm_num
  have h := (roundInt_chooses .rne false (p * q) (-15)).1
  rw [hround, Int.cast_natCast, real_num, ofSign_false] at h
  convert h using 1
  push_cast
  norm_num
  ring

-- The ramp of a soft compare (spec/06 R133) ---------------------------------------------------------------------------------------------

theorem isNan_eq_false_iff (x : FVal) : isNan x = false ↔ notNan x := by
  rw [← Bool.not_eq_true, isNan_iff, not_not]
theorem fSub_isSum {f : Fmt} (hf : f ≠ .e4m3) (ctl : BitVec 10) (rm : Rm) (x y : FVal) :
    let r := fSub f ctl rm x y
    IsSum f (resultFlush ctl f) rm x (opposite y) (r.bits, r.fl) := by
  rw [fSub, fNeg_eq]
  exact fAdd_isSum hf ctl rm x (opposite y)
theorem softRamp_isRamp (T : BitVec 32) (u v : FVal) : IsRamp T u v (softRamp T u v) := by
  refine ⟨_, _, fSub_isSum (f := .f32) (by decide) 0 .rne u v,
    fDiv_isQuotient (f := .f32) (by decide) 0 .rne _ (valueOf .f32 T.toNat), fun hn => ?_, fun hn => ?_⟩
  · exact if_pos ((isNan_iff _).2 hn)
  · refine ⟨_, fFma_isFused (f := .f32) (by decide) 0 .rne (.num false 1 (-2)) _ (.num false 1 (-1)), ?_⟩
    exact if_neg (by rw [isNan_iff, not_not]; exact hn)

-- The fraction of a ramp (spec/06 R133, R142) -----------------------------------------------------------------------------------------------

/-- The multiples chosen do not change where number and unit are both scaled. -/
theorem toGrid_add (rm : Rm) (neg : Bool) (m : Nat) (e g k : Int) (st : Bool) : toGrid rm neg m (e + k) (g + k) st = toGrid rm neg m e g st := by
  simp only [toGrid, add_le_add_iff_right, add_sub_add_right_eq_sub]
/-- A number above 0 in units of 1/32768. -/
theorem units_chooses (m : Nat) (e : Int) :
    Chooses Whole EvenWhole .rne (32768 * real (.num false m e)) ((toGrid .rne false m e (-15) false).1 : ℝ) := by
  have h := (roundInt_chooses .rne false m (e + 15)).1
  have hunits : ((roundInt .rne false m (e + 15)).1 : ℝ) = (toGrid .rne false m e (-15) false).1 := by
    rw [← toGrid_add .rne false m e (-15) 15]
    simp [roundInt]
  rw [hunits] at h
  convert h using 1
  rw [real_num, real_num, ofSign_false, ofSign_false, zpow_add₀ two_ne_zero]
  norm_num
  ring
theorem Whole.neg (z : ℝ) (h : Whole z) : Whole (-z) := by
  obtain ⟨n, rfl⟩ := h
  exact ⟨-n, by push_cast; rfl⟩
theorem whole_units : Whole 32768 := ⟨32768, by norm_num⟩
theorem value_num (neg : Bool) (m : Nat) (e : Int) : value (.num neg m e) = ((real (.num neg m e) : ℝ) : EReal) := rfl
theorem real_nonneg (m : Nat) (e : Int) : 0 ≤ real (.num false m e) := by
  rw [real_num]
  exact mul_nonneg (Nat.cast_nonneg m) (by positivity)
theorem real_nonpos (m : Nat) (e : Int) : real (.num true m e) ≤ 0 := by
  rw [real_num]
  exact neg_nonpos.2 (mul_nonneg (Nat.cast_nonneg m) (by positivity))
/-- The cell of a number that is not negative. -/
theorem softCell_num_isFraction (m : Nat) (e : Int) : IsFraction (.num false m e) (softCell (.num false m e)) := by
  have hunits := units_chooses m e
  have h0 := real_nonneg m e
  have habs : |32768 * real (.num false m e)| = 32768 * real (.num false m e) := abs_of_nonneg (by linarith)
  simp only [IsFraction, softCell, Bool.false_eq_true, if_false, value_num]
  obtain ⟨n, hn⟩ : ∃ n, n = (toGrid .rne false m e (-15) false).1 := ⟨_, rfl⟩
  rw [← hn] at hunits ⊢
  refine ⟨fun hle => ?_, fun hge => ?_, fun _ hlt => ?_⟩
  · have hle : real (.num false m e) ≤ 0 := by exact_mod_cast hle
    have hzero := hunits.bounded Whole.neg (c := 0) ⟨0, by simp⟩ (by rw [habs]; linarith)
    have : n = 0 := by simpa using hzero
    rw [this, Nat.zero_min]
  · have hge : 1 ≤ real (.num false m e) := by exact_mod_cast hge
    have hbig := hunits.bounds Whole.neg whole_units (by norm_num) (by rw [habs]; linarith)
    rw [Nat.abs_cast] at hbig
    exact Nat.min_eq_right (by exact_mod_cast hbig)
  · have hlt : real (.num false m e) < 1 := by exact_mod_cast hlt
    have hsmall := hunits.bounded Whole.neg whole_units (by rw [habs]; linarith)
    rw [Nat.abs_cast] at hsmall
    rw [Nat.min_eq_left (by exact_mod_cast hsmall)]
    exact hunits
theorem isFraction_zero {q : FVal} (h : value q ≤ 0) : IsFraction q 0 :=
  ⟨fun _ => rfl, fun h1 => absurd (h1.trans h) (by simp), fun h0 => absurd h0 h.not_gt⟩
theorem softCell_isFraction (q : FVal) : IsFraction q (softCell q) := by
  cases q with
  | nan a => exact isFraction_zero le_rfl
  | inf a =>
    cases a
    · exact ⟨fun h => absurd h (by simp [value]), fun _ => rfl, fun _ h => absurd h (by simp [value])⟩
    · exact isFraction_zero bot_le
  | num a m e =>
    cases a
    · exact softCell_num_isFraction m e
    · exact isFraction_zero (EReal.coe_nonpos.2 (real_nonpos m e))
theorem softCell_le (q : FVal) : softCell q ≤ 0x8000 := by
  unfold softCell
  split
  · exact Nat.zero_le _
  · split <;> decide
  · split
    · exact Nat.zero_le _
    · exact Nat.min_le_right ..
/-- A number is below 1 where its exponent is negative. -/
theorem real_lt_one_iff {m : Nat} (e : Int) (hm : m ≠ 0) : real (.num false m e) < 1 ↔ expOf m e < 0 := by
  have hle := expOf_le e hm
  have hlt := lt_expOf (m := m) e one_pos
  rw [real_num, ofSign_false]
  rw [add_zero] at hlt
  refine ⟨fun h => ?_, fun h => hlt.trans_le ?_⟩
  · exact (zpow_lt_one_iff_right₀ one_lt_two).1 (hle.trans_lt h)
  · exact zpow_le_one_of_nonpos₀ one_le_two (by omega)
theorem onRamp_iff (q : FVal) : onRamp q = true ↔ 0 < value q ∧ value q < 1 := by
  cases q with
  | nan a => simp [onRamp, value]
  | inf a => cases a <;> simp [onRamp, value]
  | num a m e =>
    rw [value_num]
    cases a with
    | true =>
      have hle : ((real (.num true m e) : ℝ) : EReal) ≤ 0 := EReal.coe_nonpos.2 (real_nonpos m e)
      exact iff_of_false (by simp [onRamp]) fun h => h.1.not_ge hle
    | false =>
      have hpos : 0 < ((real (.num false m e) : ℝ) : EReal) ↔ m ≠ 0 := by
        rw [← not_iff_not, not_lt, not_not, ← real_eq_zero (neg := false) (e := e)]
        exact ⟨fun h => le_antisymm (by exact_mod_cast h) (real_nonneg m e), fun h => by rw [h]; rfl⟩
      rw [hpos]
      simp only [onRamp, Bool.not_false, Bool.true_and, Bool.and_eq_true, bne_iff_ne, decide_eq_true_eq]
      refine and_congr_right fun hm => ?_
      rw [← real_lt_one_iff e hm]
      exact_mod_cast Iff.rfl

end Sys2Proof.Claims
end

section
/-!
PROOFS. Logic words, soft compares and pset (spec/06 R130, R133, R135), the draws of pcollapse (R138, R139), and pind (R136).
-/
namespace Sys2Proof.Claims
open Machine

-- Words that write a cell ---------------------------------------------------------------------------------------------------------

section
variable (h : BHead) (cc : CmpOp) (t : ETy) (d x y : Reg) (a b : Src) (s : State)
theorem exec_vcmp : exec (.vcmp h cc t d a b) s = rowCell h [t] d (fun r z i =>
    let (v, fl) := cmpBits r.cap.fpctl cc t (rowGet r z t a.r i) (rowGet r z t b.r i)
    (cellOf v, fl)) s := rfl
theorem exec_pand : exec (.pand h d x y) s = logicTwo h d x y (fun _ _ z => z) s := rfl
theorem exec_por : exec (.por h d x y) s = logicTwo h d x y (fun p q z => p + q - z) s := rfl
theorem exec_pxor : exec (.pxor h d x y) s = logicTwo h d x y (fun p q z => p + q - 2 * z) s := rfl
theorem exec_pnot : exec (.pnot h d x) s = rowCell h [] d (fun _ z i => (0x8000 - (z.pred x).cell i, 0)) s := rfl
theorem exec_pmov : exec (.pmov h d x) s = rowCell h [] d (fun _ z i => ((z.pred x).cell i, 0)) s := rfl
theorem exec_pset : exec (.pset h d a) s = rowCell h [.z16] d (fun r z i => (rowGet r z .z16 a.r i, 0)) s := rfl
theorem exec_psgt : exec (.psgt h t d a b) s = softWord .gt false h t d a b s := rfl
theorem exec_psge : exec (.psge h t d a b) s = softWord .ge false h t d a b s := rfl
theorem exec_pslt : exec (.pslt h t d a b) s = softWord .lt true h t d a b s := rfl
theorem exec_psle : exec (.psle h t d a b) s = softWord .le true h t d a b s := rfl
end
theorem cellOf_le (c : Bool) : cellOf c ≤ 0x8000 := by cases c <;> decide

section
variable {h : BHead} {ts : List ETy} {t : ETy} {d : Reg} {a b : Src} {f : Fmt} {s : State} {r : Run} {i : Instr}
/-- A word whose cell is known to be a fraction writes it. -/
theorem gives_cell {g : Run → Hart → Nat → Nat × Flags} {v : Nat} {fl : Flags} (hi : exec i s = rowCell h ts d g s) (hr : RowReady s r h ts none)
    (hg : g r s.me r.cur = (v, fl)) (hv : v ≤ 0x8000) : CellGives i s r d v fl := by
  have := gives_of_rowCell hi hr hg
  rwa [Nat.min_eq_left hv] at this
/-- A logic word of two cells; what pand gives is known (R130). -/
theorem gives_logic {x y : Reg} {g : Nat → Nat → Nat → Nat} {z : Nat} (hi : exec i s = logicTwo h d x y g s) (hr : RowReady s r h [] none)
    (hz : andP ((s.me.pred x).ind && (s.me.pred y).ind) ((s.me.pred x).cell r.cur) ((s.me.pred y).cell r.cur) = z) :
    CellGives i s r d (min (g ((s.me.pred x).cell r.cur) ((s.me.pred y).cell r.cur) z) 0x8000) 0 := by
  rw [logicTwo] at hi
  exact gives_of_rowCell hi hr (hz ▸ rfl)
/-- The logic words (R130): pand by the product rule where both sources are independent, else by the minimum, and the others from it. -/
theorem logic_gives (x y : Reg) (hr : RowReady s r h [] none) :
    let p := (s.me.pred x).cell r.cur
    let q := (s.me.pred y).cell r.cur
    ∃ z : Nat, Chooses Whole EvenWhole .rne ((p : ℝ) * q / 32768) z ∧
      let both := if (s.me.pred x).ind ∧ (s.me.pred y).ind then z else min p q
      CellGives (.pand h d x y) s r d (min both 0x8000) 0 ∧ CellGives (.por h d x y) s r d (min (p + q - both) 0x8000) 0 ∧
      CellGives (.pxor h d x y) s r d (min (p + q - 2 * both) 0x8000) 0 ∧
      CellGives (.pnot h d x) s r d (0x8000 - p) 0 ∧ CellGives (.pmov h d x) s r d (min p 0x8000) 0 := by
  intro p q
  refine ⟨andP true p q, andP_chooses p q, ?_⟩
  intro both
  have hboth : andP ((s.me.pred x).ind && (s.me.pred y).ind) p q = both := by
    by_cases hind : (s.me.pred x).ind = true ∧ (s.me.pred y).ind = true
    · simp only [both, if_pos hind, hind.1, hind.2, Bool.and_self]
    · have : ((s.me.pred x).ind && (s.me.pred y).ind) = false := by rwa [← Bool.not_eq_true, Bool.and_eq_true]
      simp only [both, if_neg hind, this]
      rfl
  exact ⟨gives_logic (exec_pand ..) hr hboth, gives_logic (exec_por ..) hr hboth, gives_logic (exec_pxor ..) hr hboth,
    gives_cell (exec_pnot ..) hr rfl (Nat.sub_le ..), gives_of_rowCell (exec_pmov ..) hr rfl⟩
theorem pset_gives (hr : RowReady s r h [.z16] none) : CellGives (.pset h d a) s r d (min (row s.me a.r 16 r.cur) 0x8000) 0 :=
  gives_of_rowCell (exec_pset ..) hr (by rw [rowGet_eq]; rfl)

-- Comparisons (spec/06 R129) ------------------------------------------------------------------------------------------------------

theorem cmpBits_int (ctl : BitVec 10) (cc : CmpOp) (ht : fmtOf t = none) (u v : Nat) :
    cmpBits ctl cc t u v = (condHolds cc (some (compare (intVal t u) (intVal t v))), 0) := by
  rw [cmpBits, tyFmt_eq, ht, tyInt_eq, tyInt_eq]
theorem cmpBits_float (ctl : BitVec 10) (cc : CmpOp) (ht : fmtOf t = some f) (u v : Nat) :
    cmpBits ctl cc t u v = (condHolds cc (fCmp (operand f ctl u).1 (operand f ctl v).1), (operand f ctl u).2 ||| (operand f ctl v).2) := by
  rw [cmpBits, tyFmt_eq, ht]
theorem vcmp_gives {cc : CmpOp} {c : Bool} {fl : Flags} (hr : RowReady s r h [t] none)
    (hc : cmpBits r.cap.fpctl cc t (element r s.me t a.r r.cur) (element r s.me t b.r r.cur) = (c, fl)) :
    CellGives (.vcmp h cc t d a b) s r d (if c then 0x8000 else 0) fl :=
  gives_cell (exec_vcmp ..) hr (by rw [rowGet_eq, rowGet_eq, hc]; rfl) (cellOf_le c)
theorem vcmp_int (cc : CmpOp) (ht : fmtOf t = none) (hr : RowReady s r h [t] none) :
    ∃ c : Bool, (c = true ↔ Compares cc (intVal t (element r s.me t a.r r.cur)) (intVal t (element r s.me t b.r r.cur))) ∧
      CellGives (.vcmp h cc t d a b) s r d (if c then 0x8000 else 0) 0 :=
  ⟨_, condHolds_iff cc (compare_int ..), vcmp_gives hr (cmpBits_int _ cc ht ..)⟩
theorem vcmp_float (cc : CmpOp) (ht : fmtOf t = some f) (hr : RowReady s r h [t] none) :
    let m := operand f r.cap.fpctl (element r s.me t a.r r.cur)
    let n := operand f r.cap.fpctl (element r s.me t b.r r.cur)
    ∃ c : Bool, (c = true ↔ (notNan m.1 ∧ notNan n.1 ∧ Compares cc (value m.1) (value n.1)) ∨ (cc = .ne ∧ (¬ notNan m.1 ∨ ¬ notNan n.1))) ∧
      CellGives (.vcmp h cc t d a b) s r d (if c then 0x8000 else 0) (m.2 ||| n.2) :=
  ⟨_, condHolds_values cc .., vcmp_gives hr (cmpBits_float _ cc ht ..)⟩

-- Soft compares (spec/06 R133, R134) ------------------------------------------------------------------------------------------------

/-- A soft compare by its cases: a NaN operand, the hard compare at T = +0, and the ramp. -/
theorem softCmp_eq (ht : fmtOf t = some f) (ctl : BitVec 10) (T : BitVec 32) (cc : CmpOp) (swap : Bool) (u v : Nat) :
    let m := operand f ctl u
    let n := operand f ctl v
    softCmp ctl T cc swap t u v =
      if isNan m.1 || isNan n.1 then (0, m.2 ||| n.2 ||| 0x010)
      else if T = 0 then (cellOf (condHolds cc (fCmp m.1 n.1)), m.2 ||| n.2)
      else match softRamp T (if swap then n.1 else m.1) (if swap then m.1 else n.1) with
        | none => (0, m.2 ||| n.2 ||| 0x010)
        | some q => (softCell q, m.2 ||| n.2) := by
  rw [softCmp, tyFmtD_of ht]
  rfl
theorem soft_gives {cc : CmpOp} {swap : Bool} (ht : fmtOf t = some f) (hr : RowReady s r h [t] none)
    (hi : exec i s = softWord cc swap h t d a b s) :
    let m := operand f r.cap.fpctl (element r s.me t a.r r.cur)
    let n := operand f r.cap.fpctl (element r s.me t b.r r.cur)
    let fl := m.2 ||| n.2
    ((¬ notNan m.1 ∨ ¬ notNan n.1) → CellGives i s r d 0 (fl ||| 0x010)) ∧
    (notNan m.1 → notNan n.1 → r.cap.ptemp = 0 → ∃ c : Bool, (c = true ↔ Compares cc (value m.1) (value n.1)) ∧
      CellGives i s r d (if c then 0x8000 else 0) fl) ∧
    (notNan m.1 → notNan n.1 → r.cap.ptemp ≠ 0 →
      ∃ z, IsRamp r.cap.ptemp (if swap then n.1 else m.1) (if swap then m.1 else n.1) z ∧
        match z with
        | none => CellGives i s r d 0 (fl ||| 0x010)
        | some z => ∃ k, IsFraction z k ∧ CellGives i s r d k fl) := by
  intro m n fl
  rw [softWord] at hi
  have hsoft := softCmp_eq ht r.cap.fpctl r.cap.ptemp cc swap (element r s.me t a.r r.cur) (element r s.me t b.r r.cur)
  have gives : ∀ {v : Nat} {fl' : Flags}, softCmp r.cap.fpctl r.cap.ptemp cc swap t (element r s.me t a.r r.cur) (element r s.me t b.r r.cur) =
      (v, fl') → v ≤ 0x8000 → CellGives i s r d v fl' := fun hv hle => gives_cell hi hr (by rw [rowGet_eq, rowGet_eq, hv]) hle
  have numbers : notNan m.1 → notNan n.1 → ¬ (isNan m.1 || isNan n.1) = true := fun hm hn => by
    simp only [(isNan_eq_false_iff _).2 hm, (isNan_eq_false_iff _).2 hn, Bool.or_self, Bool.false_eq_true, not_false_eq_true]
  refine ⟨fun hnan => gives (hsoft.trans (if_pos ?_)) (Nat.zero_le _), fun hm hn hT => ?_, fun hm hn hT => ?_⟩
  · rwa [Bool.or_eq_true, isNan_iff, isNan_iff]
  · exact ⟨_, condHolds_fCmp cc hm hn, gives (hsoft.trans ((if_neg (numbers hm hn)).trans (if_pos hT))) (cellOf_le _)⟩
  · have hramp := hsoft.trans ((if_neg (numbers hm hn)).trans (if_neg hT))
    refine ⟨_, softRamp_isRamp .., ?_⟩
    split
    next hz => exact gives (by rw [hramp, hz]) (Nat.zero_le _)
    next z hz => exact ⟨_, softCell_isFraction z, gives (by rw [hramp, hz]) (softCell_le z)⟩
end

-- Draws (spec/06 R138, R139) ----------------------------------------------------------------------------------------------------------------

/-- One round of the generator as numbers. -/
theorem toNat_round (z k : Word) (n : Nat) : ((z ^^^ (z >>> n)) * k).toNat = (z.toNat ^^^ (z.toNat / 2 ^ n)) * k.toNat % 2 ^ 64 := by
  rw [BitVec.toNat_mul, BitVec.toNat_xor, BitVec.toNat_ushiftRight, Nat.shiftRight_eq_div_pow]
theorem mix_drawn (c : Word) (i : Nat) : (mix c i).toNat / 2 ^ 49 = drawn c.toNat i := by
  have hstart : (c ^^^ BitVec.ofNat 64 (i * 2 ^ 50)).toNat = c.toNat ^^^ (i * 2 ^ 50 % 2 ^ 64) := by
    rw [BitVec.toNat_xor, BitVec.toNat_ofNat]
  unfold mix drawn
  dsimp only
  rw [toNat_round, toNat_round, toNat_round, hstart]
  rfl
theorem collapseBit_zero (c : Word) (i : Nat) : collapseBit c i 0 = false := by simp [collapseBit]
/-- A draw has 15 bits, so that a fraction of 1 is certain. -/
theorem collapseBit_one (c : Word) (i : Nat) : collapseBit c i 0x8000 = true := by
  have := (mix c i).isLt
  simp only [collapseBit, decide_eq_true_eq]
  omega
theorem collapses_eq (r : Run) : collapses r.words = collapseWords r := by
  simp only [collapses, collapseWords, beq_eq_decide]
/-- The place of an address in an ascending list is the number of those below it. -/
theorem idxOf_ascending {l : List Nat} (hl : l.Pairwise (· < ·)) {x : Nat} (hx : x ∈ l) : l.idxOf x = (l.filter (· < x)).length := by
  induction l with
  | nil => cases hx
  | cons y l ih =>
    obtain ⟨hy, hl⟩ := List.pairwise_cons.1 hl
    obtain rfl | hx := List.mem_cons.1 hx
    · have hnone : l.filter (· < x) = [] := List.filter_eq_nil_iff.2 fun z hz => by simpa using (hy z hz).le
      simp [hnone]
    · have hlt := hy x hx
      rw [List.idxOf_cons_ne _ hlt.ne, ih hl hx, List.filter_cons_of_pos (by simpa using hlt), List.length_cons]
theorem collapseWords_ascending {r : Run} (h : r.words.Pairwise (·.1 < ·.1)) : (collapseWords r).Pairwise (· < ·) :=
  List.pairwise_map.2 (h.filter _)
/-- The generator counter of a row's pcollapse word (R139). -/
def collapseCounter (r : Run) : Word :=
  r.g0 + BitVec.ofNat 64 ((collapses r.words).length * r.row.count r.row.pc + (collapses r.words).idxOf r.row.pc)
theorem collapseCounter_toNat {r : Run} (hw : r.words.Pairwise (·.1 < ·.1)) (hpc : r.row.pc ∈ collapseWords r) :
    (collapseCounter r).toNat = (r.g0.toNat + (collapseWords r).length * r.row.count r.row.pc +
      ((collapseWords r).filter (· < r.row.pc)).length) % 2 ^ 64 := by
  rw [collapseCounter, BitVec.toNat_add, BitVec.toNat_ofNat, Nat.add_mod_mod, collapses_eq, idxOf_ascending (collapseWords_ascending hw) hpc,
    Nat.add_assoc]

/-- A run whose row has executed its word once more. -/
def counted (r : Run) : Run := rowChanged r fun x => { x with inst := Tab.put x.inst x.pc (x.count x.pc + 1) }
/-- A run whose row has executed its pcollapse word and gone on. -/
def collapsed (r : Run) : Run := rowChanged (counted r) fun x => { x with pc := x.pc + 8 }
theorem collapsed_row {r : Run} (h : r.cur < r.rows.length) :
    (collapsed r).row.pc = r.row.pc + 8 ∧ (collapsed r).row.count r.row.pc = r.row.count r.row.pc + 1 := by
  have hrow : (collapsed r).row = { r.row with inst := Tab.put r.row.inst r.row.pc (r.row.count r.row.pc + 1), pc := r.row.pc + 8 } := by
    simp [collapsed, counted, rowChanged, Run.row, List.getD_eq_getElem?_getD, h]
  rw [hrow]
  exact ⟨rfl, (Tab.get_put ..).trans (if_pos rfl)⟩
/-- A hart in another run. -/
def inRun (x : Hart) (r : Run) : Hart := { x with run := some r }
/-- The state after a word that its row counts and that writes v into the current cell of a predicate. -/
def countedCell (s : State) (d : Reg) (i v : Nat) : State :=
  ((s.rowCounts.updMe fun y => y.setPred d ((y.pred d).setCell i v)).rowNext).chargeMe 2 1
theorem charged_inRun (x : Hart) (r : Run) (e : Word) : ((inRun x r).charged e).p = x.p ∧ ((inRun x r).charged e).v = x.v ∧
    ((inRun x r).charged e).fpflags = x.fpflags ∧ ((inRun x r).charged e).run = some r := ⟨rfl, rfl, rfl, rfl⟩
theorem countedCell_me {s : State} {r : Run} (hr : s.me.run = some r) (d : Reg) (i v : Nat) :
    (countedCell s d i v).me.p = (s.me.setPred d ((s.me.pred d).setCell i v)).p ∧ (countedCell s d i v).me.v = s.me.v ∧
      (countedCell s d i v).me.fpflags = s.me.fpflags ∧ (countedCell s d i v).me.run = some (collapsed r) := by
  obtain ⟨s1, hs1⟩ : ∃ s1, s1 = s.rowCounts.updMe fun y => y.setPred d ((y.pred d).setCell i v) := ⟨_, rfl⟩
  have hcounted : s1.me = inRun (s.me.setPred d ((s.me.pred d).setCell i v)) (counted r) := by
    rw [hs1, State.updMe_me, State.rowCounts, updRun_eq hr, State.updMe_me]
    rfl
  have hnext : s1.rowNext.me = inRun (s.me.setPred d ((s.me.pred d).setCell i v)) (collapsed r) := by
    rw [rowNext_eq (r := counted r) (by rw [hcounted]; rfl), State.updMe_me, hcounted]
    rfl
  obtain ⟨e, he⟩ : ∃ e, (s1.rowNext.chargeMe 2 1).me = s1.rowNext.me.charged e := ⟨_, chargeMe_me ..⟩
  rw [countedCell, ← hs1, he, hnext]
  exact charged_inRun ..
theorem exec_pcollapse (cv : Bool) (d x : Reg) (s : State) : exec (.pcollapse cv d x) s = rowWord (plainHead cv) [] true 2 (fun r i => upd fun s =>
    (s.rowCounts.updMe fun y => y.setPred d ((y.pred d).setCell i (cellOf (collapseBit (collapseCounter r) i ((s.me.pred x).cell i))))).rowNext) s :=
  rfl
theorem pcollapse_next {cv : Bool} (d x : Reg) {s : State} {r : Run} (hr : RowReady s r (plainHead cv) [] none) :
    exec (.pcollapse cv d x) s =
      .next (countedCell s d r.cur (cellOf (collapseBit (collapseCounter r) r.cur ((s.me.pred x).cell r.cur)))) := by
  obtain ⟨hrun, hlets, hcap⟩ := acts_of_ready hr
  rw [exec_pcollapse, rowWord_acts hrun hlets fun _ => hcap, countedCell]
  simp only [finish, Op.bind_run, upd_run]
theorem pcollapse_gives {cv : Bool} (d x : Reg) {s : State} {r : Run} (hr : RowReady s r (plainHead cv) [] none) :
    let p := (s.me.pred x).cell r.cur
    ∃ u b, exec (.pcollapse cv d x) s = .next u ∧
      (∀ z j, (u.me.pred z).cell j = if z = d ∧ j = r.cur then (if b then 0x8000 else 0) else (s.me.pred z).cell j) ∧
      (p = 0 → b = false) ∧ (p = 0x8000 → b = true) ∧
      (r.words.Pairwise (·.1 < ·.1) → r.row.pc ∈ collapseWords r →
        b = decide (drawn ((r.g0.toNat + (collapseWords r).length * r.row.count r.row.pc +
          ((collapseWords r).filter (· < r.row.pc)).length) % 2 ^ 64) r.cur < p)) ∧
      (∀ z, u.me.vimg z = s.me.vimg z) ∧ u.me.fpflags = s.me.fpflags ∧
      ∃ r', u.me.run = some r' ∧ r'.cur = r.cur ∧
        (r.cur < r.rows.length → r'.row.pc = r.row.pc + 8 ∧ r'.row.count r.row.pc = r.row.count r.row.pc + 1) := by
  intro p
  obtain ⟨b, hb⟩ : ∃ b, b = collapseBit (collapseCounter r) r.cur p := ⟨_, rfl⟩
  obtain ⟨hready, -, -⟩ := acts_of_ready hr
  obtain ⟨hp, hv, hfl, hrun⟩ := countedCell_me hready d r.cur (cellOf b)
  have hexec := pcollapse_next d x hr
  rw [← hb] at hexec
  refine ⟨_, b, hexec, fun z j => ?_, fun h0 => ?_, fun h1 => ?_, fun hw hpc => ?_, fun z => ?_, hfl,
    collapsed r, hrun, rfl, collapsed_row⟩
  · rw [Hart.pred, hp, ← Hart.pred, cell_setPred_setCell, Nat.min_eq_left (cellOf_le _)]
    rfl
  · rw [hb, h0, collapseBit_zero]
  · rw [hb, h1, collapseBit_one]
  · rw [← collapseCounter_toNat hw hpc, ← mix_drawn]
    exact hb
  · rw [Hart.vimg, hv, ← Hart.vimg]

-- pind (spec/06 R136) ---------------------------------------------------------------------------------------------------------------------

theorem exec_pind (cv : Bool) (d : Reg) (v : Bool) (s : State) :
    exec (.pind cv d v) s = rowWord (plainHead cv) [] false 2 (fun _ _ => upd State.rowNext) s := rfl
theorem pind_gives {cv : Bool} (d : Reg) (v : Bool) {s : State} {r : Run} (hr : RowReady s r (plainHead cv) [] none) :
    ∃ u, exec (.pind cv d v) s = .next u ∧ RowGoesOn s u r 0 ∧ u.me.v = s.me.v ∧ u.me.p = s.me.p := by
  obtain ⟨hrun, hlets, hcap⟩ := acts_of_ready hr
  have hsame : s.me = s.me.withRows s.me.v s.me.p 0 := by simp [Hart.withRows]
  refine ⟨s.rowNext.chargeMe 2 1, ?_, goesOn_withRows hrun hsame rfl (fun _ _ => rfl) rfl⟩
  rw [exec_pind, rowWord_acts hrun hlets fun _ => hcap]
  simp only [finish, Op.bind_run, upd_run]
end Sys2Proof.Claims
end

section
/-!
PROOFS. Blends and gradients (spec/06 R137, R141, R142; logs 35, 63), and all the predicate words together.
-/
namespace Sys2Proof.Claims
open Machine

section
variable (h : BHead) (cv : Bool) (t : ETy) (rm : Rm) (d x : Reg) (a b g : Src) (s : State)
theorem exec_vblend : exec (.vblend cv t rm d a b x) s = rowResult (plainHead cv) [] t d none (fun r z i =>
    blend r.cap.fpctl t rm ((z.pred x).cell i) (rowGet r z t a.r i) (rowGet r z t b.r i)) s := rfl
theorem exec_vbgrad : exec (.vbgrad h t rm d g a b) s = rowResult h [] t d none (fun r z i =>
    blendGrad r.cap.fpctl t rm (rowGet r z t g.r i) (rowGet r z t a.r i) (rowGet r z t b.r i)) s := rfl
theorem exec_psgrad : exec (.psgrad h t rm d g a b) s = rowResult h [] t d none (fun r z i =>
    softGrad r.cap.fpctl r.cap.ptemp t rm (rowGet r z t g.r i) (rowGet r z t a.r i) (rowGet r z t b.r i)) s := rfl
end

/-- Where a word names no mask, whether it marks says nothing. -/
theorem RowGives.unmarked {i : Instr} {s : State} {r : Run} {t : ETy} {d : Reg} {v : Nat} {mark : Bool} {fl : Flags}
    (h : RowGives i s r t d none v mark fl) : RowGives i s r t d none v false fl := by
  obtain ⟨u, hexec, goes, value, rows, others, cells, tags⟩ := h
  refine ⟨u, hexec, goes, value, rows, others, fun p j => ?_, tags⟩
  simpa using cells p j

section
variable {h : BHead} {t : ETy} {rm : Rm} {d : Reg} {s : State} {r : Run} {i : Instr} {f : Fmt}
/-- A word without a mask that stores a result of its format, with the flags of its reads. -/
theorem gives_reads {w : Run → Hart → Nat → Res} {y : Res} {fl : Flags} (ht : fmtOf t = some f) (hr : RowReady s r h [t] none)
    (hi : exec i s = rowResult h [] t d none w s) (hw : w r s.me r.cur = y.reads fl) (hy : y.bits < 2 ^ f.width) :
    RowGives i s r t d none y.bits false (fl ||| y.fl) :=
  (gives_of_res hi hr (by rw [hw, Res.reads, BitVec.or_comm]) (holds_fmt ht hy)).unmarked

-- Blends (spec/06 R137) ----------------------------------------------------------------------------------------------------------------

/-- A number of FP32 rounded once more to the format of its row. -/
def narrowed (f : Fmt) (ctl : BitVec 10) (rm : Rm) (x : FVal) : Res :=
  let k := roundVal f (resultFlush ctl f) rm x
  Res.nf f { bits := k.1, fl := k.2 }
theorem narrowed_isNarrowed (hf : f ≠ .e4m3) (ctl : BitVec 10) (rm : Rm) (x : FVal) :
    IsNarrowed f (resultFlush ctl f) rm x ((narrowed f ctl rm x).bits, (narrowed f ctl rm x).fl) := by
  cases x with
  | nan q =>
    simp only [IsNarrowed, narrowed, roundVal, Res.nf, nonFinite_qnan]
    rfl
  | inf p =>
    simp only [IsNarrowed, narrowed, roundVal, if_neg hf, Res.nf, nonFinite_of_inf (valueOf_infBits hf p)]
    rfl
  | num p m e =>
    simp only [IsNarrowed]
    split
    next hm =>
      subst hm
      simp only [narrowed, roundVal_zero, Res.nf, nonFinite_of_num (valueOf_zero f p)]
      rfl
    next hm => exact ⟨_, roundVal_roundsTo hm, rfl⟩
theorem narrowed_lt (f : Fmt) (ctl : BitVec 10) (rm : Rm) (x : FVal) : (narrowed f ctl rm x).bits < 2 ^ f.width := by
  cases x with
  | nan q => exact qnan_lt f
  | inf p =>
    simp only [narrowed, roundVal, Res.nf]
    split
    · exact withSign_lt p (maxBits_lt f)
    · exact withSign_lt p (infBits_lt f)
  | num p m e => exact roundNum_lt ..
/-- What vblend stores of its FP32 result. -/
def blended (f : Fmt) (ctl : BitVec 10) (rm : Rm) (z : Nat) : Res :=
  if f = .f32 then { bits := z } else narrowed f ctl rm (valueOf .f32 z)
theorem blended_spec (hf : f ≠ .e4m3) (ctl : BitVec 10) (rm : Rm) {z : Nat} (hz : z < 2 ^ Fmt.f32.width) :
    let w := blended f ctl rm z
    w.bits < 2 ^ f.width ∧ if f = .f32 then (w.bits, w.fl) = (z, 0) else IsNarrowed f (resultFlush ctl f) rm (valueOf .f32 z) (w.bits, w.fl) := by
  by_cases h32 : f = .f32
  · subst h32
    exact ⟨hz, rfl⟩
  · simp only [blended, if_neg h32]
    exact ⟨narrowed_lt .., narrowed_isNarrowed hf ..⟩
/-- A blend strictly between its ends: p · (x − y) + y in FP32, then rounded to the format. -/
theorem blend_between (ht : fmtOf t = some f) (ctl : BitVec 10) (rm : Rm) {p : Nat} (h0 : p ≠ 0) (h1 : p ≠ 0x8000) (u v : Nat) :
    let m := operand f ctl u
    let n := operand f ctl v
    let dd := fSub .f32 ctl rm m.1 n.1
    let z := fFma .f32 ctl rm (.num false p (-15)) (valueOf .f32 dd.bits) n.1
    blend ctl t rm p u v = (blended f ctl rm z.bits).reads (m.2 ||| n.2 ||| dd.fl ||| z.fl) := by
  intro m n dd z
  have hblend : blend ctl t rm p u v = if f = .f32 then { bits := z.bits, fl := m.2 ||| n.2 ||| dd.fl ||| z.fl }
      else (narrowed f ctl rm (valueOf .f32 z.bits)).reads (m.2 ||| n.2 ||| dd.fl ||| z.fl) := by
    rw [blend, if_neg h0, if_neg h1, tyFmtD_of ht]
    rfl
  rw [hblend, blended]
  split
  · simp [Res.reads]
  · rfl
theorem vblend_gives {cv : Bool} (d x : Reg) (a b : Src) (rm : Rm) (ht : fmtOf t = some f) (hf : f ≠ .e4m3)
    (hr : RowReady s r (plainHead cv) [t] none) :
    let ctl := r.cap.fpctl
    let p := (s.me.pred x).cell r.cur
    let m := operand f ctl (element r s.me t a.r r.cur)
    let n := operand f ctl (element r s.me t b.r r.cur)
    (p = 0 → RowGives (.vblend cv t rm d a b x) s r t d none (element r s.me t b.r r.cur) false 0) ∧
    (p = 0x8000 → RowGives (.vblend cv t rm d a b x) s r t d none (element r s.me t a.r r.cur) false 0) ∧
    (p ≠ 0 → p ≠ 0x8000 → ∃ dd z w, IsSum .f32 (resultFlush ctl .f32) rm m.1 (opposite n.1) dd ∧
      IsFused .f32 (resultFlush ctl .f32) rm (.num false p (-15)) (valueOf .f32 dd.1) n.1 z ∧
      (if f = .f32 then w = (z.1, 0) else IsNarrowed f (resultFlush ctl f) rm (valueOf .f32 z.1) w) ∧
      RowGives (.vblend cv t rm d a b x) s r t d none w.1 false (m.2 ||| n.2 ||| dd.2 ||| z.2 ||| w.2)) := by
  intro ctl p m n
  have hf32 : (.f32 : Fmt) ≠ .e4m3 := by decide
  refine ⟨fun h0 => ?_, fun h1 => ?_, fun h0 h1 => ?_⟩
  · exact gives_of_res (exec_vblend ..) hr (by rw [rowGet_eq, rowGet_eq, blend, if_pos h0]) (element_holds ..)
  · have h0 : p ≠ 0 := by rw [h1]; decide
    exact gives_of_res (exec_vblend ..) hr (by rw [rowGet_eq, rowGet_eq, blend, if_neg h0, if_pos h1]) (element_holds ..)
  · have hblend := blend_between ht ctl rm h0 h1 (element r s.me t a.r r.cur) (element r s.me t b.r r.cur)
    obtain ⟨dd, hdd⟩ : ∃ dd, dd = fSub .f32 ctl rm m.1 n.1 := ⟨_, rfl⟩
    obtain ⟨z, hz⟩ : ∃ z, z = fFma .f32 ctl rm (.num false p (-15)) (valueOf .f32 dd.bits) n.1 := ⟨_, rfl⟩
    dsimp only at hblend
    rw [← hdd, ← hz] at hblend
    obtain ⟨hlt, hw⟩ := blended_spec hf ctl rm (z := z.bits) (hz ▸ (fFma_own ..).lt)
    exact ⟨(dd.bits, dd.fl), (z.bits, z.fl), _, hdd ▸ fSub_isSum hf32 ctl rm m.1 n.1,
      hz ▸ fFma_isFused hf32 ctl rm (.num false p (-15)) _ n.1, hw,
      gives_reads ht hr (exec_vblend ..) (by rw [rowGet_eq, rowGet_eq]; exact hblend) hlt⟩

-- Gradients (spec/06 R141, R142) ---------------------------------------------------------------------------------------------------------

theorem vbgrad_gives (d : Reg) (g a b : Src) (rm : Rm) (ht : fmtOf t = some f) (hf : f ≠ .e4m3) (hr : RowReady s r h [t] none) :
    let ctl := r.cap.fpctl
    let o := operand f ctl (element r s.me t g.r r.cur)
    let m := operand f ctl (element r s.me t a.r r.cur)
    let n := operand f ctl (element r s.me t b.r r.cur)
    ∃ dd z, IsSum .f32 (resultFlush ctl .f32) rm m.1 (opposite n.1) dd ∧ IsProduct f (resultFlush ctl f) rm o.1 (valueOf .f32 dd.1) z ∧
      RowGives (.vbgrad h t rm d g a b) s r t d none z.1 false (o.2 ||| m.2 ||| n.2 ||| dd.2 ||| z.2) := by
  intro ctl o m n
  refine ⟨_, _, fSub_isSum (f := .f32) (by decide) ctl rm m.1 n.1, fMul_isProduct hf ctl rm o.1 _,
    gives_reads ht hr (exec_vbgrad ..) ?_ (fMul_own ..).lt⟩
  rw [rowGet_eq, rowGet_eq, rowGet_eq, blendGrad, tyFmtD_of ht]
/-- psgrad by its cases: a NaN gradient first (log 63), a NaN operand, T = +0, and the ramp. -/
theorem softGrad_eq (ht : fmtOf t = some f) (ctl : BitVec 10) (T : BitVec 32) (rm : Rm) (w u v : Nat) :
    let o := operand f ctl w
    let m := operand f ctl u
    let n := operand f ctl v
    let fl := o.2 ||| m.2 ||| n.2
    softGrad ctl T t rm w u v =
      if isNan o.1 then (nanRes f).reads fl
      else if isNan m.1 || isNan n.1 then { bits := 0, fl := fl ||| 0x010 }
      else if T = 0 then { bits := 0, fl := fl }
      else match softRamp T m.1 n.1 with
        | none => { bits := 0, fl := fl ||| 0x010 }
        | some q =>
          if onRamp q then (fDiv f ctl rm (scaled o.1 (-2)) (valueOf .f32 T.toNat)).reads fl
          else { bits := 0, fl := fl } := by
  intro o m n fl
  rw [softGrad, tyFmtD_of ht, ← scaleBy_eq]
  rfl
theorem psgrad_gives (d : Reg) (g a b : Src) (rm : Rm) (ht : fmtOf t = some f) (hf : f ≠ .e4m3) (hr : RowReady s r h [t] none) :
    let ctl := r.cap.fpctl
    let o := operand f ctl (element r s.me t g.r r.cur)
    let m := operand f ctl (element r s.me t a.r r.cur)
    let n := operand f ctl (element r s.me t b.r r.cur)
    let fl := o.2 ||| m.2 ||| n.2
    let gives := fun (k : Nat × Flags) => RowGives (.psgrad h t rm d g a b) s r t d none k.1 false (fl ||| k.2)
    (¬ notNan o.1 → gives (qnan f, 0x080)) ∧
    (notNan o.1 → ¬ (notNan m.1 ∧ notNan n.1) → gives (0, 0x010)) ∧
    (notNan o.1 → notNan m.1 → notNan n.1 →
      (r.cap.ptemp = 0 → gives (0, 0)) ∧
      (r.cap.ptemp ≠ 0 → ∃ z, IsRamp r.cap.ptemp m.1 n.1 z ∧
        match z with
        | none => gives (0, 0x010)
        | some z =>
          if 0 < value z ∧ value z < 1 then
            ∃ k, IsQuotient f (resultFlush ctl f) rm (scaled o.1 (-2)) (valueOf .f32 r.cap.ptemp.toNat) k ∧ gives k
          else gives (0, 0))) := by
  intro ctl o m n fl gives
  obtain ⟨y, hy⟩ : ∃ y, y = softGrad ctl r.cap.ptemp t rm (element r s.me t g.r r.cur) (element r s.me t a.r r.cur) (element r s.me t b.r r.cur) :=
    ⟨_, rfl⟩
  have hcases := hy.trans (softGrad_eq ht ..)
  have stored : ∀ {k : Res}, y = k.reads fl → k.bits < 2 ^ f.width → gives (k.bits, k.fl) := fun hk hlt =>
    gives_reads ht hr (exec_psgrad ..) (by rw [rowGet_eq, rowGet_eq, rowGet_eq, ← hy]; exact hk) hlt
  have zeros : ∀ fl' : Flags, y = { bits := 0, fl := fl ||| fl' } → gives (0, fl') := fun fl' hk =>
    stored (k := { bits := 0, fl := fl' }) (by rw [hk, Res.reads, BitVec.or_comm]) (Nat.two_pow_pos _)
  have hor : fl ||| 0 = fl := BitVec.or_zero
  refine ⟨fun ho => ?_, fun ho hmn => ?_, fun ho hm hn => ?_⟩
  · rw [if_pos ((isNan_iff _).2 ho)] at hcases
    exact stored hcases (qnan_lt f)
  all_goals rw [if_neg (by rw [isNan_iff, not_not]; exact ho)] at hcases
  · rw [if_pos (by rwa [Bool.or_eq_true, isNan_iff, isNan_iff, ← not_and_or])] at hcases
    exact zeros _ hcases
  · rw [if_neg (by rw [Bool.or_eq_true, isNan_iff, isNan_iff, ← not_and_or, not_not]; exact ⟨hm, hn⟩)] at hcases
    refine ⟨fun hT => ?_, fun hT => ⟨_, softRamp_isRamp .., ?_⟩⟩
    · rw [if_pos hT] at hcases
      exact zeros 0 (by rw [hor, hcases])
    · rw [if_neg hT] at hcases
      split
      next hz =>
        rw [hz] at hcases
        exact zeros _ hcases
      next z hz =>
        rw [hz] at hcases
        dsimp only at hcases
        split
        next hin =>
          rw [if_pos ((onRamp_iff z).2 hin)] at hcases
          exact ⟨_, fDiv_isQuotient hf .., stored hcases (fDiv_own ..).lt⟩
        next hout =>
          rw [if_neg (mt (onRamp_iff z).1 hout)] at hcases
          exact zeros 0 (by rw [hor, hcases])
end

/-- Settles O39: each word writes the cell or the element that its operation on the cells and elements of its row gives; those that act
on one kind of operand share one lemma (`logic_gives`, `soft_gives`). -/
theorem rowPredicateWords : Obligations.RowPredicateWords := by
  unfold Obligations.RowPredicateWords
  intro h cv cc t rm d x y a b g v s r
  refine ⟨fun hr => logic_gives x y hr, fun hr => pset_gives hr, fun hr => ⟨pind_gives d v hr, pcollapse_gives d x hr⟩,
    fun ht _ _ hr => vcmp_int cc ht hr, fun f ht hr => ⟨vcmp_float cc ht hr, ?_⟩,
    fun f ht hf _ => ⟨fun hr => vblend_gives d x a b rm ht hf hr, fun hr => ⟨vbgrad_gives d g a b rm ht hf hr, psgrad_gives d g a b rm ht hf hr⟩⟩⟩
  simp only [List.forall_mem_cons, List.not_mem_nil, IsEmpty.forall_iff, implies_true, and_true]
  exact ⟨soft_gives ht hr (exec_psgt ..), soft_gives ht hr (exec_psge ..), soft_gives ht hr (exec_pslt ..), soft_gives ht hr (exec_psle ..)⟩
end Sys2Proof.Claims
end

section
/-!
PROOFS. What a scalar word leaves (spec/07 R143, R144): a result written, flags raised and the next word, or the pc alone; then the scalar
integer words (R151), the immediates and long constants (R152, R153), the branches and the jumps (R154, R155).
-/
namespace Sys2Proof.Claims
open Machine

-- What a scalar word leaves ----------------------------------------------------------------------------------------------------------

theorem readX_writeX_other {r d : Reg} (h : r ≠ d) (x : Hart) (v : Word) : (x.writeX d v).readX r = x.readX r := by
  rw [Hart.writeX]
  split
  · rfl
  · rw [Hart.readX, Hart.readX, Tab.get_put, if_neg fun e => h (BitVec.eq_of_toNat_eq e)]
theorem updMe_updMe (s : State) (f g : Hart → Hart) : (s.updMe f).updMe g = s.updMe fun x => g (f x) := updHart_updHart s s.cur f g
/-- Flags raised, a result written, and on at a. -/
theorem writes_updMe (s : State) (d : Reg) (v : Word) (f : Flags) (a : Word) :
    Writes s (s.updMe fun x => ((x.raise f).writeX d v).goTo a) d v f a where
  value := by rw [State.readX, State.updMe_me]; exact readX_writeX (s.me.raise f) d v
  others r h := by rw [State.readX, State.updMe_me]; exact readX_writeX_other h (s.me.raise f) v
  pc := by rw [State.updMe_me]; rfl
  flags := by rw [State.updMe_me]; exact Hart.writeX_fpflags ..
  ready := by rw [State.updMe_me]; exact ⟨rfl, rfl, rfl, rfl, rfl⟩
  hart := by
    rw [State.updMe_me, Hart.writeX]
    split <;> rfl
  harts h hne := updMe_other s _ hne
  rest := rfl
theorem retireFlags_eq (s : State) (d : Reg) (v : Word) (f : Flags) :
    s.retireFlags d v f = s.updMe fun x => ((x.raise f).writeX d v).goTo (x.pc + 4) := by
  rw [State.retireFlags, State.advance, State.writeX, State.raise, updMe_updMe, updMe_updMe]
  exact updMe_congr (by rw [Hart.next, Hart.writeX_pc, Hart.raise_pc])
theorem raise_none (x : Hart) : x.raise 0 = x := by simp [Hart.raise]
theorem retire_eq_retireFlags (s : State) (d : Reg) (v : Word) : s.retire d v = s.retireFlags d v 0 := by
  rw [State.retireFlags, State.raise, State.retire, State.writeX, State.writeX, updMe_updMe]
  exact congrArg State.advance (updMe_congr (by rw [raise_none]))
theorem writes_retireFlags (s : State) (d : Reg) (v : Word) (f : Flags) : Writes s (s.retireFlags d v f) d v f (s.me.pc + 4) := by
  rw [retireFlags_eq, updMe_congr (g := fun x => ((x.raise f).writeX d v).goTo (s.me.pc + 4)) rfl]
  exact writes_updMe ..
/-- A word that retires a result with flags gives them. -/
theorem gives_retireFlags {i : Instr} {s : State} {d : Reg} {v v' : Word} {f f' : Flags} (h : exec i s = .next (s.retireFlags d v' f'))
    (hv : v' = v := by rfl) (hf : f' = f := by rfl) : Gives i s d v f :=
  ⟨_, h, hv ▸ hf ▸ writes_retireFlags ..⟩
/-- A word that retires a result gives it, without a flag. -/
theorem gives_retire {i : Instr} {s : State} {d : Reg} {v v' : Word} (h : exec i s = .next (s.retire d v')) (hv : v' = v := by rfl) : Gives i s d v 0 :=
  gives_retireFlags (h.trans (congrArg _ (retire_eq_retireFlags ..))) hv
/-- A word that only goes to a. -/
theorem goes_goTo (s : State) (a : Word) : Goes s (s.goTo a) a where
  pc := by rw [State.goTo, State.updMe_me]; rfl
  ready := by rw [State.goTo, State.updMe_me]; exact ⟨rfl, rfl, rfl, rfl, rfl⟩
  hart := by rw [State.goTo, State.updMe_me]; rfl
  harts h hne := updMe_other s _ hne
  rest := rfl
theorem advance_eq_goTo (s : State) : s.advance = s.goTo (s.me.pc + 4) := updMe_congr rfl

-- The scalar integer group (spec/07 R151) --------------------------------------------------------------------------------------------

theorem szWidth_eq (sz : ISize) : szWidth sz = width sz := by cases sz <;> rfl
theorem szSigned_eq (sz : ISize) : szSigned sz = signed sz := by cases sz <;> rfl
theorem width_le (sz : ISize) : width sz ≤ 64 := by cases sz <;> decide
theorem szVal_eq (sz : ISize) (x : Word) : szVal sz x = exact sz x := by
  have h : szVal sz x = intOf (szSigned sz) (szWidth sz) x.toNat := rfl
  rw [h, intOf_eq]
  cases sz with
  | s64 => exact congrArg BitVec.toInt (BitVec.ofNat_toNat 64 x |>.trans (BitVec.setWidth_eq x))
  | z64 => exact congrArg Nat.cast (Nat.mod_eq_of_lt x.isLt)
  | s32 => exact congrArg BitVec.toInt (BitVec.ofNat_toNat 32 x)
  | z32 => exact congrArg Nat.cast (BitVec.toNat_setWidth 32 x).symm
/-- The value of a signed number of n bits, as a word, is the bits extended. -/
theorem ofInt_sextN {n : Nat} (v : Nat) : BitVec.ofInt 64 (sextN v n) = (BitVec.ofNat n v).signExtend 64 := by
  have h : sextN v n = intOf true n v := rfl
  rw [h, intOf_eq, if_pos rfl, BitVec.signExtend]
theorem ofNat_wrapN (n : Nat) (z : Int) : BitVec.ofNat n (wrapN n z) = BitVec.ofInt n z := by
  apply BitVec.eq_of_toNat_eq
  have h0 := Int.emod_nonneg z (by positivity : ((2 ^ n : Nat) : Int) ≠ 0)
  have h1 := Int.emod_lt_of_pos z (by positivity : (0 : Int) < ((2 ^ n : Nat) : Int))
  rw [BitVec.toNat_ofNat, BitVec.toNat_ofInt, wrapN, Nat.mod_eq_of_lt (by omega)]
theorem szResult_eq (sz : ISize) (z : Int) : szResult sz z = narrow sz z := by
  have wide : ∀ n ≤ 64, BitVec.ofNat 64 (wrapN n z) = (BitVec.ofInt n z).setWidth 64 := fun n hn => by
    rw [← ofNat_wrapN, BitVec.setWidth_ofNat_of_le_of_lt hn]
    have h0 := Int.emod_nonneg z (by positivity : ((2 ^ n : Nat) : Int) ≠ 0)
    have h1 := Int.emod_lt_of_pos z (by positivity : (0 : Int) < ((2 ^ n : Nat) : Int))
    rw [wrapN]
    omega
  have ext : ∀ n, BitVec.ofInt 64 (sextN (wrapN n z) n) = (BitVec.ofInt n z).signExtend 64 := fun n => by
    rw [ofInt_sextN, ofNat_wrapN]
  cases sz with
  | s64 => exact (ext 64).trans (BitVec.signExtend_eq _)
  | z64 => exact ofNat_wrapN 64 z
  | s32 => exact ext 32
  | z32 => exact wide 32 (by decide)
/-- The low bits of a word, as a number, extend as the word does. -/
theorem narrow_szBits (sz : ISize) (x : Word) : narrow sz (szBits sz x) = extend sz x := by
  have low : ∀ n, BitVec.ofInt n ((x.toNat % 2 ^ n : Nat) : Int) = x.setWidth n := fun n => by
    rw [BitVec.ofInt_natCast]
    apply BitVec.eq_of_toNat_eq
    rw [BitVec.toNat_ofNat, BitVec.toNat_setWidth, Nat.mod_mod]
  cases sz with
  | s64 | z64 => exact (low 64).trans (BitVec.setWidth_eq x)
  | s32 => exact congrArg (BitVec.signExtend 64) (low 32)
  | z32 => exact congrArg (BitVec.setWidth 64) (low 32)
theorem szBits_lt (sz : ISize) (x : Word) : szBits sz x < 2 ^ width sz := szWidth_eq sz ▸ Nat.mod_lt _ (Nat.two_pow_pos _)
/-- A count of bits is small enough to stay as it is. -/
theorem narrow_small (sz : ISize) {k : Nat} (h : k ≤ width sz) : narrow sz k = BitVec.ofNat 64 k := by
  have hle := h.trans (width_le sz)
  cases sz with
  | s64 | z64 => exact BitVec.ofInt_natCast ..
  | s32 =>
    rw [narrow, BitVec.ofInt_natCast, BitVec.signExtend_eq_setWidth_of_msb_false]
    · exact BitVec.setWidth_ofNat_of_le_of_lt (by decide) (hle.trans_lt (by decide))
    · rw [BitVec.msb_eq_false_iff_two_mul_lt, BitVec.toNat_ofNat]
      omega
  | z32 =>
    rw [narrow, BitVec.ofInt_natCast]
    exact BitVec.setWidth_ofNat_of_le_of_lt (by decide) (hle.trans_lt (by decide))
theorem narrow_bool (sz : ISize) (p : Prop) [Decidable p] : narrow sz (if p then 1 else 0) = if p then 1 else 0 := by
  split
  · exact narrow_small sz (k := 1) (by cases sz <;> decide)
  · exact narrow_small sz (k := 0) (Nat.zero_le _)
theorem getLsbD_szBits (sz : ISize) (x : Word) {j : Nat} (hj : j < width sz) : (BitVec.ofNat 64 (szBits sz x)).getLsbD j = x.getLsbD j := by
  have := width_le sz
  rw [BitVec.getLsbD_ofNat, szBits, szWidth_eq, Nat.testBit_mod_two_pow]
  simp [hj, BitVec.getLsbD, show j < 64 by omega]
theorem leadingZeros_word (sz : ISize) (x : Word) : ZerosAbove (width sz) x (leadingZeros (szWidth sz) (szBits sz x)) := by
  rw [szWidth_eq]
  obtain ⟨hle, hzero, hone⟩ := leadingZeros_zerosAbove (width_le sz) (szBits_lt sz x)
  refine ⟨hle, fun j hlo hj => ?_, fun hlt => ?_⟩
  · rw [← getLsbD_szBits sz x hj, hzero j hlo hj]
  · rw [← getLsbD_szBits sz x (by omega), hone hlt]
theorem trailingZeros_le (w v : Nat) : trailingZeros w v ≤ w := by
  induction w generalizing v with
  | zero => exact le_rfl
  | succ w ih =>
    rw [trailingZeros]
    have := ih (v / 2)
    split <;> omega
theorem trailingZeros_bits (w v : Nat) : (∀ j, j < trailingZeros w v → v.testBit j = false) ∧
    (trailingZeros w v < w → v.testBit (trailingZeros w v) = true) := by
  induction w generalizing v with
  | zero => simp [trailingZeros]
  | succ w ih =>
    obtain ⟨hzero, hone⟩ := ih (v / 2)
    rw [trailingZeros]
    split
    next h => exact ⟨fun j hj => absurd hj j.not_lt_zero, fun _ => by simp [h]⟩
    next h =>
      rw [Nat.add_comm]
      refine ⟨fun j hj => ?_, fun hlt => by rw [Nat.testBit_succ, hone (by omega)]⟩
      cases j with
      | zero => simpa using h
      | succ j => rw [Nat.testBit_succ, hzero j (by omega)]
theorem trailingZeros_word (sz : ISize) (x : Word) : ZerosBelow (width sz) x (trailingZeros (szWidth sz) (szBits sz x)) := by
  rw [szWidth_eq]
  have bit : ∀ j, j < width sz → x.getLsbD j = (szBits sz x).testBit j := fun j hj => by
    have := width_le sz
    rw [← getLsbD_szBits sz x hj, BitVec.getLsbD_ofNat, decide_eq_true (by omega), Bool.true_and]
  have hle := trailingZeros_le (width sz) (szBits sz x)
  obtain ⟨hzero, hone⟩ := trailingZeros_bits (width sz) (szBits sz x)
  exact ⟨hle, fun j hj => (bit j (by omega)).trans (hzero j hj), fun hlt => (bit _ hlt).trans (hone hlt)⟩
theorem onesIn_word (sz : ISize) (x : Word) : onesIn (szWidth sz) (szBits sz x) = ones (width sz) x := by
  rw [szWidth_eq, onesIn_eq (width_le sz), ones, ones]
  exact congrArg List.length (List.filter_congr fun j hj => getLsbD_szBits sz x (List.mem_range.1 hj))
theorem divRem_eq (sz : ISize) (x y : Int) : divRem sz x y = divide sz x y := by
  rw [divRem, divide, szSigned_eq, szWidth_eq, Int.tmod_def, Int.mul_comm y]
  simp only [Bool.and_eq_true, decide_eq_true_eq, and_assoc, Nat.cast_pow, Nat.cast_ofNat]
  rfl
theorem shiftArith_eq (sz : ISize) (x : Word) (n : Nat) :
    shiftArith sz x n = if n < width sz then exact sz x / 2 ^ n else if exact sz x < 0 then -1 else 0 := by
  rw [shiftArith, shiftRight, szSigned_eq, szVal_eq, szWidth_eq]
  cases hs : signed sz with
  | true => simp
  | false =>
    have hx : exact sz x = szBits sz x := by rw [← szVal_eq, szVal, szSigned_eq, hs]; rfl
    have hpos : ¬ exact sz x < 0 := by omega
    rw [if_neg hpos, hx]
    simp
theorem exec_mulh (sz : ISize) (d a b : Reg) (s : State) :
    exec (.mulh sz d a b) s = intOp (fun x y => x * y / ((2 ^ szWidth sz : Nat) : Int)) sz d a b s := rfl
theorem exec_slt (sz : ISize) (d a b : Reg) (s : State) :
    exec (.slt sz d a b) s = intOp (fun x y => if x < y then 1 else 0) sz d a b s := rfl
theorem exec_div (sz : ISize) (d a b : Reg) (s : State) : exec (.div sz d a b) s =
    .next (s.retireFlags d (szResult sz (divRem sz (szVal sz (s.readX a)) (szVal sz (s.readX b))).1)
      (divRem sz (szVal sz (s.readX a)) (szVal sz (s.readX b))).2.2) := rfl
theorem exec_rem (sz : ISize) (d a b : Reg) (s : State) : exec (.rem sz d a b) s =
    .next (s.retireFlags d (szResult sz (divRem sz (szVal sz (s.readX a)) (szVal sz (s.readX b))).2.1)
      (divRem sz (szVal sz (s.readX a)) (szVal sz (s.readX b))).2.2) := rfl

section
variable {i : Instr} {s : State} {sz : ISize} {d a b : Reg}
theorem gives_intOp {f : Int → Int → Int} {z : Int} (hi : exec i s = intOp f sz d a b s) (hz : f (exact sz (s.readX a)) (exact sz (s.readX b)) = z) :
    Gives i s d (narrow sz z) 0 :=
  gives_retire hi (by rw [szResult_eq, szVal_eq, szVal_eq, hz])
theorem gives_bitOp {f : Nat → Nat → Nat} {v : Word} (hi : exec i s = bitOp f sz d a b s)
    (hv : f (szBits sz (s.readX a)) (szBits sz (s.readX b)) = szBits sz v) : Gives i s d (extend sz v) 0 :=
  gives_retire hi (by rw [szResult_eq, hv, narrow_szBits])
theorem gives_shiftOp {f : ISize → Word → Nat → Int} {z : Int} (hi : exec i s = shiftOp f sz d a b s)
    (hz : f sz (s.readX a) (s.readX b).toNat = z) : Gives i s d (narrow sz z) 0 :=
  gives_retire hi (by rw [szResult_eq, hz])
theorem gives_countOp {f : Nat → Nat → Nat} {k : Nat} (hi : exec i s = countOp f sz d a s) (hk : f (szWidth sz) (szBits sz (s.readX a)) = k)
    (hle : k ≤ width sz) : Gives i s d (BitVec.ofNat 64 k) 0 :=
  gives_retire hi (by rw [szResult_eq, hk, narrow_small sz hle])
end

/-- Settles O1: the words of one kind share one operation, whose result is the exact one reduced to the width. -/
theorem scalarIntegerWords : Obligations.ScalarIntegerWords := by
  unfold Obligations.ScalarIntegerWords
  intro sz d a b s x y n w
  have hpow : ∀ k : Nat, (((2 ^ k : Nat) : Int)) = 2 ^ k := fun k => by push_cast; rfl
  have hdiv : divRem sz (szVal sz (s.readX a)) (szVal sz (s.readX b)) = divide sz x y := by rw [divRem_eq, szVal_eq, szVal_eq]
  refine ⟨gives_intOp rfl rfl, gives_intOp rfl rfl, gives_intOp rfl rfl, gives_intOp (exec_mulh ..) ?_,
    gives_retireFlags (exec_div ..) (by rw [szResult_eq, hdiv]) (by rw [hdiv]), gives_retireFlags (exec_rem ..) (by rw [szResult_eq, hdiv]) (by rw [hdiv]),
    gives_bitOp rfl ?_, gives_bitOp rfl ?_, gives_bitOp rfl ?_, gives_shiftOp rfl ?_, gives_shiftOp rfl ?_,
    gives_shiftOp rfl (shiftArith_eq ..), ⟨_, leadingZeros_word .., gives_countOp rfl rfl (szWidth_eq sz ▸ leadingZeros_le ..)⟩,
    ⟨_, trailingZeros_word .., gives_countOp rfl rfl (szWidth_eq sz ▸ trailingZeros_le ..)⟩, gives_countOp rfl (onesIn_word ..) (ones_le ..),
    gives_intOp rfl rfl, gives_intOp rfl rfl, ?_, gives_intOp rfl rfl⟩
  · rw [szWidth_eq, hpow]
  · simp only [szBits, BitVec.toNat_and, Nat.and_mod_two_pow]
  · simp only [szBits, BitVec.toNat_or, Nat.or_mod_two_pow]
  · simp only [szBits, BitVec.toNat_xor, Nat.xor_mod_two_pow]
  · rw [shiftLeft, szVal_eq, szWidth_eq, hpow]
  · rw [shiftRight, szBits, szWidth_eq]
  · rw [← narrow_bool sz]
    exact gives_intOp (exec_slt ..) rfl

-- Immediates and long constants (spec/07 R152, R153) -----------------------------------------------------------------------------------

theorem addImm_eq {w : Nat} (x : Word) (i : BitVec w) : addImm x i = BitVec.ofInt 64 (x.toInt + i.toInt) := by
  rw [addImm, BitVec.ofInt_add, BitVec.ofInt_toInt, BitVec.signExtend]
theorem addImm_eq_add {w : Nat} (x : Word) (i : BitVec w) : addImm x i = x + BitVec.ofInt 64 i.toInt := rfl
theorem shiftLeft_word (x : Word) (n : Nat) : x <<< n = BitVec.ofNat 64 (x.toNat * 2 ^ n) :=
  BitVec.eq_of_toNat_eq (by rw [BitVec.toNat_shiftLeft, BitVec.toNat_ofNat, Nat.shiftLeft_eq])
theorem shiftRight_word (x : Word) (n : Nat) : x >>> n = BitVec.ofNat 64 (x.toNat / 2 ^ n) :=
  BitVec.eq_of_toNat_eq (by
    rw [BitVec.toNat_ushiftRight, BitVec.toNat_ofNat, Nat.shiftRight_eq_div_pow, Nat.mod_eq_of_lt ((Nat.div_le_self ..).trans_lt x.isLt)])
theorem sshiftRight_word (x : Word) (n : Nat) : x.sshiftRight n = BitVec.ofInt 64 (x.toInt / 2 ^ n) := by
  rw [BitVec.sshiftRight, Int.shiftRight_eq_div_pow, Nat.cast_pow, Nat.cast_ofNat]
theorem slt_signExtend {w : Nat} (x : Word) (i : BitVec w) (hw : w ≤ 64) : x.slt (i.signExtend 64) = decide (x.toInt < i.toInt) := by
  rw [BitVec.slt, BitVec.toInt_signExtend_of_le hw]
theorem shiftLeft_signExtend {w : Nat} (i : BitVec w) (n : Nat) : i.signExtend 64 <<< n = BitVec.ofInt 64 (i.toInt * 2 ^ n) := by
  rw [BitVec.signExtend, BitVec.shiftLeft_eq_mul_twoPow, BitVec.ofInt_mul]
  congr 1
  apply BitVec.eq_of_toNat_eq
  rw [BitVec.toNat_twoPow, ← Nat.cast_two (R := Int), ← Nat.cast_pow, BitVec.ofInt_natCast, BitVec.toNat_ofNat]

/-- Settles O2: each immediate word retires its result. -/
theorem immediateWords : Obligations.ImmediateWords := by
  unfold Obligations.ImmediateWords
  intro d a i n s
  refine ⟨gives_retire rfl (addImm_eq ..), gives_retire rfl, gives_retire rfl, gives_retire rfl, gives_retire rfl (shiftLeft_word ..),
    gives_retire rfl (shiftRight_word ..), gives_retire rfl (sshiftRight_word ..), gives_retire rfl ?_⟩
  rw [slt_signExtend _ _ (by decide), boolWord]
  simp only [decide_eq_true_eq]
theorem longConstants : LongConstants := fun _ _ _ => ⟨gives_retire rfl (shiftLeft_signExtend ..), gives_retire rfl (addImm_eq_add ..)⟩

-- Branches and jumps (spec/07 R154, R155) -----------------------------------------------------------------------------------------------

theorem branch_goes {i : Instr} {cond : Word → Word → Bool} {a b : Reg} {off : BitVec 15} {s : State} {p : Prop} [Decidable p]
    (hi : exec i s = branchOp cond a b off s) (hp : cond (s.readX a) (s.readX b) = true ↔ p) :
    ∃ t, exec i s = .next t ∧ Goes s t (if p then s.me.pc + BitVec.ofInt 64 (4 * off.toInt) else s.me.pc + 4) := by
  refine ⟨_, hi, ?_⟩
  rw [← branchTarget_eq]
  by_cases h : p
  · rw [if_pos h, if_pos (hp.2 h)]
    exact goes_goTo ..
  · rw [if_neg h, if_neg (mt hp.1 h), advance_eq_goTo]
    exact goes_goTo ..

theorem exec_bge (a b : Reg) (off : BitVec 15) (s : State) : exec (.bge a b off) s = branchOp (fun x y => !x.slt y) a b off s := rfl

/-- Settles O4: the branches are one operation with a condition each. -/
theorem branches : Obligations.Branches := by
  unfold Obligations.Branches
  intro a b i s target x y
  refine ⟨branch_goes rfl ?_, branch_goes rfl ?_, branch_goes rfl ?_, branch_goes (exec_bge ..) ?_⟩
  · rw [beq_iff_eq, BitVec.toInt_inj]
  · rw [bne_iff_ne, ne_eq, ne_eq, BitVec.toInt_inj]
  · exact BitVec.slt_iff_toInt_lt
  · rw [Bool.not_eq_true', ← Bool.not_eq_true, BitVec.slt_iff_toInt_lt, not_lt]

theorem execJr_aligned {d a : Reg} {j : BitVec 15} {s : State} (h : (addImm (s.readX a) j).toNat % 4 = 0) :
    exec (.jr d a j) s = .next ((s.writeX d (s.me.pc + 4)).goTo (addImm (s.readX a) j)) := by
  change finish _ s = _
  simp [finish, h]
theorem execJr_misaligned {d a : Reg} {j : BitVec 15} {s : State} (h : (addImm (s.readX a) j).toNat % 4 ≠ 0) (hc : s.copying s.cur = false) :
    exec (.jr d a j) s = .next (s.takeTrap s.cur { cause := 0x09, value := addImm (s.readX a) j, tpc := s.me.pc }) := by
  change finish _ s = _
  simp [finish, h, trap_takes hc]
theorem writes_link (s : State) (d : Reg) (v a : Word) : Writes s ((s.writeX d v).goTo a) d v 0 a := by
  rw [State.goTo, State.writeX, updMe_updMe, updMe_congr (g := fun x => ((x.raise 0).writeX d v).goTo a) (by rw [raise_none])]
  exact writes_updMe ..
theorem jumps : Jumps := by
  intro d a i j s target
  have ht : addImm (s.readX a) j = target := addImm_eq ..
  refine ⟨⟨_, rfl, ?_⟩, fun h => ⟨_, execJr_aligned (ht ▸ h), ht ▸ writes_link ..⟩, fun h hc => ht ▸ execJr_misaligned (ht ▸ h) hc⟩
  rw [← branchTarget_eq]
  exact writes_link ..
end Sys2Proof.Claims
end

section
/-!
PROOFS. The control registers of a hart: their values after reset (spec/07 R145), and the words that read and write them (spec/07 R146,
R147, R150).
-/
namespace Sys2Proof.Claims
open Machine

-- The registers of a hart's own (spec/07 R146) -----------------------------------------------------------------------------------------

/-- The registers of the map that a hart holds itself, by number. -/
def ownMap : List (BitVec 12 × Creg) :=
  [(0x000, .vlen), (0x001, .mvlen), (0x002, .vtype), (0x004, .kidx), (0x008, .fpctl), (0x009, .fpflags), (0x00A, .ptemp), (0x00B, .gctr),
   (0x010, .hid), (0x011, .gid), (0x012, .gsz), (0x013, .garg), (0x014, .tenant), (0x020, .clk), (0x030, .hstat), (0x031, .tvec),
   (0x032, .tpc), (0x033, .tcause), (0x034, .tval), (0x035, .tinfo), (0x036, .tscratch), (0x040, .ectr), (0x090, .tbase),
   (0x120, .tmask), (0x121, .tallow), (0x128, .cnsel), (0x200, .jsel)]
theorem hartRegs_eq (s : State) : hartRegs s = ownMap.map fun e => (e.1, s.readCreg s.cur e.2) := rfl
/-- The map and the claim agree on which registers there are and who may read them. -/
theorem ownMap_tests : ∀ e ∈ ownMap, cregOf e.1 = some e.2 ∧ cregVector e.2 = false ∧ cregPrivileged .get e.2 = readLevel e.1 := by decide
theorem hartRegs_writeX (s : State) (d : Reg) (v : Word) : hartRegs (s.writeX d v) = hartRegs s := by
  rw [hartRegs, hartRegs, State.writeX_eq, State.updMe_me, Hart.writeX]
  split <;> rfl
theorem hartRegs_advance (s : State) : hartRegs s.advance = hartRegs s := by
  rw [hartRegs, hartRegs, State.advance_eq, State.updMe_me]
  rfl
/-- A register of the hart read: the register of the model behind it. -/
theorem mem_hartRegs {c : BitVec 12} {v : Word} {s : State} (h : (c, v) ∈ hartRegs s) :
    ∃ r, cregOf c = some r ∧ cregVector r = false ∧ cregPrivileged .get r = readLevel c ∧ v = s.readCreg s.cur r := by
  rw [hartRegs_eq, List.mem_map] at h
  obtain ⟨⟨n, r⟩, hm, he⟩ := h
  obtain ⟨rfl, rfl⟩ := Prod.mk.inj he
  exact ⟨r, (ownMap_tests _ hm).1, (ownMap_tests _ hm).2.1, (ownMap_tests _ hm).2.2, rfl⟩

theorem hartRegs_reset (h : Nat) : hartRegs { State.reset with cur := h } =
    [(0x000, 0), (0x001, 0), (0x002, 0x28), (0x004, 0), (0x008, 0), (0x009, 0), (0x00A, 0), (0x00B, 0), (0x010, BitVec.ofNat 64 h),
     (0x011, 0), (0x012, 0), (0x013, 0), (0x014, 0), (0x020, 0), (0x030, 0), (0x031, 0), (0x032, 0), (0x033, 0), (0x034, 0), (0x035, 0),
     (0x036, 0), (0x040, 0), (0x090, 0), (0x120, 0x20), (0x121, 0x20), (0x128, 0), (0x200, 0)] := rfl

/-- Settles O58: after reset every hart is the blank hart. -/
theorem resetState : Obligations.ResetState := by
  unfold Obligations.ResetState
  intro h _ s
  rw [hartRegs_reset]
  refine ⟨by simp, by simp, by simp, by simp, fun r => ?_, rfl, rfl, rfl⟩
  rw [State.readX, show s.me = {} from rfl, Hart.readX]
  split <;> rfl

-- Words that read and write them (spec/07 R147, R150) -----------------------------------------------------------------------------------

/-- The tests of a word stop at user level with the privilege trap where the register needs supervisor level. -/
theorem cregWord_user {op : CregOp} {d a : Option Reg} {c : BitVec 12} {r : Creg} {s : State} (hc : cregOf c = some r) (hv : cregVector r = false)
    (hp : cregPrivileged op r = true) (hu : s.me.sup = false) (hcopy : s.copying s.cur = false) :
    cregWord op d a c s = .next (s.takeTrap s.cur { cause := 0x03, value := c.setWidth 64, tpc := s.me.pc }) := by
  have htests : cregTests op r c s = .error (s.takeTrap s.cur { cause := 0x03, value := c.setWidth 64, tpc := s.me.pc }) := by
    simp [cregTests, hv, hp, Op.bind_run, ask, hu, trap_takes hcopy]
  simp [cregWord, finish, hc, htests]
theorem afterCreg_scalar {r : Creg} (hv : cregVector r = false) (s : State) (h : Nat) : s.afterCreg h r = s := by
  cases r with
  | kwin => cases hv
  | _ => rfl
theorem controlRegisterReads : ControlRegisterReads := by
  intro d c v s h
  obtain ⟨r, hc, hv, hp, rfl⟩ := mem_hartRegs h
  refine ⟨fun hlevel => ?_, fun hu hlevel hcopy => cregWord_user (op := .get) (d := some d) (a := none) hc hv (hp.trans hlevel) hu hcopy⟩
  have hget : s.accessCreg s.cur .get r 0 = (s.readCreg s.cur r, s) := congrArg (Prod.mk _) (afterCreg_scalar hv ..)
  exact gives_retire ((cregWord_get hv (hlevel.symm.imp_left hp.trans) hc rfl d).trans (by rw [hget]))

/-- What a write of v to a register of the hart's own makes of the hart. -/
def ownWrite (v : Word) (x : Hart) : Creg → Hart
  | .kidx => { x with kidx := keep 0x3FF8 v }
  | .fpctl => { x with fpctl := v.truncate 10 }
  | .fpflags => { x with fpflags := v.truncate 9 }
  | .gctr => { x with gctr := v }
  | .tenant => { x with tenant := v.truncate 12 }
  | .tvec => { x with tvec := keep 0xFFFFFFFFFFFFFFFC v }
  | .tpc => { x with tpc := keep 0xFFFFFFFFFFFFFFFC v }
  | .tcause => { x with tcause := keep 0xE000000000FF00FF v }
  | .tval => { x with tval := v }
  | .tinfo => { x with tinfo := keep 0xFFFFFFFFFFFFFF00 v }
  | .tscratch => { x with tscratch := v }
  | .ectr => { x with ectr := keep 0x8000FFFFFFFFFFFF v }
  | .tbase => { x with tbase := keep 0x000FFFFFFFFFF001 v }
  | .cnsel => { x with cnsel := v.truncate 18 }
  | .jsel => { x with jsel := v.truncate 8 }
  | _ => x
/-- The writable registers of the hart's own, with the bits a write keeps. -/
def ownMasks : List (BitVec 12 × Creg × Word) :=
  [(0x004, .kidx, 0x3FF8), (0x008, .fpctl, 0x3FF), (0x009, .fpflags, 0x1FF), (0x00B, .gctr, 0xFFFFFFFFFFFFFFFF), (0x014, .tenant, 0xFFF),
   (0x031, .tvec, 0xFFFFFFFFFFFFFFFC), (0x032, .tpc, 0xFFFFFFFFFFFFFFFC), (0x033, .tcause, 0xE000000000FF00FF),
   (0x034, .tval, 0xFFFFFFFFFFFFFFFF), (0x035, .tinfo, 0xFFFFFFFFFFFFFF00), (0x036, .tscratch, 0xFFFFFFFFFFFFFFFF),
   (0x040, .ectr, 0x8000FFFFFFFFFFFF), (0x090, .tbase, 0x000FFFFFFFFFF001), (0x128, .cnsel, 0x3FFFF), (0x200, .jsel, 0xFF)]
theorem hartMasks_eq : hartMasks = ownMasks.map fun e => (e.1, e.2.2) := rfl
theorem ownMasks_tests : ∀ e ∈ ownMasks, cregOf e.1 = some e.2.1 ∧ cregVector e.2.1 = false ∧
    cregPrivileged .set e.2.1 = writeLevel e.1 ∧ cregPrivileged .swap e.2.1 = writeLevel e.1 := by decide
theorem ownWrite_scalars (v : Word) (x : Hart) (r : Creg) : (ownWrite v x r).x = x.x ∧ (ownWrite v x r).pc = x.pc := by
  cases r <;> exact ⟨rfl, rfl⟩
theorem writeCreg_own {e : BitVec 12 × Creg × Word} (he : e ∈ ownMasks) (s : State) (v : Word) :
    s.writeCreg s.cur e.2.1 v = s.updMe fun x => ownWrite v x e.2.1 := by
  revert e
  simp only [ownMasks, List.forall_mem_cons, List.not_mem_nil, IsEmpty.forall_iff, implies_true, and_true]
  exact ⟨rfl, rfl, rfl, rfl, rfl, rfl, rfl, rfl, rfl, rfl, rfl, rfl, rfl, rfl, rfl⟩
theorem truncate_setWidth (n : Nat) (v : Word) (hn : n ≤ 64) : (v.truncate n : BitVec n).setWidth 64 = v &&& BitVec.ofNat 64 (2 ^ n - 1) := by
  apply BitVec.eq_of_toNat_eq
  have hsmall : v.toNat % 2 ^ n < 2 ^ 64 := (Nat.mod_le ..).trans_lt v.isLt
  have hpow : 2 ^ n - 1 < 2 ^ 64 := (Nat.sub_lt (Nat.two_pow_pos n) one_pos).trans_le (Nat.pow_le_pow_right two_pos hn)
  rw [BitVec.toNat_and, BitVec.toNat_setWidth, BitVec.toNat_setWidth, BitVec.toNat_ofNat, Nat.mod_eq_of_lt hsmall, Nat.mod_eq_of_lt hpow,
    Nat.and_two_pow_sub_one_eq_mod]
/-- A write puts the kept bits into its register, and no other register of the hart's map changes. -/
theorem hartRegs_ownWrite {e : BitVec 12 × Creg × Word} (he : e ∈ ownMasks) (s : State) (v : Word) :
    hartRegs (s.updMe fun x => ownWrite v x e.2.1) = (hartRegs s).map fun p => if p.1 = e.1 then (e.1, v &&& e.2.2) else p := by
  revert e
  have h8 := truncate_setWidth 8 v (by decide)
  have h9 := truncate_setWidth 9 v (by decide)
  have h10 := truncate_setWidth 10 v (by decide)
  have h12 := truncate_setWidth 12 v (by decide)
  have h18 := truncate_setWidth 18 v (by decide)
  simp only [ownMasks, List.forall_mem_cons, List.not_mem_nil, IsEmpty.forall_iff, implies_true, and_true, hartRegs, State.updMe_me, ownWrite,
    h8, h9, h10, h12, h18, and_ones, keep]
  refine ⟨rfl, rfl, rfl, rfl, rfl, rfl, rfl, rfl, rfl, rfl, rfl, rfl, rfl, rfl, rfl⟩
theorem retire_eq_updMe (s : State) (d : Reg) (v : Word) : s.retire d v = s.updMe fun x => (x.writeX d v).next := updMe_updMe ..
/-- What a word that writes w to a register of the hart's own, and v to X[d], leaves. -/
theorem ownWrite_retire {e : BitVec 12 × Creg × Word} (he : e ∈ ownMasks) (s : State) (d : Reg) (v w old : Word) (hold : (e.1, old) ∈ hartRegs s) :
    let t := (s.updMe fun x => ownWrite w x e.2.1).retire d v
    (e.1, w &&& e.2.2) ∈ hartRegs t ∧ (∀ p ∈ hartRegs s, p.1 ≠ e.1 → p ∈ hartRegs t) ∧
      t.readX d = (if d = 0 then 0 else v) ∧ (∀ r, r ≠ d → t.readX r = s.readX r) ∧
      t.me.pc = s.me.pc + 4 ∧ (∀ h, h ≠ s.cur → t.hart h = s.hart h) ∧ { t with harts := s.harts } = s := by
  intro t
  have hregs : hartRegs t = (hartRegs s).map fun p => if p.1 = e.1 then (e.1, w &&& e.2.2) else p := by
    refine (hartRegs_advance _).trans ((hartRegs_writeX ..).trans (hartRegs_ownWrite he s w))
  have hme : t.me = ((ownWrite w s.me e.2.1).writeX d v).next := (retire_me ..).trans (by rw [State.updMe_me])
  obtain ⟨hx, hpc⟩ := ownWrite_scalars w s.me e.2.1
  refine ⟨?_, fun p hp hne => ?_, ?_, fun r hr => ?_, ?_, fun h hh => ?_, rfl⟩
  · rw [hregs]
    exact List.mem_map.2 ⟨_, hold, if_pos rfl⟩
  · rw [hregs]
    exact List.mem_map.2 ⟨p, hp, if_neg hne⟩
  · rw [State.readX, hme]
    exact readX_writeX ..
  · rw [State.readX, hme]
    refine (readX_writeX_other hr _ v).trans ?_
    rw [State.readX, Hart.readX, Hart.readX, hx]
  · rw [hme, Hart.next, Hart.writeX_pc, ← hpc]
    rfl
  · rw [show t = _ from retire_eq_updMe .., updMe_updMe]
    exact updMe_other s _ hh
theorem advance_eq_retire (s : State) : s.advance = s.retire 0 0 := by
  rw [retire_eq_updMe]
  rfl
theorem accessCreg_own {e : BitVec 12 × Creg × Word} (he : e ∈ ownMasks) (hv : cregVector e.2.1 = false) {op : CregOp} (hop : op ≠ .get) (s : State)
    (w : Word) : s.accessCreg s.cur op e.2.1 w = (s.readCreg s.cur e.2.1, s.updMe fun x => ownWrite w x e.2.1) := by
  cases op with
  | get => exact absurd rfl hop
  | set | swap =>
    rw [State.accessCreg, afterCreg_scalar hv, writeCreg_own he]
    exact hop
theorem controlRegisterWrites : ControlRegisterWrites := by
  intro d a c mask v s hmask hold
  rw [hartMasks_eq, List.mem_map] at hmask
  obtain ⟨e, he, heq⟩ := hmask
  obtain ⟨rfl, rfl⟩ := Prod.mk.inj heq
  obtain ⟨hc, hv, hset, hswap⟩ := ownMasks_tests e he
  obtain ⟨r, hr, -, -, rfl⟩ := mem_hartRegs hold
  obtain rfl : e.2.1 = r := Option.some.inj (hc.symm.trans hr)
  simp only [List.forall_mem_cons, List.not_mem_nil, IsEmpty.forall_iff, implies_true, and_true]
  refine ⟨fun hlevel => ?_, fun hu hlevel hcopy => ⟨cregWord_user (op := .set) (d := none) (a := some a) hc hv (hset.trans hlevel) hu hcopy,
    cregWord_user (op := .swap) (d := some d) (a := some a) hc hv (hswap.trans hlevel) hu hcopy⟩⟩
  refine ⟨⟨_, ?_, ownWrite_retire he s 0 0 (s.readX a) _ hold⟩, _, ?_, ownWrite_retire he s d _ (s.readX a) _ hold⟩
  · refine (cregWord_set hv (hlevel.symm.imp_left hset.trans) hc rfl a).trans ?_
    rw [accessCreg_own he hv CregOp.noConfusion, advance_eq_retire]
  · refine (cregWord_swap hv (hlevel.symm.imp_left hswap.trans) hc rfl d a).trans ?_
    rw [accessCreg_own he hv CregOp.noConfusion]

/-- Settles O10: the registers of a hart's own are read and written with one access, whose tests are those of their level. -/
theorem controlRegisterWords : Obligations.ControlRegisterWords := ⟨controlRegisterReads, controlRegisterWrites⟩
end Sys2Proof.Claims
end

section
/-!
PROOFS. The scalar float words: arithmetic (spec/07 R160, spec/05 R109, R110), minima, maxima, comparisons and classes (spec/05 R111, R113,
spec/06 R129), and conversions (spec/07 R161, spec/05 R114).
-/
namespace Sys2Proof.Claims
open Machine

-- Arithmetic (spec/07 R160) ------------------------------------------------------------------------------------------------------------

theorem ffmt_ne_e4m3 (f : FFmt) : ffmt f ≠ .e4m3 := by cases f <;> exact Fmt.noConfusion
section
variable (f : FFmt) (rm : Rm) (d a b : Reg) (s : State)
theorem exec_fsqrt : exec (.fsqrt f rm d a) s = .next (s.retireRes d ((fSqrt (ffmt f) s.me.fpctl rm (source f s a).1).nf (ffmt f)) (source f s a).2) :=
  rfl
end
/-- A word whose result meets P, with its flags. -/
theorem float_gives {i : Instr} {s : State} {d : Reg} {r : Res} {fl : Flags} {P : Nat × Flags → Prop} (hP : P (r.bits, r.fl))
    (hi : exec i s = .next (s.retireRes d r fl)) : ∃ k, P k ∧ Gives i s d (BitVec.ofNat 64 k.1) (fl ||| k.2) :=
  ⟨_, hP, gives_retireFlags hi⟩
theorem nf_nf (f : Fmt) (r : Res) : (r.nf f).nf f = r.nf f := by simp [Res.nf, BitVec.or_assoc]
theorem nanRes_nf (f : Fmt) : (nanRes f).nf f = nanRes f := by simp [nanRes, Res.nf, nonFinite_qnan, flagIf]
theorem invalidRes_nf (f : Fmt) : (invalidRes f).nf f = invalidRes f := by simp [invalidRes, Res.nf, nonFinite_qnan, flagIf, flagNf, flagNv]
theorem zero_nf (f : Fmt) (p : Bool) : Res.nf f { bits := withSign f p 0 } = { bits := withSign f p 0 } := by
  simp [Res.nf, nonFinite_of_num (valueOf_zero f p), flagIf]
/-- The root's flags hold nf already where it is infinite or a NaN. -/
theorem fSqrt_nf (f : Fmt) (ctl : BitVec 10) (rm : Rm) (x : FVal) : (fSqrt f ctl rm x).nf f = fSqrt f ctl rm x := by
  cases x with
  | nan q => exact nanRes_nf f
  | inf p =>
    cases p
    · exact nf_nf ..
    · exact invalidRes_nf f
  | num p m e =>
    simp only [fSqrt]
    split_ifs
    · exact zero_nf f p
    · exact invalidRes_nf f
    · exact nf_nf ..

/-- Settles O23: each word rounds its operation on its operands once. -/
theorem floatArithmetic : Obligations.FloatArithmetic := by
  unfold Obligations.FloatArithmetic
  intro f rm d a b s x y z F flush
  have hF : F ≠ .e4m3 := ffmt_ne_e4m3 f
  exact ⟨float_gives (fAdd_isSum hF ..) rfl, float_gives (fSub_isSum hF ..) rfl, float_gives (fMul_isProduct hF ..) rfl,
    float_gives (fDiv_isQuotient hF ..) rfl, float_gives (fSqrt_isRoot hF ..) ((exec_fsqrt ..).trans (by rw [fSqrt_nf])),
    float_gives (fFma_isFused hF ..) rfl⟩

-- Minima and maxima (spec/05 R111) ------------------------------------------------------------------------------------------------------

/-- The encoding k has the value and the sign of x, which is no NaN. -/
structure Encodes (f : Fmt) (k : Nat) (x : FVal) : Prop where
  value : value (valueOf f k) = value x
  sign : bitOf k (f.width - 1) = negative x
  notNan : notNan (valueOf f k)
theorem asRead_encodes {f : Fmt} {ctl : BitVec 10} {b : Nat} (h : notNan (operand f ctl b).1) : Encodes f (asRead f ctl b) (operand f ctl b).1 := by
  have hval : value (valueOf f (asRead f ctl b)) = value (operand f ctl b).1 ∧ notNan (valueOf f (asRead f ctl b)) := by
    rw [operand_fst] at h ⊢
    rw [asRead]
    split
    · rw [valueOf_zero]
      simp [value, real, notNan]
    next hn =>
      rw [if_neg hn] at h
      exact ⟨rfl, h⟩
  exact ⟨hval.1, (negative_operand h).symm, hval.2⟩
theorem negOf_eq (x : FVal) : negOf x = negative x := by cases x <;> rfl
theorem belowFor_iff {x y : FVal} (hx : notNan x) (hy : notNan y) :
    belowFor x y = true ↔ value x < value y ∨ value x = value y ∧ negative x = true ∧ negative y = false := by
  obtain ⟨o, ho, hc⟩ := fCmp_compares hx hy
  rw [belowFor, ho, negOf_eq, negOf_eq]
  cases o with
  | lt => simp [show value x < value y from hc]
  | eq => simp [show value x = value y from hc]
  | gt => simp [(show value y < value x from hc).le, (show value y < value x from hc).ne']
theorem fMinMax_bits_eq (f : Fmt) (ctl : BitVec 10) (isMax : Bool) (u v : Nat) :
    let x := (operand f ctl u).1
    let y := (operand f ctl v).1
    (fMinMax f ctl isMax u v).bits = if isNan x && isNan y then qnan f else if isNan x then asRead f ctl v else if isNan y then asRead f ctl u
      else if (if isMax then belowFor x y else belowFor y x) then asRead f ctl v else asRead f ctl u := rfl
/-- The one picked has the given value; where the two are equal, the given sign. -/
theorem Encodes.picked {f : Fmt} {k : Nat} {z : FVal} {most : EReal} {tie : Prop} [Decidable tie] {sign : Bool} (hk : Encodes f k z)
    (hval : Claims.value z = most) (hsign : tie → negative z = sign) :
    Claims.value (valueOf f k) = most ∧ bitOf k (f.width - 1) = if tie then sign else negative (valueOf f k) := by
  refine ⟨hk.value.trans hval, ?_⟩
  split
  next h => exact hk.sign.trans (hsign h)
  next => exact (negative_valueOf hk.notNan).symm
section
variable {f : Fmt} {u v : Nat} {x y : FVal} (hx : notNan x) (hy : notNan y) (hu : Encodes f u x) (hv : Encodes f v y)
include hx hy hu hv
/-- The lesser of two numbers, with −0 below +0. -/
theorem least_picked :
    let k := if belowFor y x then v else u
    value (valueOf f k) = min (value x) (value y) ∧
      bitOf k (f.width - 1) = if value x = value y then negative x || negative y else negative (valueOf f k) := by
  have hbelow := belowFor_iff hy hx
  dsimp only
  split
  next hb =>
    obtain hlt | ⟨heq, hneg, -⟩ := hbelow.1 hb
    · exact hv.picked (min_eq_right hlt.le).symm fun h => absurd h hlt.ne'
    · exact hv.picked (min_eq_right heq.le).symm fun _ => by simp [hneg]
  next hb =>
    obtain ⟨hle, hsame⟩ := not_or.1 (mt hbelow.2 hb)
    refine hu.picked (min_eq_left (not_lt.1 hle)).symm fun h => ?_
    have hsign : ¬(negative y = true ∧ negative x = false) := fun hs => hsame ⟨h.symm, hs⟩
    revert hsign
    cases negative x <;> cases negative y <;> decide
/-- The greater of two numbers, with −0 below +0. -/
theorem greatest_picked :
    let k := if belowFor x y then v else u
    value (valueOf f k) = max (value x) (value y) ∧
      bitOf k (f.width - 1) = if value x = value y then negative x && negative y else negative (valueOf f k) := by
  have hbelow := belowFor_iff hx hy
  dsimp only
  split
  next hb =>
    obtain hlt | ⟨heq, -, hpos⟩ := hbelow.1 hb
    · exact hv.picked (max_eq_right hlt.le).symm fun h => absurd h hlt.ne
    · exact hv.picked (max_eq_right heq.le).symm fun _ => by simp [hpos]
  next hb =>
    obtain ⟨hle, hsame⟩ := not_or.1 (mt hbelow.2 hb)
    refine hu.picked (max_eq_left (not_lt.1 hle)).symm fun h => ?_
    have hsign : ¬(negative x = true ∧ negative y = false) := fun hs => hsame ⟨h, hs⟩
    revert hsign
    cases negative x <;> cases negative y <;> decide
end
/-- R111 of the encoding that fMinMax gives. -/
theorem fMinMax_picks (f : Fmt) (ctl : BitVec 10) (isMax : Bool) (u v : Nat) :
    let x := (operand f ctl u).1
    let y := (operand f ctl v).1
    let r := (fMinMax f ctl isMax u v).bits
    (¬ notNan x → ¬ notNan y → r = qnan f) ∧
    (notNan x → ¬ notNan y → value (valueOf f r) = value x ∧ bitOf r (f.width - 1) = negative x) ∧
    (¬ notNan x → notNan y → value (valueOf f r) = value y ∧ bitOf r (f.width - 1) = negative y) ∧
    (notNan x → notNan y →
      value (valueOf f r) = (if !isMax then min (value x) (value y) else max (value x) (value y)) ∧
      bitOf r (f.width - 1) = (if value x = value y then (if !isMax then negative x || negative y else negative x && negative y)
        else negative (valueOf f r))) := by
  dsimp only
  rw [fMinMax_bits_eq]
  have hu := asRead_encodes (f := f) (ctl := ctl) (b := u)
  have hv := asRead_encodes (f := f) (ctl := ctl) (b := v)
  generalize (operand f ctl u).1 = x at *
  generalize (operand f ctl v).1 = y at *
  refine ⟨fun hx hy => ?_, fun hx hy => ?_, fun hx hy => ?_, fun hx hy => ?_⟩
  · simp [(isNan_iff x).2 hx, (isNan_iff y).2 hy]
  · simp only [(isNan_eq_false_iff x).2 hx, (isNan_iff y).2 hy, Bool.false_and, Bool.false_eq_true, if_false, if_true]
    exact ⟨(hu hx).value, (hu hx).sign⟩
  · simp only [(isNan_iff x).2 hx, (isNan_eq_false_iff y).2 hy, Bool.and_false, Bool.false_eq_true, if_false, if_true]
    exact ⟨(hv hy).value, (hv hy).sign⟩
  · simp only [(isNan_eq_false_iff x).2 hx, (isNan_eq_false_iff y).2 hy, Bool.and_false, Bool.false_eq_true, if_false]
    cases isMax
    · exact least_picked hx hy (hu hx) (hv hy)
    · exact greatest_picked hx hy (hu hx) (hv hy)

-- Comparisons and classes (spec/06 R129, spec/05 R113) -----------------------------------------------------------------------------------

section
variable (f : FFmt) (d a b : Reg) (s : State)
theorem exec_fmin : exec (.fmin f d a b) s = fpMinMax false f d a b s := rfl
theorem exec_fmax : exec (.fmax f d a b) s = fpMinMax true f d a b s := rfl
theorem exec_fcmpEq : exec (.fcmpEq f d a b) s = fpCmp (fun x y => condHolds .eq (fCmp x y)) f d a b s := rfl
theorem exec_fcmpLt : exec (.fcmpLt f d a b) s = fpCmp (fun x y => condHolds .lt (fCmp x y)) f d a b s := rfl
theorem exec_fcmpLe : exec (.fcmpLe f d a b) s = fpCmp (fun x y => condHolds .le (fCmp x y)) f d a b s := rfl
theorem exec_fcmpUn : exec (.fcmpUn f d a b) s = fpCmp (fun x y => isNan x || isNan y) f d a b s := rfl
theorem exec_fclass : exec (.fclass f d a) s = .next (s.retireFlags d
    (BitVec.ofNat 64 (classOf (ffmt f) s.me.fpctl (floatBits (ffmt f) (s.readX a))).1)
    (classOf (ffmt f) s.me.fpctl (floatBits (ffmt f) (s.readX a))).2) := rfl
end
section
variable {f : FFmt} {d a b : Reg} {s : State} {i : Instr}
theorem fpMinMax_gives {isMax : Bool} (hi : exec i s = fpMinMax isMax f d a b s) :
    let r := (fMinMax (ffmt f) s.me.fpctl isMax (floatBits (ffmt f) (s.readX a)) (floatBits (ffmt f) (s.readX b))).bits
    r < 2 ^ (ffmt f).width ∧
      Gives i s d (BitVec.ofNat 64 r) ((source f s a).2 ||| (source f s b).2 ||| if nonFinite (ffmt f) r then 0x080 else 0) := by
  refine ⟨fMinMax_lt isMax _ (Nat.mod_lt _ (Nat.two_pow_pos _)) (Nat.mod_lt _ (Nat.two_pow_pos _)), gives_retireFlags hi rfl ?_⟩
  exact BitVec.zero_or ..
theorem fpCmp_gives {holds : FVal → FVal → Bool} {p : Prop} (hi : exec i s = fpCmp holds f d a b s)
    (hp : holds (source f s a).1 (source f s b).1 = true ↔ p) :
    ∃ c : Bool, (c = true ↔ p) ∧ Gives i s d (if c then 1 else 0) ((source f s a).2 ||| (source f s b).2) :=
  ⟨_, hp, gives_retireFlags hi⟩
end
theorem condHolds_of_ne {cc : CmpOp} (hne : cc ≠ .ne) (x y : FVal) :
    condHolds cc (fCmp x y) = true ↔ notNan x ∧ notNan y ∧ Compares cc (value x) (value y) := by
  rw [condHolds_values]
  simp [hne]

/-- Settles O24: minimum and maximum pick one of the operands as read, and a condition holds of the comparison of their values. -/
theorem floatComparisons : Obligations.FloatComparisons := by
  unfold Obligations.FloatComparisons
  intro f d a b s x y F fl cmp pick
  obtain ⟨hminlt, hmin⟩ := fpMinMax_gives (exec_fmin f d a b s)
  obtain ⟨hmaxlt, hmax⟩ := fpMinMax_gives (exec_fmax f d a b s)
  refine ⟨⟨_, hminlt, hmin, fMinMax_picks ..⟩, ⟨_, hmaxlt, hmax, fMinMax_picks ..⟩,
    fpCmp_gives (exec_fcmpEq ..) (condHolds_of_ne CmpOp.noConfusion ..), fpCmp_gives (exec_fcmpLt ..) (condHolds_of_ne CmpOp.noConfusion ..),
    fpCmp_gives (exec_fcmpLe ..) (condHolds_of_ne CmpOp.noConfusion ..), fpCmp_gives (exec_fcmpUn ..) ?_,
    ⟨_, (classOf_code ..).1, gives_retireFlags (exec_fclass ..) rfl (classOf_flags ..)⟩⟩
  rw [Bool.or_eq_true, isNan_iff, isNan_iff]

-- Conversions (spec/07 R161) -------------------------------------------------------------------------------------------------------------

/-- The element type of an integer code, and its range. -/
theorem intRange_eq {t : CvtTy} {lo hi : Int} (h : intRange t = some (lo, hi)) :
    fmtOf (cvtETy t) = none ∧ lo = least (cvtETy t) ∧ hi = most (cvtETy t) := by
  cases t <;> cases h <;> exact ⟨rfl, by decide, by decide⟩
theorem floatOf_eq {t : CvtTy} {f : Fmt} (h : floatOf t = some f) : fmtOf (cvtETy t) = some f ∧ tyBits (cvtETy t) = f.width ∧ f ≠ .e4m3 := by
  cases t <;> cases h <;> exact ⟨rfl, rfl, Fmt.noConfusion⟩
theorem intSource_eq {t : CvtTy} (h : (intRange t).isSome = true) (w : Word) :
    fmtOf (cvtETy t) = none ∧ intVal (cvtETy t) (w.toNat % 2 ^ tyBits (cvtETy t)) = intSource t w := by
  have low : ∀ n, BitVec.ofNat n (w.toNat % 2 ^ n) = w.setWidth n := fun n => BitVec.eq_of_toNat_eq (by simp)
  have modMod : ∀ n, w.toNat % 2 ^ n % 2 ^ n = (w.setWidth n).toNat := fun n => by rw [Nat.mod_mod, BitVec.toNat_setWidth]
  cases t with
  | s64 => exact ⟨rfl, (congrArg BitVec.toInt (low 64)).trans (by rw [BitVec.setWidth_eq]; rfl)⟩
  | z64 => exact ⟨rfl, (congrArg Nat.cast (modMod 64)).trans (by rw [BitVec.setWidth_eq]; rfl)⟩
  | s32 => exact ⟨rfl, congrArg BitVec.toInt (low 32)⟩
  | z32 => exact ⟨rfl, congrArg Nat.cast (modMod 32)⟩
  | f32 | f16 | bf16 => cases h
theorem cvtWord_int {t : CvtTy} (h : (intRange t).isSome = true) (z : Int) : cvtWord t (bitsOfInt (cvtETy t) z) = intWord t z := by
  have wide : BitVec.ofNat 64 (wrapN 32 z) = (BitVec.ofInt 32 z).setWidth 64 := by
    rw [← ofNat_wrapN]
    apply BitVec.eq_of_toNat_eq
    simp [wrapN]
    omega
  cases t with
  | s64 | z64 => exact ofNat_wrapN 64 z
  | s32 => exact (ofInt_sextN _).trans (by rw [← wrapN_eq]; exact congrArg _ (ofNat_wrapN 32 z))
  | z32 => exact wide
  | f32 | f16 | bf16 => cases h
theorem cvtWord_float {t : CvtTy} {f : Fmt} (h : floatOf t = some f) (b : Nat) : cvtWord t b = BitVec.ofNat 64 b := by
  cases t with
  | f32 | f16 | bf16 => rfl
  | s64 | z64 | s32 | z32 => cases h
/-- The integer a number becomes: the one its mode chooses, held in the range. -/
theorem toInt_num (t : ETy) (rm : Rm) (p : Bool) (n : Nat) (e : Int) :
    ∃ z : Int, Chooses Whole EvenWhole rm (real (.num p n e)) z ∧ toInt (tySigned t) (tyBits t) rm (.num p n e) =
      if z < least t then { bits := bitsOfInt t (least t), fl := 0x010, mark := true }
      else if most t < z then { bits := bitsOfInt t (most t), fl := 0x010, mark := true }
      else { bits := bitsOfInt t z, fl := if (z : ℝ) = real (.num p n e) then 0 else 0x001 } := by
  obtain ⟨hchooses, hexact⟩ := roundInt_chooses rm p n e
  refine ⟨_, hchooses, ?_⟩
  have hfl : flagIf (roundInt rm p n e).2 flagNx = if ((roundInt rm p n e).1 : ℝ) = real (.num p n e) then 0 else 0x001 := by
    by_cases h : ((roundInt rm p n e).1 : ℝ) = real (.num p n e)
    · rw [if_pos h, Bool.eq_false_iff.2 (mt hexact.1 (not_not.2 h))]
      rfl
    · rw [if_neg h, hexact.2 h]
      rfl
  rw [← hfl, toInt, minOf_eq, maxOf_eq, wrapN_eq, wrapN_eq, ← wrapN_eq t (roundInt rm p n e).1]
  rfl
theorem exec_fcvt (dst src : CvtTy) (rm : Rm) (d a : Reg) (s : State) : exec (.fcvt dst src rm d a) s =
    .next (s.retireFlags d (cvtWord dst (convert s.me.fpctl rm (cvtETy dst) (cvtETy src) ((s.readX a).toNat % 2 ^ tyBits (cvtETy src))).bits)
      (convert s.me.fpctl rm (cvtETy dst) (cvtETy src) ((s.readX a).toNat % 2 ^ tyBits (cvtETy src))).fl) := rfl
section
variable {dst src : CvtTy} {rm : Rm} {d a : Reg} {s : State}
/-- The word gives what convert gives. -/
theorem fcvt_gives {r : Res} {v : Word} {fl : Flags} (h : convert s.me.fpctl rm (cvtETy dst) (cvtETy src) ((s.readX a).toNat % 2 ^ tyBits (cvtETy src)) = r)
    (hv : cvtWord dst r.bits = v) (hf : r.fl = fl) : Gives (.fcvt dst src rm d a) s d v fl :=
  gives_retireFlags (exec_fcvt ..) (by rw [h, hv]) (by rw [h, hf])
theorem fcvt_ints {lo hi : Int} (hd : intRange dst = some (lo, hi)) (hs : (intRange src).isSome = true) :
    let z := intSource src (s.readX a)
    Gives (.fcvt dst src rm d a) s d (intWord dst (if z < lo then lo else if hi < z then hi else z)) (if z < lo ∨ hi < z then 0x040 else 0) := by
  obtain ⟨ht, rfl, rfl⟩ := intRange_eq hd
  obtain ⟨hu, hz⟩ := intSource_eq hs (s.readX a)
  have hle : least (cvtETy dst) ≤ most (cvtETy dst) := by
    rw [← minOf_eq, ← maxOf_eq]
    exact minOf_le_maxOf ..
  refine fcvt_gives ((convert_ints _ _ _ ht hu).trans (satInt_eq ..)) ((cvtWord_int (by rw [hd]; rfl) _).trans ?_) (by rw [hz, satFlag])
  rw [hz, held]
  congr 1
  split
  next h => exact max_eq_left (min_le_of_right_le h.le)
  next h =>
    split
    next h' => rw [min_eq_left h'.le, max_eq_right hle]
    next h' => rw [min_eq_right (not_lt.1 h'), max_eq_right (not_lt.1 h)]
theorem fcvt_toFloat {f : Fmt} (hd : floatOf dst = some f) (hs : (intRange src).isSome = true) :
    let z := intSource src (s.readX a)
    if z = 0 then Gives (.fcvt dst src rm d a) s d 0 0
    else ∃ r, Saturates f (resultFlush s.me.fpctl f) rm z r ∧ Gives (.fcvt dst src rm d a) s d (BitVec.ofNat 64 r.1) r.2 := by
  obtain ⟨ht, -, -⟩ := floatOf_eq hd
  obtain ⟨hu, hz⟩ := intSource_eq hs (s.readX a)
  have hc := convert_toFloat s.me.fpctl rm ((s.readX a).toNat % 2 ^ tyBits (cvtETy src)) ht hu
  rw [hz, reads_zero] at hc
  dsimp only
  split
  next h0 =>
    rw [h0, Int.natAbs_zero, satVal_zero] at hc
    exact fcvt_gives hc (cvtWord_float hd _) rfl
  next h0 =>
    obtain ⟨k, hk, -, hx⟩ := satVal_num (f := f) (ctl := s.me.fpctl) (rm := rm) (neg := decide (intSource src (s.readX a) < 0)) (e := 0)
      (Int.natAbs_ne_zero.2 h0)
    rw [real_ofInt, zpow_zero, mul_one] at hk
    exact ⟨k, hk, fcvt_gives (hc.trans hx) (cvtWord_float hd _) rfl⟩
/-- A float that the conversion reads as x, with these flags. -/
def Reads (src : CvtTy) (s : State) (a : Reg) (g : Fmt) (x : FVal × Flags) : Prop :=
  floatOf src = some g ∧ operand g s.me.fpctl ((s.readX a).toNat % 2 ^ g.width) = x
theorem convert_reads_int {g : Fmt} {x : FVal × Flags} (ht : fmtOf (cvtETy dst) = none) (hx : Reads src s a g x) :
    convert s.me.fpctl rm (cvtETy dst) (cvtETy src) ((s.readX a).toNat % 2 ^ tyBits (cvtETy src)) =
      (toInt (tySigned (cvtETy dst)) (tyBits (cvtETy dst)) rm x.1).reads x.2 := by
  obtain ⟨hu, hw, -⟩ := floatOf_eq hx.1
  rw [convert_toInt _ _ _ ht hu, hw, hx.2]
theorem convert_reads_float {f g : Fmt} {x : FVal × Flags} (hd : floatOf dst = some f) (hx : Reads src s a g x) :
    convert s.me.fpctl rm (cvtETy dst) (cvtETy src) ((s.readX a).toNat % 2 ^ tyBits (cvtETy src)) = (satVal f s.me.fpctl rm x.1).reads x.2 := by
  obtain ⟨ht, -, -⟩ := floatOf_eq hd
  obtain ⟨hu, hw, -⟩ := floatOf_eq hx.1
  rw [convert_floats _ _ _ ht hu, hw, hx.2]
/-- A number as an integer. -/
theorem fcvt_toInt_num {lo hi : Int} {g : Fmt} {p : Bool} {m : Nat} {e : Int} {fl : Flags} (hd : intRange dst = some (lo, hi))
    (hx : Reads src s a g (.num p m e, fl)) : ∃ z : Int, Chooses Whole EvenWhole rm (real (.num p m e)) z ∧
      (z < lo → Gives (.fcvt dst src rm d a) s d (intWord dst lo) (fl ||| 0x010)) ∧
      (hi < z → Gives (.fcvt dst src rm d a) s d (intWord dst hi) (fl ||| 0x010)) ∧
      (lo ≤ z → z ≤ hi → ((z : ℝ) = real (.num p m e) → Gives (.fcvt dst src rm d a) s d (intWord dst z) fl) ∧
        ((z : ℝ) ≠ real (.num p m e) → Gives (.fcvt dst src rm d a) s d (intWord dst z) (fl ||| 0x001))) := by
  obtain ⟨ht, rfl, rfl⟩ := intRange_eq hd
  obtain ⟨z, hz, hres⟩ := toInt_num (cvtETy dst) rm p m e
  have hle : least (cvtETy dst) ≤ most (cvtETy dst) := by
    rw [← minOf_eq, ← maxOf_eq]
    exact minOf_le_maxOf ..
  have gives : ∀ {v : Int} {fl' fl'' : Flags} {mark : Bool},
      toInt (tySigned (cvtETy dst)) (tyBits (cvtETy dst)) rm (.num p m e) = { bits := bitsOfInt (cvtETy dst) v, fl := fl', mark := mark } →
      fl ||| fl' = fl'' → Gives (.fcvt dst src rm d a) s d (intWord dst v) fl'' := fun hr hf =>
    fcvt_gives (convert_reads_int ht hx) (by rw [hr]; exact cvtWord_int (by rw [hd]; rfl) _) (by rw [hr, ← hf, Res.reads, BitVec.or_comm])
  refine ⟨z, hz, fun hlo => ?_, fun hhi => ?_, fun hlo hhi => ⟨fun heq => ?_, fun hne => ?_⟩⟩
  · exact gives (hres.trans (if_pos hlo)) rfl
  · exact gives (hres.trans ((if_neg (hle.trans hhi.le).not_gt).trans (if_pos hhi))) rfl
  · exact gives (hres.trans ((if_neg hlo.not_gt).trans (if_neg hhi.not_gt))) (by rw [if_pos heq]; exact BitVec.or_zero)
  · exact gives (hres.trans ((if_neg hlo.not_gt).trans (if_neg hhi.not_gt))) (by rw [if_neg hne])
theorem operand_inf {f : Fmt} {ctl : BitVec 10} {b : Nat} {p : Bool} {fl : Flags} (h : operand f ctl b = (.inf p, fl)) : fl = 0 := by
  rw [operand] at h
  split at h
  · cases h
  · split at h
    · cases h
    · exact (Prod.mk.inj h).2.symm
/-- A number as another float. -/
theorem fcvt_floats_num {f g : Fmt} {p : Bool} {m : Nat} {e : Int} {fl : Flags} (hd : floatOf dst = some f) (hx : Reads src s a g (.num p m e, fl)) :
    if m = 0 then Gives (.fcvt dst src rm d a) s d (BitVec.ofNat 64 (withSign f p 0)) fl
    else ∃ r, Saturates f (resultFlush s.me.fpctl f) rm (real (.num p m e)) r ∧
      Gives (.fcvt dst src rm d a) s d (BitVec.ofNat 64 r.1) (fl ||| r.2) := by
  have hc := convert_reads_float (rm := rm) hd hx
  split
  next h0 =>
    subst h0
    exact fcvt_gives (hc.trans (by rw [satVal_zero])) (cvtWord_float hd _) (BitVec.zero_or ..)
  next h0 =>
    obtain ⟨k, hk, -, hr⟩ := satVal_num (f := f) (ctl := s.me.fpctl) (rm := rm) (neg := p) (e := e) h0
    exact ⟨k, hk, fcvt_gives (hc.trans (by rw [hr])) (cvtWord_float hd _) (BitVec.or_comm ..)⟩
end

/-- Settles O25: the four corners of the table are satInt, satVal and toInt on the source as read. -/
theorem floatConversions : Obligations.FloatConversions := by
  unfold Obligations.FloatConversions
  intro dst src rm d a s w out
  refine ⟨fun lo hi hd hs => fcvt_ints hd hs, fun f hd hs => fcvt_toFloat hd hs, fun lo hi g hd hs => ?_, fun f g hd hs => ?_⟩
  · intro x
    have hx : Reads src s a g x := ⟨hs, rfl⟩
    generalize x = x at hx
    obtain ⟨v, fl⟩ := x
    obtain ⟨ht, hlo, hhi⟩ := intRange_eq hd
    cases v with
    | nan q => exact fcvt_gives (convert_reads_int ht hx) ((cvtWord_int (by rw [hd]; rfl) 0).trans (by cases dst <;> rfl)) (BitVec.or_comm ..)
    | inf p =>
      obtain rfl := operand_inf hx.2
      rw [hlo, hhi]
      refine fcvt_gives ((convert_reads_int ht hx).trans (reads_zero _)) ?_ rfl
      rw [← cvtWord_int (by rw [hd]; rfl), ← wrapN_eq, ← minOf_eq, ← maxOf_eq]
      rfl
    | num p m e => exact fcvt_toInt_num hd hx
  · intro x
    have hx : Reads src s a g x := ⟨hs, rfl⟩
    generalize x = x at hx
    obtain ⟨v, fl⟩ := x
    obtain ⟨-, -, hf⟩ := floatOf_eq hd
    cases v with
    | nan q => exact fcvt_gives (convert_reads_float hd hx) (by rw [satVal_nan]; exact cvtWord_float hd _) (by rw [satVal_nan]; exact BitVec.or_comm ..)
    | inf p =>
      obtain rfl := operand_inf hx.2
      have hinf := satVal_inf f s.me.fpctl rm p
      rw [if_neg hf] at hinf
      exact fcvt_gives ((convert_reads_float hd hx).trans ((reads_zero _).trans hinf)) (cvtWord_float hd _) rfl
    | num p m e => exact fcvt_floats_num hd hx
end Sys2Proof.Claims
end

section
/-!
PROOFS. What a scalar load leaves (spec/07 R157, spec/12 R247): the translation and the fill that come before it change no register and no
byte that a cluster reads, and the bytes loaded are those the cluster held, or its homes.
-/
namespace Sys2Proof.Claims
open Machine

-- What a checked translation keeps (spec/14 R293 to R295) --------------------------------------------------------------------------------

/-- What a translation keeps: all but trackers, counters and translation caches. -/
def offWalk (s : State) : State × (Nat → List Nat × List Nat) × (Nat → Core) × (Nat → Cluster) :=
  ({ s with dies := [], baseDies := [], counters := [], cores := [], clusters := [] }, fun n => ((s.stack n).fencedCh, (s.stack n).segErr),
    fun c => { s.core c with tlb := [] }, fun k => { s.cluster k with tlb := [] })
theorem offWalk_of_offTrackers {s t : State} (h : offTrackers t = offTrackers s) : offWalk t = offWalk s := by
  have hs : ({ t with dies := [], baseDies := [], counters := [] } : State) = { s with dies := [], baseDies := [], counters := [] } :=
    congrArg Prod.fst h
  have hcores : t.cores = s.cores := (congrArg State.cores hs :)
  have hclusters : t.clusters = s.clusters := (congrArg State.clusters hs :)
  refine Prod.ext (congrArg (fun x : State => { x with cores := [], clusters := [] }) hs)
    (Prod.ext (congrArg Prod.snd h) (Prod.ext (funext fun c => ?_) (funext fun k => ?_)))
  · simp only [offWalk, State.core, hcores]
  · simp only [offWalk, State.cluster, hclusters]
theorem offTrackers_bumpSel (s : State) (h slot n : Nat) (l : List Nat) : offTrackers (s.bumpSel h slot n l) = offTrackers s := by
  induction l generalizing s with
  | nil => rfl
  | cons j l ih =>
    rw [State.bumpSel, ih]
    split <;> rfl
theorem offTrackers_bumpHart (s : State) (h slot n : Nat) : offTrackers (s.bumpHart h slot n) = offTrackers s :=
  (offTrackers_bumpSel ..).trans (offTrackers_bump ..)
theorem offTrackers_walkTouch (s : State) (h va : Nat) : offTrackers (s.walkTouch h va) = offTrackers s := by
  unfold State.walkTouch
  dsimp only
  split
  · rfl
  · exact foldl_keeps offTrackers _ (fun s a => offTrackers_mscReads s _ _) _ s
theorem offWalk_tlbFill (s : State) (core root va level leaf : Nat) : offWalk (s.tlbFill core root va level leaf) = offWalk s := by
  refine Prod.ext rfl (Prod.ext rfl (Prod.ext (funext fun c => ?_) (funext fun k => ?_)))
  · simp only [offWalk, State.tlbFill, State.updCluster_eq, State.setCluster_core, State.updCore_eq, State.setCore_core]
    split
    next h => rw [h]
    next => rfl
  · simp only [offWalk, State.tlbFill, State.updCluster_eq, State.setCluster_cluster, State.updCore_eq, State.setCore_cluster]
    split
    next h => rw [h]
    next => rfl
theorem offWalk_translate (s : State) (h va : Nat) (kind : AccKind) (w : Nat) (sup : Bool) : offWalk (s.translate h va kind w sup).2 = offWalk s := by
  have touched : offWalk ((s.walkTouch h (va % 2 ^ 57)).bumpHart h 6 1) = offWalk s :=
    offWalk_of_offTrackers ((offTrackers_bumpHart ..).trans (offTrackers_walkTouch ..))
  unfold State.translate
  dsimp only
  split
  · split
    · rfl
    · split <;> rfl
  · split
    · exact touched
    next leaf level hit _ =>
      have hhit : offWalk (if hit = true then s else (s.walkTouch h (va % 2 ^ 57)).bumpHart h 6 1) = offWalk s := by
        split
        · rfl
        · exact touched
      split
      · exact hhit
      · exact (offWalk_tlbFill ..).trans hhit
theorem offWalk_check {s t : State} {h n w : Nat} {ea : Word} {o : Orient} {kind : AccKind} {sup : Bool} {r : Except Bad Trans}
    (hc : s.check h ea n o kind w sup = (r, t)) : offWalk t = offWalk s := by
  have hw := offWalk_translate s h ea.toNat kind w sup
  rw [State.check] at hc
  split at hc
  · exact (Prod.mk.inj hc).2 ▸ rfl
  · split at hc
    · exact (Prod.mk.inj hc).2 ▸ rfl
    · generalize s.translate h ea.toNat kind w sup = x at hc hw
      obtain ⟨e | u, s1⟩ := x
      · exact (Prod.mk.inj hc).2 ▸ hw
      · dsimp only at hc
        split at hc <;> exact (Prod.mk.inj hc).2 ▸ hw
/-- In an untranslated space nothing at all changes. -/
theorem check_untranslated {s t : State} {h n w : Nat} {ea : Word} {o : Orient} {kind : AccKind} {sup : Bool} {r : Except Bad Trans}
    (hb : tbaseEn (s.hart h).tbase = false) (hc : s.check h ea n o kind w sup = (r, t)) : t = s := by
  have hw : (s.translate h ea.toNat kind w sup).2 = s := by
    unfold State.translate
    simp only [hb, Bool.not_false, if_true]
    split
    · rfl
    · split <;> rfl
  rw [State.check] at hc
  split at hc
  · exact (Prod.mk.inj hc).2.symm
  · split at hc
    · exact (Prod.mk.inj hc).2.symm
    · generalize s.translate h ea.toNat kind w sup = x at hc hw
      obtain ⟨e | u, s1⟩ := x
      · exact (Prod.mk.inj hc).2 ▸ hw
      · dsimp only at hc
        split at hc <;> exact (Prod.mk.inj hc).2 ▸ hw

section
variable {s t : State} (h : offWalk t = offWalk s)
include h
theorem state_of_offWalk : t.withoutCaches = s.withoutCaches := congrArg (fun x => x.1) h
theorem core_of_offWalk (c : Nat) : t.core c = { s.core c with tlb := (t.core c).tlb } :=
  congrArg (fun x => { x.2.2.1 c with tlb := (t.core c).tlb }) h
theorem cluster_of_offWalk (k : Nat) : t.cluster k = { s.cluster k with tlb := (t.cluster k).tlb } :=
  congrArg (fun x => { x.2.2.2 k with tlb := (t.cluster k).tlb }) h
end

-- Sectors and bytes written one by one ---------------------------------------------------------------------------------------------------

theorem mem_add (l : List Nat) (k x : Nat) : x ∈ NSet.add l k ↔ x = k ∨ x ∈ l := by
  induction l with
  | nil => simp [NSet.add]
  | cons y l ih =>
    rw [NSet.add]
    split
    · simp
    · split
      next h => simp [h]
      next => simp only [List.mem_cons, ih]; tauto
theorem mem_sectorsAt (pas : List Nat) (x : Nat) : x ∈ sectorsAt pas ↔ ∃ pa ∈ pas, sectorOf pa = x := by
  have gathered : ∀ l : List Nat, x ∈ pas.foldl (fun l pa => NSet.add l (sectorOf pa)) l ↔ x ∈ l ∨ ∃ pa ∈ pas, sectorOf pa = x := by
    induction pas with
    | nil => simp
    | cons pa pas ih =>
      intro l
      rw [List.foldl_cons, ih, mem_add]
      simp only [List.mem_cons, exists_eq_or_imp]
      tauto
  simpa [sectorsAt] using gathered []
theorem read_writes (f : Nat → Byte) (pas : List Nat) (m : List Host.Cell) (b : Nat) :
    Memory.read (pas.foldl (fun m pa => Memory.write m pa (f pa)) m) b = if b ∈ pas then f b else Memory.read m b := by
  induction pas generalizing m with
  | nil => simp
  | cons pa pas ih =>
    rw [List.foldl_cons, ih, Memory.read_write]
    by_cases hb : b = pa
    · subst hb
      simp
    · simp [hb]
theorem mem_cleanIn (s : State) (k : Nat) (secs : List Nat) (b : Nat) :
    b ∈ s.cleanIn k secs ↔ sectorOf b ∈ secs ∧ s.resident k b = true ∧ s.dirtyByte k b = false := by
  simp only [State.cleanIn, List.mem_flatMap, List.mem_filter, List.mem_map, upTo, List.mem_range, Bool.and_eq_true, Bool.not_eq_true', sectorOf]
  constructor
  · rintro ⟨x, hx, ⟨i, hi, rfl⟩, hr⟩
    exact ⟨by rwa [show (32 * x + i) / 32 = x by omega], hr⟩
  · rintro ⟨hx, hr⟩
    exact ⟨b / 32, hx, ⟨b % 32, by omega, by omega⟩, hr⟩

theorem mem_of_mem_delAll {xs l : List Nat} {x : Nat} (h : x ∈ xs.foldl NSet.del l) : x ∈ l := by
  induction xs generalizing l with
  | nil => exact h
  | cons y xs ih => exact List.mem_of_mem_filter (ih h)

-- States alike but for what a read may touch (spec/12 R247) ----------------------------------------------------------------------------------

/-- t is s but for trackers, counters, translation caches, shares of a range and who touched a sector; the bytes of its clusters read as
before, and no mark of poison is new. -/
structure Alike (s t : State) : Prop where
  state : t.withoutCaches = s.withoutCaches
  failures : ∀ n, ((t.stack n).fencedCh, (t.stack n).segErr) = ((s.stack n).fencedCh, (s.stack n).segErr)
  cores : ∀ c, t.core c = { s.core c with tlb := (t.core c).tlb }
  clusters : ∀ k, t.cluster k = { s.cluster k with
    bytes := (t.cluster k).bytes, poison := (t.cluster k).poison, acc := (t.cluster k).acc, tlb := (t.cluster k).tlb, touched := (t.cluster k).touched }
  bytes : ∀ k b, Memory.read (t.cluster k).bytes b = Memory.read (s.cluster k).bytes b
  marks : ∀ k, ∀ x ∈ (t.cluster k).poison, x ∈ (s.cluster k).poison
theorem alike_refl (s : State) : Alike s s := ⟨rfl, fun _ => rfl, fun _ => rfl, fun _ => rfl, fun _ _ => rfl, fun _ _ => id⟩
theorem Alike.trans {s t u : State} (h : Alike s t) (g : Alike t u) : Alike s u where
  state := g.state.trans h.state
  failures n := (g.failures n).trans (h.failures n)
  cores c := by rw [g.cores, h.cores]
  clusters k := by rw [g.clusters, h.clusters]
  bytes k b := (g.bytes k b).trans (h.bytes k b)
  marks k x hx := h.marks k x (g.marks k x hx)
theorem alike_of_offWalk {s t : State} (h : offWalk t = offWalk s) : Alike s t where
  state := state_of_offWalk h
  failures n := congrArg (fun x => x.2.1 n) h
  cores := core_of_offWalk h
  clusters k := by
    rw [cluster_of_offWalk h]
  bytes k b := by rw [cluster_of_offWalk h]
  marks k x hx := by rwa [cluster_of_offWalk h] at hx
theorem alike_of_offTrackers {s t : State} (h : offTrackers t = offTrackers s) : Alike s t := alike_of_offWalk (offWalk_of_offTrackers h)
/-- One cluster changed alike. -/
theorem alike_setCluster {s : State} {k : Nat} {c : Cluster} (h : c = { s.cluster k with
      bytes := c.bytes, poison := c.poison, acc := c.acc, tlb := c.tlb, touched := c.touched })
    (hbytes : ∀ b, Memory.read c.bytes b = Memory.read (s.cluster k).bytes b) (hmarks : ∀ x ∈ c.poison, x ∈ (s.cluster k).poison) :
    Alike s (s.setCluster k c) := by
  refine ⟨rfl, fun _ => rfl, fun _ => rfl, fun j => ?_, fun j b => ?_, fun j x hx => ?_⟩ <;> rw [State.setCluster_cluster] at *
  · split
    next hj => rw [hj]; exact h
    next => rfl
  · split
    next hj => rw [hj]; exact hbytes b
    next => rfl
  · split at hx
    next hj => exact hj ▸ hmarks x hx
    next => exact hx
theorem homePoison_congr {s t : State} (hs : t.withoutCaches = s.withoutCaches)
    (hf : ∀ n, ((t.stack n).fencedCh, (t.stack n).segErr) = ((s.stack n).fencedCh, (s.stack n).segErr)) (die b : Nat) :
    t.homePoison die b = s.homePoison die b := by
  have hcxl : t.cxl = s.cxl := (congrArg State.cxl hs :)
  have hcenel : t.cenel = s.cenel := (congrArg State.cenel hs :)
  have hnet : t.dieNet = s.dieNet := (congrArg State.dieNet hs :)
  have hmarks : t.poison = s.poison := (congrArg State.poison hs :)
  have hfenced : ∀ n, (t.stack n).fencedCh = (s.stack n).fencedCh := fun n => congrArg Prod.fst (hf n)
  have hseg : ∀ n, (t.stack n).segErr = (s.stack n).segErr := fun n => congrArg Prod.snd (hf n)
  simp only [State.homePoison, State.dead, State.cut, hcxl, hcenel, hnet, hmarks, hfenced, hseg]
theorem belowByte_congr {s t : State} (hs : t.withoutCaches = s.withoutCaches) (k b : Nat) : t.belowByte k b = s.belowByte k b := by
  have hdrains : t.drains = s.drains := (congrArg State.drains hs :)
  have hmem : t.mem = s.mem := (congrArg State.mem hs :)
  rw [State.belowByte, State.belowByte, hdrains, hmem]
section
variable {s t : State} (h : Alike s t)
include h
theorem Alike.harts : t.harts = s.harts := (congrArg State.harts h.state :)
theorem Alike.cur : t.cur = s.cur := (congrArg State.cur h.state :)
theorem Alike.hart (k : Nat) : t.hart k = s.hart k := congrArg (Tab.get ({} : Hart) · k) h.harts
theorem Alike.me : t.me = s.me := by rw [State.me, State.me, h.cur, h.hart]
theorem Alike.dcacheKeys (k : Nat) : t.dcacheKeys k = s.dcacheKeys k := by
  simp only [State.dcacheKeys, fun c => congrArg Core.dcache (h.cores c)]
theorem Alike.lines (k : Nat) : (t.cluster k).lines = (s.cluster k).lines := (congrArg Cluster.lines (h.clusters k) :)
theorem Alike.atomLines (k : Nat) : (t.cluster k).atomLines = (s.cluster k).atomLines := (congrArg Cluster.atomLines (h.clusters k) :)
theorem Alike.resident (k b : Nat) : t.resident k b = s.resident k b := by
  rw [State.resident, h.lines, h.atomLines, h.dcacheKeys]
  rfl
theorem Alike.dirtyByte (k b : Nat) : t.dirtyByte k b = s.dirtyByte k b := by
  rw [State.dirtyByte, h.lines, h.atomLines]
  rfl
theorem Alike.belowByte (k b : Nat) : t.belowByte k b = s.belowByte k b := belowByte_congr h.state k b
theorem Alike.clusterByte (k b : Nat) : t.clusterByte k b = s.clusterByte k b := by
  rw [State.clusterByte, State.clusterByte, h.resident, h.belowByte, h.bytes]
theorem Alike.homePoison (die b : Nat) : t.homePoison die b = s.homePoison die b := homePoison_congr h.state h.failures die b
end
/-- Clean copies that are as from below, in sectors without poison, read as before after they are read again. -/
theorem alike_reread {s : State} {k : Nat} {secs : List Nat} (hbelow : ∀ b ∈ s.cleanIn k secs, Memory.read (s.cluster k).bytes b = s.belowByte k b)
    (hmarks : ∀ x ∈ secs, s.homePoison (clusterDie k) (32 * x) = false) : Alike s (s.reread k secs) := by
  unfold State.reread
  dsimp only
  split
  · exact alike_refl s
  have hnone : ((sectorsAt (s.cleanIn k secs)).filter fun x => s.homePoison (clusterDie k) (32 * x)) = [] := by
    refine List.filter_eq_nil_iff.2 fun x hx => ?_
    obtain ⟨b, hb, rfl⟩ := (mem_sectorsAt ..).1 hx
    rw [hmarks _ ((mem_cleanIn ..).1 hb).1]
    exact Bool.false_ne_true
  rw [hnone, State.updCluster_eq]
  refine alike_setCluster rfl (fun b => ?_) fun x hx => mem_of_mem_delAll hx
  rw [read_writes]
  split
  next hb => exact (hbelow b hb).symm
  next => rfl

-- A line filled (spec/12 R247, R254) ------------------------------------------------------------------------------------------------------

/-- A byte that a line holds is one of its bytes. -/
theorem mem_bytes_of_holds {key : LineKey} {b : Nat} (h : key.holds b = true) : b ∈ key.bytes := by
  rw [LineKey.bytes, List.mem_map]
  cases key with
  | row n =>
    refine ⟨b % 64, List.mem_range.2 (Nat.mod_lt _ (by decide)), ?_⟩
    have hn : b / 64 = n := by
      by_contra hne
      simp [LineKey.holds, LineKey.index, hne] at h
    simp only [LineKey.byteAt]
    omega
  | col panel w c g =>
    have hcond : b / 4096 = panel ∧ c ≤ b % 64 ∧ b % 64 < c + w ∧ g * (64 / w) ≤ b % 4096 / 64 ∧ b % 4096 / 64 < (g + 1) * (64 / w) := by
      by_contra hne
      simp [LineKey.holds, LineKey.index, hne] at h
    obtain ⟨hp, hc, hcw, hg, hg'⟩ := hcond
    have hw : 0 < w := by omega
    obtain ⟨q, hq⟩ := Nat.exists_eq_add_of_le hg
    obtain ⟨x, hx⟩ := Nat.exists_eq_add_of_le hc
    have hqn : q < 64 / w := by
      rw [Nat.add_mul, Nat.one_mul] at hg'
      omega
    have hxw : x < w := by omega
    refine ⟨q * w + x, List.mem_range.2 ?_, ?_⟩
    · calc q * w + x < (q + 1) * w := by
            rw [Nat.add_mul, Nat.one_mul]
            omega
        _ ≤ 64 / w * w := Nat.mul_le_mul_right w hqn
        _ ≤ 64 := Nat.div_mul_le_self 64 w
    · have hdiv : (q * w + x) / w = q := by rw [Nat.mul_comm, Nat.mul_add_div hw, Nat.div_eq_of_lt hxw, Nat.add_zero]
      have hmod : (q * w + x) % w = x := by rw [Nat.mul_comm, Nat.mul_add_mod, Nat.mod_eq_of_lt hxw]
      simp only [LineKey.byteAt, hdiv, hmod, ← hq]
      omega
section
variable {c d : Cluster} (hb : d.resb = c.resb) (hc : d.resc = c.resc)
include hb hc
theorem waysFrom_congr (n target taken : Nat) : d.waysFrom n target taken = c.waysFrom n target taken := by
  induction n generalizing taken with
  | zero => rfl
  | succ n ih => simp only [Cluster.waysFrom, hb, hc, ih]
theorem effectiveWays_congr : d.effectiveWays = c.effectiveWays := funext fun _ => waysFrom_congr hb hc ..
/-- Only the lines and the ranges of a cluster have a say in where a line goes. -/
theorem placeFor_congr (hl : d.lines = c.lines) (key : LineKey) (cls : Option Nat) : d.placeFor key cls = c.placeFor key cls := by
  simp only [Cluster.placeFor, Cluster.waysOf, Cluster.wayStart, effectiveWays_congr hb hc, hl]
end
theorem fillClass_acc (s : State) (k : Nat) (key : LineKey) (pa : Nat) :
    (s.fillClass k key pa).2 = { s.cluster k with acc := (s.fillClass k key pa).2.acc } := by
  unfold State.fillClass Cluster.classify
  split
  · rfl
  · split
    · rfl
    · dsimp only
      split <;> rfl
theorem Alike.hasWay {s t : State} (h : Alike s t) {key : LineKey} (hw : HasWay s key) : HasWay t key := by
  have hplace : ∀ cls, (t.cluster (clusterOf t.cur)).placeFor key cls = (s.cluster (clusterOf s.cur)).placeFor key cls := fun cls => by
    rw [h.cur]
    exact placeFor_congr (congrArg Cluster.resb (h.clusters _) :) (congrArg Cluster.resc (h.clusters _) :) (h.lines _) key cls
  refine hw.imp (fun hin => ?_) fun hall cls => (congrArg Prod.snd (hplace cls)).trans (hall cls)
  rw [h.cur, h.lines]
  exact hin
/-- A sector is served as each of its bytes, where anything serves that byte. -/
theorem servedBy_sector {a : Nat} (h : servedBy a ≠ .nothing) : servedBy (32 * (a / 32)) = servedBy a := by
  obtain ⟨b, hb⟩ : ∃ b, b = 32 * (a / 32) := ⟨_, rfl⟩
  have hle : b ≤ a := by omega
  have hlt : a < b + 32 := by omega
  have hdvd : b % 32 = 0 := by omega
  rw [← hb]
  unfold servedBy at h ⊢
  simp only [scratchBase] at h ⊢
  by_cases h1 : a < 0x8000000000
  · have hmod : b % 0x1000000000 < 64000000000 ↔ a % 0x1000000000 < 64000000000 := by omega
    have hdiv : b / 0x1000000000 = a / 0x1000000000 := by omega
    have h1b : b < 0x8000000000 := by omega
    simp only [h1, h1b, if_true, hmod, hdiv]
  have h1b : ¬ b < 0x8000000000 := by omega
  simp only [h1, h1b, if_false] at h ⊢
  by_cases h2 : 0x1000000000000 ≤ a ∧ a < 0x2000000000000
  · have h2b : 0x1000000000000 ≤ b ∧ b < 0x2000000000000 := by omega
    have hdiv : (b - 0x1000000000000) / 0x20000000000 = (a - 0x1000000000000) / 0x20000000000 := by omega
    have hmod : (b - 0x1000000000000) % 0x20000000000 ≤ (a - 0x1000000000000) % 0x20000000000 := by omega
    simp only [if_pos h2, if_pos h2b, hdiv] at h ⊢
    by_cases h3 : (a - 0x1000000000000) / 0x20000000000 < 8 ∧
        (a - 0x1000000000000) % 0x20000000000 < min (Config.cxlBytes ((a - 0x1000000000000) / 0x20000000000)) 2048000000000
    · rw [if_pos h3, if_pos ⟨h3.1, hmod.trans_lt h3.2⟩]
    · rw [if_neg h3] at h
      exact absurd rfl h
  have h2b : ¬ (0x1000000000000 ≤ b ∧ b < 0x2000000000000) := by omega
  simp only [if_neg h2, if_neg h2b] at h ⊢
  have h4 : (0x4000000000000 ≤ b ∧ b < 0x4000000000000 + 2 ^ 49) ↔ (0x4000000000000 ≤ a ∧ a < 0x4000000000000 + 2 ^ 49) := by omega
  have h5 : (0x6000000000000 ≤ b ∧ b < 0x6000000000000 + 2 ^ 49) ↔ (0x6000000000000 ≤ a ∧ a < 0x6000000000000 + 2 ^ 49) := by omega
  have h6 : (0xFE00000000000 ≤ b ∧ b < 0xFF00000000000) ↔ (0xFE00000000000 ≤ a ∧ a < 0xFF00000000000) := by omega
  have h7 : 0xFF00000000000 ≤ b ↔ 0xFF00000000000 ≤ a := by omega
  have h8 : (b - 0xFF00000000000) / 0x800000 = (a - 0xFF00000000000) / 0x800000 := by omega
  simp only [h4, h5, h6, h7, h8]
  rfl
theorem homePoison_sector {s : State} {die a : Nat} (h : s.homePoison die a = false) : s.homePoison die (32 * (a / 32)) = false := by
  have hs : servedBy a ≠ .nothing := fun hn => by simp [State.homePoison, State.dead, hn] at h
  have hchan : channelOf (32 * (a / 32)) = channelOf a := by
    unfold channelOf
    omega
  have hsec : sectorOf (32 * (a / 32)) = sectorOf a := by
    unfold sectorOf
    omega
  rwa [State.homePoison, State.dead, State.cut, homeDie, servedBy_sector hs, hchan, hsec]
/-- What a read below brings in of some bytes leaves every byte as its cluster read it, and no mark where there was none: copies that are
current, in sectors without poison. -/
theorem alike_freshen {s : State} {pas : List Nat} (hcur : Current s pas) (hmark : ∀ b ∈ pas, Unmarked s b) {missing : List Nat}
    (hm : ∀ b ∈ missing, b ∈ pas ∧ s.resident (clusterOf s.cur) b = false) : Alike s (s.freshen (clusterOf s.cur) missing) := by
  have hdie : clusterDie (clusterOf s.cur) = dieOf s.cur := by
    unfold clusterDie clusterOf dieOf
    omega
  refine alike_reread (fun b hb => ?_) fun x hx => ?_
  · obtain ⟨hx, hres, hclean⟩ := (mem_cleanIn ..).1 hb
    obtain ⟨a, ha, hab⟩ := (mem_sectorsAt ..).1 hx
    obtain ⟨hmiss, hremote⟩ := List.mem_filter.1 ha
    have hb' : a / 32 * 32 + b % 32 = b := by
      unfold sectorOf at hab
      omega
    have hread := hcur a (hm a hmiss).1 (hm a hmiss).2 (bne_iff_ne.1 hremote) (b % 32) (Nat.mod_lt _ (by decide))
    rw [hb'] at hread
    exact hread hres hclean
  · obtain ⟨a, ha, rfl⟩ := (mem_sectorsAt ..).1 hx
    rw [hdie]
    exact homePoison_sector (hmark a (hm a (List.mem_filter.1 ha).1).1).1

/-- t is s, but that cluster k also has a line of the bytes that key names: those no copy held come from below. -/
structure Filled (s t : State) (k : Nat) (key : LineKey) : Prop where
  state : t.withoutCaches = s.withoutCaches
  failures : ∀ n, ((t.stack n).fencedCh, (t.stack n).segErr) = ((s.stack n).fencedCh, (s.stack n).segErr)
  cores : ∀ c, t.core c = { s.core c with tlb := (t.core c).tlb }
  others : ∀ j, j ≠ k → ∀ q : LineKey → Bool, (t.cluster j).lines.any (fun l => q l.key) = (s.cluster j).lines.any fun l => q l.key
  lines : ∀ q : LineKey → Bool, (t.cluster k).lines.any (fun l => q l.key) = ((s.cluster k).lines.any (fun l => q l.key) || q key)
  atomLines : ∀ j, (t.cluster j).atomLines = (s.cluster j).atomLines
  kept : ∀ j b, (j = k → s.resident k b = true) → Memory.read (t.cluster j).bytes b = Memory.read (s.cluster j).bytes b
  filled : ∀ b, key.holds b = true → s.resident k b = false → Memory.read (t.cluster k).bytes b = s.belowByte k b
  marks : ∀ j, ∀ x ∈ (t.cluster j).poison, x ∈ (s.cluster j).poison
theorem filled_setCluster {s u : State} {k : Nat} {key : LineKey} {c : Cluster} (h : Alike s u)
    (hlines : ∀ q : LineKey → Bool, c.lines.any (fun l => q l.key) = ((s.cluster k).lines.any (fun l => q l.key) || q key))
    (hatom : c.atomLines = (s.cluster k).atomLines)
    (hkept : ∀ b, s.resident k b = true → Memory.read c.bytes b = Memory.read (s.cluster k).bytes b)
    (hfilled : ∀ b, key.holds b = true → s.resident k b = false → Memory.read c.bytes b = s.belowByte k b)
    (hmarks : ∀ x ∈ c.poison, x ∈ (s.cluster k).poison) : Filled s (u.setCluster k c) k key where
  state := h.state
  failures := h.failures
  cores := h.cores
  others j hj q := by rw [State.setCluster_cluster, if_neg hj, h.lines]
  lines q := by rw [State.setCluster_cluster, if_pos rfl, hlines]
  atomLines j := by
    rw [State.setCluster_cluster]
    split
    next hj => rw [hj, hatom]
    next => exact h.atomLines j
  kept j b hb := by
    rw [State.setCluster_cluster]
    split
    next hj => rw [hj, hkept b (hb hj)]
    next => exact h.bytes j b
  filled b hb hres := by rw [State.setCluster_cluster, if_pos rfl, hfilled b hb hres]
  marks j x hx := by
    rw [State.setCluster_cluster] at hx
    split at hx
    next hj => exact hj ▸ hmarks x hx
    next => exact h.marks j x hx
/-- A line that the cluster has is only used. -/
theorem filled_used {s : State} {k : Nat} {key : LineKey} (hin : (s.cluster k).lines.any (fun l => l.key == key) = true) :
    Filled s (s.updCluster k fun c => { c with lines := c.lines.map fun l => if l.key = key then { l with usedAt := s.now } else l }) k key := by
  obtain ⟨l, hl, hkey⟩ := List.any_eq_true.1 hin
  have has : ∀ q : LineKey → Bool, q key = true → (s.cluster k).lines.any (fun l => q l.key) = true := fun q hq =>
    List.any_eq_true.2 ⟨l, hl, by rw [beq_iff_eq.1 hkey, hq]⟩
  refine filled_setCluster (alike_refl s) (fun q => ?_) rfl (fun _ _ => rfl) (fun b hb hres => ?_) fun _ => id
  · have hused : ((s.cluster k).lines.map fun l => if l.key = key then { l with usedAt := s.now } else l).any (fun l => q l.key) =
        (s.cluster k).lines.any fun l => q l.key := by
      rw [List.any_map]
      congr 1
      funext l
      simp only [Function.comp]
      split <;> rfl
    rw [hused]
    by_cases hq : q key = true
    · rw [has q hq, Bool.true_or]
    · rw [Bool.eq_false_iff.2 hq, Bool.or_false]
  · rw [State.resident, has (fun y => y.holds b) hb] at hres
    simp at hres
theorem setCluster_setCluster (s : State) (k : Nat) (c d : Cluster) : (s.setCluster k c).setCluster k d = s.setCluster k d := by
  simp only [State.setCluster, Tab.put_put]
section
variable {s t : State} (h : Alike s t)
include h
theorem Alike.current {pas : List Nat} (hc : Current s pas) : Current t pas := by
  intro a ha hres hhome j hj hr hd
  rw [h.cur] at *
  rw [h.resident] at hres hr
  rw [h.dirtyByte] at hd
  rw [h.bytes, h.belowByte]
  exact hc a ha hres hhome j hj hr hd
theorem Alike.unmarked {b : Nat} (hb : Unmarked s b) : Unmarked t b := by
  obtain ⟨hhome, hmark⟩ := hb
  refine ⟨by rw [h.cur, h.homePoison, hhome], ?_⟩
  rw [h.cur, ← Bool.not_eq_true, List.contains_iff_mem] at *
  exact mt (h.marks _ _) hmark
end
theorem filter_homePoison {s : State} {die : Nat} {bs : List Nat} (hb : ∀ b ∈ bs, s.homePoison die b = false) (l : List Nat) :
    bs.foldl (fun l b => if s.homePoison die b then NSet.add l (sectorOf b) else l) l = l := by
  induction bs with
  | nil => rfl
  | cons b bs ih =>
    rw [List.foldl_cons, hb b List.mem_cons_self, if_neg Bool.false_ne_true]
    exact ih fun c hc => hb c (List.mem_cons_of_mem _ hc)
theorem clusterDie_clusterOf (h : Nat) : clusterDie (clusterOf h) = dieOf h := by
  unfold clusterDie clusterOf dieOf
  omega
theorem mscReads_cluster (s : State) (pas : List Nat) (b : Bool) (k : Nat) : (s.mscReads pas b).cluster k = s.cluster k :=
  congrArg (Tab.get ({} : Cluster) · k) (congrArg (fun x => x.1.clusters) (offTrackers_mscReads s pas b) :)
/-- The bytes of a line that no copy holds come from below. -/
theorem fillBytes_eq {s : State} {pas : List Nat} {key : LineKey} (hcur : Current s pas) (hmark : ∀ b ∈ pas, Unmarked s b)
    (hbytes : ∀ b ∈ key.bytes, b ∈ pas) : ∃ u c, s.fillBytes (clusterOf s.cur) key = u.setCluster (clusterOf s.cur) c ∧ Alike s u ∧
      c = { u.cluster (clusterOf s.cur) with bytes := c.bytes, poison := c.poison } ∧
      (∀ b, Memory.read c.bytes b = if b ∈ key.bytes ∧ s.resident (clusterOf s.cur) b = false then s.belowByte (clusterOf s.cur) b
        else Memory.read (s.cluster (clusterOf s.cur)).bytes b) ∧ ∀ x ∈ c.poison, x ∈ (s.cluster (clusterOf s.cur)).poison := by
  have hmissing : ∀ b, b ∈ key.bytes.filter (fun b => !s.resident (clusterOf s.cur) b) ↔ b ∈ key.bytes ∧ s.resident (clusterOf s.cur) b = false := by
    simp
  have h2 := alike_freshen hcur hmark (missing := key.bytes.filter fun b => !s.resident (clusterOf s.cur) b) fun b hb =>
    ⟨hbytes b ((hmissing b).1 hb).1, ((hmissing b).1 hb).2⟩
  have h3 := h2.trans (alike_of_offTrackers (offTrackers_mscReads _ (key.bytes.filter fun b => !s.resident (clusterOf s.cur) b) false))
  refine ⟨_, _, rfl, h3, ?_, fun b => ?_, fun x hx => ?_⟩
  · rw [mscReads_cluster]
  · dsimp only
    rw [read_writes, h2.belowByte, h2.bytes]
    simp only [hmissing]
  · dsimp only at hx
    rw [filter_homePoison fun b hb => ?_] at hx
    · exact h2.marks _ x hx
    · rw [h2.homePoison, clusterDie_clusterOf]
      exact (hmark b (hbytes b ((hmissing b).1 hb).1)).1
/-- A line that an empty way takes. -/
theorem filled_missing {s : State} {pas : List Nat} {key : LineKey} (o : Bool) (pa : Nat) (hcur : Current s pas) (hmark : ∀ b ∈ pas, Unmarked s b)
    (hbytes : ∀ b ∈ key.bytes, b ∈ pas) (hin : (s.cluster (clusterOf s.cur)).lines.any (fun l => l.key == key) = false)
    (hway : ∀ cls, ((s.cluster (clusterOf s.cur)).placeFor key cls).2 = none) :
    Filled s (s.lineFill (clusterOf s.cur) key o pa) (clusterOf s.cur) key := by
  have hclass := fillClass_acc s (clusterOf s.cur) key pa
  rw [State.lineFill, if_neg (by rw [hin]; exact Bool.false_ne_true)]
  generalize s.fillClass (clusterOf s.cur) key pa = x at hclass
  obtain ⟨cls, c⟩ := x
  dsimp only at hclass ⊢
  have hplace := (congrArg Prod.snd (placeFor_congr (d := c) (congrArg Cluster.resb hclass :) (congrArg Cluster.resc hclass :)
    (congrArg Cluster.lines hclass :) key cls)).trans (hway cls)
  generalize c.placeFor key cls = place at hplace
  obtain ⟨way, out⟩ := place
  dsimp only at hplace
  subst hplace
  dsimp only
  have h1 : Alike s (s.setCluster (clusterOf s.cur) c) := alike_setCluster (by rw [hclass]) (fun b => by rw [hclass]) fun x hx => by rwa [hclass] at hx
  obtain ⟨u, d, hfill, hu, hd, hread, hmarks⟩ := fillBytes_eq (h1.current hcur) (fun b hb => h1.unmarked (hmark b hb)) hbytes
  have hk : (s.setCluster (clusterOf s.cur) c).cur = s.cur := rfl
  rw [hk] at hfill hread hmarks hd
  have hsu := h1.trans hu
  rw [hfill, State.updCluster_eq, setCluster_setCluster, State.setCluster_cluster, if_pos rfl]
  refine filled_setCluster hsu (fun q => ?_) ?_ (fun b hb => ?_) (fun b hb hres => ?_) fun x hx => h1.marks _ x (hmarks x hx)
  · rw [List.any_cons, Bool.or_comm, ← hsu.lines, show d.lines = (u.cluster (clusterOf s.cur)).lines from (congrArg Cluster.lines hd :)]
  · exact (congrArg Cluster.atomLines hd :).trans (hsu.atomLines _)
  · dsimp only
    rw [hread, h1.resident, hb, if_neg (fun h => Bool.noConfusion h.2), h1.bytes]
  · dsimp only
    rw [hread, h1.resident, h1.belowByte, if_pos ⟨mem_bytes_of_holds hb, hres⟩]

-- What a read leaves of what clusters read (spec/12 R247) ------------------------------------------------------------------------------------

/-- t is s but for caches, trackers and counters, and every byte reads as before in every cluster; no mark of poison is new. -/
structure SameViews (s t : State) : Prop where
  state : t.withoutCaches = s.withoutCaches
  failures : ∀ n, ((t.stack n).fencedCh, (t.stack n).segErr) = ((s.stack n).fencedCh, (s.stack n).segErr)
  cores : ∀ c, t.core c = { s.core c with dcache := (t.core c).dcache, tlb := (t.core c).tlb }
  views : ∀ j b, t.clusterByte j b = s.clusterByte j b
  marks : ∀ j, ∀ x ∈ (t.cluster j).poison, x ∈ (s.cluster j).poison
theorem SameViews.trans {s t u : State} (h : SameViews s t) (g : SameViews t u) : SameViews s u where
  state := g.state.trans h.state
  failures n := (g.failures n).trans (h.failures n)
  cores c := by rw [g.cores, h.cores]
  views j b := (g.views j b).trans (h.views j b)
  marks j x hx := h.marks j x (g.marks j x hx)
theorem Alike.sameViews {s t : State} (h : Alike s t) : SameViews s t where
  state := h.state
  failures := h.failures
  cores c := by rw [h.cores]
  views := h.clusterByte
  marks := h.marks
/-- Bytes without poison stay so. -/
theorem SameViews.unmarked {s t : State} (h : SameViews s t) {b : Nat} (hb : Unmarked s b) : t.clusterPoison (clusterOf s.cur) b = false := by
  obtain ⟨hhome, hmark⟩ := hb
  unfold State.clusterPoison
  split
  · rw [← Bool.not_eq_true, List.contains_iff_mem] at *
    exact mt (h.marks _ _) hmark
  · rw [clusterDie_clusterOf, homePoison_congr h.state h.failures, hhome]

section
variable {s t : State} {k : Nat} {key : LineKey} (h : Filled s t k key)
include h
theorem Filled.dcacheKeys (j : Nat) : t.dcacheKeys j = s.dcacheKeys j := by
  simp only [State.dcacheKeys, fun c => congrArg Core.dcache (h.cores c)]
theorem Filled.resident (j b : Nat) : t.resident j b = (s.resident j b || (j == k && key.holds b)) := by
  rw [State.resident, State.resident, h.atomLines, h.dcacheKeys]
  by_cases hj : j = k
  · subst hj
    rw [h.lines fun y => y.holds b, beq_self_eq_true, Bool.true_and]
    generalize (s.cluster j).lines.any _ = x, key.holds b = y
    cases x <;> cases y <;> simp
  · rw [h.others j hj fun y => y.holds b, beq_false_of_ne hj, Bool.false_and, Bool.or_false]
theorem Filled.clusterByte (j b : Nat) : t.clusterByte j b = s.clusterByte j b := by
  rw [State.clusterByte, State.clusterByte, h.resident, belowByte_congr h.state]
  by_cases hres : s.resident j b = true
  · rw [hres, Bool.true_or, if_pos rfl, if_pos rfl, h.kept j b fun hj => hj ▸ hres]
  · rw [Bool.eq_false_iff.2 hres, Bool.false_or, if_neg Bool.false_ne_true]
    split
    next hin =>
      obtain ⟨hj, hb⟩ := Bool.and_eq_true_iff.1 hin
      rw [beq_iff_eq] at hj
      subst hj
      exact h.filled b hb (Bool.eq_false_iff.2 hres)
    next => rfl
theorem Filled.sameViews : SameViews s t where
  state := h.state
  failures := h.failures
  cores c := by rw [h.cores]
  views := h.clusterByte
  marks := h.marks
end

-- A line enters a data cache (spec/00 R1) --------------------------------------------------------------------------------------------------

/-- A cluster's data caches hold no byte that its lines do not. -/
theorem resident_of_inclusive {s : State} {k : Nat} (h : ∀ key ∈ s.dcacheKeys k, (s.cluster k).lines.any (fun l => l.key == key) = true) (b : Nat) :
    s.resident k b = ((s.cluster k).lines.any (fun l => l.key.holds b) || (s.cluster k).atomLines.any fun l => l.key.holds b) := by
  unfold State.resident
  by_cases hd : (s.dcacheKeys k).any (fun l => l.holds b) = true
  · obtain ⟨key, hkey, hb⟩ := List.any_eq_true.1 hd
    obtain ⟨l, hl, heq⟩ := List.any_eq_true.1 (h key hkey)
    have hin : (s.cluster k).lines.any (fun l => l.key.holds b) = true := List.any_eq_true.2 ⟨l, hl, by rw [beq_iff_eq.1 heq, hb]⟩
    simp [hin]
  · simp [Bool.eq_false_iff.2 hd]
theorem dcacheKeys_updCore {s : State} {core k : Nat} {f : Core → Core} {key : LineKey} (h : key ∈ (s.updCore core f).dcacheKeys k) :
    (core / 8 = k ∧ key ∈ (f (s.core core)).dcache) ∨ key ∈ s.dcacheKeys k := by
  simp only [State.dcacheKeys, List.mem_flatMap, State.updCore_eq, State.setCore_core] at h ⊢
  obtain ⟨c, hc, hkey⟩ := h
  split at hkey
  next heq =>
    obtain ⟨j, hj, rfl⟩ := List.mem_map.1 hc
    have := List.mem_range.1 hj
    exact .inl ⟨by omega, hkey⟩
  next => exact .inr ⟨c, hc, hkey⟩
theorem dcacheKeys_updCore_other {s : State} {core k : Nat} (f : Core → Core) (h : core / 8 ≠ k) : (s.updCore core f).dcacheKeys k = s.dcacheKeys k := by
  unfold State.dcacheKeys
  refine List.flatMap_congr fun c hc => ?_
  obtain ⟨j, hj, rfl⟩ := List.mem_map.1 hc
  have := List.mem_range.1 hj
  rw [State.updCore_eq, State.setCore_core, if_neg (by omega)]
theorem forget_lines (s : State) (k : Nat) (pas : List Nat) (j : Nat) : ((s.forget k pas).cluster j).lines = (s.cluster j).lines := by
  rw [State.forget, State.updCluster_eq, State.setCluster_cluster]
  split
  next h => rw [h]
  next => rfl
theorem forget_atomLines (s : State) (k : Nat) (pas : List Nat) (j : Nat) :
    ((s.forget k pas).cluster j).atomLines = (s.cluster j).atomLines := by
  rw [State.forget, State.updCluster_eq, State.setCluster_cluster]
  split
  next h => rw [h]
  next => rfl
theorem forget_resident (s : State) (k : Nat) (pas : List Nat) (j b : Nat) : (s.forget k pas).resident j b = s.resident j b := by
  rw [State.resident, forget_lines, forget_atomLines]
  rfl
/-- Only bytes that no copy holds are forgotten, so every byte reads as before. -/
theorem sameViews_forget (s : State) (k : Nat) (pas : List Nat) : SameViews s (s.forget k pas) where
  state := rfl
  failures _ := rfl
  cores _ := rfl
  views j b := by
    rw [State.clusterByte, State.clusterByte, forget_resident, belowByte_congr (s := s) rfl]
    split
    next hres =>
      rw [State.forget, State.updCluster_eq, State.setCluster_cluster]
      split
      next hj =>
        subst hj
        rw [read_writes, if_neg]
        simp [hres]
      next => rfl
    next => rfl
  marks j x hx := by
    rw [State.forget, State.updCluster_eq, State.setCluster_cluster] at hx
    split at hx
    next hj => exact hj ▸ List.mem_of_mem_filter hx
    next => exact hx
/-- A line that its cluster holds enters the data cache of a core; every byte reads as before. -/
theorem sameViews_dcacheFill {s : State} {core : Nat} {key : LineKey}
    (hincl : ∀ x ∈ s.dcacheKeys (core / 8), (s.cluster (core / 8)).lines.any (fun l => l.key == x) = true)
    (hin : (s.cluster (core / 8)).lines.any (fun l => l.key == key) = true) : SameViews s (s.dcacheFill core key) := by
  have entered : ∀ f : Core → Core, (∀ c, f c = { c with dcache := (f c).dcache }) →
      (∀ x ∈ (f (s.core core)).dcache, x = key ∨ x ∈ (s.core core).dcache) → SameViews s (s.updCore core f) := fun f hf hkeys => by
    have hincl' : ∀ x ∈ (s.updCore core f).dcacheKeys (core / 8), (s.cluster (core / 8)).lines.any (fun l => l.key == x) = true := fun x hx => by
      obtain ⟨-, hx⟩ | hx := dcacheKeys_updCore hx
      · obtain rfl | hx := hkeys x hx
        · exact hin
        · exact hincl x (List.mem_flatMap.2 ⟨core, List.mem_map.2 ⟨core % 8, List.mem_range.2 (by omega), by omega⟩, hx⟩)
      · exact hincl x hx
    have hres : ∀ j b, (s.updCore core f).resident j b = s.resident j b := fun j b => by
      by_cases hj : core / 8 = j
      · subst hj
        rw [resident_of_inclusive hincl, resident_of_inclusive hincl']
        rfl
      · rw [State.resident, dcacheKeys_updCore_other f hj]
        rfl
    refine ⟨rfl, fun _ => rfl, fun c => ?_, fun j b => ?_, fun _ _ => id⟩
    · rw [State.updCore_eq, State.setCore_core]
      split
      next h => rw [h, hf]
      next => rfl
    · rw [State.clusterByte, State.clusterByte, hres, belowByte_congr (s := s) rfl]
      rfl
  have hnew := entered (fun c => { c with dcache := (key :: (s.core core).dcache.filter fun x => x != key).take 1024 }) (fun _ => rfl) fun x hx => by
    obtain rfl | hx := List.mem_cons.1 (List.mem_of_mem_take hx)
    · exact .inl rfl
    · exact .inr (List.mem_of_mem_filter hx)
  unfold State.dcacheFill
  dsimp only
  split
  · exact hnew
  · exact hnew.trans (sameViews_forget ..)

-- A load of bytes (spec/12 R245, R247, R255) ---------------------------------------------------------------------------------------------

theorem coreOf_clusterOf (h : Nat) : coreOf h / 8 = clusterOf h := by
  unfold coreOf clusterOf
  omega
/-- A line that needs no way of another line enters the cluster. -/
theorem filled_lineFill {s : State} {pas : List Nat} {key : LineKey} (o : Bool) (pa : Nat) (hway : HasWay s key) (hcur : Current s pas)
    (hmark : ∀ b ∈ pas, Unmarked s b) (hbytes : ∀ b ∈ key.bytes, b ∈ pas) : Filled s (s.lineFill (clusterOf s.cur) key o pa) (clusterOf s.cur) key := by
  by_cases hin : (s.cluster (clusterOf s.cur)).lines.any (fun l => l.key == key) = true
  · rw [State.lineFill, if_pos hin]
    exact filled_used hin
  · exact filled_missing o pa hcur hmark hbytes (Bool.eq_false_iff.2 hin) (hway.resolve_left hin)
theorem sameViews_mscReads (s : State) (pas : List Nat) (b : Bool) : SameViews s (s.mscReads pas b) :=
  (alike_of_offTrackers (offTrackers_mscReads s pas b)).sameViews
/-- What a load brings in leaves every byte as each cluster read it. -/
theorem sameViews_loadFill {s : State} {pa n : Nat} {key : LineKey} (o : Bool) (h : Hint) (scalar : Bool) (hway : HasWay s key) (hincl : Inclusive s)
    (hcur : Current s (key.bytes ++ (List.range n).map (pa + ·))) (hmark : ∀ b ∈ key.bytes ++ (List.range n).map (pa + ·), Unmarked s b) :
    SameViews s (s.loadFill (coreOf s.cur) pa n key o h scalar) := by
  have hfill := filled_lineFill o pa hway hcur hmark fun b hb => List.mem_append_left _ hb
  have hhinted : ∀ bypass, SameViews s ((s.freshen (clusterOf s.cur) (((upTo n).map (pa + ·)).filter fun a => !s.resident (clusterOf s.cur) a)).mscReads
      (((upTo n).map (pa + ·)).filter fun a => !s.resident (clusterOf s.cur) a) bypass) := fun bypass => by
    refine (Alike.sameViews (alike_freshen hcur hmark fun b hb => ?_)).trans (sameViews_mscReads _ _ _)
    obtain ⟨hb, hres⟩ := List.mem_filter.1 hb
    exact ⟨List.mem_append_right _ hb, by simpa using hres⟩
  unfold State.loadFill
  dsimp only
  rw [coreOf_clusterOf]
  split
  · exact (alike_refl s).sameViews
  cases h with
  | none =>
    dsimp only
    split
    · refine hfill.sameViews.trans (sameViews_dcacheFill (fun x hx => ?_) ?_)
      · rw [coreOf_clusterOf] at *
        rw [hfill.dcacheKeys] at hx
        rw [hfill.lines fun y => y == x, hincl x hx, Bool.true_or]
      · rw [coreOf_clusterOf, hfill.lines fun y => y == key, beq_self_eq_true, Bool.or_true]
    · exact hfill.sameViews
  | na | byp => exact hhinted _
theorem sameViews_touch (s : State) (k core : Nat) (pas : List Nat) : SameViews s (s.touch k core pas) := by
  rw [State.touch, State.updCluster_eq]
  exact Alike.sameViews (alike_setCluster rfl (fun _ => rfl) fun _ => id)
/-- The bytes that a core reads stay as they are where the views do. -/
theorem SameViews.bytesAt {s t : State} (h : SameViews s t) {pa n : Nat} {bs : List Byte} (hb : s.bytesAt (coreOf s.cur) pa n = (bs, false))
    (hmark : ∀ b ∈ (List.range n).map (pa + ·), Unmarked s b) : t.bytesAt (coreOf s.cur) pa n = (bs, false) := by
  have hmem : t.mem = s.mem := (congrArg State.mem h.state :)
  have hread : t.clusterByte (clusterOf s.cur) = s.clusterByte (clusterOf s.cur) := funext (h.views _)
  have hhome : t.homePoison (clusterDie (clusterOf s.cur)) = s.homePoison (clusterDie (clusterOf s.cur)) :=
    funext (homePoison_congr h.state h.failures _)
  unfold State.bytesAt at hb ⊢
  dsimp only at hb ⊢
  rw [coreOf_clusterOf] at hb ⊢
  by_cases hc : cacheable pa = true
  · rw [if_pos hc] at hb ⊢
    rw [hread, ← hb]
    refine Prod.ext rfl ((List.any_eq_false.2 fun b hin => ?_).trans (congrArg Prod.snd hb).symm)
    rw [h.unmarked (hmark b hin)]
    exact Bool.false_ne_true
  · rw [if_neg hc] at hb ⊢
    rw [hmem, hhome, hb]
/-- What a load finds at the translation p, but for its checks and what may hold it back. -/
structure Finds (s : State) (n : Nat) (o : Orient) (p : Trans) (v : Nat) : Prop where
  served : servedBy p.pa ≠ .mgmt
  mode : leafC p.leaf = 0
  bytes : s.bytesAt (coreOf s.cur) p.pa n = (bytesLE n v, false)
  bound : v < 2 ^ (8 * n)
  way : HasWay s (lineFor o n p.pa)
  inclusive : Inclusive s
  current : Current s ((lineFor o n p.pa).bytes ++ (List.range n).map (p.pa + ·))
  unmarked : ∀ b ∈ (lineFor o n p.pa).bytes ++ (List.range n).map (p.pa + ·), Unmarked s b
theorem Alike.finds {s t : State} (h : Alike s t) {n : Nat} {o : Orient} {p : Trans} {v : Nat} (hf : Finds s n o p v) : Finds t n o p v where
  served := hf.served
  mode := hf.mode
  bytes := by
    rw [h.cur]
    exact h.sameViews.bytesAt hf.bytes fun b hb => hf.unmarked b (List.mem_append_right _ hb)
  bound := hf.bound
  way := h.hasWay hf.way
  inclusive key hkey := by
    rw [h.cur, h.dcacheKeys] at hkey
    rw [h.cur, h.lines]
    exact hf.inclusive key hkey
  current := h.current hf.current
  unmarked b hb := h.unmarked (hf.unmarked b hb)
/-- A load gives the number it finds. -/
theorem readAt_finds {s : State} {n : Nat} {o : Orient} {p : Trans} {v : Nat} (hf : Finds s n o p v) (h : Hint) (scalar : Bool) :
    ∃ t, s.readAt s.cur p n o h scalar = (v, false, t) ∧ SameViews s t := by
  have hviews := sameViews_loadFill (leafO p.leaf) h scalar hf.way hf.inclusive hf.current hf.unmarked
  have hbytes := hviews.bytesAt hf.bytes fun b hb => hf.unmarked b (List.mem_append_right _ hb)
  refine ⟨_, ?_, hviews.trans (sameViews_touch _ (coreOf s.cur / 8) (coreOf s.cur) ((upTo n).map (p.pa + ·)))⟩
  rw [State.readAt, if_neg hf.served, State.beforeLoad, if_pos hf.mode]
  dsimp only
  rw [hbytes, leOf_bytesLE, Nat.mod_eq_of_lt hf.bound]

-- What a load leaves of the hart (spec/07 R157, spec/11 R239) ------------------------------------------------------------------------------

/-- u is s but for caches, trackers, counters and the energy count of the executing hart; every byte reads as before in every cluster. -/
structure Charged (s u : State) : Prop where
  cur : u.cur = s.cur
  me : u.me = { s.me with ectr := u.me.ectr }
  harts : ∀ h, h ≠ s.cur → u.hart h = s.hart h
  homes : u.mem = s.mem
  views : ∀ k b, u.clusterByte k b = s.clusterByte k b
  lcfg : ∀ c, (u.core c).lcfg = (s.core c).lcfg
theorem Charged.trans {s t u : State} (h : Charged s t) (g : Charged t u) : Charged s u where
  cur := g.cur.trans h.cur
  me := by rw [g.me, h.me]
  harts j hj := (g.harts j (h.cur ▸ hj)).trans (h.harts j hj)
  homes := g.homes.trans h.homes
  views k b := (g.views k b).trans (h.views k b)
  lcfg c := (g.lcfg c).trans (h.lcfg c)
theorem SameViews.charged {s t : State} (h : SameViews s t) : Charged s t := by
  have hcur : t.cur = s.cur := (congrArg State.cur h.state :)
  have hharts : ∀ k, t.hart k = s.hart k := fun k => congrArg (Tab.get ({} : Hart) · k) (congrArg State.harts h.state :)
  refine ⟨hcur, ?_, fun k _ => hharts k, (congrArg State.mem h.state :), h.views, fun c => (congrArg Core.lcfg (h.cores c) :)⟩
  rw [State.me, State.me, hcur, hharts]
theorem charged_chargeMe (s : State) (cls n : Nat) : Charged s (s.chargeMe cls n) where
  cur := rfl
  me := by rw [chargeMe_me]
  harts _ hne := updMe_other s _ hne
  homes := rfl
  views _ _ := rfl
  lcfg _ := rfl
theorem charged_bumpMe (s : State) (slot n : Nat) : Charged s (s.bumpMe slot n) :=
  (alike_of_offTrackers (offTrackers_bumpHart s s.cur slot n)).sameViews.charged
/-- Where no latency unit is enabled, no operation is captured. -/
theorem Charged.capture {s u : State} (h : Charged s u) (hn : NoCapture s) {k : Nat} (hk : k = s.cur) (kind n : Nat) : u.capture k kind n = u := by
  have hoff : ∀ j, u.captureIn k kind n j = u := fun j => by
    have hj : (Tab.get 0 (u.core (coreOf k)).lcfg j).getLsbD 63 = false := by
      rw [hk, h.lcfg]
      exact hn j
    simp only [State.captureIn, selects, hj, Bool.false_and, Bool.false_eq_true, if_false]
  simp only [State.capture, List.foldl_cons, List.foldl_nil, hoff]
/-- A result retired after a load. -/
theorem Charged.loads {s u : State} (h : Charged s u) (d : Reg) (v : Word) : Loads s (u.retire d v) d v := by
  have hw := writes_retireFlags u d v 0
  rw [← retire_eq_retireFlags] at hw
  have hread : ∀ r, u.readX r = s.readX r := fun r => by rw [State.readX, h.me]; rfl
  exact
  { value := hw.value
    others := fun r hr => (hw.others r hr).trans (hread r)
    pc := by rw [hw.pc, h.me]
    ready := hw.ready
    hart := by
      rw [retire_eq_updMe, State.updMe_me, Hart.writeX]
      split <;> (rw [h.me]; rfl)
    harts := fun k hk => (hw.harts k (h.cur ▸ hk)).trans (h.harts k hk)
    homes := h.homes
    views := h.views }

-- A scalar load (spec/07 R157) ---------------------------------------------------------------------------------------------------------------

theorem LoadFinds.finds {s : State} {ea : Word} {n : Nat} {o : Orient} {p : Trans} {v : Nat} (h : LoadFinds s ea n o p v) : Finds s n o p v := by
  obtain ⟨-, hserved, hmode, -, -, -, hbytes, hv, hway, hincl, hcur, hmark⟩ := h
  exact ⟨hserved, hmode, hbytes, hv, hway, hincl, hcur, hmark⟩
theorem watch_ok {s : State} {ea : Word} {n : Nat} {ld st : Bool} (h : s.watchHits s.cur ea n ld st = 0) : watch ea n ld st s = .ok ((), s) := by
  simp [watch, h]
theorem awaitEmission_ok {s : State} {pa n : Nat} (h : s.emissionMeets s.cur pa n = false) : awaitEmission pa n s = .ok ((), s) := by
  simp [awaitEmission, h]
section
variable {s t : State} (h : Alike s t)
include h
theorem Alike.watchHits (hart : Nat) (ea : Word) (n : Nat) (ld st : Bool) : t.watchHits hart ea n ld st = s.watchHits hart ea n ld st := by
  unfold State.watchHits selects
  rw [h.hart, h.cores]
theorem Alike.conflicts (hart : Nat) (rd wr : Range) : t.conflicts hart rd wr = s.conflicts hart rd wr := by
  rw [State.conflicts, h.cores]
  rfl
theorem Alike.emissionMeets (hart pa n : Nat) : t.emissionMeets hart pa n = s.emissionMeets hart pa n := by
  have hjournals : t.journals = s.journals := (congrArg State.journals h.state :)
  rw [State.emissionMeets, State.emissionMeets, hjournals]
end
/-- A load that finds its bytes passes its checks and waits: what is left is a state alike, in which it still finds them. -/
theorem LoadFinds.passes {s : State} {ea : Word} {n : Nat} {o : Orient} {p : Trans} {v : Nat} (h : LoadFinds s ea n o p v) :
    ∃ t, s.check s.cur ea n o .load 0 s.me.sup = (.ok p, t) ∧ Alike s t ∧ t.watchHits t.cur ea n true false = 0 ∧
      t.conflicts t.cur (spanOf ea n) .empty = [] ∧ t.emissionMeets t.cur p.pa n = false ∧ Finds t n o p v := by
  have hf := h.finds
  obtain ⟨⟨t, hcheck⟩, -, -, hwatch, hconf, hemit, -⟩ := h
  have ht := alike_of_offWalk (offWalk_check hcheck)
  exact ⟨t, hcheck, ht, by rw [ht.watchHits, ht.cur, hwatch], by rw [ht.conflicts, ht.cur, hconf], by rw [ht.emissionMeets, ht.cur, hemit], ht.finds hf⟩
theorem loadScalar_finds {s : State} {ea : Word} {n : Nat} {o : Orient} {p : Trans} {v : Nat} (h : LoadFinds s ea n o p v) (hn : NoCapture s) (hint : Hint) :
    ∃ u, loadScalar ea n o hint s = .ok (v, u) ∧ Charged s u := by
  obtain ⟨t, hcheck, ht, hwatch, hconf, hemit, hf⟩ := h.passes
  obtain ⟨u, hread, hu⟩ := readAt_finds hf hint true
  have hcharged := (ht.sameViews.charged.trans hu.charged).trans ((charged_chargeMe u 1 1).trans (charged_bumpMe _ 3 1))
  have hrun : scalarCheck ea n o .load 0 s = .ok (p, t) := by rw [scalarCheck, hcheck]
  simp only [loadScalar, Op.bind_run, hrun, watch_ok hwatch, awaitInterlock_ok hconf, awaitEmission_ok hemit, ask_run, hread, upd_run]
  have hmissed := hcharged.trans (charged_bumpMe _ 5 1)
  rw [hcharged.capture hn hcharged.cur, hmissed.capture hn hcharged.cur]
  refine ⟨_, rfl, ?_⟩
  split
  · exact hcharged
  · exact hmissed
/-- A word that is a load of n bytes gives what it finds, extended. -/
theorem loadGives {i : Instr} {s : State} {d a : Reg} {j : BitVec 12} {n : Nat} {o : Orient} {h : Hint} {ext : Nat → Word} {p : Trans} {v : Nat} {w : Word}
    (hexec : exec i s = loadOp n ext d a j h o s) (hn : NoCapture s) (hf : LoadFinds s (s.readX a + j.signExtend 64) n o p v) (hw : ext v = w) :
    LoadGives i s d w := by
  obtain ⟨u, hload, hu⟩ := loadScalar_finds hf hn h
  refine ⟨u.retire d w, ?_, hu.loads d w⟩
  rw [hexec, loadOp, finish]
  simp only [Op.bind_run, ask_run, addImm, hload, upd_run, hw]
theorem sextW_eq (n v : Nat) : sextW n v = (BitVec.ofNat n v).signExtend 64 := ofInt_sextN ..
/-- Settles O5: the translation and the fill change no byte that a cluster reads, and the bytes read after them are those it read before. -/
theorem scalarLoads : Obligations.ScalarLoads := by
  intro d a i h o s p v hn
  exact ⟨fun hf => loadGives rfl hn hf (sextW_eq ..), fun hf => loadGives rfl hn hf rfl, fun hf => loadGives rfl hn hf (sextW_eq ..),
    fun hf => loadGives rfl hn hf rfl, fun hf => loadGives rfl hn hf (sextW_eq ..), fun hf => loadGives rfl hn hf rfl,
    fun hf => loadGives rfl hn hf rfl⟩

-- What any fill leaves of the harts (spec/12 R247) -------------------------------------------------------------------------------------------

@[simp] theorem offHome_mscReads (s : State) (pas : List Nat) (b : Bool) : (s.mscReads pas b).offHome = s.offHome :=
  congrArg (fun x : State => { x with mem := [], poison := [], drains := [] }) (sameViews_mscReads s pas b).state
@[simp] theorem offHome_freshen (s : State) (k : Nat) (pas : List Nat) : (s.freshen k pas).offHome = s.offHome := offHome_reread ..
@[simp] theorem offHome_setCluster (s : State) (k : Nat) (c : Cluster) : (s.setCluster k c).offHome = s.offHome := rfl
@[simp] theorem offHome_updCluster (s : State) (k : Nat) (f : Cluster → Cluster) : (s.updCluster k f).offHome = s.offHome := rfl
@[simp] theorem offHome_fillBytes (s : State) (k : Nat) (key : LineKey) : (s.fillBytes k key).offHome = s.offHome := by
  rw [State.fillBytes, offHome_setCluster, offHome_mscReads, offHome_freshen]
@[simp] theorem offHome_evict (s : State) (k : Nat) (p : LineKey → Bool) : (s.evict k p).offHome = s.offHome := by
  rw [State.evict, offHome_removeLines, offHome_drainLines]
@[simp] theorem offHome_lineFill (s : State) (k : Nat) (key : LineKey) (o : Bool) (pa : Nat) : (s.lineFill k key o pa).offHome = s.offHome := by
  unfold State.lineFill
  dsimp only
  split
  · rfl
  rw [offHome_updCluster, offHome_fillBytes]
  split
  · rfl
  · exact offHome_evict ..
@[simp] theorem offHome_dcacheFill (s : State) (core : Nat) (key : LineKey) : (s.dcacheFill core key).offHome = s.offHome := by
  unfold State.dcacheFill
  dsimp only
  split <;> rfl
@[simp] theorem offHome_loadFill (s : State) (core pa n : Nat) (key : LineKey) (o : Bool) (h : Hint) (scalar : Bool) :
    (s.loadFill core pa n key o h scalar).offHome = s.offHome := by
  unfold State.loadFill
  dsimp only
  split
  · rfl
  cases h with
  | none => cases scalar <;> simp
  | na | byp => simp
/-- The executing hart keeps all but its energy count. -/
structure Kept (s u : State) : Prop where
  cur : u.cur = s.cur
  me : u.me = { s.me with ectr := u.me.ectr }
theorem Kept.trans {s t u : State} (h : Kept s t) (g : Kept t u) : Kept s u := ⟨g.cur.trans h.cur, by rw [g.me, h.me]⟩
theorem Charged.kept {s u : State} (h : Charged s u) : Kept s u := ⟨h.cur, h.me⟩
theorem kept_of_offHome {s u : State} (h : u.offHome = s.offHome) : Kept s u := by
  have hcur : u.cur = s.cur := (congrArg State.cur h :)
  refine ⟨hcur, ?_⟩
  rw [State.me, State.me, hcur, State.hart, State.hart, harts_of_offHome h]
/-- A table read on an ordinary page keeps the hart, whatever its line replaces. -/
theorem kept_innerLoad (s : State) {p : Trans} (n : Nat) (hserved : servedBy p.pa ≠ .mgmt) (hmode : leafC p.leaf = 0) : Kept s (s.innerLoad p n) := by
  have hread : (s.readAt s.cur p n .row .none true).2.2.offHome = s.offHome := by
    rw [State.readAt, if_neg hserved, State.beforeLoad, if_pos hmode]
    exact offHome_loadFill ..
  have hcharged := (kept_of_offHome hread).trans ((charged_chargeMe _ 1 1).kept.trans (charged_bumpMe _ 3 1).kept)
  unfold State.innerLoad
  dsimp only
  split
  · exact hcharged
  · exact hcharged.trans (charged_bumpMe _ 5 1).kept
theorem Kept.goTo {s u : State} (h : Kept s u) (a : Word) : (∀ r, (u.goTo a).readX r = s.readX r) ∧ (u.goTo a).me.pc = a := by
  rw [State.goTo, State.updMe_me]
  refine ⟨fun r => ?_, rfl⟩
  rw [State.readX, State.updMe_me, h.me]
  rfl

-- The table jump (spec/07 R156) ------------------------------------------------------------------------------------------------------------------

theorem watchTable_ok {s : State} {ea : Word} (h : s.watchHits s.cur ea 4 true false = 0) : watchTable ea s = .ok ((), s) := by
  simp [watchTable, h]
theorem tableCheck_finds {s : State} {ea : Word} {p : Trans} {v : Nat} (h : LoadFinds s ea 4 .row p v) (idx : Word) :
    ∃ t, tableCheck ea idx s = .ok (p, t) ∧ peekLoad ea p 4 t = .ok (v, t) ∧ Alike s t ∧ (tbaseEn s.me.tbase = false → t = s) := by
  obtain ⟨t, hcheck, ht, hwatch, hconf, hemit, hf⟩ := h.passes
  obtain ⟨u, hread, -⟩ := readAt_finds hf .none true
  refine ⟨t, ?_, ?_, ht, fun hb => check_untranslated hb hcheck⟩
  · simp only [tableCheck, Op.bind_run, hcheck, watchTable_ok hwatch, awaitInterlock_ok hconf, awaitEmission_ok hemit]
    rfl
  · simp only [peekLoad, Op.bind_run, ask_run, hread]
    rfl
section
variable {a b : Reg} {i : BitVec 15} {s t : State} {p q : Trans} {n e : Nat} (hcheck : tableCheck (s.readX b) (s.readX a) s = .ok (p, t))
  (hpeek : peekLoad (s.readX b) p 4 t = .ok (n, t))
include hcheck hpeek
theorem execJtab_default (hle : n ≤ (s.readX a).toNat) :
    exec (.jtab a b i) s = .next ((t.innerLoad p 4).goTo (branchTarget t.me.pc i)) := by
  change finish _ s = _
  simp only [finish, Op.bind_run, ask_run, hcheck, hpeek, if_pos hle, upd_run]
theorem execJtab_aligned (hlt : (s.readX a).toNat < n) (hts : t = s) (hcheck' : tableCheck (s.readX b + 4 + 4 * s.readX a) (s.readX a) s = .ok (q, s))
    (hpeek' : peekLoad (s.readX b + 4 + 4 * s.readX a) q 4 s = .ok (e, s)) (hal : (s.readX b + BitVec.ofInt 64 (sextN e 32)).toNat % 4 = 0) :
    exec (.jtab a b i) s = .next (((s.innerLoad p 4).innerLoad q 4).goTo (s.readX b + BitVec.ofInt 64 (sextN e 32))) := by
  subst hts
  change finish _ t = _
  simp only [finish, Op.bind_run, ask_run, hcheck, hpeek, if_neg (Nat.not_le.2 hlt), hcheck', hpeek', if_neg (not_not.2 hal), upd_run]
theorem execJtab_misaligned (hlt : (s.readX a).toNat < n) (hts : t = s) (hcheck' : tableCheck (s.readX b + 4 + 4 * s.readX a) (s.readX a) s = .ok (q, s))
    (hpeek' : peekLoad (s.readX b + 4 + 4 * s.readX a) q 4 s = .ok (e, s)) (hmis : (s.readX b + BitVec.ofInt 64 (sextN e 32)).toNat % 4 ≠ 0)
    (hc : s.copying s.cur = false) :
    exec (.jtab a b i) s =
      .next (s.takeTrap s.cur { cause := 0x09, value := s.readX a, tpc := s.me.pc, aux := s.readX b + 4 + 4 * s.readX a }) := by
  subst hts
  change finish _ t = _
  simp only [finish, Op.bind_run, ask_run, hcheck, hpeek, if_neg (Nat.not_le.2 hlt), hcheck', hpeek', if_pos hmis, takeHere_run, hc,
    Bool.false_eq_true, if_false]
end
theorem tableJump : TableJump := by
  intro a b i s p n idx tb ea hbound
  have hp := hbound.finds
  obtain ⟨t, hcheck, hpeek, ht, hsame⟩ := tableCheck_finds hbound idx
  refine ⟨fun hle => ?_, ?_⟩
  · have hgo := (ht.sameViews.charged.kept.trans (kept_innerLoad t 4 hp.served hp.mode)).goTo (s.me.pc + BitVec.ofInt 64 (4 * i.toInt))
    refine ⟨_, execJtab_default hcheck hpeek hle, ?_⟩
    rw [ht.me, branchTarget_eq]
    exact hgo
  · intro hlt hb q e hentry target
    have hq := hentry.finds
    obtain ⟨u, hcheck', hpeek', -, hsame'⟩ := tableCheck_finds hentry idx
    rw [hsame' hb] at hcheck' hpeek'
    have htarget : tb + BitVec.ofInt 64 (sextN e 32) = target := congrArg (tb + ·) (ofInt_sextN e)
    refine ⟨fun hal => ⟨_, execJtab_aligned hcheck hpeek hlt (hsame hb) hcheck' hpeek' (htarget ▸ hal), ?_⟩, fun hmis hc => ⟨s, fun _ => rfl, rfl, ?_⟩⟩
    · rw [htarget]
      exact ((kept_innerLoad s 4 hp.served hp.mode).trans (kept_innerLoad _ 4 hq.served hq.mode)).goTo target
    · exact execJtab_misaligned hcheck hpeek hlt (hsame hb) hcheck' hpeek' (htarget ▸ hmis) hc
/-- Settles O3: the two reads of jtab are of the state it begins in, and leave the hart its registers. -/
theorem longConstantsAndJumps : Obligations.LongConstantsAndJumps := ⟨longConstants, jumps, tableJump⟩
end Sys2Proof.Claims
end

section
/-!
PROOFS. The frame of a scalar store (spec/07 R157, R159; spec/14 R277) fails in a state that its premises let in, though no step leads there.
-/
namespace Sys2Proof.Claims
open Machine

/-- Hart 0 with the address 0x1000 in x1, its cluster with a line of column bytes whose row group its panel does not have (spec/12 R247). The
first bit of its dirty mask stands for the byte at 0x1000, which the line does not hold. -/
def stray : State :=
  { harts := [(0, { started := true, sup := true, x := [(1, 0x1000), (2, 5)] })],
    clusters := [(0, { lines := [{ key := .col 0 1 0 1, dirty := 1 }], bytes := [(0x1000, 9)] })] }
/-- The byte at its home after a word that completes. -/
def homeAfter (b : Nat) : Out → Option Byte
  | .next t => some (Memory.read t.mem b)
  | _ => none
theorem alone_stray : Alone stray := fun k hk => by
  have hc : stray.cluster k = {} := by
    rw [State.cluster, Tab.get, stray, Tab.find, if_neg (show ¬k = 0 from hk)]
    rfl
  have hd : stray.dcacheKeys k = [] := List.flatMap_eq_nil_iff.2 fun _ _ => rfl
  rw [hc, hd]
  exact ⟨rfl, rfl, rfl⟩
theorem inclusive_stray : Inclusive stray := fun _ hk => nomatch (show _ ∈ ([] : List LineKey) from hk)
theorem storeFinds_stray : StoreFinds stray 0x1001 1 .row ⟨0x1001, 0x1F, 4⟩ :=
  ⟨⟨stray, by decide +kernel⟩, by decide +kernel, by decide +kernel, by decide +kernel, by decide +kernel, by decide +kernel⟩
theorem writable_stray : Writable stray 0x1001 1 := by
  refine ⟨rfl, fun i hi => ?_, inclusive_stray⟩
  obtain rfl : i = 0 := by omega
  decide +kernel
/-- The store takes the byte at 0x1000 along, which its cluster does not hold dirty. -/
theorem stray_stores : homeAfter 0x1000 (exec (.st8 2 1 1 .byp .row) stray) = some 9 ∧ Memory.read stray.mem 0x1000 = 0 ∧
    stray.dirtyByte 0 0x1000 = false := by decide +kernel
/-- Refutes O6: nothing in the frame's premises keeps a line from naming, by its dirty mask, a byte that it does not hold. Such a line stands
in `stray`, and a store with a hint beside that byte takes it to its home. -/
theorem not_storeWords : ¬ Obligations.StoreWords := by
  rintro ⟨-, hframe⟩
  obtain ⟨-, hbeside⟩ := hframe 2 1 1 .byp .row stray ⟨0x1001, 0x1F, 4⟩ (1, .st8 2 1 1 .byp .row) List.mem_cons_self storeFinds_stray nofun
  obtain ⟨t, ht, hother⟩ := hbeside writable_stray alone_stray (.inl (by decide +kernel))
  obtain ⟨hstored, hbefore, hclean⟩ := stray_stores
  rw [ht, homeAfter, Option.some.injEq] at hstored
  obtain ⟨hhome, -⟩ | ⟨-, -, hdirty, -⟩ := hother 0x1000 (.inl (by decide))
  · rw [hstored, hbefore] at hhome
    exact absurd hhome (by decide)
  · exact Bool.noConfusion (hclean.symm.trans hdirty)
end Sys2Proof.Claims
end

section
/-!
PROOFS. A barrier that turns (spec/15 R313) and a stream without loss (spec/18 R354, R356): the record of the barrier passed has room
before the acquire of the pass, and none after it, where the acquire brings home an older value of the ring's consumed.
-/
namespace Sys2Proof.Claims
open Machine

/-- A gang of one hart, which has arrived at its barrier. -/
def lateGang : Gang := { id := 0, die := 0, order := 0, blk := ⟨0, 0, 0x1000000001, 0, 0, 0, 0, 0⟩, ent := {}, harts := [0], count := 1 }
/-- Hart 0 waits at that barrier in the gbar at 0x4000. A stream without loss takes the records of class 2 into a ring of one slot, whose
header is at address 0: one record was written, and its home says that one was consumed. The hart's own cluster holds that word dirty, as 0. -/
def lateRing : State :=
  { harts := [(0, { pc := 0x4000, started := true, sup := true, tmask := 0x0024, wait := .gbar, gang := some 0, arr := true })],
    clusters := [(0, { lines := [{ key := .row 0, dirty := 2 ^ 8 }], touched := [(0, 1)] })],
    mem := Memory.writeN [(8, 1)] 0x4000 (bytesLE 4 ((encode .gbar).map (·.2)).get!),
    streams := [(0, { sctl := 0xE000000000040000, written := 1 })], gangs := [lateGang] }
/-- The state in which its gbar executes again, the barrier turned. -/
def lateTurn : State :=
  (({ ((lateRing.turnCheck 0).wordAt 0).2 with cur := 0 } : State).updMe fun x =>
    { x with issued := true, issuedAt := if x.issued then x.issuedAt else ((lateRing.turnCheck 0).wordAt 0).2.now }).chargeMe 0 1
/-- What hart 0 waits for after an event that completes. -/
def waitAfter : Out → Option Wait
  | .next t => some (t.hart 0).wait
  | _ => none
theorem issues_lateTurn : Issues (lateRing.turnCheck 0) 0 .gbar .gbar lateTurn := by
  have hword : ((lateRing.turnCheck 0).wordAt 0).1 = some .gbar := by decide +kernel
  exact ⟨by decide +kernel, by decide +kernel, by decide +kernel, by decide +kernel, by decide +kernel, _, Prod.ext hword rfl, rfl⟩
theorem noCapture_lateTurn : NoCapture lateTurn := fun j => by
  have hnone : lateTurn.myCore.lcfg = [] := by decide +kernel
  rw [hnone]
  exact BitVec.getLsbD_zero
/-- The record has room before the word and none in it: the hart is held by Reel. -/
theorem lateRing_held : lateTurn.reelRoom 0 0x0203 = true ∧ waitAfter (exec (.gbarPass 0) lateRing) = some .reel := by decide +kernel
/-- Refutes O42: the clause of gbar asks for room before its word. The acquire that passes a barrier drains what the hart's core touched,
here the ring's consumed; the record then finds no room, and the word is held before it has any effect (lateRing). -/
theorem not_waitEvents : ¬ Obligations.WaitEvents := by
  unfold Obligations.WaitEvents
  intro h
  obtain ⟨-, -, -, -, -, -, hgbar, -⟩ := h 0 lateRing lateTurn
  obtain ⟨t, ht, -, -, hpass⟩ := hgbar lateGang (by decide +kernel) (by decide +kernel) (by decide +kernel)
  obtain ⟨hroom, hheld⟩ := lateRing_held
  obtain ⟨hpassed, -⟩ := hpass List.mem_cons_self rfl rfl (fun j hj hne => absurd (List.mem_singleton.1 hj) hne) issues_lateTurn hroom
    noCapture_lateTurn
  rw [show exec (.gbarPass 0) lateRing = .next t from ht, waitAfter, hpassed.ready] at hheld
  exact absurd hheld (by decide)

end Sys2Proof.Claims
end

section
/-!
PROOFS. Types and single values of the vector state (spec/08 R168, R183, R185, R186).
-/
namespace Sys2Proof.Claims
open Machine

-- What a vector word leaves beside its result (spec/11 R239, spec/18 R365) ----------------------------------------------------------------

/-- A count changes counters alone. -/
theorem bumpHart_counters (s : State) (h slot n : Nat) : ∃ c, s.bumpHart h slot n = { s with counters := c } := by
  have selected : ∀ (l : List Nat) (t : State), (∃ c, t = { s with counters := c }) → ∃ c, t.bumpSel h slot n l = { s with counters := c } := by
    intro l
    induction l with
    | nil => exact fun t ht => ht
    | cons j l ih =>
      rintro _ ⟨c, rfl⟩
      rw [State.bumpSel]
      refine ih _ ?_
      split
      · exact ⟨_, rfl⟩
      · exact ⟨c, rfl⟩
  exact selected _ _ ⟨_, rfl⟩
/-- A word that charges its elements and is done changes the energy count of its hart and the counters. -/
theorem chargedWord_eq (s : State) (cls n : Nat) : ∃ c, ((s.chargeMe cls n).bumpMe 1 1) = { s.chargeMe cls n with counters := c } :=
  bumpHart_counters ..
theorem readX_of_me {s t : State} (h : t.me.x = s.me.x) (r : Reg) : t.readX r = s.readX r := by
  rw [State.readX, State.readX, Hart.readX, Hart.readX, h]
/-- A result retired by a word that is charged. -/
theorem laneOut_retire (s : State) (cls n : Nat) (d : Reg) (v : Word) : LaneOut s (((s.chargeMe cls n).bumpMe 1 1).retire d v) d v 0 := by
  have hw := writes_retireFlags ((s.chargeMe cls n).bumpMe 1 1) d v 0
  obtain ⟨c, hc⟩ := chargedWord_eq s cls n
  have hme : ((s.chargeMe cls n).bumpMe 1 1).me = { s.me with ectr := (s.chargeMe cls n).me.ectr } := by
    rw [me_of_offPath (offPath_bumpMe ..), chargeMe_me]
  rw [← retire_eq_retireFlags] at hw
  exact
  { value := hw.value
    others := fun r hr => (hw.others r hr).trans (readX_of_me (by rw [hme]) r)
    pc := by rw [hw.pc, hme]
    flags := by rw [hw.flags, hme]
    ready := hw.ready
    hart := by
      rw [retire_eq_retireFlags, retireFlags_eq, State.updMe_me, Hart.writeX]
      split <;> (rw [hme]; rfl)
    harts := fun k hk => by
      have hk' : k ≠ ((s.chargeMe cls n).bumpMe 1 1).cur := by rw [hc]; exact hk
      rw [hw.harts k hk', hart_of_offPath (offPath_bumpMe ..)]
      exact updMe_other s _ hk
    rest := by
      rw [hc]
      rfl }
/-- A register written by a word that is charged. -/
theorem vectorOut_setVimg {s : State} {cls n : Nat} {d : Reg} {w img : Nat} {value : Nat → Nat} (h : ∀ i, elemAt img w i = value i) :
    VectorOut s ((((s.updMe fun x => x.setVimg d img).chargeMe cls n).bumpMe 1 1).advance) d w value 0 := by
  obtain ⟨c, hc⟩ := chargedWord_eq (s.updMe fun x => x.setVimg d img) cls n
  have hme : (((s.updMe fun x => x.setVimg d img).chargeMe cls n).bumpMe 1 1).advance.me =
      ({ s.me.setVimg d img with ectr := ((s.updMe fun x => x.setVimg d img).chargeMe cls n).me.ectr } : Hart).next := by
    rw [State.advance, State.updMe_me, me_of_offPath (offPath_bumpMe ..), chargeMe_me, State.updMe_me]
  refine ⟨fun i => ?_, fun r hr => ?_, readX_of_me (by rw [hme]; rfl), by rw [hme]; rfl, by rw [hme]; exact (BitVec.or_zero).symm,
    by rw [hme]; exact ⟨rfl, rfl, rfl, rfl, rfl⟩, by rw [hme]; rfl, fun k hk => ?_, ?_⟩
  · rw [← h i, row, elemAt_eq, hme]
    exact congrArg (· / 2 ^ (w * i) % 2 ^ w) (by rw [Hart.vimg]; exact (Tab.get_put ..).trans (if_pos rfl))
  · rw [hme, Hart.vimg]
    exact (Tab.get_put ..).trans (if_neg fun e => hr (BitVec.eq_of_toNat_eq e))
  · have hk' : k ≠ (((s.updMe fun x => x.setVimg d img).chargeMe cls n).bumpMe 1 1).cur := by rw [hc]; exact hk
    rw [State.advance, updMe_other _ _ hk', hart_of_offPath (offPath_bumpMe ..)]
    exact (updMe_other (s.updMe _) _ hk).trans (updMe_other s _ hk)
  · rw [hc]
    rfl
/-- A count and the step to the next word. -/
theorem countedWord_me (s : State) : ((s.bumpMe 1 1).advance).me = s.me.next := by
  rw [State.advance, State.updMe_me, me_of_offPath (offPath_bumpMe ..)]

-- vmvx and vbcast (spec/08 R185, R186) ------------------------------------------------------------------------------------------------------

theorem lt_reachRows {h : Hart} {t : ETy} (ht : t ≠ .q) (i : Nat) : (i < h.rows ∧ i < capOf t h.vtype h.lanes) ↔ i < reachRows h t := by
  rw [capOf_eq ht, reachRows, lt_min_iff]
  rfl
/-- A value as a scalar register takes it. -/
theorem extended_eq (t : ETy) (v : Nat) :
    (if tySigned t then BitVec.ofInt 64 (sextN v (tyBits t)) else BitVec.ofNat 64 v) = extended t v := by
  rw [ofInt_sextN]
  cases t with
  | s64 => exact (if_pos rfl).trans (BitVec.signExtend_eq _)
  | _ => rfl
theorem elemAt_fillRows (w v img n i : Nat) : elemAt (fillRows w v img n) w i = if i < n then v % 2 ^ w else elemAt img w i := by
  induction n with
  | zero => rfl
  | succ n ih =>
    rw [fillRows, elemAt_withElem, ih]
    by_cases hi : i = n
    · simp [hi]
    · simp only [hi, if_false, show i < n + 1 ↔ i < n by omega]
theorem vmvx_laneGives {t : ETy} (d a c : Reg) {s : State} (hown : s.me.own = s.me.ctx) (ht : t ≠ .q) :
    LaneGives (.vmvx t d a c) s d
      (extended t (if (s.readX c).toNat < reachRows s.me t then row s.me a (elemBits t) (s.readX c).toNat else 0)) 0 := by
  refine ⟨_, ?_, laneOut_retire s 4 1 d _⟩
  show execVmvx t d a c s = _
  simp only [execVmvx, finish, Op.bind_run, needOwner_ok hown, upd_run, lt_reachRows ht, elem_eq, ← extended_eq, tyBits_eq]
theorem vbcast_vectorGives {t : ETy} (d a : Reg) {s : State} (hown : s.me.own = s.me.ctx) (ht : t ≠ .q) :
    VectorGives (.vbcast t d a) s d (elemBits t)
      (fun i => if i < reachRows s.me t then (s.readX a).toNat % 2 ^ elemBits t else row s.me d (elemBits t) i) 0 := by
  have hreach : min s.me.rows (capOf t s.me.vtype s.me.lanes) = reachRows s.me t := by
    rw [capOf_eq ht]
    rfl
  refine ⟨_, ?_, vectorOut_setVimg (cls := 4) (n := reachRows s.me t)
    (img := fillRows (elemBits t) (s.readX a).toNat (s.me.vimg d) (reachRows s.me t)) fun i => ?_⟩
  · show execVbcast t d a s = _
    simp only [execVbcast, finish, Op.bind_run, needOwner_ok hown, upd_run, hreach, tyBits_eq]
    rfl
  · rw [elemAt_fillRows, ← elem_eq, Hart.elem]

-- setvtype and sabort (spec/08 R168, R183) ----------------------------------------------------------------------------------------------------

theorem vtypeBad_iff (v : Word) : vtypeBad v.toNat = false ↔ LegalType v.toNat := by
  have hv := v.isLt
  simp only [vtypeBad, LegalType, bitsOf, Bool.or_eq_false_iff, bne_eq_false_iff_eq, beq_eq_false_iff_ne]
  generalize v.toNat = n at *
  norm_num
  omega
theorem execSetvtype_legal {a : Reg} {s : State} (hmode : s.me.matrix = false) (h : LegalType (s.readX a).toNat) :
    exec (.setvtype a) s = .next ((s.updMe fun h => { h with vtype := s.readX a }).advance) := by
  show finish _ s = _
  simp [finish, needVectorMode_ok _ hmode, (vtypeBad_iff _).2 h]
theorem execSetvtype_bad {a : Reg} {s : State} (hmode : s.me.matrix = false) (h : ¬ LegalType (s.readX a).toNat) (hc : s.copying s.cur = false) :
    exec (.setvtype a) s = .next (s.takeTrap s.cur { cause := 0x15, value := s.readX a, tpc := s.me.pc }) := by
  have hbad : vtypeBad (s.readX a).toNat = true := by
    rw [← Bool.not_eq_false]
    exact mt (vtypeBad_iff _).1 h
  show finish _ s = _
  simp [finish, needVectorMode_ok _ hmode, hbad, trap_takes hc]
theorem execSabort_empties {s : State} (hown : s.me.own = s.me.ctx) :
    exec .sabort s = .next (((s.updMe fun h => { h with buffer := [] }).bumpMe 1 1).advance) := by
  show finish _ s = _
  simp [finish, needOwner_ok hown]
theorem typesAndSingleValues : TypesAndSingleValues := by
  intro t d a c s
  refine ⟨fun hmode => ⟨fun hlegal => ⟨_, execSetvtype_legal hmode hlegal, ?_⟩, execSetvtype_bad hmode⟩,
    fun hown hq _ => ⟨vmvx_laneGives d a c hown hq, vbcast_vectorGives d a hown hq⟩, fun hown => ⟨_, execSabort_empties hown, ?_⟩⟩
  · have hme : ((s.updMe fun h => { h with vtype := s.readX a }).advance).me = ({ s.me with vtype := s.readX a } : Hart).next := by
      rw [State.advance, State.updMe_me, State.updMe_me]
    exact ⟨by rw [hme]; rfl, readX_of_me (by rw [hme]; rfl), by rw [hme]; rfl, by rw [hme]; rfl, by rw [hme]; rfl, rfl⟩
  · have hme := countedWord_me (s.updMe fun h => { h with buffer := [] })
    rw [State.updMe_me] at hme
    obtain ⟨k, hk⟩ := bumpHart_counters (s.updMe fun h => { h with buffer := [] }) s.cur 1 1
    refine ⟨⟨readX_of_me (by rw [hme]; rfl), by rw [hme]; rfl, by rw [hme]; rfl, by rw [hme]; exact ⟨rfl, rfl, rfl, rfl, rfl⟩⟩,
      by rw [hme]; rfl, by rw [hme]; rfl, by rw [hme]; rfl, ?_⟩
    rw [State.bumpMe, State.updMe_cur, hk]
    rfl

end Sys2Proof.Claims
end

section
/-!
PROOFS. setvl (spec/08 R167, R169 to R171): the strip boundary, a change of the lane set, a wait for lanes.
-/
namespace Sys2Proof.Claims
open Machine

-- A record leaves those that wait for lanes (spec/08 R169, spec/18 R352) -----------------------------------------------------------------------

/-- The harts of every core that wait for lanes. -/
def laneQueues (s : State) : Nat → List Nat := fun c => (s.core c).laneWait
theorem laneQueues_of_offTrackers {s t : State} (h : offTrackers t = offTrackers s) : laneQueues t = laneQueues s := by
  have hcores : t.cores = s.cores := congrArg (fun x => x.1.cores) h
  exact funext fun c => congrArg (fun x => (Tab.get ({} : Core) x c).laneWait) hcores
theorem laneQueues_updCore (s : State) (c : Nat) {f : Core → Core} (hf : ∀ x, (f x).laneWait = x.laneWait) :
    laneQueues (s.updCore c f) = laneQueues s := by
  funext j
  simp only [laneQueues, State.updCore_eq, State.setCore_core]
  split
  case isTrue e => rw [hf, e]
  case isFalse => rfl
@[simp] theorem laneQueues_updHart (s : State) (k : Nat) (f : Hart → Hart) : laneQueues (s.updHart k f) = laneQueues s := rfl
@[simp] theorem laneQueues_setCluster (s : State) (k : Nat) (v : Cluster) : laneQueues (s.setCluster k v) = laneQueues s := rfl
@[simp] theorem laneQueues_setStream (s : State) (n : Nat) (v : Stream) : laneQueues (s.setStream n v) = laneQueues s := rfl
@[simp] theorem laneQueues_updDie (s : State) (d : Nat) (f : Die → Die) : laneQueues (s.updDie d f) = laneQueues s := rfl
@[simp] theorem laneQueues_bumpHart (s : State) (k slot n : Nat) : laneQueues (s.bumpHart k slot n) = laneQueues s :=
  laneQueues_of_offTrackers (offTrackers_bumpHart ..)
@[simp] theorem laneQueues_mscReads (s : State) (pas : List Nat) (b : Bool) : laneQueues (s.mscReads pas b) = laneQueues s :=
  laneQueues_of_offTrackers (offTrackers_mscReads ..)
@[simp] theorem laneQueues_settle (s : State) (d : Nat) (cs : List Host.Cell) (ms : List Nat) (b : Bool) :
    laneQueues (s.settle d cs ms b) = laneQueues s :=
  foldl_keeps laneQueues _ (fun s _ => laneQueues_of_offTrackers (offTrackers_mscTouch s _ _ _ _)) _ _
@[simp] theorem laneQueues_forget (s : State) (k : Nat) (pas : List Nat) : laneQueues (s.forget k pas) = laneQueues s := rfl
@[simp] theorem laneQueues_retouch (s : State) (k : Nat) (cs : List Host.Cell) : laneQueues (s.retouch k cs) = laneQueues s := rfl
@[simp] theorem laneQueues_removeLines (s : State) (k : Nat) (p : LineKey → Bool) : laneQueues (s.removeLines k p) = laneQueues s := by
  simp only [State.removeLines, laneQueues_forget, laneQueues_retouch]
  refine (foldl_keeps laneQueues _ (fun s j => ?_) _ _).trans (laneQueues_setCluster s k _)
  split
  · exact laneQueues_updCore s j fun _ => rfl
  · rfl
@[simp] theorem laneQueues_landSectors (s : State) (k : Nat) (secs : List Nat) : laneQueues (s.landSectors k secs).1 = laneQueues s :=
  foldl_keeps laneQueues _ (fun s _ => laneQueues_settle s _ _ _ _) _ _
@[simp] theorem laneQueues_purgeAt (s : State) (k pa : Nat) : laneQueues (s.purgeAt k pa).1 = laneQueues s := by
  unfold State.purgeAt
  dsimp only
  split <;> simp
@[simp] theorem laneQueues_purgeDie (s : State) (k : Option Nat) (pa : Nat) : laneQueues (s.purgeDie k pa).1 = laneQueues s :=
  foldl_keeps_fst laneQueues _ (fun x j => by dsimp only; split <;> simp) _ _
@[simp] theorem laneQueues_reread (s : State) (k : Nat) (secs : List Nat) : laneQueues (s.reread k secs) = laneQueues s := by
  unfold State.reread
  dsimp only
  split <;> rfl
@[simp] theorem laneQueues_wakeOthers (s : State) (k : Option Nat) (pas : List Nat) : laneQueues (s.wakeOthers k pas) = laneQueues s := by
  unfold State.wakeOthers
  dsimp only
  split <;> rfl
@[simp] theorem laneQueues_accept (s : State) (k : Option Nat) (d : Nat) (cs : List Host.Cell) (ms : List Nat) (b : Bool) :
    laneQueues (s.accept k d cs ms b) = laneQueues s := by
  have purged := foldl_keeps_fst laneQueues (fun x pa => ((x.1.purgeDie k pa).1, x.2 ++ (x.1.purgeDie k pa).2))
    (fun x pa => laneQueues_purgeDie x.1 k pa) (sectorBytes cs) (s, [])
  unfold State.accept
  dsimp only
  split <;> simp only [laneQueues_reread, laneQueues_settle, purged]
@[simp] theorem laneQueues_flushFirst (s : State) (n : Nat) : laneQueues (s.flushFirst n) = laneQueues s := by
  induction n generalizing s with
  | zero => rfl
  | succ n ih =>
    unfold State.flushFirst
    split
    · rfl
    · rw [ih, laneQueues_accept]
      rfl
@[simp] theorem laneQueues_putSlot (s : State) (n : Nat) (r : Rec) : laneQueues (s.putSlot n r) = laneQueues s := by
  simp [State.putSlot, State.writeHome, State.writeHomeBytes, State.flushDrains]
@[simp] theorem laneQueues_lose (s : State) (r : Rec) (n : Nat) : laneQueues (s.lose r n) = laneQueues s := by
  unfold State.lose
  split <;> rfl
@[simp] theorem laneQueues_mkRecAt (s : State) (time src code : Nat) (ten : Option Nat) (p q : Word) :
    laneQueues (s.mkRecAt time src code ten p q).2 = laneQueues s := rfl
@[simp] theorem laneQueues_putDrops (s : State) (n : Nat) : laneQueues (s.putDrops n) = laneQueues s := by
  unfold State.putDrops
  dsimp only
  split
  · rfl
  · simp [State.mkRec]
@[simp] theorem laneQueues_putHouse (s : State) (n src : Nat) : laneQueues (s.putHouse n src) = laneQueues s :=
  foldl_keeps laneQueues _ (fun s r => laneQueues_putSlot s n r) _ _
@[simp] theorem laneQueues_deliverTo (s : State) (r : Rec) (n : Nat) : laneQueues (s.deliverTo r n) = laneQueues s := by
  unfold State.deliverTo
  dsimp only
  split <;> simp
@[simp] theorem laneQueues_deliverAll (s : State) (r : Rec) (l : List Nat) : laneQueues (s.deliverAll r l) = laneQueues s :=
  foldl_keeps laneQueues _ (fun s n => laneQueues_deliverTo s r n) _ _
@[simp] theorem laneQueues_loseAll (s : State) (r : Rec) (l : List Nat) : laneQueues (l.foldl (State.lose · r ·) s) = laneQueues s :=
  foldl_keeps laneQueues _ (fun s n => laneQueues_lose s r n) _ _
@[simp] theorem laneQueues_deliverLossy (s : State) (r : Rec) (ns older : List Nat) : laneQueues (s.deliverLossy r ns older) = laneQueues s := by
  unfold State.deliverLossy
  dsimp only
  split <;> simp
@[simp] theorem laneQueues_reserve (s : State) (d : Nat) (r : Rec) (k : Nat) : laneQueues (s.reserve d r k) = laneQueues s := by
  unfold State.reserve
  split
  · simp
  · dsimp only
    split <;> rfl
@[simp] theorem laneQueues_sendHart (s : State) (k time code : Nat) (ten : Option Nat) (p q : Word) :
    laneQueues (s.sendHart k time code ten p q) = laneQueues s := by
  unfold State.sendHart State.offerHart State.deliver
  dsimp only
  repeat' split
  all_goals simp
@[simp] theorem laneQueues_emitOf (s : State) (k code : Nat) (ten : Option Nat) (p q : Word) : laneQueues (s.emitOf k code ten p q) = laneQueues s := by
  unfold State.emitOf
  split
  · simp
  · rfl
@[simp] theorem laneQueues_capture (s : State) (k kind n : Nat) : laneQueues (s.capture k kind n) = laneQueues s := by
  refine foldl_keeps laneQueues _ (fun s j => ?_) _ s
  unfold State.captureIn
  dsimp only
  split
  · exact (foldl_keeps laneQueues _ (fun s i => laneQueues_emitOf s k _ _ _ _) _ _).trans (laneQueues_updCore s _ fun _ => rfl)
  · rfl
@[simp] theorem laneQueues_endWordStall (s : State) (k : Nat) : laneQueues (s.endWordStall k) = laneQueues s := by
  unfold State.endWordStall State.endStall
  split
  · rfl
  · split
    · rfl
    · exact (laneQueues_emitOf ..).trans (laneQueues_capture ..)

-- What a wait leaves (spec/07 R162) ------------------------------------------------------------------------------------------------------------

/-- What the end of a stall keeps of a hart. -/
theorem endWordStall_hart (s : State) (h : Nat) :
    ((s.endWordStall h).hart h).x = (s.hart h).x ∧ ((s.endWordStall h).hart h).pc = (s.hart h).pc := by
  unfold State.endWordStall State.endStall
  split
  · exact ⟨rfl, rfl⟩
  · split
    · exact ⟨rfl, rfl⟩
    next since stamp _ =>
      have noted := ((notes_capture (s.updHart h fun x =>
          { x with stall := none, heldAhead := false, wait := if stallsByReel x.wait then .none else x.wait }) h 7 (s.now - since)).trans
        (notes_emitOf _ h 0x0501 none (BitVec.ofNat 64 stamp) (BitVec.ofNat 64 (s.now - since))) h).rest
      rw [State.emitHartNt, noted, State.updHart_eq, State.setHart_hart, if_pos rfl]
      exact ⟨rfl, rfl⟩
/-- A hart that waits for lanes stays at its word among those of its core that wait. -/
theorem waitFor_lanes (s : State) : (s.waitFor s.cur .lanes).me.wait = .lanes ∧ (s.waitFor s.cur .lanes).me.pc = s.me.pc ∧
    (∀ r, (s.waitFor s.cur .lanes).readX r = s.readX r) ∧ (s.waitFor s.cur .lanes).myCore.laneWait = s.myCore.laneWait := by
  have hcur : (s.endWordStall s.cur).cur = s.cur := by
    unfold State.endWordStall
    split
    · rfl
    · exact (congrArg State.cur (offReel_endStall s s.cur) :)
  have hqueue : laneQueues (s.waitFor s.cur .lanes) = laneQueues s := laneQueues_endWordStall s s.cur
  have hcur' : (s.waitFor s.cur .lanes).cur = s.cur := hcur
  obtain ⟨hx, hpc⟩ := endWordStall_hart s s.cur
  have hme : (s.waitFor s.cur .lanes).me = { (s.endWordStall s.cur).hart s.cur with
      wait := .lanes, waitSince := (s.waitFor s.cur .lanes).me.waitSince } := by
    rw [State.me, hcur', State.waitFor, State.updHart_eq, State.setHart_hart, if_pos rfl]
    rfl
  exact ⟨by rw [hme], by rw [hme]; exact hpc, readX_of_me (by rw [hme]; exact hx),
    (congrArg (fun k => laneQueues (s.waitFor s.cur .lanes) (coreOf k)) hcur').trans (congrFun hqueue _)⟩
theorem mem_joinLaneQueue (s : State) : s.cur ∈ (s.joinLaneQueue s.cur).myCore.laneWait := by
  rw [State.myCore, State.joinLaneQueue, State.updCore_eq, State.setCore_cur, State.setCore_core, if_pos rfl]
  dsimp only
  split
  next h => exact List.contains_iff_mem.1 h
  next => exact List.mem_append_right _ (List.mem_singleton.2 rfl)

end Sys2Proof.Claims
end

section
/-!
PROOFS. setvl (spec/08 R167, R169, R170): the lanes of a strip boundary, and the length it sets.
-/
namespace Sys2Proof.Claims
open Machine

-- Rows and lanes (spec/08 R167, R169) -----------------------------------------------------------------------------------------------------------

theorem vlmax_wcode (w : WCode) (qw lanes : Nat) : vlmax (wcode w) qw lanes = mostRows w qw lanes := by
  cases w with
  | sliced => rfl
  | w8 | w16 | w32 | w64 =>
    simp only [vlmax, wcode, mostRows]
    norm_num
    try omega
theorem vtQw_eq (v : Word) : vtQw v = v.toNat % 32 := by simp [vtQw, bitsOf]
theorem ceilDiv_le_iff {a b c : Nat} (hb : 0 < b) : ceilDiv a b ≤ c ↔ a ≤ b * c := by
  rw [ceilDiv, ← Nat.lt_succ_iff, Nat.div_lt_iff_lt_mul hb, Nat.succ_mul, Nat.mul_comm b c]
  omega
/-- The most rows grow by the rows of a lane. -/
theorem mostRows_eq {w : WCode} {qw : Nat} (hq : w = .sliced → qw ∣ 2048) (lanes : Nat) :
    mostRows w qw lanes = rowsPerLane (wcode w) qw * lanes := by
  cases w with
  | sliced =>
    obtain ⟨m, hm⟩ := hq rfl
    rw [mostRows, rowsPerLane, wcode, if_pos rfl, Nat.mul_comm 2048, Nat.mul_div_assoc _ ⟨m, hm⟩, Nat.mul_comm lanes,
      Nat.mul_min_mul_right]
  | w8 | w16 | w32 | w64 => rfl
theorem rowsPerLane_pos {w : WCode} {qw : Nat} (hq : w = .sliced → 1 ≤ qw) (hd : w = .sliced → qw ∣ 2048) : 0 < rowsPerLane (wcode w) qw := by
  cases w with
  | sliced =>
    have := Nat.div_pos (Nat.le_of_dvd (by omega) (hd rfl)) (hq rfl)
    rw [rowsPerLane, wcode, if_pos rfl]
    omega
  | w8 | w16 | w32 | w64 => simp [rowsPerLane, wcode]
/-- Lanes given up to a wish of at most 32. -/
theorem granted_bounds {want cap held free k : Nat} (hwant : want ≤ 32)
    (h : (let new := min want cap
      let new := if held < new then held + min (new - held) free else new
      if 4 ≤ new then some new else none) = some k) : 4 ≤ k ∧ k ≤ 32 := by
  obtain ⟨hfour, hk⟩ := Option.ite_none_right_eq_some.1 h
  obtain rfl := Option.some.inj hk
  refine ⟨hfour, ?_⟩
  split <;> omega
theorem boundaryLanes_bounds {s : State} {h req wc qw k : Nat} (hk : s.boundaryLanes h req wc qw = some k) : 4 ≤ k ∧ k ≤ 32 := by
  have hfours : ceilDiv (min 32 (ceilDiv req (rowsPerLane wc qw))) 4 ≤ 8 := (ceilDiv_le_iff (by omega)).2 (Nat.min_le_left 32 _)
  exact granted_bounds (show 4 * ceilDiv (min 32 (ceilDiv req (rowsPerLane wc qw))) 4 ≤ 32 by omega) hk
/-- The harts of a core, one of them with lanes at most. -/
theorem core_alone {s : State} {h : Nat} (halone : ∀ j ∈ hartsOfCore (coreOf h), j ≠ h → (s.hart j).lanes = 0) :
    ((hartsOfCore (coreOf h)).filter fun j => j == h || decide (0 < (s.hart j).lanes)).length = 1 ∧ s.freeLanes (coreOf h) = 32 - (s.hart h).lanes := by
  obtain ⟨c, r, hr, rfl⟩ : ∃ c r, r < 4 ∧ h = 4 * c + r := ⟨h / 4, h % 4, by omega, by omega⟩
  have hc : coreOf (4 * c + r) = c := by
    rw [coreOf]
    omega
  rw [hc] at halone ⊢
  rw [State.freeLanes]
  simp only [hartsOfCore, List.mem_cons, List.not_mem_nil, or_false, forall_eq_or_imp, forall_eq] at halone ⊢
  obtain ⟨h0, h1, h2, h3⟩ := halone
  interval_cases r <;> simp [h0, h1, h2, h3] at *
/-- A hart with the core to itself gets what its request fills, in fours. -/
theorem boundaryLanes_alone {s : State} {h req k : Nat} {w : WCode} {qw : Nat}
    (halone : ∀ j ∈ hartsOfCore (coreOf h), j ≠ h → (s.hart j).lanes = 0) (hwait : (s.core (coreOf h)).laneWait = []) (hheld : (s.hart h).lanes ≤ 32)
    (hq : w = .sliced → 1 ≤ qw) (hd : w = .sliced → qw ∣ 2048) (hk : 1 ≤ k ∧ k ≤ 8) (hlow : mostRows w qw (4 * k - 4) < req)
    (hhigh : k = 8 ∨ req ≤ mostRows w qw (4 * k)) : s.boundaryLanes h req (wcode w) qw = some (4 * k) := by
  obtain ⟨hone, hfree⟩ := core_alone halone
  have hpos := rowsPerLane_pos hq hd
  rw [mostRows_eq hd, ← Nat.not_le, ← ceilDiv_le_iff hpos] at hlow
  rw [mostRows_eq hd, ← ceilDiv_le_iff hpos] at hhigh
  have hwant : ceilDiv (min 32 (ceilDiv req (rowsPerLane (wcode w) qw))) 4 = k := by
    rw [ceilDiv]
    omega
  have hfirst : s.firstForLanes h = true := by simp [State.firstForLanes, hwait]
  unfold State.boundaryLanes
  simp only [hwait, List.contains_nil, Bool.or_false, List.any_nil, Bool.false_eq_true, if_false, hfirst, Bool.or_true, if_true, hwant, hfree]
  split
  · rw [if_pos (by omega)]
    congr 1
    omega
  · rw [if_pos (by omega)]
    congr 1
    omega

-- The length that is set (spec/08 R167) ---------------------------------------------------------------------------------------------------------

/-- What setvl does once the lanes stand. -/
def setLength (s : State) (w : WCode) (d : Reg) (req : Nat) : State :=
  let qw := s.me.vtype.toNat % 32
  let n := min req (mostRows w qw s.me.lanes)
  (s.updMe fun h => { h with vlen := n, sw := wcode w, swq := if wcode w = 4 then qw else 0 }).retire d (BitVec.ofNat 64 n)
section
variable {w : WCode} {d a : Reg} {s u : State} (hv : Vector s)
include hv
theorem execSetvl_keep : exec (.setvl true w d a) s = .next (setLength s w d (s.readX a).toNat) := by
  show finish _ s = _
  simp [finish, needOwner_ok hv.1, needVectorMode_ok _ hv.2, setLength, vlmax_wcode, vtQw_eq]
theorem execSetvl_strip (hb : stripBoundary (s.readX a).toNat (wcode w) s = .ok ((), u)) :
    exec (.setvl false w d a) s = .next (setLength u w d (s.readX a).toNat) := by
  show finish _ s = _
  simp [finish, needOwner_ok hv.1, needVectorMode_ok _ hv.2, hb, setLength, vlmax_wcode, vtQw_eq]
theorem execSetvl_waits (hb : stripBoundary (s.readX a).toNat (wcode w) s = .error u) : exec (.setvl false w d a) s = .next u := by
  show finish _ s = _
  simp [finish, needOwner_ok hv.1, needVectorMode_ok _ hv.2, hb]
end
theorem stripBoundary_idle {s : State} {req wc : Nat} (h : req = 0 ∨ s.me.buffer ≠ []) : stripBoundary req wc s = .ok ((), s) := by
  have idle : ¬ (¬ req = 0 ∧ s.me.buffer = []) := by tauto
  simp [stripBoundary, idle]
section
variable {s : State} {req wc k : Nat} (hreq : req ≠ 0) (hbuf : s.me.buffer = [])
include hreq hbuf
theorem stripBoundary_grants (hk : s.boundaryLanes s.cur req wc (s.me.vtype.toNat % 32) = some k)
    (hroom : k = s.me.lanes ∨ (s.me.stall = none ∧ s.reelRoom s.cur 0x0103 = true)) :
    stripBoundary req wc s = .ok ((), (s.leaveLaneQueue s.cur).setLanes s.cur k) := by
  rw [← vtQw_eq] at hk
  obtain rfl | ⟨hstall, hroom⟩ := hroom
  · simp [stripBoundary, hreq, hbuf, hk]
  · have hawait : awaitReel 0x0103 s = .ok ((), s) := by
      have hend : s.endWordStall s.cur = s := by
        have hstall' : (s.hart s.cur).stall = none := hstall
        simp [State.endWordStall, State.endStall, hstall']
      simp [awaitReel, awaitReels, hend, State.reelRooms, hroom]
    simp [stripBoundary, hreq, hbuf, hk]
    split <;> simp [hawait]
theorem stripBoundary_waits (hk : s.boundaryLanes s.cur req wc (s.me.vtype.toNat % 32) = none) :
    stripBoundary req wc s = .error ((s.joinLaneQueue s.cur).waitFor s.cur .lanes) := by
  rw [← vtQw_eq] at hk
  simp [stripBoundary, hreq, hbuf, hk, State.joinLaneQueue]
end

/-- A hart with k lanes; its registers read 0 where these are others than before. -/
def relaned (x : Hart) (k : Nat) : Hart := if k = x.lanes then x else { x.zeroRegs with lanes := k }
theorem relaned_keeps (x : Hart) (k : Nat) : (relaned x k).x = x.x ∧ (relaned x k).pc = x.pc ∧ (relaned x k).fpflags = x.fpflags ∧
    (relaned x k).vtype = x.vtype ∧ (relaned x k).lanes = k := by
  rw [relaned]
  split
  case isTrue h => exact ⟨rfl, rfl, rfl, rfl, h.symm⟩
  case isFalse => exact ⟨rfl, rfl, rfl, rfl, rfl⟩
/-- The lanes a strip boundary gives, but for what a record notes. -/
theorem grantLanes_me (s : State) (k : Nat) :
    ∃ l o b, ((s.leaveLaneQueue s.cur).setLanes s.cur k).me = { relaned s.me k with latch := l, owes := o, behind := b } := by
  unfold State.setLanes
  dsimp only
  split
  case isTrue heq =>
    refine ⟨s.me.latch, s.me.owes, s.me.behind, ?_⟩
    have heq' : k = s.me.lanes := heq.symm
    rw [relaned, if_pos heq']
    rfl
  case isFalse hne =>
    have hne' : k ≠ s.me.lanes := fun e => hne e.symm
    have hset : ((s.leaveLaneQueue s.cur).updHart s.cur fun x => { x.zeroRegs with lanes := k }).hart s.cur = relaned s.me k := by
      rw [State.updHart_eq, State.setHart_hart, if_pos rfl, relaned, if_neg hne']
      rfl
    have hcur : ((s.leaveLaneQueue s.cur).updHart s.cur fun x => { x.zeroRegs with lanes := k }).cur = s.cur := rfl
    generalize ((s.leaveLaneQueue s.cur).updHart s.cur fun x => { x.zeroRegs with lanes := k }) = u at hset hcur ⊢
    generalize BitVec.ofNat 64 ((s.leaveLaneQueue s.cur).hart s.cur).lanes = old
    have hkeep : ((u.bumpHart s.cur 12 1).emitHart s.cur 0x0103 old (BitVec.ofNat 64 k)).cur = s.cur :=
      (congrArg State.cur ((offReel_emitOf ..).trans (offReel_bumpHart u s.cur 12 1)) :).trans hcur
    have noted := ((notes_of_offPath (offPath_bumpHart u s.cur 12 1)).trans (notes_emitHart _ s.cur 0x0103 old (BitVec.ofNat 64 k)) s.cur).rest
    rw [hset] at noted
    exact ⟨_, _, _, by rw [State.me, hkeep]; exact noted⟩

/-- What setvl leaves, from what it goes by. -/
theorem setLength_leaves {s u : State} {w : WCode} {d : Reg} {req : Nat} (hx : u.me.x = s.me.x) (hpc : u.me.pc = s.me.pc)
    (hf : u.me.fpflags = s.me.fpflags) (hq : u.me.vtype = s.me.vtype) :
    let t := setLength u w d req
    let n := min req (mostRows w (s.me.vtype.toNat % 32) u.me.lanes)
    (t.me.vlen = n ∧ t.me.sw = wcode w ∧ t.me.lanes = u.me.lanes ∧ t.readX d = (if d = 0 then 0 else BitVec.ofNat 64 n) ∧
      (∀ r, r ≠ d → t.readX r = s.readX r) ∧ t.me.pc = s.me.pc + 4 ∧ t.me.fpflags = s.me.fpflags) ∧
    t.me.v = u.me.v ∧ t.me.p = u.me.p ∧ t.mem = u.mem := by
  dsimp only
  rw [setLength, hq]
  generalize min req (mostRows w (s.me.vtype.toNat % 32) u.me.lanes) = n
  have hme : (u.updMe fun h => { h with vlen := n, sw := wcode w, swq := if wcode w = 4 then s.me.vtype.toNat % 32 else 0 }).me =
      { u.me with vlen := n, sw := wcode w, swq := if wcode w = 4 then s.me.vtype.toNat % 32 else 0 } := State.updMe_me ..
  have hmem : (u.updMe fun h => { h with vlen := n, sw := wcode w, swq := if wcode w = 4 then s.me.vtype.toNat % 32 else 0 }).mem = u.mem := rfl
  generalize (u.updMe fun h => { h with vlen := n, sw := wcode w, swq := if wcode w = 4 then s.me.vtype.toNat % 32 else 0 }) = r at hme hmem
  have hw := writes_retireFlags r d (BitVec.ofNat 64 n) 0
  rw [← retire_eq_retireFlags] at hw
  obtain ⟨hvalue, hothers, hpc', hflags, -, hhart, -, hrest⟩ := hw
  rw [hme] at hpc' hflags hhart
  refine ⟨⟨(congrArg Hart.vlen hhart :), (congrArg Hart.sw hhart :), (congrArg Hart.lanes hhart :), hvalue,
    fun i hi => (hothers i hi).trans (readX_of_me (by rw [hme]; exact hx) i), by rw [hpc']; exact congrArg (· + 4) hpc, ?_⟩,
    (congrArg Hart.v hhart :), (congrArg Hart.p hhart :), (congrArg State.mem hrest :).trans hmem⟩
  rw [hflags]
  exact (BitVec.or_zero).trans hf

-- The clauses ----------------------------------------------------------------------------------------------------------------------------------

theorem setvl_keeps {keep : Bool} (w : WCode) (d : Reg) {a : Reg} {s : State} (hv : Vector s)
    (h : keep = true ∨ (s.readX a).toNat = 0 ∨ s.me.buffer ≠ []) :
    exec (.setvl keep w d a) s = .next (setLength s w d (s.readX a).toNat) := by
  cases keep with
  | true => exact execSetvl_keep hv
  | false => exact execSetvl_strip hv (stripBoundary_idle (h.resolve_left (by simp)))
theorem setLength_holds : SetLength := by
  intro keep w d a s hv req qw sets
  refine ⟨fun h => ?_, fun hkeep hreq hbuf => ⟨fun k hk hroom _ => ?_, fun hk => ?_, fun halone hwait hheld hq k hk8 hlow hhigh hk1 hd =>
    boundaryLanes_alone halone hwait hheld hq hd ⟨hk1, hk8⟩ hlow hhigh⟩⟩
  · obtain ⟨hset, hregs⟩ := setLength_leaves (s := s) (u := s) (w := w) (d := d) (req := req) rfl rfl rfl rfl
    exact ⟨_, ⟨setvl_keeps w d hv h, hset⟩, hregs⟩
  · subst hkeep
    obtain ⟨hfour, hmost⟩ := boundaryLanes_bounds hk
    have hexec := execSetvl_strip (d := d) hv (stripBoundary_grants hreq hbuf hk hroom)
    obtain ⟨l, o, b, hme⟩ := grantLanes_me s k
    obtain ⟨hx, hpc, hf, hq, hlanes⟩ := relaned_keeps s.me k
    generalize (s.leaveLaneQueue s.cur).setLanes s.cur k = u at hexec hme
    obtain ⟨hset, hv', hp', -⟩ := setLength_leaves (s := s) (u := u) (w := w) (d := d) (req := req)
      (by rw [hme]; exact hx) (by rw [hme]; exact hpc) (by rw [hme]; exact hf) (by rw [hme]; exact hq)
    rw [show u.me.lanes = k by rw [hme]; exact hlanes] at hset
    refine ⟨hfour, hmost, _, ⟨hexec, hset⟩, fun hne r => ?_, fun heq => ?_⟩
    · rw [relaned, if_neg hne] at hme
      exact ⟨by rw [Hart.vimg, hv', hme]; rfl, by rw [Hart.pred, hp', hme]; rfl⟩
    · rw [relaned, if_pos heq] at hme
      exact ⟨by rw [hv', hme], by rw [hp', hme]⟩
  · subst hkeep
    have hjoin : (s.joinLaneQueue s.cur).cur = s.cur := rfl
    obtain ⟨hwait, hpc, hx, hqueue⟩ := waitFor_lanes (s.joinLaneQueue s.cur)
    rw [hjoin] at hwait hpc hx hqueue
    exact ⟨_, execSetvl_waits hv (stripBoundary_waits hreq hbuf hk), hwait, hpc, hx, hqueue ▸ mem_joinLaneQueue s⟩
/-- Settles O26: the lanes of a strip boundary by the arithmetic of R169, and what each word leaves of its hart. -/
theorem lengthsAndSingleValues : Obligations.LengthsAndSingleValues := ⟨setLength_holds, typesAndSingleValues⟩

end Sys2Proof.Claims
end

section
/-!
PROOFS. Accesses of a vector word that pass (spec/08 R174 to R176), and the words that put an entry in the strip store buffer (spec/08
R177, R180, R181).
-/
namespace Sys2Proof.Claims
open Machine

-- Accesses that pass (spec/08 R174, R176) -----------------------------------------------------------------------------------------------------------

theorem alike_checkAll {s t : State} {h : Nat} {o : Orient} {kind : AccKind} {st : Bool} {l : List Acc1} {rs : List (Acc1 × Except Bad Trans)}
    (hc : s.checkAll h o kind st l = (rs, t)) : Alike s t := by
  induction l generalizing s rs with
  | nil => exact (Prod.mk.inj hc).2 ▸ alike_refl s
  | cons a l ih =>
    rw [State.checkAll] at hc
    generalize hx : s.check h a.ea a.size o kind (if st then a.size else 0) (s.hart h).sup = x at hc
    obtain ⟨r, s1⟩ := x
    generalize hy : s1.checkAll h o kind st l = y at hc
    obtain ⟨rs', s2⟩ := y
    obtain rfl : s2 = t := by rw [← (Prod.mk.inj hc).2, hy]
    exact (alike_of_offWalk (offWalk_check hx)).trans (ih hy)
theorem goodOnes_zip (l : List Acc1) (ps : List Trans) : goodOnes (l.zip (ps.map .ok)) = l.zip ps := by
  induction l generalizing ps with
  | nil => rfl
  | cons a l ih =>
    cases ps with
    | nil => rfl
    | cons p ps => exact congrArg ((a, p) :: ·) (ih ps)
theorem firstBad_zip (l : List Acc1) (ps : List Trans) : firstBad (l.zip (ps.map .ok)) = none := by
  induction l generalizing ps with
  | nil => rfl
  | cons a l ih =>
    cases ps with
    | nil => rfl
    | cons p ps => exact ih ps
theorem vectorHits_none {s : State} {l : List Acc1} {ld st : Bool} (h : ∀ a ∈ l, s.watchHits s.cur a.ea a.size ld st = 0) :
    s.vectorHits l ld st = (0, 0, none) := by
  rw [State.vectorHits]
  induction l with
  | nil => rfl
  | cons a l ih =>
    rw [List.foldl_cons, if_pos (h a List.mem_cons_self)]
    exact ih fun b hb => h b (List.mem_cons_of_mem _ hb)
theorem watchVector_ok {s : State} {l : List Acc1} {ld st : Bool} (h : ∀ a ∈ l, s.watchHits s.cur a.ea a.size ld st = 0) :
    watchVector l ld st s = .ok ((), s) := by
  simp [watchVector, vectorHits_none h]
theorem stridedTests_ok {s : State} {m : VMem} {c : Reg} {n : Nat} (emptyToo : Bool) (hn : n ≤ capOf m.t s.me.vtype s.me.lanes)
    (hs : StrideOk s m c) : stridedTests m c n emptyToo s = .ok ((), s) := by
  have hstride : ¬ (((m.o = .col ∧ ¬ c = 0#5) ∧ ¬ (s.me.readX c).toNat % 4096 = 0) ∧ (emptyToo = true ∨ ¬ n = 0)) :=
    fun ⟨⟨⟨ho, hc⟩, hne⟩, _⟩ => hne (hs ho hc)
  simp [stridedTests, Nat.not_lt.2 hn, hstride]
theorem stridedTests_long {s : State} {m : VMem} {c : Reg} {n : Nat} {emptyToo : Bool} (hn : capOf m.t s.me.vtype s.me.lanes < n)
    (hc : s.copying s.cur = false) :
    stridedTests m c n emptyToo s = .error (s.takeTrap s.cur { cause := 0x11, value := BitVec.ofNat 64 n, tpc := s.me.pc }) := by
  simp [stridedTests, hn, trap_takes hc]
/-- The checks of accesses that all pass leave a state alike. -/
theorem AllPass.checked {s : State} {m : VMem} {st : Bool} {l : List Acc1} {ps : List Trans} (h : AllPass s m.o st l ps) :
    ∃ s1, checked m st l s = .ok (l.zip (ps.map .ok), s1) ∧ Alike s s1 := by
  obtain ⟨-, -, -, ⟨s1, hcheck⟩, -, -⟩ := h
  exact ⟨s1, by simp only [Machine.checked, hcheck], alike_checkAll hcheck⟩
theorem AllPass.hits {s u : State} {o : Orient} {st : Bool} {l : List Acc1} {ps : List Trans} (h : AllPass s o st l ps) (hu : Alike s u) :
    ∀ a ∈ l, u.watchHits u.cur a.ea a.size (!st) st = 0 := by
  obtain ⟨-, -, -, -, hhits, -⟩ := h
  intro a ha
  rw [hu.cur, hu.watchHits]
  exact hhits a ha
/-- Of accesses that all pass and that no watchpoint holds back, all complete. -/
theorem splitElems_zip {s : State} {l : List Acc1} {ps : List Trans} {ld st : Bool}
    (h : ∀ a ∈ l, s.watchHits s.cur a.ea a.size ld st = 0) : s.splitElems (l.zip (ps.map .ok)) ld st = (l.zip ps, none) := by
  have hgood : (l.zip ps).filter (fun x => !(s.watchHits s.cur x.1.ea x.1.size ld st != 0)) = l.zip ps :=
    List.filter_eq_self.2 fun x hx => by simp [h x.1 (List.of_mem_zip hx).1]
  rw [State.splitElems]
  refine Prod.ext (by simp only [goodOnes_zip, hgood]) (List.findSome?_eq_none_iff.2 fun x hx => ?_)
  obtain ⟨hl, hr⟩ := List.of_mem_zip hx
  obtain ⟨p, -, hp⟩ := List.mem_map.1 hr
  simp [← hp, h x.1 hl]
theorem indexedRows_ok {s : State} (h : lengthOf s.me ≤ 32 * s.me.lanes) : indexedRows s = .ok (lengthOf s.me, s) := by
  have hmax : vlmax 3 0 s.me.lanes = 32 * s.me.lanes := by
    simp only [vlmax]
    norm_num
    omega
  have hrows : s.me.rows = lengthOf s.me := rfl
  simp [indexedRows, hmax, hrows, Nat.not_lt.2 h]
theorem indexedRows_long {s : State} (h : 32 * s.me.lanes < lengthOf s.me) (hc : s.copying s.cur = false) :
    indexedRows s = .error (s.takeTrap s.cur { cause := 0x11, value := BitVec.ofNat 64 (lengthOf s.me), tpc := s.me.pc }) := by
  have hmax : vlmax 3 0 s.me.lanes = 32 * s.me.lanes := by
    simp only [vlmax]
    norm_num
    omega
  have hrows : s.me.rows = lengthOf s.me := rfl
  simp [indexedRows, hmax, hrows, h, trap_takes hc, -bind_pure_comp]

-- Planes (spec/08 R175, R177) -----------------------------------------------------------------------------------------------------------------------

/-- Entry j of row q in a table laid out row by row. -/
theorem getElem?_rows {α : Type} (f : Nat → Nat → α) (b : Nat) {a q j : Nat} (hq : q < a) (hj : j < b) :
    ((upTo a).flatMap fun q => (upTo b).map (f q))[q * b + j]? = some (f q j) := by
  have hlen : ∀ a, ((upTo a).flatMap fun q => (upTo b).map (f q)).length = a * b := fun a => by simp [upTo, List.length_flatMap]
  induction a with
  | zero => omega
  | succ a ih =>
    rw [show upTo (a + 1) = upTo a ++ [a] from List.range_succ, List.flatMap_append]
    obtain hlt | rfl : q < a ∨ q = a := by omega
    · have hbound : q * b + j < a * b := by nlinarith
      rw [List.getElem?_append_left (by rw [hlen]; exact hbound)]
      exact ih hlt
    · rw [List.getElem?_append_right (by rw [hlen]; omega), hlen, Nat.add_sub_cancel_left]
      simp [upTo, hj]
theorem length_accesses_planes {h : Hart} {m : VMem} {c : Reg} {n : Nat} (hq : m.t = .q) :
    (accesses h m c n).length = vtQw h.vtype * planeBytes n := by
  simp [accesses, hq, upTo, List.length_flatMap]
theorem getElem?_accesses_planes {h : Hart} {m : VMem} {c : Reg} {n q j : Nat} (hm : m.t = .q) (hq : q < vtQw h.vtype) (hj : j < planeBytes n) :
    (accesses h m c n)[q * planeBytes n + j]? = some ⟨q, planeAddr h m c n q + BitVec.ofNat 64 j, 1, 8 * j, q⟩ := by
  rw [accesses, if_pos hm]
  exact getElem?_rows (fun q j => (⟨q, planeAddr h m c n q + BitVec.ofNat 64 j, 1, 8 * j, q⟩ : Acc1)) _ hq hj
theorem mem_byRows {α : Type} {n qw : Nat} {l : List α} {z : α} :
    z ∈ byRows n qw l ↔ ∃ j < planeBytes n, ∃ q < qw, l[q * planeBytes n + j]? = some z := by
  simp [byRows, upTo, List.mem_flatMap, List.mem_filterMap]
section
variable {h : Hart} {m : VMem} {c : Reg} {n : Nat} {ps : List Trans} (hm : m.t = .q)
include hm
theorem byRows_access {q j : Nat} {z : Acc1 × Trans} (hq : q < vtQw h.vtype) (hj : j < planeBytes n)
    (hz : ((accesses h m c n).zip ps)[q * planeBytes n + j]? = some z) : z.1.size = 1 ∧ z.1.row = 8 * j ∧ z.1.plane = q := by
  have hacc := (List.getElem?_zip_eq_some.1 hz).1
  rw [getElem?_accesses_planes hm hq hj] at hacc
  rw [← Option.some.inj hacc]
  exact ⟨rfl, rfl, rfl⟩
/-- Ordered by rows, the accesses of the planes are the same. -/
theorem mem_byRows_zip {z : Acc1 × Trans} : z ∈ byRows n (vtQw h.vtype) ((accesses h m c n).zip ps) ↔ z ∈ (accesses h m c n).zip ps := by
  rw [mem_byRows]
  refine ⟨fun ⟨j, _, q, _, hz⟩ => List.mem_of_getElem? hz, fun hz => ?_⟩
  obtain ⟨i, hi⟩ := List.mem_iff_getElem?.1 hz
  have hlen : i < vtQw h.vtype * planeBytes n := by
    rw [← length_accesses_planes hm (m := m) (c := c)]
    exact (List.getElem?_eq_some_iff.1 (List.getElem?_zip_eq_some.1 hi).1).1
  have hpos : 0 < planeBytes n := Nat.pos_of_ne_zero fun e => by simp [e] at hlen
  refine ⟨i % planeBytes n, Nat.mod_lt _ hpos, i / planeBytes n, Nat.div_lt_of_lt_mul (by rwa [Nat.mul_comm]), ?_⟩
  rw [Nat.mul_comm, Nat.div_add_mod]
  exact hi
theorem byRows_sorted : ((byRows n (vtQw h.vtype) ((accesses h m c n).zip ps)).map (·.1.row)).Pairwise (· ≤ ·) := by
  have hrow : ∀ j ∈ upTo (planeBytes n), ∀ z ∈ (upTo (vtQw h.vtype)).filterMap (fun q => ((accesses h m c n).zip ps)[q * planeBytes n + j]?),
      z.1.row = 8 * j := by
    intro j hj z hz
    obtain ⟨q, hq, hz⟩ := List.mem_filterMap.1 hz
    exact (byRows_access hm (List.mem_range.1 hq) (List.mem_range.1 hj) hz).2.1
  rw [byRows, List.pairwise_map, List.pairwise_flatMap]
  refine ⟨fun j hj => List.Pairwise.imp_of_mem (fun hx hy _ => ?_) (List.pairwise_of_forall fun _ _ => trivial),
    List.Pairwise.imp_of_mem (fun hi hj hlt x hx y hy => ?_) (List.pairwise_lt_range (n := planeBytes n))⟩
  · rw [hrow j hj _ hx, hrow j hj _ hy]
  · rw [hrow _ hi _ hx, hrow _ hj _ hy]
    omega
end

end Sys2Proof.Claims
end

section
/-!
PROOFS. vst, vst.mc and vstx (spec/08 R177, R179 to R181).
-/
namespace Sys2Proof.Claims
open Machine

-- What a word leaves that is charged and goes on ----------------------------------------------------------------------------------------------------

theorem Alike.copying {s u : State} (h : Alike s u) (k : Nat) : u.copying k = s.copying k :=
  congrArg (fun l : List Copy => l.any fun c => c.hart == k) (congrArg Cluster.copies (h.clusters (clusterOf k)) :)
theorem Alike.readX {s u : State} (h : Alike s u) (r : Reg) : u.readX r = s.readX r := readX_of_me (by rw [h.me]) r
section
variable {u w : State} (h : Charged u w)
include h
theorem Charged.advance_me : w.advance.me = { u.me with ectr := w.me.ectr }.next := by
  rw [State.advance, State.updMe_me]
  exact congrArg Hart.next h.me
theorem Charged.goesOn {s : State} (hx : u.me.x = s.me.x) (hpc : u.me.pc = s.me.pc) (hf : u.me.fpflags = s.me.fpflags) : GoesOn s w.advance := by
  have hme := h.advance_me
  exact ⟨readX_of_me (by rw [hme]; exact hx), by rw [hme]; exact congrArg (· + 4) hpc, by rw [hme]; exact hf, by rw [hme]; exact ⟨rfl, rfl, rfl, rfl, rfl⟩⟩
end
/-- A mask that is not armed is not disarmed. -/
theorem charged_disarm {s : State} (h : s.me.armed = none) : Charged s (s.updMe fun x => { x with armed := none }) where
  cur := rfl
  me := by
    have hme : ({ s.me with armed := none } : Hart) = s.me := by rw [← h]
    rw [State.updMe_me, hme]
  harts _ hne := updMe_other s _ hne
  homes := rfl
  views _ _ := rfl
  lcfg _ := rfl

-- The entry of a strip (spec/08 R177, R180) ---------------------------------------------------------------------------------------------------------

/-- The element that a byte of a plane leaves. -/
def planeElem (h : Hart) (a : Reg) (n now : Nat) (z : Acc1 × Trans) : BufElem where
  va := z.1.ea.toNat
  pa := z.2.pa
  size := z.1.size
  row := z.1.row
  val := bitsAt (h.vimg a) (z.1.plane * slicedRows (vtQw h.vtype) h.lanes + z.1.row) (min 8 (n - z.1.row))
  sliced := true
  at_ := now
/-- The entry that the rows of a word leave. -/
def stripEntry (mc : Bool) (h : Hart) (m : VMem) (a : Reg) (n now : Nat) (l : List (Acc1 × Trans)) : BufEntry :=
  { mc := mc, o := m.o, bytes := entryBytes h m.t n, elems := storeElems h m.t a n now (if m.t = .q then byRows n (vtQw h.vtype) l else l) }
section
variable {mc : Bool} {h : Hart} {m : VMem} {a c : Reg} {n now : Nat} {ps : List Trans}
theorem stripEntry_rows {l : List Acc1} (hm : m.t ≠ .q) (hl : ∀ x ∈ l, x.size = elemBits m.t / 8 ∧ x.row = x.idx) :
    (stripEntry mc h m a n now (l.zip ps)).elems.map (fun y => (y.va, y.pa, y.size, y.row, y.val, y.own)) =
      (l.zip ps).map fun y => (y.1.ea.toNat, y.2.pa, elemBits m.t / 8, y.1.idx, row h a (elemBits m.t) y.1.idx, row h a (elemBits m.t) y.1.idx) := by
  rw [stripEntry, storeElems, if_neg hm, List.map_map]
  refine List.map_congr_left fun y hy => ?_
  obtain ⟨hsize, hrow⟩ := hl y.1 (List.of_mem_zip hy).1
  simp [if_neg hm, hsize, hrow, elem_eq, tyBits_eq]
section
variable (hm : m.t = .q)
include hm
theorem mem_stripEntry {y : BufElem} : y ∈ (stripEntry mc h m a n now ((accesses h m c n).zip ps)).elems ↔
    ∃ z ∈ (accesses h m c n).zip ps, y = planeElem h a n now z := by
  simp only [stripEntry, storeElems, planeElem, List.mem_map, hm, if_true, mem_byRows_zip hm, beq_self_eq_true, eq_comm]
theorem stripEntry_sorted : ((stripEntry mc h m a n now ((accesses h m c n).zip ps)).elems.map (·.row)).Pairwise (· ≤ ·) := by
  rw [stripEntry, storeElems, if_pos hm, List.map_map]
  exact byRows_sorted hm
theorem access_size {z : Acc1 × Trans} (hz : z ∈ (accesses h m c n).zip ps) : z.1.size = 1 := by
  obtain ⟨j, hj, q, hq, hz⟩ := mem_byRows.1 ((mem_byRows_zip hm).2 hz)
  exact (byRows_access hm hq hj hz).1
end
/-- The bits of eight rows of a plane, of those below n. -/
theorem testBit_planeByte (img k r n j : Nat) (hj : j < 8) :
    (bitsAt img (k + r) (min 8 (n - r))).testBit j = (decide (r + j < n) && img.testBit (k + (r + j))) := by
  have hbound : j < min 8 (n - r) ↔ r + j < n := by omega
  simp only [testBit_bitsAt, Nat.add_assoc, hbound]
end

-- The words -----------------------------------------------------------------------------------------------------------------------------------------

/-- A word puts the rows of some accesses in the strip store buffer, or traps where it is full, in a state alike. -/
structure Buffers (i : Instr) (mc : Bool) (a : Reg) (m : VMem) (l : List (Acc1 × Trans)) (s : State) : Prop where
  none : lengthOf s.me = 0 → ∃ s1 w, Alike s s1 ∧ Charged s1 w ∧ exec i s = .next w.advance
  entry : lengthOf s.me ≠ 0 → s.me.buffer.length < 16 → ∃ s1 w now, Alike s s1 ∧
    Charged (s1.updMe fun h => { h with buffer := h.buffer ++ [stripEntry mc s.me m a (lengthOf s.me) now l] }) w ∧ exec i s = .next w.advance
  full : lengthOf s.me ≠ 0 → 16 ≤ s.me.buffer.length → s.copying s.cur = false → ∃ s1, Alike s s1 ∧
    exec i s = .next (s1.takeTrap s.cur { cause := 0x14, value := 16, tpc := s.me.pc })
theorem bufferFull_ok {s : State} (h : s.me.buffer.length < 16) : bufferFull s = .ok ((), s) := by
  simp [bufferFull, Nat.not_le.2 h]
theorem bufferFull_traps {s : State} (h : 16 ≤ s.me.buffer.length) (hc : s.copying s.cur = false) :
    bufferFull s = .error (s.takeTrap s.cur { cause := 0x14, value := 16, tpc := s.me.pc }) := by
  simp [bufferFull, h, trap_takes hc]
theorem stripStore_buffers {i : Instr} {mc : Bool} {a c : Reg} {m : VMem} {s : State} {ps : List Trans} (hi : exec i s = stripStore mc a c m s)
    (hown : s.me.own = s.me.ctx) (hn : lengthOf s.me ≤ capOf m.t s.me.vtype s.me.lanes) (hs : StrideOk s m c)
    (hp : AllPass s m.o true (accesses s.me m c (lengthOf s.me)) ps) : Buffers i mc a m ((accesses s.me m c (lengthOf s.me)).zip ps) s := by
  obtain ⟨s1, hcheck, hs1⟩ := hp.checked
  have hrows : s.me.rows = lengthOf s.me := rfl
  have hwatch : watchVector _ false true s1 = .ok ((), s1) := watchVector_ok (hp.hits hs1)
  have htests := stridedTests_ok false hn hs
  have hcur : s1.cur = s.cur := hs1.cur
  have hme : s1.me = s.me := hs1.me
  generalize hlen : lengthOf s.me = n at *
  constructor <;> rw [hlen, hi]
  case none =>
    rintro rfl
    refine ⟨s1, _, hs1, (charged_chargeMe s1 3 (elemCount s1.me m.t 0)).trans (charged_bumpMe _ 1 1), ?_⟩
    simp [stripStore, finish, needOwner_ok hown, hrows, htests, hcheck, firstBad_zip, hwatch]
  case entry =>
    intro h0 hlt
    rw [← hme] at hlt
    refine ⟨s1, _, s1.now, hs1, (charged_chargeMe _ 3 (elemCount s1.me m.t n)).trans (charged_bumpMe _ 1 1), ?_⟩
    simp [stripStore, finish, needOwner_ok hown, hrows, htests, hcheck, firstBad_zip, hwatch, h0, bufferFull_ok hlt, goodOnes_zip, stripEntry, hme]
    rfl
  case full =>
    intro h0 hge hc
    rw [← hme] at hge
    have hc' : s1.copying s1.cur = false := by rw [hcur, hs1.copying, hc]
    refine ⟨s1, hs1, ?_⟩
    simp [stripStore, finish, needOwner_ok hown, hrows, htests, hcheck, firstBad_zip, hwatch, h0, bufferFull_traps hge hc', hme, hcur]
theorem execVstx_buffers {a c : Reg} {m : VMem} {s : State} {ps : List Trans} (hown : s.me.own = s.me.ctx) (harmed : s.me.armed = none)
    (hm : m.t ≠ .q) (hn : lengthOf s.me ≤ 32 * s.me.lanes) (hp : AllPass s m.o true (indexed s.me m c (lengthOf s.me)) ps) :
    Buffers (.vstx a c m) false a m ((indexed s.me m c (lengthOf s.me)).zip ps) s := by
  obtain ⟨s1, hcheck, hs1⟩ := hp.checked
  have hi : exec (.vstx a c m) s = execVstx a c m s := rfl
  have hindexed := indexedRows_ok hn
  have hsplit : s1.splitElems ((indexed s.me m c (lengthOf s.me)).zip (ps.map .ok)) false true = _ := splitElems_zip (hp.hits hs1)
  have hcur : s1.cur = s.cur := hs1.cur
  have hme : s1.me = s.me := hs1.me
  generalize hlen : lengthOf s.me = n at *
  constructor <;> rw [hlen, hi]
  case none =>
    rintro rfl
    refine ⟨s, _, alike_refl s, (charged_disarm harmed).trans (charged_bumpMe _ 1 1), ?_⟩
    simp [execVstx, finish, needOwner_ok hown, hindexed, endIndexed]
  case entry =>
    intro h0 hlt
    have hdisarm : ((s1.updMe fun h => { h with buffer := h.buffer ++ [stripEntry false s.me m a n s1.now ((indexed s.me m c n).zip ps)] }).chargeMe 3
        ((indexed s.me m c n).zip ps).length).me.armed = none := by
      rw [chargeMe_me, State.updMe_me, hme]
      exact harmed
    refine ⟨s1, _, s1.now, hs1, ((charged_chargeMe _ 3 _).trans (charged_disarm hdisarm)).trans (charged_bumpMe _ 1 1), ?_⟩
    simp [execVstx, finish, needOwner_ok hown, hindexed, h0, harmed, bufferFull_ok hlt, hcheck, hsplit, awaitCopies, endIndexed, scatterInto,
      stripEntry, entryBytes, hm, hme]
  case full =>
    intro h0 hge hc
    refine ⟨s, alike_refl s, ?_⟩
    simp [execVstx, finish, needOwner_ok hown, hindexed, h0, harmed, bufferFull_traps hge hc]

theorem accesses_elem {h : Hart} {m : VMem} {c : Reg} {n : Nat} (hm : m.t ≠ .q) :
    ∀ x ∈ accesses h m c n, x.size = elemBits m.t / 8 ∧ x.row = x.idx := by
  intro x hx
  rw [accesses, if_neg hm] at hx
  obtain ⟨i, -, rfl⟩ := List.mem_map.1 hx
  exact ⟨by rw [← tyBits_eq]; rfl, rfl⟩
theorem indexed_elem {h : Hart} {m : VMem} {b : Reg} {n : Nat} : ∀ x ∈ indexed h m b n, x.size = elemBits m.t / 8 ∧ x.row = x.idx := by
  intro x hx
  obtain ⟨i, -, rfl⟩ := List.mem_map.1 hx
  exact ⟨by rw [← tyBits_eq]; rfl, rfl⟩
/-- What a word that puts an entry in the buffer leaves of a hart and of memory. -/
theorem Buffers.leaves {i : Instr} {mc : Bool} {a : Reg} {m : VMem} {l : List (Acc1 × Trans)} {s : State} (h : Buffers i mc a m l s) :
    (lengthOf s.me = 0 → ∃ t, exec i s = .next t ∧ GoesOn s t ∧ t.me.buffer = s.me.buffer) ∧
    (lengthOf s.me ≠ 0 → s.me.buffer.length < 16 → ∃ t now, exec i s = .next t ∧ GoesOn s t ∧ t.me.v = s.me.v ∧ t.mem = s.mem ∧
      (∀ k b, t.clusterByte k b = s.clusterByte k b) ∧ t.me.buffer = s.me.buffer ++ [stripEntry mc s.me m a (lengthOf s.me) now l]) ∧
    (lengthOf s.me ≠ 0 → 16 ≤ s.me.buffer.length → s.copying s.cur = false → ∃ u : State, (∀ r, u.readX r = s.readX r) ∧
      u.me.buffer = s.me.buffer ∧ exec i s = .next (u.takeTrap s.cur { cause := 0x14, value := 16, tpc := s.me.pc })) := by
  refine ⟨fun h0 => ?_, fun h0 hlt => ?_, fun h0 hge hc => ?_⟩
  · obtain ⟨s1, w, hs1, hw, he⟩ := h.none h0
    have hme := hw.advance_me
    rw [hs1.me] at hme
    exact ⟨_, he, hw.goesOn (by rw [hs1.me]) (by rw [hs1.me]) (by rw [hs1.me]), by rw [hme]; rfl⟩
  · obtain ⟨s1, w, now, hs1, hw, he⟩ := h.entry h0 hlt
    have hme := hw.advance_me
    rw [State.updMe_me, hs1.me] at hme
    refine ⟨_, now, he, hw.goesOn (by rw [State.updMe_me, hs1.me]) (by rw [State.updMe_me, hs1.me]) (by rw [State.updMe_me, hs1.me]),
      by rw [hme]; rfl, ?_, fun k b => (hw.views k b).trans (hs1.clusterByte k b), by rw [hme]; rfl⟩
    exact hw.homes.trans (congrArg State.mem hs1.state :)
  · obtain ⟨s1, hs1, he⟩ := h.full h0 hge hc
    exact ⟨s1, hs1.readX, by rw [hs1.me], he⟩
/-- The entry has what R177 and R180 say of the elements and the planes. -/
theorem stripEntry_holds {mc : Bool} {s : State} {m : VMem} {a c : Reg} {n now : Nat} {l : List Acc1} {ps : List Trans}
    (hl : m.t ≠ .q → ∀ x ∈ l, x.size = elemBits m.t / 8 ∧ x.row = x.idx) (hq : m.t = .q → l = accesses s.me m c n) :
    let e := stripEntry mc s.me m a n now (l.zip ps)
    (m.t ≠ .q → m.t ≠ .pr → e.elems.map (fun y => (y.va, y.pa, y.size, y.row, y.val, y.own)) =
      (l.zip ps).map fun y => (y.1.ea.toNat, y.2.pa, elemBits m.t / 8, y.1.idx, row s.me a (elemBits m.t) y.1.idx, row s.me a (elemBits m.t) y.1.idx)) ∧
    (m.t = .q → (e.elems.map (·.row)).Pairwise (· ≤ ·)) ∧
    (m.t = .q → ∀ z ∈ l.zip ps, ∃ y ∈ e.elems, y.va = z.1.ea.toNat ∧ y.pa = z.2.pa ∧ y.row = z.1.row) ∧
    (m.t = .q → ∀ y ∈ e.elems, ∃ z ∈ l.zip ps, y.va = z.1.ea.toNat ∧ y.pa = z.2.pa ∧ y.size = 1 ∧ y.row = z.1.row ∧
      ∀ j, j < 8 → y.val.testBit j = (decide (y.row + j < n) &&
        planeBit (s.me.vimg a) (slicedRows (s.me.vtype.toNat % 32) s.me.lanes) z.1.plane (y.row + j))) := by
  refine ⟨fun hm _ => stripEntry_rows hm (hl hm), fun hm => ?_, fun hm z hz => ?_, fun hm y hy => ?_⟩
  · rw [hq hm]
    exact stripEntry_sorted hm
  · rw [hq hm] at hz ⊢
    exact ⟨_, (mem_stripEntry hm).2 ⟨z, hz, rfl⟩, rfl, rfl, rfl⟩
  · rw [hq hm] at hy ⊢
    obtain ⟨z, hz, rfl⟩ := (mem_stripEntry hm).1 hy
    refine ⟨z, hz, rfl, rfl, access_size hm hz, rfl, fun j hj => ?_⟩
    rw [← vtQw_eq]
    exact testBit_planeByte _ _ _ _ _ hj
/-- Settles O30: every word leaves one entry of its strip, whose elements are those of its accesses in the order of their rows. -/
theorem vectorStoreWords : Obligations.VectorStoreWords := by
  intro a c m s ps hown harmed n strided scattered x hx hscatter hstrip hpass
  obtain ⟨i, mc, l⟩ := x
  have buffers : Buffers i mc a m (l.zip ps) s ∧ (m.t ≠ .q → ∀ x ∈ l, x.size = elemBits m.t / 8 ∧ x.row = x.idx) ∧ (m.t = .q → l = strided) := by
    simp only [List.mem_cons, List.not_mem_nil, or_false, Prod.mk.injEq] at hx
    obtain ⟨rfl, rfl, rfl⟩ | ⟨rfl, rfl, rfl⟩ | ⟨rfl, rfl, rfl⟩ := hx
    · obtain ⟨hn, hs⟩ := hstrip (by simp)
      exact ⟨stripStore_buffers rfl hown hn hs hpass, accesses_elem, fun _ => rfl⟩
    · obtain ⟨hn, hs⟩ := hstrip (by simp)
      exact ⟨stripStore_buffers rfl hown hn hs hpass, accesses_elem, fun _ => rfl⟩
    · obtain ⟨hq, -, hn⟩ := hscatter rfl
      exact ⟨execVstx_buffers hown harmed hq hn hpass, fun _ => indexed_elem, fun h => absurd h hq⟩
  obtain ⟨hb, hl, hq⟩ := buffers
  obtain ⟨hnone, hentry, hfull⟩ := hb.leaves
  refine ⟨hnone, fun h0 hlt => ?_, hfull⟩
  obtain ⟨t, now, he, hgo, hv, hmem, hviews, hbuf⟩ := hentry h0 hlt
  exact ⟨t, _, he, hgo, hv, hmem, hviews, hbuf, rfl, rfl, stripEntry_holds hl hq⟩

end Sys2Proof.Claims
end

section
/-!
PROOFS. What vector loads bring into a cluster without dirty bytes (spec/12 R247, R254): a line may leave for one that enters, and every
byte reads as before.
-/
namespace Sys2Proof.Claims
open Machine

-- Bytes that read as before -------------------------------------------------------------------------------------------------------------------------

theorem SameViews.cur {s t : State} (h : SameViews s t) : t.cur = s.cur := (congrArg State.cur h.state :)
theorem SameViews.me {s t : State} (h : SameViews s t) : t.me = s.me := by
  have hharts : t.harts = s.harts := (congrArg State.harts h.state :)
  rw [State.me, State.me, h.cur, State.hart, State.hart, hharts]
theorem SameViews.unmarked_of {s t : State} (h : SameViews s t) {b : Nat} (hb : Unmarked s b) : Unmarked t b := by
  obtain ⟨hhome, hmark⟩ := hb
  refine ⟨by rw [h.cur, homePoison_congr h.state h.failures, hhome], ?_⟩
  rw [h.cur, ← Bool.not_eq_true, List.contains_iff_mem] at *
  exact mt (h.marks _ _) hmark

-- Clusters without dirty bytes ----------------------------------------------------------------------------------------------------------------------

/-- No cluster holds a byte that its home does not: nothing is on its way home, every line is clean, and every byte reads as below. -/
structure Mirrored (s : State) : Prop where
  drains : s.drains = []
  clean : ∀ k, ∀ l ∈ (s.cluster k).lines, l.dirty = 0
  atomLines : ∀ k, (s.cluster k).atomLines = []
  dcacheKeys : ∀ k, s.dcacheKeys k = []
  views : ∀ k b, s.clusterByte k b = s.belowByte k b
theorem mirrored_of_bare {s : State} (h : Bare s) : Mirrored s := by
  obtain ⟨hdrains, hclusters⟩ := h
  refine ⟨hdrains, fun k l hl => ?_, fun k => (hclusters k).2.1, fun k => (hclusters k).2.2.2, fun k b => ?_⟩
  · rw [(hclusters k).1] at hl
    cases hl
  · obtain ⟨hlines, hatom, -, hkeys⟩ := hclusters k
    rw [State.clusterByte, State.resident, hlines, hatom, hkeys]
    rfl
/-- Where every byte reads as before and the lines are clean, a mirrored state stays one. -/
theorem Mirrored.of_views {s t : State} (h : Mirrored s) (hv : SameViews s t) (hclean : ∀ k, ∀ l ∈ (t.cluster k).lines, l.dirty = 0)
    (hatom : ∀ k, (t.cluster k).atomLines = []) (hkeys : ∀ k, t.dcacheKeys k = []) : Mirrored t where
  drains := (congrArg State.drains hv.state :).trans h.drains
  clean := hclean
  atomLines := hatom
  dcacheKeys := hkeys
  views k b := by rw [hv.views, h.views, belowByte_congr hv.state]
/-- In a mirrored state every copy is current. -/
theorem Mirrored.read {s : State} (h : Mirrored s) {k b : Nat} (hres : s.resident k b = true) :
    Memory.read (s.cluster k).bytes b = s.belowByte k b := by
  have hview := h.views k b
  rwa [State.clusterByte, if_pos hres] at hview
theorem Mirrored.current {s : State} (h : Mirrored s) (pas : List Nat) : Current s pas := fun _ _ _ _ _ _ hres _ => h.read hres

-- A clean line leaves (spec/12 R254) ----------------------------------------------------------------------------------------------------------------

/-- A cluster whose lines, marks and tracks are fewer. -/
theorem sameViews_dropLines {s : State} (h : Mirrored s) {k : Nat} {c : Cluster} (hlines : ∀ l ∈ c.lines, l ∈ (s.cluster k).lines)
    (hatom : c.atomLines = []) (hbytes : c.bytes = (s.cluster k).bytes) (hpoison : c.poison = (s.cluster k).poison) : SameViews s (s.setCluster k c) where
  state := rfl
  failures _ := rfl
  cores _ := rfl
  views j b := by
    have fewer : (s.setCluster k c).resident j b = true → s.resident j b = true := by
      intro hres
      rw [State.resident, State.setCluster_cluster] at hres
      rw [State.resident]
      split at hres
      next hj =>
        subst hj
        have hkeys : (s.setCluster j c).dcacheKeys j = s.dcacheKeys j := rfl
        rw [hatom, hkeys, h.dcacheKeys] at hres
        simp only [List.any_nil, Bool.or_false, List.any_eq_true] at hres
        obtain ⟨l, hl, hb⟩ := hres
        have hin : (s.cluster j).lines.any (fun l => l.key.holds b) = true := List.any_eq_true.2 ⟨l, hlines l hl, hb⟩
        simp [hin]
      next => exact hres
    rw [h.views, State.clusterByte, belowByte_congr (s := s) rfl]
    split
    next hres =>
      rw [← h.read (fewer hres), State.setCluster_cluster]
      split
      next hj => rw [hj, hbytes]
      next => rfl
    next => rfl
  marks j x hx := by
    rw [State.setCluster_cluster] at hx
    split at hx
    next hj => exact hj ▸ hpoison ▸ hx
    next => exact hx
/-- Where no data cache holds a line, lines leave their cluster alone. -/
theorem removeLines_eq {s : State} {k : Nat} (h : s.dcacheKeys k = []) (p : LineKey → Bool) : ∃ touched writers pas, s.removeLines k p =
    (s.setCluster k { s.cluster k with
      lines := (s.cluster k).lines.filter fun l => !p l.key, atomLines := (s.cluster k).atomLines.filter fun l => !p l.key,
      touched := touched, writers := writers }).forget k pas := by
  have nothing : ∀ (l : List Nat) (u : State), (∀ j ∈ l, (u.core j).dcache = []) → l.foldl (fun s j =>
      if (s.core j).dcache.any p then s.updCore j fun x => { x with dcache := x.dcache.filter fun l => !p l } else s) u = u := by
    intro l u hu
    induction l with
    | nil => rfl
    | cons j l ih =>
      rw [List.foldl_cons, hu j List.mem_cons_self, if_neg (by simp)]
      exact ih fun i hi => hu i (List.mem_cons_of_mem _ hi)
  have hempty : ∀ j ∈ coresOfCluster k, (s.core j).dcache = [] := List.flatMap_eq_nil_iff.1 h
  unfold State.removeLines
  dsimp only
  rw [nothing _ (s.setCluster k _) hempty, State.retouch, State.updCluster_eq, setCluster_setCluster, State.setCluster_cluster, if_pos rfl]
  exact ⟨_, _, _, rfl⟩
theorem Mirrored.removeLines {s : State} (h : Mirrored s) (k : Nat) (p : LineKey → Bool) :
    SameViews s (s.removeLines k p) ∧ Mirrored (s.removeLines k p) := by
  obtain ⟨touched, writers, pas, heq⟩ := removeLines_eq (h.dcacheKeys k) p
  have hatom : (s.cluster k).atomLines.filter (fun l => !p l.key) = [] := by
    rw [h.atomLines]
    rfl
  rw [hatom] at heq
  have hviews := (sameViews_dropLines h (c := { s.cluster k with
    lines := (s.cluster k).lines.filter fun l => !p l.key, atomLines := [], touched := touched, writers := writers })
    (fun _ hl => List.mem_of_mem_filter hl) rfl rfl rfl).trans (sameViews_forget _ k pas)
  rw [heq]
  refine ⟨hviews, h.of_views hviews (fun j l hl => ?_) (fun j => ?_) h.dcacheKeys⟩
  · rw [forget_lines, State.setCluster_cluster] at hl
    split at hl
    next hj => exact h.clean k l (List.mem_of_mem_filter hl)
    next => exact h.clean j l hl
  · rw [forget_atomLines, State.setCluster_cluster]
    split
    next => rfl
    next => exact h.atomLines j
theorem Mirrored.evict {s : State} (h : Mirrored s) (k : Nat) (p : LineKey → Bool) : SameViews s (s.evict k p) ∧ Mirrored (s.evict k p) := by
  have hdrain : s.drainLines k p = s := by
    have hclean : ((s.cluster k).linesWhere p).any (fun l => l.dirty != 0) = false := List.any_eq_false.2 fun l hl => by
      rw [Cluster.linesWhere, h.atomLines, List.append_nil] at hl
      simp [h.clean k l (List.mem_of_mem_filter hl)]
    rw [State.drainLines, if_neg (by rw [hclean]; exact Bool.false_ne_true)]
  rw [State.evict, hdrain]
  exact h.removeLines k p

-- A line enters (spec/12 R254) ----------------------------------------------------------------------------------------------------------------------

theorem Mirrored.alike {s t : State} (h : Mirrored s) (ht : Alike s t) : Mirrored t :=
  h.of_views ht.sameViews (fun k l hl => h.clean k l (ht.lines k ▸ hl)) (fun k => (ht.atomLines k).trans (h.atomLines k))
    fun k => (ht.dcacheKeys k).trans (h.dcacheKeys k)
/-- Bytes from below fill a clean line. -/
theorem Mirrored.enter {s : State} (h : Mirrored s) {key : LineKey} (hmark : ∀ b ∈ key.bytes, Unmarked s b) {line : Line} (hkey : line.key = key)
    (hdirty : line.dirty = 0) :
    let t := (s.fillBytes (clusterOf s.cur) key).updCluster (clusterOf s.cur) fun c => { c with lines := line :: c.lines }
    SameViews s t ∧ Mirrored t := by
  obtain ⟨u, d, hfill, hu, hd, hread, hmarks⟩ := fillBytes_eq (h.current key.bytes) hmark fun _ => id
  have hlines : d.lines = (s.cluster (clusterOf s.cur)).lines := (congrArg Cluster.lines hd :).trans (hu.lines _)
  have hatom : d.atomLines = (s.cluster (clusterOf s.cur)).atomLines := (congrArg Cluster.atomLines hd :).trans (hu.atomLines _)
  dsimp only
  rw [hfill, State.updCluster_eq, setCluster_setCluster, State.setCluster_cluster, if_pos rfl]
  have hfilled : Filled s (u.setCluster (clusterOf s.cur) { d with lines := line :: d.lines }) (clusterOf s.cur) key := by
    refine filled_setCluster hu (fun q => ?_) hatom (fun b hb => ?_) (fun b hb hres => ?_) hmarks
    · rw [List.any_cons, Bool.or_comm, hkey, hlines]
    · dsimp only
      rw [hread, hb, if_neg fun h => Bool.noConfusion h.2]
    · dsimp only
      rw [hread, if_pos ⟨mem_bytes_of_holds hb, hres⟩]
  refine ⟨hfilled.sameViews, h.of_views hfilled.sameViews (fun j l hl => ?_) (fun j => (hfilled.atomLines j).trans (h.atomLines j))
    fun j => (hfilled.dcacheKeys j).trans (h.dcacheKeys j)⟩
  rw [State.setCluster_cluster] at hl
  split at hl
  next hj =>
    obtain rfl | hl := List.mem_cons.1 hl
    · exact hdirty
    · exact h.clean _ l (hlines ▸ hl)
  next => exact h.clean j l (hu.lines j ▸ hl)
theorem Mirrored.lineFill {s : State} (h : Mirrored s) {key : LineKey} (o : Bool) (pa : Nat) (hmark : ∀ b ∈ key.bytes, Unmarked s b) :
    SameViews s (s.lineFill (clusterOf s.cur) key o pa) ∧ Mirrored (s.lineFill (clusterOf s.cur) key o pa) := by
  unfold State.lineFill
  split
  case isTrue hin =>
    have hfilled := filled_used hin
    refine ⟨hfilled.sameViews, h.of_views hfilled.sameViews (fun j l hl => ?_) (fun j => (hfilled.atomLines j).trans (h.atomLines j))
      fun j => (hfilled.dcacheKeys j).trans (h.dcacheKeys j)⟩
    rw [State.updCluster_eq, State.setCluster_cluster] at hl
    split at hl
    next hj =>
      obtain ⟨l', hl', rfl⟩ := List.mem_map.1 hl
      split <;> exact h.clean _ l' hl'
    next => exact h.clean j l hl
  case isFalse =>
    have hclass := fillClass_acc s (clusterOf s.cur) key pa
    generalize s.fillClass (clusterOf s.cur) key pa = x at hclass
    obtain ⟨cls, c⟩ := x
    dsimp only at hclass ⊢
    have h1 : Alike s (s.setCluster (clusterOf s.cur) c) :=
      alike_setCluster (by rw [hclass]) (fun b => by rw [hclass]) fun x hx => by rwa [hclass] at hx
    have placed : ∀ u : State, SameViews s u → Mirrored u → ∀ line : Line, line.key = key → line.dirty = 0 →
        SameViews s ((u.fillBytes (clusterOf s.cur) key).updCluster (clusterOf s.cur) fun c => { c with lines := line :: c.lines }) ∧
          Mirrored ((u.fillBytes (clusterOf s.cur) key).updCluster (clusterOf s.cur) fun c => { c with lines := line :: c.lines }) := by
      intro u hu hmu line hkey hdirty
      have hentered := hmu.enter (fun b hb => hu.unmarked_of (hmark b hb)) hkey hdirty
      rw [hu.cur] at hentered
      exact ⟨hu.trans hentered.1, hentered.2⟩
    generalize c.placeFor key cls = place
    obtain ⟨way, out⟩ := place
    cases out with
    | none => exact placed _ h1.sameViews (h.alike h1) _ rfl rfl
    | some v =>
      obtain ⟨hviews, hevict⟩ := (h.alike h1).evict (clusterOf s.cur) fun l => l == v
      exact placed _ (h1.sameViews.trans hviews) hevict _ rfl rfl

end Sys2Proof.Claims
end

section
/-!
PROOFS. What the reads of a vector load give (spec/08 R176), and where a register takes it (spec/08 R174, spec/04 R82).
-/
namespace Sys2Proof.Claims
open Machine

-- Reads one after another (spec/08 R176) ------------------------------------------------------------------------------------------------------------

/-- What the read of an access brings in. -/
def filledFor (t : State) (core : Nat) (o : Orient) (x : Acc1 × Trans) : State :=
  t.loadFill core x.2.pa x.1.size (lineFor o x.1.size x.2.pa) (leafO x.2.leaf) .none false
/-- What the reads of some accesses bring in leaves every byte as each cluster read it, while an invariant of the reads holds. -/
structure QuietReads (s : State) (o : Orient) (l : List (Acc1 × Trans)) (I : State → Prop) : Prop where
  fill : ∀ t x, x ∈ l → SameViews s t → I t → SameViews t (filledFor t (coreOf s.cur) o x) ∧ I (filledFor t (coreOf s.cur) o x)
  touch : ∀ t k core pas, I t → I (t.touch k core pas)
/-- Accesses to ordinary memory whose bytes carry no poison. -/
structure Plain (s : State) (x : Acc1 × Trans) : Prop where
  served : servedBy x.2.pa ≠ .mgmt
  mode : leafC x.2.leaf = 0
  clean : (s.bytesAt (coreOf s.cur) x.2.pa x.1.size).2 = false
  unmarked : ∀ b ∈ (List.range x.1.size).map (x.2.pa + ·), Unmarked s b
theorem Plain.bytesAt {s u : State} {x : Acc1 × Trans} (h : Plain s x) (hu : SameViews s u) :
    u.bytesAt (coreOf s.cur) x.2.pa x.1.size = ((s.bytesAt (coreOf s.cur) x.2.pa x.1.size).1, false) :=
  hu.bytesAt (Prod.ext rfl h.clean) h.unmarked
/-- One read gives what the buffer and memory hold, and nothing that a cluster reads changes. -/
theorem readUnder_gives {s t : State} {o : Orient} {l : List (Acc1 × Trans)} {I : State → Prop} (hq : QuietReads s o l I) {x : Acc1 × Trans} (hx : x ∈ l)
    (hp : Plain s x) (ht : SameViews s t) (hI : I t) :
    ∃ u, t.readUnder x.2 x.1.size o none = (seen s x.2 x.1.size, false, u) ∧ SameViews s u ∧ I u := by
  obtain ⟨hviews, hfill⟩ := hq.fill t x hx ht hI
  have hbytes := hp.bytesAt (ht.trans hviews)
  have hread := (ht.trans hviews).trans (sameViews_touch _ (coreOf s.cur / 8) (coreOf s.cur) ((upTo x.1.size).map (x.2.pa + ·)))
  refine ⟨_, ?_, hread, hq.touch _ _ _ _ hfill⟩
  rw [State.readUnder, State.readAt, if_neg hp.served, State.beforeLoad, if_pos hp.mode, ht.cur]
  rw [filledFor] at hbytes
  dsimp only
  rw [hbytes]
  exact congrArg (fun h : Hart => (overlay h.buffer none [] x.2.pa x.1.size (leOf (s.bytesAt (coreOf s.cur) x.2.pa x.1.size).1), false, _)) hread.me
/-- Reads one after another give what the buffer and memory hold at each. -/
theorem readAll_gives {s t : State} {o : Orient} {l : List (Acc1 × Trans)} {I : State → Prop} (hq : QuietReads s o l I) (hp : ∀ x ∈ l, Plain s x)
    (ht : SameViews s t) (hI : I t) : ∃ u, t.readAll o l = (l.map fun x => (x.1, seen s x.2 x.1.size), none, u) ∧ SameViews s u := by
  have each : ∀ (r : List (Acc1 × Trans)) (t : State), (∀ x ∈ r, x ∈ l) → SameViews s t → I t →
      ∃ u, t.readAll o r = (r.map fun x => (x.1, seen s x.2 x.1.size), none, u) ∧ SameViews s u := by
    intro r
    induction r with
    | nil => exact fun t _ ht _ => ⟨t, rfl, ht⟩
    | cons x r ih =>
      intro t hr ht hI
      obtain ⟨t1, hread, ht1, hI1⟩ := readUnder_gives hq (hr x List.mem_cons_self) (hp x (hr x List.mem_cons_self)) ht hI
      obtain ⟨u, hrest, hu⟩ := ih t1 (fun y hy => hr y (List.mem_cons_of_mem _ hy)) ht1 hI1
      refine ⟨u, ?_, hu⟩
      obtain ⟨a, p⟩ := x
      dsimp only at hread
      simp only [State.readAll, hread, hrest, List.map_cons, Bool.false_eq_true, if_false]
  exact each l t (fun _ => id) ht hI
theorem loadFill_uncacheable {t : State} {core pa n : Nat} {key : LineKey} {o : Bool} (h : cacheable pa = false) :
    t.loadFill core pa n key o .none false = t := by
  rw [State.loadFill, h]
  rfl
theorem loadFill_cacheable {t : State} {core pa n : Nat} {key : LineKey} {o : Bool} (h : cacheable pa = true) :
    t.loadFill core pa n key o .none false = t.lineFill (core / 8) key o pa := by
  rw [State.loadFill, h]
  rfl
theorem mirrored_touch {t : State} (h : Mirrored t) (k core : Nat) (pas : List Nat) : Mirrored (t.touch k core pas) := by
  rw [State.touch, State.updCluster_eq]
  exact h.alike (alike_setCluster rfl (fun _ => rfl) fun _ => id)
/-- Reads of a state without dirty bytes are quiet. -/
theorem quiet_mirrored {s : State} {o : Orient} {l : List (Acc1 × Trans)}
    (hmark : ∀ x ∈ l, ∀ b ∈ (lineFor o x.1.size x.2.pa).bytes, Unmarked s b) : QuietReads s o l Mirrored where
  fill t x hx ht hI := by
    unfold filledFor
    by_cases hc : cacheable x.2.pa = true
    · rw [loadFill_cacheable hc, coreOf_clusterOf, ← ht.cur]
      exact hI.lineFill _ _ fun b hb => ht.unmarked_of (hmark x hx b hb)
    · rw [loadFill_uncacheable (Bool.eq_false_iff.2 hc)]
      exact ⟨(alike_refl t).sameViews, hI⟩
  touch t k core pas := fun h => mirrored_touch h k core pas
/-- The lines of some accesses are in the cluster of their hart, where it caches their bytes. -/
def LinesThere (k : Nat) (o : Orient) (l : List (Acc1 × Trans)) (t : State) : Prop :=
  ∀ x ∈ l, cacheable x.2.pa = false ∨ (t.cluster k).lines.any (fun y => y.key == lineFor o x.1.size x.2.pa) = true
theorem quiet_linesThere (s : State) (o : Orient) (l : List (Acc1 × Trans)) :
    QuietReads s o l (LinesThere (clusterOf s.cur) o l) where
  fill t x hx _ hI := by
    unfold filledFor
    obtain hc | hin := hI x hx
    · rw [loadFill_uncacheable hc]
      exact ⟨(alike_refl t).sameViews, hI⟩
    · by_cases hc : cacheable x.2.pa = true
      · rw [loadFill_cacheable hc, coreOf_clusterOf, State.lineFill, if_pos hin]
        have hfilled := filled_used hin
        refine ⟨hfilled.sameViews, fun y hy => (hI y hy).imp_right fun hy => ?_⟩
        rw [hfilled.lines fun k => k == lineFor o y.1.size y.2.pa, hy, Bool.true_or]
      · rw [loadFill_uncacheable (Bool.eq_false_iff.2 hc)]
        exact ⟨(alike_refl t).sameViews, hI⟩
  touch t k core pas hI x hx := by
    refine (hI x hx).imp_right fun hin => ?_
    rw [State.touch, State.updCluster_eq, State.setCluster_cluster]
    split
    next hj => exact hj ▸ hin
    next => exact hin

-- What a register takes (spec/08 R174, spec/04 R82) -------------------------------------------------------------------------------------------------

/-- A row that some of the elements put in name holds what they agree on. -/
theorem elemAt_puts {w i β : Nat} {l : List (Acc1 × Nat)} (hagree : ∀ x ∈ l, x.1.idx = i → x.2 % 2 ^ w = β) {img : Nat}
    (hsome : elemAt img w i = β ∨ ∃ x ∈ l, x.1.idx = i) : elemAt (l.foldl (fun img x => withElem img w x.1.idx x.2) img) w i = β := by
  induction l generalizing img with
  | nil => simpa using hsome
  | cons x l ih =>
    rw [List.foldl_cons]
    refine ih (fun y hy => hagree y (List.mem_cons_of_mem _ hy)) ?_
    rw [elemAt_withElem]
    by_cases hx : i = x.1.idx
    · rw [if_pos hx]
      exact .inl (hagree x List.mem_cons_self hx.symm)
    · rw [if_neg hx]
      obtain h | ⟨y, hy, hi⟩ := hsome
      · exact .inl h
      · obtain rfl | hy := List.mem_cons.1 hy
        · exact absurd hi.symm hx
        · exact .inr ⟨y, hy, hi⟩
/-- A bit that some of the pieces put in cover is what they agree on. -/
theorem testBit_puts {α : Type} {pos width val : α → Nat} {k : Nat} {β : Bool} {l : List α}
    (hagree : ∀ x ∈ l, pos x ≤ k → k < pos x + width x → (val x).testBit (k - pos x) = β) {img : Nat}
    (hsome : img.testBit k = β ∨ ∃ x ∈ l, pos x ≤ k ∧ k < pos x + width x) :
    (l.foldl (fun img x => withBits img (pos x) (width x) (val x)) img).testBit k = β := by
  induction l generalizing img with
  | nil => simpa using hsome
  | cons x l ih =>
    rw [List.foldl_cons]
    refine ih (fun y hy => hagree y (List.mem_cons_of_mem _ hy)) ?_
    rw [testBit_withBits]
    by_cases hcover : pos x ≤ k ∧ k < pos x + width x
    · rw [if_neg (by omega), if_pos hcover.2]
      exact .inl (hagree x List.mem_cons_self hcover.1 hcover.2)
    · obtain h | ⟨y, hy, hi⟩ := hsome
      · refine .inl ?_
        split
        · exact h
        · rw [if_neg (by omega)]
          exact h
      · obtain rfl | hy := List.mem_cons.1 hy
        · exact absurd hi hcover
        · exact .inr ⟨y, hy, hi⟩
theorem seen_lt (s : State) (p : Trans) (n : Nat) : seen s p n < 2 ^ (8 * n) := by
  have h := leOf_lt ((upTo n).map fun i =>
    (bufferedByte s.me.buffer none [] (p.pa + i)).getD (BitVec.ofNat 8 (leOf (s.bytesAt (coreOf s.cur) p.pa n).1 >>> (8 * i))))
  rwa [List.length_map, upTo, List.length_range] at h
theorem seen_element (s : State) (p : Trans) (t : ETy) : seen s p (elemBits t / 8) % 2 ^ elemBits t = seen s p (elemBits t / 8) := by
  refine Nat.mod_eq_of_lt ((seen_lt s p _).trans_eq ?_)
  cases t <;> rfl

/-- What the accesses of a word give. -/
def givenBy (s : State) (l : List (Acc1 × Trans)) : List (Acc1 × Nat) := l.map fun x => (x.1, seen s x.2 x.1.size)
section
variable {s : State} {h : Hart} {t : ETy} {n img : Nat} {l : List Acc1} {ps : List Trans} (ht : t ≠ .q)
include ht
theorem putLoaded_elements (r : List (Acc1 × Trans)) : putLoaded h t n img (givenBy s r) =
    (givenBy s r).foldl (fun img x => withElem img (elemBits t) x.1.idx x.2) img := by
  rw [putLoaded, if_neg ht, tyBits_eq]
/-- The element of an access takes what it found. -/
theorem putLoaded_access (hsize : ∀ a ∈ l, a.size = elemBits t / 8) (hidx : (l.map (·.idx)).Nodup) {z : Acc1 × Trans} (hz : z ∈ l.zip ps) :
    elemAt (putLoaded h t n img (givenBy s (l.zip ps))) (elemBits t) z.1.idx = seen s z.2 (elemBits t / 8) := by
  rw [putLoaded_elements ht]
  refine elemAt_puts (fun x hx hi => ?_) (.inr ⟨_, List.mem_map.2 ⟨z, hz, rfl⟩, rfl⟩)
  obtain ⟨y, hy, rfl⟩ := List.mem_map.1 hx
  obtain ⟨i, hyi⟩ := List.mem_iff_getElem?.1 hy
  obtain ⟨j, hzj⟩ := List.mem_iff_getElem?.1 hz
  obtain ⟨hyl, hyp⟩ := List.getElem?_zip_eq_some.1 hyi
  obtain ⟨hzl, hzp⟩ := List.getElem?_zip_eq_some.1 hzj
  obtain rfl : i = j := by
    have hlt : i < (l.map (·.idx)).length := by
      rw [List.length_map]
      exact (List.getElem?_eq_some_iff.1 hyl).1
    refine (List.getElem?_inj hlt hidx).1 ?_
    rw [List.getElem?_map, List.getElem?_map, hyl, hzl]
    exact congrArg some hi
  have hsame : y.2 = z.2 := Option.some.inj (hyp.symm.trans hzp)
  rw [hsize y.1 (List.of_mem_zip hy).1, hsame]
  exact seen_element ..
theorem putLoaded_other {i : Nat} (hi : ∀ a ∈ l, a.idx ≠ i) :
    elemAt (putLoaded h t n img (givenBy s (l.zip ps))) (elemBits t) i = elemAt img (elemBits t) i := by
  rw [putLoaded_elements ht]
  refine elemAt_puts (fun x hx hxi => absurd hxi ?_) (.inl rfl)
  obtain ⟨y, hy, rfl⟩ := List.mem_map.1 hx
  exact hi y.1 (List.of_mem_zip hy).1
end
/-- A row of a plane takes its bit of the byte that its access found. -/
theorem putLoaded_plane {s : State} {h : Hart} {m : VMem} {c : Reg} {n q i img : Nat} {ps : List Trans} {p : Trans} (hm : m.t = .q)
    (hn : n ≤ slicedRows (vtQw h.vtype) h.lanes) (hq : q < vtQw h.vtype) (hi : i < n) (hp : ps[q * planeBytes n + i / 8]? = some p) :
    (putLoaded h m.t n img (givenBy s ((accesses h m c n).zip ps))).testBit (q * slicedRows (vtQw h.vtype) h.lanes + i) =
      (seen s p 1).testBit (i % 8) := by
  have hj : i / 8 < planeBytes n := by
    unfold planeBytes
    omega
  have hacc := getElem?_accesses_planes (c := c) hm hq hj
  have hz := List.getElem?_zip_eq_some (z := (_, p)).2 ⟨hacc, hp⟩
  rw [putLoaded, if_pos hm]
  generalize slicedRows (vtQw h.vtype) h.lanes = M at *
  refine testBit_puts (fun x hx hle hlt => ?_) (.inr ⟨_, List.mem_map.2 ⟨_, List.mem_of_getElem? hz, rfl⟩, ?_⟩)
  · obtain ⟨y, hy, rfl⟩ := List.mem_map.1 hx
    obtain ⟨j', hj', q', hq', hyi⟩ := mem_byRows.1 ((mem_byRows_zip hm).2 hy)
    obtain ⟨hsize, hrow, hplane⟩ := byRows_access hm hq' hj' hyi
    dsimp only at hle hlt ⊢
    rw [hrow, hplane] at hle hlt
    obtain rfl : q' = q := by
      obtain hlow | heq | hhigh := lt_trichotomy q' q
      · have := Nat.mul_le_mul_right M (show q' + 1 ≤ q from hlow)
        rw [Nat.succ_mul] at this
        omega
      · exact heq
      · have := Nat.mul_le_mul_right M (show q + 1 ≤ q' from hhigh)
        rw [Nat.succ_mul] at this
        omega
    obtain rfl : j' = i / 8 := by omega
    have hsame : y.2 = p := Option.some.inj ((List.getElem?_zip_eq_some.1 hyi).2.symm.trans hp)
    rw [hsize, hrow, hplane, hsame, show q' * M + i - (q' * M + 8 * (i / 8)) = i % 8 by omega]
  · dsimp only
    omega
/-- Row by row, the accesses of a strided word. -/
theorem accesses_idx {h : Hart} {m : VMem} {c : Reg} {n : Nat} (hm : m.t ≠ .q) : (accesses h m c n).map (·.idx) = List.range n := by
  rw [accesses, if_neg hm, List.map_map]
  exact List.map_id' _
theorem indexed_idx {h : Hart} {m : VMem} {b : Reg} {n : Nat} :
    (indexed h m b n).map (·.idx) = (List.range n).filter fun i => !(h.armed.getD 0).testBit i := by
  rw [indexed, List.map_map]
  simp only [bitOf_eq]
  exact List.map_id' _

end Sys2Proof.Claims
end

section
/-!
PROOFS. vld, vlff and vldx (spec/08 R174 to R176, R178, R179).
-/
namespace Sys2Proof.Claims
open Machine

-- What holds no load back (spec/13 R264, R265, spec/19 R391) ----------------------------------------------------------------------------------------

theorem Alike.mirrored_of_bare {s u : State} (hu : Alike s u) (h : Bare s) : Mirrored u := (Claims.mirrored_of_bare h).alike hu
section
variable {s : State} {o : Orient} {l : List Acc1} {ps : List Trans} (hp : AllPass s o false l ps)
include hp
theorem AllPass.plain (hc : Clean s o l ps) : ∀ x ∈ l.zip ps, Plain s x := by
  obtain ⟨-, -, -, -, -, hordinary⟩ := hp
  intro x hx
  obtain ⟨hserved, hmode⟩ := hordinary x.2 (List.of_mem_zip hx).2
  obtain ⟨hclean, hmark⟩ := hc x hx
  exact ⟨hserved, hmode, hclean, fun b hb => hmark b (List.mem_append_right _ hb)⟩
theorem AllPass.loadWaits {u : State} (hu : Alike s u) (r : List (Acc1 × Trans)) (rd : Range) (chain : Bool) : loadWaits r rd chain u = .ok ((), u) := by
  obtain ⟨-, hlocks, hjournals, -, -, -⟩ := hp
  have hlocks' : (u.core (coreOf u.cur)).interlocks = [] := by
    rw [hu.cur, hu.cores]
    exact hlocks
  have hjournals' : u.journals = [] := (congrArg State.journals hu.state :).trans hjournals
  have hnone : u.conflicts u.cur rd .empty = [] := by
    rw [State.conflicts, hlocks']
    rfl
  have hlanded : ∀ l, u.landedFor l rd = false := fun l => by rw [State.landedFor, hnone]
  have htable : awaitTable u = .ok ((), u) := awaitTable_ok (by rw [State.myCore, hlocks']; decide)
  have hemit : ∀ pa n, u.emissionMeets u.cur pa n = false := fun pa n => by rw [State.emissionMeets, hjournals']; rfl
  simp [Machine.loadWaits, htable, hlanded, awaitInterlock_ok hnone, hemit]
end
/-- Settled reads are quiet. -/
theorem Settled.quiet {s u : State} {o : Orient} {l : List Acc1} {ps : List Trans} (h : Settled s o l ps) (hc : Clean s o l ps) (hu : Alike s u) :
    ∃ I, QuietReads s o (l.zip ps) I ∧ I u := by
  obtain hbare | hlines := h
  · exact ⟨_, quiet_mirrored fun x hx b hb => (hc x hx).2 b (List.mem_append_left _ hb), hu.mirrored_of_bare hbare⟩
  · exact ⟨_, quiet_linesThere s o (l.zip ps), fun x hx => by rw [hu.lines]; exact hlines x hx⟩

-- What a load leaves (spec/08 R176, spec/11 R239) ---------------------------------------------------------------------------------------------------

/-- t is s after a word that gave V[d] an image, the length and the completion mask some values, and went on. -/
structure Loaded (s t : State) (d : Reg) (img vl : Nat) (ar : Option Nat) : Prop where
  me : ∃ e, t.me = { s.me.setVimg d img with vlen := vl, armed := ar, ectr := e }.next
  harts : ∀ h, h ≠ s.cur → t.hart h = s.hart h
  homes : t.mem = s.mem
  views : ∀ k b, t.clusterByte k b = s.clusterByte k b
section
variable {s t : State} {d : Reg} {img vl : Nat} {ar : Option Nat} (h : Loaded s t d img vl ar)
include h
theorem Loaded.loads (har : ar = none ∨ ar = s.me.armed) : VectorLoads s t d := by
  obtain ⟨⟨e, hme⟩, hharts, hhomes, hviews⟩ := h
  refine ⟨fun r hr => ?_, readX_of_me (by rw [hme]; rfl), by rw [hme]; rfl, by rw [hme]; exact ⟨rfl, rfl, rfl, rfl, rfl⟩, by rw [hme]; rfl,
    by rw [hme]; exact har, hharts, hhomes, hviews⟩
  rw [hme, Hart.vimg]
  exact (Tab.get_put ..).trans (if_neg fun e => hr (BitVec.eq_of_toNat_eq e))
theorem Loaded.vimg : t.me.vimg d = img := by
  obtain ⟨e, hme⟩ := h.me
  rw [hme, Hart.vimg]
  exact (Tab.get_put ..).trans (if_pos rfl)
theorem Loaded.row (w i : Nat) : Claims.row t.me d w i = elemAt img w i := by
  rw [Claims.row, h.vimg, elemAt_eq]
theorem Loaded.vlen : t.me.vlen = vl := by
  obtain ⟨e, hme⟩ := h.me
  rw [hme]
  rfl
theorem Loaded.armed : t.me.armed = ar := by
  obtain ⟨e, hme⟩ := h.me
  rw [hme]
  rfl
end
/-- A register written after reads, by a word that is charged and goes on. -/
theorem loaded_advance {s u w : State} (hu : SameViews s u) {f : Hart → Hart} {d : Reg} {img vl : Nat} {ar : Option Nat} {e : Word}
    (hf : f s.me = { s.me.setVimg d img with vlen := vl, armed := ar, ectr := e }) (hw : Charged (u.updMe f) w) : Loaded s w.advance d img vl ar where
  me := ⟨w.me.ectr, by rw [hw.advance_me, State.updMe_me, hu.me, hf]⟩
  harts k hk := by
    have hku : k ≠ u.cur := fun e => hk (e.trans hu.cur)
    have hkw : k ≠ w.cur := fun e => hku (e.trans hw.cur)
    rw [State.advance, updMe_other _ _ hkw, hw.harts k hku, updMe_other _ _ hku]
    exact hu.charged.harts k hk
  homes := hw.homes.trans hu.charged.homes
  views k b := (hw.views k b).trans (hu.views k b)
theorem loaded_updMe {s t : State} {d : Reg} {img vl : Nat} {ar : Option Nat} (h : Loaded s t d img vl ar) (hcur : t.cur = s.cur) (vl' : Nat) :
    Loaded s (t.updMe fun x => { x with vlen := vl' }) d img vl' ar where
  me := by
    obtain ⟨e, hme⟩ := h.me
    exact ⟨e, by rw [State.updMe_me, hme]; rfl⟩
  harts k hk := by
    rw [updMe_other _ _ (hcur ▸ hk)]
    exact h.harts k hk
  homes := h.homes
  views := h.views
theorem noCapture_updMe {s u : State} (hu : SameViews s u) (hn : NoCapture s) (f : Hart → Hart) : NoCapture (u.updMe f) := fun j => by
  have hcore : (u.core (coreOf u.cur)).lcfg = (s.core (coreOf s.cur)).lcfg := by
    rw [hu.cur]
    exact (congrArg Core.lcfg (hu.cores _) :)
  have hj := hn j
  rw [State.myCore, ← hcore] at hj
  exact hj

/-- The image that the accesses of a word leave in its register. -/
def loadedImage (s : State) (m : VMem) (d : Reg) (n : Nat) (l : List (Acc1 × Trans)) : Nat := putLoaded s.me m.t n (s.me.vimg d) (givenBy s l)
theorem readOp_gives {s t : State} {o : Orient} {l : List (Acc1 × Trans)} {I : State → Prop} (hq : QuietReads s o l I) (hp : ∀ x ∈ l, Plain s x)
    (ht : SameViews s t) (hI : I t) : ∃ u, readOp o l t = .ok (givenBy s l, u) ∧ SameViews s u := by
  obtain ⟨u, hread, hu⟩ := readAll_gives hq hp ht hI
  exact ⟨u, by simp [readOp, hread, givenBy], hu⟩
theorem finishLoad_gives {s t : State} {m : VMem} {l : List (Acc1 × Trans)} {I : State → Prop} (hq : QuietReads s m.o l I) (hp : ∀ x ∈ l, Plain s x)
    (ht : SameViews s t) (hI : I t) (hn : NoCapture s) (d : Reg) (n count : Nat) :
    ∃ w, finishLoad m d n count l t = .ok ((), w) ∧ w.cur = s.cur ∧ Loaded s w d (loadedImage s m d n l) s.me.vlen s.me.armed := by
  obtain ⟨u, hread, hu⟩ := readOp_gives hq hp ht hI
  have hput : (u.updMe fun h => h.setVimg d (putLoaded h m.t n (h.vimg d) (givenBy s l))) = u.updMe fun h => h.setVimg d (loadedImage s m d n l) :=
    updMe_congr (by rw [hu.me]; rfl)
  have hcharged := (charged_chargeMe (u.updMe fun h => h.setVimg d (loadedImage s m d n l)) 3 count).trans (charged_bumpMe _ 1 1)
  have hcapture := hcharged.capture (noCapture_updMe hu hn _) rfl 5
  refine ⟨_, ?_, ?_, loaded_advance hu rfl hcharged⟩
  · simp only [finishLoad, Op.bind_run, hread, upd_run, hput, hcapture]
  · exact hcharged.cur.trans hu.cur

-- vld and vlff (spec/08 R176, R178) -----------------------------------------------------------------------------------------------------------------

theorem take_zip (l : List Acc1) (ps : List Trans) : (l.zip (ps.map Except.ok)).take l.length = l.zip (ps.map (Except.ok : Trans → Except Bad Trans)) :=
  List.take_of_length_le (by rw [List.length_zip]; exact Nat.min_le_left _ _)
section
variable {d c : Reg} {m : VMem} {s : State} {ps : List Trans} (hown : s.me.own = s.me.ctx)
include hown
theorem execVld_long (hn : capOf m.t s.me.vtype s.me.lanes < lengthOf s.me) (hc : s.copying s.cur = false) :
    exec (.vld d c m) s = .next (s.takeTrap s.cur { cause := 0x11, value := BitVec.ofNat 64 (lengthOf s.me), tpc := s.me.pc }) := by
  have hrows : s.me.rows = lengthOf s.me := rfl
  show finish _ s = _
  simp [finish, needOwner_ok hown, hrows, stridedTests_long hn hc]
theorem execVlff_long (hn : capOf m.t s.me.vtype s.me.lanes < lengthOf s.me) (hc : s.copying s.cur = false) :
    exec (.vlff d m) s = .next (s.takeTrap s.cur { cause := 0x11, value := BitVec.ofNat 64 (lengthOf s.me), tpc := s.me.pc }) := by
  have hrows : s.me.rows = lengthOf s.me := rfl
  show finish _ s = _
  simp [finish, needOwner_ok hown, hrows, stridedTests_long hn hc]
variable (hcap : NoCapture s) (hn : lengthOf s.me ≤ capOf m.t s.me.vtype s.me.lanes)
include hcap hn
theorem execVld_loads (hs : StrideOk s m c) (hp : AllPass s m.o false (accesses s.me m c (lengthOf s.me)) ps)
    (hc : Clean s m.o (accesses s.me m c (lengthOf s.me)) ps) (hset : Settled s m.o (accesses s.me m c (lengthOf s.me)) ps) :
    ∃ t, exec (.vld d c m) s = .next t ∧
      Loaded s t d (loadedImage s m d (lengthOf s.me) ((accesses s.me m c (lengthOf s.me)).zip ps)) s.me.vlen s.me.armed := by
  obtain ⟨s1, hcheck, hs1⟩ := hp.checked
  obtain ⟨I, hquiet, hI⟩ := hset.quiet hc hs1
  obtain ⟨w, hfinish, -, hw⟩ := finishLoad_gives hquiet (hp.plain hc) hs1.sameViews hI hcap d (lengthOf s.me) (elemCount s1.me m.t (lengthOf s.me))
  have hrows : s.me.rows = lengthOf s.me := rfl
  have hwatch : watchVector _ true false s1 = .ok ((), s1) := watchVector_ok (hp.hits hs1)
  refine ⟨w, ?_, hw⟩
  show finish _ s = _
  simp [finish, needOwner_ok hown, hrows, stridedTests_ok true hn hs, hcheck, firstBad_zip, goodOnes_zip, hwatch, hp.loadWaits hs1, hfinish]
theorem execVlff_loads (hp : AllPass s m.o false (accesses s.me m 0 (lengthOf s.me)) ps)
    (hc : Clean s m.o (accesses s.me m 0 (lengthOf s.me)) ps) (hset : Settled s m.o (accesses s.me m 0 (lengthOf s.me)) ps) :
    ∃ t, exec (.vlff d m) s = .next t ∧
      Loaded s t d (loadedImage s m d (lengthOf s.me) ((accesses s.me m 0 (lengthOf s.me)).zip ps)) s.me.vlen s.me.armed := by
  obtain ⟨s1, hcheck, hs1⟩ := hp.checked
  obtain ⟨I, hquiet, hI⟩ := hset.quiet hc hs1
  obtain ⟨w, hfinish, -, hw⟩ := finishLoad_gives hquiet (hp.plain hc) hs1.sameViews hI hcap d (lengthOf s.me) (elemCount s1.me m.t (lengthOf s.me))
  have hrows : s.me.rows = lengthOf s.me := rfl
  have hwatch : watchVector _ true false s1 = .ok ((), s1) := watchVector_ok (hp.hits hs1)
  have htests : stridedTests m 0 (lengthOf s.me) true s = .ok ((), s) := stridedTests_ok true hn fun _ h => absurd rfl h
  have hall : (if m.t = .q then accesses s.me m 0 (lengthOf s.me) else (accesses s.me m 0 (lengthOf s.me)).take (lengthOf s.me)) =
      accesses s.me m 0 (lengthOf s.me) := by
    split
    · rfl
    next hq =>
      have hlen := congrArg List.length (accesses_idx (h := s.me) (c := 0) (n := lengthOf s.me) hq)
      rw [List.length_map, List.length_range] at hlen
      exact List.take_of_length_le hlen.le
  refine ⟨w, ?_, hw⟩
  show execVlff d m s = _
  unfold execVlff
  generalize (0 : Reg) = x0 at *
  simp [finish, needOwner_ok hown, hrows, htests, hcheck, firstBad_zip, goodOnes_zip, hall, take_zip, hwatch, hp.loadWaits hs1, hfinish]
end

-- A fault beyond the first element (spec/08 R178) ---------------------------------------------------------------------------------------------------

theorem checkAll_take (s : State) (h : Nat) (o : Orient) (kind : AccKind) (st : Bool) (l : List Acc1) (k : Nat) :
    (s.checkAll h o kind st l).1.take k = (s.checkAll h o kind st (l.take k)).1 := by
  induction l generalizing s k with
  | nil => simp [State.checkAll]
  | cons a l ih =>
    cases k with
    | zero => rfl
    | succ k => exact congrArg (List.cons _) (ih _ k)
theorem checkAll_access (s : State) (h : Nat) (o : Orient) (kind : AccKind) (st : Bool) (l : List Acc1) :
    (s.checkAll h o kind st l).1.map (·.1) = l := by
  induction l generalizing s with
  | nil => rfl
  | cons a l ih => exact congrArg (a :: ·) (ih _)
/-- Of checks whose first ones pass, the first that fails. -/
theorem firstBad_at {rs : List (Acc1 × Except Bad Trans)} {l : List Acc1} {ps : List Trans} {k : Nat} {a : Acc1} {b : Bad}
    (htake : rs.take k = l.zip (ps.map .ok)) (hk : rs[k]? = some (a, .error b)) : firstBad rs = some (a, b) := by
  obtain ⟨hlt, hget⟩ := List.getElem?_eq_some_iff.1 hk
  have hfirst := firstBad_zip l ps
  rw [← htake] at hfirst
  rw [← List.take_append_drop k rs, firstBad, List.findSome?_append, ← firstBad, hfirst, List.drop_eq_getElem_cons hlt, hget]
  rfl
theorem execVlff_shortens {d : Reg} {m : VMem} {s : State} {ps : List Trans} (hown : s.me.own = s.me.ctx) (hcap : NoCapture s)
    (hn : lengthOf s.me ≤ capOf m.t s.me.vtype s.me.lanes) (hq : m.t ≠ .q) {k : Nat} {b : Bad} (hk0 : k ≠ 0) (hk : k < lengthOf s.me)
    (hbad : (s.checkAll s.cur m.o .load false (accesses s.me m 0 (lengthOf s.me))).1[k]?.map (·.2) = some (.error b))
    (hp : AllPass s m.o false ((accesses s.me m 0 (lengthOf s.me)).take k) ps)
    (hc : Clean s m.o ((accesses s.me m 0 (lengthOf s.me)).take k) ps) (hset : Settled s m.o ((accesses s.me m 0 (lengthOf s.me)).take k) ps) :
    ∃ t, exec (.vlff d m) s = .next t ∧
      Loaded s t d (loadedImage s m d k (((accesses s.me m 0 (lengthOf s.me)).take k).zip ps)) k s.me.armed := by
  have htests : stridedTests m 0 (lengthOf s.me) true s = .ok ((), s) := stridedTests_ok true hn fun _ h => absurd rfl h
  have hrows : s.me.rows = lengthOf s.me := rfl
  have hidx := accesses_idx (h := s.me) (c := 0) (n := lengthOf s.me) hq
  obtain ⟨-, -, -, ⟨s1', hchecked⟩, -⟩ := id hp
  have htake := checkAll_take s s.cur m.o .load false (accesses s.me m 0 (lengthOf s.me)) k
  have haccess := checkAll_access s s.cur m.o .load false (accesses s.me m 0 (lengthOf s.me))
  have hcheck : checked m false (accesses s.me m 0 (lengthOf s.me)) s =
      .ok (s.checkAll s.cur m.o .load false (accesses s.me m 0 (lengthOf s.me))) := rfl
  rw [if_neg Bool.false_ne_true] at hchecked
  rw [hchecked] at htake
  generalize hall : s.checkAll s.cur m.o .load false (accesses s.me m 0 (lengthOf s.me)) = all at *
  obtain ⟨rs, s1⟩ := all
  have hs1 : Alike s s1 := alike_checkAll hall
  dsimp only at hbad htake haccess
  obtain ⟨⟨a, r⟩, hrk, hr⟩ := Option.map_eq_some_iff.1 hbad
  dsimp only at hr
  subst hr
  have hak : a.idx = k := by
    have hget : ((rs.map (·.1)).map (·.idx))[k]? = some a.idx := by rw [List.getElem?_map, List.getElem?_map, hrk]; rfl
    rw [haccess, hidx, List.getElem?_range hk] at hget
    exact (Option.some.inj hget).symm
  have hlen : min k (accesses s.me m 0 (lengthOf s.me)).length = k := by
    have hlen := congrArg List.length hidx
    rw [List.length_map, List.length_range] at hlen
    omega
  obtain ⟨I, hquiet, hI⟩ := hset.quiet hc hs1
  obtain ⟨w, hfinish, hcur, hw⟩ := finishLoad_gives hquiet (hp.plain hc) hs1.sameViews hI hcap d k (elemCount s1.me m.t k)
  have hwatch : watchVector _ true false s1 = .ok ((), s1) := watchVector_ok (hp.hits hs1)
  refine ⟨_, ?_, loaded_updMe hw hcur k⟩
  show execVlff d m s = _
  unfold execVlff
  generalize (0 : Reg) = x0 at *
  simp [finish, needOwner_ok hown, hrows, htests, hcheck, firstBad_at htake hrk, hak, hk0, hq, hk, hlen, htake, goodOnes_zip, hwatch, hp.loadWaits hs1, hfinish]

-- vldx (spec/08 R179) -------------------------------------------------------------------------------------------------------------------------------

/-- A gather's register, its mask disarmed, and what its elements are charged. -/
def gatheredInto (d : Reg) (img cost : Nat) (h : Hart) : Hart := { h.setVimg d img with armed := none, ectr := chargeTo h.ectr cost }
section
variable {d b : Reg} {m : VMem} {s : State} {ps : List Trans} (hown : s.me.own = s.me.ctx)
include hown
theorem execVldx_long (hn : 32 * s.me.lanes < lengthOf s.me) (hc : s.copying s.cur = false) :
    exec (.vldx d b m) s = .next (s.takeTrap s.cur { cause := 0x11, value := BitVec.ofNat 64 (lengthOf s.me), tpc := s.me.pc }) := by
  show finish _ s = _
  simp [finish, needOwner_ok hown, indexedRows_long hn hc]
theorem execVldx_loads (hcap : NoCapture s) (hn : lengthOf s.me ≤ 32 * s.me.lanes) (hp : AllPass s m.o false (indexed s.me m b (lengthOf s.me)) ps)
    (hc : Clean s m.o (indexed s.me m b (lengthOf s.me)) ps) (hset : Settled s m.o (indexed s.me m b (lengthOf s.me)) ps) :
    ∃ t, exec (.vldx d b m) s = .next t ∧
      Loaded s t d (loadedImage s m d (lengthOf s.me) ((indexed s.me m b (lengthOf s.me)).zip ps)) s.me.vlen none := by
  obtain ⟨s1, hcheck, hs1⟩ := hp.checked
  obtain ⟨I, hquiet, hI⟩ := hset.quiet hc hs1
  obtain ⟨u, hread, hu⟩ := readOp_gives hquiet (hp.plain hc) hs1.sameViews hI
  have hsplit : s1.splitElems ((indexed s.me m b (lengthOf s.me)).zip (ps.map .ok)) true false = _ := splitElems_zip (hp.hits hs1)
  generalize hl : (indexed s.me m b (lengthOf s.me)).zip ps = l at *
  have hput : (u.updMe fun h => h.setVimg d (putLoaded h m.t (lengthOf s.me) (h.vimg d) (givenBy s l))) =
      u.updMe fun h => h.setVimg d (loadedImage s m d (lengthOf s.me) l) := updMe_congr (by rw [hu.me]; rfl)
  have hcharged := charged_chargeMe (u.updMe fun h => h.setVimg d (loadedImage s m d (lengthOf s.me) l)) 3 l.length
  have hcapture := hcharged.capture (noCapture_updMe hu hcap _) hcharged.cur 5
  have hdisarm : (((u.updMe fun h => h.setVimg d (loadedImage s m d (lengthOf s.me) l)).chargeMe 3 l.length).updMe fun h => { h with armed := none }) =
      u.updMe (gatheredInto d (loadedImage s m d (lengthOf s.me) l) (l.length * u.weight (coreOf u.cur) 3)) := by
    rw [State.chargeMe, State.charge]
    exact (updMe_updMe (u.updMe _) _ _).trans (updMe_updMe u _ _)
  refine ⟨_, ?_, loaded_advance hu (f := gatheredInto d (loadedImage s m d (lengthOf s.me) l) (l.length * u.weight (coreOf u.cur) 3)) rfl (charged_bumpMe _ 1 1)⟩
  show finish _ s = _
  simp [finish, needOwner_ok hown, indexedRows_ok hn, hcheck, hsplit, hp.loadWaits hs1, awaitCopies, hread, endIndexed, hput, hcapture, hdisarm]

end

-- The clauses ---------------------------------------------------------------------------------------------------------------------------------------

/-- The rows that the accesses of a strided word name hold what these found. -/
theorem Loaded.rows {s t : State} {m : VMem} {c d : Reg} {n k vl : Nat} {ar : Option Nat} {ps : List Trans} (hk : k ≤ n)
    (h : Loaded s t d (loadedImage s m d k (((accesses s.me m c n).take k).zip ps)) vl ar) (hm : m.t ≠ .q)
    (hlen : ps.length = ((accesses s.me m c n).take k).length) (i : Nat) :
    Claims.row t.me d (elemBits m.t) i = match ps[i]? with
      | some p => seen s p (elemBits m.t / 8)
      | none => Claims.row s.me d (elemBits m.t) i := by
  have hidx : ((accesses s.me m c n).take k).map (·.idx) = List.range k := by
    rw [List.map_take, accesses_idx hm, List.take_range, min_eq_left hk]
  have hk' : ((accesses s.me m c n).take k).length = k := by
    rw [← List.length_map (f := fun a : Acc1 => a.idx), hidx, List.length_range]
  rw [h.row]
  cases hp : ps[i]? with
  | some p =>
    have hi : i < k := by
      rw [← hk', ← hlen]
      exact (List.getElem?_eq_some_iff.1 hp).1
    obtain ⟨a, ha, hai⟩ : ∃ a, ((accesses s.me m c n).take k)[i]? = some a ∧ a.idx = i := by
      have hget : (((accesses s.me m c n).take k).map (·.idx))[i]? = some i := by rw [hidx, List.getElem?_range hi]
      rw [List.getElem?_map] at hget
      exact Option.map_eq_some_iff.1 hget
    have hz := List.mem_of_getElem? (List.getElem?_zip_eq_some (z := (a, p)).2 ⟨ha, hp⟩)
    have hput := putLoaded_access (s := s) (h := s.me) (n := k) (img := s.me.vimg d) hm
      (fun a ha => (accesses_elem hm a (List.mem_of_mem_take ha)).1) (hidx ▸ List.nodup_range) hz
    rwa [hai] at hput
  | none =>
    have hi : k ≤ i := by
      rw [← hk', ← hlen]
      exact List.getElem?_eq_none_iff.1 hp
    have hput := putLoaded_other (s := s) (h := s.me) (n := k) (img := s.me.vimg d) (ps := ps) hm (i := i) (l := (accesses s.me m c n).take k) fun a ha hai => by
      have hmem := List.mem_map_of_mem (f := fun a : Acc1 => a.idx) ha
      rw [hidx, hai, List.mem_range] at hmem
      omega
    exact hput.trans (elemAt_eq ..)
/-- What a strided load that all passes leaves. -/
theorem strided_holds {i : Instr} {d c : Reg} {m : VMem} {s : State} {ps : List Trans} (hn : lengthOf s.me ≤ capOf m.t s.me.vtype s.me.lanes)
    (hlen : ps.length = (accesses s.me m c (lengthOf s.me)).length) (h : ∃ t, exec i s = .next t ∧
      Loaded s t d (loadedImage s m d (lengthOf s.me) ((accesses s.me m c (lengthOf s.me)).zip ps)) s.me.vlen s.me.armed) :
    ∃ t, exec i s = .next t ∧ VectorLoads s t d ∧ t.me.vlen = s.me.vlen ∧
      (m.t ≠ .q → m.t ≠ .pr → ∀ i, row t.me d (elemBits m.t) i = match ps[i]? with
        | some p => seen s p (elemBits m.t / 8)
        | none => row s.me d (elemBits m.t) i) ∧
      (m.t = .q → ∀ q i, q < s.me.vtype.toNat % 32 → i < lengthOf s.me → ∀ p, ps[q * ((lengthOf s.me + 7) / 8) + i / 8]? = some p →
        planeBit (t.me.vimg d) (slicedRows (s.me.vtype.toNat % 32) s.me.lanes) q i = (seen s p 1).testBit (i % 8)) := by
  obtain ⟨t, he, ht⟩ := h
  refine ⟨t, he, ht.loads (.inr rfl), ht.vlen, fun hm _ => ?_, fun hm q i hq hi p hp => ?_⟩
  · have hall : (accesses s.me m c (lengthOf s.me)).take (lengthOf s.me) = accesses s.me m c (lengthOf s.me) := by
      refine List.take_of_length_le ?_
      rw [← List.length_map (f := fun a : Acc1 => a.idx), accesses_idx hm, List.length_range]
    rw [← hall] at ht hlen
    exact ht.rows le_rfl hm hlen
  · rw [planeBit, ht.vimg, ← vtQw_eq]
    rw [← vtQw_eq] at hq
    rw [hm, capOf, if_pos rfl] at hn
    exact putLoaded_plane hm hn hq hi hp
theorem vectorLoadWords_holds : VectorLoadWords := by
  intro d c m s ps hown hcap n M
  refine ⟨fun hlong hc => ?_, fun hn x hx hs hp hclean hset => ?_, fun hn hq hpr _ k b hk0 hk hbad hp hclean hset => ?_⟩
  · simp only [List.mem_cons, List.not_mem_nil, or_false, forall_eq_or_imp, forall_eq]
    exact ⟨execVld_long hown hlong hc, execVlff_long hown hlong hc⟩
  · obtain ⟨hlen, -⟩ := id hp
    simp only [List.mem_cons, List.not_mem_nil, or_false] at hx
    obtain rfl | rfl := hx
    · exact strided_holds hn hlen (execVld_loads hown hcap hn hs hp hclean hset)
    · exact strided_holds hn hlen (execVlff_loads hown hcap hn hp hclean hset)
  · obtain ⟨hlen, -⟩ := id hp
    obtain ⟨t, he, ht⟩ := execVlff_shortens (d := d) hown hcap hn hq hk0 hk hbad hp hclean hset
    exact ⟨t, he, ht.loads (.inr rfl), ht.vlen, ht.rows hk.le hq hlen⟩
theorem gatherWord_holds : GatherWord := by
  intro d b m s ps hown hcap hq hpr n l ea
  refine ⟨fun hlong hc => execVldx_long hown hlong hc, fun hn hp hclean hset => ⟨?_, ?_⟩⟩
  · simp only [l, n, indexed, List.map_map, bitOf_eq, elem_eq, upTo]
    refine List.map_congr_left fun i _ => ?_
    exact congrArg (fun k => (i, ea i, k / 8)) (tyBits_eq m.t)
  · obtain ⟨t, he, ht⟩ := execVldx_loads (d := d) hown hcap hn hp hclean hset
    have hidx : (l.map (·.idx)).Nodup := by
      rw [indexed_idx]
      exact List.nodup_range.filter _
    refine ⟨t, he, ht.loads (.inl rfl), ht.armed, ht.vlen, fun x hx => ?_, fun i hi => ?_⟩
    · rw [ht.row]
      exact putLoaded_access hq (fun a ha => (indexed_elem a ha).1) hidx hx
    · rw [ht.row, row, ← elemAt_eq]
      exact putLoaded_other hq hi
/-- Settles O29: reads leave every byte as it was, so that each access finds what memory and the buffer hold at the start of the word, and
the register takes it at the place of its access. -/
theorem vectorLoadsAndGathers : Obligations.VectorLoadsAndGathers := ⟨vectorLoadWords_holds, gatherWord_holds⟩

end Sys2Proof.Claims
end

section
/-!
PROOFS. Lines and their dirty masks, the bytes that masks name, and bytes on their way home (spec/12 R247, spec/14 R277, R278).
-/
namespace Sys2Proof.Claims
open Machine

-- Places of a line (spec/12 R244) -------------------------------------------------------------------------------------------------------------------

/-- The place of a byte in a line is that of no other, and the byte lies in the line's panel. -/
theorem byteAt_of_index {key : LineKey} {b i : Nat} (h : key.index b = some i) : i < 64 ∧ key.byteAt i = b ∧ key.panel = b / 4096 := by
  cases key with
  | row n =>
    simp only [LineKey.index, Option.ite_none_right_eq_some, Option.some.injEq] at h
    obtain ⟨hn, rfl⟩ := h
    simp only [LineKey.byteAt, LineKey.panel]
    omega
  | col panel w c g =>
    simp only [LineKey.index, Option.ite_none_right_eq_some, Option.some.injEq] at h
    obtain ⟨⟨hp, hc, hcw, hg, hg'⟩, rfl⟩ := h
    have hw : 0 < w := by omega
    obtain ⟨q, hq⟩ := Nat.exists_eq_add_of_le hg
    obtain ⟨x, hx⟩ := Nat.exists_eq_add_of_le hc
    have hqn : q < 64 / w := by
      rw [Nat.add_mul, Nat.one_mul] at hg'
      omega
    have hxw : x < w := by omega
    rw [hq, hx, Nat.add_sub_cancel_left, Nat.add_sub_cancel_left]
    have hdiv : (q * w + x) / w = q := by rw [Nat.mul_comm, Nat.mul_add_div hw, Nat.div_eq_of_lt hxw, Nat.add_zero]
    have hmod : (q * w + x) % w = x := by rw [Nat.mul_comm, Nat.mul_add_mod, Nat.mod_eq_of_lt hxw]
    refine ⟨?_, ?_, hp.symm⟩
    · calc q * w + x < (q + 1) * w := by
            rw [Nat.add_mul, Nat.one_mul]
            omega
        _ ≤ 64 / w * w := Nat.mul_le_mul_right w hqn
        _ ≤ 64 := Nat.div_mul_le_self 64 w
    · simp only [LineKey.byteAt, hdiv, hmod, ← hq]
      omega
theorem panel_of_holds {key : LineKey} {b : Nat} (h : key.holds b = true) : key.panel = b / 4096 := by
  obtain ⟨i, hi⟩ := Option.isSome_iff_exists.1 h
  exact (byteAt_of_index hi).2.2
theorem panel_lineFor (o : Orient) (n pa : Nat) : (lineFor o n pa).panel = pa / 4096 := by
  cases o with
  | row => exact Nat.div_div_eq_div_mul pa 64 64
  | col => rfl

-- Dirty masks (spec/12 R247) ------------------------------------------------------------------------------------------------------------------------

theorem testBit_setBits (q : Nat → Bool) (n j : Nat) :
    ((List.range n).foldl (fun m i => if q i then m + 2 ^ i else m) 0).testBit j = (decide (j < n) && q j) := by
  have below : ∀ n, (List.range n).foldl (fun m i => if q i then m + 2 ^ i else m) 0 < 2 ^ n := by
    intro n
    induction n with
    | zero => simp
    | succ n ih =>
      rw [List.range_succ, List.foldl_append, List.foldl_cons, List.foldl_nil, pow_succ]
      split <;> omega
  induction n with
  | zero => simp
  | succ n ih =>
    have hlt := below n
    rw [List.range_succ, List.foldl_append, List.foldl_cons, List.foldl_nil]
    generalize (List.range n).foldl (fun m i => if q i then m + 2 ^ i else m) 0 = m at ih hlt
    have hout : n ≤ j → m.testBit j = false := fun h => Nat.testBit_lt_two_pow (hlt.trans_le (Nat.pow_le_pow_right (by decide) h))
    obtain h | rfl | h := lt_trichotomy j n
    · have hboth : j < n + 1 ↔ j < n := by omega
      split
      · rw [Nat.add_comm, Nat.testBit_two_pow_add_gt h, ih]
        simp only [hboth]
      · rw [ih]
        simp only [hboth]
    · split
      next hq => rw [Nat.add_comm, Nat.testBit_two_pow_add_eq, hout le_rfl, hq]; simp
      next hq => rw [hout le_rfl, Bool.eq_false_iff.2 hq, Bool.and_false]
    · have hno : ¬ j < n + 1 := by omega
      rw [decide_eq_false hno, Bool.false_and]
      split
      · refine Nat.testBit_lt_two_pow (lt_of_lt_of_le (b := 2 ^ (n + 1)) ?_ (Nat.pow_le_pow_right (by decide) h))
        rw [pow_succ]
        omega
      · exact hout h.le
/-- A line keeps the bits of its mask that are not cleaned. -/
theorem bitOf_clean (l : Line) (p : Nat → Bool) (i : Nat) :
    bitOf (l.clean p).dirty i = (decide (i < 64) && (bitOf l.dirty i && !p (l.key.byteAt i))) := by
  rw [bitOf_eq]
  exact testBit_setBits (fun i => bitOf l.dirty i && !p (l.key.byteAt i)) 64 i
/-- A mask with the places of some cells in a line. -/
def markedBy (key : LineKey) (cells : List Host.Cell) (m : Nat) : Nat :=
  cells.foldl (fun m c => match key.index c.1 with
    | some i => m ||| 2 ^ i
    | none => m) m
theorem testBit_markedBy (key : LineKey) (cells : List Host.Cell) (m i : Nat) :
    (markedBy key cells m).testBit i = true ↔ m.testBit i = true ∨ ∃ c ∈ cells, key.index c.1 = some i := by
  rw [markedBy]
  induction cells generalizing m with
  | nil => simp
  | cons c cells ih =>
    rw [List.foldl_cons, ih]
    cases hc : key.index c.1 with
    | none => simp [hc]
    | some j =>
      have hbit : (m ||| 2 ^ j).testBit i = true ↔ m.testBit i = true ∨ j = i := by
        rw [Nat.testBit_or, Bool.or_eq_true, Nat.testBit_two_pow, decide_eq_true_eq]
      simp only [hbit, List.mem_cons, exists_eq_or_imp, hc, Option.some.injEq, or_assoc]

-- Cells (spec/14 R277) ------------------------------------------------------------------------------------------------------------------------------

/-- Cells that say of each byte one value. -/
def Agree (v : Nat → Byte) (cells : List Host.Cell) : Prop := ∀ c ∈ cells, c.2 = v c.1
theorem read_writeCells {v : Nat → Byte} {cells : List Host.Cell} (h : Agree v cells) (m : List Host.Cell) (b : Nat) :
    Memory.read (Memory.writeCells m cells) b = if b ∈ cells.map (·.1) then v b else Memory.read m b := by
  induction cells generalizing m with
  | nil => rfl
  | cons c cells ih =>
    rw [Memory.writeCells, ih fun x hx => h x (List.mem_cons_of_mem _ hx), Memory.read_write]
    by_cases hb : b = c.1
    · subst hb
      simp [h c List.mem_cons_self]
    · simp [hb]
theorem mem_foldl_add (xs l : List Nat) (b : Nat) : b ∈ xs.foldl NSet.add l ↔ b ∈ xs ∨ b ∈ l := by
  induction xs generalizing l with
  | nil => simp
  | cons x xs ih =>
    rw [List.foldl_cons, ih, mem_add]
    simp only [List.mem_cons]
    tauto
/-- A byte that the mask of a line names and p accepts. -/
def Named (l : Line) (p : Nat → Bool) (b : Nat) : Prop := ∃ i < 64, bitOf l.dirty i = true ∧ p b = true ∧ l.key.byteAt i = b
theorem maskedCells_agree (s : State) (k : Nat) (ls : List Line) (p : Nat → Bool) :
    Agree (Memory.read (s.cluster k).bytes) (s.maskedCells k ls p) := by
  intro c hc
  obtain ⟨b, -, rfl⟩ := List.mem_map.1 hc
  rfl
theorem mem_maskedCells (s : State) (k : Nat) (ls : List Line) (p : Nat → Bool) (b : Nat) :
    b ∈ (s.maskedCells k ls p).map (·.1) ↔ ∃ l ∈ ls, Named l p b := by
  have named : ∀ l : Line, b ∈ (upTo 64).filterMap (fun i => if bitOf l.dirty i && p (l.key.byteAt i) then some (l.key.byteAt i) else none) ↔
      Named l p b := by
    intro l
    simp only [upTo, List.mem_filterMap, List.mem_range, Option.ite_none_right_eq_some, Option.some.injEq, Bool.and_eq_true, Named]
    constructor
    · rintro ⟨i, hi, ⟨hbit, hp⟩, rfl⟩
      exact ⟨i, hi, hbit, hp, rfl⟩
    · rintro ⟨i, hi, hbit, hp, rfl⟩
      exact ⟨i, hi, ⟨hbit, hp⟩, rfl⟩
  have gathered : ∀ (ls : List Line) (acc : List Nat), b ∈ ls.foldl (fun acc l => if l.dirty = 0 then acc else
      ((upTo 64).filterMap fun i => if bitOf l.dirty i && p (l.key.byteAt i) then some (l.key.byteAt i) else none).foldl NSet.add acc) acc ↔
      (∃ l ∈ ls, Named l p b) ∨ b ∈ acc := by
    intro ls
    induction ls with
    | nil => simp
    | cons l ls ih =>
      intro acc
      rw [List.foldl_cons, ih]
      by_cases hd : l.dirty = 0
      · have hnone : ¬ Named l p b := fun ⟨i, _, hbit, _⟩ => by
          rw [bitOf_eq, hd, Nat.zero_testBit] at hbit
          exact Bool.noConfusion hbit
        rw [if_pos hd]
        simp [hnone]
      · rw [if_neg hd, mem_foldl_add, named]
        simp only [List.mem_cons, exists_eq_or_imp]
        rw [or_left_comm, or_assoc]
  have hids : ∀ pas : List Nat, (pas.map fun pa => (pa, Memory.read (s.cluster k).bytes pa)).map (·.1) = pas := fun pas => by
    rw [List.map_map]
    exact List.map_id' _
  rw [State.maskedCells]
  dsimp only
  rw [hids, gathered]
  simp

-- Bytes on their way home (spec/14 R278) ------------------------------------------------------------------------------------------------------------

/-- What a byte reads as below cluster k, with some drains on their way. -/
def belowOf (k : Nat) (m : List Host.Cell) (ds : List Drain) (b : Nat) : Byte := (inFlight ds k b).getD (Memory.read m b)
theorem find_cell {v : Nat → Byte} {cells : List Host.Cell} (h : Agree v cells) (b : Nat) :
    (cells.find? fun c => c.1 == b).map (·.2) = if b ∈ cells.map (·.1) then some (v b) else none := by
  induction cells with
  | nil => rfl
  | cons c cells ih =>
    by_cases hb : c.1 = b
    · simp [hb, h c List.mem_cons_self]
    · have ih := ih fun x hx => h x (List.mem_cons_of_mem _ hx)
      have hb' : ¬ b = c.1 := fun e => hb e.symm
      simp [hb, hb', ih]
/-- A drain of cluster k among some others, as a read finds it. -/
def drainStep (k b : Nat) (acc : Option Byte) (d : Drain) : Option Byte :=
  if d.cluster = k then match d.cells.find? (fun c => c.1 == b) with
    | some c => some c.2
    | none => acc
  else acc
theorem inFlight_eq (ds : List Drain) (k b : Nat) : inFlight ds k b = ds.foldl (drainStep k b) none := rfl
theorem drainStep_eq {k : Nat} {d : Drain} {v : Nat → Byte} (hk : d.cluster = k) (h : Agree v d.cells) (b : Nat) (acc : Option Byte) :
    drainStep k b acc d = if b ∈ d.cells.map (·.1) then some (v b) else acc := by
  have hfind := find_cell h b
  rw [drainStep, if_pos hk]
  generalize d.cells.find? (fun c => c.1 == b) = found at hfind
  cases found with
  | none =>
    split at hfind
    · cases hfind
    next hb => rw [if_neg hb]
  | some c =>
    split at hfind
    next hb => rw [if_pos hb]; exact hfind
    · cases hfind
theorem drainStep_foldl (k b : Nat) (ds : List Drain) (acc : Option Byte) :
    ds.foldl (drainStep k b) acc = (ds.foldl (drainStep k b) none).or acc := by
  induction ds generalizing acc with
  | nil => simp
  | cons d ds ih =>
    rw [List.foldl_cons, List.foldl_cons, ih, ih (drainStep k b none d)]
    unfold drainStep
    split
    · split <;> simp
    · simp
/-- The newest drain decides. -/
theorem belowOf_append {k : Nat} {d : Drain} {v : Nat → Byte} (hk : d.cluster = k) (h : Agree v d.cells) (m : List Host.Cell) (ds : List Drain) (b : Nat) :
    belowOf k m (ds ++ [d]) b = if b ∈ d.cells.map (·.1) then v b else belowOf k m ds b := by
  rw [belowOf, inFlight_eq, List.foldl_append, List.foldl_cons, List.foldl_nil, drainStep_eq hk h, ← inFlight_eq]
  split <;> rfl
/-- The oldest drain reads as if it were home. -/
theorem belowOf_cons {k : Nat} {d : Drain} {v : Nat → Byte} (hk : d.cluster = k) (h : Agree v d.cells) (m : List Host.Cell) (ds : List Drain) (b : Nat) :
    belowOf k m (d :: ds) b = belowOf k (Memory.writeCells m d.cells) ds b := by
  rw [belowOf, belowOf, inFlight_eq, inFlight_eq, List.foldl_cons, drainStep_eq hk h, drainStep_foldl, read_writeCells h]
  cases ds.foldl (drainStep k b) none with
  | none => split <;> rfl
  | some x => rfl

end Sys2Proof.Claims
end

section
/-!
PROOFS. One cluster whose stores stay in its lines or go home (spec/12 R247, spec/14 R277, R278): no other cluster and no data cache holds a
copy. What leaves the lines for home leaves every byte as the cluster reads it.
-/
namespace Sys2Proof.Claims
open Machine

-- What the stores of a cluster leave beside it ------------------------------------------------------------------------------------------------------

/-- The state without what the stores of cluster k change: the cluster, the homes and what is on its way there; without trackers and counters. -/
def beside (k : Nat) (s : State) : State × (Nat → List Nat × List Nat) × (Nat → Cluster) :=
  ({ s with clusters := [], mem := [], poison := [], drains := [], dies := [], baseDies := [], counters := [] },
    fun n => ((s.stack n).fencedCh, (s.stack n).segErr), fun j => if j = k then {} else s.cluster j)
theorem beside_of_offTrackers {s t : State} (k : Nat) (h : offTrackers t = offTrackers s) : beside k t = beside k s :=
  congrArg (fun x : State × (Nat → List Nat × List Nat) =>
    (({ x.1 with clusters := [], mem := [], poison := [], drains := [] } : State), x.2, fun j => if j = k then ({} : Cluster) else x.1.cluster j)) h
theorem beside_setCluster (s : State) (k : Nat) (c : Cluster) : beside k (s.setCluster k c) = beside k s := by
  refine Prod.ext rfl (Prod.ext rfl (funext fun j => ?_))
  simp only [beside, State.setCluster_cluster]
  split <;> rfl
/-- What settle does but for trackers. -/
theorem settle_offTrackers (s : State) (d : Nat) (cells : List Host.Cell) (marks : List Nat) (bypass : Bool) :
    ∃ m p, offTrackers (s.settle d cells marks bypass) = offTrackers { s with mem := m, poison := p } :=
  ⟨_, _, foldl_keeps offTrackers _ (fun s _ => offTrackers_mscTouch s _ _ _ _) _ _⟩
theorem beside_settle (s : State) (k d : Nat) (cells : List Host.Cell) (marks : List Nat) (bypass : Bool) :
    beside k (s.settle d cells marks bypass) = beside k s := by
  obtain ⟨m, p, h⟩ := settle_offTrackers s d cells marks bypass
  exact (beside_of_offTrackers k h).trans rfl
theorem settle_cluster (s : State) (d : Nat) (cells : List Host.Cell) (marks : List Nat) (bypass : Bool) (j : Nat) :
    (s.settle d cells marks bypass).cluster j = s.cluster j := by
  obtain ⟨m, p, h⟩ := settle_offTrackers s d cells marks bypass
  exact congrArg (fun x : State × (Nat → List Nat × List Nat) => x.1.cluster j) h
theorem settle_drains (s : State) (d : Nat) (cells : List Host.Cell) (marks : List Nat) (bypass : Bool) :
    (s.settle d cells marks bypass).drains = s.drains := by
  obtain ⟨m, p, h⟩ := settle_offTrackers s d cells marks bypass
  exact congrArg (fun x : State × (Nat → List Nat × List Nat) => x.1.drains) h
section
variable {s t : State} {k : Nat} (h : beside k t = beside k s)
include h
theorem cur_of_beside : t.cur = s.cur := congrArg (fun x => x.1.cur) h
theorem harts_of_beside : t.harts = s.harts := congrArg (fun x => x.1.harts) h
theorem cluster_of_beside {j : Nat} (hj : j ≠ k) : t.cluster j = s.cluster j := by
  have hc := congrFun (congrArg (fun x => x.2.2) h) j
  simp only [beside, if_neg hj] at hc
  exact hc
theorem dcacheKeys_of_beside (j : Nat) : t.dcacheKeys j = s.dcacheKeys j := by
  have hcores : t.cores = s.cores := congrArg (fun x => x.1.cores) h
  simp only [State.dcacheKeys, State.core, hcores]
theorem alive_of_beside {d b : Nat} (ha : Alive s d b) : Alive t d b :=
  alive_congr (congrArg (fun x => x.1.cxl) h) (congrArg (fun x => x.1.cenel) h) (congrArg (fun x => x.1.dieNet) h)
    (fun n => congrFun (congrArg (fun x => x.2.1) h) n) ha
end

-- Lines of the cluster ------------------------------------------------------------------------------------------------------------------------------

/-- The lines of a cluster with their dirty masks. -/
def lineMasks (s : State) (k : Nat) : List (LineKey × Nat) := (s.cluster k).lines.map fun l => (l.key, l.dirty)
def HeldIn (ls : List (LineKey × Nat)) (b : Nat) : Prop := ∃ x ∈ ls, x.1.holds b = true
def MaskedIn (ls : List (LineKey × Nat)) (b : Nat) : Prop := ∃ x ∈ ls, ∃ i, x.1.index b = some i ∧ bitOf x.2 i = true
/-- A panel with a byte that caches serve. -/
def CachedPanel (p : Nat) : Prop := ∃ c, cacheable c = true ∧ c / 4096 = p
theorem MaskedIn.held {ls : List (LineKey × Nat)} {b : Nat} (h : MaskedIn ls b) : HeldIn ls b := by
  obtain ⟨x, hx, i, hi, -⟩ := h
  exact ⟨x, hx, Option.isSome_iff_exists.2 ⟨i, hi⟩⟩
/-- Cluster k alone holds lines; the masks name bytes that their lines hold, at homes that answer; what is not dirty reads as below; and what
is on its way home comes from its lines. -/
structure Holding (k : Nat) (s : State) : Prop where
  alone : ∀ j, j ≠ k → (s.cluster j).lines = [] ∧ (s.cluster j).atomLines = []
  keys : ∀ j, s.dcacheKeys j = []
  atomLines : (s.cluster k).atomLines = []
  panels : ∀ x ∈ lineMasks s k, CachedPanel x.1.panel
  masks : ∀ x ∈ lineMasks s k, ∀ i, bitOf x.2 i = true → x.1.index (x.1.byteAt i) = some i ∧ Alive s (clusterDie k) (x.1.byteAt i)
  clean : ∀ b, HeldIn (lineMasks s k) b → ¬ MaskedIn (lineMasks s k) b → Memory.read (s.cluster k).bytes b = s.belowByte k b
  drains : ∀ d ∈ s.drains, d.cluster = k ∧ (∃ v, Agree v d.cells) ∧ ∀ c ∈ d.cells, CachedPanel (c.1 / 4096) ∧ Alive s (clusterDie k) c.1
theorem resident_iff {s : State} {k : Nat} (hatom : (s.cluster k).atomLines = []) (hkeys : s.dcacheKeys k = []) (b : Nat) :
    s.resident k b = true ↔ HeldIn (lineMasks s k) b := by
  simp [State.resident, hatom, hkeys, HeldIn, lineMasks]
/-- What the cluster reads. -/
theorem view_held {s : State} {k : Nat} (hatom : (s.cluster k).atomLines = []) (hkeys : s.dcacheKeys k = []) {b : Nat} (h : HeldIn (lineMasks s k) b) :
    s.clusterByte k b = Memory.read (s.cluster k).bytes b := if_pos ((resident_iff hatom hkeys b).2 h)
theorem view_below {s : State} {k : Nat} (hatom : (s.cluster k).atomLines = []) (hkeys : s.dcacheKeys k = []) {b : Nat} (h : ¬ HeldIn (lineMasks s k) b) :
    s.clusterByte k b = s.belowByte k b := if_neg (mt (resident_iff hatom hkeys b).1 h)
/-- t is s after something that left every byte as the cluster reads it, and nothing beside the cluster changed. -/
structure Stays (k : Nat) (s t : State) : Prop where
  beside : Claims.beside k t = Claims.beside k s
  holding : Holding k t
  views : ∀ b, t.clusterByte k b = s.clusterByte k b
theorem Stays.trans {k : Nat} {s t u : State} (h : Stays k s t) (g : Stays k t u) : Stays k s u :=
  ⟨g.beside.trans h.beside, g.holding, fun b => (g.views b).trans (h.views b)⟩
theorem Holding.refl {k : Nat} {s : State} (h : Holding k s) : Stays k s s := ⟨rfl, h, fun _ => rfl⟩
section
variable {k : Nat} {s t : State} (h : Holding k s) (hb : beside k t = beside k s)
include h hb
theorem Holding.keys_of (j : Nat) : t.dcacheKeys j = [] := (dcacheKeys_of_beside hb j).trans (h.keys j)
/-- What is to be shown of a state that differs in the cluster, the homes and the drains alone. -/
theorem Holding.of_beside (hatom : (t.cluster k).atomLines = []) (hpanels : ∀ x ∈ lineMasks t k, CachedPanel x.1.panel)
    (hmasks : ∀ x ∈ lineMasks t k, ∀ i, bitOf x.2 i = true → x.1.index (x.1.byteAt i) = some i ∧ Alive s (clusterDie k) (x.1.byteAt i))
    (hclean : ∀ b, HeldIn (lineMasks t k) b → ¬ MaskedIn (lineMasks t k) b → Memory.read (t.cluster k).bytes b = t.belowByte k b)
    (hdrains : ∀ d ∈ t.drains, d.cluster = k ∧ (∃ v, Agree v d.cells) ∧ ∀ c ∈ d.cells, CachedPanel (c.1 / 4096) ∧ Alive s (clusterDie k) c.1) : Holding k t where
  alone j hj := by
    rw [cluster_of_beside hb hj]
    exact h.alone j hj
  keys := h.keys_of hb
  atomLines := hatom
  panels := hpanels
  masks x hx i hi := (hmasks x hx i hi).imp_right (alive_of_beside hb)
  clean := hclean
  drains d hd := by
    obtain ⟨hk, hv, hcells⟩ := hdrains d hd
    exact ⟨hk, hv, fun c hc => (hcells c hc).imp_right (alive_of_beside hb)⟩
/-- Only trackers, tracks and marks changed. -/
theorem Holding.same (hatom : (t.cluster k).atomLines = []) (hlines : lineMasks t k = lineMasks s k)
    (hbytes : ∀ b, HeldIn (lineMasks s k) b → Memory.read (t.cluster k).bytes b = Memory.read (s.cluster k).bytes b)
    (hbelow : ∀ b, t.belowByte k b = s.belowByte k b)
    (hdrains : t.drains = s.drains) : Stays k s t := by
  refine ⟨hb, h.of_beside hb hatom (hlines ▸ h.panels) (hlines ▸ h.masks) (fun b hheld hclean => ?_) (hdrains ▸ h.drains), fun b => ?_⟩
  · rw [hlines] at hheld hclean
    rw [hbytes b hheld, hbelow, h.clean b hheld hclean]
  · by_cases hheld : HeldIn (lineMasks s k) b
    · rw [view_held hatom (h.keys_of hb k) (hlines ▸ hheld), view_held h.atomLines (h.keys k) hheld, hbytes b hheld]
    · rw [view_below hatom (h.keys_of hb k) (hlines ▸ hheld), view_below h.atomLines (h.keys k) hheld, hbelow]
end
theorem belowByte_eq (s : State) (k b : Nat) : s.belowByte k b = belowOf k s.mem s.drains b := rfl
theorem belowByte_of_offTrackers {s t : State} (h : offTrackers t = offTrackers s) (k b : Nat) : t.belowByte k b = s.belowByte k b := by
  have hdrains : t.drains = s.drains := congrArg (fun x => x.1.drains) h
  have hmem : t.mem = s.mem := congrArg (fun x => x.1.mem) h
  rw [belowByte_eq, belowByte_eq, hdrains, hmem]
/-- The cluster with other tracks, marks or times. -/
theorem Holding.setCluster {k : Nat} {s : State} (h : Holding k s) {c : Cluster} (hatom : c.atomLines = (s.cluster k).atomLines)
    (hlines : c.lines.map (fun l => (l.key, l.dirty)) = lineMasks s k)
    (hbytes : ∀ b, HeldIn (lineMasks s k) b → Memory.read c.bytes b = Memory.read (s.cluster k).bytes b) : Stays k s (s.setCluster k c) := by
  have hc : (s.setCluster k c).cluster k = c := by rw [State.setCluster_cluster, if_pos rfl]
  exact h.same (beside_setCluster s k c) (by rw [hc, hatom, h.atomLines]) (by rw [lineMasks, hc, hlines]) (by rw [hc]; exact hbytes) (fun _ => rfl) rfl
theorem Holding.offTrackers {k : Nat} {s t : State} (h : Holding k s) (ht : Claims.offTrackers t = Claims.offTrackers s) : Stays k s t := by
  have hc : t.cluster k = s.cluster k := congrArg (fun x : State × (Nat → List Nat × List Nat) => x.1.cluster k) ht
  exact h.same (beside_of_offTrackers k ht) (by rw [hc, h.atomLines]) (by rw [lineMasks, lineMasks, hc]) (fun b _ => by rw [hc])
    (belowByte_of_offTrackers ht k) (congrArg (fun x => x.1.drains) ht)

-- Dirty bytes that leave (spec/12 R247, spec/14 R277) -----------------------------------------------------------------------------------------------

theorem cleanCells_eq (s : State) (k : Nat) (cells : List Host.Cell) : ∃ touched writers, s.cleanCells k cells = s.setCluster k { s.cluster k with
    lines := (s.cluster k).lines.map (·.clean fun pa => cells.any fun c => c.1 == pa),
    atomLines := (s.cluster k).atomLines.map (·.clean fun pa => cells.any fun c => c.1 == pa), touched := touched, writers := writers } := by
  unfold State.cleanCells
  dsimp only
  rw [State.retouch, State.updCluster_eq, State.updCluster_eq, setCluster_setCluster, State.setCluster_cluster, if_pos rfl]
  exact ⟨_, _, rfl⟩
theorem any_cell (cells : List Host.Cell) (b : Nat) : (cells.any fun c => c.1 == b) = true ↔ b ∈ cells.map (·.1) := by
  simp only [List.any_eq_true, beq_iff_eq, List.mem_map]
/-- The dirty bytes that p accepts. -/
theorem Holding.mem_dirtyCells {k : Nat} {s : State} (h : Holding k s) (p : Nat → Bool) (b : Nat) :
    b ∈ (s.dirtyCells k p).map (·.1) ↔ MaskedIn (lineMasks s k) b ∧ p b = true := by
  rw [State.dirtyCells, mem_maskedCells, h.atomLines, List.append_nil]
  constructor
  · rintro ⟨l, hl, i, -, hbit, hp, rfl⟩
    have hx : (l.key, l.dirty) ∈ lineMasks s k := List.mem_map.2 ⟨l, hl, rfl⟩
    exact ⟨⟨_, hx, i, (h.masks _ hx i hbit).1, hbit⟩, hp⟩
  · rintro ⟨⟨x, hx, i, hi, hbit⟩, hp⟩
    obtain ⟨l, hl, rfl⟩ := List.mem_map.1 hx
    obtain ⟨hlt, hat, -⟩ := byteAt_of_index hi
    exact ⟨l, hl, i, hlt, hbit, hp, hat⟩
/-- A byte that the cells of masks name is held, and its home answers. -/
theorem Holding.dirty_alive {k : Nat} {s : State} (h : Holding k s) {b : Nat} (hd : MaskedIn (lineMasks s k) b) :
    CachedPanel (b / 4096) ∧ Alive s (clusterDie k) b := by
  obtain ⟨x, hx, i, hi, hbit⟩ := hd
  obtain ⟨-, hat, hpanel⟩ := byteAt_of_index hi
  exact ⟨hpanel ▸ h.panels x hx, hat ▸ (h.masks x hx i hbit).2⟩
/-- Lines after some of their bytes were cleaned. -/
def Cleaned (ls ls' : List (LineKey × Nat)) (gone : Nat → Prop) : Prop :=
  (∀ b, HeldIn ls' b ↔ HeldIn ls b) ∧ (∀ b, MaskedIn ls' b ↔ MaskedIn ls b ∧ ¬ gone b) ∧
    ∀ x' ∈ ls', ∃ x ∈ ls, x'.1 = x.1 ∧ ∀ i, bitOf x'.2 i = true → bitOf x.2 i = true ∧ ¬ gone (x.1.byteAt i)
theorem cleaned_lines (lines : List Line) (cells : List Host.Cell) :
    Cleaned (lines.map fun l => (l.key, l.dirty)) ((lines.map (·.clean fun pa => cells.any fun c => c.1 == pa)).map fun l => (l.key, l.dirty))
      (· ∈ cells.map (·.1)) := by
  have hbit : ∀ (l : Line) (i : Nat), bitOf (l.clean fun pa => cells.any fun c => c.1 == pa).dirty i = true ↔
      i < 64 ∧ bitOf l.dirty i = true ∧ l.key.byteAt i ∉ cells.map (·.1) := fun l i => by
    rw [bitOf_clean, Bool.and_eq_true, Bool.and_eq_true, decide_eq_true_eq, Bool.not_eq_true', ← Bool.not_eq_true, any_cell]
  rw [List.map_map]
  refine ⟨fun b => ?_, fun b => ?_, fun x' hx' => ?_⟩
  · simp only [HeldIn, List.mem_map, Function.comp, exists_exists_and_eq_and]
    rfl
  · constructor
    · rintro ⟨x', hx', i, hi, hd⟩
      obtain ⟨l, hl, rfl⟩ := List.mem_map.1 hx'
      obtain ⟨-, hold, hkept⟩ := (hbit l i).1 hd
      rw [show l.key.byteAt i = b from (byteAt_of_index (key := l.key) hi).2.1] at hkept
      exact ⟨⟨_, List.mem_map.2 ⟨l, hl, rfl⟩, i, hi, hold⟩, hkept⟩
    · rintro ⟨⟨x, hx, i, hi, hd⟩, hkept⟩
      obtain ⟨l, hl, rfl⟩ := List.mem_map.1 hx
      obtain ⟨hlt, hat, -⟩ := byteAt_of_index hi
      exact ⟨_, List.mem_map.2 ⟨l, hl, rfl⟩, i, hi, (hbit l i).2 ⟨hlt, hd, by rw [hat]; exact hkept⟩⟩
  · obtain ⟨l, hl, rfl⟩ := List.mem_map.1 hx'
    exact ⟨_, List.mem_map.2 ⟨l, hl, rfl⟩, rfl, fun i hi => ((hbit l i).1 hi).2⟩
/-- Each line of t was a line of s, and what is dirty in it was so, and is none of what q accepts. -/
def Swept (k : Nat) (q : Nat → Bool) (s t : State) : Prop :=
  ∀ x' ∈ lineMasks t k, ∃ x ∈ lineMasks s k, x'.1 = x.1 ∧ ∀ i, bitOf x'.2 i = true → bitOf x.2 i = true ∧ q (x.1.byteAt i) = false
/-- Dirty bytes that went home, or are on their way, are clean; every byte reads as before. -/
theorem Holding.homeward {k : Nat} {s t : State} (h : Holding k s) (q : Nat → Bool) (hb : beside k t = beside k s)
    (hatom : (t.cluster k).atomLines = []) (hbytes : (t.cluster k).bytes = (s.cluster k).bytes)
    (hlines : Cleaned (lineMasks s k) (lineMasks t k) (· ∈ (s.dirtyCells k q).map (·.1)))
    (hbelow : ∀ b, t.belowByte k b = if b ∈ (s.dirtyCells k q).map (·.1) then Memory.read (s.cluster k).bytes b else s.belowByte k b)
    (hdrains : ∀ d ∈ t.drains, d.cluster = k ∧ (∃ v, Agree v d.cells) ∧ ∀ c ∈ d.cells, CachedPanel (c.1 / 4096) ∧ Alive s (clusterDie k) c.1) :
    Stays k s t ∧ Swept k q s t := by
  obtain ⟨hheld, hdirty, hmask⟩ := hlines
  refine ⟨⟨hb, h.of_beside hb hatom (fun x' hx' => ?_) (fun x' hx' i hi => ?_) (fun b hin hclean => ?_) hdrains, fun b => ?_⟩, fun x' hx' => ?_⟩
  · obtain ⟨x, hx, hkey, -⟩ := hmask x' hx'
    exact hkey ▸ h.panels x hx
  · obtain ⟨x, hx, hkey, hbits⟩ := hmask x' hx'
    rw [hkey]
    exact h.masks x hx i (hbits i hi).1
  · rw [hbytes, hbelow]
    split
    · rfl
    next hgone => exact h.clean b ((hheld b).1 hin) fun hd => hclean ((hdirty b).2 ⟨hd, hgone⟩)
  · by_cases hin : HeldIn (lineMasks s k) b
    · rw [view_held hatom (h.keys_of hb k) ((hheld b).2 hin), view_held h.atomLines (h.keys k) hin, hbytes]
    · rw [view_below hatom (h.keys_of hb k) (mt (hheld b).1 hin), view_below h.atomLines (h.keys k) hin, hbelow,
        if_neg fun hgone => hin ((h.mem_dirtyCells q b).1 hgone).1.held]
  · obtain ⟨x, hx, hkey, hbits⟩ := hmask x' hx'
    refine ⟨x, hx, hkey, fun i hi => ?_⟩
    obtain ⟨hold, hkept⟩ := hbits i hi
    rw [← Bool.not_eq_true]
    exact ⟨hold, fun hq => hkept ((h.mem_dirtyCells q _).2 ⟨⟨x, hx, i, (h.masks x hx i hold).1, hold⟩, hq⟩)⟩
theorem Holding.dirtyCells_facts {k : Nat} {s : State} (h : Holding k s) (q : Nat → Bool) :
    ∀ c ∈ s.dirtyCells k q, CachedPanel (c.1 / 4096) ∧ Alive s (clusterDie k) c.1 := fun c hc =>
  h.dirty_alive ((h.mem_dirtyCells q c.1).1 (List.mem_map.2 ⟨c, hc, rfl⟩)).1
/-- Dirty bytes start for their home. -/
theorem Holding.sendCells {k : Nat} {s : State} (h : Holding k s) (q : Nat → Bool) : Stays k s (s.sendCells k (s.dirtyCells k q)) := by
  unfold State.sendCells
  split
  · exact h.refl
  dsimp only
  generalize hd : Drain.mk k (s.dirtyCells k q) (s.marksOf k (s.dirtyCells k q)) _ = d
  obtain ⟨touched, writers, heq⟩ := cleanCells_eq { s with drains := s.drains ++ [d] } k (s.dirtyCells k q)
  have hdk : d.cluster = k := by rw [← hd]
  have hdc : d.cells = s.dirtyCells k q := by rw [← hd]
  have hagree : Agree (Memory.read (s.cluster k).bytes) d.cells := hdc ▸ maskedCells_agree s k _ q
  rw [heq]
  refine (h.homeward q (beside_setCluster { s with drains := s.drains ++ [d] } k _) ?_ ?_ ?_ (fun b => ?_) fun e he => ?_).1
  · rw [State.setCluster_cluster, if_pos rfl]
    exact List.map_eq_nil_iff.2 h.atomLines
  · rw [State.setCluster_cluster, if_pos rfl]
    rfl
  · rw [lineMasks, lineMasks, State.setCluster_cluster, if_pos rfl]
    exact cleaned_lines (s.cluster k).lines (s.dirtyCells k q)
  · rw [← hdc]
    exact belowOf_append hdk hagree s.mem s.drains b
  · obtain he | he := List.mem_append.1 he
    · exact h.drains e he
    · obtain rfl := List.mem_singleton.1 he
      exact ⟨hdk, ⟨_, hagree⟩, hdc ▸ h.dirtyCells_facts q⟩

-- The homes take what comes (spec/14 R278) ----------------------------------------------------------------------------------------------------------

/-- Bytes for which nothing leaves a cluster settle. -/
theorem accept_settle {s : State} {k : Option Nat} {cells : List Host.Cell} (hpurge : ∀ pa ∈ sectorBytes cells, s.purgeDie k pa = (s, []))
    (d : Nat) (marks : List Nat) : s.accept k d cells marks = s.settle d cells marks := by
  have gathered : ∀ pas : List Nat, (∀ pa ∈ pas, s.purgeDie k pa = (s, [])) → pas.foldl (fun (x : State × List Host.Cell) pa =>
      ((x.1.purgeDie k pa).1, x.2 ++ (x.1.purgeDie k pa).2)) (s, []) = (s, []) := fun pas h => by
    induction pas with
    | nil => rfl
    | cons pa pas ih =>
      rw [List.foldl_cons, h pa List.mem_cons_self, List.append_nil]
      exact ih fun x hx => h x (List.mem_cons_of_mem _ hx)
  unfold State.accept
  dsimp only
  rw [gathered _ hpurge]
  cases k <;> rfl
theorem purgeDie_none {s : State} {k : Option Nat} {pa : Nat} (h : ∀ j, some j ≠ k → ((s.cluster j).lines.isEmpty && (s.cluster j).atomLines.isEmpty &&
    (s.dcacheKeys j).isEmpty) = true ∨ s.holdsLine j (s.inGranule pa) = false) : s.purgeDie k pa = (s, []) := by
  unfold State.purgeDie
  generalize clustersOfDie (homeDie pa) = l
  induction l with
  | nil => rfl
  | cons j l ih =>
    rw [List.foldl_cons]
    split
    · exact ih
    next hskip =>
      simp only [Bool.or_eq_true, decide_eq_true_eq, not_or] at hskip
      have hnot := (h j hskip.1).resolve_left hskip.2
      rw [State.purgeAt, if_neg (by rw [hnot]; exact Bool.false_ne_true)]
      exact ih
/-- No other cluster has a copy to lose. -/
theorem accept_alone {k : Nat} {s : State} (halone : ∀ j, j ≠ k → (s.cluster j).lines = [] ∧ (s.cluster j).atomLines = []) (hkeys : ∀ j, s.dcacheKeys j = [])
    (d : Nat) (cells : List Host.Cell) (marks : List Nat) : s.accept (some k) d cells marks = s.settle d cells marks := by
  refine accept_settle (fun pa _ => purgeDie_none fun j hj => .inl ?_) d marks
  obtain ⟨hlines, hatom⟩ := halone j fun e => hj (congrArg some e)
  simp [hlines, hatom, hkeys]
/-- The oldest drain reaches its home. -/
theorem Holding.acceptFirst {k : Nat} {s : State} (h : Holding k s) {d : Drain} {ds : List Drain} (hds : s.drains = d :: ds) :
    Stays k s (({ s with drains := ds } : State).accept (some d.cluster) (clusterDie d.cluster) d.cells d.poison) ∧
      (({ s with drains := ds } : State).accept (some d.cluster) (clusterDie d.cluster) d.cells d.poison).drains = ds := by
  obtain ⟨hk, ⟨v, hv⟩, hcells⟩ := h.drains d (hds ▸ List.mem_cons_self)
  rw [hk, accept_alone (k := k) (s := { s with drains := ds }) h.alone h.keys]
  have hdrains := settle_drains { s with drains := ds } (clusterDie k) d.cells d.poison false
  have hcluster := settle_cluster { s with drains := ds } (clusterDie k) d.cells d.poison false
  have hmem := mem_settle_alive { s with drains := ds } (fun c hc => (hcells c hc).2) d.poison
  have hbeside : beside k (State.settle { s with drains := ds } (clusterDie k) d.cells d.poison) = beside k s := beside_settle { s with drains := ds } k _ _ _ _
  generalize State.settle { s with drains := ds } (clusterDie k) d.cells d.poison = t at *
  have hcl : t.cluster k = s.cluster k := hcluster k
  have hbelow : ∀ b, t.belowByte k b = s.belowByte k b := fun b => by
    rw [belowByte_eq, belowByte_eq, hds, belowOf_cons hk hv, hdrains, hmem]
  refine ⟨⟨hbeside, h.of_beside hbeside (hcl ▸ h.atomLines) (by rw [lineMasks, hcl]; exact h.panels) (by rw [lineMasks, hcl]; exact h.masks)
    (fun b => by rw [lineMasks, hcl, hbelow]; exact h.clean b) fun e he => ?_, fun b => ?_⟩, hdrains⟩
  · rw [hdrains] at he
    exact h.drains e (hds ▸ List.mem_cons_of_mem _ he)
  · have hres : t.resident k b = s.resident k b := by rw [State.resident, State.resident, hcl, h.keys_of hbeside, h.keys]
    rw [State.clusterByte, State.clusterByte, hres, hcl, hbelow]
theorem Holding.flushFirst {k n : Nat} {s : State} (h : Holding k s) (hn : s.drains.length ≤ n) : Stays k s (s.flushFirst n) ∧ (s.flushFirst n).drains = [] := by
  induction n generalizing s with
  | zero => exact ⟨h.refl, List.eq_nil_of_length_eq_zero (Nat.le_zero.1 hn)⟩
  | succ n ih =>
    unfold State.flushFirst
    split
    next hds => exact ⟨h.refl, hds⟩
    next d ds hds =>
      obtain ⟨hstays, hdrains⟩ := h.acceptFirst hds
      rw [hds, List.length_cons] at hn
      obtain ⟨hrest, hnil⟩ := ih hstays.holding (by rw [hdrains]; omega)
      exact ⟨hstays.trans hrest, hnil⟩
theorem Holding.flushDrains {k : Nat} {s : State} (h : Holding k s) : Stays k s s.flushDrains ∧ s.flushDrains.drains = [] := h.flushFirst le_rfl
/-- Dirty bytes go home at once, where nothing is on its way. -/
theorem Holding.acceptDirty {k : Nat} {s : State} (h : Holding k s) (hnil : s.drains = []) (q : Nat → Bool) (marks : List Nat) :
    let t := (s.cleanCells k (s.dirtyCells k q)).accept (some k) (clusterDie k) (s.dirtyCells k q) marks
    Stays k s t ∧ Swept k q s t := by
  dsimp only
  obtain ⟨touched, writers, heq⟩ := cleanCells_eq s k (s.dirtyCells k q)
  have hfacts := h.dirtyCells_facts q
  have hagree : Agree (Memory.read (s.cluster k).bytes) (s.dirtyCells k q) := maskedCells_agree s k _ q
  generalize hcells : s.dirtyCells k q = cells at *
  have hb0 : beside k (s.cleanCells k cells) = beside k s := by rw [heq]; exact beside_setCluster s k _
  have halone : ∀ j, j ≠ k → ((s.cleanCells k cells).cluster j).lines = [] ∧ ((s.cleanCells k cells).cluster j).atomLines = [] := fun j hj => by
    rw [cluster_of_beside hb0 hj]
    exact h.alone j hj
  have hmem0 : (s.cleanCells k cells).mem = s.mem := by rw [heq]; rfl
  have hdrains0 : (s.cleanCells k cells).drains = [] := by rw [heq]; exact hnil
  rw [accept_alone halone (h.keys_of hb0)]
  have hcluster := settle_cluster (s.cleanCells k cells) (clusterDie k) cells marks false k
  have hmem := mem_settle_alive (s.cleanCells k cells) (fun c hc => alive_of_beside hb0 (hfacts c hc).2) marks
  have hdrains := settle_drains (s.cleanCells k cells) (clusterDie k) cells marks false
  have hbeside := (beside_settle (s.cleanCells k cells) k (clusterDie k) cells marks false).trans hb0
  rw [hmem0] at hmem
  rw [hdrains0] at hdrains
  rw [show (s.cleanCells k cells).cluster k = _ from (congrArg (fun t => t.cluster k) heq).trans ((by rw [State.setCluster_cluster, if_pos rfl]))] at hcluster
  generalize (s.cleanCells k cells).settle (clusterDie k) cells marks = t at *
  subst hcells
  refine h.homeward q hbeside ?_ ?_ ?_ (fun b => ?_) fun e he => ?_
  · rw [hcluster]
    exact List.map_eq_nil_iff.2 h.atomLines
  · rw [hcluster]
  · rw [lineMasks, lineMasks, hcluster]
    exact cleaned_lines (s.cluster k).lines (s.dirtyCells k q)
  · rw [belowByte_eq, belowByte_eq, hdrains, hmem, hnil]
    exact read_writeCells hagree s.mem b
  · rw [hdrains] at he
    cases he

end Sys2Proof.Claims
end

section
/-!
PROOFS. Lines that enter and leave a cluster which alone holds copies (spec/12 R247, R254): every byte reads as before.
-/
namespace Sys2Proof.Claims
open Machine

-- A line leaves (spec/12 R247) ----------------------------------------------------------------------------------------------------------------------

theorem dirty_zero_bits {m : Nat} (h : m = 0) (i : Nat) : bitOf m i = false := by
  rw [bitOf_eq, h, Nat.zero_testBit]
theorem dirtyByte_iff {s : State} {k : Nat} (hatom : (s.cluster k).atomLines = []) (b : Nat) : s.dirtyByte k b = true ↔ MaskedIn (lineMasks s k) b := by
  rw [State.dirtyByte, hatom]
  simp only [List.any_nil, Bool.or_false, List.any_eq_true, MaskedIn, lineMasks, List.mem_map, exists_exists_and_eq_and]
  refine exists_congr fun l => and_congr_right fun _ => ?_
  cases l.key.index b <;> simp
theorem setCluster_forget (s : State) (k : Nat) (c : Cluster) (pas : List Nat) : ∃ poison, (s.setCluster k c).forget k pas =
    s.setCluster k { c with
      bytes := (pas.filter fun pa => !(s.setCluster k c).resident k pa).foldl (fun m pa => Memory.write m pa blank) c.bytes, poison := poison } := by
  rw [State.forget, State.updCluster_eq, setCluster_setCluster, State.setCluster_cluster, if_pos rfl]
  exact ⟨_, rfl⟩
/-- The cluster without some lines that had no dirty byte. -/
theorem Holding.fewerLines {k : Nat} {s : State} (h : Holding k s) {p : LineKey → Bool} (hp : ∀ x ∈ lineMasks s k, p x.1 = true → ∀ i, bitOf x.2 i = false)
    {c : Cluster} (hlines : c.lines = (s.cluster k).lines.filter fun l => !p l.key) (hatom : c.atomLines = [])
    (hkept : ∀ b, HeldIn (c.lines.map fun l => (l.key, l.dirty)) b → Memory.read c.bytes b = Memory.read (s.cluster k).bytes b) :
    Stays k s (s.setCluster k c) := by
  have hc : (s.setCluster k c).cluster k = c := by rw [State.setCluster_cluster, if_pos rfl]
  have hb := beside_setCluster s k c
  have hbelow : ∀ b, (s.setCluster k c).belowByte k b = s.belowByte k b := fun _ => rfl
  have hat : ((s.setCluster k c).cluster k).atomLines = [] := by rw [hc, hatom]
  have hmem : ∀ x, x ∈ lineMasks (s.setCluster k c) k ↔ x ∈ lineMasks s k ∧ p x.1 = false := fun x => by
    rw [lineMasks, lineMasks, hc, hlines]
    simp only [List.mem_map, List.mem_filter, Bool.not_eq_true']
    constructor
    · rintro ⟨l, ⟨hl, hpl⟩, rfl⟩
      exact ⟨⟨l, hl, rfl⟩, hpl⟩
    · rintro ⟨⟨l, hl, rfl⟩, hpl⟩
      exact ⟨l, ⟨hl, hpl⟩, rfl⟩
  have hheld : ∀ b, HeldIn (lineMasks (s.setCluster k c) k) b → HeldIn (lineMasks s k) b := fun b ⟨x, hx, hb⟩ => ⟨x, ((hmem x).1 hx).1, hb⟩
  have hdirty : ∀ b, MaskedIn (lineMasks s k) b → MaskedIn (lineMasks (s.setCluster k c) k) b := fun b ⟨x, hx, i, hi, hbit⟩ => by
    refine ⟨x, (hmem x).2 ⟨hx, ?_⟩, i, hi, hbit⟩
    rw [← Bool.not_eq_true]
    intro hpx
    rw [hp x hx hpx i] at hbit
    cases hbit
  have hbytes : ∀ b, HeldIn (lineMasks (s.setCluster k c) k) b → Memory.read ((s.setCluster k c).cluster k).bytes b = Memory.read (s.cluster k).bytes b := by
    rw [lineMasks, hc]
    exact hkept
  refine ⟨hb, h.of_beside hb hat (fun x hx => h.panels x ((hmem x).1 hx).1) (fun x hx => h.masks x ((hmem x).1 hx).1)
    (fun b hin hclean => ?_) h.drains, fun b => ?_⟩
  · rw [hbytes b hin, hbelow]
    exact h.clean b (hheld b hin) (mt (hdirty b) hclean)
  · by_cases hin : HeldIn (lineMasks (s.setCluster k c) k) b
    · rw [view_held hat (h.keys_of hb k) hin, view_held h.atomLines (h.keys k) (hheld b hin), hbytes b hin]
    · rw [view_below hat (h.keys_of hb k) hin, hbelow]
      by_cases hwas : HeldIn (lineMasks s k) b
      · rw [view_held h.atomLines (h.keys k) hwas, h.clean b hwas fun hd => hin (hdirty b hd).held]
      · rw [view_below h.atomLines (h.keys k) hwas]
/-- Lines without a dirty byte leave. -/
theorem Holding.removeLines {k : Nat} {s : State} (h : Holding k s) {p : LineKey → Bool}
    (hp : ∀ x ∈ lineMasks s k, p x.1 = true → ∀ i, bitOf x.2 i = false) : Stays k s (s.removeLines k p) := by
  obtain ⟨touched, writers, pas, heq⟩ := removeLines_eq (h.keys k) p
  generalize hc : ({ s.cluster k with
    lines := (s.cluster k).lines.filter fun l => !p l.key, atomLines := (s.cluster k).atomLines.filter fun l => !p l.key,
    touched := touched, writers := writers } : Cluster) = c at heq
  have hatom : c.atomLines = [] := by
    rw [← hc]
    dsimp only
    rw [h.atomLines]
    rfl
  have hck : (s.setCluster k c).cluster k = c := by rw [State.setCluster_cluster, if_pos rfl]
  have hres : ∀ b, (s.setCluster k c).resident k b = true ↔ HeldIn (c.lines.map fun l => (l.key, l.dirty)) b := fun b => by
    rw [resident_iff (s := s.setCluster k c) (by rw [hck, hatom]) (h.keys k), lineMasks, hck]
  obtain ⟨poison, hforget⟩ := setCluster_forget s k c pas
  rw [heq, hforget]
  refine h.fewerLines hp (by rw [← hc]) hatom fun b hb => ?_
  dsimp only
  rw [read_writes, if_neg, ← hc]
  rw [List.mem_filter, (hres b).2 hb]
  exact fun hgone => Bool.noConfusion hgone.2
/-- What leaves with some lines goes home, and leaves them without a dirty byte. -/
theorem Holding.drainLines {k : Nat} {s : State} (h : Holding k s) (p : LineKey → Bool) :
    Stays k s (s.drainLines k p) ∧ ∀ x ∈ lineMasks (s.drainLines k p) k, p x.1 = true → ∀ i, bitOf x.2 i = false := by
  unfold State.drainLines
  split
  case isFalse hclean =>
    refine ⟨h.refl, fun x hx hpx i => ?_⟩
    obtain ⟨l, hl, rfl⟩ := List.mem_map.1 hx
    refine dirty_zero_bits ?_ i
    by_contra hne
    refine hclean (List.any_eq_true.2 ⟨l, List.mem_filter.2 ⟨List.mem_append_left _ hl, hpx⟩, ?_⟩)
    simpa using hne
  case isTrue =>
    obtain ⟨hflush, hnil⟩ := h.flushDrains
    generalize s.flushDrains = u at hflush hnil ⊢
    dsimp only [State.leavingCells]
    generalize hsecs : sectorsOf (u.maskedCells k ((u.cluster k).linesWhere p) fun _ => true) = secs
    obtain ⟨hstays, hleft⟩ := hflush.holding.acceptDirty hnil (fun pa => secs.contains (sectorOf pa))
      (u.marksOf k (u.dirtyCells k fun pa => secs.contains (sectorOf pa)))
    refine ⟨hflush.trans hstays, fun x hx hpx i => ?_⟩
    obtain ⟨y, hy, hkey, hbits⟩ := hleft x hx
    rw [← Bool.not_eq_true]
    intro hbit
    obtain ⟨hold, hkept⟩ := hbits i hbit
    obtain ⟨l, hl, rfl⟩ := List.mem_map.1 hy
    dsimp only at hkey hold hkept
    rw [← Bool.not_eq_true, List.contains_iff_mem] at hkept
    refine hkept (hsecs ▸ (mem_sectorsAt ..).2 ⟨_, (mem_maskedCells ..).2
      ⟨l, List.mem_filter.2 ⟨List.mem_append_left _ hl, hkey ▸ hpx⟩, i, ?_, hold, rfl, rfl⟩, rfl⟩)
    exact (byteAt_of_index (hflush.holding.masks _ hy i hold).1).1
/-- Lines leave, their dirty bytes for home. -/
theorem Holding.evict {k : Nat} {s : State} (h : Holding k s) (p : LineKey → Bool) : Stays k s (s.evict k p) := by
  obtain ⟨hstays, hclean⟩ := h.drainLines p
  exact hstays.trans (hstays.holding.removeLines hclean)

-- A line enters (spec/12 R247, R254) ----------------------------------------------------------------------------------------------------------------

/-- Clean copies read again from below are as before. -/
theorem Holding.freshen {k : Nat} {s : State} (h : Holding k s) (pas : List Nat) :
    Stays k s (s.freshen k pas) ∧ lineMasks (s.freshen k pas) k = lineMasks s k := by
  rw [State.freshen, State.reread]
  generalize sectorsAt _ = secs
  dsimp only
  split
  · exact ⟨h.refl, rfl⟩
  rw [State.updCluster_eq]
  refine ⟨h.setCluster rfl rfl fun b hheld => ?_, by rw [lineMasks, lineMasks, State.setCluster_cluster, if_pos rfl]⟩
  dsimp only
  rw [read_writes]
  split
  next hb =>
    obtain ⟨-, -, hclean⟩ := (mem_cleanIn ..).1 hb
    refine (h.clean b hheld fun hd => ?_).symm
    rw [(dirtyByte_iff h.atomLines b).2 hd] at hclean
    cases hclean
  next => rfl
theorem heldIn_cons (x : LineKey × Nat) (ls : List (LineKey × Nat)) (b : Nat) : HeldIn (x :: ls) b ↔ x.1.holds b = true ∨ HeldIn ls b := by
  simp [HeldIn]
theorem MaskedIn.cons {ls : List (LineKey × Nat)} {b : Nat} (x : LineKey × Nat) (h : MaskedIn ls b) : MaskedIn (x :: ls) b := by
  obtain ⟨y, hy, hbit⟩ := h
  exact ⟨y, List.mem_cons_of_mem _ hy, hbit⟩
/-- The cluster with one clean line more, whose bytes were held or come from below. -/
theorem Holding.addLine {k : Nat} {s : State} (h : Holding k s) {line : Line} (hdirty : line.dirty = 0) (hpanel : CachedPanel line.key.panel)
    {c : Cluster} (hlines : c.lines = line :: (s.cluster k).lines) (hatom : c.atomLines = [])
    (hkept : ∀ b, HeldIn (lineMasks s k) b → Memory.read c.bytes b = Memory.read (s.cluster k).bytes b)
    (hfilled : ∀ b, line.key.holds b = true → ¬ HeldIn (lineMasks s k) b → Memory.read c.bytes b = s.belowByte k b) : Stays k s (s.setCluster k c) := by
  have hc : (s.setCluster k c).cluster k = c := by rw [State.setCluster_cluster, if_pos rfl]
  have hb := beside_setCluster s k c
  have hbelow : ∀ b, (s.setCluster k c).belowByte k b = s.belowByte k b := fun _ => rfl
  have hmasks : lineMasks (s.setCluster k c) k = (line.key, line.dirty) :: lineMasks s k := by rw [lineMasks, hc, hlines]; rfl
  have hat : ((s.setCluster k c).cluster k).atomLines = [] := by rw [hc, hatom]
  refine ⟨hb, h.of_beside hb hat (fun x hx => ?_) (fun x hx i hi => ?_) (fun b hin hclean => ?_) h.drains, fun b => ?_⟩
  · rw [hmasks] at hx
    obtain rfl | hx := List.mem_cons.1 hx
    · exact hpanel
    · exact h.panels x hx
  · rw [hmasks] at hx
    obtain rfl | hx := List.mem_cons.1 hx
    · rw [dirty_zero_bits hdirty] at hi
      cases hi
    · exact h.masks x hx i hi
  · rw [hmasks] at hin hclean
    rw [hc, hbelow]
    by_cases hwas : HeldIn (lineMasks s k) b
    · rw [hkept b hwas, h.clean b hwas (mt (MaskedIn.cons _) hclean)]
    · exact hfilled b (((heldIn_cons ..).1 hin).resolve_right hwas) hwas
  · by_cases hwas : HeldIn (lineMasks s k) b
    · rw [view_held hat (h.keys_of hb k) (hmasks ▸ (heldIn_cons ..).2 (.inr hwas)), view_held h.atomLines (h.keys k) hwas, hc, hkept b hwas]
    · rw [view_below h.atomLines (h.keys k) hwas]
      by_cases hin : line.key.holds b = true
      · rw [view_held hat (h.keys_of hb k) (hmasks ▸ (heldIn_cons ..).2 (.inl hin)), hc, hfilled b hin hwas]
      · rw [view_below hat (h.keys_of hb k) (hmasks ▸ mt (heldIn_cons ..).1 (not_or.2 ⟨hin, hwas⟩)), hbelow]
/-- Cluster k has a line of this key. -/
def HasLine (s : State) (k : Nat) (key : LineKey) : Prop := ∃ x ∈ lineMasks s k, x.1 = key
/-- A clean line enters, with the bytes that no copy held from below. -/
theorem Holding.enter {k : Nat} {s : State} (h : Holding k s) {line : Line} (hdirty : line.dirty = 0) (hpanel : CachedPanel line.key.panel) :
    let t := (s.fillBytes k line.key).updCluster k fun c => { c with lines := line :: c.lines }
    Stays k s t ∧ HasLine t k line.key := by
  obtain ⟨hstays, hlines⟩ := h.freshen (line.key.bytes.filter fun b => !s.resident k b)
  have hmissing : ∀ b, b ∈ line.key.bytes.filter (fun b => !s.resident k b) ↔ b ∈ line.key.bytes ∧ ¬ HeldIn (lineMasks s k) b := fun b => by
    rw [List.mem_filter, Bool.not_eq_true', ← Bool.not_eq_true, resident_iff h.atomLines (h.keys k)]
  unfold State.fillBytes
  dsimp only
  rw [← hlines] at hmissing
  generalize line.key.bytes.filter (fun b => !s.resident k b) = missing at hstays hmissing hlines ⊢
  generalize s.freshen k missing = u at hstays hmissing hlines ⊢
  have hread := hstays.holding.offTrackers (offTrackers_mscReads u missing false)
  have hcl : (u.mscReads missing).cluster k = u.cluster k := mscReads_cluster u missing false k
  have hmasks : lineMasks (u.mscReads missing) k = lineMasks u k := by rw [lineMasks, lineMasks, hcl]
  have hbelow : ∀ b, (u.mscReads missing).belowByte k b = u.belowByte k b := belowByte_of_offTrackers (offTrackers_mscReads u missing false) k
  rw [State.updCluster_eq, setCluster_setCluster, State.setCluster_cluster, if_pos rfl]
  refine ⟨(hstays.trans hread).trans (hread.holding.addLine hdirty hpanel ?_ ?_ (fun b hb => ?_) fun b hin hb => ?_), ?_⟩
  · rw [hcl]
  · exact hstays.holding.atomLines
  · dsimp only
    rw [read_writes, if_neg fun hm => ((hmissing b).1 hm).2 (hmasks ▸ hb), hcl]
  · dsimp only
    rw [read_writes, if_pos ((hmissing b).2 ⟨mem_bytes_of_holds hin, hmasks ▸ hb⟩), hbelow]
  · refine ⟨(line.key, line.dirty), ?_, rfl⟩
    rw [lineMasks, State.setCluster_cluster, if_pos rfl]
    exact List.mem_cons_self
/-- A line fill leaves every byte as before, and the line in the cluster. -/
theorem Holding.lineFill {k : Nat} {s : State} (h : Holding k s) {key : LineKey} (hpanel : CachedPanel key.panel) (o : Bool) (pa : Nat) :
    Stays k s (s.lineFill k key o pa) ∧ HasLine (s.lineFill k key o pa) k key := by
  unfold State.lineFill
  split
  case isTrue hin =>
    obtain ⟨l, hl, hkey⟩ := List.any_eq_true.1 hin
    have hused : ((s.cluster k).lines.map fun l => if l.key = key then { l with usedAt := s.now } else l).map (fun l => (l.key, l.dirty)) = lineMasks s k := by
      rw [List.map_map, lineMasks]
      refine List.map_congr_left fun l _ => ?_
      simp only [Function.comp]
      split <;> rfl
    rw [State.updCluster_eq]
    refine ⟨h.setCluster rfl hused fun _ _ => rfl, (l.key, l.dirty), ?_, beq_iff_eq.1 hkey⟩
    rw [lineMasks, State.setCluster_cluster, if_pos rfl, hused]
    exact List.mem_map.2 ⟨l, hl, rfl⟩
  case isFalse =>
    have hclass := fillClass_acc s k key pa
    generalize s.fillClass k key pa = x at hclass
    obtain ⟨cls, c⟩ := x
    dsimp only at hclass ⊢
    have h1 : Stays k s (s.setCluster k c) := h.setCluster (by rw [hclass]) (by rw [hclass]; rfl) fun b _ => by rw [hclass]
    have placed : ∀ u : State, Stays k s u → ∀ line : Line, line.key = key → line.dirty = 0 →
        Stays k s ((u.fillBytes k key).updCluster k fun c => { c with lines := line :: c.lines }) ∧
          HasLine ((u.fillBytes k key).updCluster k fun c => { c with lines := line :: c.lines }) k key := by
      rintro u hu line rfl hdirty
      obtain ⟨hstays, hhas⟩ := hu.holding.enter hdirty hpanel
      exact ⟨hu.trans hstays, hhas⟩
    generalize c.placeFor key cls = place
    obtain ⟨way, out⟩ := place
    cases out with
    | none => exact placed _ h1 _ rfl rfl
    | some v => exact placed _ (h1.trans (h1.holding.evict fun l => l == v)) _ rfl rfl

end Sys2Proof.Claims
end

section
/-!
PROOFS. What a store of a cluster that alone holds copies gives every byte (spec/12 R247, R255, spec/14 R278).
-/
namespace Sys2Proof.Claims
open Machine

-- Bytes written (spec/12 R255) ----------------------------------------------------------------------------------------------------------------------

/-- t is s after a store of some cells, of which v gives the bytes; nothing beside the cluster changed. -/
structure Wrote (k : Nat) (s t : State) (cells : List Host.Cell) (v : Nat → Byte) : Prop where
  beside : Claims.beside k t = Claims.beside k s
  holding : Holding k t
  written : ∀ b, b ∈ cells.map (·.1) → t.clusterByte k b = v b
  others : ∀ b, b ∉ cells.map (·.1) → t.clusterByte k b = s.clusterByte k b
section
variable {k : Nat} {s t u : State} {cells : List Host.Cell} {v : Nat → Byte}
theorem Stays.wrote (h : Stays k s t) (g : Wrote k t u cells v) : Wrote k s u cells v :=
  ⟨g.beside.trans h.beside, g.holding, g.written, fun b hb => (g.others b hb).trans (h.views b)⟩
theorem Wrote.stays (h : Wrote k s t cells v) (g : Stays k t u) : Wrote k s u cells v :=
  ⟨g.beside.trans h.beside, g.holding, fun b hb => (g.views b).trans (h.written b hb), fun b hb => (g.views b).trans (h.others b hb)⟩
end
theorem Holding.touch {k : Nat} {s : State} (h : Holding k s) (core : Nat) (pas : List Nat) : Stays k s (s.touch k core pas) :=
  h.setCluster rfl rfl fun _ _ => rfl
theorem Holding.ownBytes {k : Nat} {s : State} (h : Holding k s) (ten : Nat) (pas : List Nat) : Stays k s (s.ownBytes k ten pas) :=
  h.setCluster rfl rfl fun _ _ => rfl
theorem Holding.partTenants {k : Nat} {s : State} (h : Holding k s) (ten : Nat) (pas : List Nat) : Stays k s (s.partTenants k ten pas) := by
  unfold State.partTenants
  dsimp only
  split
  · exact h.refl
  · exact h.sendCells _
/-- A line of a mask with the places of some cells where its key is that of the store. -/
def marked (through : LineKey) (cells : List Host.Cell) (x : LineKey × Nat) : LineKey × Nat :=
  if x.1 = through then (x.1, markedBy x.1 cells x.2) else x
theorem marked_key (through : LineKey) (cells : List Host.Cell) (x : LineKey × Nat) : (marked through cells x).1 = x.1 := by
  unfold marked
  split <;> rfl
theorem bitOf_marked {through : LineKey} {cells : List Host.Cell} {x : LineKey × Nat} {i : Nat} :
    bitOf (marked through cells x).2 i = true ↔ bitOf x.2 i = true ∨ x.1 = through ∧ ∃ c ∈ cells, x.1.index c.1 = some i := by
  rw [bitOf_eq, bitOf_eq, marked]
  split
  next h => rw [testBit_markedBy]; simp [h]
  next h => simp [h]
theorem writeCopies_eq (s : State) (k : Nat) (through : LineKey) (cells : List Host.Cell) : ∃ c : Cluster, s.writeCopies k through false cells = s.setCluster k c ∧
    c.atomLines = (s.cluster k).atomLines ∧ c.bytes = Memory.writeCells (s.cluster k).bytes cells ∧
    c.lines.map (fun l => (l.key, l.dirty)) = (lineMasks s k).map (marked through cells) := by
  unfold State.writeCopies
  dsimp only
  rw [State.updCluster_eq]
  refine ⟨_, rfl, rfl, rfl, ?_⟩
  dsimp only
  rw [if_neg Bool.false_ne_true, lineMasks, List.map_map, List.map_map]
  refine List.map_congr_left fun l _ => ?_
  simp only [Function.comp, marked]
  split <;> rfl
/-- Bytes that a line holds merge into it. -/
theorem Holding.writeCopies {k : Nat} {s : State} (h : Holding k s) {through : LineKey} (hline : HasLine s k through) {cells : List Host.Cell} {v : Nat → Byte}
    (hagree : Agree v cells) (hin : ∀ c ∈ cells, through.holds c.1 = true) (halive : ∀ c ∈ cells, Alive s (clusterDie k) c.1) :
    Wrote k s (s.writeCopies k through false cells) cells v := by
  obtain ⟨c, heq, hatom, hbytes, hlines⟩ := writeCopies_eq s k through cells
  rw [heq]
  have hc : (s.setCluster k c).cluster k = c := by rw [State.setCluster_cluster, if_pos rfl]
  have hb := beside_setCluster s k c
  have hbelow : ∀ b, (s.setCluster k c).belowByte k b = s.belowByte k b := fun _ => rfl
  have hmasks : lineMasks (s.setCluster k c) k = (lineMasks s k).map (marked through cells) := by rw [lineMasks, hc, hlines]
  have hat : ((s.setCluster k c).cluster k).atomLines = [] := by rw [hc, hatom, h.atomLines]
  have hheld : ∀ b, HeldIn (lineMasks (s.setCluster k c) k) b ↔ HeldIn (lineMasks s k) b := fun b => by
    simp only [hmasks, HeldIn, List.mem_map, exists_exists_and_eq_and, marked_key]
  have hcell : ∀ b, b ∈ cells.map (·.1) → through.holds b = true := fun b hb => by
    obtain ⟨x, hx, rfl⟩ := List.mem_map.1 hb
    exact hin x hx
  have hcells : ∀ b, b ∈ cells.map (·.1) → HeldIn (lineMasks s k) b := fun b hb => by
    obtain ⟨x, hx, hkey⟩ := hline
    exact ⟨x, hx, hkey ▸ hcell b hb⟩
  have hread : ∀ b, Memory.read ((s.setCluster k c).cluster k).bytes b = if b ∈ cells.map (·.1) then v b else Memory.read (s.cluster k).bytes b := fun b => by
    rw [hc, hbytes, read_writeCells hagree]
  refine ⟨hb, h.of_beside hb hat (fun x' hx' => ?_) (fun x' hx' i hi => ?_) (fun b hheldb hclean => ?_) h.drains, fun b hbc => ?_, fun b hbc => ?_⟩
  · rw [hmasks] at hx'
    obtain ⟨x, hx, rfl⟩ := List.mem_map.1 hx'
    rw [marked_key]
    exact h.panels x hx
  · rw [hmasks] at hx'
    obtain ⟨x, hx, rfl⟩ := List.mem_map.1 hx'
    rw [marked_key]
    obtain hold | ⟨-, y, hy, hidx⟩ := bitOf_marked.1 hi
    · exact h.masks x hx i hold
    · rw [(byteAt_of_index hidx).2.1]
      exact ⟨hidx, halive y hy⟩
  · have hnot : b ∉ cells.map (·.1) := fun hbc => hclean <| by
      obtain ⟨x, hx, hkey⟩ := hline
      obtain ⟨y, hy, hyb⟩ := List.mem_map.1 hbc
      obtain ⟨i, hi⟩ := Option.isSome_iff_exists.1 (hcell b hbc)
      refine ⟨marked through cells x, hmasks ▸ List.mem_map_of_mem hx, i, ?_, bitOf_marked.2 (.inr ⟨hkey, y, hy, ?_⟩)⟩
      · rw [marked_key, hkey, hi]
      · rw [hkey, hyb, hi]
    rw [hread, if_neg hnot, hbelow]
    refine h.clean b ((hheld b).1 hheldb) fun ⟨x, hx, i, hi, hbit⟩ => hclean
      ⟨marked through cells x, hmasks ▸ List.mem_map_of_mem hx, i, ?_, bitOf_marked.2 (.inl hbit)⟩
    rw [marked_key, hi]
  · rw [view_held hat (h.keys_of hb k) ((hheld b).2 (hcells b hbc)), hread, if_pos hbc]
  · by_cases hin : HeldIn (lineMasks s k) b
    · rw [view_held hat (h.keys_of hb k) ((hheld b).2 hin), view_held h.atomLines (h.keys k) hin, hread, if_neg hbc]
    · rw [view_below hat (h.keys_of hb k) (mt (hheld b).1 hin), view_below h.atomLines (h.keys k) hin, hbelow]

-- Bytes that no cache serves (spec/14 R276) ---------------------------------------------------------------------------------------------------------

/-- Caches serve a page as a whole, but for what nothing serves. -/
theorem cacheable_panel {b : Nat} (h : CachedPanel (b / 4096)) (hs : servedBy b ≠ .nothing) : cacheable b = true := by
  obtain ⟨c, hc, hpanel⟩ := h
  unfold cacheable servedBy at *
  by_cases h1 : b < 0x8000000000
  · simp only [h1, if_true] at hs ⊢
    split at hs
    next h2 => rw [if_pos h2]
    next => exact absurd rfl hs
  have h1c : ¬ c < 0x8000000000 := by omega
  simp only [h1, h1c, if_false] at hs hc ⊢
  by_cases h2 : 0x1000000000000 ≤ b ∧ b < 0x2000000000000
  · simp only [if_pos h2] at hs ⊢
    split at hs
    next h3 => rw [if_pos h3]
    next => exact absurd rfl hs
  have h2c : ¬ (0x1000000000000 ≤ c ∧ c < 0x2000000000000) := by omega
  simp only [if_neg h2c] at hc
  split at hc
  next x hx =>
    split_ifs at hx
  next x hx => split_ifs at hx
  next => cases hc
theorem inFlight_none {ds : List Drain} {k b : Nat} (h : ∀ d ∈ ds, b ∉ d.cells.map (·.1)) : inFlight ds k b = none := by
  rw [inFlight_eq]
  induction ds with
  | nil => rfl
  | cons d ds ih =>
    have hfind : d.cells.find? (fun c => c.1 == b) = none := List.find?_eq_none.2 fun c hc heq =>
      h d List.mem_cons_self (List.mem_map.2 ⟨c, hc, beq_iff_eq.1 heq⟩)
    rw [List.foldl_cons, show drainStep k b none d = none by rw [drainStep, hfind]; exact ite_self _]
    exact ih fun x hx => h x (List.mem_cons_of_mem _ hx)
/-- Bytes that no cache serves are written at their homes. -/
theorem Holding.settleCells {k : Nat} {s : State} (h : Holding k s) {cells : List Host.Cell} {v : Nat → Byte}
    (hagree : Agree v cells) (halive : ∀ c ∈ cells, Alive s (clusterDie k) c.1) (hpanel : ∀ c ∈ cells, ¬ CachedPanel (c.1 / 4096)) :
    Wrote k s (s.accept none (clusterDie k) cells []) cells v := by
  have hno : ∀ pa ∈ sectorBytes cells, s.purgeDie none pa = (s, []) := fun pa hpa => by
    obtain ⟨x, hx, rfl⟩ := List.mem_map.1 hpa
    obtain ⟨b, hb, rfl⟩ := (mem_sectorsAt ..).1 hx
    obtain ⟨c, hc, rfl⟩ := List.mem_map.1 hb
    have hapart : ∀ y ∈ lineMasks s k, y.1.panel ≠ 32 * sectorOf c.1 / 4096 := fun y hy hp => hpanel c hc <| by
      rw [show c.1 / 4096 = y.1.panel by rw [hp]; unfold sectorOf; omega]
      exact h.panels y hy
    refine purgeDie_none fun j _ => ?_
    by_cases hj : j = k
    · subst hj
      refine .inr ?_
      rw [State.holdsLine, h.atomLines, h.keys]
      simp only [List.any_nil, Bool.or_false]
      refine List.any_eq_false.2 fun l hl hin => ?_
      have hl' : (l.key, l.dirty) ∈ lineMasks s j := List.mem_map.2 ⟨l, hl, rfl⟩
      unfold State.inGranule at hin
      split at hin
      · exact hapart _ hl' (beq_iff_eq.1 hin)
      · refine hapart _ hl' ((panel_of_holds hin).trans ?_)
        omega
    · obtain ⟨hlines, hatom⟩ := h.alone j hj
      exact .inl (by simp [hlines, hatom, h.keys])
  rw [accept_settle hno]
  have hcluster := settle_cluster s (clusterDie k) cells [] false k
  have hmem := mem_settle_alive s halive []
  have hdrains := settle_drains s (clusterDie k) cells [] false
  have hb := beside_settle s k (clusterDie k) cells [] false
  generalize s.settle (clusterDie k) cells [] = t at *
  have hmasks : lineMasks t k = lineMasks s k := by rw [lineMasks, lineMasks, hcluster]
  have hat : (t.cluster k).atomLines = [] := hcluster ▸ h.atomLines
  have hcell : ∀ b, b ∈ cells.map (·.1) → ¬ CachedPanel (b / 4096) := fun b hb => by
    obtain ⟨c, hc, rfl⟩ := List.mem_map.1 hb
    exact hpanel c hc
  have hapart : ∀ b, HeldIn (lineMasks s k) b → b ∉ cells.map (·.1) := fun b ⟨x, hx, hin⟩ hbc =>
    hcell b hbc (panel_of_holds hin ▸ h.panels x hx)
  have hflight : ∀ b, b ∈ cells.map (·.1) → inFlight s.drains k b = none := fun b hbc =>
    inFlight_none fun d hd hin => by
      obtain ⟨c, hc, rfl⟩ := List.mem_map.1 hin
      exact hcell _ hbc ((h.drains d hd).2.2 c hc).1
  have hbelow : ∀ b, t.belowByte k b = if b ∈ cells.map (·.1) then v b else s.belowByte k b := fun b => by
    rw [belowByte_eq, belowByte_eq, hdrains, hmem, belowOf, belowOf, read_writeCells hagree]
    split
    next hbc => rw [hflight b hbc]; rfl
    next => rfl
  refine ⟨hb, h.of_beside hb hat (hmasks ▸ h.panels) (hmasks ▸ h.masks) (fun b hin hclean => ?_) (hdrains ▸ h.drains), fun b hbc => ?_, fun b hbc => ?_⟩
  · rw [hmasks] at hin hclean
    rw [hcluster, hbelow, if_neg (hapart b hin)]
    exact h.clean b hin hclean
  · rw [view_below hat (h.keys_of hb k) (hmasks ▸ fun hin => hapart b hin hbc), hbelow, if_pos hbc]
  · by_cases hin : HeldIn (lineMasks s k) b
    · rw [view_held hat (h.keys_of hb k) (hmasks ▸ hin), view_held h.atomLines (h.keys k) hin, hcluster]
    · rw [view_below hat (h.keys_of hb k) (hmasks ▸ hin), view_below h.atomLines (h.keys k) hin, hbelow, if_neg hbc]

-- A store (spec/12 R247) ----------------------------------------------------------------------------------------------------------------------------

/-- The cells of a number at an address. -/
def cellsOf (pa n v : Nat) : List Host.Cell := ((upTo n).map (pa + ·)).zip (bytesLE n v)
theorem map_cellsOf (pa n v : Nat) : (cellsOf pa n v).map (·.1) = (upTo n).map (pa + ·) := by
  refine List.map_fst_zip ?_
  rw [bytesLE_length, List.length_map, upTo, List.length_range]
theorem mem_cellsOf (pa n v b : Nat) : b ∈ (cellsOf pa n v).map (·.1) ↔ pa ≤ b ∧ b < pa + n := by
  simp only [map_cellsOf, List.mem_map, upTo, List.mem_range]
  constructor
  · rintro ⟨i, hi, rfl⟩
    omega
  · rintro ⟨h1, h2⟩
    exact ⟨b - pa, by omega, by omega⟩
theorem getElem_bytesLE (n v i : Nat) (h : i < (bytesLE n v).length) : (bytesLE n v)[i] = BitVec.ofNat 8 (v / 2 ^ (8 * i)) := by
  induction n generalizing v i with
  | zero => simp [bytesLE] at h
  | succ n ih =>
    cases i with
    | zero => simp [bytesLE]
    | succ i =>
      simp only [bytesLE, List.getElem_cons_succ]
      rw [ih, Nat.div_div_eq_div_mul, Nat.mul_succ, Nat.add_comm, pow_add]
      rfl
theorem agree_cellsOf (pa n v : Nat) : Agree (fun b => BitVec.ofNat 8 (v / 2 ^ (8 * (b - pa)))) (cellsOf pa n v) := by
  intro c hc
  obtain ⟨i, hi, rfl⟩ := List.getElem_of_mem hc
  simp only [cellsOf, List.getElem_zip, List.getElem_map, upTo, List.getElem_range, getElem_bytesLE, Nat.add_sub_cancel_left]
/-- A store of a number through a line of its own shape. -/
theorem Holding.storeFor {k : Nat} {s : State} (h : Holding k s) {hart pa n v : Nat} {o : Orient} (hk : k = clusterOf hart) (lo : Bool)
    (halive : ∀ j, j < n → Alive s (clusterDie k) (pa + j)) (hline : ∀ j, j < n → (lineFor o n pa).holds (pa + j) = true) :
    Wrote k s (s.storeFor hart (lineFor o n pa) lo .none pa (bytesLE n v)) (cellsOf pa n v) fun b => BitVec.ofNat 8 (v / 2 ^ (8 * (b - pa))) := by
  have hagree := agree_cellsOf pa n v
  have hcells : ∀ c ∈ cellsOf pa n v, ∃ j, j < n ∧ c.1 = pa + j := fun c hc => by
    have hb := (mem_cellsOf pa n v c.1).1 (List.mem_map.2 ⟨c, hc, rfl⟩)
    exact ⟨c.1 - pa, by omega, by omega⟩
  have hin : ∀ c ∈ cellsOf pa n v, (lineFor o n pa).holds c.1 = true := fun c hc => by
    obtain ⟨j, hj, heq⟩ := hcells c hc
    exact heq ▸ hline j hj
  have hhome : ∀ c ∈ cellsOf pa n v, Alive s (clusterDie k) c.1 := fun c hc => by
    obtain ⟨j, hj, heq⟩ := hcells c hc
    exact heq ▸ halive j hj
  have hcore : coreOf hart / 8 = k := by
    rw [hk]
    unfold coreOf clusterOf
    omega
  unfold State.storeFor
  dsimp only
  rw [bytesLE_length, ← hk]
  have hpart := h.partTenants (s.hart hart).tenant.toNat ((upTo n).map (pa + ·))
  generalize s.partTenants k (s.hart hart).tenant.toNat ((upTo n).map (pa + ·)) = u at hpart ⊢
  have hu : ∀ c ∈ cellsOf pa n v, Alive u (clusterDie k) c.1 := fun c hc => alive_of_beside hpart.beside (hhome c hc)
  suffices hstore : Wrote k u (u.storeBytes (coreOf hart) (lineFor o n pa) lo .none pa (bytesLE n v)) (cellsOf pa n v) _ from
    hpart.wrote (hstore.stays (hstore.holding.ownBytes _ _))
  unfold State.storeBytes
  dsimp only
  rw [bytesLE_length, hcore]
  split
  case isTrue hcache =>
    refine hpart.holding.settleCells hagree hu fun c hc hpanel => ?_
    obtain ⟨j, hj, heq⟩ := hcells c hc
    have hsame : c.1 / 4096 = pa / 4096 := (panel_of_holds (hin c hc)).symm.trans (panel_lineFor o n pa)
    have hserved : servedBy pa ≠ .nothing := fun hnone => by
      have hdead := (halive 0 (by omega)).1
      rw [Nat.add_zero, State.dead, hnone] at hdead
      cases hdead
    rw [cacheable_panel (hsame ▸ hpanel) hserved] at hcache
    cases hcache
  case isFalse hcache =>
    obtain ⟨hfill, hhas⟩ := hpart.holding.lineFill (key := lineFor o n pa) ⟨pa, by simpa using hcache, (panel_lineFor o n pa).symm⟩ lo pa
    have hwrite := hfill.holding.writeCopies hhas hagree hin fun c hc => alive_of_beside hfill.beside (hu c hc)
    exact hfill.wrote (hwrite.stays (hwrite.holding.touch _ _))

end Sys2Proof.Claims
end

section
/-!
PROOFS. scommit writes the selected elements of the strip store buffer in their order (spec/08 R180, R182).
-/
namespace Sys2Proof.Claims
open Machine

-- Elements in their order (spec/08 R182) ------------------------------------------------------------------------------------------------------------

/-- The bytes after an element is written over them. -/
def putElem (f : Nat → Byte) (e : BufElem) (b : Nat) : Byte := if e.pa ≤ b ∧ b < e.pa + e.size then BitVec.ofNat 8 (e.val / 2 ^ (8 * (b - e.pa))) else f b
theorem putElem_covers {e : BufElem} {b : Nat} (h : covers e b) (f : Nat → Byte) : putElem f e b = BitVec.ofNat 8 (e.val / 2 ^ (8 * (b - e.pa))) := if_pos h
theorem putElem_outside {e : BufElem} {b : Nat} (h : ¬ covers e b) (f : Nat → Byte) : putElem f e b = f b := if_neg h
/-- What no element covers is as before. -/
theorem putElems_outside {l : List BufElem} {b : Nat} (h : ∀ x ∈ l, ¬ covers x b) (f : Nat → Byte) : l.foldl putElem f b = f b := by
  induction l generalizing f with
  | nil => rfl
  | cons x l ih =>
    rw [List.foldl_cons, ih fun y hy => h y (List.mem_cons_of_mem _ hy), putElem_outside (h x List.mem_cons_self)]
/-- The last element that covers a byte gives it. -/
theorem putElems_last {pre post : List BufElem} {e : BufElem} {b : Nat} (he : covers e b) (h : ∀ x ∈ post, ¬ covers x b) (f : Nat → Byte) :
    (pre ++ e :: post).foldl putElem f b = BitVec.ofNat 8 (e.val / 2 ^ (8 * (b - e.pa))) := by
  rw [List.foldl_append, List.foldl_cons, putElems_outside h, putElem_covers he]
/-- t is s after a commit of some elements. -/
structure Commits (k : Nat) (l : List BufElem) (s t : State) : Prop where
  holding : Holding k t
  alive : ∀ d b, Alive s d b → Alive t d b
  notes : s.Notes t
  cur : t.cur = s.cur
  views : t.clusterByte k = l.foldl putElem (s.clusterByte k)
theorem Commits.trans {k : Nat} {l l' : List BufElem} {s t u : State} (h : Commits k l s t) (g : Commits k l' t u) : Commits k (l ++ l') s u where
  holding := g.holding
  alive d b ha := g.alive d b (h.alive d b ha)
  notes := h.notes.trans g.notes
  cur := g.cur.trans h.cur
  views := by rw [g.views, h.views, List.foldl_append]
theorem Holding.commitsNone {k : Nat} {s : State} (h : Holding k s) : Commits k [] s s := ⟨h, fun _ _ => id, notes_refl s, rfl, rfl⟩
theorem wakeOthers_harts (s : State) (h : Option Nat) (pas : List Nat) : ∃ l, s.wakeOthers h pas = { s with harts := l } := by
  unfold State.wakeOthers
  dsimp only
  split
  · exact ⟨_, rfl⟩
  · exact ⟨s.harts, rfl⟩
/-- Only harts changed. -/
theorem Holding.withHarts {k : Nat} {s : State} (h : Holding k s) (l : Tab Hart) : Holding k { s with harts := l } :=
  ⟨h.alone, h.keys, h.atomLines, h.panels, h.masks, h.clean, h.drains⟩
/-- An element that commits as scommit is stated: one number, of bytes that one line holds, at homes that answer. -/
structure Commitable (s : State) (o : Orient) (e : BufElem) : Prop where
  whole : e.sliced = false
  plain : servedBy e.pa ≠ .mgmt
  alive : ∀ j, j < e.size → Alive s (dieOf s.cur) (e.pa + j)
  line : ∀ j, j < e.size → (lineFor o e.size e.pa).holds (e.pa + j) = true
theorem Commitable.of_commits {k : Nat} {l : List BufElem} {s t : State} {o : Orient} {e : BufElem} (h : Commitable s o e)
    (g : Commits k l s t) : Commitable t o e :=
  ⟨h.whole, h.plain, fun j hj => g.cur ▸ g.alive _ _ (h.alive j hj), h.line⟩
section
variable {s : State} {b : BufEntry} {e : BufElem} (h : Holding (clusterOf s.cur) s) (he : Commitable s b.o e) (ht : tbaseEn s.me.tbase = false)
include h he
theorem Commitable.writeAt : Commits (clusterOf s.cur) [e] s (s.writeAt s.cur ⟨e.pa, identityLeaf, 4⟩ e.size b.o .none e.val) := by
  have hwrite := h.storeFor (n := e.size) (o := b.o) (v := e.val) (hart := s.cur) rfl (leafO identityLeaf) (clusterDie_clusterOf s.cur ▸ he.alive) he.line
  have hC : leafC identityLeaf = 0 := by decide
  have hH : ¬ leafH identityLeaf = true := by decide
  rw [State.writeAt, if_neg he.plain, if_neg fun hne => hne hC]
  dsimp only
  rw [if_neg hH]
  generalize s.storeFor s.cur (lineFor b.o e.size e.pa) (leafO identityLeaf) .none e.pa (bytesLE e.size e.val) = t at hwrite ⊢
  have hnotes := notes_wakeOthers t (some s.cur) ((upTo e.size).map (e.pa + ·))
  obtain ⟨l, hl⟩ := wakeOthers_harts t (some s.cur) ((upTo e.size).map (e.pa + ·))
  rw [hl] at hnotes ⊢
  have hcur : t.cur = s.cur := cur_of_beside hwrite.beside
  have hkeep : ∀ d b, Alive s d b → Alive t d b := fun _ _ ha => alive_of_beside hwrite.beside ha
  refine ⟨hwrite.holding.withHarts l, hkeep, hnotes.after (harts_of_beside hwrite.beside), hcur, funext fun b => ?_⟩
  change t.clusterByte (clusterOf s.cur) b = putElem (s.clusterByte (clusterOf s.cur)) e b
  by_cases hb : covers e b
  · rw [putElem_covers hb, hwrite.written b ((mem_cellsOf ..).2 hb)]
  · rw [putElem_outside hb, hwrite.others b (mt (mem_cellsOf ..).1 hb)]
include ht
/-- One element in its turn. -/
theorem Commitable.commitElem (sel : Nat → Bool) (all : Bool) :
    Commits (clusterOf s.cur) ([e].filter fun x => sel x.row) s (s.commitElem s.cur b sel all e) := by
  have hme : tbaseEn (s.hart s.cur).tbase = false := ht
  have hleaf : s.leafAtCommit s.cur e = none := by simp [State.leafAtCommit, hme]
  have htouch : s.commitTouch s.cur e none = s := by simp [State.commitTouch, hme]
  have hvalue : ∀ e' : BufElem, e'.sliced = false → s.commitValue (coreOf s.cur) e' sel = e'.val := fun e' h => by simp [State.commitValue, h]
  unfold State.commitElem
  rw [he.whole, if_neg Bool.false_ne_true]
  cases hsel : sel e.row with
  | false =>
    rw [List.filter_cons_of_neg (by rw [hsel]; exact Bool.false_ne_true)]
    exact h.commitsNone
  | true =>
    have hC : ¬ (leafC identityLeaf != 0) = true := by decide
    rw [List.filter_cons_of_pos (by exact hsel), hleaf]
    dsimp only
    rw [htouch, hvalue, if_neg hC, ite_self]
    · exact he.writeAt h
    · rfl
end
theorem Commits.tbase {k : Nat} {l : List BufElem} {s t : State} (h : Commits k l s t) : t.me.tbase = s.me.tbase := by
  rw [State.me, State.me, h.cur, (h.notes s.cur).rest]
/-- Steps that each commit some elements, one after another. -/
theorem commits_foldl {α : Type} {c : Nat} {f : State → α → State} {g : α → List BufElem} {P : State → α → Prop}
    (hP : ∀ {l s t a}, P s a → Commits (clusterOf c) l s t → P t a)
    (hf : ∀ {s a}, s.cur = c → Holding (clusterOf c) s → tbaseEn s.me.tbase = false → P s a → Commits (clusterOf c) (g a) s (f s a))
    (xs : List α) {s : State} (hc : s.cur = c) (h : Holding (clusterOf c) s) (ht : tbaseEn s.me.tbase = false) (hxs : ∀ x ∈ xs, P s x) :
    Commits (clusterOf c) (xs.flatMap g) s (xs.foldl f s) := by
  induction xs generalizing s with
  | nil => exact h.commitsNone
  | cons x xs ih =>
    have hone := hf hc h ht (hxs x List.mem_cons_self)
    exact hone.trans (ih (hone.cur.trans hc) hone.holding (hone.tbase.symm ▸ ht) fun y hy => hP (hxs y (List.mem_cons_of_mem _ hy)) hone)
/-- The elements of every entry, in their order. -/
theorem commitAll_commits {s : State} (h : Holding (clusterOf s.cur) s) (ht : tbaseEn s.me.tbase = false) (sel : Nat → Bool) (all : Bool)
    (hbuf : ∀ b ∈ s.me.buffer, ∀ e ∈ b.elems, Commitable s b.o e) :
    Commits (clusterOf s.cur) ((s.me.buffer.flatMap (·.elems)).filter fun x => sel x.row) s (s.commitAll s.cur sel all) := by
  have entry : ∀ {t : State} {b : BufEntry}, t.cur = s.cur → Holding (clusterOf s.cur) t → tbaseEn t.me.tbase = false →
      (∀ e ∈ b.elems, Commitable t b.o e) →
      Commits (clusterOf s.cur) (b.elems.filter fun x => sel x.row) t (b.elems.foldl (fun u e => u.commitElem s.cur b sel all e) t) := by
    intro t b hc hh htb he
    have hfold := commits_foldl (c := s.cur) (f := fun u e => u.commitElem s.cur b sel all e) (g := fun e => [e].filter fun x => sel x.row)
      (P := fun u e => Commitable u b.o e) Commitable.of_commits (fun {u e} hu hholding htu hcommit => by
        rw [← hu] at hholding ⊢
        exact hcommit.commitElem hholding htu sel all) b.elems hc hh htb he
    rwa [← List.filter_flatMap, List.flatMap_singleton'] at hfold
  have hall := commits_foldl (c := s.cur) (f := fun u b => b.elems.foldl (fun u e => u.commitElem s.cur b sel all e) u)
    (g := fun b => b.elems.filter fun x => sel x.row) (P := fun u (b : BufEntry) => ∀ e ∈ b.elems, Commitable u b.o e)
    (fun {_ _ _ _} hp hg e he => (hp e he).of_commits hg) entry s.me.buffer rfl h ht hbuf
  rw [← List.filter_flatMap] at hall
  exact hall

-- scommit (spec/08 R180, R182) ----------------------------------------------------------------------------------------------------------------------

theorem holding_of_bare {s : State} (h : Bare s) (k : Nat) : Holding k s := by
  obtain ⟨hdrains, hclusters⟩ := h
  have hlines : ∀ j, (s.cluster j).lines = [] := fun j => (hclusters j).1
  have hatom : ∀ j, (s.cluster j).atomLines = [] := fun j => (hclusters j).2.1
  have hmasks : lineMasks s k = [] := by rw [lineMasks, hlines, List.map_nil]
  exact
  { alone := fun j _ => ⟨hlines j, hatom j⟩
    keys := fun j => (hclusters j).2.2.2
    atomLines := hatom k
    panels := by simp [hmasks]
    masks := by simp [hmasks]
    clean := by simp [hmasks, HeldIn]
    drains := by simp [hdrains] }
/-- The rows that a scommit selects. -/
def stripSelects (h : Hart) (p : Option Prefix) (i : Nat) : Bool :=
  match p with
  | none => true
  | some q => decide (i < 256 * h.lanes) && (h.pred q.p).bit i != q.neg
/-- A hart after its strip is committed. -/
def Hart.committedStrip (h : Hart) : Hart := { h with buffer := [], stripBase := h.stripBase + BitVec.ofNat 64 h.rows }
theorem exec_scommit {p : Option Prefix} {s : State} (hown : s.me.own = s.me.ctx) (hp : ∀ q, p = some q → (s.me.pred q.p).prob = false)
    (hlocks : s.myCore.interlocks = []) (hj : s.journals = []) :
    exec (.scommit p) s = .next (((((s.commitAll s.cur (stripSelects s.me p) p.isNone).updMe Hart.committedStrip).bumpMe 11 1).bumpMe 1 1).advance) := by
  have htable : s.myCore.interlocks.length < 32 := by simp [hlocks]
  have hconf : ∀ rd wr, s.conflicts s.cur rd wr = [] := fun rd wr => by
    rw [State.conflicts, show (s.core (coreOf s.cur)).interlocks = [] from hlocks]
    rfl
  have hemit : ∀ pa n, s.emissionMeets s.cur pa n = false := fun pa n => by simp [State.emissionMeets, hj]
  change execScommit p s = _
  cases p with
  | none => simp [execScommit, finish, needOwner_ok hown, awaitTable_ok htable, awaitInterlock_ok (hconf _ _), hemit, Op.bind_run, ask, upd]; rfl
  | some q => simp [execScommit, finish, needOwner_ok hown, awaitTable_ok htable, awaitInterlock_ok (hconf _ _), hemit, hp q rfl, Op.bind_run, ask, upd]; rfl
theorem execScommit_probability {q : Prefix} {s : State} (hown : s.me.own = s.me.ctx) (hq : (s.me.pred q.p).prob = true) (hc : s.copying s.cur = false) :
    exec (.scommit (some q)) s = .next (s.takeTrap s.cur { cause := 0x10, value := q.p.setWidth 64, tpc := s.me.pc }) := by
  change execScommit (some q) s = _
  simp [execScommit, finish, needOwner_ok hown, hq, trap_takes hc, Op.bind_run, ask]
theorem stripSelects_iff (h : Hart) (p : Option Prefix) (i : Nat) : stripSelects h p i = true ↔ (match p with
    | none => True
    | some q => i < 256 * h.lanes ∧ (h.pred q.p).bit i ≠ q.neg) := by
  cases p <;> simp [stripSelects]
/-- A word after which the hart's strip is committed. -/
theorem Commits.goesOn {k : Nat} {l : List BufElem} {s u w : State} (h : Commits k l s u) (hw : Charged (u.updMe Hart.committedStrip) w) :
    GoesOn s w.advance ∧ w.advance.me.buffer = [] ∧ w.advance.me.v = s.me.v ∧
      w.advance.me.stripBase = s.me.stripBase + BitVec.ofNat 64 s.me.rows ∧ ∀ b, w.advance.clusterByte k b = l.foldl putElem (s.clusterByte k) b := by
  have hu : u.me = { s.me with latch := u.me.latch, owes := u.me.owes, behind := u.me.behind } := by
    rw [State.me, State.me, h.cur]
    exact (h.notes s.cur).rest
  have hme := hw.advance_me
  rw [State.updMe_me, hu] at hme
  refine ⟨hw.goesOn ?_ ?_ ?_, ?_, ?_, ?_, fun b => ?_⟩
  · rw [State.updMe_me, hu]
    rfl
  · rw [State.updMe_me, hu]
    rfl
  · rw [State.updMe_me, hu]
    rfl
  · rw [hme]
    rfl
  · rw [hme]
    rfl
  · rw [hme]
    rfl
  · exact (hw.views k b).trans (congrFun h.views b)
/-- Settles O27: the buffered elements go through the lines of their cluster one after another, and what leaves a line on the way goes home,
so that each byte reads as the last selected element that covers it gave it. -/
theorem stripCommit : Obligations.StripCommit := by
  intro p s hown hdrains
  refine ⟨fun q hp hq hc => hp ▸ execScommit_probability hown hq hc, fun hp hlocks hj ht hbare hbuf => ?_⟩
  have hcommit := commitAll_commits (holding_of_bare hbare.1 _) ht (stripSelects s.me p) p.isNone fun b hb e he => by
    obtain ⟨hwhole, hplain, ⟨-, hwritable, -⟩, hline⟩ := hbuf b hb e he
    exact ⟨hwhole, hplain, fun j hj => ⟨(hwritable j hj).1, (hwritable j hj).2.1⟩, hline⟩
  obtain ⟨hgoes, hempty, hv, hbase, hviews⟩ := hcommit.goesOn ((charged_bumpMe _ 11 1).trans (charged_bumpMe _ 1 1))
  refine ⟨_, exec_scommit hown hp hlocks hj, hgoes, hempty, hv, hbase, fun pre e post b hsplit hsel hcovers hlast => ?_, fun b hnone => ?_⟩
  · rw [hviews, hsplit, List.filter_append, List.filter_cons_of_pos (by exact (stripSelects_iff s.me p e.row).2 hsel)]
    exact putElems_last hcovers (fun x hx => hlast x (List.mem_of_mem_filter hx) ((stripSelects_iff s.me p x.row).1 (List.mem_filter.1 hx).2)) _
  · rw [hviews]
    exact putElems_outside (fun x hx => hnone x (List.mem_of_mem_filter hx) ((stripSelects_iff s.me p x.row).1 (List.mem_filter.1 hx).2)) _

end Sys2Proof.Claims
end
